-- ==== Sys2Proof/Word.lean ====
section
/-! DEFINITION. The word types of the MW-CX7A and the small index types its instructions use (R3, R17, R148). -/

namespace Sys2Proof

/-- A byte of any memory space (R3, R98). -/
abbrev Byte := BitVec 8
/-- A 32-bit instruction word (R142). -/
abbrev Word32 := BitVec 32
/-- A 64-bit scalar register or system register (R17, R183). -/
abbrev Word := BitVec 64
/-- A vector register: 256 bytes, byte b in bits [8b+7:8b] (R76, R228). -/
abbrev VecData := BitVec 2048
/-- A mask register: 256 bits (R17). -/
abbrev MaskData := BitVec 256

/-- Number of an x register (R148). -/
abbrev XReg := BitVec 5
/-- Number of a v register (R148). -/
abbrev VReg := BitVec 5
/-- Number of a k register, 0-7 (R148). -/
abbrev KReg := BitVec 3
/-- Number of a q register, 0-15 (R148). -/
abbrev QReg := BitVec 4

/-- A core number 0-255 (R12). -/
abbrev CoreId := Fin 256

/-- The four strands of a core, in ring order (R16). -/
inductive StrandId where
  | x | l | c | s
  deriving DecidableEq, Repr

/-- Strand number: 0 for X, 1 for L, 2 for C, 3 for S (R31, R337). -/
def StrandId.num : StrandId → Fin 4
  | .x => 0 | .l => 1 | .c => 2 | .s => 3

/-- The strand of a number (R31). -/
def StrandId.ofNum : Fin 4 → StrandId
  | 0 => .x | 1 => .l | 2 => .c | 3 => .s

/-- The next strand in the ring X, L, C, S (R16). -/
def StrandId.next : StrandId → StrandId
  | .x => .l | .l => .c | .c => .s | .s => .x

/-- The previous strand in the ring (R16). -/
def StrandId.prev : StrandId → StrandId
  | .x => .s | .l => .x | .c => .l | .s => .c

/-- A code position: a line index and a word position (R33). -/
structure Pos where
  line : Nat
  word : Nat
  deriving DecidableEq, Repr

/-- The value 16·line + word of a position (R146, R165). -/
def Pos.value (p : Pos) : Nat := 16 * p.line + p.word

/-- The position that a value 16·line + word names (R165). -/
def Pos.ofValue (v : Nat) : Pos := ⟨v / 16, v % 16⟩

@[simp] theorem StrandId.ofNum_num (i : StrandId) : StrandId.ofNum i.num = i := by cases i <;> rfl

end Sys2Proof
end

