-- ==== Sys2Proof/Syntax.lean ====
section
/-! DEFINITION. The instructions and events of the MW-CX7A: the inductive `Instr` has one constructor for each row of
spec/opcode_table.json. The first 184 kinds are the encoded instructions of R149; the others are the part's events
(results that perform, engine steps, Librarian, host and power steps), which have no encoding. -/

namespace Sys2Proof

/-- Element formats (R53). -/
inductive Fmt where
  | f64 | f32 | bf16 | f16 | e4m3 | e5m2 | t8 | e2m1 | s8 | s16 | s32 | s64 | z8 | z16 | z32 | z64
  deriving DecidableEq, Repr

/-- The integer formats of scalar loads and stores (R178, R179). -/
inductive IntFmt where
  | s8 | s16 | s32 | s64 | z8 | z16 | z32 | z64
  deriving DecidableEq, Repr

/-- Rounding modes (R60). -/
inductive Rm where
  | rne | rz | rdn | rup | rna | rs
  deriving DecidableEq, Repr

/-- Memory scopes (R98, R145). -/
inductive Scope where
  | core | chim | dev | dom | sys
  deriving DecidableEq, Repr

/-- When an instruction may issue: a delay 0-6 after the previous issue, or a stamp (R35, R36, R142). -/
inductive Timing where
  | after (dly : Fin 7)
  | stamped (stamp : Word32)
  deriving DecidableEq, Repr

/-- What every base word carries beside its operation: timing, token bits, and the optional bound word (R142, R143). -/
structure Hdr where
  timing : Timing := .after 0
  pbp : Bool := false
  pbn : Bool := false
  pap : Bool := false
  pan : Bool := false
  bound : Option Word32 := none
  deriving DecidableEq, Repr

/-- The forms of fence (R106). -/
inductive FenceForm where
  | acq | rel | full
  deriving DecidableEq, Repr

/-- The object-space code SP (R189). -/
inductive ObjSpace where
  | ls | ps | gm | xm
  deriving DecidableEq, Repr

/-- Operations of an atomic (R204). -/
inductive AtomOp where
  | swap | add | and | or | xor | min | max | cas | fadd
  deriving DecidableEq, Repr

/-- Memory order of an atomic: relaxed, or acquire, release or both at a scope (R204). -/
inductive AtomOrd where
  | rlx | acq (sc : Scope) | rel (sc : Scope) | acqrel (sc : Scope)
  deriving DecidableEq, Repr

/-- Operands of an atomic beside its registers D, A, B (R204). -/
structure AtomSpec where
  op : AtomOp
  fmt : Fmt
  rm : Rm
  sat : Bool
  c : XReg
  ord : AtomOrd
  deriving DecidableEq, Repr

/-- Conversion carried by a copy: source and destination format, rounding and saturation (R193). -/
structure CopyConv where
  src : Fmt
  dst : Fmt
  rm : Rm
  sat : Bool
  deriving DecidableEq, Repr

/-- Typed-word operands of a copy (R193): named barriers with their spaces, barrier pair register, scope, channel,
conversion. -/
structure CopySpec where
  /-- Destination barrier and its space: LS, GM or XM (R193 DBS). -/
  db : Option ObjSpace
  /-- Source barrier: true in GM, false in LS (R193 SBS). -/
  sb : Option Bool
  c : XReg
  scope : Scope
  ch : BitVec 3
  cv : Option CopyConv
  deriving DecidableEq, Repr

/-- Level of a link collective (R206). -/
inductive CollLvl where
  | bind | dev | grp
  deriving DecidableEq, Repr

/-- Operands shared by the link collectives (R206): level, barriers (true = GM), register pair, scope, channel, tag. -/
structure CollSpec where
  lvl : CollLvl
  db : Option Bool
  sb : Option Bool
  c : XReg
  scope : Scope
  ch : BitVec 3
  tag : BitVec 10
  arg : BitVec 22
  deriving DecidableEq, Repr

/-- Selector of accq (R211). -/
inductive AccqSel where
  | fly | wear | free
  deriving DecidableEq, Repr

/-- Selector of nstat (R273). -/
inductive NstatSel where
  | map | q | ecc
  deriving DecidableEq, Repr

/-- What tlbinv removes (R185); the page form carries its page size code. -/
inductive TlbKind where
  | page | asid | all
  deriving DecidableEq, Repr

/-- Page sizes (R185, R323). -/
inductive PageSize where
  | k64 | m2 | g1
  deriving DecidableEq, Repr

/-- Destination of a register write in flight (R343). The x bank is the system bank when `sys` (R340). -/
inductive RegTarget where
  | none
  | x (sys : Bool) (r : XReg)
  | v (r : VReg)
  | k (r : KReg)
  | q (r : QReg)
  deriving DecidableEq, Repr

/-- A stochastic rounding that a result still has to make (R65): the element and its width, the number of words that round it up, and
its bits and flags either way. -/
structure Stoch where
  elem : Nat
  width : Nat
  thr : Nat
  up : Nat × BitVec 6
  down : Nat × BitVec 6
  deriving DecidableEq, Repr

/-- A register write in flight (R343): target, data, the bits it writes (enabled elements, R213; descriptor fields, R18),
the flags set with it (R71), the pushes made with it (R40), and of poisoned data its store (SRC of R386) and the
address that a MEMERR records (R346, R363). -/
structure Result where
  target : RegTarget
  data : VecData
  mask : VecData
  flags : BitVec 6
  pushP : Bool
  pushN : Bool
  poison : Option (Fin 9 × Nat)
  pos : Nat
  /-- Issue order of the instruction on its strand (R163). -/
  ord : Nat
  /-- The elements that round stochastically when the result is written, in ascending order; `data` and `flags` leave them out (R65, R66). -/
  stoch : List Stoch := []
  deriving DecidableEq, Repr

/-- The unit that owns a location: the banks of a core's scratchpad, an HBM channel by physical address, or a remote
device's window (R99, R113). -/
inductive MemUnit where
  | ls (core : CoreId)
  | gm
  | xm (dev : Nat)
  deriving DecidableEq, Repr

/-- Accesses of one strand numbered from `lo` and below `bound` that must have performed, at core scope or at every scope (`wide`);
only loads, acquire waits and atomics among them when `loads` (R106). -/
structure Need where
  core : CoreId
  strand : StrandId
  lo : Nat
  bound : Nat
  wide : Bool
  loads : Bool
  deriving DecidableEq, Repr

/-- What an access does at its owning unit in the one cycle in which it performs (R99, R113, R199, R202, R204, R273). -/
inductive UnitOp where
  | write (bytes : List Byte)
  /-- Bytes at listed addresses, each with the mask of the bits written. -/
  | scatter (bytes : List (Nat × Byte × Byte))
  | atomic (a : AtomSpec) (v cmp : Word) (d : XReg)
  | binit (tgt : Word32) (ph : BitVec 16)
  | barr
  | wset (v : Word)
  | wwake (n : Word) (d : XReg)
  | npost (n : Word32)
  deriving DecidableEq, Repr

/-- A write, atomic or object update on its way to its unit (R99, R182): issuing core and strand, number of the access in
its strand's order (R102), place, operation, the pushes made when it performs, and position. -/
structure Access where
  core : CoreId
  strand : StrandId
  seq : Nat
  unit : MemUnit
  addr : Nat
  op : UnitOp
  pushP : Bool
  pushN : Bool
  pos : Nat
  sys : Bool
  ord : Nat
  /-- The access reached its core's memory port and its push was made there (GM, XM; R164). -/
  posted : Bool
  /-- GM virtual address sampled by the access, for a translated access (R330). -/
  va : Nat
  /-- Translation epoch it carries (R330). -/
  epoch : Nat
  /-- Its rank among the accesses that need a bank in one cycle (R74). -/
  prio : Nat
  /-- Its place in the order in which its core's port accepted accesses (R99). -/
  stamp : Nat := 0
  deriving DecidableEq, Repr

/-- A 64-byte management message: partition whose queue pair carried it and its eight words (R374). -/
structure MgmtMsg where
  part : Fin 4
  w0 : Word
  tag : Word
  w2 : Word
  w3 : Word
  w4 : Word
  w5 : Word
  w6 : Word
  w7 : Word
  deriving DecidableEq, Repr

/-- What another device asks of this one (R369). -/
inductive RemoteOp where
  | load (n : Nat)
  | store (bytes : List Byte)
  | atomic (a : AtomSpec) (v cmp : Word)
  | arrive
  | wset (v : Word)
  | wwake (n : Word)
  | npost (n : Word32)
  deriving DecidableEq, Repr

/-- What the Librarian writes without a row of its own: control registers (R354, R376, R380, R381, R384), the slot table (R318), and table entries
that map and free pages (R279, R305, R323, R327, R332). -/
inductive LibReg where
  | damph (c : CoreId)
  | dampx (c : CoreId)
  | reserve (isl : Fin 64)
  | plimit
  | fstep (isl : Fin 64)
  | trips (sensor : Fin 320)
  /-- A core slot: the value is word 0, written last, the others are words 1 to 7. -/
  | coreSlot (c : CoreId) (rest : Vector (BitVec 64) 7)
  | stokerSlot (stoker : Fin 384)
  /-- A leaf that maps an ordinary page, of a size, at a virtual address: the value is the entry. -/
  | mapPage (asid va : Nat) (size : PageSize)
  /-- A compute-capable page of a channel: bit 2 of the value is W. -/
  | ccPage (asid va : Nat) (chan : Fin 384)
  /-- A page for the shadow pool of a partition: the value is its physical address. -/
  | poolPage (part : Fin 4) (size : PageSize)
  | freePage (asid va : Nat)
  /-- A request for the save engine of a core: the value is the address of the save area (R356). -/
  | save (c : CoreId)
  /-- A queue pair is created on the host's request for a port, a partition and, as the value, an ASID, or destroyed (R372). -/
  | createQp (qp : Fin 256) (port : Bool) (part : Fin 4) (launch : Bool)
  | destroyQp (qp : Fin 256)
  /-- The host reads over the board management interface: the device certificate, or the lifetime histograms (R389, R391). -/
  | boardRead (histograms : Bool)
  deriving DecidableEq, Repr

/-- Which half of an in-package copy group's transfer performs (R195). -/
inductive XferSide where
  | read | write
  deriving DecidableEq, Repr

/-- A firmware image as the boot ROM or INSTALL sees it (R375, R390): its bytes, version, whether its header asks to
advance the rollback counter, and the board configuration: P, from 0 to 510 (R82), and FLOOR (R383). -/
structure FwImage where
  bytes : List Byte
  digest : BitVec 256
  signature : List Byte
  version : Nat
  advance : Bool
  stripesP : Fin 511
  floor : Nat
  handlers : List (Nat × List Word32)
  deriving DecidableEq, Repr

/-- The instructions (first block, in opcode order, R149) and events (second block) of the MW-CX7A. -/
inductive Instr where
  -- control and time (R163-R173)
  | nop (h : Hdr)
  | wait (h : Hdr) (n : Word32)
  | j (h : Hdr) (tgt : BitVec 15)
  | jr (h : Hdr) (a : XReg)
  | beq (h : Hdr) (a b : XReg) (tgt : BitVec 15)
  | bne (h : Hdr) (a b : XReg) (tgt : BitVec 15)
  | blt (h : Hdr) (a b : XReg) (tgt : BitVec 15)
  | bge (h : Hdr) (a b : XReg) (tgt : BitVec 15)
  | bltu (h : Hdr) (a b : XReg) (tgt : BitVec 15)
  | bgeu (h : Hdr) (a b : XReg) (tgt : BitVec 15)
  | call (h : Hdr) (d : XReg) (tgt : BitVec 15)
  | ret (h : Hdr) (a : XReg)
  | loop (h : Hdr) (a : XReg) (tgt : BitVec 15)
  | lexit (h : Hdr) (tgt : BitVec 15)
  | retire (h : Hdr)
  | bbit (h : Hdr) (a : XReg) (n : BitVec 6) (sense : Bool) (tgt : BitVec 15)
  -- tokens, marks, fences, traps (R172-R176)
  | give (h : Hdr) (dir : Bool) (n : BitVec 4)
  | take (h : Hdr) (dir : Bool) (n : BitVec 4)
  | mark (h : Hdr) (tag : BitVec 4)
  | fence (h : Hdr) (form : FenceForm) (sc : Scope)
  | tfence (h : Hdr)
  | trap (h : Hdr) (code : BitVec 16)
  | eret (h : Hdr)
  | dtwait (h : Hdr) (d a : XReg) (ofs : Word32)
  -- integer and address arithmetic (R177, R178)
  | add (h : Hdr) (d a b : XReg)
  | sub (h : Hdr) (d a b : XReg)
  | and (h : Hdr) (d a b : XReg)
  | or (h : Hdr) (d a b : XReg)
  | xor (h : Hdr) (d a b : XReg)
  | sll (h : Hdr) (d a b : XReg)
  | srl (h : Hdr) (d a b : XReg)
  | sra (h : Hdr) (d a b : XReg)
  | addi (h : Hdr) (d a : XReg) (imm : Word32)
  | andi (h : Hdr) (d a : XReg) (imm : Word32)
  | ori (h : Hdr) (d a : XReg) (imm : Word32)
  | xori (h : Hdr) (d a : XReg) (imm : Word32)
  | slli (h : Hdr) (d a : XReg) (sh : BitVec 6)
  | srli (h : Hdr) (d a : XReg) (sh : BitVec 6)
  | srai (h : Hdr) (d a : XReg) (sh : BitVec 6)
  | li (h : Hdr) (d : XReg) (imm : Word32)
  | lih (h : Hdr) (d a : XReg) (imm : Word32)
  | slt (h : Hdr) (d a b : XReg)
  | sltu (h : Hdr) (d a b : XReg)
  | slti (h : Hdr) (d a : XReg) (imm : Word32)
  | min (h : Hdr) (d a b : XReg)
  | max (h : Hdr) (d a b : XReg)
  | minu (h : Hdr) (d a b : XReg)
  | maxu (h : Hdr) (d a b : XReg)
  | mul (h : Hdr) (d a b : XReg)
  | mulh (h : Hdr) (d a b : XReg)
  | mulhu (h : Hdr) (d a b : XReg)
  | div (h : Hdr) (d a b : XReg)
  | divu (h : Hdr) (d a b : XReg)
  | rem (h : Hdr) (d a b : XReg)
  | remu (h : Hdr) (d a b : XReg)
  | popc (h : Hdr) (d a : XReg)
  -- scalar loads and stores (R179-R182); `ord` is the scope of .acq or .rel
  | lds (h : Hdr) (d a : XReg) (fmt : IntFmt) (ord : Option Scope) (imm : Word32)
  | sts (h : Hdr) (a b : XReg) (fmt : IntFmt) (ord : Option Scope) (imm : Word32)
  | ldp (h : Hdr) (d a : XReg) (fmt : IntFmt) (ord : Option Scope) (imm : Word32)
  | stp (h : Hdr) (a b : XReg) (fmt : IntFmt) (ord : Option Scope) (imm : Word32)
  | ldg (h : Hdr) (d a : XReg) (fmt : IntFmt) (ord : Option Scope) (imm : Word32)
  | stg (h : Hdr) (a b : XReg) (fmt : IntFmt) (ord : Option Scope) (imm : Word32)
  | ldx (h : Hdr) (d a : XReg) (fmt : IntFmt) (ord : Option Scope) (imm : Word32)
  | stx (h : Hdr) (a b : XReg) (fmt : IntFmt) (ord : Option Scope) (imm : Word32)
  -- stream set-up (R190, R191)
  | qset (h : Hdr) (d : QReg) (a : XReg) (n : BitVec 2)
  | qld (h : Hdr) (d : QReg) (a : XReg) (imm : Word32)
  | qst (h : Hdr) (a : QReg) (b : XReg) (imm : Word32)
  | qmov (h : Hdr) (d a : QReg)
  | qadv (h : Hdr) (d : QReg) (a b : XReg) (imm : Word32)
  | qget (h : Hdr) (d : XReg) (a : QReg) (n : BitVec 2)
  | qchk (h : Hdr) (d : XReg) (a : QReg) (u : Bool)
  | qwp (h : Hdr) (d : QReg) (ch : BitVec 3) (en : Bool)
  -- copies (R192-R197): D destination address, A source address, B byte count
  | cpLl (h : Hdr) (d a b : XReg) (o : CopySpec)
  | cpLp (h : Hdr) (d a b : XReg) (o : CopySpec)
  | cpPl (h : Hdr) (d a b : XReg) (o : CopySpec)
  | cpLf (h : Hdr) (d a b : XReg) (o : CopySpec)
  | cpLw (h : Hdr) (d a b : XReg) (o : CopySpec)
  | cpLg (h : Hdr) (d a b : XReg) (o : CopySpec)
  | cpGl (h : Hdr) (d a b : XReg) (o : CopySpec)
  | cpGg (h : Hdr) (d a b : XReg) (o : CopySpec)
  | cpLx (h : Hdr) (d a b : XReg) (o : CopySpec)
  | cpXl (h : Hdr) (d a b : XReg) (o : CopySpec)
  | cpGx (h : Hdr) (d a b : XReg) (o : CopySpec)
  | cpXg (h : Hdr) (d a b : XReg) (o : CopySpec)
  | cpAl (h : Hdr) (d a b : XReg) (o : CopySpec)
  | cpAg (h : Hdr) (d a b : XReg) (o : CopySpec)
  | cpAw (h : Hdr) (d a b : XReg) (o : CopySpec)
  | cpGw (h : Hdr) (d a b : XReg) (o : CopySpec)
  -- barriers and wait words (R198-R203); `ord` is the scope of .rel or .acq
  | binit (h : Hdr) (sp : ObjSpace) (a b : XReg)
  | barr (h : Hdr) (sp : ObjSpace) (a : XReg) (ord : Option Scope)
  | bwait (h : Hdr) (sp : ObjSpace) (d a b : XReg) (ord : Option Scope)
  | bwaitt (h : Hdr) (sp : ObjSpace) (d a b : XReg) (ord : Option Scope) (lim : Word32)
  | wset (h : Hdr) (sp : ObjSpace) (a b : XReg) (ord : Option Scope)
  | wwait (h : Hdr) (sp : ObjSpace) (d a b : XReg) (cond : BitVec 3) (ord : Option Scope)
  | wqwait (h : Hdr) (sp : ObjSpace) (d a : XReg) (ord : Option Scope)
  | wwake (h : Hdr) (sp : ObjSpace) (d a b : XReg) (ord : Option Scope)
  -- atomics (R204, R205)
  | aml (h : Hdr) (d a b : XReg) (o : AtomSpec)
  | amp (h : Hdr) (d a b : XReg) (o : AtomSpec)
  | amg (h : Hdr) (d a b : XReg) (o : AtomSpec)
  | amx (h : Hdr) (d a b : XReg) (o : AtomSpec)
  -- vertical FIFOs (R206); `dir` true is .dn
  | fluePut (h : Hdr) (dir : Bool) (a : VReg)
  | flueGet (h : Hdr) (d : VReg) (dir : Bool)
  | flueFree (h : Hdr) (d : XReg) (dir : Bool)
  -- link collectives and accession (R206-R211)
  | lred (h : Hdr) (d a b : XReg) (fmt : Fmt) (rm : Rm) (sat : Bool) (o : CollSpec)
  | lbcast (h : Hdr) (d a b : XReg) (o : CollSpec)
  | lgath (h : Hdr) (d a b : XReg) (o : CollSpec)
  | acc (h : Hdr) (d a b c : XReg) (repl : Bool)
  | bpoll (h : Hdr) (sp : ObjSpace) (d a : XReg) (ord : Option Scope)
  | wpoll (h : Hdr) (sp : ObjSpace) (d a : XReg) (ord : Option Scope)
  | accq (h : Hdr) (d : XReg) (sel : AccqSel)
  -- vector arithmetic (R217-R222)
  | vadd (h : Hdr) (d a b : VReg) (k : KReg) (fmt : Fmt) (rm : Rm) (sat : Bool)
  | vsub (h : Hdr) (d a b : VReg) (k : KReg) (fmt : Fmt) (rm : Rm) (sat : Bool)
  | vmul (h : Hdr) (d a b : VReg) (k : KReg) (fmt : Fmt) (rm : Rm) (sat : Bool)
  | vfma (h : Hdr) (d a b c : VReg) (k : KReg) (fmt : Fmt) (rm : Rm) (sat : Bool)
  | vfms (h : Hdr) (d a b c : VReg) (k : KReg) (fmt : Fmt) (rm : Rm) (sat : Bool)
  | vfnma (h : Hdr) (d a b c : VReg) (k : KReg) (fmt : Fmt) (rm : Rm) (sat : Bool)
  | vmin (h : Hdr) (d a b : VReg) (k : KReg) (fmt : Fmt)
  | vmax (h : Hdr) (d a b : VReg) (k : KReg) (fmt : Fmt)
  | vabs (h : Hdr) (d a : VReg) (k : KReg) (fmt : Fmt) (sat : Bool)
  | vneg (h : Hdr) (d a : VReg) (k : KReg) (fmt : Fmt) (sat : Bool)
  | vdiv (h : Hdr) (d a b : VReg) (k : KReg) (fmt : Fmt) (rm : Rm)
  | vsqrt (h : Hdr) (d a : VReg) (k : KReg) (fmt : Fmt) (rm : Rm)
  | vrcp (h : Hdr) (d a : VReg) (k : KReg) (fmt : Fmt) (rm : Rm)
  | vrsq (h : Hdr) (d a : VReg) (k : KReg) (fmt : Fmt) (rm : Rm)
  | vround (h : Hdr) (d a : VReg) (k : KReg) (fmt : Fmt) (rm : Rm)
  | vclass (h : Hdr) (d a : VReg) (k : KReg) (fmt : Fmt)
  | vexp (h : Hdr) (d a : VReg) (k : KReg) (fmt : Fmt) (rm : Rm)
  | vexp2 (h : Hdr) (d a : VReg) (k : KReg) (fmt : Fmt) (rm : Rm)
  | vlog (h : Hdr) (d a : VReg) (k : KReg) (fmt : Fmt) (rm : Rm)
  | vlog2 (h : Hdr) (d a : VReg) (k : KReg) (fmt : Fmt) (rm : Rm)
  | vsin (h : Hdr) (d a : VReg) (k : KReg) (fmt : Fmt) (rm : Rm)
  | vcos (h : Hdr) (d a : VReg) (k : KReg) (fmt : Fmt) (rm : Rm)
  | vtanh (h : Hdr) (d a : VReg) (k : KReg) (fmt : Fmt) (rm : Rm)
  | vclamp (h : Hdr) (d a b c : VReg) (k : KReg) (fmt : Fmt)
  -- comparison, selection, masks, bits (R223-R228)
  | vcmp (h : Hdr) (d : KReg) (a b : VReg) (k : KReg) (cond : BitVec 3) (fmt : Fmt)
  | vsel (h : Hdr) (d a b : VReg) (k : KReg) (fmt : Fmt)
  | kop (h : Hdr) (d a b c : KReg) (tt : BitVec 8)
  | kmov (h : Hdr) (d : KReg) (a : XReg) (b : KReg) (n : BitVec 2)
  | vlop3 (h : Hdr) (d a b c : VReg) (k : KReg) (fmt : Fmt) (tt : BitVec 8)
  | vsll (h : Hdr) (d a b : VReg) (k : KReg) (fmt : Fmt)
  | vsrl (h : Hdr) (d a b : VReg) (k : KReg) (fmt : Fmt)
  | vsra (h : Hdr) (d a b : VReg) (k : KReg) (fmt : Fmt)
  | vfsl (h : Hdr) (d a b : VReg) (c : XReg)
  | vfsr (h : Hdr) (d a b : VReg) (c : XReg)
  | vrot (h : Hdr) (d a : VReg) (c : XReg)
  -- conversions and cross-lane operations (R229-R231)
  | vcvt (h : Hdr) (d a : VReg) (k : KReg) (sfmt dfmt : Fmt) (rm : Rm) (sat : Bool) (part : BitVec 4)
  | vqnt (h : Hdr) (d a b : VReg) (k : KReg) (sfmt dfmt : Fmt) (rm : Rm) (sat : Bool) (sb : BitVec 4) (sf : Bool) (part : BitVec 4)
  | vdqnt (h : Hdr) (d a b : VReg) (k : KReg) (sfmt dfmt : Fmt) (rm : Rm) (sat : Bool) (sb : BitVec 4) (sf : Bool) (part : BitVec 4)
  | vmov (h : Hdr) (d a : VReg) (k : KReg) (fmt : Fmt)
  | vsplat (h : Hdr) (d : VReg) (a : XReg) (k : KReg) (fmt : Fmt)
  | vext (h : Hdr) (d : XReg) (a : VReg) (b : XReg) (fmt : Fmt)
  | vredadd (h : Hdr) (d a b : VReg) (k : KReg) (fmt dfmt : Fmt) (rm : Rm) (sat : Bool)
  | vredmax (h : Hdr) (d a b : VReg) (k : KReg) (fmt dfmt : Fmt)
  | vredmin (h : Hdr) (d a b : VReg) (k : KReg) (fmt dfmt : Fmt)
  | vperm (h : Hdr) (d a b : VReg) (k : KReg) (fmt : Fmt)
  | vslide (h : Hdr) (d a b : VReg) (c : XReg) (k : KReg) (fmt : Fmt) (up : Bool)
  | vbcast (h : Hdr) (d a : VReg) (b : XReg) (k : KReg) (fmt : Fmt)
  | vpopc (h : Hdr) (d : XReg) (a : KReg) (first : Bool)
  -- vector loads, stores and accumulator moves (R232-R236)
  | vld (h : Hdr) (d : VReg) (a : QReg) (c : XReg) (k : KReg)
  | vst (h : Hdr) (a : VReg) (b : QReg) (c : XReg) (k : KReg)
  | vacr (h : Hdr) (d : VReg) (a : XReg) (k : KReg) (fmt : Fmt)
  | vacw (h : Hdr) (a : XReg) (b : VReg) (k : KReg) (fmt : Fmt)
  -- range (R237-R248)
  | hcut (h : Hdr) (cut : BitVec 3) (bps : BitVec 8)
  | hchain (h : Hdr) (lt lw : BitVec 2) (head : BitVec 8)
  | mloadb (h : Hdr) (hq : BitVec 2) (a : XReg) (fmt : Fmt) (wz csm : BitVec 2) (imm : Word32)
  | mma (h : Hdr) (hq : BitVec 2) (a : QReg) (b : XReg) (fmt : Fmt) (rm : Rm) (rs cs : Bool) (row : BitVec 10) (col : BitVec 7) (mm : BitVec 10)
  | mdrain (h : Hdr) (hq : BitVec 2) (a : QReg) (b : XReg) (fmt : Fmt) (rm : Rm) (sat rs cs : Bool) (row : BitVec 10) (col : BitVec 7) (mm : BitVec 10)
  | mzero (h : Hdr) (hq : BitVec 2) (b : XReg) (row nn : BitVec 10)
  | wswap (h : Hdr)
  -- near memory (R272, R273), dsync (R44), system (R183-R187)
  | nlaunch (h : Hdr) (hq : BitVec 2) (a b : XReg) (imm : Word32)
  | nwait (h : Hdr) (d a b : XReg) (acq : Bool)
  | npost (h : Hdr) (a b : XReg) (rel : Bool)
  | nabort (h : Hdr) (d a : XReg) (all : Bool)
  | nstat (h : Hdr) (d a : XReg) (sel : NstatSel)
  | dsync (h : Hdr) (d : XReg) (lvl : BitVec 2)
  | srd (h : Hdr) (d : XReg) (reg : BitVec 12)
  | swr (h : Hdr) (a : XReg) (reg : BitVec 12)
  | sset (h : Hdr) (d a : XReg) (reg : BitVec 12)
  | sclr (h : Hdr) (d a : XReg) (reg : BitVec 12)
  | tlbinv (h : Hdr) (a b : XReg) (kind : TlbKind) (size : PageSize)
  | ctxsave (h : Hdr) (d a b : XReg)
  | ctxload (h : Hdr) (d a b : XReg)
  | idle (h : Hdr)
  | evpost (h : Hdr) (a : XReg) (code : BitVec 16)
  -- events: waits and the range
  | waitRelease (c : CoreId) (st : StrandId) (ord : Nat) (v : Word)
  | mloadbStart (c : CoreId) (hq : Fin 4) (id : Nat)
  | mmaStart (c : CoreId) (hq : Fin 4) (id : Nat)
  | accumulatorRowWrite (c : CoreId) (hq : Fin 4) (id row : Nat)
  | mdrainStart (c : CoreId) (hq : Fin 4) (id : Nat)
  | drainRowWrite (c : CoreId) (hq : Fin 4) (id row : Nat)
  | mzeroStart (c : CoreId) (hq : Fin 4) (id : Nat)
  | nlaunchDelivery (c : CoreId) (hq : Fin 4) (id : Nat)
  | dsyncComplete (c : CoreId) (lvl : Fin 4)
  -- events: system registers, results, traps, retirement
  | srseedWrite (c : CoreId) (v : Word)
  | fcsrWrite (c : CoreId) (st : StrandId) (v : Word)
  | earlyrdWrite (c : CoreId) (v : Word)
  | stallTrap (c : CoreId) (st : StrandId)
  | resultWrite (c : CoreId) (st : StrandId) (r : Result)
  | storePerform (a : Access)
  | interrupt (c : CoreId) (st : StrandId) (source : Bool) (payload : Word)
  | latchReinject (c : CoreId) (st : StrandId) (r : Result)
  | shadowPageFill (bid va : Nat)
  -- events: copies and the flue
  | copyGroupTransfer (id j : Nat) (side : XferSide)
  | copyChunkRead (id j : Nat)
  | copyChunkPerform (id j : Nat)
  | flueBeatPerform (id j : Nat)
  | flueDegrade (chim : Fin 64)
  -- events: stokers and channels
  | groupStart (sk : Fin 384)
  | gemv (sk : Fin 384) (cmd : BitVec 512)
  | reduce (sk : Fin 384) (cmd : BitVec 512)
  | map (sk : Fin 384) (cmd : BitVec 512)
  | ncopy (sk : Fin 384) (cmd : BitVec 512)
  | semwait (sk : Fin 384) (cmd : BitVec 512)
  | sempost (sk : Fin 384) (cmd : BitVec 512)
  | commit (sk : Fin 384)
  | abort (sk : Fin 384)
  | nmFence (sk : Fin 384)
  | charbWrite (sk : Fin 384) (v : Word)
  -- events: archive and reading room
  | readingRoomFill (obj ver folio : Nat)
  | fillComplete (obj ver folio : Nat) (bad : Bool)
  | rrsizeWrite (v : Word)
  -- events: host
  | rdmaWriteWithImmediate (qp : Fin 256) (rkey : Word32) (va : Nat) (bytes : List Byte) (imm : Word32)
  | rdmaWrite (qp : Fin 256) (rkey : Word32) (va : Nat) (bytes : List Byte)
  | rdmaRead (qp : Fin 256) (rkey : Word32) (va n : Nat)
  | invalidRequest (qp : Fin 256)
  | portDown (port : Bool)
  -- events: Librarian scheduling and dispatch
  | coreGateRequest (c : CoreId)
  -- events: management commands
  -- events: translation, freeze, pre-emption
  | migration (asid va dst : Nat)
  | bindingResume (bid : Nat)
  | preemptRequest (bid : Nat)
  -- events: links
  | domainFormation (self : Nat) (members : List Nat)
  | deviceRemoval (dev : Nat)
  | laneFault (port : Fin 18)
  -- events: power, heat, monitors, boot
  | hop (isl : Fin 64) (fstep : Nat)
  | supplyDroop (isl : Fin 64)
  | powerLease (w0 w1 w2 w3 : Word)
  | capcfgWrite (c : CoreId) (n : Fin 4) (v : Word)
  | librarianRegisterWrite (r : LibReg) (v : Word)
  | attestationRequest (nonce : BitVec 256)
  | remoteAccess (dev : Nat) (addr : Nat) (op : RemoteOp) (rel : Bool)
  | droopEnd (isl : Fin 64)
  | reserveHoldEnd (isl : Fin 64)
  | bindingFault (bid : Nat)
  | receiveBufferPosted (part : Fin 4)
  -- events without operands: those that a condition of the state brings about (the first place that meets it acts), and
  -- commands whose message stands in the state (R374, R390)
  | bwaittExpiry
  | reshapeComplete
  | chainReady
  | tlbinvComplete
  | taskRetire
  | commitGroupSwap
  | semwaitTimeout
  | budgetPeriod
  | refresh
  | refreshManagement
  | tenureEnd
  | accessionStart
  | accessionComplete
  | wearDay
  | rrsizeApply
  | eligibilityTest
  | placement
  | dispatchPrepare
  | bindingRelease
  | completionReport
  | coreGate
  | idleCoreTimeout
  | createq
  | deleteq
  | partition
  | partitionInstall
  | cancel
  | accession
  | acccancel
  | regmr
  | install
  | recover
  | quarantineRelease
  | freezeHorizon
  | preemptDrainLimit
  | preemptComplete
  | saveEnd
  | loadEnd
  | hcCorrection
  | hopRetry
  | leaseExpiry
  | adviseTrip
  | throttleTrip
  | throttleStep
  | shutdownTrip
  | patrolScrub
  | coldReset
  | hopComplete
  | tripEnd
  | temperatureSample
  | powerLoss
  | orderlyShutdown
  deriving DecidableEq, Repr

end Sys2Proof
end

