-- ==== Sys2Proof/Decode.lean ====
section
/-! DEFINITION. Decoding and encoding of instructions (R142-R152): the shape of each opcode's words, the decoder with the
kind of the illegal-instruction fault that it finds, and the encoder. -/

namespace Sys2Proof

/-! ### Codes of the field values -/

/-- FMT code (R53). -/
def Fmt.code : Fmt → BitVec 4
  | .f64 => 0 | .f32 => 1 | .bf16 => 2 | .f16 => 3 | .e4m3 => 4 | .e5m2 => 5 | .t8 => 6 | .e2m1 => 7
  | .s8 => 8 | .s16 => 9 | .s32 => 10 | .s64 => 11 | .z8 => 12 | .z16 => 13 | .z32 => 14 | .z64 => 15

/-- The format of a code; every code names one (R53). -/
def Fmt.ofCode (c : BitVec 4) : Fmt :=
  match c.toNat with
  | 0 => .f64 | 1 => .f32 | 2 => .bf16 | 3 => .f16 | 4 => .e4m3 | 5 => .e5m2 | 6 => .t8 | 7 => .e2m1
  | 8 => .s8 | 9 => .s16 | 10 => .s32 | 11 => .s64 | 12 => .z8 | 13 => .z16 | 14 => .z32 | _ => .z64

/-- Element width in bits (R53). -/
def Fmt.bits : Fmt → Nat
  | .f64 => 64 | .f32 => 32 | .bf16 => 16 | .f16 => 16 | .e4m3 => 8 | .e5m2 => 8 | .t8 => 8 | .e2m1 => 4
  | .s8 => 8 | .s16 => 16 | .s32 => 32 | .s64 => 64 | .z8 => 8 | .z16 => 16 | .z32 => 32 | .z64 => 64

/-- The binary formats f64, f32, bf16, f16 (group F of the vector chapter, R216). -/
def Fmt.isF : Fmt → Bool
  | .f64 | .f32 | .bf16 | .f16 => true
  | _ => false

/-- The integer formats (group I, R59). -/
def Fmt.isI : Fmt → Bool
  | .s8 | .s16 | .s32 | .s64 | .z8 | .z16 | .z32 | .z64 => true
  | _ => false

/-- The narrow floating formats e4m3, e5m2, t8, e2m1 (group P). -/
def Fmt.isP (f : Fmt) : Bool := !f.isF && !f.isI

/-- The signed integer formats (R59). -/
def Fmt.isSigned : Fmt → Bool
  | .s8 | .s16 | .s32 | .s64 => true
  | _ => false

/-- The scalar formats as formats (R179). -/
def IntFmt.fmt : IntFmt → Fmt
  | .s8 => .s8 | .s16 => .s16 | .s32 => .s32 | .s64 => .s64 | .z8 => .z8 | .z16 => .z16 | .z32 => .z32 | .z64 => .z64

/-- The scalar format of a format, for FMT 8 to 15 (R179). -/
def IntFmt.ofFmt : Fmt → Option IntFmt
  | .s8 => some .s8 | .s16 => some .s16 | .s32 => some .s32 | .s64 => some .s64
  | .z8 => some .z8 | .z16 => some .z16 | .z32 => some .z32 | .z64 => some .z64
  | _ => none

/-- RM code (R60). -/
def Rm.code : Rm → BitVec 3
  | .rne => 0 | .rz => 1 | .rdn => 2 | .rup => 3 | .rna => 4 | .rs => 5

/-- The rounding mode of a code; 6 and 7 name none (R60). -/
def Rm.ofCode (c : BitVec 3) : Option Rm :=
  match c.toNat with
  | 0 => some .rne | 1 => some .rz | 2 => some .rdn | 3 => some .rup | 4 => some .rna | 5 => some .rs | _ => none

/-- SCOPE code (R145). -/
def Scope.code : Scope → BitVec 3
  | .core => 0 | .chim => 1 | .dev => 2 | .dom => 3 | .sys => 4

/-- The scope of a code; 5-7 name none (R145). -/
def Scope.ofCode (c : BitVec 3) : Option Scope :=
  match c.toNat with
  | 0 => some .core | 1 => some .chim | 2 => some .dev | 3 => some .dom | 4 => some .sys | _ => none

/-- Rank of a scope in the nesting order (R98). -/
def Scope.rank (s : Scope) : Nat := s.code.toNat

/-- SP code (R189). -/
def ObjSpace.code : ObjSpace → BitVec 2
  | .ls => 0 | .ps => 1 | .gm => 2 | .xm => 3

/-- The object space of a code (R189). -/
def ObjSpace.ofCode (c : BitVec 2) : ObjSpace :=
  match c.toNat with
  | 0 => .ls | 1 => .ps | 2 => .gm | _ => .xm

/-- OP code of an atomic (R204). -/
def AtomOp.code : AtomOp → BitVec 4
  | .swap => 0 | .add => 1 | .and => 2 | .or => 3 | .xor => 4 | .min => 5 | .max => 6 | .cas => 7 | .fadd => 8

/-- The atomic operation of a code; 9-15 name none (R204). -/
def AtomOp.ofCode (c : BitVec 4) : Option AtomOp :=
  match c.toNat with
  | 0 => some .swap | 1 => some .add | 2 => some .and | 3 => some .or | 4 => some .xor
  | 5 => some .min | 6 => some .max | 7 => some .cas | 8 => some .fadd | _ => none

/-- A Bool as one bit. -/
def bit (b : Bool) : BitVec 1 := BitVec.ofBool b

/-! ### The words of an instruction -/

/-- An instruction cut into its fields: header, opcode, the three register fields, the typed and the immediate word (0
where the opcode requires none) (R142, R143). -/
structure Raw where
  h : Hdr
  opc : BitVec 8
  d : BitVec 5 := 0
  a : BitVec 5 := 0
  b : BitVec 5 := 0
  t : Word32 := 0
  imm : Word32 := 0
  deriving DecidableEq, Repr

/-- Fields of the typed word (R144). -/
def Raw.fmt (r : Raw) : Fmt := .ofCode (r.t.extractLsb' 28 4)
/-- RM field of the typed word (R144). -/
def Raw.rm (r : Raw) : BitVec 3 := r.t.extractLsb' 25 3
/-- SAT bit of the typed word (R144). -/
def Raw.sat (r : Raw) : Bool := r.t.getLsbD 24
/-- C field of the typed word (R144). -/
def Raw.c (r : Raw) : BitVec 5 := r.t.extractLsb' 19 5
/-- K field of the typed word (R144). -/
def Raw.k (r : Raw) : KReg := r.t.extractLsb' 16 3
/-- SCOPE field of the typed word (R144). -/
def Raw.scope (r : Raw) : BitVec 3 := r.t.extractLsb' 13 3
/-- FN field of the typed word (R144). -/
def Raw.fn (r : Raw) : BitVec 13 := r.t.extractLsb' 0 13

/-- The typed word of its fields (R144). -/
def typedWord (fmt : Fmt) (rm : BitVec 3) (sat : Bool) (c : BitVec 5) (k : KReg) (scope : BitVec 3) (fn : BitVec 13) :
    Word32 :=
  fmt.code ++ rm ++ bit sat ++ c ++ k ++ scope ++ fn

/-- How an instruction uses a register field: not at all (kind 2 when non-zero), as a register of a file (kind 4 beyond
the file), as a field of which only the masked bits are used, or freely (R142, R148). -/
inductive RegUse where
  | zero | x | v | k | q | bits (m : BitVec 5)
  deriving DecidableEq, Repr

/-- True when an unused bit of the field is set: kind 2 (R152). -/
def RegUse.reserved : RegUse → BitVec 5 → Bool
  | .zero, f => f != 0
  | .bits m, f => (f &&& ~~~m) != 0
  | _, _ => false

/-- True when the field names a register beyond its file: kind 4 (R148). -/
def RegUse.beyond : RegUse → BitVec 5 → Bool
  | .k, f => f.toNat ≥ 8
  | .q, f => f.toNat ≥ 16
  | _, _ => false

/-- The words and fields that an opcode uses (R144, R146, R150). -/
structure Shape where
  d : RegUse := .zero
  a : RegUse := .zero
  b : RegUse := .zero
  typed : Bool := false
  immed : Bool := false
  c : RegUse := .zero
  fmt : Bool := false
  rm : Bool := false
  sat : Bool := false
  k : Bool := false
  scope : Bool := false
  fn : BitVec 13 := 0
  imm : Word32 := 0
  deriving DecidableEq, Repr

/-- Shape of a conditional branch. -/
def shBr : Shape := { a := .x, b := .x, immed := true, imm := 0x7FFF }
/-- Shape of a register-register integer instruction. -/
def shRR : Shape := { d := .x, a := .x, b := .x }
/-- Shape of a register-immediate integer instruction. -/
def shRI : Shape := { d := .x, a := .x, immed := true, imm := 0xFFFFFFFF }
/-- Shape of an immediate shift. -/
def shSh : Shape := { d := .x, a := .x, immed := true, imm := 0x3F }
/-- Shape of a scalar load. -/
def shLd : Shape := { d := .x, a := .x, typed := true, immed := true, fmt := true, scope := true, fn := 1, imm := 0xFFFFFFFF }
/-- Shape of a scalar store. -/
def shSt : Shape := { a := .x, b := .x, typed := true, immed := true, fmt := true, scope := true, fn := 1, imm := 0xFFFFFFFF }
/-- Shape of a copy; R194 judges its typed fields (`copyKind`). -/
def shCp : Shape := { d := .x, a := .x, b := .x, typed := true, c := .x, fmt := true, rm := true, sat := true, scope := true, fn := 0x1FFF }
/-- Shape of a wait or poll on an object. -/
def shWt (b : RegUse) (fn : BitVec 13) : Shape := { d := .x, a := .x, b := b, typed := true, scope := true, fn := fn }
/-- Shape of an atomic. -/
def shAt : Shape := { d := .x, a := .x, b := .x, typed := true, c := .x, fmt := true, rm := true, sat := true, scope := true, fn := 0x3F }
/-- Shape of a link collective. -/
def shCo (fmt : Bool) (arg : Bool) : Shape :=
  { d := .x, a := .x, b := .x, typed := true, immed := true, c := .x, fmt := fmt, rm := fmt, sat := fmt, scope := true,
    fn := 0x1FF, imm := if arg then 0xFFFFFFFF else 0xFFC00000 }
/-- Shape of a two-source vector operation. -/
def shV2 (rm sat : Bool) : Shape := { d := .v, a := .v, b := .v, typed := true, fmt := true, rm := rm, sat := sat, k := true }
/-- Shape of a three-source vector operation. -/
def shV3 (rm sat : Bool) : Shape := { shV2 rm sat with c := .v }
/-- Shape of a one-source vector operation. -/
def shV1 (rm sat : Bool) : Shape := { d := .v, a := .v, typed := true, fmt := true, rm := rm, sat := sat, k := true }

/-- The shapes of opcodes 8·row to 8·row + 7, `none` where R149 assigns no instruction. -/
def shapeRow : Nat → List (Option Shape)
  | 0x00 => [some {}, some { immed := true, imm := 0xFFFFFFFF }, some { immed := true, imm := 0x7FFF }, some { a := .x },
             some shBr, some shBr, some shBr, some shBr]
  | 0x01 => [some shBr, some shBr, some { d := .x, immed := true, imm := 0x7FFF }, some { a := .x },
             some { a := .x, immed := true, imm := 0x7FFF }, some { immed := true, imm := 0x7FFF }, some {},
             some { a := .x, immed := true, imm := 0x3FFFFF }]
  | 0x02 => [some { d := .bits 0x1F, b := .bits 0xF }, some { d := .bits 0x1F, b := .bits 0xF }, some { b := .bits 0xF },
             some { typed := true, scope := true, fn := 3 }, some {}, some { immed := true, imm := 0xFFFF }, some {}, some shRI]
  | 0x04 => [some shRR, some shRR, some shRR, some shRR, some shRR, some shRR, some shRR, some shRR]
  | 0x05 => [some shRI, some shRI, some shRI, some shRI, some shSh, some shSh, some shSh,
             some { d := .x, immed := true, imm := 0xFFFFFFFF }]
  | 0x06 => [some shRI, some shRR, some shRR, some shRI, some shRR, some shRR, some shRR, some shRR]
  | 0x07 => [some shRR, some shRR, some shRR, some shRR, some shRR, some shRR, some shRR, some { d := .x, a := .x }]
  | 0x08 => [some shLd, some shSt, some shLd, some shSt, some shLd, some shSt, some shLd, some shSt]
  | 0x0A => [some { d := .q, a := .x, immed := true, imm := 3 }, some { d := .q, a := .x, immed := true, imm := 0xFFFFFFFF },
             some { a := .q, b := .x, immed := true, imm := 0xFFFFFFFF }, some { d := .q, a := .q },
             some { d := .q, a := .x, b := .x, immed := true, imm := 0xFFFFFFFF }, some { d := .x, a := .q, b := .bits 3 },
             some { d := .x, a := .q, immed := true, imm := 1 }, some { d := .q, immed := true, imm := 0xF }]
  | 0x0B => [some shCp, some shCp, some shCp, some shCp, some shCp, some shCp, some shCp, some shCp]
  | 0x0C => [some shCp, some shCp, some shCp, some shCp, some shCp, some shCp, some shCp, some shCp]
  | 0x0D => [some { a := .x, b := .x, typed := true, fn := 3 }, some { a := .x, typed := true, scope := true, fn := 7 },
             some (shWt .x 7), some { shWt .x 7 with immed := true, imm := 0xFFFFFFFF },
             some { a := .x, b := .x, typed := true, scope := true, fn := 7 }, some (shWt .x 0x3F), some (shWt .zero 7),
             some (shWt .x 7)]
  | 0x0E => [some shAt, some shAt, some shAt, some shAt, some { d := .bits 0x1F, a := .v }, some { d := .v, a := .bits 0x1F },
             some { d := .x, a := .bits 0x1F }, none]
  | 0x0F => [some (shCo true true), some (shCo false true), some (shCo false false),
             some { d := .x, a := .x, b := .x, typed := true, c := .x, fn := 1 }, some (shWt .zero 7), some (shWt .zero 7),
             some { d := .x, typed := true, fn := 3 }, none]
  | 0x10 => [some (shV2 true true), some (shV2 true true), some (shV2 true true), some (shV3 true true), some (shV3 true true),
             some (shV3 true true), some (shV2 false false), some (shV2 false false)]
  | 0x11 => [some (shV1 false true), some (shV1 false true), some (shV2 true false), some (shV1 true false), some (shV1 true false),
             some (shV1 true false), some (shV1 true false), some (shV1 false false)]
  | 0x12 => [some (shV1 true false), some (shV1 true false), some (shV1 true false), some (shV1 true false), some (shV1 true false),
             some (shV1 true false), some (shV1 true false), some (shV3 false false)]
  | 0x13 => [some { shV2 false false with d := .k, fn := 7 }, some (shV2 false false),
             some { d := .k, a := .k, b := .k, c := .k, typed := true, fn := 0xFF }, some { d := .k, a := .x, b := .k, typed := true, fn := 3 },
             some { shV3 false false with fn := 0xFF }, some (shV2 false false), some (shV2 false false), some (shV2 false false)]
  | 0x14 => [some { d := .v, a := .v, b := .v, c := .x, typed := true }, some { d := .v, a := .v, b := .v, c := .x, typed := true },
             some { d := .v, a := .v, c := .x, typed := true }, some { shV1 true true with fn := 0x1E0F },
             some { shV2 true true with fn := 0x1FFF }, some { shV2 true true with fn := 0x1FFF }, some (shV1 false false),
             some { shV1 false false with a := .x }]
  | 0x15 => [some { d := .x, a := .v, b := .x, typed := true, fmt := true }, some { shV2 true true with fn := 0x1E00 },
             some { shV2 false false with fn := 0x1E00 }, some { shV2 false false with fn := 0x1E00 }, some (shV2 false false),
             some { shV2 false false with c := .x, fn := 1 }, some { shV2 false false with b := .x },
             some { d := .x, a := .k, typed := true, fn := 1 }]
  | 0x16 => [some { d := .v, a := .q, c := .x, typed := true, k := true }, some { a := .v, b := .q, c := .x, typed := true, k := true },
             some { d := .v, a := .x, typed := true, fmt := true, k := true }, some { a := .x, b := .v, typed := true, fmt := true, k := true },
             none, none, none, none]
  | 0x18 => [some { immed := true, imm := 0xFF7 }, some { immed := true, imm := 0xFFF },
             some { d := .bits 3, a := .x, typed := true, immed := true, fmt := true, fn := 0xF, imm := 0xFFFFFFFF },
             some { d := .bits 3, a := .q, b := .x, typed := true, immed := true, fmt := true, rm := true, fn := 3, imm := 0x7FFFFFF },
             some { d := .bits 3, a := .q, b := .x, typed := true, immed := true, fmt := true, rm := true, sat := true, fn := 3, imm := 0x7FFFFFF },
             some { d := .bits 3, b := .x, immed := true, imm := 0xFFFFF }, some {}, none]
  | 0x1A => [some { d := .bits 3, a := .x, b := .x, typed := true, immed := true, scope := true, fn := 0x1FFF, imm := 0xFFFFFFFF },
             some { d := .x, a := .x, b := .x, typed := true, scope := true, fn := 0x1FFF },
             some { a := .x, b := .x, typed := true, scope := true, fn := 0x1FFF },
             some { d := .x, a := .x, typed := true, scope := true, fn := 0x1FFF },
             some { d := .x, a := .x, typed := true, scope := true, fn := 0x1FFF }, none, none, none]
  | 0x1B => [some { d := .x, b := .bits 3 }, none, none, none, none, none, none, none]
  | 0x1C => [some { d := .x, immed := true, imm := 0xFFF }, some { a := .x, immed := true, imm := 0xFFF },
             some { d := .x, a := .x, immed := true, imm := 0xFFF }, some { d := .x, a := .x, immed := true, imm := 0xFFF },
             some { a := .x, b := .x, typed := true, scope := true, fn := 0x1FFF }, some shRR, some shRR, some {}]
  | 0x1D => [some { a := .x, immed := true, imm := 0xFFFF }, none, none, none, none, none, none, none]
  | _ => []

/-- The shape of an opcode; `none` for an unassigned one, kind 0 (R149, R152). -/
def shapeOf (opc : BitVec 8) : Option Shape := ((shapeRow (opc.toNat / 8))[opc.toNat % 8]?).join

/-- The strands on which R149 lists an opcode. -/
def strandsOf (opc : BitVec 8) : List StrandId :=
  let n := opc.toNat
  let all : List StrandId := [.x, .l, .c, .s]
  if n = 0x12 then [.l, .s]
  else if 0x50 ≤ n ∧ n ≤ 0x57 then (if n = 0x52 ∨ n = 0x55 ∨ n = 0x56 then all else [.x, .l, .s])
  else if 0x58 ≤ n ∧ n ≤ 0x67 then [.l, .s]
  else if n = 0x74 ∨ n = 0x76 then [.s]
  else if n = 0x75 then [.l]
  else if 0x78 ≤ n ∧ n ≤ 0x7B then [.l, .s]
  else if n = 0xB0 then [.l, .c]
  else if n = 0xB1 then [.s, .c]
  else if 0x80 ≤ n ∧ n ≤ 0xB3 then [.c]
  else if 0xC0 ≤ n ∧ n ≤ 0xC6 then [.c]
  else if n = 0xD0 ∨ n = 0xD3 then [.c]
  else all

/-- The opcodes whose form is privileged, marked P in R149: eret, tlbinv, ctxsave, ctxload, idle, evpost. -/
def privileged (opc : BitVec 8) : Bool :=
  let n := opc.toNat
  n = 0x16 || n = 0xE4 || n = 0xE5 || n = 0xE6 || n = 0xE7 || n = 0xE8

/-- The header of a base word whose extension words hold the given stamp and bound (R142, R143). -/
def hdrOf (w : Word32) (stamp : Word32) (bound : Option Word32) : Hdr :=
  { timing := if h : (w.extractLsb' 29 3).toNat < 7 then .after ⟨(w.extractLsb' 29 3).toNat, h⟩ else .stamped stamp
    pbp := w.getLsbD 28, pbn := w.getLsbD 27, pap := w.getLsbD 26, pan := w.getLsbD 25, bound := bound }

/-- Kind 2 in the base word (R152). -/
def Shape.baseReserved (sh : Shape) (d a b : BitVec 5) : Bool := sh.d.reserved d || sh.a.reserved a || sh.b.reserved b

/-- Kind 2 in the extension words: an unused field of the typed word or unused bits of the immediate (R144, R146). -/
def Shape.extReserved (sh : Shape) (r : Raw) : Bool :=
  (!sh.fmt && r.fmt != .f64) || (!sh.rm && r.rm != 0) || (!sh.sat && r.sat) || sh.c.reserved r.c ||
  (!sh.k && r.k != 0) || (!sh.scope && r.scope != 0) || (r.fn &&& ~~~sh.fn) != 0 || (r.imm &&& ~~~sh.imm) != 0

/-- Kind 4: a register field beyond its file (R148). -/
def Shape.beyond (sh : Shape) (r : Raw) : Bool :=
  sh.d.beyond r.d || sh.a.beyond r.a || sh.b.beyond r.b || sh.c.beyond r.c

/-- The extension words that DLY and the opcode ask for (R143, R150). -/
def Shape.words (sh : Shape) (w : Word32) : Nat :=
  (if (w.extractLsb' 29 3).toNat = 7 then 1 else 0) + (if sh.typed then 1 else 0) + (if sh.immed then 1 else 0)

/-- The fields of an instruction whose base word stands before the list. DLY, OPC and LEN give each extension word its role, also where LEN breaks
R143: a word that LEN leaves out reads as 0, a surplus one has no role (R143, log entry 7). -/
def fieldsOf (sh : Shape) (w : Word32) (ext : List Word32) : Raw :=
  let len := (w.extractLsb' 23 2).toNat
  let s := if (w.extractLsb' 29 3).toNat = 7 then 1 else 0
  let t := if sh.typed then 1 else 0
  let n := sh.words w
  { h := hdrOf w (ext.getD 0 0) (if len = n + 1 then some (ext.getD n 0) else none), opc := w.extractLsb' 15 8
    d := w.extractLsb' 10 5, a := w.extractLsb' 5 5, b := w.extractLsb' 0 5
    t := if sh.typed ∧ s < len then ext.getD s 0 else 0
    imm := if sh.immed ∧ s + t < len then ext.getD (s + t) 0 else 0 }

/-- Cuts the words at a base word into fields, with the number of words (1 + LEN). Judges kinds 0, 2, 3 and 4, lowest first (R152). -/
def rawOf (ws : List Word32) : Except Nat (Raw × Nat) :=
  match ws with
  | [] => .error 0
  | w :: ext =>
    match shapeOf (w.extractLsb' 15 8) with
    | none => .error 0
    | some sh =>
      let len := (w.extractLsb' 23 2).toNat
      let r := fieldsOf sh w ext
      if sh.baseReserved r.d r.a r.b || sh.extReserved r then .error 2
      else if len ≠ sh.words w ∧ len ≠ sh.words w + 1 then .error 3
      else if sh.beyond r then .error 4
      else .ok (r, 1 + len)

/-! ### From fields to instructions: the values a field does not accept raise kind 5 (R152) -/

/-- A rounding mode that may be any of 0 to 5 (R60). -/
def Raw.rm5 (r : Raw) : Except Nat Rm := match Rm.ofCode r.rm with | some m => .ok m | none => .error 5

/-- A rounding mode that may be any of 0 to 4 (R60). -/
def Raw.rm4 (r : Raw) : Except Nat Rm :=
  match Rm.ofCode r.rm with | some .rs => .error 5 | some m => .ok m | none => .error 5

/-- A scope (R145). -/
def Raw.sc (r : Raw) : Except Nat Scope := match Scope.ofCode r.scope with | some s => .ok s | none => .error 5

/-- Fails with the kind unless the condition holds. -/
def must (kind : Nat) (b : Bool) : Except Nat Unit := if b then .ok () else .error kind

/-- The scope of an ordered form; a relaxed form requires SCOPE 0, kind 2 (R144, R178, R198). -/
def Raw.ordScope (r : Raw) (ordered : Bool) : Except Nat (Option Scope) :=
  if ordered then (match Scope.ofCode r.scope with | some s => .ok (some s) | none => .error 5)
  else if r.scope = 0 then .ok none else .error 2

/-- The scalar format of a load or store: FMT 8-15, otherwise kind 5 (R179). -/
def Raw.intFmt (r : Raw) : Except Nat IntFmt := match IntFmt.ofFmt r.fmt with | some f => .ok f | none => .error 5

/-- Bits [hi:lo] of the immediate word, `n` bits from `lo`. -/
def Raw.im (r : Raw) (lo n : Nat) : BitVec n := r.imm.extractLsb' lo n

/-- TGT of the immediate word (R146). -/
def Raw.tgt (r : Raw) : BitVec 15 := r.imm.extractLsb' 0 15

/-- The regime and fields of a copy opcode (R192): in-package, inbound channel used, destination in XM, conversion allowed. -/
structure CopyRow where
  inPkg : Bool
  chan : Bool
  toXm : Bool
  conv : Bool
  deriving DecidableEq, Repr

/-- The copies of R192 by opcode. -/
def copyRow (n : Nat) : CopyRow :=
  { inPkg := 0x58 ≤ n ∧ n ≤ 0x5C
    chan := n = 0x58 ∨ n = 0x59 ∨ n = 0x5A ∨ n = 0x5B ∨ n = 0x5E ∨ n = 0x61 ∨ n = 0x64
    toXm := n = 0x60 ∨ n = 0x62
    conv := n = 0x5D ∨ n = 0x5E }

/-- The typed operands of a copy, with the kinds of R193 and R194 (kind 2 before 4 before 5). -/
def Raw.copySpec (r : Raw) : Except Nat CopySpec := do
  let row := copyRow r.opc.toNat
  let cv := r.fn.getLsbD 8
  let dbs := r.fn.extractLsb' 5 2
  let sbs := r.fn.getLsbD 7
  let sb := r.fn.getLsbD 4
  let db := r.fn.getLsbD 3
  let dfmt := Fmt.ofCode (r.fn.extractLsb' 9 4)
  must 2 (cv || (r.fmt == .f64 && r.rm == 0 && !r.sat && dfmt == .f64))
  must 2 (row.chan || r.fn.extractLsb' 0 3 == 0)
  must 2 (sb || db || r.c == 0)
  must 2 ((db || dbs == 0) && (sb || !sbs))
  must 2 (!row.inPkg || r.scope == 0)
  must 4 (!sb || r.c != 31)
  must 5 (!row.inPkg || (!db && !sb))
  must 5 (!cv || row.conv)
  must 5 (!db || dbs != 3)
  let sc ← r.sc
  must 5 (!row.toXm || sc.rank ≥ 3)
  let cvs ← if cv then (do let m ← r.rm4; pure (some (CopyConv.mk r.fmt dfmt m r.sat))) else pure none
  pure { db := if db then some (ObjSpace.ofCode (if dbs = 0 then 0 else if dbs = 1 then 2 else 3)) else none
         sb := if sb then some sbs else none, c := r.c, scope := sc, ch := r.fn.extractLsb' 0 3, cv := cvs }

/-- The typed operands of an atomic (R204); `xm` for amx. -/
def Raw.atomSpec (r : Raw) (xm : Bool) : Except Nat AtomSpec := do
  let ordc := (r.fn.extractLsb' 4 2).toNat
  must 2 (ordc != 0 || r.scope == 0)
  let op ← match AtomOp.ofCode (r.fn.extractLsb' 0 4) with | some o => .ok o | none => .error 5
  must 5 (op == .cas || r.c == 0)
  must 5 (match op with
    | .swap | .cas => r.fmt == .s32 || r.fmt == .s64 || r.fmt == .z32 || r.fmt == .z64 || r.fmt == .f32 || r.fmt == .f64
    | .fadd => r.fmt == .f32 || r.fmt == .f64
    | _ => r.fmt == .s32 || r.fmt == .s64 || r.fmt == .z32 || r.fmt == .z64)
  let m ← r.rm4
  must 5 (op == .fadd || r.rm == 0)
  must 5 (op == .add || !r.sat)
  let sc ← r.sc
  must 5 (!xm || ordc < 2 || sc.rank ≥ 3)
  pure { op := op, fmt := r.fmt, rm := m, sat := r.sat, c := r.c
         ord := if ordc = 0 then .rlx else if ordc = 1 then .acq sc else if ordc = 2 then .rel sc else .acqrel sc }

/-- The operands shared by the collectives (R206). -/
def Raw.collSpec (r : Raw) : Except Nat CollSpec := do
  let db := r.fn.getLsbD 2
  let sb := r.fn.getLsbD 3
  must 2 ((db || !r.fn.getLsbD 4) && (sb || !r.fn.getLsbD 5))
  must 2 (sb || db || r.c == 0)
  must 4 (!sb || r.c != 31)
  let lvl ← match (r.fn.extractLsb' 0 2).toNat with
    | 1 => Except.ok CollLvl.bind | 2 => .ok .dev | 3 => .ok .grp | _ => .error 5
  let sc ← r.sc
  must 5 (match lvl with | .grp => sc == .dom || sc == .sys | _ => sc == .dev)
  pure { lvl := lvl, db := if db then some (r.fn.getLsbD 4) else none, sb := if sb then some (r.fn.getLsbD 5) else none
         c := r.c, scope := sc, ch := r.fn.extractLsb' 6 3, tag := r.im 22 10, arg := r.im 0 22 }

/-- FMT of group F, otherwise kind 5 (R216). -/
def Raw.fF (r : Raw) : Except Nat Fmt := if r.fmt.isF then .ok r.fmt else .error 5
/-- FMT of group I, otherwise kind 5 (R216). -/
def Raw.fI (r : Raw) : Except Nat Fmt := if r.fmt.isI then .ok r.fmt else .error 5
/-- FMT of group F or I, otherwise kind 5 (R217). -/
def Raw.fFI (r : Raw) : Except Nat Fmt := if r.fmt.isF || r.fmt.isI then .ok r.fmt else .error 5

/-- vadd, vsub and vmul: formats F and I; RM only with F (R217). -/
def Raw.arith (r : Raw) (mk : XReg → XReg → XReg → KReg → Fmt → Rm → Bool → Instr) : Except Nat Instr := do
  let f ← r.fFI
  let m ← r.rm5
  must 5 (f.isF || r.rm == 0)
  pure (mk r.d r.a r.b r.k f m r.sat)

/-- vfma, vfms and vfnma (R217). -/
def Raw.fma (r : Raw) (mk : VReg → VReg → VReg → VReg → KReg → Fmt → Rm → Bool → Instr) : Except Nat Instr := do
  let f ← r.fF
  let m ← r.rm5
  pure (mk r.d r.a r.b r.c r.k f m r.sat)

/-- A one-source operation of group F under the given rounding modes (R219, R220). -/
def Raw.unary (r : Raw) (rm : Except Nat Rm) (mk : VReg → VReg → KReg → Fmt → Rm → Instr) : Except Nat Instr := do
  let f ← r.fF
  let m ← rm
  pure (mk r.d r.a r.k f m)

/-- DFMT of FN[12:9] (R229, R230). -/
def Raw.dfmt (r : Raw) : Fmt := .ofCode (r.fn.extractLsb' 9 4)

/-- The ratio q of R229: a PART of q or above raises kind 5. -/
def partOk (sw dw part : Nat) : Bool := part < (if sw > dw then sw / dw else dw / sw)

/-- The scales of a vqnt or vdqnt fit in one register (R229). -/
def scalesFit (sw sb : Nat) (sf : Bool) : Bool := (((2048 / sw - 1) >>> sb) + 1) * (if sf then 4 else 1) ≤ 256

/-- The formats a reduction of FMT may have as DFMT (R230). -/
def redFmtOk (f df : Fmt) : Bool :=
  df == f || (f.isF && df.isF && df.bits > f.bits) || (f.isP && (df == .f32 || df == .f64)) ||
  (f.isI && df.isI && df.isSigned == f.isSigned && df.bits > f.bits)

/-- The formats mloadb accepts (R241). -/
def mloadbFmt : Fmt → Bool
  | .f64 | .f32 | .bf16 | .f16 | .e4m3 | .e5m2 | .t8 | .e2m1 | .s8 | .z8 => true
  | _ => false

/-- Opcodes 0x00 to 0x07: wait, jumps and branches (R149, R152). -/
def buildRow00 (r : Raw) : Nat → Except Nat Instr
  | 0 => .ok (.nop r.h)
  | 1 => .ok (.wait r.h r.imm)
  | 2 => .ok (.j r.h r.tgt)
  | 3 => .ok (.jr r.h r.a)
  | 4 => .ok (.beq r.h r.a r.b r.tgt)
  | 5 => .ok (.bne r.h r.a r.b r.tgt)
  | 6 => .ok (.blt r.h r.a r.b r.tgt)
  | 7 => .ok (.bge r.h r.a r.b r.tgt)
  | _ => .error 0
/-- Opcodes 0x08 to 0x0F: branches, calls and loops (R149, R152). -/
def buildRow01 (r : Raw) : Nat → Except Nat Instr
  | 0 => .ok (.bltu r.h r.a r.b r.tgt)
  | 1 => .ok (.bgeu r.h r.a r.b r.tgt)
  | 2 => .ok (.call r.h r.d r.tgt)
  | 3 => .ok (.ret r.h r.a)
  | 4 => .ok (.loop r.h r.a r.tgt)
  | 5 => .ok (.lexit r.h r.tgt)
  | 6 => do must 5 (!r.h.pap && !r.h.pan); pure (.retire r.h)
  | 7 => .ok (.bbit r.h r.a (r.im 15 6) (r.imm.getLsbD 21) r.tgt)
  | _ => .error 0
/-- Opcodes 0x10 to 0x17: tokens, marks, fences and traps (R149, R152). -/
def buildRow02 (r : Raw) : Nat → Except Nat Instr
  | 0 => do must 5 (r.d.toNat ≤ 1 && r.b != 0); pure (.give r.h (r.d == 1) (r.b.extractLsb' 0 4))
  | 1 => do must 5 (r.d.toNat ≤ 1 && r.b != 0); pure (.take r.h (r.d == 1) (r.b.extractLsb' 0 4))
  | 2 => .ok (.mark r.h (r.b.extractLsb' 0 4))
  | 3 => do
    let sc ← r.sc
    match r.fn.toNat with
    | 1 => pure (.fence r.h .acq sc) | 2 => pure (.fence r.h .rel sc) | 3 => pure (.fence r.h .full sc) | _ => .error 5
  | 4 => .ok (.tfence r.h)
  | 5 => .ok (.trap r.h (r.im 0 16))
  | 6 => .ok (.eret r.h)
  | 7 => .ok (.dtwait r.h r.d r.a r.imm)
  | _ => .error 0
/-- Opcodes 0x20 to 0x27: integer operations (R149, R152). -/
def buildRow04 (r : Raw) : Nat → Except Nat Instr
  | 0 => .ok (.add r.h r.d r.a r.b)
  | 1 => .ok (.sub r.h r.d r.a r.b)
  | 2 => .ok (.and r.h r.d r.a r.b)
  | 3 => .ok (.or r.h r.d r.a r.b)
  | 4 => .ok (.xor r.h r.d r.a r.b)
  | 5 => .ok (.sll r.h r.d r.a r.b)
  | 6 => .ok (.srl r.h r.d r.a r.b)
  | 7 => .ok (.sra r.h r.d r.a r.b)
  | _ => .error 0
/-- Opcodes 0x28 to 0x2F: integer operations with an immediate (R149, R152). -/
def buildRow05 (r : Raw) : Nat → Except Nat Instr
  | 0 => .ok (.addi r.h r.d r.a r.imm)
  | 1 => .ok (.andi r.h r.d r.a r.imm)
  | 2 => .ok (.ori r.h r.d r.a r.imm)
  | 3 => .ok (.xori r.h r.d r.a r.imm)
  | 4 => .ok (.slli r.h r.d r.a (r.im 0 6))
  | 5 => .ok (.srli r.h r.d r.a (r.im 0 6))
  | 6 => .ok (.srai r.h r.d r.a (r.im 0 6))
  | 7 => .ok (.li r.h r.d r.imm)
  | _ => .error 0
/-- Opcodes 0x30 to 0x37: comparisons (R149, R152). -/
def buildRow06 (r : Raw) : Nat → Except Nat Instr
  | 0 => .ok (.lih r.h r.d r.a r.imm)
  | 1 => .ok (.slt r.h r.d r.a r.b)
  | 2 => .ok (.sltu r.h r.d r.a r.b)
  | 3 => .ok (.slti r.h r.d r.a r.imm)
  | 4 => .ok (.min r.h r.d r.a r.b)
  | 5 => .ok (.max r.h r.d r.a r.b)
  | 6 => .ok (.minu r.h r.d r.a r.b)
  | 7 => .ok (.maxu r.h r.d r.a r.b)
  | _ => .error 0
/-- Opcodes 0x38 to 0x3F: multiplication and division (R149, R152). -/
def buildRow07 (r : Raw) : Nat → Except Nat Instr
  | 0 => .ok (.mul r.h r.d r.a r.b)
  | 1 => .ok (.mulh r.h r.d r.a r.b)
  | 2 => .ok (.mulhu r.h r.d r.a r.b)
  | 3 => .ok (.div r.h r.d r.a r.b)
  | 4 => .ok (.divu r.h r.d r.a r.b)
  | 5 => .ok (.rem r.h r.d r.a r.b)
  | 6 => .ok (.remu r.h r.d r.a r.b)
  | 7 => .ok (.popc r.h r.d r.a)
  | _ => .error 0
/-- Opcodes 0x40 to 0x47: scalar loads and stores (R149, R152). -/
def buildRow08 (r : Raw) : Nat → Except Nat Instr
  | n => do
    let sc ← r.ordScope (r.fn.getLsbD 0)
    let f ← r.intFmt
    match n with
    | 0 => pure (.lds r.h r.d r.a f sc r.imm)
    | 1 => pure (.sts r.h r.a r.b f sc r.imm)
    | 2 => pure (.ldp r.h r.d r.a f sc r.imm)
    | 3 => pure (.stp r.h r.a r.b f sc r.imm)
    | 4 => pure (.ldg r.h r.d r.a f sc r.imm)
    | 5 => pure (.stg r.h r.a r.b f sc r.imm)
    | 6 => pure (.ldx r.h r.d r.a f sc r.imm)
    | _ => pure (.stx r.h r.a r.b f sc r.imm)
/-- Opcodes 0x50 to 0x57: streams (R149, R152). -/
def buildRow0A (r : Raw) : Nat → Except Nat Instr
  | 0 => .ok (.qset r.h (r.d.extractLsb' 0 4) r.a (r.im 0 2))
  | 1 => .ok (.qld r.h (r.d.extractLsb' 0 4) r.a r.imm)
  | 2 => .ok (.qst r.h (r.a.extractLsb' 0 4) r.b r.imm)
  | 3 => .ok (.qmov r.h (r.d.extractLsb' 0 4) (r.a.extractLsb' 0 4))
  | 4 => .ok (.qadv r.h (r.d.extractLsb' 0 4) r.a r.b r.imm)
  | 5 => .ok (.qget r.h r.d (r.a.extractLsb' 0 4) (r.b.extractLsb' 0 2))
  | 6 => .ok (.qchk r.h r.d (r.a.extractLsb' 0 4) (r.imm.getLsbD 0))
  | 7 => .ok (.qwp r.h (r.d.extractLsb' 0 4) (r.im 0 3) (r.imm.getLsbD 3))
  | _ => .error 0
/-- Opcodes 0x58 to 0x5F: copies (R149, R152). -/
def buildRow0B (r : Raw) : Nat → Except Nat Instr
  | n => do
    let o ← r.copySpec
    match n with
    | 0 => pure (.cpLl r.h r.d r.a r.b o)
    | 1 => pure (.cpLp r.h r.d r.a r.b o)
    | 2 => pure (.cpPl r.h r.d r.a r.b o)
    | 3 => pure (.cpLf r.h r.d r.a r.b o)
    | 4 => pure (.cpLw r.h r.d r.a r.b o)
    | 5 => pure (.cpLg r.h r.d r.a r.b o)
    | 6 => pure (.cpGl r.h r.d r.a r.b o)
    | _ => pure (.cpGg r.h r.d r.a r.b o)
/-- Opcodes 0x60 to 0x67: copies (R149, R152). -/
def buildRow0C (r : Raw) : Nat → Except Nat Instr
  | n => do
    let o ← r.copySpec
    match n with
    | 0 => pure (.cpLx r.h r.d r.a r.b o)
    | 1 => pure (.cpXl r.h r.d r.a r.b o)
    | 2 => pure (.cpGx r.h r.d r.a r.b o)
    | 3 => pure (.cpXg r.h r.d r.a r.b o)
    | 4 => pure (.cpAl r.h r.d r.a r.b o)
    | 5 => pure (.cpAg r.h r.d r.a r.b o)
    | 6 => pure (.cpAw r.h r.d r.a r.b o)
    | _ => pure (.cpGw r.h r.d r.a r.b o)
/-- Opcodes 0x68 to 0x6F: barriers and wait words (R149, R152). -/
def buildRow0D (r : Raw) : Nat → Except Nat Instr
  | n => do
    let sp := ObjSpace.ofCode (r.fn.extractLsb' 0 2)
    if n = 0 then pure (.binit r.h sp r.a r.b)
    else
      let sc ← r.ordScope (r.fn.getLsbD 2)
      match n with
      | 1 => pure (.barr r.h sp r.a sc)
      | 2 => do must 5 (sp != .xm); pure (.bwait r.h sp r.d r.a r.b sc)
      | 3 => do must 5 (sp != .xm); pure (.bwaitt r.h sp r.d r.a r.b sc r.imm)
      | 4 => pure (.wset r.h sp r.a r.b sc)
      | 5 => do must 5 (sp != .xm); pure (.wwait r.h sp r.d r.a r.b (r.fn.extractLsb' 3 3) sc)
      | 6 => do must 5 (sp != .xm); pure (.wqwait r.h sp r.d r.a sc)
      | _ => pure (.wwake r.h sp r.d r.a r.b sc)
/-- Opcodes 0x70 to 0x77: atomics and vertical FIFOs (R149, R152). -/
def buildRow0E (r : Raw) : Nat → Except Nat Instr
  | 0 => do let o ← r.atomSpec false; pure (.aml r.h r.d r.a r.b o)
  | 1 => do let o ← r.atomSpec false; pure (.amp r.h r.d r.a r.b o)
  | 2 => do let o ← r.atomSpec false; pure (.amg r.h r.d r.a r.b o)
  | 3 => do let o ← r.atomSpec true; pure (.amx r.h r.d r.a r.b o)
  | 4 => do must 5 (r.d.toNat ≤ 1); pure (.fluePut r.h (r.d == 1) r.a)
  | 5 => do must 5 (r.a.toNat ≤ 1); pure (.flueGet r.h r.d (r.a == 1))
  | 6 => do must 5 (r.a.toNat ≤ 1); pure (.flueFree r.h r.d (r.a == 1))
  | _ => .error 0
/-- Opcodes 0x78 to 0x7F: collectives, accession and polls (R149, R152). -/
def buildRow0F (r : Raw) : Nat → Except Nat Instr
  | 0 => do
    let o ← r.collSpec
    let m ← r.rm4
    must 5 (r.fmt.isF || r.fmt == .e4m3 || r.fmt == .e5m2 || r.fmt == .t8 || r.fmt == .s32)
    pure (.lred r.h r.d r.a r.b r.fmt m r.sat o)
  | 1 => do let o ← r.collSpec; pure (.lbcast r.h r.d r.a r.b o)
  | 2 => do let o ← r.collSpec; pure (.lgath r.h r.d r.a r.b o)
  | 3 => do must 4 (r.c != 31); pure (.acc r.h r.d r.a r.b r.c (r.fn.getLsbD 0))
  | 4 => do
    let sc ← r.ordScope (r.fn.getLsbD 2)
    must 5 (r.fn.extractLsb' 0 2 != 3)
    pure (.bpoll r.h (.ofCode (r.fn.extractLsb' 0 2)) r.d r.a sc)
  | 5 => do
    let sc ← r.ordScope (r.fn.getLsbD 2)
    must 5 (r.fn.extractLsb' 0 2 != 3)
    pure (.wpoll r.h (.ofCode (r.fn.extractLsb' 0 2)) r.d r.a sc)
  | 6 => match r.fn.toNat with
    | 0 => .ok (.accq r.h r.d .fly) | 1 => .ok (.accq r.h r.d .wear) | 2 => .ok (.accq r.h r.d .free) | _ => .error 5
  | _ => .error 0
/-- Opcodes 0x80 to 0x87: vector arithmetic (R149, R152). -/
def buildRow10 (r : Raw) : Nat → Except Nat Instr
  | 0 => r.arith (.vadd r.h)
  | 1 => r.arith (.vsub r.h)
  | 2 => r.arith (.vmul r.h)
  | 3 => r.fma (.vfma r.h)
  | 4 => r.fma (.vfms r.h)
  | 5 => r.fma (.vfnma r.h)
  | 6 => do let f ← r.fFI; pure (.vmin r.h r.d r.a r.b r.k f)
  | 7 => do let f ← r.fFI; pure (.vmax r.h r.d r.a r.b r.k f)
  | _ => .error 0
/-- Opcodes 0x88 to 0x8F: vector arithmetic (R149, R152). -/
def buildRow11 (r : Raw) : Nat → Except Nat Instr
  | 0 => do let f ← r.fFI; must 5 (!r.sat || f.isI); pure (.vabs r.h r.d r.a r.k f r.sat)
  | 1 => do let f ← r.fFI; must 5 (!r.sat || f.isI); pure (.vneg r.h r.d r.a r.k f r.sat)
  | 2 => do let f ← r.fF; let m ← r.rm5; pure (.vdiv r.h r.d r.a r.b r.k f m)
  | 3 => r.unary r.rm5 (.vsqrt r.h)
  | 4 => r.unary r.rm5 (.vrcp r.h)
  | 5 => r.unary r.rm4 (.vrsq r.h)
  | 6 => r.unary r.rm5 (.vround r.h)
  | 7 => do must 5 (!r.fmt.isI); pure (.vclass r.h r.d r.a r.k r.fmt)
  | _ => .error 0
/-- Opcodes 0x90 to 0x97: vector functions (R149, R152). -/
def buildRow12 (r : Raw) : Nat → Except Nat Instr
  | 0 => r.unary r.rm4 (.vexp r.h)
  | 1 => r.unary r.rm4 (.vexp2 r.h)
  | 2 => r.unary r.rm4 (.vlog r.h)
  | 3 => r.unary r.rm4 (.vlog2 r.h)
  | 4 => r.unary r.rm4 (.vsin r.h)
  | 5 => r.unary r.rm4 (.vcos r.h)
  | 6 => r.unary r.rm4 (.vtanh r.h)
  | 7 => do let f ← r.fFI; pure (.vclamp r.h r.d r.a r.b r.c r.k f)
  | _ => .error 0
/-- Opcodes 0x98 to 0x9F: comparison, masks and shifts (R149, R152). -/
def buildRow13 (r : Raw) : Nat → Except Nat Instr
  | 0 => do must 5 (r.fmt != .e2m1); pure (.vcmp r.h (r.d.extractLsb' 0 3) r.a r.b r.k (r.fn.extractLsb' 0 3) r.fmt)
  | 1 => .ok (.vsel r.h r.d r.a r.b r.k r.fmt)
  | 2 => .ok (.kop r.h (r.d.extractLsb' 0 3) (r.a.extractLsb' 0 3) (r.b.extractLsb' 0 3) (r.c.extractLsb' 0 3) (r.fn.extractLsb' 0 8))
  | 3 => .ok (.kmov r.h (r.d.extractLsb' 0 3) r.a (r.b.extractLsb' 0 3) (r.fn.extractLsb' 0 2))
  | 4 => .ok (.vlop3 r.h r.d r.a r.b r.c r.k r.fmt (r.fn.extractLsb' 0 8))
  | 5 => do let f ← r.fI; pure (.vsll r.h r.d r.a r.b r.k f)
  | 6 => do let f ← r.fI; pure (.vsrl r.h r.d r.a r.b r.k f)
  | 7 => do let f ← r.fI; pure (.vsra r.h r.d r.a r.b r.k f)
  | _ => .error 0
/-- Opcodes 0xA0 to 0xA7: funnel shifts and conversions (R149, R152). -/
def buildRow14 (r : Raw) : Nat → Except Nat Instr
  | 0 => .ok (.vfsl r.h r.d r.a r.b r.c)
  | 1 => .ok (.vfsr r.h r.d r.a r.b r.c)
  | 2 => .ok (.vrot r.h r.d r.a r.c)
  | 3 => do
    let m ← r.rm5
    must 5 (partOk r.fmt.bits r.dfmt.bits (r.fn.extractLsb' 0 4).toNat)
    pure (.vcvt r.h r.d r.a r.k r.fmt r.dfmt m r.sat (r.fn.extractLsb' 0 4))
  | 4 => do
    let m ← r.rm5
    must 5 (r.dfmt.bits ≤ r.fmt.bits && partOk r.fmt.bits r.dfmt.bits (r.fn.extractLsb' 0 4).toNat &&
            scalesFit r.fmt.bits (r.fn.extractLsb' 5 4).toNat (r.fn.getLsbD 4))
    pure (.vqnt r.h r.d r.a r.b r.k r.fmt r.dfmt m r.sat (r.fn.extractLsb' 5 4) (r.fn.getLsbD 4) (r.fn.extractLsb' 0 4))
  | 5 => do
    let m ← r.rm5
    must 5 (r.dfmt.bits ≥ r.fmt.bits && partOk r.fmt.bits r.dfmt.bits (r.fn.extractLsb' 0 4).toNat &&
            scalesFit r.fmt.bits (r.fn.extractLsb' 5 4).toNat (r.fn.getLsbD 4))
    pure (.vdqnt r.h r.d r.a r.b r.k r.fmt r.dfmt m r.sat (r.fn.extractLsb' 5 4) (r.fn.getLsbD 4) (r.fn.extractLsb' 0 4))
  | 6 => .ok (.vmov r.h r.d r.a r.k r.fmt)
  | 7 => .ok (.vsplat r.h r.d r.a r.k r.fmt)
  | _ => .error 0
/-- Opcodes 0xA8 to 0xAF: cross-lane operations (R149, R152). -/
def buildRow15 (r : Raw) : Nat → Except Nat Instr
  | 0 => .ok (.vext r.h r.d r.a r.b r.fmt)
  | 1 => do
    let m ← r.rm5
    must 5 (redFmtOk r.fmt r.dfmt && (!r.dfmt.isI || r.rm == 0) && (r.dfmt.isF || r.dfmt.isP || r.dfmt.isI) && (!r.sat || r.dfmt.isI))
    pure (.vredadd r.h r.d r.a r.b r.k r.fmt r.dfmt m r.sat)
  | 2 => do must 5 (redFmtOk r.fmt r.dfmt); pure (.vredmax r.h r.d r.a r.b r.k r.fmt r.dfmt)
  | 3 => do must 5 (redFmtOk r.fmt r.dfmt); pure (.vredmin r.h r.d r.a r.b r.k r.fmt r.dfmt)
  | 4 => do must 5 (r.fmt != .e2m1); pure (.vperm r.h r.d r.a r.b r.k r.fmt)
  | 5 => .ok (.vslide r.h r.d r.a r.b r.c r.k r.fmt (r.fn.getLsbD 0))
  | 6 => .ok (.vbcast r.h r.d r.a r.b r.k r.fmt)
  | 7 => .ok (.vpopc r.h r.d (r.a.extractLsb' 0 3) (r.fn.getLsbD 0))
  | _ => .error 0
/-- Opcodes 0xB0 to 0xB7: vector memory (R149, R152). -/
def buildRow16 (r : Raw) : Nat → Except Nat Instr
  | 0 => .ok (.vld r.h r.d (r.a.extractLsb' 0 4) r.c r.k)
  | 1 => .ok (.vst r.h r.a (r.b.extractLsb' 0 4) r.c r.k)
  | n => do
    must 5 (r.fmt == .f32 || r.fmt == .s32 || r.fmt == .z32 || r.fmt == .f64)
    if n = 2 then pure (.vacr r.h r.d r.a r.k r.fmt) else pure (.vacw r.h r.a r.b r.k r.fmt)
/-- Opcodes 0xC0 to 0xC7: the range (R149, R152). -/
def buildRow18 (r : Raw) : Nat → Except Nat Instr
  | 0 => do
    must 5 (r.im 0 3 != 7 && r.im 4 2 != 3 && r.im 6 2 != 3 && r.im 8 2 != 3 && r.im 10 2 != 3)
    pure (.hcut r.h (r.im 0 3) (r.im 4 8))
  | 1 => do
    must 5 (r.im 0 2 != 3 && r.im 2 2 != 3 && (r.im 0 2 != 0 || r.im 2 2 != 0 || r.im 4 8 == 0))
    pure (.hchain r.h (r.im 0 2) (r.im 2 2) (r.im 4 8))
  | 2 => do
    must 5 (mloadbFmt r.fmt && r.fn.extractLsb' 0 2 != 3 && r.fn.extractLsb' 2 2 != 3)
    pure (.mloadb r.h (r.d.extractLsb' 0 2) r.a r.fmt (r.fn.extractLsb' 0 2) (r.fn.extractLsb' 2 2) r.imm)
  | 3 => do
    let m ← r.rm4
    must 5 (mloadbFmt r.fmt && (r.rm == 0 || r.fmt == .f32 || r.fmt == .f64))
    pure (.mma r.h (r.d.extractLsb' 0 2) (r.a.extractLsb' 0 4) r.b r.fmt m (r.fn.getLsbD 0) (r.fn.getLsbD 1) (r.im 0 10) (r.im 10 7) (r.im 17 10))
  | 4 => do
    let m ← r.rm4
    must 5 (r.fmt == .f32 || r.fmt == .s32 || r.fmt == .f64)
    pure (.mdrain r.h (r.d.extractLsb' 0 2) (r.a.extractLsb' 0 4) r.b r.fmt m r.sat (r.fn.getLsbD 0) (r.fn.getLsbD 1) (r.im 0 10) (r.im 10 7) (r.im 17 10))
  | 5 => .ok (.mzero r.h (r.d.extractLsb' 0 2) r.b (r.im 0 10) (r.im 10 10))
  | 6 => .ok (.wswap r.h)
  | _ => .error 0
/-- Opcodes 0xD0 to 0xD7: near memory (R149, R152). -/
def buildRow1A (r : Raw) : Nat → Except Nat Instr
  | 0 => do must 5 (r.scope == 2 && r.fn == 0); pure (.nlaunch r.h (r.d.extractLsb' 0 2) r.a r.b r.imm)
  | 1 => do
    must 5 ((r.fn == 1 && r.scope == 2) || (r.fn == 0 && r.scope == 0))
    pure (.nwait r.h r.d r.a r.b (r.fn == 1))
  | 2 => do
    must 5 ((r.fn == 1 && r.scope == 2) || (r.fn == 0 && r.scope == 0))
    pure (.npost r.h r.a r.b (r.fn == 1))
  | 3 => do must 5 (r.fn.toNat ≤ 1 && r.scope == 0); pure (.nabort r.h r.d r.a (r.fn == 1))
  | 4 => do
    must 5 (r.scope == 0)
    match r.fn.toNat with
    | 0 => pure (.nstat r.h r.d r.a .map) | 1 => pure (.nstat r.h r.d r.a .q) | 2 => pure (.nstat r.h r.d r.a .ecc) | _ => .error 5
  | _ => .error 0
/-- Opcodes 0xD8 to 0xDF: dsync (R149, R152). -/
def buildRow1B (r : Raw) : Nat → Except Nat Instr
  | 0 => .ok (.dsync r.h r.d (r.b.extractLsb' 0 2))
  | _ => .error 0
/-- Opcodes 0xE0 to 0xE7: system registers and context (R149, R152). -/
def buildRow1C (r : Raw) : Nat → Except Nat Instr
  | 0 => .ok (.srd r.h r.d (r.im 0 12))
  | 1 => .ok (.swr r.h r.a (r.im 0 12))
  | 2 => .ok (.sset r.h r.d r.a (r.im 0 12))
  | 3 => .ok (.sclr r.h r.d r.a (r.im 0 12))
  | 4 => do
    let kind := (r.fn.extractLsb' 0 2).toNat
    must 2 (kind = 0 || kind = 3 || r.a == 0)
    must 2 (kind ≠ 2 || r.b == 0)
    must 2 (kind = 0 || r.fn.extractLsb' 2 2 == 0 || r.fn.extractLsb' 2 2 == 3 || kind = 3)
    must 5 (r.scope == 2 && r.fn.extractLsb' 4 9 == 0 && r.fn.extractLsb' 2 2 != 3 && kind ≠ 3)
    let size : PageSize := match (r.fn.extractLsb' 2 2).toNat with | 0 => .k64 | 1 => .m2 | _ => .g1
    pure (.tlbinv r.h r.a r.b (if kind = 0 then .page else if kind = 1 then .asid else .all) size)
  | 5 => .ok (.ctxsave r.h r.d r.a r.b)
  | 6 => .ok (.ctxload r.h r.d r.a r.b)
  | 7 => .ok (.idle r.h)
  | _ => .error 0
/-- Opcodes 0xE8 to 0xEF: events (R149, R152). -/
def buildRow1D (r : Raw) : Nat → Except Nat Instr
  | 0 => .ok (.evpost r.h r.a (r.im 0 16))
  | _ => .error 0
/-- The instruction of an opcode's fields, or the kind of the value that is not accepted; rows of eight (R149). -/
def buildRow (r : Raw) : Nat → Nat → Except Nat Instr
  | 0x00, n => buildRow00 r n
  | 0x01, n => buildRow01 r n
  | 0x02, n => buildRow02 r n
  | 0x04, n => buildRow04 r n
  | 0x05, n => buildRow05 r n
  | 0x06, n => buildRow06 r n
  | 0x07, n => buildRow07 r n
  | 0x08, n => buildRow08 r n
  | 0x0A, n => buildRow0A r n
  | 0x0B, n => buildRow0B r n
  | 0x0C, n => buildRow0C r n
  | 0x0D, n => buildRow0D r n
  | 0x0E, n => buildRow0E r n
  | 0x0F, n => buildRow0F r n
  | 0x10, n => buildRow10 r n
  | 0x11, n => buildRow11 r n
  | 0x12, n => buildRow12 r n
  | 0x13, n => buildRow13 r n
  | 0x14, n => buildRow14 r n
  | 0x15, n => buildRow15 r n
  | 0x16, n => buildRow16 r n
  | 0x18, n => buildRow18 r n
  | 0x1A, n => buildRow1A r n
  | 0x1B, n => buildRow1B r n
  | 0x1C, n => buildRow1C r n
  | 0x1D, n => buildRow1D r n
  | _, _ => .error 0

/-- The instruction of the fields, or the kind of the value that is not accepted (R152). -/
def Raw.build (r : Raw) : Except Nat Instr := buildRow r (r.opc.toNat / 8) (r.opc.toNat % 8)

/-- Kind 2 of a field that is reserved in the form that other fields name, such as an operand that a copy without a barrier does not use (R152,
R193, R204, R206). -/
def reservedForm (ws : List Word32) : Bool :=
  match ws with
  | [] => false
  | w :: ext => match shapeOf (w.extractLsb' 15 8) with
    | none => false
    | some sh => match (fieldsOf sh w ext).build with
      | .error k => k == 2
      | .ok _ => false

/-- Decodes the instruction whose base word heads the list: the instruction and its number of words, or the lowest kind of
0, 2, 3, 4 and 5 that applies (R152; kinds 1, 6 and 7 depend on the strand and its state). -/
def decode (ws : List Word32) : Except Nat (Instr × Nat) :=
  match rawOf ws with
  | .error k => .error (if reservedForm ws then min k 2 else k)
  | .ok (r, n) => match r.build with
    | .error k => .error k
    | .ok i => .ok (i, n)

/-- Kind 1 of words that do not decode: a strand that R149 or R45 does not list, a mask named in the K field of a typed word on a
strand other than C (R17, R148, R151, R213), or a swr, sset or sclr of SRSEED off C or of EARLYRD off X (R183). -/
def offStrand (ws : List Word32) (st : StrandId) : Bool :=
  match ws with
  | [] => false
  | w :: ext =>
    let opc := w.extractLsb' 15 8
    match shapeOf opc with
    | none => false
    | some sh =>
      let s := if (w.extractLsb' 29 3).toNat = 7 then 1 else 0
      let len := (w.extractLsb' 23 2).toNat
      !(strandsOf opc).contains st || (opc == 0xD8 && w.extractLsb' 0 2 != 0 && st != .x) ||
        (sh.typed && decide (s < len) && (ext.getD s 0).extractLsb' 16 3 != 0 && st != .c) ||
        ((opc == 0xE1 || opc == 0xE2 || opc == 0xE3) && decide (s < len) &&
          (((ext.getD s 0).extractLsb' 0 12 == 0x00A && st != .c) || ((ext.getD s 0).extractLsb' 0 12 == 0x00B && st != .x)))

/-- The little-endian 32-bit words of a byte list; a last partial word is filled with zero bytes (R3). -/
def wordsOfBytes : List Byte → List Word32
  | b0 :: b1 :: b2 :: b3 :: rest => (b3 ++ b2 ++ b1 ++ b0) :: wordsOfBytes rest
  | [] => []
  | bs => [((bs.getD 2 0) ++ (bs.getD 1 0) ++ (bs.getD 0 0)).zeroExtend 32]

/-- The bytes of a word, lowest address first (R3). -/
def bytesOfWord (w : Word32) : List Byte := [w.extractLsb' 0 8, w.extractLsb' 8 8, w.extractLsb' 16 8, w.extractLsb' 24 8]

/-- Decodes an instruction from the bytes of its words as a code line stores them. -/
def decodeBytes (bs : List Byte) : Except Nat (Instr × Nat) := decode (wordsOfBytes bs)

/-- The instruction that the decoder reads from an instruction whose bits, numbered as the opcode table numbers them, are
`w`: four little-endian words, those above `nbits` zero. -/
def decodeTableWord (nbits w : Nat) : Option Instr :=
  let v := w % 2 ^ nbits
  let word (i : Nat) : Word32 := BitVec.ofNat 32 (v >>> (32 * i))
  match decodeBytes (((List.range 4).map fun i => bytesOfWord (word i)).flatten) with
  | .ok (i, _) => some i
  | .error _ => none

/-! ### The encoder (R142-R149) -/

/-- TGT of an immediate word (R146). -/
def tgtWord (t : BitVec 15) : Word32 := 0#17 ++ t
/-- Immediate word of bbit (R146). -/
def bitWord (s : Bool) (n : BitVec 6) (t : BitVec 15) : Word32 := 0#10 ++ (bit s ++ n ++ t)
/-- Sixteen bits of an immediate word (R172, R187). -/
def codeWord (t : BitVec 16) : Word32 := 0#16 ++ t
/-- A shift amount (R177). -/
def shWord (t : BitVec 6) : Word32 := 0#26 ++ t
/-- Two bits of an immediate word (R190). -/
def twoWord (t : BitVec 2) : Word32 := 0#30 ++ t
/-- One bit of an immediate word (R191). -/
def oneWord (u : Bool) : Word32 := 0#31 ++ bit u
/-- Immediate word of qwp (R190). -/
def chanWord (e : Bool) (c : BitVec 3) : Word32 := 0#28 ++ (bit e ++ c)
/-- Immediate word of a collective: TAG and ARG (R206). -/
def tagWord (g : BitVec 10) (a : BitVec 22) : Word32 := g ++ a
/-- Immediate word of hcut (R238). -/
def cutWord (b : BitVec 8) (c : BitVec 3) : Word32 := 0#20 ++ (b ++ 0#1 ++ c)
/-- Immediate word of hchain (R240). -/
def chainWord (h : BitVec 8) (w : BitVec 2) (l : BitVec 2) : Word32 := 0#20 ++ (h ++ w ++ l)
/-- Immediate word of mma and mdrain (R242, R245). -/
def rowsWord (m : BitVec 10) (c : BitVec 7) (w : BitVec 10) : Word32 := 0#5 ++ (m ++ c ++ w)
/-- Immediate word of mzero (R246). -/
def zeroWord (n : BitVec 10) (w : BitVec 10) : Word32 := 0#12 ++ (n ++ w)
/-- Number of a system register (R183). -/
def regWord (g : BitVec 12) : Word32 := 0#20 ++ g
/-- FN of one bit. -/
def flagFn (b : Bool) : BitVec 13 := 0#12 ++ bit b
/-- FN of two bits. -/
def spFn (s : BitVec 2) : BitVec 13 := 0#11 ++ s
/-- FN of an operation on an object: condition, order, space (R198). -/
def objFn (c : BitVec 3) (o : Bool) (s : BitVec 2) : BitVec 13 := 0#7 ++ (c ++ bit o ++ s)
/-- FN of an atomic: ORD and OP (R204). -/
def atomFn (o : BitVec 2) (p : BitVec 4) : BitVec 13 := 0#7 ++ (o ++ p)
/-- FN of a collective: channel, SBS, DBS, SB, DB, LVL (R206). -/
def collFn (c : BitVec 3) (a : Bool) (b : Bool) (x : Bool) (y : Bool) (l : BitVec 2) : BitVec 13 := 0#4 ++ (c ++ bit a ++ bit b ++ bit x ++ bit y ++ l)
/-- FN of three bits. -/
def condFn (c : BitVec 3) : BitVec 13 := 0#10 ++ c
/-- A truth table in FN (R225, R227). -/
def tableFn (t : BitVec 8) : BitVec 13 := 0#5 ++ t
/-- FN of vcvt: DFMT and PART (R229). -/
def cvtFn (f : BitVec 4) (p : BitVec 4) : BitVec 13 := f ++ 0#5 ++ p
/-- FN of vqnt and vdqnt: DFMT, SB, SF and PART (R229). -/
def scaleFn (f : BitVec 4) (s : BitVec 4) (b : Bool) (p : BitVec 4) : BitVec 13 := f ++ s ++ bit b ++ p
/-- FN of a reduction: DFMT (R230). -/
def redFn (f : BitVec 4) : BitVec 13 := f ++ 0#9
/-- FN of mloadb: CSM and WZ (R241). -/
def loadFn (c : BitVec 2) (w : BitVec 2) : BitVec 13 := 0#9 ++ (c ++ w)
/-- FN of mma and mdrain: CS and RS (R242). -/
def rsFn (c : Bool) (r : Bool) : BitVec 13 := 0#11 ++ (bit c ++ bit r)
/-- FN of tlbinv: size and kind (R185). -/
def invFn (s : BitVec 2) (k : BitVec 2) : BitVec 13 := 0#9 ++ (s ++ k)
/-- FN of a copy: DFMT, CV, SBS, DBS, SB, DB, channel (R193). -/
def copyFn (f : BitVec 4) (v : Bool) (a : Bool) (s : BitVec 2) (x : Bool) (y : Bool) (c : BitVec 3) : BitVec 13 := f ++ bit v ++ bit a ++ s ++ bit x ++ bit y ++ c
/-- A direction in a register field (R175, R205). -/
def dirField (b : Bool) : BitVec 5 := 0#4 ++ bit b
/-- A stream register or count in a register field (R148). -/
def qField (q : BitVec 4) : BitVec 5 := 0#1 ++ q
/-- A mask register in a register field (R148). -/
def kField (k : BitVec 3) : BitVec 5 := 0#2 ++ k
/-- Two bits in a register field. -/
def twoField (n : BitVec 2) : BitVec 5 := 0#3 ++ n

/-- FN code of a fence (R176). -/
def FenceForm.code : FenceForm → BitVec 13
  | .acq => 1 | .rel => 2 | .full => 3
/-- FN code of a selector of accq (R211). -/
def AccqSel.code : AccqSel → BitVec 13
  | .fly => 0 | .wear => 1 | .free => 2
/-- FN code of a selector of nstat (R271). -/
def NstatSel.code : NstatSel → BitVec 13
  | .map => 0 | .q => 1 | .ecc => 2
/-- FN[1:0] of tlbinv (R185). -/
def TlbKind.code : TlbKind → BitVec 2
  | .page => 0 | .asid => 1 | .all => 2
/-- FN[3:2] of tlbinv (R185). -/
def PageSize.code : PageSize → BitVec 2
  | .k64 => 0 | .m2 => 1 | .g1 => 2
/-- LVL of a collective (R206). -/
def CollLvl.code : CollLvl → BitVec 2
  | .bind => 1 | .dev => 2 | .grp => 3
/-- SCOPE of an ordered form; 0 of a relaxed one (R178). -/
def ordScopeCode : Option Scope → BitVec 3
  | some s => s.code | none => 0
/-- DBS of a copy's destination barrier (R193). -/
def dbsCode : Option ObjSpace → BitVec 2
  | some .gm => 1 | some .xm => 2 | _ => 0
/-- Typed word of an operation on an object (R189, R198). -/
def objTyped (sp : ObjSpace) (cond : BitVec 3) (o : Option Scope) : Word32 :=
  typedWord .f64 0 false 0 0 (ordScopeCode o) (objFn cond o.isSome sp.code)
/-- FN of a copy, with the destination format and CV (R193). -/
def CopySpec.fnWord (o : CopySpec) (dfmt : Fmt) (cv : Bool) : BitVec 13 :=
  copyFn dfmt.code cv (o.sb.getD false) (dbsCode o.db) o.sb.isSome o.db.isSome o.ch
/-- Typed word of a copy (R193). -/
def CopySpec.typed (o : CopySpec) : Word32 :=
  match o.cv with
  | some v => typedWord v.src v.rm.code v.sat o.c 0 o.scope.code (o.fnWord v.dst true)
  | none => typedWord .f64 0 false o.c 0 o.scope.code (o.fnWord .f64 false)
/-- SCOPE of an atomic (R204). -/
def AtomOrd.scopeCode : AtomOrd → BitVec 3
  | .rlx => 0 | .acq s | .rel s | .acqrel s => s.code
/-- ORD of an atomic (R204). -/
def AtomOrd.code : AtomOrd → BitVec 2
  | .rlx => 0 | .acq _ => 1 | .rel _ => 2 | .acqrel _ => 3
/-- Typed word of an atomic (R204). -/
def AtomSpec.typed (o : AtomSpec) : Word32 :=
  typedWord o.fmt o.rm.code o.sat o.c 0 o.ord.scopeCode (atomFn o.ord.code o.op.code)
/-- Typed word of a collective (R206). -/
def CollSpec.typed (o : CollSpec) (fmt : Fmt) (rm : BitVec 3) (sat : Bool) : Word32 :=
  typedWord fmt rm sat o.c 0 o.scope.code
    (collFn o.ch (o.sb.getD false) (o.db.getD false) o.sb.isSome o.db.isSome o.lvl.code)

/-- The fields of an encoded instruction; events have none (R149). -/
def Instr.toRaw : Instr → Option Raw
  | .nop h => some { h := h, opc := 0x00 }
  | .wait h n => some { h := h, opc := 0x01, imm := n }
  | .j h tgt => some { h := h, opc := 0x02, imm := tgtWord tgt }
  | .jr h a => some { h := h, opc := 0x03, a := a }
  | .beq h a b tgt => some { h := h, opc := 0x04, a := a, b := b, imm := tgtWord tgt }
  | .bne h a b tgt => some { h := h, opc := 0x05, a := a, b := b, imm := tgtWord tgt }
  | .blt h a b tgt => some { h := h, opc := 0x06, a := a, b := b, imm := tgtWord tgt }
  | .bge h a b tgt => some { h := h, opc := 0x07, a := a, b := b, imm := tgtWord tgt }
  | .bltu h a b tgt => some { h := h, opc := 0x08, a := a, b := b, imm := tgtWord tgt }
  | .bgeu h a b tgt => some { h := h, opc := 0x09, a := a, b := b, imm := tgtWord tgt }
  | .call h d tgt => some { h := h, opc := 0x0A, d := d, imm := tgtWord tgt }
  | .ret h a => some { h := h, opc := 0x0B, a := a }
  | .loop h a tgt => some { h := h, opc := 0x0C, a := a, imm := tgtWord tgt }
  | .lexit h tgt => some { h := h, opc := 0x0D, imm := tgtWord tgt }
  | .retire h => some { h := h, opc := 0x0E }
  | .bbit h a n sense tgt => some { h := h, opc := 0x0F, a := a, imm := bitWord sense n tgt }
  | .give h dir n => some { h := h, opc := 0x10, d := dirField dir, b := qField n }
  | .take h dir n => some { h := h, opc := 0x11, d := dirField dir, b := qField n }
  | .mark h tag => some { h := h, opc := 0x12, b := qField tag }
  | .fence h form sc => some { h := h, opc := 0x13, t := typedWord .f64 0 false 0 0 sc.code form.code }
  | .tfence h => some { h := h, opc := 0x14 }
  | .trap h code => some { h := h, opc := 0x15, imm := codeWord code }
  | .eret h => some { h := h, opc := 0x16 }
  | .dtwait h d a ofs => some { h := h, opc := 0x17, d := d, a := a, imm := ofs }
  | .add h d a b => some { h := h, opc := 0x20, d := d, a := a, b := b }
  | .sub h d a b => some { h := h, opc := 0x21, d := d, a := a, b := b }
  | .and h d a b => some { h := h, opc := 0x22, d := d, a := a, b := b }
  | .or h d a b => some { h := h, opc := 0x23, d := d, a := a, b := b }
  | .xor h d a b => some { h := h, opc := 0x24, d := d, a := a, b := b }
  | .sll h d a b => some { h := h, opc := 0x25, d := d, a := a, b := b }
  | .srl h d a b => some { h := h, opc := 0x26, d := d, a := a, b := b }
  | .sra h d a b => some { h := h, opc := 0x27, d := d, a := a, b := b }
  | .addi h d a imm => some { h := h, opc := 0x28, d := d, a := a, imm := imm }
  | .andi h d a imm => some { h := h, opc := 0x29, d := d, a := a, imm := imm }
  | .ori h d a imm => some { h := h, opc := 0x2A, d := d, a := a, imm := imm }
  | .xori h d a imm => some { h := h, opc := 0x2B, d := d, a := a, imm := imm }
  | .slli h d a sh => some { h := h, opc := 0x2C, d := d, a := a, imm := shWord sh }
  | .srli h d a sh => some { h := h, opc := 0x2D, d := d, a := a, imm := shWord sh }
  | .srai h d a sh => some { h := h, opc := 0x2E, d := d, a := a, imm := shWord sh }
  | .li h d imm => some { h := h, opc := 0x2F, d := d, imm := imm }
  | .lih h d a imm => some { h := h, opc := 0x30, d := d, a := a, imm := imm }
  | .slt h d a b => some { h := h, opc := 0x31, d := d, a := a, b := b }
  | .sltu h d a b => some { h := h, opc := 0x32, d := d, a := a, b := b }
  | .slti h d a imm => some { h := h, opc := 0x33, d := d, a := a, imm := imm }
  | .min h d a b => some { h := h, opc := 0x34, d := d, a := a, b := b }
  | .max h d a b => some { h := h, opc := 0x35, d := d, a := a, b := b }
  | .minu h d a b => some { h := h, opc := 0x36, d := d, a := a, b := b }
  | .maxu h d a b => some { h := h, opc := 0x37, d := d, a := a, b := b }
  | .mul h d a b => some { h := h, opc := 0x38, d := d, a := a, b := b }
  | .mulh h d a b => some { h := h, opc := 0x39, d := d, a := a, b := b }
  | .mulhu h d a b => some { h := h, opc := 0x3A, d := d, a := a, b := b }
  | .div h d a b => some { h := h, opc := 0x3B, d := d, a := a, b := b }
  | .divu h d a b => some { h := h, opc := 0x3C, d := d, a := a, b := b }
  | .rem h d a b => some { h := h, opc := 0x3D, d := d, a := a, b := b }
  | .remu h d a b => some { h := h, opc := 0x3E, d := d, a := a, b := b }
  | .popc h d a => some { h := h, opc := 0x3F, d := d, a := a }
  | .lds h d a f o imm => some { h := h, opc := 0x40, d := d, a := a, t := typedWord f.fmt 0 false 0 0 (ordScopeCode o) (flagFn o.isSome), imm := imm }
  | .sts h a b f o imm => some { h := h, opc := 0x41, a := a, b := b, t := typedWord f.fmt 0 false 0 0 (ordScopeCode o) (flagFn o.isSome), imm := imm }
  | .ldp h d a f o imm => some { h := h, opc := 0x42, d := d, a := a, t := typedWord f.fmt 0 false 0 0 (ordScopeCode o) (flagFn o.isSome), imm := imm }
  | .stp h a b f o imm => some { h := h, opc := 0x43, a := a, b := b, t := typedWord f.fmt 0 false 0 0 (ordScopeCode o) (flagFn o.isSome), imm := imm }
  | .ldg h d a f o imm => some { h := h, opc := 0x44, d := d, a := a, t := typedWord f.fmt 0 false 0 0 (ordScopeCode o) (flagFn o.isSome), imm := imm }
  | .stg h a b f o imm => some { h := h, opc := 0x45, a := a, b := b, t := typedWord f.fmt 0 false 0 0 (ordScopeCode o) (flagFn o.isSome), imm := imm }
  | .ldx h d a f o imm => some { h := h, opc := 0x46, d := d, a := a, t := typedWord f.fmt 0 false 0 0 (ordScopeCode o) (flagFn o.isSome), imm := imm }
  | .stx h a b f o imm => some { h := h, opc := 0x47, a := a, b := b, t := typedWord f.fmt 0 false 0 0 (ordScopeCode o) (flagFn o.isSome), imm := imm }
  | .qset h d a n => some { h := h, opc := 0x50, d := qField d, a := a, imm := twoWord n }
  | .qld h d a imm => some { h := h, opc := 0x51, d := qField d, a := a, imm := imm }
  | .qst h a b imm => some { h := h, opc := 0x52, a := qField a, b := b, imm := imm }
  | .qmov h d a => some { h := h, opc := 0x53, d := qField d, a := qField a }
  | .qadv h d a b imm => some { h := h, opc := 0x54, d := qField d, a := a, b := b, imm := imm }
  | .qget h d a n => some { h := h, opc := 0x55, d := d, a := qField a, b := twoField n }
  | .qchk h d a u => some { h := h, opc := 0x56, d := d, a := qField a, imm := oneWord u }
  | .qwp h d ch en => some { h := h, opc := 0x57, d := qField d, imm := chanWord en ch }
  | .cpLl h d a b o => some { h := h, opc := 0x58, d := d, a := a, b := b, t := o.typed }
  | .cpLp h d a b o => some { h := h, opc := 0x59, d := d, a := a, b := b, t := o.typed }
  | .cpPl h d a b o => some { h := h, opc := 0x5A, d := d, a := a, b := b, t := o.typed }
  | .cpLf h d a b o => some { h := h, opc := 0x5B, d := d, a := a, b := b, t := o.typed }
  | .cpLw h d a b o => some { h := h, opc := 0x5C, d := d, a := a, b := b, t := o.typed }
  | .cpLg h d a b o => some { h := h, opc := 0x5D, d := d, a := a, b := b, t := o.typed }
  | .cpGl h d a b o => some { h := h, opc := 0x5E, d := d, a := a, b := b, t := o.typed }
  | .cpGg h d a b o => some { h := h, opc := 0x5F, d := d, a := a, b := b, t := o.typed }
  | .cpLx h d a b o => some { h := h, opc := 0x60, d := d, a := a, b := b, t := o.typed }
  | .cpXl h d a b o => some { h := h, opc := 0x61, d := d, a := a, b := b, t := o.typed }
  | .cpGx h d a b o => some { h := h, opc := 0x62, d := d, a := a, b := b, t := o.typed }
  | .cpXg h d a b o => some { h := h, opc := 0x63, d := d, a := a, b := b, t := o.typed }
  | .cpAl h d a b o => some { h := h, opc := 0x64, d := d, a := a, b := b, t := o.typed }
  | .cpAg h d a b o => some { h := h, opc := 0x65, d := d, a := a, b := b, t := o.typed }
  | .cpAw h d a b o => some { h := h, opc := 0x66, d := d, a := a, b := b, t := o.typed }
  | .cpGw h d a b o => some { h := h, opc := 0x67, d := d, a := a, b := b, t := o.typed }
  | .binit h sp a b => some { h := h, opc := 0x68, a := a, b := b, t := typedWord .f64 0 false 0 0 0 (spFn sp.code) }
  | .barr h sp a o => some { h := h, opc := 0x69, a := a, t := objTyped sp 0 o }
  | .bwait h sp d a b o => some { h := h, opc := 0x6A, d := d, a := a, b := b, t := objTyped sp 0 o }
  | .bwaitt h sp d a b o lim => some { h := h, opc := 0x6B, d := d, a := a, b := b, t := objTyped sp 0 o, imm := lim }
  | .wset h sp a b o => some { h := h, opc := 0x6C, a := a, b := b, t := objTyped sp 0 o }
  | .wwait h sp d a b cond o => some { h := h, opc := 0x6D, d := d, a := a, b := b, t := objTyped sp cond o }
  | .wqwait h sp d a o => some { h := h, opc := 0x6E, d := d, a := a, t := objTyped sp 0 o }
  | .wwake h sp d a b o => some { h := h, opc := 0x6F, d := d, a := a, b := b, t := objTyped sp 0 o }
  | .aml h d a b o => some { h := h, opc := 0x70, d := d, a := a, b := b, t := o.typed }
  | .amp h d a b o => some { h := h, opc := 0x71, d := d, a := a, b := b, t := o.typed }
  | .amg h d a b o => some { h := h, opc := 0x72, d := d, a := a, b := b, t := o.typed }
  | .amx h d a b o => some { h := h, opc := 0x73, d := d, a := a, b := b, t := o.typed }
  | .fluePut h dir a => some { h := h, opc := 0x74, d := dirField dir, a := a }
  | .flueGet h d dir => some { h := h, opc := 0x75, d := d, a := dirField dir }
  | .flueFree h d dir => some { h := h, opc := 0x76, d := d, a := dirField dir }
  | .lred h d a b fmt rm sat o => some { h := h, opc := 0x78, d := d, a := a, b := b, t := o.typed fmt rm.code sat, imm := tagWord o.tag o.arg }
  | .lbcast h d a b o => some { h := h, opc := 0x79, d := d, a := a, b := b, t := o.typed .f64 0 false, imm := tagWord o.tag o.arg }
  | .lgath h d a b o => some { h := h, opc := 0x7A, d := d, a := a, b := b, t := o.typed .f64 0 false, imm := tagWord o.tag o.arg }
  | .acc h d a b c repl => some { h := h, opc := 0x7B, d := d, a := a, b := b, t := typedWord .f64 0 false c 0 0 (flagFn repl) }
  | .bpoll h sp d a o => some { h := h, opc := 0x7C, d := d, a := a, t := objTyped sp 0 o }
  | .wpoll h sp d a o => some { h := h, opc := 0x7D, d := d, a := a, t := objTyped sp 0 o }
  | .accq h d sel => some { h := h, opc := 0x7E, d := d, t := typedWord .f64 0 false 0 0 0 sel.code }
  | .vadd h d a b k f rm sat => some { h := h, opc := 0x80, d := d, a := a, b := b, t := typedWord f rm.code sat 0 k 0 0 }
  | .vsub h d a b k f rm sat => some { h := h, opc := 0x81, d := d, a := a, b := b, t := typedWord f rm.code sat 0 k 0 0 }
  | .vmul h d a b k f rm sat => some { h := h, opc := 0x82, d := d, a := a, b := b, t := typedWord f rm.code sat 0 k 0 0 }
  | .vfma h d a b c k f rm sat => some { h := h, opc := 0x83, d := d, a := a, b := b, t := typedWord f rm.code sat c k 0 0 }
  | .vfms h d a b c k f rm sat => some { h := h, opc := 0x84, d := d, a := a, b := b, t := typedWord f rm.code sat c k 0 0 }
  | .vfnma h d a b c k f rm sat => some { h := h, opc := 0x85, d := d, a := a, b := b, t := typedWord f rm.code sat c k 0 0 }
  | .vmin h d a b k f => some { h := h, opc := 0x86, d := d, a := a, b := b, t := typedWord f 0 false 0 k 0 0 }
  | .vmax h d a b k f => some { h := h, opc := 0x87, d := d, a := a, b := b, t := typedWord f 0 false 0 k 0 0 }
  | .vabs h d a k f sat => some { h := h, opc := 0x88, d := d, a := a, t := typedWord f 0 sat 0 k 0 0 }
  | .vneg h d a k f sat => some { h := h, opc := 0x89, d := d, a := a, t := typedWord f 0 sat 0 k 0 0 }
  | .vdiv h d a b k f rm => some { h := h, opc := 0x8A, d := d, a := a, b := b, t := typedWord f rm.code false 0 k 0 0 }
  | .vsqrt h d a k f rm => some { h := h, opc := 0x8B, d := d, a := a, t := typedWord f rm.code false 0 k 0 0 }
  | .vrcp h d a k f rm => some { h := h, opc := 0x8C, d := d, a := a, t := typedWord f rm.code false 0 k 0 0 }
  | .vrsq h d a k f rm => some { h := h, opc := 0x8D, d := d, a := a, t := typedWord f rm.code false 0 k 0 0 }
  | .vround h d a k f rm => some { h := h, opc := 0x8E, d := d, a := a, t := typedWord f rm.code false 0 k 0 0 }
  | .vclass h d a k f => some { h := h, opc := 0x8F, d := d, a := a, t := typedWord f 0 false 0 k 0 0 }
  | .vexp h d a k f rm => some { h := h, opc := 0x90, d := d, a := a, t := typedWord f rm.code false 0 k 0 0 }
  | .vexp2 h d a k f rm => some { h := h, opc := 0x91, d := d, a := a, t := typedWord f rm.code false 0 k 0 0 }
  | .vlog h d a k f rm => some { h := h, opc := 0x92, d := d, a := a, t := typedWord f rm.code false 0 k 0 0 }
  | .vlog2 h d a k f rm => some { h := h, opc := 0x93, d := d, a := a, t := typedWord f rm.code false 0 k 0 0 }
  | .vsin h d a k f rm => some { h := h, opc := 0x94, d := d, a := a, t := typedWord f rm.code false 0 k 0 0 }
  | .vcos h d a k f rm => some { h := h, opc := 0x95, d := d, a := a, t := typedWord f rm.code false 0 k 0 0 }
  | .vtanh h d a k f rm => some { h := h, opc := 0x96, d := d, a := a, t := typedWord f rm.code false 0 k 0 0 }
  | .vclamp h d a b c k f => some { h := h, opc := 0x97, d := d, a := a, b := b, t := typedWord f 0 false c k 0 0 }
  | .vcmp h d a b k cond f => some { h := h, opc := 0x98, d := kField d, a := a, b := b, t := typedWord f 0 false 0 k 0 (condFn cond) }
  | .vsel h d a b k f => some { h := h, opc := 0x99, d := d, a := a, b := b, t := typedWord f 0 false 0 k 0 0 }
  | .kop h d a b c tt => some { h := h, opc := 0x9A, d := kField d, a := kField a, b := kField b, t := typedWord .f64 0 false (kField c) 0 0 (tableFn tt) }
  | .kmov h d a b n => some { h := h, opc := 0x9B, d := kField d, a := a, b := kField b, t := typedWord .f64 0 false 0 0 0 (spFn n) }
  | .vlop3 h d a b c k f tt => some { h := h, opc := 0x9C, d := d, a := a, b := b, t := typedWord f 0 false c k 0 (tableFn tt) }
  | .vsll h d a b k f => some { h := h, opc := 0x9D, d := d, a := a, b := b, t := typedWord f 0 false 0 k 0 0 }
  | .vsrl h d a b k f => some { h := h, opc := 0x9E, d := d, a := a, b := b, t := typedWord f 0 false 0 k 0 0 }
  | .vsra h d a b k f => some { h := h, opc := 0x9F, d := d, a := a, b := b, t := typedWord f 0 false 0 k 0 0 }
  | .vfsl h d a b c => some { h := h, opc := 0xA0, d := d, a := a, b := b, t := typedWord .f64 0 false c 0 0 0 }
  | .vfsr h d a b c => some { h := h, opc := 0xA1, d := d, a := a, b := b, t := typedWord .f64 0 false c 0 0 0 }
  | .vrot h d a c => some { h := h, opc := 0xA2, d := d, a := a, t := typedWord .f64 0 false c 0 0 0 }
  | .vcvt h d a k sf df rm sat part => some { h := h, opc := 0xA3, d := d, a := a, t := typedWord sf rm.code sat 0 k 0 (cvtFn df.code part) }
  | .vqnt h d a b k sf df rm sat sb fs part => some { h := h, opc := 0xA4, d := d, a := a, b := b, t := typedWord sf rm.code sat 0 k 0 (scaleFn df.code sb fs part) }
  | .vdqnt h d a b k sf df rm sat sb fs part => some { h := h, opc := 0xA5, d := d, a := a, b := b, t := typedWord sf rm.code sat 0 k 0 (scaleFn df.code sb fs part) }
  | .vmov h d a k f => some { h := h, opc := 0xA6, d := d, a := a, t := typedWord f 0 false 0 k 0 0 }
  | .vsplat h d a k f => some { h := h, opc := 0xA7, d := d, a := a, t := typedWord f 0 false 0 k 0 0 }
  | .vext h d a b f => some { h := h, opc := 0xA8, d := d, a := a, b := b, t := typedWord f 0 false 0 0 0 0 }
  | .vredadd h d a b k f df rm sat => some { h := h, opc := 0xA9, d := d, a := a, b := b, t := typedWord f rm.code sat 0 k 0 (redFn df.code) }
  | .vredmax h d a b k f df => some { h := h, opc := 0xAA, d := d, a := a, b := b, t := typedWord f 0 false 0 k 0 (redFn df.code) }
  | .vredmin h d a b k f df => some { h := h, opc := 0xAB, d := d, a := a, b := b, t := typedWord f 0 false 0 k 0 (redFn df.code) }
  | .vperm h d a b k f => some { h := h, opc := 0xAC, d := d, a := a, b := b, t := typedWord f 0 false 0 k 0 0 }
  | .vslide h d a b c k f up => some { h := h, opc := 0xAD, d := d, a := a, b := b, t := typedWord f 0 false c k 0 (flagFn up) }
  | .vbcast h d a b k f => some { h := h, opc := 0xAE, d := d, a := a, b := b, t := typedWord f 0 false 0 k 0 0 }
  | .vpopc h d a first => some { h := h, opc := 0xAF, d := d, a := kField a, t := typedWord .f64 0 false 0 0 0 (flagFn first) }
  | .vld h d a c k => some { h := h, opc := 0xB0, d := d, a := qField a, t := typedWord .f64 0 false c k 0 0 }
  | .vst h a b c k => some { h := h, opc := 0xB1, a := a, b := qField b, t := typedWord .f64 0 false c k 0 0 }
  | .vacr h d a k f => some { h := h, opc := 0xB2, d := d, a := a, t := typedWord f 0 false 0 k 0 0 }
  | .vacw h a b k f => some { h := h, opc := 0xB3, a := a, b := b, t := typedWord f 0 false 0 k 0 0 }
  | .hcut h cut bps => some { h := h, opc := 0xC0, imm := cutWord bps cut }
  | .hchain h lt lw head => some { h := h, opc := 0xC1, imm := chainWord head lw lt }
  | .mloadb h hq a f wz csm imm => some { h := h, opc := 0xC2, d := twoField hq, a := a, t := typedWord f 0 false 0 0 0 (loadFn csm wz), imm := imm }
  | .mma h hq a b f rm rs cs row col mm => some { h := h, opc := 0xC3, d := twoField hq, a := qField a, b := b, t := typedWord f rm.code false 0 0 0 (rsFn cs rs), imm := rowsWord mm col row }
  | .mdrain h hq a b f rm sat rs cs row col mm => some { h := h, opc := 0xC4, d := twoField hq, a := qField a, b := b, t := typedWord f rm.code sat 0 0 0 (rsFn cs rs), imm := rowsWord mm col row }
  | .mzero h hq b row nn => some { h := h, opc := 0xC5, d := twoField hq, b := b, imm := zeroWord nn row }
  | .wswap h => some { h := h, opc := 0xC6 }
  | .nlaunch h hq a b imm => some { h := h, opc := 0xD0, d := twoField hq, a := a, b := b, t := typedWord .f64 0 false 0 0 2 0, imm := imm }
  | .nwait h d a b acq => some { h := h, opc := 0xD1, d := d, a := a, b := b, t := typedWord .f64 0 false 0 0 (if acq then 2 else 0) (flagFn acq) }
  | .npost h a b rel => some { h := h, opc := 0xD2, a := a, b := b, t := typedWord .f64 0 false 0 0 (if rel then 2 else 0) (flagFn rel) }
  | .nabort h d a all => some { h := h, opc := 0xD3, d := d, a := a, t := typedWord .f64 0 false 0 0 0 (flagFn all) }
  | .nstat h d a sel => some { h := h, opc := 0xD4, d := d, a := a, t := typedWord .f64 0 false 0 0 0 sel.code }
  | .dsync h d lvl => some { h := h, opc := 0xD8, d := d, b := twoField lvl }
  | .srd h d reg => some { h := h, opc := 0xE0, d := d, imm := regWord reg }
  | .swr h a reg => some { h := h, opc := 0xE1, a := a, imm := regWord reg }
  | .sset h d a reg => some { h := h, opc := 0xE2, d := d, a := a, imm := regWord reg }
  | .sclr h d a reg => some { h := h, opc := 0xE3, d := d, a := a, imm := regWord reg }
  | .tlbinv h a b kind size => some { h := h, opc := 0xE4, a := a, b := b, t := typedWord .f64 0 false 0 0 2 (invFn size.code kind.code) }
  | .ctxsave h d a b => some { h := h, opc := 0xE5, d := d, a := a, b := b }
  | .ctxload h d a b => some { h := h, opc := 0xE6, d := d, a := a, b := b }
  | .idle h => some { h := h, opc := 0xE7 }
  | .evpost h a code => some { h := h, opc := 0xE8, a := a, imm := codeWord code }
  | _ => none

/-- DLY of a header: 7 announces a stamp (R142). -/
def Hdr.dly (h : Hdr) : BitVec 3 := match h.timing with | .after d => BitVec.ofNat 3 d.val | .stamped _ => 7
/-- The stamp word of a header (R142). -/
def Hdr.stamp (h : Hdr) : List Word32 := match h.timing with | .after _ => [] | .stamped s => [s]
/-- The extension words in their order: stamp, typed word, immediate, bound (R143). -/
def Raw.ext (r : Raw) (sh : Shape) : List Word32 :=
  r.h.stamp ++ (if sh.typed then [r.t] else []) ++ (if sh.immed then [r.imm] else []) ++ r.h.bound.toList
/-- The base word, with LEN (R142). -/
def Raw.base (r : Raw) (len : BitVec 2) : Word32 :=
  r.h.dly ++ bit r.h.pbp ++ bit r.h.pbn ++ bit r.h.pap ++ bit r.h.pan ++ len ++ r.opc ++ r.d ++ r.a ++ r.b
/-- The words of an instruction cut into fields (R142, R143). -/
def Raw.words (r : Raw) : List Word32 :=
  match shapeOf r.opc with
  | none => []
  | some sh => r.base (BitVec.ofNat 2 (r.ext sh).length) :: r.ext sh
/-- The words of an instruction; an event has none (R142-R149). -/
def encode (i : Instr) : List Word32 :=
  match i.toRaw with
  | some r => r.words
  | none => []

end Sys2Proof
end

