-- ==== Sys2Proof/Machine/Flags.lean ====
section
/-! DEFINITION. Numbers and flags: exact values of every element format, the one rounding of R61, conversions to integers,
exact sums and products, and the six sticky flags (R53-R72, R218). -/

namespace Sys2Proof.Machine

/-! ### Flags (R69, R70) -/

/-- The six sticky flags, in the places of FCSR[5:0] (R70). -/
abbrev Flg := BitVec 6
/-- Invalid (R69). -/
def fIV : Flg := 0x20
/-- Division by zero (R69). -/
def fDZ : Flg := 0x10
/-- Overflow (R69). -/
def fOF : Flg := 0x08
/-- Underflow (R69). -/
def fUF : Flg := 0x04
/-- Inexact (R69). -/
def fNX : Flg := 0x02
/-- Saturation (R69). -/
def fSAT : Flg := 0x01
/-- A flag under a condition. -/
def flagIf (b : Bool) (f : Flg) : Flg := if b then f else 0

/-! ### Exact values (R54-R56) -/

/-- An exact value: NaN or NaV, an infinity, or a signed rational with its sign kept at zero (R54, R56, R218). -/
inductive Num where
  | nan
  | inf (neg : Bool)
  | fin (neg : Bool) (num den : Nat)
  deriving DecidableEq, Repr

/-- The sign of a value. -/
def Num.neg? : Num → Bool
  | .nan => false | .inf s => s | .fin s _ _ => s
/-- The exact value is zero. -/
def Num.isZero : Num → Bool
  | .fin _ n _ => n == 0 | _ => false
/-- The value is NaN or NaV. -/
def Num.isNan : Num → Bool
  | .nan => true | _ => false
/-- An integer as a value. -/
def Num.ofInt (i : Int) : Num := .fin (decide (i < 0)) i.natAbs 1
/-- A magnitude times a power of two. -/
def Num.scale (neg : Bool) (m : Nat) (e : Int) : Num := if 0 ≤ e then .fin neg (m * 2 ^ e.toNat) 1 else .fin neg m (2 ^ (-e).toNat)

/-- Fraction bits of a binary format (R54). -/
def fracBits : Fmt → Nat
  | .f64 => 52 | .f32 => 23 | .bf16 => 7 | .f16 => 10 | .e4m3 => 3 | .e5m2 => 2 | .e2m1 => 1 | _ => 0
/-- Exponent bias of a binary format (R54). -/
def fpBias : Fmt → Nat
  | .f64 => 1023 | .f32 => 127 | .bf16 => 127 | .f16 => 15 | .e4m3 => 7 | .e5m2 => 15 | .e2m1 => 1 | _ => 0
/-- The code of the greatest finite value (R54, R56). -/
def maxFinite : Fmt → Nat
  | .f64 => 0x7FEFFFFFFFFFFFFF | .f32 => 0x7F7FFFFF | .bf16 => 0x7F7F | .f16 => 0x7BFF | .e4m3 => 0x7E | .e5m2 => 0x7B
  | .e2m1 => 0x7 | .t8 => 0x01 | _ => 0
/-- The code of the default NaN; NaV for t8, +0 for e2m1 (R54, R58, R62). -/
def defaultNan : Fmt → Nat
  | .f64 => 0x7FF8000000000000 | .f32 => 0x7FC00000 | .bf16 => 0x7FC0 | .f16 => 0x7E00 | .e4m3 => 0x7F | .e5m2 => 0x7E
  | .t8 => 0x80 | _ => 0
/-- The format has an infinity (R54). -/
def hasInf : Fmt → Bool
  | .f64 | .f32 | .bf16 | .f16 | .e5m2 => true
  | _ => false
/-- The floating-point formats. -/
def isFloat (f : Fmt) : Bool := !f.isI
/-- The sign bit of a format in its place. -/
def signBit (f : Fmt) (neg : Bool) : Nat := if neg then 2 ^ (f.bits - 1) else 0

/-- The exponent and fraction (e, F, width of F) of a TF8 code's low seven bits, not 0 (R56). -/
def tf8Fields (c : Nat) : Int × Nat × Nat :=
  if 0x40 ≤ c then ((c / 16 % 4 : Nat) - 2, c % 16, 4)
  else if 0x20 ≤ c then (let e := c / 4 % 8; (if e ≤ 3 then (e : Int) - 6 else (e : Int) - 2, c % 4, 2))
  else if 0x10 ≤ c then (let e := c % 16; (if e ≤ 7 then (e : Int) - 14 else (e : Int) - 2, 0, 0))
  else if 0x08 ≤ c then (let e := c % 8; (if e ≤ 3 then (e : Int) - 18 else (e : Int) + 10, 0, 0))
  else if 0x04 ≤ c then (if c = 4 then -20 else if c = 5 then -19 else if c = 6 then 18 else 19, 0, 0)
  else if c = 3 then (20, 0, 0) else if c = 2 then (-21, 0, 0) else (21, 0, 0)
/-- Fraction bits of TF8 at an exponent (R56). -/
def tf8Width (e : Int) : Nat := if -2 ≤ e ∧ e ≤ 1 then 4 else if (-6 ≤ e ∧ e ≤ -3) ∨ (2 ≤ e ∧ e ≤ 5) then 2 else 0
/-- The low seven bits of the TF8 code of 2^e · (1 + F/2^w) (R56); 0 beyond 2^21. -/
def tf8Code (e : Int) (f : Nat) : Nat :=
  if -2 ≤ e ∧ e ≤ 1 then 0x40 + 16 * (e + 2).toNat + f
  else if -6 ≤ e ∧ e ≤ -3 then 0x20 + 4 * (e + 6).toNat + f
  else if 2 ≤ e ∧ e ≤ 5 then 0x20 + 4 * (e + 2).toNat + f
  else if -14 ≤ e ∧ e ≤ -7 then 0x10 + (e + 14).toNat
  else if 6 ≤ e ∧ e ≤ 13 then 0x10 + (e + 2).toNat
  else if -18 ≤ e ∧ e ≤ -15 then 0x08 + (e + 18).toNat
  else if 14 ≤ e ∧ e ≤ 17 then 0x08 + (e - 10).toNat
  else if e = -20 then 4 else if e = -19 then 5 else if e = 18 then 6 else if e = 19 then 7
  else if e = -21 then 2 else if e = 20 then 3 else if e = 21 then 1 else 0

/-- The exact value of an element's bits in a floating-point format (R54, R56). -/
def floatValue (f : Fmt) (v : Nat) : Num :=
  let v := v % 2 ^ f.bits
  match f with
  | .t8 =>
    let c := v % 128
    if c = 0 then (if v = 0 then .fin false 0 1 else .nan)
    else
      let (e, fr, w) := tf8Fields c
      .scale (decide (128 ≤ v)) (2 ^ w + fr) (e - w)
  | _ =>
    let m := fracBits f
    let neg := decide (2 ^ (f.bits - 1) ≤ v)
    let c := v % 2 ^ (f.bits - 1)
    if maxFinite f < c then (if hasInf f && c == maxFinite f + 1 then .inf neg else .nan)
    else
      let e := c / 2 ^ m
      let fr := c % 2 ^ m
      if e = 0 then .scale neg fr (1 - (fpBias f + m : Nat)) else .scale neg (2 ^ m + fr) ((e : Int) - (fpBias f + m : Nat))

/-- The integer of an element's bits in an integer format (R59). -/
def intValue (f : Fmt) (v : Nat) : Int :=
  let v := v % 2 ^ f.bits
  if f.isSigned && decide (2 ^ (f.bits - 1) ≤ v) then (v : Int) - (2 ^ f.bits : Nat) else v
/-- The exact value of an element in any format. -/
def numValue (f : Fmt) (v : Nat) : Num := if f.isI then .ofInt (intValue f v) else floatValue f v
/-- The value of an e8m0 scale (R55). -/
def e8m0Value (c : Nat) : Num := if c % 256 = 255 then .nan else .scale false 1 ((c % 256 : Nat) - 127)

/-! ### Rounding (R57, R60, R61, R65) -/

/-- The quotient num/den rounded to one of its two neighbouring integers by a mode; `r` is the stochastic word and `tieUp`
decides a tie of RM 0 (R57, R60, R65). -/
def roundQuot (rm : Rm) (neg : Bool) (r num den : Nat) (tieUp : Bool) : Nat :=
  let lo := num / den
  let rest := num % den
  if rest = 0 then lo
  else
    let up := match rm with
      | .rne => decide (den < 2 * rest) || (decide (den = 2 * rest) && tieUp)
      | .rz => false
      | .rdn => neg
      | .rup => !neg
      | .rna => decide (den ≤ 2 * rest)
      | .rs => decide (r * den < rest * 2 ^ 32)
    if up then lo + 1 else lo

/-- The exponent of the leading bit of a positive rational. -/
def binade (num den : Nat) : Int :=
  let e : Int := (num.log2 : Int) - den.log2
  if (if 0 ≤ e then num < den * 2 ^ e.toNat else num * 2 ^ (-e).toNat < den) then e - 1 else e

/-- A rational in units of 2^g: its numerator and denominator. -/
def unitsOf (num den : Nat) (g : Int) : Nat × Nat := if 0 ≤ g then (num, den * 2 ^ g.toNat) else (num * 2 ^ (-g).toNat, den)

/-- A rounded magnitude: its code without the sign (at or above `maxFinite + 1` for an overflow; for t8 an overflow is 256),
and whether it differs from the exact value. -/
structure Near where
  code : Nat
  inexact : Bool
  deriving DecidableEq, Repr

/-- The nearest magnitude of a format extended upward, for a positive exact value (R57, R61). -/
def nearest (f : Fmt) (rm : Rm) (neg : Bool) (r num den : Nat) : Near :=
  match f with
  | .t8 =>
    let e := binade num den
    if e < -21 then
      -- neighbours 0 and 2^-21; a tie goes to zero
      let (n, d) := unitsOf num den (-21)
      let q := roundQuot rm neg r n d false
      ⟨if q = 0 then 0 else 2, true⟩
    else if 21 < e then ⟨256, true⟩
    else
      let w := tf8Width e
      let (n, d) := unitsOf num den (e - w)
      let lo := n / d
      let cl := tf8Code e (lo - 2 ^ w)
      let ch := if lo + 1 = 2 ^ (w + 1) then tf8Code (e + 1) 0 else tf8Code e (lo + 1 - 2 ^ w)
      let tieUp := decide (cl % 2 = 1) && decide (ch % 2 = 0) && decide (ch ≠ 0)
      let q := roundQuot rm neg r n d tieUp
      ⟨if q = lo then cl else if ch = 0 then 256 else ch, decide (n % d ≠ 0)⟩
  | _ =>
    let m := fracBits f
    let emin : Int := 1 - (fpBias f : Int)
    let e := max emin (binade num den)
    let (n, d) := unitsOf num den (e - m)
    let q := roundQuot rm neg r n d (decide (n / d % 2 = 1))
    ⟨(e - emin).toNat * 2 ^ m + q, decide (n % d ≠ 0)⟩

/-- The code of zero of a sign; t8 has one zero (R58, R61). -/
def zeroOf (f : Fmt) (neg : Bool) : Nat := if f = .t8 then 0 else signBit f neg
/-- The result of an overflow that is not kept finite (R61). -/
def overflowValue (f : Fmt) (neg : Bool) : Nat :=
  match f with
  | .t8 => 0x80
  | .e4m3 => defaultNan .e4m3
  | .e2m1 => signBit f neg + 7
  | _ => signBit f neg + maxFinite f + 1
/-- The result of an infinity in a format without one (R61). -/
def invalidValue (f : Fmt) (neg : Bool) : Nat := match f with | .e2m1 => signBit f neg + 7 | _ => defaultNan f
/-- A magnitude lies above the greatest finite value. -/
def overflows (f : Fmt) (code : Nat) : Bool := if f = .t8 then code == 256 else decide (maxFinite f < code)
/-- A magnitude is below the least normal one; in t8 only zero is (R61). -/
def tiny (f : Fmt) (code : Nat) : Bool := if f = .t8 then code == 0 else decide (code < 2 ^ fracBits f)

/-- RoundTo of R61 with SAT by R63: the result's bits and the flags. `r` is the stochastic word of RM 5. -/
def roundTo (f : Fmt) (rm : Rm) (r : Nat) (sat : Bool) : Num → Nat × Flg
  | .nan => (defaultNan f, fIV)
  | .inf s =>
    if sat then (signBit f s + maxFinite f, fSAT)
    else if hasInf f then (signBit f s + maxFinite f + 1, 0)
    else (invalidValue f s, fIV)
  | .fin s num den =>
    if num = 0 then (zeroOf f s, 0)
    else
      let y := nearest f rm s r num den
      if overflows f y.code then
        if sat then (signBit f s + maxFinite f, fSAT ||| fNX)
        else if rm = .rz ∨ (rm = .rdn ∧ !s) ∨ (rm = .rup ∧ s) then (signBit f s + maxFinite f, fOF ||| fNX)
        else (overflowValue f s, fOF ||| fNX)
      else
        let flags := flagIf y.inexact fNX ||| flagIf (y.inexact && tiny f y.code) fUF
        (if f = .t8 ∧ y.code = 0 then 0 else signBit f s + y.code, flags)

/-- Rounding into the scale format e8m0 (R55); the rule is stated for RM 0, the other modes act as on any value. -/
def roundE8m0 (rm : Rm) (r : Nat) : Num → Nat × Flg
  | .fin false num den =>
    if num = 0 then (0xFF, fIV)
    else
      let e := binade num den
      let (n, d) := unitsOf num den e
      let q := roundQuot rm false r n d (decide ((e + 127) % 2 = 1))
      -- the code of the neighbour taken: 2^e or 2^(e + 1)
      let c : Int := e + 126 + q
      if c < 0 then (0, fUF ||| fNX)
      else if 254 < c then (0xFE, fOF ||| fNX)
      else (c.toNat, flagIf (decide (n % d ≠ 0)) fNX)
  | _ => (0xFF, fIV)

/-! ### Conversions (R67, R68, R229) -/

/-- The least integer of an integer format (R59). -/
def intMin (f : Fmt) : Int := if f.isSigned then -(2 ^ (f.bits - 1) : Nat) else 0
/-- The greatest integer of an integer format (R59). -/
def intMax (f : Fmt) : Int := if f.isSigned then (2 ^ (f.bits - 1) : Nat) - 1 else (2 ^ f.bits : Nat) - 1
/-- The bits of an integer in a format: its low bits. -/
def intBits (f : Fmt) (i : Int) : Nat := (i % (2 ^ f.bits : Nat)).toNat
/-- An integer clamped or wrapped into a format (R68, R217). -/
def fitInt (f : Fmt) (sat : Bool) (i : Int) : Nat × Flg :=
  if sat then
    if i < intMin f then (intBits f (intMin f), fSAT)
    else if intMax f < i then (intBits f (intMax f), fSAT)
    else (intBits f i, 0)
  else (intBits f i, 0)
/-- A real value to an integer format (R67). -/
def toInt (f : Fmt) (rm : Rm) (r : Nat) (sat : Bool) : Num → Nat × Flg
  | .nan => (0, fIV)
  | .inf s => (intBits f (if s then intMin f else intMax f), if sat then fSAT else fIV)
  | .fin s num den =>
    let q := roundQuot rm s r num den (decide (num / den % 2 = 1))
    let i : Int := if s then -(q : Int) else q
    if i < intMin f then (intBits f (intMin f), if sat then fSAT else fIV)
    else if intMax f < i then (intBits f (intMax f), if sat then fSAT else fIV)
    else (intBits f i, flagIf (decide (num % den ≠ 0)) fNX)
/-- A value to any format: floats by R61, integers by R67. -/
def toFmt (f : Fmt) (rm : Rm) (r : Nat) (sat : Bool) (x : Num) : Nat × Flg :=
  if f.isI then toInt f rm r sat x else roundTo f rm r sat x
/-- A conversion between formats without a scale (R61, R67, R68). -/
def convert (src dst : Fmt) (rm : Rm) (r : Nat) (sat : Bool) (v : Nat) : Nat × Flg :=
  if src.isI && dst.isI then fitInt dst sat (intValue src v) else toFmt dst rm r sat (numValue src v)

/-! ### Exact arithmetic (R69, R218) -/

/-- The value with the other sign. -/
def Num.negate : Num → Num
  | .nan => .nan | .inf s => .inf (!s) | .fin s n d => .fin (!s) n d
/-- The exact product; 0 times an infinity is invalid (R69). -/
def Num.mul : Num → Num → Num
  | .nan, _ | _, .nan => .nan
  | .inf s, .inf t => .inf (s != t)
  | .inf s, .fin t n _ => if n = 0 then .nan else .inf (s != t)
  | .fin s n _, .inf t => if n = 0 then .nan else .inf (s != t)
  | .fin s a b, .fin t c d => .fin (s != t) (a * c) (b * d)
/-- The exact sum of finite values over a common denominator: numerator and denominator. -/
def sumFin : List Num → Int × Nat
  | [] => (0, 1)
  | .fin s n d :: xs =>
    let (m, e) := sumFin xs
    let l := Nat.lcm d e
    ((if s then -(n : Int) else n) * (l / d : Nat) + m * (l / e : Nat), l)
  | _ :: xs => sumFin xs
/-- The exact sum of terms: invalid with a NaN or opposite infinities; a zero sum takes its sign by R218. -/
def Num.sum (rm : Rm) (xs : List Num) : Num :=
  if xs.any Num.isNan then .nan
  else
    let pos := xs.contains (.inf false)
    let neg := xs.contains (.inf true)
    if pos && neg then .nan
    else if pos then .inf false
    else if neg then .inf true
    else
      let (n, d) := sumFin xs
      if n = 0 then
        (if xs.all (·.neg?) && !xs.isEmpty then .fin true 0 1
         else if xs.any (·.neg?) then .fin (decide (rm = .rdn)) 0 1
         else .fin false 0 1)
      else .fin (decide (n < 0)) n.natAbs d
/-- The exact quotient and its own flag (R222). -/
def Num.div : Num → Num → Num × Flg
  | .nan, _ | _, .nan => (.nan, 0)
  | .inf _, .inf _ => (.nan, 0)
  | .inf s, .fin t _ _ => (.inf (s != t), 0)
  | .fin s _ _, .inf t => (.fin (s != t) 0 1, 0)
  | .fin s a b, .fin t c d =>
    if c = 0 then (if a = 0 then (.nan, 0) else (.inf (s != t), fDZ)) else (.fin (s != t) (a * d) (b * c), 0)
/-- The integer square root by digits: `k` counts the digits of the root still to find. -/
def isqrtGo (n : Nat) : Nat → Nat → Nat
  | 0, r => r
  | k + 1, r => if (r + 2 ^ k) * (r + 2 ^ k) ≤ n then isqrtGo n k (r + 2 ^ k) else isqrtGo n k r
/-- The integer square root. -/
def isqrt (n : Nat) : Nat := isqrtGo n (n.log2 / 2 + 1) 0
/-- The square root of a value of a binary format: exact where it is rational; otherwise a value between the same two
multiples of 2^-700, and no multiple itself, so that every rounding of it is that of the root (R220, R222). -/
def Num.sqrt : Num → Num
  | .nan => .nan
  | .inf s => if s then .nan else .inf false
  | .fin s n d =>
    if n = 0 then .fin s 0 1
    else if s then .nan
    else
      let a := n * d * 2 ^ 1400
      let r := isqrt a
      if r * r = a then .fin false r (d * 2 ^ 700) else .fin false (2 * r + 1) (2 * d * 2 ^ 700)

/-- The order of exact values, -0 below +0; NaN is not ordered (R217, R230). -/
def Num.lt : Num → Num → Bool
  | .nan, _ | _, .nan => false
  | .inf s, .inf t => s && !t
  | .inf s, .fin _ _ _ => s
  | .fin _ _ _, .inf t => !t
  | .fin s a b, .fin t c d =>
    match s, t with
    | true, false => true
    | false, true => false
    | false, false => decide (a * d < c * b)
    | true, true => decide (c * b < a * d)
/-- Equality of exact values: zeros of both signs are equal; NaN equals nothing (R223). -/
def Num.eq : Num → Num → Bool
  | .nan, _ | _, .nan => false
  | .inf s, .inf t => s == t
  | .fin s a b, .fin t c d => decide (a * d = c * b) && (s == t || a == 0)
  | _, _ => false

/-- The sum of an atomic fadd: RoundTo of the exact sum (R204). -/
def atomicFAdd (f : Fmt) (rm : Rm) (a b : Nat) : Nat × Flg := roundTo f rm 0 false (.sum rm [floatValue f a, floatValue f b])

/-! ### Stochastic generators (R64-R66) -/

/-- The number of stochastic words, from 0 up, under which a rounding gives another result than under the greatest one: the rounding
goes up for the words below it and down from it on (R65). -/
def stochThr (op : Nat → Nat × Flg) : Nat :=
  ((List.range 32).reverse).foldl (fun a k => if op (a + 2 ^ k - 1) = op (2 ^ 32 - 1) then a else a + 2 ^ k) 0
/-- One xorshift step (R64). -/
def xorshift (s : Word32) : Word32 :=
  let s := s ^^^ (s <<< 13)
  let s := s ^^^ (s >>> 17)
  s ^^^ (s <<< 5)
/-- Generator i from a seed (R66). -/
def seedOf (seed : Word32) (i : Nat) : Word32 :=
  let s := seed ^^^ BitVec.ofNat 32 ((i + 1) * 0x9E3779B9)
  if s = 0 then 1 else s

end Sys2Proof.Machine
end

