-- ==== Sys2Proof/Config.lean ====
section
/-! DEFINITION. What the manual leaves open, as opaque constants that nothing in Lean can evaluate: unexposed delays,
old-or-new choices, transcendental results within their bounds, and the external cryptographic standards. -/

namespace Sys2Proof.Config

/-- Free value n: a delay whose length the manual does not expose (R164, R196, R250, R277; log entry 4). -/
opaque delay : Nat → Nat

/-- HC ticks of a row cycle, less one, which the manual does not state (R269; log entry 4). -/
opaque rowCycle : Nat

/-- Free value n: a choice between two outcomes that the manual both allows (R263, R331; log entry 4). -/
opaque choose : Nat → Bool

/-- Free value: which of the results that R221 allows a bounded operation returns, a function of the operation, the
format, the rounding mode and the operand (R220, R221; log entry 5). -/
opaque pick : (op fmt rm operand : Nat) → Nat

/-- Free value n: data the manual does not state (what another device returns over the links; log entry 4). -/
opaque datum : Nat → BitVec 64

/-- ML-DSA-44 verification of FIPS 204 with the fused Melbawick key: digest and signature (R390; log entry 6). -/
opaque verify : BitVec 256 → List Byte → Bool

/-- ML-DSA-44 signature of a report with the package's identity key (R391; log entry 6). -/
opaque sign : List Byte → List Byte

/-- SHA3-256 digest of the identity public key (R391; log entry 6). -/
opaque identity : BitVec 256

/-- The device certificate, Melbawick's signature over the identity public key (R391; log entry 6). -/
opaque certificate : List Byte

/-- The image that the boot ROM finds in the bytes of the recovery region, whose layout the manual does not give (R375, R390; log entry 4). -/
opaque parseImage : List Byte → Option FwImage

/-- The rollback counter fused in the package when it is first powered (R390; log entry 6). -/
opaque fusedRollback : Nat

end Sys2Proof.Config
end

