-- ==== Sys2Proof/Machine/State.lean ====
section
/-! DEFINITION. The state of the MW-CX7A as plain data: strands, cores, bindings, near-memory engines, archive, Librarian,
host attachment, links, power and boot, and the model's own calendar of pending effects (log entry 1); `State.reset`. -/

namespace Sys2Proof.Machine

/-! ### How a step can stop -/

/-- Reasons for which the model's machine stops. -/
inductive Fault where
  /-- `exec` was asked to issue an instruction although no strand has its issue turn; raised by every encoded instruction
  outside a step. Safe: the hardware has no such moment (log entry 8). -/
  | noTurn
  /-- The package has no power and no cold reset is waiting; raised by `step`. Safe: the hardware does nothing either. -/
  | poweredOff
  deriving DecidableEq, Repr

/-- Reasons for which an instruction has no meaning. -/
inductive Refusal where
  /-- The instruction is not modelled yet; raised by an arm of `exec`. Safe. -/
  | notModelled (mnemonic : String)
  deriving DecidableEq, Repr

/-! ### Memory -/

/-- Byte memory as cells with strictly rising addresses and no zero byte: an unlisted address reads as 0 (log entry 3). -/
abbrev Mem := List Host.Cell

/-- The canonical form of a memory whose addresses all lie above a bound. -/
def Mem.wfFrom : Option Nat → Mem → Bool
  | _, [] => true
  | lo, (a, b) :: m => (match lo with | none => true | some l => decide (l < a)) && b != 0 && Mem.wfFrom (some a) m

/-- The canonical form: addresses strictly rising, no entry equal to the value of an unlisted address. -/
def Mem.wf (m : Mem) : Bool := Mem.wfFrom none m

/-! ### Strands -/

/-- The translation of a range that an access in flight has sampled (R330): address space, first address, bytes, the epoch it
carries, and the place of the sample in the order of the model's calendar. -/
structure Sample where
  asid : Nat
  va : Nat
  n : Nat
  epoch : Nat
  stamp : Nat
  deriving DecidableEq, Repr

/-- A hold on the later accesses of a strand (R47, R105, R106): accesses numbered from `start` wait (only stores, atomics
and arrivals when `stores`) until every need is met; the pushes are then made. A mark's hold waits for its partner. -/
structure Hold where
  id : Nat
  start : Nat
  stores : Bool
  needs : List Need
  /-- Tag and ordinal of a mark whose partner has not issued (R105). -/
  mark : Option (Nat × Nat)
  pushP : Bool
  pushN : Bool
  /-- A fence at core scope: it holds no LS access of the strand behind its earlier LS accesses (R106). -/
  lsFree : Bool
  deriving DecidableEq, Repr

/-- A token in a FIFO (R37), with the accesses ordered before its push that have still to perform at a wider scope than the core (strand and
number), and the holds it hands on (R47, R104). -/
structure Token where
  acc : List (StrandId × Nat) := []
  needs : List Need := []
  deriving DecidableEq, Repr

/-- A token FIFO (R16, R37-R39): its tokens oldest first, the slots reserved, and the pops made in the present cycle. -/
structure Fifo where
  toks : List Token := []
  resv : Nat := 0
  popped : Nat := 0
  deriving DecidableEq, Repr

/-- An access of the strand that has not performed at every scope (R102, R106): its number, whether it loads, whether it has performed at
core scope, its unit, and the translations it sampled (R330). -/
structure Out where
  seq : Nat
  load : Bool
  core : Bool
  unit : MemUnit
  samples : List Sample
  deriving DecidableEq, Repr

/-- A result in flight (R343): issue order, DT of its write, what it writes, whether the data has arrived. -/
structure Flight where
  ord : Nat
  w : Nat
  res : Result
  ready : Bool
  /-- Issued at system level: `w` counts the core's own cycles (R349). -/
  sys : Bool
  /-- An arithmetic result, for which a tfence waits (R72). -/
  arith : Bool
  /-- The tokens that a scalar load popped, once its data has an uncorrectable error (R40, R179). -/
  pops : List (Fin 8 × Token)
  deriving DecidableEq, Repr

/-- A captured result latch (R343): r counts from the strand's last issue. -/
structure Latch where
  r : Nat
  fl : Flight
  deriving DecidableEq, Repr

/-- The frame of a trap whose handler an interrupt ended at its idle: its trap registers and latches (R173, R187). -/
structure Frame where
  tcause : Word
  tepc : Word
  tinfo0 : Word
  tinfo1 : Word
  tdt : Word
  tprev : Word
  tlsel : Word
  latches : List Latch
  deriving DecidableEq, Repr

/-- An entry of the hardware-loop stack (R170): positions as 16·line + word. -/
structure LoopEntry where
  start : Nat
  stop : Nat
  rem : Word
  deriving DecidableEq, Repr

/-- How a strand reached its position, for the code-image checks of R34. -/
inductive Reach where
  | seq | jump | chainEnd
  deriving DecidableEq, Repr

/-- Whether a strand issues (R32, R48, R171, R340). -/
inductive Run where
  | off | running | retired | stopped
  deriving DecidableEq, Repr

/-- What a strand waits for after an issue (R41, R46, R176, R182, R185, R187, R200, R272, R273). -/
inductive Why where
  /-- A hold of R182 on a load, atomic or vector load, with the space and address a stall records. -/
  | held (space : Nat) (addr : Nat)
  /-- A hold of class 9 on another unit (tlbinv, nlaunch, evpost, accq, nabort, nstat). -/
  | unit (space : Nat) (addr : Nat)
  /-- A barrier or semaphore wait or a wait word: class, space, object address, awaited phase or operand, limit. -/
  | object (cls : Nat) (sp : ObjSpace) (addr : Nat) (arg : Word) (limit : Option Nat)
  | dsync (lvl : Fin 4)
  | tfence
  | idle
  /-- A dtwait at system level, whose domain time can stand in a freeze (R167, R349). -/
  | dtime
  /-- An hchain or hcut on a chain until the end of its issue cycle (R140). -/
  | chain
  deriving DecidableEq, Repr

/-- A wait that follows issue: why, issue cycle, bound, the instruction's position, the issue cycle before it, the tokens
popped, the loop stack before the issue, the pushes due at completion, and the destination. -/
structure Wait where
  why : Why
  start : Nat
  bound : Nat
  pos : Nat
  prev : Option Nat
  pops : List (Fin 8 × Token)
  loops : List LoopEntry
  pushP : Bool
  pushN : Bool
  dest : XReg
  ord : Nat
  /-- An acquire form orders the strand's later accesses (R111). -/
  acq : Bool
  /-- Condition of a wait word (R203), 8 for a queue wait, 9 for a barrier, 10 for a semaphore (R273). -/
  cond : Nat
  /-- The waiter record stands in the object's queue (R200). -/
  linked : Bool
  /-- Number of the wait's access, and where its object lies. -/
  seq : Nat
  unit : MemUnit
  pa : Nat
  deriving DecidableEq, Repr

/-- A strand (R16): registers, position, issue times, loop stack, level, FCSR, SBOUND, trap registers, latches, and the
bookkeeping of its results, accesses, marks and supersteps. -/
structure Strand where
  x : Vector Word 32 := Vector.replicate 32 0
  xs : Vector Word 32 := Vector.replicate 32 0
  run : Run := .off
  pos : Nat := 0
  reach : Reach := .seq
  /-- Issue cycle of the previous instruction (p of R35); none stands for -1. -/
  prev : Option Nat := none
  /-- Earliest cycle in which the next instruction could issue with DLY 0. -/
  base : Nat := 0
  wait : Option Wait := none
  /-- The dsync at the position has arrived (R46, R338), for this superstep of its level. -/
  arrived : Bool := false
  arrivedFor : Nat := 0
  /-- Class, object and producer of the unmet condition when the next instruction waits before issue (R41, R43). -/
  blocked : Option (Nat × Word × Nat) := none
  /-- A trap due in the strand's next cycle: cause, TINFO0 and the position it records if not the next (R72, R172). -/
  trapDue : Option (Nat × Word × Option Nat) := none
  loops : List LoopEntry := []
  level : Bool := false
  fcsr : Word := 0
  sbound : Word := 0
  tcause : Word := 0
  tepc : Word := 0
  tinfo0 : Word := 0
  tinfo1 : Word := 0
  tdt : Word := 0
  tprev : Word := 0
  tlsel : Word := 0
  tscr : Word := 0
  latches : List Latch := []
  /-- The frames of the traps around the one in progress, the innermost first (R173, R187). -/
  frames : List Frame := []
  /-- Pending interrupt: HC tick in which it arrived, source, payload (R339). -/
  ipend : Option (Nat × Bool × Word) := none
  flights : List Flight := []
  ord : Nat := 0
  seq : Nat := 0
  outs : List Out := []
  /-- Accesses of the core ordered before this point by tokens: strand and number (R104). -/
  seen : List (StrandId × Nat) := []
  /-- Numbers of its accesses that stand in its memory queue (R105, R106). -/
  queue : List Nat := []
  /-- What the accesses numbered from a point on are held behind after a dsync, by its completion or a token's hand (R47). -/
  due : List (Nat × Need) := []
  holds : List Hold := []
  marks : Vector Nat 16 := Vector.replicate 16 0
  supersteps : Vector Nat 4 := Vector.replicate 4 0
  /-- DT of the strand's last call, for the monitors (R388). -/
  lastCall : Option Nat := none
  deriving DecidableEq, Repr

/-! ### Engines of a core -/

/-- A stream descriptor (R85), words W0 to W3. -/
structure Desc where
  w0 : Word := 0
  w1 : Word := 0
  w2 : Word := 0
  w3 : Word := 0
  deriving DecidableEq, Repr

/-- An inbound channel (R88, R89): SEQ, ACT, ADDR, and the copies accepted (issuing core and copy number), oldest first. -/
structure Chan where
  seq : Word32 := 0
  act : Bool := false
  addr : Nat := 0
  queue : List (CoreId × Nat) := []
  deriving DecidableEq, Repr

/-- The copies of R192 and the collectives of R206. -/
inductive CopyKind where
  | ll | lp | pl | lf | lw | lg | gl | gg | lx | xl | gx | xg | al | ag | aw | gw | lred | lbcast | lgath
  deriving DecidableEq, Repr

/-- The fields of a link collective that its participants must agree on (R207, R209). -/
structure Coll where
  lvl : CollLvl
  tag : BitVec 10
  nth : Nat
  fmt : Fmt
  rm : Rm
  sat : Bool
  arg : Nat
  deriving DecidableEq, Repr

/-- A 4 KiB piece of a copy's source in GM, sampled when it was first touched: its first virtual and physical address, how many bytes of it the copy
has still to read, and the sample (R330). -/
structure SrcPiece where
  va : Nat
  pa : Nat
  unread : Nat
  sample : Sample
  deriving DecidableEq, Repr

/-- A copy or collective that its copy unit has accepted (R194-R197, R207). -/
structure Copy where
  id : Nat
  core : CoreId
  strand : StrandId
  pos : Nat
  sys : Bool
  kind : CopyKind
  dst : Nat
  src : Nat
  n : Nat
  scope : Scope
  ch : Fin 8
  cv : Option CopyConv
  /-- Destination and source barrier: space and address. -/
  db : Option (ObjSpace × Nat)
  sb : Option (ObjSpace × Nat)
  /-- Accepting DT and HC. -/
  dt : Nat
  hc : Nat
  /-- Physical half of the weight buffer it writes (R78). -/
  half : Bool
  /-- Next group or chunk to read and to write, and the bytes of those read and not written (R195, R353). -/
  rd : Nat
  wr : Nat
  data : List (Nat × List Byte)
  /-- Destination bytes (R193, R207). -/
  dlen : Nat
  /-- The chunk being read and performed, and those still to come after it (R196). -/
  chunk : Nat
  left : List Nat
  /-- The words of the chunk in progress still to be read, or, once its source bytes are read and counted (`filled`), still to be written:
  byte of the copy, address, bytes; none before the chunk has been located (R112, R197). -/
  words : Option (List (Nat × Nat × Nat))
  filled : Bool
  /-- A barrier-regime copy stopped at a chunk (R197). -/
  stopped : Bool
  /-- Version of the archive object it reads (R285). -/
  ver : Nat
  coll : Option Coll
  /-- Bytes of this participant's result, once formed (R208), and whether the collective failed (R209). -/
  formed : Option (List Byte)
  err : Bool
  /-- Flags that its elements raise when they are written, one entry for each element of the chunk in progress or, for lred, of the result
  (R71, R197, R208). -/
  flags : List (BitVec 6)
  /-- TINFO0 and TINFO1 of the fault that stopped it (R197, R326). -/
  fault : Option (Word × Word)
  /-- What the chunk in flight has sampled of its destination, of a window, and of its barrier; and the pieces of a GM source (R330). -/
  samples : List Sample
  srcAt : List SrcPiece
  /-- Where the barrier lies that the chunk in progress counts into (R196, R326). -/
  barAt : Option (MemUnit × Nat)
  /-- Bytes still to be announced to barriers that could not be reached at acceptance (R196, R369). -/
  owes : List ((ObjSpace × Nat) × Nat)
  /-- The last source byte read, where the next chunk's first element lies in it too (R112, R197). -/
  carry : List Byte
  /-- Flue transfers: half width, and the entry cycle of the next beat (R93, R94); for cp.pl the cycle in which its next group arrives at the
  peer (R74). -/
  halfWidth : Bool
  entry : Nat
  /-- First group of an in-package copy that writes nothing, after a failed read (R393). -/
  failed : Option Nat
  deriving DecidableEq, Repr

/-- What a hob command does (R238, R272). -/
inductive HobOp where
  | mloadb (fmt : Fmt) (wz csm : Nat) (ofs : Nat)
  | mma (fmt : Fmt) (rm : Rm) (rs cs : Bool)
  | mdrain (fmt : Fmt) (rm : Rm) (sat rs cs : Bool)
  | mzero
  | nlaunch (slot : Nat) (hdr : Nat)
  deriving DecidableEq, Repr

/-- A pending or performed accumulator row write of a hob (R125, R127): command, its row, member, FP32 row, FP32 words across the
hob's columns, flags, and whether it has performed. -/
structure RowWrite where
  cmd : Nat
  row : Nat
  core : CoreId
  acc : Nat
  words : List Word32
  flags : BitVec 6
  done : Bool
  deriving DecidableEq, Repr

/-- B registers and column scales of a member as a command found them at its start (R124). -/
structure BState where
  core : CoreId
  b : Mem
  scales : Vector Word32 128
  deriving DecidableEq, Repr

/-- Membership of a chain (R133): head core, t, w. -/
structure Chain where
  head : CoreId
  t : Nat
  w : Nat
  deriving DecidableEq, Repr

/-- A command in a hob queue or in progress (R122-R125). -/
structure HobCmd where
  id : Nat
  op : HobOp
  pos : Nat
  /-- The DT from which R124 counts its start, and t0 once it is known. -/
  dt : Nat
  t0 : Option Nat
  /-- First PE row, PE rows, first column and columns of the hob at acceptance, and its chain (R121, R133). -/
  pe : Nat
  height : Nat
  pec : Nat
  width : Nat
  chain : Option Chain
  /-- First accumulator row and rows of the command. -/
  row : Nat
  m : Nat
  /-- The streams it names, by member (R134). -/
  descs : List (CoreId × Desc)
  /-- A rows read: segment, row, bytes; lines of a weight image: member, line, bytes. -/
  rows : List (Nat × Nat × List Byte)
  /-- Row scales read: member, row, bits. -/
  scales : List (Nat × Nat × Nat)
  bstate : List BState
  /-- f32 and f64: accumulator rows sampled at the top of the columns (R125): member, FP32 row, the earlier commands whose pending
  write it takes, the latest first, and the words where none of them writes (R127). -/
  tops : List (CoreId × Nat × List Nat × List Word32)
  /-- First row that makes no write, after a failure (R126, R248). -/
  failed : Option Nat
  started : Bool
  /-- Rows or row groups written so far. -/
  done : Nat
  /-- What an nlaunch waits for before its delivery (R115), and the physical header address (R272). -/
  needs : List Need
  pa : Nat
  /-- The translation of an nlaunch's header, sampled at its issue (R272, R330). -/
  samples : List Sample
  /-- The hob's recorded B format at acceptance (R242). -/
  bfmt : Option Fmt
  deriving DecidableEq, Repr

/-- A hob (R120-R127): its commands oldest first, the cycle in which it is free, its last accumulator write, the recorded B
format (R241), its row writes, whether a failed command holds those behind it (R248), and its column scales by PE column (R132). -/
structure Hob where
  cmds : List HobCmd := []
  free : Nat := 0
  lastWrite : Nat := 0
  bfmt : Option Fmt := none
  writes : List RowWrite := []
  held : Bool := false
  next : Nat := 0
  scales : Vector Word32 128 := Vector.replicate 128 0x3F800000
  deriving DecidableEq, Repr

/-- A monitor block (R387). -/
structure Cap where
  cfg : Word := 0
  mn : Word32 := 0xFFFFFFFF
  mx : Word32 := 0
  bins : Vector Word32 16 := Vector.replicate 16 0
  deriving DecidableEq, Repr

/-- A leaf translation in a TLB (R328): ASID, page base, page size in bits, leaf entry. -/
structure TlbEntry where
  asid : Nat
  va : Nat
  bits : Nat
  leaf : Word
  deriving DecidableEq, Repr

/-- What `srd` shows of a core that another strand's turn can change within a cycle, as it stood when the cycle began (R184): micro-TLB misses and
walks, rails, monitor blocks, and the strands' pending interrupts. -/
structure Sampled where
  umiss : Nat := 0
  walks : Nat := 0
  rail : BitVec 8 := 0
  caps : Vector Cap 4 := Vector.replicate 4 {}
  ipend : Vector Bool 4 := Vector.replicate 4 false
  deriving DecidableEq, Repr

/-- A core (R12, R16, R17, R73-R78, R85-R97, R120, R293, R303, R329, R380, R387). -/
structure Core where
  strands : Vector Strand 4 := Vector.replicate 4 {}
  v : Vector VecData 32 := Vector.replicate 32 0
  k : Vector MaskData 8 := Vector.replicate 8 0
  q : Vector Desc 16 := Vector.replicate 16 {}
  fifos : Vector Fifo 8 := Vector.replicate 8 {}
  ls : Mem := []
  /-- Scratchpad lines with an uncorrectable error, and lines of the weight buffer. -/
  bad : List Nat := []
  badWb : List Nat := []
  /-- 64-bit words of accumulators, words of vector registers (32·register + word) and lines of the code store with an uncorrectable error; and the
  places with a corrected one, each with its store as SRC of R386 numbers it (R385). -/
  badAcc : List Nat := []
  badV : List Nat := []
  badCode : List Nat := []
  corr : List (Fin 9 × Nat) := []
  wb0 : Mem := []
  wb1 : Mem := []
  active : Bool := false
  acc : Mem := []
  code : Mem := []
  handler : Mem := []
  dom : Vector Word 4 := Vector.replicate 4 0
  srseed : Word := 0
  gens : Vector Word32 256 := Vector.ofFn fun i => BitVec.ofNat 32 ((i.val + 1) * 0x9E3779B9)
  earlyrd : Word := 0
  fslot : Word := 0
  /-- FWIDTH.BIND and DEGR (R95); CUR belongs to the chimney. -/
  fwBind : Bool := false
  degr : Nat := 0
  chans : Vector Chan 8 := Vector.replicate 8 {}
  partid : Word := 0xF0
  bindinfo : Word := 0
  asid : Nat := 0
  ptroot : Word := 0
  umiss : Nat := 0
  walks : Nat := 0
  utlb : List TlbEntry := []
  /-- Core clock cycles, which time strands at system level (R349). -/
  cyc : Nat := 0
  /-- Its clock ticked in the present HC tick. -/
  ticked : Bool := false
  /-- Binding ID and DOM1 INDEX of the task it runs or is prepared for. -/
  task : Option (Nat × Nat) := none
  prepared : Bool := false
  awake : Bool := false
  /-- A gate request is held (R293), and it is the Librarian's own, which it withdraws before binding (R316). -/
  gateReq : Bool := false
  gateOwn : Bool := false
  /-- Its slot of the slot table: the bind record (R318), and the HC tick at which its preparation ends (R317, R319). -/
  slot : Vector Word 8 := Vector.replicate 8 0
  prepAt : Option Nat := none
  idleSince : Nat := 0
  cut : BitVec 3 := 0
  bps : BitVec 8 := 0
  /-- The rail that each band uses (R376, R382). -/
  rail : BitVec 8 := 0
  /-- Bands that have still to join their rails, each with the DT from which it kindles (R139, R377). -/
  kindling : List (Nat × Nat) := []
  /-- Completion DT of a reshape or chain change in progress (R139, R140), and the earliest t0 that they allow (R138). -/
  reshape : Option Nat := none
  chaining : Option Nat := none
  startFrom : Nat := 0
  chain : Option Chain := none
  /-- An hchain or hcut on a chain that waits for its other members in this cycle: opcode, head, t, w, bps, cut. -/
  chainReq : Option (Bool × CoreId × Nat × Nat × BitVec 8 × BitVec 3) := none
  hobs : Vector Hob 4 := Vector.replicate 4 {}
  breg : Mem := []
  /-- Form of the column scales as loaded (CSM of the last mloadb, R357). -/
  csm : Nat := 0
  copies : List Copy := []
  nextCopy : Nat := 0
  /-- Collectives accepted by level, tag: count (R207). -/
  colls : List (CollLvl × BitVec 10 × Nat) := []
  /-- Banks granted in the present cycle (R74). -/
  used : List Nat := []
  /-- Lines that a hob has read in the present cycle (R244). -/
  hobLines : List Nat := []
  damph : Word := 0
  dampx : Word := 0
  /-- HC tick in which the last command left each paced queue: HQ0 to HQ3, the L and S copy queues, flue transfers, wide vector instructions
  (R380); and whether C stood at a wide vector instruction when the present cycle began. -/
  left : Vector (Option Nat) 8 := Vector.replicate 8 none
  poised : Bool := false
  caps : Vector Cap 4 := Vector.replicate 4 {}
  atStart : Sampled := {}
  /-- Vertical FIFO entries into this core from below and from above: DT of the put and data; DTs of the takes from them
  and of the puts out of this core (R96, R97). -/
  fromBelow : List (Nat × VecData) := []
  fromAbove : List (Nat × VecData) := []
  takesUp : List Nat := []
  takesDown : List Nat := []
  putsUp : List Nat := []
  putsDown : List Nat := []
  /-- First DT whose slots this core's transfers to each layer have not taken (R93). -/
  flueFree : Vector Nat 4 := Vector.replicate 4 0
  /-- Save or load in progress: save-area address, true for a load, HC tick of its end (R186, R356). -/
  engine : Option (Nat × Bool × Nat) := none
  deriving DecidableEq, Repr

/-! ### Bindings and dispatch -/

/-- A launch record (R310) as the Librarian copied it: 32 words. -/
structure Launch where
  words : Vector Word 32 := Vector.replicate 32 0
  deriving DecidableEq, Repr

/-- A page that a commit group shadows (R334): VA, page bits, original NPA base, shadow base, the place of its leaf, whether it is filled; the
invalidation that the fill waits for, and the epoch it carries (R330). -/
structure Shadow where
  va : Nat
  bits : Nat
  orig : Nat
  copy : Nat
  leafPa : Nat
  filled : Bool
  inval : Nat
  epoch : Nat
  deriving DecidableEq, Repr

/-- Whether DT advances (R21-R23, R348-R350). -/
inductive Pace where
  | running | frozen | resuming
  deriving DecidableEq, Repr

/-- A binding (R29, R310, R318): identity, members, stokers by slot, its launch, and its domain time. -/
structure Binding where
  bid : Nat
  launch : Launch
  queue : Nat
  run : Nat
  part : Nat
  asid : Nat
  root : Nat
  cg : Bool
  members : List CoreId
  stokers : List (Fin 384)
  fslot : Word
  /-- Release tick asked for, and the actual one. -/
  rel : Nat
  relHc : Option Nat
  dt : Nat
  /-- DT advanced in the present HC tick (its cycle is issuing and performing now). -/
  live : Bool
  pace : Pace
  horizon : Option Nat
  /-- A fault froze it; a pre-emption is asked for or complete (R348, R352). -/
  faulted : Bool
  preempt : Bool
  stopped : Bool
  /-- Acknowledgement of the drain limit (R354): HC of the request; and HC at completion of the pre-emption (R358). -/
  reqHc : Nat
  stopHc : Nat
  /-- Status with which it ends, once decided (R321). -/
  status : Option Nat
  retired : List CoreId
  shadows : List Shadow
  /-- The invalidations that the swap of its shadows still waits for, once it has begun (R335). -/
  swapping : Option (List Nat)
  quota : Nat
  /-- Frequency phase of the slowest member (R22, R376). -/
  phase : Nat
  /-- Old and new cores of the members restored so far (R360). -/
  moved : List (CoreId × CoreId)
  deriving DecidableEq, Repr

/-- A group in a stoker's queue (R250, R272): header address and its physical address, launching core, strand position. -/
structure GroupRef where
  hdr : Nat
  pa : Nat
  core : CoreId
  pos : Nat
  bid : Nat
  /-- nabort ended it before its start (R273). -/
  killed : Bool
  hc : Nat
  /-- The translation of its header, sampled at the launch (R272, R330). -/
  samples : List Sample
  deriving DecidableEq, Repr

/-- A running group (R250-R266). -/
structure Group where
  ref : GroupRef
  ncmd : Nat
  slots : List (BitVec 128)
  next : Nat
  page0 : Nat
  page1 : Option Nat
  sem : Nat
  ce : Nat
  flags : BitVec 6
  /-- Its pages and semaphore, sampled at dispatch (R254, R330). -/
  samples : List Sample
  /-- Shadow rows (row numbers by physical address), their contents, and the contents at the last boundary (R263, R265). -/
  rows : List Nat
  shadow : Mem
  fenced : Mem
  fencedRows : List Nat
  conflicted : Bool
  dirty : Bool
  /-- Waiting in a SEMWAIT since the given HC; boundary kills pending. -/
  waiting : Option Nat
  kill : Bool
  /-- First slot of the last command run (R251). -/
  last : Nat
  /-- Semaphores that its commands name: virtual and physical address, as translated at dispatch (R253, R330). -/
  sems : List (Nat × Nat)
  /-- The bursts of 32 bytes that the present command has still to read, and those it has read (R263). -/
  want : Option (List Nat)
  got : List (Nat × List Byte)
  deriving DecidableEq, Repr

/-- An arrival at a superstep (R46, R47): binding, level, GID, core, strand, superstep, the accesses it releases, and whether the last
participant has arrived. -/
structure Arrival where
  bid : Nat
  lvl : Nat
  gid : Nat
  core : CoreId
  strand : StrandId
  step : Nat
  needs : List Need
  full : Bool
  deriving DecidableEq, Repr

/-- A stoker and its channel (R249-R271). -/
structure Stoker where
  bid : Option Nat := none
  slot : Nat := 0
  /-- Its slot of the slot table: the bind record (R318). -/
  record : Word := 0
  queue : List GroupRef := []
  group : Option Group := none
  /-- CHARB in force and written for the next period (R268), budgets of RF, MD, NM, RR in stoker cycles. -/
  charb : Word := 0x04103140
  charbNext : Option Word := none
  budget : List Int := [78, 781, 234, 156]
  /-- The HC tick from which the channel is free; for each class two more than the tick in which a request of it was last turned away (0 for
  none), and for main-die requests by bank one more (R266, R268, R269). -/
  busy : Nat := 0
  asks : Vector Nat 4 := Vector.replicate 4 0
  bankAsks : List (Nat × Nat) := []
  /-- Activation counts by bank; banks in tenure, with the tick of its end; refresh management due, by bank and class, and under way, by bank and
  tick of its end (R269, R270). -/
  acts : Vector Nat 32 := Vector.replicate 32 0
  tenure : List (Nat × Nat) := []
  rfm : List (Nat × Nat) := []
  paused : List (Nat × Nat) := []
  refreshes : Nat := 0
  /-- Corrected errors since release (R273) and bad lines (physical addresses). -/
  ecc : Nat := 0
  /-- A pre-emption asks it to stop at its next command boundary; it has stopped; the group that base-die firmware has saved; frame 1,022 of its
  channel (R361). -/
  halt : Bool := false
  stopped : Bool := false
  saved : Option Group := none
  frame : Mem := []
  deriving DecidableEq, Repr

/-! ### Archive -/

/-- An installed version of an object (R274, R285): length, blocks, bytes; whether it is the current version. -/
structure Object where
  id : Nat
  ver : Nat
  len : Nat
  blocks : List Nat
  bytes : Mem
  current : Bool
  deriving DecidableEq, Repr

/-- An accession accepted (R280): the stack whose controller runs it (R305), the blocks it needs, those allotted to it, how many of them are
programmed and how many relocated, its status once decided and once recorded. -/
structure Accession where
  num : Nat
  bid : Nat
  part : Nat
  asid : Nat
  root : Nat
  id : Nat
  repl : Bool
  src : Nat
  n : Nat
  record : Nat
  started : Bool
  ctrl : Nat
  need : Nat
  blocks : List Nat
  done : Nat
  reloc : Nat
  outcome : Option Nat
  status : Option Nat
  cancelled : Bool
  /-- Source bytes read so far, chunk by chunk; where the chunk in progress lies, as it was sampled (R280, R330). -/
  data : List Byte
  pieces : List (Nat × Nat)
  samples : List Sample
  deriving DecidableEq, Repr

/-- A folio in the reading room (R277): object, version, number; last use; a fill in progress since an HC tick, and the strand
whose copy started it (R388). -/
structure Folio where
  obj : Nat
  ver : Nat
  num : Nat
  used : Nat
  filling : Option Nat
  /-- Strand and number of the copy that started it. -/
  starter : Option (CoreId × StrandId × Nat)
  /-- Its place in the room, in the order in which the room takes its frames (R82), once its fill has one. -/
  slot : Option Nat
  /-- The epoch that the fill carries (R330). -/
  epoch : Nat
  deriving DecidableEq, Repr

/-- The archive, the catalogue and the reading room (R274-R285, R307). -/
structure Archive where
  objects : List Object := []
  accs : List Accession := []
  nextAcc : Nat := 0
  /-- Program/erase counts by block, listed where not 0; failed fills that have still to stop the copy that started them: its number, object, version,
  folio (R278). -/
  wear : List (Nat × Nat) := []
  badFolios : List (Nat × Nat × Nat × Nat) := []
  wearRemaining : Nat := 0
  /-- HC tick of the next wear day (R284). -/
  nextWearDay : Nat := 194400000000000
  folios : List Folio := []
  rrsize : Nat := 4
  rrHeld : Option Nat := none
  deriving DecidableEq, Repr

/-! ### Librarian, host, power -/

/-- A launch queue (R308): partition, ASID, size exponent, base, HEAD, last accepted TAIL. -/
structure LQueue where
  part : Nat
  asid : Nat
  k : Nat
  base : Nat
  head : BitVec 16
  tail : BitVec 16
  deriving DecidableEq, Repr

/-- A queued record (R309, R313, R315): launch, queue, acceptance order and HC, eligible tick, re-run number, when it first
stood first in rank. -/
structure QRec where
  num : Nat
  launch : Launch
  queue : Nat
  hc : Nat
  eligible : Option Nat
  run : Nat
  first : Option Nat
  /-- The binding of its last run, 0 if it was never dispatched (R321). -/
  bid : Nat
  deriving DecidableEq, Repr

/-- A completion that is to be reported: address space, CREC and CSEM, and what its record says (R321). -/
structure Report where
  asid : Nat
  crec : Nat
  csem : Nat
  bid : Nat
  tries : Nat
  relHc : Nat
  endHc : Nat
  status : Nat
  deriving DecidableEq, Repr

/-- An event sent to the host or the Librarian (R372, R374): kind name code and words. -/
structure Event where
  kind : Nat
  words : List Word
  deriving DecidableEq, Repr

/-- An error record (R386). -/
structure ErrRec where
  src : Nat
  addr : Nat
  hc : Nat
  bid : Nat
  unit : Nat
  deriving DecidableEq, Repr

/-- A queue pair (R372-R374): port, partition, ASID, error state, and whether it is registered as a launch queue pair. -/
structure QPair where
  port : Bool
  part : Nat
  asid : Nat
  error : Bool
  launch : Bool
  deriving DecidableEq, Repr

/-- An answer on a queue pair to a request: the bytes of a READ, a remote-access NAK, a NAK of invalid request (R372, R373). -/
inductive Reply where
  | bytes (qp : Nat) (bs : List Byte)
  | nakAccess (qp : Nat)
  | nakInvalid (qp : Nat)
  deriving DecidableEq, Repr

/-- A registered memory region (R372). -/
structure Region where
  rkey : Word32
  part : Nat
  asid : Nat
  va : Nat
  len : Nat
  deriving DecidableEq, Repr

/-- Lifetime histograms and counts (R389): live counts and those folded in. -/
structure Lifetime where
  corrected : Vector Nat 9 := Vector.replicate 9 0
  uncorrected : Vector Nat 9 := Vector.replicate 9 0
  foldedCorrected : Vector Nat 9 := Vector.replicate 9 0
  foldedUncorrected : Vector Nat 9 := Vector.replicate 9 0
  /-- Island, FSTEP, ticks; and island, temperature bin, samples; fill latency bins. -/
  fstepTicks : List (Nat × Nat × Nat) := []
  temps : List (Nat × Nat × Nat) := []
  fills : Vector Nat 16 := Vector.replicate 16 0
  foldedFsteps : List (Nat × Nat × Nat) := []
  foldedTemps : List (Nat × Nat × Nat) := []
  foldedFills : Vector Nat 16 := Vector.replicate 16 0
  deriving DecidableEq, Repr

/-- What the host has read over the board management interface (R389, R391). -/
inductive BoardReply where
  | certificate (bytes : List Byte)
  | histograms (life : Lifetime)
  deriving DecidableEq, Repr

/-- The host attachment (R372-R375). -/
structure HostPort where
  qps : Vector (Option QPair) 256 := Vector.replicate 256 none
  regions : List Region := []
  nextKey : Nat := 1
  portUp : Vector Bool 2 := Vector.replicate 2 true
  /-- Posted receive buffers per partition (R374). -/
  posted : Vector Nat 4 := Vector.replicate 4 0
  held : List Event := []
  dropped : Nat := 0
  /-- Answers to commands that wait for a buffer of their partition's queue pair 0, oldest first (R374); SENDs made, with the partition
  whose buffer each took. -/
  answers : List (Fin 4 × Event) := []
  sent : List (Fin 4 × Event) := []
  replies : List Reply := []
  /-- Answers over the board management interface. -/
  board : List BoardReply := []
  deriving DecidableEq, Repr

/-- An island (R376-R381). -/
structure Island where
  fstep : Nat := 0
  setting : Nat := 0
  /-- Hop in progress: target, core clock cycles left; waiting for a retry, and core clock cycles until it; aborts in a row. -/
  hop : Option Nat := none
  hopLeft : Nat := 0
  retry : Bool := false
  retryLeft : Nat := 0
  aborts : Nat := 0
  /-- The frequency step asked for while a hop is in progress, to which another hop goes (R376, R384, R392). -/
  want : Option Nat := none
  droop : Bool := false
  /-- A droop's stretch is still to be taken; the clock has stretched since the hop in progress began (R376, R379). -/
  owed : Bool := false
  stretched : Bool := false
  /-- The island clock in the present tick: held by a stretch, or beating; its phase in sixteenths of a cycle (R376, R378). -/
  held : Bool := false
  beat : Bool := true
  phase : Nat := 0
  /-- HC tick from which the time at the present step is still to be counted (R389). -/
  since : Nat := 0
  resume : BitVec 16 := 0x6000
  hold : BitVec 16 := 0x4000
  level : BitVec 16 := 0xFFFF
  holding : Bool := false
  throttled : Bool := false
  /-- HC tick of the throttle's next step (R384). -/
  thrNext : Option Nat := none
  deriving DecidableEq, Repr

/-- A temperature sensor (R384): trip points in whole °C, temperature in 1/16 °C, active trips. -/
structure Sensor where
  advise : Nat := 95
  throttle : Nat := 105
  shutdown : Nat := 115
  temp : BitVec 16 := 0
  advised : Bool := false
  throttling : Bool := false
  /-- Since when it has stayed 5 °C below an active throttle trip. -/
  cool : Option Nat := none
  shut : Bool := false
  deriving DecidableEq, Repr

/-- The power cap (R383). -/
structure Cap4 where
  s0 : Word := 0
  watts : Nat := 0
  expiry : Option Nat := none
  floor : Nat := 0
  deriving DecidableEq, Repr

/-- Boot state (R375, R390). -/
structure Boot where
  digest : BitVec 256 := 0
  version : Nat := 0
  rollback : Nat := Config.fusedRollback
  recovery : Bool := false
  /-- The strap that selects recovery, and the image in the archive's reserved region (R375, R390). -/
  strap : Bool := false
  stored : Option FwImage := none
  stripesP : Nat := 0
  /-- Bytes the host wrote into the recovery region. -/
  image : Mem := []
  shutdown : Bool := false
  /-- Attestation reports sent (R391). -/
  reports : List (List Byte) := []
  deriving DecidableEq, Repr

/-- A tlbinv in progress (R185, R331): issuing core and strand, what it removes, its place among the samples; `id` is the issue order of the
instruction. -/
structure Inval where
  id : Nat
  issuer : Option (CoreId × StrandId)
  kind : TlbKind
  asid : Nat
  va : Nat
  bits : Nat
  stamp : Nat
  deriving DecidableEq, Repr

/-- A migration in progress (R333): ASID, VA, page bits, leaf entry place, old and new page, step reached. -/
structure Migration where
  asid : Nat
  va : Nat
  bits : Nat
  leafPa : Nat
  src : Nat
  dst : Nat
  writable : Bool
  stage : Nat
  inval : Nat
  deriving DecidableEq, Repr

/-- The parts of a core that a save area holds in formats the manual does not give (R357), kept beside its memory image. -/
structure SaveImage where
  asid : Nat
  va : Nat
  digest : BitVec 256
  core : CoreId
  content : Core
  binding : Binding
  deriving DecidableEq, Repr

/-! ### The calendar -/

/-- A scratchpad read whose data completes a result (R107, R164, R190, R234): rounds of (place in the result, address). -/
structure LsRead where
  core : CoreId
  strand : StrandId
  target : CoreId
  seq : Nat
  ord : Nat
  prio : Nat
  pos : Nat
  /-- Bytes still to read, by round: result byte and scratchpad address. -/
  rounds : List (List (Nat × Nat))
  /-- Sign-extend from this many bytes when not 0; vector and descriptor reads use 0. -/
  sext : Nat
  /-- The tokens that a scalar load popped (R179). -/
  pops : List (Fin 8 × Token) := []
  deriving DecidableEq, Repr

/-- Clocks that time pending work: HC ticks, a binding's DT, a core's own cycles (R19, R21, R349). -/
inductive Clock where
  | hc
  | dt (bid : Nat)
  | cyc (core : CoreId)
  deriving DecidableEq, Repr

/-- Work that performs at a stated cycle: an event of the opcode table, or a part of one. -/
inductive Work where
  | ev (i : Instr)
  /-- The write of a result in flight falls due. -/
  | flight (c : CoreId) (st : StrandId) (ord : Nat)
  | lsRead (r : LsRead)
  /-- Tokens pushed by an instruction of the strand into its previous and next FIFO. -/
  | push (c : CoreId) (st : StrandId) (p n : Nat)
  /-- The first read of a wait, or a poll's read of a barrier (1) or a wait word (2), with its destination and its rank at a bank
  (R74, R200-R202). -/
  | objRead (c : CoreId) (st : StrandId) (ord seq : Nat) (unit : MemUnit) (pa : Nat) (poll : Nat) (d : XReg) (prio : Nat)
  /-- A wait that has reached its object is judged, after the updates of the same cycle (R111). -/
  | objJudge (c : CoreId) (st : StrandId) (ord : Nat) (unit : MemUnit) (pa : Nat)
  /-- A load or vector load from GM or XM reaches the channel (R182, R235): the place of each byte in the result with its physical address
  (or XM offset), and the virtual address of each. -/
  | farRead (c : CoreId) (st : StrandId) (ord seq : Nat) (dev : Option Nat) (cells : List (Nat × Nat)) (sext : Nat) (vas : List Nat)
  /-- A hold of class 9 on another unit ends with a value for xd. -/
  | unitDone (c : CoreId) (st : StrandId) (ord : Nat) (v : Option Word)
  /-- Holds of the strand are judged (R105, R106). -/
  | holds (c : CoreId) (st : StrandId)
  /-- A row of A on a chain segment, a cell sample, a row leaving the epilogue, a drain's accumulator and scale read. -/
  | rowRead (c : CoreId) (hq : Fin 4) (id seg row : Nat)
  | scaleRead (c : CoreId) (hq : Fin 4) (id row : Nat)
  | topRead (c : CoreId) (hq : Fin 4) (id row : Nat)
  | rowLeave (c : CoreId) (hq : Fin 4) (id row : Nat)
  | drainRead (c : CoreId) (hq : Fin 4) (id row : Nat)
  | zeroRows (c : CoreId) (hq : Fin 4) (id group : Nat)
  | loadRead (c : CoreId) (hq : Fin 4) (id k : Nat)
  | loadDone (c : CoreId) (hq : Fin 4) (id : Nat)
  | accq (c : CoreId) (st : StrandId) (ord : Nat) (sel : AccqSel)
  | evpost (c : CoreId) (st : StrandId) (ord : Nat) (code payload : Word)
  | nstat (c : CoreId) (st : StrandId) (ord slot : Nat) (ecc : Bool)
  | cellsRead (c : CoreId) (st : StrandId) (ord row col : Nat) (wide : Bool)
  /-- An event on its way to the host at a time that is not exposed: kind and words (R347). -/
  | notify (kind : Nat) (words : List Word)
  | cellsWrite (c : CoreId) (row col : Nat) (wide : Bool) (data : VecData) (mask : MaskData)
  | wswap (c : CoreId)
  | chainJudge (c : CoreId)
  | copyAccept (c : CoreId) (id : Nat)
  /-- The write pointer of a channel moves, and a copy ends, in the effects of a cycle: issues of the cycle see neither (R89). -/
  | wpMove (c : CoreId) (ch : Fin 8) (addr : Nat)
  | copyEnd (c : CoreId) (id : Nat)
  | nabort (c : CoreId) (st : StrandId) (ord slot : Nat) (all : Bool)
  /-- An accession goes on: it samples a chunk of its source, reads it, or programs a block (R280). -/
  | accStep (num : Nat)
  /-- The remote requests that wait are made again (R370). -/
  | remotes
  /-- The advise event of an abandoned hop reaches the Librarian (R379, R392). -/
  | advise (isl : Fin 64)
  /-- The Librarian brings the package within a changed cap, lower than the one before or not (R383). -/
  | enforceCap (lower : Bool)
  /-- A dtwait at system level completes (R167). -/
  | dtEnd (c : CoreId) (st : StrandId) (ord : Nat)
  /-- An access in its strand's memory queue (R106): once no hold and no need stops it, the work it stands for falls due `lat`
  cycles later, or at a tick that is not exposed when `far`. -/
  | queued (clk : Clock) (c : CoreId) (st : StrandId) (ord seq : Nat) (storing : Bool) (needs : List Need) (lat prio : Nat) (far : Bool) (w : Work)
  deriving DecidableEq, Repr

/-- An entry of the calendar: due when its clock shows `due`; lower priority numbers first, then lower order (R74). -/
structure Due where
  clock : Clock
  due : Nat
  prio : Nat
  order : Nat
  work : Work
  deriving DecidableEq, Repr

/-! ### The device -/

/-- The translation units (R323-R335). -/
structure Xlate where
  shared : Vector (List TlbEntry) 4 := Vector.replicate 4 []
  roots : List (Nat × Nat) := []
  qcur : Nat := 0
  invals : List Inval := []
  nextInval : Nat := 0
  quarantine : List (Nat × Nat × Nat) := []
  waiting : List (Nat × Nat) := []
  migrations : List Migration := []
  /-- Shadows of aborted groups: the invalidation each waits for, base and size in bits (R335). -/
  dropping : List (Nat × Nat × Nat) := []
  /-- Free pages of the shadow pool: base and size in bits. -/
  pool : List (Nat × Nat) := []
  /-- Physical lines with an uncorrectable or a corrected error. -/
  bad : List Nat := []
  corrected : List Nat := []
  /-- Root of the domain window (R369). -/
  domRoot : Nat := 0
  deriving DecidableEq, Repr

/-- The Librarian's scheduling state (R304-R322, R354). -/
structure Lib where
  /-- Quarter mask of each partition, 0 when not in use. -/
  parts : Vector (BitVec 4) 4 := #v[0xF, 0, 0, 0]
  queues : Vector (Option LQueue) 64 := Vector.replicate 64 none
  records : List QRec := []
  nextRec : Nat := 0
  nextBid : Nat := 1
  /-- Requested partitioning not yet installed (R306). -/
  repartition : Option (Vector (BitVec 4) 4) := none
  plimit : Word := 45000
  /-- HC ticks of the last test of records, temperature sample, arbitration period and patrol scrub. -/
  lastTest : Nat := 0
  lastSample : Nat := 0
  lastPeriod : Nat := 0
  lastScrub : Nat := 0
  errors : List ErrRec := []
  outcomes : List (CoreId × Nat × Nat) := []
  /-- Reports whose pages cannot be written yet (R321, R334). -/
  reports : List Report := []
  /-- The interleaved stripes that belong to a partition (R305); and those that the Librarian keeps for its shadow pool, by the partition that it
  serves, which it maps into no address space (R82). -/
  stripes : List (Nat × Nat) := []
  poolStripes : List (Nat × Nat) := []
  saves : List SaveImage := []
  /-- Interrupts of which the Librarian has learnt that they were discarded: strand and payload, oldest first (R339, R364). -/
  discards : List (CoreId × StrandId × Word) := []
  /-- Tasks of level-3 groups whose binding has gone while others of the group remain: GID, binding, tasks (R46). -/
  goneTasks : List (Nat × Nat × Nat) := []
  /-- Advise events that the Librarian has received, oldest first: of a sensor at its advise point, and of an island's abandoned hop (R379, R384). -/
  advises : List (Fin 320 ⊕ Fin 64) := []
  domMembers : List Nat := []
  /-- Requests of other devices that wait for their channel, oldest first: device, address, operation (R370). -/
  remote : List (Nat × Nat × RemoteOp) := []
  lastHcCorrection : Nat := 0
  lanes : Vector Bool 18 := Vector.replicate 18 false
  deriving DecidableEq, Repr

/-- An outside event on its way in, with the management message or firmware image it brings (R374, R375, R390). -/
structure Input where
  ev : Instr
  msg : Option MgmtMsg
  img : Option FwImage
  /-- The strap that a cold reset finds (R375). -/
  strap : Bool := false
  deriving DecidableEq, Repr

/-- The state of the device. -/
structure State where
  power : Bool
  hc : Nat
  devId : Nat
  cores : Vector Core 256
  /-- Current flue width per chimney: true = half (R95). -/
  half : Vector Bool 64
  /-- Degrades that wait for the frame boundary of their chimney (R95). -/
  degrading : List (Fin 64)
  bindings : List Binding
  gm : Mem
  xlate : Xlate
  stokers : Vector Stoker 384
  archive : Archive
  lib : Lib
  host : HostPort
  islands : Vector Island 64
  sensors : Vector Sensor 320
  cap : Cap4
  boot : Boot
  life : Lifetime
  /-- Arrivals at the supersteps in progress (R46). -/
  arrivals : List Arrival
  /-- Model: outside events to come, oldest first (log entry 1). -/
  inbox : List Input
  /-- The management message and the firmware image being acted on (R374, R375, R390). -/
  msg : Option MgmtMsg
  img : Option FwImage
  /-- Model: strands that still have their issue turn in the present tick, and the one whose turn it is. -/
  todo : List (CoreId × StrandId)
  cur : Option (CoreId × StrandId)
  /-- Model: pending work, its order counter, and the counter of free values (log entry 4). -/
  cal : List Due
  order : Nat
  choice : Nat
  deriving DecidableEq, Repr

/-- The machine right after cold reset (R8, R390): HC 0, every core gated, nothing running; values without a stated reset are
those of log entry 2. -/
def State.reset : State :=
  { power := true, hc := 0, devId := 0, cores := Vector.replicate 256 {}, half := Vector.replicate 64 false, degrading := []
    bindings := [], gm := [], xlate := {}, stokers := Vector.replicate 384 {}, archive := {}, lib := {}, host := {}
    islands := Vector.replicate 64 {}, sensors := Vector.replicate 320 {}, cap := {}, boot := {}, life := {}
    arrivals := [], inbox := [], msg := none, img := none, todo := [], cur := none, cal := [], order := 0, choice := 0 }

end Sys2Proof.Machine
end

