-- ==== Sys2Proof/Machine/Bytes.lean ====
section
/-! DEFINITION. Bytes, byte order and the named operations over byte memory (R3). -/

namespace Sys2Proof.Machine

/-- The byte at an address; an unlisted address reads as 0 (log entry 3). -/
def Mem.get : Mem → Nat → Byte
  | [], _ => 0
  | (a, b) :: m, k => if a = k then b else Mem.get m k

/-- Writes one byte and keeps the canonical form: rising addresses, no zero byte. -/
def Mem.set : Mem → Nat → Byte → Mem
  | [], k, v => if v = 0 then [] else [(k, v)]
  | (a, b) :: m, k, v =>
    if k < a then (if v = 0 then (a, b) :: m else (k, v) :: (a, b) :: m)
    else if k = a then (if v = 0 then m else (k, v) :: m)
    else (a, b) :: Mem.set m k v

/-- The bytes at `n` addresses from `a`. -/
def Mem.read (m : Mem) (a : Nat) : Nat → List Byte
  | 0 => []
  | n + 1 => m.get a :: Mem.read m (a + 1) n

/-- Writes consecutive bytes from `a`. -/
def Mem.write (m : Mem) (a : Nat) : List Byte → Mem
  | [] => m
  | b :: bs => Mem.write (m.set a b) (a + 1) bs

/-- Little-endian value of bytes (R3). -/
def leNat : List Byte → Nat
  | [] => 0
  | b :: bs => b.toNat + 256 * leNat bs

/-- The `n` little-endian bytes of a value (R3). -/
def leBytes : Nat → Nat → List Byte
  | 0, _ => []
  | n + 1, v => BitVec.ofNat 8 v :: leBytes n (v / 256)

/-- A little-endian 64-bit word of memory. -/
def Mem.word (m : Mem) (a : Nat) : Word := BitVec.ofNat 64 (leNat (m.read a 8))

/-- Writes a little-endian 64-bit word. -/
def Mem.setWord (m : Mem) (a : Nat) (w : Word) : Mem := m.write a (leBytes 8 w.toNat)

/-- A little-endian 32-bit word of memory. -/
def Mem.word32 (m : Mem) (a : Nat) : Word32 := BitVec.ofNat 32 (leNat (m.read a 4))

/-- Bits [hi:lo] of a value as a number, `n` bits from `lo`. -/
def bitsAt (v lo n : Nat) : Nat := v / 2 ^ lo % 2 ^ n

/-- Bits of a 64-bit word as a number. -/
def Word.bits (w : Word) (lo n : Nat) : Nat := bitsAt w.toNat lo n

/-- Sign extension of the low `n` bytes of a value to 64 bits (R179). -/
def signExtend (n v : Nat) : Word :=
  if n = 0 then BitVec.ofNat 64 v
  else if v % 2 ^ (8 * n) < 2 ^ (8 * n - 1) then BitVec.ofNat 64 (v % 2 ^ (8 * n))
  else BitVec.ofInt 64 ((v % 2 ^ (8 * n) : Nat) - (2 ^ (8 * n) : Nat) : Int)

/-- Sign extension of a 32-bit immediate (R146). -/
def immW (i : Word32) : Word := i.signExtend 64

/-- The bytes of a vector register, byte 0 first (R76). -/
def vecBytes (v : VecData) : List Byte := (List.range 256).map fun i => v.extractLsb' (8 * i) 8

/-- A vector register of bytes (R76). -/
def bytesVec (bs : List Byte) : VecData := BitVec.ofNat 2048 (leNat (bs.take 256))

/-- The bit mask of the first `n` bits. -/
def lowMask (n : Nat) : VecData := BitVec.ofNat 2048 (2 ^ n - 1)

/-- A shift of a 2,048-bit value into place: `v` at bit `lo`. -/
def atBit (v lo : Nat) : VecData := BitVec.ofNat 2048 (v * 2 ^ lo)

/-- The scratchpad bank of an offset (R73). -/
def bankOf (a : Nat) : Nat := a / 64 % 256

/-- The distinct scratchpad banks of `n` consecutive bytes (R73). -/
def banksOf (a n : Nat) : List Nat := if n = 0 then [] else ((List.range ((a + n - 1) / 64 - a / 64 + 1)).map fun i => (a / 64 + i) % 256).dedup

/-- The first offset of the reserved cell (R75). -/
def reservedCell : Nat := 0x3FFF00

/-- The size of a scratchpad (R73). -/
def lsSize : Nat := 0x400000

/-- True when a range of scratchpad bytes touches the reserved cell (R75). -/
def touchesCell (a n : Nat) : Bool := n != 0 && a + n > reservedCell && a < lsSize

/-- Replaces the element of an association list under a key. -/
def assocSet {α β : Type} [DecidableEq α] (l : List (α × β)) (k : α) (v : β) : List (α × β) :=
  (k, v) :: l.filter fun p => decide (p.1 ≠ k)

/-- Reads an association list. -/
def assocGet {α β : Type} [DecidableEq α] : List (α × β) → α → Option β
  | [], _ => none
  | (a, b) :: l, k => if a = k then some b else assocGet l k

/-- Changes one element of a vector. -/
def vmod {α : Type} {n : Nat} (v : Vector α n) (i : Fin n) (f : α → α) : Vector α n := v.set i.val (f v[i.val])

end Sys2Proof.Machine
end

