-- ==== Sys2Proof/Machine/Ops.lean ====
section
/-! DEFINITION. The named operations over the state: places, clocks, the calendar, registers, tokens, holds, results in
flight, taking an exception and returning from one, and freezing a binding. -/

namespace Sys2Proof.Machine

/-! ### Places in the state -/

/-- A core. -/
def State.core (s : State) (c : CoreId) : Core := s.cores[c.val]
/-- Replaces a core. -/
def State.setCore (s : State) (c : CoreId) (k : Core) : State := { s with cores := s.cores.set c.val k }
/-- Changes a core. -/
def State.updCore (s : State) (c : CoreId) (f : Core → Core) : State := s.setCore c (f (s.core c))
/-- A strand of a core. -/
def Core.strand (k : Core) (st : StrandId) : Strand := k.strands[st.num.val]
/-- Replaces a strand. -/
def Core.setStrand (k : Core) (st : StrandId) (t : Strand) : Core := { k with strands := k.strands.set st.num.val t }
/-- A strand. -/
def State.strand (s : State) (c : CoreId) (st : StrandId) : Strand := (s.core c).strand st
/-- Changes a strand. -/
def State.updStrand (s : State) (c : CoreId) (st : StrandId) (f : Strand → Strand) : State :=
  s.updCore c fun k => k.setStrand st (f (k.strand st))

/-- The binding of an ID. -/
def State.binding (s : State) (bid : Nat) : Option Binding := s.bindings.find? fun b => b.bid == bid
/-- Changes the binding of an ID. -/
def State.updBinding (s : State) (bid : Nat) (f : Binding → Binding) : State :=
  { s with bindings := s.bindings.map fun b => if b.bid = bid then f b else b }
/-- The binding whose task a core runs. -/
def State.bindingOf (s : State) (c : CoreId) : Option Binding := (s.core c).task.bind fun t => s.binding t.1
/-- The binding ID of a core's task, 0 for none. -/
def State.bidOf (s : State) (c : CoreId) : Nat := match (s.core c).task with | some t => t.1 | none => 0
/-- The domain time of a core's binding (R21); 0 without one. -/
def State.dt (s : State) (c : CoreId) : Nat := match s.bindingOf c with | some b => b.dt | none => 0
/-- The binding's commit group bit (R49). -/
def State.inGroup (s : State) (c : CoreId) : Bool := match s.bindingOf c with | some b => b.cg | none => false

/-- Layer, row and column of a core (R12). -/
def layerOf (c : CoreId) : Nat := c.val / 64
/-- Row of a core (R12). -/
def rowOf (c : CoreId) : Nat := c.val / 8 % 8
/-- Column of a core (R12). -/
def colOf (c : CoreId) : Nat := c.val % 8
/-- Chimney of a core (R12). -/
def chimOf (c : CoreId) : Fin 64 := ⟨c.val % 64, Nat.mod_lt _ (by decide)⟩
/-- Island of a core (R12). -/
def islandOf (c : CoreId) : Fin 64 := ⟨(16 * layerOf c + 4 * (rowOf c / 2) + colOf c / 2) % 64, Nat.mod_lt _ (by decide)⟩
/-- A core number as a core. -/
def coreId (n : Nat) : CoreId := ⟨n % 256, Nat.mod_lt _ (by decide)⟩
/-- Absolute difference. -/
def dist (a b : Nat) : Nat := (a - b) + (b - a)
/-- The hop count of peer traffic (R80). -/
def hops (a b : CoreId) : Nat := dist (colOf a) (colOf b) + dist (rowOf a) (rowOf b) + 2 * dist (layerOf a) (layerOf b)

/-! ### Domains (R30) -/

/-- A task is a member at a level (R30). -/
def domEn (w : Word) : Bool := w.getLsbD 47
/-- GID of a DOM register (R30). -/
def domGid (w : Word) : Nat := Word.bits w 48 16
/-- COUNT of a DOM register (R30). -/
def domCount (w : Word) : Nat := Word.bits w 23 23
/-- INDEX of a DOM register (R30). -/
def domIndex (w : Word) : Nat := Word.bits w 0 23
/-- DOM register of a level (R30). -/
def Core.domOf (k : Core) (l : Nat) : Word := k.dom[l % 4]'(Nat.mod_lt _ (by decide))
/-- The arrivals of a strand's present superstep at a level (R46). -/
def State.arrivalsAt (s : State) (c : CoreId) (st : StrandId) (l : Nat) : List Arrival :=
  let n := (s.strand c st).supersteps[l % 4]'(Nat.mod_lt _ (by decide)) + 1
  let g := domGid ((s.core c).domOf l)
  s.arrivals.filter fun a => a.lvl == l && a.gid == g && a.step == n && (decide (1 < l) || a.bid == s.bidOf c)

/-! ### Clocks and the calendar -/

/-- The clock that times a strand: domain time at user level, core cycles at system level (R349). -/
def State.clock (s : State) (c : CoreId) (st : StrandId) : Clock :=
  if (s.strand c st).level then .cyc c else .dt (s.bidOf c)
/-- The reading of a clock. -/
def State.read (s : State) : Clock → Nat
  | .hc => s.hc
  | .dt bid => match s.binding bid with | some b => b.dt | none => 0
  | .cyc c => (s.core c).cyc
/-- The present cycle of a strand, on its clock. -/
def State.now (s : State) (c : CoreId) (st : StrandId) : Nat := s.read (s.clock c st)

/-- Puts work into the calendar. -/
def State.post (s : State) (k : Clock) (due prio : Nat) (w : Work) : State :=
  { s with cal := ⟨k, due, prio, s.order, w⟩ :: s.cal, order := s.order + 1 }
/-- Puts work into the calendar, due a number of cycles from now on the strand's clock. -/
def State.later (s : State) (c : CoreId) (st : StrandId) (d prio : Nat) (w : Work) : State :=
  s.post (s.clock c st) (s.now c st + d) prio w
/-- Puts work into the calendar, due a number of cycles from now on a clock. -/
def State.laterOn (s : State) (k : Clock) (d prio : Nat) (w : Work) : State := s.post k (s.read k + d) prio w
/-- Puts an item back, due one cycle later at the same priority (R74). -/
def State.retry (s : State) (d : Due) : State := { s with cal := { d with due := d.due + 1 } :: s.cal }
/-- The next free value's index, and the state that has used it (log entry 4). -/
def State.draw (s : State) : Nat × State := (s.choice, { s with choice := s.choice + 1 })
/-- Puts work into the calendar at an HC tick that the manual does not expose (log entry 4). -/
def State.sometime (s : State) (w : Work) (prio : Nat) : State :=
  let (n, s) := s.draw
  s.post .hc (s.hc + 1 + Config.delay n) prio w

/-- Items at or above this priority perform after the strands have issued in a cycle: register writes, pushes, completions.
Items below it are bank accesses and stream reads, which no issue of the cycle can see (R18, R38, R74, log entry 1). -/
def effects : Nat := 2 ^ 132
/-- The priority of a bank access of a class of R74, with its order within the class. -/
def bankPrio (cls minor : Nat) : Nat := cls * 2 ^ 128 + minor
/-- The priority of a register write: by strand, then by issue order (R18, R163, R215). -/
def writePrio (st : StrandId) (ord : Nat) : Nat := 2 ^ 138 + st.num.val * 2 ^ 133 + ord
/-- The priority of effects on system registers, before flags of the same cycle (R71). -/
def sysPrio : Nat := effects + 1
/-- The priority of pushes and completions, after the register writes. -/
def latePrio : Nat := 2 ^ 140

/-- Queued records are tested again after a semaphore update, at a tick that is not exposed (R313). -/
def State.retestRecords (s : State) : State := if s.lib.records.isEmpty then s else s.sometime (.ev .eligibilityTest) latePrio

/-! ### Registers -/

/-- Reads an x register at the strand's level; x0 and xs0 read as zero (R17, R340). -/
def Strand.rx (t : Strand) (r : XReg) : Word := if r = 0 then 0 else if t.level then t.xs[r.toNat] else t.x[r.toNat]
/-- Writes bits of an x register of a bank; writes to x0 are discarded (R17, R340). -/
def Strand.wx (t : Strand) (sys : Bool) (r : XReg) (v : Word) : Strand :=
  if r = 0 then t else if sys then { t with xs := t.xs.set r.toNat v } else { t with x := t.x.set r.toNat v }
/-- Reads an x register of a strand. -/
def State.x (s : State) (c : CoreId) (st : StrandId) (r : XReg) : Word := (s.strand c st).rx r
/-- Reads a mask register; k0 reads as all ones (R17). -/
def Core.rk (k : Core) (r : KReg) : MaskData := if r = 0 then BitVec.allOnes 256 else k.k[r.toNat]
/-- Reads a vector register. -/
def Core.rv (k : Core) (r : VReg) : VecData := k.v[r.toNat]
/-- Reads a stream register. -/
def Core.rq (k : Core) (r : QReg) : Desc := k.q[r.toNat]
/-- The 256 bits of a descriptor, W0 lowest (R85). -/
def Desc.toBits (d : Desc) : BitVec 256 := d.w3 ++ d.w2 ++ d.w1 ++ d.w0
/-- A descriptor of its bits. -/
def Desc.ofBits (b : BitVec 256) : Desc :=
  ⟨b.extractLsb' 0 64, b.extractLsb' 64 64, b.extractLsb' 128 64, b.extractLsb' 192 64⟩
/-- Writes the masked bits of a value. -/
def merge {n : Nat} (old new mask : BitVec n) : BitVec n := (old &&& ~~~mask) ||| (new &&& mask)

/-- The stochastic roundings of a result, in order, each with the next word of its lane's generator: the core with the generators as they
are then, and the result rounded (R65, R66). -/
def Core.roundStoch (k : Core) (r : Result) : Core × Result :=
  r.stoch.foldl (fun (p : Core × Result) (e : Stoch) =>
    let i : Fin 256 := ⟨e.width * e.elem / 8 % 256, Nat.mod_lt _ (by decide)⟩
    let g := xorshift p.1.gens[i.val]
    let o := if g.toNat < e.thr then e.up else e.down
    ({ p.1 with gens := p.1.gens.set i.val g },
     { p.2 with data := p.2.data ||| BitVec.ofNat 2048 ((o.1 % 2 ^ e.width) <<< (e.width * e.elem)), flags := p.2.flags ||| o.2 }))
    (k, { r with stoch := [] })
/-- The results of a list rounded, in its order: a result that is captured or saved is rounded then (R343, R359). -/
def Core.roundFlights (k : Core) (fs : List Flight) : Core × List Flight :=
  fs.foldl (fun (p : Core × List Flight) (f : Flight) =>
    let (k, r) := p.1.roundStoch f.res
    (k, p.2 ++ [{ f with res := r }])) (k, [])

/-- The 64-bit words of a vector register that a write replaces whole, as `Core.badV` numbers them (R385). -/
def wholeWords (d : VReg) (mask : VecData) : List Nat :=
  ((List.range 32).filter fun i => mask.extractLsb' (64 * i) 64 == BitVec.allOnes 64).map (32 * d.toNat + ·)
/-- Places of a store that have been written whole hold no error any more (R385). -/
def Core.heal (k : Core) (store : Fin 9) (ps : List Nat) : Core :=
  if k.badAcc.isEmpty && k.badV.isEmpty && k.corr.isEmpty then k
  else
    let left (l : List Nat) (n : Fin 9) : List Nat := if n = store then l.filter fun p => !ps.contains p else l
    { k with badAcc := left k.badAcc 1, badV := left k.badV 3, corr := k.corr.filter fun e => !(e.1 == store && ps.contains e.2) }
/-- Writes the destination of a result: the bits its mask names; x0 and k0 discard it (R17, R18, R213). -/
def Core.writeReg (k : Core) (st : StrandId) (r : Result) : Core :=
  match r.target with
  | .none => k
  | .x sys d =>
    let t := k.strand st
    let old := if sys then t.xs[d.toNat] else t.x[d.toNat]
    k.setStrand st (t.wx sys d (merge old (r.data.setWidth 64) (r.mask.setWidth 64)))
  | .v d => { k.heal 3 (wholeWords d r.mask) with v := k.v.set d.toNat (merge k.v[d.toNat] r.data r.mask) }
  | .k d => if d = 0 then k else { k with k := k.k.set d.toNat (merge k.k[d.toNat] (r.data.setWidth 256) (r.mask.setWidth 256)) }
  | .q d => { k with q := k.q.set d.toNat (.ofBits (merge k.q[d.toNat].toBits (r.data.setWidth 256) (r.mask.setWidth 256))) }

/-- Sets sticky flags of a strand's FCSR (R70, R71). -/
def Strand.flag (t : Strand) (f : BitVec 6) : Strand := { t with fcsr := t.fcsr ||| f.setWidth 64 }

/-- Flags raised in the present cycle outside the register writes: they are set in its effects, after any write of FCSR (R71). -/
def State.raise (s : State) (c : CoreId) (st : StrandId) (f : BitVec 6) : State :=
  if f = 0 then s
  else s.post .hc s.hc latePrio (.ev (.resultWrite c st
    { target := .none, data := 0, mask := 0, flags := f, pushP := false, pushN := false, poison := none, pos := 0, ord := 0 }))

/-! ### Tokens (R37-R40) -/

/-- The FIFO into which a strand pushes: 2·strand, plus 1 for next (R16). -/
def pushFifo (st : StrandId) (next : Bool) : Fin 8 := ⟨2 * st.num.val + next.toNat, by cases st <;> cases next <;> decide⟩
/-- The FIFO from which a strand pops: from prev, the one its previous strand pushes to next (R16). -/
def popFifo (st : StrandId) (next : Bool) : Fin 8 := if next then pushFifo st.next false else pushFifo st.prev true
/-- The strand that pushes into a FIFO. -/
def fifoPusher (f : Fin 8) : StrandId := .ofNum ⟨f.val / 2, by omega⟩
/-- The strand that pops from a FIFO. -/
def fifoPopper (f : Fin 8) : StrandId := if f.val % 2 = 0 then (fifoPusher f).prev else (fifoPusher f).next
/-- The name of a FIFO in a stall record: 4·pusher + popper (log entry 9). -/
def fifoName (f : Fin 8) : Nat := 4 * (fifoPusher f).num.val + (fifoPopper f).num.val

/-- A FIFO of a core. -/
def Core.fifo (k : Core) (f : Fin 8) : Fifo := k.fifos[f.val]
/-- Changes a FIFO. -/
def Core.updFifo (k : Core) (f : Fin 8) (g : Fifo → Fifo) : Core := { k with fifos := k.fifos.set f.val (g (k.fifo f)) }
/-- True when `n` tokens stand in the FIFO at the start of the cycle (R38). -/
def Fifo.has (f : Fifo) (n : Nat) : Bool := decide (n ≤ f.toks.length)
/-- True when `n` slots are free and unreserved at the start of the cycle (R39). -/
def Fifo.room (f : Fifo) (n : Nat) : Bool := decide (f.toks.length + f.popped + f.resv + n ≤ 15)
/-- Pops tokens, oldest first. -/
def Fifo.pop (f : Fifo) (n : Nat) : Fifo := { f with toks := f.toks.drop n, popped := f.popped + n }
/-- Reserves slots (R39). -/
def Fifo.reserve (f : Fifo) (n : Nat) : Fifo := { f with resv := f.resv + n }
/-- Releases reserved slots (R40). -/
def Fifo.release (f : Fifo) (n : Nat) : Fifo := { f with resv := f.resv - n }
/-- Turns reserved slots into tokens (R39). -/
def Fifo.push (f : Fifo) (n : Nat) (t : Token) : Fifo :=
  { f with toks := f.toks ++ List.replicate n t, resv := f.resv - n }
/-- Gives popped tokens back in their order (R40). Where the pusher has filled the FIFO meanwhile, the count passes 15, and no push finds room until it
has fallen again (DESIGN CHOICE beside R37, log entry 62). -/
def Fifo.restore (f : Fifo) (ts : List Token) : Fifo := { f with toks := ts ++ f.toks, popped := f.popped - ts.length }

/-- An access of a core has still to perform at some scope. -/
def Core.outstanding (k : Core) (p : StrandId × Nat) : Bool := (k.strand p.1).outs.any fun o => o.seq == p.2
/-- What a token that a strand pushes now orders: its accesses that are complete at core scope and those ordered before it by the tokens
it popped; those complete at every scope need no record (R104). -/
def Core.ordered (k : Core) (st : StrandId) : List (StrandId × Nat) :=
  ((k.strand st).seen.filter k.outstanding ++ ((k.strand st).outs.filter (·.core)).map fun o => (st, o.seq)).dedup
/-- The token that a strand pushes now (R47, R104). -/
def Core.token (k : Core) (st : StrandId) : Token := ⟨k.ordered st, (k.strand st).due.map (·.2)⟩

/-- Pushes `p` tokens to prev and `n` to next, each into a slot reserved before (R39, R40). -/
def State.push (s : State) (c : CoreId) (st : StrandId) (p n : Nat) : State :=
  s.updCore c fun k =>
    let t := k.token st
    (k.updFifo (pushFifo st false) (·.push p t)).updFifo (pushFifo st true) (·.push n t)

/-! ### Accesses, fences and holds (R102-R106) -/

/-- True when the accesses that a need names have performed; `ls` leaves the strand's LS accesses aside (R106). -/
def State.metBut (s : State) (ls : Bool) (n : Need) : Bool :=
  (s.strand n.core n.strand).outs.all fun o =>
    decide (n.bound ≤ o.seq) || decide (o.seq < n.lo) || (n.loads && !o.load) || (!n.wide && o.core) || (ls && o.unit == .ls n.core)
/-- True when the accesses that a need names have performed. -/
def State.met (s : State) (n : Need) : Bool := s.metBut false n
/-- True when a hold has ended: its mark is paired and every need is met. -/
def State.released (s : State) (h : Hold) : Bool := h.mark.isNone && h.needs.all s.met
/-- True when a hold has ended for an access, which is an LS access of the core when `ls` (R106). -/
def State.passes (s : State) (h : Hold) (ls : Bool) : Bool := h.mark.isNone && h.needs.all (s.metBut (ls && h.lsFree))
/-- True when the holds of the strand keep access number `seq` in its memory queue. -/
def State.isHeld (s : State) (c : CoreId) (st : StrandId) (seq : Nat) (storing ls : Bool) : Bool :=
  (s.strand c st).holds.any (fun h => decide (h.start ≤ seq) && (storing || !h.stores) && !s.passes h ls) ||
  (s.strand c st).due.any fun d => decide (d.1 ≤ seq) && !s.met d.2
/-- The needs of everything ordered before this point of the strand: its own accesses and, by tokens, others' (R104, R106). -/
def State.before (s : State) (c : CoreId) (st : StrandId) (sc : Scope) (loads : Bool) : List Need :=
  let t := s.strand c st
  let w := decide (sc ≠ .core)
  (⟨c, st, 0, t.seq, w, loads⟩ : Need) :: (t.seen.map fun p => (⟨c, p.1, p.2, p.2 + 1, w, false⟩ : Need)) ++ t.due.map (·.2)
/-- Adds a hold on the accesses that the strand issues from now on. -/
def State.addHold (s : State) (c : CoreId) (st : StrandId) (h : Hold) : State :=
  s.updStrand c st fun t => { t with holds := t.holds ++ [h] }
/-- A fence's hold, of the instruction that issued last (R106). -/
def State.fence (s : State) (c : CoreId) (st : StrandId) (form : FenceForm) (sc : Scope) (p n : Bool) : State :=
  let needs := s.before c st sc (form == .acq)
  let t := s.strand c st
  (s.addHold c st ⟨t.ord - 1, t.seq, form == .rel, needs, none, p, n, sc == .core⟩).later c st 0 latePrio (.holds c st)
/-- What an access of a core samples now: ranges of its address space (R330). -/
def State.sampling (s : State) (asid : Nat) (rs : List (Nat × Nat)) : List Sample :=
  rs.map fun r => ⟨asid, r.1, r.2, s.xlate.qcur, s.order⟩
/-- Takes the next access number of a strand and records the access as outstanding, with the GM ranges that it samples. -/
def State.access (s : State) (c : CoreId) (st : StrandId) (load : Bool) (unit : MemUnit) (vas : List (Nat × Nat)) : State :=
  let sm := s.sampling (s.core c).asid vas
  s.updStrand c st fun t => { t with seq := t.seq + 1, outs := t.outs ++ [⟨t.seq, load, false, unit, sm⟩] }
/-- An access has performed at core scope. -/
def State.coreDone (s : State) (c : CoreId) (st : StrandId) (seq : Nat) : State :=
  s.updStrand c st fun t => { t with outs := t.outs.map fun o => if o.seq = seq then { o with core := true } else o }
/-- An access has performed at every scope. -/
def State.accessDone (s : State) (c : CoreId) (st : StrandId) (seq : Nat) : State :=
  s.updStrand c st fun t => { t with outs := t.outs.filter fun o => o.seq != seq }
/-- Judges the holds of a strand: those that have ended make their pushes and go (R105, R106). -/
def State.judgeHolds (s : State) (c : CoreId) (st : StrandId) : State :=
  let hs := (s.strand c st).holds
  let s' := (hs.filter s.released).foldl (fun u h => u.push c st h.pushP.toNat h.pushN.toNat) s
  let rest := hs.filter fun h => !s.released h
  let s' := s'.updStrand c st fun t => { t with holds := rest, due := t.due.filter fun d => !s.met d.2 }
  if rest.isEmpty then s' else s'.later c st 1 latePrio (.holds c st)

/-! ### Monitors (R387, R388) -/

/-- The bin of a value (R387). -/
def capBin (v : Nat) : Nat := min 15 (if v < 2 then 0 else v.log2)
/-- Records a value in a monitor block. -/
def Cap.record (k : Cap) (v : Nat) : Cap :=
  let v' := min v (2 ^ 32 - 1)
  let w : Word32 := BitVec.ofNat 32 v'
  { k with mn := if w.ult k.mn then w else k.mn, mx := if k.mx.ult w then w else k.mx
           bins := vmod k.bins ⟨capBin v' % 16, Nat.mod_lt _ (by decide)⟩ fun b => if b = BitVec.allOnes 32 then b else b + 1 }
/-- The Librarian learns at once that an interrupt to a strand is discarded (R339, R364). -/
def State.discarded (s : State) (c : CoreId) (st : StrandId) (payload : Word) : State :=
  { s with lib := { s.lib with discards := s.lib.discards ++ [(c, st, payload)] } }
/-- A strand's pending interrupt is discarded (R339, R364). -/
def State.dropInterrupt (s : State) (c : CoreId) (st : StrandId) : State :=
  match (s.strand c st).ipend with
  | some (_, _, p) => (s.discarded c st p).updStrand c st fun t => { t with ipend := none }
  | none => s
/-- The binding of a core has ended, although its end may not have been reported (R364). -/
def State.ended (s : State) (c : CoreId) : Bool := match s.bindingOf c with | some b => b.status.isSome | none => true
/-- An interrupt reaches a strand: it waits there, merged with one that is pending; one to a strand that has retired, or whose binding has ended, is
discarded (R339, R364). -/
def State.interruptTo (s : State) (c : CoreId) (st : StrandId) (src : Bool) (payload : Word) : State :=
  if (s.strand c st).run ≠ .running || s.ended c then s.discarded c st payload
  else
    let at' := s.hc
    s.updStrand c st fun t => { t with ipend := match t.ipend with
      | some (a, src', p) => some (a, src', p ||| payload)
      | none => some (at', src, payload) }
/-- A value of a monitored quantity: every block of the core that selects it records it, and may request an interrupt whose
payload the manual does not give (R387, log entry 4). -/
def State.capture (s : State) (c : CoreId) (sel : Nat) (st : Option StrandId) (v : Nat) : State :=
  (List.finRange 4).foldl (fun u n =>
    let k := (u.core c).caps[n.val]
    let str := StrandId.ofNum ⟨k.cfg.toNat / 256 % 4, Nat.mod_lt _ (by decide)⟩
    if Word.bits k.cfg 0 4 = sel ∧ (st = none ∨ st = some str) then
      let u := u.updCore c fun m => { m with caps := m.caps.set n.val (k.record v) }
      if k.cfg.getLsbD 31 ∧ Word.bits k.cfg 32 32 ≤ v then
        let (i, u) := u.draw
        u.interruptTo c str true (Config.datum i)
      else u
    else u) s

/-! ### Where HBM addresses lie (R82-R84) -/

/-- Where a physical address lies: channel and offset in the channel's frame (R82, R83). -/
structure HbmPlace where
  channel : Nat
  frame : Nat
  ofs : Nat
  deriving DecidableEq, Repr

/-- The channel and frame offset of a physical address; stripes from 510 - P are per-channel (R82, R83). -/
def hbmPlace (p pa : Nat) : HbmPlace :=
  let f := pa / 2 ^ 30
  let o := pa % 2 ^ 30
  if f < 510 - p then
    let g := o / 256
    let q := g / 384
    let h := (q ^^^ (q / 128)) % 384
    ⟨(g % 384 + h) % 384, f, 256 * q + o % 256⟩
  else ⟨o / 2 ^ 21, f, o % 2 ^ 21⟩
/-- The channel of a physical address as a stoker. -/
def channelOf (p pa : Nat) : Fin 384 := ⟨(hbmPlace p pa).channel % 384, Nat.mod_lt _ (by decide)⟩
/-- The bank (pseudo-channel, bank group, bank) of a frame offset (R84). -/
def hbmBank (ofs : Nat) : Nat := ofs / 2048 % 32
/-- The DRAM row of a physical address, numbered over the device: channel, bank and row (R82, R84). -/
def hbmRow (p pa : Nat) : Nat :=
  let h := hbmPlace p pa
  (h.channel * 32 + hbmBank h.ofs) * 65536 + 32 * h.frame + h.ofs / 65536 % 32

/-- A main-die write to rows that a group has shadowed, running or saved by a pre-emption, performs on the home row and marks the group
conflicted (R265, R361). -/
def State.conflict (s : State) (lo n : Nat) : State :=
  let p := s.boot.stripesP
  let rows := ((List.range (n / 2048 + 2)).map fun i => hbmRow p (min (lo + 2048 * i) (lo + n - 1))).dedup
  let mark (g : Group) : Group := if g.rows.any fun r => rows.contains r then { g with conflicted := true } else g
  { s with stokers := s.stokers.map fun t =>
      if t.group.isNone ∧ t.saved.isNone then t else { t with group := t.group.map mark, saved := t.saved.map mark } }

/-! ### Waiter queues of barrier objects and wait words (R198) -/

/-- Where an object lies. -/
structure Place where
  unit : MemUnit
  addr : Nat
  deriving DecidableEq, Repr

/-- The bytes at a unit. -/
def State.unitMem (s : State) : MemUnit → Mem
  | .ls c => (s.core c).ls
  | .gm => s.gm
  | .xm _ => []
/-- Changes the bytes at a unit; another device's bytes are not part of this one (log entry 10). -/
def State.setUnitMem (s : State) (u : MemUnit) (m : Mem) : State :=
  match u with
  | .ls c => s.updCore c fun k => { k with ls := m }
  | .gm => { s with gm := m }
  | .xm _ => s
/-- Reads a 64-bit word at a place. -/
def State.word (s : State) (p : Place) (ofs : Nat) : Word := (s.unitMem p.unit).word (p.addr + ofs)
/-- Writes a 64-bit word of an object at a place (R198, R265). -/
def State.setWordAt (s : State) (p : Place) (ofs : Nat) (w : Word) : State :=
  let s := s.setUnitMem p.unit ((s.unitMem p.unit).setWord (p.addr + ofs) w)
  match p.unit with
  | .gm => s.conflict (p.addr + ofs) 8
  | _ => s

/-- The waiter id of a strand (R198). -/
def waiterId (c : CoreId) (st : StrandId) : Nat := 1 + 4 * c.val + st.num.val
/-- The strand of a waiter id. -/
def waiterOf (id : Nat) : CoreId × StrandId := (coreId ((id - 1) / 4), .ofNum ⟨(id - 1) % 4, Nat.mod_lt _ (by decide)⟩)
/-- The place of a strand's waiter record (R75). -/
def waiterRec (c : CoreId) (st : StrandId) : Place := ⟨.ls c, reservedCell + 16 * st.num.val⟩
/-- HEAD of a queue word (R198). -/
def qHead (w : Word) : Nat := Word.bits w 0 16
/-- TAIL of a queue word. -/
def qTail (w : Word) : Nat := Word.bits w 16 16
/-- The queue word of HEAD and TAIL. -/
def qWord (head tail : Nat) : Word := BitVec.ofNat 64 (head % 65536 + 65536 * (tail % 65536))

/-- The waiters of a queue in order, as a release walks it: an id above 1,024 or an unlinked record ends it (R198). -/
def State.walkQueue (s : State) : Nat → Nat → List Nat
  | 0, _ => []
  | fuel + 1, id =>
    if id = 0 ∨ id > 1024 then []
    else
      let (c, st) := waiterOf id
      let w := s.word (waiterRec c st) 0
      if w.getLsbD 16 then id :: s.walkQueue fuel (Word.bits w 0 16) else []
/-- The waiters queued at an object whose queue word lies at an offset. -/
def State.waiters (s : State) (p : Place) (ofs : Nat) : List Nat := s.walkQueue 1024 (qHead (s.word p ofs))
/-- Writes a waiter record (R198). -/
def State.setRecord (s : State) (id : Nat) (cond : Nat) (linked : Bool) (next : Nat) (opnd : Word) : State :=
  let (c, st) := waiterOf id
  let r := waiterRec c st
  (s.setWordAt r 0 (BitVec.ofNat 64 (next % 65536 + 65536 * linked.toNat + 131072 * (cond % 8)))).setWordAt r 8 opnd
/-- Links a waiter at TAIL (R200). -/
def State.link (s : State) (p : Place) (ofs id cond : Nat) (opnd : Word) : State :=
  let w := s.word p ofs
  let s := s.setRecord id cond true 0 opnd
  if qHead w = 0 then s.setWordAt p ofs (qWord id id)
  else
    let (c, st) := waiterOf (qTail w)
    let r := waiterRec c st
    let old := s.word r 0
    (s.setWordAt r 0 ((old &&& ~~~(0xFFFF : Word)) ||| BitVec.ofNat 64 id)).setWordAt p ofs (qWord (qHead w) id)
/-- Rewrites the queue of an object to the waiters that remain, clearing LINKED of those removed. -/
def State.requeue (s : State) (p : Place) (ofs : Nat) (keep drop : List Nat) : State :=
  let clear (u : State) (id : Nat) : State :=
    let (c, st) := waiterOf id
    let r := waiterRec c st
    u.setWordAt r 0 (u.word r 0 &&& ~~~(0x1FFFF : Word))
  let s := drop.foldl clear s
  let rec chain (u : State) : List Nat → State
    | [] => u
    | [id] => relink u id 0
    | id :: nxt :: rest => chain (relink u id nxt) (nxt :: rest)
  (chain s keep).setWordAt p ofs (match keep.head?, keep.getLast? with | some h, some t => qWord h t | _, _ => 0)
where
  /-- Sets NEXT of a waiter's record. -/
  relink (u : State) (id nxt : Nat) : State :=
    let (c, st) := waiterOf id
    let r := waiterRec c st
    u.setWordAt r 0 ((u.word r 0 &&& ~~~(0xFFFF : Word)) ||| BitVec.ofNat 64 nxt)

/-! ### Freezing (R348, R352) -/

/-- A fault on a member at its present DT: the binding's horizon is the earliest detection's cycle + 32 (R348). -/
def State.freeze (s : State) (bid : Nat) : State :=
  match s.binding bid with
  | none => s
  | some b =>
    match b.horizon with
    | some _ => s.updBinding bid fun b => { b with faulted := true }
    | none => s.updBinding bid fun b => { b with faulted := true, horizon := some (b.dt + 32) }

/-! ### Events and error records (R374, R386) -/

/-- Sends an event to the host: a posted receive buffer takes it; otherwise up to 1,024 are held and the rest are counted
and dropped (R374). -/
def State.event (s : State) (kind : Nat) (words : List Word) : State :=
  let h := s.host
  match (List.finRange 4).find? fun p => decide (0 < h.posted[p.val]) with
  | some p => { s with host := { h with posted := vmod h.posted p (· - 1), sent := h.sent ++ [(p, ⟨kind, words⟩)] } }
  | none =>
  if h.held.length < 1024 then { s with host := { h with held := h.held ++ [⟨kind, words⟩] } }
  else { s with host := { h with dropped := h.dropped + 1 } }
/-- Logs an uncorrectable error: an error record, the count, and an event that carries the record (R386, R389). -/
def State.errorRecord (s : State) (src : Fin 9) (addr bid unit : Nat) : State :=
  let s := { s with lib := { s.lib with errors := s.lib.errors ++ [({ src := src.val, addr := addr, hc := s.hc, bid := bid, unit := unit } : ErrRec)] }
                    life := { s.life with uncorrected := vmod s.life.uncorrected src (· + 1) } }
  s.event 6 [BitVec.ofNat 64 (src.val * 2 ^ 56 + 2 ^ 48), BitVec.ofNat 64 addr, BitVec.ofNat 64 s.hc, BitVec.ofNat 64 (bid * 2 ^ 48 + unit)]

/-! ### Taking an exception (R336-R346) -/

/-- What a trap records beside the strand's own state (R336, R342). -/
structure TrapInfo where
  cause : Nat
  epc : Nat
  i0 : Word := 0
  i1 : Word := 0
  async : Bool := false
  migr : Bool := false
  deriving DecidableEq, Repr

/-- The access that a strand's instruction has under way and that has not performed is dropped: a hold that a trap ends leaves it no effect
(R41, R182, R205). -/
def State.recall (s : State) (c : CoreId) (st : StrandId) (ord : Nat) : State :=
  let mine (w : Work) : Bool := match w with
    | .ev (.storePerform a) => a.core == c && a.strand == st && a.ord == ord
    | .farRead d o n _ _ _ _ _ => d == c && o == st && n == ord
    | .queued _ d o n _ _ _ _ _ _ _ => d == c && o == st && n == ord
    | _ => false
  { s with cal := s.cal.filter fun d => !mine d.work }
/-- Drops the wait after issue whose instruction a trap ends: its effect is undone, its tokens go back, its slots are
released, its waiter is unlinked; a dsync keeps its arrival (R40, R46, R200, R337). Answers the state with the strand
standing at the instruction again. -/
def State.abandon (s : State) (c : CoreId) (st : StrandId) : State :=
  match (s.strand c st).wait with
  | none => s
  | some w =>
    match w.why with
    | .idle => s.updStrand c st fun t => { t with wait := none }
    | _ =>
      let s := match w.why with
        | .held _ _ => s.recall c st w.ord
        | .unit 2 _ =>
          -- an nlaunch held by its walk is taken out of its queue again, a tlbinv in progress is given up (R182, R185, R272)
          let s : State := { s with xlate := { s.xlate with invals := s.xlate.invals.filter fun i => !(i.issuer == some (c, st) && i.id == w.ord) } }
          s.updCore c fun k => { k with hobs := k.hobs.map fun (b : Hob) => { b with cmds := b.cmds.filter fun m => match m.op with
            | .nlaunch _ _ => m.started || m.pos != w.pos || m.id + 1 != b.next
            | _ => true } }
        | .object _ _ _ _ _ =>
          if w.linked then
            let p : Place := ⟨w.unit, w.pa⟩
            let ofs := if w.cond = 9 then 24 else 8
            let ws := s.waiters p ofs
            s.requeue p ofs (ws.filter (· ≠ waiterId c st)) [waiterId c st]
          else s
        | _ => s
      let s := s.updCore c fun k => w.pops.foldr (fun (f, tok) k => k.updFifo f (·.restore [tok])) k
      let s := s.updCore c fun k =>
        (k.updFifo (pushFifo st false) (·.release w.pushP.toNat)).updFifo (pushFifo st true) (·.release w.pushN.toNat)
      s.updStrand c st fun t =>
        { t with wait := none, pos := w.pos, reach := .seq, prev := w.prev, loops := w.loops
                 holds := t.holds.filter fun h => h.id != w.ord
                 flights := t.flights.filter fun f => f.ord != w.ord
                 outs := t.outs.filter fun o => o.seq != w.seq
                 queue := t.queue.filter (· != w.seq)
                 arrived := match w.why with | .dsync _ => true | _ => t.arrived }

/-- The strand's results that would be written after T, as latches in the order of their writes (R343, R362). -/
def State.capturable (s : State) (c : CoreId) (st : StrandId) : List Flight :=
  let t := s.strand c st
  let dt := s.dt c
  let cyc := (s.core c).cyc
  let w (f : Flight) : Nat := if f.sys then dt + (f.w - cyc) else f.w
  let fs := (t.flights.filter fun f => decide (dt < w f)).map fun f => { f with w := w f, sys := false }
  fs.mergeSort fun a b => a.w < b.w || (a.w == b.w && a.ord ≤ b.ord)

/-- A trap cause at system level: the strand stops issuing, the binding freezes, and the Librarian ends it with FAULT at a time that is not exposed
(R340). -/
def State.doubleTrap (s : State) (c : CoreId) (st : StrandId) : State :=
  ((s.updStrand c st fun t => { t with run := .stopped }).freeze (s.bidOf c)).sometime (.ev (.bindingFault (s.bidOf c))) latePrio

/-- A cause that ends the binding, or aborts the run of a commit group: any but INTR, SWTRAP, FLUEDEG, and the translation faults for which the
handler waits (R347). -/
def TrapInfo.fatal (i : TrapInfo) : Bool :=
  match i.cause with
  | 0 | 1 | 14 => false
  | 6 => !i.migr && i.i1.toNat % 4 != 3
  | _ => true
/-- What the firmware has the Librarian do for a cause, at a time that is not exposed: the event of a software trap with its CODE and the user's x1,
the pre-emption of a binding whose flue is degraded, the end of a binding (R347, log entry 56). -/
def State.dispose (s : State) (c : CoreId) (st : StrandId) (i : TrapInfo) : State :=
  if i.fatal then s.sometime (.ev (.bindingFault (s.bidOf c))) latePrio
  else if i.cause = 14 then s.sometime (.ev (.preemptRequest (s.bidOf c))) latePrio
  else if i.cause = 1 then s.sometime (.notify 5 [i.i0, (s.strand c st).x[1]]) latePrio
  else s

/-- Takes a trap at user level in the present DT cycle T (R337). -/
def State.enterTrap (s : State) (c : CoreId) (st : StrandId) (i : TrapInfo) : State :=
  let p := (s.core c).roundFlights (s.capturable c st)
  let fs := p.2
  let s := s.updCore c fun _ => p.1
  let dt := s.dt c
  let cyc := (s.core c).cyc
  let stopping := match s.bindingOf c with | some b => b.horizon.isSome || b.pace != Pace.running | none => false
  s.updStrand c st fun t =>
    let p1 := match t.prev with | some p => p + 1 | none => 0
    let ls := fs.map fun f => (⟨f.w + 1 - p1, f⟩ : Latch)
    { t with
      latches := t.latches ++ ls
      flights := t.flights.filter fun f => !(fs.any fun g => g.ord == f.ord)
      tcause := BitVec.ofNat 64 ((t.latches ++ ls).length * 2 ^ 16 + stopping.toNat * 2 ^ 11 + t.arrived.toNat * 2 ^ 10
        + i.migr.toNat * 2 ^ 9 + i.async.toNat * 2 ^ 8 + i.cause)
      tepc := BitVec.ofNat 64 (i.epc % 2 ^ 15)
      tinfo0 := i.i0
      tinfo1 := i.i1
      tdt := BitVec.ofNat 64 (dt % 2 ^ 48)
      tprev := match t.prev with | some p => BitVec.ofNat 64 (p % 2 ^ 48) | none => BitVec.ofNat 64 (2 ^ 48 - 1)
      level := true
      pos := 16 * (64 * st.num.val + i.cause)
      reach := .jump
      prev := none
      base := cyc + 1
      blocked := none
      trapDue := none }

/-- An interrupt is delivered to a strand that idles at system level: the trap in progress becomes a frame, the results in flight become
latches that count the core's own cycles, and the strand enters its interrupt handler, which returns to the instruction after the idle
(R187, R337, R339, R349, log entry 34). -/
def State.enterNested (s : State) (c : CoreId) (st : StrandId) (src : Bool) (payload : Word) : State :=
  let t := s.strand c st
  let dt := s.dt c
  let cyc := (s.core c).cyc
  let w (f : Flight) : Nat := if f.sys then f.w else cyc + (f.w - dt)
  let fs := ((t.flights.filter fun f => decide (cyc < w f)).map fun f => { f with w := w f, sys := true }).mergeSort
    fun a b => a.w < b.w || (a.w == b.w && a.ord ≤ b.ord)
  let (k, fs) := (s.core c).roundFlights fs
  let stopping := match s.bindingOf c with | some b => b.horizon.isSome || b.pace != Pace.running | none => false
  (s.updCore c fun _ => k).updStrand c st fun t =>
    let p1 := match t.prev with | some p => p + 1 | none => 0
    { t with
      frames := ⟨t.tcause, t.tepc, t.tinfo0, t.tinfo1, t.tdt, t.tprev, t.tlsel, t.latches⟩ :: t.frames
      latches := fs.map fun f => ⟨f.w + 1 - p1, f⟩
      flights := t.flights.filter fun f => !(fs.any fun g => g.ord == f.ord)
      tcause := BitVec.ofNat 64 (fs.length * 2 ^ 16 + stopping.toNat * 2 ^ 11)
      tepc := BitVec.ofNat 64 (t.pos % 2 ^ 15)
      tinfo0 := BitVec.ofNat 64 src.toNat
      tinfo1 := payload
      tdt := BitVec.ofNat 64 (dt % 2 ^ 48)
      tprev := match t.prev with | some p => BitVec.ofNat 64 ((dt - (cyc - p)) % 2 ^ 48) | none => BitVec.ofNat 64 (2 ^ 48 - 1)
      pos := 16 * (64 * st.num.val)
      reach := .jump
      prev := none
      base := cyc + 1
      wait := none
      blocked := none
      ipend := none }

/-- A trap cause on a strand: the wait after issue that it ends is abandoned; at user level the trap is taken and disposed of, at system
level it is a double trap. An asynchronous cause returns to the next unissued instruction, which is that of the wait it ends
(R336, R337, R340). -/
def State.trap (s : State) (c : CoreId) (st : StrandId) (i : TrapInfo) : State :=
  if (s.strand c st).level then s.doubleTrap c st
  else
    let s := s.abandon c st
    (s.enterTrap c st (if i.async then { i with epc := (s.strand c st).pos } else i)).dispose c st i

/-- Returns to the handler whose idle an interrupt ended: its trap is the one in progress again, and the latches perform on the core's own
cycles (R173, R187, R349). -/
def State.returnNested (s : State) (c : CoreId) (st : StrandId) (r : Frame) (rest : List Frame) : State :=
  let t := s.strand c st
  let e := (s.core c).cyc
  let fs := t.latches.map fun l => { l.fl with w := e + l.r }
  let s := s.updStrand c st fun t =>
    { t with frames := rest, tcause := r.tcause, tepc := r.tepc, tinfo0 := r.tinfo0, tinfo1 := r.tinfo1, tdt := r.tdt, tprev := r.tprev
             tlsel := r.tlsel, latches := r.latches, flights := t.flights ++ fs, pos := t.tepc.toNat % 2 ^ 15, reach := .jump
             prev := some e, base := e + 1, blocked := none, wait := none }
  fs.foldl (fun u f => u.post (.cyc c) f.w (writePrio st f.ord) (.flight c st f.ord)) s
/-- Returns to user level from the trap at the present DT cycle e: position, level and latches come back, and each latch performs at
e + r (R173, R338, R343). -/
def State.returnUser (s : State) (c : CoreId) (st : StrandId) : State :=
  let t := s.strand c st
  let e := s.dt c
  let fs := t.latches.map fun l => { l.fl with w := e + l.r }
  let s := s.updStrand c st fun t =>
    { t with level := false, latches := [], flights := t.flights ++ fs, pos := t.tepc.toNat % 2 ^ 15, reach := .jump
             prev := some e, base := e + 1, blocked := none, wait := none }
  fs.foldl (fun u f => u.post (.dt (u.bidOf c)) f.w (writePrio st f.ord) (.ev (.latchReinject c st { f.res with ord := f.ord }))) s
/-- Returns from the innermost trap of a strand (R173). -/
def State.returnFrom (s : State) (c : CoreId) (st : StrandId) : State :=
  match (s.strand c st).frames with
  | [] => s.returnUser c st
  | r :: rest => s.returnNested c st r rest

/-! ### Results in flight (R163, R343, R344) -/

/-- A result that writes the whole of an x register. -/
def xResult (sys : Bool) (d : XReg) (v : Word) : Result :=
  { target := .x sys d, data := v.setWidth 2048, mask := lowMask 64, flags := 0, pushP := false, pushN := false, poison := none
    pos := 0, ord := 0 }
/-- Adds a result in flight of the strand's latest instruction, written `lat` cycles from now; when its data is ready its
write is posted. -/
def State.fly (s : State) (c : CoreId) (st : StrandId) (lat : Nat) (r : Result) (ready arith : Bool) : State :=
  let w := s.now c st + lat
  let s := s.updStrand c st fun t => { t with flights := t.flights ++ [⟨r.ord, w, r, ready, t.level, arith, []⟩] }
  if ready then s.post (s.clock c st) w (writePrio st r.ord) (.flight c st r.ord) else s
/-- The flight of an issue order. -/
def Strand.flight (t : Strand) (ord : Nat) : Option Flight := t.flights.find? fun f => f.ord == ord
/-- Changes a latch if it is that of an issue order. -/
def Latch.upd (ord : Nat) (g : Flight → Flight) (dr : Nat) (l : Latch) : Latch := if l.fl.ord = ord then { r := l.r + dr, fl := g l.fl } else l
/-- The latches of every trap in progress. -/
def Strand.allLatches (t : Strand) : List Latch := t.latches ++ t.frames.flatMap (·.latches)
/-- Changes the flight or latch of an issue order. -/
def Strand.updFlight (t : Strand) (ord : Nat) (g : Flight → Flight) (dr : Nat) : Strand :=
  { t with flights := t.flights.map fun f => if f.ord = ord then g f else f
           latches := t.latches.map (Latch.upd ord g dr)
           frames := t.frames.map fun r => { r with latches := r.latches.map (Latch.upd ord g dr) } }
/-- A result loses a bank cycle: its write moves one cycle on (R74, R343). -/
def State.slip (s : State) (c : CoreId) (st : StrandId) (ord : Nat) : State :=
  s.updStrand c st fun t => t.updFlight ord (fun f => { f with w := f.w + 1 }) 1
/-- The data of a result arrives; its write is posted at its cycle. -/
def State.arrive (s : State) (c : CoreId) (st : StrandId) (ord : Nat) (data : VecData) (flags : BitVec 6)
    (poison : Option (Fin 9 × Nat)) : State :=
  let s := s.updStrand c st fun t =>
    t.updFlight ord (fun f => { f with ready := true, res := { f.res with data := data, flags := flags, poison := poison } }) 0
  match (s.strand c st).flight ord with
  | none => s
  | some f => s.post (if f.sys then .cyc c else .dt (s.bidOf c)) f.w (writePrio st ord) (.flight c st ord)

/-- The pushes of an instruction whose effect is complete: made now, or handed to the hold of its own acquire (R40, R106, R180). -/
def State.pushFor (s : State) (c : CoreId) (st : StrandId) (ord : Nat) (p n : Bool) : State :=
  if !(p || n) then s
  else if (s.strand c st).holds.any fun h => h.id == ord && !s.released h then
    s.updStrand c st fun t =>
      { t with holds := t.holds.map fun h => if h.id = ord then { h with pushP := h.pushP || p, pushN := h.pushN || n } else h }
  else s.push c st p.toNat n.toNat
/-- A wait after issue completes: the strand may issue from the next cycle plus `extra`; the pushes are made; a dsync's arrival is used up, but a
handler's dsync leaves that of the dsync its trap ended (R40, R46, R182, R201, R338). The cycles waited are recorded for the monitors. -/
def State.endWait (s : State) (c : CoreId) (st : StrandId) (extra : Nat) : State :=
  match (s.strand c st).wait with
  | none => s
  | some w =>
    let now := s.now c st
    let s := s.updStrand c st fun t =>
      { t with wait := none, base := now + 1 + extra, arrived := (match w.why with | .dsync _ => t.arrived && t.level | _ => t.arrived) }
    let s := s.pushFor c st w.ord w.pushP w.pushN
    match w.why with
    | .idle | .dtime => s
    | .held _ _ => s.capture c 2 (some st) (now - w.start)
    | _ => s.capture c 1 (some st) (now - w.start)

end Sys2Proof.Machine
end

