-- ==== Sys2Proof/Machine/Translate.lean ====
section
/-! DEFINITION. Address translation: the walk, page attributes, TLBs, commit-group shadows and the physical layout of HBM
(R82-R84, R323-R335). -/

namespace Sys2Proof.Machine

/-! ### The walk (R323-R325) -/

/-- A leaf found by a walk: the entry, the size of its page in bits, and the entry's physical address. -/
structure Leaf where
  entry : Word
  bits : Nat
  place : Nat
  deriving DecidableEq, Repr

/-- NPA·2^8 of an entry (R324). -/
def npa (e : Word) : Nat := 256 * Word.bits e 8 32
/-- Entry bit V. -/
def eV (e : Word) : Bool := e.getLsbD 0
/-- Entry bit LEAF. -/
def eLeaf (e : Word) : Bool := e.getLsbD 1
/-- Entry bit W. -/
def eW (e : Word) : Bool := e.getLsbD 2
/-- Entry bit CC. -/
def eCC (e : Word) : Bool := e.getLsbD 3
/-- Entry bit PIN. -/
def ePin (e : Word) : Bool := e.getLsbD 4
/-- Entry bit SH. -/
def eSH (e : Word) : Bool := e.getLsbD 5

/-- Page size in bits of a leaf at a level (R323). -/
def pageBits : Nat → Nat
  | 1 => 30 | 2 => 21 | _ => 16
/-- The index of a level (R323). -/
def levelIndex (lvl va : Nat) : Nat :=
  if lvl = 0 then bitsAt va 39 9 else if lvl = 1 then bitsAt va 30 9 else if lvl = 2 then bitsAt va 21 9 else bitsAt va 16 5

/-- The walk from a level's table: the leaf, or the kind of the translation fault and the level reached (R325). `fuel` is the
number of levels left. -/
def walkFrom (m : Mem) (va : Nat) : Nat → Nat → Nat → Except (Nat × Nat) Leaf
  | 0, lvl, _ => .error (1, lvl - 1)
  | fuel + 1, lvl, table =>
    let place := table + 8 * levelIndex lvl va
    let e := m.word place
    if !eV e then .error (0, lvl)
    else if Word.bits e 40 16 ≠ 0 ∨ Word.bits e 6 2 ≠ 0 then .error (1, lvl)
    else if eLeaf e then
      if lvl = 0 ∨ npa e % 2 ^ pageBits lvl ≠ 0 ∨ (eCC e ∧ (lvl ≠ 2 ∨ !ePin e)) then .error (1, lvl)
      else .ok ⟨e, pageBits lvl, place⟩
    else if lvl = 3 ∨ Word.bits e 2 4 ≠ 0 then .error (1, lvl)
    else if npa e % (if lvl = 2 then 256 else 4096) ≠ 0 then .error (1, lvl)
    else walkFrom m va fuel (lvl + 1) (npa e)

/-- The level of a leaf's page size (R323). -/
def levelOf (bits : Nat) : Nat := if bits = 30 then 1 else if bits = 21 then 2 else 3

/-- The physical address of a leaf, or kind 1 when it breaks R82 (R325). -/
def leafPa (l : Leaf) (va : Nat) : Except (Nat × Nat) Nat :=
  let pa := npa l.entry + va % 2 ^ l.bits
  if pa % 2 ^ 30 ≥ 0x30000000 ∨ pa / 2 ^ 30 % 1024 ≥ 1022 then .error (1, levelOf l.bits) else .ok pa

/-- The root of an address space (R323, R329). -/
def State.root (s : State) (asid : Nat) : Nat := (assocGet s.xlate.roots asid).getD 0

/-- A cached leaf of an address space that holds a virtual address (R328). -/
def cachedLeaf (es : List TlbEntry) (asid va : Nat) : Option TlbEntry :=
  es.find? fun e => e.asid == asid && e.va == va / 2 ^ e.bits * 2 ^ e.bits

/-- The leaf an access of a core samples: the walked one, or, where a TLB still holds another, old or new by a free value
(R328, R331, log entry 4). -/
def State.sample (s : State) (c : Option CoreId) (asid root va : Nat) : Except (Nat × Nat) Leaf :=
  let walked := walkFrom s.gm va 4 0 root
  let cached := c.bind fun c =>
    match cachedLeaf (s.core c).utlb asid va with
    | some e => some e
    | none => cachedLeaf (s.xlate.shared[layerOf c % 4]'(Nat.mod_lt _ (by decide))) asid va
  match cached with
  | none => walked
  | some e =>
    let old : Leaf := ⟨e.leaf, e.bits, match walked with | .ok l => l.place | .error _ => 0⟩
    match walked with
    | .ok l => if l.entry = e.leaf ∧ l.bits = e.bits then .ok l else if Config.choose s.choice then .ok old else .ok l
    | .error f => if Config.choose s.choice then .ok old else .error f

/-- Access types of a translation fault (R336). -/
inductive Acc where
  | read | write | atomic
  deriving DecidableEq, Repr
/-- The code of an access type (R336). -/
def Acc.code : Acc → Nat
  | .read => 0 | .write => 1 | .atomic => 2

/-- A GM page is being migrated between steps 1 and 3 (R333). -/
def State.migrating (s : State) (asid va : Nat) : Bool :=
  s.xlate.migrations.any fun m => m.asid == asid && m.va == va / 2 ^ m.bits * 2 ^ m.bits && decide (m.stage < 3)

/-- The translation fault's record (R326, R336). -/
def State.xlateInfo (s : State) (epc asid va kind lvl : Nat) (a : Acc) : TrapInfo :=
  let migr := kind = 2 ∧ s.migrating asid va
  { cause := 6, epc := epc, i0 := BitVec.ofNat 64 va
    i1 := BitVec.ofNat 64 (kind + 4 * lvl + 16 * a.code + 64 * (if migr then 1 else 0) + 65536 * asid), migr := migr }

/-- The place of a physical address in the order in which the reading room takes frames (R82). -/
def roomOrder (pa : Nat) : Nat := (1021 - pa / 2 ^ 30) * 384 + pa % 2 ^ 30 / 2 ^ 21
/-- A reading room of N units holds the frame of a physical address (R82). -/
def inRoomOf (n pa : Nat) : Bool := decide (510 ≤ pa / 2 ^ 30) && decide (pa / 2 ^ 30 ≤ 1021) && decide (roomOrder pa < 16384 * n)

/-- What an access to a virtual address meets: a physical address, a translation fault of a kind at a level, the commit-scope
fault of a plain write in a commit group, or the abort of the group by a write to a 1 GiB page (R49, R50, R326). -/
inductive Hit where
  | pa (p : Nat) (l : Leaf)
  | fault (kind lvl : Nat)
  | cscope
  | abort
  deriving DecidableEq, Repr

/-- Translates one virtual address for an access; `cg` for members of a commit group, `direct` for operations on barrier
objects and wait words, which are never shadowed. No address reaches the frames of the reading room: a leaf that names one breaks R82, which is
kind 1 (R14, R49-R51, R82, R325-R327, log entry 47). -/
def State.hit (s : State) (c : Option CoreId) (asid root : Nat) (cg direct : Bool) (va : Nat) (a : Acc) : Hit :=
  match s.sample c asid root va with
  | .error (k, l) => .fault k l
  | .ok l => match leafPa l va with
    | .error (k, lv) => .fault k lv
    | .ok p =>
      let lvl := levelOf l.bits
      if inRoomOf s.archive.rrsize p then .fault 1 lvl
      else if a = .read then .pa p l
      else if cg ∧ !direct then
        if a = .write ∧ (ePin l.entry ∨ eCC l.entry) then .cscope
        else if !eW l.entry then .fault 2 lvl
        else if l.bits = 30 then .abort
        else .pa p l
      else if !eW l.entry then .fault 2 lvl
      else if eSH l.entry ∧ !cg then .fault 3 lvl
      else .pa p l

/-- The page of a virtual address in a binding's shadow directory (R334). -/
def Binding.shadowOf (b : Binding) (va : Nat) : Option Shadow :=
  b.shadows.find? fun h => h.va == va / 2 ^ h.bits * 2 ^ h.bits
/-- The physical address that a member of a commit group uses: the original's until the shadow is filled (R49, R334). -/
def State.groupPa (s : State) (c : CoreId) (va pa : Nat) : Nat :=
  match (s.bindingOf c).bind fun b => if b.cg then (b.shadowOf va).filter (·.filled) else none with
  | some h => h.copy + va % 2 ^ h.bits
  | none => pa

/-- Installs a leaf in a bounded TLB; a full one gives up an entry by a free value (R328, log entry 4). -/
def tlbInsert (es : List TlbEntry) (cap n : Nat) (e : TlbEntry) : List TlbEntry :=
  if es.length < cap then e :: es else e :: es.eraseIdx (Config.delay n % cap)

/-- A leaf whose physical address keeps R82; else kind 1 (R325, log entry 47). -/
def State.sound (s : State) (l : Leaf) (va : Nat) : Except (Nat × Nat) Leaf :=
  match leafPa l va with
  | .error f => .error f
  | .ok p => if inRoomOf s.archive.rrsize p then .error (1, levelOf l.bits) else .ok l
/-- The TLB lookups of one page touched by an access: counts a micro-TLB miss and a walk, and installs the leaf of a walk that meets no fault
(R328, R329). -/
def State.touch (s : State) (c : CoreId) (va : Nat) : State :=
  let k := s.core c
  let asid := k.asid
  match cachedLeaf k.utlb asid va with
  | some _ => s
  | none =>
    let (n, s) := s.draw
    let ly : Fin 4 := ⟨layerOf c % 4, Nat.mod_lt _ (by decide)⟩
    match cachedLeaf s.xlate.shared[ly.val] asid va with
    | some e => s.updCore c fun k => { k with umiss := min (k.umiss + 1) (2 ^ 32 - 1), utlb := tlbInsert k.utlb 64 n e }
    | none =>
      match (walkFrom s.gm va 4 0 (Word.bits k.ptroot 0 40)).bind fun l => s.sound l va with
      | .error _ => s.updCore c fun k => { k with umiss := min (k.umiss + 1) (2 ^ 32 - 1), walks := min (k.walks + 1) (2 ^ 32 - 1) }
      | .ok l =>
        let e : TlbEntry := ⟨asid, va / 2 ^ l.bits * 2 ^ l.bits, l.bits, l.entry⟩
        let s := s.updCore c fun k => { k with umiss := min (k.umiss + 1) (2 ^ 32 - 1), walks := min (k.walks + 1) (2 ^ 32 - 1)
                                               utlb := tlbInsert k.utlb 64 n e }
        { s with xlate := { s.xlate with shared := vmod s.xlate.shared ly fun es => tlbInsert es 4096 n e } }

/-- The table root of a core (R329). -/
def Core.root (k : Core) : Nat := Word.bits k.ptroot 0 40

/-- Translates one address for an instruction of a core's strand. -/
def State.coreHit (s : State) (c : CoreId) (direct : Bool) (va : Nat) (a : Acc) : Hit :=
  s.hit (some c) (s.core c).asid (s.core c).root (s.inGroup c) direct va a

/-- The exact fault of a GM access at issue (R26, R50, R179, R326), if any. The write that aborts a commit group raises no
fault here: the abort follows when the write would perform (R49). -/
def State.gmFault (s : State) (c : CoreId) (st : StrandId) (direct : Bool) (va : Nat) (a : Acc) : Option TrapInfo :=
  let pos := (s.strand c st).pos
  if va ≥ 2 ^ 48 then some { cause := 5, epc := pos, i0 := BitVec.ofNat 64 va, i1 := 2 }
  else match s.coreHit c direct va a with
    | .pa _ _ | .abort => none
    | .fault k l => some (s.xlateInfo pos (s.core c).asid va k l a)
    | .cscope => some { cause := 10, epc := pos, i0 := BitVec.ofNat 64 va }

/-- The physical address that an instruction's access reaches (with the group's shadow, where one is in place); 0 when it does
not translate. -/
def State.gmPa (s : State) (c : CoreId) (direct : Bool) (va : Nat) (a : Acc) : Nat :=
  match s.coreHit c direct va a with
  | .pa p _ => if direct then p else s.groupPa c va p
  | _ => 0

/-- A virtual-to-physical lookup in an address space without a core (the Librarian, the host, stokers, accessions). -/
def State.asidPa (s : State) (asid va : Nat) (a : Acc) : Option Nat :=
  match s.hit none asid (s.root asid) false false va a with
  | .pa p _ => some p
  | _ => none

/-- Removes matching entries from a TLB (R185). -/
def tlbRemove (kind : TlbKind) (asid va bits : Nat) (es : List TlbEntry) : List TlbEntry :=
  es.filter fun e => match kind with
    | .all => false
    | .asid => e.asid != asid
    | .page => !(e.asid == asid && e.bits == bits && e.va == va / 2 ^ bits * 2 ^ bits)
/-- Removes matching entries from every TLB of the device (R185, R331). -/
def State.tlbRemoveAll (s : State) (kind : TlbKind) (asid va bits : Nat) : State :=
  { s with cores := s.cores.map fun k => { k with utlb := tlbRemove kind asid va bits k.utlb }
           xlate := { s.xlate with shared := s.xlate.shared.map (tlbRemove kind asid va bits) } }
/-- Bits of a page size (R185). -/
def PageSize.bits : PageSize → Nat
  | .k64 => 16 | .m2 => 21 | .g1 => 30

/-- What every access in flight has sampled (R330): the strands' accesses, the copies' chunks, near-memory groups from their launch to their
end, accessions' chunks. Shadow fills and reading-room fills sample nothing and carry the epoch of their start. -/
def State.inFlight (s : State) : List Sample :=
  let group (g : Option Group) : List Sample := match g with | some g => g.ref.samples ++ g.samples | none => []
  (s.cores.toList.flatMap fun k => (k.strands.toList.flatMap fun t => t.outs.flatMap (·.samples)) ++ (k.copies.flatMap fun p => p.samples ++ p.srcAt.map (·.sample)) ++ k.hobs.toList.flatMap fun b => b.cmds.flatMap (·.samples)) ++
  (s.stokers.toList.flatMap fun t => t.queue.flatMap (·.samples) ++ group t.group ++ group t.saved) ++
  s.archive.accs.flatMap (·.samples) ++
  (s.bindings.flatMap fun b => (b.shadows.filter (!·.filled)).map fun h => ⟨0, 0, 0, h.epoch, 0⟩) ++
  (s.archive.folios.filter (·.filling.isSome)).map fun f => ⟨0, 0, 0, f.epoch, 0⟩
/-- QOLD: the lowest epoch in flight, or QCUR (R329). -/
def State.qold (s : State) : Nat := s.inFlight.foldl (fun n p => min n p.epoch) s.xlate.qcur

/-- A free page joins the quarantine, tagged with QCUR; a full queue leaves it in the Librarian's list (R332). -/
def State.toQuarantine (s : State) (page bits : Nat) : State :=
  let x := s.xlate
  if x.quarantine.length < 65536 then { s with xlate := { x with quarantine := x.quarantine ++ [(page, bits, x.qcur)] } }
  else { s with xlate := { x with waiting := x.waiting ++ [(page, bits)] } }

/-! ### Invalidation (R185, R331) -/

/-- A sample was taken of a translation that an invalidation removes, before it began (R331). -/
def Inval.removes (i : Inval) (p : Sample) : Bool :=
  decide (p.stamp < i.stamp) && decide (p.n ≠ 0) && (match i.kind with
    | .all => true
    | .asid => p.asid == i.asid
    | .page => p.asid == i.asid && decide (p.va < i.va + 2 ^ i.bits) && decide (i.va < p.va + p.n))
/-- An invalidation is complete: no access in flight has sampled what it removes (R331). -/
def State.invalDone (s : State) (i : Inval) : Bool := !s.inFlight.any i.removes
/-- Starts an invalidation: matching entries go from every TLB (R185). -/
def State.startInval (s : State) (issuer : Option (CoreId × StrandId)) (id : Nat) (kind : TlbKind) (asid va bits : Nat) : State :=
  let base := va / 2 ^ bits * 2 ^ bits
  let s := s.tlbRemoveAll kind asid base bits
  { s with xlate := { s.xlate with invals := s.xlate.invals ++ [⟨id, issuer, kind, asid, base, bits, s.order⟩] } }

/-- The next invalidation of the Librarian's own (R331, R333, R335). -/
def State.ownInval (s : State) (asid va bits : Nat) : State :=
  ({ s with xlate := { s.xlate with nextInval := s.xlate.nextInval + 1 } } : State).startInval none s.xlate.nextInval .page asid va bits

end Sys2Proof.Machine
end

