-- ==== Sys2Proof/Machine/Operands.lean ====
section
/-! DEFINITION. Operand forms: elements of vector and mask registers, stochastic words, addresses of the spaces, stream
descriptors with their checks and traversal, and the early-read checks (R25, R26, R53, R65, R76, R85-R90, R108, R188-R191,
R213). -/

namespace Sys2Proof.Machine

/-! ### Elements of vector and mask registers (R76, R213) -/

/-- The union of flags. -/
def orFlags (fs : List Flg) : Flg := fs.foldl (· ||| ·) 0

/-- Elements of a register (R213). -/
def elemCount (f : Fmt) : Nat := 2048 / f.bits
/-- Element j of a register, as its bits (R53, R76). -/
def elem (v : VecData) (f : Fmt) (j : Nat) : Nat := (v.extractLsb' (f.bits * j) f.bits).toNat
/-- The lowest byte lane of element j (R76). -/
def laneOf (f : Fmt) (j : Nat) : Nat := f.bits * j / 8
/-- Element j is enabled by a mask (R76, R213). -/
def enabled (m : MaskData) (f : Fmt) (j : Nat) : Bool := m.getLsbD (laneOf f j)
/-- The enabled elements, ascending (R213). -/
def enabledElems (m : MaskData) (f : Fmt) : List Nat := (List.range (elemCount f)).filter (enabled m f)
/-- Data and bit mask that write listed elements of `w` bits (R213): (element, bits). -/
def packElems (w : Nat) (es : List (Nat × Nat)) : VecData × VecData :=
  (BitVec.ofNat 2048 (es.foldl (fun n p => n ||| (p.2 % 2 ^ w) <<< (w * p.1)) 0),
   BitVec.ofNat 2048 (es.foldl (fun n p => n ||| (2 ^ w - 1) <<< (w * p.1)) 0))
/-- A result that writes bits of a vector register. -/
def vResult (d : VReg) (p : VecData × VecData) (flags : Flg) : Result :=
  { target := .v d, data := p.1, mask := p.2, flags := flags, pushP := false, pushN := false, poison := none, pos := 0, ord := 0 }
/-- A result that writes bits of a mask register; k0 discards it (R17). -/
def kResult (d : KReg) (data mask : MaskData) (flags : Flg) : Result :=
  { target := .k d, data := data.setWidth 2048, mask := mask.setWidth 2048, flags := flags, pushP := false, pushN := false
    poison := none, pos := 0, ord := 0 }
/-- A result that writes bits of a stream register. -/
def qResult (d : QReg) (data mask : BitVec 256) : Result :=
  { target := .q d, data := data.setWidth 2048, mask := mask.setWidth 2048, flags := 0, pushP := false, pushN := false
    poison := none, pos := 0, ord := 0 }

/-- The result of an element-wise instruction: the elements `js`, `w` bits wide, each computed from its number and its stochastic word, with
the union of their flags; under RM 5 the elements are rounded when the result is written (R65, R66, R213). -/
def elemsResult (d : VReg) (w : Nat) (js : List Nat) (rm : Rm) (op : Nat → Nat → Nat × Flg) : Result :=
  let out := js.map fun j => (j, op j 0)
  let p := packElems w (out.map fun p => (p.1, p.2.1))
  if rm = .rs then
    { vResult d (0, p.2) 0 with stoch := js.map fun j => ⟨j, w, stochThr (op j), op j 0, op j (2 ^ 32 - 1)⟩ }
  else vResult d p (orFlags (out.map (·.2.2)))

/-! ### Exact faults of addresses (R25, R26, R75, R336) -/

/-- Space codes of TINFO1 (R336). -/
inductive SpaceCode where
  | ls | ps | gm | xm | ar | wb | ac
  deriving DecidableEq, Repr
/-- The number of a space code (R336). -/
def SpaceCode.num : SpaceCode → Nat
  | .ls => 0 | .ps => 1 | .gm => 2 | .xm => 3 | .ar => 4 | .wb => 5 | .ac => 6
/-- A space-access fault at a position (R26, R336). -/
def spaceFault (pos : Nat) (addr : Nat) (sp : SpaceCode) : TrapInfo :=
  { cause := 5, epc := pos, i0 := BitVec.ofNat 64 addr, i1 := BitVec.ofNat 64 sp.num }

/-- The first of some faults. -/
def firstFault : List (Option TrapInfo) → Option TrapInfo
  | [] => none
  | some f :: _ => some f
  | none :: fs => firstFault fs

/-- Fault of a range of own scratchpad: outside it, or a write that touches the reserved cell (R26, R75). -/
def lsFault (pos a n : Nat) (write : Bool) : Option TrapInfo :=
  if lsSize < a + n ∨ lsSize ≤ a then some (spaceFault pos a .ls)
  else if write && touchesCell a n then some (spaceFault pos a .ls) else none
/-- The core of a PS address (R25). -/
def psCore (a : Nat) : CoreId := coreId (a / lsSize)
/-- A core belongs to the binding of another one's task (R26). -/
def State.member (s : State) (c peer : CoreId) : Bool := match s.bindingOf c with | some b => b.members.contains peer | none => false
/-- Fault of a range of a peer's scratchpad (R26, R75). -/
def State.psFault (s : State) (c : CoreId) (pos a n : Nat) (write : Bool) : Option TrapInfo :=
  if 2 ^ 30 ≤ a ∨ lsSize < a % lsSize + n ∨ !s.member c (psCore a) then some (spaceFault pos a .ps)
  else if write && touchesCell (a % lsSize) n then some (spaceFault pos a .ps) else none
/-- The device of an XM address (R25). -/
def xmDev (a : Nat) : Nat := a / 2 ^ 48 % 2 ^ 14
/-- A device is present in the scale-up domain (R26, R368). -/
def State.present (s : State) (dev : Nat) : Bool := decide (dev = s.devId) || s.lib.domMembers.contains dev
/-- Fault of a range of a remote device's window (R26). -/
def State.xmFault (s : State) (pos a n : Nat) : Option TrapInfo :=
  if 2 ^ 62 ≤ a ∨ 2 ^ 48 < a % 2 ^ 48 + n ∨ !s.present (xmDev a) then some (spaceFault pos a .xm) else none

/-! ### Copies on their way into a scratchpad (R88-R90, R108) -/

/-- The copies that the copy unit moves without barriers (R192). -/
def CopyKind.inPkg : CopyKind → Bool
  | .ll | .lp | .pl | .lf | .lw => true
  | _ => false
/-- The scratchpad and offset that a copy writes (R192). -/
def Copy.lsDest (p : Copy) : Option (CoreId × Nat) :=
  match p.kind with
  | .ll | .pl | .gl | .xl | .al | .lred | .lbcast | .lgath => some (p.core, p.dst % lsSize)
  | .lp => some (psCore p.dst, p.dst % lsSize)
  | .lf => some (coreId (p.dst / lsSize % 4 * 64 + p.core.val % 64), p.dst % lsSize)
  | _ => none
/-- The unit of an in-package copy's groups, or its flue beats (R93, R195). -/
def Copy.grain (p : Copy) : Nat := if p.kind = .lf then 128 else 64
/-- A copy of the device by issuing core and number. -/
def State.copyOf (s : State) (c : CoreId) (id : Nat) : Option Copy := (s.core c).copies.find? fun p => p.id == id

/-- A byte of the scratchpad is guarded by an inbound channel (R90). -/
def State.guarded (s : State) (c : CoreId) (ch : Fin 8) (a : Nat) : Bool :=
  let n := (s.core c).chans[ch.val]
  let lim (q : CoreId × Nat) : Option (Nat × Nat) := (s.copyOf q.1 q.2).bind fun p => p.lsDest.map fun d => (d.2, d.2 + p.dlen)
  match n.queue with
  | [] => false
  | q :: rest =>
    let inside (lo : Option Nat) (q : CoreId × Nat) : Bool := match lim q with
      | some (l, h) => decide (max l (lo.getD l) ≤ a) && decide (a < h)
      | none => false
    inside (if n.act then some n.addr else none) q || rest.any (inside none)
/-- The channel of a copy is delivering it; copies without a channel need none (R88). -/
def State.delivering (s : State) (p : Copy) : Bool :=
  match p.lsDest with
  | none => true
  | some (t, _) => let n := (s.core t).chans[p.ch.val]; n.act && n.queue.head? == some (p.core, p.id)
/-- The slots of FSLOT that carry a pair (R92). -/
def slotOf (fslot : Word) (src dst i : Nat) : Bool :=
  fslot.getLsbD (8 * i + 4) && Word.bits fslot (8 * i + 2) 2 == src && Word.bits fslot (8 * i) 2 == dst
/-- The first cycle at or after `t` whose slot carries a pair; half width skips maintenance frames (R93, R94). -/
def nextSlot (fslot : Word) (src dst : Nat) (half : Bool) : Nat → Nat → Nat
  | 0, t => t
  | fuel + 1, t =>
    if slotOf fslot src dst (t % 8) && !(half && t / 8 % 32 == 31) then t else nextSlot fslot src dst half fuel (t + 1)
/-- The slot at which a beat that enters at `e` is complete: the same, or the next of the pair at half width. -/
def beatEnd (fslot : Word) (src dst : Nat) (half : Bool) (e : Nat) : Nat :=
  if half then nextSlot fslot src dst half 24 (e + 1) else e
/-- Cycles from acceptance to the first read at the source, and from a group's read to its write (R195). -/
def groupOffsets (p : Copy) : Nat × Nat :=
  let h := match p.kind with | .lp => hops p.core (psCore p.dst) | .pl => hops p.core (psCore p.src) | _ => 0
  match p.kind with
  | .lw => (2, 7)
  | .lp => (2, 39 + 4 * h)
  | .pl => (20 + 2 * h, 21 + 2 * h)
  | _ => (2, 9)
/-- The entry cycle of the beat `m` beats after one that enters at `e` (R93, R94). -/
def laterBeat (fslot : Word) (src dst : Nat) (half : Bool) : Nat → Nat → Nat
  | 0, e => e
  | m + 1, e => laterBeat fslot src dst half m (nextSlot fslot src dst half 24 (beatEnd fslot src dst half e + 1))
/-- The cycle in which a group or beat of an in-package copy is to be written, if no further bank cycle is lost; none while its
channel delivers an earlier copy (R93-R95, R195). -/
def State.groupDue (s : State) (p : Copy) (j : Nat) : Option Nat :=
  let due (f : Instr → Bool) : Option Nat := (s.cal.find? fun d => match d.work with | .ev i => f i | _ => false).map (·.due)
  if !s.delivering p then none
  else if j < p.rd then due fun i => match i with
    | .copyGroupTransfer id g .write => decide (id = p.id ∧ g = j)
    | .flueBeatPerform id g => decide (id = p.id ∧ g = j)
    | _ => false
  else if p.kind = .lf then
    let k := s.core p.core
    let src := layerOf p.core
    let dst := p.dst / lsSize % 4
    some (beatEnd k.fslot src dst p.halfWidth (laterBeat k.fslot src dst p.halfWidth (j - p.rd) p.entry) + 13 + 3 * dist src dst)
  else (due fun i => match i with
    | .copyGroupTransfer id g .read => decide (id = p.id ∧ g = p.rd)
    | _ => false).map fun r => r + (j - p.rd) + (groupOffsets p).2
/-- A byte of the scratchpad that is to be read in a cycle is reserved by an in-package copy: one issued in an earlier cycle will
not have written it before that cycle. A flue beat is served before every read of its cycle (R74, R107, R108). -/
def State.reservedByte (s : State) (c : CoreId) (r a : Nat) : Bool :=
  s.cores.toList.any fun k => k.copies.any fun p =>
    p.kind.inPkg && (match p.lsDest with
      | some (t, o) => decide (t = c) && decide (o + p.grain * p.wr ≤ a) && decide (a < o + p.n) && decide (p.dt < s.dt p.core) &&
          (match s.groupDue p ((a - o) / p.grain) with | none => true | some d => if p.kind = .lf then decide (r < d) else decide (r ≤ d))
      | none => false)
/-- The early-read fault of a read of scratchpad bytes, each with its cycle: the stream's channel first, then the checker (R90,
R108). -/
def State.earlyFault (s : State) (c : CoreId) (pos : Nat) (chan : Option (Fin 8)) (as : List (Nat × Nat)) : Option TrapInfo :=
  let early (a n : Nat) : TrapInfo := { cause := 8, epc := pos, i0 := BitVec.ofNat 64 a, i1 := BitVec.ofNat 64 n }
  match chan.bind fun ch => (as.find? fun a => s.guarded c ch a.1).map fun a => early a.1 ch.val with
  | some f => some f
  | none => if (s.core c).earlyrd.getLsbD 0 then (as.find? fun a => s.reservedByte c a.2 a.1).map fun a => early a.1 8 else none

/-! ### Stream descriptors (R85-R87, R191) -/

/-- BASE (R85). -/
def Desc.base (d : Desc) : Nat := Word.bits d.w0 0 48
/-- FMT (R85). -/
def Desc.fmt (d : Desc) : Fmt := .ofCode (d.w0.extractLsb' 48 4)
/-- SPACE (R85). -/
def Desc.space (d : Desc) : Nat := Word.bits d.w0 52 2
/-- The inbound channel that guards reads, when WPB is set (R85). -/
def Desc.guard (d : Desc) : Option (Fin 8) :=
  if d.w0.getLsbD 54 then some ⟨Word.bits d.w0 55 3 % 8, Nat.mod_lt _ (by decide)⟩ else none
/-- CNT0 + 1 (R85). -/
def Desc.n0 (d : Desc) : Nat := Word.bits d.w1 0 16 + 1
/-- CNT1 + 1 (R85). -/
def Desc.n1 (d : Desc) : Nat := Word.bits d.w1 16 16 + 1
/-- CNT2 + 1 (R85). -/
def Desc.n2 (d : Desc) : Nat := Word.bits d.w1 32 16 + 1
/-- SMODE (R85). -/
def Desc.smode (d : Desc) : Nat := Word.bits d.w1 48 2
/-- SBLK (R85). -/
def Desc.sblk (d : Desc) : Nat := Word.bits d.w1 50 4
/-- STRIDE1 (R85). -/
def Desc.stride1 (d : Desc) : Int := (d.w2.extractLsb' 0 32).toInt
/-- STRIDE2 (R85). -/
def Desc.stride2 (d : Desc) : Int := (d.w2.extractLsb' 32 32).toInt
/-- SBASE (R85). -/
def Desc.sbase (d : Desc) : Nat := Word.bits d.w3 0 48
/-- SSTR (R85). -/
def Desc.sstr (d : Desc) : Nat := Word.bits d.w3 48 16
/-- Bytes of one scale (R86). -/
def Desc.scaleSize (d : Desc) : Nat := if d.smode = 1 then 1 else 4
/-- Bytes of one element, 1 for e2m1 (R86, R87). -/
def elemBytes (f : Fmt) : Nat := if f = .e2m1 then 1 else f.bits / 8

/-- The lowest code of R191 that applies to a descriptor; `range` for a use by a range command. -/
def Desc.check (d : Desc) (range : Bool) : Nat :=
  if Word.bits d.w0 58 6 ≠ 0 ∨ Word.bits d.w1 54 10 ≠ 0 then 1
  else if 2 ≤ d.space ∨ d.smode = 3 then 2
  else if d.base % elemBytes d.fmt ≠ 0 ∨ (d.smode ≠ 0 ∧ d.sbase % d.scaleSize ≠ 0) then 3
  else if d.stride1 % elemBytes d.fmt ≠ 0 ∨ d.stride2 % elemBytes d.fmt ≠ 0 then 4
  else if d.fmt = .e2m1 ∧ d.n0 % 2 = 1 then 5
  else if range ∧ d.space = 1 then 6
  else 0
/-- The stream-descriptor fault of an instruction that uses a stream (R87, R336). -/
def Desc.fault (d : Desc) (pos : Nat) (q : QReg) (range : Bool) : Option TrapInfo :=
  if d.check range = 0 then none
  else some { cause := 7, epc := pos, i0 := q.setWidth 64, i1 := BitVec.ofNat 64 (d.check range) }

/-- Elements of a stream (R232). -/
def Desc.count (d : Desc) : Nat := d.n0 * d.n1 * d.n2
/-- Address of the row (i1, i2): signed, exact (R86). -/
def Desc.rowAddr (d : Desc) (i1 i2 : Nat) : Int := d.base + i2 * d.stride2 + i1 * d.stride1
/-- Address and nibble of an element by its place in the traversal (R86). -/
def Desc.elemAt (d : Desc) (n : Nat) : Int × Nat :=
  let i0 := n % d.n0
  let row := d.rowAddr (n / d.n0 % d.n1) (n / d.n0 / d.n1)
  if d.fmt = .e2m1 then (row + (i0 / 2 : Nat), i0 % 2) else (row + (i0 * elemBytes d.fmt : Nat), 0)
/-- Address of the scale of a row and scale column (R86). -/
def Desc.scaleAddr (d : Desc) (i1 i2 col : Nat) : Nat := d.sbase + (i2 * d.n1 + i1) * 4 * d.sstr + col * d.scaleSize

/-- The first byte of a list of signed addresses that lies outside a space of a size. -/
def outside (as : List Int) (size : Nat) : Option Int := as.find? fun a => decide (a < 0) || decide ((size : Int) ≤ a)

/-! ### Objects (R189) -/

/-- The code of an object space in TINFO1 (R336). -/
def ObjSpaceCode : ObjSpace → SpaceCode
  | .ls => .ls | .ps => .ps | .gm => .gm | .xm => .xm
/-- The exact fault of an operation on a barrier object (32 bytes) or wait word (16 bytes): alignment, the space's rules, and
the reserved cell for every operation but a poll (R189). -/
def State.objFault (s : State) (c : CoreId) (st : StrandId) (sp : ObjSpace) (a size : Nat) (poll : Bool) (acc : Acc) :
    Option TrapInfo :=
  let pos := (s.strand c st).pos
  if a % size ≠ 0 then some (spaceFault pos a (ObjSpaceCode sp))
  else match sp with
    | .ls => lsFault pos a size (!poll)
    | .ps => s.psFault c pos a size (!poll)
    | .gm => s.gmFault c st true a acc
    | .xm => s.xmFault pos a size
/-- The unit and address of an object (R189). -/
def State.objPlace (s : State) (c : CoreId) (sp : ObjSpace) (a : Nat) (acc : Acc) : MemUnit × Nat :=
  match sp with
  | .ls => (.ls c, a % lsSize)
  | .ps => (.ls (psCore a), a % lsSize)
  | .gm => (.gm, s.gmPa c true a acc)
  | .xm => (.xm (xmDev a), a % 2 ^ 48)

end Sys2Proof.Machine
end

