-- ==== Sys2Proof/Machine/Channel.lean ====
section
/-! DEFINITION. The arbiter of an HBM channel: classes of traffic, budgets, tenures of banks, activation counts and refresh
management (R268-R270; log entry 45). -/

namespace Sys2Proof.Machine

/-- A stoker, with its channel. -/
def State.stoker (s : State) (sk : Fin 384) : Stoker := s.stokers[sk.val]
/-- Changes a stoker. -/
def State.updStoker (s : State) (sk : Fin 384) (f : Stoker → Stoker) : State := { s with stokers := vmod s.stokers sk f }

/-- The classes of a channel's traffic (R267, R268). -/
inductive Traffic where
  | rf | md | nm | rr
  deriving DecidableEq, Repr
/-- The classes in the order in which the arbiter serves them (R268). -/
def Traffic.all : List Traffic := [.rf, .md, .nm, .rr]
/-- The place of a class in that order. -/
def Traffic.num : Traffic → Fin 4
  | .rf => 0 | .md => 1 | .nm => 2 | .rr => 3

/-- HC ticks of stoker cycles, 1,250 of which make a microsecond of 2,250 ticks (R268). -/
def stokerTicks (n : Nat) : Nat := (n * 9 + 4) / 5
/-- The shares of CHARB: RF, MD, NM, RR (R268). -/
def charbShares (v : Word) : List Nat := [Word.bits v 24 7, Word.bits v 3 7, Word.bits v 10 7, Word.bits v 17 7]
/-- A class's stoker cycles in a period (R268). -/
def shareCycles (n : Nat) : Nat := n * 1250 / 64
/-- A new period's budgets: a charge beyond the old budget carries over, up to one share (R268). -/
def newBudgets (v : Word) (old : List Int) : List Int :=
  (charbShares v).zipIdx.map fun (n, i) =>
    let b : Int := shareCycles n
    b + max (-b) (min 0 (old.getD i 0))
/-- The activation threshold of a channel (R268). The manual lets firmware choose the value that it loads at reset, 16 to 1,023: until CHARB is
written the model takes 16, the lowest (DESIGN CHOICE, log entry 2). -/
def Stoker.athr (t : Stoker) : Nat := max 16 (Word.bits t.charb 32 10)

/-- The budget that a class has left (R268). -/
def Stoker.left (t : Stoker) (cls : Traffic) : Int := t.budget.getD cls.num.val 0
/-- A charge to a class in stoker cycles (R268, R270). -/
def Stoker.charge (t : Stoker) (cls : Traffic) (n : Nat) : Stoker :=
  { t with budget := t.budget.zipIdx.map fun (b, i) => if i = cls.num.val then b - (n : Int) else b }
/-- A class has a request that waits: it was turned away in this tick or the last one, and asks again in every tick. -/
def Stoker.asking (t : Stoker) (hc : Nat) (cls : Traffic) : Bool := decide (hc < t.asks[cls.num.val])
/-- The arbiter serves a class now: the first with a request and budget left, or, where none has budget, the first with a request (R268). -/
def Stoker.chooses (t : Stoker) (hc : Nat) (cls : Traffic) : Bool :=
  let here := Traffic.all.filter fun o => o == cls || t.asking hc o
  match here.find? fun o => decide (0 < t.left o) with
  | some o => o == cls
  | none => here.head? == some cls
/-- A bank that an engine holds (R269). -/
def Stoker.inTenure (t : Stoker) (b : Nat) : Bool := t.tenure.any fun p => p.1 == b
/-- A bank whose refresh management is due or under way (R270). -/
def Stoker.resting (t : Stoker) (hc b : Nat) : Bool := (t.rfm.any fun p => p.1 == b) || t.paused.any fun p => p.1 == b && decide (hc < p.2)
/-- A main-die request for a bank has been turned away and waits (R269). -/
def Stoker.bankAsked (t : Stoker) (hc b : Nat) : Bool := t.bankAsks.any fun p => p.1 == b && decide (hc ≤ p.2)
/-- The banks of a request stand open to it: a main-die request waits for a tenure to end, an engine begins none while one waits, and none reaches
a bank whose refresh management comes first (R269, R270). -/
def Stoker.banksFree (t : Stoker) (hc : Nat) (cls : Traffic) (engine : Bool) (banks : List Nat) : Bool :=
  banks.all fun b => !t.resting hc b && (match cls with
    | .nm => !engine || t.inTenure b || !t.bankAsked hc b
    | .md => !t.inTenure b
    | _ => true)
/-- A channel takes a request in this tick (R266, R268, R269). -/
def Stoker.admits (t : Stoker) (hc : Nat) (cls : Traffic) (engine : Bool) (banks : List Nat) : Bool :=
  decide (t.busy ≤ hc) && t.banksFree hc cls engine banks && t.chooses hc cls
/-- A request is served: its occupancy, which the manual does not state, is charged to its class; it activates its banks, whose counts may reach
ATHR; an engine takes the banks' row buffers for 1 to 64 row cycles (R268-R270, log entries 4 and 45). -/
def Stoker.grant (t : Stoker) (hc n : Nat) (cls : Traffic) (engine : Bool) (banks : List Nat) : Stoker :=
  let o := 1 + Config.delay n
  let t := { t.charge cls o with busy := hc + stokerTicks o }
  banks.foldl (fun t b =>
    let acts := vmod t.acts ⟨b % 32, Nat.mod_lt _ (by decide)⟩ (· + 1)
    { t with acts := acts
             rfm := if t.athr ≤ acts[b % 32]'(Nat.mod_lt _ (by decide)) then t.rfm ++ [(b % 32, cls.num.val)] else t.rfm
             tenure := if engine ∧ !t.inTenure b then (b, hc + (1 + Config.delay (n + 1) % 64) * (1 + Config.rowCycle)) :: t.tenure
               else t.tenure }) t
/-- A request is turned away; its class asks from now on unless only its banks stop it (R268, R269). -/
def Stoker.refuse (t : Stoker) (hc : Nat) (cls : Traffic) (engine : Bool) (banks : List Nat) : Stoker :=
  let t := if t.banksFree hc cls engine banks then { t with asks := t.asks.set cls.num.val (hc + 2) } else t
  if cls = .md then { t with bankAsks := banks.map (fun b => (b, hc + 1)) ++ t.bankAsks.filter fun p => decide (hc ≤ p.2) && !banks.contains p.1 } else t

/-- The channels and banks that bytes of HBM lie in. -/
def State.targets (s : State) (as : List Nat) : List (Fin 384 × Nat) :=
  let p := s.boot.stripesP
  ((as.map (· / 256)).dedup.map fun a => (channelOf p (256 * a), hbmBank (hbmPlace p (256 * a)).ofs)).dedup
/-- A request of a class for bytes of HBM at their channels: served now by all of them, or turned away (R266, R268-R270). -/
def State.serveAs (s : State) (cls : Traffic) (engine : Bool) (as : List Nat) : State × Bool :=
  let ts := s.targets as
  let sks := (ts.map (·.1)).dedup
  let banks (sk : Fin 384) : List Nat := (ts.filter fun t => t.1 == sk).map (·.2)
  if sks.all fun sk => (s.stoker sk).admits s.hc cls engine (banks sk) then
    let n := s.choice
    (sks.foldl (fun (s : State) sk => s.updStoker sk fun t => t.grant s.hc n cls engine (banks sk)) { s with choice := n + 2 }, true)
  else (sks.foldl (fun (s : State) sk => s.updStoker sk fun t => t.refuse s.hc cls engine (banks sk)) s, false)
/-- A request that no engine makes (R267, R268). -/
def State.serve (s : State) (cls : Traffic) (as : List Nat) : State × Bool := s.serveAs cls false as
/-- A request of a stoker's engines, which take the banks' row buffers (R268, R269). -/
def State.serveEngine (s : State) (as : List Nat) : State × Bool := s.serveAs .nm true as

/-- Event: a channel's CHARB is written; shares above 64 in all are ignored (R268). -/
def execCharbWrite (sk : Fin 384) (v : Word) (s : State) : Host.Outcome State Fault Refusal :=
  .next (if 64 < (charbShares v).foldl (· + ·) 0 then s
    else s.updStoker sk fun t => { t with charbNext := some (v &&& 0x3FF7FFFFFF8) })
/-- Event: a new arbitration period begins on every channel, with the CHARB written before it; a refresh falls due on some channel
at a tick that is not exposed (R268, log entry 4). -/
def execBudgetPeriod (s : State) : Host.Outcome State Fault Refusal :=
  .next ((({ s with lib := { s.lib with lastPeriod := s.hc }, stokers := s.stokers.map fun t =>
    let v := t.charbNext.getD t.charb
    { t with charb := v, charbNext := none, budget := newBudgets v t.budget, paused := t.paused.filter fun p => decide (s.hc < p.2) } } : State)).sometime
      (.ev .refresh) effects)
/-- Event: a refresh that is due is issued on a channel, in every case, and charged to RF; which channel, which bank and how long are not
exposed. A bank whose refresh management comes first is not refreshed by it (R268, R270, log entry 4). -/
def execRefresh (s : State) : Host.Outcome State Fault Refusal :=
  .next (
    let (n, s) := s.draw
    let sk : Fin 384 := ⟨Config.delay n % 384, Nat.mod_lt _ (by decide)⟩
    let hc := s.hc
    ({ s with choice := s.choice + 2 } : State).updStoker sk fun t =>
      { t.grant hc (n + 1) .rf false ([Config.delay (n + 2) % 32].filter fun b => !t.resting hc b) with refreshes := t.refreshes + 1 })
/-- Event: on the first bank whose count has reached ATHR, refresh management is issued: the count falls by ATHR, the bank rests for as long as
it takes, and that time is charged to the class whose activation reached the threshold (R270, log entry 4). -/
def execRefreshManagement (s : State) : Host.Outcome State Fault Refusal :=
  .next (match (List.finRange 384).find? fun sk => !(s.stoker sk).rfm.isEmpty with
    | none => s
    | some sk =>
      let (n, s) := s.draw
      let m := 1 + Config.delay n
      let hc := s.hc
      s.updStoker sk fun t => match t.rfm with
        | [] => t
        | (b, c) :: rest =>
          let t := t.charge (Traffic.all.getD c .rf) m
          { t with acts := vmod t.acts ⟨b % 32, Nat.mod_lt _ (by decide)⟩ (· - t.athr), rfm := rest, paused := (b, hc + stokerTicks m) :: t.paused })
/-- A tenure of a channel ends: after its row cycles, whose time is not exposed, or once the NM budget of the period is spent (R269). -/
def Stoker.tenureOver (t : Stoker) (hc : Nat) : Bool := t.tenure.any fun p => decide (p.2 ≤ hc) || decide (t.left .nm ≤ 0)
/-- Event: tenures of the first channel that has one to end are over; the waiting main-die requests of their banks are served before a new one
(R269). -/
def execTenureEnd (s : State) : Host.Outcome State Fault Refusal :=
  .next (match (List.finRange 384).find? fun sk => (s.stoker sk).tenureOver s.hc with
    | none => s
    | some sk =>
      let hc := s.hc
      s.updStoker sk fun t => { t with tenure := if t.left .nm ≤ 0 then [] else t.tenure.filter fun p => decide (hc < p.2) })

end Sys2Proof.Machine
end

