-- ==== Sys2Proof/Machine/Issue.lean ====
section
/-! DEFINITION. Fetching and issuing: the code-image checks, the conditions of issue, blocking points and their stall traps,
hardware-loop ends, and what every issue does (R31-R43, R142, R151, R152, R165, R170, R336, R344). -/

namespace Sys2Proof.Machine

/-! ### Fetch (R31-R34, R165, R301) -/

/-- The link word's end of chain (R31). -/
def chainEnd : Nat := 0x3FFFFFF
/-- The store a strand fetches from and its number of lines: code store, or handler store at system level (R32, R301). -/
def Core.store (k : Core) (level : Bool) : Mem × Nat := if level then (k.handler, 256) else (k.code, 2048)
/-- The link word of a line: OWNER, NEXT, COUNT (R31). -/
def linkOf (m : Mem) (line : Nat) : Nat × Nat × Nat :=
  let w := (m.word32 (64 * line)).toNat
  (bitsAt w 30 2, bitsAt w 4 26, bitsAt w 0 4)
/-- The word at a position of a line. -/
def wordAt (m : Mem) (line word : Nat) : Word32 := m.word32 (64 * line + 4 + 4 * word)

/-- The code-image fault at a position, with its lowest kind and the line index reached; a padding line records kind 1 (R34). -/
def fetchFault (m : Mem) (lines : Nat) (st : StrandId) (pos : Nat) (reach : Reach) : Option (Nat × Nat) :=
  if reach = .chainEnd then some (3, chainEnd)
  else if reach = .jump ∧ pos = 0x7FFF then some (2, 0x7FF)
  else
    let line := pos / 16
    let word := pos % 16
    if lines ≤ line then (if reach = .jump ∧ word = 15 then some (2, line) else some (4, line))
    else
      let (owner, _, count) := linkOf m line
      if count = 0 then some (1, line)
      else if owner ≠ st.num.val then some (0, line)
      else if reach = .jump ∧ (count ≤ word ∨ word = 15) then some (2, line)
      else if count ≤ word + ((wordAt m line word).extractLsb' 23 2).toNat then some (5, line)
      else none

/-- The words of the instruction at a position: its base word and the LEN words after it. -/
def fetchWords (m : Mem) (pos : Nat) : List Word32 :=
  let w := wordAt m (pos / 16) (pos % 16)
  w :: (List.range (w.extractLsb' 23 2).toNat).map fun i => wordAt m (pos / 16) (pos % 16 + 1 + i)

/-- The sequential successor of the instruction at a position, and how it is reached (R165); 0x7FFF at the end of a chain. -/
def successor (m : Mem) (pos : Nat) : Nat × Reach :=
  let line := pos / 16
  let (_, next, count) := linkOf m line
  let e := ((wordAt m line (pos % 16)).extractLsb' 23 2).toNat
  if pos % 16 + e + 1 < count then (pos + e + 1, .seq)
  else if next = chainEnd then (0x7FFF, .chainEnd)
  else (16 * next, .seq)

/-- The memory a strand fetches from. -/
def State.fetchMem (s : State) (c : CoreId) (st : StrandId) : Mem := ((s.core c).store (s.strand c st).level).1
/-- The base word at a strand's position. -/
def State.baseWord (s : State) (c : CoreId) (st : StrandId) : Word32 :=
  let p := (s.strand c st).pos
  wordAt (s.fetchMem c st) (p / 16) (p % 16)

/-! ### What an instruction asks of the issue rules -/

/-- The turn of a strand in which an instruction issues: what the strand was before the issue (R35, R337). -/
structure Turn where
  c : CoreId
  st : StrandId
  now : Nat
  pos : Nat
  prev : Option Nat
  loops : List LoopEntry
  pops : List (Fin 8 × Token)
  h : Hdr
  sys : Bool
  ord : Nat

/-- The demands of one instruction: strands on which it is legal, the kind 1, 5, 6 or 7 that its present state gives it,
whether it is a privileged form, tokens beyond its token bits, whether it writes a register (R344), whether it transfers
control (R170), its exact fault (R26, R87, R141, R194), and its unmet resource: class, object, producer (R35, R43). -/
structure Req where
  legal : List StrandId := [.x, .l, .c, .s]
  priv : Bool := false
  ill : Option Nat := none
  pops : List (Fin 8 × Nat) := []
  pushes : List (Fin 8 × Nat) := []
  writes : Bool := false
  transfers : Bool := false
  fault : Option TrapInfo := none
  busy : Option (Nat × Word × Nat) := none
  /-- It needs a resource at its issue, free or not: a blocking point also where it waits no cycle (R35, R388). -/
  needs : Bool := false

/-- Tokens popped from each FIFO: the token bits and the instruction's own (R142, R174). -/
def Req.allPops (r : Req) (st : StrandId) (h : Hdr) : List (Fin 8 × Nat) :=
  [(popFifo st false, h.pbp.toNat + ((assocGet r.pops (popFifo st false)).getD 0)),
   (popFifo st true, h.pbn.toNat + ((assocGet r.pops (popFifo st true)).getD 0))]
/-- Tokens pushed into each FIFO. -/
def Req.allPushes (r : Req) (st : StrandId) (h : Hdr) : List (Fin 8 × Nat) :=
  [(pushFifo st false, h.pap.toNat + ((assocGet r.pushes (pushFifo st false)).getD 0)),
   (pushFifo st true, h.pan.toNat + ((assocGet r.pushes (pushFifo st true)).getD 0))]

/-- The lowest kind of the illegal-instruction fault in the strand's present state (R151, R152, R340). -/
def Req.illegal (r : Req) (t : Strand) (st : StrandId) (h : Hdr) : Option Nat :=
  if !(r.legal.contains st) then some 1
  else
    let k6 := r.priv && !t.level
    let k7 := t.level && (match h.timing with | .stamped _ => true | _ => false)
    match r.ill with
    | some k => if k ≤ 5 then some k else if k6 then some 6 else some k
    | none => if k6 then some 6 else if k7 then some 7 else none

/-- The first unmet condition of R35: class, object and producer (R43, R344). -/
def Req.unmet (r : Req) (k : Core) (t : Strand) (st : StrandId) (h : Hdr) : Option (Nat × Word × Nat) :=
  match (r.allPops st h).find? fun (f, n) => n != 0 && !(k.fifo f).has n with
  | some (f, _) => some (0, BitVec.ofNat 64 (fifoName f), 0)
  | none =>
    match (r.allPushes st h).find? fun (f, n) => n != 0 && !(k.fifo f).room n with
    | some (f, _) => some (1, BitVec.ofNat 64 (fifoName f), 0)
    | none => if r.writes && decide (64 ≤ t.flights.length) then some (10, 64, 0) else none

/-! ### Stall traps (R41, R43) -/

/-- The class of a wait after issue. -/
def Why.cls : Why → Option Nat
  | .held _ _ | .unit _ _ => some 9
  | .object cls _ _ _ _ => some cls
  | .dsync _ => some 8
  | .tfence => some 4
  | .idle | .dtime | .chain => none

/-- The 15-bit field for the producing or taking strand of a FIFO (R43). -/
def producerField (t : Strand) : Nat :=
  match t.run with
  | .retired => 15
  | _ =>
    if t.level then t.tepc.toNat % 2 ^ 15
    else match t.wait.bind (·.why.cls) with
      | some c => 16 * (c + 1) + 15
      | none => match t.blocked with
        | some (c, _, _) => 16 * (c + 1) + 15
        | none => t.pos % 2 ^ 15

/-- TINFO1 of a stall trap (R336): class, producer strand and field, space, cycles waited. -/
def stallInfo (cls prod field space waited : Nat) : Word :=
  BitVec.ofNat 64 (cls + 16 * prod + 256 * (field % 2 ^ 15) + 2 ^ 24 * space + 2 ^ 32 * min waited (2 ^ 32 - 1))

/-- The stall trap of a wait before issue: its record was kept when the condition was last found unmet, and the monitors record the wait (R41, R43,
R388). -/
def State.stallBlocked (s : State) (c : CoreId) (st : StrandId) (b : Nat × Word × Nat) (waited : Nat) : State :=
  let (cls, obj, prod) := b
  let other : Option StrandId :=
    if cls = 0 ∨ cls = 1 then some (.ofNum
      ⟨(if prod ≠ 0 then prod - 1 else if cls = 0 then obj.toNat / 4 else obj.toNat) % 4, Nat.mod_lt _ (by decide)⟩)
    else none
  let (ps, pf) := match other with
    | some o => (o.num.val, producerField (s.strand c o))
    | none => (prod % 16, prod / 16)
  let space := if cls = 9 then prod / 2 ^ 20 else 0
  (s.capture c 1 (some st) waited).trap c st
    { cause := 13, epc := (s.strand c st).pos, i0 := obj
      i1 := stallInfo cls (if cls = 9 then 0 else ps) (if cls = 9 then 0 else pf) space waited }

/-- A command writes accumulators or drains them: what a tfence waits for (R72). -/
def HobOp.arith : HobOp → Bool
  | .mma _ _ _ _ | .mdrain _ _ _ _ _ | .mzero => true
  | _ => false
/-- The hob whose oldest accumulator write a tfence of C awaits, with the position of that command; 15 when only the strand's own results
are awaited (R72, R176). -/
def State.tfenceHob (s : State) (c : CoreId) (st : StrandId) : Nat × Nat :=
  let qs := if st ≠ .c then [] else ((List.finRange 4).map fun h => (((s.core c).hobs[h.val]).cmds.filter (·.op.arith)).map fun m => (h.val, m)).flatten
  match qs.mergeSort fun a b => a.2.dt ≤ b.2.dt with
  | (h, m) :: _ => (h, m.pos)
  | [] => (15, 0)
/-- The object and space that a wait after issue records (R43, R182, R336). -/
def State.waitObject (s : State) (c : CoreId) (st : StrandId) (w : Wait) : Word × Nat :=
  match w.why with
  | .held sp a | .unit sp a => (BitVec.ofNat 64 a, sp)
  | .object cls sp a arg _ => (BitVec.ofNat 64 (a + (if cls = 2 then 2 ^ 48 * (arg.toNat % 65536) else 0)), sp.code.toNat)
  | .dsync l => (BitVec.ofNat 64 (2 ^ 32 * l.val + (s.arrivalsAt c st l.val).length), 0)
  | .tfence => (BitVec.ofNat 64 (s.tfenceHob c st).1, 0)
  | .idle | .dtime | .chain => (0, 0)

/-- The stall trap of a wait after issue (R41). A tfence that awaits no hob names strand C and field 0 as its producer (DESIGN CHOICE beside R176, log
entry 65). -/
def State.stallWait (s : State) (c : CoreId) (st : StrandId) (w : Wait) : State :=
  let (obj, space) := s.waitObject c st w
  let cls := (w.why.cls).getD 9
  let prod := if cls = 4 then 2 else 0
  let s := s.capture c (match w.why with | .held _ _ => 2 | _ => 1) (some st) (w.bound + 1)
  let field := if cls = 4 then (s.tfenceHob c st).2 else 0
  s.trap c st { cause := 13, epc := w.pos, i0 := obj, i1 := stallInfo cls prod field space (w.bound + 1) }

/-! ### Issue -/

/-- The bound of an instruction: its bound word, else SBOUND (R41, R42). -/
def boundOf (h : Hdr) (t : Strand) : Nat := match h.bound with | some b => b.toNat | none => Word.bits t.sbound 0 32
/-- The earliest cycle that DLY and the previous issue allow; for a stamp, the cycle a in which the strand reaches the
instruction (R35, R36). -/
def earliest (h : Hdr) (t : Strand) : Nat := match h.timing with | .after d => t.base + d.val | .stamped _ => t.base
/-- The stamp's signed distance from cycle a (R36). -/
def stampDelta (w : Word32) (a : Nat) : Int := (w - BitVec.ofNat 32 a).toInt

/-- The next position after an issue that does not transfer control: the end of the innermost hardware loop counts down and
goes to the start, or pops its entry (R170). An entry is known by its position number at either level, so an instruction of a handler at that number
acts on it (DESIGN CHOICE, log entry 64). -/
def loopStep (m : Mem) (t : Strand) : Nat × Reach × List LoopEntry :=
  let (n, r) := successor m t.pos
  match t.loops with
  | e :: rest =>
    if e.stop = t.pos then
      if e.rem = 1 then (n, r, rest) else (e.start, .jump, { e with rem := e.rem - 1 } :: rest)
    else (n, r, t.loops)
  | [] => (n, r, [])

/-- The tokens that an instruction pops, oldest first of each FIFO. -/
def Core.popped (k : Core) (st : StrandId) (h : Hdr) (r : Req) : List (Fin 8 × Token) :=
  ((r.allPops st h).map fun (f, n) => ((k.fifo f).toks.take n).map fun t => (f, t)).flatten

/-- A strand learns what the tokens it pops carry; accesses that have performed at every scope need no record (R104). -/
def Strand.learn (k : Core) (t : Strand) (ps : List (Fin 8 × Token)) : Strand :=
  { t with seen := ((t.seen ++ ps.flatMap fun p => p.2.acc).filter k.outstanding).dedup
           due := ps.foldl (fun d p => d ++ p.2.needs.map fun n => (t.seq, n)) t.due }

/-- What every issue does: pops its tokens, reserves its slots, records the issue cycle and moves to the next position. -/
def State.advance (s : State) (c : CoreId) (st : StrandId) (h : Hdr) (r : Req) : State :=
  let m := s.fetchMem c st
  let now := s.now c st
  let ps := (s.core c).popped st h r
  s.updCore c fun k0 =>
    let k := (r.allPops st h).foldl (fun k (f, n) => k.updFifo f (·.pop n)) k0
    let k := (r.allPushes st h).foldl (fun k (f, n) => k.updFifo f (·.reserve n)) k
    let t := k.strand st
    let next := if r.transfers then (t.pos, t.reach, t.loops) else loopStep m t
    k.setStrand st (Strand.learn k0 { t with pos := next.1, reach := next.2.1, loops := next.2.2, prev := some now, base := now + 1
                                             ord := t.ord + 1, blocked := none } ps)

/-- The turn that an issue makes, as the strand stands before it. -/
def State.turn (s : State) (c : CoreId) (st : StrandId) (h : Hdr) (r : Req) : Turn :=
  let t := s.strand c st
  { c := c, st := st, now := s.now c st, pos := t.pos, prev := t.prev, loops := t.loops, pops := (s.core c).popped st h r
    h := h, sys := t.level, ord := t.ord }

/-- An unstamped instruction is a blocking point: it waited, or names tokens or a resource, for which it waited no cycle. The limit of R344 alone
makes none of an instruction that did not wait (R35, R36, R388; DESIGN CHOICE, log entry 61). -/
def Req.blocks (r : Req) (t : Strand) (st : StrandId) (h : Hdr) : Bool :=
  match h.timing with
  | .stamped _ => false
  | .after _ => t.blocked.isSome || r.needs || (r.allPops st h ++ r.allPushes st h).any (·.2 != 0)
/-- The state in which an instruction that issues has its effect: the wait is recorded for the monitors (R388), tokens,
slots and position are as `advance` leaves them. -/
def State.issued (s : State) (c : CoreId) (st : StrandId) (h : Hdr) (r : Req) : State :=
  let t := s.strand c st
  let s' := if r.blocks t st h then s.capture c 1 (some st) (s.now c st - earliest h t) else s
  s'.advance c st h r

/-- What the conditions of R35 say in a cycle in which the instruction could issue by its delay or stamp. -/
inductive Verdict where
  | go
  | fault (f : TrapInfo)
  | wait (u : Nat × Word × Nat)

/-- Judges the conditions in their order: tokens, push space, results in flight, exact faults, resources (R35, R40, R237). -/
def Req.judge (r : Req) (k : Core) (t : Strand) (st : StrandId) (h : Hdr) : Verdict :=
  match r.unmet k t st h with
  | some u => .wait u
  | none => match r.fault with
    | some f => .fault f
    | none => match r.busy with
      | some u => .wait u
      | none => .go

/-- The schedule-miss of a stamped instruction (R36, R336). -/
def missInfo (t : Strand) (w : Word32) (cond : Nat) : TrapInfo :=
  { cause := 12, epc := t.pos, i0 := w.setWidth 64, i1 := BitVec.ofNat 64 (t.base % 2 ^ 48 + 2 ^ 48 * cond) }
/-- The condition code of a schedule-miss for a class of R43 (R336). -/
def missCond (cls : Nat) : Nat := if cls = 0 then 1 else if cls = 1 then 2 else 3

/-- An exact fault found at issue: a walk that meets a translation fault still counts (R329); the trap follows (R336, R337). -/
def State.issueFault (s : State) (c : CoreId) (st : StrandId) (f : TrapInfo) : State :=
  (if f.cause = 6 then s.touch c f.i0.toNat else s).trap c st f

/-- Judges one issue attempt of a strand (R35, R36, R41, R152): it waits, traps, or issues with its effect. -/
def State.attempt (s : State) (c : CoreId) (st : StrandId) (h : Hdr) (r : Req) (act : Turn → State → State) : State :=
  let t := s.strand c st
  let now := s.now c st
  let q := earliest h t
  if now < q then s
  else match r.illegal t st h with
  | some kind => s.trap c st { cause := 3, epc := t.pos, i0 := BitVec.ofNat 64 kind, i1 := (s.baseWord c st).setWidth 64 }
  | none =>
    match h.timing with
    | .stamped w =>
      if stampDelta w q < 0 then s.trap c st (missInfo t w 0)
      else if (now : Int) < q + stampDelta w q then s
      else match r.judge (s.core c) t st h with
        | .wait u => s.trap c st (missInfo t w (missCond u.1))
        | .fault f => s.issueFault c st f
        | .go => act (s.turn c st h r) (s.issued c st h r)
    | .after _ =>
      if t.blocked.isSome ∧ q + boundOf h t < now then s.stallBlocked c st (t.blocked.getD (0, 0, 0)) (boundOf h t + 1)
      else match r.judge (s.core c) t st h with
        | .wait u => s.updStrand c st fun t => { t with blocked := some u }
        | .fault f => s.issueFault c st f
        | .go => act (s.turn c st h r) (s.issued c st h r)

/-- The conditions under which an instruction issues in this cycle (R35, R36, R152). -/
def State.ready (s : State) (c : CoreId) (st : StrandId) (h : Hdr) (r : Req) : Prop :=
  let t := s.strand c st
  earliest h t ≤ s.now c st ∧ r.illegal t st h = none ∧ r.unmet (s.core c) t st h = none ∧ r.fault = none ∧ r.busy = none ∧
    match h.timing with
    | .stamped w => 0 ≤ stampDelta w t.base ∧ (s.now c st : Int) = t.base + stampDelta w t.base
    | .after _ => ¬(t.blocked.isSome ∧ earliest h t + boundOf h t < s.now c st)

/-- One issue attempt of an instruction by the strand whose turn it is. -/
def issue (h : Hdr) (r : Req) (act : Turn → State → State) (s : State) : Host.Outcome State Fault Refusal :=
  match s.cur with
  | none => .fault .noTurn
  | some (c, st) => .next (s.attempt c st h r act)

/-! ### Effects common to many instructions -/

/-- The pushes of the token bits, made in the issue cycle (R40). -/
def State.pushNow (s : State) (u : Turn) : State :=
  if u.h.pap || u.h.pan then s.later u.c u.st 0 latePrio (.push u.c u.st u.h.pap.toNat u.h.pan.toNat) else s
/-- A result of this issue, written `lat` cycles later with its flags and its push (R40, R163, R164). -/
def State.result (s : State) (u : Turn) (lat : Nat) (r : Result) : State :=
  s.fly u.c u.st lat { r with pushP := u.h.pap, pushN := u.h.pan, pos := u.pos, ord := u.ord } true true
/-- A result of this issue whose data arrives later (R343). -/
def State.resultLater (s : State) (u : Turn) (lat : Nat) (r : Result) : State :=
  s.fly u.c u.st lat { r with pushP := u.h.pap, pushN := u.h.pan, pos := u.pos, ord := u.ord } false false
/-- A result of this issue that is no arithmetic: a register read, a wait's outcome (R72). -/
def State.resultRead (s : State) (u : Turn) (lat : Nat) (r : Result) : State :=
  s.fly u.c u.st lat { r with pushP := u.h.pap, pushN := u.h.pan, pos := u.pos, ord := u.ord } true false
/-- The x result of this issue. -/
def State.xres (s : State) (u : Turn) (lat : Nat) (d : XReg) (v : Word) : State := s.result u lat (xResult u.sys d v)
/-- Puts the strand into a wait after this issue (R41); the wait's access, if it makes one, takes the next number. -/
def State.waitFor (s : State) (u : Turn) (why : Why) (d : XReg) (acq : Bool) (cond : Nat) : State :=
  let b := boundOf u.h (s.strand u.c u.st)
  s.updStrand u.c u.st fun t =>
    { t with wait := some { why := why, start := u.now, bound := b, pos := u.pos, prev := u.prev, pops := u.pops, loops := u.loops
                            pushP := u.h.pap, pushN := u.h.pan, dest := d, ord := u.ord, acq := acq, cond := cond, linked := false
                            seq := t.seq, unit := .gm, pa := 0 } }
/-- The turn of an instruction whose wait makes no push of its own when it ends. -/
def Turn.silent (u : Turn) : Turn := { u with h := { u.h with pap := false, pan := false } }
/-- Transfers control to a position in the issue cycle (R165). -/
def State.goto (s : State) (u : Turn) (pos : Nat) (reach : Reach) : State :=
  s.updStrand u.c u.st fun t => { t with pos := pos, reach := reach }

/-- The strand whose turn it is; X of core 0 outside a turn. -/
def State.me (s : State) : CoreId × StrandId := s.cur.getD (0, .x)
/-- The bytes of an own scalar read, each with its cycle: all are read `lat` cycles after issue. -/
def State.readAt (s : State) (a n lat : Nat) : List (Nat × Nat) := (List.range n).map fun i => (a + i, s.now s.me.1 s.me.2 + lat)
/-- Its present strand state. -/
def State.mine (s : State) : Strand := s.strand s.me.1 s.me.2
/-- One of its x registers, at its level (R17, R340). -/
def State.reg (s : State) (r : XReg) : Word := s.mine.rx r
/-- Nothing but the token bits: what nop does (R166). -/
def noEffect (u : Turn) (s : State) : State := s.pushNow u

/-- The positions of a branch target field (R146). -/
def tgtPos (t : BitVec 15) : Nat := t.toNat

end Sys2Proof.Machine
end

