-- ==== Sys2Proof/Machine/Units.lean ====
section
/-! DEFINITION. What happens at the owning units: bank arbitration, loads and stores performing, barrier objects and wait
words, and the ports to GM and XM (R73, R74, R98-R113, R164, R179-R182, R198-R205). -/

namespace Sys2Proof.Machine

/-! ### Bank arbitration (R73, R74) -/

/-- Grants banks of a core's scratchpad in the present cycle, unless one of them has been granted (R74). -/
def State.grant (s : State) (c : CoreId) (banks : List Nat) : Option State :=
  if banks.any fun b => (s.core c).used.contains b then none
  else some (s.updCore c fun k => { k with used := banks ++ k.used })
/-- Grants banks to an access that never loses (R74). -/
def State.claim (s : State) (c : CoreId) (banks : List Nat) : State := s.updCore c fun k => { k with used := banks ++ k.used }

/-- The bytes of the next round: those in the lowest line that each bank still needs, and the rest (R234). -/
def nextRound {α : Type} (addr : α → Nat) (ps : List α) : List α × List α :=
  let first (p : α) : Bool := ps.all fun q => !(bankOf (addr q) == bankOf (addr p) && decide (addr q / 64 < addr p / 64))
  (ps.filter first, ps.filter fun p => !first p)

/-- The distinct banks of listed addresses. -/
def banksOfAddrs (as : List Nat) : List Nat := (as.map bankOf).dedup

/-- The physical address a MEMERR records for scratchpad data: the PS form of its line (R363). -/
def badLineAddr (c : CoreId) (a : Nat) : Nat := c.val * lsSize + a / 64 * 64
/-- The first of the addresses that lies in a scratchpad line with an uncorrectable error. -/
def State.badLs (s : State) (c : CoreId) (as : List Nat) : Option Nat :=
  (as.find? fun a => (s.core c).bad.contains (a / 64 * 64)).map (badLineAddr c)
/-- The first of the physical addresses that lies in an HBM line with an uncorrectable error. -/
def State.badGm (s : State) (as : List Nat) : Option Nat := (as.find? fun a => s.xlate.bad.contains (a / 64 * 64)).map fun a => a / 64 * 64

/-- Corrected errors that reads of a store met (R385, R389). -/
def State.countCorrected (s : State) (store : Fin 9) (n : Nat) : State :=
  { s with life := { s.life with corrected := vmod s.life.corrected store (· + n) } }
/-- Reads of places of a core's store meet its corrected errors there (R385). -/
def State.countPlaces (s : State) (c : CoreId) (store : Fin 9) (ps : List Nat) : State :=
  if (s.core c).corr.isEmpty then s else s.countCorrected store (ps.dedup.filter fun p => (s.core c).corr.contains (store, p)).length
/-- Reads of scratchpad bytes meet the corrected errors of their lines (R385). -/
def State.countLs (s : State) (c : CoreId) (as : List Nat) : State := s.countPlaces c 0 (as.map fun a => a / 64 * 64)
/-- The HBM lines of the addresses that hold a corrected error. -/
def State.correctedIn (s : State) (as : List Nat) : Nat := ((as.map (· / 64 * 64)).dedup.filter s.xlate.corrected.contains).length

/-! ### Waits on objects (R198-R203, R273) -/

/-- The value that a barrier wait delivers (R200). -/
def State.barrierValue (s : State) (p : Place) (status : Nat) : Word :=
  let w := s.word p 16
  BitVec.ofNat 64 (Word.bits w 16 8 * 2 ^ 24 + Word.bits w 0 16 * 2 ^ 8 + status)
/-- The signed 16-bit difference of two phases is at or above 0 (R111). -/
def phaseReached (ph p : Nat) : Bool := decide ((ph + 2 ^ 16 - p % 2 ^ 16) % 2 ^ 16 < 2 ^ 15)
/-- Cycles from the object's unit to a waiting strand's release, and to its x write, by the space that the instruction names: an own object named
in PS counts as a peer's at no hops (R201); none where not exposed. -/
def unitDelay (c : CoreId) (sp : ObjSpace) : MemUnit → Option Nat
  | .ls t => some (if sp = .ls then 2 else 10 + 4 * hops c t)
  | _ => none
/-- The space in which a wait names its object. -/
def Why.space : Why → ObjSpace
  | .object _ sp _ _ _ => sp
  | _ => .ls
/-- Delivers a release to a waiting strand (R201). -/
def State.deliver (s : State) (u : MemUnit) (id : Nat) (v : Word) : State :=
  let (c, st) := waiterOf id
  match (s.strand c st).wait with
  | none => s
  | some w =>
    let s := s.updStrand c st fun t => { t with wait := t.wait.map fun w => { w with linked := false } }
    match unitDelay c w.why.space u with
    | some d => s.later c st d latePrio (.ev (.waitRelease c st w.ord v))
    | none => s.sometime (.ev (.waitRelease c st w.ord v)) latePrio

/-- Check of R199: a barrier with no pending byte and no arrival left completes its phase and releases the waiters whose
phase it reaches, in queue order. -/
def State.checkBarrier (s : State) (p : Place) : State :=
  let w0 := s.word p 0
  let w1 := s.word p 8
  let w2 := s.word p 16
  if Word.bits w0 0 56 = 0 ∧ Word.bits w1 0 32 = 0 then
    let ph := (Word.bits w2 0 16 + 1) % 2 ^ 16
    let s := s.setWordAt p 16 (BitVec.ofNat 64 (Word.bits w2 16 8 * 2 ^ 16 + ph))
    let s := s.setWordAt p 8 (BitVec.ofNat 64 (Word.bits w1 32 32 * 2 ^ 32 + Word.bits w1 32 32))
    let ids := s.waiters p 24
    let goes (id : Nat) : Bool := let (c, st) := waiterOf id; phaseReached ph (Word.bits (s.word (waiterRec c st) 8) 0 16)
    let out := ids.filter goes
    if out.isEmpty then s
    else
      let v := s.barrierValue p 0
      out.foldl (fun u id => u.deliver p.unit id v) (s.requeue p 24 (ids.filter fun i => !goes i) out)
  else s
/-- One arrival (R199). -/
def State.arriveAt (s : State) (p : Place) : State :=
  let w1 := s.word p 8
  let ar := Word.bits w1 0 32
  let s := if ar = 0 then s.setWordAt p 16 (BitVec.ofNat 64 ((s.word p 16).toNat % 2 ^ 24 ||| 2 ^ 17))
    else s.setWordAt p 8 (w1 - 1)
  s.checkBarrier p
/-- Adds to the pending bytes of a barrier, modulo 2^56 (R196, R198). -/
def State.addPending (s : State) (p : Place) (n : Nat) : State :=
  s.setWordAt p 0 (BitVec.ofNat 64 ((Word.bits (s.word p 0) 0 56 + n) % 2 ^ 56))
/-- Count of R196: bytes counted into a barrier, with ERR set first for a failed collective (R209). -/
def State.countAt (s : State) (p : Place) (n : Nat) (err : Bool) : State :=
  let s := if err then s.setWordAt p 16 (BitVec.ofNat 64 ((s.word p 16).toNat % 2 ^ 24 ||| 2 ^ 16)) else s
  (s.addPending p (2 ^ 56 - n % 2 ^ 56)).checkBarrier p
/-- binit (R199): the object starts afresh and every waiter is released with status 2. -/
def State.initBarrier (s : State) (p : Place) (tgt : Word32) (ph : BitVec 16) : State :=
  let ids := s.waiters p 24
  let s := s.setWordAt p 0 0
  let s := s.setWordAt p 8 (BitVec.ofNat 64 (tgt.toNat * 2 ^ 32 + tgt.toNat))
  let s := s.setWordAt p 16 (BitVec.ofNat 64 ph.toNat)
  let v := s.barrierValue p 2
  ids.foldl (fun u id => u.deliver p.unit id v) (s.requeue p 24 [] ids)

/-- The condition of a wait word (R203). -/
def waitCond (cond : Nat) (v op : Word) : Bool :=
  match cond with
  | 0 => v == op | 1 => v != op | 2 => !(v.ult op) | 3 => v.ult op
  | 4 => !(v.slt op) | 5 => v.slt op | 6 => (v &&& op) != 0 | _ => (v &&& op) == 0
/-- A semaphore wait's condition: COUNT at or above N, or ERR set (R255, R273). -/
def semCond (v : Word) (n : Nat) : Bool := decide (n ≤ Word.bits v 0 32) || Word.bits v 32 8 != 0
/-- A waiter queued at a wait word completes on the present value; queue waits never do so (R202, R203). -/
def State.wordWaiterGoes (s : State) (v : Word) (id : Nat) : Bool :=
  let (c, st) := waiterOf id
  let op := s.word (waiterRec c st) 8
  match (s.strand c st).wait with
  | some w => if w.cond = 8 then false else if w.cond = 10 then semCond v (Word.bits op 0 32) else waitCond w.cond v op
  | none => false
/-- Re-tests the waiters of a wait word after a write to its value (R203, R273). -/
def State.retestWord (s : State) (p : Place) : State :=
  let v := s.word p 0
  let ids := s.waiters p 8
  let out := ids.filter (s.wordWaiterGoes v)
  if out.isEmpty then s
  else out.foldl (fun u id => u.deliver p.unit id v) (s.requeue p 8 (ids.filter fun i => !s.wordWaiterGoes v i) out)
/-- The wait words with linked waiters whose value bytes meet a written range of a unit (R203). -/
def State.watched (s : State) (u : MemUnit) (lo n : Nat) : List Nat :=
  ((s.cores.toList.map fun k => k.strands.toList.filterMap fun t => t.wait.bind fun w =>
    if w.linked ∧ w.cond ≠ 9 ∧ w.unit = u ∧ w.pa < lo + n ∧ lo < w.pa + 8 then some w.pa else none).flatten).dedup
/-- Re-tests every wait word that a write meets. -/
def State.retest (s : State) (u : MemUnit) (lo n : Nat) : State :=
  (s.watched u lo n).foldl (fun s a => s.retestWord ⟨u, a⟩) s

/-- wwake (R202): releases the first waiters queued by wqwait, passing over others; answers how many. -/
def State.wake (s : State) (p : Place) (n : Nat) : State × Nat :=
  let ids := s.waiters p 8
  let isQ (id : Nat) : Bool := let (c, st) := waiterOf id; match (s.strand c st).wait with | some w => w.cond == 8 | none => false
  let out := (ids.filter isQ).take n
  if out.isEmpty then (s, 0)
  else
    let v := s.word p 0
    (out.foldl (fun u id => u.deliver p.unit id v) (s.requeue p 8 (ids.filter fun i => !out.contains i) out), out.length)

/-! ### Writes at a unit -/

/-- Lines of a range whose every byte is written lose their uncorrectable error (log entry 11). -/
def coveredLines (bad : List Nat) (lo n : Nat) : List Nat := bad.filter fun l => !(decide (lo ≤ l) && decide (l + 64 ≤ lo + n))
/-- The bytes of a write take their values at a unit: scratchpad, or HBM by physical address (R99, R265). -/
def State.writeUnit (s : State) (u : MemUnit) (a : Nat) (bs : List Byte) : State :=
  match u with
  | .ls c => s.updCore c fun k => { k with ls := k.ls.write a bs, bad := coveredLines k.bad a bs.length
                                           corr := k.corr.filter fun e => e.1 != 0 || !(coveredLines [e.2] a bs.length).isEmpty }
  | .gm => ({ s with gm := s.gm.write a bs, xlate := { s.xlate with bad := coveredLines s.xlate.bad a bs.length } } : State).conflict a bs.length
  | .xm _ => s
/-- Writes consecutive bytes at a unit; wait words are re-tested (R203). -/
def State.storeAt (s : State) (u : MemUnit) (a : Nat) (bs : List Byte) : State :=
  if bs.isEmpty then s else (s.writeUnit u a bs).retest u a bs.length
/-- Replaces the masked bits of a byte. -/
def mergeByte (old new mask : Byte) : Byte := (old &&& ~~~mask) ||| (new &&& mask)
/-- Writes the masked bits of listed bytes at a unit, in list order: a later one remains. Wait words are re-tested once all are written
(R101, R203). -/
def State.scatterAt (s : State) (u : MemUnit) (bs : List (Nat × Byte × Byte)) : State :=
  let s := bs.foldl (fun s (a, b, m) => s.writeUnit u a [mergeByte ((s.unitMem u).get a) b m]) s
  ((bs.map fun b => b.1 / 8).dedup).foldl (fun s w => s.retest u (8 * w) 8) s

/-! ### Atomics (R204) -/

/-- The new value and flags of an atomic from the old value (R204). -/
def atomicNew (o : AtomSpec) (old v cmp : Nat) : Nat × BitVec 6 :=
  let w := o.fmt.bits
  let m := 2 ^ w
  let toI (x : Nat) : Int := if o.fmt.isSigned ∧ x ≥ 2 ^ (w - 1) then (x : Int) - m else x
  match o.op with
  | .swap => (v, 0)
  | .add =>
    let sum := toI old + toI v
    let lo : Int := if o.fmt.isSigned then -(2 ^ (w - 1) : Nat) else 0
    let hi : Int := if o.fmt.isSigned then (2 ^ (w - 1) : Nat) - 1 else m - 1
    if o.sat ∧ sum < lo then ((lo % m).toNat, 1)
    else if o.sat ∧ hi < sum then ((hi % m).toNat, 1)
    else ((sum % m).toNat, 0)
  | .and => (old &&& v, 0)
  | .or => (old ||| v, 0)
  | .xor => (old ^^^ v, 0)
  | .min => (if toI v < toI old then v else old, 0)
  | .max => (if toI old < toI v then v else old, 0)
  | .cas => (if old = cmp then v else old, 0)
  | .fadd => atomicFAdd o.fmt o.rm old v
/-- The old value as it goes to x[D]: sign-extended for s formats, else zero-extended (R204). -/
def atomicOld (o : AtomSpec) (old : Nat) : Word := if o.fmt.isSigned then signExtend (o.fmt.bits / 8) old else BitVec.ofNat 64 old

/-! ### The port to GM and XM (R99, R182) -/

/-- Operations on barrier objects and wait words, which a commit group's shadows do not take (R50). -/
def opDirect : UnitOp → Bool
  | .write _ | .scatter _ | .atomic _ _ _ _ => false
  | _ => true
/-- Plain writes of values known before they perform: they perform at core scope when the core's port accepts them (R99). -/
def opPlain : UnitOp → Bool
  | .write _ | .scatter _ | .wset _ => true
  | _ => false
/-- Atomics (R204). -/
def opAtomic : UnitOp → Bool
  | .atomic _ _ _ _ => true
  | _ => false
/-- The addresses that an operation touches at its unit. -/
def opAddrs (addr : Nat) : UnitOp → List Nat
  | .write bs => (List.range bs.length).map (addr + ·)
  | .scatter bs => bs.map (·.1)
  | .atomic o _ _ _ => (List.range (o.fmt.bits / 8)).map (addr + ·)
  | .wset _ | .npost _ => (List.range 8).map (addr + ·)
  | .wwake _ _ => (List.range 16).map (addr + ·)
  | .binit _ _ | .barr => (List.range 32).map (addr + ·)
/-- The bytes that a plain write puts at its unit, each with the mask of the bits written. -/
def opBytes (addr : Nat) : UnitOp → List (Nat × Byte × Byte)
  | .write bs => ((List.range bs.length).zip bs).map fun p => (addr + p.1, p.2, 0xFF)
  | .wset v => ((List.range 8).zip (leBytes 8 v.toNat)).map fun p => (addr + p.1, p.2, 0xFF)
  | .scatter bs => bs
  | _ => []
/-- The bytes of GM whose translation an operation samples. -/
def opSpan : UnitOp → Nat
  | .scatter _ => 65536
  | .write bs => bs.length
  | .atomic o _ _ _ => o.fmt.bits / 8
  | _ => 32
/-- Two lists of addresses touch a common word (R98). -/
def meet (as bs : List Nat) : Bool := as.any fun a => bs.any fun b => a / 8 == b / 8

/-- The access that work performs when it falls due, or for which it stands in a memory queue. -/
def Work.access : Work → Option Access
  | .ev (.storePerform a) => some a
  | .queued _ _ _ _ _ _ _ _ _ _ (.ev (.storePerform a)) => some a
  | _ => none
/-- The accesses of a core to GM and XM, its own memory queues included, that have not performed at dev, in calendar order. -/
def State.portOf (s : State) (c : CoreId) : List (Nat × Access) :=
  s.cal.filterMap fun d => match d.work.access with
    | some a => if decide (a.core = c) && (match a.unit with | .ls _ => false | _ => true) then some (d.order, a) else none
    | none => none
/-- The store slots that a strand uses, of 16 (R182, R201, R205). -/
def State.slotsUsed (s : State) (c : CoreId) (st : StrandId) : Nat := ((((s.portOf c).filter fun p => p.2.strand == st).map (·.2.ord)).dedup).length
/-- The oldest store of a strand that has not performed: what a stall for a slot records (R182). -/
def State.oldestStore (s : State) (c : CoreId) (st : StrandId) : Option Access :=
  ((((s.portOf c).filter fun p => p.2.strand == st).map (·.2)).mergeSort fun a b => a.seq ≤ b.seq).head?
/-- Where a byte of an access would be written now: in its group's shadow page, where one is in place (R49, R334). -/
def State.placed (s : State) (a : Access) (q : Nat) : Nat :=
  if a.unit == .gm && !opDirect a.op then s.groupPa a.core (a.va + (q - a.addr)) q else q
/-- The addresses that an access touches, where it would perform now. -/
def State.touches (s : State) (a : Access) : List Nat := (opAddrs a.addr a.op).map (s.placed a)
/-- Writes of a core to a unit that its port has accepted and that have not performed, in the order of acceptance (R99). -/
def State.portWrites (s : State) (c : CoreId) (u : MemUnit) : List (Nat × Byte × Byte) :=
  let ps := (((s.portOf c).filter fun p => p.2.posted && p.2.unit == u).map (·.2)).mergeSort fun a b => a.stamp ≤ b.stamp
  (ps.map fun a => (opBytes a.addr a.op).map fun w => (s.placed a w.1, w.2)).flatten
/-- Bytes of a unit with a core's accepted writes over them: what the core's agents read (R99, R102). -/
def State.seenBytes (s : State) (c : CoreId) (u : MemUnit) (as : List Nat) (old : Nat → Byte) : List Byte :=
  let ws := s.portWrites c u
  as.map fun a => ws.foldl (fun b (w, d, m) => if w = a then mergeByte b d m else b) (old a)
/-- Reads HBM bytes as a core's agents see them: the port's writes over the channel's data (R99, R102). -/
def State.gmBytes (s : State) (c : CoreId) (as : List Nat) : List Byte := s.seenBytes c .gm as s.gm.get
/-- A 64-bit word of an object as a core's agents see it (R99). -/
def State.wordFor (s : State) (c : CoreId) (p : Place) (ofs : Nat) : Word :=
  match p.unit with
  | .gm => BitVec.ofNat 64 (leNat (s.gmBytes c ((List.range 8).map (p.addr + ofs + ·))))
  | _ => s.word p ofs
/-- An older access of the strand at the port that an access follows beyond it: plain data performs in issue order, whatever it reaches,
operations on objects in issue order among themselves, and everything at one remote owner or at one word; accesses to different remote owners
have no order (R100, R102, R182, R205, R370). -/
def State.follows (s : State) (a p : Access) : Bool :=
  p.strand == a.strand && decide (p.seq < a.seq) && (match a.unit, p.unit with
    | .xm d, .xm e => d == e
    | .gm, .gm => opDirect a.op == opDirect p.op || meet (s.touches a) (s.touches p)
    | _, _ => !opDirect a.op && !opDirect p.op)
/-- The port does not accept a plain write yet: an older plain write of its strand has not been accepted, or an older access that it follows
performs only at its unit (R99, R102). -/
def State.acceptBlocked (s : State) (a : Access) : Bool :=
  opPlain a.op && (s.portOf a.core).any fun p => p.2.strand == a.strand && decide (p.2.seq < a.seq) &&
    (if opPlain p.2.op then !p.2.posted else s.follows a p.2)
/-- An access to GM or XM waits for an older one that it follows, and for the writes of its core to one of its words that the port has
accepted, a plain write for those accepted before it: each word has one order of writes, and an agent of the core that has seen a write never
sees an earlier one (R100, R102, R104). -/
def State.portBlocked (s : State) (a : Access) : Bool :=
  (s.portOf a.core).any fun p => s.follows a p.2 || (p.2.posted && opPlain p.2.op && p.2.unit == a.unit &&
    (!opPlain a.op || decide (p.2.stamp < a.stamp)) && meet (s.touches a) (s.touches p.2))
/-- An atomic waits for the older atomics of its strand, wherever they perform (R205). -/
def State.atomicWaits (s : State) (a : Access) : Bool :=
  opAtomic a.op && s.cal.any fun d => match d.work.access with
    | some p => p.core == a.core && p.strand == a.strand && decide (p.seq < a.seq) && opAtomic p.op
    | none => false
/-- A read of GM or XM by a strand waits for every older access of the strand that has not performed at core scope (R102). -/
def State.readBlocked (s : State) (c : CoreId) (st : StrandId) (seq : Nat) : Bool :=
  (s.strand c st).outs.any fun o => decide (o.seq < seq) && !o.core
/-- An accepted write of the core, not yet at its unit, meets the words of an object that is to be read there (R99, R102, R104). -/
def State.objectOwed (s : State) (c : CoreId) (u : MemUnit) (as : List Nat) : Bool :=
  (s.portOf c).any fun p => p.2.posted && opPlain p.2.op && p.2.unit == u && meet as (s.touches p.2)
/-- A strand has an atomic under way whose result is arithmetic (R61, R72, R204). -/
def State.pendingArith (s : State) (c : CoreId) (st : StrandId) : Bool :=
  s.cal.any fun d => match d.work.access with
    | some a => decide (a.core = c) && decide (a.strand = st) && (match a.op with
      | .atomic o _ _ _ => o.op == .fadd || o.op == .add
      | _ => false)
    | none => false
/-- Some of several words, by free values: one of them always, any of the others (R101, R112, log entry 4); then the rest. -/
def State.pick {α : Type} (s : State) (ws : List α) : (List α × List α) × State :=
  if ws.length ≤ 1 then ((ws, []), s)
  else
    let n := s.choice
    let first := Config.delay n % ws.length
    let (now, rest) := ws.zipIdx.partition fun w => w.2 == first || Config.choose (n + w.2)
    ((now.map (·.1), rest.map (·.1)), { s with choice := n + ws.length })
/-- The words of a wide access to GM that are accessed now; each word is an access of its own (R101). -/
def State.tear {α : Type} (s : State) (addr : α → Nat) (ps : List α) : (List α × List α) × State :=
  let ((now, _), s) := s.pick (ps.map fun p => addr p / 8).dedup
  (ps.partition fun p => now.contains (addr p / 8), s)

/-! ### Performing (STORE_PERFORM) -/

/-- An access goes on waiting in its memory queue or at its bank: it is judged again in the next cycle of its clock. -/
def State.again (s : State) (a : Access) : State :=
  s.laterOn (if a.sys then .cyc a.core else .dt (s.bidOf a.core)) 1 a.prio (.ev (.storePerform a))
/-- The weight of one cycle of arrival in a rank of class 8 (R74). -/
def arrivalStep : Nat := 2 ^ 76
/-- The rank of an access among those of one class that are served by strand: its strand, then its issue order (R74). -/
def strandRank (st : StrandId) (ord : Nat) : Nat := st.num.val * 2 ^ 64 + ord
/-- The rank of an access that issues now among those that need a bank in its cycle (R74): its own scratchpad in class 5 in ring order, a
peer's in class 8 in the order of arrival, which counts in domain time, then source core, then issue order. -/
def accessPrio (c : CoreId) (st : StrandId) (target : CoreId) (now lat ord : Nat) : Nat :=
  if target = c then bankPrio 5 (strandRank st ord) else bankPrio 8 ((now + lat) * arrivalStep + c.val * 2 ^ 68 + now * 4 + st.num.val)
/-- Work with another rank. -/
def withPrio (p : Nat) : Work → Work
  | .ev (.storePerform a) => .ev (.storePerform { a with prio := p })
  | .lsRead r => .lsRead { r with prio := p }
  | .objRead c st o q u pa poll d _ => .objRead c st o q u pa poll d p
  | w => w
/-- An access of the memory queue reaches its own core's scratchpad (R106). -/
def Work.isLs (c : CoreId) : Work → Bool
  | .ev (.storePerform a) => a.unit == .ls c
  | .lsRead r => decide (r.target = c)
  | .objRead _ _ _ _ u _ _ _ _ => u == .ls c
  | _ => false
/-- The scratchpad and the addresses that a read in a memory queue is for. -/
def Work.reads : Work → Option (MemUnit × List Nat)
  | .lsRead r => some (.ls r.target, r.rounds.flatten.map (·.2))
  | .objRead _ _ _ _ u pa _ _ _ => some (u, (List.range 32).map (pa + ·))
  | _ => none
/-- The work that stands in a strand's memory queue (R106). -/
def State.queueOf (s : State) (c : CoreId) (st : StrandId) : List Due :=
  s.cal.filter fun d => match d.work with
    | .queued _ e o _ _ _ _ _ _ _ _ => decide (e = c) && decide (o = st)
    | _ => false
/-- A read in the memory queue waits for an older store of its strand there that reaches one of its words (R102). -/
def State.behindOwn (s : State) (c : CoreId) (st : StrandId) (seq : Nat) (w : Work) : Bool :=
  match w.reads with
  | none => false
  | some (u, as) => (s.queueOf c st).any fun d => match d.work.access with
    | some a => decide (a.seq < seq) && a.unit == u && meet as (opAddrs a.addr a.op)
    | none => false
/-- The rank of the memory queue's judgements in a cycle: reads before stores, both after the holds (R102, R106). -/
def queuePrio (storing : Bool) : Nat := latePrio + 1 + storing.toNat
/-- Work leaves its strand's memory queue now. -/
def State.leaveQueue (s : State) (clk : Clock) (lat prio : Nat) (far : Bool) (w : Work) : State :=
  if far then s.sometime w prio else s.laterOn clk lat prio w
/-- An access enters its strand's memory queue in its issue cycle; nothing stops it unless a hold, a need or an access there stands (R106). -/
def State.dispatch (s : State) (c : CoreId) (st : StrandId) (ord seq : Nat) (storing : Bool) (needs : List Need) (lat prio : Nat)
    (far : Bool) (w : Work) : State :=
  let t := s.strand c st
  if t.holds.isEmpty && t.due.isEmpty && (s.queueOf c st).isEmpty && needs.isEmpty then s.leaveQueue (s.clock c st) lat prio far w
  else s.later c st 0 (queuePrio storing) (.queued (s.clock c st) c st ord seq storing needs lat prio far w)
/-- A queued access is judged at the end of a cycle: it leaves, or is held one more cycle, by which its latency and its
result's write grow (R102, R105, R106, R110). -/
def State.judgeQueued (s : State) (clk : Clock) (c : CoreId) (st : StrandId) (ord seq : Nat) (storing : Bool) (needs : List Need)
    (lat prio : Nat) (far : Bool) (w : Work) : State :=
  if !(needs.all s.met) || s.isHeld c st seq storing (w.isLs c) || (!storing && s.behindOwn c st seq w) then
    let p := if bankPrio 8 0 ≤ prio ∧ prio < effects then prio + arrivalStep else prio
    (s.laterOn clk 1 (queuePrio storing) (.queued clk c st ord seq storing needs lat p far (withPrio p w))).slip c st ord
  else s.leaveQueue clk lat prio far w
/-- An access to a scratchpad in the calendar: core, strand, number, scratchpad, addresses, whether it writes. -/
def Work.lsAccess : Work → Option (CoreId × StrandId × Nat × CoreId × List Nat × Bool)
  | .ev (.storePerform a) => match a.unit with
    | .ls t => some (a.core, a.strand, a.seq, t, opAddrs a.addr a.op, true)
    | _ => none
  | .lsRead r => some (r.core, r.strand, r.seq, r.target, r.rounds.flatten.map (·.2), false)
  | .objRead c st _ seq u pa _ _ _ => match u with
    | .ls t => some (c, st, seq, t, (List.range 32).map (pa + ·), false)
    | _ => none
  | .queued _ _ _ _ _ _ _ _ _ _ w => w.lsAccess
  | _ => none
/-- An access to a scratchpad waits for an older one of its strand there that reaches one of its words, where one of the two writes: its strand
never sees them exchanged (R100, R102, log entry 18). -/
def State.crosses (s : State) (clk : Clock) (c : CoreId) (st : StrandId) (seq : Nat) (t : CoreId) (as : List Nat) (write : Bool) : Bool :=
  s.cal.any fun d => d.clock == clk && (match d.work.lsAccess with
    | some (e, o, n, t', bs, w) => decide (e = c) && decide (o = st) && decide (n < seq) && decide (t' = t) && (write || w) && meet as bs
    | none => false)
/-- The bytes of banks that an operation at a scratchpad needs. -/
def opBanks (addr : Nat) : UnitOp → List Nat
  | .write bs => banksOf addr bs.length
  | .scatter bs => banksOfAddrs (bs.map (·.1))
  | _ => [bankOf addr]

/-- The pushes of an access, made in the effects of the present cycle (R40). -/
def State.pushAccess (s : State) (a : Access) : State :=
  if a.pushP || a.pushN then
    s.laterOn (if a.sys then .cyc a.core else .dt (s.bidOf a.core)) 0 latePrio (.push a.core a.strand a.pushP.toNat a.pushN.toNat)
  else s

/-- The write of a result whose cycle was not known falls due some cycles from now (R201). -/
def State.dueIn (s : State) (c : CoreId) (st : StrandId) (ord lat : Nat) : State :=
  s.updStrand c st fun t => t.updFlight ord (fun f => { f with w := (if f.sys then (s.core c).cyc else s.dt c) + lat }) 0

/-- The operation of an access at its place, in one step (R113, R199, R202, R204, R273), with the value it returns, the flags
it raises, and whether it returns one. -/
def State.operate (s : State) (p : Place) : UnitOp → State × Word × BitVec 6
  | .write bs => (s.storeAt p.unit p.addr bs, 0, 0)
  | .scatter bs => (s.scatterAt p.unit bs, 0, 0)
  | .atomic o v cmp _ =>
    let n := o.fmt.bits / 8
    let old := leNat ((s.unitMem p.unit).read p.addr n)
    let (new, f) := atomicNew o old (v.toNat % 2 ^ (8 * n)) (cmp.toNat % 2 ^ (8 * n))
    (s.storeAt p.unit p.addr (leBytes n new), atomicOld o old, f)
  | .binit tgt ph => (s.initBarrier p tgt ph, 0, 0)
  | .barr => (s.arriveAt p, 0, 0)
  | .wset v => (s.storeAt p.unit p.addr (leBytes 8 v.toNat), 0, 0)
  | .wwake n _ => let (s, k) := s.wake p n.toNat; (s, BitVec.ofNat 64 k, 0)
  | .npost n =>
    let w := s.word p 0
    ((s.storeAt p.unit p.addr (leBytes 8 (Word.bits w 32 8 * 2 ^ 32 + (Word.bits w 0 32 + n.toNat) % 2 ^ 32))).retestRecords, 0, 0)

/-- The destination register of an operation that returns a value. -/
def opDest : UnitOp → Option XReg
  | .atomic _ _ _ d => if d = 0 then none else some d
  | .wwake _ d => some d
  | _ => none
/-- A binding ends with a status: its strands issue nothing more, and the interrupts pending on them are discarded, of which the Librarian learns
(R321, R347, R364); its end is reported by the completion events. -/
def State.endBinding (s : State) (bid status : Nat) : State :=
  let s := s.updBinding bid fun b => { b with status := b.status.or (some status) }
  match s.binding bid with
  | none => s
  | some b => b.members.foldl (fun (s : State) c =>
      if s.bidOf c ≠ bid then s else [StrandId.x, .l, .c, .s].foldl (fun (s : State) st => s.dropInterrupt c st) s) s

/-- A group's own accesses to a page, which wait for its shadow, sample it anew later (R330, R334). -/
def State.unsample (s : State) (b : Binding) (va bits : Nat) : State :=
  let here (a : Nat) : Bool := a / 2 ^ bits * 2 ^ bits == va
  b.members.foldl (fun (s : State) c =>
    let s := (s.portOf c).foldl (fun (s : State) p =>
      if p.2.unit == .gm && !opDirect p.2.op && here p.2.va then
        s.updStrand c p.2.strand fun t => { t with outs := t.outs.map fun o => if o.seq = p.2.seq then { o with samples := [] } else o }
      else s) s
    s.updCore c fun k => { k with copies := k.copies.map fun p => if p.words.isSome then p else { p with srcAt := p.srcAt.filter fun q => !here q.va } }) s
/-- The page of a commit-group write begins to be shadowed (R334): a page from the part of the shadow pool that serves the group's partition, its
QUOTA charged, SH in the original's leaf, and the page's invalidation, after which it is filled. A group out of quota, or that writes a 1 GiB page,
ends with QUOTA (R49); while the pool has no page nothing happens. -/
def State.fillShadow (s : State) (bid va : Nat) : State :=
  match s.binding bid with
  | none => s
  | some b =>
    match walkFrom s.gm va 4 0 b.root with
    | .error _ => s
    | .ok l =>
      let cost := if l.bits = 21 then 32 else 1
      if l.bits = 30 ∨ Word.bits (b.launch.words[21]) 0 24 < b.quota + cost then s.endBinding bid 9
      else
        match s.xlate.pool.find? fun p => p.2 == l.bits && assocGet s.lib.poolStripes (p.1 / 2 ^ 30) == some b.part with
        | none => s
        | some (page, _) =>
          let sh : Shadow := ⟨va / 2 ^ l.bits * 2 ^ l.bits, l.bits, npa l.entry, page, l.place, false, s.xlate.nextInval, s.xlate.qcur⟩
          let s := { s with gm := s.gm.setWord l.place (l.entry ||| 0x20), xlate := { s.xlate with pool := s.xlate.pool.filter fun p => p.1 != page } }
          ((s.unsample b sh.va l.bits).updBinding bid fun b => { b with shadows := b.shadows ++ [sh], quota := b.quota + cost }).ownInval b.asid sh.va l.bits
/-- A shadow page takes its original's bytes; from now on every member uses it (R334). -/
def State.copyShadow (s : State) (bid : Nat) (h : Shadow) : State :=
  ({ s with gm := Mem.write s.gm h.copy (s.gm.read h.orig (2 ^ h.bits)) } : State).updBinding bid fun b =>
    { b with shadows := b.shadows.map fun g => if g.va = h.va then { g with filled := true } else g }

/-- Where a write of a core takes place in GM: at its address, or in its group's shadow page; it waits until that is filled, or it is dropped with
its group. -/
inductive Shadowed where
  | at (pa : Nat)
  | wait
  | gone
  deriving DecidableEq, Repr
/-- The place of a core's write to a page, whose shadowing it begins where its group has none (R49, R334). -/
def State.shadowed (s : State) (c : CoreId) (va pa : Nat) : State × Shadowed :=
  match s.bindingOf c with
  | none => (s, .at pa)
  | some b =>
    if !b.cg then (s, .at pa)
    else
      let s := if (b.shadowOf va).isSome then s else s.fillShadow b.bid va
      (s, match s.bindingOf c with
        | none => .gone
        | some b => match b.shadowOf va with
          | some h => if h.filled then .at (h.copy + va % 2 ^ h.bits) else .wait
          | none => if b.status.isSome then .gone else match walkFrom s.gm va 4 0 b.root with | .ok _ => .wait | .error _ => .gone)
/-- An access samples its translation anew, or gives its sample up while it waits (R330). -/
def State.resample (s : State) (a : Access) (keep : Bool) : State :=
  let sm := if keep then s.sampling (s.core a.core).asid [(a.va, opSpan a.op)] else []
  s.updStrand a.core a.strand fun t => { t with outs := t.outs.map fun o => if o.seq = a.seq ∧ (!keep || o.samples.isEmpty) then { o with samples := sm } else o }

/-- The rank of an operation beyond the port within a tick: wakes come after the queue waits of the same tick (R111). -/
def farPrio : UnitOp → Nat
  | .wwake _ _ => effects + 1
  | _ => effects
/-- The strand is held by the instruction of an access (R182, R205). -/
def State.holdsFor (s : State) (a : Access) : Bool := match (s.strand a.core a.strand).wait with | some w => decide (w.ord = a.ord) | none => false
/-- The returned value of an access that has performed beyond the port: a held strand takes it in this tick, whether or not its clock stands,
and goes on; otherwise the result in flight since its issue is written two cycles later (R41, R164, R201, R205, R349). -/
def State.farResult (s : State) (a : Access) (v : Word) : State :=
  if s.holdsFor a then s.post .hc s.hc latePrio (.unitDone a.core a.strand a.ord (some v))
  else ((s.pushAccess a).dueIn a.core a.strand a.ord 2).arrive a.core a.strand a.ord (v.setWidth 2048) 0 none
/-- An access in flight to a device that has left: the hold of an atomic ends with the space-access fault; a write is discarded and its
binding ends with FAULT (R371). -/
def State.loseAccess (s : State) (a : Access) : State :=
  let s := s.accessDone a.core a.strand a.seq
  let held := match (s.strand a.core a.strand).wait with | some w => decide (w.ord = a.ord) && (opDest a.op).isSome | none => false
  if held then s.trap a.core a.strand { cause := 5, epc := a.pos, i0 := BitVec.ofNat 64 a.va, i1 := 3 }
  else s.endBinding (s.bidOf a.core) 1
/-- An access performs at an HBM place when its channels serve it: bytes of a vector store word by word, any other operation in one step, with
its flags, its result and its push (R40, R71, R101, R113, R268). -/
def State.performAt (s : State) (a : Access) (p : Nat) : State :=
  let again (s : State) : State := s.post .hc (s.hc + 1) (farPrio a.op) (.ev (.storePerform a))
  match a.op with
  | .scatter bs =>
    let ((now, rest), s) := s.tear (·.1) bs
    let ws := now.map fun (q, b, m) => (q - a.addr + p, b, m)
    (match s.serve .md (ws.map (·.1)) with
    | (s, false) => again s
    | (s, true) =>
      let s := s.scatterAt .gm ws
      if rest.isEmpty then s.accessDone a.core a.strand a.seq else s.sometime (.ev (.storePerform { a with op := .scatter rest })) effects)
  | op =>
    match s.serve .md (opAddrs p op) with
    | (s, false) => again s
    | (s, true) =>
      let (s, v, f) := (s.accessDone a.core a.strand a.seq).operate ⟨.gm, p⟩ op
      let s := s.raise a.core a.strand f
      if (opDest op).isSome then s.farResult a v
      else if opPlain op && !opDirect op then s else s.pushAccess a
/-- An access that its owner refuses: the hold of an atomic ends with the trap, and a write is discarded with an event, its binding ending with
FAULT (R369). -/
def State.refuseAccess (s : State) (a : Access) (i : TrapInfo) : State :=
  let s := s.accessDone a.core a.strand a.seq
  if s.holdsFor a then s.trap a.core a.strand i
  else
    let s := if opPlain a.op && !opDirect a.op then s else s.pushAccess a
    (s.event 7 [BitVec.ofNat 64 a.va]).endBinding (s.bidOf a.core) 1
/-- The memory error of an atomic's own read, at the atomic (R179, R271, R369). -/
def atomicMemErr (a : Access) (line : Word) : TrapInfo := { cause := 11, epc := a.pos, i0 := line, i1 := BitVec.ofNat 64 a.pos }
/-- What an operation returns and the flags it raises, from the value at its place: an atomic's follow from the old value (R71, R204). -/
def farValue (op : UnitOp) (d : Word) : Word × BitVec 6 :=
  match op with
  | .atomic o v cmp _ =>
    let m := 2 ^ o.fmt.bits
    (atomicOld o (d.toNat % m), (atomicNew o (d.toNat % m) (v.toNat % m) (cmp.toNat % m)).2)
  | _ => (d, 0)
/-- An access to a remote window performs at its owner: in this device's own window at the place its domain table gives, with the owner's
fault where it gives none and its memory error at a bad line; at another device by free values, and nowhere once that has left (R369, R371, log
entry 10). -/
def State.performXm (s : State) (a : Access) (dev : Nat) : State :=
  let acc : Acc := match a.op with | .atomic _ _ _ _ => .atomic | _ => .write
  let xlate (kind lvl : Nat) : TrapInfo :=
    { cause := 6, epc := a.pos, i0 := BitVec.ofNat 64 a.va, i1 := BitVec.ofNat 64 (kind + 4 * lvl + 16 * acc.code + 0xFFFF0000) }
  if dev = s.devId then
    match s.hit none 0xFFFF s.xlate.domRoot false true a.addr acc with
    | .pa p _ => (match s.badGm ((opAddrs a.addr a.op).map fun q => q - a.addr + p) with
      | some line => (s.errorRecord 5 line (s.bidOf a.core) a.core.val).refuseAccess a (atomicMemErr a (BitVec.ofNat 64 line))
      | none => s.performAt a p)
    | .fault k l => s.refuseAccess a (xlate k l)
    | _ => s.refuseAccess a (xlate 0 0)
  else if !(s.lib.domMembers.contains dev) then s.loseAccess a
  else
    let (n, s) := s.draw
    if Config.choose n then
      let (m, s) := s.draw
      s.refuseAccess a (if Config.choose m then xlate (Config.delay m % 4) (Config.delay m / 4 % 4) else atomicMemErr a (Config.datum m))
    else
      let s := s.accessDone a.core a.strand a.seq
      -- the old value is free; the flags follow from it (R71, R204)
      let (v, f) := farValue a.op (Config.datum n)
      let s := s.raise a.core a.strand f
      if (opDest a.op).isSome then s.farResult a v
      else if opPlain a.op && !opDirect a.op then s else s.pushAccess a
/-- An access performs at its unit, or waits: for the accesses it orders, for its bank, or for older stores of its strand. -/
def State.performAccess (s : State) (a : Access) : State :=
  match a.unit with
  | .ls t =>
      let (now, rest) : UnitOp × List (Nat × Byte × Byte) := match a.op with
        | .scatter bs => let (f, r) := nextRound (·.1) bs; (.scatter f, r)
        | o => (o, [])
      let clk := if a.sys then Clock.cyc a.core else .dt (s.bidOf a.core)
      match (if s.atomicWaits a || s.crosses clk a.core a.strand a.seq t (opAddrs a.addr now) true then none else s.grant t (opBanks a.addr now)) with
      | none => (s.again a).slip a.core a.strand a.ord
      | some s =>
        let (s, v, f) := s.operate ⟨.ls t, a.addr⟩ now
        if !rest.isEmpty then s.again { a with op := .scatter rest }
        else
          let s := (s.accessDone a.core a.strand a.seq).raise a.core a.strand f
          if (opDest a.op).isSome then (if opDirect a.op then s.pushAccess a else s).arrive a.core a.strand a.ord (v.setWidth 2048) 0 none
          else s.pushAccess a
  | .gm | .xm _ =>
    if !a.posted then
      if s.acceptBlocked a then s.again a
      else
      let s := if opPlain a.op then s.coreDone a.core a.strand a.seq else s
      let s := if opPlain a.op && !opDirect a.op then s.pushAccess a else s
      s.sometime (.ev (.storePerform { a with posted := true, stamp := s.order })) (farPrio a.op)
    else if s.portBlocked a || s.atomicWaits a then s.post .hc (s.hc + 1) (farPrio a.op) (.ev (.storePerform a))
    else match a.unit with
      | .xm dev => s.performXm a dev
      | _ => match (if opDirect a.op then (s, Shadowed.at a.addr) else s.shadowed a.core a.va a.addr) with
        | (s, .wait) => (s.resample a false).post .hc (s.hc + 1) (farPrio a.op) (.ev (.storePerform a))
        | (s, .at p) =>
          let s := s.resample a true
          match (if s.holdsFor a && (opDest a.op).isSome then s.badGm (opAddrs p a.op) else none) with
          | some line => (s.errorRecord 5 line (s.bidOf a.core) a.core.val).refuseAccess a (atomicMemErr a (BitVec.ofNat 64 line))
          | none => s.performAt a p
        | (s, .gone) => s.accessDone a.core a.strand a.seq

/-! ### Loads -/

/-- The place of one nibble of a byte read into a result: destination nibble and source nibble (R76, R232). Places below 65,536
are byte numbers. -/
def nibblePlace (dst src : Nat) : Nat := 65536 + 2 * dst + src % 2
/-- Places a byte, or one of its nibbles, into a 2,048-bit value. -/
def placeByte (v : VecData) (i : Nat) (b : Byte) : VecData :=
  if i < 65536 then merge v (atBit b.toNat (8 * i)) (atBit 255 (8 * i))
  else
    let d := (i - 65536) / 2
    merge v (atBit (bitsAt b.toNat (4 * (i % 2)) 4) (4 * d)) (atBit 15 (4 * d))
/-- Places bytes into a 2,048-bit value. -/
def placeBytes (v : VecData) (bs : List (Nat × Byte)) : VecData := bs.foldl (fun v (i, b) => placeByte v i b) v
/-- The value of a load in its register: extended from `n` bytes when scalar (R179). -/
def loadValue (sext : Nat) (v : VecData) : VecData := if sext = 0 then v else (signExtend sext v.toNat).setWidth 2048

/-- One round of a scratchpad read (R107, R234): the data completes with the last round. Of several vector loads that need a bank in one cycle the
strands' order X, L, C, S decides, then issue order (DESIGN CHOICE, log entry 50). -/
def State.readLs (s : State) (r : LsRead) : State :=
  let clk := if ((s.strand r.core r.strand).flight r.ord).elim false (·.sys) then Clock.cyc r.core else .dt (s.bidOf r.core)
  let again (s : State) (r : LsRead) : State := s.post clk (s.read clk + 1) r.prio (.lsRead r)
  match r.rounds with
  | [] => s
  | now :: rest =>
    match (if s.crosses clk r.core r.strand r.seq r.target (now.map (·.2)) false then none else s.grant r.target (banksOfAddrs (now.map (·.2)))) with
    | none => (again s r).slip r.core r.strand r.ord
    | some s =>
      let k := s.core r.target
      let got := now.map fun (i, a) => (i, k.ls.get a)
      let bad := (s.badLs r.target (now.map (·.2))).map (((0 : Fin 9), ·))
      let s := s.countLs r.target (now.map (·.2))
      let t := s.strand r.core r.strand
      let cur : Option Flight := match t.flight r.ord with
        | some f => some f
        | none => (t.allLatches.find? fun l => l.fl.ord == r.ord).map (·.fl)
      match cur with
      | none => s.accessDone r.core r.strand r.seq
      | some f =>
        let v := placeBytes f.res.data got
        let poison := f.res.poison.or bad
        if rest.isEmpty then
          ((s.accessDone r.core r.strand r.seq).updStrand r.core r.strand fun t =>
            t.updFlight r.ord (fun f => { f with pops := if poison.isSome then r.pops else [] }) 0).arrive r.core r.strand r.ord (loadValue r.sext v) 0 poison
        else
          again (s.updStrand r.core r.strand fun t => t.updFlight r.ord (fun f => { f with res := { f.res with data := v, poison := poison } }) 0)
            { r with rounds := rest }

/-- Splits the bytes of an access into its rounds (R234). -/
def roundsOf : Nat → List (Nat × Nat) → List (List (Nat × Nat))
  | 0, _ => []
  | fuel + 1, ps => if ps.isEmpty then [] else let (f, r) := nextRound (·.2) ps; f :: roundsOf fuel r

/-- The trap of poisoned data that reaches its write: MEMERR, asynchronous, at the next unissued instruction (R233, R336,
R346, R386). -/
def State.memErr (s : State) (c : CoreId) (st : StrandId) (store : Fin 9) (addr pos : Nat) : State :=
  let s := s.errorRecord store addr (s.bidOf c) c.val
  s.trap c st { cause := 11, epc := (s.strand c st).pos, i0 := BitVec.ofNat 64 addr, i1 := BitVec.ofNat 64 pos, async := true }

/-- The bytes of a load beyond the port, by their places in the result: what its core sees in GM or in this device's own window, with the
owner's faults, whose address is the whole XM operand; at another device a free value (R25, R99, R102, R118, R179, R369, R371). The trap ends the load's hold at the load itself. -/
def State.farData (s : State) (c : CoreId) (w : Wait) (dev : Option Nat) (cells : List (Nat × Nat)) : State × Except TrapInfo (List (Nat × Byte)) :=
  let as := cells.map (·.2)
  let a0 := as.headD 0
  let memErr (s : State) (a : Nat) : State × Except TrapInfo (List (Nat × Byte)) :=
    (s.errorRecord 5 a (s.bidOf c) c.val, .error { cause := 11, epc := w.pos, i0 := BitVec.ofNat 64 a, i1 := BitVec.ofNat 64 w.pos })
  let va := dev.getD 0 % 2 ^ 14 * 2 ^ 48 + a0
  let xlate (k l : Nat) : TrapInfo := { cause := 6, epc := w.pos, i0 := BitVec.ofNat 64 va, i1 := BitVec.ofNat 64 (k + 4 * l + 0xFFFF0000) }
  match dev with
  | none => match s.badGm as with
    | some a => memErr s a
    | none => (s.countCorrected 5 (s.correctedIn as), .ok ((cells.map (·.1)).zip (s.gmBytes c as)))
  | some d =>
    if d = s.devId then
      match s.hit none 0xFFFF s.xlate.domRoot false true a0 .read with
      | .pa p _ => match s.badGm (as.map fun a => a - a0 + p) with
        | some a => memErr s a
        | none => (s, .ok ((cells.map (·.1)).zip (s.seenBytes c (.xm d) as fun a => s.gm.get (a - a0 + p))))
      | .fault k l => (s, .error (xlate k l))
      | _ => (s, .error (xlate 0 0))
    else if !(s.lib.domMembers.contains d) then (s, .error { cause := 5, epc := w.pos, i0 := BitVec.ofNat 64 va, i1 := 3 })
    else
      let (n, s) := s.draw
      if Config.choose n then
        let (m, s) := s.draw
        if Config.choose m then (s, .error (xlate (Config.delay m % 3) (Config.delay m / 4 % 4)))
        else (s, .error { cause := 11, epc := w.pos, i0 := Config.datum m, i1 := BitVec.ofNat 64 w.pos })
      else (s, .ok ((cells.map (·.1)).zip (s.seenBytes c (.xm d) as fun a => BitVec.ofNat 8 ((Config.datum n).toNat / 256 ^ (a - a0)))))
/-- The data of a GM or XM load arrives, word by word for a wide one; with the last word the register is written in this tick, also while the
strand's clock stands, and the hold ends (R101, R163, R164, R182, R215, R235, R349). -/
def State.readFar (s : State) (c : CoreId) (st : StrandId) (ord seq : Nat) (dev : Option Nat) (cells : List (Nat × Nat))
    (sext : Nat) (vas : List Nat) : State :=
  match (s.strand c st).wait, (s.strand c st).flight ord with
  | some w, some f =>
    let place (p : (Nat × Nat) × Nat) : Nat := if dev.isNone then s.groupPa c p.2 p.1.2 else p.1.2
    let all := cells.zip vas
    if w.ord ≠ ord then s
    else if s.readBlocked c st seq then
      s.post .hc (s.hc + 1) effects (.farRead c st ord seq dev cells sext vas)
    else
      let ((now, rest), s) := s.tear place all
      match (if dev.isNone then s.serve .md (now.map place) else (s, true)) with
      | (s, false) => s.post .hc (s.hc + 1) effects (.farRead c st ord seq dev cells sext vas)
      | (s, true) =>
      match s.farData c w dev (now.map fun p => (p.1.1, place p)) with
      | (s, .error i) => s.trap c st i
      | (s, .ok bytes) =>
        let v := placeBytes f.res.data bytes
        if rest.isEmpty then
          let s := (s.accessDone c st seq).updStrand c st fun t =>
            t.updFlight ord (fun f => { f with w := s.now c st, ready := true, res := { f.res with data := loadValue sext v, pushP := false, pushN := false } }) 0
          (s.post .hc s.hc (writePrio st ord) (.flight c st ord)).endWait c st 0
        else
          (s.updStrand c st fun t => t.updFlight ord (fun f => { f with res := { f.res with data := v } }) 0).sometime
            (.farRead c st ord seq dev (rest.map (·.1)) sext (rest.map (·.2))) effects
  | _, _ => s

/-- The rank of the judgement of a wait that reached its object in this cycle: after every update of the cycle (R111). -/
def judgePrio : Nat := effects + 32
/-- A wait that has reached its object completes on what the object then holds, or links the strand's waiter record (R111, R200, R202, R203,
R273). -/
def State.judgeWait (s : State) (c : CoreId) (st : StrandId) (ord : Nat) (u : MemUnit) (pa : Nat) : State :=
  let p : Place := ⟨u, pa⟩
  match (s.strand c st).wait with
  | none => s
  | some w =>
    if w.ord ≠ ord then s
    else
      let arg := match w.why with | .object _ _ _ a _ => a | _ => 0
      let val := s.wordFor c p 0
      let v := if w.cond = 9 then s.barrierValue p 0 else val
      let done : Bool :=
        if w.cond = 9 then phaseReached (Word.bits (s.word p 16) 0 16) (Word.bits arg 0 16)
        else if w.cond = 8 then false
        else if w.cond = 10 then semCond val (Word.bits arg 0 32)
        else waitCond w.cond val arg
      if done then s.later c st 0 latePrio (.ev (.waitRelease c st ord v))
      else
        let s := s.link p (if w.cond = 9 then 24 else 8) (waiterId c st) (if w.cond < 8 then w.cond else 0) arg
        s.updStrand c st fun t => { t with wait := t.wait.map fun w => { w with linked := true } }
/-- A read of an object at another device, whose bytes are not part of this one: a poll's value and a wait's completion are free values
(R369, log entry 10). -/
def State.readRemote (s : State) (c : CoreId) (st : StrandId) (ord poll : Nat) : State :=
  let (n, s) := s.draw
  if poll ≠ 0 then (s.dueIn c st ord 2).arrive c st ord ((Config.datum n).setWidth 2048) 0 none
  else if Config.choose n then s.sometime (.ev (.waitRelease c st ord (Config.datum n))) latePrio
  else s
/-- A read of an object by a wait or a poll. A poll answers with one read of the object. A wait is judged after the updates of the cycle, but a
queue wait is linked at once, so that a wake of the same cycle finds it (R111, R200-R203). -/
def State.readUnit (s : State) (c : CoreId) (st : StrandId) (ord seq : Nat) (u : MemUnit) (pa poll : Nat) (d : XReg) (prio : Nat) : State :=
  let p : Place := ⟨u, pa⟩
  let as := (List.range 32).map (pa + ·)
  let granted : State × Bool := match u with
    | .ls t => (match (if s.crosses (s.clock c st) c st seq t as false then none else s.grant t [bankOf pa]) with | some s => (s, true) | none => (s, false))
    | _ => if s.readBlocked c st seq || s.objectOwed c u as then (s, false) else s.serve .md as
  match granted with
  | (s, false) => (match u with
    | .ls _ => (s.later c st 1 prio (.objRead c st ord seq u pa poll d prio)).slip c st ord
    | _ => s.post .hc (s.hc + 1) prio (.objRead c st ord seq u pa poll d prio))
  | (s, true) =>
    let s := s.accessDone c st seq
    if poll ≠ 0 then
      let w2 := s.wordFor c p 16
      let v : Word := if poll = 1 then BitVec.ofNat 64 (Word.bits (s.wordFor c p 8) 0 32 * 2 ^ 32 + Word.bits w2 16 8 * 2 ^ 16 + Word.bits w2 0 16)
        else s.wordFor c p 0
      let s := match u with | .ls _ => s | _ => s.dueIn c st ord 2
      s.arrive c st ord (v.setWidth 2048) 0 none
    else if (match (s.strand c st).wait with | some w => w.cond == 8 | none => false) then s.judgeWait c st ord u pa
    else s.post .hc s.hc judgePrio (.objJudge c st ord u pa)
/-- A read of an object reaches it: an object in a remote window is read at its owner, in GM when that is this device (R369). -/
def State.readObject (s : State) (c : CoreId) (st : StrandId) (ord seq : Nat) (u : MemUnit) (pa poll : Nat) (d : XReg) (prio : Nat) : State :=
  match u with
  | .xm dev =>
    let s := s.accessDone c st seq
    if dev = s.devId then
      match s.hit none 0xFFFF s.xlate.domRoot false true pa .read with
      | .pa p _ =>
        (s.updStrand c st fun t => { t with wait := t.wait.map fun w => if w.ord = ord then { w with unit := .gm, pa := p } else w }).readUnit
          c st ord seq .gm p poll d prio
      | .fault k l => (match (s.strand c st).wait with
        | some w =>
          if w.ord = ord ∧ poll = 0 then
            s.trap c st { cause := 6, epc := w.pos, i0 := BitVec.ofNat 64 pa, i1 := BitVec.ofNat 64 (k + 4 * l + 0xFFFF0000) }
          else s.readRemote c st ord poll
        | none => s.readRemote c st ord poll)
      | _ => s.readRemote c st ord poll
    else s.readRemote c st ord poll
  | _ => s.readUnit c st ord seq u pa poll d prio

/-- A wait on an object completes in this cycle (R201): its pushes are made and x[D] is written at the offset of its space. -/
def State.release (s : State) (c : CoreId) (st : StrandId) (ord : Nat) (v : Word) : State :=
  let t := s.strand c st
  match t.wait with
  | none => s
  | some w =>
    if w.ord ≠ ord ∨ s.now c st > w.start + w.bound then s
    else
      let lat := (unitDelay c w.why.space w.unit).getD 2
      let s := s.endWait c st 0
      let r := { xResult t.level w.dest v with pos := w.pos, ord := ord }
      let due := s.now c st + lat
      let s := s.updStrand c st fun t => { t with flights := t.flights ++ [⟨ord, due, r, true, t.level, false, []⟩] }
      s.post (s.clock c st) due (writePrio st ord) (.flight c st ord)

/-! ### Sending accesses at issue -/

/-- Sends a write, atomic or object update on its way with a rank at its bank: it reaches its scratchpad `lat` cycles after it
leaves the memory queue, or its core's port then (R164, R182, R201). -/
def State.sendAs (s : State) (u : Turn) (unit : MemUnit) (addr va : Nat) (op : UnitOp) (lat prio : Nat) (needs : List Need) : State :=
  let a : Access := { core := u.c, strand := u.st, seq := (s.strand u.c u.st).seq, unit := unit, addr := addr, op := op
                      pushP := u.h.pap, pushN := u.h.pan, pos := u.pos, sys := u.sys, ord := u.ord, posted := false, va := va
                      epoch := s.xlate.qcur, prio := prio }
  (s.access u.c u.st (match op with | .atomic _ _ _ _ => true | _ => false) unit (if unit = .gm then [(va, opSpan op)] else [])).dispatch u.c u.st u.ord a.seq true needs lat prio false (.ev (.storePerform a))
/-- Sends a scalar access with the rank of R74. -/
def State.sendAccess (s : State) (u : Turn) (unit : MemUnit) (addr va : Nat) (op : UnitOp) (lat : Nat) (needs : List Need) : State :=
  s.sendAs u unit addr va op lat (match unit with | .ls t => accessPrio u.c u.st t (s.dt u.c) lat u.ord | _ => effects) needs
/-- Sends a scratchpad read on its way: its banks are read `lat` cycles after it leaves the memory queue. The rank within a class of R74 that
names no order is that of log entry 50. -/
def State.sendRead (s : State) (u : Turn) (target : CoreId) (bytes : List (Nat × Nat)) (sext lat cls : Nat) (pops : List (Fin 8 × Token)) : State :=
  let prio := if cls = 5 then accessPrio u.c u.st target (s.dt u.c) lat u.ord else bankPrio cls (strandRank u.st u.ord)
  let r : LsRead := { core := u.c, strand := u.st, target := target, seq := (s.strand u.c u.st).seq, ord := u.ord, prio := prio
                      pos := u.pos, rounds := roundsOf 257 bytes, sext := sext, pops := pops }
  (s.access u.c u.st true (.ls target) []).dispatch u.c u.st u.ord r.seq false [] lat prio false (.lsRead r)
/-- The rank of a read of an object at its unit (R74). -/
def readPrio (u : Turn) (dt : Nat) (unit : MemUnit) (lat : Nat) : Nat := match unit with | .ls t => accessPrio u.c u.st t dt lat u.ord | _ => effects
/-- Sends a read of an object or a far location on its way: to a scratchpad after `lat` cycles, elsewhere at a tick that is not
exposed. `seq` is the access's number, taken before. -/
def State.sendTo (s : State) (u : Turn) (unit : MemUnit) (seq lat : Nat) (storing : Bool) (w : Work) : State :=
  match unit with
  | .ls t => s.dispatch u.c u.st u.ord seq storing [] lat (accessPrio u.c u.st t (s.dt u.c) lat u.ord) false w
  | _ => s.dispatch u.c u.st u.ord seq storing [] lat effects true w

end Sys2Proof.Machine
end

