-- ==== Sys2Proof/Machine/ScalarMem.lean ====
section
/-! DEFINITION. Scalar loads and stores in LS, PS, GM and XM (R164, R179-R182). -/

namespace Sys2Proof.Machine

/-- Bytes of a scalar format (R179). -/
def scalarBytes (f : IntFmt) : Nat := f.fmt.bits / 8
/-- The effective address (R179). -/
def State.ea (s : State) (a : XReg) (imm : Word32) : Nat := (s.reg a + immW imm).toNat
/-- The bytes of a load: result byte and address. -/
def loadBytes (a n : Nat) : List (Nat × Nat) := (List.range n).map fun i => (i, a + i)
/-- Misalignment raises the space-access fault (R179). -/
def alignFault (pos a n : Nat) (sp : SpaceCode) : Option TrapInfo := if a % n ≠ 0 then some (spaceFault pos a sp) else none
/-- The fence that an ordered form adds: acquire after a load, release before a store (R180). -/
def State.ordFence (s : State) (u : Turn) (form : FenceForm) (sc : Option Scope) : State :=
  match sc with
  | some sc => s.fence u.c u.st form sc false false
  | none => s
/-- Bytes by which a load's data is sign-extended, 0 for none (R179). -/
def sextOf (f : IntFmt) : Nat := if f.fmt.isSigned then scalarBytes f else 0

/-- What a load from a scratchpad does: its banks are read at issue + `rd`, xd is written at issue + `wr` (R164, R181). -/
def lsLoadEffect (d : XReg) (f : IntFmt) (sc : Option Scope) (target : CoreId) (a rd wr : Nat) (u : Turn) (s : State) : State :=
  let s := s.sendRead u target (loadBytes a (scalarBytes f)) (sextOf f) rd 5 u.pops
  (s.resultLater u wr (xResult u.sys d 0)).ordFence u .acq sc
/-- A load from a scratchpad (R181). -/
def lsLoad (h : Hdr) (d : XReg) (f : IntFmt) (sc : Option Scope) (target : CoreId) (a rd wr : Nat) (fault : Option TrapInfo)
    (s : State) : Host.Outcome State Fault Refusal :=
  issue h { writes := true, fault := fault } (lsLoadEffect d f sc target a rd wr) s

/-- A store to a scratchpad: performs at issue + `lat` (R164, R181). -/
def lsStore (h : Hdr) (b : XReg) (f : IntFmt) (sc : Option Scope) (target : CoreId) (a lat : Nat) (fault : Option TrapInfo)
    (s : State) : Host.Outcome State Fault Refusal :=
  let bytes := leBytes (scalarBytes f) (s.reg b).toNat
  issue h { fault := fault } (fun u s => (s.ordFence u .rel sc).sendAccess u (.ls target) a 0 (.write bytes) lat []) s

/-- lds (R179, R181). -/
def execLds (h : Hdr) (d a : XReg) (fmt : IntFmt) (ord : Option Scope) (imm : Word32) (s : State) :
    Host.Outcome State Fault Refusal :=
  let ad := s.ea a imm
  let pos := s.mine.pos
  let n := scalarBytes fmt
  lsLoad h d fmt ord s.me.1 ad 2 8
    (firstFault [alignFault pos ad n .ls, lsFault pos ad n false, s.earlyFault s.me.1 pos none (s.readAt ad n 2)]) s

/-- sts (R179, R181). -/
def execSts (h : Hdr) (a b : XReg) (fmt : IntFmt) (ord : Option Scope) (imm : Word32) (s : State) :
    Host.Outcome State Fault Refusal :=
  let ad := s.ea a imm
  let pos := s.mine.pos
  let n := scalarBytes fmt
  lsStore h b fmt ord s.me.1 ad 2 (firstFault [alignFault pos ad n .ls, lsFault pos ad n true]) s

/-- ldp (R179, R181): h is the hop count of R80. -/
def execLdp (h : Hdr) (d a : XReg) (fmt : IntFmt) (ord : Option Scope) (imm : Word32) (s : State) :
    Host.Outcome State Fault Refusal :=
  let ad := s.ea a imm
  let pos := s.mine.pos
  let n := scalarBytes fmt
  let c := s.me.1
  let t := psCore ad
  lsLoad h d fmt ord t (ad % lsSize) (10 + 4 * hops c t) (20 + 8 * hops c t)
    (firstFault [alignFault pos ad n .ps, s.psFault c pos ad n false,
      if t = c then s.earlyFault c pos none (s.readAt (ad % lsSize) n 10) else none]) s

/-- stp (R179, R181). -/
def execStp (h : Hdr) (a b : XReg) (fmt : IntFmt) (ord : Option Scope) (imm : Word32) (s : State) :
    Host.Outcome State Fault Refusal :=
  let ad := s.ea a imm
  let pos := s.mine.pos
  let n := scalarBytes fmt
  let c := s.me.1
  lsStore h b fmt ord (psCore ad) (ad % lsSize) (10 + 4 * hops c (psCore ad))
    (firstFault [alignFault pos ad n .ps, s.psFault c pos ad n true]) s

/-- What a load from GM or XM does: it holds its strand until the data is written (R182). -/
def farLoadEffect (d : XReg) (f : IntFmt) (sc : Option Scope) (dev : Option Nat) (operand pa : Nat) (u : Turn) (s : State) : State :=
  let seq := (s.strand u.c u.st).seq
  let s := s.waitFor u (.held (if dev.isSome then 3 else 2) operand) d false 0
  let unit : MemUnit := match dev with | none => .gm | some d => .xm d
  let s := (s.access u.c u.st true unit (if dev.isNone then [(operand, scalarBytes f)] else [])).resultLater u 1 (xResult u.sys d 0)
  let s := if dev.isSome then s else s.touch u.c operand
  (s.sendTo u .gm seq 0 false (.farRead u.c u.st u.ord seq dev (loadBytes pa (scalarBytes f)) (sextOf f)
    ((List.range (scalarBytes f)).map (operand + ·)))).ordFence u .acq sc
/-- A load from GM or XM (R182). -/
def farLoad (h : Hdr) (d : XReg) (f : IntFmt) (sc : Option Scope) (dev : Option Nat) (operand pa : Nat) (fault : Option TrapInfo)
    (s : State) : Host.Outcome State Fault Refusal :=
  issue h { writes := true, fault := fault } (farLoadEffect d f sc dev operand pa) s

/-- The unmet store slot of a strand: what the wait of an stg or stx records (R182). -/
def State.slotBusy (s : State) (c : CoreId) (st : StrandId) : Option (Nat × Word × Nat) :=
  if s.slotsUsed c st < 16 then none
  else match s.oldestStore c st with
    | some a => some (9, BitVec.ofNat 64 a.va, (if a.unit = .gm then 2 else 3) * 2 ^ 20)
    | none => some (9, 0, 2 * 2 ^ 20)

/-- What a store through the port does: it performs at core scope at issue + 1, at wider scopes at its channel (R164, R182). -/
def farStoreEffect (sc : Option Scope) (unit : MemUnit) (operand pa : Nat) (bytes : List Byte) (u : Turn) (s : State) : State :=
  let s := if unit = .gm then s.touch u.c operand else s
  (s.ordFence u .rel sc).sendAccess u unit pa operand (.write bytes) 1 []
/-- A store through the port (R182). -/
def farStore (h : Hdr) (b : XReg) (f : IntFmt) (sc : Option Scope) (unit : MemUnit) (operand pa : Nat) (fault : Option TrapInfo)
    (s : State) : Host.Outcome State Fault Refusal :=
  let bytes := leBytes (scalarBytes f) (s.reg b).toNat
  issue h { fault := fault, busy := s.slotBusy s.me.1 s.me.2, needs := true } (farStoreEffect sc unit operand pa bytes) s

/-- The commit-scope fault of an XM store, atomic or copy inside a commit group (R50). -/
def State.xmScope (s : State) (c : CoreId) (pos a : Nat) : Option TrapInfo :=
  if s.inGroup c then some { cause := 10, epc := pos, i0 := BitVec.ofNat 64 a } else none

/-- ldg (R179, R182). -/
def execLdg (h : Hdr) (d a : XReg) (fmt : IntFmt) (ord : Option Scope) (imm : Word32) (s : State) :
    Host.Outcome State Fault Refusal :=
  let ad := s.ea a imm
  let n := scalarBytes fmt
  farLoad h d fmt ord none ad (s.gmPa s.me.1 false ad .read)
    (firstFault [alignFault s.mine.pos ad n .gm, s.gmFault s.me.1 s.me.2 false ad .read]) s

/-- stg (R179, R182). -/
def execStg (h : Hdr) (a b : XReg) (fmt : IntFmt) (ord : Option Scope) (imm : Word32) (s : State) :
    Host.Outcome State Fault Refusal :=
  let ad := s.ea a imm
  let n := scalarBytes fmt
  farStore h b fmt ord .gm ad (s.gmPa s.me.1 false ad .write)
    (firstFault [alignFault s.mine.pos ad n .gm, s.gmFault s.me.1 s.me.2 false ad .write]) s

/-- ldx (R179, R182). -/
def execLdx (h : Hdr) (d a : XReg) (fmt : IntFmt) (ord : Option Scope) (imm : Word32) (s : State) :
    Host.Outcome State Fault Refusal :=
  let ad := s.ea a imm
  let n := scalarBytes fmt
  farLoad h d fmt ord (some (xmDev ad)) ad (ad % 2 ^ 48)
    (firstFault [alignFault s.mine.pos ad n .xm, s.xmFault s.mine.pos ad n]) s

/-- stx (R50, R179, R182). -/
def execStx (h : Hdr) (a b : XReg) (fmt : IntFmt) (ord : Option Scope) (imm : Word32) (s : State) :
    Host.Outcome State Fault Refusal :=
  let ad := s.ea a imm
  let n := scalarBytes fmt
  farStore h b fmt ord (.xm (xmDev ad)) ad (ad % 2 ^ 48)
    (firstFault [alignFault s.mine.pos ad n .xm, s.xmFault s.mine.pos ad n, s.xmScope s.me.1 s.mine.pos ad]) s

end Sys2Proof.Machine
end

