-- ==== Sys2Proof/Machine/Objects.lean ====
section
/-! DEFINITION. Barrier objects, wait words and atomics: the instructions, and the events with which their effects perform
(R110, R189, R198-R205). -/

namespace Sys2Proof.Machine

/-- Cycles from issue to the performing of an update at an object: barr, binit, wset, wwake (R201). -/
def updateLat (c : CoreId) (sp : ObjSpace) : MemUnit → Nat
  | .ls t => if sp = .ls then 3 else 11 + 4 * hops c t
  | _ => 1
/-- Cycles from issue to a wait's or poll's first read (R201). -/
def readLat (c : CoreId) (sp : ObjSpace) : MemUnit → Nat
  | .ls t => if sp = .ls then 2 else 10 + 4 * hops c t
  | _ => 0
/-- The wait for a store slot of an operation on GM or XM (R182, R201). -/
def State.objBusy (s : State) (sp : ObjSpace) : Option (Nat × Word × Nat) :=
  match sp with
  | .gm | .xm => s.slotBusy s.me.1 s.me.2
  | _ => none
/-- What a release orders first; at an XM object only dom and sys release (R110). -/
def State.releaseNeeds (s : State) (u : Turn) (sp : ObjSpace) : Option Scope → List Need
  | none => []
  | some sc => if sp = .xm ∧ sc.rank < 3 then [] else s.before u.c u.st sc false

/-- An update of an object at its unit (R199, R202). -/
def objUpdate (h : Hdr) (sp : ObjSpace) (a : XReg) (size : Nat) (ord : Option Scope) (op : UnitOp) (writes : Bool) (s : State) :
    Host.Outcome State Fault Refusal :=
  let ad := (s.reg a).toNat
  let pl := s.objPlace s.me.1 sp ad .atomic
  issue h { writes := writes, fault := s.objFault s.me.1 s.me.2 sp ad size false .atomic, busy := s.objBusy sp
            needs := decide (sp = .gm ∨ sp = .xm) } (fun u s =>
    let s := if pl.1 = .gm then s.touch u.c ad else s
    let lat := updateLat u.c sp pl.1
    let needs := s.releaseNeeds u sp ord
    -- a wwake's count is in flight from its issue (R343)
    let s := match opDest op with
      | some d => s.fly u.c u.st (lat + (unitDelay u.c sp pl.1).getD 2) { xResult u.sys d 0 with pos := u.pos, ord := u.ord } false false
      | none => s
    s.sendAccess u pl.1 pl.2 ad op lat needs) s

/-- binit: the object starts afresh (R199). -/
def execBinit (h : Hdr) (sp : ObjSpace) (a b : XReg) (s : State) : Host.Outcome State Fault Refusal :=
  objUpdate h sp a 32 none (.binit ((s.reg b).extractLsb' 0 32) ((s.reg b).extractLsb' 32 16)) false s

/-- barr: one arrival (R199). -/
def execBarr (h : Hdr) (sp : ObjSpace) (a : XReg) (ord : Option Scope) (s : State) : Host.Outcome State Fault Refusal :=
  objUpdate h sp a 32 ord .barr false s

/-- wset: writes the value (R202). -/
def execWset (h : Hdr) (sp : ObjSpace) (a b : XReg) (ord : Option Scope) (s : State) : Host.Outcome State Fault Refusal :=
  objUpdate h sp a 16 ord (.wset (s.reg b)) false s

/-- wwake: releases queue waiters and counts them in x[D] (R202). -/
def execWwake (h : Hdr) (sp : ObjSpace) (d a b : XReg) (ord : Option Scope) (s : State) : Host.Outcome State Fault Refusal :=
  objUpdate h sp a 16 ord (.wwake (s.reg b) d) true s

/-- What a wait on an object does: its first read completes it or links the strand's waiter record (R200, R202, R203). -/
def objWaitEffect (sp : ObjSpace) (d : XReg) (ad cls cond : Nat) (arg : Word) (limit : Option Nat) (acq : Bool) (pl : MemUnit × Nat)
    (u : Turn) (s : State) : State :=
  let seq := (s.strand u.c u.st).seq
  let s := s.waitFor u (.object cls sp ad arg limit) d acq cond
  let s := s.updStrand u.c u.st fun t => { t with wait := t.wait.map fun w => { w with unit := pl.1, pa := pl.2 } }
  let s := if pl.1 = .gm then s.touch u.c ad else s
  let lat := readLat u.c sp pl.1
  (s.access u.c u.st acq pl.1 (if pl.1 = .gm then [(ad, 32)] else [])).sendTo u pl.1 seq lat false
    (.objRead u.c u.st u.ord seq pl.1 pl.2 0 d (readPrio u (s.dt u.c) pl.1 lat))
/-- A wait on an object (R200, R202, R203). -/
def objWait (h : Hdr) (sp : ObjSpace) (d a : XReg) (size cls cond : Nat) (arg : Word) (limit : Option Nat) (acq : Bool) (s : State) :
    Host.Outcome State Fault Refusal :=
  let ad := (s.reg a).toNat
  let pl := s.objPlace s.me.1 sp ad .atomic
  issue h { writes := true, fault := s.objFault s.me.1 s.me.2 sp ad size false .atomic }
    (objWaitEffect sp d ad cls cond arg limit acq pl) s

/-- bwait (R200). -/
def execBwait (h : Hdr) (sp : ObjSpace) (d a b : XReg) (ord : Option Scope) (s : State) : Host.Outcome State Fault Refusal :=
  objWait h sp d a 32 2 9 (BitVec.ofNat 64 (Word.bits (s.reg b) 0 16)) none ord.isSome s

/-- bwaitt: as bwait, with a limit in HC ticks (R200). -/
def execBwaitt (h : Hdr) (sp : ObjSpace) (d a b : XReg) (ord : Option Scope) (lim : Word32) (s : State) :
    Host.Outcome State Fault Refusal :=
  objWait h sp d a 32 2 9 (BitVec.ofNat 64 (Word.bits (s.reg b) 0 16)) (some (s.hc + lim.toNat)) ord.isSome s

/-- wwait: completes when the condition holds (R203). -/
def execWwait (h : Hdr) (sp : ObjSpace) (d a b : XReg) (cond : BitVec 3) (ord : Option Scope) (s : State) :
    Host.Outcome State Fault Refusal :=
  objWait h sp d a 16 3 cond.toNat (s.reg b) none ord.isSome s

/-- wqwait: waits in the queue for a wake (R202). -/
def execWqwait (h : Hdr) (sp : ObjSpace) (d a : XReg) (ord : Option Scope) (s : State) : Host.Outcome State Fault Refusal :=
  objWait h sp d a 16 3 8 0 none ord.isSome s

/-- What a poll does: one read of an object, written to x[D] at the offset of its space (R200, R201, R202). -/
def objPollEffect (sp : ObjSpace) (d : XReg) (ad poll : Nat) (ord : Option Scope) (pl : MemUnit × Nat) (u : Turn) (s : State) : State :=
  let seq := (s.strand u.c u.st).seq
  let lat := readLat u.c sp pl.1
  let s := if pl.1 = .gm then s.touch u.c ad else s
  let s := s.access u.c u.st true pl.1 (if pl.1 = .gm then [(ad, 32)] else [])
  let s := s.resultLater u (lat + (unitDelay u.c sp pl.1).getD 2) (xResult u.sys d 0)
  (s.sendTo u pl.1 seq lat false (.objRead u.c u.st u.ord seq pl.1 pl.2 poll d (readPrio u (s.dt u.c) pl.1 lat))).ordFence u .acq ord
/-- A poll of an object (R200, R202). -/
def objPoll (h : Hdr) (sp : ObjSpace) (d a : XReg) (size poll : Nat) (ord : Option Scope) (s : State) :
    Host.Outcome State Fault Refusal :=
  let ad := (s.reg a).toNat
  let pl := s.objPlace s.me.1 sp ad .read
  issue h { writes := true, fault := s.objFault s.me.1 s.me.2 sp ad size true .read } (objPollEffect sp d ad poll ord pl) s

/-- bpoll (R200). -/
def execBpoll (h : Hdr) (sp : ObjSpace) (d a : XReg) (ord : Option Scope) (s : State) : Host.Outcome State Fault Refusal :=
  objPoll h sp d a 32 1 ord s

/-- wpoll (R202). -/
def execWpoll (h : Hdr) (sp : ObjSpace) (d a : XReg) (ord : Option Scope) (s : State) : Host.Outcome State Fault Refusal :=
  objPoll h sp d a 16 2 ord s

/-- Event: a wait completes at its object (R200-R203). -/
def execWaitRelease (c : CoreId) (st : StrandId) (ord : Nat) (v : Word) (s : State) : Host.Outcome State Fault Refusal :=
  .next (s.release c st ord v)

/-- A release of the strand's present wait is on its way. -/
def State.releasing (s : State) (c : CoreId) (st : StrandId) (ord : Nat) : Bool :=
  s.cal.any fun d => match d.work with | .ev (.waitRelease c' st' o _) => decide (c' = c) && decide (st' = st) && o == ord | _ => false
/-- A timed wait of the strand has met its limit and nothing has completed it (R200). DESIGN CHOICE (log entry 48): a phase that completed at
the object before the limit ends the wait with status 0, also where its release arrives after the limit. -/
def State.expired (s : State) (c : CoreId) (st : StrandId) : Bool :=
  match (s.strand c st).wait with
  | some w => (match w.why with
    | .object _ _ _ _ (some lim) => decide (lim ≤ s.hc) && !s.releasing c st w.ord && (match s.bindingOf c with | some b => b.live | none => false)
    | _ => false)
  | none => false
/-- Every strand of the device, in the order of a tick. -/
def State.places (s : State) : List (CoreId × StrandId) :=
  ((List.finRange 256).filter fun c => ((s.core c).task).isSome).flatMap fun c => [(c, .x), (c, .l), (c, .c), (c, .s)]

/-- Event: the first expired bwaitt ends with status 1; its waiter record is unlinked (R200). DESIGN CHOICE (log entry 48): a limit that passes
before the wait has read its object also ends it with status 1, with the object's values at the expiry. -/
def execBwaittExpiry (s : State) : Host.Outcome State Fault Refusal :=
  .next (match s.places.find? fun p => s.expired p.1 p.2 with
    | none => s
    | some (c, st) => match (s.strand c st).wait with
      | none => s
      | some w =>
        let p : Place := ⟨w.unit, w.pa⟩
        let v := s.barrierValue p 1
        let s := if w.linked then s.requeue p 24 ((s.waiters p 24).filter (· ≠ waiterId c st)) [waiterId c st] else s
        (s.accessDone c st w.seq).release c st w.ord v)

/-- Event: a store, atomic or object update performs at its unit, or is accepted by its port (R99, R113). -/
def execStorePerform (a : Access) (s : State) : Host.Outcome State Fault Refusal := .next (s.performAccess a)

/-! ### Atomics (R204, R205) -/

/-- What the order of an atomic adds: the release before it, the acquire after it (R113, R204). -/
def ordRel : AtomOrd → Option Scope
  | .rel sc | .acqrel sc => some sc
  | _ => none
/-- The scope of an acquire atomic (R204). -/
def ordAcq : AtomOrd → Option Scope
  | .acq sc | .acqrel sc => some sc
  | _ => none

/-- What an atomic at a scratchpad does: it performs at issue + `lat` and writes x[D] at issue + `wr` (R205). -/
def lsAtomicEffect (d : XReg) (o : AtomSpec) (t : CoreId) (ad lat wr : Nat) (v cmp : Word) (u : Turn) (s : State) : State :=
  let s := s.ordFence u .rel (ordRel o.ord)
  let s := if d = 0 then s else s.fly u.c u.st wr { xResult u.sys d 0 with pushP := u.h.pap, pushN := u.h.pan, pos := u.pos, ord := u.ord } false true
  (s.sendAccess u (.ls t) ad 0 (.atomic o v cmp d) lat []).ordFence u .acq (ordAcq o.ord)
/-- An atomic at a scratchpad (R205). -/
def lsAtomic (h : Hdr) (d : XReg) (o : AtomSpec) (t : CoreId) (ad lat wr : Nat) (v cmp : Word) (fault : Option TrapInfo) (s : State) :
    Host.Outcome State Fault Refusal :=
  issue h { writes := true, fault := fault } (lsAtomicEffect d o t ad lat wr v cmp) s

/-- What an atomic at GM or XM does: with a destination it holds its strand, without one it takes a store slot (R205). -/
def farAtomicEffect (d : XReg) (o : AtomSpec) (unit : MemUnit) (operand pa : Nat) (v cmp : Word) (u : Turn) (s : State) : State :=
  let s := if unit = .gm then s.touch u.c operand else s
  let s := if d = 0 then s else s.waitFor u (.held (if unit = .gm then 2 else 3) operand) d false 0
  let s := s.ordFence u .rel (ordRel o.ord)
  (s.sendAccess u unit pa operand (.atomic o v cmp d) 1 []).ordFence u .acq (ordAcq o.ord)
/-- An atomic at GM or XM (R205). -/
def farAtomic (h : Hdr) (d : XReg) (o : AtomSpec) (unit : MemUnit) (operand pa : Nat) (v cmp : Word) (fault : Option TrapInfo) (s : State) :
    Host.Outcome State Fault Refusal :=
  issue h { writes := true, fault := fault, busy := if d = 0 then s.slotBusy s.me.1 s.me.2 else none
            needs := decide (d = 0) }
    (farAtomicEffect d o unit operand pa v cmp) s

/-- Bytes of an atomic's format. -/
def atomBytes (o : AtomSpec) : Nat := o.fmt.bits / 8

/-- aml (R204, R205). -/
def execAml (h : Hdr) (d a b : XReg) (o : AtomSpec) (s : State) : Host.Outcome State Fault Refusal :=
  let ad := (s.reg a).toNat
  let pos := s.mine.pos
  lsAtomic h d o s.me.1 ad 3 8 (s.reg b) (s.reg o.c)
    (firstFault [alignFault pos ad (atomBytes o) .ls, lsFault pos ad (atomBytes o) true]) s

/-- amp (R204, R205). -/
def execAmp (h : Hdr) (d a b : XReg) (o : AtomSpec) (s : State) : Host.Outcome State Fault Refusal :=
  let ad := (s.reg a).toNat
  let pos := s.mine.pos
  let t := psCore ad
  lsAtomic h d o t (ad % lsSize) (11 + 4 * hops s.me.1 t) (21 + 8 * hops s.me.1 t) (s.reg b) (s.reg o.c)
    (firstFault [alignFault pos ad (atomBytes o) .ps, s.psFault s.me.1 pos ad (atomBytes o) true]) s

/-- amg (R204, R205). -/
def execAmg (h : Hdr) (d a b : XReg) (o : AtomSpec) (s : State) : Host.Outcome State Fault Refusal :=
  let ad := (s.reg a).toNat
  farAtomic h d o .gm ad (s.gmPa s.me.1 false ad .atomic) (s.reg b) (s.reg o.c)
    (firstFault [alignFault s.mine.pos ad (atomBytes o) .gm, s.gmFault s.me.1 s.me.2 false ad .atomic]) s

/-- amx (R50, R204, R205). -/
def execAmx (h : Hdr) (d a b : XReg) (o : AtomSpec) (s : State) : Host.Outcome State Fault Refusal :=
  let ad := (s.reg a).toNat
  farAtomic h d o (.xm (xmDev ad)) ad (ad % 2 ^ 48) (s.reg b) (s.reg o.c)
    (firstFault [alignFault s.mine.pos ad (atomBytes o) .xm, s.xmFault s.mine.pos ad (atomBytes o), s.xmScope s.me.1 s.mine.pos ad]) s

end Sys2Proof.Machine
end

