-- ==== Sys2Proof/Machine/CopyUnit.lean ====
section
/-! DEFINITION. The copy unit: acceptance, inbound channels, in-package groups and flue beats, and the chunks of barrier-regime
copies (R52, R78, R88-R95, R192-R197, R277, R278, R369, R393). -/

namespace Sys2Proof.Machine

/-! ### Conversion of a copy's bytes (R193, R197) -/

/-- Source bytes of a copy as destination bytes: their number (R193). -/
def destBytes (cv : Option CopyConv) (n : Nat) : Nat :=
  match cv with
  | none => n
  | some k => n * 8 / k.src.bits * k.dst.bits / 8
/-- Elements whose first destination byte lies in [a, b) (R197): the first and their number. -/
def chunkElems (dw a b : Nat) : Nat × Nat := ((8 * a + dw - 1) / dw, (8 * b + dw - 1) / dw - (8 * a + dw - 1) / dw)
/-- The source bytes that destination bytes [a, b) need: first and number. -/
def chunkSource (cv : Option CopyConv) (a b : Nat) : Nat × Nat :=
  match cv with
  | none => (a, b - a)
  | some k =>
    let (e, m) := chunkElems k.dst.bits a b
    let lo := e * k.src.bits / 8
    (lo, ((e + m) * k.src.bits + 7) / 8 - lo)
/-- The destination bytes of a chunk with source bytes `bs`: first destination byte, bytes, flags of each element (R197). -/
def chunkData (cv : Option CopyConv) (a b : Nat) (bs : List Byte) : Nat × List Byte × List Flg :=
  match cv with
  | none => (a, bs, [])
  | some k =>
    let (e, m) := chunkElems k.dst.bits a b
    let lo := e * k.src.bits / 8
    let src := leNat bs
    let conv := (List.range m).map fun i => convert k.src k.dst k.rm 0 k.sat (bitsAt src ((e + i) * k.src.bits - 8 * lo) k.src.bits)
    let val := (conv.zip (List.range m)).foldl (fun v p => v + p.1.1 * 2 ^ (p.2 * k.dst.bits)) 0
    (e * k.dst.bits / 8, leBytes (m * k.dst.bits / 8) val, conv.map (·.2))

/-! ### Places and pages -/

/-- A range cut at multiples of a size: (address, bytes). -/
def pieces (g : Nat) : Nat → Nat → Nat → List (Nat × Nat)
  | 0, _, _ => []
  | fuel + 1, a, n =>
    if n = 0 then []
    else
      let k := min n (g - a % g)
      (a, k) :: pieces g fuel (a + k) (n - k)
/-- The pieces of a range by the smallest page, 64 KiB. -/
def piecesOf (a n : Nat) : List (Nat × Nat) := pieces 65536 (n / 65536 + 2) a n
/-- The pieces of a range by which a copy samples its source, 4 KiB (R330). -/
def samplePieces (a n : Nat) : List (Nat × Nat) := pieces 4096 (n / 4096 + 2) a n

/-- An own-device XM offset at its owner: its place, or what the issuer records (R368, R369). -/
def State.windowHit (s : State) (dev ofs : Nat) (a : Acc) : Except (Word × Word) Nat :=
  let rec' (k l : Nat) : Word × Word := (BitVec.ofNat 64 (dev * 2 ^ 48 + ofs), BitVec.ofNat 64 (k + 4 * l + 16 * a.code + 0xFFFF0000))
  match s.hit none 0xFFFF s.xlate.domRoot false true ofs a with
  | .pa p _ => .ok p
  | .fault k l => .error (rec' k l)
  | _ => .error (rec' 0 0)
/-- What a copy meets at a page of GM: a physical address, a wait for its group's shadow page, or a stop with what a fault records. -/
inductive PageHit where
  | at (pa : Nat)
  | wait
  | stop (fault : Option (Word × Word))
  deriving DecidableEq, Repr
/-- The place in GM of a piece that a copy of a core reads or writes, sampled with the TLB lookups of its page; a write in a commit group takes
the group's shadow (R49, R197, R328). -/
def State.copyPage (s : State) (c : CoreId) (va : Nat) (a : Acc) : State × PageHit :=
  match s.coreHit c false va a with
  | .pa p _ =>
    let s := s.touch c va
    if a = .read then (s, .at p)
    else match s.shadowed c va p with
      | (s, .at q) => (s, .at q)
      | (s, .wait) => (s, .wait)
      | (s, .gone) => (s, .stop none)
  | .abort => (s.endBinding (s.bidOf c) 9, .stop none)
  | .fault k l => let i := s.xlateInfo 0 (s.core c).asid va k l a; (s.touch c va, .stop (some (i.i0, i.i1)))
  | .cscope => (s, .stop none)
/-- Bytes of free values (log entry 4). -/
def freeBytes (n len : Nat) : List Byte := ((List.range (len / 8 + 1)).map fun i => leBytes 8 (Config.datum (n + i)).toNat).flatten.take len
/-- Takes as many free values as bytes of a length need. -/
def State.drawBytes (s : State) (len : Nat) : List Byte × State := (freeBytes s.choice len, { s with choice := s.choice + len / 8 + 1 })

/-- Where a barrier named by a copy lies now, with the TLB lookups of a GM address; no place on this device for one at another device, whose
owner may refuse it by a free value; or what stops the copy. One at a device that has left ends the binding (R189, R326, R328, R369, R371, log
entry 10). -/
def State.barrierPlace (s : State) (c : CoreId) (b : ObjSpace × Nat) : State × Except (Option (Word × Word)) (Option (MemUnit × Nat)) :=
  match b.1 with
  | .ls => (s, .ok (some (.ls c, b.2 % lsSize)))
  | .ps => (s, .ok (some (.ls (psCore b.2), b.2 % lsSize)))
  | .gm => match s.coreHit c true b.2 .atomic with
    | .pa p _ => (s.touch c b.2, .ok (some (.gm, p)))
    | .fault k l => let i := s.xlateInfo 0 (s.core c).asid b.2 k l .atomic; (s.touch c b.2, .error (some (i.i0, i.i1)))
    | _ => (s, .error none)
  | .xm =>
    let dev := xmDev b.2
    if dev = s.devId then (match s.windowHit dev (b.2 % 2 ^ 48) .atomic with
      | .ok p => (s, .ok (some (.gm, p)))
      | .error f => (s, .error (some f)))
    else if !(s.lib.domMembers.contains dev) then (s.endBinding (s.bidOf c) 1, .error none)
    else
      let (i, s) := s.draw
      (s, if Config.choose i then .error none else .ok none)
/-- What the barrier of a copy samples of an address space (R330). -/
def State.barrierSample (s : State) (c : CoreId) (b : ObjSpace × Nat) : List Sample :=
  match b.1 with
  | .gm => s.sampling (s.core c).asid [(b.2, 32)]
  | .xm => if xmDev b.2 = s.devId then s.sampling 0xFFFF [(b.2 % 2 ^ 48, 32)] else []
  | _ => []
/-- The barrier into which a copy's next chunk counts is sampled before the chunk has any effect (R196, R197, R326, R330). -/
def State.aimBarrier (s : State) (p : Copy) (b : Option (ObjSpace × Nat)) : State × Except (Option (Word × Word)) Copy :=
  match b with
  | none => (s, .ok { p with barAt := none })
  | some b => match s.barrierPlace p.core b with
    | (s, .ok pl) => (s, .ok { p with barAt := pl, samples := p.samples ++ s.barrierSample p.core b })
    | (s, .error f) => (s, .error f)
/-- Counts bytes into the barrier that a copy's chunk aims at (R196). -/
def State.countCopy (s : State) (p : Copy) (n : Nat) (err : Bool) : State :=
  match p.barAt with
  | some (u, a) => s.countAt ⟨u, a⟩ n err
  | none => s
/-- Announces bytes to barriers (R196): those that can be reached now are told, the others stay owed. -/
def State.announce (s : State) (c : CoreId) (bs : List ((ObjSpace × Nat) × Nat)) : State × List ((ObjSpace × Nat) × Nat) × Option (Word × Word) :=
  bs.foldl (fun r b => match r.1.barrierPlace c b.1 with
    | (s, .ok (some (u, a))) => (s.addPending ⟨u, a⟩ b.2, r.2)
    | (s, .ok none) => (s, r.2)
    | (s, .error f) => (s, r.2.1 ++ [b], f)) (s, [], none)

/-! ### Copies and channels (R52, R88, R89) -/

/-- Changes a copy. -/
def State.updCopy (s : State) (c : CoreId) (id : Nat) (f : Copy → Copy) : State :=
  s.updCore c fun k => { k with copies := k.copies.map fun p => if p.id = id then f p else p }
/-- A copy number as its issuing core. -/
def copyCore (id : Nat) : CoreId := coreId id
/-- The copy of a number. -/
def State.copy (s : State) (id : Nat) : Option Copy := s.copyOf (copyCore id) id
/-- Starts the first copy of a channel that delivers none: SEQ counts it (R89). -/
def State.startChan (s : State) (t : CoreId) (ch : Fin 8) : State :=
  let n := (s.core t).chans[ch.val]
  if n.act then s
  else match n.queue with
    | [] => s
    | q :: _ => match (s.copyOf q.1 q.2).bind Copy.lsDest with
      | some (_, o) => s.updCore t fun k => { k with chans := k.chans.set ch.val { n with act := true, seq := n.seq + 1, addr := o } }
      | none => s
/-- A copy accepted by its unit joins the queue of its inbound channel at the end of the cycle (R88). -/
def State.joinChan (s : State) (c : CoreId) (id : Nat) : State :=
  match s.copyOf c id with
  | none => s
  | some p => match p.lsDest with
    | none => s
    | some (t, _) =>
      (s.updCore t fun k => { k with chans := vmod k.chans p.ch fun n => { n with queue := n.queue ++ [(c, id)] } }).startChan t p.ch
/-- The write pointer of a copy's channel moves to the bytes delivered, in the effects of this cycle (R89). -/
def State.moveWp (s : State) (p : Copy) (done : Nat) : State :=
  match p.lsDest with
  | none => s
  | some (t, o) => s.post .hc s.hc latePrio (.wpMove t p.ch (o + done))
/-- A copy ends in the effects of this cycle (R89, R196). -/
def State.finishCopy (s : State) (p : Copy) : State := s.post .hc s.hc latePrio (.copyEnd p.core p.id)
/-- A copy has ended: its entry is free and its channel goes on with the next copy (R88, R196). -/
def State.endCopy (s : State) (p : Copy) : State :=
  let s := s.updCore p.core fun k => { k with copies := k.copies.filter fun q => q.id != p.id }
  let s := if p.kind.inPkg then s else s.capture p.core 3 (some p.strand) (s.dt p.core - p.dt)
  match p.lsDest with
  | none => s
  | some (t, _) =>
    let n := (s.core t).chans[p.ch.val]
    let mine := n.queue.head? == some (p.core, p.id)
    let n := { n with act := n.act && !mine, queue := n.queue.filter fun q => q != (p.core, p.id) }
    (s.updCore t fun k => { k with chans := k.chans.set p.ch.val n }).startChan t p.ch

/-- The copy unit has an entry for a strand: 32 are kept for each of L and S, the other 64 are shared (R52). -/
def Core.copyRoom (k : Core) (st : StrandId) : Bool :=
  let used (o : StrandId) : Nat := (k.copies.filter fun p => p.strand == o).length
  decide (used st < 32) || decide ((used .l - 32) + (used .s - 32) < 64)
/-- The wait for a copy-unit entry (R43): the strand's queue and its oldest copy. -/
def Core.copyBusy (k : Core) (st : StrandId) : Option (Nat × Word × Nat) :=
  if k.copyRoom st then none
  else
    let old := (k.copies.filter fun p => p.strand == st).mergeSort fun a b => a.id ≤ b.id
    some (5, BitVec.ofNat 64 st.num.val, 16 * ((old.head?).map (·.pos)).getD 0 + st.num.val)

/-! ### The flue (R91-R95) -/

/-- The cycle from which slots are free after `m` beats that start at or after `t`. -/
def afterBeats (fslot : Word) (src dst : Nat) (half : Bool) : Nat → Nat → Nat
  | 0, t => t
  | m + 1, t => afterBeats fslot src dst half m (beatEnd fslot src dst half (nextSlot fslot src dst half 24 t) + 1)
/-- FWIDTH as a core reads it (R95). -/
def State.fwidth (s : State) (c : CoreId) : Word :=
  BitVec.ofNat 64 ((s.core c).degr * 256 + 2 * (s.core c).fwBind.toNat + (s.half[(chimOf c).val]).toNat)
/-- A flue transfer takes its slots, after those of the earlier transfers of its pair: the entry of its first beat (R93). -/
def State.takeSlots (s : State) (p : Copy) (t : Nat) : State :=
  let k := s.core p.core
  let src := layerOf p.core
  let dst := p.dst / lsSize % 4
  let from' := max t (k.flueFree[dst]'(Nat.mod_lt _ (by decide)))
  let e := nextSlot k.fslot src dst p.halfWidth 24 from'
  let free := afterBeats k.fslot src dst p.halfWidth (p.n / 128) from'
  let s := s.updCore p.core fun k => { k with flueFree := k.flueFree.set dst free (Nat.mod_lt _ (by decide)) }
  (s.updCopy p.core p.id fun p => { p with entry := e }).post (.dt (s.bidOf p.core)) e (bankPrio 1 0) (.ev (.copyGroupTransfer p.id 0 .read))
/-- The transfers of one pair whose beats have not all entered take their slots anew in the order in which they issued, none before cycle `t`;
one that has started keeps its next beat (R93-R95, R195). -/
def State.replanPair (s : State) (c : CoreId) (dst : Fin 4) (t : Nat) : State :=
  let ps := (s.core c).copies.filter fun p => p.kind == .lf && p.dst / lsSize % 4 == dst.val && decide (128 * p.rd < p.n) && p.failed.isNone
  let plan (q : State × Nat) (p : Copy) : State × Nat :=
    let (s, free) := q
    let fslot := (s.core c).fslot
    let e := if p.rd = 0 then nextSlot fslot (layerOf c) dst.val p.halfWidth 24 (max free (p.dt + 1)) else p.entry
    let s := s.updCopy c p.id fun p => { p with entry := e }
    ({ s with cal := s.cal.map fun d => match d.work with
        | .ev (.copyGroupTransfer i j .read) => if i = p.id ∧ j = p.rd then { d with due := e } else d
        | _ => d },
     afterBeats fslot (layerOf c) dst.val p.halfWidth (p.n / 128 - p.rd) e)
  let (s, free) := ps.foldl plan (s, t)
  s.updCore c fun k => { k with flueFree := k.flueFree.set dst.val free }
/-- The layer to which a flue transfer goes. -/
def Copy.flueDst (p : Copy) : Fin 4 := ⟨p.dst / lsSize % 4, Nat.mod_lt _ (by decide)⟩

/-! ### In-package groups (R195, R393) -/

/-- The core whose scratchpad a copy reads, and the offset. -/
def Copy.lsSource (p : Copy) : CoreId × Nat := match p.kind with | .pl => (psCore p.src, p.src % lsSize) | _ => (p.core, p.src % lsSize)
/-- Bytes of group j. -/
def Copy.groupBytes (p : Copy) (j : Nat) : Nat := min p.grain (p.n - p.grain * j)
/-- The rank of a group's access at its bank: a peer's reads for cp.pl come after the core's own copies, in the order of arrival, source core
and issue (R74). -/
def Copy.rank (p : Copy) (write : Bool) : Nat :=
  if p.kind = .lf then bankPrio 1 p.id
  else if write then (if p.kind = .lw then bankPrio 6 0 else bankPrio 6 (p.ch.val * 2 ^ 40 + p.id))
  else if p.kind = .pl ∧ psCore p.src ≠ p.core then bankPrio 7 (2 ^ 120 + p.entry * 2 ^ 72 + p.core.val * 2 ^ 64 + p.id) else bankPrio 7 (p.strand.num.val * 2 ^ 64 + p.id)
/-- A lost cycle delays a group's item and every later group's by one cycle (R195). -/
def State.delayGroups (s : State) (id j : Nat) : State :=
  { s with cal := s.cal.map fun d => match d.work with
      | .ev (.copyGroupTransfer i g _) => if i = id ∧ j < g then { d with due := d.due + 1 } else d
      | _ => d }
/-- A group is retried in the next cycle. -/
def State.loseGroup (s : State) (p : Copy) (j : Nat) (side : XferSide) : State :=
  (s.delayGroups p.id j).laterOn (.dt (s.bidOf p.core)) 1 (p.rank (side == .write)) (.ev (.copyGroupTransfer p.id j side))

/-- The failed read of a group: nothing later is written, MEMERR goes to the issuing strand, the binding freezes (R393). -/
def State.failGroup (s : State) (p : Copy) (j line : Nat) : State :=
  let bid := s.bidOf p.core
  let s := s.updCopy p.core p.id fun p => { p with failed := some j }
  let s := (s.errorRecord 0 line bid p.core.val).freeze bid
  let s := if (s.strand p.core p.strand).run = .running then
      s.trap p.core p.strand { cause := 11, epc := (s.strand p.core p.strand).pos, i0 := BitVec.ofNat 64 line, i1 := BitVec.ofNat 64 p.pos, async := true }
    else s
  if j ≤ p.wr then s.finishCopy p else s

/-- Bytes are written to a half of the weight buffer; lines written whole hold no error any more (R78, R385). -/
def Core.fillWb (k : Core) (half : Bool) (a : Nat) (bs : List Byte) : Core :=
  let k := { k with badWb := coveredLines k.badWb (half.toNat * 2 ^ 18 + a) bs.length
                    corr := k.corr.filter fun e => e.1 != 2 || !(coveredLines [e.2] (half.toNat * 2 ^ 18 + a) bs.length).isEmpty }
  if half then { k with wb1 := k.wb1.write a bs } else { k with wb0 := k.wb0.write a bs }
/-- A group or beat is read at its source (R195). -/
def State.readGroup (s : State) (p : Copy) (j : Nat) : State :=
  let (t, o) := p.lsSource
  let a := o + p.grain * j
  let n := p.groupBytes j
  let clk := Clock.dt (s.bidOf p.core)
  let granted : Option State := if p.kind = .lf then some (s.claim t (banksOf a n)) else s.grant t (banksOf a n)
  match granted with
  | none => s.loseGroup p j .read
  | some s =>
    match s.badLs t ((List.range n).map (a + ·)) with
    | some line => s.failGroup p j line
    | none =>
      let s := s.countLs t ((List.range n).map (a + ·))
      let s := s.updCopy p.core p.id fun q =>
        { q with rd := j + 1, data := q.data ++ [(j, (s.core t).ls.read a n)], entry := if q.kind = .pl then s.dt p.core + 1 else q.entry }
      if p.kind = .lf then
        let k := s.core p.core
        let src := layerOf p.core
        let dst := p.dst / lsSize % 4
        let fin := beatEnd k.fslot src dst p.halfWidth p.entry
        let s := s.post clk (fin + 13 + 3 * dist src dst) (bankPrio 1 p.id) (.ev (.flueBeatPerform p.id j))
        if p.n ≤ 128 * (j + 1) then s
        else
          let e := nextSlot k.fslot src dst p.halfWidth 24 (fin + 1)
          (s.updCopy p.core p.id fun q => { q with entry := e }).post clk e (bankPrio 1 p.id) (.ev (.copyGroupTransfer p.id (j + 1) .read))
      else
        let s := s.laterOn clk (groupOffsets p).2 (p.rank true) (.ev (.copyGroupTransfer p.id j .write))
        if p.n ≤ 64 * (j + 1) then s else s.laterOn clk 1 (p.rank false) (.ev (.copyGroupTransfer p.id (j + 1) .read))

/-- A group or beat is written at its destination; the last one ends the copy (R195). -/
def State.writeGroup (s : State) (p : Copy) (j : Nat) : State :=
  let stop := match p.failed with | some f => decide (f ≤ j) | none => false
  if stop then s
  else
    let bytes := (assocGet p.data j).getD []
    let n := p.groupBytes j
    let done (s : State) : State :=
      let s := (s.updCopy p.core p.id fun q => { q with wr := j + 1, data := q.data.filter fun d => d.1 != j }).moveWp p (p.grain * j + n)
      let last := match p.failed with | some f => decide (f ≤ j + 1) | none => decide (p.n ≤ p.grain * (j + 1))
      if last then s.finishCopy p else s
    match p.lsDest with
    | none =>
      -- own weight buffer (R78)
      done (s.updCore p.core fun k => k.fillWb p.half (p.dst + 64 * j) bytes)
    | some (t, o) =>
      let a := o + p.grain * j
      if p.kind = .lf then done ((s.claim t (banksOf a n)).storeAt (.ls t) a bytes)
      else if !s.delivering p then s.loseGroup p j .write
      else match s.grant t (banksOf a n) with
        | none => s.loseGroup p j .write
        | some s => done (s.storeAt (.ls t) a bytes)

/-- The first group of a transfer is due. While its channel still delivers an earlier copy, the transfer waits, a flue transfer for its pair's
next slot; a flue transfer enters at the width that its chimney then has (R93, R95, R195, log entry 43). -/
def State.openGroups (s : State) (p : Copy) : State :=
  let clk := Clock.dt (s.bidOf p.core)
  let now := s.dt p.core
  let item : Work := .ev (.copyGroupTransfer p.id 0 .read)
  if p.kind = .lf then
    let half := s.half[(chimOf p.core).val]
    if !s.delivering p then (s.post clk (now + 1) (bankPrio 1 0) item).replanPair p.core p.flueDst (now + 1)
    else if p.halfWidth ≠ half then
      ((s.updCopy p.core p.id fun q => { q with halfWidth := half }).post clk now (bankPrio 1 0) item).replanPair p.core p.flueDst now
    else s.readGroup p 0
  else if !s.delivering p then
    let s := s.updCopy p.core p.id fun q => { q with entry := now + 1 }
    s.post clk (now + 1) ({ p with entry := now + 1 }.rank false) item
  else s.readGroup p 0
/-- Event: half of a group's transfer, at its source or its destination (R195). -/
def execCopyGroupTransfer (id j : Nat) (side : XferSide) (s : State) : Host.Outcome State Fault Refusal :=
  .next (match s.copy id with
    | none => s
    | some p => match side with
      | .read => if j = 0 then s.openGroups p else s.readGroup p j
      | .write => s.writeGroup p j)

/-- Event: a flue beat performs at its destination bank; it never loses (R74, R93). -/
def execFlueBeatPerform (id j : Nat) (s : State) : Host.Outcome State Fault Refusal :=
  .next (match s.copy id with | none => s | some p => s.writeGroup p j)

/-- The cores of a chimney. -/
def chimCores (chim : Fin 64) : List CoreId := (List.finRange 4).map fun l => coreId (64 * l.val + chim.val)
/-- A chimney stands at a frame boundary: no binding that has slots in it is inside a frame (R92, R95). -/
def State.flueBoundary (s : State) (chim : Fin 64) : Bool :=
  (chimCores chim).all fun c => match s.bindingOf c with
    | some b => (s.core c).fslot &&& 0x1010101010101010 == 0 || b.relHc.isNone || b.dt % 8 == 0
    | none => true
/-- Event: a chimney's flue degrades to half width, at the next frame boundary (R95). -/
def execFlueDegrade (chim : Fin 64) (s : State) : Host.Outcome State Fault Refusal :=
  .next (if s.flueBoundary chim then
      (chimCores chim).foldl (fun u c => u.updCore c fun k => { k with degr := min 255 (k.degr + 1) })
        { s with half := s.half.set chim.val true, degrading := s.degrading.erase chim }
    else { s with degrading := s.degrading ++ [chim] })

/-! ### Chunks of barrier-regime copies (R196, R197) -/

/-- The first destination address of a copy in its own space, by which its chunks are cut. -/
def Copy.destAddr (p : Copy) : Nat := match p.lsDest with | some (_, o) => o | none => p.dst % 2 ^ 48
/-- Destination bytes of a copy. -/
def Copy.nd (p : Copy) : Nat := match p.formed with | some bs => bs.length | none => destBytes p.cv p.n
/-- The destination bytes [a, b) of chunk j, counted from the first (R196). -/
def Copy.chunkRange (p : Copy) (j : Nat) : Nat × Nat :=
  let d := p.destAddr
  let first := 4096 - d % 4096
  (if j = 0 then 0 else first + 4096 * (j - 1), min p.nd (first + 4096 * j))
/-- Chunks of a copy. -/
def Copy.chunks (p : Copy) : Nat := if p.nd = 0 then 0 else (p.destAddr % 4096 + p.nd + 4095) / 4096

/-- The source bytes that a chunk's elements lie in: first and number (R197). -/
def Copy.sourceRange (p : Copy) (j : Nat) : Nat × Nat := let (a, b) := p.chunkRange j; chunkSource p.cv a b
/-- The source bytes that a copy reads for a chunk, and counts then: those that it has read for no earlier chunk, since a byte once counted is
read no more (R112, R196). -/
def Copy.readRange (p : Copy) (j : Nat) : Nat × Nat :=
  let (lo, n) := p.sourceRange j
  if j = 0 ∨ p.cv.isNone then (lo, n)
  else
    let (l, m) := p.sourceRange (j - 1)
    (max lo (l + m), lo + n - max lo (l + m))

/-- The words of `n` bytes from an address: the byte of the copy at which each starts, its address, its bytes. -/
def cutWords : Nat → Nat → Nat → Nat → List (Nat × Nat × Nat)
  | 0, _, _, _ => []
  | fuel + 1, ofs, a, n =>
    if n = 0 then []
    else
      let k := min n (8 - a % 8)
      (ofs, a, k) :: cutWords fuel (ofs + k) (a + k) (n - k)
/-- The words of a range. -/
def wordsOf (ofs a n : Nat) : List (Nat × Nat × Nat) := cutWords (n / 8 + 2) ofs a n
/-- The addresses of words. -/
def wordAddrs (ws : List (Nat × Nat × Nat)) : List Nat := ws.flatMap fun w => (List.range w.2.2).map (w.2.1 + ·)

/-- A fault or uncorrectable error stops a copy at its chunk, of which it keeps nothing that it has read only in part, and its binding
freezes; a translation fault leaves its record (R197, R326). -/
def State.stopCopy (s : State) (p : Copy) (fault : Option (Word × Word)) : State :=
  let (lo, n) := p.readRange p.chunk
  let keep (d : Nat × List Byte) : Bool := p.filled || (p.coll.isSome && !(decide (lo ≤ d.1) && decide (d.1 < lo + n)))
  (s.updCopy p.core p.id fun q => { q with stopped := true, samples := [], srcAt := [], barAt := none, words := none, data := q.data.filter keep, fault := fault }).freeze (s.bidOf p.core)

/-- A folio of the reading room, present and filled (R277). -/
def State.folio (s : State) (obj ver num : Nat) : Option Folio :=
  s.archive.folios.find? fun f => f.obj == obj && f.ver == ver && f.num == num
/-- Marks folios as used now. -/
def State.useFolio (s : State) (obj ver num : Nat) : State :=
  { s with archive := { s.archive with folios := s.archive.folios.map fun f =>
      if f.obj = obj ∧ f.ver = ver ∧ f.num = num then { f with used := s.hc } else f } }
/-- The physical address of a folio's place in the room (R82). -/
def roomPa (k : Nat) : Nat := (1021 - k / 32 / 384) * 2 ^ 30 + k / 32 % 384 * 2 ^ 21 + k % 32 * 65536
/-- Starts the fill of a folio that is not present, in this tick if the room has a place for it (R277). -/
def State.wantFolio (s : State) (p : Copy) (obj num : Nat) : State :=
  if (s.folio obj p.ver num).isSome then s
  else
    let s := { s with archive := { s.archive with folios := ⟨obj, p.ver, num, s.hc, some s.hc, some (p.core, p.strand, p.id), none, s.xlate.qcur⟩ :: s.archive.folios } }
    s.post .hc s.hc effects (.ev (.readingRoomFill obj p.ver num))
/-- The folios that `n` bytes at an offset of an object lie in (R277). -/
def foliosOf (ofs n : Nat) : List Nat := if n = 0 then [] else (List.range ((ofs + n - 1) / 65536 - ofs / 65536 + 1)).map (ofs / 65536 + ·)
/-- A copy from the archive starts the fills of all its folios that are not present; they run at once (R277). -/
def State.wantFolios (s : State) (p : Copy) : State :=
  match p.kind with
  | .al | .ag | .aw => (foliosOf (p.src % 2 ^ 40) p.n).foldl (fun u f => u.wantFolio p (p.src / 2 ^ 40) f) s
  | _ => s

/-- Where the words of a chunk lie, a wait, or a stop. -/
inductive Located where
  | words (ws : List (Nat × Nat × Nat))
  | wait
  | stop (fault : Option (Word × Word))
  deriving DecidableEq, Repr
/-- The words of a GM range of a copy, each page sampled now (R197, R330). -/
def State.copyWords (s : State) (c : CoreId) (a : Acc) : Nat → List (Nat × Nat) → State × Located
  | _, [] => (s, .words [])
  | ofs, (va, n) :: rest =>
    match s.copyPage c va a with
    | (s, .wait) => (s, .wait)
    | (s, .stop f) => (s, .stop f)
    | (s, .at pa) => match s.copyWords c a (ofs + n) rest with
      | (s, .words ws) => (s, .words (wordsOf ofs pa n ++ ws))
      | r => r
/-- The words of a range of a device's window: at this device the places its domain table gives; elsewhere a free value says whether the
owner faults (R369, R371, log entry 10). -/
def State.windowWords (s : State) (dev ofs va n : Nat) (a : Acc) : State × Located :=
  if dev = s.devId then
    let ps := (piecesOf va n).map fun q => (q.1, s.windowHit dev q.1 a, q.2)
    match ps.findSome? fun q => match q.2.1 with | .error f => some f | .ok _ => none with
    | some f => (s, .stop (some f))
    | none => (s, .words (ps.flatMap fun q => match q.2.1 with | .ok p => wordsOf (ofs + (q.1 - va)) p q.2.2 | .error _ => []))
  else if !s.present dev then (s, .stop none)
  else
    let (i, s) := s.draw
    (s, if Config.choose i then .stop none else .words (wordsOf ofs va n))

/-- The words of pieces of a copy's source in GM: each piece of 4 KiB is sampled when it is first touched, and kept until the copy has read it
(R197, R330). -/
def State.sourceWords (s : State) (p : Copy) : Nat → List (Nat × Nat) → State × Copy × Located
  | _, [] => (s, p, .words [])
  | ofs, (va, n) :: rest =>
    let base := va / 4096 * 4096
    let (s, p, at') : State × Copy × Except Located Nat := match p.srcAt.find? fun q => q.va == base with
      | some q => (s, p, .ok (q.pa + va % 4096))
      | none => match s.copyPage p.core va .read with
        | (s, .wait) => (s, p, .error .wait)
        | (s, .stop f) => (s, p, .error (.stop f))
        | (s, .at pa) =>
          let lo := max base p.src
          let m := min (base + 4096) (p.src + p.n) - lo
          let q : SrcPiece := ⟨base, pa - va % 4096, m, ⟨(s.core p.core).asid, lo, m, s.xlate.qcur, s.order⟩⟩
          (s, { p with srcAt := p.srcAt ++ [q] }, .ok pa)
    match at' with
    | .error l => (s, p, l)
    | .ok pa => match s.sourceWords p (ofs + n) rest with
      | (s, p, .words ws) => (s, p, .words (wordsOf ofs pa n ++ ws))
      | r => r
/-- Bytes [lo, lo + n) of a copy's source have been read: a piece of which nothing is left is in flight no more (R330). -/
def Copy.readOff (p : Copy) (lo n : Nat) : Copy :=
  let part (q : SrcPiece) : Nat := min (q.va + 4096) (p.src + lo + n) - max q.va (p.src + lo)
  { p with srcAt := (p.srcAt.map fun q => { q with unread := q.unread - part q }).filter fun q => q.unread != 0 }
/-- Locates `n` source bytes from byte `lo` of a copy (R196, R197, R330, R369). -/
def State.locateSource (s : State) (p : Copy) (lo n : Nat) : State × Copy × Located :=
  match p.kind with
  | .gl | .gg | .gx | .gw => s.sourceWords p lo (samplePieces (p.src + lo) n)
  | .xl | .xg =>
    let dev := xmDev p.src
    let p := if dev = s.devId then { p with samples := p.samples ++ s.sampling 0xFFFF [(p.src % 2 ^ 48 + lo, n)] } else p
    let (s, l) := s.windowWords dev lo (p.src % 2 ^ 48 + lo) n .read
    (s, p, l)
  | .al | .ag | .aw => (s, p, .words (wordsOf lo (p.src % 2 ^ 40 + lo) n))
  | _ => (s, p, .words (wordsOf lo (p.src + lo) n))
/-- What reading words of a source meets: bytes by their place in the copy, a wait, or a stop. -/
inductive Source where
  | bytes (bs : List (Nat × List Byte))
  | wait
  | stop
  deriving DecidableEq, Repr
/-- Words of a copy's source are read in HBM when their channels serve the request; their lines are judged, and corrected errors counted
(R268, R385, R386). -/
def State.readHbm (s : State) (p : Copy) (as : List Nat) (bytes : List (Nat × List Byte)) : State × Source :=
  match s.serve .md as with
  | (s, false) => (s, .wait)
  | (s, true) => match s.badGm as with
    | some a => (s.errorRecord 5 a (s.bidOf p.core) p.core.val, .stop)
    | none => (s.countCorrected 5 (s.correctedIn as), .bytes bytes)
/-- Reads located words of a copy's source (R99, R112, R196, R277, R278, R369). -/
def State.readWords (s : State) (p : Copy) (ws : List (Nat × Nat × Nat)) : State × Source :=
  let as := wordAddrs ws
  match p.kind with
  | .gl | .gg | .gx | .gw =>
    let place (w : Nat × Nat × Nat) : Nat × Nat × Nat := (w.1, s.groupPa p.core (p.src + w.1) w.2.1, w.2.2)
    let ws := ws.map place
    s.readHbm p (wordAddrs ws) (ws.map fun w => (w.1, s.gmBytes p.core (wordAddrs [w])))
  | .xl | .xg =>
    let dev := xmDev p.src
    if dev = s.devId then
      let byte (w : Nat × Nat × Nat) : List Byte :=
        s.seenBytes p.core (.xm dev) ((List.range w.2.2).map (p.src % 2 ^ 48 + w.1 + ·)) fun v => s.gm.get (w.2.1 + (v - (p.src % 2 ^ 48 + w.1)))
      s.readHbm p as (ws.map fun w => (w.1, byte w))
    else (let (bs, s) := s.drawBytes as.length; (s, .bytes (ws.map fun w => (w.1, (bs.drop (w.1 - (ws.headD (0, 0, 0)).1)).take w.2.2))))
  | .al | .ag | .aw =>
    let obj := p.src / 2 ^ 40
    let nums := (as.map (· / 65536)).dedup
    let bad := s.archive.badFolios.filter fun b => b.1 == p.id && b.2.1 == obj && b.2.2.1 == p.ver && nums.contains b.2.2.2
    if !bad.isEmpty then ({ s with archive := { s.archive with badFolios := s.archive.badFolios.filter fun b => !bad.contains b } }, .stop)
    else if nums.all fun f => (s.folio obj p.ver f).any fun g => g.filling.isNone then
      let o := s.archive.objects.find? fun o => o.id == obj && o.ver == p.ver
      let place (a : Nat) : Nat := ((s.folio obj p.ver (a / 65536)).bind (·.slot)).elim 0 fun k => roomPa k + a % 65536
      let (s, r) := s.readHbm p (as.map place) (ws.map fun w => (w.1, (o.map fun o => o.bytes.read w.2.1 w.2.2).getD []))
      (nums.foldl (fun u f => u.useFolio obj p.ver f) s, r)
    else (nums.foldl (fun u f => u.wantFolio p obj f) s, .wait)
  | _ =>
    match s.grant p.core (banksOfAddrs as) with
    | none => (s, .wait)
    | some s => match s.badLs p.core as with
      | some line => (s.errorRecord 0 line (s.bidOf p.core) p.core.val, .stop)
      | none => (s.countLs p.core as, .bytes (ws.map fun w => (w.1, (s.core p.core).ls.read w.2.1 w.2.2)))

/-- Locates the destination bytes [lo, lo + n) of a copy (R78, R88, R196, R369). A copy into the window of a device that is not there ends
its binding (R371). -/
def State.locateDest (s : State) (p : Copy) (lo n : Nat) : State × Located :=
  match p.kind with
  | .lg | .gg | .xg | .ag => s.copyWords p.core .write lo (piecesOf (p.dst + lo) n)
  | .lx | .gx =>
    let dev := xmDev p.dst
    if s.present dev then s.windowWords dev lo (p.dst % 2 ^ 48 + lo) n .write else (s.endBinding (s.bidOf p.core) 1, .stop none)
  | .aw | .gw => (s, .words (wordsOf lo (p.dst + lo) n))
  | _ => match p.lsDest with
    | none => (s, .words [])
    | some (_, o) => (s, .words (wordsOf lo (o + lo) n))
/-- Words of a copy are written in HBM when their channels serve the request (R268). -/
def State.writeHbm (s : State) (ws : List ((Nat × Nat × Nat) × List Byte)) : State × Bool :=
  match s.serve .md (wordAddrs (ws.map (·.1))) with
  | (s, false) => (s, false)
  | (s, true) => (ws.foldl (fun (s : State) w => s.storeAt .gm w.1.2.1 w.2) s, true)
/-- The binding of a core is pre-empted and its drain limit has passed: copies between chunks are squashed (R354). -/
def State.squashing (s : State) (c : CoreId) : Bool :=
  match s.bindingOf c with
  | some b => b.preempt && decide (b.reqHc + Word.bits s.lib.plimit 0 32 ≤ s.hc)
  | none => false
/-- Every copy before this one in its channel has been squashed, and this one's chunk, which its source barrier has counted, is completed in any
case (R354). -/
def State.passing (s : State) (p : Copy) : Bool :=
  s.squashing p.core && (match p.lsDest with
    | none => false
    | some (t, _) => ((s.core t).chans[p.ch.val]).queue.all fun q => decide (p.id ≤ q.2) || (match s.copyOf q.1 q.2 with | some o => o.stopped | none => true))
/-- Writes located words of a copy, with the bytes of each; not while the copy's channel delivers another, a bank is lost, or an HBM channel
serves others (R74, R78, R88, R196, R268, R369). -/
def State.writeWords (s : State) (p : Copy) (ws : List ((Nat × Nat × Nat) × List Byte)) : State × Bool :=
  match p.kind with
  | .aw | .gw =>
    (ws.foldl (fun (s : State) w => s.updCore p.core fun k => k.fillWb p.half w.1.2.1 w.2) s, true)
  | .lg | .gg | .xg | .ag => s.writeHbm ws
  | .lx | .gx => if xmDev p.dst = s.devId then s.writeHbm ws else (s, true)
  | _ => match p.lsDest with
    | none => (s, true)
    | some (t, _) =>
      if !s.delivering p && !s.passing p then (s, false)
      else match s.grant t (banksOfAddrs (wordAddrs (ws.map (·.1)))) with
        | none => (s, false)
        | some s =>
          let s := ws.foldl (fun (s : State) w => s.storeAt (.ls t) w.1.2.1 w.2) s
          match ws.getLast? with
          | some (w, bs) => (if s.delivering p then s.moveWp p (w.1 + bs.length) else s, true)
          | none => (s, true)
/-- The line that stops a copy into this device's own window: one with an uncorrectable error that the write meets (R369). -/
def State.badWindow (s : State) (p : Copy) (as : List Nat) : Option Nat :=
  match p.kind with
  | .lx | .gx => if xmDev p.dst = s.devId then s.badGm as else none
  | _ => none

/-! ### Link collectives: matching and results (R207-R209) -/

/-- The DOM register of a level (R30, R206). -/
def collDom (k : Core) : CollLvl → Word
  | .bind => k.dom[1] | .dev => k.dom[2] | .grp => k.dom[3]
/-- The participants of a core's collectives at a level on this device, in ascending INDEX (R207). -/
def State.participants (s : State) (c : CoreId) (l : CollLvl) : List CoreId :=
  let g := domGid (collDom (s.core c) l)
  let all := (List.finRange 256).filter fun o =>
    let w := collDom (s.core o) l
    ((s.core o).task).isSome && domEn w && domGid w == g && (l != .bind || s.bidOf o == s.bidOf c)
  all.mergeSort fun a b => domIndex (collDom (s.core a) l) ≤ domIndex (collDom (s.core b) l)
/-- The entry of a participant in collective number `nth` of a tag and level (R207). -/
def Core.collEntry (k : Core) (l : CollLvl) (tag : BitVec 10) (nth : Nat) : Option Copy :=
  k.copies.find? fun p => match p.coll with | some o => o.lvl == l && o.tag == tag && o.nth == nth | none => false
/-- The bytes that a copy has read from its source, in order. -/
def Copy.sourceBytes (p : Copy) : List Byte := ((p.data.mergeSort fun a b => a.1 ≤ b.1).map (·.2)).flatten
/-- Participants agree on a collective (R209). -/
def collAgree (p q : Copy) : Bool :=
  p.kind == q.kind && p.n == q.n && (match p.coll, q.coll with
    | some a, some b => a.lvl == b.lvl && a.fmt == b.fmt && a.rm == b.rm && a.sat == b.sat && a.arg == b.arg
    | _, _ => false)

/-- The integer of an exact integral value. -/
def numInt : Num → Int
  | .fin s n d => if s then -((n / d : Nat) : Int) else (n / d : Nat)
  | _ => 0
/-- A partial sum of lred in the wide format W, with the flags of one hop (R208): `x` is the participant's element. -/
def redHop (f : Fmt) (rm : Rm) (sat requant : Bool) (w : Num) (x : Nat) : Num × Flg :=
  if f = .s32 then
    let (b, g) := fitInt .s32 sat (numInt w)
    let (w, fl) := if requant then (Num.ofInt (intValue .s32 b), g) else (w, 0)
    (.sum .rne [w, .ofInt (intValue .s32 x)], fl)
  else
    let wide : Fmt := if f = .f64 then .f64 else .f32
    let (w, f1) := if requant then (let (b, g) := roundTo f rm 0 sat w; (floatValue f b, g)) else (w, 0)
    let (b, f2) := roundTo wide .rne 0 false (.sum .rne [w, floatValue f x])
    (floatValue wide b, f1 ||| f2)
/-- The hops of lred over the participants from number `i` on: the last partial, and each participant's flags (R208). -/
def redHops (f : Fmt) (rm : Rm) (sat : Bool) (q : Nat) : Nat → Num → List Nat → Num × List Flg
  | _, w, [] => (w, [])
  | i, w, x :: xs =>
    let (w, fl) := redHop f rm sat (decide (q ≤ i)) w x
    let (r, fs) := redHops f rm sat q (i + 1) w xs
    (r, fl :: fs)
/-- lred of one element over the participants 0 to n - 1: the result's bits and each participant's flags (R208). -/
def redElem (f : Fmt) (rm : Rm) (sat : Bool) (q : Nat) : List Nat → Nat × List Flg
  | [] => (0, [])
  | x0 :: xs =>
    let (w, fs) := redHops f rm sat q 1 (numValue f x0) xs
    let (v, g) : Nat × Flg :=
      if f = .s32 then fitInt .s32 sat (numInt w) else roundTo f rm 0 sat w
    match (((0 : Flg) :: fs).reverse) with
    | last :: before => (v, (((last ||| g) :: before).reverse))
    | [] => (v, [])

/-- The results of a collective whose participants all lie on this device: one for all, and for each the flags of every element (R208). -/
def collResult (kind : CopyKind) (o : Coll) (n : Nat) (sources : List (List Byte)) : Option (List Byte × List (List Flg)) :=
  match kind with
  | .lred =>
    let eb := o.fmt.bits / 8
    if n % eb ≠ 0 then none
    else
      let cols := (List.range (n / eb)).map fun e => redElem o.fmt o.rm o.sat o.arg (sources.map fun bs => leNat ((bs.drop (eb * e)).take eb))
      some ((cols.map fun r => leBytes eb r.1).flatten,
        (List.range sources.length).map fun i => cols.map fun r => (r.2[i]?).getD 0)
  | .lbcast => (sources[o.arg]?).map fun bs => (bs, [])
  | _ => some (sources.flatten, [])

/-- The copies of a collective are posted for their destinations. -/
def State.postFormed (s : State) (p : Copy) : State :=
  let (n, s) := s.draw
  let i := p.chunks
  if i = 0 then s.finishCopy p
  else
    (s.updCopy p.core p.id fun q => { q with chunk := 0, left := (List.range i).drop 1 }).post .hc (s.hc + 1 + Config.delay n) (p.rank true)
      (.ev (.copyChunkPerform p.id 0))

/-- Once every participant has read its source, the collective's result is formed; participants on other devices contribute
values that are free, as are results that the manual does not state; a collective that names a device that has left fails (R207-R209, R371, log
entries 4 and 10). -/
def State.formColl (s : State) (p : Copy) : State :=
  match p.coll with
  | none => s
  | some o =>
    let cs := s.participants p.core o.lvl
    let es := cs.filterMap fun c => (s.core c).collEntry o.lvl o.tag o.nth
    let count := domCount (collDom (s.core p.core) o.lvl)
    -- participants of a gang on other devices of the domain; where every other device has left, they have gone
    let abroad := decide (o.lvl = .grp) && decide (cs.length < count) && !s.lib.domMembers.isEmpty
    let gone := abroad && s.lib.domMembers.all (· == s.devId)
    if !(cs.contains p.core) ∨ es.length ≠ cs.length ∨ (!abroad ∧ cs.length ≠ count) then s
    else if es.any fun e => e.stopped || !e.left.isEmpty || e.formed.isSome || e.rd < e.chunks then s
    else
      let (i, s) := s.draw
      let err := !(es.all (collAgree p)) || gone || (abroad && Config.choose i)
      let nd := p.n * (if p.kind = .lgath then count else 1)
      let out : List Byte × List (List Flg) × State :=
        if err then ([], [], s)
        else match (if abroad then none else collResult p.kind o p.n (es.map Copy.sourceBytes)) with
          | some (bs, fl) => (bs, fl, s)
          | none =>
            let (bs, s) := s.drawBytes nd
            (bs, if p.kind = .lred then es.map fun e => [(Config.datum (s.choice + e.core.val)).setWidth 6] else [], s)
      let s := { out.2.2 with choice := out.2.2.choice + 256 }
      (es.zip (List.range es.length)).foldl (fun s (e, j) =>
        let own := e.n * (if e.kind = .lgath then count else 1)
        let bs := if err then List.replicate own 0 else out.1
        let f (q : Copy) : Copy := { q with formed := some bs, err := err, data := [], flags := (out.2.1[j]?).getD [] }
        (s.updCopy e.core e.id f).postFormed (f e)) s

/-- Chooses the next chunk of a copy: ascending into own LS and with a conversion, else by a free value (R88, R196), and posts
its read, or its writing when the result of a collective is formed. -/
def State.nextChunk (s : State) (p : Copy) : State :=
  match p.left with
  | [] => if p.coll.isSome && p.formed.isNone then s.formColl p else s.finishCopy p
  | j :: rest =>
    let (n, s) := s.draw
    let i := if p.lsDest.isSome || p.cv.isSome then 0 else Config.delay n % (rest.length + 1)
    let c := (p.left[i]?).getD j
    let next (q : Copy) : Copy := { q with chunk := c, left := q.left.eraseIdx i, words := none, filled := q.formed.isSome }
    if s.squashing p.core && p.formed.isNone then s.updCopy p.core p.id fun q => { next q with stopped := true }
    else (s.updCopy p.core p.id next).sometime
      (.ev (if p.formed.isSome then .copyChunkPerform p.id c else .copyChunkRead p.id c)) (p.rank p.formed.isSome)

/-- Every source byte of a chunk has been read: the source barrier counts them, and the chunk goes to its destination, with the byte that its first
element shares with the chunk before and without what it reads no more (R112, R196, R197, R330). -/
def State.chunkRead (s : State) (p : Copy) (j : Nat) : State :=
  let (lo, n) := p.readRange j
  let s := s.countCopy p n false
  let q := { p.readOff lo n with words := none, samples := [], barAt := none, rd := p.rd + 1 }
  if p.coll.isSome then (s.updCopy p.core p.id fun _ => q).nextChunk q
  else
    let bytes := (if (p.sourceRange j).1 < lo then p.carry else []) ++ q.sourceBytes
    (s.updCopy p.core p.id fun _ => { q with data := [((p.sourceRange j).1, bytes)], carry := bytes.drop (bytes.length - 1), filled := true }).sometime
      (.ev (.copyChunkPerform p.id j)) (p.rank true)
/-- What a chunk needs before its first byte: announcements still owed, and the place of the barrier that it counts into (R196, R326). -/
def State.openChunk (s : State) (p : Copy) (b : Option (ObjSpace × Nat)) : State × Except (Option (Word × Word)) Copy :=
  if p.words.isSome then (s, .ok p)
  else match s.announce p.core p.owes with
    | (s, [], _) => s.aimBarrier { p with owes := [] } b
    | (s, owes, f) => (s.updCopy p.core p.id fun q => { q with owes := owes }, .error f)
/-- The cores on which a chunk of a copy acts: those of its scratchpads and barriers (R378). -/
def Copy.cores (p : Copy) : List CoreId :=
  let bar (b : Option (ObjSpace × Nat)) : List CoreId := match b with | some (.ps, a) => [psCore a] | _ => []
  p.core :: p.lsDest.toList.map (·.1) ++ bar p.db ++ bar p.sb
/-- A stretch holds the island of a core on which a chunk acts: what is under way completes after it (R378). -/
def State.stretched (s : State) (p : Copy) : Bool := p.cores.any fun c => (s.islands[(islandOf c).val]).held
/-- A copy has left its queue: two cycles after its acceptance, as log entry 54 says, where its island stretches for the gap of DAMPX; while
domain time stands, not before that gap has passed (R349, R380). -/
def State.hasLeft (s : State) (p : Copy) : Bool :=
  match s.bindingOf p.core with
  | some b =>
    if b.pace == .frozen ∧ b.dt < p.dt + 2 then
      decide (p.hc + 2 ≤ s.hc) && (match (s.core p.core).left[4 + (p.strand == .s).toNat]'(by cases p.strand == .s <;> decide) with
        | some h => p.words.isSome || decide (0 < p.rd) || decide (h + Word.bits (s.core p.core).dampx (if p.strand = .s then 16 else 0) 16 ≤ s.hc)
        | none => true)
    else decide (p.dt + 2 ≤ b.dt)
  | none => true
/-- A copy whose domain time stands leaves its queue in this tick (R349, R380). -/
def State.noteLeft (s : State) (p : Copy) : State :=
  match s.bindingOf p.core with
  | some b =>
    if b.pace == .frozen ∧ b.dt < p.dt + 2 ∧ p.rd = 0 ∧ p.words.isNone then
      s.updCore p.core fun k => { k with left := if p.strand = .s then k.left.set 5 (some s.hc) else k.left.set 4 (some s.hc) }
    else s
  | none => s
/-- Event: words of a chunk's source are read, some of them at a time; their translation is sampled once (R112, R196, R197,
R378, R380). -/
def execCopyChunkRead (id j : Nat) (s : State) : Host.Outcome State Fault Refusal :=
  .next (match s.copy id with
    | none => s
    | some p =>
      let again (s : State) : State := s.post .hc (s.hc + 1) (p.rank false) (.ev (.copyChunkRead id j))
      if p.stopped then s
      else if s.stretched p || !s.hasLeft p then again s
      else match (s.noteLeft p).openChunk p p.sb with
      | (s, .error f) => s.stopCopy p f
      | (s, .ok p) =>
        let (lo, n) := p.readRange j
        match (match p.words with | some ws => (s, p, Located.words ws) | none => s.locateSource p lo n) with
        | (s, q, .wait) => again (s.updCopy p.core id fun _ => { p with srcAt := q.srcAt, samples := [], barAt := none })
        | (s, _, .stop f) => s.stopCopy p f
        | (s, p, .words []) => s.chunkRead p j
        | (s, p, .words ws) =>
          let ((now, rest), s) := s.pick ws
          match s.readWords p now with
          | (s, .wait) => again (s.updCopy p.core id fun _ => { p with words := some ws })
          | (s, .stop) => s.stopCopy p none
          | (s, .bytes bs) =>
            let p := { p with data := p.data ++ bs }
            if rest.isEmpty then s.chunkRead p j
            else (s.updCopy p.core id fun _ => { p with words := some rest }).sometime (.ev (.copyChunkRead id j)) (p.rank false))

/-- The flags of the elements whose first destination byte lies in listed words, raised when these are written; `first` is the first element that
the copy's list is for, `dw` the bits of one (R71, R197, R208). -/
def Copy.flagsIn (p : Copy) (j : Nat) (ws : List (Nat × Nat × Nat)) : Flg :=
  let (first, dw) := match p.coll, p.cv with
    | some o, _ => (0, o.fmt.bits)
    | none, some k => let (a, b) := p.chunkRange j; ((chunkElems k.dst.bits a b).1, k.dst.bits)
    | none, none => (0, 8)
  (p.flags.zipIdx.filter fun f => let b := (first + f.2) * dw / 8; ws.any fun w => decide (w.1 ≤ b) && decide (b < w.1 + w.2.2)).foldl (fun x f => x ||| f.1) 0
/-- A chunk has performed at its destination: its count, the next chunk (R196). -/
def State.chunkDone (s : State) (p : Copy) (j : Nat) : State :=
  let (a, b) := p.chunkRange j
  let q := { p with data := [], samples := [], barAt := none, words := none, filled := false, flags := if p.coll.isSome then p.flags else [] }
  ((s.updCopy p.core p.id fun _ => q).countCopy p (b - a) p.err).nextChunk q
/-- The bytes of a chunk for its destination: the first of them, and the flags of their conversion (R197, R208). -/
def Copy.chunkBytes (p : Copy) (j : Nat) : Nat × List Byte × List Flg :=
  let (a, b) := p.chunkRange j
  match p.formed with
  | some bs => (a, (bs.drop a).take (b - a), [])
  | none => chunkData p.cv a b p.sourceBytes
/-- A copy has had its 32 DT cycles, which a standing domain time counts no more (R196, R349, R354). -/
def State.agedCopy (s : State) (p : Copy) : Bool :=
  match s.bindingOf p.core with
  | some b => decide (p.dt + 32 ≤ b.dt) || (b.pace == .frozen && decide (p.hc + 32 ≤ s.hc))
  | none => true
/-- Event: words of a chunk perform at its destination, at least 32 DT cycles after acceptance, with the flags of their elements; a failed
collective takes its turn in its channel and writes nothing; writes to a device that has left are discarded and end the binding (R71, R88, R196,
R197, R209, R371). -/
def execCopyChunkPerform (id j : Nat) (s : State) : Host.Outcome State Fault Refusal :=
  .next (match s.copy id with
    | none => s
    | some p =>
      let again (s : State) : State := s.post .hc (s.hc + 1) (p.rank true) (.ev (.copyChunkPerform id j))
      if p.stopped then s
      else if !s.agedCopy p || s.stretched p then again s
      else if (p.kind == .lx || p.kind == .gx) && !s.present (xmDev p.dst) then (s.endBinding (s.bidOf p.core) 1).stopCopy p none
      else match s.openChunk p p.db with
      | (s, .error f) => s.stopCopy p f
      | (s, .ok p) =>
        if p.err then (if s.delivering p then s.chunkDone p j else again s)
        else
        let (lo, bytes, fl) := p.chunkBytes j
        let gm : List Sample := match p.kind with
          | .lg | .gg | .xg | .ag => s.sampling (s.core p.core).asid [((p.dst + lo) % 2 ^ 48, bytes.length)]
          | .lx | .gx => if xmDev p.dst = s.devId then s.sampling 0xFFFF [(p.dst % 2 ^ 48 + lo, bytes.length)] else []
          | _ => []
        let p := if p.words.isSome then p
          else { p with samples := p.samples ++ gm, flags := if p.coll.isSome then p.flags else fl }
        match (match p.words with | some ws => (s, Located.words ws) | none => s.locateDest p lo bytes.length) with
        | (s, .wait) => again s
        | (s, .stop f) => s.stopCopy p f
        | (s, .words []) => s.chunkDone p j
        | (s, .words ws) =>
          let ((now, rest), s) : (List (Nat × Nat × Nat) × List (Nat × Nat × Nat)) × State :=
            if p.lsDest.isSome then (let (n, s) := s.draw; let k := Config.delay n % ws.length + 1; ((ws.take k, ws.drop k), s)) else s.pick ws
          match s.badWindow p (wordAddrs now) with
          | some line => (s.errorRecord 5 line (s.bidOf p.core) p.core.val).stopCopy p none
          | none => match s.writeWords p (now.map fun w => (w, (bytes.drop (w.1 - lo)).take w.2.2)) with
            | (s, false) => again (s.updCopy p.core id fun _ => { p with words := some ws })
            | (s, true) =>
              let s := s.raise p.core p.strand (p.flagsIn j now)
              if rest.isEmpty then s.chunkDone p j
              else (s.updCopy p.core id fun _ => { p with words := some rest }).sometime (.ev (.copyChunkPerform id j)) (p.rank true))

/-! ### Acceptance (R194, R196) -/

/-- The record of a copy that is being accepted. -/
def State.newCopy (s : State) (u : Turn) (kind : CopyKind) (dst src n : Nat) (scope : Scope) (ch : BitVec 3) (cv : Option CopyConv)
    (db sb : Option (ObjSpace × Nat)) (coll : Option Coll) : Copy :=
  let k := s.core u.c
  let ver := ((s.archive.objects.find? fun o => o.id == src / 2 ^ 40 && o.current).map (·.ver)).getD 0
  { id := 256 * k.nextCopy + u.c.val, core := u.c, strand := u.st, pos := u.pos, sys := u.sys, kind := kind, dst := dst, src := src
    n := n, scope := scope, ch := ⟨ch.toNat, by have := ch.isLt; omega⟩, cv := cv, db := db, sb := sb, dt := s.dt u.c, hc := s.hc
    half := !k.active, rd := 0, wr := 0, data := [], dlen := destBytes cv n, chunk := 0, left := [], words := none, filled := false
    stopped := false, ver := ver, coll := coll, formed := none, err := false, flags := [], fault := none, samples := []
    srcAt := [], barAt := none, owes := [], carry := []
    halfWidth := s.half[(chimOf u.c).val], entry := 0, failed := none }

/-- A copy's barriers count it in at its acceptance; what one that is not reached should hear is told before its first chunk (R196). -/
def State.announceCopy (s : State) (p : Copy) (nd : Nat) : State :=
  let (s, owes, _) := s.announce p.core ((p.db.toList.map fun b => (b, nd)) ++ p.sb.toList.map fun b => (b, p.n))
  if owes.isEmpty then s else s.updCopy p.core p.id fun q => { q with owes := owes }
/-- The copy unit accepts a copy: barriers count it in, its channel queues it, its transfers are scheduled; the push is made
now (R40, R194-R196). -/
def State.acceptCopy (s : State) (u : Turn) (p : Copy) : State :=
  let s := s.pushNow u
  if p.n = 0 then s
  else
    let s := s.updCore u.c fun k => { k with nextCopy := k.nextCopy + 1, copies := k.copies ++ [p] }
    let s := s.announceCopy p p.nd
    let clk := Clock.dt (s.bidOf u.c)
    let s := s.laterOn clk 0 latePrio (.copyAccept u.c p.id)
    if p.kind = .lf then s.takeSlots p (s.dt u.c + 1)
    else if p.kind.inPkg then
      let entry := s.dt u.c + (groupOffsets p).1
      (s.updCopy u.c p.id fun q => { q with entry := entry }).laterOn clk (groupOffsets p).1 (p.rank false) (.ev (.copyGroupTransfer p.id 0 .read))
    else
      let left := List.range p.chunks
      ((s.updCopy u.c p.id fun q => { q with left := left }).wantFolios p).nextChunk { p with left := left }

/-! ### The copy instructions (R192-R194) -/

/-- The fault of a GM range of a copy: bits that must be zero (R25, R194); its pages are checked as it runs. -/
def gmRange (pos a n : Nat) : Option TrapInfo := if 2 ^ 48 < a + n ∨ 2 ^ 48 ≤ a then some (spaceFault pos a .gm) else none
/-- The fault of a weight-buffer range (R25). -/
def wbRange (pos a n : Nat) : Option TrapInfo := if 2 ^ 18 < a + n ∨ 2 ^ 18 ≤ a then some (spaceFault pos a .wb) else none
/-- The fault of an AR range: no such object, or past its end (R275). -/
def State.arFault (s : State) (pos a n : Nat) : Option TrapInfo :=
  match s.archive.objects.find? fun o => o.id == a / 2 ^ 40 && o.current with
  | none => some (spaceFault pos a .ar)
  | some o => if o.len < a % 2 ^ 40 + n then some (spaceFault pos a .ar) else none
/-- The fault of a barrier named by a copy: alignment and its space's rules (R189, R194). -/
def State.copyBarrierFault (s : State) (sp : ObjSpace) (a : Nat) : Option TrapInfo :=
  s.objFault s.me.1 s.me.2 sp a 32 false .atomic
/-- The commit-scope fault of a GM destination in a commit group: a page that is pinned or compute-capable (R50, R194). -/
def State.copyScope (s : State) (pos a n : Nat) : Option TrapInfo :=
  let c := s.me.1
  if !s.inGroup c then none
  else ((piecesOf a n).find? fun q => s.coreHit c false q.1 .write == .cscope).map fun q => { cause := 10, epc := pos, i0 := BitVec.ofNat 64 q.1 }

/-- The fault of a copy's source range. -/
def State.sourceFault (s : State) (k : CopyKind) (pos a n : Nat) : Option TrapInfo :=
  match k with
  | .ll | .lp | .lf | .lw | .lg | .lx | .lred | .lbcast | .lgath => lsFault pos a n false
  | .pl => s.psFault s.me.1 pos a n false
  | .gl | .gg | .gx | .gw => gmRange pos a n
  | .xl | .xg => s.xmFault pos a n
  | .al | .ag | .aw => s.arFault pos a n
/-- The fault of a copy's destination range. -/
def State.destFault (s : State) (k : CopyKind) (pos a n : Nat) : Option TrapInfo :=
  match k with
  | .ll | .pl | .gl | .xl | .al | .lred | .lbcast | .lgath => lsFault pos a n true
  | .lp => s.psFault s.me.1 pos a n true
  | .lf =>
    let c := s.me.1
    let dst := a / lsSize % 4
    let t := coreId (64 * dst + c.val % 64)
    if 2 ^ 24 ≤ a ∨ dst = layerOf c ∨ !s.member c t ∨ !((List.range 8).any fun i => slotOf (s.core c).fslot (layerOf c) dst i) then some (spaceFault pos a .ls)
    else if lsSize < a % lsSize + n ∨ touchesCell (a % lsSize) n ∨ a % 128 ≠ 0 ∨ n % 128 ≠ 0 then some (spaceFault pos a .ls) else none
  | .lg | .gg | .xg | .ag => firstFault [gmRange pos a n, s.copyScope pos a n]
  | .lx | .gx => firstFault [s.xmFault pos a n, s.xmScope s.me.1 pos a]
  | .lw | .aw | .gw => wbRange pos a n
/-- The exact faults of a copy (R194). -/
def State.copyFault (s : State) (k : CopyKind) (dst src n : Nat) (cv : Option CopyConv) (db sb : Option (ObjSpace × Nat)) :
    Option TrapInfo :=
  let pos := s.mine.pos
  let c := s.me.1
  firstFault [
    if 2 ^ 32 < n then some (spaceFault pos n .ls) else none,
    (match cv with
      | some v => if n * 8 % v.src.bits ≠ 0 ∨ n * 8 / v.src.bits * v.dst.bits % 8 ≠ 0 then some (spaceFault pos src .ls) else none
      | none => none),
    s.sourceFault k pos src n, (if k = .lf ∧ src % 128 ≠ 0 then some (spaceFault pos src .ls) else none),
    s.destFault k pos dst (destBytes cv n),
    db.bind fun b => s.copyBarrierFault b.1 b.2, sb.bind fun b => s.copyBarrierFault b.1 b.2,
    if k = .lf ∧ (s.core c).fwBind ≠ s.half[(chimOf c).val] then some { cause := 14, epc := pos, i0 := s.fwidth c } else none]

/-- A copy's byte count: bits [32:0] of its register (R188). -/
def State.count33 (s : State) (b : XReg) : Nat := Word.bits (s.reg b) 0 33

/-- A copy instruction (R192-R197). DESIGN CHOICE (log entry 49): a copy of 0 bytes waits for an entry as any other and is over at its acceptance. -/
def copyOp (h : Hdr) (k : CopyKind) (d a b : XReg) (o : CopySpec) (s : State) : Host.Outcome State Fault Refusal :=
  let dst := (s.reg d).toNat
  let src := (s.reg a).toNat
  let n := s.count33 b
  let db := o.db.map fun sp => (sp, (s.reg o.c).toNat)
  let sb := o.sb.map fun g => (if g then ObjSpace.gm else .ls, (s.reg (o.c + 1)).toNat)
  issue h { legal := [.l, .s], fault := s.copyFault k dst src n o.cv db sb, busy := (s.core s.me.1).copyBusy s.me.2, needs := true }
    (fun u s => s.acceptCopy u (s.newCopy u k dst src n o.scope o.ch o.cv db sb none)) s

/-- cp.ll (R192). -/
def execCpLl (h : Hdr) (d a b : XReg) (o : CopySpec) (s : State) : Host.Outcome State Fault Refusal := copyOp h .ll d a b o s
/-- cp.lp (R192). -/
def execCpLp (h : Hdr) (d a b : XReg) (o : CopySpec) (s : State) : Host.Outcome State Fault Refusal := copyOp h .lp d a b o s
/-- cp.pl (R192). -/
def execCpPl (h : Hdr) (d a b : XReg) (o : CopySpec) (s : State) : Host.Outcome State Fault Refusal := copyOp h .pl d a b o s
/-- cp.lf (R192). -/
def execCpLf (h : Hdr) (d a b : XReg) (o : CopySpec) (s : State) : Host.Outcome State Fault Refusal := copyOp h .lf d a b o s
/-- cp.lw (R192). -/
def execCpLw (h : Hdr) (d a b : XReg) (o : CopySpec) (s : State) : Host.Outcome State Fault Refusal := copyOp h .lw d a b o s
/-- cp.lg (R192). -/
def execCpLg (h : Hdr) (d a b : XReg) (o : CopySpec) (s : State) : Host.Outcome State Fault Refusal := copyOp h .lg d a b o s
/-- cp.gl (R192). -/
def execCpGl (h : Hdr) (d a b : XReg) (o : CopySpec) (s : State) : Host.Outcome State Fault Refusal := copyOp h .gl d a b o s
/-- cp.gg (R192). -/
def execCpGg (h : Hdr) (d a b : XReg) (o : CopySpec) (s : State) : Host.Outcome State Fault Refusal := copyOp h .gg d a b o s
/-- cp.lx (R192). -/
def execCpLx (h : Hdr) (d a b : XReg) (o : CopySpec) (s : State) : Host.Outcome State Fault Refusal := copyOp h .lx d a b o s
/-- cp.xl (R192). -/
def execCpXl (h : Hdr) (d a b : XReg) (o : CopySpec) (s : State) : Host.Outcome State Fault Refusal := copyOp h .xl d a b o s
/-- cp.gx (R192). -/
def execCpGx (h : Hdr) (d a b : XReg) (o : CopySpec) (s : State) : Host.Outcome State Fault Refusal := copyOp h .gx d a b o s
/-- cp.xg (R192). -/
def execCpXg (h : Hdr) (d a b : XReg) (o : CopySpec) (s : State) : Host.Outcome State Fault Refusal := copyOp h .xg d a b o s
/-- cp.al (R192). -/
def execCpAl (h : Hdr) (d a b : XReg) (o : CopySpec) (s : State) : Host.Outcome State Fault Refusal := copyOp h .al d a b o s
/-- cp.ag (R192). -/
def execCpAg (h : Hdr) (d a b : XReg) (o : CopySpec) (s : State) : Host.Outcome State Fault Refusal := copyOp h .ag d a b o s
/-- cp.aw (R192). -/
def execCpAw (h : Hdr) (d a b : XReg) (o : CopySpec) (s : State) : Host.Outcome State Fault Refusal := copyOp h .aw d a b o s
/-- cp.gw (R192). -/
def execCpGw (h : Hdr) (d a b : XReg) (o : CopySpec) (s : State) : Host.Outcome State Fault Refusal := copyOp h .gw d a b o s

end Sys2Proof.Machine
end

