-- ==== Sys2Proof/Machine/Collectives.lean ====
section
/-! DEFINITION. The link collectives and the accession instructions (R206-R211, R280). -/

namespace Sys2Proof.Machine

/-- The exact faults of a collective: its source, its destination of `nd` bytes, and its barriers (R194, R208). -/
def State.collFault (s : State) (dst src n nd : Nat) (db sb : Option (ObjSpace × Nat)) : Option TrapInfo :=
  let pos := s.mine.pos
  firstFault [
    if 2 ^ 32 < n then some (spaceFault pos n .ls) else none,
    lsFault pos src n false, lsFault pos dst nd true,
    db.bind fun b => s.copyBarrierFault b.1 b.2, sb.bind fun b => s.copyBarrierFault b.1 b.2]

/-- The copy unit accepts a collective: it takes its number of its tag and level, its barriers count it in, its channel queues
it, and its source is read (R207). -/
def State.acceptColl (s : State) (u : Turn) (p : Copy) (o : Coll) (nd : Nat) : State :=
  let k := s.core u.c
  let key := (o.lvl, o.tag)
  let nth := ((k.colls.find? fun e => e.1 == key.1 && e.2.1 == key.2).map (·.2.2)).getD 0
  let p := { p with coll := some { o with nth := nth } }
  let p := { p with left := List.range p.chunks, dlen := nd }
  let s := s.pushNow u
  let s := s.updCore u.c fun k =>
    { k with nextCopy := k.nextCopy + 1, copies := k.copies ++ [p]
             colls := (o.lvl, o.tag, nth + 1) :: k.colls.filter fun e => !(e.1 == key.1 && e.2.1 == key.2) }
  let s := s.announceCopy p nd
  let s := if p.n = 0 then s else s.laterOn (.dt (s.bidOf u.c)) 0 latePrio (.copyAccept u.c p.id)
  s.nextChunk p

/-- A collective instruction (R206, R207). -/
def collOp (h : Hdr) (k : CopyKind) (d a b : XReg) (fmt : Fmt) (rm : Rm) (sat : Bool) (o : CollSpec) (s : State) :
    Host.Outcome State Fault Refusal :=
  let dst := (s.reg d).toNat
  let src := (s.reg a).toNat
  let n := s.count33 b
  let nd := if k = .lgath then n * domCount (collDom (s.core s.me.1) o.lvl) else n
  let sp (g : Bool) : ObjSpace := if g then .gm else .ls
  let db := o.db.map fun g => (sp g, (s.reg o.c).toNat)
  let sb := o.sb.map fun g => (sp g, (s.reg (o.c + 1)).toNat)
  let coll : Coll := { lvl := o.lvl, tag := o.tag, nth := 0, fmt := fmt, rm := rm, sat := sat, arg := o.arg.toNat }
  issue h { legal := [.l, .s], fault := s.collFault dst src n nd db sb, busy := (s.core s.me.1).copyBusy s.me.2, needs := true }
    (fun u s => s.acceptColl u (s.newCopy u k dst src n o.scope o.ch none db sb none) coll nd) s

/-- lred (R208). -/
def execLred (h : Hdr) (d a b : XReg) (fmt : Fmt) (rm : Rm) (sat : Bool) (o : CollSpec) (s : State) :
    Host.Outcome State Fault Refusal := collOp h .lred d a b fmt rm sat o s
/-- lbcast (R208). -/
def execLbcast (h : Hdr) (d a b : XReg) (o : CollSpec) (s : State) : Host.Outcome State Fault Refusal :=
  collOp h .lbcast d a b .f64 .rne false o s
/-- lgath (R208). -/
def execLgath (h : Hdr) (d a b : XReg) (o : CollSpec) (s : State) : Host.Outcome State Fault Refusal :=
  collOp h .lgath d a b .f64 .rne false o s

/-! ### Accession (R210, R211, R280, R284) -/

/-- Accessions accepted and not ended. -/
def Archive.flying (a : Archive) : List Accession := a.accs.filter fun x => x.status.isNone
/-- The status of an acc at issue (R210, R280). -/
def accStatus (a : Archive) (id src n rec : Nat) : Nat :=
  if rec % 32 ≠ 0 ∨ 2 ^ 48 ≤ rec ∨ n = 0 ∨ 2 ^ 48 < src + n ∨ 2 ^ 48 ≤ src ∨ 2 ^ 24 ≤ id ∨ id = 0 then 2
  else if 64 ≤ a.flying.length then 1 else 0
/-- Queues an accession; when it starts is not exposed (R280). -/
def State.queueAccession (s : State) (bid part asid root id : Nat) (repl : Bool) (src n rec : Nat) : State :=
  let a := s.archive
  let x : Accession := { num := a.nextAcc, bid := bid, part := part, asid := asid, root := root, id := id, repl := repl, src := src, n := n
                         record := rec, started := false, ctrl := 0, need := 0, blocks := [], done := 0, reloc := 0
                         outcome := none, status := none, cancelled := false, data := [], pieces := [], samples := [] }
  ({ s with archive := { a with accs := a.accs ++ [x], nextAcc := a.nextAcc + 1 } } : State).sometime (.ev .accessionStart) effects

/-- acc: validates and queues one accession; status at issue + 2; a count above 2^32 is a space-access fault (R50, R188, R210). -/
def execAcc (h : Hdr) (d a b c : XReg) (repl : Bool) (s : State) : Host.Outcome State Fault Refusal :=
  let src := (s.reg a).toNat
  let n := s.count33 b
  let id := (s.reg c).toNat
  let rec' := (s.reg (c + 1)).toNat
  let pos := s.mine.pos
  issue h { legal := [.l, .s], writes := true
            fault := firstFault [if s.inGroup s.me.1 then some { cause := 10, epc := pos, i0 := BitVec.ofNat 64 src } else none,
              if 2 ^ 32 < n then some (spaceFault pos n .gm) else none] } (fun u s =>
    let st := accStatus s.archive id src n rec'
    let k := s.core u.c
    let s := if st = 0 then s.queueAccession (s.bidOf u.c) (k.partid.toNat % 4) k.asid k.root id repl src n rec' else s
    s.resultRead u 2 (xResult u.sys d (BitVec.ofNat 64 st))) s

/-- Erase blocks of the device outside the reserved regions: 8 stacks of 32,768 blocks, 512 of each reserved (R274). -/
def totalBlocks : Nat := 8 * (32768 - 512)
/-- Blocks allotted to object versions and to accessions in progress. -/
def Archive.usedBlocks (a : Archive) : List Nat :=
  (a.objects.map (·.blocks)).flatten ++ (a.flying.map (·.blocks)).flatten
/-- Free blocks (R274). -/
def Archive.freeBlocks (a : Archive) : Nat := totalBlocks - a.usedBlocks.length
/-- A copy reads a version of an object (R285). -/
def Copy.reads (p : Copy) (o : Object) : Bool :=
  (match p.kind with | .al | .ag | .aw => true | _ => false) && p.src / 2 ^ 40 == o.id && p.ver == o.ver
/-- Versions that are not current and that no copy reads, in a core or in a saved task, are gone, and their blocks free (R276, R285). -/
def State.pruneVersions (s : State) : State :=
  let read (o : Object) : Bool := s.cores.toList.any (fun k => k.copies.any (·.reads o)) || s.lib.saves.any fun i => i.content.copies.any (·.reads o)
  { s with archive := { s.archive with objects := s.archive.objects.filter fun o => o.current || read o } }
/-- The value that accq reads when it completes (R211, R284). -/
def State.accqValue (s : State) (c : CoreId) (sel : AccqSel) : Word :=
  let s := s.pruneVersions
  BitVec.ofNat 64 (match sel with
    | .fly => (s.archive.flying.filter fun x => x.bid == s.bidOf c).length
    | .wear => s.archive.wearRemaining
    | .free => s.archive.freeBlocks * 16)

/-- accq: holds its strand until the value is delivered, at a tick that is not exposed (R182, R211). -/
def execAccq (h : Hdr) (d : XReg) (sel : AccqSel) (s : State) : Host.Outcome State Fault Refusal :=
  issue h { writes := true } (fun u s =>
    (s.waitFor u (.unit 7 0) d false 0).sometime (.accq u.c u.st u.ord sel) latePrio) s

end Sys2Proof.Machine
end

