-- ==== Sys2Proof/Machine/ArchiveOps.lean ====
section
/-! DEFINITION. The archive controller: fills of the reading room and its size, accessions from their checks to their records, and
the wear day (R274-R285, R307, R389). -/

namespace Sys2Proof.Machine

/-! ### The reading room (R277-R279, R307) -/

/-- Folios that a reading room of N units holds (R277, R307). -/
def roomFolios (n : Nat) : Nat := n * 32 * 2 ^ 30 / 65536
/-- A copy from the archive that has still to read a folio in some chunk (R277). -/
def Copy.usesFolio (p : Copy) (f : Folio) : Bool :=
  match p.kind with
  | .al | .ag | .aw =>
    let needs (j : Nat) : Bool :=
      let (lo, n) := p.sourceRange j
      let ofs := p.src % 2 ^ 40 + lo
      n != 0 && decide (ofs / 65536 ≤ f.num) && decide (f.num ≤ (ofs + n - 1) / 65536)
    p.src / 2 ^ 40 == f.obj && p.ver == f.ver && ((!p.filled && needs p.chunk) || p.left.any needs)
  | _ => false
/-- A folio that a fill may replace: no fill and no copy is using it (R277). -/
def State.replaceable (s : State) (f : Folio) : Bool := f.filling.isNone && !(s.cores.toList.any fun k => k.copies.any fun p => p.usesFolio f)
/-- Gives up least recently used folios until a number of them fit (R277). -/
def State.shrinkRoom (s : State) (cap : Nat) : Nat → State
  | 0 => s
  | fuel + 1 =>
    if s.archive.folios.length ≤ cap then s
    else match (s.archive.folios.filter s.replaceable).mergeSort (fun f g => f.used ≤ g.used) with
      | f :: _ => State.shrinkRoom { s with archive := { s.archive with folios := s.archive.folios.filter fun g => g != f } } cap fuel
      | [] => s
/-- Event: a fill starts: it takes a place in the room, and completes within 40 µs, or meets an uncorrectable error, by a free value
(R277, R278). -/
def execReadingRoomFill (obj ver folio : Nat) (s : State) : Host.Outcome State Fault Refusal :=
  .next (
    let s := s.shrinkRoom (roomFolios s.archive.rrsize) s.archive.folios.length
    if roomFolios s.archive.rrsize < s.archive.folios.length then s.post .hc (s.hc + 1) effects (.ev (.readingRoomFill obj ver folio))
    else
      let (n, s) := s.draw
      let used := s.archive.folios.filterMap (·.slot)
      let slot := (List.range (roomFolios s.archive.rrsize)).find? fun k => !used.contains k
      let s := { s with archive := { s.archive with folios := s.archive.folios.map fun (f : Folio) =>
        if f.obj = obj ∧ f.ver = ver ∧ f.num = folio then { f with slot := slot } else f } }
      s.post .hc (s.hc + 1 + Config.delay n % 80000) effects (.ev (.fillComplete obj ver folio (Config.choose n))))
/-- A value is added to a lifetime histogram of fills (R387, R389). -/
def State.countFill (s : State) (v : Nat) : State :=
  { s with life := { s.life with fills := vmod s.life.fills ⟨capBin v % 16, Nat.mod_lt _ (by decide)⟩ (· + 1) } }
/-- The flash address of a folio: its erase block, then the place in it (R274; log entry 40). -/
def State.flashAddr (s : State) (obj ver folio : Nat) : Nat :=
  match s.archive.objects.find? fun o => o.id == obj && o.ver == ver with
  | some o => o.blocks.getD (folio / 256) 0 * 2 ^ 24 + folio % 256 * 65536
  | none => 0
/-- The rows of a folio's place in the room. -/
def Folio.rows (f : Folio) : List Nat := match f.slot with | some k => (List.range 32).map (roomPa k + 2048 * ·) | none => []
/-- Event: a fill completes once the channel that receives it has served it in the RR class, and its folio is present; or its error is recorded,
and will stop the copy that started it. The monitors record its ticks (R268, R277, R278, R386, R388). -/
def execFillComplete (obj ver folio : Nat) (bad : Bool) (s : State) : Host.Outcome State Fault Refusal :=
  .next (match s.folio obj ver folio with
    | none => s
    | some f =>
      let drop := s.archive.folios.filter fun g => g != f
      if bad then
        let (bid, unit, id) := match f.starter with | some (c, _, id) => (s.bidOf c, c.val, [id]) | none => (0, 0, [])
        let s := s.errorRecord 7 (s.flashAddr obj ver folio) bid unit
        { s with archive := { s.archive with folios := drop, badFolios := id.map (fun i => (i, obj, ver, folio)) ++ s.archive.badFolios } }
      else match s.serve .rr f.rows with
      | (s, false) => s.post .hc (s.hc + 1) effects (.ev (.fillComplete obj ver folio bad))
      | (s, true) =>
        let ticks := s.hc - f.filling.getD s.hc
        let s := { s with archive := { s.archive with folios := { f with filling := none, used := s.hc } :: drop } }
        let s := s.countFill ticks
        match f.starter with
        | some (c, st, _) => s.capture c 4 (some st) ticks
        | none => s)
/-- Event: RRSIZE is written; the value is held until it can apply, and 0 and 13 to 15 are ignored (R307). -/
def execRrsizeWrite (v : Word) (s : State) : Host.Outcome State Fault Refusal :=
  let n := Word.bits v 0 4
  .next (if 1 ≤ n ∧ n ≤ 12 then { s with archive := { s.archive with rrHeld := some n } } else s)
/-- The leaves of a table and of those below it, each with the bits of its page size (R323, R325). -/
def leavesOf (m : Mem) : Nat → Nat → Nat → List (Word × Nat)
  | 0, _, _ => []
  | fuel + 1, lvl, table => ((List.range (if lvl = 3 then 32 else 512)).map fun i =>
      let e := m.word (table + 8 * i)
      if !eV e then [] else if eLeaf e then [(e, pageBits lvl)] else leavesOf m fuel (lvl + 1) (npa e)).flatten
/-- Every leaf of the device: those of the address spaces and of the domain window (R323, R369). -/
def State.leaves (s : State) : List (Word × Nat) :=
  (s.xlate.roots.map (·.2) ++ (if s.lib.domMembers.isEmpty then [] else [s.xlate.domRoot])).flatMap fun r => leavesOf s.gm 4 0 r
/-- A frame that a larger room adds holds a mapped page (R279, R307). -/
def State.roomTaken (s : State) (old new : Nat) : Bool := s.leaves.any fun e => !inRoomOf old (npa e.1) && inRoomOf new (npa e.1)
/-- The held size can apply: no binding runs, and the frames it adds are free (R279, R307). -/
def State.rrReady (s : State) : Bool :=
  match s.archive.rrHeld with
  | none => false
  | some n => s.bindings.all (fun b => b.relHc.isNone) && !s.roomTaken s.archive.rrsize n
/-- Event: a held size takes effect; folios that no longer fit are lost (R279, R307). -/
def execRrsizeApply (s : State) : Host.Outcome State Fault Refusal :=
  .next (match s.archive.rrHeld with
    | some n => if s.rrReady then
        let fits (f : Folio) : Bool := f.slot.all (decide <| · < roomFolios n)
        ({ s with archive := { s.archive with rrsize := n, rrHeld := none, folios := s.archive.folios.filter fits } } : State).shrinkRoom (roomFolios n)
          s.archive.folios.length
      else s
    | none => s)

/-! ### Blocks and wear (R274, R284) -/

/-- Program/erase count of a block (R284). -/
def Archive.count (a : Archive) (b : Nat) : Nat := (assocGet a.wear b).getD 0
/-- The free block of a stack that placement takes: the lowest count, then the lowest number; the last 512 blocks of each stack are the
reserved region (R274, R284). -/
def Archive.freeIn (a : Archive) (used : List Nat) (stack : Nat) : Option Nat :=
  ((List.range (32768 - 512)).map (32768 * stack + ·)).foldl (fun (best : Option Nat) b =>
    if used.contains b then best
    else match best with
      | none => some b
      | some o => if a.count b < a.count o then some b else best) none
/-- A free block, from a stack upward modulo 8 (R274). -/
def Archive.freeFrom (a : Archive) (used : List Nat) (stack : Nat) : Option Nat :=
  (List.range 8).foldl (fun (r : Option Nat) i => match r with | some b => some b | none => a.freeIn used ((stack + i) % 8)) none
/-- The blocks for an object from block j on (R274). -/
def Archive.allot (a : Archive) (id : Nat) : Nat → Nat → List Nat → List Nat
  | 0, _, _ => []
  | n + 1, j, used => match a.freeFrom used ((id + j) % 8) with
    | some b => b :: a.allot id n (j + 1) (b :: used)
    | none => []
/-- One program/erase cycle of a block. -/
def Archive.spend (a : Archive) (b : Nat) : Archive := { a with wear := (b, a.count b + 1) :: a.wear.filter fun w => w.1 != b }
/-! ### Accessions (R280-R283) -/

/-- Changes an accession. -/
def Archive.updAcc (a : Archive) (num : Nat) (f : Accession → Accession) : Archive :=
  { a with accs := a.accs.map fun x => if x.num = num then f x else x }
/-- The archive stacks of a partition, whose controllers run its accessions: 2p and 2p + 1 of each of its quarters p (R304, R305). -/
def archiveStacks (m : BitVec 4) : List Nat := (List.range 8).filter fun a => m.getLsbD (a / 2)
/-- The accession that starts next: the first in acceptance order that has not, while fewer than eight run (R280). -/
def Archive.nextAccession (a : Archive) : Option Accession :=
  if 8 ≤ (a.flying.filter (·.started)).length then none else a.flying.find? fun x => !x.started
/-- The check of an accession's ID against the catalogue and the accessions accepted before it (R280). -/
def Archive.idConflict (a : Archive) (x : Accession) : Bool :=
  let installed := a.objects.any fun o => o.id == x.id && o.current
  let before (f : Accession → Bool) : Bool := a.flying.any fun y => decide (y.num < x.num) && y.id == x.id && f y
  if x.repl then !installed || before (·.repl) else installed || before fun _ => true
/-- The checks before programming: a status, or none when blocks are to be programmed (R280). -/
def Archive.precheck (a : Archive) (x : Accession) (need : Nat) : Option Nat :=
  if a.idConflict x then some 7
  else if a.freeBlocks < need then some 3
  else if a.wearRemaining / 2 ^ 24 < need then some 2
  else if x.cancelled then some 6
  else none
/-- Event: the next accession starts, on a controller of its partition: its checks, then its blocks; what follows comes at ticks that are not
exposed (R280, R305, log entry 4). -/
def execAccessionStart (s : State) : Host.Outcome State Fault Refusal :=
  .next (
    let s := s.pruneVersions
    match s.archive.nextAccession with
    | none => s
    | some x =>
      let need := (x.n + 2 ^ 24 - 1) / 2 ^ 24
      let st := s.archive.precheck x need
      let blocks := if st.isSome then [] else s.archive.allot x.id need 0 s.archive.usedBlocks
      let own := archiveStacks (s.lib.parts[x.part % 4]'(Nat.mod_lt _ (by decide)))
      let (i, s) := s.draw
      let ctrl := (own[Config.delay i % (own.length + 1)]?).getD (own.headD 0)
      let s : State := { s with archive := s.archive.updAcc x.num fun y => { y with started := true, ctrl := ctrl, need := need, blocks := blocks, outcome := st } }
      if st.isSome then s.sometime (.ev .accessionComplete) effects else s.sometime (.accStep x.num) effects)
/-- An accession ends with a status; its record follows at a tick that is not exposed (R280). -/
def State.accEnd (s : State) (x : Accession) (status : Nat) : State :=
  ({ s with archive := s.archive.updAcc x.num fun y => { y with outcome := some status, blocks := [], pieces := [], samples := [] } } : State).sometime
    (.ev .accessionComplete) effects
/-- The new version of an accession's object is in the catalogue, in one step (R285). -/
def Archive.install (a : Archive) (x : Accession) : Archive :=
  { a with objects := ⟨x.id, x.num + 1, x.n, x.blocks, Mem.write [] 0 x.data, true⟩ :: a.objects.map fun o => if o.id = x.id then { o with current := false } else o }
/-- One attempt to program the next block of an accession, which a free value may let fail: it is then relocated to a free block, from the failed
one's stack on. After the last block the object is installed (R274, R280, R284, R285, log entry 4). -/
def State.accProgram (s : State) (x : Accession) : State :=
  let s := s.pruneVersions
  let (n, s) := s.draw
  let b := x.blocks.getD x.done 0
  let a := s.archive.spend b
  if Config.choose n then
    match a.freeFrom a.usedBlocks (b / 32768) with
    | none => ({ s with archive := a } : State).accEnd x 4
    | some b' => ({ s with archive := a.updAcc x.num fun y => { y with blocks := y.blocks.set x.done b', reloc := y.reloc + 1 } } : State).sometime (.accStep x.num) effects
  else
    let x := { x with done := x.done + 1 }
    let a := a.updAcc x.num fun y => { y with done := x.done }
    if x.done < x.need then ({ s with archive := a } : State).sometime (.accStep x.num) effects
    else ({ s with archive := a.install x } : State).accEnd x (if x.reloc = 0 then 0 else 1)
/-- The places of a chunk of an accession's source, each page sampled now, or none where one does not translate (R197, R280, R330). -/
def State.accPlaces (s : State) (x : Accession) : List (Nat × Nat) → Option (List (Nat × Nat) × List Sample)
  | [] => some ([], [])
  | (va, n) :: ps =>
    match s.hit none x.asid x.root false false va .read with
    | .pa p _ => (s.accPlaces x ps).map fun r => ((p, n) :: r.1, ⟨x.asid, va, n, s.xlate.qcur, s.order⟩ :: r.2)
    | _ => none
/-- An accession goes on: a cancel ends it; a full block, or the last, is programmed; else the next chunk of 4 KiB of its source is sampled, and
read once its channels serve it (R197, R268, R280, R283, R330). -/
def State.accStep (s : State) (num : Nat) : State :=
  match s.archive.flying.find? fun x => x.num == num && x.started && x.outcome.isNone with
  | none => s
  | some x =>
    let got := x.data.length
    let again (s : State) : State := s.sometime (.accStep num) effects
    if x.cancelled then s.accEnd x 6
    else if got = x.n ∨ 2 ^ 24 * (x.done + 1) ≤ got then s.accProgram x
    else if x.pieces.isEmpty then
      match s.accPlaces x (piecesOf (x.src + got) (min (x.n - got) (4096 - (x.src + got) % 4096))) with
      | none => s.accEnd x 5
      | some (ps, sm) => again { s with archive := s.archive.updAcc num fun y => { y with pieces := ps, samples := sm } }
    else
      let as := x.pieces.flatMap fun p => (List.range p.2).map (p.1 + ·)
      match s.serve .md as with
      | (s, false) => s.post .hc (s.hc + 1) effects (.accStep num)
      | (s, true) => match s.badGm as with
        | some line => (s.errorRecord 5 line 0 0).accEnd x 5
        | none =>
          let bs := x.pieces.flatMap fun p => s.gm.read p.1 p.2
          again { s with archive := s.archive.updAcc num fun y => { y with data := y.data ++ bs, pieces := [], samples := [] } }
/-- Device wear level in millionths of the rated endurance of all blocks (R281). -/
def Archive.level (a : Archive) : Nat := (a.wear.map (·.2)).foldl (· + ·) 0 * 1000000 / (262144 * 3000)
/-- Blocks that an accession has programmed, relocations included (R281, R282). -/
def Accession.worn (x : Accession) : Nat := x.done + x.reloc
/-- The completion record's words 0, 2 and 3 (R281). -/
def accRecord (x : Accession) (status wlevel : Nat) : Word × Word × Word :=
  (BitVec.ofNat 64 (x.reloc * 2 ^ 32 + 2 ^ 8 + status), BitVec.ofNat 64 (if status ≤ 1 then x.n else 0),
   BitVec.ofNat 64 (min wlevel (2 ^ 32 - 1) * 2 ^ 32 + x.worn))
/-- Event: an accession that has ended, whichever it is, charges its wear and writes its record, word 0 last; where the record's page cannot be
written yet, it is written later (R280-R284, log entry 46). -/
def execAccessionComplete (s : State) : Host.Outcome State Fault Refusal :=
  .next (
    let ended := s.archive.flying.filter (·.outcome.isSome)
    let (n, s) := s.draw
    match (ended[Config.delay n % ended.length]?).or ended.head? with
    | none => s
    | some x => match s.hit none x.asid x.root false true x.record .write with
      | .pa p _ =>
        let status := x.outcome.getD 0
        let a := s.archive
        let a := { a with wearRemaining := a.wearRemaining - x.worn * 2 ^ 24 }
        let s := ({ s with archive := a.updAcc x.num fun y => { y with status := some status } } : State).pruneVersions
        let (w0, w2, w3) := accRecord x status a.level
        let s := ((s.storeAt .gm (p + 16) (leBytes 8 w2.toNat)).storeAt .gm (p + 24) (leBytes 8 w3.toNat)).storeAt .gm p (leBytes 8 w0.toNat)
        s.sometime (.ev .accessionStart) effects
      | _ => s.sometime (.ev .accessionComplete) effects)
/-- An accession that has not ended is cancelled (R283). -/
def Archive.cancelAcc (a : Archive) (f : Accession → Bool) : Archive :=
  { a with accs := a.accs.map fun x => if x.outcome.isNone && f x then { x with cancelled := true } else x }

/-! ### The wear day (R284, R389) -/

/-- The daily allowance in block programs (R284). -/
def dailyBlocks : Nat := 262144 * 3000 / 1826
/-- HC ticks of a wear day (R284). -/
def wearDayTicks : Nat := 194400000000000
/-- The live counts join the lifetime histograms (R389). -/
def Lifetime.fold (l : Lifetime) : Lifetime :=
  { l with foldedCorrected := Vector.ofFn fun i => l.foldedCorrected[i] + l.corrected[i], corrected := Vector.replicate 9 0
           foldedUncorrected := Vector.ofFn fun i => l.foldedUncorrected[i] + l.uncorrected[i], uncorrected := Vector.replicate 9 0
           foldedFsteps := l.foldedFsteps ++ l.fstepTicks, fstepTicks := [], foldedTemps := l.foldedTemps ++ l.temps, temps := []
           foldedFills := Vector.ofFn fun i => l.foldedFills[i] + l.fills[i], fills := Vector.replicate 16 0 }
/-- The histograms as the archive's reserved region keeps them without the live counts (R389). -/
def Lifetime.kept (l : Lifetime) : Lifetime :=
  { foldedCorrected := l.foldedCorrected, foldedUncorrected := l.foldedUncorrected, foldedFsteps := l.foldedFsteps, foldedTemps := l.foldedTemps
    foldedFills := l.foldedFills }
/-- Adds ticks or samples to a histogram entry. -/
def histAdd (l : List (Nat × Nat × Nat)) (i b n : Nat) : List (Nat × Nat × Nat) :=
  match l.find? fun e => e.1 == i && e.2.1 == b with
  | some e => (i, b, e.2.2 + n) :: l.filter fun o => !(o.1 == i && o.2.1 == b)
  | none => (i, b, n) :: l
/-- The ticks that an island has spent at its present frequency step are counted (R389). -/
def State.noteStep (s : State) (i : Fin 64) : State :=
  let k := s.islands[i.val]
  { s with islands := vmod s.islands i fun k => { k with since := s.hc }
           life := { s.life with fstepTicks := histAdd s.life.fstepTicks i.val k.fstep (s.hc - k.since) } }
/-- The live counts are folded into the lifetime histograms, with the time that each island has spent at its present step (R389). -/
def State.foldLife (s : State) : State :=
  let s := (List.finRange 64).foldl State.noteStep s
  { s with life := s.life.fold }
/-- Event: at each wear day the allowance joins WearRemaining, up to seven days', and the live counts are folded in (R284, R389). -/
def execWearDay (s : State) : Host.Outcome State Fault Refusal :=
  .next (({ s with archive := { s.archive with
    wearRemaining := min (s.archive.wearRemaining + dailyBlocks * 2 ^ 24) (7 * dailyBlocks * 2 ^ 24), nextWearDay := s.archive.nextWearDay + wearDayTicks } } : State).foldLife)

end Sys2Proof.Machine
end

