-- ==== Sys2Proof/Machine/FlueFifo.lean ====
section
/-! DEFINITION. The vertical register FIFOs (R96, R97, R206). -/

namespace Sys2Proof.Machine

/-- The core of the neighbouring layer in a direction, if it exists (R96, R206). -/
def neighbour (c : CoreId) (down : Bool) : Option CoreId :=
  if down then (if layerOf c = 0 then none else some (coreId (c.val - 64)))
  else (if layerOf c = 3 then none else some (coreId (c.val + 64)))
/-- The entries that come into a core from below (data going up) or from above. -/
def Core.entries (k : Core) (down : Bool) : List (Nat × VecData) := if down then k.fromAbove else k.fromBelow
/-- Replaces the entries that come into a core. -/
def Core.setEntries (k : Core) (down : Bool) (es : List (Nat × VecData)) : Core :=
  if down then { k with fromAbove := es } else { k with fromBelow := es }
/-- DTs of the takes by a core of entries going in a direction. -/
def Core.takes (k : Core) (down : Bool) : List Nat := if down then k.takesDown else k.takesUp
/-- DTs of the puts by a core in a direction. -/
def Core.puts (k : Core) (down : Bool) : List Nat := if down then k.putsDown else k.putsUp

/-- The producer's free-slot counter as cycle `d` sees it (R97). -/
def State.freeSlots (s : State) (c : CoreId) (down : Bool) (d : Nat) : Nat :=
  match neighbour c down with
  | none => 0
  | some t => 8 + (((s.core t).takes down).filter fun e => decide (e + 10 ≤ d)).length - (((s.core c).puts down).filter (· < d)).length
/-- The oldest entry that a take in cycle `d` can see (R97). -/
def Core.visible (k : Core) (down : Bool) (d : Nat) : Option (Nat × VecData) := ((k.entries down).head?).filter fun e => decide (e.1 + 10 ≤ d)

/-- The space-access fault of a FIFO that does not exist, whose other layer holds no member of the binding, or whose pair of layers has no
slot (R91, R92, R206; its TINFO0 and TINFO1 of 0 are a DESIGN CHOICE, log entry 68); `out` for the FIFO into the other core. -/
def State.fifoFault (s : State) (c : CoreId) (other : Option CoreId) (out : Bool) : Option TrapInfo :=
  match other with
  | none => some (spaceFault s.mine.pos 0 .ls)
  | some t =>
    let pair : Nat × Nat := if out then (layerOf c, layerOf t) else (layerOf t, layerOf c)
    if s.member c t && (List.range 8).any fun i => slotOf (s.core c).fslot pair.1 pair.2 i then none else some (spaceFault s.mine.pos 0 .ls)

/-- Forgets puts and takes whose counts have met at the producer (R97). -/
def State.pruneFifo (s : State) (c : CoreId) (down : Bool) (d : Nat) : State :=
  match neighbour c down with
  | none => s
  | some t =>
    let n := (((s.core t).takes down).filter fun e => decide (e + 10 ≤ d)).length
    let s := s.updCore t fun k => if down then { k with takesDown := k.takesDown.drop n } else { k with takesUp := k.takesUp.drop n }
    s.updCore c fun k => if down then { k with putsDown := k.putsDown.drop n } else { k with putsUp := k.putsUp.drop n }

/-- What a flue.put does: it appends a value as one entry, visible to takes from issue + 10 (R97, R206). -/
def fluePutEffect (dir : Bool) (data : VecData) (u : Turn) (s : State) : State :=
  let d := s.dt u.c
  let s := s.pruneFifo u.c dir d
  let s := match neighbour u.c dir with
    | some t => s.updCore t fun k => k.setEntries dir (k.entries dir ++ [(d, data)])
    | none => s
  (s.updCore u.c fun k => if dir then { k with putsDown := k.putsDown ++ [d] } else { k with putsUp := k.putsUp ++ [d] }).pushNow u
/-- flue.put (R97, R206); a gated taker is a fault (R293). -/
def execFluePut (h : Hdr) (dir : Bool) (a : VReg) (s : State) : Host.Outcome State Fault Refusal :=
  let c := s.me.1
  let t := neighbour c dir
  let gated := match t with | some t => !(s.core t).awake | none => false
  issue h { legal := [.s], fault := firstFault [s.fifoFault c t true, if gated then some (spaceFault s.mine.pos 0 .ls) else none]
            busy := if 0 < s.freeSlots c dir (s.dt c) then none
              else some (7, BitVec.ofNat 64 dir.toNat, 16 * (t.map (·.val)).getD 0 + 1), needs := true }
    (fluePutEffect dir ((s.core c).rv a)) s

/-- What a flue.get does: the oldest visible entry leaves the FIFO and is written to v[D] at issue + 2 (R97, R206). -/
def flueGetEffect (d : VReg) (dir : Bool) (data : VecData) (u : Turn) (s : State) : State :=
  let now := s.dt u.c
  let s := s.updCore u.c fun k =>
    let k := k.setEntries dir ((k.entries dir).drop 1)
    if dir then { k with takesDown := k.takesDown ++ [now] } else { k with takesUp := k.takesUp ++ [now] }
  let r := { vResult d (data, BitVec.allOnes 2048) 0 with pos := u.pos, ord := u.ord }
  (s.fly u.c u.st 2 r true false).pushNow u
/-- flue.get (R97, R206). -/
def execFlueGet (h : Hdr) (d : VReg) (dir : Bool) (s : State) : Host.Outcome State Fault Refusal :=
  let c := s.me.1
  let src := neighbour c (!dir)
  let e := (s.core c).visible dir (s.dt c)
  issue h { legal := [.l], writes := true, fault := s.fifoFault c src false
            busy := if e.isSome then none else some (6, BitVec.ofNat 64 (8 + dir.toNat), 16 * (src.map (·.val)).getD 0 + 3), needs := true }
    (flueGetEffect d dir ((e.map (·.2)).getD 0)) s

/-- flue.free: x[D] := the free-slot counter, at issue + 2 (R97, R206). -/
def execFlueFree (h : Hdr) (d : XReg) (dir : Bool) (s : State) : Host.Outcome State Fault Refusal :=
  let c := s.me.1
  let v := s.freeSlots c dir (s.dt c)
  issue h { legal := [.s], writes := true, fault := s.fifoFault c (neighbour c dir) true } (fun u s =>
    s.resultRead u 2 (xResult u.sys d (BitVec.ofNat 64 v))) s

end Sys2Proof.Machine
end

