-- ==== Sys2Proof/Machine/Transcend.lean ====
section
/-! DEFINITION. Division, roots and the bounded operations of the vector pipes (R220-R222): an enclosure of the exact result,
the results that R221 allows, and the choice among them, which the manual leaves to the implementation (log entry 5). -/

namespace Sys2Proof.Machine

/-! ### Operations -/

/-- The operations whose results R221 bounds. -/
inductive BoundedOp where
  | rsq | exp | exp2 | log | log2 | sin | cos | tanh
  deriving DecidableEq, Repr

/-- The number by which `Config.pick` tells the operations apart (log entry 5). -/
def BoundedOp.num : BoundedOp → Nat
  | .rsq => 0 | .exp => 1 | .exp2 => 2 | .log => 3 | .log2 => 4 | .sin => 5 | .cos => 6 | .tanh => 7

/-- An enclosure of the exact result: low/den < x < high/den, or x = low/den when the ends are equal. -/
structure Encl where
  low : Int
  high : Int
  den : Nat
  deriving DecidableEq, Repr

/-- What an operation gives: a special or exact value with its flag (R222), or a value known by its enclosure. -/
inductive Bounded where
  | exact (v : Num) (f : Flg)
  | encl (e : Encl)
  deriving DecidableEq, Repr

/-! ### Fixed-point evaluation -/

/-- Fraction bits of the fixed-point evaluations: far more than separates a result from any value of a format. -/
def fixBits : Nat := 800
/-- Bound of the truncation errors of an evaluation, in units of its last place. -/
def fixErr : Nat := 2 ^ 24
/-- An enclosure about a fixed-point value. -/
def aboutFix (v : Int) : Encl := ⟨v - fixErr, v + fixErr, 2 ^ fixBits⟩

/-- Σ t^n/n! from the n-th term on, at `p` fraction bits. -/
def expGo (p t : Nat) : Nat → Nat → Nat → Nat → Nat
  | 0, _, _, acc => acc
  | fuel + 1, n, term, acc => expGo p t fuel (n + 1) (term * t / 2 ^ p / (n + 1)) (acc + term)
/-- e^t for 0 ≤ t < 1, fixed point. -/
def expFix (t : Nat) : Nat := expGo fixBits t 220 0 (2 ^ fixBits) 0
/-- Σ z^(2k+1)/(2k+1), the inverse hyperbolic tangent of 0 ≤ z < 1/2, at `p` bits; with alternating signs the inverse tangent. -/
def atanhGo (p z2 : Nat) (alt : Bool) : Nat → Nat → Nat → Int → Int
  | 0, _, _, acc => acc
  | fuel + 1, k, pow, acc =>
    let term : Int := (pow / (2 * k + 1) : Nat)
    atanhGo p z2 alt fuel (k + 1) (pow * z2 / 2 ^ p) (if alt && k % 2 == 1 then acc - term else acc + term)
/-- The inverse hyperbolic tangent of num/den at `p` bits. -/
def atanhFix (p num den : Nat) : Int :=
  let z := num * 2 ^ p / den
  atanhGo p (z * z / 2 ^ p) false (p / 2) 0 z 0
/-- The inverse tangent of 1/k at `p` bits. -/
def atanInv (p k : Nat) : Int := atanhGo p (2 ^ p / (k * k)) true (p / 4 + 8) 0 (2 ^ p / k) 0
/-- The logarithm of 2 at `p` bits. -/
def ln2Fix (p : Nat) : Int := 2 * atanhFix p 1 3
/-- π at `p` bits. -/
def piFix (p : Nat) : Int := 16 * atanInv p 5 - 4 * atanInv p 239
/-- Σ (-1)^k t^(2k+1)/(2k+1)! or, from 1, Σ (-1)^k t^(2k)/(2k)!: sine and cosine of 0 ≤ t < 2. -/
def sinGo (t2 : Nat) : Nat → Nat → Nat → Bool → Int → Int
  | 0, _, _, _, acc => acc
  | fuel + 1, n, term, neg, acc =>
    sinGo t2 fuel (n + 2) (term * t2 / 2 ^ fixBits / ((n + 1) * (n + 2))) (!neg) (if neg then acc - term else acc + term)
/-- The sine of a fixed-point value. -/
def sinFix (t : Nat) : Int := sinGo (t * t / 2 ^ fixBits) 130 1 t false 0
/-- The cosine of a fixed-point value. -/
def cosFix (t : Nat) : Int := sinGo (t * t / 2 ^ fixBits) 130 0 (2 ^ fixBits) false 0

/-- Multiplies an enclosure by a power of two. -/
def Encl.shift (e : Encl) (k : Int) : Encl :=
  if 0 ≤ k then ⟨e.low * 2 ^ k.toNat, e.high * 2 ^ k.toNat, e.den⟩ else ⟨e.low, e.high, e.den * 2 ^ (-k).toNat⟩
/-- An exact rational. -/
def Encl.point (n : Int) (d : Nat) : Encl := ⟨n, n, d⟩

/-- e^(a), a = ±num/den not 0. Below 2^-200, 1 + a < e^a < 1 + a + a²; beyond ±2,000 the result lies outside every format. -/
def enclExp (neg : Bool) (num den : Nat) : Encl :=
  let a : Int := if neg then -(num : Int) else num
  if num * 2 ^ 200 < den then ⟨((den : Int) + a) * den, ((den : Int) + a) * den + num * num, den * den⟩
  else if 2000 * den < num then (if neg then ⟨0, 1, 2 ^ 2000⟩ else .point (2 ^ 2800) 1)
  else
    let l := ln2Fix fixBits
    let f : Int := a * 2 ^ fixBits / den
    let k := f / l
    let r := f - k * l
    (aboutFix (expFix r.toNat)).shift k
/-- 2^(a), a = ±num/den not an integer. Below 2^-200 it lies on its side of 1, between 69/100 and 7/10 of a away. -/
def enclExp2 (neg : Bool) (num den : Nat) : Encl :=
  let a : Int := if neg then -(num : Int) else num
  if num * 2 ^ 200 < den then
    (if neg then ⟨100 * (den : Int) - 70 * num, 100 * (den : Int) - 69 * num, 100 * den⟩
     else ⟨100 * (den : Int) + 69 * num, 100 * (den : Int) + 70 * num, 100 * den⟩)
  else if 4000 * den < num then (if neg then ⟨0, 1, 2 ^ 2000⟩ else .point (2 ^ 2800) 1)
  else
    let k : Int := a / den
    let f := ((a - k * den) * 2 ^ fixBits / den).toNat
    (aboutFix (expFix (f * (ln2Fix fixBits).toNat / 2 ^ fixBits))).shift k
/-- The logarithm of a positive num/den, not 1, at `fixBits` bits: k·ln 2 + ln m with m in [3/4, 3/2). -/
def lnFix (num den : Nat) : Int :=
  let e := binade num den
  let (n, d) := unitsOf num den e
  let (k, n, d) : Int × Nat × Nat := if 3 * d ≤ 2 * n then (e + 1, n, 2 * d) else (e, n, d)
  let m : Int := if d ≤ n then 2 * atanhFix fixBits (n - d) (n + d) else -(2 * atanhFix fixBits (d - n) (n + d))
  k * ln2Fix fixBits + m
/-- tanh of a positive num/den: below 2^-200, a - a³/3 < tanh a < a; beyond 400 it lies just below 1. -/
def enclTanh (num den : Nat) : Encl :=
  if num * 2 ^ 200 < den then ⟨3 * num * (den * den) - num ^ 3, 3 * num * (den * den), 3 * den ^ 3⟩
  else if 400 * den < num then ⟨2 ^ 500 - 1, 2 ^ 500, 2 ^ 500⟩
  else
    let l := ln2Fix fixBits
    let f : Int := 2 * (num * 2 ^ fixBits : Nat) / den
    let k := f / l
    let e := expFix (f - k * l).toNat * 2 ^ k.toNat
    let one := 2 ^ fixBits
    let v : Int := ((e : Int) - one) * one / (e + one)
    aboutFix v
/-- sin (quarter = 0) or cos (quarter = 1) of ±num/den, not 0, den a power of two: the argument is reduced by π/2 with enough bits
for any format. Below 2^-200, a - a³/6 < sin a < a and 1 - a² < cos a < 1 - a²/4. -/
def enclTrig (quarter : Nat) (neg : Bool) (num den : Nat) : Encl :=
  if num * 2 ^ 200 < den then
    if quarter = 0 then
      let e : Encl := ⟨6 * num * (den * den) - num ^ 3, 6 * num * (den * den), 6 * den ^ 3⟩
      if neg then ⟨-e.high, -e.low, e.den⟩ else e
    else ⟨4 * (den * den) - 4 * (num * num), 4 * (den * den) - num * num, 4 * (den * den)⟩
  else
    let q := fixBits + 100 + ((num / den).log2)
    let h := (piFix q).toNat / 2
    let a := num * 2 ^ q / den
    let n := a / h + quarter
    let t := (a % h) / 2 ^ (q - fixBits)
    let v := if n % 2 = 0 then sinFix t else cosFix t
    let v := if (n % 4 < 2) != (neg && quarter == 0) then v else -v
    aboutFix v

/-! ### Special values and enclosures (R222) -/

/-- n is a power of two. -/
def isPow2 (n : Nat) : Bool := n == 2 ^ n.log2
/-- What an operation gives for an input (R222). Values of binary formats have powers of two as denominators. -/
def bounded (op : BoundedOp) (a : Num) : Bounded :=
  let one : Num := .fin false 1 1
  match op, a with
  | _, .nan => .exact .nan 0
  | .rsq, .inf s => if s then .exact .nan 0 else .exact (.fin false 0 1) 0
  | .rsq, .fin s n d =>
    if n = 0 then .exact (.inf s) fDZ
    else if s then .exact .nan 0
    else
      -- 1/√(n/d): exact where it is rational, else between two neighbours of 2^-fixBits
      match Num.sqrt (.fin false d n) with
      | .fin _ m e => if m * m * n = d * (e * e) then .encl (.point m e)
        else .encl ⟨(m : Int) - 1, m + 1, e⟩
      | _ => .exact .nan 0
  | .exp, .inf s | .exp2, .inf s => if s then .exact (.fin false 0 1) 0 else .exact (.inf false) 0
  | .exp, .fin s n d => if n = 0 then .exact one 0 else .encl (enclExp s n d)
  | .exp2, .fin s n d =>
    if n = 0 then .exact one 0
    else if n % d = 0 then
      (if 4000 < n / d then .encl (enclExp2 s n d)
       else if s then .encl (.point 1 (2 ^ (n / d))) else .encl (.point (2 ^ (n / d)) 1))
    else .encl (enclExp2 s n d)
  | .log, .inf s | .log2, .inf s => if s then .exact .nan 0 else .exact (.inf false) 0
  | .log, .fin s n d =>
    if n = 0 then .exact (.inf true) fDZ
    else if s then .exact .nan 0
    else if n = d then .exact (.fin false 0 1) 0
    else .encl (aboutFix (lnFix n d))
  | .log2, .fin s n d =>
    if n = 0 then .exact (.inf true) fDZ
    else if s then .exact .nan 0
    else
      let g := Nat.gcd n d
      if isPow2 (n / g) && isPow2 (d / g) then .exact (.ofInt (binade n d)) 0
      else .encl (aboutFix (lnFix n d * 2 ^ fixBits / ln2Fix fixBits))
  | .sin, .inf _ | .cos, .inf _ => .exact .nan 0
  | .sin, .fin s n d => if n = 0 then .exact (.fin s 0 1) 0 else .encl (enclTrig 0 s n d)
  | .cos, .fin s n d => if n = 0 then .exact one 0 else .encl (enclTrig 1 s n d)
  | .tanh, .inf s => .exact (.fin s 1 1) 0
  | .tanh, .fin s n d =>
    if n = 0 then .exact (.fin s 0 1) 0
    else
      let e := enclTanh n d
      .encl (if s then ⟨-e.high, -e.low, e.den⟩ else e)

/-- The bound of an operation in half units of the spacing (R220). -/
def halfUlps (op : BoundedOp) (a : Num) : Nat :=
  match op, a with
  | .sin, .fin _ n d | .cos, .fin _ n d => if n ≤ 2 ^ 30 * d then 3 else 4
  | .tanh, _ => 4
  | _, _ => 2

/-! ### The results that R221 allows -/

/-- The enclosed value is positive. -/
def Encl.pos (e : Encl) : Bool := decide (0 ≤ e.low)
/-- The value is at or below n/d. -/
def Encl.le (e : Encl) (n : Int) (d : Nat) : Bool := decide (e.high * d ≤ n * e.den)
/-- The value is at or above n/d. -/
def Encl.ge (e : Encl) (n : Int) (d : Nat) : Bool := decide (n * e.den ≤ e.low * d)
/-- The exponent of the least normal magnitude of a format. -/
def expMin (f : Fmt) : Int := 1 - (fpBias f : Int)
/-- The exponent of the top binade of a format with infinities. -/
def expMax (f : Fmt) : Int := fpBias f
/-- The exponent whose spacing is the unit of an enclosed value in a format (R221). -/
def Encl.binade (f : Fmt) (e : Encl) : Int :=
  let near := if e.pos then e.low else -e.high
  let b := if near ≤ 0 then expMin f else Machine.binade near.toNat e.den
  min (expMax f) (max (expMin f) b)
/-- The exponent of the spacing of a magnitude code, the top binade extended upward, and its count of spacings. -/
def magUnits (f : Fmt) (c : Nat) : Nat × Int :=
  let m := fracBits f
  let top := (expMax f - expMin f).toNat + 1
  let e := min top (c / 2 ^ m)
  if e = 0 then (c, expMin f - m) else (2 ^ m + (c - e * 2 ^ m), expMin f + (e - 1 : Nat) - m)
/-- A signed place in a format's order of values (0 for zeros, c for magnitude code c) as a rational. -/
def placeValue (f : Fmt) (i : Int) : Int × Nat :=
  let (n, g) := magUnits f i.natAbs
  let v : Int := if i < 0 then -(n : Int) else n
  if 0 ≤ g then (v * 2 ^ g.toNat, 1) else (v, 2 ^ (-g).toNat)
/-- The place at or next below an enclosed value in magnitude. -/
def Encl.place (f : Fmt) (e : Encl) : Int :=
  let b := e.binade f
  let near := if e.pos then e.low else -e.high
  let (n, d) := unitsOf near.toNat e.den (b - fracBits f)
  let c : Int := ((b - expMin f).toNat * 2 ^ fracBits f + n / d : Nat)
  if e.pos then c else -c
/-- A place satisfies the bound and the rounding mode's constraint (R221). -/
def allowed (f : Fmt) (rm : Rm) (half : Nat) (e : Encl) (i : Int) : Bool :=
  let (n, d) := placeValue f i
  -- the bound as a rational over 2·d·2^k or in whole units
  let g := e.binade f - fracBits f - 1
  let (un, ud) : Nat × Nat := if 0 ≤ g then (half * 2 ^ g.toNat, 1) else (half, 2 ^ (-g).toNat)
  let near := e.le (n * ud + un * d) (d * ud) && e.ge (n * ud - un * d) (d * ud)
  let below := e.ge n d
  let above := e.le n d
  near && (match rm with
    | .rdn => below
    | .rup => above
    | .rz => if e.pos then below && decide (0 ≤ i) else above && decide (i ≤ 0)
    | _ => true)
/-- The places that R221 allows, lowest first. -/
def candidates (f : Fmt) (rm : Rm) (half : Nat) (e : Encl) : List Int :=
  ((List.range 14).map fun (k : Nat) => e.place f + (k : Int) - 7).filter (allowed f rm half e)

/-- The bits and flags of a place as the result for an inexact or exact value (R61, R221). -/
def placeResult (f : Fmt) (rm : Rm) (e : Encl) (i : Int) : Nat × Flg :=
  let neg := !e.pos
  let s := if i = 0 then neg else decide (i < 0)
  let (n, d) := placeValue f i
  let same := decide (e.low = e.high) && e.le n d && e.ge n d
  if maxFinite f < i.natAbs then
    (if rm = .rz ∨ (rm = .rdn ∧ !s) ∨ (rm = .rup ∧ s) then signBit f s + maxFinite f else overflowValue f s, fOF ||| fNX)
  else (signBit f s + i.natAbs, flagIf (!same) fNX ||| flagIf (!same && tiny f i.natAbs) fUF)
/-- An f32 place rounds to a value of a narrow format within 1 unit of it from the exact value (R220). -/
def narrowOk (n : Fmt) (rm : Rm) (e : Encl) (i : Int) : Bool :=
  let y := (roundTo n rm 0 false (floatValue Fmt.f32 (placeResult Fmt.f32 rm e i).1)).1
  let c : Int := (y % 2 ^ (n.bits - 1) : Nat)
  allowed n rm 2 e (if 2 ^ (n.bits - 1) ≤ y then -c else c)
/-- The f32 places for an operand that also stands for one of a narrow format, whose form computes its f32 value exactly so and rounds it once more:
those that leave that result within 1 unit of the exact value, where any does (R220). -/
def narrowKept (rm : Rm) (a : Num) (e : Encl) (cs : List Int) : List Int :=
  [Fmt.bf16, .f16].foldl (fun cs n =>
    let ok := cs.filter (narrowOk n rm e)
    if (roundTo n .rne 0 false a).2 = 0 ∧ ok ≠ [] then ok else cs) cs
/-- The operation on an f32 or f64 operand: the implementation's choice among the allowed results (R220, R221, log entry 5). -/
def boundedWide (op : BoundedOp) (f : Fmt) (rm : Rm) (v : Nat) : Nat × Flg :=
  let a := floatValue f v
  match bounded op a with
  | .exact .nan _ => (defaultNan f, fIV)
  | .exact x g => ((roundTo f rm 0 false x).1, g)
  | .encl e =>
    let all := candidates f rm (halfUlps op a) e
    -- 2^n is exact where it is representable (R222)
    let cs := match op, all.filter fun i => decide (e.low = e.high) && e.le (placeValue f i).1 (placeValue f i).2 && e.ge (placeValue f i).1 (placeValue f i).2 with
      | .exp2, i :: _ => [i]
      | _, _ => if f = Fmt.f32 then narrowKept rm a e all else all
    placeResult f rm e (cs[Config.pick op.num f.code.toNat rm.code.toNat v % cs.length]?.getD (e.place f))
/-- The flags of a narrow result against the exact value (R220, R221). -/
def narrowFlags (f : Fmt) (e : Encl) (y : Nat) : Flg :=
  let c := y % 2 ^ (f.bits - 1)
  let s := decide (2 ^ (f.bits - 1) ≤ y)
  let i : Int := if s then -(c : Int) else c
  let (n, d) := placeValue f i
  let same := decide (e.low = e.high) && e.le n d && e.ge n d
  let (tn, td) := placeValue f (if s then -((maxFinite f + 1 : Nat) : Int) else (maxFinite f + 1 : Nat))
  let ovf := decide (maxFinite f < c) || (c == maxFinite f && if s then e.le tn td else e.ge tn td)
  flagIf (!same) fNX ||| flagIf ovf (fOF ||| fNX) ||| flagIf (!same && tiny f c) fUF
/-- The operation in any F format: narrow forms go through f32 and round once more (R220). -/
def boundedOp (op : BoundedOp) (f : Fmt) (rm : Rm) (v : Nat) : Nat × Flg :=
  match f with
  | .f64 | .f32 => boundedWide op f rm v
  | _ =>
    let a := floatValue f v
    let v32 := (roundTo .f32 .rne 0 false a).1
    match bounded op a with
    | .exact .nan _ => (defaultNan f, fIV)
    | .exact x g => ((roundTo f rm 0 false x).1, g)
    | .encl e =>
      let y := (roundTo f rm 0 false (floatValue .f32 (boundedWide op .f32 rm v32).1)).1
      (y, narrowFlags f e y)

/-! ### Correctly rounded operations (R220, R222) -/

/-- The enclosure of a finite value. -/
def Num.encl : Num → Encl
  | .fin s n d => .point (if s then -(n : Int) else n) d
  | _ => .point 0 1
/-- The result of a correctly rounded operation with exact value `x` and own flag `g`: narrow forms go through f32, RM 5 on the
final rounding only (R220). -/
def rounded (f : Fmt) (rm : Rm) (r : Nat) (x : Num) (g : Flg) : Nat × Flg :=
  match x with
  | .fin _ n _ =>
    if f = .f64 ∨ f = .f32 ∨ n = 0 then roundTo f rm r false x
    else
      let y := (roundTo f rm r false (floatValue .f32 (roundTo .f32 (if rm = .rs then .rne else rm) 0 false x).1)).1
      (y, narrowFlags f x.encl y)
  | _ => let (y, h) := roundTo f rm r false x; (y, h ||| g)

end Sys2Proof.Machine
end

