-- ==== Sys2Proof/Machine/VectorArith.lean ====
section
/-! DEFINITION. Element-wise vector arithmetic, sign, class and integral rounding, division, roots and the bounded operations
(R212-R222). -/

namespace Sys2Proof.Machine

/-! ### Shared operations (R212-R214) -/

/-- The vector registers of the core whose strand has its turn. -/
def State.vec (s : State) (r : VReg) : VecData := (s.core s.me.1).rv r
/-- Its mask registers. -/
def State.msk (s : State) (r : KReg) : MaskData := (s.core s.me.1).rk r
/-- Latency of a float operation with one figure for f64 and one for the others (R214). -/
def fLat (f : Fmt) (wide narrow : Nat) : Nat := if f = .f64 then wide else narrow

/-- What an element-wise instruction does: its elements are written to v[D] `lat` cycles later with their flags (R213, R214). -/
def elemsEffect (d : VReg) (w : Nat) (js : List Nat) (rm : Rm) (lat : Nat) (op : Nat → Nat → Nat × Flg) (u : Turn) (s : State) : State :=
  s.result u lat (elemsResult d w js rm op)
/-- An element-wise instruction on C (R213). -/
def vElems (h : Hdr) (d : VReg) (w : Nat) (js : List Nat) (rm : Rm) (lat : Nat) (op : Nat → Nat → Nat × Flg) (s : State) :
    Host.Outcome State Fault Refusal :=
  issue h { legal := [.c], writes := true } (elemsEffect d w js rm lat op) s

/-- The enabled elements of a format under a mask register. -/
def vMap (h : Hdr) (d : VReg) (k : KReg) (f : Fmt) (rm : Rm) (lat : Nat) (op : Nat → Nat → Nat × Flg) (s : State) :
    Host.Outcome State Fault Refusal :=
  vElems h d f.bits (enabledElems (s.msk k) f) rm lat op s

/-- A float or integer operation (R217): floats are rounded once, integers wrap or clamp. -/
def arith (f : Fmt) (rm : Rm) (sat : Bool) (r : Nat) (fl : Num → Num → Num) (int : Int → Int → Int) (a b : Nat) : Nat × Flg :=
  if f.isI then fitInt f sat (int (intValue f a) (intValue f b)) else roundTo f rm r sat (fl (floatValue f a) (floatValue f b))
/-- Two-operand arithmetic on elements (R217). -/
def vBin (h : Hdr) (d a b : VReg) (k : KReg) (f : Fmt) (rm : Rm) (sat : Bool) (lat : Nat) (fl : Num → Num → Num)
    (int : Int → Int → Int) (s : State) : Host.Outcome State Fault Refusal :=
  let va := s.vec a
  let vb := s.vec b
  vMap h d k f rm lat (fun j r => arith f rm sat r fl int (elem va f j) (elem vb f j)) s

/-! ### Addition, multiplication, fused forms (R217, R218) -/

/-- vadd (R217). -/
def execVadd (h : Hdr) (d a b : VReg) (k : KReg) (fmt : Fmt) (rm : Rm) (sat : Bool) (s : State) :
    Host.Outcome State Fault Refusal :=
  vBin h d a b k fmt rm sat (if fmt.isI then 2 else fLat fmt 6 4) (fun x y => .sum rm [x, y]) (· + ·) s

/-- vsub (R217). -/
def execVsub (h : Hdr) (d a b : VReg) (k : KReg) (fmt : Fmt) (rm : Rm) (sat : Bool) (s : State) :
    Host.Outcome State Fault Refusal :=
  vBin h d a b k fmt rm sat (if fmt.isI then 2 else fLat fmt 6 4) (fun x y => .sum rm [x, y.negate]) (· - ·) s

/-- vmul (R217). -/
def execVmul (h : Hdr) (d a b : VReg) (k : KReg) (fmt : Fmt) (rm : Rm) (sat : Bool) (s : State) :
    Host.Outcome State Fault Refusal :=
  vBin h d a b k fmt rm sat (if fmt.isI then 3 else fLat fmt 6 4) Num.mul (· * ·) s

/-- A fused form: the product, with its sign as given, plus the third operand with its sign as given, rounded once (R217, R218). -/
def vFused (h : Hdr) (d a b c : VReg) (k : KReg) (f : Fmt) (rm : Rm) (sat : Bool) (negP negC : Bool) (s : State) :
    Host.Outcome State Fault Refusal :=
  let va := s.vec a
  let vb := s.vec b
  let vc := s.vec c
  let signed (n : Bool) (x : Num) : Num := if n then x.negate else x
  vMap h d k f rm (fLat f 6 4) (fun j r => roundTo f rm r sat (.sum rm
    [signed negP ((floatValue f (elem va f j)).mul (floatValue f (elem vb f j))), signed negC (floatValue f (elem vc f j))])) s

/-- vfma: a·b + c (R217). -/
def execVfma (h : Hdr) (d a b c : VReg) (k : KReg) (fmt : Fmt) (rm : Rm) (sat : Bool) (s : State) :
    Host.Outcome State Fault Refusal := vFused h d a b c k fmt rm sat false false s

/-- vfms: a·b − c (R217). -/
def execVfms (h : Hdr) (d a b c : VReg) (k : KReg) (fmt : Fmt) (rm : Rm) (sat : Bool) (s : State) :
    Host.Outcome State Fault Refusal := vFused h d a b c k fmt rm sat false true s

/-- vfnma: −(a·b) + c (R217). -/
def execVfnma (h : Hdr) (d a b c : VReg) (k : KReg) (fmt : Fmt) (rm : Rm) (sat : Bool) (s : State) :
    Host.Outcome State Fault Refusal := vFused h d a b c k fmt rm sat true false s

/-! ### Minimum, maximum, clamp (R217) -/

/-- The lesser or greater of two elements of one format, −0 below +0; a NaN input gives the default NaN and IV (R217). -/
def pickElem (f : Fmt) (greater : Bool) (a b : Nat) : Nat × Flg :=
  let x := numValue f a
  let y := numValue f b
  if x.isNan || y.isNan then (defaultNan f, fIV)
  else if greater then (if x.lt y then b else a, 0)
  else (if y.lt x then b else a, 0)

/-- vmin (R217). -/
def execVmin (h : Hdr) (d a b : VReg) (k : KReg) (fmt : Fmt) (s : State) : Host.Outcome State Fault Refusal :=
  let va := s.vec a
  let vb := s.vec b
  vMap h d k fmt .rne (if fmt.isI then 2 else fLat fmt 6 4) (fun j _ => pickElem fmt false (elem va fmt j) (elem vb fmt j)) s

/-- vmax (R217). -/
def execVmax (h : Hdr) (d a b : VReg) (k : KReg) (fmt : Fmt) (s : State) : Host.Outcome State Fault Refusal :=
  let va := s.vec a
  let vb := s.vec b
  vMap h d k fmt .rne (if fmt.isI then 2 else fLat fmt 6 4) (fun j _ => pickElem fmt true (elem va fmt j) (elem vb fmt j)) s

/-- vclamp: min(max(a, b), c); any NaN input gives the default NaN (R217). -/
def execVclamp (h : Hdr) (d a b c : VReg) (k : KReg) (fmt : Fmt) (s : State) : Host.Outcome State Fault Refusal :=
  let va := s.vec a
  let vb := s.vec b
  let vc := s.vec c
  vMap h d k fmt .rne (if fmt.isI then 2 else fLat fmt 6 4) (fun j _ =>
    let (m, g) := pickElem fmt true (elem va fmt j) (elem vb fmt j)
    if g = 0 then pickElem fmt false m (elem vc fmt j) else (m, g)) s

/-! ### Sign, class, integral rounding (R219) -/

/-- vabs: the sign bit cleared, or the magnitude (R219). -/
def execVabs (h : Hdr) (d a : VReg) (k : KReg) (fmt : Fmt) (sat : Bool) (s : State) : Host.Outcome State Fault Refusal :=
  let va := s.vec a
  vMap h d k fmt .rne 2 (fun j _ =>
    let v := elem va fmt j
    if fmt.isI then fitInt fmt sat (intValue fmt v).natAbs else (v % 2 ^ (fmt.bits - 1), 0)) s

/-- vneg: the sign bit inverted, or 0 − a (R219). -/
def execVneg (h : Hdr) (d a : VReg) (k : KReg) (fmt : Fmt) (sat : Bool) (s : State) : Host.Outcome State Fault Refusal :=
  let va := s.vec a
  vMap h d k fmt .rne 2 (fun j _ =>
    let v := elem va fmt j
    if fmt.isI then fitInt fmt sat (-(intValue fmt v)) else (v ^^^ 2 ^ (fmt.bits - 1), 0)) s

/-- A value rounded to an integral value of its format (R219). -/
def roundIntegral (f : Fmt) (rm : Rm) (r v : Nat) : Nat × Flg :=
  match floatValue f v with
  | .nan => (defaultNan f, fIV)
  | .inf _ => (v, 0)
  | .fin s n d =>
    if n % d = 0 then (v, 0)
    else
      let q := roundQuot rm s r n d (decide (n / d % 2 = 1))
      ((roundTo f .rne 0 false (.fin s q 1)).1, fNX)

/-- vround (R219). -/
def execVround (h : Hdr) (d a : VReg) (k : KReg) (fmt : Fmt) (rm : Rm) (s : State) : Host.Outcome State Fault Refusal :=
  let va := s.vec a
  vMap h d k fmt rm (fLat fmt 6 4) (fun j r => roundIntegral fmt rm r (elem va fmt j)) s

/-- The class code of an element (R219). -/
def classOf (f : Fmt) (v : Nat) : Nat :=
  match floatValue f v with
  | .nan => 8
  | .inf s => if s then 0 else 7
  | .fin s n _ =>
    if n = 0 then (if s then 3 else 4)
    else if f ≠ .t8 ∧ v % 2 ^ (f.bits - 1) < 2 ^ fracBits f then (if s then 2 else 5)
    else if s then 1 else 6

/-- vclass (R219). -/
def execVclass (h : Hdr) (d a : VReg) (k : KReg) (fmt : Fmt) (s : State) : Host.Outcome State Fault Refusal :=
  let va := s.vec a
  vMap h d k fmt .rne 2 (fun j _ => (classOf fmt (elem va fmt j), 0)) s

/-! ### Division, roots, transcendentals (R220-R222) -/

/-- vdiv, correctly rounded (R220, R222). -/
def execVdiv (h : Hdr) (d a b : VReg) (k : KReg) (fmt : Fmt) (rm : Rm) (s : State) : Host.Outcome State Fault Refusal :=
  let va := s.vec a
  let vb := s.vec b
  vMap h d k fmt rm (fLat fmt 28 14) (fun j r =>
    let (x, g) := (floatValue fmt (elem va fmt j)).div (floatValue fmt (elem vb fmt j))
    rounded fmt rm r x g) s

/-- vsqrt, correctly rounded (R220, R222). -/
def execVsqrt (h : Hdr) (d a : VReg) (k : KReg) (fmt : Fmt) (rm : Rm) (s : State) : Host.Outcome State Fault Refusal :=
  let va := s.vec a
  vMap h d k fmt rm (fLat fmt 28 14) (fun j r => rounded fmt rm r (floatValue fmt (elem va fmt j)).sqrt 0) s

/-- vrcp, correctly rounded (R220, R222). -/
def execVrcp (h : Hdr) (d a : VReg) (k : KReg) (fmt : Fmt) (rm : Rm) (s : State) : Host.Outcome State Fault Refusal :=
  let va := s.vec a
  vMap h d k fmt rm (fLat fmt 20 12) (fun j r =>
    let (x, g) := (Num.fin false 1 1).div (floatValue fmt (elem va fmt j))
    rounded fmt rm r x g) s

/-- A bounded operation on elements (R220, R221). -/
def vBounded (op : BoundedOp) (h : Hdr) (d a : VReg) (k : KReg) (f : Fmt) (rm : Rm) (s : State) :
    Host.Outcome State Fault Refusal :=
  let va := s.vec a
  vMap h d k f rm (fLat f 20 12) (fun j _ => boundedOp op f rm (elem va f j)) s

/-- vrsq (R220). -/
def execVrsq (h : Hdr) (d a : VReg) (k : KReg) (fmt : Fmt) (rm : Rm) (s : State) : Host.Outcome State Fault Refusal :=
  vBounded .rsq h d a k fmt rm s
/-- vexp (R220). -/
def execVexp (h : Hdr) (d a : VReg) (k : KReg) (fmt : Fmt) (rm : Rm) (s : State) : Host.Outcome State Fault Refusal :=
  vBounded .exp h d a k fmt rm s
/-- vexp2 (R220). -/
def execVexp2 (h : Hdr) (d a : VReg) (k : KReg) (fmt : Fmt) (rm : Rm) (s : State) : Host.Outcome State Fault Refusal :=
  vBounded .exp2 h d a k fmt rm s
/-- vlog (R220). -/
def execVlog (h : Hdr) (d a : VReg) (k : KReg) (fmt : Fmt) (rm : Rm) (s : State) : Host.Outcome State Fault Refusal :=
  vBounded .log h d a k fmt rm s
/-- vlog2 (R220). -/
def execVlog2 (h : Hdr) (d a : VReg) (k : KReg) (fmt : Fmt) (rm : Rm) (s : State) : Host.Outcome State Fault Refusal :=
  vBounded .log2 h d a k fmt rm s
/-- vsin (R220). -/
def execVsin (h : Hdr) (d a : VReg) (k : KReg) (fmt : Fmt) (rm : Rm) (s : State) : Host.Outcome State Fault Refusal :=
  vBounded .sin h d a k fmt rm s
/-- vcos (R220). -/
def execVcos (h : Hdr) (d a : VReg) (k : KReg) (fmt : Fmt) (rm : Rm) (s : State) : Host.Outcome State Fault Refusal :=
  vBounded .cos h d a k fmt rm s
/-- vtanh (R220). -/
def execVtanh (h : Hdr) (d a : VReg) (k : KReg) (fmt : Fmt) (rm : Rm) (s : State) : Host.Outcome State Fault Refusal :=
  vBounded .tanh h d a k fmt rm s

end Sys2Proof.Machine
end

