-- ==== Sys2Proof/Machine/VectorMem.lean ====
section
/-! DEFINITION. Vector loads and stores through streams, and the moves between registers and accumulator cells (R232-R236). -/

namespace Sys2Proof.Machine

/-! ### Vector loads and stores (R232-R235) -/

/-- The enabled elements of a register with the stream element that each names: (element, stream element) (R232). -/
def streamElems (m : MaskData) (q : Desc) (e0 : Nat) : List (Nat × Nat) := (enabledElems m q.fmt).map fun e => (e, e0 + e)
/-- Those that lie inside the stream, with their address and nibble (R86, R232). -/
def streamPlaces (m : MaskData) (q : Desc) (e0 : Nat) : List (Nat × Int × Nat) :=
  ((streamElems m q e0).filter fun p => decide (p.2 < q.count)).map fun p => (p.1, q.elemAt p.2)
/-- The bytes of placed elements: (place in the register, address); e2m1 elements are nibbles (R76, R232). -/
def loadPlaces (f : Fmt) (ps : List (Nat × Int × Nat)) : List (Nat × Nat) :=
  (ps.map fun (e, a, nib) =>
    if f = .e2m1 then [(nibblePlace e nib, a.toNat)]
    else (List.range (elemBytes f)).map fun i => (elemBytes f * e + i, a.toNat + i)).flatten
/-- The bytes that a vector store writes: (address, byte, mask of bits) in element order (R232). -/
def storeBytes (f : Fmt) (v : VecData) (ps : List (Nat × Int × Nat)) : List (Nat × Byte × Byte) :=
  (ps.map fun (e, a, nib) =>
    if f = .e2m1 then [(a.toNat, BitVec.ofNat 8 (elem v f e * 16 ^ nib), if nib = 0 then (0x0F : Byte) else 0xF0)]
    else (List.range (elemBytes f)).map fun i => (a.toNat + i, BitVec.ofNat 8 (elem v f e / 256 ^ i), (0xFF : Byte))).flatten
/-- The signed addresses of the bytes of placed elements. -/
def placeAddrs (f : Fmt) (ps : List (Nat × Int × Nat)) : List Int :=
  (ps.map fun (_, a, _) => (List.range (elemBytes f)).map fun (i : Nat) => a + (i : Int)).flatten
/-- The address that a fault or a wait records for a signed address: its low 64 bits (R86, R336). -/
def addrWord (a : Int) : Nat := (a % (2 ^ 64 : Nat)).toNat
/-- The first address of each smallest page that listed addresses touch. -/
def pagesOf (as : List Nat) : List Nat := (as.map (· / 65536)).dedup.map (· * 65536)
/-- The round in which a vector access reads an address: the lines of its bank that come before its own (R234). -/
def roundOf (as : List Nat) (a : Nat) : Nat := ((as.filter fun b => bankOf b == bankOf a && decide (b / 64 < a / 64)).map (· / 64)).dedup.length
/-- The faults of a vector access in the order of R233: descriptor, space, reserved cell, translation and commit scope, early
read. -/
def State.streamFault (s : State) (q : QReg) (ps : List (Nat × Int × Nat)) (write : Bool) : Option TrapInfo :=
  let (c, st) := s.me
  let pos := s.mine.pos
  let d := (s.core c).rq q
  let as := placeAddrs d.fmt ps
  let nat := as.map (·.toNat)
  let sp := if d.space = 0 then SpaceCode.ls else .gm
  firstFault [
    d.fault pos q false,
    (outside as (if d.space = 0 then lsSize else 2 ^ 48)).map fun a => spaceFault pos (addrWord a) sp,
    if d.space = 0 then
      (if write then (nat.find? fun a => touchesCell a 1).map fun a => spaceFault pos a .ls else s.earlyFault c pos d.guard (nat.map fun a => (a, s.now c st + 2 + roundOf nat a)))
    else firstFault (nat.map fun a => s.gmFault c st false a (if write then .write else .read))]
/-- The kind-1 fault of a mask outside C (R213). -/
def maskKind (st : StrandId) (k : KReg) : Option Nat := if st ≠ .c ∧ k ≠ 0 then some 1 else none

/-- What a vld does: elements past the stream's end read as 0. From LS in rounds from issue + 2; from GM the strand is held until the
data is written (R232-R235). -/
def vldEffect (d : VReg) (q : Desc) (m : MaskData) (e0 : Nat) (u : Turn) (s : State) : State :=
  let ps := streamPlaces m q e0
  let bytes := loadPlaces q.fmt ps
  let mask := (packElems q.fmt.bits ((enabledElems m q.fmt).map fun e => (e, 0))).2
  let r := vResult d (0, mask) 0
  if q.space = 0 then
    let n := (roundsOf 257 bytes).length
    if n = 0 then s.resultRead u 10 r
    else (s.sendRead u u.c bytes 0 2 3 []).resultLater u (10 + (n - 1)) r
  else
    let seq := (s.strand u.c u.st).seq
    let first := match ps with | p :: _ => p.2.1.toNat | [] => q.base
    let cells := bytes.map fun (i, va) => (i, s.gmPa u.c false va .read)
    let s := s.waitFor u (.held 2 first) 0 false 0
    let pages := pagesOf (bytes.map (·.2))
    let s := (s.access u.c u.st true .gm (pages.map (·, 65536))).resultLater u 1 r
    let s := pages.foldl (fun s va => s.touch u.c va) s
    s.sendTo u .gm seq 0 false (.farRead u.c u.st u.ord seq none cells 0 (bytes.map (·.2)))
/-- vld (R232-R235). -/
def execVld (h : Hdr) (d : VReg) (a : QReg) (c : XReg) (k : KReg) (s : State) : Host.Outcome State Fault Refusal :=
  let q := (s.core s.me.1).rq a
  let e0 := (s.reg c).toNat
  issue h { legal := [.l, .c], ill := maskKind s.me.2 k, writes := true, fault := s.streamFault a (streamPlaces (s.msk k) q e0) false }
    (vldEffect d q (s.msk k) e0) s

/-- The parts of a vector store to GM, one for each smallest page: page address and its bytes (R235). -/
def storePages (bs : List (Nat × Byte × Byte)) : List (Nat × List (Nat × Byte × Byte)) :=
  (pagesOf (bs.map (·.1))).map fun p => (p, bs.filter fun b => decide (b.1 / 65536 * 65536 = p))
/-- Sends the parts of a vector store to GM (page address, its physical address, bytes); the last one makes the push. The parts are accesses of their own,
in page order, and perform at dev in that order (DESIGN CHOICE, log entry 67). -/
def State.sendPages (s : State) (u : Turn) : List (Nat × Nat × List (Nat × Byte × Byte)) → State
  | [] => s
  | (va, pa, bs) :: rest =>
    let u' : Turn := if rest.isEmpty then u else { u with h := { u.h with pap := false, pan := false } }
    ((s.touch u.c va).sendAs u' .gm pa va (.scatter (bs.map fun (a, b, m) => (a - va + pa, b, m))) 6 effects []).sendPages u rest

/-- What a vst does with its bytes: in rounds from issue + 6, or through the port to GM with one store slot, every page of it sampled at issue
(R232-R235, R330). Of several vector stores that need a bank in one cycle the strands' order decides (DESIGN CHOICE, log entry 50). -/
def vstEffect (space : Nat) (bs : List (Nat × Byte × Byte)) (u : Turn) (s : State) : State :=
  if space = 0 ∨ bs = [] then s.sendAs u (.ls u.c) 0 0 (.scatter bs) 6 (bankPrio 4 (strandRank u.st u.ord)) []
  else s.sendPages u ((storePages bs).map fun p => (p.1, s.gmPa u.c false p.1 .write, p.2))
/-- vst: v[A] as at issue (R232-R235). -/
def execVst (h : Hdr) (a : VReg) (b : QReg) (c : XReg) (k : KReg) (s : State) : Host.Outcome State Fault Refusal :=
  let q := (s.core s.me.1).rq b
  let ps := streamPlaces (s.msk k) q (s.reg c).toNat
  let bs := storeBytes q.fmt (s.vec a) ps
  issue h { legal := [.s, .c], ill := maskKind s.me.2 k, fault := s.streamFault b ps true
            busy := if q.space = 0 then none else s.slotBusy s.me.1 s.me.2, needs := q.space != 0 }
    (vstEffect q.space bs) s

/-! ### Accumulator moves (R77, R236) -/

/-- The byte address of an accumulator cell (R77). -/
def accAddr (row col : Nat) : Nat := 4 * (128 * row + col)
/-- An accumulator cell (R77). -/
def Core.cell (k : Core) (row col : Nat) : Word32 := k.acc.word32 (accAddr row col)
/-- Writes an accumulator cell. -/
def Core.setCell (k : Core) (row col : Nat) (v : Word32) : Core := { k with acc := k.acc.write (accAddr row col) (leBytes 4 v.toNat) }
/-- The bits of the cell of an element: one FP32 cell, or the row pair of an f64 (R77). -/
def Core.cellBits (k : Core) (row col : Nat) (wide : Bool) : Nat :=
  if wide then (k.cell (2 * row) col).toNat + 2 ^ 32 * (k.cell (2 * row + 1) col).toNat else (k.cell row col).toNat
/-- The element width of a move. -/
def cellWidth (wide : Bool) : Nat := if wide then 64 else 32
/-- The cells of a move as register data (R236). -/
def Core.cellsOf (k : Core) (row col : Nat) (wide : Bool) : VecData :=
  (packElems (cellWidth wide) ((List.range (2048 / cellWidth wide)).map fun j => (j, k.cellBits row (col + j) wide))).1

/-- The 64-bit words of accumulator memory that cells of a row lie in, as `Core.badAcc` numbers them (R77, R385). -/
def accWords (row col n : Nat) : List Nat := ((List.range n).map fun i => accAddr row (col + i) / 8).dedup
/-- Reads of accumulator words: corrected errors are counted, and the first uncorrectable one is named by its row and column in the form of x[A] of
R236, since R25 gives AC no other address (R385; DESIGN CHOICE, log entry 42). -/
def State.judgeAcc (s : State) (c : CoreId) (ws : List Nat) : State × Option Nat :=
  (s.countPlaces c 1 ws, (ws.find? (s.core c).badAcc.contains).map fun w => w / 64 + 65536 * (2 * (w % 64)))
/-- Accumulator cells have been written, by their byte addresses: words written whole hold no error any more (R385). -/
def Core.healCells (k : Core) (as : List Nat) : Core :=
  if k.badAcc.isEmpty && k.corr.isEmpty then k
  else k.heal 1 ((as.map (· / 8)).dedup.filter fun w => as.contains (8 * w) && as.contains (8 * w + 4))
/-- The FP32 rows that a move of cells reaches. -/
def moveRows (row : Nat) (wide : Bool) : List Nat := if wide then [2 * row, 2 * row + 1] else [row]
/-- The cells are read, at issue + 2; an uncorrectable error marks the result (R236, R385). -/
def State.readCells (s : State) (c : CoreId) (st : StrandId) (ord row col : Nat) (wide : Bool) : State :=
  let (s, bad) := s.judgeAcc c ((moveRows row wide).flatMap fun r => accWords r col (2048 / cellWidth wide))
  s.arrive c st ord ((s.core c).cellsOf row col wide) 0 (bad.map (((1 : Fin 9), ·)))
/-- The cells of masked elements are written, at issue + 4 (R236). -/
def State.writeCells (s : State) (c : CoreId) (row col : Nat) (wide : Bool) (data : VecData) (mask : MaskData) : State :=
  let f : Fmt := if wide then .f64 else .f32
  s.updCore c fun k => ((enabledElems mask f).foldl (fun k j =>
    let v := elem data f j
    if wide then (k.setCell (2 * row) (col + j) (BitVec.ofNat 32 v)).setCell (2 * row + 1) (col + j) (BitVec.ofNat 32 (v / 2 ^ 32))
    else k.setCell row (col + j) (BitVec.ofNat 32 v)) k).healCells ((moveRows row wide).flatMap fun r => (enabledElems mask f).map fun j => accAddr r (col + j))
/-- Vector writes of cells come before a hob's of the same cycle (R236). -/
def vacwPrio : Nat := effects + 16

/-- The space-access fault of x[A] for an accumulator move (R236). -/
def accFault (pos : Nat) (x : Word) (wide : Bool) : Option TrapInfo :=
  let row := Word.bits x 0 10
  let col := Word.bits x 16 7
  if (x.toNat - row - 65536 * col) ≠ 0 ∨ (wide ∧ 512 ≤ row) ∨ col % (if wide then 32 else 64) ≠ 0 then
    some (spaceFault pos x.toNat .ac)
  else none

/-- What a vacr does: the cells are read at issue + 2 and written to the masked elements of v[D] at issue + 6 (R236). -/
def vacrEffect (d : VReg) (row col : Nat) (fmt : Fmt) (m : MaskData) (u : Turn) (s : State) : State :=
  let mask := (packElems fmt.bits ((enabledElems m fmt).map fun e => (e, 0))).2
  (s.later u.c u.st 2 (effects - 1) (.cellsRead u.c u.st u.ord row col (decide (fmt = .f64)))).resultLater u 6 (vResult d (0, mask) 0)
/-- What a vacw does: the cells of the masked elements are written at issue + 4 (R236). -/
def vacwEffect (row col : Nat) (wide : Bool) (v : VecData) (m : MaskData) (u : Turn) (s : State) : State :=
  let s := s.later u.c u.st 4 vacwPrio (.cellsWrite u.c row col wide v m)
  if u.h.pap || u.h.pan then s.later u.c u.st 4 latePrio (.push u.c u.st u.h.pap.toNat u.h.pan.toNat) else s
/-- vacr (R236). -/
def execVacr (h : Hdr) (d : VReg) (a : XReg) (k : KReg) (fmt : Fmt) (s : State) : Host.Outcome State Fault Refusal :=
  let x := s.reg a
  issue h { legal := [.c], writes := true, fault := accFault s.mine.pos x (decide (fmt = .f64)) }
    (vacrEffect d (Word.bits x 0 10) (Word.bits x 16 7) fmt (s.msk k)) s

/-- vacw (R236). -/
def execVacw (h : Hdr) (a : XReg) (b : VReg) (k : KReg) (fmt : Fmt) (s : State) : Host.Outcome State Fault Refusal :=
  let x := s.reg a
  let wide := decide (fmt = .f64)
  issue h { legal := [.c], fault := accFault s.mine.pos x wide } (vacwEffect (Word.bits x 0 10) (Word.bits x 16 7) wide (s.vec b) (s.msk k)) s

end Sys2Proof.Machine
end

