-- ==== Sys2Proof/Machine/Range.lean ====
section
/-! DEFINITION. The range: geometry, checks and acceptance of hob commands, their starts, stream rows, weight images, summation
and epilogue, drains, failures, reshaping and chains (R120-R141, R237-R248). -/

namespace Sys2Proof.Machine

/-! ### Geometry (R120, R121, R133, R137) -/

/-- A hob's rectangle of processing elements and its accumulator rows; its accumulator columns are its PE columns (R121). -/
structure Rect where
  pe : Nat
  height : Nat
  pec : Nat
  width : Nat
  accRow : Nat
  accRows : Nat
  deriving DecidableEq, Repr

/-- The hob of a queue under a cut code (R121). -/
def cutRect (cut hq : Nat) : Option Rect :=
  match cut with
  | 0 => if hq = 0 then some ⟨0, 128, 0, 128, 0, 1024⟩ else none
  | 1 => if hq < 2 then some ⟨64 * hq, 64, 0, 128, 512 * hq, 512⟩ else none
  | 2 => if hq < 2 then some ⟨0, 128, 64 * hq, 64, 0, 1024⟩ else none
  | 3 => if hq < 4 then some ⟨64 * (hq / 2), 64, 64 * (hq % 2), 64, 512 * (hq / 2), 512⟩ else none
  | 4 => if hq < 4 then some ⟨32 * hq, 32, 0, 128, 256 * hq, 256⟩ else none
  | 5 => if hq < 4 then some ⟨0, 128, 32 * hq, 32, 0, 1024⟩ else none
  | 6 => if hq = 0 then some ⟨0, 96, 0, 128, 0, 768⟩ else if hq = 1 then some ⟨96, 32, 0, 128, 768, 256⟩ else none
  | _ => none
/-- The power state of a band: 0 off, 1 low, 2 high (R137, R239). -/
def bandState (bps : BitVec 8) (b : Nat) : Nat := bps.toNat / 4 ^ b % 4
/-- A rectangle contains a band that is off (R137). -/
def darkRect (bps : BitVec 8) (r : Rect) : Bool :=
  (List.range 4).any fun b => decide (r.pe < 32 * b + 32) && decide (32 * b < r.pe + r.height) && bandState bps b == 0
/-- The members of a chain of a head and shape: (i, j) and its core (R133, R240). -/
def chainMembers (h : Chain) : List (Nat × Nat × CoreId) :=
  ((List.range h.t).map fun i => (List.range h.w).map fun j => (i, j, coreId (h.head.val + 64 * i + j))).flatten
/-- The members on which a core's queued commands act. -/
def membersOf (c : CoreId) (h : Option Chain) : List (Nat × Nat × CoreId) := match h with | some h => chainMembers h | none => [(0, 0, c)]
/-- Members (i, 0), which read the segments of A (R134). -/
def readers (ms : List (Nat × Nat × CoreId)) : List (Nat × CoreId) := (ms.filter fun m => m.2.1 == 0).map fun m => (m.1, m.2.2)
/-- Members (t − 1, j), which own the epilogues (R134). -/
def epilogues (t : Nat) (ms : List (Nat × Nat × CoreId)) : List (Nat × CoreId) := (ms.filter fun m => m.1 + 1 == t).map fun m => (m.2.1, m.2.2)

/-- t of a command's chain. -/
def HobCmd.t (m : HobCmd) : Nat := match m.chain with | some h => h.t | none => 1
/-- w of a command's chain. -/
def HobCmd.w (m : HobCmd) : Nat := match m.chain with | some h => h.w | none => 1
/-- H of R124. -/
def HobCmd.tall (m : HobCmd) : Nat := m.height * m.t
/-- W of R124. -/
def HobCmd.wide (m : HobCmd) : Nat := m.width * m.w
/-- X of R125. -/
def HobCmd.cross (m : HobCmd) : Nat := 6 * (m.t - 1) + 4 * (m.w - 1)
/-- The row rate factor of a format (R124). -/
def rateOf : Fmt → Nat
  | .bf16 | .f16 => 2
  | .f32 => 8
  | .f64 => 32
  | _ => 1
/-- The row rate of a command. -/
def HobCmd.rate (m : HobCmd) : Nat := match m.op with | .mma f _ _ _ => rateOf f | _ => 1
/-- K rows of a PE row of a format (R123). -/
def kPer (f : Fmt) : Nat := if f = .e2m1 then 2 else 1
/-- The PE rectangle of a command. -/
def HobCmd.rect (m : HobCmd) : Rect := ⟨m.pe, m.height, m.pec, m.width, 0, 0⟩

/-- A hob of a core. -/
def Core.hob (k : Core) (hq : Fin 4) : Hob := k.hobs[hq.val]
/-- Changes a hob. -/
def State.updHob (s : State) (c : CoreId) (hq : Fin 4) (f : Hob → Hob) : State :=
  s.updCore c fun k => { k with hobs := vmod k.hobs hq f }
/-- A command of a hob. -/
def State.cmd (s : State) (c : CoreId) (hq : Fin 4) (id : Nat) : Option HobCmd := ((s.core c).hob hq).cmds.find? fun m => m.id == id
/-- Changes a command. -/
def State.updCmd (s : State) (c : CoreId) (hq : Fin 4) (id : Nat) (f : HobCmd → HobCmd) : State :=
  s.updHob c hq fun b => { b with cmds := b.cmds.map fun m => if m.id = id then f m else m }
/-- The core whose hobs serve a core: its chain's head. -/
def Core.lead (k : Core) (c : CoreId) : CoreId := match k.chain with | some h => h.head | none => c

/-! ### Checks (R237-R246) -/

/-- The range-state fault (R141, R336). -/
def rangeFault (pos kind : Nat) (hq : Nat) : TrapInfo :=
  { cause := 9, epc := pos, i0 := BitVec.ofNat 64 kind, i1 := BitVec.ofNat 64 hq }
/-- A fault under a condition. -/
def faultIf (b : Bool) (f : TrapInfo) : Option TrapInfo := if b then some f else none
/-- A queue's wait: HQ number and its head command's position (R43, R122). -/
def Core.queueBusy (k : Core) (hq : Fin 4) : Option (Nat × Word × Nat) :=
  let waiting := (k.hob hq).cmds.filter fun m => !m.started
  if waiting.length < 16 then none else some (4, BitVec.ofNat 64 hq.val, 16 * ((waiting.head?).map (·.pos)).getD 0 + 2)
/-- The demands of a queued command: kinds 0 to 2, then the command's own faults in order, then a place in its queue (R122,
R237). -/
def State.hobReq (s : State) (hq : Fin 4) (checks : Rect → List (Nat × Nat × CoreId) → List (Option TrapInfo)) : Req :=
  let c := s.me.1
  let k := s.core c
  let pos := s.mine.pos
  { legal := [.c]
    fault := match cutRect k.cut.toNat hq.val with
      | none => some (rangeFault pos 0 hq.val)
      | some r =>
        if darkRect k.bps r then some (rangeFault pos 1 hq.val)
        else if k.lead c ≠ c then some (rangeFault pos 2 hq.val)
        else firstFault (checks r (membersOf c k.chain))
    busy := k.queueBusy hq, needs := true }

/-- The accumulator window check of rows named as FP32 rows or f64 rows (R121, R243, R246). -/
def windowBad (r : Rect) (f64 : Bool) (xb row m : Nat) : Bool :=
  decide (1024 ≤ xb) || (f64 && decide (512 < row + m)) ||
    (if f64 then decide (2 * row < r.accRow) || decide (r.accRow + r.accRows < 2 * (row + m))
     else decide (row < r.accRow) || decide (r.accRow + r.accRows < row + m))
/-- The first byte of a signed range that lies outside LS (R25, R244). -/
def rangeOut (a : Int) (n : Nat) : Option Nat :=
  if n = 0 then none
  else if a < 0 then some (addrWord a)
  else if (lsSize : Int) < a + n then some (max a.toNat lsSize) else none
/-- Bytes of one row of a stream (R244). -/
def Desc.rowBytes (d : Desc) : Nat := d.n0 * d.fmt.bits / 8
/-- Signed address of stream row m (R244). -/
def Desc.row (d : Desc) (m : Nat) : Int := d.rowAddr (m % d.n1) (m / d.n1)
/-- Address of the row scale of stream row m (R244). -/
def Desc.rowScale (d : Desc) (m : Nat) : Nat := d.scaleAddr (m % d.n1) (m / d.n1) 0
/-- The space-access fault of the rows, scales and, for a drain, reserved-cell bytes of a stream (R244). -/
def Desc.rowsFault (d : Desc) (pos m : Nat) (rs write : Bool) : Option TrapInfo :=
  firstFault ((List.range m).map fun i =>
    let cell : Option Nat :=
      let a := (d.row i).toNat
      if write && touchesCell a d.rowBytes then some (max a reservedCell) else none
    ((rangeOut (d.row i) d.rowBytes).or (cell.or (if rs then rangeOut (d.rowScale i) d.scaleSize else none))).map
      fun a => spaceFault pos a .ls)
/-- Formats that an mma may pair (R242). -/
def pairOk (a : Fmt) (b : Option Fmt) : Bool :=
  match b with
  | none => true
  | some b =>
    let p8 (f : Fmt) : Bool := f == .e4m3 || f == .e5m2 || f == .t8
    let i8 (f : Fmt) : Bool := f == .s8 || f == .z8
    a == b || (p8 a && p8 b) || (i8 a && i8 b)

/-! ### Weight images (R135, R241) -/

/-- K rows of a block of an image. -/
def blockRows (f : Fmt) : Nat := 32 * kPer f
/-- Bytes of a block (R135). -/
def blockBytes (f : Fmt) (wz : Nat) : Nat :=
  match wz with
  | 0 => blockRows f * 32 * f.bits / 8
  | 1 => blockRows f / 2 * 32 * f.bits / 8 + blockRows f * 4
  | _ => 16 * f.bits / 8 + 512
/-- The next multiple of 64. -/
def align64 (n : Nat) : Nat := (n + 63) / 64 * 64
/-- Offset of the column scales of an image of a hob's rows and columns, and the image's length (R135). -/
def imageSize (f : Fmt) (wz csm rows cols : Nat) : Nat × Nat :=
  let blocks := rows / 32 * (cols / 32)
  let body := align64 (blockBytes f wz) * (blocks - 1) + blockBytes f wz
  (align64 body, if csm = 0 then body else align64 body + cols * (if csm = 1 then 1 else 4))
/-- Bits of an image at a bit offset, a multiple of 4. -/
def imageBits (img : Array Byte) (ofs n : Nat) : Nat :=
  let v := leNat ((List.range ((ofs % 8 + n + 7) / 8)).map fun i => img.getD (ofs / 8 + i) 0)
  bitsAt v (ofs % 8) n
/-- Element (k, n) of an image (R135): `cols` columns in all. -/
def imageElem (img : Array Byte) (f : Fmt) (wz cols k n : Nat) : Nat :=
  let b := blockRows f
  let start := 8 * (align64 (blockBytes f wz) * (k / b * (cols / 32) + n / 32))
  let r := k % b
  let c := n % 32
  match wz with
  | 0 => imageBits img (start + (r * 32 + c) * f.bits) f.bits
  | 1 =>
    let g := r / 4
    let e := imageBits img (start + b / 2 * 32 * f.bits + 4 * (g * 32 + c)) 4
    let v (i : Nat) : Nat := imageBits img (start + ((2 * g + i) * 32 + c) * f.bits) f.bits
    if e / 4 = r % 4 then v 1 else if e % 4 = r % 4 then v 0 else 0
  | _ => imageBits img (start + imageBits img (start + 16 * f.bits + 4 * (r * 32 + c)) 4 * f.bits) f.bits

/-- The address of a processing element's B register (R123): 8 bytes, two elements for e2m1. -/
def bAddr (row col : Nat) : Nat := 8 * (128 * row + col)
/-- B registers outside a rectangle. -/
def bOutside (b : Mem) (r : Rect) : Mem :=
  b.filter fun p =>
    let row := p.1 / 1024
    let col := p.1 / 8 % 128
    !(decide (r.pe ≤ row) && decide (row < r.pe + r.height) && decide (r.pec ≤ col) && decide (col < r.pec + r.width))
/-- Column scales of a rectangle set to the given f32 values. -/
def setScales (v : Vector Word32 128) (r : Rect) (f : Nat → Word32) : Vector Word32 128 :=
  (List.range r.width).foldl (fun v n => v.set! (r.pec + n) (f n)) v
/-- 1.0 in f32. -/
def one32 : Word32 := 0x3F800000
/-- B registers +0 and column scales 1.0 in a hob's rectangle (R248). -/
def Core.clearB (k : Core) (hq : Fin 4) (r : Rect) : Core :=
  { k with breg := bOutside k.breg r, hobs := vmod k.hobs hq fun h => { h with scales := setScales h.scales r fun _ => one32 } }
/-- An image decoded into the B registers and column scales of a hob's rectangle (R132, R135, R241). An e8m0 scale is kept as the f32 of the
same value. -/
def Core.loadImage (k : Core) (hq : Fin 4) (r : Rect) (f : Fmt) (wz csm : Nat) (img : Array Byte) : Core :=
  let put (b : Mem) (i n : Nat) : Mem :=
    let e (j : Nat) : Nat := imageElem img f wz r.width (kPer f * i + j) n
    let bs := if f = .e2m1 then leBytes 2 (e 0 + 256 * e 1) else leBytes (f.bits / 8) (e 0)
    b.write (bAddr (r.pe + i) (r.pec + n)) bs
  let b := (List.range r.height).foldl (fun b i => (List.range r.width).foldl (fun b n => put b i n) b) (bOutside k.breg r)
  let at' := (imageSize f wz csm r.height r.width).1
  let sc (n : Nat) : Word32 := match csm with
    | 0 => one32
    | 1 => BitVec.ofNat 32 (roundTo .f32 .rne 0 false (e8m0Value (imageBits img (8 * (at' + n)) 8))).1
    | _ => BitVec.ofNat 32 (imageBits img (8 * (at' + 4 * n)) 32)
  { k with breg := b, csm := csm, hobs := vmod k.hobs hq fun h => { h with scales := setScales h.scales r sc } }

/-! ### Starts (R124) -/

/-- Ranks of a range command's work in a cycle: reads before the effects; loads before starts; accumulator writes after vector
writes of cells (R123, R236). -/
def loadPrio : Nat := effects - 8
/-- Rank of the top-of-column reads and epilogues. -/
def cellReadPrio : Nat := effects - 4
/-- Rank of a preload's end. -/
def loadDonePrio : Nat := effects + 4
/-- Rank of a start. -/
def startPrio : Nat := effects + 8
/-- Rank of a hob's accumulator writes. -/
def accWritePrio : Nat := effects + 32
/-- Rank of a stream read at its banks (R244). -/
def streamPrio (hq : Fin 4) : Nat := bankPrio 2 hq.val
/-- Rank of a drain's writes at their banks. -/
def drainPrio (hq : Fin 4) : Nat := bankPrio 2 (2 ^ 40 + hq.val)
/-- Rank of a drain's scale reads. -/
def drainScalePrio (hq : Fin 4) : Nat := bankPrio 2 (2 ^ 60 + hq.val)

/-- An nlaunch that has not been delivered (R272). -/
def HobCmd.pendingLaunch (m : HobCmd) : Bool := match m.op with | .nlaunch _ _ => !m.started | _ => false
/-- The descriptor of a member. -/
def HobCmd.desc (m : HobCmd) (c : CoreId) : Desc := (assocGet m.descs c).getD {}
/-- A row's scale lies in another line of a bank that the row uses, so it is read a cycle earlier (R244). -/
def Desc.scaleEarly (d : Desc) (row : Nat) : Bool :=
  let a := (d.row row).toNat
  let sc := d.rowScale row
  (List.range ((a + d.rowBytes - 1) / 64 - a / 64 + 1)).any fun i =>
    bankOf (64 * (a / 64 + i)) == bankOf sc && !(a / 64 + i == sc / 64)
/-- Row scales are read for an mma. -/
def HobCmd.rs (m : HobCmd) : Bool := match m.op with | .mma _ _ rs _ => rs | .mdrain _ _ _ rs _ => rs | _ => false
/-- Posts the read of a stream row of an mma, and of its scale where that comes a cycle earlier (R125, R244). -/
def State.postRow (s : State) (c : CoreId) (hq : Fin 4) (m : HobCmd) (seg row at' : Nat) : State :=
  let clk := Clock.dt (s.bidOf c)
  let early := m.rs && seg == 0 && (m.desc c).scaleEarly row
  let s := if early then s.post clk (at' - 1) (streamPrio hq) (.scaleRead c hq m.id row) else s
  s.post clk at' (streamPrio hq) (.rowRead c hq m.id seg row)
/-- Rows that a command writes, per member: all, or those before a failed one. -/
def HobCmd.limit (m : HobCmd) : Nat := match m.failed with | some f => min f m.m | none => m.m
/-- The cycle in which an mma's first row leaves the epilogue (R125). -/
def HobCmd.leaves (m : HobCmd) (t0 : Nat) : Nat := t0 + m.tall + m.wide + 12 + m.cross
/-- The cycle in which a command that starts at `t0` frees its hob, and that of its last accumulator write, 0 for none (R124, R125). -/
def HobCmd.span (m : HobCmd) (t0 : Nat) : Nat × Nat :=
  match m.op with
  | .mloadb _ _ _ _ => (t0 + m.tall + 8, 0)
  | .mma _ _ _ _ => (t0 + m.rate * m.m, if m.limit = 0 then 0 else m.leaves t0 + m.rate * (m.limit - 1) + 4)
  | .mdrain _ _ _ _ _ => (t0 + m.m, 0)
  | .mzero => (t0 + (m.m + 7) / 8, t0 + (m.m + 7) / 8)
  | .nlaunch _ _ => (t0, 0)
/-- A command's start t0 is fixed: the hob is taken until its time and the command's work is posted (R124, R125). A drain that still reads when
its hob is cut anew keeps the new hob of its number taken until then (DESIGN CHOICE, log entry 51); a drain of another member than the head
that still reads when a chain forms holds no lead command back, since these count the head's hob alone (DESIGN CHOICE, log entry 51). -/
def State.startCmd (s : State) (c : CoreId) (hq : Fin 4) (m : HobCmd) : State :=
  let k := s.core c
  let b := k.hob hq
  let clk := Clock.dt (s.bidOf c)
  let base := max m.dt (max b.free k.startFrom)
  let t0 := match m.op with | .mzero | .mdrain _ _ _ _ _ => max base (b.lastWrite + 1) | _ => base
  let (free, last) := m.span t0
  let s := (s.updHob c hq fun b => { b with free := free, lastWrite := max b.lastWrite last }).updCmd c hq m.id fun m => { m with t0 := some t0 }
  match m.op with
  | .mloadb _ _ _ _ =>
    let s := s.post clk t0 startPrio (.ev (.mloadbStart c hq m.id))
    (s.post clk t0 loadPrio (.loadRead c hq m.id 0)).post clk (t0 + m.tall + 8) loadDonePrio (.loadDone c hq m.id)
  | .mma f _ _ _ =>
    let s := s.post clk t0 startPrio (.ev (.mmaStart c hq m.id))
    let s := (List.range m.t).foldl (fun s i => s.postRow c hq m i 0 (t0 - 6 + 134 * i)) s
    let s := if f = .f32 ∨ f = .f64 then s.post clk t0 cellReadPrio (.topRead c hq m.id 0) else s
    s.post clk (m.leaves t0) cellReadPrio (.rowLeave c hq m.id 0)
  | .mdrain _ _ _ _ _ =>
    let s := s.post clk t0 startPrio (.ev (.mdrainStart c hq m.id))
    (List.range m.w).foldl (fun s j => s.post clk t0 (drainScalePrio hq) (.drainRead c hq m.id (1024 * j))) s
  | .mzero =>
    let s := s.post clk t0 startPrio (.ev (.mzeroStart c hq m.id))
    s.post clk (t0 + 1) accWritePrio (.zeroRows c hq m.id 0)
  | .nlaunch _ _ =>
    let (n, s) := s.draw
    s.post clk (t0 + Config.delay n) (effects + 12) (.ev (.nlaunchDelivery c hq m.id))
/-- Fixes the starts of the commands that stand behind no undelivered launch and no failure (R124, R248, R272). -/
def State.planHob (s : State) (c : CoreId) (hq : Fin 4) : Nat → State
  | 0 => s
  | fuel + 1 =>
    let b := (s.core c).hob hq
    if b.held then s
    else match b.cmds.find? fun m => m.t0.isNone with
      | none => s
      | some m =>
        if b.cmds.any fun n => decide (n.id < m.id) && n.pendingLaunch then s
        else (s.startCmd c hq m).planHob c hq fuel
/-- Accepts a command into a hob's queue in its issue cycle, with its push (R122, R237). -/
def State.accept (s : State) (u : Turn) (hq : Fin 4) (m : HobCmd) : State :=
  let b := (s.core u.c).hob hq
  let s := s.updHob u.c hq fun b =>
    { b with cmds := b.cmds ++ [{ m with id := b.next }], next := b.next + 1
             bfmt := match m.op with | .mloadb f _ _ _ => some f | _ => b.bfmt }
  (s.planHob u.c hq (b.cmds.length + 1)).pushNow u
/-- A command as it is accepted: the geometry of its hob, its rows and its streams (R124, R237). -/
def State.newCmd (s : State) (u : Turn) (hq : Fin 4) (op : HobOp) (delay row m : Nat) (descs : List (CoreId × Desc)) : HobCmd :=
  let k := s.core u.c
  let r := (cutRect k.cut.toNat hq.val).getD ⟨0, 0, 0, 0, 0, 0⟩
  { id := 0, op := op, pos := u.pos, dt := s.dt u.c + delay, t0 := none, pe := r.pe, height := r.height, pec := r.pec, width := r.width
    chain := k.chain, row := row, m := m, descs := descs, rows := [], scales := [], bstate := [], tops := [], failed := none
    started := false, done := 0, needs := [], pa := 0, samples := [], bfmt := (k.hob hq).bfmt }
/-- A hob number. -/
def hqOf (hq : BitVec 2) : Fin 4 := hq.toFin

/-! ### Failures after acceptance (R126, R248) -/

/-- The command that a piece of work belongs to. -/
def Work.hobOf : Work → Option (CoreId × Fin 4 × Nat)
  | .rowRead c hq id _ _ | .scaleRead c hq id _ | .topRead c hq id _ | .rowLeave c hq id _ | .drainRead c hq id _
  | .zeroRows c hq id _ | .loadRead c hq id _ | .loadDone c hq id => some (c, hq, id)
  | .ev (.mloadbStart c hq id) | .ev (.mmaStart c hq id) | .ev (.mdrainStart c hq id) | .ev (.mzeroStart c hq id)
  | .ev (.nlaunchDelivery c hq id) | .ev (.accumulatorRowWrite c hq id _) | .ev (.drainRowWrite c hq id _) => some (c, hq, id)
  | _ => none
/-- The rows of writes that have performed are kept while their command goes on or a later command takes one of them (R125, R127). A command
all of whose writes have performed ends. -/
def State.endCmd (s : State) (c : CoreId) (hq : Fin 4) (id : Nat) : State :=
  match s.cmd c hq id with
  | none => s
  | some m =>
    let need := match m.op with
      | .mma _ _ _ _ => m.limit
      | .mdrain _ _ _ _ _ => m.limit * m.w
      | .mzero => (m.m + 7) / 8
      | _ => 1
    if m.done < need then s
    else s.updHob c hq fun b =>
      let cmds := b.cmds.filter fun n => n.id != id
      { b with cmds := cmds, writes := b.writes.filter fun w => !w.done || cmds.any fun n => n.id == w.cmd || n.tops.any fun t => t.2.2.1.contains w.cmd }
/-- A command fails at a row: no later row writes, the fault goes to C, the binding freezes, and the commands behind that have
not started wait in their queue, from which the hob counts its times anew (R124, R126, R248). The freeze is pending when the trap is taken, so
FROZEN reads 1 (R342). A software trap of C that is due in this cycle gives way and is dropped, and a second command that fails in it meets C at
system level and is a double trap (DESIGN CHOICE, log entry 57). -/
def State.failCmd (s : State) (c : CoreId) (hq : Fin 4) (m : HobCmd) (row : Nat) (info : TrapInfo) : State :=
  let s := s.updCmd c hq m.id fun n => { n with failed := some (match n.failed with | some f => min f row | none => row) }
  let behind := (((s.core c).hob hq).cmds.filter fun n => decide (m.id < n.id) && !n.started).map (·.id)
  let s : State := { s with cal := s.cal.filter fun d => match d.work.hobOf with
    | some (c', hq', id) => !(c' == c && hq' == hq && behind.contains id)
    | none => true }
  let s := s.updHob c hq fun b =>
    let cmds := b.cmds.map fun n => if behind.contains n.id then { n with t0 := none, rows := [], scales := [], tops := [] } else n
    let spans := cmds.filterMap fun n => n.t0.map n.span
    { b with held := true, cmds := cmds, free := spans.foldl (fun t p => max t p.1) 0, lastWrite := spans.foldl (fun t p => max t p.2) 0 }
  let s := (s.endCmd c hq m.id).freeze (s.bidOf c)
  if (s.strand c .c).run = .running then s.trap c .c { info with epc := (s.strand c .c).pos, async := true } else s
/-- The schedule-miss of a row (R126, R336). -/
def missRow (hq : Fin 4) (m : HobCmd) (row cond : Nat) : TrapInfo :=
  { cause := 12, epc := 0, i0 := BitVec.ofNat 64 (hq.val + 4 * m.pos + 2 ^ 17 * row), i1 := BitVec.ofNat 64 (2 ^ 48 * cond) }
/-- The memory-error fault of a queued command (R248, R336). -/
def errRow (m : HobCmd) (addr : Nat) : TrapInfo := { cause := 11, epc := 0, i0 := BitVec.ofNat 64 addr, i1 := BitVec.ofNat 64 m.pos }

/-! ### Stream rows (R125, R126, R244) -/

/-- Reads bytes of a member's scratchpad as one multi-bank access of the range at its exact cycle: bytes, a lost bank, a guard, a
reservation, or an uncorrectable error (R126, R244). -/
def State.streamRead (s : State) (t : CoreId) (d : Desc) (as : List Nat) : State × Except (Option Nat × Nat) (List Byte) :=
  let k := s.core t
  let fresh := as.filter fun a => !k.hobLines.contains (a / 64)
  match s.grant t (banksOfAddrs fresh) with
  | none => (s, .error (none, 4))
  | some s =>
    let s := s.updCore t fun k => { k with hobLines := (as.map (· / 64)).dedup ++ k.hobLines }
    if (match d.guard with | some ch => as.any (s.guarded t ch) | none => false) then (s, .error (none, 5))
    else if (s.core t).earlyrd.getLsbD 0 && as.any (s.reservedByte t (s.dt t)) then (s, .error (none, 6))
    else match s.badLs t as with
      | some a => (s, .error (some a, 0))
      | none => (s.countLs t as, .ok (as.map (s.core t).ls.get))
/-- The failure that a stream read reports. -/
def State.missCmd (s : State) (c : CoreId) (hq : Fin 4) (m : HobCmd) (row : Nat) (e : Option Nat × Nat) : State :=
  match e.1 with
  | some a => (s.errorRecord 0 a (s.bidOf c) c.val).failCmd c hq m row (errRow m a)
  | none => s.failCmd c hq m row (missRow hq m row e.2)
/-- The core of segment i, which reads its rows. -/
def HobCmd.reader (_m : HobCmd) (c : CoreId) (seg : Nat) : CoreId := coreId (c.val + 64 * seg)
/-- The core of column segment j's epilogue. -/
def HobCmd.epilogue (m : HobCmd) (c : CoreId) (j : Nat) : CoreId := coreId (c.val + 64 * (m.t - 1) + j)

/-- The read of a row's scale in the cycle before the row's (R244). -/
def State.scaleRow (s : State) (c : CoreId) (hq : Fin 4) (id row : Nat) : State :=
  match s.cmd c hq id with
  | none => s
  | some m =>
    if m.limit ≤ row then s
    else
      let d := m.desc c
      match s.streamRead c d ((List.range d.scaleSize).map (d.rowScale row + ·)) with
      | (s, .error e) => s.missCmd c hq m row e
      | (s, .ok bs) => s.updCmd c hq id fun m => { m with scales := (0, row, leNat bs) :: m.scales }
/-- The read of a row of A on a segment, at exactly its cycle; the next row follows at the command's rate (R125, R126). -/
def State.rowRow (s : State) (c : CoreId) (hq : Fin 4) (id seg row : Nat) : State :=
  match s.cmd c hq id with
  | none => s
  | some m =>
    if m.limit ≤ row then s
    else
      let t := m.reader c seg
      let d := m.desc t
      let n := d.rowBytes
      let withScale := m.rs && seg == 0 && !d.scaleEarly row
      let as := (List.range n).map ((d.row row).toNat + ·) ++ if withScale then (List.range d.scaleSize).map (d.rowScale row + ·) else []
      match s.streamRead t d as with
      | (s, .error e) => s.missCmd c hq m row e
      | (s, .ok bs) =>
        let s := s.updCmd c hq id fun m =>
          { m with rows := (seg, row, bs.take n) :: m.rows
                   scales := if withScale then (0, row, leNat (bs.drop n)) :: m.scales else m.scales }
        if m.m ≤ row + 1 then s else s.postRow c hq m seg (row + 1) (s.dt c + m.rate)

/-! ### Preloads (R136, R241) -/

/-- The active half of the weight buffer (R78). -/
def Core.activeHalf (k : Core) : Mem := if k.active then k.wb1 else k.wb0
/-- The number under which a line of a half is listed when it has an uncorrectable error. -/
def wbLine (half : Bool) (a : Nat) : Nat := half.toNat * 2 ^ 18 + a / 64 * 64
/-- The first byte of a range of the active half that a fill from the core's own scratchpad has not yet written (R108). -/
def Core.unfilled (k : Core) (lo n : Nat) : Option Nat :=
  ((k.copies.filter fun p => p.kind == .lw && p.half == k.active).filterMap fun p =>
    let a := max lo (p.dst + 64 * p.wr)
    if a < min (lo + n) (p.dst + p.n) then some a else none).min?
/-- One cycle of a preload: its lines of the image on every member (R241, R248). Where the bytes of several members are unfilled or bad in one
cycle, the first member in the order of its chain is recorded (DESIGN CHOICE, log entry 58). -/
def State.loadCycle (s : State) (c : CoreId) (hq : Fin 4) (id j : Nat) : State :=
  match s.cmd c hq id with
  | none => s
  | some m =>
    match m.op with
    | .mloadb f wz csm ofs =>
      if m.failed.isSome then s
      else
        let lines := ((imageSize f wz csm m.height m.width).2 + 63) / 64
        let lo := j * lines / m.tall
        let hi := (j + 1) * lines / m.tall
        let n := 64 * (hi - lo)
        let a := ofs + 64 * lo
        let ms := membersOf c m.chain
        let clear (s : State) : State := ms.foldl (fun s p => s.updCore p.2.2 fun k => k.clearB hq m.rect) s
        let early := firstFault (ms.map fun p =>
          let k := s.core p.2.2
          if k.earlyrd.getLsbD 1 then (k.unfilled a n).map fun b =>
            ({ cause := 8, epc := 0, i0 := BitVec.ofNat 64 b
               i1 := BitVec.ofNat 64 (8 + 16 * hq.val + 64 * m.pos + 2 ^ 21 * (j / m.t % 128)) } : TrapInfo)
          else none)
        let bad : Option (CoreId × Nat) := (ms.filterMap fun p =>
          let k := s.core p.2.2
          ((List.range (hi - lo)).find? fun i => k.badWb.contains (wbLine k.active (a + 64 * i))).map fun i => (p.2.2, a + 64 * i)).head?
        match early, bad with
        | some f, _ => (clear s).failCmd c hq m 0 f
        | none, some (t, b) => ((clear s).errorRecord 2 (badLineAddr t b) (s.bidOf c) t.val).failCmd c hq m 0 (errRow m (badLineAddr t b))
        | none, none =>
          let s := ms.foldl (fun (s : State) p => s.countPlaces p.2.2 2 ((List.range (hi - lo)).map fun i => wbLine (s.core p.2.2).active (a + 64 * i))) s
          let s := s.updCmd c hq id fun m =>
            { m with rows := m.rows ++ ms.map fun p => (p.1 + 8 * p.2.1, lo, (s.core p.2.2).activeHalf.read a n) }
          if m.tall ≤ j + 1 then s else s.laterOn (.dt (s.bidOf c)) 1 loadPrio (.loadRead c hq id (j + 1))
    | _ => s
/-- A preload ends: B registers and column scales take their new contents on every member (R124, R241). -/
def State.loadEnd (s : State) (c : CoreId) (hq : Fin 4) (id : Nat) : State :=
  match s.cmd c hq id with
  | none => s
  | some m =>
    let s : State := match m.op with
      | .mloadb f wz csm _ =>
        if m.failed.isSome then s
        else (membersOf c m.chain).foldl (fun s p =>
          let img := ((m.rows.filter fun r => r.1 == p.1 + 8 * p.2.1).map (·.2.2)).flatten.toArray
          s.updCore p.2.2 fun k => k.loadImage hq m.rect f wz csm img) s
      | _ => s
    (s.updCmd c hq id fun m => { m with done := 1 }).endCmd c hq id

/-! ### Summation (R128-R130) -/

/-- Element k of a row's bytes. -/
def rowElem (f : Fmt) (row : Nat) (k : Nat) : Nat := bitsAt row (k * f.bits) f.bits
/-- B[k][n] of a segment, from its member's B registers: PE row k, or k/2 for e2m1 (R123). -/
def bElem (b : Mem) (f : Fmt) (r : Rect) (k n : Nat) : Nat :=
  let a := bAddr (r.pe + k / kPer f) (r.pec + n) + k % kPer f
  leNat (b.read a (if f = .e2m1 then 1 else f.bits / 8))
/-- The partial of a column: bands in K order, each an exact sum added with one rounding (R128). -/
def floatPartial (terms : List (List (Num × Num))) : Nat × Flg :=
  terms.foldl (fun p band =>
    let e := Num.sum .rne (band.map fun t => t.1.mul t.2)
    let (v, g) := roundTo .f32 .rne 0 false (.sum .rne [floatValue .f32 p.1, e])
    (v, p.2 ||| g ||| flagIf e.isNan fIV)) (0, 0)
/-- The epilogue of a float element (R128). -/
def floatEpilogue (acc : Nat) (srow scol : Num) (p : Nat) : Nat × Flg :=
  roundTo .f32 .rne 0 false (.sum .rne [floatValue .f32 acc, (srow.mul scol).mul (floatValue .f32 p)])
/-- A fused chain of f32 or f64 (R129). -/
def fusedChain (f : Fmt) (rm : Rm) (acc : Nat) (terms : List (Num × Num)) : Nat × Flg :=
  terms.foldl (fun p t =>
    let (v, g) := roundTo f rm 0 false (.sum rm [t.1.mul t.2, floatValue f p.1])
    (v, p.2 ||| g)) (acc, 0)
/-- Clamps to 32 signed bits (R130). -/
def satS32 (i : Int) : Int × Flg :=
  if i < intMin .s32 then (intMin .s32, fSAT) else if intMax .s32 < i then (intMax .s32, fSAT) else (i, 0)
/-- The integer partial of a column and its sum with the accumulator (R130). -/
def intElement (acc : Nat) (terms : List (List (Int × Int))) : Nat × Flg :=
  let (p, g) := terms.foldl (fun (p : Int × Flg) band =>
    let (v, h) := satS32 (p.1 + (band.map fun t => t.1 * t.2).foldl (· + ·) 0)
    (v, p.2 ||| h)) (0, 0)
  let (v, h) := satS32 (intValue .s32 acc + p)
  (intBits .s32 v, g ||| h)

/-- The K rows of a segment cut into bands (R128, R131). -/
def bandsOf (k per : Nat) : List (List Nat) := (List.range (k / per)).map fun b => (List.range per).map (b * per + ·)

/-! ### Accumulators as a hob sees them (R127) -/

/-- An f64 command of R77. -/
def HobOp.f64 : HobOp → Bool
  | .mma .f64 _ _ _ => true
  | .mdrain .f64 _ _ _ _ => true
  | _ => false
/-- The FP32 rows of a command's row (R77). -/
def HobCmd.accRows (m : HobCmd) (row : Nat) : List Nat := if m.op.f64 then [2 * (m.row + row), 2 * (m.row + row) + 1] else [m.row + row]
/-- Cells of an accumulator row of a member in a hob's columns. -/
def Core.cells (k : Core) (row col n : Nat) : List Word32 := (List.range n).map fun i => k.cell row (col + i)
/-- The pending write of an FP32 row by a command before `id` that the hob forwards: its words (R127). -/
def Hob.forward (b : Hob) (id : Nat) (core : CoreId) (acc : Nat) : Option (List Word32) :=
  let ws := (b.writes.filter fun w => !w.done && w.core == core && w.acc == acc && decide (w.cmd < id)).mergeSort fun x y => y.cmd ≤ x.cmd
  ws.head?.map (·.words)
/-- The earlier commands with a write of an FP32 row still to perform, the latest first: the number, and whether it clears the row. -/
def Hob.pending (b : Hob) (m : HobCmd) (acc : Nat) : List (Nat × Bool) :=
  let ps := b.cmds.filterMap fun n =>
    if m.id ≤ n.id then none
    else match n.op with
      | .mma _ _ _ _ =>
        let r := if n.op.f64 then acc / 2 else acc
        if n.row ≤ r ∧ r < n.row + n.limit ∧ !(b.writes.any fun w => w.cmd == n.id && w.acc == acc && w.done) then some (n.id, false) else none
      | .mzero => if n.row + 8 * n.done ≤ acc ∧ acc < n.row + n.m then some (n.id, true) else none
      | _ => none
  ps.mergeSort fun x y => y.1 ≤ x.1

/-- A hob reads accumulator cells of members' rows: the state with its corrected errors counted, or the failure of its command at a row of it, recorded
for the accumulators (R248, R385). -/
def State.readAcc (s : State) (c : CoreId) (hq : Fin 4) (m : HobCmd) (row : Nat) (at' : List (CoreId × Nat)) : State × Bool :=
  let (s, bad) := at'.foldl (fun (p : State × Option (CoreId × Nat)) e =>
    let (s, b) := p.1.judgeAcc e.1 (accWords e.2 m.pec m.width)
    (s, p.2.or (b.map (e.1, ·)))) (s, none)
  match bad with
  | some (e, a) => ((s.errorRecord 1 a (s.bidOf c) e.val).failCmd c hq m row (errRow m a), false)
  | none => (s, true)
/-- The top-of-column read of a row of f32 or f64 (R125): the commands whose pending writes stand before it, the latest first up to one that
clears the row, and what the row holds without them: +0 behind a clear, else the cells as they stand (R127). -/
def State.topOf (s : State) (c : CoreId) (hq : Fin 4) (id row : Nat) : State :=
  match s.cmd c hq id with
  | none => s
  | some m =>
    if m.limit ≤ row then s
    else
      let b := (s.core c).hob hq
      let tops := ((List.range m.w).map fun j =>
        let e := m.epilogue c j
        (m.accRows row).map fun acc =>
          let ps := b.pending m acc
          (e, acc, (ps.takeWhile fun p => !p.2).map (·.1),
            if ps.any (·.2) then List.replicate m.width (0 : Word32) else (s.core e).cells acc m.pec m.width)).flatten
      match s.readAcc c hq m row (((List.range m.w).flatMap fun j => (m.accRows row).map (m.epilogue c j, ·)).filter fun e => (b.pending m e.2).isEmpty) with
      | (s, false) => s
      | (s, true) =>
        let s := s.updCmd c hq id fun m => { m with tops := tops ++ m.tops }
        if m.m ≤ row + 1 then s else s.laterOn (.dt (s.bidOf c)) m.rate cellReadPrio (.topRead c hq id (row + 1))
/-- The words of an FP32 row that entered the top of the columns: those of the latest command that wrote it, for one that failed before the row
writes nothing (R125-R127). -/
def HobCmd.topWords (m : HobCmd) (b : Hob) (core : CoreId) (acc : Nat) : List Word32 :=
  match m.tops.find? fun t => t.1 == core && t.2.1 == acc with
  | some (_, _, ns, ws) => ((ns.findSome? fun n => b.writes.find? fun w => w.cmd == n && w.core == core && w.acc == acc).map (·.words)).getD ws
  | none => []

/-! ### The epilogue (R125-R129, R134) -/

/-- The row writes that a row of an mma makes: one for each FP32 row of each epilogue member. -/
def State.rowResult (s : State) (c : CoreId) (hq : Fin 4) (m : HobCmd) (row : Nat) : List RowWrite :=
  match m.op with
  | .mma f rm rs cs =>
    let b := (s.core c).hob hq
    let fb := m.bfmt.getD f
    let kk := m.height * kPer f
    let segs := List.range m.t
    let bytes (i : Nat) : Nat := ((m.rows.find? fun r => r.1 == i && r.2.1 == row).map fun r => leNat r.2.2).getD 0
    let bst (i j : Nat) : Option BState := m.bstate.find? fun x => x.core == coreId (c.val + 64 * i + j)
    let d := m.desc c
    let srow : Num :=
      if rs then
        let v := ((m.scales.find? fun x => x.2.1 == row).map (·.2.2)).getD 0
        if d.smode = 1 then e8m0Value v else floatValue .f32 v
      else .fin false 1 1
    ((List.range m.w).map fun j =>
      let e := m.epilogue c j
      let scales := match bst (m.t - 1) j with | some x => x.scales | none => Vector.replicate 128 one32
      let scol (n : Nat) : Num := if cs then floatValue .f32 ((scales.toList.getD (m.pec + n) one32).toNat) else .fin false 1 1
      let mem (i : Nat) : Mem := match bst i j with | some x => x.b | none => []
      let cur (acc : Nat) : List Word32 := (b.forward m.id e acc).getD ((s.core e).cells acc m.pec m.width)
      let pairs (i n : Nat) (ks : List Nat) : List (Nat × Nat) := ks.map fun k => (rowElem f (bytes i) k, bElem (mem i) fb m.rect k n)
      let out (n : Nat) : Nat × Flg :=
        if f = .f32 ∨ f = .f64 then
          let ws := (m.accRows row).map fun acc => ((m.topWords b e acc).getD n 0).toNat
          let acc := match ws with | [l, h] => l + 2 ^ 32 * h | [l] => l | _ => 0
          fusedChain f rm acc ((segs.map fun i => (pairs i n (List.range kk)).map fun p => (floatValue f p.1, floatValue f p.2)).flatten)
        else
          let bands := (segs.map fun i => (bandsOf kk (32 * kPer f)).map fun ks => pairs i n ks).flatten
          let acc := ((cur (m.row + row)).getD n 0).toNat
          if f.isI then intElement acc (bands.map fun bd => bd.map fun p => (intValue f p.1, intValue fb p.2))
          else
            let (p, g) := floatPartial (bands.map fun bd => bd.map fun p => (floatValue f p.1, floatValue fb p.2))
            let (v, h) := floatEpilogue acc srow (scol n) p
            (v, g ||| h)
      let outs := (List.range m.width).map out
      let flags := orFlags (outs.map (·.2))
      (m.accRows row).zipIdx.map fun (acc, i) =>
        ({ cmd := m.id, row := row, core := e, acc := acc, words := outs.map fun o => BitVec.ofNat 32 (o.1 / 2 ^ (32 * i))
           flags := flags, done := false } : RowWrite)).flatten
  | _ => []
/-- The accumulator rows whose cells the epilogue of a row adds to: none for f32 and f64, whose chain began with them, and none with a write that it
forwards (R125, R127-R130). -/
def HobCmd.epilogueReads (m : HobCmd) (c : CoreId) (b : Hob) (row : Nat) : List (CoreId × Nat) :=
  match m.op with
  | .mma .f32 _ _ _ | .mma .f64 _ _ _ => []
  | .mma _ _ _ _ => ((List.range m.w).map fun j => (m.epilogue c j, m.row + row)).filter fun e => (b.forward m.id e.1 e.2).isNone
  | _ => []
/-- A row leaves the epilogue; its accumulator write performs four cycles later (R125). -/
def State.leaveRow (s : State) (c : CoreId) (hq : Fin 4) (id row : Nat) : State :=
  match s.cmd c hq id with
  | none => s
  | some m =>
    if m.limit ≤ row then s
    else
      let ws := s.rowResult c hq m row
      let clk := Clock.dt (s.bidOf c)
      match s.readAcc c hq m row (m.epilogueReads c ((s.core c).hob hq) row) with
      | (s, false) => s
      | (s, true) =>
        let s := s.updHob c hq fun b => { b with writes := b.writes ++ ws }
        let s := s.laterOn clk 4 accWritePrio (.ev (.accumulatorRowWrite c hq id row))
        if m.m ≤ row + 1 then s else s.laterOn clk m.rate cellReadPrio (.rowLeave c hq id (row + 1))
/-- Writes the words of a row write into its member's cells. -/
def Core.putRow (k : Core) (acc col : Nat) (ws : List Word32) : Core :=
  (ws.zipIdx.foldl (fun k (w, i) => k.setCell acc (col + i) w) k).healCells ((List.range ws.length).map fun i => accAddr acc (col + i))

/-! ### Drains and clears (R124, R244-R246) -/

/-- The drained value of a cell (R245). -/
def drainElem (f out : Fmt) (rm : Rm) (sat : Bool) (sc : Num) (v : Nat) : Nat × Flg :=
  if f.isI && out.isI && sc.eq (.fin false 1 1) then fitInt out sat (intValue f v) else toFmt out rm 0 sat ((numValue f v).mul sc)
/-- The read of a drain row on an epilogue member (`row` = row + 1,024·member): cells, and the row's scale, which a lost bank
delays (R244, R245). -/
def State.drainCells (s : State) (c : CoreId) (hq : Fin 4) (id row : Nat) : State :=
  match s.cmd c hq id with
  | none => s
  | some m =>
    let r := row % 1024
    let j := row / 1024
    if m.limit ≤ r then s
    else
      let e := m.epilogue c j
      let clk := Clock.dt (s.bidOf c)
      let tops := (m.accRows r).map fun acc => (e, acc, ([] : List Nat), (s.core e).cells acc m.pec m.width)
      match s.readAcc c hq m r ((m.accRows r).map (e, ·)) with
      | (s, false) => s
      | (s, true) =>
        let s := s.updCmd c hq id fun m => { m with tops := tops ++ m.tops }
        let s := if m.rs then s.laterOn clk 0 (drainScalePrio hq) (.scaleRead c hq id row)
          else s.laterOn clk 14 (drainPrio hq) (.ev (.drainRowWrite c hq id row))
        if m.m ≤ r + 1 then s else s.laterOn clk 1 (drainScalePrio hq) (.drainRead c hq id (row + 1))
/-- The read of a drain row's scale; it retries until it has its bank (R244). R244 and R248 name no schedule-miss for it, so a guarded stream's
channel does not stop it (DESIGN CHOICE against R90, log entry 59). -/
def State.drainScale (s : State) (c : CoreId) (hq : Fin 4) (m : HobCmd) (row : Nat) : State :=
  let r := row % 1024
  let e := m.epilogue c (row / 1024)
  let d := m.desc e
  let clk := Clock.dt (s.bidOf c)
  let as := (List.range d.scaleSize).map (d.rowScale r + ·)
  if m.limit ≤ r then s
  else match s.grant e (banksOfAddrs as) with
    | none => s.laterOn clk 1 (drainScalePrio hq) (.scaleRead c hq m.id row)
    | some s =>
      match s.badLs e as with
      | some a => (s.errorRecord 0 a (s.bidOf c) e.val).failCmd c hq m r (errRow m a)
      | none =>
        let v := leNat (as.map (s.core e).ls.get)
        let s := s.countLs e as
        (s.updCmd c hq m.id fun m => { m with scales := (row / 1024, r, v) :: m.scales }).laterOn clk 14 (drainPrio hq)
          (.ev (.drainRowWrite c hq m.id row))
/-- A scale read of an mma or of a drain. -/
def State.readScale (s : State) (c : CoreId) (hq : Fin 4) (id row : Nat) : State :=
  match s.cmd c hq id with
  | none => s
  | some m => match m.op with
    | .mdrain _ _ _ _ _ => s.drainScale c hq m row
    | _ => s.scaleRow c hq id row
/-- The bytes and flags of a drained row (R245). -/
def HobCmd.drainRow (m : HobCmd) (e : CoreId) (j r : Nat) (colScale : Nat → Nat) : List Byte × Flg :=
  match m.op with
  | .mdrain f rm sat rs cs =>
    let d := m.desc e
    let words (acc : Nat) : List Word32 := ((m.tops.find? fun t => t.1 == e && t.2.1 == acc).map (·.2.2.2)).getD []
    let cols := (m.accRows r).map words
    let v (n : Nat) : Nat := match cols with | [l, h] => (l.getD n 0).toNat + 2 ^ 32 * (h.getD n 0).toNat | [l] => (l.getD n 0).toNat | _ => 0
    let srow : Num := if rs then
        let x := ((m.scales.find? fun x => x.1 == j && x.2.1 == r).map (·.2.2)).getD 0
        if d.smode = 1 then e8m0Value x else floatValue .f32 x
      else .fin false 1 1
    let scol (n : Nat) : Num := if cs then floatValue .f32 (colScale n) else .fin false 1 1
    let outs := (List.range m.width).map fun n => drainElem f d.fmt rm sat (srow.mul (scol n)) (v n)
    let val := outs.zipIdx.foldl (fun a p => a + p.1.1 * 2 ^ (p.2 * d.fmt.bits)) 0
    (leBytes (m.width * d.fmt.bits / 8) val, orFlags (outs.map (·.2)))
  | _ => ([], 0)

/-- Event: an mloadb starts; its entry is free in the next cycle (R122, R124). -/
def execMloadbStart (c : CoreId) (hq : Fin 4) (id : Nat) (s : State) : Host.Outcome State Fault Refusal :=
  .next (s.updCmd c hq id fun m => { m with started := true })
/-- Event: an mma starts with the B registers and column scales of its members as they stand (R124). -/
def execMmaStart (c : CoreId) (hq : Fin 4) (id : Nat) (s : State) : Host.Outcome State Fault Refusal :=
  .next (s.updCmd c hq id fun m =>
    { m with started := true, bstate := (membersOf c m.chain).map fun p => ⟨p.2.2, (s.core p.2.2).breg, ((s.core p.2.2).hob hq).scales⟩ })
/-- Event: an mzero starts (R124). -/
def execMzeroStart (c : CoreId) (hq : Fin 4) (id : Nat) (s : State) : Host.Outcome State Fault Refusal :=
  .next (s.updCmd c hq id fun m => { m with started := true })
/-- Event: an mdrain starts, with the column scales of its epilogue members (R124, R245). -/
def execMdrainStart (c : CoreId) (hq : Fin 4) (id : Nat) (s : State) : Host.Outcome State Fault Refusal :=
  .next (s.updCmd c hq id fun m =>
    { m with started := true, bstate := (membersOf c m.chain).map fun p => ⟨p.2.2, [], ((s.core p.2.2).hob hq).scales⟩ })
/-- Event: the accumulator writes of a row perform in every column at once; the flags go to the head's C (R71, R125). -/
def execAccumulatorRowWrite (c : CoreId) (hq : Fin 4) (id row : Nat) (s : State) : Host.Outcome State Fault Refusal :=
  .next (match s.cmd c hq id with
    | none => s
    | some m =>
      let ws := ((s.core c).hob hq).writes.filter fun w => w.cmd == id && w.row == row && !w.done
      let s := ws.foldl (fun s w => s.updCore w.core fun k => k.putRow w.acc m.pec w.words) s
      let s := s.updHob c hq fun b => { b with writes := b.writes.map fun w => if w.cmd = id ∧ w.row = row then { w with done := true } else w }
      let s := (s.updCmd c hq id fun m => { m with done := m.done + 1 }).endCmd c hq id
      s.raise c .c (orFlags (ws.map (·.flags))))
/-- Event: a drained row is written to its stream when it has its banks; otherwise that row alone is delayed (R71, R244). -/
def execDrainRowWrite (c : CoreId) (hq : Fin 4) (id row : Nat) (s : State) : Host.Outcome State Fault Refusal :=
  .next (match s.cmd c hq id with
    | none => s
    | some m =>
      let r := row % 1024
      let j := row / 1024
      if m.limit ≤ r then s
      else
        let e := m.epilogue c j
        let d := m.desc e
        let a := (d.row r).toNat
        match s.grant e (banksOf a d.rowBytes) with
        | none => s.laterOn (.dt (s.bidOf c)) 1 (drainPrio hq) (.ev (.drainRowWrite c hq id row))
        | some s =>
          let sc := ((m.bstate.find? fun x => x.core == e).map (·.scales)).getD (Vector.replicate 128 one32)
          let (bs, g) := m.drainRow e j r fun n => (sc.toList.getD (m.pec + n) one32).toNat
          let s := s.storeAt (.ls e) a bs
          ((s.updCmd c hq id fun m => { m with done := m.done + 1 }).endCmd c hq id).raise c .c g)
/-- A group of eight rows of an mzero is cleared on the epilogue members (R124, R246). -/
def State.zeroGroup (s : State) (c : CoreId) (hq : Fin 4) (id g : Nat) : State :=
  match s.cmd c hq id with
  | none => s
  | some m =>
    let rows := (List.range (min 8 (m.m - 8 * g))).map (m.row + 8 * g + ·)
    let s := (List.range m.w).foldl (fun s j => s.updCore (m.epilogue c j) fun k =>
      rows.foldl (fun k r => k.putRow r m.pec (List.replicate m.width 0)) k) s
    let s := (s.updCmd c hq id fun m => { m with done := m.done + 1 }).endCmd c hq id
    if m.m ≤ 8 * (g + 1) then s else s.laterOn (.dt (s.bidOf c)) 1 accWritePrio (.zeroRows c hq id (g + 1))

/-! ### Queued instructions (R241-R246) -/

/-- What an mloadb asks: the source image inside the shadow half, legal formats (R241). -/
def mloadbReq (q : Fin 4) (ofs : Nat) (fmt : Fmt) (wz csm : BitVec 2) (s : State) : Req :=
  let pos := s.mine.pos
  let deep := fmt == .f32 || fmt == .f64
  s.hobReq q fun r _ =>
    [faultIf (ofs % 64 ≠ 0 || decide (2 ^ 18 ≤ ofs) || decide (2 ^ 18 < ofs + (imageSize fmt wz.toNat csm.toNat r.height r.width).2)) (rangeFault pos 5 q.val),
     faultIf ((wz ≠ 0 && deep) || (wz == 2 && fmt == .e2m1) || (csm ≠ 0 && (deep || fmt == .s8 || fmt == .z8))) (rangeFault pos 6 q.val)]
/-- mloadb (R241). -/
def execMloadb (h : Hdr) (hq : BitVec 2) (a : XReg) (fmt : Fmt) (wz csm : BitVec 2) (imm : Word32) (s : State) :
    Host.Outcome State Fault Refusal :=
  let ofs := (s.reg a + immW imm).toNat
  issue h (mloadbReq (hqOf hq) ofs fmt wz csm s)
    (fun u s => s.accept u (hqOf hq) (s.newCmd u (hqOf hq) (.mloadb fmt wz.toNat csm.toNat ofs) 4 0 1 [])) s

/-- What an mma asks: its accumulator window, formats and streams (R242-R244). -/
def mmaReq (q : Fin 4) (a : QReg) (xb : Nat) (fmt : Fmt) (rs cs : Bool) (row : BitVec 10) (col : BitVec 7) (mm : BitVec 10) (s : State) : Req :=
  let pos := s.mine.pos
  let m := mm.toNat + 1
  let bf := ((s.core s.me.1).hob q).bfmt
  let narrow := fmt == .f32 || fmt == .f64 || fmt.isI
  s.hobReq q fun r ms =>
    let ds := (readers ms).map fun p => (s.core p.2).rq a
    (ds.map fun d => d.fault pos a true) ++
    [faultIf (windowBad r (fmt == .f64) xb (row.toNat + xb) m || col.toNat ≠ r.pec) (rangeFault pos 4 q.val),
     faultIf (!pairOk fmt bf || (narrow && (rs || cs)) || (rs && (ds.head?.map (·.smode)).getD 0 == 0) ||
       ds.any fun d => d.n0 ≠ r.height * kPer fmt || decide (d.n1 * d.n2 < m) || d.fmt ≠ fmt) (rangeFault pos 6 q.val)] ++
    (ds.zipIdx.map fun (d, i) => d.rowsFault pos m (rs && i == 0) false)
/-- mma (R242-R244). -/
def execMma (h : Hdr) (hq : BitVec 2) (a : QReg) (b : XReg) (fmt : Fmt) (rm : Rm) (rs cs : Bool) (row : BitVec 10) (col : BitVec 7)
    (mm : BitVec 10) (s : State) : Host.Outcome State Fault Refusal :=
  let xb := (s.reg b).toNat
  issue h (mmaReq (hqOf hq) a xb fmt rs cs row col mm s) (fun u s => s.accept u (hqOf hq) (s.newCmd u (hqOf hq) (.mma fmt rm rs cs) 10 (row.toNat + xb)
    (mm.toNat + 1) ((readers (membersOf u.c (s.core u.c).chain)).map fun p => (p.2, (s.core p.2).rq a)))) s

/-- The height of a core's chain (R133). -/
def Core.chainT (k : Core) : Nat := match k.chain with | some ch => ch.t | none => 1
/-- What an mdrain asks: its accumulator window, formats and streams (R244, R245). -/
def mdrainReq (q : Fin 4) (a : QReg) (xb : Nat) (fmt : Fmt) (rs : Bool) (row : BitVec 10) (col : BitVec 7) (mm : BitVec 10) (s : State) : Req :=
  let pos := s.mine.pos
  let m := mm.toNat + 1
  s.hobReq q fun r ms =>
    let ds := (epilogues (s.core s.me.1).chainT ms).map fun p => (s.core p.2).rq a
    (ds.map fun d => d.fault pos a true) ++
    [faultIf (windowBad r (fmt == .f64) xb (row.toNat + xb) m || col.toNat ≠ r.pec) (rangeFault pos 4 q.val),
     faultIf (ds.any fun d => (rs && d.smode == 0) || d.n0 ≠ r.width || decide (d.n1 * d.n2 < m)) (rangeFault pos 6 q.val)] ++
    (ds.map fun d => d.rowsFault pos m rs true)
/-- mdrain (R244, R245). -/
def execMdrain (h : Hdr) (hq : BitVec 2) (a : QReg) (b : XReg) (fmt : Fmt) (rm : Rm) (sat rs cs : Bool) (row : BitVec 10)
    (col : BitVec 7) (mm : BitVec 10) (s : State) : Host.Outcome State Fault Refusal :=
  let xb := (s.reg b).toNat
  issue h (mdrainReq (hqOf hq) a xb fmt rs row col mm s) (fun u s => s.accept u (hqOf hq) (s.newCmd u (hqOf hq) (.mdrain fmt rm sat rs cs) 4 (row.toNat + xb)
    (mm.toNat + 1) ((epilogues (s.core u.c).chainT (membersOf u.c (s.core u.c).chain)).map fun p => (p.2, (s.core p.2).rq a)))) s

/-- What an mzero asks: its accumulator window (R246). -/
def mzeroReq (q : Fin 4) (xb : Nat) (row nn : BitVec 10) (s : State) : Req :=
  s.hobReq q fun r _ => [faultIf (windowBad r false xb (row.toNat + xb) (nn.toNat + 1)) (rangeFault s.mine.pos 4 q.val)]
/-- mzero (R246). -/
def execMzero (h : Hdr) (hq : BitVec 2) (b : XReg) (row nn : BitVec 10) (s : State) : Host.Outcome State Fault Refusal :=
  let xb := (s.reg b).toNat
  issue h (mzeroReq (hqOf hq) xb row nn s) (fun u s => s.accept u (hqOf hq) (s.newCmd u (hqOf hq) .mzero 4 (row.toNat + xb) (nn.toNat + 1) [])) s

/-! ### Weight-buffer swap (R136, R247) -/

/-- A preload that reads the active half of a core in the present cycle: hob and position (R247). -/
def State.preloading (s : State) (c : CoreId) : Option (Nat × Nat) :=
  let d := s.dt c
  let k := s.core ((s.core c).lead c)
  ((List.finRange 4).filterMap fun hq => ((k.hob hq).cmds.find? fun m => match m.op, m.t0 with
    | .mloadb _ _ _ _, some t => decide (t ≤ d) && decide (d < t + m.tall)
    | _, _ => false).map fun m => (hq.val, m.pos)).head?
/-- wswap: the halves exchange at the end of the issue cycle (R78, R247). -/
def execWswap (h : Hdr) (s : State) : Host.Outcome State Fault Refusal :=
  issue h { legal := [.c], busy := (s.preloading s.me.1).map fun p => (4, BitVec.ofNat 64 p.1, 16 * p.2 + 2), needs := true } (fun u s =>
    (s.laterOn (.dt (s.bidOf u.c)) 0 (latePrio + 1) (.wswap u.c)).pushNow u) s

/-! ### Reshaping and chains (R137-R140, R239, R240, R376) -/

/-- A command that keeps a reshape from being drained (R138). -/
def HobCmd.undrained (m : HobCmd) : Bool := !m.started || (match m.op with | .mdrain _ _ _ _ _ => false | _ => true)
/-- The first command that keeps a core's reshape from being drained: hob and position (R138). -/
def State.undrained (s : State) (c : CoreId) : Option (Nat × Nat) :=
  let k := s.core ((s.core c).lead c)
  ((List.finRange 4).filterMap fun hq => ((k.hob hq).cmds.find? HobCmd.undrained).map fun m => (hq.val, m.pos)).head?
/-- Bands of an island that use its high rail, or are to join it once they kindle (R376). -/
def State.highBands (s : State) (isl : Fin 64) : Nat :=
  ((List.finRange 256).filter fun c => islandOf c == isl).foldl (fun n c =>
    n + ((List.range 4).filter fun b => bandState (s.core c).rail b == 2).length) 0
/-- Band states are set one band after another; a HIGH band takes the low rail when 12 bands of its island are on the high one
(R376). -/
def State.setBands (s : State) (c : CoreId) (bps : BitVec 8) : State :=
  (List.range 4).foldl (fun s b =>
    let old := (s.core c).rail
    let cleared := old &&& ~~~(BitVec.ofNat 8 (3 * 4 ^ b))
    let s := s.updCore c fun k => { k with rail := cleared }
    let st := bandState bps b
    let r := if st = 2 ∧ 12 ≤ s.highBands (islandOf c) then 1 else st
    s.updCore c fun k => { k with rail := cleared ||| BitVec.ofNat 8 (r * 4 ^ b) }) (s.updCore c fun k => { k with bps := bps })
/-- B registers +0, column scales 1.0, no recorded B format (R139, R239, R240). -/
def Core.resetB (k : Core) : Core :=
  { k with breg := [], csm := 0, hobs := k.hobs.map fun b => { b with bfmt := none, scales := Vector.replicate 128 one32 } }
/-- The bands that a reshape powers up, ascending, with the DT from which each kindles: one after another, 2,250 cycles each (R139, R377). That the
first kindles from the issue, and uses its rail from then on, is the model's choice (DESIGN CHOICE, log entry 60). -/
def kindleFrom (old bps : BitVec 8) (dt : Nat) : List (Nat × Nat) :=
  ((List.range 4).filter fun b => bandState old b == 0 && bandState bps b != 0).zipIdx.map fun b => (b.1, dt + 2250 * b.2)
/-- A reshape issued now (R138, R139, R239, R377). -/
def State.reshape (s : State) (c : CoreId) (cut : BitVec 3) (bps : BitVec 8) : State :=
  let up := kindleFrom (s.core c).bps bps (s.dt c)
  let fin := s.dt c + 96 + 2250 * up.length
  let s := s.setBands c bps
  s.updCore c fun k => { k.resetB with cut := cut, reshape := some fin, startFrom := fin, chain := none, kindling := up }
/-- A chain formed or dissolved now on a member (R240). -/
def State.rechain (s : State) (c : CoreId) (h : Option Chain) : State :=
  let fin := s.dt c + 96
  s.updCore c fun k => { k.resetB with chain := h, chaining := some fin, startFrom := fin }

/-- The wait of hcut: what keeps the reshape from being drained, or the reshape in progress, for which the manual names no hob or command and the
model records 0 and position 0 (R138, R239; DESIGN CHOICE, log entry 51). -/
def State.cutBusy (s : State) (c : CoreId) : Option (Nat × Word × Nat) :=
  match s.undrained c with
  | some (hq, pos) => some (4, BitVec.ofNat 64 hq, 16 * pos + 2)
  | none => if (s.core c).reshape.isSome then some (4, 0, 2) else none
/-- A core asks for a change of its chain, which the end of the cycle judges (R140). -/
def State.askChain (s : State) (u : Turn) (r : Bool × CoreId × Nat × Nat × BitVec 8 × BitVec 3) : State :=
  let s := s.updCore u.c fun k => { k with chainReq := some r }
  (s.waitFor u .chain 0 false 0).laterOn (.dt (s.bidOf u.c)) 0 (effects + 48) (.chainJudge u.c)
/-- What an hcut does: alone, the reshape starts; on a chain, the other members must dissolve it in the same cycle (R138, R140, R239). -/
def hcutEffect (cut : BitVec 3) (bps : BitVec 8) (u : Turn) (s : State) : State :=
  match (s.core u.c).chain with
  | none => (s.reshape u.c cut bps).pushNow u
  | some ch => s.askChain u (true, ch.head, ch.t, ch.w, bps, cut)
/-- hcut (R138, R140, R239). Where R138 lets it wait until its core is drained and R140 raises kind 3 on a chain that is not, the model waits
(DESIGN CHOICE, log entry 51). -/
def execHcut (h : Hdr) (cut : BitVec 3) (bps : BitVec 8) (s : State) : Host.Outcome State Fault Refusal :=
  issue h { legal := [.c], busy := s.cutBusy s.me.1, needs := true } (hcutEffect cut bps) s

/-- The conditions of R140 and R240 on one member for the shape it names; (1, 1) dissolves. -/
def State.chainOk (s : State) (c : CoreId) (head t w : Nat) : Bool :=
  let k := s.core c
  let drained := (s.undrained c).isNone && k.reshape.isNone
  if t = 1 ∧ w = 1 then k.chain.isSome && drained
  else
    let l0 := head / 64
    let x0 := head % 8
    let ch : Chain := ⟨coreId head, t, w⟩
    k.chain.isNone && drained && decide (l0 + t ≤ 4) && decide (x0 + w ≤ 8) && decide (t * w ≤ 8) && k.cut == 0 &&
      (List.range 4).all (fun b => bandState k.bps b != 0) && (chainMembers ch).any (fun m => m.2.2 == c) &&
      (chainMembers ch).all (fun m => s.member c m.2.2)
/-- What an hchain does: it forms or dissolves a chain with the other members' hchain of the same cycle (R140, R240). -/
def hchainEffect (head : BitVec 8) (t w : Nat) (u : Turn) (s : State) : State :=
  s.askChain u (false, (match (s.core u.c).chain with | some ch => ch.head | none => coreId head.toNat), t, w, 0, 0)
/-- hchain (R140, R240). -/
def execHchain (h : Hdr) (lt lw : BitVec 2) (head : BitVec 8) (s : State) : Host.Outcome State Fault Refusal :=
  let t := 2 ^ lt.toNat
  let w := 2 ^ lw.toNat
  issue h { legal := [.c], fault := faultIf (!s.chainOk s.me.1 head.toNat t w) (rangeFault s.mine.pos 3 0) } (hchainEffect head t w) s

/-- The members that must act together with a core's request: those of its present chain, or of the one it forms. -/
def Core.partners (k : Core) (c : CoreId) : List CoreId :=
  match k.chain, k.chainReq with
  | some ch, _ => (chainMembers ch).map (·.2.2)
  | none, some (_, hd, t, w, _, _) => (chainMembers ⟨hd, t, w⟩).map (·.2.2)
  | none, none => [c]
/-- Two requests agree: to dissolve, in either form, or to form the same chain (R140). -/
def agrees (chained : Bool) (a b : Option (Bool × CoreId × Nat × Nat × BitVec 8 × BitVec 3)) : Bool :=
  match a, b with
  | some _, some _ => chained || a == b
  | _, _ => false
/-- At the end of its issue cycle, a chain request takes effect on every member, or raises kind 3 on those that issued (R140). A
fault of kind 3 names no hob: HQ is recorded as 0 (DESIGN CHOICE, log entry 51). -/
def State.judgeChain (s : State) (c : CoreId) : State :=
  let k := s.core c
  match k.chainReq with
  | none => s
  | some req =>
    let ms := k.partners c
    if ms.all fun m => agrees k.chain.isSome (some req) (s.core m).chainReq && decide ((s.core m).chain = k.chain) then
      ms.foldl (fun s m =>
        let s := match (s.core m).chainReq with
          | some (true, _, _, _, bps, cut) => s.reshape m cut bps
          | some (false, hd, t, w, _, _) => s.rechain m (if t = 1 ∧ w = 1 then none else some ⟨hd, t, w⟩)
          | none => s
        (s.updCore m fun k => { k with chainReq := none }).endWait m .c 0) s
    else
      let pos := match (s.strand c .c).wait with | some w => w.pos | none => (s.strand c .c).pos
      (s.updCore c fun k => { k with chainReq := none }).trap c .c (rangeFault pos 3 0)

/-- The reshape of a core is complete (R139). -/
def State.reshaped (s : State) (c : CoreId) : Bool := match (s.core c).reshape with | some d => decide (d ≤ s.dt c) | none => false
/-- The chain change of a core is complete (R140). -/
def State.chained (s : State) (c : CoreId) : Bool := match (s.core c).chaining with | some d => decide (d ≤ s.dt c) | none => false
/-- Event: a reshape completes (R139). -/
def execReshapeComplete (s : State) : Host.Outcome State Fault Refusal :=
  .next (match (List.finRange 256).find? s.reshaped with
    | some c => s.updCore c fun k => { k with reshape := none, kindling := [] }
    | none => s)
/-- Event: a chain's change is complete (R140, R240). -/
def execChainReady (s : State) : Host.Outcome State Fault Refusal :=
  .next (match (List.finRange 256).find? s.chained with
    | some c => s.updCore c fun k => { k with chaining := none }
    | none => s)

end Sys2Proof.Machine
end

