-- ==== Sys2Proof/Machine/VectorConvert.lean ====
section
/-! DEFINITION. Vector conversions, scaled conversions and reductions (R229, R230). -/

namespace Sys2Proof.Machine

/-! ### Conversions (R229) -/

/-- The moves of a conversion between element widths: (destination element, source element) (R229). -/
def partMoves (sw dw part : Nat) : List (Nat × Nat) :=
  if dw < sw then (List.range (2048 / sw)).map fun j => (part * (2048 / sw) + j, j)
  else (List.range (2048 / dw)).map fun j => (j, if sw < dw then part * (2048 / dw) + j else j)
/-- Moves elements of a source register through a conversion into the enabled destination elements (R229). -/
def vConv (h : Hdr) (d a : VReg) (k : KReg) (sf df : Fmt) (rm : Rm) (part lat : Nat) (op : Nat → Nat → Nat → Nat × Flg)
    (s : State) : Host.Outcome State Fault Refusal :=
  let va := s.vec a
  let m := s.msk k
  let moves := (partMoves sf.bits df.bits part).filter fun p => enabled m df p.1
  vElems h d df.bits (moves.map (·.1)) rm lat (fun j r =>
    let i := (assocGet moves j).getD 0
    op i r (elem va sf i)) s

/-- vcvt (R229). -/
def execVcvt (h : Hdr) (d a : VReg) (k : KReg) (sfmt dfmt : Fmt) (rm : Rm) (sat : Bool) (part : BitVec 4) (s : State) :
    Host.Outcome State Fault Refusal :=
  vConv h d a k sfmt dfmt rm part.toNat 3 (fun _ r v => convert sfmt dfmt rm r sat v) s

/-- The scale of source element i: an e8m0 byte or an f32 word of v[B] (R229). -/
def scaleOf (vb : VecData) (sb : Nat) (sf : Bool) (i : Nat) : Num :=
  let k := i / 2 ^ sb
  if sf then floatValue .f32 (elem vb .f32 k) else e8m0Value (elem vb .z8 k)
/-- A scaled conversion: the exact product of value and scale, converted once; an integer under the scale 1.0 converts as an
integer (R55, R62, R229). -/
def scaledConvert (sf df : Fmt) (rm : Rm) (r : Nat) (sat : Bool) (scale : Num) (v : Nat) : Nat × Flg :=
  if sf.isI && df.isI && scale.eq (.fin false 1 1) then convert sf df rm r sat v
  else toFmt df rm r sat ((numValue sf v).mul scale)
/-- vqnt and vdqnt share their conversion (R229). -/
def vScaled (h : Hdr) (d a b : VReg) (k : KReg) (sfmt dfmt : Fmt) (rm : Rm) (sat : Bool) (sb : BitVec 4) (sf : Bool)
    (part : BitVec 4) (s : State) : Host.Outcome State Fault Refusal :=
  let vb := s.vec b
  vConv h d a k sfmt dfmt rm part.toNat 4 (fun i r v => scaledConvert sfmt dfmt rm r sat (scaleOf vb sb.toNat sf i) v) s

/-- vqnt (R229). -/
def execVqnt (h : Hdr) (d a b : VReg) (k : KReg) (sfmt dfmt : Fmt) (rm : Rm) (sat : Bool) (sb : BitVec 4) (sf : Bool)
    (part : BitVec 4) (s : State) : Host.Outcome State Fault Refusal :=
  vScaled h d a b k sfmt dfmt rm sat sb sf part s

/-- vdqnt (R229). -/
def execVdqnt (h : Hdr) (d a b : VReg) (k : KReg) (sfmt dfmt : Fmt) (rm : Rm) (sat : Bool) (sb : BitVec 4) (sf : Bool)
    (part : BitVec 4) (s : State) : Host.Outcome State Fault Refusal :=
  vScaled h d a b k sfmt dfmt rm sat sb sf part s

/-! ### Reductions (R230) -/

/-- Writes element 0 of v[D] with its flags, at issue + 8 (R214, R230). -/
def vRed (h : Hdr) (d : VReg) (df : Fmt) (rm : Rm) (op : Nat → Nat × Flg) (s : State) : Host.Outcome State Fault Refusal :=
  vElems h d df.bits [0] rm 8 (fun _ r => op r) s
/-- The terms of a reduction: the enabled elements of v[A]. -/
def redTerms (va : VecData) (m : MaskData) (f : Fmt) : List Nat := (enabledElems m f).map (elem va f)
/-- The sum of a reduction; without terms, b0 unchanged (R230). -/
def redSum (f df : Fmt) (rm : Rm) (sat : Bool) (r b0 : Nat) (ts : List Nat) : Nat × Flg :=
  match ts with
  | [] => (b0, 0)
  | _ =>
    if df.isI then fitInt df sat ((ts.map (intValue f)).foldl (· + ·) (intValue df b0))
    else roundTo df rm r false (.sum rm (floatValue df b0 :: ts.map (floatValue f)))

/-- vredadd: one rounding of the exact sum (R218, R230). -/
def execVredadd (h : Hdr) (d a b : VReg) (k : KReg) (fmt dfmt : Fmt) (rm : Rm) (sat : Bool) (s : State) :
    Host.Outcome State Fault Refusal :=
  let ts := redTerms (s.vec a) (s.msk k) fmt
  let b0 := elem (s.vec b) dfmt 0
  vRed h d dfmt rm (fun r => redSum fmt dfmt rm sat r b0 ts) s

/-- The bits in DFMT of an element of FMT: exact, a NaN for a NaV (R230). -/
def widen (f df : Fmt) (v : Nat) : Nat := if f = df then v else (convert f df .rne 0 false v).1
/-- The greatest or least of b0 and the terms, in DFMT; any NaN gives the default NaN and IV (R230). -/
def redPick (f df : Fmt) (greater : Bool) (b0 : Nat) (ts : List Nat) : Nat × Flg :=
  match ts with
  | [] => (b0, 0)
  | _ =>
    let ws := b0 :: ts.map (widen f df)
    if ws.any fun w => (numValue df w).isNan then (defaultNan df, fIV)
    else (ts.map (widen f df)).foldl (fun p w => pickElem df greater p.1 w) (b0, 0)

/-- vredmax (R230). -/
def execVredmax (h : Hdr) (d a b : VReg) (k : KReg) (fmt dfmt : Fmt) (s : State) : Host.Outcome State Fault Refusal :=
  let ts := redTerms (s.vec a) (s.msk k) fmt
  let b0 := elem (s.vec b) dfmt 0
  vRed h d dfmt .rne (fun _ => redPick fmt dfmt true b0 ts) s

/-- vredmin (R230). -/
def execVredmin (h : Hdr) (d a b : VReg) (k : KReg) (fmt dfmt : Fmt) (s : State) : Host.Outcome State Fault Refusal :=
  let ts := redTerms (s.vec a) (s.msk k) fmt
  let b0 := elem (s.vec b) dfmt 0
  vRed h d dfmt .rne (fun _ => redPick fmt dfmt false b0 ts) s

end Sys2Proof.Machine
end

