-- ==== Sys2Proof/Machine/NearMem.lean ====
section
/-! DEFINITION. Near-memory groups: their checks, commands and ends, the shadow rows and their commit, the channel's budgets, and
the task instructions (R115, R249-R273). -/

namespace Sys2Proof.Machine

/-! ### Stokers and groups -/

/-- Changes a stoker's running group. -/
def State.updGroup (s : State) (sk : Fin 384) (f : Group → Group) : State := s.updStoker sk fun t => { t with group := t.group.map f }

/-- Word 4 of a group's header (R251). -/
def word4 (status cmdix : Nat) (flags : Flg) (ce : Nat) : Word :=
  BitVec.ofNat 64 (min ce (2 ^ 32 - 1) * 2 ^ 32 + cmdix % 64 * 2 ^ 16 + flags.toNat * 2 ^ 8 + status)
/-- Sets ERR of a semaphore where it is 0; the waiters and the queued records are tested again (R254, R255, R313). -/
def State.setErr (s : State) (sem status : Nat) : State :=
  let w := s.gm.word sem
  if Word.bits w 32 8 ≠ 0 then s else (s.storeAt .gm sem (leBytes 8 (Word.bits w 0 32 + status * 2 ^ 32))).retestRecords
/-- Schedules a stoker's next group at a tick that is not exposed (R250). -/
def State.startNext (s : State) (sk : Fin 384) : State :=
  let t := s.stoker sk
  if t.group.isNone && !t.queue.isEmpty && !t.halt && !t.stopped then s.sometime (.ev (.groupStart sk)) effects else s
/-- A group ends: word 4, then, unless the status is OK, its semaphore; the monitors record its stoker cycles; the next group may start (R254, R388). -/
def State.endGroup (s : State) (sk : Fin 384) (ref : GroupRef) (status cmdix : Nat) (flags : Flg) (ce : Nat) (sem : Option Nat) : State :=
  let s := s.updStoker sk fun t => { t with group := none, tenure := [] }
  let s := s.capture ref.core 7 none ((s.hc - ref.hc) * 5 / 9)
  let s := s.storeAt .gm (ref.pa + 32) (leBytes 8 (word4 status cmdix flags ce).toNat)
  let s := match sem with | some p => if status = 0 then s else s.setErr p status | none => s
  s.startNext sk
/-- A running group ends at the command it stands at. -/
def State.endRunning (s : State) (sk : Fin 384) (g : Group) (status : Nat) : State :=
  s.endGroup sk g.ref status (g.next - 1) g.flags g.ce (some g.sem)

/-! ### The checks before a group runs (R251-R253) -/

/-- Field of a command. -/
abbrev fld := bitsAt
/-- The format of a field. -/
def fmtAt (v lo : Nat) : Fmt := .ofCode (BitVec.ofNat 4 (bitsAt v lo 4))
/-- The operand pages of a group: physical bases. -/
structure Pages where
  p0 : Nat
  p1 : Option Nat
  deriving DecidableEq, Repr
/-- The failures of an operand of `n` bytes: an absent page, an extent past its end (R252, R253). -/
def Pages.codes (g : Pages) (addr n : Nat) : List Nat :=
  (if addr / 2 ^ 21 % 2 = 1 ∧ g.p1.isNone then [4] else []) ++ (if 2 ^ 21 < addr % 2 ^ 21 + n then [1] else [])
/-- The physical address of an operand (R252). -/
def Pages.pa (g : Pages) (addr : Nat) : Nat := (if addr / 2 ^ 21 % 2 = 1 then g.p1.getD 0 else g.p0) + addr % 2 ^ 21
/-- The page offset of an engine-local address (R256). -/
def engineOfs (g l : Nat) : Nat := bitsAt l 13 5 * 65536 + g * 8192 + l % 8192
/-- A failure under a condition. -/
def codeIf (b : Bool) (c : Nat) : List Nat := if b then [c] else []
/-- Bytes of `n` packed elements. -/
def packedBytes (f : Fmt) (n : Nat) : Nat := (n * f.bits + 7) / 8
/-- Bytes of a scale mode. -/
def scaleBytes (m : Nat) : Nat := if m = 0 then 0 else if m = 1 then 1 else 4

/-- The fields of a GEMV (R258, R259). -/
structure GemvCmd where
  fa : Fmt
  fx : Fmt
  acc : Bool
  sma : Nat
  smx : Nat
  kseg : Nat
  ne : Nat
  gb : Nat
  m : Nat
  k : Nat
  aloc : Nat
  apg : Nat
  x : Nat
  y : Nat
  deriving DecidableEq, Repr
/-- Decodes a GEMV. -/
def gemvOf (v : Nat) : GemvCmd :=
  { fa := fmtAt v 4, fx := fmtAt v 8, acc := v.testBit 12, sma := fld v 13 2, smx := fld v 15 2
    kseg := blockRows (fmtAt v 4) * (fld v 17 4 + 1), ne := 2 ^ fld v 21 2, gb := fld v 23 3, m := fld v 26 11 + 1, k := fld v 37 11 + 1
    aloc := fld v 64 18, apg := fld v 82 1, x := fld v 83 22, y := fld v 105 22 }
/-- NC of a GEMV (R259). -/
def GemvCmd.nc (c : GemvCmd) : Nat := (c.k + c.kseg - 1) / c.kseg
/-- Offset of the scales of a matrix row, and RB (R257). -/
def GemvCmd.rowSize (c : GemvCmd) : Nat × Nat :=
  let e := align64 (packedBytes c.fa c.k)
  (e, if c.sma = 0 then e else e + align64 (c.nc * scaleBytes c.sma))
/-- Formats of the range's pairs without f32 and f64 (R242, R259). -/
def gemvPair (a x : Fmt) : Bool := pairOk a (some x) && (a == .bf16 || a == .f16 || a.isP || a == .s8 || a == .z8)
/-- Failures of a GEMV (R253, R259). -/
def gemvCodes (p : Pages) (v : Nat) : List Nat :=
  let c := gemvOf v
  let xn := if c.smx = 0 then packedBytes c.fx c.k else align64 (packedBytes c.fx c.k) + c.nc * scaleBytes c.smx
  codeIf (c.sma == 3 || c.smx == 3 || fld v 48 16 ≠ 0 || v.testBit 127 || !gemvPair c.fa c.fx || decide (8 < c.gb + c.ne) ||
    c.aloc % 64 ≠ 0 || c.y % 4 ≠ 0 || (c.fa.isI && (c.sma ≠ 0 || c.smx ≠ 0))) 2 ++
  codeIf (decide (0x40000 < c.aloc + (c.m + c.ne - 1) / c.ne * c.rowSize.2)) 1 ++ codeIf (c.apg == 1 && p.p1.isNone) 4 ++
  p.codes c.x xn ++ p.codes c.y (4 * c.m)

/-- The fields of a REDUCE (R258, R260). -/
structure ReduceCmd where
  f : Fmt
  acc : Bool
  op : Nat
  n : Nat
  nv : Nat
  x : Nat
  y : Nat
  stride : Nat
  deriving DecidableEq, Repr
/-- Decodes a REDUCE. -/
def reduceOf (v : Nat) : ReduceCmd :=
  { f := fmtAt v 4, acc := v.testBit 8, op := fld v 9 2, n := fld v 11 11 + 1, nv := fld v 22 10 + 1, x := fld v 64 22, y := fld v 86 22
    stride := 64 * fld v 108 20 }
/-- Input formats of REDUCE. -/
def reduceFmt (f : Fmt) : Bool :=
  match f with
  | .f32 | .bf16 | .f16 | .e4m3 | .e5m2 | .t8 | .s8 | .s16 | .s32 | .z8 | .z16 => true
  | _ => false
/-- Failures of a REDUCE (R253, R260). -/
def reduceCodes (p : Pages) (v : Nat) : List Nat :=
  let c := reduceOf v
  codeIf (fld v 32 32 ≠ 0 || c.op == 3 || !reduceFmt c.f) 2 ++ p.codes c.x (c.stride * (c.nv - 1) + packedBytes c.f c.n) ++ p.codes c.y (4 * c.n)

/-- The fields of a MAP (R258, R261). -/
structure MapCmd where
  fi : Fmt
  fo : Fmt
  rm : Rm
  sat : Bool
  n : Nat
  ops : List Nat
  a : Nat
  b : Nat
  c : Nat
  y : Nat
  k0 : Nat
  k1 : Nat
  deriving DecidableEq, Repr
/-- Decodes a MAP. -/
def mapOf (v : Nat) : MapCmd :=
  { fi := fmtAt v 4, fo := fmtAt v 8, rm := (Rm.ofCode (BitVec.ofNat 3 (fld v 12 3))).getD .rne, sat := v.testBit 15, n := fld v 16 11 + 1
    ops := (List.range (fld v 27 5)).map fun i => fld v (256 + 6 * i) 6, a := fld v 64 22, b := fld v 86 22, c := fld v 128 22
    y := fld v 150 22, k0 := fld v 192 32, k1 := fld v 224 32 }
/-- Input formats of MAP. -/
def mapFmt (f : Fmt) : Bool :=
  match f with
  | .f32 | .bf16 | .f16 | .e4m3 | .e5m2 | .t8 | .e2m1 | .s8 | .s16 | .z8 | .z16 => true
  | _ => false
/-- Values that an operator takes from the stack and leaves on it; none when unassigned (R261). -/
def opArity (op : Nat) : Option (Nat × Nat) :=
  if 1 ≤ op ∧ op ≤ 8 then some (0, 1)
  else if op = 0x09 then some (1, 2)
  else if op = 0x0A then some (2, 2)
  else if op = 0x0B then some (1, 0)
  else if op = 0x0C then some (2, 3)
  else if 0x10 ≤ op ∧ op ≤ 0x15 then some (2, 1)
  else if op = 0x16 then some (3, 1)
  else if 0x18 ≤ op ∧ op ≤ 0x24 then some (1, 1)
  else if op = 0x28 then some (3, 1)
  else if op = 0x29 ∨ op = 0x2A then some (2, 1)
  else if op = 0x2B then some (1, 1)
  else if op = 0x2C then some (3, 1)
  else none
/-- The stack never leaves 0 to 4 and ends at 1 (R261). -/
def depthOk : List Nat → Nat → Bool
  | [], d => d == 1
  | op :: ops, d => match opArity op with
    | none => false
    | some (i, o) => decide (i ≤ d) && decide (d - i + o ≤ 4) && depthOk ops (d - i + o)
/-- Failures of a MAP of 512 bits (R253, R261). -/
def mapCodes (p : Pages) (v : Nat) : List Nat :=
  let c := mapOf v
  let nops := fld v 27 5
  let inp (op addr : Nat) : List Nat := if c.ops.contains op then p.codes addr (packedBytes c.fi c.n) else []
  codeIf (!mapFmt c.fi || decide (4 < fld v 12 3) || nops == 0 || decide (24 < nops) || fld v 32 32 ≠ 0 || fld v 108 20 ≠ 0 ||
    fld v 172 20 ≠ 0 || fld v 400 112 ≠ 0 || fld v (256 + 6 * nops) (6 * (24 - nops)) ≠ 0) 2 ++
  codeIf (!depthOk c.ops 0) 3 ++ inp 1 c.a ++ inp 2 c.b ++ inp 3 c.c ++ p.codes c.y (packedBytes c.fo c.n)

/-- The fields of an NCOPY (R258, R262). -/
structure NcopyCmd where
  nb : Nat
  nr : Nat
  ss : Nat
  ds : Nat
  s : Nat
  d : Nat
  deriving DecidableEq, Repr
/-- Decodes an NCOPY. -/
def ncopyOf (v : Nat) : NcopyCmd := ⟨fld v 4 12 + 1, fld v 16 12 + 1, fld v 28 18, fld v 46 18, fld v 64 22, fld v 86 22⟩
/-- Failures of an NCOPY (R253, R262). -/
def ncopyCodes (p : Pages) (v : Nat) : List Nat :=
  let c := ncopyOf v
  codeIf (fld v 108 20 ≠ 0) 2 ++ p.codes c.s (c.ss * (c.nr - 1) + c.nb) ++ p.codes c.d (c.ds * (c.nr - 1) + c.nb)

/-- The semaphore address of SEMWAIT and SEMPOST (R263). -/
def semAddr (v : Nat) : Nat := fld v 64 48
/-- A page of a group: its physical base, or XLATE, NOTCC, CHAN in that order (R253). -/
def State.groupPage (s : State) (asid : Nat) (sk : Fin 384) (va : Nat) : Except Nat Nat :=
  if 2 ^ 48 ≤ va then .error 6
  else match s.hit none asid (s.root asid) false true va .read with
    | .pa p l =>
      if l.bits ≠ 21 ∨ !ePin l.entry ∨ !eCC l.entry then .error 4
      else if channelOf s.boot.stripesP p ≠ sk then .error 5
      else .ok p
    | _ => .error 6
/-- The physical address of a semaphore, if it translates. -/
def State.semPa (s : State) (asid va : Nat) : Option Nat := if 2 ^ 48 ≤ va then none else s.asidPa asid va .read
/-- Failures of one slot (R253, R258, R263); `v` holds 512 bits for a MAP. -/
def State.slotCodes (s : State) (asid : Nat) (p : Pages) (v : Nat) (room : Bool) : List Nat :=
  match fld v 0 4 with
  | 0 => gemvCodes p v
  | 1 => reduceCodes p v
  | 2 => if room then mapCodes p v else [2]
  | 3 => ncopyCodes p v
  | 4 => codeIf (fld v 112 16 ≠ 0 || semAddr v % 16 ≠ 0) 2 ++ codeIf (s.semPa asid (semAddr v)).isNone 6
  | 5 => codeIf (fld v 36 28 ≠ 0 || fld v 112 16 ≠ 0 || semAddr v % 16 ≠ 0) 2 ++ codeIf (s.semPa asid (semAddr v)).isNone 6
  | 6 | 7 | 8 => codeIf (fld v 4 124 ≠ 0) 2
  | _ => [2]
/-- The value of a command: its slot, with the three after it for a MAP. -/
def cmdBits (slots : List (BitVec 128)) (i : Nat) : Nat :=
  let w (j : Nat) : Nat := ((slots[i + j]?).getD 0).toNat
  if fld (w 0) 0 4 = 2 then w 0 + 2 ^ 128 * w 1 + 2 ^ 256 * w 2 + 2 ^ 384 * w 3 else w 0
/-- Slots of a command. -/
def cmdSlots (v : Nat) : Nat := if fld v 0 4 = 2 then 4 else 1
/-- The first failing slot in ascending order, with its lowest code (R253). -/
def State.slotsCheck (s : State) (asid : Nat) (p : Pages) (slots : List (BitVec 128)) : Nat → Nat → Option (Nat × Nat)
  | 0, _ => none
  | fuel + 1, i =>
    if slots.length ≤ i then none
    else
      let v := cmdBits slots i
      match (s.slotCodes asid p v (decide (i + 4 ≤ slots.length))).min? with
      | some c => some (c, i)
      | none => s.slotsCheck asid p slots fuel (i + cmdSlots v)
/-- The header is well formed (R251). -/
def headerOk (hdr : Nat) (w : Nat → Word) : Bool :=
  let n := Word.bits (w 0) 8 6
  Word.bits (w 0) 0 8 == 1 && n != 0 && Word.bits (w 0) 14 50 == 0 && w 5 == 0 && w 6 == 0 && w 7 == 0 &&
    (w 1).toNat % 2 ^ 21 == 0 && (w 2).toNat % 2 ^ 21 == 0 && (w 3).toNat % 16 == 0 && decide (hdr % 65536 + 64 + 16 * n ≤ 65536)
/-- The bytes of a group's image that its stoker asks for: the header, and the slots that a well-formed one names (R251). -/
def State.imageAddrs (s : State) (ref : GroupRef) : List Nat :=
  let w (i : Nat) : Word := s.gm.word (ref.pa + 8 * i)
  (List.range (64 + (if headerOk ref.hdr w then 16 * Word.bits (w 0) 8 6 else 0))).map (ref.pa + ·)
/-- What the stoker finds in bytes of a group's image or a semaphore that its channel has served: corrected errors are counted on its channel; their number, and whether an
uncorrectable one, of which the Librarian hears, forbids their use (R271). -/
def State.stokerRead (s : State) (sk : Fin 384) (bid : Nat) (as : List Nat) : State × Nat × Bool :=
  let ce := s.correctedIn as
  let s := (s.countCorrected 6 ce).updStoker sk fun t => { t with ecc := t.ecc + ce }
  match s.badGm as with
  | some a => (s.errorRecord 6 a bid sk.val, ce, true)
  | none => (s, ce, false)
/-- Consecutive addresses. -/
def span (a n : Nat) : List Nat := (List.range n).map (a + ·)
/-- The semaphores that commands name, translated (R253). -/
def State.cmdSems (s : State) (asid : Nat) (slots : List (BitVec 128)) : List (Nat × Nat) :=
  slots.filterMap fun v => if fld v.toNat 0 4 = 4 ∨ fld v.toNat 0 4 = 5 then (s.semPa asid (semAddr v.toNat)).map fun p => (semAddr v.toNat, p) else none
/-- The group that a header describes, or its status, CMDIX, semaphore and corrected errors (R253, R271). The checks that read the header come first; its
translations are sampled now (R254, R330). -/
def State.judgeGroup (s : State) (sk : Fin 384) (ref : GroupRef) : State × Except (Nat × Nat × Option Nat × Nat) Group :=
  let asid := ((s.binding ref.bid).map (·.asid)).getD 0
  let w (i : Nat) : Word := s.gm.word (ref.pa + 8 * i)
  match s.stokerRead sk ref.bid (span ref.pa 64) with
  | (s, ce, true) => (s, .error (9, 63, none, ce))
  | (s, ce, false) =>
  let semV := (w 3).toNat
  let sem := if semV % 16 = 0 then s.semPa asid semV else none
  if !headerOk ref.hdr w then (s, .error (2, 63, sem, ce))
  else match s.groupPage asid sk (w 1).toNat with
    | .error c => (s, .error (c, 63, sem, ce))
    | .ok p0 =>
      match (if w 2 = 0 then (.ok none : Except Nat (Option Nat)) else (s.groupPage asid sk (w 2).toNat).map some) with
      | .error c => (s, .error (c, 63, sem, ce))
      | .ok p1 =>
        match sem with
        | none => (s, .error (6, 63, none, ce))
        | some sp =>
          let n := Word.bits (w 0) 8 6
          let slots := (List.range n).map fun i => s.gm.word (ref.pa + 64 + 16 * i + 8) ++ s.gm.word (ref.pa + 64 + 16 * i)
          let lost := (List.range n).find? fun i => (s.badGm [ref.pa + 64 + 16 * i]).isSome
          match s.stokerRead sk ref.bid (span (ref.pa + 64) (16 * n)) with
          | (s, ce', true) => (s, .error (9, lost.getD 0, some sp, ce + ce'))
          | (s, ce', false) =>
          match s.slotsCheck asid ⟨p0, p1⟩ slots n 0 with
          | some (c, i) => (s, .error (c, i, some sp, ce + ce'))
          | none =>
            let sems := s.cmdSems asid slots
            (s, .ok { ref := ref, ncmd := n, slots := slots, next := 0, page0 := p0, page1 := p1, sem := sp, ce := ce + ce', flags := 0
                      samples := s.sampling asid ([((w 1).toNat, 2 ^ 21), (semV, 16)] ++ (if w 2 = 0 then [] else [((w 2).toNat, 2 ^ 21)]) ++
                        sems.map fun m => (m.1, 16))
                      rows := [], shadow := [], fenced := [], fencedRows := [], conflicted := false, dirty := false, waiting := none, kill := false
                      last := 0, sems := sems, want := none, got := [] })

/-! ### Running commands -/

/-- The event of a command. -/
def cmdEvent (sk : Fin 384) (v : Nat) : Instr :=
  let c : BitVec 512 := BitVec.ofNat 512 v
  match fld v 0 4 with
  | 0 => .gemv sk c | 1 => .reduce sk c | 2 => .map sk c | 3 => .ncopy sk c | 4 => .semwait sk c | 5 => .sempost sk c
  | 6 => .commit sk | 7 => .abort sk | _ => .nmFence sk
/-- The running group goes on with its next command at a tick that is not exposed, or ends after its last one; a stoker that is pre-empted stands at
this boundary (R250, R264, R361). -/
def State.nextCommand (s : State) (sk : Fin 384) (g : Group) : State :=
  if g.ncmd ≤ g.next then
    s.endGroup sk g.ref (if g.kill then 13 else if g.dirty then 14 else 0) g.last g.flags g.ce (some g.sem)
  else
    let s := s.updStoker sk fun t => { t with group := some g }
    if (s.stoker sk).halt then s else s.sometime (.ev (cmdEvent sk (cmdBits g.slots g.next))) effects
/-- The group after its present command. -/
def Group.step (g : Group) : Group :=
  { g with next := g.next + cmdSlots (cmdBits g.slots g.next), last := g.next, waiting := none, want := none, got := [] }
/-- The writes of earlier commands have performed: later reads find them (R263). -/
def Group.fence (g : Group) : Group := { g with fenced := g.shadow, fencedRows := g.rows }
/-- Event: a stoker takes its next group, once its channel serves the read of its image, and judges it (R253, R268, R273). -/
def execGroupStart (sk : Fin 384) (s : State) : Host.Outcome State Fault Refusal :=
  .next (
    let t := s.stoker sk
    if t.group.isSome || t.halt || t.stopped then s
    else match t.queue with
      | [] => s
      | ref :: rest => match s.serve .nm (s.imageAddrs ref) with
        | (s, false) => s.post .hc (s.hc + 1) effects (.ev (.groupStart sk))
        | (s, true) =>
          let ref := { ref with hc := s.hc }
          let s := s.updStoker sk fun t => { t with queue := rest }
          match s.judgeGroup sk ref with
          | (s, .error (c, i, sem, ce)) => if ref.killed then s.endGroup sk ref 13 0 0 ce sem else s.endGroup sk ref c i 0 ce sem
          | (s, .ok g) => if ref.killed then s.endGroup sk ref 13 0 0 g.ce (some g.sem) else s.nextCommand sk g)

/-- Reads bytes as a group sees them: its shadow rows over the home rows; where an earlier command's write has not been fenced, a
burst of 32 bytes is old or new by a free value (R263, R265, log entry 4). -/
def State.groupRead (s : State) (g : Group) (as : List Nat) : State × List Byte :=
  let p := s.boot.stripesP
  let new (a : Nat) : Byte := if g.rows.contains (hbmRow p a) then g.shadow.get a else s.gm.get a
  let old (a : Nat) : Byte := if g.fencedRows.contains (hbmRow p a) then g.fenced.get a else s.gm.get a
  let differ := ((as.filter fun a => new a != old a).map (· / 32)).dedup
  let stale := (differ.zipIdx.filter fun b => Config.choose (s.choice + b.2)).map (·.1)
  ({ s with choice := s.choice + differ.length }, as.map fun a => if stale.contains (a / 32) then old a else new a)
/-- What reads of bytes by a group's command meet: an uncorrectable error, or the bytes, with corrected errors counted; shadow rows hold none
(R265, R271). -/
def State.engineRead (s : State) (sk : Fin 384) (g : Group) (as : List Nat) : State × Group × Option (List Byte) :=
  let home := as.filter fun a => !g.rows.contains (hbmRow s.boot.stripesP a)
  let ce := s.correctedIn home
  let g := { g with ce := g.ce + ce }
  let s := (s.countCorrected 6 ce).updStoker sk fun t => { t with ecc := t.ecc + ce }
  match s.badGm home with
  | some a => (s.errorRecord 6 a g.ref.bid sk.val, g, none)
  | none =>
    let (s, bs) := s.groupRead g as
    (s, g, some bs)
/-- A group's write of masked bytes into its shadow rows, copying each row first; none when a bank has no free shadow row (R265). -/
def State.groupWrite (s : State) (g : Group) (bs : List (Nat × Byte × Byte)) : Option Group :=
  let p := s.boot.stripesP
  let bank (a : Nat) : Nat := hbmBank (hbmPlace p a).ofs
  let fresh := ((bs.map fun b => b.1 / 2048).dedup.map (· * 2048)).filter fun a => !g.rows.contains (hbmRow p a)
  -- a row's number is 65,536 times its bank, and more
  let go := fresh.foldl (fun (r : Option Group) a => r.bind fun g =>
    if 32 ≤ (g.rows.filter fun r => r / 65536 % 32 == bank a).length then none
    else some { g with rows := hbmRow p a :: g.rows, shadow := g.shadow.write a (s.gm.read a 2048) }) (some g)
  go.map fun g => { g with shadow := bs.foldl (fun m (a, b, k) => m.set a (mergeByte (m.get a) b k)) g.shadow, dirty := true }
/-- The rows that a group's writes copy into shadow rows first: their home bytes (R265). -/
def State.rowCopies (s : State) (g : Group) (as : List Nat) : List Nat :=
  ((as.map (· / 2048)).dedup.filter fun r => !g.rows.contains (hbmRow s.boot.stripesP (2048 * r))).flatMap fun r => span (2048 * r) 2048
/-- The writes of a command, when the channel serves them: rows that it copies are read, under their error code, before they are written
(R265, R268, R271). -/
def State.finishCommand (s : State) (sk : Fin 384) (g : Group) (again : State → State) (ws : List (Nat × Byte × Byte)) (fl : Flg) : State :=
  match s.serveEngine (ws.map (·.1)) with
  | (s, false) => again (s.updStoker sk fun t => { t with group := some g })
  | (s, true) =>
    match s.engineRead sk g (s.rowCopies g (ws.map (·.1))) with
    | (s, g, none) => s.endRunning sk { g with next := g.next + 1 } 9
    | (s, g, some _) =>
      let g := { g with flags := g.flags ||| fl }
      match s.groupWrite g ws with
      | none => s.endRunning sk { g with next := g.next + 1 } 7
      | some g => s.nextCommand sk g.step
/-- A command that computes: its reads burst by burst, its result from them, its writes; then the group goes on. The channel serves each
request in its turn (R250, R263, R265, R268, R271). -/
def State.runCommand (s : State) (sk : Fin 384) (cmd : BitVec 512) (reads : Pages → List Nat)
    (f : Pages → List Byte → List (Nat × Byte × Byte) × Flg) : State :=
  match (s.stoker sk).group with
  | none => s
  | some g =>
    let pg : Pages := ⟨g.page0, g.page1⟩
    let as := reads pg
    let bursts (bs : List Nat) : List Nat := bs.flatMap fun b => span (32 * b) 32
    let again (s : State) : State := s.post .hc (s.hc + 1) effects (.ev (cmdEvent sk cmd.toNat))
    let ((now, rest), s) := s.pick (g.want.getD (as.map (· / 32)).dedup)
    match s.serveEngine (bursts now) with
    | (s, false) => again s
    | (s, true) =>
      match s.engineRead sk g (bursts now) with
      | (s, g, none) => s.endRunning sk { g with next := g.next + 1 } 9
      | (s, g, some bytes) =>
        let g := { g with want := some rest, got := (now.zipIdx.map fun (b, i) => (b, (bytes.drop (32 * i)).take 32)) ++ g.got }
        if !rest.isEmpty then (s.updStoker sk fun t => { t with group := some g }).sometime (.ev (cmdEvent sk cmd.toNat)) effects
        else
          let (ws, fl) := f pg (as.map fun a => ((assocGet g.got (a / 32)).getD []).getD (a % 32) 0)
          s.finishCommand sk g again ws fl
/-- Bytes of f32 or s32 words at an address. -/
def wordBytes (a : Nat) (vs : List Nat) : List (Nat × Byte × Byte) :=
  (vs.zipIdx.map fun (v, i) => (leBytes 4 v).zipIdx.map fun (b, j) => (a + 4 * i + j, b, (0xFF : Byte))).flatten
/-- Consecutive pieces of read bytes of given lengths. -/
def cutBytes : List Nat → List Byte → List (List Byte)
  | [], _ => []
  | n :: ns, bs => bs.take n :: cutBytes ns (bs.drop n)
/-- A scale of a mode at its place in its bytes; 1 without scales. -/
def scaleAt (mode : Nat) (bs : List Byte) (i : Nat) : Num :=
  match mode with
  | 0 => .fin false 1 1
  | 1 => e8m0Value ((bs.getD i 0).toNat)
  | _ => floatValue .f32 (leNat ((bs.drop (4 * i)).take 4))

/-- The addresses that a GEMV reads: its vector, its vector scales, each matrix row with its scales, y. -/
def gemvReads (c : GemvCmd) (p : Pages) : List (List Nat) :=
  let xa := p.pa c.x
  let base := if c.apg = 1 then p.p1.getD 0 else p.p0
  let (sc, _) := c.rowSize
  let row (m : Nat) : List Nat :=
    let l := c.aloc + m / c.ne * c.rowSize.2
    let at' (n : Nat) : Nat := base + engineOfs (c.gb + m % c.ne) (l + n)
    (List.range (packedBytes c.fa c.k)).map at' ++ (List.range (c.nc * scaleBytes c.sma)).map fun i => at' (sc + i)
  [span xa (packedBytes c.fx c.k), span (xa + align64 (packedBytes c.fx c.k)) (c.nc * scaleBytes c.smx)] ++
    (List.range c.m).map row ++ [if c.acc then span (p.pa c.y) (4 * c.m) else []]
/-- One element of a GEMV (R259). -/
def gemvElem (c : GemvCmd) (x row : Nat) (sx sa : Nat → Num) (y0 : Nat) : Nat × Flg :=
  let bw := blockRows c.fa
  let chunk (i : Nat) : List (List (Nat × Nat)) :=
    (List.range (c.kseg / bw)).map fun b => ((List.range bw).map fun k => i * c.kseg + b * bw + k).filterMap fun k =>
      if k < c.k then some (rowElem c.fa row k, rowElem c.fx x k) else none
  (List.range c.nc).foldl (fun (acc : Nat × Flg) i =>
    if c.fa.isI then
      let (v, g) := intElement acc.1 ((chunk i).map fun bd => bd.map fun t => (intValue c.fa t.1, intValue c.fx t.2))
      (v, acc.2 ||| g)
    else
      let (q, g) := floatPartial ((chunk i).map fun bd => bd.map fun t => (floatValue c.fa t.1, floatValue c.fx t.2))
      let (v, h) := floatEpilogue acc.1 (sx i) (sa i) q
      (v, acc.2 ||| g ||| h)) (y0, 0)
/-- Event: GEMV (R259). -/
def execGemv (sk : Fin 384) (cmd : BitVec 512) (s : State) : Host.Outcome State Fault Refusal :=
  let c := gemvOf cmd.toNat
  .next (s.runCommand sk cmd (fun p => (gemvReads c p).flatten) (fun p bs =>
    let parts := cutBytes ((gemvReads c p).map List.length) bs
    let part (i : Nat) : List Byte := parts.getD i []
    let x := leNat (part 0)
    let na := packedBytes c.fa c.k
    let outs := (List.range c.m).map fun m =>
      let r := part (2 + m)
      let y0 := if c.acc then leNat (((part (2 + c.m)).drop (4 * m)).take 4) else 0
      gemvElem c x (leNat (r.take na)) (scaleAt c.smx (part 1)) (scaleAt c.sma (r.drop na)) y0
    (wordBytes (p.pa c.y) (outs.map (·.1)), orFlags (outs.map (·.2)))))

/-- One element of a REDUCE: the terms of the vectors in order (R260). -/
def reduceElem (c : ReduceCmd) (y0 : Nat) (ts : List Nat) : Nat × Flg :=
  let wide : Fmt := if c.f.isI then .s32 else .f32
  let ws := ts.map (widen c.f wide)
  if c.op = 0 then
    let bands := (bandsOf ((c.nv + 31) / 32 * 32) 32).map fun is => is.filterMap fun i => ws[i]?
    let p0 := if c.acc then y0 else 0
    if c.f.isI then
      let (v, g) := bands.foldl (fun (p : Int × Flg) bd =>
        let (v, h) := satS32 (p.1 + (bd.map (intValue .s32)).foldl (· + ·) 0)
        (v, p.2 ||| h)) (intValue .s32 p0, 0)
      (intBits .s32 v, g)
    else bands.foldl (fun p bd =>
      let e := Num.sum .rne (bd.map (floatValue .f32))
      let (v, g) := roundTo .f32 .rne 0 false (.sum .rne [floatValue .f32 p.1, e])
      (v, p.2 ||| g)) (p0, 0)
  else
    let all := if c.acc then y0 :: ws else ws
    if all.any fun w => (numValue wide w).isNan then (defaultNan .f32, fIV)
    else match all with
      | [] => (0, 0)
      | w :: rest => (rest.foldl (fun p t => (pickElem wide (c.op == 1) p t).1) w, 0)
/-- Event: REDUCE (R260). -/
def execReduce (sk : Fin 384) (cmd : BitVec 512) (s : State) : Host.Outcome State Fault Refusal :=
  let c := reduceOf cmd.toNat
  let n := packedBytes c.f c.n
  .next (s.runCommand sk cmd (fun p => ((List.range c.nv).map fun i => span (p.pa c.x + c.stride * i) n).flatten ++ (if c.acc then span (p.pa c.y) (4 * c.n) else []))
    (fun p bs =>
      let rows := (cutBytes (List.replicate c.nv n) bs).map leNat
      let ys := bs.drop (c.nv * n)
      let outs := (List.range c.n).map fun j => reduceElem c (leNat ((ys.drop (4 * j)).take 4)) (rows.map fun r => rowElem c.f r j)
      (wordBytes (p.pa c.y) (outs.map (·.1)), orFlags (outs.map (·.2)))))

/-- One operator on the stack of f32 values, top first (R261). -/
def mapOp (c : MapCmd) (j a b d : Nat) (op : Nat) (st : List Nat) : List Nat × Flg :=
  let r (x : Num) : Nat × Flg := roundTo .f32 .rne 0 false x
  let v := floatValue .f32
  let push (p : Nat × Flg) (st : List Nat) : List Nat × Flg := (p.1 :: st, p.2)
  let bound (o : BoundedOp) (x : Nat) (st : List Nat) : List Nat × Flg := push (boundedWide o .f32 .rne x) st
  match op, st with
  | 0x01, st => (a :: st, 0)
  | 0x02, st => (b :: st, 0)
  | 0x03, st => (d :: st, 0)
  | 0x04, st => (c.k0 :: st, 0)
  | 0x05, st => (c.k1 :: st, 0)
  | 0x06, st => (0 :: st, 0)
  | 0x07, st => (0x3F800000 :: st, 0)
  | 0x08, st => push (r (.ofInt j)) st
  | 0x09, x :: st => (x :: x :: st, 0)
  | 0x0A, y :: x :: st => (x :: y :: st, 0)
  | 0x0B, _ :: st => (st, 0)
  | 0x0C, y :: x :: st => (x :: y :: x :: st, 0)
  | 0x10, y :: x :: st => push (r (.sum .rne [v x, v y])) st
  | 0x11, y :: x :: st => push (r (.sum .rne [v x, (v y).negate])) st
  | 0x12, y :: x :: st => push (r ((v x).mul (v y))) st
  | 0x13, y :: x :: st => let (q, g) := (v x).div (v y); push ((r q).1, (r q).2 ||| g) st
  | 0x14, y :: x :: st => push (pickElem .f32 false x y) st
  | 0x15, y :: x :: st => push (pickElem .f32 true x y) st
  | 0x16, z :: y :: x :: st => push (r (.sum .rne [(v x).mul (v y), v z])) st
  | 0x18, x :: st => ((x ^^^ 2 ^ 31) :: st, 0)
  | 0x19, x :: st => (x % 2 ^ 31 :: st, 0)
  | 0x1A, x :: st => push (r (v x).sqrt) st
  | 0x1B, x :: st => let (q, g) := (Num.fin false 1 1).div (v x); push ((r q).1, (r q).2 ||| g) st
  | 0x1C, x :: st => bound .rsq x st
  | 0x1D, x :: st => bound .exp x st
  | 0x1E, x :: st => bound .log x st
  | 0x1F, x :: st => bound .tanh x st
  | 0x20, x :: st => bound .exp2 x st
  | 0x21, x :: st => bound .log2 x st
  | 0x22, x :: st => bound .sin x st
  | 0x23, x :: st => bound .cos x st
  | 0x24, x :: st => push (pickElem .f32 true x 0) st
  | 0x28, y :: x :: k :: st => ((if (v k).isZero then y else x) :: st, 0)
  | 0x29, y :: x :: st =>
    let un := (v x).isNan || (v y).isNan
    ((if (v x).lt (v y) && !(v x).eq (v y) then 0x3F800000 else 0) :: st, flagIf un fIV)
  | 0x2A, y :: x :: st => ((if (v x).eq (v y) then 0x3F800000 else 0) :: st, 0)
  | 0x2B, x :: st => push (roundIntegral .f32 .rne 0 x) st
  | 0x2C, hi :: lo :: x :: st =>
    if (v x).isNan || (v lo).isNan || (v hi).isNan then push (defaultNan .f32, fIV) st
    else push (pickElem .f32 false (pickElem .f32 true x lo).1 hi) st
  | _, st => (st, 0)
/-- One element of a MAP: the stack program, then one rounding into the output format (R261). -/
def mapElem (c : MapCmd) (j a b d : Nat) : Nat × Flg :=
  let (st, g) := c.ops.foldl (fun (p : List Nat × Flg) op => let (st, h) := mapOp c j a b d op p.1; (st, p.2 ||| h)) ([], 0)
  let (v, h) := toFmt c.fo c.rm 0 c.sat (floatValue .f32 (st.headD 0))
  (v, g ||| h)
/-- Masked bytes that write packed elements at an address. -/
def packedWrites (a w : Nat) (vs : List Nat) : List (Nat × Byte × Byte) :=
  let v := vs.zipIdx.foldl (fun n p => n + p.1 * 2 ^ (w * p.2)) 0
  let m := 2 ^ (w * vs.length) - 1
  let n := (w * vs.length + 7) / 8
  ((leBytes n v).zip (leBytes n m)).zipIdx.map fun (p, i) => (a + i, p.1, p.2)
/-- Event: MAP (R261). -/
def execMap (sk : Fin 384) (cmd : BitVec 512) (s : State) : Host.Outcome State Fault Refusal :=
  let c := mapOf cmd.toNat
  let n := packedBytes c.fi c.n
  let len (op : Nat) : Nat := if c.ops.contains op then n else 0
  .next (s.runCommand sk cmd (fun p => span (p.pa c.a) (len 1) ++ span (p.pa c.b) (len 2) ++ span (p.pa c.c) (len 3)) (fun p bs =>
    let parts := (cutBytes [len 1, len 2, len 3] bs).map leNat
    let e (i j : Nat) : Nat := widen c.fi .f32 (rowElem c.fi (parts.getD i 0) j)
    let outs := (List.range c.n).map fun j => mapElem c j (e 0 j) (e 1 j) (e 2 j)
    (packedWrites (p.pa c.y) c.fo.bits (outs.map (·.1)), orFlags (outs.map (·.2)))))
/-- Event: NCOPY (R262). -/
def execNcopy (sk : Fin 384) (cmd : BitVec 512) (s : State) : Host.Outcome State Fault Refusal :=
  let c := ncopyOf cmd.toNat
  .next (s.runCommand sk cmd (fun p => ((List.range c.nr).map fun i => span (p.pa c.s + i * c.ss) c.nb).flatten) (fun p bs =>
    (((cutBytes (List.replicate c.nr c.nb) bs).zipIdx.map fun (r, i) => r.zipIdx.map fun (b, j) => (p.pa c.d + i * c.ds + j, b, (0xFF : Byte))).flatten, 0)))

/-! ### Command boundaries (R263, R264, R266, R273) -/

/-- A command boundary: earlier writes have performed; a killed group ends here (R263, R273). -/
def State.boundary (s : State) (sk : Fin 384) (f : State → Group → State) : State :=
  match (s.stoker sk).group with
  | none => s
  | some g =>
    let g := g.fence
    if g.kill then s.endRunning sk { g with next := g.next + 1 } 13 else f s g
/-- Event: FENCE (R263). -/
def execNmFence (sk : Fin 384) (s : State) : Host.Outcome State Fault Refusal := .next (s.boundary sk fun s g => s.nextCommand sk g.step)
/-- The physical address of the semaphore a command names, as translated at dispatch (R253, R330). -/
def Group.cmdSem (g : Group) (v : Nat) : Nat := (assocGet g.sems (semAddr v)).getD g.sem
/-- Event: SEMWAIT reads its semaphore, once its channel serves it: the group goes on, ends with SEMERR, or waits and is re-checked in the next tick,
against the semaphore as the updates at its channel have left it and without another read (R263, R267, R268). -/
def execSemwait (sk : Fin 384) (cmd : BitVec 512) (s : State) : Host.Outcome State Fault Refusal :=
  .next (s.boundary sk fun s g =>
    let p := g.cmdSem cmd.toNat
    let g := { g with waiting := some (g.waiting.getD s.hc) }
    let again (s : State) (g : Group) : State := (s.updStoker sk fun t => { t with group := some g }).post .hc (s.hc + 1) effects (.ev (.semwait sk cmd))
    let test (s : State) (g : Group) : State :=
      let w := s.gm.word p
      if Word.bits w 32 8 ≠ 0 then s.endRunning sk { g with next := g.next + 1 } 11
      else if fld cmd.toNat 4 32 ≤ Word.bits w 0 32 then s.nextCommand sk g.step
      else again s { g with want := some [] }
    if g.want.isSome then test s g
    else match s.serve .nm (span p 8) with
      | (s, false) => again s g
      | (s, true) => match s.stokerRead sk g.ref.bid (span p 8) with
        | (s, ce, true) => s.endRunning sk { g with next := g.next + 1, ce := g.ce + ce } 9
        | (s, ce, false) => test s { g with ce := g.ce + ce })
/-- A group whose SEMWAIT has waited for its limit (R263). -/
def State.semExpired (s : State) (sk : Fin 384) : Bool :=
  match (s.stoker sk).group with
  | some g => match g.waiting with
    | some h => decide (h + stokerTicks (fld (cmdBits g.slots g.next) 36 28) ≤ s.hc)
    | none => false
  | none => false
/-- Removes the commands of a stoker's group from the calendar. -/
def State.dropCommands (s : State) (sk : Fin 384) : State :=
  { s with cal := s.cal.filter fun d => match d.work with
      | .ev (.gemv k _) | .ev (.reduce k _) | .ev (.map k _) | .ev (.ncopy k _) | .ev (.semwait k _) | .ev (.sempost k _)
      | .ev (.commit k) | .ev (.abort k) | .ev (.nmFence k) => k != sk
      | _ => true }
/-- Event: the first SEMWAIT past its limit ends its group with TIMEOUT, unless its semaphore, as every update of the cycle left it, completes the
wait (R263, R267). -/
def execSemwaitTimeout (s : State) : Host.Outcome State Fault Refusal :=
  .next (match (List.finRange 384).find? s.semExpired with
    | none => s
    | some sk => match (s.stoker sk).group with
      | some g =>
        let v := cmdBits g.slots g.next
        let w := s.gm.word (g.cmdSem v)
        let s := s.dropCommands sk
        if Word.bits w 32 8 ≠ 0 then s.endRunning sk { g with next := g.next + 1 } 11
        else if fld v 4 32 ≤ Word.bits w 0 32 then s.nextCommand sk g.step
        else s.endRunning sk { g with next := g.next + 1 } 10
      | none => s)
/-- Event: SEMPOST adds N to COUNT in one step, as a release of what the group has committed, once the channel serves it (R255, R263, R268). -/
def execSempost (sk : Fin 384) (cmd : BitVec 512) (s : State) : Host.Outcome State Fault Refusal :=
  .next (s.boundary sk fun s g =>
    let p := g.cmdSem cmd.toNat
    match s.serve .nm (span p 8) with
    | (s, false) => s.post .hc (s.hc + 1) effects (.ev (.sempost sk cmd))
    | (s, true) => match s.stokerRead sk g.ref.bid (span p 8) with
    | (s, ce, true) => s.endRunning sk { g with next := g.next + 1, ce := g.ce + ce } 9
    | (s, ce, false) =>
      let w := s.gm.word p
      let s := s.storeAt .gm p (leBytes 8 (Word.bits w 32 8 * 2 ^ 32 + (Word.bits w 0 32 + fld cmd.toNat 4 32) % 2 ^ 32))
      s.retestRecords.nextCommand sk { g with ce := g.ce + ce }.step)
/-- The shadow state starts afresh. -/
def Group.fresh (g : Group) : Group :=
  { g with rows := [], shadow := [], fenced := [], fencedRows := [], conflicted := false, dirty := false }
/-- Event: COMMIT: every shadow row replaces its home row at once, or, for a conflicted group, ends with CONFLICT (R266). -/
def execCommit (sk : Fin 384) (s : State) : Host.Outcome State Fault Refusal :=
  .next (s.boundary sk fun s g =>
    if g.conflicted then s.endRunning sk { g with next := g.next + 1 } 8
    else
      let p := s.boot.stripesP
      let bases := (((g.shadow.map fun (c : Host.Cell) => c.1 / 2048) ++ (s.gm.filterMap fun (c : Host.Cell) => if g.rows.contains (hbmRow p c.1) then some (c.1 / 2048) else none)).dedup)
      let g' := g.fresh.step
      let s := s.updStoker sk fun t => { t with group := some g.fresh }
      let s := bases.foldl (fun (s : State) (b : Nat) => s.storeAt .gm (2048 * b) (g.shadow.read (2048 * b) 2048)) s
      s.nextCommand sk g')
/-- Event: ABORT (R263). -/
def execAbort (sk : Fin 384) (s : State) : Host.Outcome State Fault Refusal :=
  .next (match (s.stoker sk).group with
    | some g => s.endRunning sk { g with next := g.next + 1 } 12
    | none => s)

/-! ### Launch (R115, R272) -/

/-- The stoker of a binding's slot (R249). -/
def State.slotStoker (s : State) (c : CoreId) (slot : Nat) : Option (Fin 384) := (s.bindingOf c).bind fun b => b.stokers[slot]?
/-- What an nlaunch asks: no commit group, a slot of its binding, an aligned header that it may read (R237, R272). -/
def nlaunchReq (q : Fin 4) (hdr slot : Nat) (s : State) : Req :=
  let c := s.me.1
  let pos := s.mine.pos
  let ns := ((s.bindingOf c).map (·.stokers.length)).getD 0
  s.hobReq q fun _ _ =>
    [if s.inGroup c then some { cause := 10, epc := pos, i0 := BitVec.ofNat 64 hdr } else none,
     faultIf (decide (512 ≤ slot) || decide (ns ≤ slot) || hdr % 64 ≠ 0 || decide (2 ^ 48 ≤ hdr)) (spaceFault pos hdr .gm),
     s.gmFault c s.me.2 true hdr .read]
/-- What an nlaunch does: a queued command whose header is translated at issue; a walk holds C (R182, R237, R272). -/
def nlaunchEffect (q : Fin 4) (hdr slot : Nat) (u : Turn) (s : State) : State :=
  let m := s.newCmd u q (.nlaunch slot hdr) 4 0 1 []
  let m := { m with needs := s.before u.c u.st .dev false, pa := s.gmPa u.c true hdr .read, samples := s.sampling (s.core u.c).asid [(hdr, 64)] }
  let miss := (cachedLeaf (s.core u.c).utlb (s.core u.c).asid hdr).isNone
  let s := (s.touch u.c hdr).accept u q m
  if miss then (s.waitFor u.silent (.unit 2 hdr) 0 false 0).sometime (.unitDone u.c u.st u.ord none) latePrio else s
/-- nlaunch (R182, R237, R272). -/
def execNlaunch (h : Hdr) (hq : BitVec 2) (a b : XReg) (imm : Word32) (s : State) : Host.Outcome State Fault Refusal :=
  issue h (nlaunchReq (hqOf hq) (s.ea a imm) (s.reg b).toNat s) (nlaunchEffect (hqOf hq) (s.ea a imm) (s.reg b).toNat) s
/-- C is still held by the walk of a launch. -/
def State.walking (s : State) (c : CoreId) (m : HobCmd) : Bool :=
  match (s.strand c .c).wait with
  | some w => (match w.why with | .unit 2 _ => w.pos == m.pos | _ => false)
  | none => false
/-- Event: a launch at the head of its hob is delivered to its stoker once the writes of R115 have performed and the stoker's queue
has room; the hob is free seven cycles later (R115, R250, R272). -/
def execNlaunchDelivery (c : CoreId) (hq : Fin 4) (id : Nat) (s : State) : Host.Outcome State Fault Refusal :=
  .next (match s.cmd c hq id with
    | none => s
    | some m =>
      let again : State := s.laterOn (.dt (s.bidOf c)) 1 (effects + 12) (.ev (.nlaunchDelivery c hq id))
      match m.op with
      | .nlaunch slot hdr =>
        match s.slotStoker c slot with
        | none => again
        | some sk =>
          let b := (s.core c).hob hq
          let first := !(b.cmds.any fun n => decide (n.id < id) && !n.started)
          if b.held || !first || s.walking c m || !(m.needs.all s.met) || decide (16 ≤ (s.stoker sk).queue.length) then again
          else
            let ref : GroupRef := { hdr := hdr, pa := m.pa, core := c, pos := m.pos, bid := s.bidOf c, killed := false, hc := s.hc,
                                      samples := m.samples }
            let s := s.updStoker sk fun t => { t with queue := t.queue ++ [ref] }
            let s := if (s.stoker sk).queue.length = 1 then s.startNext sk else s
            let s := s.updHob c hq fun b => { b with cmds := b.cmds.filter fun n => n.id != id, free := s.dt c + 7 }
            s.planHob c hq 17
      | _ => s)

/-! ### Semaphores, aborts and status (R273) -/

/-- nwait: waits until COUNT ≥ N or ERR ≠ 0; x[D] receives word 0 (R273). -/
def execNwait (h : Hdr) (d a b : XReg) (acq : Bool) (s : State) : Host.Outcome State Fault Refusal :=
  objWait h .gm d a 16 3 10 (BitVec.ofNat 64 (Word.bits (s.reg b) 0 32)) none acq s
/-- npost: adds N to COUNT at the owning unit (R273). -/
def execNpost (h : Hdr) (a b : XReg) (rel : Bool) (s : State) : Host.Outcome State Fault Refusal :=
  objUpdate h .gm a 16 (if rel then some .dev else none) (.npost ((s.reg b).extractLsb' 0 32)) false s
/-- nabort: holds C until the stoker has answered (R182, R273). -/
def execNabort (h : Hdr) (d a : XReg) (all : Bool) (s : State) : Host.Outcome State Fault Refusal :=
  let slot := (s.reg a).toNat
  issue h { legal := [.c], writes := true } (fun u s =>
    (s.waitFor u (.unit 7 0) d false 0).sometime (.nabort u.c u.st u.ord slot all) latePrio) s
/-- nabort at the stoker: the running group ends at its next boundary, or at once in a SEMWAIT; with .all the queued ones end when
they reach the head. Answers how many (R273). -/
def State.abortGroups (s : State) (sk : Fin 384) (bid : Nat) (all : Bool) : State × Nat :=
  let t := s.stoker sk
  let queued := if all then (t.queue.filter fun r => r.bid == bid && !r.killed).length else 0
  let s := if all then s.updStoker sk fun t => { t with queue := t.queue.map fun r => if r.bid = bid then { r with killed := true } else r } else s
  match t.group with
  | some g =>
    if g.ref.bid ≠ bid then (s, queued)
    else if g.waiting.isSome then ((s.dropCommands sk).endRunning sk { g with next := g.next + 1 } 13, queued + 1)
    else (s.updGroup sk fun g => { g with kill := true }, queued + (if g.kill then 0 else 1))
  | none => (s, queued)
/-- The value of nstat .q or .ecc (R273). -/
def State.nstatValue (s : State) (c : CoreId) (slot : Nat) (ecc : Bool) : Word :=
  match s.slotStoker c slot with
  | none => 0
  | some sk =>
    let t := s.stoker sk
    let bid := s.bidOf c
    BitVec.ofNat 64 (if ecc then t.ecc
      else (t.queue.filter fun r => r.bid == bid).length + (match t.group with | some g => (g.ref.bid == bid).toNat | none => 0))
/-- A binding's slot as a physical stoker number, or all ones (R273). -/
def State.physStoker (s : State) (c : CoreId) (slot : Nat) : Word :=
  match s.slotStoker c slot with | some sk => BitVec.ofNat 64 sk.val | none => BitVec.allOnes 64
/-- nstat: the physical stoker at issue + 2, or a value from the stoker, for which the strand is held (R182, R273). -/
def execNstat (h : Hdr) (d a : XReg) (sel : NstatSel) (s : State) : Host.Outcome State Fault Refusal :=
  let slot := (s.reg a).toNat
  let phys := s.physStoker s.me.1 slot
  issue h { writes := true } (fun u s =>
    match sel with
    | .map => s.resultRead u 2 (xResult u.sys d phys)
    | .q => (s.waitFor u (.unit 7 0) d false 0).sometime (.nstat u.c u.st u.ord slot false) latePrio
    | .ecc => (s.waitFor u (.unit 7 0) d false 0).sometime (.nstat u.c u.st u.ord slot true) latePrio) s

end Sys2Proof.Machine
end

