-- ==== Sys2Proof/Machine/System.lean ====
section
/-! DEFINITION. Domain synchronisation, system registers, TLB invalidation, saves and loads, idle and event posting (R44-R47,
R65, R71, R108, R183-R187, R302, R303, R329, R331, R341, R345, R380-R388). -/

namespace Sys2Proof.Machine

/-! ### dsync (R44-R47) -/

/-- The scope of a level's memory effect (R47). -/
def levelScope : Nat → Scope
  | 0 => .core | 1 => .dev | 2 => .dev | _ => .dom
/-- Supersteps that a strand has completed at a level. -/
def Strand.stepsAt (t : Strand) (l : Nat) : Nat := t.supersteps[l % 4]'(Nat.mod_lt _ (by decide))
/-- The participants of a core at level 2 or 3 on this device (R30). -/
def State.gangCores (s : State) (c : CoreId) (l : Nat) : List CoreId :=
  let g := domGid ((s.core c).domOf l)
  (List.finRange 256).filter fun o => ((s.core o).task).isSome && domEn ((s.core o).domOf l) && domGid ((s.core o).domOf l) == g
/-- A binding of a level-3 group (R30). -/
def Binding.inLevel3 (b : Binding) (g : Nat) : Bool := domEn b.launch.words[9] && domGid b.launch.words[9] == g
/-- Tasks on this device of a level-3 group, retired ones included, also those whose binding has gone before the others of the group (R30, R46). -/
def State.groupTasks (s : State) (g : Nat) : Nat :=
  let bs := s.bindings.filter (·.inLevel3 g)
  let gone := s.lib.goneTasks.filter fun t => t.1 == g && bs.all fun b => b.bid != t.2.1
  (bs.map (·.members.length) ++ gone.map (·.2.2)).foldl (· + ·) 0
/-- The last participant has arrived: of a domain that spans devices, the last on this one, after which the completion has no stated
time (R46, log entry 10). -/
def State.stepFull (s : State) (c : CoreId) (st : StrandId) (l : Nat) : Bool :=
  let n := (s.arrivalsAt c st l).length
  let w := (s.core c).domOf l
  decide (n = domCount w) || (l == 3 && decide (n = s.groupTasks (domGid w)))
/-- The strand's superstep is complete: x[D] receives the count and the strand goes on (R46). -/
def State.finishDsync (s : State) (c : CoreId) (st : StrandId) (l : Nat) : State :=
  let t := s.strand c st
  match t.wait with
  | none => s
  | some w =>
    if w.why ≠ .dsync ⟨l % 4, Nat.mod_lt _ (by decide)⟩ then s
    else (s.updCore c fun k => k.writeReg st (xResult t.level w.dest (BitVec.ofNat 64 (t.stepsAt l)))).endWait c st 0
/-- Schedules the completion of a superstep whose last participant arrives now: level 2 within 2,000 HC ticks, level 3 within 22,000 (R46, R47,
R368). -/
def State.closeStep (s : State) (c : CoreId) (st : StrandId) (l : Nat) : State :=
  let as := s.arrivalsAt c st l
  let needs := (as.map (·.needs)).flatten
  let s := { s with arrivals := s.arrivals.map fun a => if as.contains a then { a with needs := needs, full := true } else a }
  let lv : Fin 4 := ⟨l % 4, Nat.mod_lt _ (by decide)⟩
  if l = 0 then s.laterOn (.dt (s.bidOf c)) 2 latePrio (.ev (.dsyncComplete c lv))
  else if l = 1 then s.laterOn (.dt (s.bidOf c)) 40 latePrio (.ev (.dsyncComplete c lv))
  else
    let heads := ((as.map fun a => (s.bidOf a.core, a.core)).foldl (fun hs p => if hs.any (·.1 == p.1) then hs else p :: hs) [])
    heads.foldl (fun s p =>
      let (n, s) := s.draw
      s.post .hc (s.hc + 1 + Config.delay n % (if l = 2 then 2000 else 22000)) latePrio (.ev (.dsyncComplete p.2 lv))) s

/-- The arrival of a strand at its next superstep of a level (R46, R47). -/
def State.arrival (s : State) (u : Turn) (l : Nat) : Arrival :=
  { bid := s.bidOf u.c, lvl := l, gid := domGid ((s.core u.c).domOf l), core := u.c, strand := u.st, step := (s.strand u.c u.st).stepsAt l + 1
    needs := if l = 0 then [] else s.before u.c u.st (levelScope l) false, full := false }
/-- What a dsync does: it arrives in its issue cycle, unless a trap ended its wait before (R338), and waits for the superstep (R44-R47). -/
def dsyncEffect (d : XReg) (l : Nat) (u : Turn) (s : State) : State :=
  let t := s.strand u.c u.st
  let s := s.waitFor u (.dsync ⟨l % 4, Nat.mod_lt _ (by decide)⟩) d true 0
  if t.arrived && !t.level then
    (if t.arrivedFor ≤ t.stepsAt l then s.later u.c u.st 0 latePrio (.unitDone u.c u.st u.ord (some (BitVec.ofNat 64 (t.stepsAt l)))) else s)
  else
    let a := s.arrival u l
    let s := { s with arrivals := s.arrivals ++ [a] }
    let s := s.updStrand u.c u.st fun t => { t with arrivedFor := a.step }
    if s.stepFull u.c u.st l then s.closeStep u.c u.st l else s
/-- The strands on which a level's dsync is legal (R45). -/
def dsyncStrands (l : Nat) : List StrandId := if l = 0 then [.x, .l, .c, .s] else [.x]
/-- dsync (R44-R47). -/
def execDsync (h : Hdr) (d : XReg) (lvl : BitVec 2) (s : State) : Host.Outcome State Fault Refusal :=
  let l := lvl.toNat
  issue h { legal := dsyncStrands l, writes := true, ill := if domEn ((s.core s.me.1).domOf l) then none else some 7 } (dsyncEffect d l) s

/-- Event: a superstep completes on a core (level 0) or on every task of its binding (R46, R47). A binding whose domain time
stands still completes it later. -/
def execDsyncComplete (c : CoreId) (lvl : Fin 4) (s : State) : Host.Outcome State Fault Refusal :=
  .next (
    let bid := s.bidOf c
    let live := match s.binding bid with | some b => b.live | none => false
    if !live then s.post .hc (s.hc + 1) latePrio (.ev (.dsyncComplete c lvl))
    else
      let mine (a : Arrival) : Bool := a.lvl == lvl.val && a.full && a.bid == bid && (lvl.val != 0 || decide (a.core = c))
      let as := s.arrivals.filter mine
      let s := { s with arrivals := s.arrivals.filter fun a => !mine a }
      as.foldl (fun s a =>
        (s.updStrand a.core a.strand fun t =>
          { t with supersteps := t.supersteps.set lvl.val (t.stepsAt lvl.val + 1), due := t.due ++ a.needs.map fun n => (t.seq, n) }).finishDsync
          a.core a.strand lvl.val) s)

/-! ### System registers (R183, R184) -/

/-- CID (R24). -/
def State.cid (s : State) (c : CoreId) : Word :=
  BitVec.ofNat 64 (2 ^ 28 * s.devId + 2 ^ 22 * (islandOf c).val + 2 ^ 16 * (chimOf c).val + 2 ^ 13 * colOf c + 2 ^ 10 * rowOf c + 2 ^ 8 * layerOf c + c.val)
/-- WPn (R89). -/
def Chan.reg (n : Chan) : Word := BitVec.ofNat 64 (2 ^ 32 * n.seq.toNat + 2 ^ 29 * n.act.toNat + n.addr % 2 ^ 23)
/-- The sensors of an island: five of the 320 in order (log entry 13). -/
def islandSensors (i : Fin 64) : List (Fin 320) := (List.finRange 5).map fun j => ⟨5 * i.val + j.val, by omega⟩
/-- The hottest sensor of an island, the lowest number among equals (R384). -/
def State.hottest (s : State) (i : Fin 64) : Fin 320 :=
  (islandSensors i).foldl (fun b n => if (s.sensors[b.val].temp).slt s.sensors[n.val].temp then n else b) ⟨5 * i.val, by omega⟩
/-- THERM (R384). -/
def State.therm (s : State) (c : CoreId) : Word :=
  let i := islandOf c
  let h := s.hottest i
  let any (f : Sensor → Bool) : Nat := ((islandSensors i).any fun n => f s.sensors[n.val]).toNat
  BitVec.ofNat 64 (2 ^ 25 * any (·.advised) + 2 ^ 26 * any (·.throttling) + 2 ^ 27 * any (·.shut) + 2 ^ 16 * h.val + (s.sensors[h.val].temp).toNat)
/-- PWRST (R382). -/
def State.pwrst (s : State) (c : CoreId) : Word :=
  let i := s.islands[(islandOf c).val]
  BitVec.ofNat 64 (2 ^ 32 * i.fstep + 2 ^ 8 * (s.core c).atStart.rail.toNat + 4 * i.throttled.toNat + 2 * i.holding.toNat + (i.hop.isSome || i.retry).toNat)
/-- RESERVE (R381). -/
def Island.reserve (i : Island) : Word := BitVec.ofNat 64 (2 ^ 32 * i.resume.toNat + 2 ^ 16 * i.hold.toNat + i.level.toNat)
/-- CAPMM and CAPHIST of a monitor block (R387). -/
def Cap.mm (k : Cap) : Word := BitVec.ofNat 64 (2 ^ 32 * k.mx.toNat + k.mn.toNat)
/-- CAPHIST (R387). -/
def Cap.hist (k : Cap) : Word := (k.bins[Word.bits k.cfg 16 4 % 16]'(Nat.mod_lt _ (by decide))).setWidth 64

/-- FILE and REG of a result's target in TLDESC (R345). -/
def targetCode : RegTarget → Nat
  | .none => 0
  | .x _ r => 4 * r.toNat
  | .v r => 4 * r.toNat + 1
  | .k r => 4 * r.toNat + 2
  | .q r => 4 * r.toNat + 3
/-- TLDESC of the selected latch (R345). -/
def Strand.tldesc (t : Strand) : Word :=
  match t.latches[Word.bits t.tlsel 0 6]? with
  | none => 0
  | some l => BitVec.ofNat 64 (2 ^ 31 * l.fl.res.poison.isSome.toNat + 2 ^ 25 * l.fl.res.flags.toNat + 2 ^ 24 * l.fl.res.pushP.toNat
      + 2 ^ 23 * l.fl.res.pushN.toNat + 2 ^ 16 * targetCode l.fl.res.target + min l.r 0xFFFF)
/-- TLDATA: a word of the selected latch's data (R341, R345). -/
def Strand.tldata (t : Strand) : Word :=
  let i := Word.bits t.tlsel 6 5
  match t.latches[Word.bits t.tlsel 0 6]? with
  | none => 0
  | some l =>
    let words := match l.fl.res.target with | .none => 0 | .x _ _ => 1 | .v _ => 32 | _ => 4
    if l.fl.res.poison.isSome ∨ words ≤ i then 0 else l.fl.res.data.extractLsb' (64 * i) 64

/-- The value of a system register as it stands at the start of the issue cycle (R184); 0 for a number that names none. -/
def State.sysReg (s : State) (c : CoreId) (st : StrandId) (n : Nat) : Word :=
  let k := s.core c
  let t := k.strand st
  match n with
  | 0x000 => s.cid c
  | 0x001 => BitVec.ofNat 64 s.hc
  | 0x002 => BitVec.ofNat 64 (s.dt c % 2 ^ 48)
  | 0x004 => (k.domOf 0 &&& ~~~(0x7FFFFF : Word)) ||| BitVec.ofNat 64 st.num.val
  | 0x005 => k.domOf 1
  | 0x006 => k.domOf 2
  | 0x007 => k.domOf 3
  | 0x008 => t.sbound
  | 0x009 => t.fcsr
  | 0x00A => k.srseed
  | 0x00B => k.earlyrd
  | 0x00C => k.fslot
  | 0x00D => s.fwidth c
  | 0x100 => BitVec.ofNat 64 t.level.toNat
  | 0x101 => k.partid
  | 0x102 => k.bindinfo
  | 0x103 => BitVec.ofNat 64 k.asid
  | 0x110 => t.tcause
  | 0x111 => t.tepc
  | 0x112 => t.tinfo0
  | 0x113 => t.tinfo1
  | 0x114 => t.tdt
  | 0x115 => t.tprev
  | 0x116 => t.tlsel
  | 0x117 => t.tldesc
  | 0x118 => t.tldata
  | 0x119 => BitVec.ofNat 64 (k.atStart.ipend[st.num.val]).toNat
  | 0x11A => t.tscr
  | 0x140 => k.ptroot
  | 0x141 => BitVec.ofNat 64 s.xlate.qcur
  | 0x142 => BitVec.ofNat 64 s.qold
  | 0x143 => BitVec.ofNat 64 (2 ^ 32 * k.atStart.umiss + k.atStart.walks)
  | 0x180 => k.damph
  | 0x181 => k.dampx
  | 0x182 => (s.islands[(islandOf c).val]).reserve
  | 0x183 => s.pwrst c
  | 0x184 => s.therm c
  | n =>
    if 0x010 ≤ n ∧ n ≤ 0x017 then (k.chans[n % 8]'(Nat.mod_lt _ (by decide))).reg
    else if 0x190 ≤ n ∧ n ≤ 0x19F then
      let b := k.atStart.caps[(n - 0x190) / 4 % 4]'(Nat.mod_lt _ (by decide))
      if n % 4 = 0 then b.cfg else if n % 4 = 1 then b.mm else b.hist
    else 0
/-- A number names a register (R183, R302, R329, R341, R380-R387). -/
def sysNamed (n : Nat) : Bool :=
  (n ≤ 0x002) || (0x004 ≤ n && n ≤ 0x00D) || (0x010 ≤ n && n ≤ 0x017) || (0x100 ≤ n && n ≤ 0x103) || (0x110 ≤ n && n ≤ 0x11A)
    || (0x140 ≤ n && n ≤ 0x143) || (0x180 ≤ n && n ≤ 0x184) || (0x190 ≤ n && n ≤ 0x19F && n % 4 != 3)
/-- The strands that may write a register; none where its Written by column is empty (R183, R341). -/
def sysWriters (n : Nat) : List StrandId :=
  match n with
  | 0x008 | 0x009 | 0x111 | 0x116 | 0x11A => [.x, .l, .c, .s]
  | 0x00A => [.c]
  | 0x00B => [.x]
  | _ => []
/-- The kind of the illegal-instruction fault of an access to a register (R183, R302). -/
def sysKind (n : Nat) (write : Bool) (st : StrandId) (level : Bool) : Option Nat :=
  if !sysNamed n ∨ (write ∧ (sysWriters n).isEmpty) then some 5
  else if write && !((sysWriters n).contains st) then some 1
  else if 0x100 ≤ n ∧ !level then some 6
  else none
/-- The bits of a register that a write changes (R7, R184). -/
def sysMask (n : Nat) : Word :=
  match n with
  | 0x008 => 0xFFFFFFFF
  | 0x009 => 0x3F3F
  | 0x00A => 0xFFFFFFFF
  | 0x00B => 3
  | 0x111 => 0x7FFF
  | 0x116 => 0x7FF
  | _ => BitVec.allOnes 64
/-- A write of a system register in the issue cycle (R184); those that another strand can read in that cycle, and FCSR, change at
its end (R71, R108). -/
def State.writeSys (s : State) (u : Turn) (n : Nat) (v : Word) : State :=
  let v := v &&& sysMask n
  match n with
  | 0x008 => s.updStrand u.c u.st fun t => { t with sbound := v }
  | 0x009 => s.later u.c u.st 0 sysPrio (.ev (.fcsrWrite u.c u.st v))
  -- a rounding of the cycle of the write uses the states from before it (R66)
  | 0x00A => s.later u.c u.st 0 latePrio (.ev (.srseedWrite u.c v))
  | 0x00B => s.later u.c u.st 0 sysPrio (.ev (.earlyrdWrite u.c v))
  | 0x111 => s.updStrand u.c u.st fun t => { t with tepc := v }
  | 0x116 => s.updStrand u.c u.st fun t => { t with tlsel := v }
  | 0x11A => s.updStrand u.c u.st fun t => { t with tscr := v }
  | _ => s

/-- srd (R184). -/
def execSrd (h : Hdr) (d : XReg) (reg : BitVec 12) (s : State) : Host.Outcome State Fault Refusal :=
  let n := reg.toNat
  let v := s.sysReg s.me.1 s.me.2 n
  issue h { writes := true, ill := sysKind n false s.me.2 s.mine.level } (fun u s => s.resultRead u 2 (xResult u.sys d v)) s
/-- swr (R184). -/
def execSwr (h : Hdr) (a : XReg) (reg : BitVec 12) (s : State) : Host.Outcome State Fault Refusal :=
  let n := reg.toNat
  let v := s.reg a
  issue h { ill := sysKind n true s.me.2 s.mine.level } (fun u s => (s.writeSys u n v).pushNow u) s
/-- An update of a system register that returns its old value (R184). -/
def sysUpdate (h : Hdr) (d : XReg) (n : Nat) (new old : Word) (s : State) : Host.Outcome State Fault Refusal :=
  issue h { writes := true, ill := sysKind n true s.me.2 s.mine.level } (fun u s => (s.writeSys u n new).resultRead u 2 (xResult u.sys d old)) s
/-- sset (R184). -/
def execSset (h : Hdr) (d a : XReg) (reg : BitVec 12) (s : State) : Host.Outcome State Fault Refusal :=
  let old := s.sysReg s.me.1 s.me.2 reg.toNat
  sysUpdate h d reg.toNat (old ||| s.reg a) old s
/-- sclr (R184). -/
def execSclr (h : Hdr) (d a : XReg) (reg : BitVec 12) (s : State) : Host.Outcome State Fault Refusal :=
  let old := s.sysReg s.me.1 s.me.2 reg.toNat
  sysUpdate h d reg.toNat (old &&& ~~~(s.reg a)) old s

/-- The generators of a seed (R66). -/
def seedGens (seed : Word32) : Vector Word32 256 := Vector.ofFn fun i => seedOf seed i.val
/-- Event: SRSEED takes a value and every generator starts from it (R66). -/
def execSrseedWrite (c : CoreId) (v : Word) (s : State) : Host.Outcome State Fault Refusal :=
  .next (s.updCore c fun k => { k with srseed := v &&& 0xFFFFFFFF, gens := seedGens (v.setWidth 32) })
/-- Event: FCSR takes a value; flags set later in the cycle are added to it (R71). -/
def execFcsrWrite (c : CoreId) (st : StrandId) (v : Word) (s : State) : Host.Outcome State Fault Refusal :=
  .next (s.updStrand c st fun t => { t with fcsr := v &&& 0x3F3F })
/-- Event: EARLYRD takes a value (R108). -/
def execEarlyrdWrite (c : CoreId) (v : Word) (s : State) : Host.Outcome State Fault Refusal :=
  .next (s.updCore c fun k => { k with earlyrd := v &&& 3 })

/-! ### TLB invalidation (R185, R331) -/

/-- tlbinv: waits until the invalidation is complete, in class 9 (R185, R331). -/
def execTlbinv (h : Hdr) (a b : XReg) (kind : TlbKind) (size : PageSize) (s : State) : Host.Outcome State Fault Refusal :=
  let va := (s.reg a).toNat
  let asid := Word.bits (s.reg b) 0 16
  issue h { priv := true } (fun u s => (s.waitFor u (.unit 2 va) 0 false 0).startInval (some (u.c, u.st)) u.ord kind asid va (PageSize.bits size)) s

/-- A hold on another unit ends: x[D] takes its value and the strand goes on (R182). -/
def State.unitEnd (s : State) (c : CoreId) (st : StrandId) (ord : Nat) (v : Option Word) : State :=
  let t := s.strand c st
  match t.wait with
  | none => s
  | some w =>
    if w.ord ≠ ord then s
    else (match v with
      | some v => s.updCore c fun k => k.writeReg st (xResult t.level w.dest v)
      | none => s).endWait c st 0

/-- A migration goes on when the invalidation it waits for is complete: the page is copied and its leaf names the copy with W restored;
or, after the second invalidation, the old page enters quarantine (R333). -/
def State.stepMigration (s : State) (m : Migration) : State :=
  let others := s.xlate.migrations.filter fun o => o != m
  if m.stage = 1 then
    let gm := Mem.write s.gm m.dst (s.gm.read m.src (2 ^ m.bits))
    let e := (gm.word m.leafPa &&& ~~~(0xFFFFFFFF04 : Word)) ||| BitVec.ofNat 64 (m.dst % 2 ^ 40 + 4 * m.writable.toNat)
    let s : State := { s with gm := gm.setWord m.leafPa e, xlate := { s.xlate with migrations := { m with stage := 3, inval := s.xlate.nextInval } :: others } }
    s.ownInval m.asid m.va m.bits
  else ({ s with xlate := { s.xlate with migrations := others } } : State).toQuarantine m.src m.bits

/-- SH of a leaf is cleared when no other group shadows the page (R335). -/
def State.clearShadow (s : State) (bid : Nat) (h : Shadow) : State :=
  if s.bindings.any fun o => o.bid != bid && o.shadows.any fun g => g.leafPa == h.leafPa then s
  else { s with gm := s.gm.setWord h.leafPa (s.gm.word h.leafPa &&& ~~~(0x20 : Word)) }
/-- The swap instant of a group: every leaf names its shadow, in one update before which nobody has sampled the new leaves; the epoch goes on, and
the originals enter quarantine (R117, R335). -/
def State.finishSwap (s : State) (b : Binding) : State :=
  let s := b.shadows.foldl (fun (s : State) h =>
    let e := (s.gm.word h.leafPa &&& ~~~(0xFFFFFFFF00 : Word)) ||| BitVec.ofNat 64 (h.copy % 2 ^ 40)
    (({ s with gm := s.gm.setWord h.leafPa e } : State).clearShadow b.bid h).tlbRemoveAll .page b.asid h.va h.bits) s
  let s : State := { s with xlate := { s.xlate with qcur := s.xlate.qcur + 1 } }
  (b.shadows.foldl (fun (s : State) h => s.toQuarantine h.orig h.bits) s).updBinding b.bid fun b =>
    { b with shadows := [], swapping := none, status := some 0 }
/-- What waited for an invalidation of the hardware's own: a shadow page is filled, within the time that R49 states, a swap that waits for no other
takes place, an aborted group's shadow enters quarantine (R49, R334, R335, log entry 4). -/
def State.afterInval (s : State) (id : Nat) : State :=
  let s := s.bindings.foldl (fun (s : State) b => b.shadows.foldl (fun (s : State) h =>
    if h.inval = id ∧ !h.filled then
      let (n, s) := s.draw
      s.post .hc (s.hc + 1 + Config.delay n % (if h.bits = 21 then 53999 else 2249)) effects (.ev (.shadowPageFill b.bid h.va))
    else s) s) s
  let s : State := { s with bindings := s.bindings.map fun b => { b with swapping := b.swapping.map fun is => is.filter (· != id) } }
  let s := match s.bindings.find? fun b => b.swapping == some [] && b.status.isNone with
    | some b => s.finishSwap b
    | none => s
  (s.xlate.dropping.filter fun d => d.1 == id).foldl (fun (s : State) d => s.toQuarantine d.2.1 d.2.2)
    { s with xlate := { s.xlate with dropping := s.xlate.dropping.filter fun d => d.1 != id } }
/-- Event: the first invalidation that is complete ends; the epoch goes on, and what waited for it (R329, R331, R333-R335). -/
def execTlbinvComplete (s : State) : Host.Outcome State Fault Refusal :=
  .next (match s.xlate.invals.find? s.invalDone with
    | none => s
    | some i =>
      let s := { s with xlate := { s.xlate with invals := s.xlate.invals.filter fun j => j != i, qcur := s.xlate.qcur + 1 } }
      match i.issuer with
      | some (c, st) => s.unitEnd c st i.id none
      | none => match s.xlate.migrations.find? fun m => m.inval == i.id with
        | some m => s.stepMigration m
        | none => s.afterInval i.id)

/-! ### Saves and loads, idle, events (R186, R187) -/

/-- A core of the issuing core's partition (R186, R304). -/
def State.samePart (s : State) (c t : CoreId) : Bool := Word.bits (s.core c).partid 0 8 == Word.bits (s.core t).partid 0 8
/-- The status of ctxsave and ctxload (R186); a core outside the partition reads 2 also while its engine is busy (DESIGN CHOICE, log entry 66). -/
def State.ctxStatus (s : State) (c : CoreId) (core area : Word) : Nat :=
  if 256 ≤ core.toNat ∨ area.toNat % 4096 ≠ 0 then 3
  else if !s.samePart c (coreId core.toNat) then 2
  else if (s.core (coreId core.toNat)).engine.isSome then 1
  else 0
/-- Starts the save engine of a core; when it ends is not exposed (R186, R356). -/
def State.startEngine (s : State) (t : CoreId) (area : Nat) (load : Bool) : State :=
  let (n, s) := s.draw
  s.updCore t fun k => { k with engine := some (area, load, s.hc + 1 + Config.delay n) }
/-- ctxsave and ctxload (R186). -/
def ctxOp (h : Hdr) (d a b : XReg) (load : Bool) (s : State) : Host.Outcome State Fault Refusal :=
  let core := s.reg a
  let area := s.reg b
  let st := s.ctxStatus s.me.1 core area
  issue h { priv := true, writes := true } (fun u s =>
    (if st = 0 then s.startEngine (coreId core.toNat) area.toNat load else s).resultRead u 2 (xResult u.sys d (BitVec.ofNat 64 st))) s
/-- ctxsave (R186). -/
def execCtxsave (h : Hdr) (d a b : XReg) (s : State) : Host.Outcome State Fault Refusal := ctxOp h d a b false s
/-- ctxload (R186). -/
def execCtxload (h : Hdr) (d a b : XReg) (s : State) : Host.Outcome State Fault Refusal := ctxOp h d a b true s
/-- idle: the strand issues nothing until an interrupt is delivered to it (R187). -/
def execIdle (h : Hdr) (s : State) : Host.Outcome State Fault Refusal :=
  issue h { priv := true } (fun u s => (s.pushNow u).waitFor u.silent .idle 0 false 0) s
/-- What an evpost does: the event queue takes CODE and the payload at once, or later when it is full, which the manual does not
expose (R187, log entry 4). -/
def evpostEffect (code : BitVec 16) (v : Word) (u : Turn) (s : State) : State :=
  let (n, s) := s.draw
  if Config.choose n then (s.event 5 [code.setWidth 64, v]).pushNow u
  else (s.waitFor u (.unit 7 0) 0 false 0).sometime (.evpost u.c u.st u.ord (code.setWidth 64) v) latePrio
/-- evpost (R187). -/
def execEvpost (h : Hdr) (a : XReg) (code : BitVec 16) (s : State) : Host.Outcome State Fault Refusal :=
  issue h { priv := true } (evpostEffect code (s.reg a)) s

end Sys2Proof.Machine
end

