-- ==== Sys2Proof/Machine/Events.lean ====
section
/-! DEFINITION. Results that perform, stall traps, interrupts, retirement and the swap of a commit group (R40, R41, R48-R51, R71,
R334, R335, R339, R343, R346). -/

namespace Sys2Proof.Machine

/-! ### Results (R40, R71, R343, R346) -/

/-- A result performs: its register, its flags, its push; poisoned data writes nothing and raises MEMERR on a strand that still
issues (R40, R71, R336, R346). -/
def State.perform (s : State) (c : CoreId) (st : StrandId) (r : Result) : State :=
  match r.poison with
  | some (store, a) =>
    let s := s.updCore c fun k => (k.updFifo (pushFifo st false) (·.release r.pushP.toNat)).updFifo (pushFifo st true) (·.release r.pushN.toNat)
    if (s.strand c st).run = .running then s.memErr c st store a r.pos else s
  | none =>
    (s.updCore c fun k =>
      let (k, r) := k.roundStoch r
      let k := k.writeReg st r
      k.setStrand st ((k.strand st).flag r.flags)).pushFor c st r.ord r.pushP r.pushN
/-- A result leaves the strand's results in flight; the tokens of a scalar load whose data has an uncorrectable error go back (R40, R179). -/
def State.land (s : State) (c : CoreId) (st : StrandId) (r : Result) : State :=
  let here (f : Flight) : Bool := f.ord == r.ord && f.res.target == r.target
  let back := ((s.strand c st).flights.filter here).flatMap (·.pops)
  (s.updCore c fun k => back.foldr (fun (f, tok) k => k.updFifo f (·.restore [tok])) k).updStrand c st fun t =>
    { t with flights := t.flights.filter fun f => !here f }
/-- Event: a result in flight is written, with its flags and its push (R40, R71). -/
def execResultWrite (c : CoreId) (st : StrandId) (r : Result) (s : State) : Host.Outcome State Fault Refusal :=
  .next ((s.land c st r).perform c st r)
/-- Event: a captured latch performs at e + r, unless its data has not arrived or it has performed already (R343, R346). -/
def execLatchReinject (c : CoreId) (st : StrandId) (r : Result) (s : State) : Host.Outcome State Fault Refusal :=
  .next (match (s.strand c st).flights.find? fun f => f.ord == r.ord && f.res.target == r.target && f.ready with
    | some f => (s.land c st f.res).perform c st f.res
    | none => s)

/-! ### Stall traps and interrupts (R41, R339) -/

/-- The header of the instruction at a strand's position. -/
def State.headerAt (s : State) (c : CoreId) (st : StrandId) : Hdr :=
  match rawOf (fetchWords (s.fetchMem c st) (s.strand c st).pos) with
  | .ok (r, _) => r.h
  | .error _ => {}
/-- Event: a blocking point exceeds its bound: the stall trap, with the wait's record (R41, R43). -/
def execStallTrap (c : CoreId) (st : StrandId) (s : State) : Host.Outcome State Fault Refusal :=
  .next (
    let t := s.strand c st
    match t.wait with
    | some w => s.stallWait c st w
    | none => match t.blocked with
      | some b => s.stallBlocked c st b (boundOf (s.headerAt c st) t + 1)
      | none => s)
/-- Event: the Librarian places an interrupt on a strand (R339). -/
def execInterrupt (c : CoreId) (st : StrandId) (source : Bool) (payload : Word) (s : State) : Host.Outcome State Fault Refusal :=
  .next (s.interruptTo c st source payload)

/-! ### Commit groups (R49-R51, R334, R335) -/

/-- Event: a page that a commit group writes is shadowed: the shadowing begins, or, once the page's invalidation is complete, the shadow is filled
(R334). -/
def execShadowPageFill (bid va : Nat) (s : State) : Host.Outcome State Fault Refusal :=
  .next (match s.binding bid with
    | none => s
    | some b =>
      if !b.cg || b.status.isSome then s
      else match b.shadowOf va with
        | none => s.fillShadow bid va
        | some h => if h.filled || s.xlate.invals.any (fun i => i.issuer.isNone && i.id == h.inval) then s else s.copyShadow bid h)
/-- A commit group's shadows are discarded: SH is cleared, the pages are invalidated, and then the shadows enter quarantine (R51, R335). -/
def State.discardShadows (s : State) (b : Binding) : State :=
  let s := b.shadows.foldl (fun (s : State) h =>
    let s := s.clearShadow b.bid h
    ({ s with xlate := { s.xlate with dropping := s.xlate.dropping ++ [(s.xlate.nextInval, h.copy, h.bits)] } } : State).ownInval b.asid h.va h.bits) s
  s.updBinding b.bid fun b => { b with shadows := [], swapping := none }
/-- Every leaf of a group's directory still names the original it recorded, and no swap of another group that has begun is to change one (R335). -/
def State.originalsStand (s : State) (b : Binding) : Bool :=
  b.shadows.all fun h => npa (s.gm.word h.leafPa) == h.orig &&
    !(s.bindings.any fun o => o.bid != b.bid && o.swapping.isSome && o.shadows.any fun g => g.leafPa == h.leafPa)
/-- The swap of a group begins: its pages are invalidated, and the swap instant is the completion of that (R335). -/
def State.swapShadows (s : State) (b : Binding) : State :=
  if b.shadows.isEmpty then s.finishSwap b
  else
    let ids := (List.range b.shadows.length).map (s.xlate.nextInval + ·)
    (b.shadows.foldl (fun (s : State) h => s.ownInval b.asid h.va h.bits) s).updBinding b.bid fun b => { b with swapping := some ids }

/-- Statuses of R321. -/
def statusFault : Nat := 1
/-- CANCELLED (R321). -/
def statusCancelled : Nat := 2
/-- CONFLICT (R321). -/
def statusConflict : Nat := 8
/-- The mark by which a group that ends is run again (R51); it is no status of R321. -/
def statusRerun : Nat := 256
/-- A commit group that aborts is run again while RETRY allows; then it ends with a status (R51, R310, R347). -/
def Binding.retryOr (b : Binding) (status : Nat) : Nat := if b.run < Word.bits b.launch.words[21] 24 8 then statusRerun else status
/-- A binding whose every member has retired and whose end is not yet decided. -/
def Binding.allRetired (b : Binding) : Bool := b.status.isNone && b.relHc.isSome && b.members.all b.retired.contains
/-- Every task of a binding has retired, and no copy that one of them started goes on: its writes are performed (R48, R321). -/
def State.drained (s : State) (b : Binding) : Bool := b.allRetired && b.members.all fun c => s.bidOf c != b.bid
/-- A commit group whose members have all retired and whose swap has not begun (R51). -/
def State.swapDue (s : State) (b : Binding) : Bool := b.cg && s.drained b && b.swapping.isNone
/-- Event: the first commit group whose members have all retired begins to swap its shadows in, or aborts with CONFLICT (R51, R335). -/
def execCommitGroupSwap (s : State) : Host.Outcome State Fault Refusal :=
  .next (match s.bindings.find? s.swapDue with
    | none => s
    | some b =>
      if s.originalsStand b then s.swapShadows b
      else (s.discardShadows b).updBinding b.bid fun b => { b with status := some (b.retryOr statusConflict) })

/-! ### Retirement (R48) -/

/-- Every effect that the task of a core has started has performed (R48). -/
def State.effectsDone (s : State) (c : CoreId) : Bool :=
  let k := s.core c
  k.strands.toList.all (fun t => t.run == .retired && t.flights.isEmpty && t.outs.isEmpty) &&
  k.hobs.toList.all (fun b => b.cmds.isEmpty && b.writes.all (·.done)) &&
  k.copies.all (fun p => !p.kind.inPkg && p.db.isNone) &&
  s.stokers.toList.all fun t =>
    let mine (r : GroupRef) : Bool := r.core == c && r.bid == s.bidOf c
    !(t.queue.any mine) && (match t.group with | some g => !mine g.ref | none => true)
/-- A task that retires in this cycle, or a retired one whose last copy has ended (R48, R321, log entry 16). -/
def State.retires (s : State) (c : CoreId) : Bool :=
  match s.bindingOf c with
  | some b => if b.retired.contains c then (s.core c).copies.isEmpty else b.live && s.effectsDone c
  | none => false
/-- The binding ID of a bind record (R318). -/
def slotBid (r : Vector Word 8) : Nat := Word.bits r[0] 32 16
/-- A core holds no task any more and its slot is not valid; its tokens are discarded (R48, R316). -/
def State.freeCore (s : State) (c : CoreId) : State :=
  s.updCore c fun k =>
    { k with task := none, prepared := false, slot := if k.task.map (·.1) = some (slotBid k.slot) then Vector.replicate 8 0 else k.slot, idleSince := s.hc, fifos := Vector.replicate 8 {}, chain := none, chainReq := none
             strands := k.strands.map fun t => { t with run := .off, ipend := none, wait := none } }
/-- The vertical FIFOs into a core are empty, and no counter counts (R48, R293). -/
def Core.clearFlue (k : Core) : Core :=
  { k with fromBelow := [], fromAbove := [], takesUp := [], takesDown := [], putsUp := [], putsDown := [], flueFree := Vector.replicate 4 0 }
/-- Event: the first task whose strands have all retired and whose effects have performed retires, and with the last one its binding; its core is free once no copy of it
goes on (R48, R321, log entry 16). -/
def execTaskRetire (s : State) : Host.Outcome State Fault Refusal :=
  .next (match (List.finRange 256).find? s.retires with
    | none => s
    | some c =>
      let s := s.updBinding (s.bidOf c) fun b => { b with retired := if b.retired.contains c then b.retired else c :: b.retired }
      let s := s.updCore c fun k => { k with slot := Vector.replicate 8 0 }
      -- with its last task the binding retires, and the vertical FIFOs allotted to it are emptied (R293)
      let s := match s.bindingOf c with
        | some b => if b.allRetired && b.fslot != 0 then b.members.foldl (fun (s : State) m => s.updCore m Core.clearFlue) s else s
        | none => s
      if (s.core c).copies.isEmpty then (s.freeCore c).sometime (.ev .eligibilityTest) latePrio else s)

end Sys2Proof.Machine
end

