-- ==== Sys2Proof/Machine/Librarian.lean ====
section
/-! DEFINITION. The Librarian's scheduling and the dispatch hardware: launch records and their checks, eligibility, ranking and
placement, preparing and releasing cores, completion, core gates (R293, R304-R322, R364). -/

namespace Sys2Proof.Machine

/-! ### The launch record (R310-R312) -/

/-- A field of a launch record. -/
def Launch.f (l : Launch) (i lo n : Nat) : Nat := Word.bits (l.words[i % 32]'(Nat.mod_lt _ (by decide))) lo n
/-- The bits of each word of a record that must be 0 (R310). -/
def launchReserved (i : Nat) : Nat :=
  match i with
  | 0 => 0x00FF03C00003FFFF
  | 3 => 0xFFFFF000FFC00000
  | 5 | 6 => 0xFC000000FC000000
  | 8 | 9 => 2 ^ 46
  | 10 | 12 | 14 | 16 | 18 | 19 => 0xFFFF000000000000
  | 11 | 13 | 15 | 17 => 0xFFFFFFFF00000000
  | 22 => 0xFFFFFFFFFFFFF008
  | 23 => 0xE0E0E0E0E0E0E0E0
  | 24 | 25 => 0xFE00FE00FE00FE00
  | 26 | 27 | 28 | 29 | 30 | 31 => 2 ^ 64 - 1
  | _ => 0
/-- NT (R310). -/
def Launch.nt (l : Launch) : Nat := l.f 0 22 8 + 1
/-- TL, TY and TX (R310). -/
def Launch.box (l : Launch) : Nat × Nat × Nat := (l.f 0 36 2 + 1, l.f 0 33 3 + 1, l.f 0 30 3 + 1)
/-- ANY (R310). -/
def Launch.any (l : Launch) : Bool := l.f 0 42 1 == 1
/-- NS (R310). -/
def Launch.ns (l : Launch) : Nat := l.f 0 18 4
/-- The channels of the stoker slots (R310). -/
def Launch.chan (l : Launch) (i : Nat) : Nat := l.f (24 + i / 4) (16 * (i % 4)) 9
/-- ILINES and DSIZE (R310). -/
def Launch.image (l : Launch) : Nat × Nat := (l.f 3 32 12, l.f 3 0 22)
/-- The entry line of a strand (R310). -/
def Launch.entry (l : Launch) : StrandId → Nat
  | .x => l.f 5 0 26 | .l => l.f 5 32 26 | .c => l.f 6 0 26 | .s => l.f 6 32 26
/-- The used dependences: semaphore address and threshold (R310). -/
def Launch.deps (l : Launch) : List (Nat × Nat) :=
  ((List.range 4).map fun j => (l.f (10 + 2 * j) 0 48, l.f (11 + 2 * j) 0 32)).filter fun d => d.1 != 0
/-- CSEM and CREC (R310). -/
def Launch.csem (l : Launch) : Nat := l.f 18 0 48
/-- CREC (R310). -/
def Launch.crec (l : Launch) : Nat := l.f 19 0 48
/-- The allotted entries of FSLOT: slot, source and destination layer (R92, R310). -/
def Launch.fslots (l : Launch) : List (Nat × Nat × Nat) :=
  ((List.range 8).filter fun i => l.f 23 (8 * i + 4) 1 == 1).map fun i => (i, l.f 23 (8 * i + 2) 2, l.f 23 (8 * i) 2)
/-- The physical address of a GM address in an address space, if it translates. -/
def State.lookup (s : State) (asid va : Nat) : Option Nat := if 2 ^ 48 ≤ va then none else s.asidPa asid va .read

/-- A record is ended with BADREC (R311). -/
def State.badRecord (s : State) (asid : Nat) (l : Launch) : Bool :=
  let (tl, ty, tx) := l.box
  let (ilines, dsize) := l.image
  let bad (st : StrandId) : Bool := decide (ilines ≤ l.entry st) && l.entry st != chainEnd
  l.f 0 56 8 != 1 || (List.range 32).any (fun i => l.words[i % 32]'(Nat.mod_lt _ (by decide)) &&& BitVec.ofNat 64 (launchReserved i) != 0) ||
  (!l.any && l.nt != tl * ty * tx) || ilines == 0 || decide (2048 < ilines) || decide (0x3FFF00 < dsize) ||
  bad .x || bad .l || bad .c || bad .s || decide (8 < l.ns) ||
  l.f 22 0 3 == 7 || (List.range 4).any (fun b => l.f 22 (4 + 2 * b) 2 == 3) ||
  l.f 2 0 6 != 0 || l.csem % 16 != 0 || l.crec % 32 != 0 || l.deps.any (fun d => d.1 % 16 != 0) ||
  (l.csem != 0 && (s.lookup asid l.csem).isNone) || l.deps.any (fun d => (s.lookup asid d.1).isNone) ||
  (List.range 8).any (fun i => if i < l.ns then decide (384 ≤ l.chan i) else l.chan i != 0) ||
  l.fslots.any fun e => e.2.1 == e.2.2
/-- The longest run of adjacent quarters of a partition (R304, R312). -/
def quarterRun (m : BitVec 4) : Nat :=
  ((List.range 4).foldl (fun (p : Nat × Nat) q => if m.getLsbD q then (p.1 + 1, max p.2 (p.1 + 1)) else (0, p.2)) (0, 0)).2
/-- Quarters of a mask. -/
def quarters (m : BitVec 4) : Nat := ((List.range 4).filter fun q => m.getLsbD q).length
/-- A record never fits its partition (R312). -/
def Launch.neverFits (l : Launch) (m : BitVec 4) : Bool :=
  let chans := (List.range l.ns).map l.chan
  decide (64 * quarters m < l.nt) || (!l.any && decide (2 * quarterRun m < l.box.2.1)) ||
  chans.any (fun c => !m.getLsbD (c / 96)) ||
  (!l.any && l.fslots.any fun e => decide (l.box.1 ≤ e.2.1) || decide (l.box.1 ≤ e.2.2)) || !(decide chans.Nodup)

/-! ### Reports (R321) -/

/-- The place of a word that a report writes: none where nothing is named, a failure where its page cannot be written now. -/
def State.reportPlace (s : State) (asid va : Nat) (a : Acc) : Option (Option Nat) :=
  if va = 0 then some none
  else match s.hit none asid (s.root asid) false true va a with
    | .pa p _ => some (some p)
    | _ => none
/-- Writes a report: the completion record, its word 0 last, then the semaphore (R321). -/
def State.deliverReport (s : State) (r : Report) : Option State :=
  match s.reportPlace r.asid r.crec .write, s.reportPlace r.asid r.csem .atomic with
  | some rec, some sem =>
    let s := match rec with
      | none => s
      | some p => ((s.storeAt .gm (p + 16) (leBytes 8 r.relHc)).storeAt .gm (p + 24) (leBytes 8 r.endHc)).storeAt .gm p
          (leBytes 8 (r.bid % 65536 * 2 ^ 48 + r.tries % 256 * 2 ^ 40 + 2 ^ 8 + r.status))
    some (match sem with
      | none => s
      | some p =>
        let w := s.gm.word p
        let err := if r.status ≠ 0 ∧ Word.bits w 32 8 = 0 then r.status else Word.bits w 32 8
        (s.storeAt .gm p (leBytes 8 (err * 2 ^ 32 + (Word.bits w 0 32 + 1) % 2 ^ 32))).retestRecords)
  | _, _ => none
/-- Reports a completion now, or, while a commit group shadows a page that the report writes, once it can be written (R321, R326, R334, log
entry 46). -/
def State.report (s : State) (asid : Nat) (l : Launch) (bid tries relHc status : Nat) : State :=
  let r : Report := { asid := asid, crec := l.crec, csem := l.csem, bid := bid, tries := tries, relHc := relHc, endHc := s.hc, status := status }
  (s.deliverReport r).getD { s with lib := { s.lib with reports := s.lib.reports ++ [r] } }
/-- The reports that wait are tried again, in their order. -/
def State.flushReports (s : State) : State :=
  s.lib.reports.foldl (fun (s : State) r => match s.deliverReport r with
    | some t => { t with lib := { t.lib with reports := t.lib.reports.filter fun o => o != r } }
    | none => s) s
/-- A queue of a number. -/
def State.queue (s : State) (q : Nat) : Option LQueue := s.lib.queues[q % 64]'(Nat.mod_lt _ (by decide))
/-- A queued record ends before dispatch (R321). -/
def State.endRecord (s : State) (r : QRec) (status : Nat) : State :=
  let asid := ((s.queue r.queue).map (·.asid)).getD 0
  let s := { s with lib := { s.lib with records := s.lib.records.filter fun o => o.num != r.num } }
  s.report asid r.launch r.bid r.run 0 status
/-- Quarters of a queue's partition. -/
def State.partOf (s : State) (p : Nat) : BitVec 4 := s.lib.parts[p % 4]'(Nat.mod_lt _ (by decide))

/-- Accepts one record of a queue: copied, checked, queued or ended (R309, R311, R312). -/
def State.acceptRecord (s : State) (q : Nat) (i : Nat) : State :=
  match s.queue q with
  | none => s
  | some lq =>
    let base := lq.base + 64 + 256 * (i % 2 ^ lq.k)
    let word (j : Nat) : Word := match s.lookup lq.asid (base + 8 * j) with | some p => s.gm.word p | none => 0
    let l : Launch := ⟨Vector.ofFn fun j => word j.val⟩
    let r : QRec := { num := s.lib.nextRec, launch := l, queue := q, hc := s.hc, eligible := none, run := 0, first := none, bid := 0 }
    let s : State := { s with lib := { s.lib with nextRec := s.lib.nextRec + 1, records := s.lib.records ++ [r]
                                                  queues := vmod s.lib.queues ⟨q % 64, Nat.mod_lt _ (by decide)⟩ fun o => o.map fun o => { o with head := o.head + 1 } } }
    let s := match s.lookup lq.asid lq.base with
      | some p => s.storeAt .gm p (leBytes 2 (lq.head + 1).toNat)
      | none => s
    if s.badRecord lq.asid l then s.endRecord r 3
    else if l.neverFits (s.partOf lq.part) then s.endRecord r 4
    else s
/-- A launch signal (R308, R309). -/
def State.launchSignal (s : State) (imm : Word32) : State :=
  let q := bitsAt imm.toNat 26 6
  let tail : BitVec 16 := imm.setWidth 16
  match s.queue q with
  | none => s.event 2 [imm.setWidth 64]
  | some lq =>
    let d := (tail - lq.tail).toInt
    if d ≤ 0 then s
    else if 2 ^ lq.k < (tail - lq.head).toNat then s.event 1 [imm.setWidth 64]
    else if bitsAt imm.toNat 16 10 ≠ 0 then s.event 2 [imm.setWidth 64]
    else
      let s : State := { s with lib := { s.lib with queues := vmod s.lib.queues ⟨q % 64, Nat.mod_lt _ (by decide)⟩ fun o => o.map fun o => { o with tail := tail } } }
      let s := (List.range d.toNat).foldl (fun (s : State) i => s.acceptRecord q (lq.tail.toNat + i)) s
      s.sometime (.ev .eligibilityTest) latePrio

/-! ### Eligibility (R313, R314) -/

/-- COUNT and ERR of a dependence, if its semaphore translates. -/
def State.depWord (s : State) (asid va : Nat) : Option (Nat × Nat) := (s.lookup asid va).map fun p => (Word.bits (s.gm.word p) 0 32, Word.bits (s.gm.word p) 32 8)
/-- Address space of a record. -/
def State.recAsid (s : State) (r : QRec) : Nat := ((s.queue r.queue).map (·.asid)).getD 0
/-- The physical semaphores that a record depends on. -/
def State.depPas (s : State) (r : QRec) : List Nat := r.launch.deps.filterMap fun d => s.lookup (s.recAsid r) d.1
/-- The physical completion semaphore of a launch. -/
def State.csemPa (s : State) (asid : Nat) (l : Launch) : Option Nat := if l.csem = 0 then none else s.lookup asid l.csem
/-- The queued records on whose completion a record's dependences wait, where no running binding completes the semaphore (R313). -/
def State.waitsOn (s : State) (r : QRec) : List QRec :=
  let pas := (s.depPas r).filter fun p => !(s.bindings.any fun b => s.csemPa b.asid b.launch == some p)
  s.lib.records.filter fun o => match s.csemPa (s.recAsid o) o.launch with | some p => pas.contains p | none => false
/-- The records reached from a set by a number of steps. -/
def State.reached (s : State) : Nat → List QRec → List QRec
  | 0, rs => rs
  | n + 1, rs => State.reached s n ((rs ++ (rs.map s.waitsOn).flatten).dedup)
/-- A record is in a dependence cycle (R313). -/
def State.depCycle (s : State) (r : QRec) : Bool := (s.reached s.lib.records.length (s.waitsOn r)).any fun o => o.num == r.num
/-- The DOM2 word of a record (R310, R314). -/
def QRec.dom2 (r : QRec) : Word := r.launch.words[8]
/-- The queued records of a record's gang (R314). -/
def State.gang (s : State) (r : QRec) : List QRec :=
  if domGid r.dom2 = 0 then [r] else s.lib.records.filter fun o => domGid o.dom2 == domGid r.dom2
/-- Tasks of records. -/
def tasksOf (rs : List QRec) : Nat := (rs.map fun r => r.launch.nt).foldl (· + ·) 0
/-- A record is eligible (R313). -/
def State.isEligible (s : State) (r : QRec) : Bool :=
  decide (r.launch.f 20 0 64 ≤ s.hc) && r.launch.deps.all fun d => match s.depWord (s.recAsid r) d.1 with
    | some (n, e) => decide (d.2 ≤ n) && e == 0
    | none => false
/-- The status with which a test ends a record, if any (R313, R314). -/
def State.testStatus (s : State) (r : QRec) : Option Nat :=
  let err := r.launch.deps.any fun d => match s.depWord (s.recAsid r) d.1 with | some (_, e) => e != 0 | none => false
  let lim := r.launch.f 21 32 32
  if err then some 5
  else if s.depCycle r then some 6
  else if lim ≠ 0 ∧ !s.isEligible r ∧ r.hc + lim * 1024 ≤ s.hc then some 7
  else if domGid r.dom2 ≠ 0 ∧ domCount r.dom2 < tasksOf (s.gang r) then some 11
  else none
/-- Event: reports that wait are tried again, and every queued record is tested; those that cannot run end; the others' eligible ticks are brought up to date; then records
are placed (R313-R315, R321). -/
def execEligibilityTest (s : State) : Host.Outcome State Fault Refusal :=
  .next (
    let s := s.flushReports
    let ended := s.lib.records.filterMap fun r => (s.testStatus r).map fun st => (r, st)
    let s := ended.foldl (fun (s : State) e => s.endRecord e.1 e.2) s
    let upd (r : QRec) : QRec := { r with eligible := if s.isEligible r then some (r.eligible.getD s.hc) else none }
    ({ s with lib := { s.lib with lastTest := s.hc, records := s.lib.records.map upd } } : State).post .hc s.hc latePrio (.ev .placement))

/-! ### Ranking and placement (R315-R317) -/

/-- Effective priority (R315). -/
def QRec.ep (r : QRec) (hc : Nat) : Nat := min 7 (r.launch.f 0 45 3 + (hc - r.eligible.getD hc) / 2 ^ 22)
/-- The eligible records that their queues offer, in rank order (R315). -/
def State.ranked (s : State) : List QRec :=
  let offered := s.lib.records.filter fun r =>
    r.eligible.isSome && decide ((s.lib.records.filter fun o => o.queue == r.queue && decide (o.num < r.num)).length < 8)
  let le (a b : QRec) : Bool :=
    let ka := (7 - a.ep s.hc, a.eligible.getD 0, a.queue, a.num)
    let kb := (7 - b.ep s.hc, b.eligible.getD 0, b.queue, b.num)
    decide (ka.1 < kb.1) || (ka.1 == kb.1 && (decide (ka.2.1 < kb.2.1) || (ka.2.1 == kb.2.1 && (decide (ka.2.2.1 < kb.2.2.1) ||
      (ka.2.2.1 == kb.2.2.1 && decide (ka.2.2.2 ≤ kb.2.2.2))))))
  offered.mergeSort le
/-- The quarter of a core (R304). -/
def quarterOf (c : CoreId) : Nat := rowOf c / 2
/-- A binding has its place on a member: the member runs its task, or ran it before the binding ends (R48). -/
def State.placedOn (s : State) (b : Binding) (m : CoreId) : Bool := s.bidOf m == b.bid || (!b.stopped && b.retired.contains m)
/-- A binding is allotted flue slots in a chimney (R91, R293, R316). -/
def State.flueUser (s : State) (ch : Fin 64) : Bool := s.bindings.any fun b => !b.launch.fslots.isEmpty && b.members.any fun m => chimOf m == ch && s.placedOn b m
/-- Quarters that a repartition in progress changes (R306). -/
def State.changing (s : State) (q : Nat) : Bool :=
  match s.lib.repartition with
  | none => false
  | some new => (List.finRange 4).any fun p => s.lib.parts[p.val].getLsbD q != new[p.val].getLsbD q
/-- A bind record is valid: bit V (R318). -/
def slotValid (r : Vector Word 8) : Bool := r[0].getLsbD 63
/-- A core that a record may take: it is idle, and no gate request concerns it but one of the Librarian's own, which it then withdraws (R316). -/
def State.takes (s : State) (r : QRec) (c : CoreId) : Bool :=
  let k := s.core c
  let part := (s.partOf (((s.queue r.queue).map (·.part)).getD 0))
  k.task.isNone && !slotValid k.slot && (!k.gateReq || k.gateOwn) && k.engine.isNone && part.getLsbD (quarterOf c) && !s.changing (quarterOf c) &&
  s.half[(chimOf c).val] == (r.launch.f 0 43 1 == 1) && (r.launch.fslots.isEmpty || !s.flueUser (chimOf c))
/-- The core at a layer, row and column. -/
def coreAt (l y x : Nat) : CoreId := coreId (64 * l + 8 * y + x)
/-- The boxes of a record with ANY = 0 on which it can be placed now (R316). -/
def State.placements (s : State) (r : QRec) : List (List CoreId) :=
  let (tl, ty, tx) := r.launch.box
  let boxes := (List.range (5 - tl)).flatMap fun l => (List.range (9 - ty)).flatMap fun y => (List.range (9 - tx)).map fun x =>
    (List.range tl).flatMap fun i => (List.range ty).flatMap fun j => (List.range tx).map fun k => coreAt (l + i) (y + j) (x + k)
  boxes.filter fun b => b.all (s.takes r)
/-- Bands that a release powers up on a core (R316, R317). -/
def State.bandsUp (s : State) (l : Launch) (c : CoreId) : Nat :=
  ((List.range 4).filter fun b => (!(s.core c).awake || bandState (s.core c).bps b == 0) && l.f 22 (4 + 2 * b) 2 != 0).length
/-- The criteria of R316: gated cores, islands to power up, bands to power up, core numbers. -/
def State.cost (s : State) (r : QRec) (cs : List CoreId) : List Nat :=
  let dark := cs.filter fun c => !(s.core c).awake
  let islands := (dark.map islandOf).dedup.filter fun i => !((List.finRange 256).any fun c => islandOf c == i && (s.core c).awake)
  [dark.length, islands.length, (cs.map (s.bandsUp r.launch)).foldl (· + ·) 0] ++ cs.map (·.val)
/-- Lexicographic order. -/
def lexLt : List Nat → List Nat → Bool
  | a :: as, b :: bs => decide (a < b) || (a == b && lexLt as bs)
  | [], _ :: _ => true
  | _, [] => false
/-- An island holds an awake core (R316). -/
def State.powered (s : State) (i : Fin 64) : Bool := (List.finRange 256).any fun c => islandOf c == i && (s.core c).awake
/-- How many gated cores can be taken at most from a list if the islands already opened and `n` further islands may be powered up. -/
def State.capacity (s : State) (opened : List (Fin 64)) (n : Nat) (cs : List CoreId) : Nat :=
  let inIsland (i : Fin 64) : Nat := (cs.filter fun c => islandOf c == i).length
  let free := (List.finRange 64).filter fun i => s.powered i || opened.contains i
  let shut := (((List.finRange 64).filter fun i => !(s.powered i || opened.contains i)).map inIsland).mergeSort (fun a b => decide (b ≤ a))
  (free.map inIsland ++ shut.take n).foldl (· + ·) 0
/-- The lowest set of `g` gated cores, ascending, that powers up at most `n` further islands: a core is taken when the rest can still
be completed (R316). -/
def State.lowestDark (s : State) : List (Fin 64) → Nat → Nat → List CoreId → List CoreId
  | _, _, _, [] => []
  | opened, n, g, c :: cs =>
    let i := islandOf c
    let known := s.powered i || opened.contains i
    let opened' := if known then opened else i :: opened
    let n' := if known then n else n - 1
    if g ≠ 0 ∧ (known ∨ n ≠ 0) ∧ g ≤ 1 + s.capacity opened' n' cs then c :: s.lowestDark opened' n' (g - 1) cs
    else s.lowestDark opened n g cs
/-- The set of idle cores that R316 chooses for ANY = 1: awake cores before gated ones; among awake ones those that need fewest bands, then
the lowest; with gated ones, as few islands as their number allows, then the lowest cores. -/
def State.placeAny (s : State) (r : QRec) : Option (List CoreId) :=
  let nt := r.launch.nt
  let free := (List.finRange 256).filter (s.takes r)
  let awake := free.filter fun c => (s.core c).awake
  let dark := free.filter fun c => !(s.core c).awake
  if free.length < nt then none
  else if nt ≤ awake.length then
    let byBands := (List.range 5).flatMap fun n => awake.filter fun c => s.bandsUp r.launch c == n
    some (awake.filter (byBands.take nt).contains)
  else
    let g := nt - awake.length
    let n := ((List.range 65).find? fun n => decide (g ≤ s.capacity [] n dark)).getD 64
    let chosen := s.lowestDark [] n g dark
    some (free.filter fun c => (s.core c).awake || chosen.contains c)
/-- The placement that R316 chooses. -/
def State.bestPlace (s : State) (r : QRec) : Option (List CoreId) :=
  if r.launch.any then s.placeAny r
  else (s.placements r).foldl (fun (best : Option (List CoreId)) p => match best with
    | none => some p
    | some b => if lexLt (s.cost r p) (s.cost r b) then some p else some b) none
/-- A record's stokers, if all are free and no partitioning on its way takes their quarters (R306, R316). -/
def State.freeStokers (s : State) (l : Launch) : Option (List (Fin 384)) :=
  let cs : List (Fin 384) := (List.range l.ns).map fun i => ⟨l.chan i % 384, Nat.mod_lt _ (by decide)⟩
  if cs.all fun k => (s.stoker k).bid.isNone && !(s.stoker k).record.getLsbD 63 && !s.changing (k.val / 96) then some cs else none
/-- The bound of a member's load (R317). -/
def Launch.loadTicks (l : Launch) : Nat := let (ilines, dsize) := l.image; 2250 + (64 * ilines + dsize + 255) / 256
/-- Ticks of a member's preparation with a load of some ticks: the core wakes, then its bands, alongside the load (R317). -/
def State.prepWith (s : State) (l : Launch) (c : CoreId) (load : Nat) : Nat :=
  (if (s.core c).awake then 0 else 18000) + max (2250 * s.bandsUp l c) load
/-- Ticks of a member's preparation at most (R317). -/
def State.prepTicks (s : State) (l : Launch) (c : CoreId) : Nat := s.prepWith l c l.loadTicks
/-- The release tick of a placement at the present tick (R317). -/
def State.releaseTick (s : State) (l : Launch) (cs : List CoreId) : Nat :=
  max (max (s.hc + 4500) (s.hc + (cs.map (s.prepTicks l)).foldl max 0)) (l.f 20 0 64)
/-- FSLOT with absolute layers (R310, R318). -/
def Launch.fslotAt (l : Launch) (low : Nat) : Word :=
  BitVec.ofNat 64 (l.fslots.foldl (fun v e =>
    let ly (n : Nat) : Nat := if l.any then n else (n + low) % 4
    v + (16 + 4 * ly e.2.1 + ly e.2.2) * 256 ^ e.1) 0)
/-- Binding IDs that are free, ascending from a number on: a binding keeps its ID until its completion has been reported, also while its record
waits for another run (R314, R318). -/
def State.freeBids (s : State) : Nat → Nat → Nat → Option (List Nat)
  | _, _, 0 => some []
  | 0, _, _ => none
  | fuel + 1, n, k + 1 =>
    if 65535 < n then none
    else if (s.binding n).isSome || s.lib.reports.any (fun r => r.bid == n) || s.lib.records.any (fun r => r.bid == n) then s.freeBids fuel (n + 1) (k + 1)
    else (s.freeBids fuel (n + 1) k).map (n :: ·)
/-- The IDs of the next bindings: from the next one on, or, where too few follow it, from 1 on. -/
def State.nextBids (s : State) (k : Nat) : List Nat :=
  ((s.freeBids 65536 (max 1 s.lib.nextBid) k).or (s.freeBids 65536 1 k)).getD []

/-! ### The slot table (R318) -/

/-- The bits of each word of a core slot's record that are reserved (R92, R318). -/
def slotReserved (i : Nat) : Nat :=
  match i with
  | 0 => 0x7FFF0000FF00FFFF
  | 3 => 0xE0E0E0E0E0E0E0E0
  | 6 => 0x0000E000FFFFFFFF
  | 7 => 2 ^ 64 - 1
  | _ => 0
/-- The value of DOM0 on a core (R30). -/
def dom0 (c : CoreId) : Word := BitVec.ofNat 64 (c.val * 2 ^ 48 + 2 ^ 47 + 4 * 2 ^ 23)
/-- BID and INDEX of a bind record (R318). -/
def slotTask (r : Vector Word 8) : Nat × Nat := (Word.bits r[0] 32 16, Word.bits r[0] 16 8)
/-- The bind record of task `i` of a binding; `base` tasks of its gang stand in bindings of lower ID (R30, R314, R318). Where the Librarian keeps
its copy of the launch record is free (log entry 4). -/
def Binding.slotWords (b : Binding) (i base : Nat) (rcopy : Word) : Vector Word 8 :=
  let l := b.launch
  let dom (gid en count index : Nat) : Word := BitVec.ofNat 64 (gid % 65536 * 2 ^ 48 + en * 2 ^ 47 + count % 2 ^ 23 * 2 ^ 23 + index % 2 ^ 23)
  #v[BitVec.ofNat 64 (2 ^ 63 + b.bid % 65536 * 2 ^ 32 + i % 256 * 2 ^ 16), BitVec.ofNat 64 b.rel, rcopy, b.fslot,
     dom (l.f 8 48 16) (l.f 8 47 1) (l.f 8 23 23) (base + i), dom (l.f 9 48 16) (l.f 9 47 1) (l.f 9 23 23) (l.f 9 0 23 + i),
     BitVec.ofNat 64 (b.asid % 65536 * 2 ^ 48 + l.f 22 0 3 * 2 ^ 42 + l.f 22 4 8 * 2 ^ 34 + l.f 0 43 1 * 2 ^ 33 + b.cg.toNat * 2 ^ 32), 0]
/-- A core slot is written: the dispatch hardware ignores a write to a valid slot and a record with a reserved bit set, and reports both; a valid
record makes it prepare the core, within the times of R317 (R7, R318, R319; event codes of log entry 9). -/
def State.writeSlot (s : State) (c : CoreId) (ws : Vector Word 8) : State :=
  let k := s.core c
  if slotValid k.slot then s.event 10 [BitVec.ofNat 64 c.val, ws[0]]
  else if (List.range 8).any fun i => ws[i % 8]'(Nat.mod_lt _ (by decide)) &&& BitVec.ofNat 64 (slotReserved i) != 0 then s.event 11 [BitVec.ofNat 64 c.val, ws[0]]
  else if !slotValid ws then s.updCore c fun k => { k with slot := ws }
  else
    let (n, s) := s.draw
    let l := ((s.binding (slotTask ws).1).map (·.launch)).getD {}
    let at' := s.hc + s.prepWith l c (1 + Config.delay n % l.loadTicks)
    (s.updCore c fun k => { k with slot := ws, task := k.task.or (some (slotTask ws)), prepared := false, prepAt := some at' }).post .hc at' latePrio
      (.ev .dispatchPrepare)
/-- A stoker slot is written, under the same rules (R7, R318). -/
def State.writeStokerSlot (s : State) (k : Fin 384) (v : Word) : State :=
  if (s.stoker k).record.getLsbD 63 then s.event 10 [BitVec.ofNat 64 (256 + k.val), v]
  else if v &&& 0x7FFF0000FFFFFFF8 ≠ 0 then s.event 11 [BitVec.ofNat 64 (256 + k.val), v]
  else s.updStoker k fun t =>
    if v.getLsbD 63 then { t with record := v, bid := some (Word.bits v 32 16), slot := Word.bits v 0 3, ecc := 0 } else { t with record := v }

/-- Places a record on cores: its binding, and the bind records of its members and stokers, from which gate requests of the Librarian's own are
withdrawn first (R316-R319). -/
def State.place (s : State) (r : QRec) (cs : List CoreId) (sks : List (Fin 384)) (rel bid base : Nat) : State :=
  let l := r.launch
  let asid := s.recAsid r
  let low := (cs.map layerOf).foldl min 4
  let b : Binding :=
    { bid := bid, launch := l, queue := r.queue, run := r.run, part := ((s.queue r.queue).map (·.part)).getD 0, asid := asid, root := s.root asid
      cg := l.f 0 44 1 == 1, members := cs, stokers := sks, fslot := l.fslotAt low, rel := rel, relHc := none, dt := 0, live := false
      pace := .running, horizon := none, faulted := false, preempt := false, stopped := false, reqHc := 0, stopHc := 0, status := none, retired := []
      shadows := [], swapping := none, quota := 0, phase := 0, moved := [] }
  let s : State := { s with bindings := s.bindings ++ [b], lib := { s.lib with nextBid := bid + 1, records := s.lib.records.filter fun o => o.num != r.num } }
  let s := cs.zipIdx.foldl (fun (s : State) (c, i) =>
    let (n, s) := s.draw
    (s.updCore c fun k => { k with gateReq := false, gateOwn := false }).writeSlot c (b.slotWords i base (Config.datum n))) s
  sks.zipIdx.foldl (fun (s : State) (k, i) => s.writeStokerSlot k (BitVec.ofNat 64 (2 ^ 63 + bid % 65536 * 2 ^ 32 + i % 8))) s
/-- Places the records of a gang one after another on the same release tick, each with its binding ID, if every one fits now; `base` tasks of
the gang stand before them (R314, R316). -/
def State.placeAll (s : State) (rel : Nat) : Nat → List (QRec × Nat) → Option State
  | _, [] => some s
  | base, (r, bid) :: rs =>
    match s.bestPlace r, s.freeStokers r.launch with
    | some cs, some sks => (s.place r cs sks rel bid base).placeAll rel (base + cs.length) rs
    | _, _ => none
/-- The release tick that a gang's placements share: the latest of them (R314, R317). -/
def State.gangTick (s : State) (rs : List (QRec × Nat)) : Nat :=
  (rs.foldl (fun (p : Nat × State) r => match p.2.bestPlace r.1, p.2.freeStokers r.1.launch with
    | some cs, some sks => (max p.1 (p.2.releaseTick r.1.launch cs), p.2.place r.1 cs sks 0 r.2 0)
    | _, _ => p) (0, s)).1
/-- A placement has given a core a bind record for which it must wake, or power up bands (R317, R383). -/
def State.wakes (s t : State) : Bool :=
  (List.finRange 256).any fun c => !slotValid (s.core c).slot && slotValid (t.core c).slot && (!(s.core c).awake ||
    decide (0 < s.bandsUp (((t.binding (slotTask (t.core c).slot).1).map (·.launch)).getD {}) c))
/-- Places a record and its gang now, if all of them can be, with binding IDs ascending in acceptance order; a placement that wakes a core or a band
is held back where that would pass the rack cap, by a free value, since no rule gives a core's power (R314, R316, R383). -/
def State.tryPlace (s : State) (r : QRec) : Option State :=
  let g := (s.gang r).mergeSort fun a b => a.num ≤ b.num
  let bids := s.nextBids g.length
  let gs := g.zip bids
  if domGid r.dom2 ≠ 0 ∧ tasksOf g ≠ domCount r.dom2 then none
  else if !(g.all fun o => o.eligible.isSome) then none
  else if bids.length < g.length then none
  else (s.placeAll (s.gangTick gs) 0 gs).filter fun t => !(s.wakes t && Config.choose s.choice)
/-- The partition of a record's queue. -/
def State.recPart (s : State) (r : QRec) : Nat := ((s.queue r.queue).map (·.part)).getD 0
/-- The first record in rank order that can be placed; a record that has stood first for 2^24 ticks holds its partition against those
of lower rank, and so against their gangs (R315). -/
def State.placeFirst (s : State) (held : List Nat) : List QRec → Option State
  | [] => none
  | r :: rs =>
    if (r :: s.gang r).any fun o => held.contains (s.recPart o) then s.placeFirst held rs
    else match s.tryPlace r with
      | some s' => some s'
      | none =>
        let holds := match r.first with | some t => decide (t + 2 ^ 24 ≤ s.hc) | none => false
        s.placeFirst (if holds then s.recPart r :: held else held) rs
/-- Which record of each partition stands first in rank, and since when (R315). -/
def State.standFirst (s : State) : State :=
  let ranked := s.ranked
  let first (r : QRec) : Bool := (ranked.find? fun o => s.recPart o == s.recPart r) == some r
  { s with lib := { s.lib with records := s.lib.records.map fun r => { r with first := if first r then some (r.first.getD s.hc) else none } } }
/-- Event: the Librarian places the highest-ranked record that fits now, and looks for another (R315-R318). -/
def execPlacement (s : State) : Host.Outcome State Fault Refusal :=
  .next (
    let s := s.standFirst
    let r := if s.boot.recovery then none else s.placeFirst [] s.ranked
    let t := r.getD s
    let s : State := { t with choice := t.choice + 1 }
    if r.isSome then s.post .hc s.hc latePrio (.ev .placement) else s)

end Sys2Proof.Machine
end

