-- ==== Sys2Proof/Machine/Sha3.lean ====
section
/-! DEFINITION. SHA3-256 of FIPS 202, which the spec names for the digests of save areas and firmware images (R2, R358, R390). The standard is taken
from outside the spec (PRESUMED, log entry 6). -/

namespace Sys2Proof.Machine

/-- A Keccak state: 25 lanes of 64 bits, lane (x, y) at x + 5y. -/
abbrev Lanes := List Word

/-- The lane (x, y), both modulo 5. -/
def Lanes.at (a : Lanes) (x y : Nat) : Word := a.getD (x % 5 + 5 * (y % 5)) 0
/-- The lanes of a function of x and y. -/
def Lanes.ofFn (f : Nat → Nat → Word) : Lanes := (List.range 25).map fun i => f (i % 5) (i / 5)
/-- The rotations of ρ, by lane. -/
def keccakRotations : List Nat :=
  [0, 1, 62, 28, 27, 36, 44, 6, 55, 20, 3, 10, 43, 25, 39, 41, 45, 15, 21, 8, 18, 2, 61, 56, 14]
/-- The round constants of ι. -/
def keccakConstants : List Word :=
  [0x0000000000000001, 0x0000000000008082, 0x800000000000808A, 0x8000000080008000, 0x000000000000808B, 0x0000000080000001,
   0x8000000080008081, 0x8000000000008009, 0x000000000000008A, 0x0000000000000088, 0x0000000080008009, 0x000000008000000A] ++
  [0x000000008000808B, 0x800000000000008B, 0x8000000000008089, 0x8000000000008003, 0x8000000000008002, 0x8000000000000080,
   0x000000000000800A, 0x800000008000000A, 0x8000000080008081, 0x8000000000008080, 0x0000000080000001, 0x8000000080008008]
/-- One round: θ, ρ and π, χ, ι. -/
def keccakRound (a : Lanes) (rc : Word) : Lanes :=
  let c := (List.range 5).map fun x => (List.range 5).foldl (fun v y => v ^^^ a.at x y) 0
  let d (x : Nat) : Word := c.getD ((x + 4) % 5) 0 ^^^ (c.getD ((x + 1) % 5) 0).rotateLeft 1
  let t := Lanes.ofFn fun x y => a.at x y ^^^ d x
  let b := Lanes.ofFn fun x y =>
    let x' := (x + 3 * y) % 5
    (t.at x' x).rotateLeft (keccakRotations.getD (x' + 5 * x) 0)
  Lanes.ofFn fun x y => (b.at x y ^^^ (~~~(b.at (x + 1) y) &&& b.at (x + 2) y)) ^^^ (if x = 0 ∧ y = 0 then rc else 0)
/-- The permutation Keccak-f[1600]. -/
def keccakF (a : Lanes) : Lanes := keccakConstants.foldl keccakRound a
/-- Bytes in a block of SHA3-256. -/
def sha3Rate : Nat := 136
/-- A message with the suffix and the padding of SHA3-256, up to a whole number of blocks. -/
def sha3Pad (bs : List Byte) : List Byte :=
  let q := sha3Rate - bs.length % sha3Rate
  if q = 1 then bs ++ [0x86] else bs ++ [0x06] ++ List.replicate (q - 2) 0 ++ [0x80]
/-- A block added to the lanes it covers. -/
def absorb (a : Lanes) (block : List Byte) : Lanes :=
  (List.range 25).map fun i => a.getD i 0 ^^^ (if i < 17 then BitVec.ofNat 64 (leNat ((block.drop (8 * i)).take 8)) else 0)
/-- Blocks absorbed one after another. -/
def absorbAll : Nat → Lanes → List Byte → Lanes
  | 0, a, _ => a
  | n + 1, a, bs => absorbAll n (keccakF (absorb a (bs.take sha3Rate))) (bs.drop sha3Rate)
/-- SHA3-256 of a message: 32 bytes, the first in the lowest bits. -/
def sha3 (bs : List Byte) : BitVec 256 :=
  let p := sha3Pad bs
  let a := absorbAll (p.length / sha3Rate) (List.replicate 25 0) p
  a.getD 3 0 ++ a.getD 2 0 ++ a.getD 1 0 ++ a.getD 0 0

end Sys2Proof.Machine
end

