-- ==== Sys2Proof/Machine/Preempt.lean ====
section
/-! DEFINITION. Freezing and resuming a binding, faults that end one, pre-emption, the save engine and the save area (R347-R361). -/

namespace Sys2Proof.Machine

/-! ### Freeze and resumption (R348-R350) -/

/-- A binding reaches its freeze horizon in this cycle (R349). -/
def Binding.atHorizon (b : Binding) : Bool :=
  b.live && b.pace != .frozen && (match b.horizon with | some h => decide (h ≤ b.dt) | none => false)
/-- Event: the first binding at its horizon stops: its DT stands, and nothing timed by it issues or performs (R349). -/
def execFreezeHorizon (s : State) : Host.Outcome State Fault Refusal :=
  .next (match s.bindings.find? (·.atHorizon) with
    | none => s
    | some b => s.updBinding b.bid fun b => { b with pace := .frozen, live := false })

/-- The access of a hold cannot perform while domain time stands: it is in its memory queue, or behind an older access of its strand that has
not performed at core scope (R102, R106, R349). -/
def State.heldUp (s : State) (c : CoreId) (st : StrandId) (w : Wait) : Bool :=
  (s.strand c st).outs.any (fun o => decide (o.seq < w.seq) && !o.core) ||
  s.cal.any fun d => match d.work with
    | .queued _ e o n _ _ _ _ _ _ _ => decide (e = c) && decide (o = st) && n == w.ord
    | .ev (.storePerform a) => a.core == c && a.strand == st && a.ord == w.ord && !a.posted
    | _ => false
/-- A strand that waits for a value of a load or of another unit that will come, or whose far access its port still holds, has not stopped at an
instruction boundary (R353, R355). -/
def State.strandBusy (s : State) (c : CoreId) : Bool :=
  [StrandId.x, .l, .c, .s].any (fun st => match (s.strand c st).wait with
    | some w => (match w.why with | .held _ _ => !s.heldUp c st w | .unit _ _ => true | _ => false)
    | none => false) ||
  (s.portOf c).any fun p => p.2.posted
/-- A barrier-regime copy that its copy unit can acknowledge: squashed, or a collective that has read its source and waits for the
others (R354, R355). -/
def Copy.quiet (p : Copy) : Bool := p.kind.inPkg || p.stopped || (p.coll.isSome && p.formed.isNone && p.left.isEmpty && decide (p.chunks ≤ p.rd))
/-- A copy stopped at a chunk goes on with it; one whose result is formed or whose source bytes are read performs it (R197, R350). -/
def State.resumeCopy (s : State) (p : Copy) : State :=
  if !p.stopped then s
  else
    let s := s.updCopy p.core p.id fun q => { q with stopped := false, fault := none }
    let perform := p.formed.isSome || p.filled
    s.sometime (.ev (if perform then .copyChunkPerform p.id p.chunk else .copyChunkRead p.id p.chunk)) (p.rank perform)
/-- Hobs held behind a failed command go on (R126, R350). DESIGN CHOICE (log entry 52): the manual does not say from which cycle; the commands
start anew as if they had issued in the cycle that DT stands in, so none before DT + 7. -/
def State.resumeHobs (s : State) (c : CoreId) : State :=
  (List.finRange 4).foldl (fun (s : State) q =>
    if ((s.core c).hob q).held then
      (s.updHob c q fun b => { b with held := false, free := max b.free (s.dt c + 7) }).planHob c q 17
    else s) s
/-- A stoker has no command under way: no group runs, or the one that runs stands between two commands or in a SEMWAIT (R273, R361). -/
def State.stokerQuiet (s : State) (sk : Fin 384) : Bool :=
  (match (s.stoker sk).group with | some g => g.waiting.isSome | none => true) || (s.dropCommands sk).cal.length == s.cal.length
/-- A stoker goes on with the group that was saved on it, or that stands between two commands (R361). -/
def State.resumeStoker (s : State) (sk : Fin 384) : State :=
  let t := s.stoker sk
  if !t.halt && !t.stopped then s
  else
    let idle := (s.dropCommands sk).cal.length == s.cal.length
    let s := s.updStoker sk fun t => { t with halt := false, stopped := false, saved := none }
    match t.saved, t.group with
    | some g, _ => s.nextCommand sk { g with waiting := g.waiting.map (s.hc - ·) }
    | none, some g => if idle then s.nextCommand sk g else s
    | none, none => s.startNext sk
/-- A frozen binding resumes: DT goes on from the horizon on every member (R350). -/
def State.resumeBinding (s : State) (b : Binding) : State :=
  let s := s.updBinding b.bid fun b => { b with pace := .resuming, horizon := none, faulted := false, preempt := false, stopped := false }
  let s := b.members.foldl (fun (s : State) c =>
    if s.bidOf c ≠ b.bid then s
    else ((s.core c).copies.foldl (fun (s : State) p => s.resumeCopy p) s).resumeHobs c) s
  b.stokers.foldl (fun (s : State) sk => s.resumeStoker sk) s
/-- The members of a binding that have not retired hold its task. -/
def State.inPlace (s : State) (b : Binding) : Bool := b.members.all fun c => b.retired.contains c || s.bidOf c == b.bid
/-- A strand of a member has stopped at a double trap, which the Librarian cannot resolve (R340). -/
def State.doubleTrapped (s : State) (b : Binding) : Bool :=
  b.members.any fun c => s.bidOf c == b.bid && (s.core c).strands.toList.any fun t => t.run == .stopped
/-- Event: the Librarian resumes a frozen binding whose members stand in place and whose fault it could resolve (R340, R350, R356). -/
def execBindingResume (bid : Nat) (s : State) : Host.Outcome State Fault Refusal :=
  .next (match s.binding bid with
    | none => s
    | some b => if b.pace = .frozen ∧ b.status.isNone ∧ s.inPlace b ∧ !s.doubleTrapped b then s.resumeBinding b else s)

/-! ### A fault that ends a binding (R340, R347) -/

/-- A trap of a strand is one that the Librarian answers with FAULT or a re-run: a double trap, or the trap in progress of a cause other than INTR,
SWTRAP, FLUEDEG and the translation faults for which the handler waits (R340, R347). -/
def Strand.faulted (t : Strand) : Bool :=
  t.run == .stopped || (t.level && (⟨Word.bits t.tcause 0 8, 0, 0, t.tinfo1, false, t.tcause.getLsbD 9⟩ : TrapInfo).fatal)
/-- The strands of a binding whose faults end it. -/
def State.faultedStrands (s : State) (b : Binding) : List Strand :=
  b.members.flatMap fun c => if s.bidOf c = b.bid then (s.core c).strands.toList.filter (·.faulted) else []
/-- The events that carry the trap registers of the strands whose faults end a binding (R347, log entry 9). -/
def State.faultEvents (s : State) (b : Binding) : State :=
  (s.faultedStrands b).foldl (fun (s : State) t => s.event 4 [t.tcause, t.tepc, t.tinfo0, t.tinfo1]) s
/-- Every fault of a binding's strands is a memory error at user level, so that a commit group is run again (R347). -/
def State.memErrTrap (s : State) (b : Binding) : Bool :=
  let ts := s.faultedStrands b
  !ts.isEmpty && ts.all fun t => t.run != .stopped && Word.bits t.tcause 0 8 == 11
/-- Event: a fault that cannot be restarted ends a binding: the events, every shadow discarded, and FAULT, or another run of a
commit group after a memory error (R51, R321, R347). -/
def execBindingFault (bid : Nat) (s : State) : Host.Outcome State Fault Refusal :=
  .next (match s.binding bid with
    | none => s
    | some b =>
      if b.status.isSome then s
      else
        let status := if b.cg ∧ s.memErrTrap b then b.retryOr statusFault else statusFault
        (s.faultEvents b).endBinding bid status)

/-! ### Pre-emption (R352-R355, R361) -/

/-- A pre-emption with abort: the group that a stoker runs for the binding ends with PREEMPT at once (R253, R273, R361). -/
def State.abortStoker (s : State) (bid : Nat) (sk : Fin 384) : State :=
  match (s.stoker sk).group with
  | some g => if g.ref.bid = bid then (s.dropCommands sk).endRunning sk { g with next := g.next + 1 } 15 else s
  | none => s
/-- Event: the Librarian pre-empts a binding at a frame boundary; a freeze that stands or is due keeps its horizon. Whether it pre-empts a stoker
with save or with abort is its own choice, a free value; with save the stoker finishes its current command (R351, R352, R361, log entry 4). -/
def execPreemptRequest (bid : Nat) (s : State) : Host.Outcome State Fault Refusal :=
  .next (match s.binding bid with
    | none => s
    | some b =>
      if b.preempt ∨ b.relHc.isNone then s
      else
        let s := s.updBinding bid fun b => { b with preempt := true, reqHc := s.hc, horizon := b.horizon.or (some (8 * ((b.dt + 32 + 7) / 8))) }
        b.stokers.foldl (fun (s : State) sk =>
          let (n, s) := s.draw
          let s := s.updStoker sk fun t => { t with halt := true }
          if Config.choose n then s.abortStoker bid sk else s) s)
/-- A binding has copies to squash: past its drain limit, between chunks (R354). -/
def State.squashable (s : State) (b : Binding) (p : Copy) : Bool :=
  s.squashing p.core && b.members.contains p.core && !p.quiet && !p.filled && p.formed.isNone && p.coll.isNone
/-- Event: the drain limit of the first pre-empted binding has passed: chunks whose source count has not been applied are abandoned
and stay as replay records (R354). -/
def execPreemptDrainLimit (s : State) : Host.Outcome State Fault Refusal :=
  .next (match s.bindings.find? fun b => b.members.any fun c => (s.core c).copies.any (s.squashable b) with
    | none => s
    | some b =>
      let out (d : Due) : Bool := match d.work with
        | .ev (.copyChunkRead i _) => (match s.copy i with | some p => s.squashable b p | none => false)
        | _ => false
      b.members.foldl (fun (u : State) c => u.updCore c fun k =>
        { k with copies := k.copies.map fun p => if s.squashable b p then { p with stopped := true, words := none, data := [], samples := [], srcAt := [], barAt := none } else p })
        { s with cal := s.cal.filter fun d => !out d })
/-- The pre-emption of a binding completes when every strand, hob, flue port, copy unit and stoker has stopped (R355). -/
def State.preempted (s : State) (b : Binding) : Bool :=
  b.preempt && !b.stopped && b.pace == .frozen && b.stokers.all (fun sk => s.stokerQuiet sk) && b.members.all fun c =>
    s.bidOf c != b.bid || (!s.strandBusy c && (s.core c).copies.all (·.quiet))
/-- Base-die firmware saves a stoker's group between two commands, in a record of 4 KiB with version byte 1 in frame 1,022 of its channel; its
transaction stays open. The record's layout is not given: its other bytes are free, and what they record is held beside them (R361, log entry 4). -/
def State.saveStoker (s : State) (sk : Fin 384) : State :=
  let (bs, s) := s.drawBytes 4095
  (s.dropCommands sk).updStoker sk fun t =>
    { t with halt := false, stopped := true, group := none, saved := t.group.map fun g => { g with waiting := g.waiting.map (s.hc - ·) }
             frame := if t.group.isSome then Mem.write [] 0 (1 :: bs) else t.frame }
/-- Event: the last acknowledgement of a pre-emption arrives: object waits are unlinked, to be issued again, as are loads and atomics whose access
has not left its strand, and the stokers are saved (R200, R355, R361). -/
def execPreemptComplete (s : State) : Host.Outcome State Fault Refusal :=
  .next (match s.bindings.find? s.preempted with
    | none => s
    | some b =>
      let s := s.updBinding b.bid fun b => { b with stopped := true, stopHc := s.hc }
      let s := b.members.foldl (fun (s : State) c => if s.bidOf c ≠ b.bid then s else
        [StrandId.x, .l, .c, .s].foldl (fun (s : State) st => match (s.strand c st).wait with
          | some w => (match w.why with | .object _ _ _ _ _ | .held _ _ => s.abandon c st | _ => s)
          | none => s) s) s
      b.stokers.foldl (fun (s : State) sk => s.saveStoker sk) s)

/-- A binding's stokers are free: groups that still run or wait end with PREEMPT (R253). -/
def State.freeStoker (s : State) (bid : Nat) (sk : Fin 384) : State :=
  let t := s.stoker sk
  let sem (r : GroupRef) : Option Nat :=
    let a := (s.gm.word (r.pa + 24)).toNat
    if a % 16 = 0 then s.semPa (((s.binding bid).map (·.asid)).getD 0) a else none
  let s := match t.group.or t.saved with
    | some g => if g.ref.bid = bid then (s.dropCommands sk).endRunning sk { g with next := g.next + 1 } 15 else s
    | none => s
  let s := (t.queue.filter fun r => r.bid == bid).foldl (fun (s : State) r => s.endGroup sk r 15 0 0 0 (sem r)) s
  s.updStoker sk fun t => { t with bid := none, record := 0, saved := none, halt := false, stopped := false, queue := t.queue.filter fun r => r.bid != bid }

/-! ### Moving a task between cores (R360) -/

/-- A need under a map of cores. -/
def needMove (f : CoreId → CoreId) (n : Need) : Need := { n with core := f n.core }
/-- An address of PS under a map of cores. -/
def movePs (f : CoreId → CoreId) (a : Nat) : Nat := a / 2 ^ 30 * 2 ^ 30 + (f (psCore a)).val * lsSize + a % lsSize
/-- A unit under a map of cores. -/
def unitMove (f : CoreId → CoreId) : MemUnit → MemUnit
  | .ls c => .ls (f c)
  | u => u
/-- A copy number under a map of cores. -/
def moveId (f : CoreId → CoreId) (id : Nat) : Nat := id / 256 * 256 + (f (coreId id)).val
/-- A chain under a map of cores. -/
def Chain.move (f : CoreId → CoreId) (h : Chain) : Chain := { h with head := f h.head }
/-- A copy record under a map of cores: its own core, and those its addresses name (R360). -/
def Copy.move (f : CoreId → CoreId) (p : Copy) : Copy :=
  let dst := match p.kind with
    | .lp => movePs f p.dst
    | .lf => layerOf (f (coreId (64 * (p.dst / lsSize % 4) + p.core.val % 64))) * lsSize + p.dst % lsSize
    | _ => p.dst
  let src := match p.kind with | .pl => movePs f p.src | _ => p.src
  let bar (b : ObjSpace × Nat) : ObjSpace × Nat := if b.1 = .ps then (.ps, movePs f b.2) else b
  { p with id := moveId f p.id, core := f p.core, dst := dst, src := src, db := p.db.map bar, sb := p.sb.map bar }
/-- A command under a map of cores; the rows and scales that it has read go by member, not by core. -/
def HobCmd.move (f : CoreId → CoreId) (m : HobCmd) : HobCmd :=
  { m with chain := m.chain.map (·.move f), descs := m.descs.map fun d => (f d.1, d.2)
           bstate := m.bstate.map fun b => { b with core := f b.core }, tops := m.tops.map fun t => (f t.1, t.2), needs := m.needs.map (needMove f) }
/-- A hob under a map of cores. -/
def Hob.move (f : CoreId → CoreId) (b : Hob) : Hob :=
  { b with cmds := b.cmds.map (·.move f), writes := b.writes.map fun w => { w with core := f w.core } }
/-- A strand under a map of cores. -/
def Strand.move (f : CoreId → CoreId) (t : Strand) : Strand :=
  { t with due := t.due.map fun d => (d.1, needMove f d.2), holds := t.holds.map fun h => { h with needs := h.needs.map (needMove f) }
           wait := t.wait.map fun w => { w with unit := unitMove f w.unit }
           outs := t.outs.map fun o => { o with unit := unitMove f o.unit } }
/-- What a core holds of a task, under a map of cores (R360). -/
def Core.move (f : CoreId → CoreId) (k : Core) : Core :=
  { k with strands := k.strands.map (·.move f), hobs := k.hobs.map (·.move f), copies := k.copies.map (·.move f), chain := k.chain.map (·.move f)
           fifos := k.fifos.map fun (q : Fifo) => { q with toks := q.toks.map fun t => { t with needs := t.needs.map (needMove f) } }
           chans := k.chans.map fun (n : Chan) => { n with queue := n.queue.map fun q => (f q.1, moveId f q.2) } }
/-- An access under a map of cores. -/
def accessMove (f : CoreId → CoreId) (a : Access) : Access := { a with core := f a.core, unit := unitMove f a.unit }
/-- Pending work under a map of cores. -/
def Work.move (f : CoreId → CoreId) : Work → Work
  | .ev (.storePerform a) => .ev (.storePerform (accessMove f a))
  | .ev (.waitRelease c st o v) => .ev (.waitRelease (f c) st o v)
  | .ev (.mloadbStart c q i) => .ev (.mloadbStart (f c) q i)
  | .ev (.mmaStart c q i) => .ev (.mmaStart (f c) q i)
  | .ev (.accumulatorRowWrite c q i r) => .ev (.accumulatorRowWrite (f c) q i r)
  | .ev (.mdrainStart c q i) => .ev (.mdrainStart (f c) q i)
  | .ev (.drainRowWrite c q i r) => .ev (.drainRowWrite (f c) q i r)
  | .ev (.mzeroStart c q i) => .ev (.mzeroStart (f c) q i)
  | .ev (.nlaunchDelivery c q i) => .ev (.nlaunchDelivery (f c) q i)
  | .ev (.dsyncComplete c l) => .ev (.dsyncComplete (f c) l)
  | .ev (.srseedWrite c v) => .ev (.srseedWrite (f c) v)
  | .ev (.fcsrWrite c st v) => .ev (.fcsrWrite (f c) st v)
  | .ev (.earlyrdWrite c v) => .ev (.earlyrdWrite (f c) v)
  | .ev (.stallTrap c st) => .ev (.stallTrap (f c) st)
  | .ev (.resultWrite c st r) => .ev (.resultWrite (f c) st r)
  | .ev (.latchReinject c st r) => .ev (.latchReinject (f c) st r)
  | .ev (.copyGroupTransfer i j d) => .ev (.copyGroupTransfer (moveId f i) j d)
  | .ev (.copyChunkRead i j) => .ev (.copyChunkRead (moveId f i) j)
  | .ev (.copyChunkPerform i j) => .ev (.copyChunkPerform (moveId f i) j)
  | .ev (.flueBeatPerform i j) => .ev (.flueBeatPerform (moveId f i) j)
  | .ev i => .ev i
  | .flight c st o => .flight (f c) st o
  | .lsRead r => .lsRead { r with core := f r.core, target := f r.target }
  | .push c st p n => .push (f c) st p n
  | .objRead c st o q u pa poll d p => .objRead (f c) st o q (unitMove f u) pa poll d p
  | .objJudge c st o u pa => .objJudge (f c) st o (unitMove f u) pa
  | .farRead c st o q d cs x vas => .farRead (f c) st o q d cs x vas
  | .unitDone c st o v => .unitDone (f c) st o v
  | .holds c st => .holds (f c) st
  | .rowRead c q i g r => .rowRead (f c) q i g r
  | .scaleRead c q i r => .scaleRead (f c) q i r
  | .topRead c q i r => .topRead (f c) q i r
  | .rowLeave c q i r => .rowLeave (f c) q i r
  | .drainRead c q i r => .drainRead (f c) q i r
  | .zeroRows c q i g => .zeroRows (f c) q i g
  | .loadRead c q i k => .loadRead (f c) q i k
  | .loadDone c q i => .loadDone (f c) q i
  | .accq c st o x => .accq (f c) st o x
  | .evpost c st o x p => .evpost (f c) st o x p
  | .nstat c st o x e => .nstat (f c) st o x e
  | .notify k ws => .notify k ws
  | .cellsRead c st o r k w => .cellsRead (f c) st o r k w
  | .cellsWrite c r k w d m => .cellsWrite (f c) r k w d m
  | .wswap c => .wswap (f c)
  | .chainJudge c => .chainJudge (f c)
  | .copyAccept c i => .copyAccept (f c) (moveId f i)
  | .wpMove c ch a => .wpMove (f c) ch a
  | .copyEnd c i => .copyEnd (f c) (moveId f i)
  | .nabort c st o x a => .nabort (f c) st o x a
  | .accStep n => .accStep n
  | .remotes => .remotes
  | .advise i => .advise i
  | .enforceCap l => .enforceCap l
  | .dtEnd c st o => .dtEnd (f c) st o
  | .queued k c st o q b ns l p far w => .queued k (f c) st o q b (ns.map (needMove f)) l p far (w.move f)

/-! ### The save area (R356-R359) -/

/-- Zero bytes. -/
def zeros (n : Nat) : List Byte := List.replicate n 0
/-- A column scale as it was loaded: an e8m0 scale in bits [7:0] (R357). -/
def scaleAsLoaded (csm : Nat) (w : Word32) : Nat := if csm ≠ 1 then w.toNat else if w = 0x00400000 then 0 else bitsAt w.toNat 23 8
/-- The column scale of a PE column that a save area shows: that of the first hob of the cut that has the column (R132, R357, log entry 44). -/
def Core.shownScale (k : Core) (n : Nat) : Word32 :=
  match (List.finRange 4).find? fun hq => (cutRect k.cut.toNat hq.val).any fun r => decide (r.pec ≤ n) && decide (n < r.pec + r.width) with
  | some hq => ((k.hob hq).scales.toList).getD n one32
  | none => one32
/-- The sections of a save area from 0x100 up to the effect records, with `open'` for those whose format the manual does not give
(R357; log entry 4). -/
def Core.sections (k : Core) (open' : Nat → Nat → List Byte) : List Byte :=
  zeros 0xF00 ++ open' 0 0x7000 ++ (k.v.toList.map vecBytes).flatten ++ open' 0x7000 0x6000 ++ k.breg.read 0 0x20000 ++ k.code.read 0 0x20000 ++
  ((List.range 128).map fun n => leBytes 4 (scaleAsLoaded k.csm (k.shownScale n))).flatten ++ leBytes 4 k.csm ++ zeros (0x1000 - 516) ++ zeros 0x2F000 ++
  k.acc.read 0 0x80000 ++ (if k.active then k.wb1 else k.wb0).read 0 0x40000 ++ (if k.active then k.wb0 else k.wb1).read 0 0x40000 ++
  zeros 0x80000 ++ k.ls.read 0 0x400000
/-- The bytes of one effect record: head, data, padding (R359). -/
def effectRecord (kind rel t target : Nat) (data : List Byte) : List Byte :=
  let pad := (16 - data.length % 16) % 16
  let len := 1 + (data.length + pad) / 16
  leBytes 8 (len % 256 * 2 ^ 56 + kind * 2 ^ 48 + rel * 2 ^ 47 + t % 2 ^ 47) ++ leBytes 8 target ++ data ++ zeros pad
/-- The data bytes of a result in a record, by its file (R345, R359). -/
def resultBytes (r : Result) : List Byte :=
  let n := match r.target with | .none => 0 | .x _ _ => 8 | .v _ => 256 | _ => 32
  if r.poison.isSome then zeros n else leBytes n r.data.toNat
/-- TLDESC of a result with a count (R345). -/
def resultDesc (r : Result) (rem : Nat) : Nat :=
  2 ^ 31 * r.poison.isSome.toNat + 2 ^ 25 * r.flags.toNat + 2 ^ 24 * r.pushP.toNat + 2 ^ 23 * r.pushN.toNat + 2 ^ 16 * targetCode r.target + min rem 0xFFFF
/-- The target of an accumulator write's record: its FP32 row and first column (R359; DESIGN CHOICE, log entry 44: the row in [63:32]). -/
def cellTarget (row col : Nat) : Nat := row * 2 ^ 32 + col
/-- The records of a vector write of accumulator cells: one for each FP32 row, from the first enabled element to the last (R236, R359). -/
def cellRecords (due row col : Nat) (wide : Bool) (data : VecData) (mask : MaskData) : List Byte :=
  let f : Fmt := if wide then .f64 else .f32
  let es := enabledElems mask f
  let rows := if wide then [(2 * row, 0), (2 * row + 1, 1)] else [(row, 0)]
  es.flatMap fun j => rows.flatMap fun r => effectRecord 2 0 due (cellTarget r.1 (col + j)) (leBytes 4 (elem data f j / 2 ^ (32 * r.2) % 2 ^ 32))
/-- The effect records of a core whose times are all in its binding's DT: results in flight and trap latches, writes on their way to a unit or to
accumulators, flue beats and copy groups that have been read and not written (R353, R359). -/
def State.effectRecords (s : State) (c : CoreId) (bid : Nat) : List Byte :=
  let k := s.core c
  let regs := k.strands.toList.flatMap fun t =>
    (t.flights.flatMap fun f => effectRecord 0 0 f.w (resultDesc f.res 0) (resultBytes f.res)) ++
    (t.allLatches.flatMap fun l => effectRecord 0 1 (min l.r 0xFFFF) (resultDesc l.fl.res l.r) (resultBytes l.fl.res))
  let pend := s.cal.filter fun d => d.clock == .dt bid
  let rest := pend.flatMap fun d => match d.work with
    | .ev (.storePerform a) => if a.core ≠ c then [] else (match a.op with
      | .write bs => effectRecord 1 0 d.due a.addr bs
      | .scatter bs => bs.flatMap fun b => effectRecord 1 0 d.due b.1 [b.2.1]
      | _ => effectRecord 1 0 d.due a.addr [])
    | .cellsWrite o r w wide v m => if o ≠ c then [] else cellRecords d.due r w wide v m
    | .ev (.accumulatorRowWrite o q i r) =>
      if o ≠ c then [] else (((k.hob q).writes.filter fun w => w.cmd == i && w.row == r && !w.done).flatMap fun w =>
        effectRecord 2 0 d.due (cellTarget w.acc (((k.hob q).cmds.find? fun m => m.id == i).map (·.pec) |>.getD 0))
          (w.words.flatMap fun v => leBytes 4 v.toNat))
    | .ev (.flueBeatPerform i j) => if coreId i ≠ c then [] else (match s.copyOf c i with
      | some p => effectRecord 3 0 d.due p.ch.val ((assocGet p.data j).getD [])
      | none => [])
    | .ev (.copyGroupTransfer i j .write) => if coreId i ≠ c then [] else (match s.copyOf c i with
      | some p => effectRecord 4 0 d.due p.ch.val ((assocGet p.data j).getD [])
      | none => [])
    | _ => []
  regs ++ rest

/-- Writes bytes of GM in an address space, page by page, up to the first page that does not translate; whether all were written. -/
def State.putBytes (s : State) (asid : Nat) : List (Nat × Nat) → List Byte → State × Bool
  | [], _ => (s, true)
  | (va, n) :: rest, bs =>
    match s.hit none asid (s.root asid) false true va .write with
    | .pa p _ => (s.storeAt .gm p (bs.take n)).putBytes asid rest (bs.drop n)
    | _ => (s, false)
/-- Writes bytes at a virtual address, as far as they translate; whether all were written. -/
def State.putAt (s : State) (asid va : Nat) (bs : List Byte) : State × Bool := s.putBytes asid (piecesOf va bs.length) bs
/-- Reads bytes of GM in an address space, or none where it does not translate. -/
def State.getAt (s : State) (asid va n : Nat) : Option (List Byte) :=
  let ps := (piecesOf va n).map fun q => (s.asidPa asid q.1 .read, q.2)
  if ps.any fun q => q.1.isNone then none else some (ps.flatMap fun q => s.gm.read (q.1.getD 0) q.2)

/-- Outcomes that the save engine reports: SAVE_OK, SAVE_FAULT, SAVE_SHORT, SAVE_NOTSTOPPED, LOAD_OK, LOAD_BADHDR, LOAD_FAULT,
LOAD_NOTIDLE (R356, R360; coded by log entry 9). -/
def State.outcome (s : State) (c : CoreId) (code size : Nat) : State :=
  ({ s with lib := { s.lib with outcomes := s.lib.outcomes ++ [(c, code, size)] } } : State).updCore c fun k => { k with engine := none }
/-- Headers' words 2 to 11 (R358). -/
def saveHeader (b : Binding) (k : Core) (c : CoreId) (reclen : Nat) (digest : BitVec 256) : List Byte :=
  let levels := k.strands.toList.zipIdx.foldl (fun n p => n + p.1.level.toNat * 2 ^ p.2) 0
  leBytes 8 (0x600000 + reclen) ++ leBytes 8 (b.dt % 2 ^ 48) ++ leBytes 8 b.stopHc ++ leBytes 8 (b.bid * 2 ^ 48 + c.val * 2 ^ 40 + reclen % 2 ^ 32) ++
  leBytes 8 (levels + 16 * b.faulted.toNat) ++ leBytes 8 0 ++ leBytes 32 digest.toNat
/-- A saved core's strands: what system-level strands have in flight is timed by DT from here on (R349). -/
def Core.settle (k : Core) (dt : Nat) : Core :=
  { k with engine := none, strands := k.strands.map fun (t : Strand) => { t with flights := t.flights.map fun f => if f.sys then { f with w := dt + (f.w - k.cyc), sys := false } else f } }
/-- The strand or copy unit of a core that pending work of its own clock or of the Hearth clock belongs to. -/
def Work.ownedBy (c : CoreId) : Work → Bool
  | .ev (.dsyncComplete o _) => o == c
  | _ => false
/-- The calendar of a saved core: its own cycles, and dsync completions on their way, are timed by its binding's DT (R349, R350). -/
def State.settleCal (s : State) (c : CoreId) (bid dt : Nat) : State :=
  let cyc := (s.core c).cyc
  { s with cal := s.cal.map fun d =>
      if d.clock = .cyc c then { d with clock := .dt bid, due := dt + (d.due - cyc) }
      else if d.clock = .hc ∧ d.work.ownedBy c then { d with clock := .dt bid, due := dt }
      else d }
/-- The save of a core whose binding's pre-emption is complete (R356). -/
def State.saveCore (s : State) (c : CoreId) (b : Binding) (va : Nat) : State :=
  -- results in flight are saved as they are rounded, in the order of their writes (R65, R66, R359, log entry 20)
  let s := s.updCore c fun k =>
    let (k, fs) := k.roundFlights (((k.settle b.dt).strand .c).flights.mergeSort fun x y => x.w < y.w || (x.w == y.w && x.ord ≤ y.ord))
    let rounded (f : Flight) : Flight := { f with res := ((fs.find? fun g => g.ord == f.ord && g.res.target == f.res.target).map (·.res)).getD f.res }
    k.setStrand .c { k.strand .c with flights := (k.strand .c).flights.map rounded }
  let k := s.core c
  let asid := k.asid
  let free := s.choice
  -- what system-level strands have under way is recorded by its DT (R349, R359)
  let recs := ((s.updCore c fun k => k.settle b.dt).settleCal c b.bid b.dt).effectRecords c b.bid
  let reclen := recs.length
  let s : State := { s with choice := s.choice + 0x20000 }
  let body := k.sections (fun o n => freeBytes (free + 1 + o) n) ++ recs
  let digest := sha3 body
  let total := 0x600000 + reclen
  match s.getAt asid (va + 8) 8 with
  | none => s.outcome c 1 total
  | some len =>
    -- the engine stops at the first write that does not translate, or that would reach AREALEN
    let limit := leNat len
    match s.putAt asid va (zeros 8) with
    | (s, false) => s.outcome c 1 total
    | (s, true) => match s.putAt asid (va + 0x100) (body.take (limit - 0x100)) with
      | (s, false) => s.outcome c 1 total
      | (s, true) =>
        if limit < total then s.outcome c 2 total
        else match s.putAt asid (va + 16) (saveHeader b k c reclen digest ++ zeros 160) with
          | (s, false) => s.outcome c 1 total
          | (s, true) => match s.putAt asid va (leBytes 8 (0x53415645 * 2 ^ 32 + 1)) with
            | (s, false) => s.outcome c 1 total
            | (s, true) =>
              let img : SaveImage := ⟨asid, va, digest, c, (s.core c).settle b.dt, b⟩
              let s : State := { s with lib := { s.lib with saves := img :: s.lib.saves.filter fun i => !(i.core == c && i.binding.bid == b.bid) } }
              let s := (s.settleCal c b.bid b.dt).freeCore c
              (s.updCore c fun k => { k with copies := [], hobs := Vector.replicate 4 {}, chans := Vector.replicate 8 {}, reshape := none, chaining := none }).outcome c 0 total
/-- A core's save engine whose time has come. -/
def State.engineDue (s : State) (load : Bool) (c : CoreId) : Bool :=
  match (s.core c).engine with | some (_, l, h) => l == load && decide (h ≤ s.hc) | none => false
/-- Event: the first save that ends (R356). -/
def execSaveEnd (s : State) : Host.Outcome State Fault Refusal :=
  .next (match (List.finRange 256).find? (s.engineDue false) with
    | none => s
    | some c => match (s.core c).engine, s.bindingOf c with
      | some (va, _, _), some b => if b.stopped then s.saveCore c b va else s.outcome c 3 0
      | _, _ => s.outcome c 3 0)

/-- The parts of a core that the sections of a save area hold in a stated format (R357). -/
def Core.fromArea (k : Core) (bs : List Byte) : Core :=
  let part (o n : Nat) : List Byte := (bs.drop (o - 0x100)).take n
  let csm := leNat (part 0x50200 4)
  { k with v := Vector.ofFn fun i => bytesVec (part (0x8000 + 256 * i.val) 256), breg := Mem.write [] 0 (part 0x10000 0x20000)
           code := Mem.write [] 0 (part 0x30000 0x20000), csm := csm
           acc := Mem.write [] 0 (part 0x80000 0x80000)
           wb0 := Mem.write [] 0 (part (if k.active then 0x140000 else 0x100000) 0x40000)
           wb1 := Mem.write [] 0 (part (if k.active then 0x100000 else 0x140000) 0x40000), ls := Mem.write [] 0 (part 0x200000 0x400000) }
/-- The times of a strand at system level on another count of its core's cycles (R349, R360). -/
def Strand.recount (old new : Nat) (t : Strand) : Strand :=
  if t.level then
    { t with base := t.base + new - old, prev := t.prev.map (· + new - old), wait := t.wait.map fun w => { w with start := w.start + new - old } }
  else t
/-- What a load keeps of the core it loads: clock, gate, rails, monitors, translation caches. -/
def Core.under (k new : Core) : Core :=
  { new with strands := new.strands.map (·.recount new.cyc k.cyc), cyc := k.cyc, utlb := k.utlb, umiss := k.umiss, walks := k.walks, ticked := k.ticked, awake := true, gateReq := k.gateReq, gateOwn := k.gateOwn, idleSince := k.idleSince
             partid := k.partid, damph := k.damph, dampx := k.dampx, left := k.left, poised := false, caps := k.caps, handler := k.handler, rail := k.rail, degr := k.degr, bad := []
             badWb := [], badAcc := [], badV := [], badCode := [], corr := [], engine := none, used := k.used, hobLines := k.hobLines }
/-- The registers whose sections have no stated format, of an area that the model's save engine did not write: free values (R357, log entry 4). -/
def Core.freeRegs (k : Core) (n : Nat) : Core :=
  let x (o : Nat) : Vector Word 32 := Vector.ofFn fun i => if i.val = 0 then 0 else Config.datum (n + o + i.val)
  let bits (o : Nat) : BitVec 256 := Config.datum (n + o) ++ Config.datum (n + o + 1) ++ Config.datum (n + o + 2) ++ Config.datum (n + o + 3)
  { k with strands := Vector.ofFn fun st => { k.strands[st] with x := x (64 * st.val), xs := x (64 * st.val + 32) }
           k := Vector.ofFn fun i => if i.val = 0 then k.k[i] else bits (256 + 4 * i.val)
           q := Vector.ofFn fun i => .ofBits (bits (512 + 4 * i.val)) }
/-- A load onto a core without a task: the header's checks, then every section. What the sections without a stated format hold is known of an area
that a save of a stopped binding wrote; the core then holds that binding's task (R357, R358, R360). -/
def State.loadCore (s : State) (c : CoreId) (va : Nat) : State :=
  let asid := (s.core c).asid
  match s.getAt asid va 0x100 with
  | none => s.outcome c 6 0
  | some hdr =>
    let w (i : Nat) : Nat := leNat ((hdr.drop (8 * i)).take 8)
    let total := w 2
    if w 0 ≠ 0x53415645 * 2 ^ 32 + 1 ∨ total < 0x600000 then s.outcome c 5 0
    else match s.getAt asid (va + 0x100) (total - 0x100) with
      | none => s.outcome c 6 0
      | some body =>
        let digest : BitVec 256 := BitVec.ofNat 256 (leNat ((hdr.drop 64).take 32))
        if sha3 body ≠ digest then s.outcome c 5 0
        else
          let img := s.lib.saves.find? fun i => i.digest == digest && i.binding.bid == w 5 / 2 ^ 48 && i.core.val == w 5 / 2 ^ 40 % 256
          let held := img.bind fun i => (s.binding i.binding.bid).bind fun b =>
            if b.stopped && !b.moved.any (fun m => m.1 == i.core) then some (i, b) else none
          match held with
          | some (i, b) =>
            let s := s.updCore c fun k => { k.under (i.content.fromArea body) with task := i.content.task, prepared := true }
            (s.updBinding b.bid fun b => { b with moved := b.moved ++ [(i.core, c)] }).outcome c 4 0
          | none =>
            let n := s.choice
            (({ s with choice := n + 1024 } : State).updCore c fun k => k.under ((k.fromArea body).freeRegs n)).outcome c 4 0
/-- Event: the first load that ends (R360). -/
def execLoadEnd (s : State) : Host.Outcome State Fault Refusal :=
  .next (match (List.finRange 256).find? (s.engineDue true) with
    | none => s
    | some c => match (s.core c).engine with
      | some (va, _, _) => if (s.core c).task.isSome then s.outcome c 7 0 else s.loadCore c va
      | none => s)

/-- A saved binding all of whose members have been loaded. -/
def Binding.restored (b : Binding) : Bool := b.stopped && !b.moved.isEmpty && b.members.all fun c => b.retired.contains c || b.moved.any fun m => m.1 == c
/-- The stokers of a restored binding's new placement, slot by slot. It may lack a stoker, by the Librarian's free choice: what was saved on that one
ends with PREEMPT, and the slot names another stoker of the same quarter that is free, if there is one (R249, R361, log entry 4). -/
def State.resolveStokers (s : State) (b : Binding) : State × List (Fin 384) :=
  b.stokers.zipIdx.foldl (fun (r : State × List (Fin 384)) p =>
    let (n, s) := r.1.draw
    let other := (List.finRange 384).find? fun k => (s.stoker k).bid.isNone && k.val / 96 == p.1.val / 96
    match (if Config.choose n then none else other) with
    | none => (s, r.2 ++ [p.1])
    | some k =>
      let s := (s.freeStoker b.bid p.1).updStoker k fun t =>
        { t with record := BitVec.ofNat 64 (2 ^ 63 + b.bid % 2 ^ 16 * 2 ^ 32 + p.2 % 8), bid := some b.bid, slot := p.2 % 8, stopped := true, ecc := 0 }
      (s, r.2 ++ [k])) (s, [])
/-- The old core numbers of a restored binding give way to the new ones in saved command, copy and barrier records, and in
DOM0, which the dispatch hardware loads (R30, R319, R360). -/
def State.renameCores (s : State) (b : Binding) : State :=
  let f (c : CoreId) : CoreId := (assocGet b.moved c).getD c
  let s := b.moved.foldl (fun (s : State) m => s.updCore m.2 fun k => { k.move f with dom := k.dom.set 0 (dom0 m.2) }) s
  let cal := s.cal.map fun d => if d.clock = .dt b.bid then { d with work := d.work.move f } else d
  let arrivals := s.arrivals.map fun a => if a.bid = b.bid then { a with core := f a.core, gid := if a.lvl = 0 then (f a.core).val else a.gid, needs := a.needs.map (needMove f) } else a
  let s : State := { s with cal := cal, arrivals := arrivals, lib := { s.lib with saves := s.lib.saves.filter fun i => i.binding.bid != b.bid } }
  let mv (t : Stoker) : Stoker :=
    if t.bid = some b.bid then { t with queue := t.queue.map fun r => { r with core := f r.core }, saved := t.saved.map fun g => { g with ref := { g.ref with core := f g.ref.core } } } else t
  let (s, sks) := (({ s with stokers := s.stokers.map mv } : State)).resolveStokers b
  let s := s.updBinding b.bid fun b => { b with stokers := sks }
  s.updBinding b.bid fun b => { b with members := (b.members.filter fun c => !b.retired.contains c).map f, retired := [], moved := [] }

end Sys2Proof.Machine
end

