-- ==== Sys2Proof/Machine/DispatchHw.lean ====
section
/-! DEFINITION. The dispatch hardware: preparing and releasing cores, completion reports, core gates and partitions (R30, R48, R51,
R293, R304-R306, R317-R322, R364). -/

namespace Sys2Proof.Machine

/-! ### Preparing a core (R319) -/

/-- The DOM registers of the task that a bind record gives a core (R30, R318). -/
def Binding.domWords (b : Binding) (c : CoreId) (r : Vector Word 8) : Vector Word 4 :=
  let (bid, i) := slotTask r
  #v[dom0 c, BitVec.ofNat 64 (bid * 2 ^ 48 + 2 ^ 47 + Word.bits r[6] 32 1 * 2 ^ 46 + b.members.length * 2 ^ 23 + i), r[4], r[5]]
/-- A strand as the dispatch hardware leaves it: its program counter at its entry line, every register zero (R319). -/
def Launch.newStrand (l : Launch) (st : StrandId) : Strand :=
  let e := l.entry st
  let defb := l.f 7 32 32
  { run := if e = chainEnd then .retired else .off, pos := 16 * e % 2 ^ 15, sbound := if defb = 0 then 0x01000000 else BitVec.ofNat 64 defb }
/-- A core prepared for a task: its image and data, everything else zero, its registers from the bind record. The vertical FIFOs into it stay where
another binding is still allotted them (R17, R66, R95, R293, R319). -/
def State.preparedCore (s : State) (b : Binding) (c : CoreId) (image data : List Byte) : Core :=
  let k := s.core c
  let l := b.launch
  let r := k.slot
  let other := s.bindings.any fun o => o.bid != b.bid && !o.launch.fslots.isEmpty && o.members.any fun m => chimOf m == chimOf c && s.placedOn o m
  let keep {α : Type} (l : List α) : List α := if other then l else []
  let seed : Word32 := BitVec.ofNat 32 (l.f 7 0 32)
  { strands := #v[l.newStrand .x, l.newStrand .l, l.newStrand .c, l.newStrand .s], code := Mem.write [] 0 image, ls := Mem.write [] 0 data
    handler := k.handler, dom := b.domWords c r, srseed := seed.setWidth 64, gens := seedGens seed, fslot := r[3]
    fwBind := r[6].getLsbD 33, partid := k.partid
    bindinfo := BitVec.ofNat 64 (b.run % 256 * 2 ^ 40 + b.queue % 64 * 2 ^ 32 + l.f 1 0 32), asid := Word.bits r[6] 48 16, ptroot := BitVec.ofNat 64 b.root
    utlb := k.utlb, cyc := k.cyc, ticked := k.ticked, task := some (slotTask r), prepared := true, awake := true, gateReq := k.gateReq
    slot := r, fromBelow := keep k.fromBelow, fromAbove := keep k.fromAbove, takesUp := keep k.takesUp, takesDown := keep k.takesDown
    putsUp := keep k.putsUp, putsDown := keep k.putsDown, idleSince := k.idleSince, cut := r[6].extractLsb' 42 3, rail := k.rail, bps := k.bps, nextCopy := k.nextCopy, damph := k.damph
    dampx := k.dampx, left := k.left, caps := k.caps, badWb := [] }
/-- Bytes that the dispatch hardware loads for a launch, or none where they do not translate or hold an uncorrectable error (R319, R320). -/
def State.loadBytes (s : State) (asid va n : Nat) : Option (List Byte) :=
  let ps := (piecesOf va n).map fun q => (s.asidPa asid q.1 .read, q.2)
  if ps.any fun q => q.1.isNone then none
  else if (s.badGm (ps.flatMap fun q => (List.range q.2).map (q.1.getD 0 + ·))).isSome then none
  else some (ps.flatMap fun q => s.gm.read (q.1.getD 0) q.2)
/-- A core whose bind record is valid, and whose preparation for a binding that is not released ends now (R317-R319). -/
def State.toPrepare (s : State) (c : CoreId) : Option Binding :=
  let k := s.core c
  if !slotValid k.slot || k.prepared || !(k.prepAt.any fun t => decide (t ≤ s.hc)) then none
  else (s.binding (slotTask k.slot).1).filter fun b => b.relHc.isNone && b.status.isNone
/-- Event: the preparation of a core ends; it waits for copies of the last task that still drain (R48, R319). -/
def execDispatchPrepare (s : State) : Host.Outcome State Fault Refusal :=
  .next (
    let cs := (List.finRange 256).filter fun c => (s.toPrepare c).isSome
    let s := if cs.any fun c => !(s.core c).copies.isEmpty then s.post .hc (s.hc + 1) latePrio (.ev .dispatchPrepare) else s
    match (cs.find? fun c => (s.core c).copies.isEmpty).bind fun c => (s.toPrepare c).map fun b => (c, b) with
    | none => s
    | some (c, b) =>
      let (ilines, dsize) := b.launch.image
      match s.loadBytes b.asid (b.launch.f 2 0 64) (64 * ilines), s.loadBytes b.asid (b.launch.f 4 0 64) dsize with
      | some image, some data => (s.updCore c fun _ => s.preparedCore b c image data).setBands c ((s.core c).slot[6].extractLsb' 34 8)
      | _, _ => s.endBinding b.bid 10)

/-! ### Release (R320, R360) -/

/-- A binding is released in this tick: its tick has come and every member is prepared. -/
def State.releases (s : State) (b : Binding) : Bool :=
  b.status.isNone && (b.restored ||
    (b.relHc.isNone && decide (b.rel ≤ s.hc) && (b.members.all fun c => (s.core c).prepared && s.bidOf c == b.bid) &&
      b.stokers.all fun k => (s.stoker k).bid == some b.bid))
/-- The strands of a released task run, but for those without an entry (R32, R48). -/
def Core.start (k : Core) : Core :=
  { k with strands := k.strands.map fun (t : Strand) => { t with run := if t.run = .off then .running else t.run } }
/-- Event: the first binding whose members are all prepared is released: DT is 0 on every member in this tick; a restored one goes on
at its saved DT (R21, R320, R360). -/
def execBindingRelease (s : State) : Host.Outcome State Fault Refusal :=
  .next (match s.bindings.find? s.releases with
    | none => s
    | some b =>
      if b.restored then
        let s := s.renameCores b
        match s.binding b.bid with
        | some b => s.resumeBinding b
        | none => s
      else
        let s := if b.rel < s.hc then s.event 3 [BitVec.ofNat 64 b.rel, BitVec.ofNat 64 s.hc] else s
        let s := s.updBinding b.bid fun b => { b with relHc := some s.hc, dt := 0, live := true }
        let s := b.members.foldl (fun (s : State) c => s.updCore c Core.start) s
        { s with todo := s.todo ++ b.members.flatMap fun c => [(c, .x), (c, .l), (c, .c), (c, .s)] })

/-! ### Completion (R48, R51, R253, R321, R364) -/

/-- Writes and arrivals of a core that its port has accepted and that have not performed. -/
def State.portBusy (s : State) (b : Binding) : Bool := b.members.any fun c => (s.portOf c).any fun p => p.2.posted
/-- A binding's end can be reported now. -/
def State.reportable (s : State) (b : Binding) : Bool := (b.status.isSome || (!b.cg && s.drained b)) && !s.portBusy b
/-- What a binding that ends leaves on a core: nothing that it started goes on, unless it retired and a copy drains; the vertical FIFOs are emptied by
the binding to which they are allotted (R48, R293, R321). -/
def State.dropTask (s : State) (bid : Nat) (c : CoreId) (all : Bool) : State :=
  let flue := match s.binding bid with | some b => !b.launch.fslots.isEmpty | none => false
  let s := if all then (s.core c).copies.foldl (fun (s : State) p => s.endCopy p) s else s
  let s := s.updCore c fun k => { (if flue then k.clearFlue else k) with hobs := Vector.replicate 4 {}, reshape := none, kindling := [], chaining := none, engine := none }
  let s := if (s.core c).task.isSome then s.freeCore c else s
  { s with cal := s.cal.filter fun d => d.clock != .cyc c, arrivals := s.arrivals.filter fun a => a.core != c || a.bid != bid }
/-- A binding is gone: its cores and stokers are free and nothing timed by its DT performs. -/
def State.removeBinding (s : State) (b : Binding) : State :=
  let all := b.status.getD 0 != 0
  let s := b.members.foldl (fun (s : State) c => if s.bidOf c = b.bid ∨ (s.core c).task.isNone then s.dropTask b.bid c all
    else if !b.launch.fslots.isEmpty && s.placedOn b c then s.updCore c Core.clearFlue
    else s) s
  let s := b.stokers.foldl (fun (s : State) sk => s.freeStoker b.bid sk) s
  let mine (w : Work) : Bool := match w with | .ev (.bindingFault i) | .ev (.preemptRequest i) => i == b.bid | _ => false
  let rest := s.bindings.filter fun o => o.bid != b.bid
  let g := domGid b.launch.words[9]
  let here := if b.inLevel3 g then [(g, b.bid, b.members.length)] else []
  -- what a level-3 group has lost is kept while a binding of it remains
  let gone := (here ++ s.lib.goneTasks.filter fun t => t.2.1 != b.bid).filter fun t => rest.any fun o => o.inLevel3 t.1
  { s with cal := s.cal.filter fun d => d.clock != .dt b.bid && !mine d.work, bindings := rest
           arrivals := s.arrivals.filter fun a => a.bid != b.bid
           lib := { s.lib with saves := s.lib.saves.filter (fun i => i.binding.bid != b.bid), goneTasks := gone } }
/-- Event: the first binding whose end is decided is reported: a group that is to run again is queued afresh, any other end is
written to its record and its semaphore (R51, R321). -/
def execCompletionReport (s : State) : Host.Outcome State Fault Refusal :=
  .next (match s.bindings.find? s.reportable with
    | none => s
    | some b =>
      let status := b.status.getD 0
      let s := if b.cg ∧ status ≠ 0 then s.discardShadows b else s
      let s := s.removeBinding b
      let tries := b.run + b.relHc.isSome.toNat
      let s := if status = statusRerun then
          let r : QRec := { num := s.lib.nextRec, launch := b.launch, queue := b.queue, hc := s.hc, eligible := none, run := tries, first := none, bid := b.bid }
          { s with lib := { s.lib with nextRec := s.lib.nextRec + 1, records := s.lib.records ++ [r] } }
        else s.report b.asid b.launch b.bid tries (b.relHc.getD 0) status
      s.sometime (.ev .eligibilityTest) latePrio)

/-! ### Core gates (R293, R316) -/

/-- Event: a core's gate is asked for (R293); the Librarian's own requests are those of `execIdleCoreTimeout`. -/
def execCoreGateRequest (c : CoreId) (s : State) : Host.Outcome State Fault Refusal :=
  .next (s.updCore c fun k => { k with gateReq := k.gateReq || k.awake, gateOwn := k.gateOwn && !k.awake })
/-- Every vertical FIFO with an end at a core is empty (R293). -/
def State.fluesEmpty (s : State) (c : CoreId) : Bool :=
  let k := s.core c
  let other (t : Option CoreId) (f : Core → List (Nat × VecData)) : Bool := match t with | some t => (f (s.core t)).isEmpty | none => true
  k.fromBelow.isEmpty && k.fromAbove.isEmpty && other (neighbour c false) (·.fromBelow) && other (neighbour c true) (·.fromAbove)
/-- A core is at its gate-safe point: it runs no task, or its task has retired (R48, R293). -/
def State.gateSafe (s : State) (c : CoreId) : Bool := match s.bindingOf c with | some b => b.retired.contains c | none => (s.core c).task.isNone
/-- A held gate request takes effect at the end of this cycle. -/
def State.gates (s : State) (c : CoreId) : Bool := (s.core c).gateReq && s.gateSafe c && s.fluesEmpty c
/-- Event: the first held gate request whose conditions hold takes effect: the core sleeps with every band off (R293, R316). -/
def execCoreGate (s : State) : Host.Outcome State Fault Refusal :=
  .next (match (List.finRange 256).find? s.gates with
    | none => s
    | some c => s.updCore c fun k => { k with awake := false, gateReq := false, gateOwn := false, bps := 0, rail := 0 })
/-- A core has been idle and awake for 225,000 ticks (R316). -/
def State.idleLong (s : State) (c : CoreId) : Bool :=
  let k := s.core c
  k.awake && k.task.isNone && !k.gateReq && decide (k.idleSince + 225000 ≤ s.hc)
/-- Event: the Librarian asks for the gate of the first core that has been idle and awake for 225,000 ticks (R293, R316). -/
def execIdleCoreTimeout (s : State) : Host.Outcome State Fault Refusal :=
  .next (match (List.finRange 256).find? s.idleLong with
    | none => s
    | some c => s.updCore c fun k => { k with gateReq := true, gateOwn := true })

/-! ### Partitions (R304-R306) -/

/-- PARTID of a core under a partitioning (R303, R304). -/
def partidOf (parts : Vector (BitVec 4) 4) (c : CoreId) : Word :=
  match (List.finRange 4).find? fun p => parts[p.val].getLsbD (quarterOf c) with
  | some p => BitVec.ofNat 64 (16 * (parts[p.val]).toNat + p.val)
  | none => 0
/-- The requested partitioning can be installed: no binding holds a core or stoker of a quarter that changes (R306). -/
def State.canInstall (s : State) : Bool :=
  s.lib.repartition.isSome && !(s.bindings.any fun b => b.members.any (fun c => s.changing (quarterOf c)) || b.stokers.any fun k => s.changing (k.val / 96))
/-- A queue's records end with NOQUEUE and the queue is gone (R306, R321, R374). -/
def State.dropQueue (s : State) (q : Fin 64) : State :=
  let s := (s.lib.records.filter fun r => r.queue == q.val).foldl (fun (s : State) r => s.endRecord r 12) s
  { s with lib := { s.lib with queues := s.lib.queues.set q.val none } }
/-- Event: a partitioning is installed in one step: PARTID on every core, queues of numbers no longer in use deleted, queued records
judged again, accessions of dissolved partitions cancelled (R283, R306, R312). -/
def execPartitionInstall (s : State) : Host.Outcome State Fault Refusal :=
  .next (match s.lib.repartition with
    | none => s
    | some new =>
      if !s.canInstall then s
      else
        let old := s.lib.parts
        let gone (p : Nat) : Bool := old[p % 4]'(Nat.mod_lt _ (by decide)) != 0 && new[p % 4]'(Nat.mod_lt _ (by decide)) == 0
        let keep (l : List (Nat × Nat)) : List (Nat × Nat) := l.filter fun e => !gone e.2
        let s := { s with lib := { s.lib with parts := new, repartition := none, stripes := keep s.lib.stripes, poolStripes := keep s.lib.poolStripes }
                          archive := s.archive.cancelAcc fun x => gone x.part
                          cores := Vector.ofFn fun i => { s.cores[i] with partid := partidOf new i } }
        let s := (List.finRange 64).foldl (fun (s : State) q => match s.queue q.val with
          | some lq => if new[lq.part % 4]'(Nat.mod_lt _ (by decide)) = 0 then s.dropQueue q else s
          | none => s) s
        let never := s.lib.records.filter fun r => r.launch.neverFits (s.partOf (s.recPart r))
        let s := never.foldl (fun (s : State) r => s.endRecord r 4) s
        s.sometime (.ev .eligibilityTest) latePrio)

/-! ### Management commands (R374) -/

/-- Answers a management message on the queue pair that asked: opcode and status, tag, result. The answer takes a receive buffer of that pair's
partition, or waits for one; it is never dropped (R374). -/
def State.answer (s : State) (m : MgmtMsg) (status result : Nat) : State :=
  let e : Event := ⟨0, [BitVec.ofNat 64 (bitsAt m.w0.toNat 0 8 + 256 * status), m.tag, BitVec.ofNat 64 result]⟩
  let h := s.host
  if 0 < h.posted[m.part.val] then { s with host := { h with posted := vmod h.posted m.part (· - 1), sent := h.sent ++ [(m.part, e)] } }
  else { s with host := { h with answers := h.answers ++ [(m.part, e)] } }
/-- A message has an opcode, and no bit set that the command does not name; the masks are those of words 2 to 7 (R374). -/
def msgWellFormed (m : MgmtMsg) (op : Nat) (masks : List Word) : Bool :=
  m.w0 == BitVec.ofNat 64 op && ([m.w2, m.w3, m.w4, m.w5, m.w6, m.w7].zipIdx.all fun (w, i) => w &&& ~~~(masks.getD i 0) == 0)
/-- Acts on the message that stands in the state: malformed ones get status 1; the command answers a status and a result. In recovery no queue pair
takes commands but that of INSTALL (R375). -/
def State.command (s : State) (op : Nat) (masks : List Word) (act : MgmtMsg → State → State × Nat × Nat) : State :=
  match s.msg with
  | none => s
  | some m =>
    let s : State := { s with msg := none }
    if s.boot.recovery then s
    else if !msgWellFormed m op masks then s.answer m 1 0
    else
      let (s', status, result) := act m s
      if status = 0 then s'.answer m 0 result else s.answer m status 0
/-- A field of a message word. -/
abbrev mf := Word.bits

/-- Event: CREATEQ (R308, R374). -/
def execCreateq (s : State) : Host.Outcome State Fault Refusal :=
  .next (s.command 1 [0x0000FFFF00000F3F, 0x0000FFFFFFFFFFFF] fun m s =>
    let q := mf m.w2 0 6
    let k := mf m.w2 8 4
    let base := m.w3.toNat
    if 12 < k ∨ base % 4096 ≠ 0 then (s, 1, 0)
    else if (s.queue q).isSome then (s, 2, 0)
    else
      let lq : LQueue := ⟨m.part.val, mf m.w2 32 16, k, base, 0, 0⟩
      ({ s with lib := { s.lib with queues := s.lib.queues.set (q % 64) (some lq) (Nat.mod_lt _ (by decide)) } }, 0, 0))
/-- Event: DELETEQ: queued records end with NOQUEUE (R321, R374). -/
def execDeleteq (s : State) : Host.Outcome State Fault Refusal :=
  .next (s.command 2 [0x3F] fun m s =>
    let q : Fin 64 := ⟨mf m.w2 0 6 % 64, Nat.mod_lt _ (by decide)⟩
    if (s.queue q.val).isNone then (s, 1, 0) else (s.dropQueue q, 0, 0))
/-- Event: PARTITION: a new partitioning is asked for; masks must be disjoint and cover the four quarters (R304, R306, R374). -/
def execPartition (s : State) : Host.Outcome State Fault Refusal :=
  .next (s.command 3 [0xFFFF] fun m s =>
    let new : Vector (BitVec 4) 4 := Vector.ofFn fun i => m.w2.extractLsb' (4 * i.val) 4
    let ok := (List.range 4).all fun q => ((List.finRange 4).filter fun i => new[i.val].getLsbD q).length == 1
    if !ok then (s, 1, 0)
    else if s.lib.repartition.isSome then (s, 2, 0)
    else ({ s with lib := { s.lib with repartition := some new } }, 0, 0))
/-- Event: CANCEL of a binding, or of the records and bindings of a queue with a SEQ (R322, R374). -/
def execCancel (s : State) : Host.Outcome State Fault Refusal :=
  .next (s.command 4 [0x0000003FFFFF0001, BitVec.allOnes 64] fun m s =>
    let form := mf m.w2 0 1
    let bid := mf m.w2 16 16
    let q := mf m.w2 32 6
    if (form = 0 ∧ (q ≠ 0 ∨ m.w3 ≠ 0)) ∨ (form = 1 ∧ bid ≠ 0) then (s, 1, 0)
    else if form = 0 then (s.endBinding bid statusCancelled, 0, 0)
    else
      let hit (l : Launch) (o : Nat) : Bool := o == q && l.words[1] == m.w3
      let bs := s.bindings.filter fun b => hit b.launch b.queue
      let s := (s.lib.records.filter fun r => hit r.launch r.queue).foldl (fun (s : State) r => s.endRecord r statusCancelled) s
      (bs.foldl (fun (s : State) b => s.endBinding b.bid statusCancelled) s, 0, 0))
/-- Event: ACCESSION: the effect of acc, for the host (R283, R374). -/
def execAccession (s : State) : Host.Outcome State Fault Refusal :=
  .next (s.command 5 [0x0000FFFF01FFFFFF, 0x0000FFFFFFFFFFFF, 0x00000001FFFFFFFF, 0x0000FFFFFFFFFFFF] fun m s =>
    let id := mf m.w2 0 24
    let asid := mf m.w2 32 16
    let src := m.w3.toNat
    let n := m.w4.toNat
    let rec' := m.w5.toNat
    let st := accStatus s.archive id src n rec'
    if st = 2 ∨ 2 ^ 32 < n then (s, 1, 0)
    else if st = 1 then (s, 2, 0)
    else (s.queueAccession 0 m.part.val asid (s.root asid) id (m.w2.getLsbD 24) src n rec', 0, 0))
/-- Event: ACCCANCEL of the accession with a record address (R283, R374). -/
def execAcccancel (s : State) : Host.Outcome State Fault Refusal :=
  .next (s.command 6 [0x0000FFFF00000000, 0x0000FFFFFFFFFFFF] fun m s =>
    ({ s with archive := s.archive.cancelAcc fun x => x.asid == mf m.w2 32 16 && x.record == m.w3.toNat }, 0, 0))
/-- Event: REGMR: a region of GM becomes reachable by its rkey (R372, R374). -/
def execRegmr (s : State) : Host.Outcome State Fault Refusal :=
  .next (s.command 7 [0x0000FFFF00000000, 0x0000FFFFFFFFFFFF, 0x0000FFFFFFFFFFFF] fun m s =>
    let va := m.w3.toNat
    let len := m.w4.toNat
    if va % 4096 ≠ 0 ∨ len % 4096 ≠ 0 ∨ len = 0 ∨ 2 ^ 48 < va + len then (s, 1, 0)
    else
      let key := s.host.nextKey % 2 ^ 32
      let r : Region := ⟨BitVec.ofNat 32 key, m.part.val, mf m.w2 32 16, va, len⟩
      ({ s with host := { s.host with regions := s.host.regions ++ [r], nextKey := s.host.nextKey + 1 } }, 0, key))

end Sys2Proof.Machine
end

