-- ==== Sys2Proof/Machine/HostIO.lean ====
section
/-! DEFINITION. The host attachment, quarantine and migration (R332, R333, R372-R375). -/

namespace Sys2Proof.Machine

/-! ### RDMA (R372, R373) -/

/-- A queue pair that can carry requests: created, not in error, its port up (R372). -/
def State.usableQp (s : State) (qp : Fin 256) : Option QPair :=
  match s.host.qps[qp.val] with
  | some q => if q.error || !(if q.port then s.host.portUp[1] else s.host.portUp[0]) then none else some q
  | none => none
/-- The Librarian creates a queue pair on the host's request, where none stands, or destroys it; recovery has its one pair (R372, R375). -/
def State.setQp (s : State) (qp : Fin 256) (q : Option QPair) : State :=
  if s.boot.recovery || (q.isSome && (s.host.qps[qp.val]).isSome) then s
  else { s with host := { s.host with qps := s.host.qps.set qp.val q } }
/-- Answers a request. -/
def State.reply (s : State) (r : Reply) : State := { s with host := { s.host with replies := s.host.replies ++ [r] } }
/-- A remote-access NAK: the request has no effect, and the queue pair takes the error state (R372). -/
def State.nakAccess (s : State) (qp : Fin 256) : State :=
  ({ s with host := { s.host with qps := vmod s.host.qps qp fun o => o.map fun q => { q with error := true } } } : State).reply (.nakAccess qp.val)
/-- A registered region of the queue pair's partition and address space holds the bytes (R372). -/
def State.inRegion (s : State) (q : QPair) (rkey : Word32) (va n : Nat) : Bool :=
  s.host.regions.any fun r => r.rkey == rkey && r.part == q.part && r.asid == q.asid && decide (r.va ≤ va) && decide (va + n ≤ r.va + r.len)
/-- What a write meets in an address space: the physical pieces, a shadowed page, or an address without a writable translation. -/
inductive HostPlace where
  | pieces (ps : List (Nat × Nat))
  | shadowed (va : Nat)
  | none
  deriving DecidableEq, Repr
/-- The places of the pieces of a range for an access of the host (R372). -/
def State.hostPlaces (s : State) (asid : Nat) (a : Acc) : List (Nat × Nat) → HostPlace
  | [] => .pieces []
  | (va, n) :: rest =>
    match s.hit none asid (s.root asid) false true va a with
    | .pa p _ => (match s.hostPlaces asid a rest with | .pieces ps => .pieces ((p, n) :: ps) | r => r)
    | .fault 3 _ => .shadowed va
    | _ => .none
/-- The range of bytes of the recovery region (R375). -/
def recoverySize : Nat := 2 ^ 26
/-- A write of the host performs at its channels, or is answered with a NAK (R372, R373); in recovery it reaches the image region
(R375). Answers whether it was performed. -/
def State.hostWrite (s : State) (qp : Fin 256) (rkey : Word32) (va : Nat) (bs : List Byte) : State × Bool :=
  match s.usableQp qp with
  | none => (s, false)
  | some q =>
    if !s.inRegion q rkey va bs.length then (s.nakAccess qp, false)
    else if s.boot.recovery then ({ s with boot := { s.boot with image := Mem.write s.boot.image va bs } }, true)
    else match s.hostPlaces q.asid .write (piecesOf va bs.length) with
      | .none => (s.nakAccess qp, false)
      | .shadowed v => ((s.nakAccess qp).event 12 [BitVec.ofNat 64 v, BitVec.ofNat 64 q.asid], false)
      | .pieces ps =>
        let out := ps.foldl (fun (r : State × List Byte) p => (r.1.storeAt .gm p.1 (r.2.take p.2), r.2.drop p.2)) (s, bs)
        (out.1, true)
/-- Event: RDMA WRITE (R372, R373, R375). -/
def execRdmaWrite (qp : Fin 256) (rkey : Word32) (va : Nat) (bytes : List Byte) (s : State) : Host.Outcome State Fault Refusal :=
  .next (s.hostWrite qp rkey va bytes).1
/-- Event: RDMA WRITE with immediate: the bytes perform, then the immediate is delivered; on a launch queue pair it is a signal
(R308, R309, R373). -/
def execRdmaWriteWithImmediate (qp : Fin 256) (rkey : Word32) (va : Nat) (bytes : List Byte) (imm : Word32) (s : State) :
    Host.Outcome State Fault Refusal :=
  .next (
    let launch := match s.usableQp qp with | some q => q.launch && !s.boot.recovery | none => false
    match s.hostWrite qp rkey va bytes with
    | (s, true) => if launch then s.launchSignal imm else s
    | (s, false) => s)
/-- Bytes of HBM that the host reads: a line with an uncorrectable error is recorded, and what its bytes read as is free; corrected errors are
counted (R373, R385, R386, log entry 42). -/
def State.hostRead (s : State) (as : List Nat) : State × List Byte :=
  match s.badGm as with
  | none => (s.countCorrected 5 (s.correctedIn as), as.map s.gm.get)
  | some line =>
    let (free, s) := (s.errorRecord 5 line 0 0).drawBytes as.length
    (s, (as.zip free).map fun (a, f) => if (s.badGm [a]).isSome then f else s.gm.get a)
/-- Event: RDMA READ returns bytes that are performed at sys (R372, R373). -/
def execRdmaRead (qp : Fin 256) (rkey : Word32) (va n : Nat) (s : State) : Host.Outcome State Fault Refusal :=
  .next (match s.usableQp qp with
    | none => s
    | some q =>
      if !s.inRegion q rkey va n then s.nakAccess qp
      else if s.boot.recovery then s.reply (.bytes qp.val (s.boot.image.read va n))
      else match s.hostPlaces q.asid .read (piecesOf va n) with
        | .pieces ps => let (s, bs) := s.hostRead (ps.flatMap fun p => span p.1 p.2); s.reply (.bytes qp.val bs)
        | _ => s.nakAccess qp)
/-- Event: a request that is not supported gets a NAK of invalid request (R372). -/
def execInvalidRequest (qp : Fin 256) (s : State) : Host.Outcome State Fault Refusal :=
  .next (if (s.usableQp qp).isSome then s.reply (.nakInvalid qp.val) else s)
/-- Event: a port goes down; its queue pairs move to the other port (R372). -/
def execPortDown (port : Bool) (s : State) : Host.Outcome State Fault Refusal :=
  .next { s with host := { s.host with portUp := s.host.portUp.set port.toNat false (by cases port <;> decide)
                                       qps := s.host.qps.map fun o => o.map fun q => if q.port = port then { q with port := !port } else q } }
/-- Event: the host posts a receive buffer; the oldest answer to a command of its partition takes it, or else the oldest event held (R374). -/
def execReceiveBufferPosted (part : Fin 4) (s : State) : Host.Outcome State Fault Refusal :=
  .next (match s.host.answers.find? fun a => a.1 == part, s.host.held with
    | some a, _ => { s with host := { s.host with answers := s.host.answers.erase a, sent := s.host.sent ++ [a] } }
    | none, e :: rest => { s with host := { s.host with held := rest, sent := s.host.sent ++ [(part, e)] } }
    | none, [] => { s with host := { s.host with posted := vmod s.host.posted part (· + 1) } })

/-! ### Pages: stripes, quarantine, migration, mapping (R82, R279, R305, R327, R332, R333) -/

/-- The ordinary pages' stripes: interleaved ones, below 510 − P (R82). -/
def State.interleaved (s : State) (pa : Nat) : Bool := decide (pa / 2 ^ 30 < 510 - s.boot.stripesP) && decide (pa % 2 ^ 30 < 0x30000000)
/-- The partition of an address space, where a launch queue or a region names it (R305, R308, R372). -/
def State.asidPart (s : State) (asid : Nat) : Option Nat :=
  ((s.lib.queues.toList.filterMap id).find? fun q => q.asid == asid).map (·.part) |>.or ((s.host.regions.find? fun r => r.asid == asid).map (·.part))
/-- The tables of an address space: first address and bytes of each (R323, R325). -/
def tablesOf (m : Mem) : Nat → Nat → Nat → List (Nat × Nat)
  | 0, _, _ => []
  | fuel + 1, lvl, table => (table, if lvl = 3 then 256 else 4096) :: ((List.range (if lvl = 3 then 0 else 512)).flatMap fun i =>
      let e := m.word (table + 8 * i)
      if !eV e || eLeaf e then [] else tablesOf m fuel (lvl + 1) (npa e))
/-- Every table of the device (R323, R369). -/
def State.tables (s : State) : List (Nat × Nat) :=
  (s.xlate.roots.map (·.2) ++ (if s.lib.domMembers.isEmpty then [] else [s.xlate.domRoot])).flatMap fun r => tablesOf s.gm 4 0 r
/-- A stripe that the Librarian keeps: it holds page tables, or serves the shadow pool (R82). -/
def State.stripeKept (s : State) (f : Nat) : Bool := (assocGet s.lib.poolStripes f).isSome || s.tables.any fun t => t.1 / 2 ^ 30 == f
/-- An interleaved stripe may be mapped in an address space: the space's partition is known, the stripe belongs to no other and the Librarian does
not keep it (R82, R305). -/
def State.stripeOpen (s : State) (asid pa : Nat) : Bool :=
  !s.stripeKept (pa / 2 ^ 30) && (match s.asidPart asid, assocGet s.lib.stripes (pa / 2 ^ 30) with
    | some q, some p => p == q
    | some _, none => true
    | none, _ => false)
/-- A stripe that is mapped in an address space belongs to its partition from then on (R305). -/
def State.ownStripe (s : State) (asid pa : Nat) : State :=
  match assocGet s.lib.stripes (pa / 2 ^ 30), s.asidPart asid with
  | none, some q => { s with lib := { s.lib with stripes := (pa / 2 ^ 30, q) :: s.lib.stripes } }
  | _, _ => s
/-- Pages that wait to be free: in quarantine or in the Librarian's lists (R332). -/
def State.resting (s : State) : List (Nat × Nat) := s.xlate.quarantine.map (fun p => (p.1, p.2.1)) ++ s.xlate.waiting
/-- Pages that hold a copy in use: migrations' targets and sources, groups' shadows, those that an abort gives up (R333-R335). -/
def State.busyPages (s : State) : List (Nat × Nat) :=
  (s.xlate.migrations.flatMap fun m => [(m.dst, m.bits), (m.src, m.bits)]) ++ (s.bindings.flatMap fun b => b.shadows.map fun h => (h.copy, h.bits)) ++
    s.xlate.dropping.map (·.2)
/-- A physical page is free: no leaf maps a byte of it, no table lies in it, it does not rest, it is in no pool and in no other use (R82,
R332-R335). -/
def State.pageFree (s : State) (pa bits : Nat) : Bool :=
  let apart (q n : Nat) : Bool := decide (pa + 2 ^ bits ≤ q) || decide (q + n ≤ pa)
  s.leaves.all (fun e => apart (npa e.1) (2 ^ e.2)) && s.tables.all (fun t => apart t.1 t.2) &&
  (s.resting ++ s.xlate.pool ++ s.busyPages).all fun p => apart p.1 (2 ^ p.2)
/-- A free frame for a compute-capable page: per-channel, and neither in the reading room nor in the frames that a held size adds (R82, R279). -/
def State.frameFree (s : State) (pa : Nat) : Bool :=
  decide (510 - s.boot.stripesP ≤ pa / 2 ^ 30) && decide (pa / 2 ^ 30 < 1022) && !inRoomOf s.archive.rrsize pa &&
  !(s.archive.rrHeld.any fun n => inRoomOf n pa) && s.pageFree pa 21
/-- Where the Librarian places a compute-capable page of a channel: the free per-channel frame with the lowest stripe number (R279). -/
def State.ccFrame (s : State) (chan : Fin 384) : Option Nat := ((List.range 1024).map fun f => f * 2 ^ 30 + chan.val * 2 ^ 21).find? s.frameFree
/-- The place of the entry of a level for a virtual address, where the tables above it stand (R323, R325). -/
def tableEntry (m : Mem) (va lvl : Nat) : Nat → Nat → Nat → Option Nat
  | 0, _, _ => none
  | fuel + 1, l, table =>
    let place := table + 8 * levelIndex l va
    let e := m.word place
    if l = lvl then some place
    else if !eV e || eLeaf e then none
    else tableEntry m va lvl fuel (l + 1) (npa e)
/-- The Librarian writes a leaf for a virtual address that has none (R323, R324). -/
def State.mapLeaf (s : State) (asid va bits : Nat) (e : Word) : State :=
  match tableEntry s.gm va (levelOf bits) 4 0 (s.root asid) with
  | some place => if eV (s.gm.word place) then s else { s with gm := s.gm.setWord place e }
  | none => s
/-- The Librarian maps an ordinary page: an interleaved one of the space's partition that is free (R82, R305, R327). -/
def State.mapPage (s : State) (asid va bits : Nat) (e : Word) : State :=
  if !eV e || !eLeaf e || eCC e || eSH e || Word.bits e 40 16 ≠ 0 || Word.bits e 6 2 ≠ 0 || npa e % 2 ^ bits ≠ 0 || !s.interleaved (npa e) ||
      !s.stripeOpen asid (npa e) || !s.pageFree (npa e) bits then s
  else (s.mapLeaf asid va bits e).ownStripe asid (npa e)
/-- The Librarian gives its shadow pool a page, of a stripe that holds pages of the pool alone and serves one partition (R82, R305, R334). -/
def State.poolPage (s : State) (part : Fin 4) (pa bits : Nat) : State :=
  let f := pa / 2 ^ 30
  let own := match assocGet s.lib.poolStripes f with
    | some p => p == part.val
    | none => (assocGet s.lib.stripes f).isNone && s.leaves.all (fun e => npa e.1 / 2 ^ 30 != f) && s.tables.all fun t => t.1 / 2 ^ 30 != f
  if s.lib.parts[part.val] = 0 ∨ pa % 2 ^ bits ≠ 0 ∨ bits = 30 ∨ !s.interleaved pa ∨ !own ∨ !s.pageFree pa bits then s
  else { s with xlate := { s.xlate with pool := s.xlate.pool ++ [(pa, bits)] }
                lib := { s.lib with poolStripes := if (assocGet s.lib.poolStripes f).isSome then s.lib.poolStripes else (f, part.val) :: s.lib.poolStripes } }
/-- The Librarian places and maps a compute-capable page of a channel of the space's partition, pinned (R279, R305, R327). -/
def State.mapCompute (s : State) (asid va : Nat) (chan : Fin 384) (w : Bool) : State :=
  if (s.asidPart asid).any fun p => !(s.partOf p).getLsbD (chan.val / 96) then s
  else match s.ccFrame chan with
    | some pa => s.mapLeaf asid va 21 (BitVec.ofNat 64 (pa + 27 + 4 * w.toNat))
    | none => s
/-- The Librarian unmaps a page that no group shadows and no migration moves; it is invalidated, and enters quarantine (R327, R331, R332). -/
def State.freePage (s : State) (asid va : Nat) : State :=
  match walkFrom s.gm va 4 0 (s.root asid) with
  | .error _ => s
  | .ok l =>
    if eSH l.entry || s.xlate.migrations.any (fun m => m.leafPa == l.place) then s
    else
      let s : State := { s with gm := s.gm.setWord l.place 0 }
      (s.toQuarantine (npa l.entry) l.bits).ownInval asid (va / 2 ^ l.bits * 2 ^ l.bits) l.bits

/-- The first page that may leave quarantine. -/
def State.cleanPage (s : State) : Option (Nat × Nat × Nat) := s.xlate.quarantine.find? fun p => decide (p.2.2 < s.qold)
/-- Event: a page whose epoch has passed leaves quarantine; one of the pool's stripes joins the shadow pool, any other is free again; a page that
waited for room takes its place (R82, R332, R334). -/
def execQuarantineRelease (s : State) : Host.Outcome State Fault Refusal :=
  .next (match s.cleanPage with
    | none => s
    | some p =>
      let x := s.xlate
      let q := x.quarantine.filter fun o => o != p
      let (q, w) := match x.waiting with | w :: ws => (q ++ [(w.1, w.2, x.qcur)], ws) | [] => (q, [])
      { s with xlate := { x with quarantine := q, waiting := w, pool := if (assocGet s.lib.poolStripes (p.1 / 2 ^ 30)).isSome && p.2.1 != 30 then x.pool ++ [(p.1, p.2.1)] else x.pool } })
/-- A page may be migrated to a place: it is neither pinned nor shadowed nor of 1 GiB, and the place is a free interleaved page of the space's
partition (R82, R305, R327, R333). -/
def State.migratable (s : State) (asid : Nat) (l : Leaf) (dst : Nat) : Bool :=
  !ePin l.entry && !eSH l.entry && l.bits != 30 && decide (dst % 2 ^ l.bits = 0) && s.interleaved dst && s.stripeOpen asid dst && s.pageFree dst l.bits &&
  !(s.xlate.migrations.any fun m => m.leafPa == l.place)
/-- Event: the Librarian starts to migrate a page: its leaf loses W, and it is invalidated (R333). -/
def execMigration (asid va dst : Nat) (s : State) : Host.Outcome State Fault Refusal :=
  .next (match walkFrom s.gm va 4 0 (s.root asid) with
    | .error _ => s
    | .ok l =>
      if !s.migratable asid l dst then s
      else
        let base := va / 2 ^ l.bits * 2 ^ l.bits
        let m : Migration := { asid := asid, va := base, bits := l.bits, leafPa := l.place, src := npa l.entry, dst := dst, writable := eW l.entry
                               stage := 1, inval := s.xlate.nextInval }
        (({ s with gm := s.gm.setWord l.place (l.entry &&& ~~~(4 : Word)), xlate := { s.xlate with migrations := m :: s.xlate.migrations } } : State).ownStripe
          asid dst).ownInval asid base l.bits)

end Sys2Proof.Machine
end

