-- ==== Sys2Proof/Machine/Links.lean ====
section
/-! DEFINITION. The scale-up domain: formation, alignment of the Hearth clock, what other devices ask, faults of the links (R20,
R368-R371). -/

namespace Sys2Proof.Machine

/-- Event: a domain forms before the Librarian has admitted any task: the device takes its ID and its Hearth clock is set forward (R20, R368). -/
def execDomainFormation (self : Nat) (members : List Nat) (s : State) : Host.Outcome State Fault Refusal :=
  .next (
    if s.lib.nextRec != 0 || !s.bindings.isEmpty || s.boot.recovery || decide (2 ^ 14 ≤ self) || !(members.all fun d => decide (d < 2 ^ 14)) || !members.contains self then s
    else
      let (n, s) := s.draw
      { s with devId := self, hc := s.hc + Config.delay n, lib := { s.lib with domMembers := members.dedup } })
/-- Event: one tick is inserted to hold the alignment, at most once in 2,250 ticks (R20). -/
def execHcCorrection (s : State) : Host.Outcome State Fault Refusal :=
  .next (if s.lib.domMembers.isEmpty ∨ s.hc < s.lib.lastHcCorrection + 2250 then s
    else { s with hc := s.hc + 1, lib := { s.lib with lastHcCorrection := s.hc + 1 } })

/-- An access of this device that is on its way to a device (R371). -/
def State.toDevice (dev : Nat) (d : Due) : Option Access :=
  match d.work with
  | .ev (.storePerform a) => if a.unit = .xm dev then some a else none
  | _ => none
/-- Event: a device leaves the domain (R371). -/
def execDeviceRemoval (dev : Nat) (s : State) : Host.Outcome State Fault Refusal :=
  .next (
    if dev = s.devId then s
    else
      let lost := s.cal.filterMap (State.toDevice dev)
      let s : State := { s with cal := s.cal.filter (fun d => (State.toDevice dev d).isNone), lib := { s.lib with domMembers := s.lib.domMembers.filter (· != dev) } }
      lost.foldl State.loseAccess s)
/-- Event: a lane fault: the port is retrained at four lanes; no result and no order changes (R371). -/
def execLaneFault (port : Fin 18) (s : State) : Host.Outcome State Fault Refusal :=
  .next { s with lib := { s.lib with lanes := s.lib.lanes.set port.val true } }

/-- The operation that a remote request makes at its location; a load makes none. -/
def remoteOp : RemoteOp → Option UnitOp
  | .load _ => none
  | .store bs => some (.write bs)
  | .atomic a v cmp => some (.atomic a v cmp 0)
  | .arrive => some .barr
  | .wset v => some (.wset v)
  | .wwake n => some (.wwake n 0)
  | .npost n => some (.npost n)
/-- The access type of a remote request (R336). -/
def remoteAcc : RemoteOp → Acc
  | .load _ => .read
  | .store _ => .write
  | _ => .atomic
/-- A remote request is made at its channel: it performs, or is discarded with an event where it does not translate or meets an uncorrectable
error, or is turned away (R110, R268, R369, log entry 10). -/
def State.tryRemote (s : State) (addr : Nat) (op : RemoteOp) : State × Bool :=
  let (n, s) := s.draw
  -- the request does not show whether an atomic returns its old value, for which its issuer traps
  let told := match op with | .load _ => false | .atomic _ _ _ => Config.choose n | _ => true
  let lost (s : State) : State := if told then s.event 7 [BitVec.ofNat 64 addr] else s
  match s.hit none 0xFFFF s.xlate.domRoot false true addr (remoteAcc op) with
  | .pa p _ =>
    (match s.badGm [p] with
    | some line => (lost (s.errorRecord 5 line 0 0), true)
    | none => match s.serve .md [p] with
      | (s, false) => (s, false)
      | (s, true) => match remoteOp op with
        | some o => ((s.operate ⟨.gm, p⟩ o).1, true)
        | none => (s, true))
  | _ => (lost s, true)
/-- A remote request joins those that wait, which are made again in the next tick (R370). -/
def State.queueRemote (s : State) (dev addr : Nat) (op : RemoteOp) : State :=
  let q := s.lib.remote
  let s := { s with lib := { s.lib with remote := q ++ [(dev, addr, op)] } }
  if q.isEmpty then s.post .hc (s.hc + 1) effects .remotes else s
/-- Event: another device's access to this one's domain window is made at its channel behind the earlier requests of that device; a release has been
ordered by its issuer (R110, R369, R370). -/
def execRemoteAccess (dev : Nat) (addr : Nat) (op : RemoteOp) (_rel : Bool) (s : State) : Host.Outcome State Fault Refusal :=
  .next (
    if s.boot.recovery || !s.lib.domMembers.contains dev then s
    else if s.lib.remote.any (·.1 == dev) then s.queueRemote dev addr op
    else match s.tryRemote addr op with
      | (s, true) => s
      | (s, false) => s.queueRemote dev addr op)
/-- The remote requests that wait are made again, oldest first; one stays behind every earlier one of its device (R370). -/
def State.retryRemotes (s : State) : State :=
  s.lib.remote.foldl (fun (s : State) (r : Nat × Nat × RemoteOp) =>
    if s.lib.remote.any (·.1 == r.1) then s.queueRemote r.1 r.2.1 r.2.2
    else match s.tryRemote r.2.1 r.2.2 with
      | (s, true) => s
      | (s, false) => s.queueRemote r.1 r.2.1 r.2.2) { s with lib := { s.lib with remote := [] } }

end Sys2Proof.Machine
end

