-- ==== Sys2Proof/Machine/Power.lean ====
section
/-! DEFINITION. Islands and their hops, reserve holds, power leases, temperature trips, monitors and control registers (R376-R389,
R392). -/

namespace Sys2Proof.Machine

/-! ### Islands (R376, R379) -/

/-- An island. -/
def State.island (s : State) (i : Fin 64) : Island := s.islands[i.val]
/-- Changes an island. -/
def State.updIsland (s : State) (i : Fin 64) (f : Island → Island) : State := { s with islands := vmod s.islands i f }
/-- A hop begins: 64 core clock cycles, or a wait for the end of a droop (R376, R379). -/
def Island.beginHop (k : Island) (target : Nat) : Island :=
  if k.droop then { k with hop := some target, retry := true, retryLeft := 256, aborts := 1, stretched := false }
  else { k with hop := some target, hopLeft := 64, aborts := 0, stretched := false }
/-- A change of the frequency step: a hop, or, while one is in progress, the step to which the next one goes (R376). -/
def Island.ask (k : Island) (target : Nat) : Island :=
  if k.hop.isSome then { k with want := if k.hop = some target then none else some target }
  else if k.fstep = target then k
  else k.beginHop target
/-- The frequency step that an island has once its hops are over. -/
def Island.aim (k : Island) : Nat := k.want.getD (k.hop.getD k.fstep)
/-- A hop is over, done or abandoned: the next one begins if another step was asked for meanwhile (R376, R379). -/
def Island.endHop (k : Island) (fstep : Nat) : Island :=
  ({ k with fstep := fstep, hop := none, want := none, retry := false, aborts := 0 } : Island).ask (k.want.getD fstep)
/-- A change of an island's frequency step. -/
def State.startHop (s : State) (i : Fin 64) (target : Nat) : State := s.updIsland i (·.ask target)
/-- The Librarian asks for a frequency step. Under a throttle the higher value applies, and after it the step returns to the setting one by one
(R376, R384, R392). -/
def State.setFstep (s : State) (i : Fin 64) (fstep : Nat) : State :=
  if 8 < fstep then s
  else s.updIsland i fun k => if (k.throttled ∨ k.thrNext.isSome) ∧ fstep < k.aim then { k with setting := fstep } else ({ k with setting := fstep } : Island).ask fstep
/-- Event: the Librarian changes an island's frequency step: a hop (R376, R378). -/
def execHop (isl : Fin 64) (fstep : Nat) (s : State) : Host.Outcome State Fault Refusal := .next (s.setFstep isl fstep)
/-- A hop that ends in this tick (R376, R379). -/
def State.hopEnds (s : State) (i : Fin 64) : Bool := let k := s.island i; k.hop.isSome && !k.retry && !k.droop && k.hopLeft == 0
/-- Event: the first hop that is over takes effect; the time at the old step is counted (R376, R389). -/
def execHopComplete (s : State) : Host.Outcome State Fault Refusal :=
  .next (match (List.finRange 64).find? s.hopEnds with
    | none => s
    | some i => (s.noteStep i).updIsland i fun k => k.endHop (k.hop.getD k.fstep))
/-- A hop whose retry is due. -/
def State.hopRetries (s : State) (i : Fin 64) : Bool := let k := s.island i; k.hop.isSome && k.retry && !k.droop && k.retryLeft == 0
/-- Event: the first aborted hop whose wait is over is tried again (R379). -/
def execHopRetry (s : State) : Host.Outcome State Fault Refusal :=
  .next (match (List.finRange 64).find? s.hopRetries with
    | none => s
    | some i => s.updIsland i fun k => { k with retry := false, hopLeft := 64, stretched := false })
/-- Event: the supply of an island droops: its clock stretches, and a hop in progress is aborted; after 16 aborts in a row it is
abandoned, of which the Librarian learns after the errors of the tick (R22, R378, R379, R392). -/
def execSupplyDroop (isl : Fin 64) (s : State) : Host.Outcome State Fault Refusal :=
  .next (
    let k := s.island isl
    let s := s.updIsland isl fun k => { k with droop := true, owed := true }
    if k.hop.isNone ∨ k.retry then s
    else if 16 ≤ k.aborts + 1 then (s.updIsland isl fun k => k.endHop k.fstep).post .hc s.hc (latePrio + 2 ^ 64) (.advise isl)
    else s.updIsland isl fun k => { k with retry := true, aborts := k.aborts + 1 })
/-- Event: a droop ends; an aborted hop is retried 256 core clock cycles later (R378, R379). -/
def execDroopEnd (isl : Fin 64) (s : State) : Host.Outcome State Fault Refusal :=
  .next (s.updIsland isl fun k => { k with droop := false, retryLeft := 256 })

/-- RESUME of an island, at least HOLD (R381). -/
def Island.resumeLevel (k : Island) : BitVec 16 := if k.resume.ult k.hold then k.hold else k.resume
/-- Event: an island's charge reaches RESUME: the hold ends (R381). -/
def execReserveHoldEnd (isl : Fin 64) (s : State) : Host.Outcome State Fault Refusal :=
  .next (s.updIsland isl fun k => { k with holding := false, level := if k.level.ult k.resumeLevel then k.resumeLevel else k.level })

/-! ### Rack power caps (R383, R392) -/

/-- The cap has changed from `old`: within 2,250 ticks the Librarian acts on it (R383). -/
def State.capChanged (s : State) (old : Nat) : State :=
  if s.cap.watts = old then s
  else
    let (n, s) := s.draw
    s.post .hc (s.hc + Config.delay n % 2251) latePrio (.enforceCap (decide (s.cap.watts < old)))
/-- Damper gaps raised field by field to those of another register (R380, R383). -/
def raiseGaps (old new : Word) : Word :=
  BitVec.ofNat 64 ((List.range 4).foldl (fun v j => v + 2 ^ (16 * j) * max (Word.bits old (16 * j) 16) (Word.bits new (16 * j) 16)) 0)
/-- The Librarian acts on a changed cap: on the islands that it chooses it raises FSTEP and the damper gaps, or, under a higher cap, sets them
anew (R383). Which islands and what values are its firmware's, and free (log entry 4). -/
def State.enforceCap (s : State) (lower : Bool) : State :=
  let n := s.choice
  let chosen (i : Fin 64) : Bool := Config.choose (n + i.val)
  let gaps (old : Word) (j : Nat) : Word := if lower then raiseGaps old (Config.datum (n + j)) else Config.datum (n + j)
  let s : State := { s with choice := n + 640
                            cores := Vector.ofFn fun c => let k := s.cores[c]
                              if chosen (islandOf c) then { k with damph := gaps k.damph (128 + c.val), dampx := gaps k.dampx (384 + c.val) } else k }
  (List.finRange 64).foldl (fun (s : State) i =>
    if chosen i then s.setFstep i (let f := Config.delay (n + 64 + i.val) % 9; if lower then max (s.island i).setting f else f) else s) s
/-- Event: a lease message of the rack controller (R383). -/
def execPowerLease (w0 w1 w2 w3 : Word) (s : State) : Host.Outcome State Fault Refusal :=
  .next (
    let watts := Word.bits w1 0 32
    if Word.bits w1 32 32 ≠ 0 ∨ w3 ≠ 0 ∨ watts < 1000 ∨ 4500 < watts ∨ w0.toNat ≤ s.cap.s0.toNat then s
    else ({ s with cap := { s.cap with s0 := w0, watts := watts, expiry := some (s.hc + w2.toNat) } } : State).capChanged s.cap.watts)
/-- The lease in force is over. -/
def State.leaseOver (s : State) : Bool := match s.cap.expiry with | some e => decide (e ≤ s.hc) | none => false
/-- Event: the lease expires: the cap becomes the floor budget (R383). -/
def execLeaseExpiry (s : State) : Host.Outcome State Fault Refusal :=
  .next (if s.leaseOver then ({ s with cap := { s.cap with watts := s.cap.floor, expiry := none } } : State).capChanged s.cap.watts else s)

/-! ### Heat (R384, R388, R392) -/

/-- A sensor. -/
def State.sensor (s : State) (n : Fin 320) : Sensor := s.sensors[n.val]
/-- Changes a sensor. -/
def State.updSensor (s : State) (n : Fin 320) (f : Sensor → Sensor) : State := { s with sensors := vmod s.sensors n f }
/-- The island of a sensor (log entry 13). -/
def sensorIsland (n : Fin 320) : Fin 64 := ⟨n.val / 5, by omega⟩
/-- A temperature is at or above a trip point in whole °C. -/
def Sensor.atLeast (k : Sensor) (deg : Nat) : Bool := decide (16 * (deg : Int) ≤ k.temp.toInt)
/-- A temperature is at least 5 °C below a trip point. -/
def Sensor.below (k : Sensor) (deg : Nat) : Bool := decide (k.temp.toInt ≤ 16 * ((deg : Int) - 5))
/-- The hottest temperature of an island in whole °C, 0 below zero (R388). -/
def State.hotDegrees (s : State) (i : Fin 64) : Nat := ((s.sensor (s.hottest i)).temp.toInt / 16).toNat
/-- Event: every 2,250 ticks temperatures and charge are measured, whose values the manual cannot give; the monitors and the lifetime
counts record them (R381, R384, R388, R389, log entry 4). -/
def execTemperatureSample (s : State) : Host.Outcome State Fault Refusal :=
  .next (
    let n := s.choice
    let sample (i : Nat) (k : Sensor) : Sensor :=
      let k := { k with temp := (Config.datum (n + i)).setWidth 16 }
      { k with cool := if k.throttling ∧ k.below k.throttle then some (k.cool.getD s.hc) else none }
    let s : State := { s with choice := n + 384, lib := { s.lib with lastSample := s.hc }, sensors := Vector.ofFn fun i => sample i.val s.sensors[i]
                              islands := Vector.ofFn fun i => let k := s.islands[i]; if k.holding then k else { k with level := (Config.datum (n + 320 + i.val)).setWidth 16 } }
    let s := (List.finRange 256).foldl (fun (s : State) c => s.capture c 6 none (s.hotDegrees (islandOf c))) s
    (List.finRange 64).foldl (fun (s : State) i =>
      { s with life := { s.life with temps := histAdd s.life.temps i.val (capBin (s.hotDegrees i)) 1 } }) s)
/-- Event: the first sensor at its advise point reports it to the Librarian and, through it, to the host (R384). -/
def execAdviseTrip (s : State) : Host.Outcome State Fault Refusal :=
  .next (match (List.finRange 320).find? fun n => !(s.sensor n).advised && (s.sensor n).atLeast (s.sensor n).advise with
    | none => s
    | some n =>
      let s := s.updSensor n fun k => { k with advised := true }
      ({ s with lib := { s.lib with advises := s.lib.advises ++ [.inl n] } } : State).event 8 [BitVec.ofNat 64 n.val])
/-- Event: the first sensor at its throttle point: its island's step rises, one every 2,250 ticks (R384). -/
def execThrottleTrip (s : State) : Host.Outcome State Fault Refusal :=
  .next (match (List.finRange 320).find? fun n => !(s.sensor n).throttling && (s.sensor n).atLeast (s.sensor n).throttle with
    | none => s
    | some n =>
      (s.updSensor n fun k => { k with throttling := true, cool := none }).updIsland (sensorIsland n) fun k =>
        if k.throttled then k else { k with throttled := true, thrNext := some (s.hc + 2250) })
/-- A throttle's next step is due. -/
def State.throttleDue (s : State) (i : Fin 64) : Bool := match (s.island i).thrNext with | some t => decide (t ≤ s.hc) | none => false
/-- Event: the first island whose next step is due: one step up while a throttle acts, else one step back to the Librarian's setting (R384). -/
def execThrottleStep (s : State) : Host.Outcome State Fault Refusal :=
  .next (match (List.finRange 64).find? s.throttleDue with
    | none => s
    | some i =>
      let k := s.island i
      let next (s : State) (t : Option Nat) : State := s.updIsland i fun k => { k with thrNext := t }
      if k.throttled then next (if k.aim < 8 then s.startHop i (k.aim + 1) else s) (some (s.hc + 2250))
      else if k.setting < k.aim then next (s.startHop i (k.aim - 1)) (some (s.hc + 2250))
      else next s none)
/-- A sensor one of whose trips ends now. -/
def State.tripEnds (s : State) (n : Fin 320) : Bool :=
  let k := s.sensor n
  (k.advised && k.below k.advise) || (k.throttling && (match k.cool with | some h => decide (h + 2250 ≤ s.hc) | none => false))
/-- Event: the first trip that has ended (R384). -/
def execTripEnd (s : State) : Host.Outcome State Fault Refusal :=
  .next (match (List.finRange 320).find? s.tripEnds with
    | none => s
    | some n =>
      let s := s.updSensor n fun k =>
        let cooled := match k.cool with | some h => k.throttling && decide (h + 2250 ≤ s.hc) | none => false
        { k with advised := k.advised && !k.below k.advise, throttling := k.throttling && !cooled, cool := if cooled then none else k.cool }
      let i := sensorIsland n
      if (islandSensors i).any fun m => (s.sensor m).throttling then s
      else s.updIsland i fun k => if k.throttled then { k with throttled := false, thrNext := some (s.hc + 2250) } else k)
/-- Event: the first sensor at its shutdown point: the package asks for board power-off, which comes within 1 ms (R384, R392). -/
def execShutdownTrip (s : State) : Host.Outcome State Fault Refusal :=
  .next (match (List.finRange 320).find? fun n => !(s.sensor n).shut && (s.sensor n).atLeast (s.sensor n).shutdown with
    | none => s
    | some n =>
      let s := s.updSensor n fun k => { k with shut := true }
      let (d, s) := s.draw
      ({ s with boot := { s.boot with shutdown := true } } : State).post .hc (s.hc + 1 + Config.delay d % 2250000) latePrio (.ev .powerLoss))

/-! ### Scrub, monitors, control registers (R354, R376, R380, R381, R384, R385, R387) -/

/-- Event: HBM is scrubbed: corrected errors are counted and written back (R385, R389). -/
def execPatrolScrub (s : State) : Host.Outcome State Fault Refusal :=
  .next { s with xlate := { s.xlate with corrected := [] }, lib := { s.lib with lastScrub := s.hc }
                 life := { s.life with corrected := vmod s.life.corrected 5 (· + s.xlate.corrected.length) } }
/-- Event: the Librarian writes CAPCFG of a monitor block (R387). -/
def execCapcfgWrite (c : CoreId) (n : Fin 4) (v : Word) (s : State) : Host.Outcome State Fault Refusal :=
  .next (s.updCore c fun k =>
    let b := k.caps[n.val]
    let b : Cap := if v.getLsbD 30 then {} else b
    { k with caps := k.caps.set n.val { b with cfg := v &&& 0xFFFFFFFF800F030F } })
/-- A trip point within its range, or its default (R384). -/
def tripPoint (v lo hi dflt : Nat) : Nat := if lo ≤ v ∧ v ≤ hi then v else dflt
/-- Event: the Librarian writes a control register, a slot of the slot table, or the table entry of a page, or asks for a core's save
engine; queue pairs are created and destroyed, and the board management interface is read, on the host's request (R279, R305, R318, R327, R332, R354, R356,
R376, R380, R381, R384). -/
def execLibrarianRegisterWrite (r : LibReg) (v : Word) (s : State) : Host.Outcome State Fault Refusal :=
  .next (match r with
    | .damph c => s.updCore c fun k => { k with damph := v }
    | .dampx c => s.updCore c fun k => { k with dampx := v }
    | .reserve i => s.updIsland i fun k => { k with resume := v.extractLsb' 32 16, hold := v.extractLsb' 16 16 }
    | .plimit => { s with lib := { s.lib with plimit := v &&& 0xFFFFFFFF } }
    | .fstep i => s.setFstep i (Word.bits v 0 4)
    | .trips n => s.updSensor n fun k =>
        { k with advise := tripPoint (Word.bits v 0 8) 70 110 95, throttle := tripPoint (Word.bits v 8 8) 85 112 105
                 shutdown := tripPoint (Word.bits v 16 8) 110 120 115 }
    | .coreSlot c ws => s.writeSlot c (Vector.ofFn fun i => if h : i.val = 0 then v else ws[i.val - 1])
    | .stokerSlot k => s.writeStokerSlot k v
    | .mapPage asid va size => s.mapPage asid va (PageSize.bits size) v
    | .ccPage asid va chan => s.mapCompute asid va chan (v.getLsbD 2)
    | .poolPage part size => s.poolPage part v.toNat (PageSize.bits size)
    | .freePage asid va => s.freePage asid va
    | .createQp qp port part launch => s.setQp qp (some ⟨port, part.val, Word.bits v 0 16, false, launch⟩)
    | .destroyQp qp => s.setQp qp none
    | .boardRead histograms =>
      { s with host := { s.host with board := s.host.board ++ [if histograms then .histograms s.life.kept else .certificate Config.certificate] } }
    | .save c => if (s.core c).engine.isSome then s else s.startEngine c v.toNat false)

end Sys2Proof.Machine
end

