-- ==== Sys2Proof/Machine/Boot.lean ====
section
/-! DEFINITION. Cold reset, power loss, shutdown, recovery and attestation (R8, R301, R375, R389-R391). -/

namespace Sys2Proof.Machine

/-- The boot ROM accepts an image: its digest matches its header, its signature verifies, its version is not below the rollback
counter (R390). -/
def imageAccepted (img : FwImage) (rollback : Nat) : Bool :=
  sha3 img.bytes == img.digest && Config.verify img.digest img.signature && decide (rollback ≤ img.version)
/-- The handler store of every core as an image gives it: line number and words (R301). -/
def handlerStore (lines : List (Nat × List Word32)) : Mem :=
  lines.foldl (fun m l => Mem.write m (64 * (l.1 % 256)) ((l.2.take 16).flatMap fun w => leBytes 4 w.toNat)) []
/-- What survives without power: the catalogue and flash, the lifetime histograms and the firmware image in it, the rollback counter; and the model's
own counters, inputs and outputs; the wear day goes on where it stood (R274, R284, R389, R390). -/
def State.powerUp (s : State) : State :=
  let a := s.archive
  { State.reset with
    archive := { a with accs := a.accs.filter (·.status.isSome), folios := [], rrsize := 4, rrHeld := none, nextWearDay := s.archive.nextWearDay - s.hc }
    life := s.life.kept
    boot := { rollback := s.boot.rollback, strap := s.boot.strap, stored := s.boot.stored }
    host := { answers := s.host.answers, sent := s.host.sent, replies := s.host.replies, board := s.host.board }
    inbox := s.inbox, choice := s.choice, order := s.order }
/-- The device restarts with an image, or in recovery, where port 0 answers queue pair 1 with one region: when the image is not accepted, or the strap
selects it (R375, R390). -/
def State.restart (s : State) (img : Option FwImage) : State :=
  let t := s.powerUp
  match img.filter fun i => !s.boot.strap && imageAccepted i s.boot.rollback with
  | some i =>
    let floor := if 1000 ≤ i.floor ∧ i.floor ≤ 4500 then i.floor else 1000
    { t with cores := Vector.replicate 256 { handler := handlerStore i.handlers }, cap := { watts := floor, floor := floor }
             boot := { t.boot with digest := i.digest, version := i.version, stripesP := i.stripesP.val
                                   rollback := if i.advance then max t.boot.rollback i.version else t.boot.rollback } }
  | none =>
    { t with boot := { t.boot with recovery := true }
             host := { t.host with qps := t.host.qps.set 1 (some ⟨false, 0, 0, false, false⟩), regions := [⟨0, 0, 0, 0, recoverySize⟩] } }
/-- Event: cold reset: the boot ROM loads the image in the archive's reserved region. Until an image has been installed, that is the one which the
input brings (R8, R390, log entry 6). -/
def execColdReset (s : State) : Host.Outcome State Fault Refusal := .next (s.restart (s.boot.stored.or s.img))
/-- Event: power is removed (R384, R389). -/
def execPowerLoss (s : State) : Host.Outcome State Fault Refusal :=
  .next { s with power := false, bindings := [], cal := [], todo := [] }
/-- Event: an orderly shutdown: live counts are folded into the lifetime histograms, then power goes (R389). -/
def execOrderlyShutdown (s : State) : Host.Outcome State Fault Refusal :=
  .next { s.foldLife with power := false, bindings := [], cal := [], todo := [] }
/-- The image that the ROM finds in the recovery region: the input's reading of those bytes, or its own (R375, R390, log entry 6). -/
def State.installImage (s : State) : Option FwImage :=
  (s.img.filter fun i => s.boot.image.read 0 i.bytes.length == i.bytes).or (Config.parseImage (s.boot.image.read 0 recoverySize))
/-- Event: INSTALL: in recovery, an image in the region whose digest and signature verify is written to the archive's reserved region, and the device
restarts; else status 1 (R374, R375). -/
def execInstall (s : State) : Host.Outcome State Fault Refusal :=
  .next (match s.msg with
    | none => s
    | some m =>
      let s : State := { s with msg := none }
      match s.installImage.filter fun i => s.boot.recovery && msgWellFormed m 8 [] && sha3 i.bytes == i.digest && Config.verify i.digest i.signature with
      | some i => { s with boot := { s.boot with stored := some i } }.restart (some i)
      | none => s.answer m 1 0)
/-- Event: RECOVER, from partition 0 while the device holds one partition and no binding runs (R374, R375). -/
def execRecover (s : State) : Host.Outcome State Fault Refusal :=
  .next (match s.msg with
    | none => s
    | some m =>
      let s : State := { s with msg := none }
      if s.boot.recovery then s
      else if !msgWellFormed m 9 [] then s.answer m 1 0
      else if m.part ≠ 0 ∨ !s.bindings.isEmpty ∨ (s.lib.parts.toList.filter (· != 0)).length ≠ 1 then s.answer m 2 0
      else (s.answer m 0 0).restart none)
/-- Bytes 0x000 to 0x07F of an attestation report (R391). -/
def State.reportBody (s : State) (nonce : BitVec 256) : List Byte :=
  let masks := (List.finRange 4).foldl (fun n p => n + (s.lib.parts[p.val]).toNat * 2 ^ (4 * p.val)) 0
  leBytes 8 (2 ^ 32 * masks + 2 ^ 8 * (s.devId % 2 ^ 14) + 1) ++ leBytes 8 s.hc ++ leBytes 32 nonce.toNat ++ leBytes 32 s.boot.digest.toNat ++
  leBytes 32 Config.identity.toNat ++ leBytes 8 s.boot.rollback ++ leBytes 4 s.cap.floor ++ leBytes 4 s.cap.watts
/-- Event: a request with a nonce receives a signed report (R391). -/
def execAttestationRequest (nonce : BitVec 256) (s : State) : Host.Outcome State Fault Refusal :=
  .next (
    let body := s.reportBody nonce
    { s with boot := { s.boot with reports := s.boot.reports ++ [body ++ ((Config.sign body ++ List.replicate 2420 0).take 2420)] } })

end Sys2Proof.Machine
end

