-- ==== Sys2Proof/Machine/Control.lean ====
section
/-! DEFINITION. Control and time: nop, wait, branches, calls, hardware loops, retire, trap and eret, tokens, marks, fences,
tfence and dtwait (R105, R106, R165-R176). -/

namespace Sys2Proof.Machine

/-! ### Branches and jumps (R165, R168, R169) -/

/-- A transfer of control to a position when the condition holds (R165); otherwise the strand goes on. -/
def branch (h : Hdr) (taken : Bool) (pos : Nat) (s : State) : Host.Outcome State Fault Refusal :=
  issue h { transfers := taken } (fun u s => (if taken then s.goto u pos .jump else s).pushNow u) s

/-- nop (R166). -/
def execNop (h : Hdr) (s : State) : Host.Outcome State Fault Refusal := issue h {} noEffect s

/-- wait: the next instruction issues no earlier than issue + 1 + N + its own DLY (R166). -/
def execWait (h : Hdr) (n : Word32) (s : State) : Host.Outcome State Fault Refusal :=
  issue h {} (fun u s => (s.updStrand u.c u.st fun t => { t with base := u.now + 1 + n.toNat }).pushNow u) s

/-- j (R168). -/
def execJ (h : Hdr) (tgt : BitVec 15) (s : State) : Host.Outcome State Fault Refusal := branch h true tgt.toNat s

/-- jr: to the position held in x[A] (R169). -/
def execJr (h : Hdr) (a : XReg) (s : State) : Host.Outcome State Fault Refusal := branch h true (s.reg a).toNat s

/-- beq (R168). -/
def execBeq (h : Hdr) (a b : XReg) (tgt : BitVec 15) (s : State) : Host.Outcome State Fault Refusal :=
  branch h (s.reg a == s.reg b) tgt.toNat s

/-- bne (R168). -/
def execBne (h : Hdr) (a b : XReg) (tgt : BitVec 15) (s : State) : Host.Outcome State Fault Refusal :=
  branch h (s.reg a != s.reg b) tgt.toNat s

/-- blt, signed (R168). -/
def execBlt (h : Hdr) (a b : XReg) (tgt : BitVec 15) (s : State) : Host.Outcome State Fault Refusal :=
  branch h ((s.reg a).slt (s.reg b)) tgt.toNat s

/-- bge, signed (R168). -/
def execBge (h : Hdr) (a b : XReg) (tgt : BitVec 15) (s : State) : Host.Outcome State Fault Refusal :=
  branch h (!(s.reg a).slt (s.reg b)) tgt.toNat s

/-- bltu, unsigned (R168). -/
def execBltu (h : Hdr) (a b : XReg) (tgt : BitVec 15) (s : State) : Host.Outcome State Fault Refusal :=
  branch h ((s.reg a).ult (s.reg b)) tgt.toNat s

/-- bgeu, unsigned (R168). -/
def execBgeu (h : Hdr) (a b : XReg) (tgt : BitVec 15) (s : State) : Host.Outcome State Fault Refusal :=
  branch h (!(s.reg a).ult (s.reg b)) tgt.toNat s

/-- bbit: taken when bit n of x[A] has the sense (R168). -/
def execBbit (h : Hdr) (a : XReg) (n : BitVec 6) (sense : Bool) (tgt : BitVec 15) (s : State) :
    Host.Outcome State Fault Refusal :=
  branch h ((s.reg a).getLsbD n.toNat == sense) tgt.toNat s

/-- What a call does: it writes the position of its sequential successor to x[D] at issue + 1 and transfers (R164, R169). The push is
made in the issue cycle (R40). -/
def callEffect (d : XReg) (tgt : BitVec 15) (u : Turn) (s : State) : State :=
  let link := (successor (s.fetchMem u.c u.st) u.pos).1
  let r := { xResult u.sys d (BitVec.ofNat 64 link) with pos := u.pos, ord := u.ord }
  let s := s.updStrand u.c u.st fun t => { t with lastCall := some u.now }
  ((s.fly u.c u.st 1 r true false).goto u tgt.toNat .jump).pushNow u
/-- call (R169). -/
def execCall (h : Hdr) (d : XReg) (tgt : BitVec 15) (s : State) : Host.Outcome State Fault Refusal :=
  issue h { transfers := true, writes := true } (callEffect d tgt) s

/-- What a ret does: a monitor of returns records the cycles since the strand's last call, and control goes to a position (R169,
R388). -/
def retEffect (pos : Nat) (u : Turn) (s : State) : State :=
  let s := match (s.strand u.c u.st).lastCall with | some t => s.capture u.c 8 (some u.st) (u.now - t) | none => s
  (s.goto u pos .jump).pushNow u
/-- ret: as jr (R169). -/
def execRet (h : Hdr) (a : XReg) (s : State) : Host.Outcome State Fault Refusal :=
  issue h { transfers := true } (retEffect (s.reg a).toNat) s

/-! ### Hardware loops (R170) -/

/-- The base word of the instruction whose words include a word position, decoding the line from word 0 (R170). -/
def baseOf (m : Mem) (line word : Nat) : Nat → Nat → Nat
  | 0, b => b
  | fuel + 1, b =>
    let e := ((wordAt m line b).extractLsb' 23 2).toNat
    if word ≤ b + e then b else baseOf m line word fuel (b + e + 1)
/-- A branch target's code-image fault of kind 2 or 4 (R34, R170). -/
def targetFault (m : Mem) (lines pos tgt : Nat) : Option TrapInfo :=
  let line := tgt / 16
  let word := tgt % 16
  let bad (k : Nat) : TrapInfo := { cause := 4, epc := pos, i0 := BitVec.ofNat 64 k, i1 := BitVec.ofNat 64 line }
  if word = 15 then some (bad 2)
  else if lines ≤ line then some (bad 4)
  else if (linkOf m line).2.2 ≤ word then some (bad 2)
  else none

/-- What a loop does: it pushes an entry, or passes over the body for a count of 0 (R170). -/
def loopEffect (cnt : Word) (tgt : BitVec 15) (u : Turn) (s : State) : State :=
  let m := s.fetchMem u.c u.st
  let s :=
    if cnt = 0 then
      let n := successor m (16 * (tgt.toNat / 16) + baseOf m (tgt.toNat / 16) (tgt.toNat % 16) 16 0)
      s.goto u n.1 (if n.2 = .chainEnd then .jump else n.2)
    else
      let n := successor m u.pos
      (s.updStrand u.c u.st fun t => { t with loops := ⟨n.1, tgt.toNat, cnt⟩ :: t.loops }).goto u n.1 n.2
  s.pushNow u
/-- loop (R170). -/
def execLoop (h : Hdr) (a : XReg) (tgt : BitVec 15) (s : State) : Host.Outcome State Fault Refusal :=
  let t := s.mine
  let st := (s.core s.me.1).store t.level
  issue h { ill := if 4 ≤ t.loops.length then some 7 else none, transfers := true, fault := targetFault st.1 st.2 t.pos tgt.toNat }
    (loopEffect (s.reg a) tgt) s

/-- lexit: pops the innermost entry and transfers (R170). -/
def execLexit (h : Hdr) (tgt : BitVec 15) (s : State) : Host.Outcome State Fault Refusal :=
  issue h { ill := if s.mine.loops.isEmpty then some 7 else none, transfers := true } (fun u s =>
    ((s.updStrand u.c u.st fun t => { t with loops := t.loops.drop 1 }).goto u tgt.toNat .jump).pushNow u) s

/-! ### Retire, trap and return (R171-R173) -/

/-- retire: the strand issues nothing after it; its loop stack is discarded, and so is a pending interrupt, of which the Librarian learns (R170,
R171, R339). -/
def execRetire (h : Hdr) (s : State) : Host.Outcome State Fault Refusal :=
  issue h {} (fun u s => (s.dropInterrupt u.c u.st).updStrand u.c u.st fun t => { t with run := .retired, loops := [] }) s

/-- trap: the software trap is taken in the next cycle, with CODE (R172). -/
def execTrap (h : Hdr) (code : BitVec 16) (s : State) : Host.Outcome State Fault Refusal :=
  issue h {} (fun u s => (s.updStrand u.c u.st fun t => { t with trapDue := some (1, code.setWidth 64, none) }).pushNow u) s

/-- eret: privileged; returns from the trap in progress (R173, R338, R343). -/
def execEret (h : Hdr) (s : State) : Host.Outcome State Fault Refusal :=
  issue h { priv := true, transfers := true } (fun u s => (s.pushNow u).returnFrom u.c u.st) s

/-! ### Tokens, marks, fences (R105, R106, R174-R176) -/

/-- give: pushes CNT tokens beside those of the token bits, in the issue cycle (R174). -/
def execGive (h : Hdr) (dir : Bool) (n : BitVec 4) (s : State) : Host.Outcome State Fault Refusal :=
  issue h { pushes := [(pushFifo s.me.2 dir, n.toNat)] } (fun u s =>
    s.later u.c u.st 0 latePrio (.push u.c u.st (u.h.pap.toNat + if dir then 0 else n.toNat)
      (u.h.pan.toNat + if dir then n.toNat else 0))) s

/-- take: pops CNT tokens beside those of the token bits (R174). -/
def execTake (h : Hdr) (dir : Bool) (n : BitVec 4) (s : State) : Host.Outcome State Fault Refusal :=
  issue h { pops := [(popFifo s.me.2 dir, n.toNat)] } noEffect s

/-- The strand with which a strand's marks pair (R105). -/
def markPartner : StrandId → StrandId
  | .l => .s | .s => .l | o => o
/-- The marks of a tag that a strand has issued. -/
def Strand.markCount (t : Strand) (tag : BitVec 4) : Nat := t.marks[tag.toNat]
/-- Pairs a mark: the strand's later accesses are held behind both strands' accesses before their marks (R105). -/
def State.markNow (s : State) (c : CoreId) (st : StrandId) (tag : BitVec 4) : State :=
  let t := s.strand c st
  let p := markPartner st
  let q := s.strand c p
  let n := t.markCount tag + 1
  let need (o : StrandId) (b : Nat) : Need := ⟨c, o, 0, b, false, false⟩
  let theirs := q.holds.find? fun h => h.mark == some (tag.toNat, n)
  let paired := decide (n ≤ q.markCount tag)
  let bound := match theirs with | some h => h.start | none => q.seq
  let s := s.updStrand c st fun t => { t with marks := t.marks.set tag.toNat n }
  let s := s.addHold c st ⟨t.ord - 1, t.seq, false, need st t.seq :: (if paired then [need p bound] else []),
    if paired then none else some (tag.toNat, n), false, false, false⟩
  let s := if paired then s.updStrand c p fun q =>
      { q with holds := q.holds.map fun h => if h.mark = some (tag.toNat, n) then { h with mark := none, needs := need st t.seq :: h.needs } else h }
    else s
  s.later c st 0 latePrio (.holds c st)

/-- mark: on L and S; a sixteenth mark ahead of the partner waits in class 0 (R105, R175). -/
def execMark (h : Hdr) (tag : BitVec 4) (s : State) : Host.Outcome State Fault Refusal :=
  let p := markPartner s.me.2
  let ahead := decide (15 + (s.strand s.me.1 p).markCount tag ≤ s.mine.markCount tag)
  issue h { legal := [.l, .s], busy := if ahead then some (0, tag.setWidth 64, p.num.val + 1) else none, needs := true } (fun u s =>
    (s.markNow u.c u.st tag).pushNow u) s

/-- fence: holds the strand's later accesses behind the earlier ones; its push waits for them (R106, R176). -/
def execFence (h : Hdr) (form : FenceForm) (sc : Scope) (s : State) : Host.Outcome State Fault Refusal :=
  issue h {} (fun u s => s.fence u.c u.st form sc u.h.pap u.h.pan) s

/-- tfence: waits for the strand's arithmetic results, then takes the arithmetic trap when an enabled flag is set (R72, R176). -/
def execTfence (h : Hdr) (s : State) : Host.Outcome State Fault Refusal :=
  issue h {} (fun u s => s.waitFor u .tfence 0 false 0) s

/-- Every result for which a tfence of the strand waits has performed (R72). It waits for register results and, on C, for the hobs, as R176 names them; not
for the conversions of copies or the sums of lred that the strand has issued (DESIGN CHOICE, log entry 63). -/
def State.tfenceMet (s : State) (c : CoreId) (st : StrandId) : Bool :=
  ((s.strand c st).flights.all fun f => !f.arith) && !s.pendingArith c st && (st != .c || (s.core c).hobs.all fun h => h.cmds.all fun m => !m.op.arith)
/-- A tfence whose wait ends in this cycle: it completes, or its trap falls due in the next cycle (R72). -/
def State.endTfence (s : State) (c : CoreId) (st : StrandId) : State :=
  let t := s.strand c st
  let bits := Word.bits t.fcsr 8 6 &&& Word.bits t.fcsr 0 6
  if bits = 0 then s.endWait c st 0
  else s.updStrand c st fun t => { t with trapDue := some (2, BitVec.ofNat 64 bits, t.wait.map (·.pos)) }

/-! ### Waiting for a domain time (R167) -/

/-- What a dtwait does: the strand goes on after domain time T; x[D] says whether T lay in the past (R167). At system level the strand
waits for the binding's DT, which can stand while the core's clock goes on (R349). -/
def dtwaitEffect (d : XReg) (target : BitVec 48) (u : Turn) (s : State) : State :=
  let diff : Int := (target - BitVec.ofNat 48 (s.dt u.c)).toInt
  let n := diff.toNat
  if u.sys && decide (0 < diff) then (s.waitFor u .dtime d false 0).laterOn (.dt (s.bidOf u.c)) n latePrio (.dtEnd u.c u.st u.ord) else
  let s := s.updStrand u.c u.st fun t => { t with base := u.now + n + 1 }
  let r := { xResult u.sys d (if 0 < diff then 0 else 1) with pos := u.pos, ord := u.ord }
  let s := s.fly u.c u.st (n + 1) r true false
  if u.h.pap || u.h.pan then s.later u.c u.st n latePrio (.push u.c u.st u.h.pap.toNat u.h.pan.toNat) else s
/-- A dtwait at system level completes: its strand goes on, and x[D] receives 0 one cycle later (R167). -/
def State.endDtwait (s : State) (c : CoreId) (st : StrandId) (ord : Nat) : State :=
  match (s.strand c st).wait with
  | some w =>
    if w.ord ≠ ord then s
    else (s.fly c st 1 { xResult true w.dest 0 with pos := w.pos, ord := ord } true false).endWait c st 0
  | none => s
/-- dtwait (R167). -/
def execDtwait (h : Hdr) (d a : XReg) (ofs : Word32) (s : State) : Host.Outcome State Fault Refusal :=
  issue h { writes := true } (dtwaitEffect d ((s.reg a + immW ofs).extractLsb' 0 48)) s

end Sys2Proof.Machine
end

