-- ==== Sys2Proof/Machine/Integer.lean ====
section
/-! DEFINITION. Integer and address arithmetic on the x registers (R164, R177, R178). -/

namespace Sys2Proof.Machine

/-- An integer instruction: its value is written to x[D] `lat` cycles after issue (R164). -/
def intOp (h : Hdr) (lat : Nat) (d : XReg) (v : Word) (s : State) : Host.Outcome State Fault Refusal :=
  issue h { writes := true } (fun u s => s.xres u lat d v) s

/-- The shift amount of a register shift: b[5:0] (R177). -/
def shamt (b : Word) : Nat := b.toNat % 64
/-- The high half of the signed product (R177). -/
def mulHigh (a b : Word) : Word := BitVec.ofInt 64 (a.toInt * b.toInt / 2 ^ 64)
/-- The high half of the unsigned product (R177). -/
def mulHighU (a b : Word) : Word := BitVec.ofNat 64 (a.toNat * b.toNat / 2 ^ 64)
/-- Number of 1 bits (R177). -/
def popCount (a : Word) : Word := BitVec.ofNat 64 ((List.range 64).countP fun i => a.getLsbD i)
/-- A 64-bit truth value. -/
def boolW (b : Bool) : Word := if b then 1 else 0

/-- add (R177). -/
def execAdd (h : Hdr) (d a b : XReg) (s : State) : Host.Outcome State Fault Refusal := intOp h 1 d (s.reg a + s.reg b) s
/-- sub (R177). -/
def execSub (h : Hdr) (d a b : XReg) (s : State) : Host.Outcome State Fault Refusal := intOp h 1 d (s.reg a - s.reg b) s
/-- and (R177). -/
def execAnd (h : Hdr) (d a b : XReg) (s : State) : Host.Outcome State Fault Refusal := intOp h 1 d (s.reg a &&& s.reg b) s
/-- or (R177). -/
def execOr (h : Hdr) (d a b : XReg) (s : State) : Host.Outcome State Fault Refusal := intOp h 1 d (s.reg a ||| s.reg b) s
/-- xor (R177). -/
def execXor (h : Hdr) (d a b : XReg) (s : State) : Host.Outcome State Fault Refusal := intOp h 1 d (s.reg a ^^^ s.reg b) s
/-- sll (R177). -/
def execSll (h : Hdr) (d a b : XReg) (s : State) : Host.Outcome State Fault Refusal :=
  intOp h 1 d (s.reg a <<< shamt (s.reg b)) s
/-- srl (R177). -/
def execSrl (h : Hdr) (d a b : XReg) (s : State) : Host.Outcome State Fault Refusal :=
  intOp h 1 d (s.reg a >>> shamt (s.reg b)) s
/-- sra (R177). -/
def execSra (h : Hdr) (d a b : XReg) (s : State) : Host.Outcome State Fault Refusal :=
  intOp h 1 d ((s.reg a).sshiftRight (shamt (s.reg b))) s
/-- addi (R177). -/
def execAddi (h : Hdr) (d a : XReg) (imm : Word32) (s : State) : Host.Outcome State Fault Refusal :=
  intOp h 1 d (s.reg a + immW imm) s
/-- andi (R177). -/
def execAndi (h : Hdr) (d a : XReg) (imm : Word32) (s : State) : Host.Outcome State Fault Refusal :=
  intOp h 1 d (s.reg a &&& immW imm) s
/-- ori (R177). -/
def execOri (h : Hdr) (d a : XReg) (imm : Word32) (s : State) : Host.Outcome State Fault Refusal :=
  intOp h 1 d (s.reg a ||| immW imm) s
/-- xori (R177). -/
def execXori (h : Hdr) (d a : XReg) (imm : Word32) (s : State) : Host.Outcome State Fault Refusal :=
  intOp h 1 d (s.reg a ^^^ immW imm) s
/-- slli (R177). -/
def execSlli (h : Hdr) (d a : XReg) (sh : BitVec 6) (s : State) : Host.Outcome State Fault Refusal :=
  intOp h 1 d (s.reg a <<< sh.toNat) s
/-- srli (R177). -/
def execSrli (h : Hdr) (d a : XReg) (sh : BitVec 6) (s : State) : Host.Outcome State Fault Refusal :=
  intOp h 1 d (s.reg a >>> sh.toNat) s
/-- srai (R177). -/
def execSrai (h : Hdr) (d a : XReg) (sh : BitVec 6) (s : State) : Host.Outcome State Fault Refusal :=
  intOp h 1 d ((s.reg a).sshiftRight sh.toNat) s
/-- li (R177). -/
def execLi (h : Hdr) (d : XReg) (imm : Word32) (s : State) : Host.Outcome State Fault Refusal := intOp h 1 d (immW imm) s
/-- lih: (imm << 32) OR a[31:0] (R177). -/
def execLih (h : Hdr) (d a : XReg) (imm : Word32) (s : State) : Host.Outcome State Fault Refusal :=
  intOp h 1 d (imm ++ (s.reg a).extractLsb' 0 32) s
/-- slt, signed (R177). -/
def execSlt (h : Hdr) (d a b : XReg) (s : State) : Host.Outcome State Fault Refusal :=
  intOp h 1 d (boolW ((s.reg a).slt (s.reg b))) s
/-- sltu, unsigned (R177). -/
def execSltu (h : Hdr) (d a b : XReg) (s : State) : Host.Outcome State Fault Refusal :=
  intOp h 1 d (boolW ((s.reg a).ult (s.reg b))) s
/-- slti, signed (R177). -/
def execSlti (h : Hdr) (d a : XReg) (imm : Word32) (s : State) : Host.Outcome State Fault Refusal :=
  intOp h 1 d (boolW ((s.reg a).slt (immW imm))) s
/-- min, signed (R177). -/
def execMin (h : Hdr) (d a b : XReg) (s : State) : Host.Outcome State Fault Refusal :=
  intOp h 1 d (if (s.reg a).slt (s.reg b) then s.reg a else s.reg b) s
/-- max, signed (R177). -/
def execMax (h : Hdr) (d a b : XReg) (s : State) : Host.Outcome State Fault Refusal :=
  intOp h 1 d (if (s.reg a).slt (s.reg b) then s.reg b else s.reg a) s
/-- minu, unsigned (R177). -/
def execMinu (h : Hdr) (d a b : XReg) (s : State) : Host.Outcome State Fault Refusal :=
  intOp h 1 d (if (s.reg a).ult (s.reg b) then s.reg a else s.reg b) s
/-- maxu, unsigned (R177). -/
def execMaxu (h : Hdr) (d a b : XReg) (s : State) : Host.Outcome State Fault Refusal :=
  intOp h 1 d (if (s.reg a).ult (s.reg b) then s.reg b else s.reg a) s
/-- mul: the low half (R164, R177). -/
def execMul (h : Hdr) (d a b : XReg) (s : State) : Host.Outcome State Fault Refusal := intOp h 3 d (s.reg a * s.reg b) s
/-- mulh (R177). -/
def execMulh (h : Hdr) (d a b : XReg) (s : State) : Host.Outcome State Fault Refusal :=
  intOp h 3 d (mulHigh (s.reg a) (s.reg b)) s
/-- mulhu (R177). -/
def execMulhu (h : Hdr) (d a b : XReg) (s : State) : Host.Outcome State Fault Refusal :=
  intOp h 3 d (mulHighU (s.reg a) (s.reg b)) s
/-- popc (R177). -/
def execPopc (h : Hdr) (d a : XReg) (s : State) : Host.Outcome State Fault Refusal := intOp h 1 d (popCount (s.reg a)) s

/-- A division: its value at issue + 18, with DZ for a divisor of 0 (R164, R178). -/
def divOp (h : Hdr) (d : XReg) (v : Word) (zero : Bool) (s : State) : Host.Outcome State Fault Refusal :=
  issue h { writes := true } (fun u s => s.result u 18 { xResult u.sys d v with flags := if zero then 0x10 else 0 }) s
/-- The signed quotient, rounded toward zero (R178). -/
def quotS (a b : Word) : Word := if b = 0 then BitVec.allOnes 64 else BitVec.ofInt 64 (a.toInt.tdiv b.toInt)
/-- The signed remainder, with the sign of a (R178). -/
def remS (a b : Word) : Word := if b = 0 then a else BitVec.ofInt 64 (a.toInt.tmod b.toInt)
/-- The unsigned quotient (R178). -/
def quotU (a b : Word) : Word := if b = 0 then BitVec.allOnes 64 else BitVec.ofNat 64 (a.toNat / b.toNat)
/-- The unsigned remainder (R178). -/
def remU (a b : Word) : Word := if b = 0 then a else BitVec.ofNat 64 (a.toNat % b.toNat)

/-- div (R178). -/
def execDiv (h : Hdr) (d a b : XReg) (s : State) : Host.Outcome State Fault Refusal :=
  divOp h d (quotS (s.reg a) (s.reg b)) (s.reg b == 0) s
/-- divu (R178). -/
def execDivu (h : Hdr) (d a b : XReg) (s : State) : Host.Outcome State Fault Refusal :=
  divOp h d (quotU (s.reg a) (s.reg b)) (s.reg b == 0) s
/-- rem (R178). -/
def execRem (h : Hdr) (d a b : XReg) (s : State) : Host.Outcome State Fault Refusal :=
  divOp h d (remS (s.reg a) (s.reg b)) (s.reg b == 0) s
/-- remu (R178). -/
def execRemu (h : Hdr) (d a b : XReg) (s : State) : Host.Outcome State Fault Refusal :=
  divOp h d (remU (s.reg a) (s.reg b)) (s.reg b == 0) s

end Sys2Proof.Machine
end

