-- ==== Sys2Proof/Machine/StreamOps.lean ====
section
/-! DEFINITION. Stream set-up: the instructions that write, move and check stream descriptors (R190, R191). -/

namespace Sys2Proof.Machine

/-- The mask of `n` bits from bit `lo` of a descriptor. -/
def qMask (lo n : Nat) : BitVec 256 := BitVec.ofNat 256 ((2 ^ n - 1) * 2 ^ lo)
/-- A value at bit `lo` of a descriptor. -/
def qBits (v lo : Nat) : BitVec 256 := BitVec.ofNat 256 (v * 2 ^ lo)
/-- A stream set-up that writes bits of q[D] at issue + 1 (R190). -/
def qOp (h : Hdr) (d : QReg) (data mask : BitVec 256) (s : State) : Host.Outcome State Fault Refusal :=
  issue h { legal := [.x, .l, .s], writes := true } (fun u s => s.resultRead u 1 (qResult d data mask)) s

/-- qset: word n of q[D] := x[A] (R190). -/
def execQset (h : Hdr) (d : QReg) (a : XReg) (n : BitVec 2) (s : State) : Host.Outcome State Fault Refusal :=
  qOp h d (qBits (s.reg a).toNat (64 * n.toNat)) (qMask (64 * n.toNat) 64) s

/-- The fault of the 32 bytes of a descriptor in LS (R190). -/
def State.qFault (s : State) (a : Nat) (write : Bool) : Option TrapInfo :=
  firstFault [alignFault s.mine.pos a 32 .ls, lsFault s.mine.pos a 32 write,
    if write then none else s.earlyFault s.me.1 s.mine.pos none (s.readAt a 32 2)]

/-- qld: q[D] := 32 bytes of LS, read at issue + 2, written at issue + 8 (R190). -/
def execQld (h : Hdr) (d : QReg) (a : XReg) (imm : Word32) (s : State) : Host.Outcome State Fault Refusal :=
  let ad := s.ea a imm
  issue h { legal := [.x, .l, .s], writes := true, fault := s.qFault ad false } (fun u s =>
    (s.sendRead u u.c (loadBytes ad 32) 0 2 5 []).resultLater u 8 (qResult d 0 (BitVec.allOnes 256))) s

/-- qst: 32 bytes of LS := q[A], at issue + 2 (R190). -/
def execQst (h : Hdr) (a : QReg) (b : XReg) (imm : Word32) (s : State) : Host.Outcome State Fault Refusal :=
  let ad := s.ea b imm
  let bytes := leBytes 32 ((s.core s.me.1).rq a).toBits.toNat
  issue h { fault := s.qFault ad true } (fun u s => s.sendAccess u (.ls u.c) ad 0 (.write bytes) 2 []) s

/-- qmov (R190). -/
def execQmov (h : Hdr) (d a : QReg) (s : State) : Host.Outcome State Fault Refusal :=
  qOp h d ((s.core s.me.1).rq a).toBits (BitVec.allOnes 256) s

/-- qadv: BASE and SBASE advance modulo 2^48 (R190). -/
def execQadv (h : Hdr) (d : QReg) (a b : XReg) (imm : Word32) (s : State) : Host.Outcome State Fault Refusal :=
  let q := (s.core s.me.1).rq d
  let base := (q.base + (s.reg a + immW imm).toNat) % 2 ^ 48
  let sbase := (q.sbase + (s.reg b).toNat) % 2 ^ 48
  qOp h d (qBits base 0 ||| qBits sbase 192) (qMask 0 48 ||| qMask 192 48) s

/-- qget: x[D] := word n of q[A], at issue + 2 (R190). -/
def execQget (h : Hdr) (d : XReg) (a : QReg) (n : BitVec 2) (s : State) : Host.Outcome State Fault Refusal :=
  let w := ((s.core s.me.1).rq a).toBits.extractLsb' (64 * n.toNat) 64
  issue h { writes := true } (fun u s => s.resultRead u 2 (xResult u.sys d w)) s

/-- qchk: x[D] := the lowest code of R191 that applies, at issue + 2. -/
def execQchk (h : Hdr) (d : XReg) (a : QReg) (u : Bool) (s : State) : Host.Outcome State Fault Refusal :=
  let v := BitVec.ofNat 64 (((s.core s.me.1).rq a).check u)
  issue h { writes := true } (fun t s => s.resultRead t 2 (xResult t.sys d v)) s

/-- qwp: WPCH and WPB of q[D] (R190). -/
def execQwp (h : Hdr) (d : QReg) (ch : BitVec 3) (en : Bool) (s : State) : Host.Outcome State Fault Refusal :=
  qOp h d (qBits ch.toNat 55 ||| qBits en.toNat 54) (qMask 54 4) s

end Sys2Proof.Machine
end

