-- ==== Sys2Proof/Machine/VectorBits.lean ====
section
/-! DEFINITION. Vector comparison and selection, mask registers, bit operations, and the permutes and transfers of elements
(R223-R228, R231). -/

namespace Sys2Proof.Machine

/-! ### Comparison and selection (R223, R224) -/

/-- The outcome of a comparison and its flag (R223). -/
def compareElem (cond : BitVec 3) (f : Fmt) (a b : Nat) : Bool × Flg :=
  let x := numValue f a
  let y := numValue f b
  let un := x.isNan || y.isNan
  let less := x.lt y && !x.eq y
  let more := y.lt x && !x.eq y
  match cond.toNat with
  | 0 => (x.eq y, 0)
  | 1 => (un || !x.eq y, 0)
  | 2 => (less, flagIf un fIV)
  | 3 => (less || x.eq y, flagIf un fIV)
  | 4 => (more, flagIf un fIV)
  | 5 => (more || x.eq y, flagIf un fIV)
  | 6 => (un, 0)
  | _ => (!un, 0)

/-- vcmp: the outcome goes to every mask bit of its element's bytes (R223). -/
def execVcmp (h : Hdr) (d : KReg) (a b : VReg) (k : KReg) (cond : BitVec 3) (fmt : Fmt) (s : State) :
    Host.Outcome State Fault Refusal :=
  let va := s.vec a
  let vb := s.vec b
  let w := fmt.bits / 8
  let out := (enabledElems (s.msk k) fmt).map fun j => (j, compareElem cond fmt (elem va fmt j) (elem vb fmt j))
  let data : MaskData := BitVec.ofNat 256 (out.foldl (fun n p => if p.2.1 then n ||| (2 ^ w - 1) <<< (w * p.1) else n) 0)
  let mask : MaskData := BitVec.ofNat 256 (out.foldl (fun n p => n ||| (2 ^ w - 1) <<< (w * p.1)) 0)
  issue h { legal := [.c], writes := true } (fun u s => s.result u 2 (kResult d data mask (orFlags (out.map (·.2.2))))) s

/-- Elements moved without a flag, written at issue + `lat`: listed elements of a width, with their bits. -/
def vMove (h : Hdr) (d : VReg) (w lat : Nat) (es : List (Nat × Nat)) (s : State) : Host.Outcome State Fault Refusal :=
  issue h { legal := [.c], writes := true } (fun u s => s.result u lat (vResult d (packElems w es) 0)) s
/-- Enabled elements moved. -/
def vMoveMap (h : Hdr) (d : VReg) (k : KReg) (f : Fmt) (lat : Nat) (op : Nat → Nat) (s : State) :
    Host.Outcome State Fault Refusal :=
  vMove h d f.bits lat ((enabledElems (s.msk k) f).map fun j => (j, op j)) s

/-- vsel: every element, chosen by the mask (R224). -/
def execVsel (h : Hdr) (d a b : VReg) (k : KReg) (fmt : Fmt) (s : State) : Host.Outcome State Fault Refusal :=
  let va := s.vec a
  let vb := s.vec b
  let m := s.msk k
  vMove h d fmt.bits 2 ((List.range (elemCount fmt)).map fun j => (j, if enabled m fmt j then elem va fmt j else elem vb fmt j)) s

/-- vmov (R224). -/
def execVmov (h : Hdr) (d a : VReg) (k : KReg) (fmt : Fmt) (s : State) : Host.Outcome State Fault Refusal :=
  let va := s.vec a
  vMoveMap h d k fmt 2 (elem va fmt) s

/-! ### Mask registers (R225) -/

/-- A truth table on three words, bit by bit: TT[4a + 2b + c] (R225, R226). -/
def lop3 {n : Nat} (tt : BitVec 8) (a b c : BitVec n) : BitVec n :=
  let term (i : Nat) : BitVec n :=
    if tt.getLsbD i then
      (if i.testBit 2 then a else ~~~a) &&& (if i.testBit 1 then b else ~~~b) &&& (if i.testBit 0 then c else ~~~c)
    else 0
  term 0 ||| term 1 ||| term 2 ||| term 3 ||| term 4 ||| term 5 ||| term 6 ||| term 7

/-- kop (R225). -/
def execKop (h : Hdr) (d a b c : KReg) (tt : BitVec 8) (s : State) : Host.Outcome State Fault Refusal :=
  let r := lop3 tt (s.msk a) (s.msk b) (s.msk c)
  issue h { legal := [.c], writes := true } (fun u s => s.result u 2 (kResult d r (BitVec.allOnes 256) 0)) s

/-- kmov: k[B] with one 64-bit word replaced (R225). -/
def execKmov (h : Hdr) (d : KReg) (a : XReg) (b : KReg) (n : BitVec 2) (s : State) : Host.Outcome State Fault Refusal :=
  let r := merge (s.msk b) (BitVec.ofNat 256 ((s.reg a).toNat * 2 ^ (64 * n.toNat))) (BitVec.ofNat 256 ((2 ^ 64 - 1) * 2 ^ (64 * n.toNat)))
  issue h { legal := [.c], writes := true } (fun u s => s.result u 2 (kResult d r (BitVec.allOnes 256) 0)) s

/-- The number of 1 bits of a mask. -/
def maskCount (m : MaskData) : Nat := ((List.range 256).filter m.getLsbD).length
/-- The index of the lowest 1 bit, or 256. -/
def maskFirst (m : MaskData) : Nat := ((List.range 256).find? m.getLsbD).getD 256

/-- vpopc (R225). -/
def execVpopc (h : Hdr) (d : XReg) (a : KReg) (first : Bool) (s : State) : Host.Outcome State Fault Refusal :=
  let m := s.msk a
  let v := if first then maskFirst m else maskCount m
  issue h { legal := [.c], writes := true } (fun u s => s.xres u 2 d (BitVec.ofNat 64 v)) s

/-! ### Bits (R226-R228) -/

/-- vlop3 (R226). -/
def execVlop3 (h : Hdr) (d a b c : VReg) (k : KReg) (fmt : Fmt) (tt : BitVec 8) (s : State) : Host.Outcome State Fault Refusal :=
  let r := lop3 tt (s.vec a) (s.vec b) (s.vec c)
  vMoveMap h d k fmt 2 (elem r fmt) s

/-- vsll (R227). -/
def execVsll (h : Hdr) (d a b : VReg) (k : KReg) (fmt : Fmt) (s : State) : Host.Outcome State Fault Refusal :=
  let va := s.vec a
  let vb := s.vec b
  vMoveMap h d k fmt 2 (fun j => let n := elem vb fmt j; if n < fmt.bits then elem va fmt j * 2 ^ n % 2 ^ fmt.bits else 0) s

/-- vsrl (R227). -/
def execVsrl (h : Hdr) (d a b : VReg) (k : KReg) (fmt : Fmt) (s : State) : Host.Outcome State Fault Refusal :=
  let va := s.vec a
  let vb := s.vec b
  vMoveMap h d k fmt 2 (fun j => let n := elem vb fmt j; if n < fmt.bits then elem va fmt j / 2 ^ n else 0) s

/-- A shift to the right that fills with the element's top bit (R227). -/
def shiftTop (w v n : Nat) : Nat :=
  let i : Int := if 2 ^ (w - 1) ≤ v then (v : Int) - (2 ^ w : Nat) else v
  ((i / (2 ^ min n w : Nat)) % (2 ^ w : Nat)).toNat

/-- vsra: fills with the top bit in every format (R227). -/
def execVsra (h : Hdr) (d a b : VReg) (k : KReg) (fmt : Fmt) (s : State) : Host.Outcome State Fault Refusal :=
  let va := s.vec a
  let vb := s.vec b
  vMoveMap h d k fmt 2 (fun j => shiftTop fmt.bits (elem va fmt j) (elem vb fmt j)) s

/-- A shift of whole registers, written at issue + 2 (R228). -/
def vWhole (h : Hdr) (d : VReg) (v : VecData) (s : State) : Host.Outcome State Fault Refusal :=
  issue h { legal := [.c], writes := true } (fun u s => s.result u 2 (vResult d (v, BitVec.allOnes 2048) 0)) s
/-- The shift distance x[C][10:0] (R228). -/
def State.shiftBy (s : State) (c : XReg) : Nat := (s.reg c).toNat % 2048

/-- vfsl: bits [4095−s : 2048−s] of v[A]·2^2048 + v[B] (R228). -/
def execVfsl (h : Hdr) (d a b : VReg) (c : XReg) (s : State) : Host.Outcome State Fault Refusal :=
  vWhole h d ((s.vec a ++ s.vec b).extractLsb' (2048 - s.shiftBy c) 2048) s

/-- vfsr: bits [2047+s : s] of v[A]·2^2048 + v[B] (R228). -/
def execVfsr (h : Hdr) (d a b : VReg) (c : XReg) (s : State) : Host.Outcome State Fault Refusal :=
  vWhole h d ((s.vec a ++ s.vec b).extractLsb' (s.shiftBy c) 2048) s

/-- vrot: bit (i + s) mod 2,048 := bit i (R228). -/
def execVrot (h : Hdr) (d a : VReg) (c : XReg) (s : State) : Host.Outcome State Fault Refusal :=
  vWhole h d ((s.vec a ++ s.vec a).extractLsb' (2048 - s.shiftBy c) 2048) s

/-! ### Permutes and transfers (R231) -/

/-- Element `i` of a register, or 0 beyond it (R231). -/
def elemOr0 (v : VecData) (f : Fmt) (i : Nat) : Nat := if i < elemCount f then elem v f i else 0

/-- vperm (R231). -/
def execVperm (h : Hdr) (d a b : VReg) (k : KReg) (fmt : Fmt) (s : State) : Host.Outcome State Fault Refusal :=
  let va := s.vec a
  let vb := s.vec b
  vMoveMap h d k fmt 8 (fun j => elemOr0 va fmt (elem vb fmt j)) s

/-- vslide: a window on two registers in a row (R231). -/
def execVslide (h : Hdr) (d a b : VReg) (c : XReg) (k : KReg) (fmt : Fmt) (up : Bool) (s : State) :
    Host.Outcome State Fault Refusal :=
  let va := s.vec a
  let vb := s.vec b
  let n := elemCount fmt
  let sh := (s.reg c).toNat
  let pair (lo hi : VecData) (i : Nat) : Nat := if i < n then elem lo fmt i else elemOr0 hi fmt (i - n)
  vMoveMap h d k fmt 4 (fun j =>
    if up then (if sh ≤ n + j then pair vb va (n + j - sh) else 0) else pair va vb (j + sh)) s

/-- vbcast (R231). -/
def execVbcast (h : Hdr) (d a : VReg) (b : XReg) (k : KReg) (fmt : Fmt) (s : State) : Host.Outcome State Fault Refusal :=
  let v := elemOr0 (s.vec a) fmt (s.reg b).toNat
  vMoveMap h d k fmt 4 (fun _ => v) s

/-- vsplat (R231). -/
def execVsplat (h : Hdr) (d : VReg) (a : XReg) (k : KReg) (fmt : Fmt) (s : State) : Host.Outcome State Fault Refusal :=
  let v := (s.reg a).toNat % 2 ^ fmt.bits
  vMoveMap h d k fmt 2 (fun _ => v) s

/-- vext: one element to x[D], extended by its format (R231). -/
def execVext (h : Hdr) (d : XReg) (a : VReg) (b : XReg) (fmt : Fmt) (s : State) : Host.Outcome State Fault Refusal :=
  let v := elemOr0 (s.vec a) fmt (s.reg b).toNat
  let w := if fmt.isSigned then signExtend (fmt.bits / 8) v else BitVec.ofNat 64 v
  issue h { legal := [.c], writes := true } (fun u s => s.xres u 2 d w) s

end Sys2Proof.Machine
end

