-- ==== Sys2Proof/Machine/Dispatch.lean ====
section
/-! DEFINITION. One arm for each instruction and event: a direct call of its meaning. -/

namespace Sys2Proof.Machine

/-- What an instruction or event does (R149 and the event rows of the opcode table). -/
def exec (i : Instr) (s : State) : Host.Outcome State Fault Refusal :=
  match i with
  | .nop h => Sys2Proof.Machine.execNop h s
  | .wait h n => Sys2Proof.Machine.execWait h n s
  | .j h tgt => Sys2Proof.Machine.execJ h tgt s
  | .jr h a => Sys2Proof.Machine.execJr h a s
  | .beq h a b tgt => Sys2Proof.Machine.execBeq h a b tgt s
  | .bne h a b tgt => Sys2Proof.Machine.execBne h a b tgt s
  | .blt h a b tgt => Sys2Proof.Machine.execBlt h a b tgt s
  | .bge h a b tgt => Sys2Proof.Machine.execBge h a b tgt s
  | .bltu h a b tgt => Sys2Proof.Machine.execBltu h a b tgt s
  | .bgeu h a b tgt => Sys2Proof.Machine.execBgeu h a b tgt s
  | .call h d tgt => Sys2Proof.Machine.execCall h d tgt s
  | .ret h a => Sys2Proof.Machine.execRet h a s
  | .loop h a tgt => Sys2Proof.Machine.execLoop h a tgt s
  | .lexit h tgt => Sys2Proof.Machine.execLexit h tgt s
  | .retire h => Sys2Proof.Machine.execRetire h s
  | .bbit h a n sense tgt => Sys2Proof.Machine.execBbit h a n sense tgt s
  | .give h dir n => Sys2Proof.Machine.execGive h dir n s
  | .take h dir n => Sys2Proof.Machine.execTake h dir n s
  | .mark h tag => Sys2Proof.Machine.execMark h tag s
  | .fence h form sc => Sys2Proof.Machine.execFence h form sc s
  | .tfence h => Sys2Proof.Machine.execTfence h s
  | .trap h code => Sys2Proof.Machine.execTrap h code s
  | .eret h => Sys2Proof.Machine.execEret h s
  | .dtwait h d a ofs => Sys2Proof.Machine.execDtwait h d a ofs s
  | .add h d a b => Sys2Proof.Machine.execAdd h d a b s
  | .sub h d a b => Sys2Proof.Machine.execSub h d a b s
  | .and h d a b => Sys2Proof.Machine.execAnd h d a b s
  | .or h d a b => Sys2Proof.Machine.execOr h d a b s
  | .xor h d a b => Sys2Proof.Machine.execXor h d a b s
  | .sll h d a b => Sys2Proof.Machine.execSll h d a b s
  | .srl h d a b => Sys2Proof.Machine.execSrl h d a b s
  | .sra h d a b => Sys2Proof.Machine.execSra h d a b s
  | .addi h d a imm => Sys2Proof.Machine.execAddi h d a imm s
  | .andi h d a imm => Sys2Proof.Machine.execAndi h d a imm s
  | .ori h d a imm => Sys2Proof.Machine.execOri h d a imm s
  | .xori h d a imm => Sys2Proof.Machine.execXori h d a imm s
  | .slli h d a sh => Sys2Proof.Machine.execSlli h d a sh s
  | .srli h d a sh => Sys2Proof.Machine.execSrli h d a sh s
  | .srai h d a sh => Sys2Proof.Machine.execSrai h d a sh s
  | .li h d imm => Sys2Proof.Machine.execLi h d imm s
  | .lih h d a imm => Sys2Proof.Machine.execLih h d a imm s
  | .slt h d a b => Sys2Proof.Machine.execSlt h d a b s
  | .sltu h d a b => Sys2Proof.Machine.execSltu h d a b s
  | .slti h d a imm => Sys2Proof.Machine.execSlti h d a imm s
  | .min h d a b => Sys2Proof.Machine.execMin h d a b s
  | .max h d a b => Sys2Proof.Machine.execMax h d a b s
  | .minu h d a b => Sys2Proof.Machine.execMinu h d a b s
  | .maxu h d a b => Sys2Proof.Machine.execMaxu h d a b s
  | .mul h d a b => Sys2Proof.Machine.execMul h d a b s
  | .mulh h d a b => Sys2Proof.Machine.execMulh h d a b s
  | .mulhu h d a b => Sys2Proof.Machine.execMulhu h d a b s
  | .div h d a b => Sys2Proof.Machine.execDiv h d a b s
  | .divu h d a b => Sys2Proof.Machine.execDivu h d a b s
  | .rem h d a b => Sys2Proof.Machine.execRem h d a b s
  | .remu h d a b => Sys2Proof.Machine.execRemu h d a b s
  | .popc h d a => Sys2Proof.Machine.execPopc h d a s
  | .lds h d a fmt ord imm => Sys2Proof.Machine.execLds h d a fmt ord imm s
  | .sts h a b fmt ord imm => Sys2Proof.Machine.execSts h a b fmt ord imm s
  | .ldp h d a fmt ord imm => Sys2Proof.Machine.execLdp h d a fmt ord imm s
  | .stp h a b fmt ord imm => Sys2Proof.Machine.execStp h a b fmt ord imm s
  | .ldg h d a fmt ord imm => Sys2Proof.Machine.execLdg h d a fmt ord imm s
  | .stg h a b fmt ord imm => Sys2Proof.Machine.execStg h a b fmt ord imm s
  | .ldx h d a fmt ord imm => Sys2Proof.Machine.execLdx h d a fmt ord imm s
  | .stx h a b fmt ord imm => Sys2Proof.Machine.execStx h a b fmt ord imm s
  | .qset h d a n => Sys2Proof.Machine.execQset h d a n s
  | .qld h d a imm => Sys2Proof.Machine.execQld h d a imm s
  | .qst h a b imm => Sys2Proof.Machine.execQst h a b imm s
  | .qmov h d a => Sys2Proof.Machine.execQmov h d a s
  | .qadv h d a b imm => Sys2Proof.Machine.execQadv h d a b imm s
  | .qget h d a n => Sys2Proof.Machine.execQget h d a n s
  | .qchk h d a u => Sys2Proof.Machine.execQchk h d a u s
  | .qwp h d ch en => Sys2Proof.Machine.execQwp h d ch en s
  | .cpLl h d a b o => Sys2Proof.Machine.execCpLl h d a b o s
  | .cpLp h d a b o => Sys2Proof.Machine.execCpLp h d a b o s
  | .cpPl h d a b o => Sys2Proof.Machine.execCpPl h d a b o s
  | .cpLf h d a b o => Sys2Proof.Machine.execCpLf h d a b o s
  | .cpLw h d a b o => Sys2Proof.Machine.execCpLw h d a b o s
  | .cpLg h d a b o => Sys2Proof.Machine.execCpLg h d a b o s
  | .cpGl h d a b o => Sys2Proof.Machine.execCpGl h d a b o s
  | .cpGg h d a b o => Sys2Proof.Machine.execCpGg h d a b o s
  | .cpLx h d a b o => Sys2Proof.Machine.execCpLx h d a b o s
  | .cpXl h d a b o => Sys2Proof.Machine.execCpXl h d a b o s
  | .cpGx h d a b o => Sys2Proof.Machine.execCpGx h d a b o s
  | .cpXg h d a b o => Sys2Proof.Machine.execCpXg h d a b o s
  | .cpAl h d a b o => Sys2Proof.Machine.execCpAl h d a b o s
  | .cpAg h d a b o => Sys2Proof.Machine.execCpAg h d a b o s
  | .cpAw h d a b o => Sys2Proof.Machine.execCpAw h d a b o s
  | .cpGw h d a b o => Sys2Proof.Machine.execCpGw h d a b o s
  | .binit h sp a b => Sys2Proof.Machine.execBinit h sp a b s
  | .barr h sp a ord => Sys2Proof.Machine.execBarr h sp a ord s
  | .bwait h sp d a b ord => Sys2Proof.Machine.execBwait h sp d a b ord s
  | .bwaitt h sp d a b ord lim => Sys2Proof.Machine.execBwaitt h sp d a b ord lim s
  | .wset h sp a b ord => Sys2Proof.Machine.execWset h sp a b ord s
  | .wwait h sp d a b cond ord => Sys2Proof.Machine.execWwait h sp d a b cond ord s
  | .wqwait h sp d a ord => Sys2Proof.Machine.execWqwait h sp d a ord s
  | .wwake h sp d a b ord => Sys2Proof.Machine.execWwake h sp d a b ord s
  | .aml h d a b o => Sys2Proof.Machine.execAml h d a b o s
  | .amp h d a b o => Sys2Proof.Machine.execAmp h d a b o s
  | .amg h d a b o => Sys2Proof.Machine.execAmg h d a b o s
  | .amx h d a b o => Sys2Proof.Machine.execAmx h d a b o s
  | .fluePut h dir a => Sys2Proof.Machine.execFluePut h dir a s
  | .flueGet h d dir => Sys2Proof.Machine.execFlueGet h d dir s
  | .flueFree h d dir => Sys2Proof.Machine.execFlueFree h d dir s
  | .lred h d a b fmt rm sat o => Sys2Proof.Machine.execLred h d a b fmt rm sat o s
  | .lbcast h d a b o => Sys2Proof.Machine.execLbcast h d a b o s
  | .lgath h d a b o => Sys2Proof.Machine.execLgath h d a b o s
  | .acc h d a b c repl => Sys2Proof.Machine.execAcc h d a b c repl s
  | .bpoll h sp d a ord => Sys2Proof.Machine.execBpoll h sp d a ord s
  | .wpoll h sp d a ord => Sys2Proof.Machine.execWpoll h sp d a ord s
  | .accq h d sel => Sys2Proof.Machine.execAccq h d sel s
  | .vadd h d a b k fmt rm sat => Sys2Proof.Machine.execVadd h d a b k fmt rm sat s
  | .vsub h d a b k fmt rm sat => Sys2Proof.Machine.execVsub h d a b k fmt rm sat s
  | .vmul h d a b k fmt rm sat => Sys2Proof.Machine.execVmul h d a b k fmt rm sat s
  | .vfma h d a b c k fmt rm sat => Sys2Proof.Machine.execVfma h d a b c k fmt rm sat s
  | .vfms h d a b c k fmt rm sat => Sys2Proof.Machine.execVfms h d a b c k fmt rm sat s
  | .vfnma h d a b c k fmt rm sat => Sys2Proof.Machine.execVfnma h d a b c k fmt rm sat s
  | .vmin h d a b k fmt => Sys2Proof.Machine.execVmin h d a b k fmt s
  | .vmax h d a b k fmt => Sys2Proof.Machine.execVmax h d a b k fmt s
  | .vabs h d a k fmt sat => Sys2Proof.Machine.execVabs h d a k fmt sat s
  | .vneg h d a k fmt sat => Sys2Proof.Machine.execVneg h d a k fmt sat s
  | .vdiv h d a b k fmt rm => Sys2Proof.Machine.execVdiv h d a b k fmt rm s
  | .vsqrt h d a k fmt rm => Sys2Proof.Machine.execVsqrt h d a k fmt rm s
  | .vrcp h d a k fmt rm => Sys2Proof.Machine.execVrcp h d a k fmt rm s
  | .vrsq h d a k fmt rm => Sys2Proof.Machine.execVrsq h d a k fmt rm s
  | .vround h d a k fmt rm => Sys2Proof.Machine.execVround h d a k fmt rm s
  | .vclass h d a k fmt => Sys2Proof.Machine.execVclass h d a k fmt s
  | .vexp h d a k fmt rm => Sys2Proof.Machine.execVexp h d a k fmt rm s
  | .vexp2 h d a k fmt rm => Sys2Proof.Machine.execVexp2 h d a k fmt rm s
  | .vlog h d a k fmt rm => Sys2Proof.Machine.execVlog h d a k fmt rm s
  | .vlog2 h d a k fmt rm => Sys2Proof.Machine.execVlog2 h d a k fmt rm s
  | .vsin h d a k fmt rm => Sys2Proof.Machine.execVsin h d a k fmt rm s
  | .vcos h d a k fmt rm => Sys2Proof.Machine.execVcos h d a k fmt rm s
  | .vtanh h d a k fmt rm => Sys2Proof.Machine.execVtanh h d a k fmt rm s
  | .vclamp h d a b c k fmt => Sys2Proof.Machine.execVclamp h d a b c k fmt s
  | .vcmp h d a b k cond fmt => Sys2Proof.Machine.execVcmp h d a b k cond fmt s
  | .vsel h d a b k fmt => Sys2Proof.Machine.execVsel h d a b k fmt s
  | .kop h d a b c tt => Sys2Proof.Machine.execKop h d a b c tt s
  | .kmov h d a b n => Sys2Proof.Machine.execKmov h d a b n s
  | .vlop3 h d a b c k fmt tt => Sys2Proof.Machine.execVlop3 h d a b c k fmt tt s
  | .vsll h d a b k fmt => Sys2Proof.Machine.execVsll h d a b k fmt s
  | .vsrl h d a b k fmt => Sys2Proof.Machine.execVsrl h d a b k fmt s
  | .vsra h d a b k fmt => Sys2Proof.Machine.execVsra h d a b k fmt s
  | .vfsl h d a b c => Sys2Proof.Machine.execVfsl h d a b c s
  | .vfsr h d a b c => Sys2Proof.Machine.execVfsr h d a b c s
  | .vrot h d a c => Sys2Proof.Machine.execVrot h d a c s
  | .vcvt h d a k sfmt dfmt rm sat part => Sys2Proof.Machine.execVcvt h d a k sfmt dfmt rm sat part s
  | .vqnt h d a b k sfmt dfmt rm sat sb sf part => Sys2Proof.Machine.execVqnt h d a b k sfmt dfmt rm sat sb sf part s
  | .vdqnt h d a b k sfmt dfmt rm sat sb sf part => Sys2Proof.Machine.execVdqnt h d a b k sfmt dfmt rm sat sb sf part s
  | .vmov h d a k fmt => Sys2Proof.Machine.execVmov h d a k fmt s
  | .vsplat h d a k fmt => Sys2Proof.Machine.execVsplat h d a k fmt s
  | .vext h d a b fmt => Sys2Proof.Machine.execVext h d a b fmt s
  | .vredadd h d a b k fmt dfmt rm sat => Sys2Proof.Machine.execVredadd h d a b k fmt dfmt rm sat s
  | .vredmax h d a b k fmt dfmt => Sys2Proof.Machine.execVredmax h d a b k fmt dfmt s
  | .vredmin h d a b k fmt dfmt => Sys2Proof.Machine.execVredmin h d a b k fmt dfmt s
  | .vperm h d a b k fmt => Sys2Proof.Machine.execVperm h d a b k fmt s
  | .vslide h d a b c k fmt up => Sys2Proof.Machine.execVslide h d a b c k fmt up s
  | .vbcast h d a b k fmt => Sys2Proof.Machine.execVbcast h d a b k fmt s
  | .vpopc h d a first => Sys2Proof.Machine.execVpopc h d a first s
  | .vld h d a c k => Sys2Proof.Machine.execVld h d a c k s
  | .vst h a b c k => Sys2Proof.Machine.execVst h a b c k s
  | .vacr h d a k fmt => Sys2Proof.Machine.execVacr h d a k fmt s
  | .vacw h a b k fmt => Sys2Proof.Machine.execVacw h a b k fmt s
  | .hcut h cut bps => Sys2Proof.Machine.execHcut h cut bps s
  | .hchain h lt lw head => Sys2Proof.Machine.execHchain h lt lw head s
  | .mloadb h hq a fmt wz csm imm => Sys2Proof.Machine.execMloadb h hq a fmt wz csm imm s
  | .mma h hq a b fmt rm rs cs row col mm => Sys2Proof.Machine.execMma h hq a b fmt rm rs cs row col mm s
  | .mdrain h hq a b fmt rm sat rs cs row col mm => Sys2Proof.Machine.execMdrain h hq a b fmt rm sat rs cs row col mm s
  | .mzero h hq b row nn => Sys2Proof.Machine.execMzero h hq b row nn s
  | .wswap h => Sys2Proof.Machine.execWswap h s
  | .nlaunch h hq a b imm => Sys2Proof.Machine.execNlaunch h hq a b imm s
  | .nwait h d a b acq => Sys2Proof.Machine.execNwait h d a b acq s
  | .npost h a b rel => Sys2Proof.Machine.execNpost h a b rel s
  | .nabort h d a all => Sys2Proof.Machine.execNabort h d a all s
  | .nstat h d a sel => Sys2Proof.Machine.execNstat h d a sel s
  | .dsync h d lvl => Sys2Proof.Machine.execDsync h d lvl s
  | .srd h d reg => Sys2Proof.Machine.execSrd h d reg s
  | .swr h a reg => Sys2Proof.Machine.execSwr h a reg s
  | .sset h d a reg => Sys2Proof.Machine.execSset h d a reg s
  | .sclr h d a reg => Sys2Proof.Machine.execSclr h d a reg s
  | .tlbinv h a b kind size => Sys2Proof.Machine.execTlbinv h a b kind size s
  | .ctxsave h d a b => Sys2Proof.Machine.execCtxsave h d a b s
  | .ctxload h d a b => Sys2Proof.Machine.execCtxload h d a b s
  | .idle h => Sys2Proof.Machine.execIdle h s
  | .evpost h a code => Sys2Proof.Machine.execEvpost h a code s
  | .waitRelease c st ord v => Sys2Proof.Machine.execWaitRelease c st ord v s
  | .mloadbStart c hq id => Sys2Proof.Machine.execMloadbStart c hq id s
  | .mmaStart c hq id => Sys2Proof.Machine.execMmaStart c hq id s
  | .accumulatorRowWrite c hq id row => Sys2Proof.Machine.execAccumulatorRowWrite c hq id row s
  | .mdrainStart c hq id => Sys2Proof.Machine.execMdrainStart c hq id s
  | .drainRowWrite c hq id row => Sys2Proof.Machine.execDrainRowWrite c hq id row s
  | .mzeroStart c hq id => Sys2Proof.Machine.execMzeroStart c hq id s
  | .nlaunchDelivery c hq id => Sys2Proof.Machine.execNlaunchDelivery c hq id s
  | .dsyncComplete c lvl => Sys2Proof.Machine.execDsyncComplete c lvl s
  | .srseedWrite c v => Sys2Proof.Machine.execSrseedWrite c v s
  | .fcsrWrite c st v => Sys2Proof.Machine.execFcsrWrite c st v s
  | .earlyrdWrite c v => Sys2Proof.Machine.execEarlyrdWrite c v s
  | .stallTrap c st => Sys2Proof.Machine.execStallTrap c st s
  | .resultWrite c st r => Sys2Proof.Machine.execResultWrite c st r s
  | .storePerform a => Sys2Proof.Machine.execStorePerform a s
  | .interrupt c st source payload => Sys2Proof.Machine.execInterrupt c st source payload s
  | .latchReinject c st r => Sys2Proof.Machine.execLatchReinject c st r s
  | .shadowPageFill bid va => Sys2Proof.Machine.execShadowPageFill bid va s
  | .copyGroupTransfer id j side => Sys2Proof.Machine.execCopyGroupTransfer id j side s
  | .copyChunkRead id j => Sys2Proof.Machine.execCopyChunkRead id j s
  | .copyChunkPerform id j => Sys2Proof.Machine.execCopyChunkPerform id j s
  | .flueBeatPerform id j => Sys2Proof.Machine.execFlueBeatPerform id j s
  | .flueDegrade chim => Sys2Proof.Machine.execFlueDegrade chim s
  | .groupStart sk => Sys2Proof.Machine.execGroupStart sk s
  | .gemv sk cmd => Sys2Proof.Machine.execGemv sk cmd s
  | .reduce sk cmd => Sys2Proof.Machine.execReduce sk cmd s
  | .map sk cmd => Sys2Proof.Machine.execMap sk cmd s
  | .ncopy sk cmd => Sys2Proof.Machine.execNcopy sk cmd s
  | .semwait sk cmd => Sys2Proof.Machine.execSemwait sk cmd s
  | .sempost sk cmd => Sys2Proof.Machine.execSempost sk cmd s
  | .commit sk => Sys2Proof.Machine.execCommit sk s
  | .abort sk => Sys2Proof.Machine.execAbort sk s
  | .nmFence sk => Sys2Proof.Machine.execNmFence sk s
  | .charbWrite sk v => Sys2Proof.Machine.execCharbWrite sk v s
  | .readingRoomFill obj ver folio => Sys2Proof.Machine.execReadingRoomFill obj ver folio s
  | .fillComplete obj ver folio bad => Sys2Proof.Machine.execFillComplete obj ver folio bad s
  | .rrsizeWrite v => Sys2Proof.Machine.execRrsizeWrite v s
  | .rdmaWriteWithImmediate qp rkey va bytes imm => Sys2Proof.Machine.execRdmaWriteWithImmediate qp rkey va bytes imm s
  | .rdmaWrite qp rkey va bytes => Sys2Proof.Machine.execRdmaWrite qp rkey va bytes s
  | .rdmaRead qp rkey va n => Sys2Proof.Machine.execRdmaRead qp rkey va n s
  | .invalidRequest qp => Sys2Proof.Machine.execInvalidRequest qp s
  | .portDown port => Sys2Proof.Machine.execPortDown port s
  | .coreGateRequest c => Sys2Proof.Machine.execCoreGateRequest c s
  | .migration asid va dst => Sys2Proof.Machine.execMigration asid va dst s
  | .bindingResume bid => Sys2Proof.Machine.execBindingResume bid s
  | .preemptRequest bid => Sys2Proof.Machine.execPreemptRequest bid s
  | .domainFormation self members => Sys2Proof.Machine.execDomainFormation self members s
  | .deviceRemoval dev => Sys2Proof.Machine.execDeviceRemoval dev s
  | .laneFault port => Sys2Proof.Machine.execLaneFault port s
  | .hop isl fstep => Sys2Proof.Machine.execHop isl fstep s
  | .supplyDroop isl => Sys2Proof.Machine.execSupplyDroop isl s
  | .powerLease w0 w1 w2 w3 => Sys2Proof.Machine.execPowerLease w0 w1 w2 w3 s
  | .capcfgWrite c n v => Sys2Proof.Machine.execCapcfgWrite c n v s
  | .librarianRegisterWrite r v => Sys2Proof.Machine.execLibrarianRegisterWrite r v s
  | .attestationRequest nonce => Sys2Proof.Machine.execAttestationRequest nonce s
  | .remoteAccess dev addr op rel => Sys2Proof.Machine.execRemoteAccess dev addr op rel s
  | .droopEnd isl => Sys2Proof.Machine.execDroopEnd isl s
  | .reserveHoldEnd isl => Sys2Proof.Machine.execReserveHoldEnd isl s
  | .bindingFault bid => Sys2Proof.Machine.execBindingFault bid s
  | .receiveBufferPosted part => Sys2Proof.Machine.execReceiveBufferPosted part s
  | .bwaittExpiry => Sys2Proof.Machine.execBwaittExpiry s
  | .reshapeComplete => Sys2Proof.Machine.execReshapeComplete s
  | .chainReady => Sys2Proof.Machine.execChainReady s
  | .tlbinvComplete => Sys2Proof.Machine.execTlbinvComplete s
  | .taskRetire => Sys2Proof.Machine.execTaskRetire s
  | .commitGroupSwap => Sys2Proof.Machine.execCommitGroupSwap s
  | .semwaitTimeout => Sys2Proof.Machine.execSemwaitTimeout s
  | .budgetPeriod => Sys2Proof.Machine.execBudgetPeriod s
  | .refresh => Sys2Proof.Machine.execRefresh s
  | .refreshManagement => Sys2Proof.Machine.execRefreshManagement s
  | .tenureEnd => Sys2Proof.Machine.execTenureEnd s
  | .accessionStart => Sys2Proof.Machine.execAccessionStart s
  | .accessionComplete => Sys2Proof.Machine.execAccessionComplete s
  | .wearDay => Sys2Proof.Machine.execWearDay s
  | .rrsizeApply => Sys2Proof.Machine.execRrsizeApply s
  | .eligibilityTest => Sys2Proof.Machine.execEligibilityTest s
  | .placement => Sys2Proof.Machine.execPlacement s
  | .dispatchPrepare => Sys2Proof.Machine.execDispatchPrepare s
  | .bindingRelease => Sys2Proof.Machine.execBindingRelease s
  | .completionReport => Sys2Proof.Machine.execCompletionReport s
  | .coreGate => Sys2Proof.Machine.execCoreGate s
  | .idleCoreTimeout => Sys2Proof.Machine.execIdleCoreTimeout s
  | .createq => Sys2Proof.Machine.execCreateq s
  | .deleteq => Sys2Proof.Machine.execDeleteq s
  | .partition => Sys2Proof.Machine.execPartition s
  | .partitionInstall => Sys2Proof.Machine.execPartitionInstall s
  | .cancel => Sys2Proof.Machine.execCancel s
  | .accession => Sys2Proof.Machine.execAccession s
  | .acccancel => Sys2Proof.Machine.execAcccancel s
  | .regmr => Sys2Proof.Machine.execRegmr s
  | .install => Sys2Proof.Machine.execInstall s
  | .recover => Sys2Proof.Machine.execRecover s
  | .quarantineRelease => Sys2Proof.Machine.execQuarantineRelease s
  | .freezeHorizon => Sys2Proof.Machine.execFreezeHorizon s
  | .preemptDrainLimit => Sys2Proof.Machine.execPreemptDrainLimit s
  | .preemptComplete => Sys2Proof.Machine.execPreemptComplete s
  | .saveEnd => Sys2Proof.Machine.execSaveEnd s
  | .loadEnd => Sys2Proof.Machine.execLoadEnd s
  | .hcCorrection => Sys2Proof.Machine.execHcCorrection s
  | .hopRetry => Sys2Proof.Machine.execHopRetry s
  | .leaseExpiry => Sys2Proof.Machine.execLeaseExpiry s
  | .adviseTrip => Sys2Proof.Machine.execAdviseTrip s
  | .throttleTrip => Sys2Proof.Machine.execThrottleTrip s
  | .throttleStep => Sys2Proof.Machine.execThrottleStep s
  | .shutdownTrip => Sys2Proof.Machine.execShutdownTrip s
  | .patrolScrub => Sys2Proof.Machine.execPatrolScrub s
  | .coldReset => Sys2Proof.Machine.execColdReset s
  | .hopComplete => Sys2Proof.Machine.execHopComplete s
  | .tripEnd => Sys2Proof.Machine.execTripEnd s
  | .temperatureSample => Sys2Proof.Machine.execTemperatureSample s
  | .powerLoss => Sys2Proof.Machine.execPowerLoss s
  | .orderlyShutdown => Sys2Proof.Machine.execOrderlyShutdown s

end Sys2Proof.Machine
end

