-- ==== Sys2Proof/Machine/Tick.lean ====
section
/-! DEFINITION. The order of a tick of the Hearth clock: outside events, the accesses that fall due, the strands' issue
turns, the effects that fall due, the events whose condition holds, and the clocks' advance (R19-R23, R29; log entry 1). -/

namespace Sys2Proof.Machine

/-! ### Pending work -/

/-- A pending item is due: its clock has reached it, and that clock stands in a live cycle (R21, R349). -/
def State.itemReady (s : State) (d : Due) : Bool :=
  match d.clock with
  | .hc => decide (d.due ≤ s.hc)
  | .dt bid => (match s.binding bid with | some b => b.live && decide (d.due ≤ b.dt) | none => false)
  | .cyc c => decide (d.due ≤ (s.core c).cyc) && !(match s.bindingOf c with | some b => b.stopped | none => false)
/-- The first of two items: the lower priority number, then the lower order (R74). -/
def Due.first (a b : Due) : Due := if b.prio < a.prio ∨ (b.prio = a.prio ∧ b.order < a.order) then b else a
/-- The item that runs next; only bank accesses and stream reads while strands have still to issue in this cycle. -/
def State.nextItem (s : State) : Option Due :=
  s.cal.foldl (fun best d =>
    if s.itemReady d && (s.todo.isEmpty || decide (d.prio < effects)) then some (match best with | none => d | some b => b.first d) else best) none
/-- The data of a result whose write is due has arrived. -/
def State.landing (s : State) (c : CoreId) (st : StrandId) (ord : Nat) : Option Flight :=
  ((s.strand c st).flight ord).filter fun f => f.ready && decide (f.w ≤ if f.sys then (s.core c).cyc else s.dt c)
/-- Pending work is done. -/
def State.runWork (ex : Instr → State → Host.Outcome State Fault Refusal) (s : State) : Work → Host.Outcome State Fault Refusal
  | .ev i => ex i s
  | .flight c st o => match s.landing c st o with
    | some f => ex (.resultWrite c st { f.res with ord := o }) s
    | none => .next s
  | .lsRead r => .next (s.readLs r)
  | .push c st p n => .next (s.push c st p n)
  | .objRead c st o q u pa poll d p => .next (s.readObject c st o q u pa poll d p)
  | .objJudge c st o u pa => .next (s.judgeWait c st o u pa)
  | .farRead c st o q dev cells x vas => .next (s.readFar c st o q dev cells x vas)
  | .unitDone c st o v => .next (s.unitEnd c st o v)
  | .holds c st => .next (s.judgeHolds c st)
  | .rowRead c q i g r => .next (s.rowRow c q i g r)
  | .scaleRead c q i r => .next (s.readScale c q i r)
  | .topRead c q i r => .next (s.topOf c q i r)
  | .rowLeave c q i r => .next (s.leaveRow c q i r)
  | .drainRead c q i r => .next (s.drainCells c q i r)
  | .zeroRows c q i g => .next (s.zeroGroup c q i g)
  | .loadRead c q i k => .next (s.loadCycle c q i k)
  | .loadDone c q i => .next (s.loadEnd c q i)
  | .accq c st o sel => .next (s.unitEnd c st o (some (s.accqValue c sel)))
  | .evpost c st o code v =>
    .next (match (s.strand c st).wait with
      | some w => if w.ord = o then (s.event 5 [code, v]).unitEnd c st o none else s
      | none => s)
  | .nstat c st o slot ecc => .next (s.unitEnd c st o (some (s.nstatValue c slot ecc)))
  | .notify kind ws => .next (s.event kind ws)
  | .cellsRead c st o r k w => .next (s.readCells c st o r k w)
  | .cellsWrite c r k w d m => .next (s.writeCells c r k w d m)
  | .wswap c => .next (s.updCore c fun k => { k with active := !k.active })
  | .chainJudge c => .next (s.judgeChain c)
  | .copyAccept c i => .next (s.joinChan c i)
  | .wpMove c ch a => .next (s.updCore c fun k => { k with chans := vmod k.chans ch fun n => { n with addr := max n.addr a } })
  | .copyEnd c i => .next (match s.copyOf c i with | some p => s.endCopy p | none => s)
  | .nabort c st o slot all =>
    .next (match (s.strand c st).wait with
      | some w =>
        if w.ord ≠ o then s
        else match s.slotStoker c slot with
          | some sk => let (s, n) := s.abortGroups sk (s.bidOf c) all; s.unitEnd c st o (some (BitVec.ofNat 64 n))
          | none => s.unitEnd c st o (some 0)
      | none => s)
  | .accStep n => .next (s.accStep n)
  | .remotes => .next s.retryRemotes
  | .advise i => .next { s with lib := { s.lib with advises := s.lib.advises ++ [.inr i] } }
  | .enforceCap lower => .next (s.enforceCap lower)
  | .dtEnd c st o => .next (s.endDtwait c st o)
  | .queued clk c st o q b ns lat prio far w => .next (s.judgeQueued clk c st o q b ns lat prio far w)

/-! ### A strand's turn (R35, R41, R336-R340, R346) -/

/-- The state in which a strand has its issue turn. -/
def State.begin (s : State) (c : CoreId) (st : StrandId) (rest : List (CoreId × StrandId)) : State :=
  { s with todo := rest, cur := some (c, st) }
/-- The handler of a translation fault holds its strand: until step 3 of the migration that the fault met, or until SH of the leaf is clear (R333,
R347). -/
def State.handlerHolds (s : State) (c : CoreId) (st : StrandId) : Bool :=
  let t := s.strand c st
  let acc := match Word.bits t.tinfo1 4 2 with | 0 => Acc.read | 1 => .write | _ => .atomic
  t.level && t.frames.isEmpty && Word.bits t.tcause 0 8 == 6 && (match s.coreHit c false t.tinfo0.toNat acc with
    | .fault k l => if k = 3 then Word.bits t.tinfo1 0 2 == 3
      else (s.xlateInfo 0 (s.core c).asid t.tinfo0.toNat k l acc).migr && Word.bits t.tcause 9 1 == 1
    | _ => false)
/-- A strand may act in this cycle: it runs a task that has not ended, whose domain time advances, or, at system level, whose core's clock ticks
and whose handler does not hold it (R347, R349, R364). -/
def State.canRun (s : State) (c : CoreId) (st : StrandId) : Bool :=
  (s.strand c st).run == .running && !s.handlerHolds c st && (match s.bindingOf c with
    | some b => b.relHc.isSome && !b.stopped && b.status.isNone && (if (s.strand c st).level then (s.core c).ticked else b.live)
    | none => false)
/-- A result with poisoned data whose write falls in this cycle (R346). -/
def State.poisonDue (s : State) (c : CoreId) (st : StrandId) : Option Flight :=
  (s.strand c st).flights.find? fun f => f.ready && f.res.poison.isSome && decide (f.w ≤ if f.sys then (s.core c).cyc else s.dt c)
/-- An interrupt is due to be taken: it arrived in an earlier cycle, at user level, and no hold of R182 or R185 stands (R339). -/
def State.interruptDue (s : State) (c : CoreId) (st : StrandId) : Option (Bool × Word) :=
  let t := s.strand c st
  let held := match t.wait with | some w => (match w.why with | .held _ _ | .unit _ _ => true | _ => false) | none => false
  match t.ipend with
  | some (a, src, p) => if !t.level && !held && decide (a < s.hc) then some (src, p) else none
  | none => none
/-- The interrupt is taken: a strand that waits stands at its instruction again (R337, R339). -/
def State.takeInterrupt (s : State) (c : CoreId) (st : StrandId) (src : Bool) (payload : Word) : State :=
  let pos := match (s.strand c st).wait with | some w => w.pos | none => (s.strand c st).pos
  (s.trap c st { cause := 0, epc := pos, i0 := BitVec.ofNat 64 src.toNat, i1 := payload }).updStrand c st fun t => { t with ipend := none }
/-- The illegal-instruction fault of words that do not decode: the lowest kind, judged when the instruction could issue (R152, R336). -/
def State.illegalWord (s : State) (c : CoreId) (st : StrandId) (w : Word32) (kind : Nat) : State :=
  let opc := w.extractLsb' 15 8
  let dly := match (hdrOf w 0 none).timing with | .after d => d.val | .stamped _ => 0
  let t := s.strand c st
  if s.now c st < t.base + dly then s
  else
    let k := if (shapeOf opc).isNone then 0 else if offStrand (fetchWords (s.fetchMem c st) t.pos) st then 1 else kind
    s.trap c st { cause := 3, epc := t.pos, i0 := BitVec.ofNat 64 k, i1 := w.setWidth 64 }
/-- The code-image fault at a strand's position: kind and line (R34). -/
def State.imageTrap (s : State) (c : CoreId) (st : StrandId) (f : Nat × Nat) : State :=
  s.trap c st { cause := 4, epc := (s.strand c st).pos, i0 := BitVec.ofNat 64 f.1, i1 := BitVec.ofNat 64 f.2 }
/-- The vector registers that an instruction reads. -/
def vectorSources : Instr → List VReg
  | .fluePut _ _ a | .vst _ a _ _ _ | .vacw _ _ a _ _ | .vext _ _ a _ _ | .vbcast _ _ a _ _ _ | .vrot _ _ a _ | .vmov _ _ a _ _ => [a]
  | .vabs _ _ a _ _ _ | .vneg _ _ a _ _ _ | .vsqrt _ _ a _ _ _ | .vrcp _ _ a _ _ _ | .vrsq _ _ a _ _ _ | .vround _ _ a _ _ _ => [a]
  | .vexp _ _ a _ _ _ | .vexp2 _ _ a _ _ _ | .vlog _ _ a _ _ _ | .vlog2 _ _ a _ _ _ | .vsin _ _ a _ _ _ | .vcos _ _ a _ _ _ => [a]
  | .vtanh _ _ a _ _ _ | .vclass _ _ a _ _ | .vcvt _ _ a _ _ _ _ _ _ => [a]
  | .vadd _ _ a b _ _ _ _ | .vsub _ _ a b _ _ _ _ | .vmul _ _ a b _ _ _ _ | .vmin _ _ a b _ _ | .vmax _ _ a b _ _ => [a, b]
  | .vdiv _ _ a b _ _ _ | .vcmp _ _ a b _ _ _ | .vsel _ _ a b _ _ | .vsll _ _ a b _ _ | .vsrl _ _ a b _ _ | .vsra _ _ a b _ _ => [a, b]
  | .vfsl _ _ a b _ | .vfsr _ _ a b _ | .vperm _ _ a b _ _ | .vslide _ _ a b _ _ _ _ => [a, b]
  | .vqnt _ _ a b _ _ _ _ _ _ _ _ | .vdqnt _ _ a b _ _ _ _ _ _ _ _ => [a, b]
  | .vredadd _ _ a b _ _ _ _ _ | .vredmax _ _ a b _ _ _ | .vredmin _ _ a b _ _ _ => [a, b]
  | .vfma _ _ a b c _ _ _ _ | .vfms _ _ a b c _ _ _ _ | .vfnma _ _ a b c _ _ _ _ | .vclamp _ _ a b c _ _ | .vlop3 _ _ a b c _ _ _ => [a, b, c]
  | _ => []
/-- The latency after which an instruction that writes no register acts on what it read from vector registers (R206, R235, R236). -/
def storeLatency : Instr → Option Nat
  | .vst _ _ _ _ _ => some 6
  | .vacw _ _ _ _ _ => some 4
  | .fluePut _ _ _ => some 1
  | _ => none
/-- The words of vector registers as `Core.badV` numbers them. -/
def vectorWords (rs : List VReg) : List Nat := rs.flatMap fun r => (List.range 32).map (32 * r.toNat + ·)
/-- An instruction has issued that read vector registers: corrected errors are counted; after an uncorrectable one nothing of it is written, and MEMERR
comes in the cycle in which its data would have been written. Registers have no physical address, so what is recorded is free (R233, R346, R385,
log entry 42). -/
def State.judgeSources (s t : State) (c : CoreId) (st : StrandId) (i : Instr) (h : Hdr) : State :=
  let k := s.core c
  let ws := vectorWords (vectorSources i)
  if (k.badV.isEmpty && k.corr.isEmpty) || (t.strand c st).ord == (s.strand c st).ord then t
  else if !(ws.any k.badV.contains) then t.countPlaces c 3 ws
  else
    let ord := (s.strand c st).ord
    let addr : Option (Fin 9 × Nat) := some (3, (Config.datum s.choice).toNat)
    match storeLatency i with
    | some lat =>
      let u := s.turn c st h {}
      let r : Result := { target := .none, data := 0, mask := 0, flags := 0, pushP := false, pushN := false, poison := addr, pos := u.pos, ord := ord }
      ({ s with choice := s.choice + 1 }.issued c st h {}).result u.silent lat r
    | none => ({ t with choice := t.choice + 1 } : State).updStrand c st fun q =>
        { q with flights := q.flights.map fun f => if f.ord = ord then { f with res := { f.res with poison := addr } } else f }
/-- The line of the code store that a strand at user level fetches from holds an uncorrectable error: MEMERR at the fetch (R385; log entry 42). -/
def State.codeError (s : State) (c : CoreId) (st : StrandId) : Option State :=
  let t := s.strand c st
  if t.level || !(s.core c).badCode.contains (t.pos / 16) then none
  else
    let a := (Config.datum s.choice).toNat
    some ((({ s with choice := s.choice + 1 } : State).errorRecord 4 a (s.bidOf c) c.val).trap c st
      { cause := 11, epc := t.pos, i0 := BitVec.ofNat 64 a, i1 := BitVec.ofNat 64 t.pos })
/-- A strand that may issue: a code-image fault, an error of the code store, an illegal word, or its instruction's attempt (R31-R36, R152, R385). -/
def State.fetchTurn (ex : Instr → State → Host.Outcome State Fault Refusal) (s : State) (c : CoreId) (st : StrandId) : Host.Outcome State Fault Refusal :=
  let t := s.strand c st
  let store := (s.core c).store t.level
  match fetchFault store.1 store.2 st t.pos t.reach with
  | some f => .next (s.imageTrap c st f)
  | none => match s.codeError c st with
    | some u => .next u
    | none =>
      let s := if t.level then s else s.countPlaces c 4 [t.pos / 16]
      match decode (fetchWords store.1 t.pos) with
      | .ok (i, _) => match ex i s with
        | .next u => .next (s.judgeSources u c st i (s.headerAt c st))
        | r => r
      | .error k => .next (s.illegalWord c st (s.baseWord c st) k)
/-- A strand whose instruction put off the next issue, by a wait or a dtwait, meets a code-image fault in the cycle after that instruction's
issue all the same (R34, R166, R167). -/
def State.earlyImage (s : State) (c : CoreId) (st : StrandId) : State :=
  let t := s.strand c st
  let store := (s.core c).store t.level
  match t.prev with
  | some p => if s.now c st < p + 1 then s else match fetchFault store.1 store.2 st t.pos t.reach with
    | some f => s.imageTrap c st f
    | none => s
  | none => s
/-- A strand that waits after an issue: an interrupt that arrived in an earlier cycle enters its handler from an idle, and its bound ends any
other wait that has one (R41, R187). -/
def State.waitTurn (ex : Instr → State → Host.Outcome State Fault Refusal) (s : State) (c : CoreId) (st : StrandId) (w : Wait) : Host.Outcome State Fault Refusal :=
  match w.why with
  | .idle => .next (match (s.strand c st).ipend with
    | some (a, src, p) => if a < s.hc then s.enterNested c st src p else s
    | none => s)
  | .dtime => .next (s.earlyImage c st)
  | .chain => .next s
  | _ => if w.start + w.bound + 1 ≤ s.now c st then ex (.stallTrap c st) s else .next s
/-- The turn of a strand that no trap and no interrupt takes: its wait goes on, its base time has not come, or it may issue. -/
def State.plainTurn (ex : Instr → State → Host.Outcome State Fault Refusal) (s : State) (c : CoreId) (st : StrandId) : Host.Outcome State Fault Refusal :=
  match (s.strand c st).wait with
  | some w => s.waitTurn ex c st w
  | none =>
    if s.now c st < (s.strand c st).base then .next (s.earlyImage c st) else s.fetchTurn ex c st
/-- The strand has taken a trap other than the stall trap: the exact fault that goes before an interrupt of the same cycle; a stall only
ends a wait, which the interrupt abandons (R339, R351, log entry 15). -/
def State.tookFault (s : State) (c : CoreId) (st : StrandId) : Bool :=
  (s.strand c st).level && Word.bits (s.strand c st).tcause 0 8 != 13
/-- The turn of a strand in a cycle. Where an exact fault and an interrupt meet, the fault is taken and the interrupt stays pending (R351). DESIGN
CHOICE (log entry 53): a software trap that is due in the cycle of a poisoned write gives way to its MEMERR and is dropped. -/
def State.strandTurn (ex : Instr → State → Host.Outcome State Fault Refusal) (s : State) (c : CoreId) (st : StrandId) : Host.Outcome State Fault Refusal :=
  if !s.canRun c st then .next s
  else
    let t := s.strand c st
    match s.poisonDue c st with
    | some f => .next ((s.land c st { f.res with ord := f.ord }).perform c st f.res)
    | none => match t.trapDue with
      | some (cause, i0, pos) => .next (s.trap c st { cause := cause, epc := pos.getD t.pos, i0 := i0 })
      | none => match s.interruptDue c st with
        | some (src, p) =>
          match s.plainTurn ex c st with
          | .next u => .next (if u.tookFault c st then u else s.takeInterrupt c st src p)
          | _ => .next (s.takeInterrupt c st src p)
        | none => s.plainTurn ex c st

/-! ### Events whose condition holds -/

/-- A binding's member satisfies a condition. -/
def State.anyMember (s : State) (f : CoreId → Bool) : Bool := s.bindings.any fun b => b.members.any f
/-- The event that opens a cycle, if one is due: a freeze, a release, a reshape or chain change that completes (R139, R140, R320, R349). -/
def State.opening (s : State) : Option Instr :=
  let past (f : Core → Option Nat) (c : CoreId) : Bool := match f (s.core c) with | some d => decide (d ≤ s.dt c) | none => false
  if s.bindings.any (·.atHorizon) then some .freezeHorizon
  else if s.bindings.any s.releases then some .bindingRelease
  else if let some chim := s.degrading.find? s.flueBoundary then some (.flueDegrade chim)
  else if s.anyMember (past (·.reshape)) then some .reshapeComplete
  else if s.anyMember (past (·.chaining)) then some .chainReady
  else none
/-- A strand whose tfence has nothing left to wait for. -/
def State.fenceEnds (s : State) : Option (CoreId × StrandId) :=
  s.places.find? fun p => (s.canRun p.1 p.2) && (s.strand p.1 p.2).trapDue.isNone && s.tfenceMet p.1 p.2 &&
    (match (s.strand p.1 p.2).wait with | some w => w.why == .tfence | none => false)
/-- The event that closes a cycle, if one is due, in the model's order. -/
def State.closing (s : State) : Option Instr :=
  let cores (f : CoreId → Bool) : Bool := (List.finRange 256).any f
  let islands (f : Fin 64 → Bool) : Bool := (List.finRange 64).any f
  let sensors (f : Sensor → Bool) : Bool := s.sensors.toList.any f
  if s.places.any (fun p => s.expired p.1 p.2) then some .bwaittExpiry
  else if s.xlate.invals.any s.invalDone then some .tlbinvComplete
  else if s.anyMember s.retires then some .taskRetire
  else if s.bindings.any s.swapDue then some .commitGroupSwap
  else if s.bindings.any s.reportable then some .completionReport
  else if cores s.gates then some .coreGate
  else if (List.finRange 384).any s.semExpired then some .semwaitTimeout
  else if s.stokers.toList.any (fun t => !t.rfm.isEmpty) then some .refreshManagement
  else if s.stokers.toList.any (fun t => t.tenureOver s.hc) then some .tenureEnd
  else if s.bindings.any (fun b => b.members.any fun c => (s.core c).copies.any (s.squashable b)) then some .preemptDrainLimit
  else if s.bindings.any s.preempted then some .preemptComplete
  else if cores (s.engineDue false) then some .saveEnd
  else if cores (s.engineDue true) then some .loadEnd
  else if s.archive.nextWearDay ≤ s.hc then some .wearDay
  else if s.rrReady then some .rrsizeApply
  else if s.leaseOver then some .leaseExpiry
  else if sensors (fun k => !k.shut && k.atLeast k.shutdown) then some .shutdownTrip
  else if sensors (fun k => !k.throttling && k.atLeast k.throttle) then some .throttleTrip
  else if sensors (fun k => !k.advised && k.atLeast k.advise) then some .adviseTrip
  else if (List.finRange 320).any s.tripEnds then some .tripEnd
  else if islands s.throttleDue then some .throttleStep
  else if islands s.hopEnds then some .hopComplete
  else if islands s.hopRetries then some .hopRetry
  else if s.cleanPage.isSome then some .quarantineRelease
  else if cores s.idleLong then some .idleCoreTimeout
  else if s.canInstall then some .partitionInstall
  else if s.lib.lastTest + 2250 ≤ s.hc then some .eligibilityTest
  else if s.lib.lastPeriod + 2250 ≤ s.hc then some .budgetPeriod
  else if s.lib.lastSample + 2250 ≤ s.hc then some .temperatureSample
  else if s.lib.lastScrub + wearDayTicks ≤ s.hc then some .patrolScrub
  else none

/-! ### The clocks advance (R19-R23, R349, R376-R381) -/

/-- Instructions whose issue a reserve hold stretches: the f32 and f64 forms of R217 and R220 (R381). -/
def wideVector : Instr → Bool
  | .vadd _ _ _ _ _ f _ _ | .vsub _ _ _ _ _ f _ _ | .vmul _ _ _ _ _ f _ _ => f == .f32 || f == .f64
  | .vfma _ _ _ _ _ _ f _ _ | .vfms _ _ _ _ _ _ f _ _ | .vfnma _ _ _ _ _ _ f _ _ => f == .f32 || f == .f64
  | .vmin _ _ _ _ _ f | .vmax _ _ _ _ _ f => f == .f32 || f == .f64
  | .vclamp _ _ _ _ _ _ f => f == .f32 || f == .f64
  | .vdiv _ _ _ _ _ f _ | .vsqrt _ _ _ _ f _ | .vrcp _ _ _ _ f _ | .vrsq _ _ _ _ f _ => f == .f32 || f == .f64
  | .vexp _ _ _ _ f _ | .vexp2 _ _ _ _ f _ | .vlog _ _ _ _ f _ | .vlog2 _ _ _ _ f _ => f == .f32 || f == .f64
  | .vsin _ _ _ _ f _ | .vcos _ _ _ _ f _ | .vtanh _ _ _ _ f _ => f == .f32 || f == .f64
  | _ => false
/-- The cycle count by which a strand is timed, from DT and its core's cycles (R349). -/
def Strand.clockOf (t : Strand) (dt cyc : Nat) : Nat := if t.level then cyc else dt
/-- C stands at a wide vector instruction that can issue in a cycle: by its delay or stamp, within its bound, with its tokens and push space (R35, R36,
R380, R381). `dt` and `cyc` are the cycle's; `run` says that domain time goes on. -/
def Core.wideDue (k : Core) (run : Bool) (dt cyc : Nat) : Bool :=
  let t := k.strand .c
  let now := t.clockOf dt cyc
  let ws := fetchWords (k.store t.level).1 t.pos
  t.run == .running && t.wait.isNone && t.trapDue.isNone && (t.level || t.ipend.isNone) && (t.level || run) && decide (t.base ≤ now) &&
    (match decode ws, rawOf ws with
      | .ok (i, _), .ok (r, _) => wideVector i && (({ writes := true } : Req).unmet k t .c r.h).isNone && (match r.h.timing with
        | .stamped w => decide ((now : Int) = t.base + stampDelta w t.base)
        | .after d => decide (t.base + d.val ≤ now) && !(t.blocked.isSome && decide (t.base + d.val + boundOf r.h t < now)))
      | _, _ => false)
/-- A command of a hob starts in a cycle, on every member of its chain (R124, R134). -/
def State.hobStarts (s : State) (c : CoreId) (j : Nat) (dt : Nat) : Bool :=
  let k := s.core c
  let own := (k.hobs.toList[j]?).any fun h => h.cmds.any fun m => m.t0 == some dt
  own || (k.lead c != c && j == 0 && ((s.core (k.lead c)).hobs.toList[0]?).any fun h => h.cmds.any fun m => m.t0 == some dt)
/-- Domain time goes on with the next tick where no stretch holds it. -/
def Binding.runs (b : Binding) : Bool := b.relHc.isSome && b.pace == .running
/-- A core is about to draw current for which its island's charge must suffice: a range command that starts, or a wide vector instruction
that C stands at (R381). -/
def State.draws (s : State) (c : CoreId) : Bool :=
  match s.bindingOf c with
  | none => false
  | some b => (b.runs && (List.range 4).any fun j => s.hobStarts c j (b.dt + 1)) || (s.core c).wideDue b.runs (b.dt + 1) ((s.core c).cyc + 1)
/-- Reserve holds that begin: the charge is below HOLD and a core of the island draws; they end at a tick that is not exposed (R381, R388). -/
def State.beginHolds (s : State) : State :=
  let low := (List.finRange 64).filter fun i => !(s.island i).holding && (s.island i).level.ult (s.island i).hold
  low.foldl (fun (s : State) i =>
    let cs := (List.finRange 256).filter fun c => islandOf c == i
    if cs.any s.draws then
      let s := cs.foldl (fun (s : State) c => s.capture c 5 none (s.island i).level.toNat) s
      (s.updIsland i fun k => { k with holding := true }).sometime (.ev (.reserveHoldEnd i)) latePrio
    else s) s
/-- The cores of an island (R12). -/
def islandCores (i : Fin 64) : List CoreId :=
  let c := 64 * (i.val / 16) + 16 * (i.val / 4 % 4) + 2 * (i.val % 4)
  [coreId c, coreId (c + 1), coreId (c + 8), coreId (c + 9)]
/-- The gap of a paced queue, numbered as in `Core.left`; a throttled island's range queues keep at least 64 ticks (R380, R384). -/
def Core.gap (k : Core) (throttled : Bool) (j : Fin 8) : Nat :=
  if j.val < 4 then max (Word.bits k.damph (16 * j.val) 16) (if throttled then 64 else 0) else Word.bits k.dampx (16 * (j.val - 4)) 16
/-- A command leaves a paced queue in a cycle: a range command at its t0, a copy when its first group could be read, a flue transfer when its
first beat enters, a wide vector instruction when C may issue it (R124, R195, R380, log entry 54). Only the last leaves where domain time stands. -/
def State.queueLeaves (s : State) (c : CoreId) (run : Bool) (dt cyc : Nat) (j : Fin 8) : Bool :=
  let k := s.core c
  let copy (st : StrandId) : Bool := run && k.copies.any fun p => p.strand == st && decide (p.dt + 2 = dt)
  match j with
  | 4 => copy .l
  | 5 => copy .s
  | 6 => run && k.copies.any fun p => p.kind == .lf && p.rd == 0 && p.entry == dt
  | 7 => k.wideDue run dt cyc
  | j => run && s.hobStarts c j.val dt
/-- A command of an island's cores would leave its queue in the next tick before its damper gap has passed (R380). -/
def State.damps (s : State) (i : Fin 64) : Bool :=
  (islandCores i).any fun c =>
    let k := s.core c
    (k.damph != 0 || k.dampx != 0 || (s.island i).throttled) && (match s.bindingOf c with
      | none => false
      | some b => b.relHc.isSome && (List.finRange 8).any fun j => s.queueLeaves c b.runs (b.dt + 1) (k.cyc + 1) j &&
          (match k.left[j] with | some h => decide (s.hc + 1 < h + k.gap (s.island i).throttled j) | none => false))
/-- A wide vector instruction that C stood at in the cycle that ends has left (R380). -/
def Core.noteWide (k : Core) (hc : Nat) (dt : Nat) : Core :=
  if k.poised ∧ (k.strand .c).prev = some ((k.strand .c).clockOf dt k.cyc) then { k with left := k.left.set 7 (some hc), poised := false } else k
/-- What leaves its queue in the cycle that begins is noted (R380); `old` is the state in which the tick was judged. -/
def State.noteLeaves (old : State) (c : CoreId) (k : Core) (hc : Nat) (run : Bool) (dt : Nat) : Core :=
  { k with poised := k.wideDue run dt k.cyc, left := Vector.ofFn fun j => if j.val < 7 ∧ old.queueLeaves c run dt k.cyc j then some hc else k.left[j] }
/-- An island may stretch its clock: droop, a hop (R378). -/
def State.mayStretch (s : State) (i : Fin 64) : Bool := (s.island i).droop || ((s.island i).hop.isSome && !(s.island i).retry)
/-- An island's clock is held in the next tick: by a reserve hold; by a damper gap; by the stretch that a droop owes; in the last cycle of a hop that has
not held it before; else, where it may stretch, by a free value, since how long a stretch lasts is not exposed (R376, R378-R381, log entry 4). -/
def State.stretches (s : State) (n : Nat) (i : Fin 64) : Bool :=
  let k := s.island i
  k.holding || s.damps i || k.owed || (k.hop.isSome && !k.retry && !k.stretched && decide (k.hopLeft ≤ 1)) ||
  (s.mayStretch i && Config.choose (n + i.val))
/-- The clock of an island in the next tick: 16 - FSTEP cycles in sixteen ticks, none while it is held; hops and retries count its cycles (R376,
R378, R379). -/
def Island.advance (k : Island) (held : Bool) : Island :=
  let sum := k.phase + (16 - min 8 k.fstep)
  let go := !held && decide (16 ≤ sum)
  { k with held := held, beat := go, phase := if held then k.phase else sum % 16, owed := k.owed && !held, stretched := k.stretched || held
           hopLeft := if go && k.hop.isSome && !k.retry then k.hopLeft - 1 else k.hopLeft
           retryLeft := if go && k.retry && !k.droop then k.retryLeft - 1 else k.retryLeft }
/-- A binding's domain time after the tick, and whether the next cycle is live: the slowest member paces it, and a stretch of any
member's island holds it, also where a freeze ends (R22, R23, R350, R376, R378). -/
def State.advanceBinding (s : State) (held : Fin 64 → Bool) (b : Binding) : Binding :=
  if b.relHc.isNone then b
  else
    let here := b.members.filter fun c => s.bidOf c == b.bid
    let slow := (here.map fun c => min 8 (s.island (islandOf c)).fstep).foldl max 0
    if b.pace = .frozen ∨ here.any fun c => held (islandOf c) then { b with live := false }
    else match b.pace with
      | .resuming => { b with pace := .running, live := true }
      | _ =>
        if b.phase + (16 - slow) < 16 then { b with live := false, phase := b.phase + (16 - slow) }
        else { b with live := true, dt := b.dt + 1, phase := b.phase + (16 - slow) - 16 }
/-- The rail of each band in a cycle: one that has still to kindle uses none (R377, R382). -/
def Core.railAt (k : Core) (dt : Nat) : BitVec 8 :=
  k.kindling.foldl (fun r b => if dt < b.2 then r &&& ~~~(BitVec.ofNat 8 (3 * 4 ^ b.1)) else r) k.rail
/-- What `srd` shows in the cycle that begins (R184). -/
def Core.sampled (k : Core) (dt : Nat) : Sampled := ⟨k.umiss, k.walks, k.railAt dt, k.caps, k.strands.map (·.ipend.isSome)⟩
/-- A core at the next tick: its clock ticks with its binding's DT, or, while that stands frozen, with its island's (R349, R376, R378); what was
granted in the cycle is free again. -/
def State.advanceCore (s : State) (old : State) (c : CoreId) : Core :=
  let k := old.core c
  let k : Core := if k.used.isEmpty ∧ k.hobLines.isEmpty then k else { k with used := [], hobLines := [] }
  match k.task with
  | none => k
  | some (bid, _) =>
    let k : Core := { k with fifos := k.fifos.map fun (q : Fifo) => { q with popped := 0 } }
    match s.binding bid with
    | none => { k with atStart := k.sampled 0 }
    | some b =>
      let tick := b.relHc.isSome && !b.stopped && (if b.pace = .frozen then (s.island (islandOf c)).beat else b.live)
      let k : Core := { k with atStart := k.sampled b.dt, ticked := tick, cyc := if tick then k.cyc + 1 else k.cyc }
      if tick then old.noteLeaves c k s.hc b.live b.dt else k
/-- The Hearth clock ticks, and every binding's domain time with it; an island that stretches holds every binding on it (R19-R23, R378). -/
def State.tick (s : State) : State :=
  let s := s.beginHolds
  let s : State := { s with cores := Vector.ofFn fun i => match s.bindingOf i with
    | some b => if (s.core i).ticked then (s.core i).noteWide s.hc b.dt else s.core i
    | none => s.core i }
  let n := s.choice
  let held := s.stretches n
  let t : State := { s with hc := s.hc + 1, bindings := s.bindings.map (s.advanceBinding held)
                            islands := Vector.ofFn fun i => s.islands[i].advance (held i) }
  let t : State := { t with cores := Vector.ofFn fun i => t.advanceCore s i, choice := n + 64
                            cal := s.cal.filter fun d => match d.clock with | .dt bid => (s.binding bid).isSome | _ => true }
  { t with todo := t.places.filter fun p => match t.bindingOf p.1 with | some b => b.relHc.isSome | none => false }

/-! ### One micro-step -/

/-- An input from outside happens. -/
def State.takeInput (ex : Instr → State → Host.Outcome State Fault Refusal) (s : State) (i : Input) (rest : List Input) : Host.Outcome State Fault Refusal :=
  let s : State := { s with inbox := rest, msg := i.msg, img := i.img }
  match i.ev with
  | .coldReset => ex .coldReset { s with boot := { s.boot with strap := i.strap } }
  | ev => if s.power then ex ev s else .next s
/-- A preparation of a core that ends in this tick. -/
def State.prepDue (s : State) : Option Due :=
  s.cal.find? fun d => d.clock == .hc && decide (d.due ≤ s.hc) && (match d.work with | .ev .dispatchPrepare => true | _ => false)
/-- What goes before a cancel of the same tick: the preparations that end in it, and then the releases (R322). -/
def State.beforeCancel (ex : Instr → State → Host.Outcome State Fault Refusal) (s : State) : Option (Host.Outcome State Fault Refusal) :=
  match s.prepDue with
  | some d => some (({ s with cal := s.cal.filter fun o => o.order != d.order } : State).runWork ex d.work)
  | none => if s.bindings.any s.releases then some (ex .bindingRelease s) else none
/-- One micro-step, given the meanings of instructions and events (log entry 1). A release goes before a cancel of the same tick (R322). -/
def State.stepWith (ex : Instr → State → Host.Outcome State Fault Refusal) (s : State) : Host.Outcome State Fault Refusal :=
  match s.inbox with
  | i :: rest => (if i.ev = .cancel ∧ s.power then s.beforeCancel ex else none).getD (s.takeInput ex i rest)
  | [] =>
    if !s.power then .fault .poweredOff
    else match s.opening with
      | some i => ex i s
      | none => match s.nextItem with
        | some d => ({ s with cal := s.cal.filter fun o => o.order != d.order } : State).runWork ex d.work
        | none => match s.todo with
          | (c, st) :: rest => (s.begin c st rest).strandTurn ex c st
          | [] => match s.fenceEnds with
            | some (c, st) => .next (s.endTfence c st)
            | none => match s.closing with
              | some i => ex i s
              | none => .next s.tick

/-! ### Placing an instruction (log entry 12) -/

/-- The strand that a placed instruction runs on: the first on which its opcode is legal (R152). -/
def placeStrand (opc : BitVec 8) : StrandId := (strandsOf opc).headD .x
/-- The core that runs a placed instruction: one code line that holds it, the strand at its start, member of every domain. -/
def placeCore (k : Core) (nbits w : Nat) : Core :=
  let v := w % 2 ^ nbits
  let st := placeStrand (BitVec.ofNat 8 (v / 2 ^ 15))
  let link := st.num.val * 2 ^ 30 + chainEnd * 16 + 15
  let dom : Word := BitVec.ofNat 64 (2 ^ 47 + 2 ^ 23)
  { k with code := Mem.write [] 0 (leBytes 4 link ++ leBytes 16 v), task := some (1, 0), prepared := true, awake := true, dom := #v[dom, dom, dom, dom]
           strands := Vector.ofFn fun i => if i = st.num then { run := .running, sbound := 0x01000000 } else { run := .retired } }
/-- The binding of a placed instruction: released in this tick, its DT 0. -/
def placeBinding (s : State) : Binding :=
  { bid := 1, launch := {}, queue := 0, run := 0, part := 0, asid := 0, root := 0, cg := false, members := [0], stokers := [], fslot := 0, rel := s.hc
    relHc := some s.hc, dt := 0, live := true, pace := .running, horizon := none, faulted := false, preempt := false, stopped := false, reqHc := 0, stopHc := 0
    status := none, retired := [], shadows := [], swapping := none, quota := 0, phase := 0, moved := [] }
/-- The state in which the next step runs an instruction of `nbits` bits. -/
def State.placeWord (s : State) (nbits w : Nat) : State :=
  let st := placeStrand (BitVec.ofNat 8 (w % 2 ^ nbits / 2 ^ 15))
  { s with power := true, cores := s.cores.set 0 (placeCore s.cores[0] nbits w), bindings := [placeBinding s], inbox := [], cal := []
           todo := [(0, st)], cur := none }

end Sys2Proof.Machine
end

