-- ==== Sys2Proof/Machine/Step.lean ====
section
/-! DEFINITION. One step of the machine: the next micro-step that the model's order of a tick names (log entry 1), and the
placing of an instruction where the next step fetches it. -/

namespace Sys2Proof.Machine

/-- One step of the device (R19-R23, R29, R35; log entry 1). -/
def step (s : State) : Host.Outcome State Fault Refusal := s.stepWith exec

/-- The state with an instruction (bits numbered as the opcode table numbers them) stored where the next step fetches it: a
binding of core 0 whose one strand, legal for the opcode, stands at code line 0 with its issue turn (log entry 12). -/
def State.withFetchWord (s : State) (nbits w : Nat) : State := s.placeWord nbits w

end Sys2Proof.Machine
end

