-- ==== Sys2Proof/WellFormed.lean ====
section
/-! DEFINITION. Well-formed instructions: the operand values that the encodings admit (R142-R152), stated per constructor and
independently of the decoder. An event has no encoding and is not well formed in this sense. -/

namespace Sys2Proof

/-- Extension words that a header takes: a stamp and a bound (R142, R143). -/
def Hdr.extra (h : Hdr) : Nat := h.stamp.length + h.bound.toList.length
/-- The words of an instruction fit LEN: at most three follow the base word (R143). -/
def Raw.fits (r : Raw) : Bool := match shapeOf r.opc with | some sh => decide ((r.ext sh).length ≤ 3) | none => false

/-- A rounding mode other than 5 (R60). -/
def Rm.direct (m : Rm) : Bool := m != .rs

/-- Operands of a copy in the package: no barrier, scope 0; a channel only where it arrives at one (R192, R193). -/
def CopySpec.okInPkg (o : CopySpec) (chan : Bool) : Bool :=
  o.db.isNone && o.sb.isNone && o.c == 0 && o.scope == .core && o.cv.isNone && (chan || o.ch == 0)
/-- Operands of a barrier-regime copy: barriers in LS, GM or XM, their register pair, its channel, scope and conversion
(R192-R194). -/
def CopySpec.okBarrier (o : CopySpec) (chan toXm conv : Bool) : Bool :=
  o.db != some .ps && (o.db.isSome || o.sb.isSome || o.c == 0) && (o.sb.isNone || o.c != 31) && (chan || o.ch == 0) &&
  (!toXm || o.scope == .dom || o.scope == .sys) && (match o.cv with | some v => conv && v.rm.direct | none => true)

/-- The formats of whole words (R204). -/
def Fmt.isWord (f : Fmt) : Bool := f == .s32 || f == .s64 || f == .z32 || f == .z64
/-- Operands of an atomic (R204): its formats, RM with fadd only, SAT with add only, C with cas only; in XM an acquire or a release
at dom or sys. -/
def AtomSpec.ok (o : AtomSpec) (xm : Bool) : Bool :=
  (o.op == .cas || o.c == 0) && (o.op == .add || !o.sat) && o.rm.direct && (o.op == .fadd || o.rm == .rne) &&
  (match o.op with
   | .swap | .cas => o.fmt.isWord || o.fmt == .f32 || o.fmt == .f64
   | .fadd => o.fmt == .f32 || o.fmt == .f64
   | _ => o.fmt.isWord) &&
  (match o.ord with | .rel s | .acqrel s => !xm || s == .dom || s == .sys | _ => true)

/-- Operands of a collective: the register pair of its barriers, and the scope of its level (R206, R207). -/
def CollSpec.ok (o : CollSpec) : Bool :=
  (o.db.isSome || o.sb.isSome || o.c == 0) && (o.sb.isNone || o.c != 31) &&
  (match o.lvl with | .grp => o.scope == .dom || o.scope == .sys | _ => o.scope == .dev)

/-- The formats of groups F and I (R216). -/
def Fmt.isFI (f : Fmt) : Bool := f.isF || f.isI
/-- Operands of vadd, vsub and vmul: a rounding mode with group F only (R217). -/
def arithOk (f : Fmt) (m : Rm) : Bool := f.isFI && (f.isF || m == .rne)
/-- Formats and part of a conversion with scales (R229). -/
def scaleOk (wide narrow : Nat) (src dst : Fmt) (sb : BitVec 4) (sf : Bool) (part : BitVec 4) : Bool :=
  decide (narrow ≤ wide) && partOk src.bits dst.bits part.toNat && scalesFit src.bits sb.toNat sf
/-- Formats of vacr and vacw (R234). -/
def accFmt (f : Fmt) : Bool := f == .f32 || f == .s32 || f == .z32 || f == .f64
/-- No band of a list of four is given the state that names none (R238). -/
def bandsOk (bps : BitVec 8) : Bool :=
  bps.extractLsb' 0 2 != 3 && bps.extractLsb' 2 2 != 3 && bps.extractLsb' 4 2 != 3 && bps.extractLsb' 6 2 != 3

/-- The operand values that an instruction's encoding admits. -/
def Instr.fieldsOk : Instr → Bool
  | .retire h => !h.pap && !h.pan
  | .give _ _ n | .take _ _ n => n != 0
  | .cpLl _ _ _ _ o | .cpLp _ _ _ _ o | .cpPl _ _ _ _ o | .cpLf _ _ _ _ o => o.okInPkg true
  | .cpLw _ _ _ _ o => o.okInPkg false
  | .cpLg _ _ _ _ o => o.okBarrier false false true
  | .cpGl _ _ _ _ o => o.okBarrier true false true
  | .cpGg _ _ _ _ o | .cpXg _ _ _ _ o | .cpAg _ _ _ _ o | .cpAw _ _ _ _ o | .cpGw _ _ _ _ o => o.okBarrier false false false
  | .cpLx _ _ _ _ o | .cpGx _ _ _ _ o => o.okBarrier false true false
  | .cpXl _ _ _ _ o | .cpAl _ _ _ _ o => o.okBarrier true false false
  | .bwait _ sp _ _ _ _ | .bwaitt _ sp _ _ _ _ _ | .wwait _ sp _ _ _ _ _ | .wqwait _ sp _ _ _ | .bpoll _ sp _ _ _ | .wpoll _ sp _ _ _ => sp != .xm
  | .aml _ _ _ _ o | .amp _ _ _ _ o | .amg _ _ _ _ o => o.ok false
  | .amx _ _ _ _ o => o.ok true
  | .lred _ _ _ _ f m _ o => o.ok && m.direct && (f.isF || f == .e4m3 || f == .e5m2 || f == .t8 || f == .s32)
  | .lbcast _ _ _ _ o => o.ok
  | .lgath _ _ _ _ o => o.ok && o.arg == 0
  | .acc _ _ _ _ c _ => c != 31
  | .vadd _ _ _ _ _ f m _ | .vsub _ _ _ _ _ f m _ | .vmul _ _ _ _ _ f m _ => arithOk f m
  | .vfma _ _ _ _ _ _ f _ _ | .vfms _ _ _ _ _ _ f _ _ | .vfnma _ _ _ _ _ _ f _ _ => f.isF
  | .vmin _ _ _ _ _ f | .vmax _ _ _ _ _ f | .vclamp _ _ _ _ _ _ f => f.isFI
  | .vabs _ _ _ _ f sat | .vneg _ _ _ _ f sat => f.isFI && (!sat || f.isI)
  | .vdiv _ _ _ _ _ f _ | .vsqrt _ _ _ _ f _ | .vrcp _ _ _ _ f _ | .vround _ _ _ _ f _ => f.isF
  | .vrsq _ _ _ _ f m | .vexp _ _ _ _ f m | .vexp2 _ _ _ _ f m | .vlog _ _ _ _ f m | .vlog2 _ _ _ _ f m | .vsin _ _ _ _ f m
  | .vcos _ _ _ _ f m | .vtanh _ _ _ _ f m => f.isF && m.direct
  | .vclass _ _ _ _ f => !f.isI
  | .vcmp _ _ _ _ _ _ f | .vperm _ _ _ _ _ f => f != .e2m1
  | .vsll _ _ _ _ _ f | .vsrl _ _ _ _ _ f | .vsra _ _ _ _ _ f => f.isI
  | .vcvt _ _ _ _ sf df _ _ part => partOk sf.bits df.bits part.toNat
  | .vqnt _ _ _ _ _ sf df _ _ sb fs part => scaleOk sf.bits df.bits sf df sb fs part
  | .vdqnt _ _ _ _ _ sf df _ _ sb fs part => scaleOk df.bits sf.bits sf df sb fs part
  | .vredadd _ _ _ _ _ f df m sat => redFmtOk f df && (!df.isI || m == .rne) && (!sat || df.isI)
  | .vredmax _ _ _ _ _ f df | .vredmin _ _ _ _ _ f df => redFmtOk f df
  | .vacr _ _ _ _ f | .vacw _ _ _ _ f => accFmt f
  | .hcut _ cut bps => cut != 7 && bandsOk bps
  | .hchain _ lt lw head => lt != 3 && lw != 3 && (head == 0 || lt != 0 || lw != 0)
  | .mloadb _ _ _ f wz csm _ => mloadbFmt f && wz != 3 && csm != 3
  | .mma _ _ _ _ f m _ _ _ _ _ => mloadbFmt f && m.direct && (m == .rne || f == .f32 || f == .f64)
  | .mdrain _ _ _ _ f m _ _ _ _ _ _ => m.direct && (f == .f32 || f == .s32 || f == .f64)
  | .tlbinv _ a b kind size => (kind == .page || (a == 0 && size == .k64)) && (kind != .all || b == 0)
  | _ => true

/-- A well-formed instruction: it has an encoding, its words fit LEN, and its operand values are those that the encoding admits. -/
def Instr.wellFormed (i : Instr) : Bool := (match i.toRaw with | some r => r.fits | none => false) && i.fieldsOk

end Sys2Proof
end

