-- ==== Sys2Proof/Laws/Encoding.lean ====
section
/-! SUPPORT. The encoder and the decoder against each other: the fields of the words that the encoder lays out are the fields that it
was given (R142-R144), and words whose fields the opcode admits are cut into exactly those fields. -/

set_option linter.unusedSimpArgs false

namespace Sys2Proof.Laws

/-! ### Codes -/

@[simp] theorem fmt_ofCode_code (f : Fmt) : Fmt.ofCode f.code = f := by cases f <;> rfl
@[simp] theorem rm_ofCode_code (m : Rm) : Rm.ofCode m.code = some m := by cases m <;> rfl
@[simp] theorem scope_ofCode_code (s : Scope) : Scope.ofCode s.code = some s := by cases s <;> rfl
@[simp] theorem objSpace_ofCode_code (s : ObjSpace) : ObjSpace.ofCode s.code = s := by cases s <;> rfl
@[simp] theorem atomOp_ofCode_code (o : AtomOp) : AtomOp.ofCode o.code = some o := by cases o <;> rfl
@[simp] theorem intFmt_ofFmt_fmt (f : IntFmt) : IntFmt.ofFmt f.fmt = some f := by cases f <;> rfl
@[simp] theorem bit_getLsbD_zero (b : Bool) : (bit b).getLsbD 0 = b := by cases b <;> rfl
theorem bit_inj (b : Bool) : BitVec.ofBool b = bit b := rfl

/-- A field at or above the split of two parts lies in the upper part. -/
theorem field_hi {v w : Nat} (x : BitVec v) (y : BitVec w) (lo n : Nat) (h : w ≤ lo) :
    (x ++ y).extractLsb' lo n = x.extractLsb' (lo - w) n := BitVec.extractLsb'_append_eq_of_le h
/-- A field below the split lies in the lower part. -/
theorem field_lo {v w : Nat} (x : BitVec v) (y : BitVec w) (lo n : Nat) (h : lo + n ≤ w) :
    (x ++ y).extractLsb' lo n = y.extractLsb' lo n := BitVec.extractLsb'_append_eq_of_add_le h

/-! ### The typed word (R144) -/

section
variable (f : Fmt) (m : BitVec 3) (s : Bool) (c : BitVec 5) (k : KReg) (sc : BitVec 3) (fn : BitVec 13)

@[simp] theorem typed_fmt : (typedWord f m s c k sc fn).extractLsb' 28 4 = f.code := by
  show BitVec.extractLsb' 28 4 (f.code ++ m ++ bit s ++ c ++ k ++ sc ++ fn) = f.code
  simp (disch := omega) only [field_hi, field_lo, Nat.reduceSub, BitVec.extractLsb'_eq_self]
@[simp] theorem typed_rm : (typedWord f m s c k sc fn).extractLsb' 25 3 = m := by
  show BitVec.extractLsb' 25 3 (f.code ++ m ++ bit s ++ c ++ k ++ sc ++ fn) = m
  simp (disch := omega) only [field_hi, field_lo, Nat.reduceSub, BitVec.extractLsb'_eq_self]
@[simp] theorem typed_sat : (typedWord f m s c k sc fn).getLsbD 24 = s := by
  show BitVec.getLsbD (f.code ++ m ++ bit s ++ c ++ k ++ sc ++ fn) 24 = s
  simp only [BitVec.getLsbD_append]; cases s <;> rfl
@[simp] theorem typed_at24 : (typedWord f m s c k sc fn)[24] = s := typed_sat f m s c k sc fn
@[simp] theorem typed_c : (typedWord f m s c k sc fn).extractLsb' 19 5 = c := by
  show BitVec.extractLsb' 19 5 (f.code ++ m ++ bit s ++ c ++ k ++ sc ++ fn) = c
  simp (disch := omega) only [field_hi, field_lo, Nat.reduceSub, BitVec.extractLsb'_eq_self]
@[simp] theorem typed_k : (typedWord f m s c k sc fn).extractLsb' 16 3 = k := by
  show BitVec.extractLsb' 16 3 (f.code ++ m ++ bit s ++ c ++ k ++ sc ++ fn) = k
  simp (disch := omega) only [field_hi, field_lo, Nat.reduceSub, BitVec.extractLsb'_eq_self]
@[simp] theorem typed_scope : (typedWord f m s c k sc fn).extractLsb' 13 3 = sc := by
  show BitVec.extractLsb' 13 3 (f.code ++ m ++ bit s ++ c ++ k ++ sc ++ fn) = sc
  simp (disch := omega) only [field_hi, field_lo, Nat.reduceSub, BitVec.extractLsb'_eq_self]
@[simp] theorem typed_fn : (typedWord f m s c k sc fn).extractLsb' 0 13 = fn := by
  show BitVec.extractLsb' 0 13 (f.code ++ m ++ bit s ++ c ++ k ++ sc ++ fn) = fn
  simp (disch := omega) only [field_hi, field_lo, Nat.reduceSub, BitVec.extractLsb'_eq_self]

end

/-! ### Cutting the words (R142, R143) -/

section
variable (r : Raw) (n : BitVec 2)

theorem base_opc : (r.base n).extractLsb' 15 8 = r.opc := by
  show BitVec.extractLsb' 15 8 (r.h.dly ++ bit r.h.pbp ++ bit r.h.pbn ++ bit r.h.pap ++ bit r.h.pan ++ n ++ r.opc ++ r.d ++ r.a ++ r.b) = r.opc
  simp (disch := omega) only [field_hi, field_lo, Nat.reduceSub, BitVec.extractLsb'_eq_self]
theorem base_d : (r.base n).extractLsb' 10 5 = r.d := by
  show BitVec.extractLsb' 10 5 (r.h.dly ++ bit r.h.pbp ++ bit r.h.pbn ++ bit r.h.pap ++ bit r.h.pan ++ n ++ r.opc ++ r.d ++ r.a ++ r.b) = r.d
  simp (disch := omega) only [field_hi, field_lo, Nat.reduceSub, BitVec.extractLsb'_eq_self]
theorem base_a : (r.base n).extractLsb' 5 5 = r.a := by
  show BitVec.extractLsb' 5 5 (r.h.dly ++ bit r.h.pbp ++ bit r.h.pbn ++ bit r.h.pap ++ bit r.h.pan ++ n ++ r.opc ++ r.d ++ r.a ++ r.b) = r.a
  simp (disch := omega) only [field_hi, field_lo, Nat.reduceSub, BitVec.extractLsb'_eq_self]
theorem base_b : (r.base n).extractLsb' 0 5 = r.b := by
  show BitVec.extractLsb' 0 5 (r.h.dly ++ bit r.h.pbp ++ bit r.h.pbn ++ bit r.h.pap ++ bit r.h.pan ++ n ++ r.opc ++ r.d ++ r.a ++ r.b) = r.b
  simp (disch := omega) only [field_hi, field_lo, Nat.reduceSub, BitVec.extractLsb'_eq_self]
theorem base_len : (r.base n).extractLsb' 23 2 = n := by
  show BitVec.extractLsb' 23 2 (r.h.dly ++ bit r.h.pbp ++ bit r.h.pbn ++ bit r.h.pap ++ bit r.h.pan ++ n ++ r.opc ++ r.d ++ r.a ++ r.b) = n
  simp (disch := omega) only [field_hi, field_lo, Nat.reduceSub, BitVec.extractLsb'_eq_self]
theorem base_dly : (r.base n).extractLsb' 29 3 = r.h.dly := by
  show BitVec.extractLsb' 29 3 (r.h.dly ++ bit r.h.pbp ++ bit r.h.pbn ++ bit r.h.pap ++ bit r.h.pan ++ n ++ r.opc ++ r.d ++ r.a ++ r.b) = r.h.dly
  simp (disch := omega) only [field_hi, field_lo, Nat.reduceSub, BitVec.extractLsb'_eq_self]
theorem base_pbp : (r.base n).getLsbD 28 = r.h.pbp := by
  show BitVec.getLsbD (r.h.dly ++ bit r.h.pbp ++ bit r.h.pbn ++ bit r.h.pap ++ bit r.h.pan ++ n ++ r.opc ++ r.d ++ r.a ++ r.b) 28 = r.h.pbp
  simp only [BitVec.getLsbD_append]; cases r.h.pbp <;> rfl
theorem base_pbn : (r.base n).getLsbD 27 = r.h.pbn := by
  show BitVec.getLsbD (r.h.dly ++ bit r.h.pbp ++ bit r.h.pbn ++ bit r.h.pap ++ bit r.h.pan ++ n ++ r.opc ++ r.d ++ r.a ++ r.b) 27 = r.h.pbn
  simp only [BitVec.getLsbD_append]; cases r.h.pbn <;> rfl
theorem base_pap : (r.base n).getLsbD 26 = r.h.pap := by
  show BitVec.getLsbD (r.h.dly ++ bit r.h.pbp ++ bit r.h.pbn ++ bit r.h.pap ++ bit r.h.pan ++ n ++ r.opc ++ r.d ++ r.a ++ r.b) 26 = r.h.pap
  simp only [BitVec.getLsbD_append]; cases r.h.pap <;> rfl
theorem base_pan : (r.base n).getLsbD 25 = r.h.pan := by
  show BitVec.getLsbD (r.h.dly ++ bit r.h.pbp ++ bit r.h.pbn ++ bit r.h.pap ++ bit r.h.pan ++ n ++ r.opc ++ r.d ++ r.a ++ r.b) 25 = r.h.pan
  simp only [BitVec.getLsbD_append]; cases r.h.pan <;> rfl

end

/-- The header of a base word, with its stamp and its bound, is the header that was laid out. -/
theorem hdrOf_base (r : Raw) (n : BitVec 2) (ws : List Word32) :
    hdrOf (r.base n) ((r.h.stamp ++ ws).getD 0 0) r.h.bound = r.h := by
  have hd : (r.base n).extractLsb' 29 3 = r.h.dly := base_dly r n
  unfold hdrOf
  rw [hd, base_pbp, base_pbn, base_pap, base_pan]
  rcases hh : r.h with ⟨t, p1, p2, p3, p4, b⟩
  cases t with
  | after d => 
    have : (BitVec.ofNat 3 d.val).toNat = d.val := by simp; omega
    simp [Hdr.dly, this, d.isLt]
  | stamped w => simp [Hdr.dly, Hdr.stamp]

/-- An opcode admits the fields of an instruction: no field that it does not use is set, none names a register beyond its file, and the
extension words fit LEN (R142-R148). -/
def Admits (r : Raw) (sh : Shape) : Prop :=
  shapeOf r.opc = some sh ∧ sh.baseReserved r.d r.a r.b = false ∧ sh.extReserved r = false ∧ sh.beyond r = false ∧
  (sh.typed = false → r.t = 0) ∧ (sh.immed = false → r.imm = 0) ∧ (r.ext sh).length ≤ 3

/-- The words of admitted fields are cut into exactly those fields, whatever follows them. -/
theorem rawOf_words {r : Raw} {sh : Shape} (h : Admits r sh) (rest : List Word32) :
    rawOf (r.words ++ rest) = .ok (r, 1 + (r.ext sh).length) := by
  obtain ⟨hs, hb, he, hy, ht, hi, hl⟩ := h
  have hn : (BitVec.ofNat 2 (r.ext sh).length).toNat = (r.ext sh).length := by
    rw [BitVec.toNat_ofNat]; omega
  simp only [Raw.words, hs, List.cons_append, rawOf, fieldsOf, Shape.words, base_opc, base_d, base_a, base_b, base_len, base_dly, hn]
  have hst : (if r.h.dly.toNat = 7 then 1 else 0) = r.h.stamp.length := by
    unfold Hdr.dly Hdr.stamp
    rcases r.h.timing with d | w
    · have : (BitVec.ofNat 3 d.val).toNat = d.val := by rw [BitVec.toNat_ofNat]; omega
      simp [this]; omega
    · rfl
  have hh : ∀ n, hdrOf (r.base n) ((r.h.stamp ++ (if sh.typed then [r.t] else []) ++ (if sh.immed then [r.imm] else []) ++
      r.h.bound.toList ++ rest).getD 0 0) r.h.bound = r.h := by
    intro n; simp only [List.append_assoc]; exact hdrOf_base r n _
  rw [hst]
  rcases r with ⟨⟨tm, p1, p2, p3, p4, bd⟩, opc, d, a, b, t, imm⟩
  simp only at ht hi
  cases tm <;> cases bd <;> cases ct : sh.typed <;> cases ci : sh.immed <;>
    simp_all [Raw.ext, Hdr.stamp]

/-- Decoding the words of an instruction gives the instruction and their number. -/
theorem decode_encode {i : Instr} {r : Raw} {sh : Shape} (hr : i.toRaw = some r) (ha : Admits r sh) (hb : r.build = .ok i)
    (rest : List Word32) : decode (encode i ++ rest) = .ok (i, (encode i).length) := by
  have hl : (encode i).length = 1 + (r.ext sh).length := by
    simp only [encode, hr, Raw.words, ha.1, List.length_cons]; omega
  simp only [decode, encode, hr, rawOf_words ha rest, hb]
  rw [← hl]; simp [encode, hr]

/-! ### Reserved bits -/

/-- A field padded with zeros above sets no bit that a mask of its width leaves out. -/
theorem padded_masked {v w : Nat} (x : BitVec w) (m : BitVec (v + w)) (h : m = BitVec.allOnes v ++ 0#w := by decide) :
    ((0#v ++ x) &&& m) = 0 := by
  rw [h]; ext i hi; simp [BitVec.getElem_append]
@[simp] theorem fmt_ofCode_zero : Fmt.ofCode 0#4 = .f64 := rfl
/-- The number of a padded field is the number of the field. -/
@[simp] theorem padded_toNat {v w : Nat} (x : BitVec w) : (0#v ++ x).toNat = x.toNat := by
  simp [BitVec.toNat_append]

/-! ### Fields laid out side by side -/

@[simp] theorem tgtWord_0_15 (t : BitVec 15) : (tgtWord t).extractLsb' 0 15 = t := by
  show BitVec.extractLsb' 0 15 (0#17 ++ t) = t
  simp (disch := omega) only [field_hi, field_lo, Nat.reduceSub, BitVec.extractLsb'_eq_self]
@[simp] theorem tgtWord_masked (t : BitVec 15) : ((tgtWord t) &&& 4294934528#32) = 0 := padded_masked t _
@[simp] theorem bitWord_0_15 (s : Bool) (n : BitVec 6) (t : BitVec 15) : (bitWord s n t).extractLsb' 0 15 = t := by
  show BitVec.extractLsb' 0 15 (0#10 ++ (bit s ++ n ++ t)) = t
  simp (disch := omega) only [field_hi, field_lo, Nat.reduceSub, BitVec.extractLsb'_eq_self]
@[simp] theorem bitWord_15_6 (s : Bool) (n : BitVec 6) (t : BitVec 15) : (bitWord s n t).extractLsb' 15 6 = n := by
  show BitVec.extractLsb' 15 6 (0#10 ++ (bit s ++ n ++ t)) = n
  simp (disch := omega) only [field_hi, field_lo, Nat.reduceSub, BitVec.extractLsb'_eq_self]
@[simp] theorem bitWord_21 (s : Bool) (n : BitVec 6) (t : BitVec 15) : (bitWord s n t).getLsbD 21 = s := by
  show BitVec.getLsbD (0#10 ++ (bit s ++ n ++ t)) 21 = s
  simp only [BitVec.getLsbD_append]; cases s <;> rfl
@[simp] theorem bitWord_at21 (s : Bool) (n : BitVec 6) (t : BitVec 15) : (bitWord s n t)[21] = s := bitWord_21 s n t
@[simp] theorem bitWord_masked (s : Bool) (n : BitVec 6) (t : BitVec 15) : ((bitWord s n t) &&& 4290772992#32) = 0 := padded_masked (bit s ++ n ++ t) _
@[simp] theorem codeWord_0_16 (t : BitVec 16) : (codeWord t).extractLsb' 0 16 = t := by
  show BitVec.extractLsb' 0 16 (0#16 ++ t) = t
  simp (disch := omega) only [field_hi, field_lo, Nat.reduceSub, BitVec.extractLsb'_eq_self]
@[simp] theorem codeWord_masked (t : BitVec 16) : ((codeWord t) &&& 4294901760#32) = 0 := padded_masked t _
@[simp] theorem shWord_0_6 (t : BitVec 6) : (shWord t).extractLsb' 0 6 = t := by
  show BitVec.extractLsb' 0 6 (0#26 ++ t) = t
  simp (disch := omega) only [field_hi, field_lo, Nat.reduceSub, BitVec.extractLsb'_eq_self]
@[simp] theorem shWord_masked (t : BitVec 6) : ((shWord t) &&& 4294967232#32) = 0 := padded_masked t _
@[simp] theorem twoWord_0_2 (t : BitVec 2) : (twoWord t).extractLsb' 0 2 = t := by
  show BitVec.extractLsb' 0 2 (0#30 ++ t) = t
  simp (disch := omega) only [field_hi, field_lo, Nat.reduceSub, BitVec.extractLsb'_eq_self]
@[simp] theorem twoWord_masked (t : BitVec 2) : ((twoWord t) &&& 4294967292#32) = 0 := padded_masked t _
@[simp] theorem oneWord_0 (u : Bool) : (oneWord u).getLsbD 0 = u := by
  show BitVec.getLsbD (0#31 ++ bit u) 0 = u
  simp only [BitVec.getLsbD_append]; cases u <;> rfl
@[simp] theorem oneWord_at0 (u : Bool) : (oneWord u)[0] = u := oneWord_0 u
@[simp] theorem oneWord_masked (u : Bool) : ((oneWord u) &&& 4294967294#32) = 0 := padded_masked (bit u) _
@[simp] theorem chanWord_0_3 (e : Bool) (c : BitVec 3) : (chanWord e c).extractLsb' 0 3 = c := by
  show BitVec.extractLsb' 0 3 (0#28 ++ (bit e ++ c)) = c
  simp (disch := omega) only [field_hi, field_lo, Nat.reduceSub, BitVec.extractLsb'_eq_self]
@[simp] theorem chanWord_3 (e : Bool) (c : BitVec 3) : (chanWord e c).getLsbD 3 = e := by
  show BitVec.getLsbD (0#28 ++ (bit e ++ c)) 3 = e
  simp only [BitVec.getLsbD_append]; cases e <;> rfl
@[simp] theorem chanWord_at3 (e : Bool) (c : BitVec 3) : (chanWord e c)[3] = e := chanWord_3 e c
@[simp] theorem chanWord_masked (e : Bool) (c : BitVec 3) : ((chanWord e c) &&& 4294967280#32) = 0 := padded_masked (bit e ++ c) _
@[simp] theorem tagWord_0_22 (g : BitVec 10) (a : BitVec 22) : (tagWord g a).extractLsb' 0 22 = a := by
  show BitVec.extractLsb' 0 22 (g ++ a) = a
  simp (disch := omega) only [field_hi, field_lo, Nat.reduceSub, BitVec.extractLsb'_eq_self]
@[simp] theorem tagWord_22_10 (g : BitVec 10) (a : BitVec 22) : (tagWord g a).extractLsb' 22 10 = g := by
  show BitVec.extractLsb' 22 10 (g ++ a) = g
  simp (disch := omega) only [field_hi, field_lo, Nat.reduceSub, BitVec.extractLsb'_eq_self]
@[simp] theorem cutWord_0_3 (b : BitVec 8) (c : BitVec 3) : (cutWord b c).extractLsb' 0 3 = c := by
  show BitVec.extractLsb' 0 3 (0#20 ++ (b ++ 0#1 ++ c)) = c
  simp (disch := omega) only [field_hi, field_lo, Nat.reduceSub, BitVec.extractLsb'_eq_self]
@[simp] theorem cutWord_4_8 (b : BitVec 8) (c : BitVec 3) : (cutWord b c).extractLsb' 4 8 = b := by
  show BitVec.extractLsb' 4 8 (0#20 ++ (b ++ 0#1 ++ c)) = b
  simp (disch := omega) only [field_hi, field_lo, Nat.reduceSub, BitVec.extractLsb'_eq_self]
@[simp] theorem cutWord_4_2 (b : BitVec 8) (c : BitVec 3) : (cutWord b c).extractLsb' 4 2 = b.extractLsb' 0 2 := by
  show BitVec.extractLsb' 4 2 (0#20 ++ (b ++ 0#1 ++ c)) = b.extractLsb' 0 2
  simp (disch := omega) only [field_hi, field_lo, Nat.reduceSub, BitVec.extractLsb'_eq_self]
@[simp] theorem cutWord_6_2 (b : BitVec 8) (c : BitVec 3) : (cutWord b c).extractLsb' 6 2 = b.extractLsb' 2 2 := by
  show BitVec.extractLsb' 6 2 (0#20 ++ (b ++ 0#1 ++ c)) = b.extractLsb' 2 2
  simp (disch := omega) only [field_hi, field_lo, Nat.reduceSub, BitVec.extractLsb'_eq_self]
@[simp] theorem cutWord_8_2 (b : BitVec 8) (c : BitVec 3) : (cutWord b c).extractLsb' 8 2 = b.extractLsb' 4 2 := by
  show BitVec.extractLsb' 8 2 (0#20 ++ (b ++ 0#1 ++ c)) = b.extractLsb' 4 2
  simp (disch := omega) only [field_hi, field_lo, Nat.reduceSub, BitVec.extractLsb'_eq_self]
@[simp] theorem cutWord_10_2 (b : BitVec 8) (c : BitVec 3) : (cutWord b c).extractLsb' 10 2 = b.extractLsb' 6 2 := by
  show BitVec.extractLsb' 10 2 (0#20 ++ (b ++ 0#1 ++ c)) = b.extractLsb' 6 2
  simp (disch := omega) only [field_hi, field_lo, Nat.reduceSub, BitVec.extractLsb'_eq_self]
@[simp] theorem cutWord_masked (b : BitVec 8) (c : BitVec 3) : ((cutWord b c) &&& 4294963208#32) = 0 := by
  show ((0#20 ++ (b ++ 0#1 ++ c)) &&& (BitVec.allOnes 20 ++ (0#8 ++ 1#1 ++ 0#3))) = 0
  simp only [BitVec.and_append, BitVec.and_zero, BitVec.zero_and]; rfl
@[simp] theorem chainWord_0_2 (h : BitVec 8) (w : BitVec 2) (l : BitVec 2) : (chainWord h w l).extractLsb' 0 2 = l := by
  show BitVec.extractLsb' 0 2 (0#20 ++ (h ++ w ++ l)) = l
  simp (disch := omega) only [field_hi, field_lo, Nat.reduceSub, BitVec.extractLsb'_eq_self]
@[simp] theorem chainWord_2_2 (h : BitVec 8) (w : BitVec 2) (l : BitVec 2) : (chainWord h w l).extractLsb' 2 2 = w := by
  show BitVec.extractLsb' 2 2 (0#20 ++ (h ++ w ++ l)) = w
  simp (disch := omega) only [field_hi, field_lo, Nat.reduceSub, BitVec.extractLsb'_eq_self]
@[simp] theorem chainWord_4_8 (h : BitVec 8) (w : BitVec 2) (l : BitVec 2) : (chainWord h w l).extractLsb' 4 8 = h := by
  show BitVec.extractLsb' 4 8 (0#20 ++ (h ++ w ++ l)) = h
  simp (disch := omega) only [field_hi, field_lo, Nat.reduceSub, BitVec.extractLsb'_eq_self]
@[simp] theorem chainWord_masked (h : BitVec 8) (w : BitVec 2) (l : BitVec 2) : ((chainWord h w l) &&& 4294963200#32) = 0 := padded_masked (h ++ w ++ l) _
@[simp] theorem rowsWord_0_10 (m : BitVec 10) (c : BitVec 7) (w : BitVec 10) : (rowsWord m c w).extractLsb' 0 10 = w := by
  show BitVec.extractLsb' 0 10 (0#5 ++ (m ++ c ++ w)) = w
  simp (disch := omega) only [field_hi, field_lo, Nat.reduceSub, BitVec.extractLsb'_eq_self]
@[simp] theorem rowsWord_10_7 (m : BitVec 10) (c : BitVec 7) (w : BitVec 10) : (rowsWord m c w).extractLsb' 10 7 = c := by
  show BitVec.extractLsb' 10 7 (0#5 ++ (m ++ c ++ w)) = c
  simp (disch := omega) only [field_hi, field_lo, Nat.reduceSub, BitVec.extractLsb'_eq_self]
@[simp] theorem rowsWord_17_10 (m : BitVec 10) (c : BitVec 7) (w : BitVec 10) : (rowsWord m c w).extractLsb' 17 10 = m := by
  show BitVec.extractLsb' 17 10 (0#5 ++ (m ++ c ++ w)) = m
  simp (disch := omega) only [field_hi, field_lo, Nat.reduceSub, BitVec.extractLsb'_eq_self]
@[simp] theorem rowsWord_masked (m : BitVec 10) (c : BitVec 7) (w : BitVec 10) : ((rowsWord m c w) &&& 4160749568#32) = 0 := padded_masked (m ++ c ++ w) _
@[simp] theorem zeroWord_0_10 (n : BitVec 10) (w : BitVec 10) : (zeroWord n w).extractLsb' 0 10 = w := by
  show BitVec.extractLsb' 0 10 (0#12 ++ (n ++ w)) = w
  simp (disch := omega) only [field_hi, field_lo, Nat.reduceSub, BitVec.extractLsb'_eq_self]
@[simp] theorem zeroWord_10_10 (n : BitVec 10) (w : BitVec 10) : (zeroWord n w).extractLsb' 10 10 = n := by
  show BitVec.extractLsb' 10 10 (0#12 ++ (n ++ w)) = n
  simp (disch := omega) only [field_hi, field_lo, Nat.reduceSub, BitVec.extractLsb'_eq_self]
@[simp] theorem zeroWord_masked (n : BitVec 10) (w : BitVec 10) : ((zeroWord n w) &&& 4293918720#32) = 0 := padded_masked (n ++ w) _
@[simp] theorem regWord_0_12 (g : BitVec 12) : (regWord g).extractLsb' 0 12 = g := by
  show BitVec.extractLsb' 0 12 (0#20 ++ g) = g
  simp (disch := omega) only [field_hi, field_lo, Nat.reduceSub, BitVec.extractLsb'_eq_self]
@[simp] theorem regWord_masked (g : BitVec 12) : ((regWord g) &&& 4294963200#32) = 0 := padded_masked g _
@[simp] theorem flagFn_0 (b : Bool) : (flagFn b).getLsbD 0 = b := by
  show BitVec.getLsbD (0#12 ++ bit b) 0 = b
  simp only [BitVec.getLsbD_append]; cases b <;> rfl
@[simp] theorem flagFn_at0 (b : Bool) : (flagFn b)[0] = b := flagFn_0 b
@[simp] theorem flagFn_masked (b : Bool) : ((flagFn b) &&& 8190#13) = 0 := padded_masked (bit b) _
@[simp] theorem spFn_0_2 (s : BitVec 2) : (spFn s).extractLsb' 0 2 = s := by
  show BitVec.extractLsb' 0 2 (0#11 ++ s) = s
  simp (disch := omega) only [field_hi, field_lo, Nat.reduceSub, BitVec.extractLsb'_eq_self]
@[simp] theorem spFn_masked (s : BitVec 2) : ((spFn s) &&& 8188#13) = 0 := padded_masked s _
@[simp] theorem objFn_0_2 (c : BitVec 3) (o : Bool) (s : BitVec 2) : (objFn c o s).extractLsb' 0 2 = s := by
  show BitVec.extractLsb' 0 2 (0#7 ++ (c ++ bit o ++ s)) = s
  simp (disch := omega) only [field_hi, field_lo, Nat.reduceSub, BitVec.extractLsb'_eq_self]
@[simp] theorem objFn_3_3 (c : BitVec 3) (o : Bool) (s : BitVec 2) : (objFn c o s).extractLsb' 3 3 = c := by
  show BitVec.extractLsb' 3 3 (0#7 ++ (c ++ bit o ++ s)) = c
  simp (disch := omega) only [field_hi, field_lo, Nat.reduceSub, BitVec.extractLsb'_eq_self]
@[simp] theorem objFn_2 (c : BitVec 3) (o : Bool) (s : BitVec 2) : (objFn c o s).getLsbD 2 = o := by
  show BitVec.getLsbD (0#7 ++ (c ++ bit o ++ s)) 2 = o
  simp only [BitVec.getLsbD_append]; cases o <;> rfl
@[simp] theorem objFn_at2 (c : BitVec 3) (o : Bool) (s : BitVec 2) : (objFn c o s)[2] = o := objFn_2 c o s
@[simp] theorem objFn_masked (c : BitVec 3) (o : Bool) (s : BitVec 2) : ((objFn c o s) &&& 8128#13) = 0 := padded_masked (c ++ bit o ++ s) _
@[simp] theorem atomFn_0_4 (o : BitVec 2) (p : BitVec 4) : (atomFn o p).extractLsb' 0 4 = p := by
  show BitVec.extractLsb' 0 4 (0#7 ++ (o ++ p)) = p
  simp (disch := omega) only [field_hi, field_lo, Nat.reduceSub, BitVec.extractLsb'_eq_self]
@[simp] theorem atomFn_4_2 (o : BitVec 2) (p : BitVec 4) : (atomFn o p).extractLsb' 4 2 = o := by
  show BitVec.extractLsb' 4 2 (0#7 ++ (o ++ p)) = o
  simp (disch := omega) only [field_hi, field_lo, Nat.reduceSub, BitVec.extractLsb'_eq_self]
@[simp] theorem atomFn_masked (o : BitVec 2) (p : BitVec 4) : ((atomFn o p) &&& 8128#13) = 0 := padded_masked (o ++ p) _
@[simp] theorem collFn_0_2 (c : BitVec 3) (a : Bool) (b : Bool) (x : Bool) (y : Bool) (l : BitVec 2) : (collFn c a b x y l).extractLsb' 0 2 = l := by
  show BitVec.extractLsb' 0 2 (0#4 ++ (c ++ bit a ++ bit b ++ bit x ++ bit y ++ l)) = l
  simp (disch := omega) only [field_hi, field_lo, Nat.reduceSub, BitVec.extractLsb'_eq_self]
@[simp] theorem collFn_6_3 (c : BitVec 3) (a : Bool) (b : Bool) (x : Bool) (y : Bool) (l : BitVec 2) : (collFn c a b x y l).extractLsb' 6 3 = c := by
  show BitVec.extractLsb' 6 3 (0#4 ++ (c ++ bit a ++ bit b ++ bit x ++ bit y ++ l)) = c
  simp (disch := omega) only [field_hi, field_lo, Nat.reduceSub, BitVec.extractLsb'_eq_self]
@[simp] theorem collFn_2 (c : BitVec 3) (a : Bool) (b : Bool) (x : Bool) (y : Bool) (l : BitVec 2) : (collFn c a b x y l).getLsbD 2 = y := by
  show BitVec.getLsbD (0#4 ++ (c ++ bit a ++ bit b ++ bit x ++ bit y ++ l)) 2 = y
  simp only [BitVec.getLsbD_append]; cases y <;> rfl
@[simp] theorem collFn_at2 (c : BitVec 3) (a : Bool) (b : Bool) (x : Bool) (y : Bool) (l : BitVec 2) : (collFn c a b x y l)[2] = y := collFn_2 c a b x y l
@[simp] theorem collFn_3 (c : BitVec 3) (a : Bool) (b : Bool) (x : Bool) (y : Bool) (l : BitVec 2) : (collFn c a b x y l).getLsbD 3 = x := by
  show BitVec.getLsbD (0#4 ++ (c ++ bit a ++ bit b ++ bit x ++ bit y ++ l)) 3 = x
  simp only [BitVec.getLsbD_append]; cases x <;> rfl
@[simp] theorem collFn_at3 (c : BitVec 3) (a : Bool) (b : Bool) (x : Bool) (y : Bool) (l : BitVec 2) : (collFn c a b x y l)[3] = x := collFn_3 c a b x y l
@[simp] theorem collFn_4 (c : BitVec 3) (a : Bool) (b : Bool) (x : Bool) (y : Bool) (l : BitVec 2) : (collFn c a b x y l).getLsbD 4 = b := by
  show BitVec.getLsbD (0#4 ++ (c ++ bit a ++ bit b ++ bit x ++ bit y ++ l)) 4 = b
  simp only [BitVec.getLsbD_append]; cases b <;> rfl
@[simp] theorem collFn_at4 (c : BitVec 3) (a : Bool) (b : Bool) (x : Bool) (y : Bool) (l : BitVec 2) : (collFn c a b x y l)[4] = b := collFn_4 c a b x y l
@[simp] theorem collFn_5 (c : BitVec 3) (a : Bool) (b : Bool) (x : Bool) (y : Bool) (l : BitVec 2) : (collFn c a b x y l).getLsbD 5 = a := by
  show BitVec.getLsbD (0#4 ++ (c ++ bit a ++ bit b ++ bit x ++ bit y ++ l)) 5 = a
  simp only [BitVec.getLsbD_append]; cases a <;> rfl
@[simp] theorem collFn_at5 (c : BitVec 3) (a : Bool) (b : Bool) (x : Bool) (y : Bool) (l : BitVec 2) : (collFn c a b x y l)[5] = a := collFn_5 c a b x y l
@[simp] theorem collFn_masked (c : BitVec 3) (a : Bool) (b : Bool) (x : Bool) (y : Bool) (l : BitVec 2) : ((collFn c a b x y l) &&& 7680#13) = 0 := padded_masked (c ++ bit a ++ bit b ++ bit x ++ bit y ++ l) _
@[simp] theorem condFn_0_3 (c : BitVec 3) : (condFn c).extractLsb' 0 3 = c := by
  show BitVec.extractLsb' 0 3 (0#10 ++ c) = c
  simp (disch := omega) only [field_hi, field_lo, Nat.reduceSub, BitVec.extractLsb'_eq_self]
@[simp] theorem condFn_masked (c : BitVec 3) : ((condFn c) &&& 8184#13) = 0 := padded_masked c _
@[simp] theorem tableFn_0_8 (t : BitVec 8) : (tableFn t).extractLsb' 0 8 = t := by
  show BitVec.extractLsb' 0 8 (0#5 ++ t) = t
  simp (disch := omega) only [field_hi, field_lo, Nat.reduceSub, BitVec.extractLsb'_eq_self]
@[simp] theorem tableFn_masked (t : BitVec 8) : ((tableFn t) &&& 7936#13) = 0 := padded_masked t _
@[simp] theorem cvtFn_9_4 (f : BitVec 4) (p : BitVec 4) : (cvtFn f p).extractLsb' 9 4 = f := by
  show BitVec.extractLsb' 9 4 (f ++ 0#5 ++ p) = f
  simp (disch := omega) only [field_hi, field_lo, Nat.reduceSub, BitVec.extractLsb'_eq_self]
@[simp] theorem cvtFn_0_4 (f : BitVec 4) (p : BitVec 4) : (cvtFn f p).extractLsb' 0 4 = p := by
  show BitVec.extractLsb' 0 4 (f ++ 0#5 ++ p) = p
  simp (disch := omega) only [field_hi, field_lo, Nat.reduceSub, BitVec.extractLsb'_eq_self]
@[simp] theorem cvtFn_masked (f : BitVec 4) (p : BitVec 4) : ((cvtFn f p) &&& 496#13) = 0 := by
  show ((f ++ 0#5 ++ p) &&& (0#4 ++ BitVec.allOnes 5 ++ 0#4)) = 0
  simp only [BitVec.and_append, BitVec.and_zero, BitVec.zero_and]; rfl
@[simp] theorem scaleFn_9_4 (f : BitVec 4) (s : BitVec 4) (b : Bool) (p : BitVec 4) : (scaleFn f s b p).extractLsb' 9 4 = f := by
  show BitVec.extractLsb' 9 4 (f ++ s ++ bit b ++ p) = f
  simp (disch := omega) only [field_hi, field_lo, Nat.reduceSub, BitVec.extractLsb'_eq_self]
@[simp] theorem scaleFn_5_4 (f : BitVec 4) (s : BitVec 4) (b : Bool) (p : BitVec 4) : (scaleFn f s b p).extractLsb' 5 4 = s := by
  show BitVec.extractLsb' 5 4 (f ++ s ++ bit b ++ p) = s
  simp (disch := omega) only [field_hi, field_lo, Nat.reduceSub, BitVec.extractLsb'_eq_self]
@[simp] theorem scaleFn_0_4 (f : BitVec 4) (s : BitVec 4) (b : Bool) (p : BitVec 4) : (scaleFn f s b p).extractLsb' 0 4 = p := by
  show BitVec.extractLsb' 0 4 (f ++ s ++ bit b ++ p) = p
  simp (disch := omega) only [field_hi, field_lo, Nat.reduceSub, BitVec.extractLsb'_eq_self]
@[simp] theorem scaleFn_4 (f : BitVec 4) (s : BitVec 4) (b : Bool) (p : BitVec 4) : (scaleFn f s b p).getLsbD 4 = b := by
  show BitVec.getLsbD (f ++ s ++ bit b ++ p) 4 = b
  simp only [BitVec.getLsbD_append]; cases b <;> rfl
@[simp] theorem scaleFn_at4 (f : BitVec 4) (s : BitVec 4) (b : Bool) (p : BitVec 4) : (scaleFn f s b p)[4] = b := scaleFn_4 f s b p
@[simp] theorem redFn_9_4 (f : BitVec 4) : (redFn f).extractLsb' 9 4 = f := by
  show BitVec.extractLsb' 9 4 (f ++ 0#9) = f
  simp (disch := omega) only [field_hi, field_lo, Nat.reduceSub, BitVec.extractLsb'_eq_self]
@[simp] theorem redFn_masked (f : BitVec 4) : ((redFn f) &&& 511#13) = 0 := by
  show ((f ++ 0#9) &&& (0#4 ++ BitVec.allOnes 9)) = 0
  simp only [BitVec.and_append, BitVec.and_zero, BitVec.zero_and]; rfl
@[simp] theorem loadFn_0_2 (c : BitVec 2) (w : BitVec 2) : (loadFn c w).extractLsb' 0 2 = w := by
  show BitVec.extractLsb' 0 2 (0#9 ++ (c ++ w)) = w
  simp (disch := omega) only [field_hi, field_lo, Nat.reduceSub, BitVec.extractLsb'_eq_self]
@[simp] theorem loadFn_2_2 (c : BitVec 2) (w : BitVec 2) : (loadFn c w).extractLsb' 2 2 = c := by
  show BitVec.extractLsb' 2 2 (0#9 ++ (c ++ w)) = c
  simp (disch := omega) only [field_hi, field_lo, Nat.reduceSub, BitVec.extractLsb'_eq_self]
@[simp] theorem loadFn_masked (c : BitVec 2) (w : BitVec 2) : ((loadFn c w) &&& 8176#13) = 0 := padded_masked (c ++ w) _
@[simp] theorem rsFn_0 (c : Bool) (r : Bool) : (rsFn c r).getLsbD 0 = r := by
  show BitVec.getLsbD (0#11 ++ (bit c ++ bit r)) 0 = r
  simp only [BitVec.getLsbD_append]; cases r <;> rfl
@[simp] theorem rsFn_at0 (c : Bool) (r : Bool) : (rsFn c r)[0] = r := rsFn_0 c r
@[simp] theorem rsFn_1 (c : Bool) (r : Bool) : (rsFn c r).getLsbD 1 = c := by
  show BitVec.getLsbD (0#11 ++ (bit c ++ bit r)) 1 = c
  simp only [BitVec.getLsbD_append]; cases c <;> rfl
@[simp] theorem rsFn_at1 (c : Bool) (r : Bool) : (rsFn c r)[1] = c := rsFn_1 c r
@[simp] theorem rsFn_masked (c : Bool) (r : Bool) : ((rsFn c r) &&& 8188#13) = 0 := padded_masked (bit c ++ bit r) _
@[simp] theorem invFn_0_2 (s : BitVec 2) (k : BitVec 2) : (invFn s k).extractLsb' 0 2 = k := by
  show BitVec.extractLsb' 0 2 (0#9 ++ (s ++ k)) = k
  simp (disch := omega) only [field_hi, field_lo, Nat.reduceSub, BitVec.extractLsb'_eq_self]
@[simp] theorem invFn_2_2 (s : BitVec 2) (k : BitVec 2) : (invFn s k).extractLsb' 2 2 = s := by
  show BitVec.extractLsb' 2 2 (0#9 ++ (s ++ k)) = s
  simp (disch := omega) only [field_hi, field_lo, Nat.reduceSub, BitVec.extractLsb'_eq_self]
@[simp] theorem copyFn_9_4 (f : BitVec 4) (v : Bool) (a : Bool) (s : BitVec 2) (x : Bool) (y : Bool) (c : BitVec 3) : (copyFn f v a s x y c).extractLsb' 9 4 = f := by
  show BitVec.extractLsb' 9 4 (f ++ bit v ++ bit a ++ s ++ bit x ++ bit y ++ c) = f
  simp (disch := omega) only [field_hi, field_lo, Nat.reduceSub, BitVec.extractLsb'_eq_self]
@[simp] theorem copyFn_5_2 (f : BitVec 4) (v : Bool) (a : Bool) (s : BitVec 2) (x : Bool) (y : Bool) (c : BitVec 3) : (copyFn f v a s x y c).extractLsb' 5 2 = s := by
  show BitVec.extractLsb' 5 2 (f ++ bit v ++ bit a ++ s ++ bit x ++ bit y ++ c) = s
  simp (disch := omega) only [field_hi, field_lo, Nat.reduceSub, BitVec.extractLsb'_eq_self]
@[simp] theorem copyFn_0_3 (f : BitVec 4) (v : Bool) (a : Bool) (s : BitVec 2) (x : Bool) (y : Bool) (c : BitVec 3) : (copyFn f v a s x y c).extractLsb' 0 3 = c := by
  show BitVec.extractLsb' 0 3 (f ++ bit v ++ bit a ++ s ++ bit x ++ bit y ++ c) = c
  simp (disch := omega) only [field_hi, field_lo, Nat.reduceSub, BitVec.extractLsb'_eq_self]
@[simp] theorem copyFn_8 (f : BitVec 4) (v : Bool) (a : Bool) (s : BitVec 2) (x : Bool) (y : Bool) (c : BitVec 3) : (copyFn f v a s x y c).getLsbD 8 = v := by
  show BitVec.getLsbD (f ++ bit v ++ bit a ++ s ++ bit x ++ bit y ++ c) 8 = v
  simp only [BitVec.getLsbD_append]; cases v <;> rfl
@[simp] theorem copyFn_at8 (f : BitVec 4) (v : Bool) (a : Bool) (s : BitVec 2) (x : Bool) (y : Bool) (c : BitVec 3) : (copyFn f v a s x y c)[8] = v := copyFn_8 f v a s x y c
@[simp] theorem copyFn_7 (f : BitVec 4) (v : Bool) (a : Bool) (s : BitVec 2) (x : Bool) (y : Bool) (c : BitVec 3) : (copyFn f v a s x y c).getLsbD 7 = a := by
  show BitVec.getLsbD (f ++ bit v ++ bit a ++ s ++ bit x ++ bit y ++ c) 7 = a
  simp only [BitVec.getLsbD_append]; cases a <;> rfl
@[simp] theorem copyFn_at7 (f : BitVec 4) (v : Bool) (a : Bool) (s : BitVec 2) (x : Bool) (y : Bool) (c : BitVec 3) : (copyFn f v a s x y c)[7] = a := copyFn_7 f v a s x y c
@[simp] theorem copyFn_4 (f : BitVec 4) (v : Bool) (a : Bool) (s : BitVec 2) (x : Bool) (y : Bool) (c : BitVec 3) : (copyFn f v a s x y c).getLsbD 4 = x := by
  show BitVec.getLsbD (f ++ bit v ++ bit a ++ s ++ bit x ++ bit y ++ c) 4 = x
  simp only [BitVec.getLsbD_append]; cases x <;> rfl
@[simp] theorem copyFn_at4 (f : BitVec 4) (v : Bool) (a : Bool) (s : BitVec 2) (x : Bool) (y : Bool) (c : BitVec 3) : (copyFn f v a s x y c)[4] = x := copyFn_4 f v a s x y c
@[simp] theorem copyFn_3 (f : BitVec 4) (v : Bool) (a : Bool) (s : BitVec 2) (x : Bool) (y : Bool) (c : BitVec 3) : (copyFn f v a s x y c).getLsbD 3 = y := by
  show BitVec.getLsbD (f ++ bit v ++ bit a ++ s ++ bit x ++ bit y ++ c) 3 = y
  simp only [BitVec.getLsbD_append]; cases y <;> rfl
@[simp] theorem copyFn_at3 (f : BitVec 4) (v : Bool) (a : Bool) (s : BitVec 2) (x : Bool) (y : Bool) (c : BitVec 3) : (copyFn f v a s x y c)[3] = y := copyFn_3 f v a s x y c
@[simp] theorem dirField_0 (b : Bool) : (dirField b).getLsbD 0 = b := by
  show BitVec.getLsbD (0#4 ++ bit b) 0 = b
  simp only [BitVec.getLsbD_append]; cases b <;> rfl
@[simp] theorem dirField_at0 (b : Bool) : (dirField b)[0] = b := dirField_0 b
@[simp] theorem qField_0_4 (q : BitVec 4) : (qField q).extractLsb' 0 4 = q := by
  show BitVec.extractLsb' 0 4 (0#1 ++ q) = q
  simp (disch := omega) only [field_hi, field_lo, Nat.reduceSub, BitVec.extractLsb'_eq_self]
@[simp] theorem qField_masked (q : BitVec 4) : ((qField q) &&& 16#5) = 0 := padded_masked q _
@[simp] theorem qField_lt (q : BitVec 4) : (qField q).toNat = q.toNat := padded_toNat q
@[simp] theorem kField_0_3 (k : BitVec 3) : (kField k).extractLsb' 0 3 = k := by
  show BitVec.extractLsb' 0 3 (0#2 ++ k) = k
  simp (disch := omega) only [field_hi, field_lo, Nat.reduceSub, BitVec.extractLsb'_eq_self]
@[simp] theorem kField_lt (k : BitVec 3) : (kField k).toNat = k.toNat := padded_toNat k
@[simp] theorem twoField_0_2 (n : BitVec 2) : (twoField n).extractLsb' 0 2 = n := by
  show BitVec.extractLsb' 0 2 (0#3 ++ n) = n
  simp (disch := omega) only [field_hi, field_lo, Nat.reduceSub, BitVec.extractLsb'_eq_self]
@[simp] theorem twoField_masked (n : BitVec 2) : ((twoField n) &&& 28#5) = 0 := padded_masked n _
@[simp] theorem twoField_lt (n : BitVec 2) : (twoField n).toNat = n.toNat := padded_toNat n
@[simp] theorem dirField_le (b : Bool) : (dirField b).toNat ≤ 1 := by cases b <;> decide
@[simp] theorem dirField_eq (b : Bool) : (dirField b == 1#5) = b := by cases b <;> rfl
@[simp] theorem dirField_eq' (b : Bool) : (dirField b = 1#5) ↔ b = true := by cases b <;> decide
@[simp] theorem qField_zero (q : BitVec 4) : (qField q = 0#5) ↔ q = 0#4 := by
  constructor
  · intro h; have := qField_0_4 q; rw [h] at this; simpa using this.symm
  · rintro rfl; rfl

/-! ### Groups of fields -/

/-- The order of a load, a store or an object operation is read back. -/
@[simp] theorem ordScope_code {r : Raw} {o : Option Scope} (h : r.scope = ordScopeCode o) : r.ordScope o.isSome = .ok o := by
  cases o with
  | none => simp [Raw.ordScope, h, ordScopeCode]
  | some s => simp [Raw.ordScope, h, ordScopeCode]
@[simp] theorem relaxed_code : ordScopeCode none = 0#3 := rfl
@[simp] theorem rm_code_zero (m : Rm) : m.code = 0#3 ↔ m = .rne := by cases m <;> decide
/-- A rounding mode other than 5 is read back. -/
theorem rm4_code {r : Raw} {m : Rm} (h : r.rm = m.code) (hm : m.direct = true) : r.rm4 = .ok m := by
  cases m <;> simp_all [Raw.rm4, Rm.direct]


@[simp] theorem copyTyped_k (o : CopySpec) : o.typed.extractLsb' 16 3 = 0#3 := by
  unfold CopySpec.typed; split <;> simp

theorem okBarrier_xm {o : CopySpec} {ch xm cv : Bool} (h : o.okBarrier ch xm cv = true) : xm = false ∨ 3 ≤ o.scope.rank := by
  rcases o with ⟨_, _, _, sc, _, _⟩
  cases xm
  · simp
  · cases sc <;> simp_all [CopySpec.okBarrier, Scope.rank, Scope.code]
theorem direct_iff (m : Rm) : m.direct = true ↔ m ≠ .rs := by cases m <;> decide

/-- The operands of a copy that its opcode admits are read back (R193, R194). -/
theorem copySpec_typed {r : Raw} {o : CopySpec} {n : Nat} (ht : r.t = o.typed) (hn : r.opc.toNat = n)
    (h : (if (copyRow n).inPkg then o.okInPkg (copyRow n).chan && !(copyRow n).toXm
          else o.okBarrier (copyRow n).chan (copyRow n).toXm (copyRow n).conv) = true) : r.copySpec = .ok o := by
  simp only [Raw.copySpec, Raw.fn, Raw.fmt, Raw.rm, Raw.sat, Raw.c, Raw.scope, Raw.sc, hn, ht]
  generalize copyRow n = row at h
  obtain ⟨ip, ch, xm, cvr⟩ := row
  obtain ⟨db, sb, c, sc, chn, cv⟩ := o
  cases ip
  · have hx := okBarrier_xm (by simpa using h)
    simp only [CopySpec.okBarrier, Bool.false_eq_true, if_false] at h
    rcases cv with _ | ⟨f, g, m, s⟩
    · rcases sb with _ | _ | _ <;> rcases db with _ | _ | _ | _ | _ <;>
        first
        | (simp at h; done)
        | (simp [-BitVec.extractLsb'_toNat, CopySpec.typed, CopySpec.fnWord, must, bind, Except.bind, pure, Except.pure, dbsCode] at h ⊢
           simp [h, hx, ObjSpace.ofCode])
    · have hm : m.direct = true := by simp at h; exact h.2.2
      rw [rm4_code (r := r) (m := m) (by rw [Raw.rm, ht]; simp [CopySpec.typed]) hm]
      rcases sb with _ | _ | _ <;> rcases db with _ | _ | _ | _ | _ <;>
        first
        | (simp at h; done)
        | (simp [-BitVec.extractLsb'_toNat, CopySpec.typed, CopySpec.fnWord, must, bind, Except.bind, pure, Except.pure, dbsCode] at h ⊢
           simp [h, hx, ObjSpace.ofCode])
  · simp only [CopySpec.okInPkg, if_true, Bool.and_eq_true, Option.isNone_iff_eq_none, beq_iff_eq] at h
    obtain ⟨⟨⟨⟨⟨⟨rfl, rfl⟩, rfl⟩, rfl⟩, rfl⟩, hc⟩, hx⟩ := h
    simp only [Bool.or_eq_true, beq_iff_eq, Bool.not_eq_true'] at hc hx
    replace hc : ch = true ∨ chn = 0#3 := hc
    simp [-BitVec.extractLsb'_toNat, CopySpec.typed, CopySpec.fnWord, must, bind, Except.bind, pure, Except.pure, dbsCode, hc, Fmt.code, Scope.code, Scope.ofCode, hx]

/-- A release in XM has scope dom or sys. -/
theorem atomOk_xm {o : AtomSpec} {xm : Bool} (h : o.ok xm = true) :
    (match o.ord with | .rel s | .acqrel s => xm = false ∨ 3 ≤ s.rank | _ => True) := by
  obtain ⟨op, fmt, rm, sat, c, ord⟩ := o
  rcases ord with _ | s | s | s <;> first | trivial | (cases xm <;> cases s <;> simp_all [AtomSpec.ok, Scope.rank, Scope.code])

/-- The operands of an atomic that its unit admits are read back (R204). -/
theorem atomSpec_typed {r : Raw} {o : AtomSpec} {xm : Bool} (ht : r.t = o.typed) (h : o.ok xm = true) : r.atomSpec xm = .ok o := by
  have hx := atomOk_xm h
  obtain ⟨op, fmt, rm, sat, c, ord⟩ := o
  have hm : rm.direct = true := by simp [AtomSpec.ok] at h; exact h.1.1.1.2
  simp only [Raw.atomSpec, rm4_code (r := r) (m := rm) (by rw [Raw.rm, ht]; simp [AtomSpec.typed]) hm]
  simp only [Raw.fn, Raw.fmt, Raw.rm, Raw.sat, Raw.c, Raw.scope, Raw.sc, ht]
  rcases ord with _ | s | s | s <;>
    simp [-BitVec.extractLsb'_toNat, AtomSpec.typed, AtomSpec.ok, AtomOrd.code, AtomOrd.scopeCode, must, bind, Except.bind, pure, Except.pure,
      Fmt.isWord, show Scope.ofCode 0#3 = some .core from rfl] at h hx ⊢ <;>
    cases op <;> simp_all

/-- The operands of a collective are read back (R206). -/
theorem collSpec_typed {r : Raw} {o : CollSpec} {f : Fmt} {m : BitVec 3} {s : Bool} (ht : r.t = o.typed f m s)
    (hi : r.imm = tagWord o.tag o.arg) (h : o.ok = true) : r.collSpec = .ok o := by
  obtain ⟨lvl, db, sb, c, sc, ch, tag, arg⟩ := o
  simp only [Raw.collSpec, Raw.fn, Raw.c, Raw.scope, Raw.sc, Raw.im, ht, hi]
  rcases sb with _ | _ | _ <;> rcases db with _ | _ | _ <;> cases lvl <;>
    simp [-BitVec.extractLsb'_toNat, CollSpec.typed, CollSpec.ok, CollLvl.code, must, bind, Except.bind, pure, Except.pure] at h ⊢ <;>
    simp [h]

@[simp] theorem atomTyped_k (o : AtomSpec) : o.typed.extractLsb' 16 3 = 0#3 := by simp [AtomSpec.typed]
@[simp] theorem atomTyped_masked (o : AtomSpec) : o.typed.extractLsb' 0 13 &&& 8128#13 = 0 := by simp [AtomSpec.typed]
@[simp] theorem fenceForm_masked (f : FenceForm) : f.code &&& 8188#13 = 0 := by cases f <;> decide
@[simp] theorem accqSel_masked (f : AccqSel) : f.code &&& 8188#13 = 0 := by cases f <;> decide
/-- Stream and mask numbers are within their files. -/
@[simp] theorem four_lt (q : BitVec 4) : q.toNat < 16 := q.isLt
@[simp] theorem three_lt (q : BitVec 3) : q.toNat < 8 := q.isLt
/-- The order of a load, a store or an object operation is read back, whatever holds its flag. -/
theorem ordScope_code' {r : Raw} {o : Option Scope} {b : Bool} (h : r.scope = ordScopeCode o) (hb : b = o.isSome) :
    r.ordScope b = .ok o := by subst hb; exact ordScope_code h

@[simp] theorem objFn_plain_masked (b : Bool) (s : BitVec 2) : objFn 0#3 b s &&& 8184#13 = 0 := by cases b <;> revert s <;> decide
@[simp] theorem objSpace_xm (s : ObjSpace) : s.code = 3#2 ↔ s = .xm := by cases s <;> decide
section Collective
variable (o : CollSpec) (f : Fmt) (m : BitVec 3) (s : Bool)
@[simp] theorem collTyped_fmt : (o.typed f m s).extractLsb' 28 4 = f.code := by simp [CollSpec.typed]
@[simp] theorem collTyped_rm : (o.typed f m s).extractLsb' 25 3 = m := by simp [CollSpec.typed]
@[simp] theorem collTyped_sat : (o.typed f m s)[24] = s := by simp [CollSpec.typed]
@[simp] theorem collTyped_k : (o.typed f m s).extractLsb' 16 3 = 0#3 := by simp [CollSpec.typed]
@[simp] theorem collTyped_masked : (o.typed f m s).extractLsb' 0 13 &&& 7680#13 = 0 := by simp [CollSpec.typed]
end Collective
@[simp] theorem tagWord_low_zero (g : BitVec 10) : tagWord g 0#22 &&& 4194303#32 = 0 := by
  show ((g ++ 0#22) &&& (0#10 ++ BitVec.allOnes 22)) = 0
  simp only [BitVec.and_append, BitVec.and_zero, BitVec.zero_and]; rfl
/-- The format groups cover every format (R216). -/
theorem fmt_group (f : Fmt) : (f.isF || f.isP || f.isI) = true := by cases f <;> decide
@[simp] theorem nstatSel_masked (f : NstatSel) : f.code.toNat < 3 := by cases f <;> decide

end Sys2Proof.Laws
end

