-- ==== Sys2Proof/Safety.lean ====
section
/-! DEFINITION. The terms in which claims are made: what a safe step is, when an instruction issues, what an issue records and what it
leaves alone, and the views of registers and memory that frames speak of. -/

namespace Sys2Proof.Machine

/-! ### Safe steps -/

/-- A step that goes on: neither a fault nor a refusal. -/
def State.Safe (s : State) : Prop := ∃ t, step s = .next t

/-! ### Issue -/

/-- The strand has its issue turn, and the conditions of R35, R36 and R152 let an instruction with the demands `r` issue now. -/
def State.Issues (s : State) (c : CoreId) (st : StrandId) (h : Hdr) (r : Req) : Prop :=
  s.cur = some (c, st) ∧ s.ready c st h r

/-- The strand without the record of what it has issued and waits for: registers, level, FCSR, SBOUND and trap registers remain. -/
def Strand.storage (t : Strand) : Strand :=
  { t with pos := 0, reach := .seq, prev := none, base := 0, wait := none, blocked := none, trapDue := none, loops := [], ipend := none
           flights := [], ord := 0, seq := 0, outs := [], seen := [], queue := [], due := [], holds := [], marks := Vector.replicate 16 0
           lastCall := none }
/-- The core without its strands' records, its token FIFOs and its monitor blocks: registers, memories and engines remain. -/
def Core.storage (k : Core) : Core :=
  { k with strands := k.strands.map Strand.storage, fifos := Vector.replicate 8 {}, caps := Vector.replicate 4 {} }
/-- The state without the record of what has issued and is pending, and without the notices of discarded interrupts: every register, every memory and
every unit remain. Two states with the same storage agree in every register but the positions and in every byte of memory. -/
def State.storage (s : State) : State :=
  { s with cores := s.cores.map Core.storage, cal := [], order := 0, choice := 0, lib := { s.lib with discards := [] } }

/-- After an issue in the present cycle the strand stands at the next position, of a hardware loop where one ends here, and its next
instruction may issue from the next cycle (R35, R165, R170). -/
structure State.Advanced (s t : State) (c : CoreId) (st : StrandId) : Prop where
  prev : (t.strand c st).prev = some (s.now c st)
  base : (t.strand c st).base = s.now c st + 1
  ord : (t.strand c st).ord = (s.strand c st).ord + 1
  pos : (t.strand c st).pos = (loopStep (s.fetchMem c st) (s.strand c st)).1
  reach : (t.strand c st).reach = (loopStep (s.fetchMem c st) (s.strand c st)).2.1
  loops : (t.strand c st).loops = (loopStep (s.fetchMem c st) (s.strand c st)).2.2

/-- Work stands in the calendar, due at a reading of a clock. -/
def State.Pending (t : State) (k : Clock) (due prio : Nat) (w : Work) : Prop := ∃ n, (⟨k, due, prio, n, w⟩ : Due) ∈ t.cal

/-- A result of the instruction that the strand has at its position, with the pushes of its token bits. -/
def State.resultOf (s : State) (c : CoreId) (st : StrandId) (h : Hdr) (res : Result) : Result :=
  { res with pushP := h.pap, pushN := h.pan, pos := (s.strand c st).pos, ord := (s.strand c st).ord }

/-- The result is in flight after the issue: written `lat` cycles after it, when its data is ready by a write that is pending; only a
scalar load, whose data comes later, keeps the tokens it popped (R179). -/
structure State.Flies (s t : State) (c : CoreId) (st : StrandId) (lat : Nat) (res : Result) (ready arith : Bool) : Prop where
  flight : ∃ pops, (ready = true → pops = []) ∧ (t.strand c st).flights = (s.strand c st).flights ++
    [{ ord := (s.strand c st).ord, w := s.now c st + lat, res := res, ready := ready, sys := (s.strand c st).level, arith := arith, pops := pops }]
  write : ready = true → t.Pending (s.clock c st) (s.now c st + lat) (writePrio st (s.strand c st).ord) (.flight c st (s.strand c st).ord)

/-- The pushes of the token bits are pending `lat` cycles after the issue (R40). -/
def State.Pushes (s t : State) (c : CoreId) (st : StrandId) (h : Hdr) (lat : Nat) : Prop :=
  (h.pap || h.pan) = true → t.Pending (s.clock c st) (s.now c st + lat) latePrio (.push c st h.pap.toNat h.pan.toNat)

/-- The instruction issues, its one effect is a result written `lat` cycles later, and what the machine stores is then as in `u`. -/
def State.YieldsIn (s u : State) (c : CoreId) (st : StrandId) (h : Hdr) (i : Instr) (lat : Nat) (res : Result) (arith : Bool) : Prop :=
  ∃ t, exec i s = .next t ∧ s.Advanced t c st ∧ s.Flies t c st lat (s.resultOf c st h res) true arith ∧ t.storage = u.storage
/-- The instruction issues, its one effect is a result written `lat` cycles later, and nothing else that the machine stores changes. -/
def State.Yields (s : State) (c : CoreId) (st : StrandId) (h : Hdr) (i : Instr) (lat : Nat) (res : Result) (arith : Bool) : Prop :=
  s.YieldsIn s c st h i lat res arith
/-- An element-wise vector instruction yields the listed elements of v[D], each computed from its number, with the union of their flags;
under stochastic rounding the result carries both neighbours of each element, of which its write chooses (R65, R213). -/
def State.YieldsElems (s : State) (c : CoreId) (st : StrandId) (h : Hdr) (i : Instr) (d : VReg) (w : Nat) (js : List Nat) (rm : Rm)
    (lat : Nat) (op : Nat → Nat → Nat × Flg) : Prop := s.Yields c st h i lat (elemsResult d w js rm op) true

/-- The strand waits after its issue for a reason, from the issue cycle and within its bound, at the instruction's position; its pushes are
made when the wait ends (R40, R41). -/
def State.WaitsFor (s t : State) (c : CoreId) (st : StrandId) (h : Hdr) (why : Why) (d : XReg) : Prop :=
  ∃ w, (t.strand c st).wait = some w ∧ w.why = why ∧ w.start = s.now c st ∧ w.bound = boundOf h (s.strand c st) ∧
    w.pos = (s.strand c st).pos ∧ w.ord = (s.strand c st).ord ∧ w.dest = d ∧ w.pushP = h.pap ∧ w.pushN = h.pan

/-- Nothing keeps an access of the strand in its memory queue: in `q`, the strand as its issue leaves it, no hold and no superstep stands
before it, it needs nothing, and no older access stands in the queue (R102, R106). -/
def State.Free (s : State) (q : Strand) (c : CoreId) (st : StrandId) (needs : List Need) : Prop :=
  q.holds = [] ∧ q.due = [] ∧ s.queueOf c st = [] ∧ needs = []

/-- An access of the instruction is on its way: when nothing in the issuing strand `q` (as its issue leaves it) holds it, its work falls
due `lat` cycles after the issue; otherwise it stands in the strand's memory queue from the issue cycle on (R102, R106, R164). -/
def State.Sends (s t : State) (q : Strand) (c : CoreId) (st : StrandId) (seq : Nat) (storing : Bool) (needs : List Need) (lat prio : Nat)
    (w : Work) : Prop :=
  (s.Free q c st needs → t.Pending (s.clock c st) (s.now c st + lat) prio w) ∧
  (¬s.Free q c st needs →
    t.Pending (s.clock c st) (s.now c st) (queuePrio storing) (.queued (s.clock c st) c st (s.strand c st).ord seq storing needs lat prio false w))

/-- As `Sends`, for an access beyond the core's port: its work falls due at a tick that is not exposed (R182, log entry 4). -/
def State.SendsFar (s t : State) (q : Strand) (c : CoreId) (st : StrandId) (seq : Nat) (storing : Bool) (lat : Nat) (w : Work) : Prop :=
  (s.Free q c st [] → ∃ n, t.Pending .hc (s.hc + 1 + Config.delay n) effects w) ∧
  (¬s.Free q c st [] →
    t.Pending (s.clock c st) (s.now c st) (queuePrio storing) (.queued (s.clock c st) c st (s.strand c st).ord seq storing [] lat effects true w))

/-- The core's storage without what its micro-TLB caches and counts. -/
def Core.contents (k : Core) : Core := { k.storage with utlb := [], umiss := 0, walks := 0 }
/-- The storage without what the translation units cache and count: every architectural register but those counts, and every byte of
memory, remain. -/
def State.contents (s : State) : State :=
  { s with cores := s.cores.map Core.contents, cal := [], order := 0, choice := 0, lib := { s.lib with discards := [] }
           xlate := { s.xlate with shared := Vector.replicate 4 [] } }

/-! ### Rounding, as claims speak of it -/

/-- A code without its sign is a finite value of a floating-point format. -/
def finiteCode (f : Fmt) (m : Nat) : Bool :=
  decide (m < 2 ^ (f.bits - 1)) && (match floatValue f m with | .fin false _ _ => true | _ => false)
/-- The finite value of a code without its sign (R54, R56). -/
def magnitude (f : Fmt) (m : Nat) : ℚ := match floatValue f m with | .fin _ n d => (n : ℚ) / d | _ => 0
/-- The least normal magnitude; in TF8 the least magnitude (R54, R61). -/
def minNormal (f : Fmt) : ℚ := magnitude f (if f = .t8 then 2 else 2 ^ fracBits f)
/-- The magnitude at which the top binade, extended upward, goes on after the greatest finite value (R61). -/
def nextMagnitude (f : Fmt) : ℚ := if f = .t8 then 2 ^ 22 else 2 * magnitude f (maxFinite f) - magnitude f (maxFinite f - 1)
/-- A rounding mode takes the neighbour of greater magnitude: `part` is (|x| - |lo|) / (|hi| - |lo|), `r` the stochastic word, `tie` whether a tie of
RM 0 goes there (R57, R60, R65). -/
def takesUpper (rm : Rm) (neg : Bool) (r : Nat) (part : ℚ) (tie : Bool) : Bool :=
  match rm with
  | .rne => decide (1 / 2 < part) || (decide (part = 1 / 2) && tie)
  | .rz => false
  | .rdn => neg
  | .rup => !neg
  | .rna => decide (1 / 2 ≤ part)
  | .rs => decide ((r : ℚ) < part * 2 ^ 32)
/-- A code with its sign; TF8 has one zero (R58). -/
def signedCode (f : Fmt) (neg : Bool) (m : Nat) : Nat := if f = .t8 ∧ m = 0 then 0 else signBit f neg + m

/-! ### Registers of a strand and memory of a core, as frames see them -/

/-- Two strands agree in every register and status but the position (R16, R70, R336). -/
structure SameRegs (a b : Strand) : Prop where
  x : b.x = a.x
  xs : b.xs = a.xs
  level : b.level = a.level
  fcsr : b.fcsr = a.fcsr
  sbound : b.sbound = a.sbound
  tcause : b.tcause = a.tcause
  tepc : b.tepc = a.tepc
  tinfo0 : b.tinfo0 = a.tinfo0
  tinfo1 : b.tinfo1 = a.tinfo1
  tdt : b.tdt = a.tdt
  tprev : b.tprev = a.tprev
  tlsel : b.tlsel = a.tlsel
  tscr : b.tscr = a.tscr
  latches : b.latches = a.latches
  frames : b.frames = a.frames

/-- Two cores agree in every register that their strands share (R17, R30, R66, R85, R108). -/
structure SameCoreRegs (a b : Core) : Prop where
  v : b.v = a.v
  k : b.k = a.k
  q : b.q = a.q
  dom : b.dom = a.dom
  srseed : b.srseed = a.srseed
  gens : b.gens = a.gens
  earlyrd : b.earlyrd = a.earlyrd

/-- Two cores agree in every byte of scratchpad, weight buffer, accumulators, code, handlers, B registers and column scales
(R12, R73, R77, R78, R132, R301). -/
structure SameCoreMem (a b : Core) : Prop where
  ls : b.ls = a.ls
  wb0 : b.wb0 = a.wb0
  wb1 : b.wb1 = a.wb1
  active : b.active = a.active
  acc : b.acc = a.acc
  code : b.code = a.code
  handler : b.handler = a.handler
  breg : b.breg = a.breg
  scales : ∀ hq, (b.hob hq).scales = (a.hob hq).scales

end Sys2Proof.Machine
end

