-- ==== Sys2Proof/Certificates/Slice0/Obligations.lean ====
section
/-! DEFINITION. The statements for the provers. -/

open Sys2Proof Sys2Proof.Machine

/-! ### Encoding -/

/-- Decoding gives back what the encoder wrote, for every well-formed instruction of the opcode map with every operand value that its
encoding admits, whatever words follow (R142 to R150). -/
def Obligations.DecodeGivesBackEncode : Prop :=
  ∀ (i : Instr) (rest : List Word32), i.wellFormed = true → decode (encode i ++ rest) = .ok (i, (encode i).length)

/-- Words written out from the encoding tables decode to the instructions they stand for; most are the manual's own examples. -/
def Obligations.WrittenWordsDecode : Prop :=
  decode [0x00000000] = .ok (.nop {}, 1) ∧
  decode [0x00978800, 0x00000003] = .ok (.li {} 2 3, 2) ∧
  decode [0x20860040, 0x00000008] = .ok (.loop { timing := .after 1 } 2 8, 2) ∧
  decode [0x00940C60, 0x00000005] = .ok (.addi {} 3 3 5, 2) ∧
  decode [0x20961060, 0x00000001] = .ok (.slli { timing := .after 1 } 4 3 1, 2) ∧
  decode [0x21208004, 0xF0000000, 0x00000100] = .ok (.sts { timing := .after 1 } 0 4 .z64 none 0x100, 3) ∧
  decode [0x00070000] = .ok (.retire {}, 1) ∧
  decode [0x00080001] = .ok (.give {} false 1, 1) ∧
  decode [0x006C1401] = .ok (.dsync {} 5 1, 1) ∧
  decode [0x003B1000] = .ok (.flueFree {} 4 false, 1) ∧
  decode [0x00630000] = .ok (.wswap {}, 1) ∧
  decode [0x00D10400, 0x00080000] = .ok (.vrot {} 1 0 1, 2) ∧
  decode [0x00D80420, 0x00180000] = .ok (.vld {} 1 1 3 0, 2) ∧
  decode [0x00D88063, 0x00280000] = .ok (.vst {} 3 3 5 0, 2) ∧
  decode [0x00C18C01, 0x10100000] = .ok (.vfma {} 3 0 1 2 0 .f32 .rne false, 2) ∧
  decode [0xE1400820, 0x00000014, 0x12000000] = .ok (.vadd { timing := .stamped 20 } 2 1 0 0 .f32 .rz false, 3) ∧
  decode [0x00E00000, 0x00000AA3] = .ok (.hcut {} 3 0xAA, 2) ∧
  decode [0x00E08000, 0x000000D2] = .ok (.hchain {} 2 0 0xD, 2)

/-- Words that do not decode raise the kind of R152: an opcode that the opcode map does not assign, the rows 0x18, 0x48, 0xB8 and 0xC8, every OPC from
0xF0 on and every single cell without a mnemonic, raises kind 0, whatever the rest of the word and the words after it. A LEN that is neither the
number of words that DLY and the opcode require nor one more raises kind 3, or kind 2 where a reserved field that DLY and the opcode still give a role
is not zero, for every assigned opcode; shown exactly for an opcode of each class of R150 (R143, R149, R150, R152). That such a word's missing
extension words read as 0 and a surplus one has no role is the model's reading (log entry 7). -/
def Obligations.RejectedWordsRaiseTheirKind : Prop :=
  ∀ (w : Word32) (ws : List Word32),
    let opc := w.extractLsb' 15 8
    let n := opc.toNat
    let len := (w.extractLsb' 23 2).toNat
    let stamp := if (w.extractLsb' 29 3).toNat = 7 then 1 else 0
    let assigned : Prop := n ≤ 0x17 ∨ (0x20 ≤ n ∧ n ≤ 0x47) ∨ (0x50 ≤ n ∧ n ≤ 0x76) ∨ (0x78 ≤ n ∧ n ≤ 0x7E) ∨ (0x80 ≤ n ∧ n ≤ 0xB3) ∨
      (0xC0 ≤ n ∧ n ≤ 0xC6) ∨ (0xD0 ≤ n ∧ n ≤ 0xD4) ∨ n = 0xD8 ∨ (0xE0 ≤ n ∧ n ≤ 0xE8)
    let typed : Prop := n = 0x13 ∨ (0x40 ≤ n ∧ n ≤ 0x47) ∨ (0x58 ≤ n ∧ n ≤ 0x73) ∨ (0x78 ≤ n ∧ n ≤ 0xB3) ∨ (0xC2 ≤ n ∧ n ≤ 0xC4) ∨
      (0xD0 ≤ n ∧ n ≤ 0xD4) ∨ n = 0xE4
    let immed : Prop := n ∈ [0x01, 0x02, 0x04, 0x05, 0x06, 0x07, 0x08, 0x09, 0x0A, 0x0C, 0x0D, 0x0F, 0x15, 0x17] ∨ (0x28 ≤ n ∧ n ≤ 0x30) ∨ n = 0x33 ∨
      (0x40 ≤ n ∧ n ≤ 0x47) ∨ n ∈ [0x50, 0x51, 0x52, 0x54, 0x56, 0x57, 0x6B, 0x78, 0x79, 0x7A] ∨ (0xC0 ≤ n ∧ n ≤ 0xC5) ∨ n = 0xD0 ∨
      (0xE0 ≤ n ∧ n ≤ 0xE3) ∨ n = 0xE8
    let needs (k : Nat) : Prop := ∃ t i : Nat, (typed ∧ t = 1 ∨ ¬typed ∧ t = 0) ∧ (immed ∧ i = 1 ∨ ¬immed ∧ i = 0) ∧ k = stamp + t + i
    (¬assigned → decode (w :: ws) = .error 0) ∧
    (∀ k, assigned → needs k → len ≠ k → len ≠ k + 1 → decode (w :: ws) = .error 2 ∨ decode (w :: ws) = .error 3) ∧
    (n = 0x20 → len ≠ stamp → len ≠ stamp + 1 → decode (w :: ws) = .error 3) ∧
    (n = 0x28 → w.extractLsb' 0 5 = 0 → len ≠ stamp + 1 → len ≠ stamp + 2 → decode (w :: ws) = .error 3) ∧
    (n = 0x28 → w.extractLsb' 0 5 ≠ 0 → decode (w :: ws) = .error 2) ∧
    (n = 0x80 → (stamp < len → ws.getD stamp 0 = 0) → len ≠ stamp + 1 → len ≠ stamp + 2 → decode (w :: ws) = .error 3) ∧
    (n = 0x40 → w.extractLsb' 0 5 = 0 → (stamp < len → ws.getD stamp 0 = 0) → len ≠ stamp + 2 → len ≠ stamp + 3 → decode (w :: ws) = .error 3)

/-! ### Steps -/

/-- A step runs the decoded instruction: when nothing else is due and it is the turn of a strand that may issue, whose words decode to an
instruction, the step is what `exec` makes of that instruction in the state of the strand's turn (R35; log entry 1). Where a store of the core holds
an error: a line of the code store with an uncorrectable one is MEMERR at user level, at the strand's position; else the fetch counts corrected errors,
and an instruction that issues is judged by the vector registers that it read (R385; log entry 42). -/
def Obligations.StepRunsTheDecodedInstruction : Prop :=
  ∀ (s : State) (c : CoreId) (st : StrandId) (rest : List (CoreId × StrandId)) (i : Instr) (n : Nat),
    s.inbox = [] → s.power = true → s.opening = none → s.nextItem = none → s.todo = (c, st) :: rest →
    s.canRun c st = true → s.poisonDue c st = none → (s.strand c st).trapDue = none → s.interruptDue c st = none →
    (s.strand c st).wait = none → (s.strand c st).base ≤ s.now c st →
    fetchFault ((s.core c).store (s.strand c st).level).1 ((s.core c).store (s.strand c st).level).2 st (s.strand c st).pos
      (s.strand c st).reach = none →
    decode (fetchWords (s.fetchMem c st) (s.strand c st).pos) = .ok (i, n) →
    let u : State := { s with todo := rest, cur := some (c, st) }
    let line := (s.strand c st).pos / 16
    let user := (s.strand c st).level = false
    let lost := user ∧ line ∈ (s.core c).badCode
    ((s.core c).badCode = [] → (s.core c).badV = [] → (s.core c).corr = [] → step s = exec i u) ∧
    (lost → ∃ a t, step s = .next t ∧ (t.strand c st).level = true ∧ (t.strand c st).tcause.toNat % 256 = 11 ∧
      (t.strand c st).tepc = BitVec.ofNat 64 ((s.strand c st).pos % 2 ^ 15) ∧ (t.strand c st).tinfo0 = a ∧ t.gm = s.gm) ∧
    (¬lost → ∃ v : State, v.cores = u.cores ∧ v.gm = u.gm ∧ v.cal = u.cal ∧ v.bindings = u.bindings ∧ (¬user → v = u) ∧
      ∀ t, exec i v = .next t → step s = .next (v.judgeSources t c st i (v.headerAt c st)))

/-- A strand that stands at a position that breaks the code image takes the code-image fault there, with its kind and the line reached; one
that stands at words that do not decode takes the illegal-instruction fault with the base word when the word's delay is over, a stamped word in the
cycle in which the strand reaches it: of kind 0 exactly when the opcode map does not assign the opcode, else of kind 1 exactly when the words may not
stand on the strand, else of the kind that the decoder gives (log entry 7 where LEN is wrong). Nothing issues (R34, R36, R152, R336). -/
def Obligations.StepTrapsOnBadFetches : Prop :=
  ∀ (s : State) (c : CoreId) (st : StrandId) (rest : List (CoreId × StrandId)),
    s.inbox = [] → s.power = true → s.opening = none → s.nextItem = none → s.todo = (c, st) :: rest →
    s.canRun c st = true → s.poisonDue c st = none → (s.strand c st).trapDue = none → s.interruptDue c st = none →
    (s.strand c st).wait = none →
    let u : State := { s with todo := rest, cur := some (c, st) }
    let bad := fetchFault ((s.core c).store (s.strand c st).level).1 ((s.core c).store (s.strand c st).level).2 st (s.strand c st).pos
      (s.strand c st).reach
    let ws := fetchWords (s.fetchMem c st) (s.strand c st).pos
    (∀ kind line, bad = some (kind, line) → (s.strand c st).base ≤ s.now c st →
      step s = .next (u.trap c st { cause := 4, epc := (s.strand c st).pos, i0 := BitVec.ofNat 64 kind, i1 := BitVec.ofNat 64 line })) ∧
    (∀ (k : Nat), bad = none → (s.core c).badCode = [] → (s.core c).corr = [] → decode ws = .error k → (s.strand c st).base ≤ s.now c st →
      let ill (kind : Nat) : State := u.trap c st
        { cause := 3, epc := (s.strand c st).pos, i0 := BitVec.ofNat 64 kind, i1 := (s.baseWord c st).setWidth 64 }
      let dly := match (hdrOf (s.baseWord c st) 0 none).timing with | .after d => d.val | .stamped _ => 0
      (s.now c st < (s.strand c st).base + dly → step s = .next u) ∧
      ((s.strand c st).base + dly ≤ s.now c st →
        (shapeOf ((s.baseWord c st).extractLsb' 15 8) = none → step s = .next (ill 0)) ∧
        (shapeOf ((s.baseWord c st).extractLsb' 15 8) ≠ none → offStrand ws st = true → step s = .next (ill 1)) ∧
        (shapeOf ((s.baseWord c st).extractLsb' 15 8) ≠ none → offStrand ws st = false → step s = .next (ill k)))) ∧
    (∀ opc : BitVec 8, (strandsOf opc).contains st = false → (shapeOf opc).isSome = true → (s.baseWord c st).extractLsb' 15 8 = opc →
      offStrand ws st = true)

/-- The kinds of the code-image fault and their order: a padding line records kind 1 whatever its owner, then the lowest of the kinds that
apply (R34). A jump is judged at its target, a sequential fetch by the line that NEXT names. -/
def Obligations.CodeImageFaultKinds : Prop :=
  ∀ (m : Mem) (lines : Nat) (st : StrandId) (pos : Nat),
    let line := pos / 16
    let word := pos % 16
    let owner := (linkOf m line).1
    let count := (linkOf m line).2.2
    let e := ((wordAt m line word).extractLsb' 23 2).toNat
    (∀ p r, r = Reach.chainEnd → (fetchFault m lines st p r).map (·.1) = some 3) ∧
    (lines ≤ line → fetchFault m lines st pos .seq = some (4, line)) ∧
    (lines ≤ line → word ≠ 15 → fetchFault m lines st pos .jump = some (4, line)) ∧
    (line < lines → pos ≠ 0x7FFF → count = 0 → fetchFault m lines st pos .jump = some (1, line) ∧ fetchFault m lines st pos .seq = some (1, line)) ∧
    (line < lines → pos ≠ 0x7FFF → count ≠ 0 → owner ≠ st.num.val →
      fetchFault m lines st pos .jump = some (0, line) ∧ fetchFault m lines st pos .seq = some (0, line)) ∧
    (line < lines → pos ≠ 0x7FFF → count ≠ 0 → owner = st.num.val → count ≤ word ∨ word = 15 → fetchFault m lines st pos .jump = some (2, line)) ∧
    (line < lines → pos ≠ 0x7FFF → owner = st.num.val → word < count → word ≠ 15 → count ≤ word + e →
      fetchFault m lines st pos .jump = some (5, line) ∧ fetchFault m lines st pos .seq = some (5, line)) ∧
    (line < lines → pos ≠ 0x7FFF → owner = st.num.val → word ≠ 15 → word + e < count →
      fetchFault m lines st pos .jump = none ∧ fetchFault m lines st pos .seq = none)

/-- Work that is due and first in rank is what the next step does, before any strand's turn that it precedes; it leaves the calendar. The first work
stands in the calendar, its clock has reached it, no strand has its turn still to come before it unless it is an access of a bank or a stream, and of
the items for which that holds none has a lower priority, or the same and a lower order (R21, R74, R349; log entry 1). Each kind of work is the
operation that its name says; a result whose write falls due is written by RESULT_WRITE. -/
def Obligations.StepRunsTheFirstDueWork : Prop :=
  ∀ (s : State) (d : Due), s.inbox = [] → s.power = true → s.opening = none → s.nextItem = some d →
    let u : State := { s with cal := s.cal.filter fun o => o.order != d.order }
    let may (o : Due) : Prop := o ∈ s.cal ∧ s.itemReady o = true ∧ (s.todo = [] ∨ o.prio < effects)
    may d ∧ (∀ o, may o → d.prio < o.prio ∨ (d.prio = o.prio ∧ d.order ≤ o.order)) ∧
    (∀ o : Due, (o.clock = .hc → (s.itemReady o = true ↔ o.due ≤ s.hc)) ∧
      (∀ bid b, o.clock = .dt bid → s.binding bid = some b → (s.itemReady o = true ↔ b.live = true ∧ o.due ≤ b.dt)) ∧
      (∀ e b, o.clock = .cyc e → s.bindingOf e = some b → (s.itemReady o = true ↔ o.due ≤ (s.core e).cyc ∧ b.stopped = false))) ∧
    step s = u.runWork exec d.work ∧
    (∀ i, d.work = .ev i → step s = exec i u) ∧
    (∀ c st ord f, d.work = .flight c st ord → s.landing c st ord = some f → step s = exec (.resultWrite c st { f.res with ord := ord }) u) ∧
    (∀ c st ord, d.work = .flight c st ord → s.landing c st ord = none → step s = .next u) ∧
    (∀ r, d.work = .lsRead r → step s = .next (u.readLs r)) ∧
    (∀ c st p n, d.work = .push c st p n → step s = .next (u.push c st p n)) ∧
    (∀ c st o q dev cells x vas, d.work = .farRead c st o q dev cells x vas → step s = .next (u.readFar c st o q dev cells x vas)) ∧
    (∀ c st o q m pa poll r p, d.work = .objRead c st o q m pa poll r p → step s = .next (u.readObject c st o q m pa poll r p)) ∧
    (∀ c st o v, d.work = .unitDone c st o v → step s = .next (u.unitEnd c st o v)) ∧
    (∀ c st, d.work = .holds c st → step s = .next (u.judgeHolds c st)) ∧
    (∀ clk c st o q b ns lat prio far w, d.work = .queued clk c st o q b ns lat prio far w →
      step s = .next (u.judgeQueued clk c st o q b ns lat prio far w)) ∧
    (∀ c st o r k w, d.work = .cellsRead c st o r k w → step s = .next (u.readCells c st o r k w)) ∧
    (∀ c r k w v m, d.work = .cellsWrite c r k w v m → step s = .next (u.writeCells c r k w v m)) ∧
    (∀ kind ws, d.work = .notify kind ws → step s = .next (u.event kind ws)) ∧
    (∀ i : Fin 64, d.work = .advise i → step s = .next { u with lib := { u.lib with advises := u.lib.advises ++ [.inr i] } })

/-! ### Reset -/

/-- What cold reset leaves: HC is 0, no binding runs, one partition holds the four quarters, every strand is off with an empty loop stack;
EARLYRD, DAMPH, DAMPX, the monitors, the channels, PLIMIT, the islands, the trip points, the budgets and the reading room stand at the reset
values that the manual gives (R8, R12, R88, R108, R268, R279, R304, R307, R354, R380, R383, R384, R387). The zeros of the registers and the
half of the weight buffer for which the manual states no reset value are the model's own choice (log entry 2). -/
def Obligations.ResetLeavesTheStatedValues : Prop :=
  State.reset.hc = 0 ∧ State.reset.power = true ∧ State.reset.bindings = [] ∧ State.reset.cal = [] ∧
  State.reset.lib.parts = #v[0xF, 0, 0, 0] ∧ State.reset.lib.plimit = 45000 ∧ State.reset.archive.rrsize = 4 ∧ State.reset.cap.s0 = 0 ∧
  (∀ c, (State.reset.core c).task = none ∧ (State.reset.core c).active = false ∧ (State.reset.core c).chain = none ∧
    (State.reset.core c).earlyrd = 0 ∧ (State.reset.core c).damph = 0 ∧ (State.reset.core c).dampx = 0 ∧ (State.reset.core c).copies = [] ∧
    (∀ ch : Fin 8, (State.reset.core c).chans[ch.val].act = false ∧ (State.reset.core c).chans[ch.val].queue = []) ∧
    (∀ n : Fin 4, (State.reset.core c).caps[n.val].cfg = 0) ∧
    (∀ r : VReg, (State.reset.core c).rv r = 0) ∧ (∀ r : QReg, (State.reset.core c).rq r = {})) ∧
  (∀ c st, (State.reset.strand c st).run = .off ∧ (State.reset.strand c st).level = false ∧ (State.reset.strand c st).fcsr = 0 ∧
    (State.reset.strand c st).loops = [] ∧ (State.reset.strand c st).latches = [] ∧ (State.reset.strand c st).ipend = none ∧
    (State.reset.strand c st).tcause = 0 ∧ (State.reset.strand c st).tepc = 0 ∧ (State.reset.strand c st).tscr = 0 ∧
    (∀ r, (State.reset.strand c st).rx r = 0)) ∧
  (∀ c f, ((State.reset.core c).fifo f).toks = []) ∧
  (∀ i : Fin 64, State.reset.islands[i.val].fstep = 0 ∧ State.reset.islands[i.val].resume = 0x6000 ∧ State.reset.islands[i.val].hold = 0x4000) ∧
  (∀ n : Fin 320, State.reset.sensors[n.val].advise = 95 ∧ State.reset.sensors[n.val].throttle = 105 ∧ State.reset.sensors[n.val].shutdown = 115) ∧
  ∀ k : Fin 384, State.reset.stokers[k.val].budget = [78, 781, 234, 156] ∧ State.reset.stokers[k.val].queue = []

/-- The memories that reset leaves have the canonical form. -/
def Obligations.ResetMemoryIsCanonical : Prop :=
  State.reset.gm.wf = true ∧ ∀ c, (State.reset.core c).ls.wf = true ∧ (State.reset.core c).wb0.wf = true ∧ (State.reset.core c).wb1.wf = true ∧
    (State.reset.core c).acc.wf = true ∧ (State.reset.core c).code.wf = true ∧ (State.reset.core c).handler.wf = true

/-- Every step keeps the canonical form of HBM's bytes, and that of every scratchpad, weight buffer, accumulator memory, code store and handler store,
from every state that has it, reached or not. -/
def Obligations.StepKeepsMemoryCanonical : Prop :=
  (∀ s t : State, s.gm.wf = true → step s = .next t → t.gm.wf = true) ∧
  let good (k : Core) : Prop := k.ls.wf = true ∧ k.wb0.wf = true ∧ k.wb1.wf = true ∧ k.acc.wf = true ∧ k.code.wf = true ∧ k.handler.wf = true
  ∀ s t : State, (∀ c, good (s.core c)) → step s = .next t → ∀ c, good (t.core c)

/-- The laws of byte memory: a byte reads as it was written, every other byte as before, a word as it was written, and memories with equal
bytes are equal. -/
def Obligations.MemoryReadsWhatWasWritten : Prop :=
  ∀ (m : Mem), m.wf = true →
    (∀ a v j, (m.set a v).get j = if j = a then v else m.get j) ∧
    (∀ a (bs : List Byte) j, (j < a ∨ a + bs.length ≤ j) → (m.write a bs).get j = m.get j) ∧
    (∀ a (bs : List Byte), (m.write a bs).read a bs.length = bs ∧ (m.write a bs).wf = true) ∧
    (∀ a w, (m.setWord a w).word a = w) ∧
    (∀ n : Mem, n.wf = true → (∀ a, m.get a = n.get a) → m = n)

/-! ### Issue -/

/-- Every encoded instruction is judged by the one rule of issue, with the strands and the privilege that the opcode map lists for it: it
waits, traps or issues there and nowhere else (R35, R149, R151, R152). -/
def Obligations.EveryInstructionIsJudgedByTheIssueRule : Prop :=
  ∀ (i : Instr) (w : Raw), i.toRaw = some w → ∀ s : State, ∃ (r : Req) (act : Turn → State → State),
    exec i s = issue w.h r act s ∧ r.priv = privileged w.opc ∧ ∀ st, r.legal.contains st = true → (strandsOf w.opc).contains st = true

/-- No instruction issues, traps or does anything else before the cycle p + 1 + DLY (R35). -/
def Obligations.NothingIssuesBeforeItsCycle : Prop :=
  ∀ (i : Instr) (w : Raw) (s : State) (c : CoreId) (st : StrandId), i.toRaw = some w → s.cur = some (c, st) →
    s.now c st < earliest w.h (s.strand c st) → exec i s = .next s

/-- Every instruction on a strand that the opcode map does not list for it takes the illegal-instruction fault of kind 1 with its base word,
and a privileged form at user level that of kind 6; neither does anything else (R151, R152, R336). -/
def Obligations.InstructionsTrapWhereTheyMayNotIssue : Prop :=
  ∀ (i : Instr) (w : Raw) (s : State) (c : CoreId) (st : StrandId), i.toRaw = some w → s.cur = some (c, st) →
    earliest w.h (s.strand c st) ≤ s.now c st →
    let ill (kind : Word) : State := s.trap c st { cause := 3, epc := (s.strand c st).pos, i0 := kind, i1 := (s.baseWord c st).setWidth 64 }
    ((strandsOf w.opc).contains st = false → exec i s = .next (ill 1)) ∧
    (privileged w.opc = true → (s.strand c st).level = false → exec i s = .next (ill 6))

/-- A stamp that lies in the past, or a condition unmet in the stamp's cycle, is the schedule-miss fault with the stamp, the cycle a and
the condition; before the stamp's cycle nothing happens; in it, an exact fault of the instruction is taken (a translation fault after its walk), and
with every condition met the instruction issues (R36, R329, R336). -/
def Obligations.StampsIssueExactlyOrMiss : Prop :=
  ∀ (s : State) (c : CoreId) (st : StrandId) (h : Hdr) (r : Req) (act : Turn → State → State) (w : Word32),
    let t := s.strand c st
    let d := (w - BitVec.ofNat 32 t.base).toInt
    let miss (cond : Nat) : TrapInfo := { cause := 12, epc := t.pos, i0 := w.setWidth 64, i1 := BitVec.ofNat 64 (t.base % 2 ^ 48 + 2 ^ 48 * cond) }
    h.timing = .stamped w → r.illegal t st h = none → t.base ≤ s.now c st →
    (d < 0 → s.attempt c st h r act = s.trap c st (miss 0)) ∧
    (0 ≤ d → (s.now c st : Int) < t.base + d → s.attempt c st h r act = s) ∧
    (0 ≤ d → t.base + d ≤ (s.now c st : Int) →
      (∀ u, r.unmet (s.core c) t st h = some u → s.attempt c st h r act = s.trap c st (miss (if u.1 = 0 then 1 else if u.1 = 1 then 2 else 3))) ∧
      (∀ f, r.unmet (s.core c) t st h = none → r.fault = some f →
        s.attempt c st h r act = (if f.cause = 6 then s.touch c f.i0.toNat else s).trap c st f) ∧
      (∀ u, r.unmet (s.core c) t st h = none → r.fault = none → r.busy = some u →
        s.attempt c st h r act = s.trap c st (miss (if u.1 = 0 then 1 else if u.1 = 1 then 2 else 3))) ∧
      (r.unmet (s.core c) t st h = none → r.fault = none → r.busy = none → s.attempt c st h r act = act (s.turn c st h r) (s.issued c st h r)))

/-- An unstamped instruction whose condition is unmet waits, for tokens, push space or a place among the results in flight, or for a resource once it has
no exact fault (a hob's queue, the copy unit, a vertical FIFO, a store slot, a mark): it pops nothing, reserves nothing, stores nothing, and stands
where it stood; past its bound the strand takes the stall trap instead (R35, R37, R41, R182, R194, R206, R237). -/
def Obligations.UnmetConditionsWaitWithinTheBound : Prop :=
  ∀ (s : State) (c : CoreId) (st : StrandId) (h : Hdr) (r : Req) (act : Turn → State → State) (d : Fin 7) (u : Nat × Word × Nat),
    let t := s.strand c st
    h.timing = .after d → r.illegal t st h = none → t.base + d.val ≤ s.now c st →
    r.unmet (s.core c) t st h = some u ∨ (r.unmet (s.core c) t st h = none ∧ r.fault = none ∧ r.busy = some u) →
    (t.blocked = none ∨ s.now c st ≤ t.base + d.val + boundOf h t →
      (s.attempt c st h r act).storage = s.storage ∧ (s.attempt c st h r act).cal = s.cal ∧
      (∀ f, ((s.attempt c st h r act).core c).fifo f = (s.core c).fifo f) ∧
      (s.attempt c st h r act).strand c st = { t with blocked := some u }) ∧
    (t.blocked.isSome = true → t.base + d.val + boundOf h t < s.now c st → t.level = false → t.wait = none →
      ((s.attempt c st h r act).strand c st).level = true ∧
      ((s.attempt c st h r act).strand c st).tcause.toNat % 256 = 13 ∧ ((s.attempt c st h r act).strand c st).tepc.toNat = t.pos % 2 ^ 15 ∧
      ∀ f, ((s.attempt c st h r act).core c).fifo f = (s.core c).fifo f)

/-- The bound of a wait is the bound word, else SBOUND (R41, R42); and a token FIFO offers a pop what stood in it at the start of the cycle,
and a push a slot while fewer than 15 are taken or reserved (R38, R39). -/
def Obligations.TokensAreCountedAsTheRulesSay : Prop :=
  (∀ (h : Hdr) (t : Strand) (b : Word32), h.bound = some b → boundOf h t = b.toNat) ∧
  (∀ (h : Hdr) (t : Strand), h.bound = none → boundOf h t = t.sbound.toNat % 2 ^ 32) ∧
  (∀ (f : Fifo) (n : Nat), (f.has n = true ↔ n ≤ f.toks.length) ∧
    (f.room n = true ↔ f.toks.length + f.popped + f.resv + n ≤ 15) ∧
    (f.pop n).toks = f.toks.drop n ∧ (f.reserve n).resv = f.resv + n ∧ (f.reserve n).toks = f.toks ∧
    (∀ k t, ((f.reserve n).push k t).toks.length = f.toks.length + k)) ∧
  (∀ (st : StrandId) (b : Bool), fifoPusher (pushFifo st b) = st ∧ fifoPopper (popFifo st b) = st ∧
    fifoPopper (pushFifo st b) = (if b then st.next else st.prev) ∧ fifoPusher (popFifo st b) = (if b then st.next else st.prev))

/-- What every issue does beside the instruction's own effect: in its cycle it pops the tokens of its pop bits and its own, oldest first,
reserves a slot for each push, records the issue cycle, and, unless it transfers control, moves the strand on by R165 and R170; every
register and memory stays (R35, R37, R39). -/
def Obligations.IssueTakesTokensAndMovesOn : Prop :=
  ∀ (s : State) (c : CoreId) (st : StrandId) (h : Hdr) (r : Req),
    let t := s.issued c st h r
    let n (l : List (Fin 8 × Nat)) (f : Fin 8) : Nat := (assocGet l f).getD 0
    t.storage = s.storage ∧ t.cal = s.cal ∧ (r.transfers = false → s.Advanced t c st) ∧
    (r.transfers = true → (t.strand c st).pos = (s.strand c st).pos ∧ (t.strand c st).loops = (s.strand c st).loops) ∧
    (∀ b, ((t.core c).fifo (popFifo st b)).toks =
      ((s.core c).fifo (popFifo st b)).toks.drop ((if b then h.pbn else h.pbp).toNat + n r.pops (popFifo st b))) ∧
    (∀ b, ((t.core c).fifo (pushFifo st b)).resv =
      ((s.core c).fifo (pushFifo st b)).resv + ((if b then h.pan else h.pap).toNat + n r.pushes (pushFifo st b))) ∧
    (∀ f, (∀ b, f ≠ popFifo st b) → ((t.core c).fifo f).toks = ((s.core c).fifo f).toks)

/-- The next position after an issue: the next word of the line, word 0 of line NEXT, or the end of the chain; at the end of the innermost
hardware loop the count goes down and control goes to the start, or the entry is popped (R165, R170). -/
def Obligations.NextPositionFollowsLineAndLoop : Prop :=
  ∀ (m : Mem) (t : Strand),
    let line := t.pos / 16
    let next := (linkOf m line).2.1
    let count := (linkOf m line).2.2
    let e := ((wordAt m line (t.pos % 16)).extractLsb' 23 2).toNat
    (t.pos % 16 + e + 1 < count → successor m t.pos = (t.pos + e + 1, .seq)) ∧
    (count ≤ t.pos % 16 + e + 1 → next ≠ 0x3FFFFFF → successor m t.pos = (16 * next, .seq)) ∧
    (count ≤ t.pos % 16 + e + 1 → next = 0x3FFFFFF → successor m t.pos = (0x7FFF, .chainEnd)) ∧
    (t.loops = [] → loopStep m t = ((successor m t.pos).1, (successor m t.pos).2, [])) ∧
    (∀ en rest, t.loops = en :: rest →
      (en.stop ≠ t.pos → loopStep m t = ((successor m t.pos).1, (successor m t.pos).2, en :: rest)) ∧
      (en.stop = t.pos → en.rem = 1 → loopStep m t = ((successor m t.pos).1, (successor m t.pos).2, rest)) ∧
      (en.stop = t.pos → en.rem ≠ 1 → loopStep m t = (en.start, .jump, { en with rem := en.rem - 1 } :: rest)))

/-! ### Traps, returns, interrupts -/

/-- Taking a trap at user level in DT cycle T: cause, flags and latch count in TCAUSE, the return position, the cause's information, T, the
last issue cycle; system level; results in flight after T become latches; the strand goes on in its handler's line no earlier than T + 1;
an asynchronous cause returns to where the strand stands; no other strand and no memory is touched (R336, R337, R340, R342). What the cause asks of
the Librarian is set in train: the end of the binding, its pre-emption, an event, or nothing (R347); when the Librarian acts is not exposed (log entry
56). -/
def Obligations.TrapEntrySavesAndGoesToTheHandler : Prop :=
  ∀ (s : State) (c : CoreId) (st : StrandId) (i : TrapInfo), (s.strand c st).level = false → (s.strand c st).wait = none → i.cause < 256 →
    let t := s.strand c st
    let u := (s.trap c st i).strand c st
    u.level = true ∧ u.tcause.toNat % 256 = i.cause ∧ u.tcause.getLsbD 8 = i.async ∧ u.tcause.getLsbD 9 = i.migr ∧
    u.tcause.getLsbD 10 = t.arrived ∧ u.tepc = BitVec.ofNat 64 ((if i.async then t.pos else i.epc) % 2 ^ 15) ∧ u.tinfo0 = i.i0 ∧ u.tinfo1 = i.i1 ∧
    u.tdt = BitVec.ofNat 64 (s.dt c % 2 ^ 48) ∧
    u.tprev = (match t.prev with | some p => BitVec.ofNat 64 (p % 2 ^ 48) | none => 0xFFFFFFFFFFFF) ∧
    u.pos = 16 * (64 * st.num.val + i.cause) ∧ u.base = (s.core c).cyc + 1 ∧
    u.x = t.x ∧ u.xs = t.xs ∧ u.fcsr = t.fcsr ∧ u.sbound = t.sbound ∧ u.loops = t.loops ∧
    u.latches.length = t.latches.length + (s.capturable c st).length ∧
    (∀ f ∈ u.flights, f ∈ t.flights ∧ (s.capturable c st).all (fun g => g.ord != f.ord) = true) ∧
    (∀ d o, (d, o) ≠ (c, st) → (s.trap c st i).strand d o = s.strand d o) ∧
    (s.trap c st i).gm = s.gm ∧ (∀ d, ((s.trap c st i).core d).ls = (s.core d).ls) ∧
    (let later (w : Work) : Prop := ∃ n o, (s.trap c st i).cal = ⟨.hc, s.hc + 1 + Config.delay n, latePrio, o, w⟩ :: s.cal
     let waits := i.cause = 6 ∧ (i.migr = true ∨ i.i1.toNat % 4 = 3)
     (i.cause = 0 ∨ waits → (s.trap c st i).cal = s.cal) ∧ (i.cause = 1 → later (.notify 5 [i.i0, t.x[1]])) ∧
     (i.cause = 14 → later (.ev (.preemptRequest (s.bidOf c)))) ∧
     (i.cause ≠ 0 → i.cause ≠ 1 → i.cause ≠ 14 → ¬waits → later (.ev (.bindingFault (s.bidOf c)))))

/-- A trap cause at system level is a double trap: the strand stops, the binding freezes 32 cycles on, and its end with FAULT is on its way, at a time that
is not exposed (R340, R348; log entry 56). -/
def Obligations.DoubleTrapStopsTheStrandAndFreezes : Prop :=
  ∀ (s : State) (c : CoreId) (st : StrandId) (i : TrapInfo), (s.strand c st).level = true →
    s.trap c st i = s.doubleTrap c st ∧
    (s.trap c st i).strand c st = { s.strand c st with run := .stopped } ∧
    (∀ b, s.bindingOf c = some b → b.horizon = none → ∃ b', (s.trap c st i).bindingOf c = some b' ∧ b'.faulted = true ∧ b'.horizon = some (b.dt + 32)) ∧
    (∃ n, (s.trap c st i).Pending .hc (s.hc + 1 + Config.delay n) latePrio (.ev (.bindingFault (s.bidOf c)))) ∧
    (s.trap c st i).gm = s.gm ∧ (∀ d, ((s.trap c st i).core d).ls = (s.core d).ls)

/-- eret at system level issues, makes its pushes and returns from the innermost trap. From the trap at user level: the position of TEPC, user
level, and every latch back in flight at the eret's cycle plus its r. From the trap that ended an idle of a handler: the position of TEPC, the
registers of the trap around it, which is in progress again, and the latches at the core's own cycle plus their r. The resumed instruction may
issue in the next cycle; nothing else that the machine stores changes (R173, R187, R338, R343; log entry 34). -/
def Obligations.EretReturnsFromTheTrap : Prop :=
  ∀ (s : State) (c : CoreId) (st : StrandId) (h : Hdr), s.Issues c st h { priv := true, transfers := true } →
    let o := s.strand c st
    let cyc := (s.core c).cyc
    let resumes (t : State) (e : Nat) (put : Strand → Strand) : Prop :=
      (t.strand c st).pos = o.tepc.toNat % 2 ^ 15 ∧ (t.strand c st).reach = .jump ∧ (t.strand c st).base = e + 1 ∧
      (t.strand c st).prev = some e ∧ (t.strand c st).loops = o.loops ∧ (t.strand c st).wait = none ∧ s.Pushes t c st h 0 ∧
      (t.strand c st).flights = o.flights ++ o.latches.map (fun l => { l.fl with w := e + l.r }) ∧ t.storage = (s.updStrand c st put).storage
    (o.frames = [] → ∃ t, exec (.eret h) s = .next t ∧ resumes t (s.dt c) (fun o => { o with level := false, latches := [] }) ∧
      ∀ l ∈ o.latches, t.Pending (.dt (s.bidOf c)) (s.dt c + l.r) (writePrio st l.fl.ord)
        (.ev (.latchReinject c st { l.fl.res with ord := l.fl.ord }))) ∧
    (∀ g rest, o.frames = g :: rest → ∃ t, exec (.eret h) s = .next t ∧
      resumes t cyc (fun o => { o with frames := rest, tcause := g.tcause, tepc := g.tepc, tinfo0 := g.tinfo0, tinfo1 := g.tinfo1, tdt := g.tdt
                                       tprev := g.tprev, tlsel := g.tlsel, latches := g.latches }) ∧
      ∀ l ∈ o.latches, t.Pending (.cyc c) (cyc + l.r) (writePrio st l.fl.ord) (.flight c st l.fl.ord))

/-- An interrupt that reaches a running strand is pending on it with its tick; a second one is merged, its payload ORed in; one to a strand that does
not run, or whose binding has ended, is discarded, of which the Librarian learns at once; nothing else changes (R339, R364; how the Librarian's notice
is kept is the model's: log entry 33). -/
def Obligations.InterruptsPendAndMerge : Prop :=
  ∀ (s : State) (c : CoreId) (st : StrandId) (src : Bool) (v : Word),
    let gone := ∀ b, s.bindingOf c = some b → b.status.isSome = true
    let o := s.strand c st
    (o.run ≠ .running ∨ gone → exec (.interrupt c st src v) s = .next { s with lib := { s.lib with discards := s.lib.discards ++ [(c, st, v)] } }) ∧
    (o.run = .running → ¬gone → o.ipend = none →
      exec (.interrupt c st src v) s = .next (s.updStrand c st fun o => { o with ipend := some (s.hc, src, v) })) ∧
    (∀ a k p, o.run = .running → ¬gone → o.ipend = some (a, k, p) →
      exec (.interrupt c st src v) s = .next (s.updStrand c st fun o => { o with ipend := some (a, k, p ||| v) })) ∧
    ∃ t, exec (.interrupt c st src v) s = .next t ∧ t.storage = s.storage

/-- A wait after issue that no one ends within its bound B takes the stall trap in cycle q + B + 1, at the waiting instruction; one that is
still within it goes on waiting (R41, R43). -/
def Obligations.WaitsPastTheirBoundTakeTheStallTrap : Prop :=
  ∀ (s : State) (c : CoreId) (st : StrandId) (w : Wait), (s.strand c st).wait = some w → w.why ≠ .idle → w.why ≠ .chain → w.why ≠ .dtime →
    (s.now c st ≤ w.start + w.bound → s.plainTurn exec c st = .next s) ∧
    (w.start + w.bound < s.now c st → s.plainTurn exec c st = exec (.stallTrap c st) s) ∧
    (∀ sp a, w.why = .held sp a → (s.strand c st).level = false → ∃ t, exec (.stallTrap c st) s = .next t ∧
      (t.strand c st).level = true ∧ (t.strand c st).tcause.toNat % 256 = 13 ∧ (t.strand c st).tepc.toNat = w.pos % 2 ^ 15 ∧
      (t.strand c st).tinfo0 = BitVec.ofNat 64 a ∧ (t.strand c st).tinfo1.toNat % 16 = 9 ∧ (t.strand c st).wait = none)

/-! ### Results -/

/-- A result that performs writes exactly the bits of its mask in its one destination, at its own bank of scalar registers; x0 and xs0
read as zero and k0 as all ones whatever is written; its flags are added to FCSR; every other register, every memory and every other core
stay. The elements that it leaves to stochastic rounding are rounded first, with the generators as they then stand (log entry 20). A result with
poisoned data writes nothing: its strand takes MEMERR with the
address and the position of the instruction (R17, R18, R65, R71, R163, R336, R340, R346). -/
def Obligations.ResultsWriteTheirDestinationOnly : Prop :=
  (∀ (s : State) (c : CoreId) (st : StrandId) (r : Result) (store : Fin 9) (a : Nat), r.poison = some (store, a) → (s.strand c st).run = .running →
    (s.strand c st).level = false → (s.strand c st).wait = none → ∃ t, exec (.resultWrite c st r) s = .next t ∧
      (t.strand c st).level = true ∧ (t.strand c st).tcause.toNat % 256 = 11 ∧ (t.strand c st).tcause.getLsbD 8 = true ∧
      (t.strand c st).tepc = BitVec.ofNat 64 ((s.strand c st).pos % 2 ^ 15) ∧ (t.strand c st).tinfo0 = BitVec.ofNat 64 a ∧
      (t.strand c st).tinfo1 = BitVec.ofNat 64 r.pos ∧ (t.strand c st).x = (s.strand c st).x ∧ (t.strand c st).xs = (s.strand c st).xs ∧
      (t.strand c st).fcsr = (s.strand c st).fcsr ∧ (t.core c).v = (s.core c).v ∧ (t.core c).k = (s.core c).k ∧ (t.core c).q = (s.core c).q ∧
      SameCoreMem (s.core c) (t.core c) ∧ t.gm = s.gm) ∧
  ∀ (s : State) (c : CoreId) (st : StrandId) (r₀ : Result), r₀.poison = none → r₀.pushP = false → r₀.pushN = false →
    let r := ((s.core c).roundStoch r₀).2
    (r₀.stoch = [] → r = r₀) ∧ ∃ t, exec (.resultWrite c st r₀) s = .next t ∧
      (t.strand c st).fcsr = (s.strand c st).fcsr ||| r.flags.setWidth 64 ∧
      (∀ d : XReg, (t.strand c st).x[d.toNat] = if r.target = .x false d ∧ d ≠ 0 then
        merge (s.strand c st).x[d.toNat] (r.data.setWidth 64) (r.mask.setWidth 64) else (s.strand c st).x[d.toNat]) ∧
      (∀ d : XReg, (t.strand c st).xs[d.toNat] = if r.target = .x true d ∧ d ≠ 0 then
        merge (s.strand c st).xs[d.toNat] (r.data.setWidth 64) (r.mask.setWidth 64) else (s.strand c st).xs[d.toNat]) ∧
      (∀ d : VReg, (t.core c).v[d.toNat] = if r.target = .v d then merge (s.core c).v[d.toNat] r.data r.mask else (s.core c).v[d.toNat]) ∧
      (∀ d : KReg, (t.core c).k[d.toNat] = if r.target = .k d ∧ d ≠ 0 then
        merge (s.core c).k[d.toNat] (r.data.setWidth 256) (r.mask.setWidth 256) else (s.core c).k[d.toNat]) ∧
      (∀ d : QReg, (t.core c).q[d.toNat].toBits = if r.target = .q d then
        merge (s.core c).q[d.toNat].toBits (r.data.setWidth 256) (r.mask.setWidth 256) else (s.core c).q[d.toNat].toBits) ∧
      (∀ o, o ≠ st → t.strand c o = s.strand c o) ∧ (∀ d, d ≠ c → t.core d = s.core d) ∧
      SameCoreMem (s.core c) (t.core c) ∧ t.gm = s.gm ∧ t.cal = s.cal ∧
      (t.strand c st).level = (s.strand c st).level ∧ (t.strand c st).pos = (s.strand c st).pos ∧ (t.strand c st).sbound = (s.strand c st).sbound

/-- x0 and xs0 read as zero and k0 reads as all ones, in every state (R17, R340). -/
def Obligations.HardWiredRegistersReadAsStated : Prop :=
  ∀ (s : State) (c : CoreId) (st : StrandId), s.x c st 0 = 0 ∧ (s.core c).rk 0 = BitVec.allOnes 256 ∧
    (∀ r : XReg, r ≠ 0 → s.x c st r = if (s.strand c st).level then (s.strand c st).xs[r.toNat] else (s.strand c st).x[r.toNat])

/-! ### Control, tokens and time -/

/-- nop has no effect but its token bits; wait moves the strand's next issue to issue + 1 + N; neither leaves the strand in a wait (R166). -/
def Obligations.NopAndWaitDoOnlyWhatTheySay : Prop :=
  ∀ (s : State) (c : CoreId) (st : StrandId) (h : Hdr) (n : Word32), s.Issues c st h {} →
    (∃ t, exec (.nop h) s = .next t ∧ s.Advanced t c st ∧ t.storage = s.storage ∧ (t.strand c st).wait = (s.strand c st).wait ∧
      (t.strand c st).flights = (s.strand c st).flights ∧ s.Pushes t c st h 0 ∧ ((h.pap || h.pan) = false → t.cal = s.cal)) ∧
    (∃ t, exec (.wait h n) s = .next t ∧ t.storage = s.storage ∧ (t.strand c st).wait = (s.strand c st).wait ∧
      (t.strand c st).flights = (s.strand c st).flights ∧ (t.strand c st).prev = some (s.now c st) ∧
      (t.strand c st).pos = (loopStep (s.fetchMem c st) (s.strand c st)).1 ∧
      (∀ (h' : Hdr) (d : Fin 7), h'.timing = .after d → earliest h' (t.strand c st) = s.now c st + 1 + n.toNat + d.val) ∧
      s.Pushes t c st h 0 ∧ ((h.pap || h.pan) = false → t.cal = s.cal))

/-- The conditional branches transfer to TGT when their condition holds on the registers as they stand at issue and otherwise go on at the
next position; j always transfers (R168). A transfer costs no cycle (R165). -/
def Obligations.BranchesTransferWhenTheirConditionHolds : Prop :=
  ∀ (s : State) (c : CoreId) (st : StrandId) (h : Hdr) (a b : XReg) (n : BitVec 6) (sense : Bool) (tgt : BitVec 15),
    let x := s.x c st
    let goes (i : Instr) (taken : Bool) : Prop :=
      s.Issues c st h { transfers := taken } → ∃ t, exec i s = .next t ∧ t.storage = s.storage ∧ s.Pushes t c st h 0 ∧
        (t.strand c st).prev = some (s.now c st) ∧ (t.strand c st).base = s.now c st + 1 ∧
        (taken = true → (t.strand c st).pos = tgt.toNat ∧ (t.strand c st).reach = .jump ∧ (t.strand c st).loops = (s.strand c st).loops) ∧
        (taken = false → s.Advanced t c st)
    goes (.j h tgt) true ∧
    goes (.beq h a b tgt) (decide (x a = x b)) ∧
    goes (.bne h a b tgt) (decide (x a ≠ x b)) ∧
    goes (.blt h a b tgt) (decide ((x a).toInt < (x b).toInt)) ∧
    goes (.bge h a b tgt) (decide ((x b).toInt ≤ (x a).toInt)) ∧
    goes (.bltu h a b tgt) (decide ((x a).toNat < (x b).toNat)) ∧
    goes (.bgeu h a b tgt) (decide ((x b).toNat ≤ (x a).toNat)) ∧
    goes (.bbit h a n sense tgt) (decide ((x a).getLsbD n.toNat = sense))

/-- call writes the position of its sequential successor to x[D] one cycle later and transfers to TGT; jr and ret transfer to the position
held in x[A] (R164, R169). -/
def Obligations.CallsAndReturnsTransfer : Prop :=
  ∀ (s : State) (c : CoreId) (st : StrandId) (h : Hdr) (d a : XReg) (tgt : BitVec 15),
    let at' (t : State) (pos : Nat) : Prop := t.storage = s.storage ∧ s.Pushes t c st h 0 ∧ (t.strand c st).pos = pos ∧
      (t.strand c st).reach = .jump ∧ (t.strand c st).loops = (s.strand c st).loops ∧ (t.strand c st).prev = some (s.now c st) ∧
      (t.strand c st).base = s.now c st + 1
    (s.Issues c st h { transfers := true, writes := true } → ∃ t, exec (.call h d tgt) s = .next t ∧ at' t tgt.toNat ∧
      s.Flies t c st 1 { xResult (s.strand c st).level d (BitVec.ofNat 64 (successor (s.fetchMem c st) (s.strand c st).pos).1) with
        pos := (s.strand c st).pos, ord := (s.strand c st).ord } true false) ∧
    (s.Issues c st h { transfers := true } → ∃ t, exec (.jr h a) s = .next t ∧ at' t (s.x c st a).toNat) ∧
    (s.Issues c st h { transfers := true } → ∃ t, exec (.ret h a) s = .next t ∧ at' t (s.x c st a).toNat)

/-- loop with a count above 0 pushes an entry (start, end, count) and goes on at its start; with a count of 0 it passes over the body; lexit
pops the innermost entry and transfers; a loop on a full loop stack and a lexit on an empty one are the illegal-instruction fault of kind 7
(R152, R170). -/
def Obligations.LoopsPushPassAndExit : Prop :=
  ∀ (s : State) (c : CoreId) (st : StrandId) (h : Hdr) (a : XReg) (tgt : BitVec 15),
    (∀ d : Fin 7, s.cur = some (c, st) → h.timing = .after d → (s.strand c st).base + d.val ≤ s.now c st →
      let ill := s.trap c st { cause := 3, epc := (s.strand c st).pos, i0 := 7, i1 := (s.baseWord c st).setWidth 64 }
      (4 ≤ (s.strand c st).loops.length → exec (.loop h a tgt) s = .next ill) ∧
      ((s.strand c st).loops = [] → exec (.lexit h tgt) s = .next ill)) ∧
    (s.Issues c st h { transfers := true } →
    let t0 := s.strand c st
    let m := s.fetchMem c st
    let line := tgt.toNat / 16
    (t0.loops.length < 4 → tgt.toNat % 16 ≠ 15 → line < ((s.core c).store t0.level).2 → tgt.toNat % 16 < (linkOf m line).2.2 →
      ∃ t, exec (.loop h a tgt) s = .next t ∧ t.storage = s.storage ∧ s.Pushes t c st h 0 ∧ (t.strand c st).prev = some (s.now c st) ∧
        (s.x c st a ≠ 0 → (t.strand c st).loops = ⟨(successor m t0.pos).1, tgt.toNat, s.x c st a⟩ :: t0.loops ∧
          (t.strand c st).pos = (successor m t0.pos).1) ∧
        (s.x c st a = 0 → (t.strand c st).loops = t0.loops ∧
          (t.strand c st).pos = (successor m (16 * line + baseOf m line (tgt.toNat % 16) 16 0)).1)) ∧
    (t0.loops ≠ [] → ∃ t, exec (.lexit h tgt) s = .next t ∧ t.storage = s.storage ∧ s.Pushes t c st h 0 ∧
        (t.strand c st).prev = some (s.now c st) ∧ (t.strand c st).loops = t0.loops.tail ∧ (t.strand c st).pos = tgt.toNat ∧
        (t.strand c st).reach = .jump))

/-- retire ends its strand: its loop stack and a pending interrupt are gone, of which the Librarian learns, and nothing else that the machine stores
changes; in no turn of a retired strand does anything happen (R170, R171, R339). -/
def Obligations.RetireEndsTheStrand : Prop :=
  ∀ (s : State) (c : CoreId) (st : StrandId) (h : Hdr),
    (s.Issues c st h {} → ∃ t, exec (.retire h) s = .next t ∧ (t.strand c st).run = .retired ∧ (t.strand c st).prev = some (s.now c st) ∧
      (t.strand c st).loops = [] ∧ (t.strand c st).ipend = none ∧ (∀ a k v, (s.strand c st).ipend = some (a, k, v) → (c, st, v) ∈ t.lib.discards) ∧
      t.storage = (s.updStrand c st fun o => { o with run := .retired }).storage ∧
      (t.strand c st).flights = (s.strand c st).flights ∧ (t.strand c st).outs = (s.strand c st).outs ∧
      (t.strand c st).holds = (s.strand c st).holds ∧ t.cal = s.cal) ∧
    ((s.strand c st).run = .retired → s.strandTurn exec c st = .next s)

/-- trap makes its pushes in its issue cycle and leaves the software trap due with CODE, for the strand's next cycle; the strand stands at
the position that it would reach next, which the trap records (R172, R336). -/
def Obligations.TrapIsTakenInTheNextCycle : Prop :=
  ∀ (s : State) (c : CoreId) (st : StrandId) (h : Hdr) (code : BitVec 16), s.Issues c st h {} →
    (∃ t, exec (.trap h code) s = .next t ∧ s.Advanced t c st ∧ t.storage = s.storage ∧ s.Pushes t c st h 0 ∧
      (t.strand c st).trapDue = some (1, code.setWidth 64, none)) ∧
    (∀ u : State, u.canRun c st = true → u.poisonDue c st = none → (u.strand c st).trapDue = some (1, code.setWidth 64, none) →
      u.strandTurn exec c st = .next (u.trap c st { cause := 1, epc := (u.strand c st).pos, i0 := code.setWidth 64 }))

/-- give pushes CNT tokens beside those of its push bits in its issue cycle, having reserved their slots; take pops CNT tokens beside those
of its pop bits; a push makes its tokens stand in the FIFO, in slots that were reserved, and changes no other FIFO, register or memory (R37,
R39, R174). -/
def Obligations.GiveAndTakeMoveTheirTokens : Prop :=
  ∀ (s : State) (c : CoreId) (st : StrandId) (h : Hdr) (dir : Bool) (n : BitVec 4) (p m : Nat),
    (s.Issues c st h { pushes := [(pushFifo st dir, n.toNat)] } → ∃ t, exec (.give h dir n) s = .next t ∧ s.Advanced t c st ∧
      t.storage = s.storage ∧
      t.Pending (s.clock c st) (s.now c st) latePrio (.push c st (h.pap.toNat + if dir then 0 else n.toNat) (h.pan.toNat + if dir then n.toNat else 0)) ∧
      ((t.core c).fifo (pushFifo st dir)).resv =
        ((s.core c).fifo (pushFifo st dir)).resv + ((if dir then h.pan else h.pap).toNat + n.toNat)) ∧
    (s.Issues c st h { pops := [(popFifo st dir, n.toNat)] } → ∃ t, exec (.take h dir n) s = .next t ∧ s.Advanced t c st ∧
      t.storage = s.storage ∧ s.Pushes t c st h 0 ∧
      ((t.core c).fifo (popFifo st dir)).toks =
        ((s.core c).fifo (popFifo st dir)).toks.drop ((if dir then h.pbn else h.pbp).toNat + n.toNat)) ∧
    (let t := s.push c st p m
     (∀ b, ((t.core c).fifo (pushFifo st b)).toks.length = ((s.core c).fifo (pushFifo st b)).toks.length + (if b then m else p) ∧
       ((t.core c).fifo (pushFifo st b)).resv = ((s.core c).fifo (pushFifo st b)).resv - (if b then m else p)) ∧
     (∀ f, (∀ b, f ≠ pushFifo st b) → (t.core c).fifo f = (s.core c).fifo f) ∧ t.storage = s.storage ∧ t.cal = s.cal)

/-- mark is counted under its tag on its strand and holds the strand's later accesses behind those before it; the mark of the same ordinal on
its partner pairs with it, and each strand's later accesses are then held behind both strands' accesses before their marks. fence holds the
strand's later accesses (for .rel only stores, atomics and arrivals) behind everything ordered before it (for .acq only loads of its own), at
its scope, and hands its pushes to that hold. tfence waits for the strand's arithmetic results; it then completes, or leaves the arithmetic
trap due with the flags that are set and enabled. At the end of each cycle an access in the memory queue leaves for its unit when what it needs has
performed, no hold keeps it and, for a read, no older store of its strand to one of its words stands there; otherwise it stays one cycle more and its
result's write moves on; a strand's holds whose accesses have performed end with their pushes (R72, R102, R105, R106, R175, R176). A copy's or an
lred's own roundings are none of the results that tfence waits for: that is the model's choice (log entry 63). -/
def Obligations.MarksAndFencesHoldLaterAccesses : Prop :=
  ∀ (s : State) (c : CoreId) (st : StrandId) (h : Hdr) (tag : BitVec 4) (form : FenceForm) (sc : Scope),
    let t0 := s.strand c st
    let n := t0.marks[tag.toNat] + 1
    let own : Need := ⟨c, st, 0, t0.seq, false, false⟩
    (∀ p, (st = .l ∧ p = .s) ∨ (st = .s ∧ p = .l) → s.Issues c st h { legal := [.l, .s] } → n ≤ 15 + (s.strand c p).marks[tag.toNat] →
      let q0 := s.strand c p
      ∃ t, exec (.mark h tag) s = .next t ∧ s.Advanced t c st ∧ t.storage = s.storage ∧ s.Pushes t c st h 0 ∧
        (t.strand c st).marks = t0.marks.set tag.toNat n ∧ t.Pending (s.clock c st) (s.now c st) latePrio (.holds c st) ∧
        (q0.marks[tag.toNat] < n → (t.strand c st).holds = t0.holds ++ [⟨t0.ord, t0.seq, false, [own], some (tag.toNat, n), false, false, false⟩] ∧
          t.strand c p = q0) ∧
        (n ≤ q0.marks[tag.toNat] →
          let theirs := (q0.holds.find? fun o => o.mark == some (tag.toNat, n)).elim q0.seq (·.start)
          let paired (o : Hold) : Hold := if o.mark = some (tag.toNat, n) then { o with mark := none, needs := own :: o.needs } else o
          (t.strand c st).holds = t0.holds ++ [⟨t0.ord, t0.seq, false, [own, ⟨c, p, 0, theirs, false, false⟩], none, false, false, false⟩] ∧
          t.strand c p = { q0 with holds := q0.holds.map paired })) ∧
    (s.Issues c st h {} → ∃ t, exec (.fence h form sc) s = .next t ∧ s.Advanced t c st ∧ t.storage = s.storage ∧
      (t.strand c st).holds = t0.holds ++ [⟨t0.ord, t0.seq, form == .rel, (s.issued c st h {}).before c st sc (form == .acq), none, h.pap, h.pan,
        sc == .core⟩] ∧
      t.Pending (s.clock c st) (s.now c st) latePrio (.holds c st)) ∧
    (s.Issues c st h {} → ∃ t, exec (.tfence h) s = .next t ∧ s.Advanced t c st ∧ t.storage = s.storage ∧ t.cal = s.cal ∧
      s.WaitsFor t c st h .tfence 0) ∧
    (∀ w, t0.wait = some w → w.why = .tfence →
      let bits : Nat := (t0.fcsr.toNat / 2 ^ 8 % 2 ^ 6) &&& (t0.fcsr.toNat % 2 ^ 6)
      (bits ≠ 0 → s.endTfence c st = s.updStrand c st fun t => { t with trapDue := some (2, BitVec.ofNat 64 bits, some w.pos) }) ∧
      (bits = 0 → ((s.endTfence c st).strand c st).wait = none ∧ ((s.endTfence c st).strand c st).base = s.now c st + 1 ∧
        ((s.endTfence c st).strand c st).trapDue = t0.trapDue ∧ (s.endTfence c st).storage = s.storage)) ∧
    (∀ (clk : Clock) (ord seq lat prio : Nat) (storing far : Bool) (needs : List Need) (w : Work),
      let held (o : Hold) : Prop := o.start ≤ seq ∧ (storing = true ∨ o.stores = false) ∧ s.passes o (w.isLs c) = false
      let stays : Prop := (∃ n ∈ needs, s.met n = false) ∨ (∃ o ∈ t0.holds, held o) ∨ (∃ d ∈ t0.due, d.1 ≤ seq ∧ s.met d.2 = false) ∨
        (storing = false ∧ s.behindOwn c st seq w = true)
      let p := if bankPrio 8 0 ≤ prio ∧ prio < effects then prio + arrivalStep else prio
      ∃ t, s.runWork exec (.queued clk c st ord seq storing needs lat prio far w) = .next t ∧ t.gm = s.gm ∧
        (¬stays → t.storage = s.storage ∧ (∀ e, t.core e = s.core e) ∧ (far = false → t.Pending clk (s.read clk + lat) prio w) ∧
          (far = true → ∃ n, t.Pending .hc (s.hc + 1 + Config.delay n) prio w)) ∧
        (stays → t.Pending clk (s.read clk + 1) (queuePrio storing) (.queued clk c st ord seq storing needs lat p far (withPrio p w)) ∧
          t.strand c st = t0.updFlight ord (fun r => { r with w := r.w + 1 }) 1 ∧ (∀ e, e ≠ c → t.core e = s.core e) ∧
          SameCoreRegs (s.core c) (t.core c) ∧ SameCoreMem (s.core c) (t.core c))) ∧
    (∃ t, s.runWork exec (.holds c st) = .next t ∧ t.storage = s.storage ∧ (t.strand c st).holds = t0.holds.filter (fun o => !s.released o) ∧
      (t.strand c st).due = t0.due.filter (fun d => !s.met d.2) ∧
      (t.core c).fifos = (((t0.holds.filter s.released).foldl (fun u o => u.push c st o.pushP.toNat o.pushN.toNat) s).core c).fifos ∧
      ((∃ o ∈ t0.holds, s.released o = false) → t.Pending (s.clock c st) (s.now c st + 1) latePrio (.holds c st)))

/-- dtwait goes on after the domain time T = x[A] + OFS: with T ahead by d > 0 the wait is complete at DT T and x[D] becomes 0 one cycle
later; with T not ahead it is complete at once and x[D] becomes 1. A strand at system level, whose clock is its core's, waits for the
binding's DT to reach T, and is released one core cycle later (R167, R349; log entry 23). -/
def Obligations.DtwaitWaitsForADomainTime : Prop :=
  ∀ (s : State) (c : CoreId) (st : StrandId) (h : Hdr) (d a : XReg) (ofs : Word32), s.Issues c st h { writes := true } →
    let target := (s.x c st a + ofs.signExtend 64).extractLsb' 0 48
    let ahead : Int := (target - BitVec.ofNat 48 (s.dt c)).toInt
    let lvl := (s.strand c st).level
    let flag (v : Word) : Result := { xResult lvl d v with pos := (s.strand c st).pos, ord := (s.strand c st).ord }
    (∃ t, exec (.dtwait h d a ofs) s = .next t ∧ t.storage = s.storage ∧
      (0 < ahead → lvl = false → (t.strand c st).wait = (s.strand c st).wait ∧ (t.strand c st).base = s.now c st + ahead.toNat + 1 ∧
        s.Flies t c st (ahead.toNat + 1) (flag 0) true false ∧ s.Pushes t c st h ahead.toNat) ∧
      (0 < ahead → lvl = true → s.WaitsFor t c st h .dtime d ∧
        t.Pending (.dt (s.bidOf c)) (s.dt c + ahead.toNat) latePrio (.dtEnd c st (s.strand c st).ord)) ∧
      (ahead ≤ 0 → (t.strand c st).wait = (s.strand c st).wait ∧ (t.strand c st).base = s.now c st + 1 ∧
        s.Flies t c st 1 (flag 1) true false ∧ s.Pushes t c st h 0)) ∧
    (∀ u : State, ∀ w, (u.strand c st).wait = some w → ∃ t, u.runWork exec (.dtEnd c st w.ord) = .next t ∧ (t.strand c st).wait = none ∧
      (t.strand c st).base = u.now c st + 1 ∧ ∃ f, (t.strand c st).flights = (u.strand c st).flights ++ [f] ∧ f.w = u.now c st + 1 ∧
        f.ready = true ∧ f.res.target = .x true w.dest ∧ f.res.data = 0)

/-! ### Integers -/

/-- The integer instructions: each writes its result of R177, modulo 2^64, to x[D] at the cycle of R164, sets no flag, and leaves every
other register and all of memory as they are. -/
def Obligations.IntegerInstructionsYieldTheirResults : Prop :=
  ∀ (s : State) (c : CoreId) (st : StrandId) (h : Hdr) (d a b : XReg) (imm : Word32) (sh : BitVec 6), s.Issues c st h { writes := true } →
    let x := s.x c st a
    let y := s.x c st b
    let i := imm.signExtend 64
    let yields (ins : Instr) (lat : Nat) (v : Word) : Prop := s.Yields c st h ins lat (xResult (s.strand c st).level d v) true
    let truth (p : Bool) : Word := if p then 1 else 0
    yields (.add h d a b) 1 (x + y) ∧ yields (.addi h d a imm) 1 (x + i) ∧ yields (.sub h d a b) 1 (x - y) ∧
    yields (.and h d a b) 1 (x &&& y) ∧ yields (.andi h d a imm) 1 (x &&& i) ∧ yields (.or h d a b) 1 (x ||| y) ∧
    yields (.ori h d a imm) 1 (x ||| i) ∧ yields (.xor h d a b) 1 (x ^^^ y) ∧ yields (.xori h d a imm) 1 (x ^^^ i) ∧
    yields (.sll h d a b) 1 (x <<< (y.toNat % 64)) ∧ yields (.slli h d a sh) 1 (x <<< sh.toNat) ∧
    yields (.srl h d a b) 1 (x >>> (y.toNat % 64)) ∧ yields (.srli h d a sh) 1 (x >>> sh.toNat) ∧
    yields (.sra h d a b) 1 (x.sshiftRight (y.toNat % 64)) ∧ yields (.srai h d a sh) 1 (x.sshiftRight sh.toNat) ∧
    yields (.li h d imm) 1 i ∧ yields (.lih h d a imm) 1 ((imm.setWidth 64 <<< 32) ||| (x &&& 0xFFFFFFFF)) ∧
    yields (.slt h d a b) 1 (truth (decide (x.toInt < y.toInt))) ∧ yields (.sltu h d a b) 1 (truth (decide (x.toNat < y.toNat))) ∧
    yields (.slti h d a imm) 1 (truth (decide (x.toInt < i.toInt))) ∧
    yields (.min h d a b) 1 (if x.toInt < y.toInt then x else y) ∧ yields (.max h d a b) 1 (if x.toInt < y.toInt then y else x) ∧
    yields (.minu h d a b) 1 (if x.toNat < y.toNat then x else y) ∧ yields (.maxu h d a b) 1 (if x.toNat < y.toNat then y else x) ∧
    yields (.mul h d a b) 3 (x * y) ∧ yields (.mulh h d a b) 3 (((x.signExtend 128 * y.signExtend 128) >>> 64).setWidth 64) ∧
    yields (.mulhu h d a b) 3 (((x.setWidth 128 * y.setWidth 128) >>> 64).setWidth 64) ∧
    yields (.popc h d a) 1 (BitVec.ofNat 64 ((List.range 64).countP fun n => x.getLsbD n))

/-- Division: truncation toward zero, the results of a zero divisor with DZ, and the one signed overflow, written at issue + 18; nothing
else changes (R164, R178). -/
def Obligations.DivisionYieldsQuotientAndRemainder : Prop :=
  ∀ (s : State) (c : CoreId) (st : StrandId) (h : Hdr) (d a b : XReg), s.Issues c st h { writes := true } →
    let x := s.x c st a
    let y := s.x c st b
    let yields (ins : Instr) (v : Word) (dz : Bool) : Prop :=
      s.Yields c st h ins 18 { xResult (s.strand c st).level d v with flags := if dz then 0x10 else 0 } true
    (y = 0 → yields (.div h d a b) 0xFFFFFFFFFFFFFFFF true ∧ yields (.divu h d a b) 0xFFFFFFFFFFFFFFFF true ∧
      yields (.rem h d a b) x true ∧ yields (.remu h d a b) x true) ∧
    (x = 0x8000000000000000 → y = 0xFFFFFFFFFFFFFFFF → yields (.div h d a b) 0x8000000000000000 false ∧ yields (.rem h d a b) 0 false) ∧
    (y ≠ 0 → ¬(x = 0x8000000000000000 ∧ y = 0xFFFFFFFFFFFFFFFF) →
      ∃ q r : Word, yields (.div h d a b) q false ∧ yields (.rem h d a b) r false ∧ x.toInt = y.toInt * q.toInt + r.toInt ∧
        r.toInt.natAbs < y.toInt.natAbs ∧ (r = 0 ∨ (r.toInt < 0 ↔ x.toInt < 0))) ∧
    (y ≠ 0 → yields (.divu h d a b) (BitVec.ofNat 64 (x.toNat / y.toNat)) false ∧ yields (.remu h d a b) (BitVec.ofNat 64 (x.toNat % y.toNat)) false)

/-! ### Scalar loads and stores, streams -/

/-- lds and ldp: the bytes of the effective address are read at the target's banks after the stated cycles, xd is due at the stated cycle
with its extension, and an acquire form holds the later accesses; at issue no register and no byte changes. When the read falls due with its bank
free, and no older access of the strand to its word still to come, the result in flight holds the bytes that stand there, extended from their number
when the format is signed, and is ready; with its bank taken the read comes one cycle later, and so does the write (R74, R164, R179 to R181). -/
def Obligations.ScratchpadLoadsReadTheirBytes : Prop :=
  (∀ (s : State) (r : LsRead) (f : Flight) (n ad : Nat), n ∈ [1, 2, 4, 8] → ad % n = 0 → r.rounds = [(List.range n).map fun i => (i, ad + i)] →
    (s.strand r.core r.strand).flight r.ord = some f → f.res.data = 0 → f.res.flags = 0 → f.res.poison = none →
    let clk := if f.sys then Clock.cyc r.core else .dt (s.bidOf r.core)
    let free := bankOf ad ∉ (s.core r.target).used ∧
      s.crosses clk r.core r.strand r.seq r.target ((List.range n).map (ad + ·)) false = false
    (free → (s.core r.target).bad = [] → ∃ t g, s.runWork exec (.lsRead r) = .next t ∧ (t.strand r.core r.strand).flight r.ord = some g ∧
      g.ready = true ∧ g.w = f.w ∧ g.res = { f.res with data := loadValue r.sext (BitVec.ofNat 2048 (leNat ((s.core r.target).ls.read ad n))) } ∧
      t.Pending clk f.w (writePrio r.strand r.ord) (.flight r.core r.strand r.ord) ∧ t.gm = s.gm ∧ (∀ e, (t.core e).ls = (s.core e).ls)) ∧
    (¬free → ∃ t g, s.runWork exec (.lsRead r) = .next t ∧ (t.strand r.core r.strand).flight r.ord = some g ∧ g = { f with w := f.w + 1 } ∧
      t.Pending clk (s.read clk + 1) r.prio (.lsRead r) ∧ t.gm = s.gm ∧ ∀ e, (t.core e).ls = (s.core e).ls)) ∧
  ∀ (s : State) (c : CoreId) (st : StrandId) (h : Hdr) (d a : XReg) (f : IntFmt) (ord : Option Scope) (imm : Word32),
    s.Issues c st h { writes := true } →
    let t0 := s.strand c st
    let q := (s.issued c st h { writes := true }).strand c st
    let n := f.fmt.bits / 8
    let ea := (s.x c st a + imm.signExtend 64).toNat
    let loads (ins : Instr) (target : CoreId) (ad rd wr : Nat) : Prop :=
      ∃ t, exec ins s = .next t ∧ s.Advanced t c st ∧ t.storage = s.storage ∧
        s.Flies t c st wr (s.resultOf c st h (xResult t0.level d 0)) false false ∧
        (t.strand c st).seq = t0.seq + 1 ∧ (t.strand c st).outs = t0.outs ++ [⟨t0.seq, true, false, .ls target, []⟩] ∧
        s.Sends t q c st t0.seq false [] rd (accessPrio c st target (s.dt c) rd t0.ord)
          (.lsRead { core := c, strand := st, target := target, seq := t0.seq, ord := t0.ord
                     prio := accessPrio c st target (s.dt c) rd t0.ord, pos := t0.pos
                     rounds := roundsOf 257 ((List.range n).map fun i => (i, ad + i)), sext := if f.fmt.isSigned then n else 0
                     pops := (s.core c).popped st h { writes := true } }) ∧
        (ord = none → (t.strand c st).holds = t0.holds) ∧
        (∀ sc, ord = some sc → ∃ o, (t.strand c st).holds = t0.holds ++ [o] ∧ o.start = t0.seq + 1 ∧ o.stores = false)
    (ea % n = 0 → ea + n ≤ lsSize → ea < lsSize → s.earlyFault c t0.pos none ((List.range n).map fun i => (ea + i, s.now c st + 2)) = none →
      loads (.lds h d a f ord imm) c ea 2 8) ∧
    (ea % n = 0 → ea < 2 ^ 30 → ea % lsSize + n ≤ lsSize → s.member c (psCore ea) = true →
      (psCore ea = c → s.earlyFault c t0.pos none ((List.range n).map fun i => (ea % lsSize + i, s.now c st + 10)) = none) →
      loads (.ldp h d a f ord imm) (psCore ea) (ea % lsSize) (10 + 4 * hops c (psCore ea)) (20 + 8 * hops c (psCore ea)))

/-- sts and stp: the low bytes of x[B] as they stand at issue are sent to the effective address and perform there after the stated cycles;
a release form is ordered behind everything before it; at issue no register and no byte changes (R164, R179 to R181). -/
def Obligations.ScratchpadStoresSendTheirBytes : Prop :=
  ∀ (s : State) (c : CoreId) (st : StrandId) (h : Hdr) (a b : XReg) (f : IntFmt) (imm : Word32), s.Issues c st h {} →
    let t0 := s.strand c st
    let q := (s.issued c st h {}).strand c st
    let n := f.fmt.bits / 8
    let ea := (s.x c st a + imm.signExtend 64).toNat
    let acc (target : CoreId) (ad lat : Nat) : Access :=
      { core := c, strand := st, seq := t0.seq, unit := .ls target, addr := ad, op := .write (leBytes n (s.x c st b).toNat), pushP := h.pap
        pushN := h.pan, pos := t0.pos, sys := t0.level, ord := t0.ord, posted := false, va := 0, epoch := s.xlate.qcur
        prio := accessPrio c st target (s.dt c) lat t0.ord }
    let stores (ins : Option Scope → Instr) (target : CoreId) (ad lat : Nat) : Prop :=
      (∃ t, exec (ins none) s = .next t ∧ s.Advanced t c st ∧ t.storage = s.storage ∧ (t.strand c st).seq = t0.seq + 1 ∧
        s.Sends t q c st t0.seq true [] lat (acc target ad lat).prio (.ev (.storePerform (acc target ad lat)))) ∧
      (∀ sc, ∃ t o, exec (ins (some sc)) s = .next t ∧ s.Advanced t c st ∧ t.storage = s.storage ∧
        (t.strand c st).holds = t0.holds ++ [o] ∧ o.start = t0.seq ∧ o.stores = true ∧ o.needs = (s.issued c st h {}).before c st sc false ∧
        t.Pending (s.clock c st) (s.now c st) (queuePrio true) (.queued (s.clock c st) c st t0.ord t0.seq true [] lat (acc target ad lat).prio false
          (.ev (.storePerform (acc target ad lat)))))
    (ea % n = 0 → ea + n ≤ reservedCell → stores (fun o => .sts h a b f o imm) c ea 2) ∧
    (ea % n = 0 → ea < 2 ^ 30 → ea % lsSize + n ≤ reservedCell → s.member c (psCore ea) = true →
      stores (fun o => .stp h a b f o imm) (psCore ea) (ea % lsSize) (10 + 4 * hops c (psCore ea)))

/-- A scalar load or store to an address that is not a multiple of its size, or outside its space, or a store into the reserved cell, is
the space-access fault with the address and the space; a store to XM inside a commit group is the commit-scope fault with the address (R26, R50, R75,
R179, R336). -/
def Obligations.BadScratchpadAddressesFault : Prop :=
  ∀ (s : State) (c : CoreId) (st : StrandId) (h : Hdr) (d a b : XReg) (f : IntFmt) (ord : Option Scope) (imm : Word32),
    let t0 := s.strand c st
    let n := f.fmt.bits / 8
    let ea := (s.x c st a + imm.signExtend 64).toNat
    let space (k : Nat) : TrapInfo := { cause := 5, epc := t0.pos, i0 := BitVec.ofNat 64 ea, i1 := BitVec.ofNat 64 k }
    (s.Issues c st h { writes := true } → ea % n ≠ 0 ∨ lsSize < ea + n →
      exec (.lds h d a f ord imm) s = .next (s.trap c st (space 0))) ∧
    (s.Issues c st h {} → ea % n ≠ 0 ∨ reservedCell < ea + n → exec (.sts h a b f ord imm) s = .next (s.trap c st (space 0))) ∧
    (s.Issues c st h { writes := true } → ea % n ≠ 0 ∨ 2 ^ 30 ≤ ea ∨ lsSize < ea % lsSize + n ∨ s.member c (psCore ea) = false →
      exec (.ldp h d a f ord imm) s = .next (s.trap c st (space 1))) ∧
    (s.Issues c st h {} → ea % n ≠ 0 ∨ 2 ^ 30 ≤ ea ∨ reservedCell < ea % lsSize + n ∨ s.member c (psCore ea) = false →
      exec (.stp h a b f ord imm) s = .next (s.trap c st (space 1))) ∧
    (s.Issues c st h { writes := true } → ea % n ≠ 0 ∨ 2 ^ 48 ≤ ea → exec (.ldg h d a f ord imm) s = .next (s.trap c st (space 2))) ∧
    (s.Issues c st h {} → ea % n ≠ 0 ∨ 2 ^ 48 ≤ ea → exec (.stg h a b f ord imm) s = .next (s.trap c st (space 2))) ∧
    (let dev := ea / 2 ^ 48 % 2 ^ 14
     let outside := ea % n ≠ 0 ∨ 2 ^ 62 ≤ ea ∨ 2 ^ 48 < ea % 2 ^ 48 + n ∨ (dev ≠ s.devId ∧ dev ∉ s.lib.domMembers)
     (s.Issues c st h { writes := true } → outside → exec (.ldx h d a f ord imm) s = .next (s.trap c st (space 3))) ∧
     (s.Issues c st h {} → outside → exec (.stx h a b f ord imm) s = .next (s.trap c st (space 3))) ∧
     (s.Issues c st h {} → ¬outside → s.inGroup c = true →
       exec (.stx h a b f ord imm) s = .next (s.trap c st { cause := 10, epc := t0.pos, i0 := BitVec.ofNat 64 ea })))

/-- ldg and ldx hold their strand until the data is written: the read is sent, xd is due, and every register and byte stays at issue; stg
and stx take a store slot and send the low bytes of x[B] as they stand at issue; an acquire or release form adds its hold. An address that
does not translate is its fault. When the read of a load from GM falls due, every older access of its strand has performed at core scope and its channel
serves it, the result in flight holds the bytes as the core sees them, extended when the format is signed, its write falls in this tick, and the hold
ends: the strand may issue from the next cycle (R99, R102, R164, R179, R180, R182). -/
def Obligations.FarAccessesGoThroughThePort : Prop :=
  (∀ (s : State) (c : CoreId) (st : StrandId) (ord seq n pa sext : Nat) (vas : List Nat) (w : Wait) (f : Flight), n ∈ [1, 2, 4, 8] → pa % n = 0 →
    vas.length = n → (s.strand c st).wait = some w → w.ord = ord → (∃ sp a, w.why = .held sp a) → (s.strand c st).flight ord = some f → f.res.data = 0 →
    (∀ b, s.bindingOf c = some b → b.cg = false) → (∀ o ∈ (s.strand c st).outs, o.seq < seq → o.core = true) →
    let as := (List.range n).map (pa + ·)
    s.badGm as = none → (s.serve .md as).2 = true →
    ∃ t g, s.runWork exec (.farRead c st ord seq none ((List.range n).map fun i => (i, pa + i)) sext vas) = .next t ∧
      (t.strand c st).wait = none ∧ (t.strand c st).base = s.now c st + 1 ∧ (t.strand c st).flight ord = some g ∧ g.ready = true ∧
      g.w = s.now c st ∧ g.res.target = f.res.target ∧ g.res.mask = f.res.mask ∧
      g.res.data = loadValue sext (BitVec.ofNat 2048 (leNat (s.gmBytes c as))) ∧
      (s.portWrites c .gm = [] → s.gmBytes c as = s.gm.read pa n) ∧
      t.Pending .hc s.hc (writePrio st ord) (.flight c st ord) ∧ t.gm = s.gm ∧ ∀ e, (t.core e).ls = (s.core e).ls) ∧
  ∀ (s : State) (c : CoreId) (st : StrandId) (h : Hdr) (d a b : XReg) (f : IntFmt) (imm : Word32),
    let t0 := s.strand c st
    let n := f.fmt.bits / 8
    let ea := (s.x c st a + imm.signExtend 64).toNat
    let q (r : Req) : Strand := (s.issued c st h r).strand c st
    let loads (ins : Option Scope → Instr) (space : Nat) (dev : Option Nat) (pa : Nat) : Prop :=
      s.Issues c st h { writes := true } → ∀ ord, ∃ t, exec (ins ord) s = .next t ∧ s.Advanced t c st ∧ t.contents = s.contents ∧
        s.WaitsFor t c st h (.held space ea) d ∧ s.Flies t c st 1 (s.resultOf c st h (xResult t0.level d 0)) false false ∧
        (t.strand c st).seq = t0.seq + 1 ∧ (∃ o, (t.strand c st).outs = t0.outs ++ [o] ∧ o.seq = t0.seq ∧ o.load = true ∧ o.core = false ∧ o.unit = (match dev with | none => .gm | some d => .xm d)) ∧
        s.SendsFar t (q { writes := true }) c st t0.seq false 0 (.farRead c st t0.ord t0.seq dev ((List.range n).map fun i => (i, pa + i))
          (if f.fmt.isSigned then n else 0) ((List.range n).map (ea + ·))) ∧
        (ord = none → (t.strand c st).holds = t0.holds) ∧
        (∀ sc, ord = some sc → ∃ o, (t.strand c st).holds = t0.holds ++ [o] ∧ o.start = t0.seq + 1 ∧ o.stores = false)
    let stores (ins : Option Scope → Instr) (unit : MemUnit) (pa : Nat) : Prop :=
      let acc : Access :=
        { core := c, strand := st, seq := t0.seq, unit := unit, addr := pa, op := .write (leBytes n (s.x c st b).toNat), pushP := h.pap
          pushN := h.pan, pos := t0.pos, sys := t0.level, ord := t0.ord, posted := false, va := ea, epoch := s.xlate.qcur, prio := effects }
      s.Issues c st h {} → s.slotsUsed c st < 16 →
        (∃ t, exec (ins none) s = .next t ∧ s.Advanced t c st ∧ t.contents = s.contents ∧ (t.strand c st).seq = t0.seq + 1 ∧
          s.Sends t (q { needs := true }) c st t0.seq true [] 1 effects (.ev (.storePerform acc))) ∧
        (∀ sc, ∃ t o, exec (ins (some sc)) s = .next t ∧ s.Advanced t c st ∧ t.contents = s.contents ∧
          (t.strand c st).holds = t0.holds ++ [o] ∧ o.start = t0.seq ∧ o.stores = true ∧
          o.needs = (s.issued c st h { needs := true }).before c st sc false ∧
          t.Pending (s.clock c st) (s.now c st) (queuePrio true)
            (.queued (s.clock c st) c st t0.ord t0.seq true [] 1 effects false (.ev (.storePerform acc))))
    (ea % n = 0 → s.gmFault c st false ea .read = none → loads (fun o => .ldg h d a f o imm) 2 none (s.gmPa c false ea .read)) ∧
    (ea % n = 0 → s.xmFault t0.pos ea n = none → loads (fun o => .ldx h d a f o imm) 3 (some (ea / 2 ^ 48 % 2 ^ 14)) (ea % 2 ^ 48)) ∧
    (ea % n = 0 → s.gmFault c st false ea .write = none → stores (fun o => .stg h a b f o imm) .gm (s.gmPa c false ea .write)) ∧
    (ea % n = 0 → s.xmFault t0.pos ea n = none → s.inGroup c = false →
      stores (fun o => .stx h a b f o imm) (.xm (ea / 2 ^ 48 % 2 ^ 14)) (ea % 2 ^ 48)) ∧
    (∀ e ord, ea % n = 0 → s.gmFault c st false ea .read = some e → s.Issues c st h { writes := true } →
      exec (.ldg h d a f ord imm) s = .next (s.issueFault c st e)) ∧
    (∀ e ord, ea % n = 0 → s.gmFault c st false ea .write = some e → s.Issues c st h {} → exec (.stg h a b f ord imm) s = .next (s.issueFault c st e))

/-- The stream set-up instructions: what each makes of the descriptor q[D], or delivers to x[D], and that nothing else that the machine
stores changes; qld reads and qst writes 32 bytes of LS (R190, R191). -/
def Obligations.StreamSetUpWritesDescriptors : Prop :=
  ∀ (s : State) (c : CoreId) (st : StrandId) (h : Hdr) (d a : QReg) (r : XReg) (x y : XReg) (n : BitVec 2) (imm : Word32) (ch : BitVec 3)
    (en u : Bool),
    let t0 := s.strand c st
    let old := ((s.core c).rq d).toBits
    let src := ((s.core c).rq a).toBits
    let ea := (s.x c st x + imm.signExtend 64).toNat
    let becomes (i : Instr) (p : BitVec 256 → Prop) : Prop := s.Issues c st h { legal := [.x, .l, .s], writes := true } →
      ∃ res : Result, s.Yields c st h i 1 res false ∧ res.target = .q d ∧ res.flags = 0 ∧
        p (merge old (res.data.setWidth 256) (res.mask.setWidth 256))
    let delivers (i : Instr) (v : Word) : Prop := s.Issues c st h { writes := true } →
      s.Yields c st h i 2 (xResult t0.level r v) false
    becomes (.qset h d x n) (fun w => ∀ m : BitVec 2,
      w.extractLsb' (64 * m.toNat) 64 = if m = n then s.x c st x else old.extractLsb' (64 * m.toNat) 64) ∧
    becomes (.qmov h d a) (fun w => w = src) ∧
    becomes (.qadv h d x y imm) (fun w =>
      (w.extractLsb' 0 48).toNat = ((old.extractLsb' 0 48).toNat + ea) % 2 ^ 48 ∧
      (w.extractLsb' 192 48).toNat = ((old.extractLsb' 192 48).toNat + (s.x c st y).toNat) % 2 ^ 48 ∧
      ∀ j, 48 ≤ j ∧ j < 192 ∨ 240 ≤ j → w.getLsbD j = old.getLsbD j) ∧
    becomes (.qwp h d ch en) (fun w => w.getLsbD 54 = en ∧ w.extractLsb' 55 3 = ch ∧ ∀ j, j < 54 ∨ 58 ≤ j → w.getLsbD j = old.getLsbD j) ∧
    delivers (.qget h r a n) (src.extractLsb' (64 * n.toNat) 64) ∧
    delivers (.qchk h r a u) (BitVec.ofNat 64 (((s.core c).rq a).check u)) ∧
    (ea % 32 = 0 → ea + 32 ≤ lsSize → s.earlyFault c t0.pos none ((List.range 32).map fun i => (ea + i, s.now c st + 2)) = none →
      s.Issues c st h { legal := [.x, .l, .s], writes := true } → ∃ t, exec (.qld h d x imm) s = .next t ∧ s.Advanced t c st ∧
        t.storage = s.storage ∧ s.Flies t c st 8 (s.resultOf c st h (qResult d 0 (BitVec.allOnes 256))) false false ∧
        s.Sends t ((s.issued c st h { legal := [.x, .l, .s], writes := true }).strand c st) c st t0.seq false [] 2
          (accessPrio c st c (s.dt c) 2 t0.ord)
          (.lsRead { core := c, strand := st, target := c, seq := t0.seq, ord := t0.ord, prio := accessPrio c st c (s.dt c) 2 t0.ord
                     pos := t0.pos, rounds := roundsOf 257 ((List.range 32).map fun i => (i, ea + i)), sext := 0, pops := [] })) ∧
    (ea % 32 = 0 → ea + 32 ≤ reservedCell → s.Issues c st h {} → ∃ t, exec (.qst h a x imm) s = .next t ∧ s.Advanced t c st ∧
      t.storage = s.storage ∧ ∃ acc : Access, acc.core = c ∧ acc.strand = st ∧ acc.unit = .ls c ∧ acc.addr = ea ∧
        acc.op = .write (leBytes 32 src.toNat) ∧ acc.pushP = h.pap ∧ acc.pushN = h.pan ∧
        s.Sends t ((s.issued c st h {}).strand c st) c st t0.seq true [] 2 acc.prio (.ev (.storePerform acc)))

/-- The copy instructions: with no fault and room in the copy unit, the copy is accepted with its operands as they stand at issue and its
push is made; no register changes; without barriers no byte does. A copy of no bytes does nothing else, and that it is over at once is the model's choice
(R40, R188, R192 to R197; log entry 49). With no room the instruction waits (R194). -/
def Obligations.CopiesAreAcceptedByTheCopyUnit : Prop :=
  ∀ (s : State) (c : CoreId) (st : StrandId) (h : Hdr) (d a b : XReg) (o : CopySpec), s.Issues c st h { legal := [.l, .s] } →
    let dst := (s.x c st d).toNat
    let src := (s.x c st a).toNat
    let n := (s.x c st b).toNat % 2 ^ 33
    let db := o.db.map fun sp => (sp, (s.x c st o.c).toNat)
    let sb := o.sb.map fun g => (if g then ObjSpace.gm else .ls, (s.x c st (o.c + 1)).toNat)
    let accepts (k : CopyKind) (i : Instr) : Prop := s.copyFault k dst src n o.cv db sb = none →
      (n = 0 → (s.core c).copyBusy st = none → ∃ t, exec i s = .next t ∧ s.Advanced t c st ∧ t.storage = s.storage ∧ s.Pushes t c st h 0) ∧
      (∀ u, (s.core c).copyBusy st = some u → (∃ d, h.timing = .after d) → exec i s = .next (s.updStrand c st fun t => { t with blocked := some u })) ∧
      (n ≠ 0 → (s.core c).copyBusy st = none → ∃ t, exec i s = .next t ∧ s.Advanced t c st ∧ s.Pushes t c st h 0 ∧
        (t.core c).nextCopy = (s.core c).nextCopy + 1 ∧ (t.core c).copies.length = (s.core c).copies.length + 1 ∧
        (∃ p ∈ (t.core c).copies, p.id = 256 * (s.core c).nextCopy + c.val ∧ p.core = c ∧ p.strand = st ∧ p.pos = (s.strand c st).pos ∧
          p.kind = k ∧ p.dst = dst ∧ p.src = src ∧ p.n = n ∧ p.scope = o.scope ∧ p.ch.val = o.ch.toNat ∧ p.cv = o.cv ∧ p.db = db ∧ p.sb = sb ∧
          p.dt = s.dt c) ∧
        (∀ e q, SameRegs (s.strand e q) (t.strand e q)) ∧ (∀ e, SameCoreRegs (s.core e) (t.core e)) ∧
        (db = none → sb = none → t.gm = s.gm ∧ ∀ e, SameCoreMem (s.core e) (t.core e)))
    accepts .ll (.cpLl h d a b o) ∧ accepts .lp (.cpLp h d a b o) ∧ accepts .pl (.cpPl h d a b o) ∧ accepts .lf (.cpLf h d a b o) ∧
    accepts .lw (.cpLw h d a b o) ∧ accepts .lg (.cpLg h d a b o) ∧ accepts .gl (.cpGl h d a b o) ∧ accepts .gg (.cpGg h d a b o) ∧
    accepts .lx (.cpLx h d a b o) ∧ accepts .xl (.cpXl h d a b o) ∧ accepts .gx (.cpGx h d a b o) ∧ accepts .xg (.cpXg h d a b o) ∧
    accepts .al (.cpAl h d a b o) ∧ accepts .ag (.cpAg h d a b o) ∧ accepts .aw (.cpAw h d a b o) ∧ accepts .gw (.cpGw h d a b o)

/-- binit, barr, wset, wwake and npost send their update to the object's unit, after what a release orders first; a wwake's count is in flight from its
issue; at issue no register and no byte changes. An object named in PS has the row of PS, also one of the strand's own core (R110, R189, R198 to R202,
R273, R343). -/
def Obligations.ObjectUpdatesAreSentToTheirUnit : Prop :=
  ∀ (s : State) (c : CoreId) (st : StrandId) (h : Hdr) (sp : ObjSpace) (d a b : XReg) (ord : Option Scope),
    let t0 := s.strand c st
    let ad := (s.x c st a).toNat
    let y := s.x c st b
    let sends (sp : ObjSpace) (i : Instr) (size : Nat) (ord : Option Scope) (writes : Bool) (op : UnitOp) : Prop :=
      let r : Req := { writes := writes, needs := decide (sp = .gm ∨ sp = .xm) }
      let pl := s.objPlace c sp ad .atomic
      let lat := match pl.1 with | .ls k => if sp = .ls then 3 else 11 + 4 * hops c k | _ => 1
      let back := match pl.1 with | .ls k => if sp = .ls then 2 else 10 + 4 * hops c k | _ => 2
      let needs : List Need := match ord with
        | none => []
        | some sc => if sp = .xm ∧ sc.rank < 3 then [] else (s.issued c st h r).before c st sc false
      s.Issues c st h { writes := writes } → s.objFault c st sp ad size false .atomic = none → (sp = .gm ∨ sp = .xm → s.slotsUsed c st < 16) →
      ∃ t acc, exec i s = .next t ∧ s.Advanced t c st ∧ t.contents = s.contents ∧ (pl.1 ≠ .gm → t.storage = s.storage) ∧
        (t.strand c st).seq = t0.seq + 1 ∧ acc.core = c ∧ acc.strand = st ∧ acc.seq = t0.seq ∧ acc.unit = pl.1 ∧ acc.addr = pl.2 ∧ acc.op = op ∧ acc.pushP = h.pap ∧
        acc.pushN = h.pan ∧ acc.va = ad ∧
        (opDest op = none → (t.strand c st).flights = t0.flights) ∧
        (∀ d, opDest op = some d → s.Flies t c st (lat + back) { xResult t0.level d 0 with pos := t0.pos, ord := t0.ord } false false) ∧
        s.Sends t ((s.issued c st h r).strand c st) c st t0.seq true needs lat acc.prio (.ev (.storePerform acc))
    sends sp (.binit h sp a b) 32 none false (.binit (y.extractLsb' 0 32) (y.extractLsb' 32 16)) ∧
    sends sp (.barr h sp a ord) 32 ord false .barr ∧ sends sp (.wset h sp a b ord) 16 ord false (.wset y) ∧
    sends sp (.wwake h sp d a b ord) 16 ord true (.wwake y d) ∧
    sends .gm (.npost h a b false) 16 none false (.npost (y.extractLsb' 0 32)) ∧
    sends .gm (.npost h a b true) 16 (some .dev) false (.npost (y.extractLsb' 0 32))

/-- A wait on an object puts its strand into the wait, with its object, condition, operand and limit, and sends its first read; a poll sends
one read whose value is due in x[D]; at issue no register and no byte changes. The read of an object in a scratchpad gives a poll the object's value,
and has a wait judged after the updates of the tick: one whose condition the object meets is released, with the value, in this cycle; any other links
its strand's record (R111, R189, R200 to R203, R273). -/
def Obligations.ObjectWaitsAndPollsReadTheirObject : Prop :=
  (∀ (s : State) (c k : CoreId) (st : StrandId) (ord seq pa prio : Nat) (d : XReg), bankOf pa ∉ (s.core k).used →
    s.crosses (s.clock c st) c st seq k ((List.range 32).map (pa + ·)) false = false →
    let at' (o : Nat) : Word := (s.core k).ls.word (pa + o)
    let reads (poll : Nat) : Work := .objRead c st ord seq (.ls k) pa poll d prio
    (∀ f poll, (s.strand c st).flight ord = some f → poll = 1 ∨ poll = 2 →
      let v1 : Word := BitVec.ofNat 64 (((at' 8).extractLsb' 0 32).toNat * 2 ^ 32 + ((at' 16).extractLsb' 16 8).toNat * 2 ^ 16 + ((at' 16).extractLsb' 0 16).toNat)
      ∃ t g, s.runWork exec (reads poll) = .next t ∧ (t.strand c st).flight ord = some g ∧ g.ready = true ∧ g.w = f.w ∧
        g.res.data = (if poll = 1 then v1 else at' 0).setWidth 2048 ∧
        t.Pending (if f.sys then .cyc c else .dt (s.bidOf c)) f.w (writePrio st ord) (.flight c st ord) ∧ t.gm = s.gm ∧
        ∀ e, (t.core e).ls = (s.core e).ls) ∧
    (∀ w, (s.strand c st).wait = some w → w.cond ≠ 8 → ∃ t, s.runWork exec (reads 0) = .next t ∧
      t.Pending .hc s.hc judgePrio (.objJudge c st ord (.ls k) pa) ∧ (t.strand c st).wait = some w ∧ t.gm = s.gm ∧
      ∀ e, (t.core e).ls = (s.core e).ls)) ∧
  (∀ (s : State) (c k : CoreId) (st : StrandId) (pa : Nat) (w : Wait) (cls a : Nat) (sp : ObjSpace) (arg : Word) (lim : Option Nat),
    (s.strand c st).wait = some w → w.why = .object cls sp a arg lim →
    let v := (s.core k).ls.word pa
    let ph := (s.core k).ls.word (pa + 16)
    let ahead := ((ph.extractLsb' 0 16 - arg.extractLsb' 0 16).toInt : Int)
    let done : Prop := (w.cond = 9 ∧ 0 ≤ ahead) ∨ (w.cond = 10 ∧ (arg.toNat % 2 ^ 32 ≤ v.toNat % 2 ^ 32 ∨ v.extractLsb' 32 8 ≠ 0)) ∨
      (w.cond = 0 ∧ v = arg) ∨ (w.cond = 1 ∧ v ≠ arg) ∨ (w.cond = 2 ∧ arg.toNat ≤ v.toNat) ∨ (w.cond = 3 ∧ v.toNat < arg.toNat) ∨
      (w.cond = 4 ∧ arg.toInt ≤ v.toInt) ∨ (w.cond = 5 ∧ v.toInt < arg.toInt) ∨ (w.cond = 6 ∧ v &&& arg ≠ 0) ∨ (w.cond = 7 ∧ v &&& arg = 0)
    (w.cond ≤ 10 → done → ∃ t, s.runWork exec (.objJudge c st w.ord (.ls k) pa) = .next t ∧
      t.Pending (s.clock c st) (s.now c st) latePrio (.ev (.waitRelease c st w.ord (if w.cond = 9 then s.barrierValue ⟨.ls k, pa⟩ 0 else v))) ∧
      t.gm = s.gm ∧ ∀ e, (t.core e).ls = (s.core e).ls) ∧
    (w.cond ≤ 10 → ¬done → ∃ t u, s.runWork exec (.objJudge c st w.ord (.ls k) pa) = .next t ∧ (t.strand c st).wait = some u ∧
      u = { w with linked := true } ∧ t.cal = s.cal)) ∧
  ∀ (s : State) (c : CoreId) (st : StrandId) (h : Hdr) (sp : ObjSpace) (d a b : XReg) (cond : BitVec 3) (ord : Option Scope) (lim : Word32)
    (acq : Bool), s.Issues c st h { writes := true } →
    let t0 := s.strand c st
    let q := (s.issued c st h { writes := true }).strand c st
    let ad := (s.x c st a).toNat
    let y := s.x c st b
    let sent (t : State) (sp : ObjSpace) (pl : MemUnit × Nat) (poll : Nat) : Prop :=
      let lat := match pl.1 with | .ls k => if sp = .ls then 2 else 10 + 4 * hops c k | _ => 0
      let prio := match pl.1 with | .ls k => accessPrio c st k (s.dt c) lat t0.ord | _ => effects
      let w : Work := .objRead c st t0.ord t0.seq pl.1 pl.2 poll d prio
      (∀ k, pl.1 = .ls k → s.Sends t q c st t0.seq false [] lat prio w) ∧
      ((∀ k, pl.1 ≠ .ls k) → s.SendsFar t q c st t0.seq false lat w)
    let waits (sp : ObjSpace) (i : Instr) (size cls cnd : Nat) (arg : Word) (limit : Option Nat) (acq : Bool) : Prop :=
      let pl := s.objPlace c sp ad .atomic
      s.objFault c st sp ad size false .atomic = none →
      ∃ t w, exec i s = .next t ∧ s.Advanced t c st ∧ t.contents = s.contents ∧ (pl.1 ≠ .gm → t.storage = s.storage) ∧
        s.WaitsFor t c st h (.object cls sp ad arg limit) d ∧
        (t.strand c st).wait = some w ∧ w.cond = cnd ∧ w.acq = acq ∧ w.seq = t0.seq ∧ w.unit = pl.1 ∧ w.pa = pl.2 ∧ w.linked = false ∧
        (t.strand c st).seq = t0.seq + 1 ∧ sent t sp pl 0
    let polls (i : Option Scope → Instr) (size kind : Nat) : Prop :=
      let pl := s.objPlace c sp ad .read
      s.objFault c st sp ad size true .read = none →
      ∃ t, exec (i ord) s = .next t ∧ s.Advanced t c st ∧ t.contents = s.contents ∧ (pl.1 ≠ .gm → t.storage = s.storage) ∧
        (t.strand c st).seq = t0.seq + 1 ∧ (∀ k, pl.1 = .ls k → s.Flies t c st (if sp = .ls then 4 else 20 + 8 * hops c k) (s.resultOf c st h (xResult t0.level d 0)) false false) ∧
        ((∀ k, pl.1 ≠ .ls k) → s.Flies t c st 2 (s.resultOf c st h (xResult t0.level d 0)) false false) ∧
        sent t sp pl kind ∧ (ord = none → (t.strand c st).holds = t0.holds) ∧
        (∀ sc, ord = some sc → ∃ o, (t.strand c st).holds = t0.holds ++ [o] ∧ o.start = t0.seq + 1 ∧ o.stores = false)
    waits sp (.bwait h sp d a b ord) 32 2 9 (BitVec.ofNat 64 (y.toNat % 2 ^ 16)) none ord.isSome ∧
    waits sp (.bwaitt h sp d a b ord lim) 32 2 9 (BitVec.ofNat 64 (y.toNat % 2 ^ 16)) (some (s.hc + lim.toNat)) ord.isSome ∧
    waits sp (.wwait h sp d a b cond ord) 16 3 cond.toNat y none ord.isSome ∧
    waits sp (.wqwait h sp d a ord) 16 3 8 0 none ord.isSome ∧
    waits .gm (.nwait h d a b acq) 16 3 10 (BitVec.ofNat 64 (y.toNat % 2 ^ 32)) none acq ∧
    polls (fun o => .bpoll h sp d a o) 32 1 ∧ polls (fun o => .wpoll h sp d a o) 16 2

/-- The atomics send their operation with its operands as they stand at issue to the location's unit. At a scratchpad the old value is due in
x[D] at the stated cycle, with D = x0 nothing is; at GM or XM an atomic with a destination holds its strand, one without takes a store slot. A
release form first holds the atomic and the strand's later stores behind what it orders, an acquire form holds the strand's later accesses. At
issue no register and no byte changes (R50, R113, R180, R204, R205). -/
def Obligations.AtomicsAreSentToTheirUnit : Prop :=
  ∀ (s : State) (c : CoreId) (st : StrandId) (h : Hdr) (d a b : XReg) (o : AtomSpec), s.Issues c st h { writes := true } →
    let r : Req := { writes := true }
    let t0 := s.strand c st
    let q := (s.issued c st h r).strand c st
    let n := o.fmt.bits / 8
    let ad := (s.x c st a).toNat
    let op : UnitOp := .atomic o (s.x c st b) (s.x c st o.c) d
    let cov (k : Hold) (start : Nat) (stores : Bool) : Prop := k.start = start ∧ k.stores = stores ∧ k.mark = none ∧ k.pushP = false ∧ k.pushN = false
    let sends (t : State) (unit : MemUnit) (addr va lat prio : Nat) : Prop :=
      let acc : Access :=
        { core := c, strand := st, seq := t0.seq, unit := unit, addr := addr, op := op, pushP := h.pap, pushN := h.pan, pos := t0.pos
          sys := t0.level, ord := t0.ord, posted := false, va := va, epoch := s.xlate.qcur, prio := prio }
      let after (ks : List Hold) : Prop := s.Sends t { q with holds := q.holds ++ ks } c st t0.seq true [] lat prio (.ev (.storePerform acc))
      (t.strand c st).seq = t0.seq + 1 ∧
      (o.ord = .rlx → (t.strand c st).holds = t0.holds ∧ after []) ∧
      (∀ sc, o.ord = .acq sc → ∃ k, (t.strand c st).holds = t0.holds ++ [k] ∧ cov k (t0.seq + 1) false ∧ after []) ∧
      (∀ sc, o.ord = .rel sc → ∃ k, (t.strand c st).holds = t0.holds ++ [k] ∧ cov k t0.seq true ∧
        k.needs = (s.issued c st h r).before c st sc false ∧ after [k]) ∧
      (∀ sc, o.ord = .acqrel sc → ∃ k l, (t.strand c st).holds = t0.holds ++ [k, l] ∧ cov k t0.seq true ∧
        k.needs = (s.issued c st h r).before c st sc false ∧ cov l (t0.seq + 1) false ∧ after [k])
    let scratch (i : Instr) (k : CoreId) (addr lat wr : Nat) : Prop :=
      ∃ t, exec i s = .next t ∧ s.Advanced t c st ∧ t.storage = s.storage ∧
        sends t (.ls k) addr 0 lat (accessPrio c st k (s.dt c) lat t0.ord) ∧
        (t.strand c st).wait = t0.wait ∧ (d = 0 → (t.strand c st).flights = t0.flights) ∧
        (d ≠ 0 → s.Flies t c st wr (s.resultOf c st h (xResult t0.level d 0)) false true)
    -- a form that may wait for a store slot is a blocking point, which changes no more than a monitor's record
    let far (i : Instr) (space : Nat) (unit : MemUnit) (pa : Nat) : Prop := (d = 0 → s.slotsUsed c st < 16) →
      ∃ t, exec i s = .next t ∧ s.Advanced t c st ∧ t.contents = s.contents ∧ (unit ≠ .gm → t.storage = s.storage) ∧ sends t unit pa ad 1 effects ∧
        (t.strand c st).flights = t0.flights ∧ (d = 0 → (t.strand c st).wait = t0.wait) ∧
        (d ≠ 0 → s.WaitsFor t c st h (.held space ad) d)
    (ad % n = 0 → ad + n ≤ reservedCell → scratch (.aml h d a b o) c ad 3 8) ∧
    (ad % n = 0 → ad < 2 ^ 30 → ad % lsSize + n ≤ reservedCell → s.member c (psCore ad) = true →
      scratch (.amp h d a b o) (psCore ad) (ad % lsSize) (11 + 4 * hops c (psCore ad)) (21 + 8 * hops c (psCore ad))) ∧
    (ad % n = 0 → s.gmFault c st false ad .atomic = none → far (.amg h d a b o) 2 .gm (s.gmPa c false ad .atomic)) ∧
    (ad % n = 0 → s.xmFault t0.pos ad n = none → s.inGroup c = false →
      far (.amx h d a b o) 3 (.xm (ad / 2 ^ 48 % 2 ^ 14)) (ad % 2 ^ 48))

/-- flue.put appends v[A] to the neighbour's FIFO when a slot is free; flue.get takes the oldest entry that ten cycles have made visible and
writes it two cycles later; flue.free reads the counter. No other register and no memory changes. A pair of layers without a slot in FSLOT is
a space-access fault, whose TINFO0 and TINFO1 of 0 are the model's own (R91, R96, R97, R206; log entry 68). -/
def Obligations.FlueFifosPassEntriesInOrder : Prop :=
  ∀ (s : State) (c n : CoreId) (st : StrandId) (h : Hdr) (v : VReg) (r : XReg) (down : Bool), s.member c n = true →
    let same (t : State) : Prop := (∀ e o, SameRegs (s.strand e o) (t.strand e o)) ∧
      (∀ e, SameCoreRegs (s.core e) (t.core e) ∧ SameCoreMem (s.core e) (t.core e)) ∧ t.gm = s.gm
    let slots (src dst : CoreId) : Prop := ∃ i < 8, slotOf (s.core c).fslot (layerOf src) (layerOf dst) i = true
    let faults (i : Instr) : Prop := exec i s = .next (s.trap c st { cause := 5, epc := (s.strand c st).pos, i0 := 0, i1 := 0 })
    (neighbour c down = some n → slots c n → (s.core n).awake = true → 0 < s.freeSlots c down (s.dt c) → s.Issues c st h { legal := [.s] } →
      ∃ t, exec (.fluePut h down v) s = .next t ∧ s.Advanced t c st ∧ s.Pushes t c st h 0 ∧ same t ∧
        (t.core n).entries down = (s.core n).entries down ++ [(s.dt c, (s.core c).v[v.toNat])]) ∧
    (∀ e, neighbour c (!down) = some n → slots n c → (s.core c).visible down (s.dt c) = some e → s.Issues c st h { legal := [.l], writes := true } →
      ∃ t, exec (.flueGet h v down) s = .next t ∧ s.Advanced t c st ∧ s.Pushes t c st h 0 ∧ same t ∧
        (s.core c).entries down = e :: (t.core c).entries down ∧ e.1 + 10 ≤ s.dt c ∧
        s.Flies t c st 2 { vResult v (e.2, BitVec.allOnes 2048) 0 with pos := (s.strand c st).pos, ord := (s.strand c st).ord } true false) ∧
    (neighbour c down = some n → slots c n → s.Issues c st h { legal := [.s], writes := true } →
      s.Yields c st h (.flueFree h r down) 2 (xResult (s.strand c st).level r (BitVec.ofNat 64 (s.freeSlots c down (s.dt c)))) false) ∧
    (neighbour c down = some n → ¬slots c n → (s.Issues c st h { legal := [.s] } → faults (.fluePut h down v)) ∧
      (s.Issues c st h { legal := [.s], writes := true } → faults (.flueFree h r down))) ∧
    (neighbour c (!down) = some n → ¬slots n c → s.Issues c st h { legal := [.l], writes := true } → faults (.flueGet h v down))

/-- lred, lbcast and lgath are accepted by the copy unit with their operands, level and tag; acc answers its status and, with status 0,
queues its accession; accq holds its strand until the value is delivered. No register changes at issue (R206 to R211, R280). -/
def Obligations.CollectivesAndAccessionsAreAccepted : Prop :=
  ∀ (s : State) (c : CoreId) (st : StrandId) (h : Hdr) (d a b e : XReg) (f : Fmt) (rm : Rm) (sat repl : Bool) (o : CollSpec) (sel : AccqSel),
    let dst := (s.x c st d).toNat
    let src := (s.x c st a).toNat
    let n := (s.x c st b).toNat % 2 ^ 33
    let sp (g : Bool) : ObjSpace := if g then .gm else .ls
    let db := o.db.map fun g => (sp g, (s.x c st o.c).toNat)
    let sb := o.sb.map fun g => (sp g, (s.x c st (o.c + 1)).toNat)
    let joins (k : CopyKind) (nd : Nat) (i : Instr) : Prop := s.Issues c st h { legal := [.l, .s] } → s.collFault dst src n nd db sb = none →
      (s.core c).copyBusy st = none → (n = 0 → ∃ t, exec i s = .next t) ∧ (n ≠ 0 → ∃ t, exec i s = .next t ∧ s.Advanced t c st ∧
        s.Pushes t c st h 0 ∧ (t.core c).nextCopy = (s.core c).nextCopy + 1 ∧ (t.core c).copies.length = (s.core c).copies.length + 1 ∧
        (∃ p ∈ (t.core c).copies, p.id = 256 * (s.core c).nextCopy + c.val ∧ p.kind = k ∧ p.dst = dst ∧ p.src = src ∧ p.n = n ∧ p.strand = st ∧
          p.db = db ∧ p.sb = sb ∧ ∃ g, p.coll = some g ∧ g.lvl = o.lvl ∧ g.tag = o.tag ∧ g.arg = o.arg.toNat) ∧
        (∀ e q, SameRegs (s.strand e q) (t.strand e q)) ∧ (∀ e, SameCoreRegs (s.core e) (t.core e)))
    joins .lred n (.lred h d a b f rm sat o) ∧ joins .lbcast n (.lbcast h d a b o) ∧
    joins .lgath (n * domCount (collDom (s.core c) o.lvl)) (.lgath h d a b o) ∧
    (s.Issues c st h { legal := [.l, .s], writes := true } → s.inGroup c = false → n ≤ 2 ^ 32 →
      let id := (s.x c st e).toNat
      let record := (s.x c st (e + 1)).toNat
      let status := accStatus s.archive id src n record
      ∃ t, exec (.acc h d a b e repl) s = .next t ∧ s.Advanced t c st ∧
        s.Flies t c st 2 (s.resultOf c st h (xResult (s.strand c st).level d (BitVec.ofNat 64 status))) true false ∧
        (status ≠ 0 → t.storage = s.storage) ∧
        (status = 0 → ∃ x, t.archive.accs = s.archive.accs ++ [x] ∧ x.id = id ∧ x.repl = repl ∧ x.src = src ∧ x.n = n ∧ x.record = record ∧
          x.asid = (s.core c).asid ∧ x.started = false ∧ x.status = none) ∧
        (∀ e q, SameRegs (s.strand e q) (t.strand e q)) ∧ t.gm = s.gm ∧ t.archive.objects = s.archive.objects) ∧
    (s.Issues c st h { writes := true } → ∃ t, exec (.accq h d sel) s = .next t ∧ s.Advanced t c st ∧ t.storage = s.storage ∧
      s.WaitsFor t c st h (.unit 7 0) d ∧ ∃ k, t.Pending .hc (s.hc + 1 + Config.delay k) latePrio (.accq c st (s.strand c st).ord sel))

/-! ### Vector instructions -/

/-- The element-wise arithmetic: each enabled element of v[D] becomes the stated function of the same elements of its sources, written with
the union of the elements' flags at the stated cycle; the other bits of v[D], every other register and all of memory stay. Then the functions
themselves. Rounding to a floating-point format: a representable value stands; between two neighbouring values each mode takes the one that R60 and
R65 name, a tie of RM 0 going to the code with bit 0 clear and otherwise to the smaller (R57); beyond the greatest value it overflows or saturates;
NaN and infinities give the codes of the table. To an integer format: in range the rounded integer, out of range the end of the range (R67); integers
fit into integers by clamping or by their low bits (R68). The bounded operations: the special and exact cases, and otherwise a place within the bound
on the side that the mode asks (R221); which place it is, among those, is the implementation's (log entry 5), as are the values that log entry 24 names
(R60 to R65, R67, R68, R213, R214, R217 to R222, R229, R230). -/
def Obligations.VectorArithmeticYieldsItsElements : Prop :=
  (∀ (s : State) (c : CoreId) (st : StrandId) (h : Hdr) (d a b e : VReg) (k : KReg) (f g : Fmt) (rm : Rm) (sat sf : Bool) (part sb : BitVec 4),
    s.Issues c st h { legal := [.c], writes := true } →
    let va := (s.core c).rv a
    let vb := (s.core c).rv b
    let ve := (s.core c).rv e
    let m := (s.core c).rk k
    let wide (w n : Nat) : Nat := if f = .f64 then w else n
    let i (v : VecData) (j : Nat) : Int := intValue f (elem v f j)
    let x (v : VecData) (j : Nat) : Machine.Num := floatValue f (elem v f j)
    let each (ins : Instr) (rm : Rm) (lat : Nat) (op : Nat → Nat → Nat × Flg) : Prop :=
      s.YieldsElems c st h ins d f.bits (enabledElems m f) rm lat op
    let two (ins : Instr) (lat : Nat) (int : Int → Int → Int) (fl : Machine.Num → Machine.Num → Machine.Num) : Prop :=
      each ins rm lat fun j r => if f.isI then fitInt f sat (int (i va j) (i vb j)) else roundTo f rm r sat (fl (x va j) (x vb j))
    let fused (ins : Instr) (p q : Machine.Num → Machine.Num) : Prop :=
      each ins rm (wide 6 4) fun j r => roundTo f rm r sat (.sum rm [p ((x va j).mul (x vb j)), q (x ve j)])
    let bounded (ins : Instr) (o : BoundedOp) : Prop := each ins rm (wide 20 12) fun j _ => boundedOp o f rm (elem va f j)
    let moves := (partMoves f.bits g.bits part.toNat).filter fun p => enabled m g p.1
    let from' (j : Nat) : Nat := (assocGet moves j).getD 0
    let terms := redTerms va m f
    two (.vadd h d a b k f rm sat) (if f.isI then 2 else wide 6 4) (· + ·) (fun p q => .sum rm [p, q]) ∧
    two (.vsub h d a b k f rm sat) (if f.isI then 2 else wide 6 4) (· - ·) (fun p q => .sum rm [p, q.negate]) ∧
    two (.vmul h d a b k f rm sat) (if f.isI then 3 else wide 6 4) (· * ·) Machine.Num.mul ∧
    fused (.vfma h d a b e k f rm sat) id id ∧ fused (.vfms h d a b e k f rm sat) id Machine.Num.negate ∧
    fused (.vfnma h d a b e k f rm sat) Machine.Num.negate id ∧
    each (.vmin h d a b k f) .rne (if f.isI then 2 else wide 6 4) (fun j _ => pickElem f false (elem va f j) (elem vb f j)) ∧
    each (.vmax h d a b k f) .rne (if f.isI then 2 else wide 6 4) (fun j _ => pickElem f true (elem va f j) (elem vb f j)) ∧
    each (.vclamp h d a b e k f) .rne (if f.isI then 2 else wide 6 4) (fun j _ =>
      let p := pickElem f true (elem va f j) (elem vb f j)
      if p.2 = 0 then pickElem f false p.1 (elem ve f j) else p) ∧
    each (.vabs h d a k f sat) .rne 2 (fun j _ => if f.isI then fitInt f sat (i va j).natAbs else (elem va f j % 2 ^ (f.bits - 1), 0)) ∧
    each (.vneg h d a k f sat) .rne 2 (fun j _ => if f.isI then fitInt f sat (-(i va j)) else (elem va f j ^^^ 2 ^ (f.bits - 1), 0)) ∧
    each (.vround h d a k f rm) rm (wide 6 4) (fun j r => roundIntegral f rm r (elem va f j)) ∧
    each (.vclass h d a k f) .rne 2 (fun j _ => (classOf f (elem va f j), 0)) ∧
    each (.vdiv h d a b k f rm) rm (wide 28 14) (fun j r => rounded f rm r ((x va j).div (x vb j)).1 ((x va j).div (x vb j)).2) ∧
    each (.vsqrt h d a k f rm) rm (wide 28 14) (fun j r => rounded f rm r (x va j).sqrt 0) ∧
    each (.vrcp h d a k f rm) rm (wide 20 12) (fun j r =>
      rounded f rm r ((Machine.Num.fin false 1 1).div (x va j)).1 ((Machine.Num.fin false 1 1).div (x va j)).2) ∧
    bounded (.vrsq h d a k f rm) .rsq ∧ bounded (.vexp h d a k f rm) .exp ∧ bounded (.vexp2 h d a k f rm) .exp2 ∧
    bounded (.vlog h d a k f rm) .log ∧ bounded (.vlog2 h d a k f rm) .log2 ∧ bounded (.vsin h d a k f rm) .sin ∧
    bounded (.vcos h d a k f rm) .cos ∧ bounded (.vtanh h d a k f rm) .tanh ∧
    s.YieldsElems c st h (.vcvt h d a k f g rm sat part) d g.bits (moves.map (·.1)) rm 3
      (fun j r => convert f g rm r sat (elem va f (from' j))) ∧
    s.YieldsElems c st h (.vqnt h d a b k f g rm sat sb sf part) d g.bits (moves.map (·.1)) rm 4
      (fun j r => scaledConvert f g rm r sat (scaleOf vb sb.toNat sf (from' j)) (elem va f (from' j))) ∧
    s.YieldsElems c st h (.vdqnt h d a b k f g rm sat sb sf part) d g.bits (moves.map (·.1)) rm 4
      (fun j r => scaledConvert f g rm r sat (scaleOf vb sb.toNat sf (from' j)) (elem va f (from' j))) ∧
    s.YieldsElems c st h (.vredadd h d a b k f g rm sat) d g.bits [0] rm 8 (fun _ r => redSum f g rm sat r (elem vb g 0) terms) ∧
    s.YieldsElems c st h (.vredmax h d a b k f g) d g.bits [0] .rne 8 (fun _ _ => redPick f g true (elem vb g 0) terms) ∧
    s.YieldsElems c st h (.vredmin h d a b k f g) d g.bits [0] .rne 8 (fun _ _ => redPick f g false (elem vb g 0) terms)) ∧
  (∀ (f : Fmt) (rm : Rm) (r : Nat) (sat neg : Bool) (n d : Nat), f.isI = false → 0 < d →
    let x : ℚ := n / d
    let y := roundTo f rm r sat (.fin neg n d)
    let top := maxFinite f
    let next := nextMagnitude f
    (n = 0 → y = (signedCode f neg 0, 0)) ∧
    (∀ m, finiteCode f m = true → 0 < n → magnitude f m = x → y = (signedCode f neg m, 0)) ∧
    (∀ lo hi, finiteCode f lo = true → finiteCode f hi = true → magnitude f lo < x → x < magnitude f hi →
      (∀ m, finiteCode f m = true → magnitude f m ≤ magnitude f lo ∨ magnitude f hi ≤ magnitude f m) →
      let part := (x - magnitude f lo) / (magnitude f hi - magnitude f lo)
      let c := if takesUpper rm neg r part (lo % 2 == 1 && hi % 2 == 0) then hi else lo
      y = (signedCode f neg c, if magnitude f c < minNormal f then fNX ||| fUF else fNX)) ∧
    (magnitude f top < x → y =
      if next ≤ x ∨ takesUpper rm neg r ((x - magnitude f top) / (next - magnitude f top)) (top % 2 == 1 && f != .t8) = true then
        if sat then (signedCode f neg top, fSAT ||| fNX)
        else if rm = .rz ∨ (rm = .rdn ∧ neg = false) ∨ (rm = .rup ∧ neg = true) then (signedCode f neg top, fOF ||| fNX)
        else (overflowValue f neg, fOF ||| fNX)
      else (signedCode f neg top, fNX))) ∧
  -- the format, its NaN, its infinity or what stands for one, whether that has a sign, its flag, the greatest finite code
  (∀ p ∈ ([(.f64, 0x7FF8000000000000, 0x7FF0000000000000, true, 0, 0x7FEFFFFFFFFFFFFF), (.f32, 0x7FC00000, 0x7F800000, true, 0, 0x7F7FFFFF),
      (.bf16, 0x7FC0, 0x7F80, true, 0, 0x7F7F), (.f16, 0x7E00, 0x7C00, true, 0, 0x7BFF), (.e5m2, 0x7E, 0x7C, true, 0, 0x7B),
      (.e4m3, 0x7F, 0x7F, false, fIV, 0x7E), (.t8, 0x80, 0x80, false, fIV, 0x01), (.e2m1, 0x0, 0x7, true, fIV, 0x7)] :
        List (Fmt × Nat × Nat × Bool × Flg × Nat)), ∀ (rm : Rm) (r : Nat) (sat neg : Bool),
    let signed (b : Bool) (m : Nat) : Nat := if b && neg then 2 ^ (p.1.bits - 1) + m else m
    roundTo p.1 rm r sat .nan = (p.2.1, fIV) ∧ overflowValue p.1 neg = signed p.2.2.2.1 p.2.2.1 ∧ maxFinite p.1 = p.2.2.2.2.2 ∧
    roundTo p.1 rm r sat (.inf neg) = if sat then (signed true p.2.2.2.2.2, fSAT) else (signed p.2.2.2.1 p.2.2.1, p.2.2.2.2.1)) ∧
  (∀ (f : Fmt) (rm : Rm) (r : Nat) (sat neg : Bool) (n d : Nat), f.isI = true → 0 < d →
    let x : ℚ := n / d
    let lo := n / d
    let q : Nat := if (lo : ℚ) = x then lo else if takesUpper rm neg r (x - lo) (lo % 2 == 1) then lo + 1 else lo
    let i : Int := if neg then -(q : Int) else q
    let y := toInt f rm r sat (.fin neg n d)
    let out := if sat then fSAT else fIV
    intValue f y.1 = max (intMin f) (min i (intMax f)) ∧ y.1 < 2 ^ f.bits ∧
    y.2 = (if intMin f ≤ i ∧ i ≤ intMax f then (if (q : ℚ) = x then 0 else fNX) else out) ∧
    toInt f rm r sat .nan = (0, fIV) ∧ (toInt f rm r sat (.inf neg)).2 = out ∧
    intValue f (toInt f rm r sat (.inf neg)).1 = if neg then intMin f else intMax f) ∧
  (∀ (f : Fmt) (sat : Bool) (i : Int), f.isI = true →
    let y := fitInt f sat i
    y.1 < 2 ^ f.bits ∧ (intMin f ≤ i → i ≤ intMax f → intValue f y.1 = i ∧ y.2 = 0) ∧
    (sat = false → (y.1 : Int) = i % 2 ^ f.bits ∧ y.2 = 0) ∧
    (sat = true → intValue f y.1 = max (intMin f) (min i (intMax f)) ∧ (i < intMin f ∨ intMax f < i → y.2 = fSAT))) ∧
  (∀ (f g : Fmt) (rm : Rm) (r : Nat) (sat : Bool) (v : Nat), convert f g rm r sat v =
    if g.isI then (if f.isI then fitInt g sat (intValue f v) else toInt g rm r sat (floatValue f v))
    else roundTo g rm r sat (if f.isI then .fin (decide (intValue f v < 0)) (intValue f v).natAbs 1 else floatValue f v)) ∧
  (∀ (f : Fmt) (rm : Rm) (v : Nat), f ∈ [Fmt.f64, .f32, .bf16, .f16] → v < 2 ^ f.bits →
    let is (o : BoundedOp) (m : Nat) (g : Flg) : Prop := boundedOp o f rm v = (m, g)
    let one (neg : Bool) : Nat := signBit f neg + fpBias f * 2 ^ fracBits f
    let inf (neg : Bool) : Nat := signBit f neg + maxFinite f + 1
    let nan (o : BoundedOp) : Prop := is o (defaultNan f) fIV
    (floatValue f v = .nan → ∀ o, nan o) ∧
    (floatValue f v = .inf false → is .rsq 0 0 ∧ is .exp v 0 ∧ is .exp2 v 0 ∧ is .log v 0 ∧ is .log2 v 0 ∧ is .tanh (one false) 0) ∧
    (floatValue f v = .inf true → nan .rsq ∧ is .exp 0 0 ∧ is .exp2 0 0 ∧ nan .log ∧ nan .log2 ∧ is .tanh (one true) 0) ∧
    (∀ neg, floatValue f v = .inf neg → nan .sin ∧ nan .cos) ∧
    (∀ neg d, floatValue f v = .fin neg 0 d → is .rsq (inf neg) fDZ ∧ is .exp (one false) 0 ∧ is .exp2 (one false) 0 ∧ is .log (inf true) fDZ ∧
      is .log2 (inf true) fDZ ∧ is .sin v 0 ∧ is .cos (one false) 0 ∧ is .tanh v 0) ∧
    (∀ n d, floatValue f v = .fin true n d → 0 < n → nan .rsq ∧ nan .log ∧ nan .log2) ∧
    (v = one false → is .log 0 0) ∧
    (∀ (k : Int) n d, floatValue f v = .fin false n d → (n / d : ℚ) = 2 ^ k → is .log2 (roundTo f .rz 0 false (.ofInt k)).1 0) ∧
    (∀ (k : Int) m neg n d, floatValue f v = .fin neg n d → (if neg then -(n / d : ℚ) else n / d) = k → finiteCode f m = true →
      magnitude f m = 2 ^ k → is .exp2 m 0) ∧
    (f = .f32 ∨ f = .f64 → ∀ o e, bounded o (floatValue f v) = .encl e → 0 < e.den → candidates f rm (halfUlps o (floatValue f v)) e ≠ [] →
      ∃ i, is o (placeResult f rm e i).1 (placeResult f rm e i).2 ∧ ∀ x : ℚ, (e.low : ℚ) ≤ x * e.den → x * e.den ≤ e.high →
        let y : ℚ := (placeValue f i).1 / (placeValue f i).2
        |y - x| ≤ halfUlps o (floatValue f v) / 2 * 2 ^ (e.binade f - fracBits f) ∧ (rm = .rdn → y ≤ x) ∧ (rm = .rup → x ≤ y) ∧ (rm = .rz → |y| ≤ |x|)))

/-- Comparison, selection, masks, bit operations, shifts, permutes and transfers: the result of each, written at its cycle, raises no flag
but a comparison's, and nothing else that the machine stores changes (R214, R223 to R228, R231). -/
def Obligations.VectorMovesYieldTheirResults : Prop :=
  ∀ (s : State) (c : CoreId) (st : StrandId) (h : Hdr) (d a b e : VReg) (k ka kb kd : KReg) (xr xd : XReg) (f : Fmt) (cond : BitVec 3)
    (tt : BitVec 8) (n : BitVec 2) (first up : Bool), s.Issues c st h { legal := [.c], writes := true } →
    let va := (s.core c).rv a
    let vb := (s.core c).rv b
    let m := (s.core c).rk k
    let x := s.x c st xr
    let level := (s.strand c st).level
    let count := elemCount f
    let elems (i : Instr) (lat : Nat) (op : Nat → Nat) : Prop :=
      s.Yields c st h i lat (vResult d (packElems f.bits ((enabledElems m f).map fun j => (j, op j))) 0) true
    let whole (i : Instr) (v : VecData) : Prop := s.Yields c st h i 2 (vResult d (v, BitVec.allOnes 2048) 0) true
    let inside (v : VecData) (j : Nat) : Nat := if j < count then elem v f j else 0
    let window (lo hi : VecData) (j : Nat) : Nat := if j < count then elem lo f j else inside hi (j - count)
    let outcomes := (enabledElems m f).map fun j => (j, compareElem cond f (elem va f j) (elem vb f j))
    let bits (keep : Nat × Bool × Flg → Bool) : MaskData := BitVec.ofNat 256
      ((outcomes.filter keep).foldl (fun w p => w ||| (2 ^ (f.bits / 8) - 1) <<< (f.bits / 8 * p.1)) 0)
    let sh := x.toNat % 2048
    s.Yields c st h (.vcmp h kd a b k cond f) 2 (kResult kd (bits (·.2.1)) (bits fun _ => true) (orFlags (outcomes.map (·.2.2)))) true ∧
    s.Yields c st h (.vsel h d a b k f) 2
      (vResult d (packElems f.bits ((List.range count).map fun j => (j, if enabled m f j then elem va f j else elem vb f j))) 0) true ∧
    elems (.vmov h d a k f) 2 (elem va f) ∧
    (∃ w : MaskData, s.Yields c st h (.kop h kd ka kb k tt) 2 (kResult kd w (BitVec.allOnes 256) 0) true ∧ ∀ j < 256, w.getLsbD j =
      tt.getLsbD (4 * (((s.core c).rk ka).getLsbD j).toNat + 2 * (((s.core c).rk kb).getLsbD j).toNat + (m.getLsbD j).toNat)) ∧
    (∃ w : MaskData, s.Yields c st h (.kmov h kd xr kb n) 2 (kResult kd w (BitVec.allOnes 256) 0) true ∧ ∀ i : BitVec 2,
      w.extractLsb' (64 * i.toNat) 64 = if i = n then x else ((s.core c).rk kb).extractLsb' (64 * i.toNat) 64) ∧
    s.Yields c st h (.vpopc h xd k first) 2 (xResult level xd (BitVec.ofNat 64
      (if first then ((List.range 256).find? m.getLsbD).getD 256 else (List.range 256).countP m.getLsbD))) true ∧
    (∃ w : VecData, elems (.vlop3 h d a b e k f tt) 2 (elem w f) ∧ ∀ j < 2048, w.getLsbD j =
      tt.getLsbD (4 * (va.getLsbD j).toNat + 2 * (vb.getLsbD j).toNat + (((s.core c).rv e).getLsbD j).toNat)) ∧
    elems (.vsll h d a b k f) 2 (fun j => if elem vb f j < f.bits then elem va f j * 2 ^ elem vb f j % 2 ^ f.bits else 0) ∧
    elems (.vsrl h d a b k f) 2 (fun j => if elem vb f j < f.bits then elem va f j / 2 ^ elem vb f j else 0) ∧
    elems (.vsra h d a b k f) 2 (fun j => shiftTop f.bits (elem va f j) (elem vb f j)) ∧
    whole (.vfsl h d a b xr) ((va ++ vb).extractLsb' (2048 - sh) 2048) ∧ whole (.vfsr h d a b xr) ((va ++ vb).extractLsb' sh 2048) ∧
    (∃ w : VecData, whole (.vrot h d a xr) w ∧ ∀ j < 2048, w.getLsbD ((j + sh) % 2048) = va.getLsbD j) ∧
    elems (.vperm h d a b k f) 8 (fun j => inside va (elem vb f j)) ∧
    elems (.vslide h d a b xr k f up) 4 (fun j =>
      if up then (if x.toNat ≤ count + j then window vb va (count + j - x.toNat) else 0) else window va vb (j + x.toNat)) ∧
    elems (.vbcast h d a xr k f) 4 (fun _ => inside va x.toNat) ∧
    elems (.vsplat h d xr k f) 2 (fun _ => x.toNat % 2 ^ f.bits) ∧
    s.Yields c st h (.vext h xd a xr f) 2 (xResult level xd
      (if f.isSigned then signExtend (f.bits / 8) (inside va x.toNat) else BitVec.ofNat 64 (inside va x.toNat))) true

/-- vld and vst through a stream, and the accumulator moves; at issue no register and no byte changes. An LS vld sends its reads in rounds from
issue + 2, and its result is due one cycle later with each further round; one none of whose elements lies inside the stream has its zeros
ready. A GM vld holds its strand and samples each byte's page at issue. An LS vst sends its bytes to perform from issue + 6; a GM vst sends one
write for each smallest page, in one store slot, the last of which makes the push. vacr reads the cells at issue + 2 for a result due at
issue + 6; vacw writes those of its enabled elements at issue + 4. When the read falls due, element j of the result becomes the cell in column
col + j (for f64 the cells of the row pair), whose corrected errors are counted, and an uncorrectable error (which the model names by its row and
column: log entry 42) poisons the result; when the write falls due, the cells of the enabled elements hold them and every other cell, register and
byte stays (R40, R77, R86, R232 to R236). The order in which the pages of one GM vst perform and the issue cycle in which a GM access samples its pages
are the model's (log entries 18, 29, 50 and 67). -/
def Obligations.VectorMemoryInstructionsSendTheirAccesses : Prop :=
  (∀ (s : State) (c : CoreId) (st : StrandId) (ord row col : Nat) (wide : Bool) (data : VecData) (mask : MaskData),
    let f : Fmt := if wide then .f64 else .f32
    let n := elemCount f
    let rows := if wide then [2 * row, 2 * row + 1] else [row]
    let ws := rows.flatMap fun r => accWords r col n
    let bits (j : Nat) : Nat := if wide then ((s.core c).cell (2 * row) (col + j)).toNat + 2 ^ 32 * ((s.core c).cell (2 * row + 1) (col + j)).toNat
      else ((s.core c).cell row (col + j)).toNat
    let place (w : Nat) : Nat := w / 64 + 65536 * (2 * (w % 64))
    (∃ got : VecData, (∀ j < n, elem got f j = bits j) ∧ s.runWork exec (.cellsRead c st ord row col wide) =
      .next ((s.countPlaces c 1 ws).arrive c st ord got 0 ((ws.find? (s.core c).badAcc.contains).map fun w => (1, place w)))) ∧
    ((s.core c).acc.wf = true → col + n ≤ 128 → ∃ t, s.runWork exec (.cellsWrite c row col wide data mask) = .next t ∧ t.gm = s.gm ∧ t.cal = s.cal ∧
      (∀ e, e ≠ c → t.core e = s.core e) ∧ (∀ e o, t.strand e o = s.strand e o) ∧ (t.core c).ls = (s.core c).ls ∧
      SameCoreRegs (s.core c) (t.core c) ∧ ∀ r k, k < 128 → (t.core c).cell r k =
        match (enabledElems mask f).find? (fun j => col + j == k && rows.contains r) with
        | some j => BitVec.ofNat 32 (elem data f j / (if wide ∧ r = 2 * row + 1 then 2 ^ 32 else 1))
        | none => (s.core c).cell r k)) ∧
  ∀ (s : State) (c : CoreId) (st : StrandId) (h : Hdr) (d : VReg) (a : QReg) (x : XReg) (k : KReg) (f : Fmt), (st ≠ .c → k = 0) →
    let t0 := s.strand c st
    let q := (s.core c).rq a
    let m := (s.core c).rk k
    let ps := streamPlaces m q (s.x c st x).toNat
    let bytes := loadPlaces q.fmt ps
    let out := storeBytes q.fmt ((s.core c).rv d) ps
    let load : Req := { legal := [.l, .c], writes := true }
    let store : Req := { legal := [.s, .c] }
    let strandAt (r : Req) : Strand := (s.issued c st h r).strand c st
    let cells : Word := s.x c st x
    let row := cells.toNat % 2 ^ 10
    let col := cells.toNat / 2 ^ 16 % 2 ^ 7
    let mask (f : Fmt) : VecData := (packElems f.bits ((enabledElems m f).map fun e => (e, 0))).2
    let result (f : Fmt) : Result := s.resultOf c st h (vResult d (0, mask f) 0)
    let acc (i : Nat) (unit : MemUnit) (addr va : Nat) (bs : List (Nat × Byte × Byte)) (push : Bool) (prio : Nat) : Access :=
      { core := c, strand := st, seq := t0.seq + i, unit := unit, addr := addr, op := .scatter bs, pushP := push && h.pap, pushN := push && h.pan
        pos := t0.pos, sys := t0.level, ord := t0.ord, posted := false, va := va, epoch := s.xlate.qcur, prio := prio }
    (s.Issues c st h load → s.streamFault a ps false = none →
      (q.space = 0 → bytes = [] → s.Yields c st h (.vld h d a x k) 10 (vResult d (0, mask q.fmt) 0) false) ∧
      (q.space = 0 → bytes ≠ [] → ∃ t, exec (.vld h d a x k) s = .next t ∧ s.Advanced t c st ∧ t.storage = s.storage ∧
        (t.strand c st).seq = t0.seq + 1 ∧ s.Flies t c st (9 + (roundsOf 257 bytes).length) (result q.fmt) false false ∧
        s.Sends t (strandAt load) c st t0.seq false [] 2 (bankPrio 3 (strandRank st t0.ord))
          (.lsRead { core := c, strand := st, target := c, seq := t0.seq, ord := t0.ord, prio := bankPrio 3 (strandRank st t0.ord), pos := t0.pos
                     rounds := roundsOf 257 bytes, sext := 0, pops := [] })) ∧
      (q.space ≠ 0 → ∃ t, exec (.vld h d a x k) s = .next t ∧ s.Advanced t c st ∧ t.contents = s.contents ∧ (t.strand c st).seq = t0.seq + 1 ∧
        s.WaitsFor t c st h (.held 2 (match ps with | p :: _ => p.2.1.toNat | [] => q.base)) 0 ∧ s.Flies t c st 1 (result q.fmt) false false ∧
        s.SendsFar t (strandAt load) c st t0.seq false 0 (.farRead c st t0.ord t0.seq none
          (bytes.map fun p => (p.1, (s.issued c st h load).gmPa c false p.2 .read)) 0 (bytes.map (·.2))))) ∧
    (s.Issues c st h store → s.streamFault a ps true = none → (q.space ≠ 0 → s.slotsUsed c st < 16) →
      (q.space = 0 ∨ out = [] → ∃ t, exec (.vst h d a x k) s = .next t ∧ s.Advanced t c st ∧ t.storage = s.storage ∧
        (t.strand c st).seq = t0.seq + 1 ∧ (t.strand c st).wait = t0.wait ∧ (t.strand c st).flights = t0.flights ∧
        s.Sends t (strandAt store) c st t0.seq true [] 6 (bankPrio 4 (strandRank st t0.ord))
          (.ev (.storePerform (acc 0 (.ls c) 0 0 out true (bankPrio 4 (strandRank st t0.ord)))))) ∧
      (q.space ≠ 0 → out ≠ [] → ∃ t, exec (.vst h d a x k) s = .next t ∧ s.Advanced t c st ∧ t.contents = s.contents ∧
        (t.strand c st).seq = t0.seq + (storePages out).length ∧ (t.strand c st).wait = t0.wait ∧ (t.strand c st).flights = t0.flights ∧
        ∀ i p, (storePages out)[i]? = some p →
          let pa := (s.issued c st h store).gmPa c false p.1 .write
          s.Sends t (strandAt store) c st (t0.seq + i) true [] 6 effects (.ev (.storePerform
            (acc i .gm pa p.1 (p.2.map fun b => (b.1 - p.1 + pa, b.2)) (decide (i + 1 = (storePages out).length)) effects))))) ∧
    (cells.toNat = row + 2 ^ 16 * col → col % (if f = .f64 then 32 else 64) = 0 → (f = .f64 → row < 512) →
      (s.Issues c st h { legal := [.c], writes := true } → ∃ t, exec (.vacr h d x k f) s = .next t ∧ s.Advanced t c st ∧ t.storage = s.storage ∧
        s.Flies t c st 6 (result f) false false ∧
        t.Pending (s.clock c st) (s.now c st + 2) (effects - 1) (.cellsRead c st t0.ord row col (decide (f = .f64)))) ∧
      (s.Issues c st h { legal := [.c] } → ∃ t, exec (.vacw h x d k f) s = .next t ∧ s.Advanced t c st ∧ t.storage = s.storage ∧
        (t.strand c st).flights = t0.flights ∧ s.Pushes t c st h 4 ∧
        t.Pending (s.clock c st) (s.now c st + 4) vacwPrio (.cellsWrite c row col (decide (f = .f64)) ((s.core c).rv d) m)))

/-! ### Range engine, near memory, system -/

/-- The queued commands of the range engine and nlaunch: with no fault and a place in its queue, the command joins its hob's queue with its
operands as they stand at issue and its push is made; no register and no byte of memory changes (R43, R122, R237, R241 to R246, R272). -/
def Obligations.CommandsJoinTheirQueue : Prop :=
  ∀ (s : State) (c : CoreId) (st : StrandId) (h : Hdr) (hq : BitVec 2) (qr : QReg) (a b : XReg) (f : Fmt) (rm : Rm) (sat rs cs : Bool)
    (wz csm : BitVec 2) (imm : Word32) (row mm : BitVec 10) (col : BitVec 7), s.Issues c st h { legal := [.c] } →
    let q := hqOf hq
    let ofs := (s.x c st a + imm.signExtend 64).toNat
    let xb := (s.x c st b).toNat
    let old := (s.core c).hob q
    let rest (t : State) : Prop := (∀ e o, SameRegs (s.strand e o) (t.strand e o)) ∧
      (∀ e, SameCoreRegs (s.core e) (t.core e) ∧ SameCoreMem (s.core e) (t.core e)) ∧ t.gm = s.gm
    let joins (i : Instr) (r : Req) (delay : Nat) (op : HobOp) (first rows : Nat) : Prop := r.fault = none → r.busy = none →
      ∃ t, exec i s = .next t ∧ s.Advanced t c st ∧ s.Pushes t c st h 0 ∧ rest t ∧
        ((t.core c).hob q).cmds.length = old.cmds.length + 1 ∧ ((t.core c).hob q).next = old.next + 1 ∧
        ∃ m ∈ ((t.core c).hob q).cmds, m.id = old.next ∧ m.op = op ∧ m.pos = (s.strand c st).pos ∧ m.dt = s.dt c + delay ∧ m.row = first ∧
          m.m = rows ∧ m.started = false ∧ m.chain = (s.core c).chain
    joins (.mloadb h hq a f wz csm imm) (mloadbReq q ofs f wz csm s) 4 (.mloadb f wz.toNat csm.toNat ofs) 0 1 ∧
    joins (.mma h hq qr b f rm rs cs row col mm) (mmaReq q qr xb f rs cs row col mm s) 10 (.mma f rm rs cs) (row.toNat + xb) (mm.toNat + 1) ∧
    joins (.mdrain h hq qr b f rm sat rs cs row col mm) (mdrainReq q qr xb f rs row col mm s) 4 (.mdrain f rm sat rs cs) (row.toNat + xb)
      (mm.toNat + 1) ∧
    joins (.mzero h hq b row mm) (mzeroReq q xb row mm s) 4 .mzero (row.toNat + xb) (mm.toNat + 1) ∧
    joins (.nlaunch h hq a b imm) (nlaunchReq q ofs xb s) 4 (.nlaunch xb ofs) 0 1

/-- hcut on a core outside a chain reshapes it at once: the cut and the bands are as asked, every B register is +0, every column scale 1.0,
the reshape completes 96 cycles later and 2,250 more for each band that comes on, the bands kindling one after another in ascending number (the first
from the issue cycle: log entry 60); hcut on a chain and hchain ask for their change and wait for the end of the
cycle; wswap exchanges the halves of the weight buffer at the end of its cycle (R78, R138 to R140, R239, R240, R247). What a running drain keeps, the
fields of the fault of hchain and the cycles that the text leaves implicit are the model's readings (log entries 27 and 51). -/
def Obligations.ReshapesChainsAndSwapsActOnTheirCore : Prop :=
  ∀ (s : State) (c : CoreId) (st : StrandId) (h : Hdr) (cut : BitVec 3) (bps head : BitVec 8) (lt lw : BitVec 2),
    s.Issues c st h { legal := [.c] } →
    let bands := (List.range 4).filter fun b => bandState (s.core c).bps b == 0 && bandState bps b != 0
    let on := bands.length
    (s.cutBusy c = none → (s.core c).chain = none → ∃ t, exec (.hcut h cut bps) s = .next t ∧ s.Advanced t c st ∧ s.Pushes t c st h 0 ∧
      (t.core c).cut = cut ∧ (t.core c).bps = bps ∧ (t.core c).reshape = some (s.dt c + 96 + 2250 * on) ∧ (t.core c).breg = [] ∧
      (t.core c).kindling = bands.zipIdx.map (fun b => (b.1, s.dt c + 2250 * b.2)) ∧
      (∀ n, ((t.core c).hob n).scales = Vector.replicate 128 0x3F800000) ∧ (∀ e o, SameRegs (s.strand e o) (t.strand e o)) ∧
      (∀ e, SameCoreRegs (s.core e) (t.core e)) ∧ (t.core c).acc = (s.core c).acc ∧ (t.core c).ls = (s.core c).ls ∧ t.gm = s.gm ∧
      ∀ e, e ≠ c → t.core e = s.core e) ∧
    (∀ ch, s.cutBusy c = none → (s.core c).chain = some ch → ∃ t w, exec (.hcut h cut bps) s = .next t ∧ s.Advanced t c st ∧
      (t.strand c st).wait = some w ∧ w.why = .chain ∧ (t.core c).chainReq = some (true, ch.head, ch.t, ch.w, bps, cut) ∧
      t.Pending (.dt (s.bidOf c)) (s.dt c) (effects + 48) (.chainJudge c)) ∧
    (s.chainOk c head.toNat (2 ^ lt.toNat) (2 ^ lw.toNat) = true → ∃ t w, exec (.hchain h lt lw head) s = .next t ∧ s.Advanced t c st ∧
      (t.strand c st).wait = some w ∧ w.why = .chain ∧ t.Pending (.dt (s.bidOf c)) (s.dt c) (effects + 48) (.chainJudge c) ∧
      (∀ e o, SameRegs (s.strand e o) (t.strand e o)) ∧ t.gm = s.gm) ∧
    (s.chainOk c head.toNat (2 ^ lt.toNat) (2 ^ lw.toNat) = false →
      exec (.hchain h lt lw head) s = .next (s.trap c st { cause := 9, epc := (s.strand c st).pos, i0 := 3, i1 := 0 })) ∧
    (s.preloading c = none → ∃ t, exec (.wswap h) s = .next t ∧ s.Advanced t c st ∧ s.Pushes t c st h 0 ∧ t.storage = s.storage ∧
      t.Pending (.dt (s.bidOf c)) (s.dt c) (latePrio + 1) (.wswap c)) ∧
    (s.runWork exec (.wswap c) = .next (s.updCore c fun k => { k with active := !k.active }))

/-- nabort and nstat .q and .ecc hold their strand until the stoker answers; nstat .map and srd deliver a register's value two cycles later;
swr, sset and sclr write the writable bits of the register named, FCSR, SRSEED and EARLYRD at the end of the cycle, and sset and sclr deliver
the old value; every other register stays (R7, R71, R108, R183, R184, R273). -/
def Obligations.StatusAndSystemRegisterAccesses : Prop :=
  ∀ (s : State) (c : CoreId) (st : StrandId) (h : Hdr) (d a : XReg) (all : Bool) (reg : BitVec 12),
    let t0 := s.strand c st
    let n := reg.toNat
    let v := s.sysReg c st n
    let x := s.x c st a
    let held (i : Instr) (w : Work) : Prop := ∃ t k, exec i s = .next t ∧ s.Advanced t c st ∧ t.storage = s.storage ∧
      s.WaitsFor t c st h (.unit 7 0) d ∧ t.Pending .hc (s.hc + 1 + Config.delay k) latePrio w
    let wrote (t : State) (v : Word) : Prop :=
      let u := t.strand c st
      u.sbound = (if n = 0x008 then v &&& 0xFFFFFFFF else t0.sbound) ∧ u.tepc = (if n = 0x111 then v &&& 0x7FFF else t0.tepc) ∧
      u.tlsel = (if n = 0x116 then v &&& 0x7FF else t0.tlsel) ∧ u.tscr = (if n = 0x11A then v else t0.tscr) ∧
      u.x = t0.x ∧ u.xs = t0.xs ∧ u.fcsr = t0.fcsr ∧ u.level = t0.level ∧ u.tcause = t0.tcause ∧
      (∀ o, o ≠ st → t.strand c o = s.strand c o) ∧ (∀ e, SameCoreRegs (s.core e) (t.core e) ∧ SameCoreMem (s.core e) (t.core e)) ∧ t.gm = s.gm ∧
      (n = 0x009 → t.Pending (s.clock c st) (s.now c st) sysPrio (.ev (.fcsrWrite c st (v &&& 0x3F3F)))) ∧
      (n = 0x00A → t.Pending (s.clock c st) (s.now c st) latePrio (.ev (.srseedWrite c (v &&& 0xFFFFFFFF)))) ∧
      (n = 0x00B → t.Pending (s.clock c st) (s.now c st) sysPrio (.ev (.earlyrdWrite c (v &&& 3))))
    (s.Issues c st h { legal := [.c], writes := true } → held (.nabort h d a all) (.nabort c st t0.ord x.toNat all)) ∧
    (s.Issues c st h { writes := true } →
      held (.nstat h d a .q) (.nstat c st t0.ord x.toNat false) ∧ held (.nstat h d a .ecc) (.nstat c st t0.ord x.toNat true) ∧
      s.Yields c st h (.nstat h d a .map) 2 (xResult t0.level d (s.physStoker c x.toNat)) false) ∧
    (s.Issues c st h { writes := true } → sysKind n false st t0.level = none →
      s.Yields c st h (.srd h d reg) 2 (xResult t0.level d v) false) ∧
    (s.Issues c st h {} → sysKind n true st t0.level = none → ∃ t, exec (.swr h a reg) s = .next t ∧ s.Advanced t c st ∧
      s.Pushes t c st h 0 ∧ wrote t x) ∧
    (s.Issues c st h { writes := true } → sysKind n true st t0.level = none →
      (∃ t, exec (.sset h d a reg) s = .next t ∧ s.Advanced t c st ∧ wrote t (v ||| x) ∧
        s.Flies t c st 2 (s.resultOf c st h (xResult t0.level d v)) true false) ∧
      (∃ t, exec (.sclr h d a reg) s = .next t ∧ s.Advanced t c st ∧ wrote t (v &&& ~~~x) ∧
        s.Flies t c st 2 (s.resultOf c st h (xResult t0.level d v)) true false))

/-- dsync arrives once in its issue cycle and waits for its superstep, a handler's also where the dsync that its trap ended has arrived (R338); tlbinv removes every matching entry from every TLB and waits;
ctxsave and ctxload answer their status and with status 0 start the engine; idle waits for an interrupt; evpost sends its event or waits. No
register changes at issue (R44 to R47, R185 to R187, R331). The cycle in which tlbinv removes its entries, the
moment at which the event queue takes an event and the object of their waits are the model's readings (log entries 9, 25, 39 and 40). -/
def Obligations.SystemInstructionsActOnTheirUnits : Prop :=
  ∀ (s : State) (c : CoreId) (st : StrandId) (h : Hdr) (d a b : XReg) (lvl : BitVec 2) (code : BitVec 16) (kind : TlbKind) (size : PageSize),
    let t0 := s.strand c st
    let x := s.x c st a
    let y := s.x c st b
    let same (t : State) : Prop := (∀ e o, SameRegs (s.strand e o) (t.strand e o)) ∧
      (∀ e, SameCoreRegs (s.core e) (t.core e) ∧ SameCoreMem (s.core e) (t.core e)) ∧ t.gm = s.gm
    let matches' (e : TlbEntry) : Prop := match kind with
      | .all => True
      | .asid => e.asid = y.toNat % 2 ^ 16
      | .page => e.asid = y.toNat % 2 ^ 16 ∧ e.bits = PageSize.bits size ∧ e.va = x.toNat / 2 ^ PageSize.bits size * 2 ^ PageSize.bits size
    let status := s.ctxStatus c x y
    let engine (i : Instr) (load : Bool) : Prop := ∃ t, exec i s = .next t ∧ s.Advanced t c st ∧ same t ∧
      s.Flies t c st 2 (s.resultOf c st h (xResult t0.level d (BitVec.ofNat 64 status))) true false ∧
      (status ≠ 0 → t.storage = s.storage) ∧
      (status = 0 → ∃ w, (t.core (coreId x.toNat)).engine = some (y.toNat, load, w) ∧ s.hc < w)
    (s.Issues c st h { legal := dsyncStrands lvl.toNat, writes := true } → domEn ((s.core c).domOf lvl.toNat) = true →
      t0.arrived = false ∨ t0.level = true →
      ∃ t, exec (.dsync h d lvl) s = .next t ∧ s.Advanced t c st ∧ same t ∧ s.WaitsFor t c st h (.dsync lvl.toFin) d ∧
        t.arrivals.length = s.arrivals.length + 1 ∧ ∃ r ∈ t.arrivals, r.lvl = lvl.toNat ∧ r.core = c ∧ r.strand = st ∧
          r.gid = domGid ((s.core c).domOf lvl.toNat) ∧ r.step = t0.stepsAt lvl.toNat + 1) ∧
    (s.Issues c st h { legal := dsyncStrands lvl.toNat, writes := true } → domEn ((s.core c).domOf lvl.toNat) = false →
      (dsyncStrands lvl.toNat).contains st = true →
      exec (.dsync h d lvl) s = .next (s.trap c st { cause := 3, epc := t0.pos, i0 := 7, i1 := (s.baseWord c st).setWidth 64 })) ∧
    (s.Issues c st h { priv := true } → ∃ t, exec (.tlbinv h a b kind size) s = .next t ∧ s.Advanced t c st ∧ same t ∧
      s.WaitsFor t c st h (.unit 2 x.toNat) 0 ∧ (∀ e o, o ∈ (t.core e).utlb ↔ o ∈ (s.core e).utlb ∧ ¬matches' o) ∧
      (∀ l : Fin 4, ∀ o, o ∈ t.xlate.shared[l.val] ↔ o ∈ s.xlate.shared[l.val] ∧ ¬matches' o)) ∧
    (s.Issues c st h { priv := true, writes := true } → engine (.ctxsave h d a b) false ∧ engine (.ctxload h d a b) true) ∧
    (s.Issues c st h { priv := true } → ∃ t w, exec (.idle h) s = .next t ∧ s.Advanced t c st ∧ t.storage = s.storage ∧ s.Pushes t c st h 0 ∧
      (t.strand c st).wait = some w ∧ w.why = .idle) ∧
    (s.Issues c st h { priv := true } → ∃ t, exec (.evpost h a code) s = .next t ∧ s.Advanced t c st ∧ same t ∧
      ((t.strand c st).wait = t0.wait ∧ s.Pushes t c st h 0 ∧ ((∃ part, t.host.sent = s.host.sent ++ [(part, ⟨5, [code.setWidth 64, x]⟩)]) ∨
        t.host.held = s.host.held ++ [⟨5, [code.setWidth 64, x]⟩] ∨ t.host.dropped = s.host.dropped + 1) ∨
       s.WaitsFor t c st h (.unit 7 0) 0 ∧ t.host = s.host))

/-! ### Stores and updates that perform -/

/-- What storePerform does: a store, wset or atomic that performs at a scratchpad whose bank is free, or a store that its channel serves, changes its
own bytes to the stated ones and no other byte of any memory; one whose bank or channel is taken, whose word an older access of its strand has still to
reach, or an atomic behind an older one waits and changes none; no register changes (R74, R99, R102, R113, R202, R204, R205, R268; the order at one
scratchpad word, and an atomic's wait at any unit, are the model's, log entry 18). A word whose waiters link to it is another case (R203). -/
def Obligations.StoresChangeTheirBytesOnly : Prop :=
  ∀ (s : State) (a : Access) (k : CoreId) (bs : List Byte), bs ≠ [] →
    let old (n : Nat) : Nat := leNat ((s.core k).ls.read a.addr n)
    let regs (t : State) : Prop := (∀ e o, (t.strand e o).x = (s.strand e o).x ∧ (t.strand e o).xs = (s.strand e o).xs ∧
      (t.strand e o).fcsr = (s.strand e o).fcsr) ∧ ∀ e, SameCoreRegs (s.core e) (t.core e)
    let lands (t : State) (bs : List Byte) : Prop := regs t ∧
      (∀ j, (t.core k).ls.get j = if a.addr ≤ j ∧ j < a.addr + bs.length then bs.getD (j - a.addr) 0 else (s.core k).ls.get j) ∧
      (∀ e, e ≠ k → (t.core e).ls = (s.core e).ls) ∧ t.gm = s.gm
    (a.unit = .ls k → (s.core k).ls.wf = true → s.watched (.ls k) a.addr bs.length = [] →
      -- an older access of the strand to one of its words is still on its way
      let behind := s.crosses (if a.sys then .cyc a.core else .dt (s.bidOf a.core)) a.core a.strand a.seq k (opAddrs a.addr a.op) true
      let waits : Prop := ∃ t, exec (.storePerform a) s = .next t ∧ regs t ∧ t.gm = s.gm ∧ ∀ e, (t.core e).ls = (s.core e).ls
      (a.op = .write bs → behind = true ∨ (∃ b ∈ banksOf a.addr bs.length, b ∈ (s.core k).used) → waits) ∧
      (s.atomicWaits a = true → (∀ ps, a.op ≠ .scatter ps) → waits) ∧
      (a.op = .write bs → behind = false → (∀ b ∈ banksOf a.addr bs.length, b ∉ (s.core k).used) →
        ∃ t, exec (.storePerform a) s = .next t ∧ lands t bs) ∧
      (∀ v, a.op = .wset v → bs = leBytes 8 v.toNat → behind = false → bankOf a.addr ∉ (s.core k).used →
        ∃ t, exec (.storePerform a) s = .next t ∧ lands t bs) ∧
      (∀ o v cmp d, a.op = .atomic o v cmp d → behind = false → s.atomicWaits a = false →
        bs = leBytes (o.fmt.bits / 8) (atomicNew o (old (o.fmt.bits / 8)) (v.toNat % 2 ^ o.fmt.bits) (cmp.toNat % 2 ^ o.fmt.bits)).1 →
        bankOf a.addr ∉ (s.core k).used → ∃ t, exec (.storePerform a) s = .next t ∧ lands t bs)) ∧
    (a.unit = .gm → a.posted = true → a.op = .write bs → s.gm.wf = true → s.watched .gm a.addr bs.length = [] → a.addr < 2 ^ 40 →
      (∀ b, s.bindingOf a.core = some b → b.cg = false) →
      s.portBlocked a = false →
      ∃ t, exec (.storePerform a) s = .next t ∧ regs t ∧ (∀ e, (t.core e).ls = (s.core e).ls) ∧
        ((s.serve .md (opAddrs a.addr a.op)).2 = false → t.gm = s.gm) ∧
        ((s.serve .md (opAddrs a.addr a.op)).2 = true →
          ∀ j, t.gm.get j = if a.addr ≤ j ∧ j < a.addr + bs.length then bs.getD (j - a.addr) 0 else s.gm.get j))

/-! ### Events -/

/-- What the events of a core's engines do, each with the conditions under which it completes: latchReinject and waitRelease deliver their result,
bwaittExpiry ends the wait with status 1; copyGroupTransfer and flueBeatPerform move the bytes of a group or beat, copyChunkRead and
copyChunkPerform those of a chunk's words; flueDegrade halves a chimney; srseedWrite, fcsrWrite and earlyrdWrite write their register;
dsyncComplete, tlbinvComplete, taskRetire, commitGroupSwap, shadowPageFill, reshapeComplete and chainReady end what they wait for; mloadbStart,
mzeroStart, mmaStart and mdrainStart start their command; accumulatorRowWrite, drainRowWrite and the clears of an mzero write their cells and
bytes; nlaunchDelivery hands the group to its stoker (R46, R66, R71, R93, R95, R108, R112, R115, R124, R125, R139, R195 to R201, R244 to R246,
R272, R331, R333 to R335, R343). What is the model's own: log entries 3, 43 and 48; indices of free values (log entry 4) appear in the
conclusions only. -/
def Obligations.CoreEventsDoTheirWork : Prop :=
  ∀ (s : State) (c : CoreId) (st : StrandId) (r : Result) (f : Flight) (id j row : Nat) (p : Copy) (v : Word) (w : Wait) (hq : Fin 4) (m : HobCmd),
    let kept (t : State) : Prop := t.gm = s.gm ∧ ∀ e, (t.core e).ls = (s.core e).ls
    let clk : Clock := .dt (s.bidOf c)
    ((s.strand c st).flights.find? (fun f => f.ord == r.ord && f.res.target == r.target && f.ready) = some f →
      ∃ t, exec (.latchReinject c st r) s = .next t ∧ exec (.resultWrite c st f.res) s = .next t) ∧
    ((s.strand c st).flights = [] → exec (.latchReinject c st r) s = .next s) ∧
    -- transfers of groups and beats
    (s.copy id = none → ∀ side, exec (.copyGroupTransfer id j side) s = .next s ∧ exec (.flueBeatPerform id j) s = .next s ∧
      exec (.copyChunkRead id j) s = .next s ∧ exec (.copyChunkPerform id j) s = .next s) ∧
    (s.copy id = some p →
      let n := p.groupBytes j
      let bs := (assocGet p.data j).getD []
      let put (i : Instr) : Prop := (∀ g, p.failed = some g → j < g) →
        (p.lsDest = none → ∃ t, exec i s = .next t ∧ kept t ∧
          (t.core p.core).wb0 = (if p.half then (s.core p.core).wb0 else (s.core p.core).wb0.write (p.dst + 64 * j) bs) ∧
          (t.core p.core).wb1 = (if p.half then (s.core p.core).wb1.write (p.dst + 64 * j) bs else (s.core p.core).wb1)) ∧
        (∀ d o, p.lsDest = some (d, o) → let a := o + p.grain * j
          (p.kind = .lf ∨ s.delivering p = true ∧ (∀ b ∈ banksOf a n, b ∉ (s.core d).used) → s.watched (.ls d) a bs.length = [] →
            ∃ t, exec i s = .next t ∧ t.gm = s.gm ∧ (t.core d).ls = (s.core d).ls.write a bs ∧ ∀ e, e ≠ d → (t.core e).ls = (s.core e).ls) ∧
          (p.kind ≠ .lf → s.delivering p = false ∨ (∃ b ∈ banksOf a n, b ∈ (s.core d).used) →
            ∃ t, exec i s = .next t ∧ t.cores = s.cores ∧ t.gm = s.gm ∧
              t.Pending (.dt (s.bidOf p.core)) (s.dt p.core + 1) (p.rank true) (.ev (.copyGroupTransfer p.id j .write))))
      put (.copyGroupTransfer id j .write) ∧ put (.flueBeatPerform id j) ∧
      (let d := p.lsSource.1
       let a := p.lsSource.2 + p.grain * j
       j ≠ 0 ∨ s.delivering p = true ∧ (p.kind = .lf → p.halfWidth = s.half[(chimOf p.core).val]) →
        (p.kind = .lf ∨ (∀ b ∈ banksOf a n, b ∉ (s.core d).used) → s.badLs d ((List.range n).map (a + ·)) = none →
          ∀ q, s.copyOf p.core p.id = some q → ∃ t q', exec (.copyGroupTransfer id j .read) s = .next t ∧ kept t ∧
            t.copyOf p.core p.id = some q' ∧ q'.rd = j + 1 ∧ q'.data = q.data ++ [(j, (s.core d).ls.read a n)]) ∧
        (p.kind ≠ .lf → (∃ b ∈ banksOf a n, b ∈ (s.core d).used) → ∃ t, exec (.copyGroupTransfer id j .read) s = .next t ∧
          t.cores = s.cores ∧ t.gm = s.gm ∧
          t.Pending (.dt (s.bidOf p.core)) (s.dt p.core + 1) (p.rank false) (.ev (.copyGroupTransfer p.id j .read))))) ∧
    -- chunks
    (s.copy id = some p →
      (p.stopped = true → exec (.copyChunkRead id j) s = .next s ∧ exec (.copyChunkPerform id j) s = .next s) ∧
      (p.stopped = false → s.stretched p = true ∨ s.hasLeft p = false →
        exec (.copyChunkRead id j) s = .next (s.post .hc (s.hc + 1) (p.rank false) (.ev (.copyChunkRead id j)))) ∧
      (p.stopped = false → s.stretched p = true ∨ s.agedCopy p = false →
        exec (.copyChunkPerform id j) s = .next (s.post .hc (s.hc + 1) (p.rank true) (.ev (.copyChunkPerform id j)))) ∧
      (p.stopped = false → s.stretched p = false → s.hasLeft p = true →
        (∀ u g, (s.noteLeft p).openChunk p p.sb = (u, .error g) → exec (.copyChunkRead id j) s = .next (u.stopCopy p g)) ∧
        (∀ u q ws, (s.noteLeft p).openChunk p p.sb = (u, .ok q) → q.words = some ws → ws ≠ [] →
          let k := u.pick ws
          let got (bs : List (Nat × List Byte)) : Copy := { q with data := q.data ++ bs }
          (∀ z bs, k.2.readWords q k.1.1 = (z, .bytes bs) → exec (.copyChunkRead id j) s = .next (if k.1.2 = [] then z.chunkRead (got bs) j
            else (z.updCopy q.core id fun _ => { got bs with words := some k.1.2 }).sometime (.ev (.copyChunkRead id j)) (q.rank false))) ∧
          (∀ z, k.2.readWords q k.1.1 = (z, .wait) → ∃ t, exec (.copyChunkRead id j) s = .next t ∧ t.gm = z.gm ∧
            t.Pending .hc (z.hc + 1) (p.rank false) (.ev (.copyChunkRead id j))) ∧
          (∀ z, k.2.readWords q k.1.1 = (z, .stop) → exec (.copyChunkRead id j) s = .next (z.stopCopy q none)))) ∧
      (p.stopped = false → s.stretched p = false → s.agedCopy p = true → (p.kind = .lx ∨ p.kind = .gx → s.present (xmDev p.dst) = true) →
        (∀ u g, s.openChunk p p.db = (u, .error g) → exec (.copyChunkPerform id j) s = .next (u.stopCopy p g)) ∧
        (∀ u q, s.openChunk p p.db = (u, .ok q) → q.err = true → u.delivering q = true →
          exec (.copyChunkPerform id j) s = .next (u.chunkDone q j)) ∧
        (∀ u q ws, s.openChunk p p.db = (u, .ok q) → q.err = false → q.words = some ws → ws ≠ [] → q.kind ≠ .lx → q.kind ≠ .gx →
          ∃ now rest k, now ≠ [] ∧ (∀ x, x ∈ ws ↔ x ∈ now ∨ x ∈ rest) ∧ (q.lsDest.isSome = true → now ++ rest = ws) ∧
            let lo := (q.chunkBytes j).1
            let z := ({ u with choice := u.choice + k } : State).writeWords q
              (now.map fun x => (x, ((q.chunkBytes j).2.1.drop (x.1 - lo)).take x.2.2))
            (z.2 = true → let y := z.1.raise q.core q.strand (q.flagsIn j now)
              exec (.copyChunkPerform id j) s = .next (if rest = [] then y.chunkDone q j
                else (y.updCopy q.core id fun _ => { q with words := some rest }).sometime (.ev (.copyChunkPerform id j)) (q.rank true))) ∧
            (z.2 = false → ∃ t, exec (.copyChunkPerform id j) s = .next t ∧ t.gm = z.1.gm ∧
              t.Pending .hc (z.1.hc + 1) (p.rank true) (.ev (.copyChunkPerform id j)))))) ∧
    -- the words of a chunk: those of a scratchpad or of GM, read and written
    (∀ ws : List (Nat × Nat × Nat), let as := wordAddrs ws
      (p.kind = .ll ∨ p.kind = .lp ∨ p.kind = .lg ∨ p.kind = .lx ∨ p.kind = .lred ∨ p.kind = .lbcast ∨ p.kind = .lgath →
        (∀ b ∈ banksOfAddrs as, b ∉ (s.core p.core).used) → s.badLs p.core as = none →
        (s.readWords p ws).2 = .bytes (ws.map fun x => (x.1, (s.core p.core).ls.read x.2.1 x.2.2))) ∧
      (p.kind = .gl ∨ p.kind = .gg ∨ p.kind = .gx ∨ p.kind = .gw → (∀ b, s.bindingOf p.core = some b → b.cg = false) →
        (s.serve .md as).2 = true → s.badGm as = none →
        (s.readWords p ws).2 = .bytes (ws.map fun x => (x.1, s.gmBytes p.core (wordAddrs [x]))))) ∧
    (∀ (x : Nat × Nat × Nat) (bs : List Byte), let z := s.writeWords p [(x, bs)]
      (p.kind = .lg ∨ p.kind = .gg ∨ p.kind = .xg ∨ p.kind = .ag → s.watched .gm x.2.1 bs.length = [] →
        z.2 = (s.serve .md (wordAddrs [x])).2 ∧ z.1.gm = if z.2 then s.gm.write x.2.1 bs else s.gm) ∧
      (p.kind = .gl ∨ p.kind = .xl ∨ p.kind = .al ∨ p.kind = .lred ∨ p.kind = .lbcast ∨ p.kind = .lgath → s.delivering p = true →
        (∀ b ∈ banksOfAddrs (wordAddrs [x]), b ∉ (s.core p.core).used) → s.watched (.ls p.core) x.2.1 bs.length = [] →
        z.2 = true ∧ (z.1.core p.core).ls = (s.core p.core).ls.write x.2.1 bs ∧ z.1.gm = s.gm)) ∧
    (∀ chim : Fin 64, (s.flueBoundary chim = true → ∃ t, exec (.flueDegrade chim) s = .next t ∧ t.half = s.half.set chim.val true ∧ t.gm = s.gm ∧
        ∀ e : CoreId, (t.core e).degr = if e.val % 64 = chim.val then min 255 ((s.core e).degr + 1) else (s.core e).degr) ∧
      (s.flueBoundary chim = false → exec (.flueDegrade chim) s = .next { s with degrading := s.degrading ++ [chim] })) ∧
    -- waits
    ((s.strand c st).wait = some w → s.now c st ≤ w.start + w.bound →
      let freed (t : State) (v : Word) : Prop := (t.strand c st).wait = none ∧ (t.strand c st).base = s.now c st + 1 ∧
        (∃ g, (t.strand c st).flights = (s.strand c st).flights ++ [g] ∧
          g.res.data = v.setWidth 2048 ∧ g.w = s.now c st + (unitDelay c w.why.space w.unit).getD 2 ∧ g.ready = true) ∧
        (t.strand c st).x = (s.strand c st).x ∧ t.gm = s.gm
      (w.why ≠ .idle → ∃ t, exec (.waitRelease c st w.ord v) s = .next t ∧ freed t v) ∧
      (s.places.find? (fun p => s.expired p.1 p.2) = some (c, st) → w.linked = false →
        ∃ t, exec .bwaittExpiry s = .next t ∧ freed t (s.barrierValue ⟨w.unit, w.pa⟩ 1))) ∧
    ((∀ p ∈ s.places, s.expired p.1 p.2 = false) → exec .bwaittExpiry s = .next s) ∧
    -- system registers
    (∃ t, exec (.srseedWrite c v) s = .next t ∧ (t.core c).srseed = v &&& 0xFFFFFFFF ∧
      (∀ i : Fin 256, (t.core c).gens[i.val] = seedOf (v.setWidth 32) i.val) ∧ (t.core c).strands = (s.core c).strands ∧ t.gm = s.gm) ∧
    exec (.fcsrWrite c st v) s = .next (s.updStrand c st fun t => { t with fcsr := v &&& 0x3F3F }) ∧
    exec (.earlyrdWrite c v) s = .next (s.updCore c fun k => { k with earlyrd := v &&& 3 }) ∧
    -- supersteps, invalidations, retirement, commit groups
    (∀ l : Fin 4, ∀ b, s.binding (s.bidOf c) = some b → b.live = false →
      exec (.dsyncComplete c l) s = .next (s.post .hc (s.hc + 1) latePrio (.ev (.dsyncComplete c l)))) ∧
    (∀ b a, s.binding (s.bidOf c) = some b → b.live = true → s.arrivals = [a] → a.lvl = 0 → a.full = true → a.core = c → a.strand = st → a.bid = s.bidOf c →
      (s.strand c st).wait = some w → w.why = .dsync 0 → ∃ t, exec (.dsyncComplete c 0) s = .next t ∧ t.arrivals = [] ∧
        (t.strand c st).wait = none ∧ (t.strand c st).stepsAt 0 = (s.strand c st).stepsAt 0 + 1 ∧
        (w.dest ≠ 0 → t.x c st w.dest = BitVec.ofNat 64 ((s.strand c st).stepsAt 0 + 1))) ∧
    (s.xlate.invals = [] → exec .tlbinvComplete s = .next s) ∧
    (∀ i, s.xlate.invals = [i] → s.invalDone i = true →
      let u : State := { s with xlate := { s.xlate with invals := [], qcur := s.xlate.qcur + 1 } }
      (i.issuer = some (c, st) → (s.strand c st).wait = some w → w.ord = i.id →
        ∃ t, exec .tlbinvComplete s = .next t ∧ t.xlate.invals = [] ∧ t.xlate.qcur = s.xlate.qcur + 1 ∧ (t.strand c st).wait = none) ∧
      (∀ g, i.issuer = none → s.xlate.migrations.find? (fun g => g.inval == i.id) = some g → exec .tlbinvComplete s = .next (u.stepMigration g)) ∧
      (i.issuer = none → (∀ g ∈ s.xlate.migrations, g.inval ≠ i.id) → exec .tlbinvComplete s = .next (u.afterInval i.id))) ∧
    (∀ g : Migration, (g.stage = 1 → (s.stepMigration g).gm = let n := Mem.write s.gm g.dst (s.gm.read g.src (2 ^ g.bits))
        n.setWord g.leafPa ((n.word g.leafPa &&& ~~~(0xFFFFFFFF04 : Word)) ||| BitVec.ofNat 64 (g.dst % 2 ^ 40 + 4 * g.writable.toNat))) ∧
      (g.stage ≠ 1 → (s.stepMigration g).gm = s.gm ∧ g ∉ (s.stepMigration g).xlate.migrations ∧
        ((g.src, g.bits, s.xlate.qcur) ∈ (s.stepMigration g).xlate.quarantine ∨ (g.src, g.bits) ∈ (s.stepMigration g).xlate.waiting))) ∧
    ((∀ e, s.retires e = false) → exec .taskRetire s = .next s) ∧
    ((List.finRange 256).find? s.retires = some c → ∃ t, exec .taskRetire s = .next t ∧ kept t ∧
      (∀ e o, SameRegs (s.strand e o) (t.strand e o)) ∧ (t.core c).slot = Vector.replicate 8 0 ∧
      ((s.core c).copies = [] → (t.core c).task = none ∧ ∀ o, (t.strand c o).run = .off) ∧
      ((s.core c).copies ≠ [] → (t.core c).task = (s.core c).task ∧ ∀ o, (t.strand c o).run = (s.strand c o).run) ∧
      ∀ b, s.bindingOf c = some b → b.status = none → b.relHc.isSome = true → b.fslot ≠ 0 → (∀ e ∈ b.members, e = c ∨ e ∈ b.retired) →
        ∀ e ∈ b.members, (t.core e).fromBelow = [] ∧ (t.core e).fromAbove = []) ∧
    ((∀ b ∈ s.bindings, b.cg = false) → exec .commitGroupSwap s = .next s) ∧
    (∀ b, s.bindings.find? s.swapDue = some b →
      (s.originalsStand b = true → exec .commitGroupSwap s = .next (s.swapShadows b)) ∧
      (s.originalsStand b = false →
        exec .commitGroupSwap s = .next ((s.discardShadows b).updBinding b.bid fun b => { b with status := some (b.retryOr 8) }))) ∧
    (∀ b o, s.binding b.bid = some o →
      (b.shadows = [] → s.swapShadows b = s.finishSwap b) ∧
      (b.shadows ≠ [] → (s.swapShadows b).gm = s.gm ∧ (s.swapShadows b).xlate.invals.length = s.xlate.invals.length + b.shadows.length ∧
        ∃ is, (s.swapShadows b).binding b.bid = some { o with swapping := some is } ∧ is.length = b.shadows.length) ∧
      (s.finishSwap b).xlate.qcur = s.xlate.qcur + 1 ∧
      (s.finishSwap b).binding b.bid = some { o with shadows := [], swapping := none, status := some 0 }) ∧
    (∀ b bid va, s.binding bid = some b →
      (b.cg = false ∨ b.status.isSome = true → exec (.shadowPageFill bid va) s = .next s) ∧
      (b.cg = true → b.status = none → b.shadowOf va = none → exec (.shadowPageFill bid va) s = .next (s.fillShadow bid va)) ∧
      (∀ h, b.cg = true → b.status = none → b.shadowOf va = some h → let open' := s.xlate.invals.any fun i => i.issuer.isNone && i.id == h.inval
        (h.filled = true ∨ open' = true → exec (.shadowPageFill bid va) s = .next s) ∧
        (h.filled = false → open' = false → ∃ t, exec (.shadowPageFill bid va) s = .next t ∧ t.cores = s.cores ∧
          t.gm = Mem.write s.gm h.copy (s.gm.read h.orig (2 ^ h.bits)) ∧
          ∃ o, t.binding bid = some o ∧ ∀ g ∈ o.shadows, g.va = h.va → g.filled = true))) ∧
    (∀ b bid va l page, s.binding bid = some b → walkFrom s.gm va 4 0 b.root = .ok l →
      let cost := if l.bits = 21 then 32 else 1
      (l.bits = 30 ∨ Word.bits b.launch.words[21] 0 24 < b.quota + cost → s.fillShadow bid va = s.endBinding bid 9) ∧
      (l.bits ≠ 30 → b.quota + cost ≤ Word.bits b.launch.words[21] 0 24 →
        s.xlate.pool.find? (fun p => p.2 == l.bits && assocGet s.lib.poolStripes (p.1 / 2 ^ 30) == some b.part) = some (page, l.bits) →
        (s.fillShadow bid va).gm = s.gm.setWord l.place (l.entry ||| 0x20) ∧ ∀ q ∈ (s.fillShadow bid va).xlate.pool, q.1 ≠ page)) ∧
    -- the range
    ((List.finRange 256).find? s.reshaped = some c →
      exec .reshapeComplete s = .next (s.updCore c fun k => { k with reshape := none, kindling := [] })) ∧
    ((List.finRange 256).find? s.chained = some c →
      exec .chainReady s = .next (s.updCore c fun k => { k with chaining := none })) ∧
    (let starts (i : Instr) (g : HobCmd → HobCmd) : Prop := s.cmd c hq id = some m → ∃ t, exec i s = .next t ∧ t.cmd c hq id = some (g m) ∧
       (∀ id', id' ≠ id → t.cmd c hq id' = s.cmd c hq id') ∧ kept t ∧ (∀ e o, t.strand e o = s.strand e o) ∧ ∀ e, (t.core e).acc = (s.core e).acc
     starts (.mloadbStart c hq id) (fun m => { m with started := true }) ∧ starts (.mzeroStart c hq id) (fun m => { m with started := true }) ∧
     starts (.mmaStart c hq id) (fun m => { m with
       started := true, bstate := (membersOf c m.chain).map fun p => ⟨p.2.2, (s.core p.2.2).breg, ((s.core p.2.2).hob hq).scales⟩ }) ∧
     starts (.mdrainStart c hq id) (fun m => { m with
       started := true, bstate := (membersOf c m.chain).map fun p => ⟨p.2.2, [], ((s.core p.2.2).hob hq).scales⟩ })) ∧
    (s.cmd c hq id = none → exec (.mloadbStart c hq id) s = .next s ∧ exec (.mzeroStart c hq id) s = .next s ∧
      exec (.mmaStart c hq id) s = .next s ∧ exec (.mdrainStart c hq id) s = .next s ∧
      exec (.accumulatorRowWrite c hq id row) s = .next s ∧ exec (.drainRowWrite c hq id row) s = .next s ∧
      exec (.nlaunchDelivery c hq id) s = .next s) ∧
    (s.cmd c hq id = some m →
      let cells (a : Mem) (acc : Nat) (ws : List Word32) : Mem :=
        ws.zipIdx.foldl (fun a x => a.write (4 * (128 * acc + (m.pec + x.2))) (leBytes 4 x.1.toNat)) a
      let flagged (t : State) (g : Flg) : Prop := g ≠ 0 → ∃ r : Result, r.flags = g ∧ r.target = .none ∧ r.poison = none ∧
        t.Pending .hc s.hc latePrio (.ev (.resultWrite c .c r))
      let ws := ((s.core c).hob hq).writes.filter fun w => w.cmd == id && w.row == row && !w.done
      (∃ t, exec (.accumulatorRowWrite c hq id row) s = .next t ∧ kept t ∧ (∀ e o, SameRegs (s.strand e o) (t.strand e o)) ∧
        (∀ e, (t.core e).acc = (ws.filter fun w => w.core == e).foldl (fun a w => cells a w.acc w.words) (s.core e).acc) ∧
        (∀ w ∈ ((t.core c).hob hq).writes, w.cmd = id → w.row = row → w.done = true) ∧ flagged t (orFlags (ws.map (·.flags)))) ∧
      (∃ t, s.runWork exec (.zeroRows c hq id row) = .next t ∧ kept t ∧ (∀ e o, SameRegs (s.strand e o) (t.strand e o)) ∧
        ∀ e, (t.core e).acc = ((List.range m.w).filter fun i => m.epilogue c i == e).foldl (fun a _ =>
          ((List.range (min 8 (m.m - 8 * row))).map (m.row + 8 * row + ·)).foldl (fun a x => cells a x (List.replicate m.width 0)) a) (s.core e).acc) ∧
      (m.limit ≤ row % 1024 → exec (.drainRowWrite c hq id row) s = .next s) ∧
      (row % 1024 < m.limit →
        let e := m.epilogue c (row / 1024)
        let d := m.desc e
        let a := (d.row (row % 1024)).toNat
        let sc := ((m.bstate.find? fun x => x.core == e).map (·.scales)).getD (Vector.replicate 128 one32)
        let out := m.drainRow e (row / 1024) (row % 1024) fun n => (sc.toList.getD (m.pec + n) one32).toNat
        ((∃ b ∈ banksOf a d.rowBytes, b ∈ (s.core e).used) → ∃ t, exec (.drainRowWrite c hq id row) s = .next t ∧ t.cores = s.cores ∧ t.gm = s.gm ∧
          t.Pending clk (s.dt c + 1) (drainPrio hq) (.ev (.drainRowWrite c hq id row))) ∧
        ((∀ b ∈ banksOf a d.rowBytes, b ∉ (s.core e).used) → s.watched (.ls e) a out.1.length = [] →
          ∃ t, exec (.drainRowWrite c hq id row) s = .next t ∧ (t.core e).ls = (s.core e).ls.write a out.1 ∧
            (∀ o, o ≠ e → (t.core o).ls = (s.core o).ls) ∧ t.gm = s.gm ∧ (∀ o, (t.core o).acc = (s.core o).acc) ∧ flagged t out.2)) ∧
      (∀ slot hdr, m.op = .nlaunch slot hdr →
        let b := (s.core c).hob hq
        let again := s.laterOn clk 1 (effects + 12) (.ev (.nlaunchDelivery c hq id))
        let first := b.cmds.all fun n => decide (id ≤ n.id) || n.started
        (s.slotStoker c slot = none ∨ b.held = true ∨ first = false ∨ s.walking c m = true ∨ m.needs.all s.met = false →
          exec (.nlaunchDelivery c hq id) s = .next again) ∧
        (∀ sk, s.slotStoker c slot = some sk → 16 ≤ (s.stoker sk).queue.length → exec (.nlaunchDelivery c hq id) s = .next again) ∧
        (∀ sk, s.slotStoker c slot = some sk → b.held = false → first = true → s.walking c m = false → m.needs.all s.met = true →
          (s.stoker sk).queue.length < 16 →
          ∃ t, exec (.nlaunchDelivery c hq id) s = .next t ∧ kept t ∧ (∀ e o, SameRegs (s.strand e o) (t.strand e o)) ∧
            (t.stoker sk).queue = (s.stoker sk).queue ++ [⟨hdr, m.pa, c, m.pos, s.bidOf c, false, s.hc, m.samples⟩] ∧
            (∀ n ∈ ((t.core c).hob hq).cmds, n.id ≠ id) ∧ (b.cmds = [m] → ((t.core c).hob hq).free = s.dt c + 7))))

/-- What the events of the near-memory engines and of the archive do (R250 to R271, R277 to R285, R305, R307, R389), each with the conditions under
which it completes: groupStart judges a group, which starts or ends with its status; gemv, reduce, map and ncopy ask their channel, compute, write
and go on; semwait, sempost, commit, abort, nmFence and semwaitTimeout act on the group and its semaphore; charbWrite, budgetPeriod, refresh,
refreshManagement and tenureEnd act on a channel's budgets, counts and tenures; readingRoomFill, fillComplete, rrsizeWrite and rrsizeApply on the
reading room; accessionStart and accessionComplete on an accession; wearDay folds the live counts. What is the model's own: log entries 30, 32, 40,
45 and 46; indices of free values (log entry 4) appear in the conclusions only. -/
def Obligations.EngineAndArchiveEventsDoTheirWork : Prop :=
  ∀ (s : State) (sk : Fin 384) (cmd : BitVec 512) (g : Group) (v : Word) (obj ver folio : Nat) (bad : Bool),
    let ended (u : State) (g : Group) (status : Nat) : State := u.endRunning sk { g with next := g.next + 1 } status
    ((s.stoker sk).group = some g ∨ (s.stoker sk).halt = true ∨ (s.stoker sk).stopped = true ∨ (s.stoker sk).queue = [] →
      exec (.groupStart sk) s = .next s) ∧
    (∀ ref rest, (s.stoker sk).group = none → (s.stoker sk).halt = false → (s.stoker sk).stopped = false → (s.stoker sk).queue = ref :: rest →
      let q := s.serve .nm (s.imageAddrs ref)
      let r : GroupRef := { ref with hc := q.1.hc }
      let j := (q.1.updStoker sk fun t => { t with queue := rest }).judgeGroup sk r
      (q.2 = false → exec (.groupStart sk) s = .next (q.1.post .hc (q.1.hc + 1) effects (.ev (.groupStart sk)))) ∧
      (∀ h, q.2 = true → j.2 = .ok h → exec (.groupStart sk) s =
        .next (if ref.killed then j.1.endGroup sk r 13 0 0 h.ce (some h.sem) else j.1.nextCommand sk h)) ∧
      (∀ e, q.2 = true → j.2 = .error e → exec (.groupStart sk) s =
        .next (j.1.endGroup sk r (if ref.killed then 13 else e.1) (if ref.killed then 0 else e.2.1) 0 e.2.2.2 e.2.2.1))) ∧
    (∀ (bid : Nat) (as : List Nat), let r := s.stokerRead sk bid as
      r.2.1 = s.correctedIn as ∧ r.2.2 = (s.badGm as).isSome ∧ (r.1.stoker sk).ecc = (s.stoker sk).ecc + s.correctedIn as ∧ r.1.gm = s.gm) ∧
    (g.ncmd ≤ g.next → s.nextCommand sk g =
      s.endGroup sk g.ref (if g.kill then 13 else if g.dirty then 14 else 0) g.last g.flags g.ce (some g.sem)) ∧
    (g.next < g.ncmd → ((s.nextCommand sk g).stoker sk).group = some g ∧ (s.nextCommand sk g).gm = s.gm ∧
      ((s.stoker sk).halt = true → (s.nextCommand sk g).cal = s.cal) ∧
      ((s.stoker sk).halt = false →
        ∃ k, (s.nextCommand sk g).Pending .hc (s.hc + 1 + Config.delay k) effects (.ev (cmdEvent sk (cmdBits g.slots g.next))))) ∧
    (∀ ref status cmdix flags ce sem, (status = 0 ∨ sem = none) → s.watched .gm (ref.pa + 32) 8 = [] →
      ((s.endGroup sk ref status cmdix flags ce sem).stoker sk).group = none ∧
      (s.endGroup sk ref status cmdix flags ce sem).gm = s.gm.write (ref.pa + 32) (leBytes 8 (word4 status cmdix flags ce).toNat)) ∧
    (∀ (t : Stoker) (n : Nat) (cls : Traffic) (engine : Bool) (b : Fin 32), let u := t.grant s.hc n cls engine [b.val]
      s.hc < u.busy ∧ u.acts[b.val] = t.acts[b.val] + 1 ∧ (∀ d : Fin 32, d ≠ b → u.acts[d.val] = t.acts[d.val]) ∧ u.athr = t.athr ∧
        (t.athr ≤ t.acts[b.val] + 1 → (b.val, cls.num.val) ∈ u.rfm) ∧
        (engine = false → u.tenure = t.tenure) ∧ (engine = true → t.inTenure b.val = true ∨ ∃ e, (b.val, e) ∈ u.tenure ∧ s.hc < e) ∧
        ∃ o : Nat, 0 < o ∧ u.busy = s.hc + stokerTicks o ∧ (cls.num.val < t.budget.length → u.left cls = t.left cls - o)) ∧
    -- a channel takes no request while it is busy, none for a bank whose refresh management comes first, none of the main dies for a bank that
    -- an engine holds, and none of an engine that would begin a tenure while such a request waits
    (∀ (t : Stoker) (cls : Traffic) (engine : Bool) (banks : List Nat) (b : Nat), b ∈ banks →
      s.hc < t.busy ∨ t.resting s.hc b = true ∨ (cls = .md ∧ t.inTenure b = true) ∨
        (cls = .nm ∧ engine = true ∧ t.inTenure b = false ∧ t.bankAsked s.hc b = true) → t.admits s.hc cls engine banks = false) ∧
    ((s.stoker sk).group = none → exec (.gemv sk cmd) s = .next s ∧ exec (.reduce sk cmd) s = .next s ∧ exec (.map sk cmd) s = .next s ∧
      exec (.ncopy sk cmd) s = .next s ∧ exec (.semwait sk cmd) s = .next s ∧ exec (.sempost sk cmd) s = .next s ∧
      exec (.commit sk) s = .next s ∧ exec (.abort sk) s = .next s ∧ exec (.nmFence sk) s = .next s) ∧
    ((s.stoker sk).group = some g →
      let again (u : State) : State := u.post .hc (u.hc + 1) effects (.ev (cmdEvent sk cmd.toNat))
      let runs (i : Instr) (reads : List Nat) (out : List Byte → List (Nat × Byte × Byte) × Flg) : Prop :=
        let p := s.pick (g.want.getD (reads.map (· / 32)).dedup)
        let now := p.1.1.flatMap fun b => span (32 * b) 32
        let ask := p.2.serveEngine now
        let r := ask.1.engineRead sk g now
        (ask.2 = false → exec i s = .next (again ask.1)) ∧
        (ask.2 = true → r.2.2 = none → exec i s = .next (ended r.1 r.2.1 9)) ∧
        (∀ bs, ask.2 = true → r.2.2 = some bs →
          let h : Group := { r.2.1 with want := some p.1.2, got := (p.1.1.zipIdx.map fun x => (x.1, (bs.drop (32 * x.2)).take 32)) ++ r.2.1.got }
          let o := out (reads.map fun a => ((assocGet h.got (a / 32)).getD []).getD (a % 32) 0)
          exec i s = .next (if p.1.2 = [] then r.1.finishCommand sk h again o.1 o.2
            else (r.1.updStoker sk fun t => { t with group := some h }).sometime (.ev (cmdEvent sk cmd.toNat)) effects))
      let pg : Pages := ⟨g.page0, g.page1⟩
      let gc := gemvOf cmd.toNat
      let rc := reduceOf cmd.toNat
      let mc := mapOf cmd.toNat
      let nc := ncopyOf cmd.toNat
      let rn := packedBytes rc.f rc.n
      let len (op : Nat) : Nat := if mc.ops.contains op then packedBytes mc.fi mc.n else 0
      runs (.gemv sk cmd) (gemvReads gc pg).flatten (fun bs =>
        let part (i : Nat) : List Byte := (cutBytes ((gemvReads gc pg).map List.length) bs).getD i []
        let na := packedBytes gc.fa gc.k
        let outs := (List.range gc.m).map fun m =>
          gemvElem gc (leNat (part 0)) (leNat ((part (2 + m)).take na)) (scaleAt gc.smx (part 1)) (scaleAt gc.sma ((part (2 + m)).drop na))
            (if gc.acc then leNat (((part (2 + gc.m)).drop (4 * m)).take 4) else 0)
        (wordBytes (pg.pa gc.y) (outs.map (·.1)), orFlags (outs.map (·.2)))) ∧
      runs (.reduce sk cmd) (((List.range rc.nv).map fun i => span (pg.pa rc.x + rc.stride * i) rn).flatten ++
          (if rc.acc then span (pg.pa rc.y) (4 * rc.n) else [])) (fun bs =>
        let rows := (cutBytes (List.replicate rc.nv rn) bs).map leNat
        let outs := (List.range rc.n).map fun j =>
          reduceElem rc (leNat (((bs.drop (rc.nv * rn)).drop (4 * j)).take 4)) (rows.map fun r => rowElem rc.f r j)
        (wordBytes (pg.pa rc.y) (outs.map (·.1)), orFlags (outs.map (·.2)))) ∧
      runs (.map sk cmd) (span (pg.pa mc.a) (len 1) ++ span (pg.pa mc.b) (len 2) ++ span (pg.pa mc.c) (len 3)) (fun bs =>
        let parts := (cutBytes [len 1, len 2, len 3] bs).map leNat
        let e (i j : Nat) : Nat := widen mc.fi .f32 (rowElem mc.fi (parts.getD i 0) j)
        let outs := (List.range mc.n).map fun j => mapElem mc j (e 0 j) (e 1 j) (e 2 j)
        (packedWrites (pg.pa mc.y) mc.fo.bits (outs.map (·.1)), orFlags (outs.map (·.2)))) ∧
      runs (.ncopy sk cmd) ((List.range nc.nr).map fun i => span (pg.pa nc.s + i * nc.ss) nc.nb).flatten (fun bs =>
        (((cutBytes (List.replicate nc.nr nc.nb) bs).zipIdx.map fun (r, i) =>
          r.zipIdx.map fun (b, j) => (pg.pa nc.d + i * nc.ds + j, b, (0xFF : Byte))).flatten, 0))) ∧
    (∀ (again : State → State) (ws : List (Nat × Byte × Byte)) (fl : Flg),
      let q := s.serveEngine (ws.map (·.1))
      let r := q.1.engineRead sk g (q.1.rowCopies g (ws.map (·.1)))
      let h : Group := { r.2.1 with flags := r.2.1.flags ||| fl }
      (q.2 = false → s.finishCommand sk g again ws fl = again (q.1.updStoker sk fun t => { t with group := some g })) ∧
      (q.2 = true → r.2.2 = none → s.finishCommand sk g again ws fl = ended r.1 r.2.1 9) ∧
      (q.2 = true → r.2.2.isSome = true → r.1.groupWrite h ws = none → s.finishCommand sk g again ws fl = ended r.1 h 7) ∧
      (∀ h', q.2 = true → r.2.2.isSome = true → r.1.groupWrite h ws = some h' → s.finishCommand sk g again ws fl = r.1.nextCommand sk h'.step)) ∧
    ((s.stoker sk).group = some g → exec (.abort sk) s = .next (ended s g 12)) ∧
    ((s.stoker sk).group = some g → g.kill = true →
      exec (.nmFence sk) s = .next (ended s g.fence 13) ∧ exec (.commit sk) s = .next (ended s g.fence 13) ∧
        exec (.semwait sk cmd) s = .next (ended s g.fence 13) ∧ exec (.sempost sk cmd) s = .next (ended s g.fence 13)) ∧
    ((s.stoker sk).group = some g → g.kill = false → exec (.nmFence sk) s = .next (s.nextCommand sk g.fence.step) ∧
      (g.conflicted = true → exec (.commit sk) s = .next (ended s g.fence 8)) ∧
      (g.conflicted = false → ∃ rows : List Nat, rows.Nodup ∧
        (∀ b, b ∈ rows ↔ (∃ c ∈ g.shadow, c.1 / 2048 = b) ∨ ∃ c ∈ s.gm, hbmRow s.boot.stripesP c.1 ∈ g.rows ∧ c.1 / 2048 = b) ∧
        exec (.commit sk) s = .next ((rows.foldl (fun (u : State) (b : Nat) => u.storeAt .gm (2048 * b) (g.shadow.read (2048 * b) 2048))
          (s.updStoker sk fun t => { t with group := some g.fence.fresh })).nextCommand sk g.fence.fresh.step)) ∧
      (let p := g.cmdSem cmd.toNat
       let n := (cmd.extractLsb' 4 32).toNat
       let q := s.serve .nm (span p 8)
       let r := q.1.stokerRead sk g.ref.bid (span p 8)
       let posts : Group := { g.fence with ce := g.ce + r.2.1 }
       let since : Group := { g.fence with waiting := some (g.waiting.getD s.hc) }
       let read : Group := { since with ce := g.ce + r.2.1 }
       let waits (u : State) (h : Group) : State :=
         (u.updStoker sk fun t => { t with group := some h }).post .hc (u.hc + 1) effects (.ev (.semwait sk cmd))
       let tests (u : State) (h : Group) : State :=
         if (u.gm.word p).extractLsb' 32 8 ≠ 0 then ended u h 11
         else if n ≤ ((u.gm.word p).extractLsb' 0 32).toNat then u.nextCommand sk h.step else waits u { h with want := some [] }
       (g.want.isSome = true → exec (.semwait sk cmd) s = .next (tests s since)) ∧
       (g.want = none → q.2 = false → exec (.semwait sk cmd) s = .next (waits q.1 since)) ∧
       (g.want = none → q.2 = true → r.2.2 = true → exec (.semwait sk cmd) s = .next (ended r.1 read 9)) ∧
       (g.want = none → q.2 = true → r.2.2 = false → exec (.semwait sk cmd) s = .next (tests r.1 read)) ∧
       (q.2 = false → exec (.sempost sk cmd) s = .next (q.1.post .hc (q.1.hc + 1) effects (.ev (.sempost sk cmd)))) ∧
       (q.2 = true → r.2.2 = true → exec (.sempost sk cmd) s = .next (ended r.1 posts 9)) ∧
       (q.2 = true → r.2.2 = false → let w := r.1.gm.word p
         exec (.sempost sk cmd) s = .next (((r.1.storeAt .gm p (leBytes 8 ((w.extractLsb' 32 8).toNat * 2 ^ 32 +
           ((w.extractLsb' 0 32).toNat + n) % 2 ^ 32))).retestRecords).nextCommand sk posts.step)))) ∧
    ((∀ k, s.semExpired k = false) → exec .semwaitTimeout s = .next s) ∧
    ((List.finRange 384).find? s.semExpired = some sk → (s.stoker sk).group = some g →
      let c := cmdBits g.slots g.next
      let w := s.gm.word (g.cmdSem c)
      exec .semwaitTimeout s = .next (if w.extractLsb' 32 8 ≠ 0 then ended (s.dropCommands sk) g 11
        else if bitsAt c 4 32 ≤ (w.extractLsb' 0 32).toNat then (s.dropCommands sk).nextCommand sk g.step else ended (s.dropCommands sk) g 10)) ∧
    (let sum := (v.extractLsb' 24 7).toNat + (v.extractLsb' 3 7).toNat + (v.extractLsb' 10 7).toNat + (v.extractLsb' 17 7).toNat
     exec (.charbWrite sk v) s = .next (if 64 < sum then s else s.updStoker sk fun t => { t with charbNext := some (v &&& 0x3FF7FFFFFF8) })) ∧
    (∃ t, exec .budgetPeriod s = .next t ∧ t.gm = s.gm ∧ t.cores = s.cores ∧ t.lib.lastPeriod = s.hc ∧
      (∃ k, t.Pending .hc (s.hc + 1 + Config.delay k) effects (.ev .refresh)) ∧
      ∀ k, (t.stoker k).charb = (s.stoker k).charbNext.getD (s.stoker k).charb ∧ (t.stoker k).charbNext = none ∧
        (t.stoker k).budget = newBudgets (t.stoker k).charb (s.stoker k).budget ∧ (t.stoker k).group = (s.stoker k).group) ∧
    (∃ k b n, b < 32 ∧ exec .refresh s = .next (({ s with choice := s.choice + 3 } : State).updStoker k fun t =>
      { t.grant s.hc n .rf false ([b].filter fun b => !t.resting s.hc b) with refreshes := t.refreshes + 1 })) ∧
    ((∀ k, (s.stoker k).rfm = []) → exec .refreshManagement s = .next s) ∧
    (∀ b c rest, ((List.finRange 384).find? fun k => !(s.stoker k).rfm.isEmpty) = some sk → (s.stoker sk).rfm = (b, c) :: rest →
      ∃ m : Nat, 0 < m ∧ exec .refreshManagement s = .next (({ s with choice := s.choice + 1 } : State).updStoker sk fun t =>
        { t.charge (Traffic.all.getD c .rf) m with
          acts := t.acts.set (b % 32) (t.acts[b % 32]'(Nat.mod_lt _ (by decide)) - t.athr) (Nat.mod_lt _ (by decide)), rfm := rest
          paused := (b, s.hc + stokerTicks m) :: t.paused })) ∧
    ((∀ k, (s.stoker k).tenureOver s.hc = false) → exec .tenureEnd s = .next s) ∧
    (((List.finRange 384).find? fun k => (s.stoker k).tenureOver s.hc) = some sk →
      exec .tenureEnd s = .next (s.updStoker sk fun t =>
        { t with tenure := if t.left .nm ≤ 0 then [] else t.tenure.filter fun p => decide (s.hc < p.2) })) ∧
    (let room := roomFolios s.archive.rrsize
     let u := s.shrinkRoom room s.archive.folios.length
     (room < u.archive.folios.length → exec (.readingRoomFill obj ver folio) s =
       .next (u.post .hc (u.hc + 1) effects (.ev (.readingRoomFill obj ver folio)))) ∧
     (u.archive.folios.length ≤ room → ∃ d err slot, d < 80000 ∧ (∀ k, slot = some k → k < room ∧ ∀ o ∈ u.archive.folios, o.slot ≠ some k) ∧
       exec (.readingRoomFill obj ver folio) s = .next (({ u with
         choice := u.choice + 1
         archive := { u.archive with folios := u.archive.folios.map fun o =>
           if o.obj = obj ∧ o.ver = ver ∧ o.num = folio then { o with slot := slot } else o } } : State).post .hc (u.hc + 1 + d) effects
             (.ev (.fillComplete obj ver folio err))))) ∧
    (s.folio obj ver folio = none → exec (.fillComplete obj ver folio bad) s = .next s) ∧
    (∀ e, s.folio obj ver folio = some e →
      let left := s.archive.folios.filter fun o => o != e
      let u := s.errorRecord 7 (s.flashAddr obj ver folio) (e.starter.elim 0 fun x => s.bidOf x.1) (e.starter.elim 0 fun x => x.1.val)
      let q := s.serve .rr e.rows
      exec (.fillComplete obj ver folio true) s = .next { u with archive := { u.archive with
        folios := left, badFolios := (e.starter.toList.map fun x => (x.2.2, obj, ver, folio)) ++ u.archive.badFolios } } ∧
      (q.2 = false → exec (.fillComplete obj ver folio false) s =
        .next (q.1.post .hc (q.1.hc + 1) effects (.ev (.fillComplete obj ver folio false)))) ∧
      (q.2 = true → ∃ t, exec (.fillComplete obj ver folio false) s = .next t ∧ t.gm = s.gm ∧ t.hc = s.hc ∧
        t.archive = { s.archive with folios := { e with filling := none, used := s.hc } :: left } ∧
        t.life.fills = vmod s.life.fills ⟨capBin (s.hc - e.filling.getD s.hc) % 16, Nat.mod_lt _ (by decide)⟩ (· + 1))) ∧
    (let n := (v.extractLsb' 0 4).toNat
     exec (.rrsizeWrite v) s = .next (if 1 ≤ n ∧ n ≤ 12 then { s with archive := { s.archive with rrHeld := some n } } else s)) ∧
    (s.rrReady = false → exec .rrsizeApply s = .next s) ∧
    (∀ n, s.archive.rrHeld = some n → s.rrReady = true → ∃ t, exec .rrsizeApply s = .next t ∧ t.gm = s.gm ∧ t.cores = s.cores ∧
      t.archive.rrsize = n ∧ t.archive.rrHeld = none ∧
      ∀ o ∈ t.archive.folios, o ∈ s.archive.folios ∧ ∀ k, o.slot = some k → k < roomFolios n) ∧
    (let u := s.pruneVersions
     (u.archive.nextAccession = none → exec .accessionStart s = .next u) ∧
     (∀ x, u.archive.nextAccession = some x →
       let need := (x.n + 2 ^ 24 - 1) / 2 ^ 24
       let st := u.archive.precheck x need
       let own := archiveStacks (u.lib.parts[x.part % 4]'(Nat.mod_lt _ (by decide)))
       ∃ t ctrl k, exec .accessionStart s = .next t ∧ t.gm = s.gm ∧ t.cores = s.cores ∧ (own ≠ [] → ctrl ∈ own) ∧
         t.archive = u.archive.updAcc x.num (fun y => { y with
           started := true, ctrl := ctrl, need := need, outcome := st
           blocks := if st.isSome then [] else u.archive.allot x.id need 0 u.archive.usedBlocks }) ∧
         t.Pending .hc (s.hc + 1 + Config.delay k) effects (if st.isSome then .ev .accessionComplete else .accStep x.num))) ∧
    (let ended := s.archive.flying.filter (·.outcome.isSome)
     (ended = [] → exec .accessionComplete s = .next { s with choice := s.choice + 1 }) ∧
     (ended ≠ [] → ∃ x ∈ ended, let u : State := { s with choice := s.choice + 1 }
       let place := u.hit none x.asid x.root false true x.record .write
       (∀ p l, place = .pa p l →
         let status := x.outcome.getD 0
         let a : Archive := { s.archive with wearRemaining := s.archive.wearRemaining - x.worn * 2 ^ 24 }
         let r := accRecord x status a.level
         exec .accessionComplete s = .next ((((((({ u with
             archive := a.updAcc x.num fun y => { y with status := some status } } : State).pruneVersions).storeAt .gm (p + 16)
           (leBytes 8 r.2.1.toNat)).storeAt .gm (p + 24) (leBytes 8 r.2.2.toNat)).storeAt .gm p (leBytes 8 r.1.toNat))).sometime
             (.ev .accessionStart) effects)) ∧
       ((∀ p l, place ≠ .pa p l) → exec .accessionComplete s = .next (u.sometime (.ev .accessionComplete) effects)))) ∧
    exec .wearDay s = .next (({ s with archive := { s.archive with
      wearRemaining := min (s.archive.wearRemaining + dailyBlocks * 2 ^ 24) (7 * dailyBlocks * 2 ^ 24)
      nextWearDay := s.archive.nextWearDay + 194400000000000 } } : State).foldLife) ∧
    (∀ u : State, (∀ i : Fin 64, (u.foldLife.island i).since = u.hc ∧ (u.foldLife.island i).fstep = (u.island i).fstep) ∧
      u.foldLife.gm = u.gm ∧ u.foldLife.archive = u.archive ∧
      ∀ n : Fin 9, u.foldLife.life.foldedCorrected[n.val] = u.life.foldedCorrected[n.val] + u.life.corrected[n.val] ∧
        u.foldLife.life.corrected[n.val] = 0 ∧ u.foldLife.life.uncorrected[n.val] = 0)

/-- What the events of the Librarian and of the dispatch hardware do (R48, R51, R139, R186, R293, R304 to R322, R340, R347 to R361, R374, R375), each
with the conditions under which it completes: eligibilityTest and placement test, rank and place records; dispatchPrepare, bindingRelease,
freezeHorizon, bindingResume, bindingFault and completionReport prepare, release, stop, resume, end and report a binding; coreGateRequest, coreGate
and idleCoreTimeout gate cores; preemptRequest, preemptDrainLimit, preemptComplete, saveEnd and loadEnd stop, save and move tasks; partitionInstall,
createq, deleteq, partition, cancel, accession, acccancel, regmr, install and recover carry out the management commands, each of which is answered
once. What is the model's own: log entries 6, 16, 31, 33, 38, 42 and, for the codes of outcomes and answers, 9; indices of free values (log entry 4)
appear in the conclusions only. -/
def Obligations.LibrarianAndDispatchEventsDoTheirWork : Prop :=
  ∀ (s : State) (c : CoreId) (b : Binding) (bid : Nat) (m : MgmtMsg),
    (let u := s.flushReports
     let v := (u.lib.records.filterMap fun r => (u.testStatus r).map fun st => (r, st)).foldl (fun (u : State) e => u.endRecord e.1 e.2) u
     exec .eligibilityTest s = .next (({ v with lib := { v.lib with
       lastTest := v.hc
       records := v.lib.records.map fun r => { r with eligible := if v.isEligible r then some (r.eligible.getD v.hc) else none } } } : State).post
         .hc v.hc latePrio (.ev .placement))) ∧
    (∀ (l : Launch) asid tries relHc status p q, s.reportPlace asid l.crec .write = some (some p) → s.reportPlace asid l.csem .atomic = some q →
      let u := ((s.storeAt .gm (p + 16) (leBytes 8 relHc)).storeAt .gm (p + 24) (leBytes 8 s.hc)).storeAt .gm p
        (leBytes 8 (bid % 65536 * 2 ^ 48 + tries % 256 * 2 ^ 40 + 2 ^ 8 + status))
      (q = none → s.report asid l bid tries relHc status = u) ∧
      (∀ a, q = some a → let n := ((u.gm.word a).extractLsb' 0 32).toNat
        let e := ((u.gm.word a).extractLsb' 32 8).toNat
        s.report asid l bid tries relHc status =
          (u.storeAt .gm a (leBytes 8 ((if status ≠ 0 ∧ e = 0 then status else e) * 2 ^ 32 + (n + 1) % 2 ^ 32))).retestRecords)) ∧
    (s.boot.recovery = true → exec .placement s = .next { s.standFirst with choice := s.standFirst.choice + 1 }) ∧
    (s.boot.recovery = false → let r := s.standFirst.placeFirst [] s.standFirst.ranked
      let t : State := { r.getD s.standFirst with choice := (r.getD s.standFirst).choice + 1 }
      exec .placement s = .next (if r.isSome then t.post .hc t.hc latePrio (.ev .placement) else t)) ∧
    (∀ r cs sks n, domGid r.dom2 = 0 → r.eligible.isSome = true → s.nextBids 1 = [n] → s.bestPlace r = some cs → s.freeStokers r.launch = some sks →
      let t := s.place r cs sks (s.releaseTick r.launch cs) n 0
      s.tryPlace r = if s.wakes t = true ∧ Config.choose s.choice = true then none else some t) ∧
    (∀ r rs held, (∃ o ∈ r :: s.gang r, s.recPart o ∈ held) → s.placeFirst held (r :: rs) = s.placeFirst held rs) ∧
    (∀ n, s.nextBids 1 = [n] → s.binding n = none ∧ (∀ r ∈ s.lib.reports, r.bid ≠ n) ∧ ∀ r ∈ s.lib.records, r.bid ≠ n) ∧
    (∀ r cs sks rel base, ∃ e : Binding, (s.place r cs sks rel bid base).bindings = s.bindings ++ [e] ∧ e.bid = bid ∧ e.launch = r.launch ∧
      e.members = cs ∧ e.stokers = sks ∧ e.rel = rel ∧ e.relHc = none ∧ e.dt = 0 ∧ e.status = none) ∧
    (let cs := (List.finRange 256).filter fun c => (s.toPrepare c).isSome
     let u := if cs.any fun c => !(s.core c).copies.isEmpty then s.post .hc (s.hc + 1) latePrio (.ev .dispatchPrepare) else s
     ((∀ e ∈ cs, (s.core e).copies ≠ []) → exec .dispatchPrepare s = .next u) ∧
     (cs.find? (fun e => (s.core e).copies.isEmpty) = some c → s.toPrepare c = some b →
       let image := u.loadBytes b.asid (b.launch.f 2 0 64) (64 * b.launch.image.1)
       let data := u.loadBytes b.asid (b.launch.f 4 0 64) b.launch.image.2
       (∀ x y, image = some x → data = some y → exec .dispatchPrepare s =
         .next ((u.updCore c fun _ => u.preparedCore b c x y).setBands c ((s.core c).slot[6].extractLsb' 34 8))) ∧
       (image = none ∨ data = none → exec .dispatchPrepare s = .next (u.endBinding b.bid 10)))) ∧
    (∀ x y, let k := s.preparedCore b c x y
      k.prepared = true ∧ k.awake = true ∧ k.code = Mem.write [] 0 x ∧ k.ls = Mem.write [] 0 y ∧ k.task = some (slotTask (s.core c).slot) ∧
        k.dom = b.domWords c (s.core c).slot ∧ k.acc = [] ∧ (∀ j : Fin 32, k.v[j.val] = 0) ∧
        ∀ st, k.strand st = b.launch.newStrand st ∧ ∀ r, (k.strand st).rx r = 0) ∧
    ((∀ e ∈ s.bindings, s.releases e = false) → exec .bindingRelease s = .next s) ∧
    (s.bindings.find? s.releases = some b → b.restored = false →
      let e := if b.rel < s.hc then s.event 3 [BitVec.ofNat 64 b.rel, BitVec.ofNat 64 s.hc] else s
      let u := b.members.foldl (fun (u : State) c => u.updCore c Core.start) (e.updBinding b.bid fun o => { o with relHc := some s.hc, dt := 0, live := true })
      exec .bindingRelease s = .next { u with todo := s.todo ++ b.members.flatMap fun c => [(c, .x), (c, .l), (c, .c), (c, .s)] }) ∧
    (∀ (k : Core) (st : StrandId), (k.start.strand st).run = if (k.strand st).run = .off then .running else (k.strand st).run) ∧
    (∀ e, s.bindings.find? s.releases = some b → b.restored = true → (s.renameCores b).binding b.bid = some e →
      exec .bindingRelease s = .next ((s.renameCores b).resumeBinding e)) ∧
    ((∀ e ∈ s.bindings, s.reportable e = false) → exec .completionReport s = .next s) ∧
    (s.bindings.find? s.reportable = some b →
      let u := (if b.cg = true ∧ b.status.getD 0 ≠ 0 then s.discardShadows b else s).removeBinding b
      let tries := b.run + b.relHc.isSome.toNat
      exec .completionReport s = .next ((if b.status.getD 0 = statusRerun then
        { u with lib := { u.lib with
          nextRec := u.lib.nextRec + 1
          records := u.lib.records ++ [⟨u.lib.nextRec, b.launch, b.queue, u.hc, none, tries, none, b.bid⟩] } }
        else u.report b.asid b.launch b.bid tries (b.relHc.getD 0) (b.status.getD 0)).sometime (.ev .eligibilityTest) latePrio)) ∧
    ((s.removeBinding b).binding b.bid = none ∧ (∀ d ∈ (s.removeBinding b).cal,
      d.clock ≠ .dt b.bid ∧ d.work ≠ .ev (.bindingFault b.bid) ∧ d.work ≠ .ev (.preemptRequest b.bid))) ∧
    (∀ e o, b.members = [e] → s.bidOf e = b.bid → s.binding b.bid = some o → b.status = none → o.launch.fslots = [] →
      ((s.removeBinding b).core e).fromBelow = (s.core e).fromBelow ∧ ((s.removeBinding b).core e).fromAbove = (s.core e).fromAbove) ∧
    exec (.coreGateRequest c) s = .next (s.updCore c fun k => { k with gateReq := k.gateReq || k.awake, gateOwn := k.gateOwn && !k.awake }) ∧
    ((∀ e, s.gates e = false) → exec .coreGate s = .next s) ∧
    ((List.finRange 256).find? s.gates = some c →
      exec .coreGate s = .next (s.updCore c fun k => { k with awake := false, gateReq := false, gateOwn := false, bps := 0, rail := 0 })) ∧
    ((∀ e, s.idleLong e = false) → exec .idleCoreTimeout s = .next s) ∧
    ((List.finRange 256).find? s.idleLong = some c →
      exec .idleCoreTimeout s = .next (s.updCore c fun k => { k with gateReq := true, gateOwn := true })) ∧
    (s.lib.repartition = none ∨ s.canInstall = false → exec .partitionInstall s = .next s) ∧
    (∀ new, s.lib.repartition = some new → s.canInstall = true →
      let gone (p : Nat) : Bool := s.lib.parts[p % 4]'(Nat.mod_lt _ (by decide)) != 0 && new[p % 4]'(Nat.mod_lt _ (by decide)) == 0
      let u : State := { s with
        lib := { s.lib with
          parts := new, repartition := none, stripes := s.lib.stripes.filter fun e => !gone e.2
          poolStripes := s.lib.poolStripes.filter fun e => !gone e.2 }
        archive := s.archive.cancelAcc fun x => gone x.part
        cores := Vector.ofFn fun i => { s.cores[i] with partid := partidOf new i } }
      let v := (List.finRange 64).foldl (fun (u : State) q =>
        if ((u.queue q.val).any fun lq => new[lq.part % 4]'(Nat.mod_lt _ (by decide)) == 0) then u.dropQueue q else u) u
      exec .partitionInstall s = .next (((v.lib.records.filter fun r => r.launch.neverFits (v.partOf (v.recPart r))).foldl
        (fun (u : State) r => u.endRecord r 4) v).sometime (.ev .eligibilityTest) latePrio)) ∧
    (let told (i : Instr) : Prop := s.msg = none → exec i s = .next s
     told .createq ∧ told .deleteq ∧ told .partition ∧ told .cancel ∧ told .accession ∧ told .acccancel ∧ told .regmr ∧ told .install ∧
       told .recover) ∧
    (s.msg = some m →
      let w (v : Word) (lo n : Nat) : Nat := (v.extractLsb' lo n).toNat
      let u : State := { s with msg := none }
      let fails (i : Instr) (status : Nat) : Prop := exec i s = .next (u.answer m status 0)
      let does (i : Instr) (t : State) : Prop := exec i s = .next (t.answer m 0 0)
      let ok (op : Nat) (masks : List Word) : Prop := s.boot.recovery = false ∧ msgWellFormed m op masks = true
      let bad (i : Instr) (op : Nat) (masks : List Word) : Prop :=
        (s.boot.recovery = true → exec i s = .next u) ∧ (s.boot.recovery = false → msgWellFormed m op masks = false → fails i 1)
      bad .createq 1 [0x0000FFFF00000F3F, 0x0000FFFFFFFFFFFF] ∧ bad .deleteq 2 [0x3F] ∧ bad .partition 3 [0xFFFF] ∧
      bad .cancel 4 [0x0000003FFFFF0001, BitVec.allOnes 64] ∧
      bad .accession 5 [0x0000FFFF01FFFFFF, 0x0000FFFFFFFFFFFF, 0x00000001FFFFFFFF, 0x0000FFFFFFFFFFFF] ∧
      bad .acccancel 6 [0x0000FFFF00000000, 0x0000FFFFFFFFFFFF] ∧
      bad .regmr 7 [0x0000FFFF00000000, 0x0000FFFFFFFFFFFF, 0x0000FFFFFFFFFFFF] ∧ bad .recover 9 [] ∧
      (ok 1 [0x0000FFFF00000F3F, 0x0000FFFFFFFFFFFF] →
        (12 < w m.w2 8 4 ∨ m.w3.toNat % 4096 ≠ 0 → fails .createq 1) ∧
        (w m.w2 8 4 ≤ 12 → m.w3.toNat % 4096 = 0 → (s.queue (w m.w2 0 6)).isSome = true → fails .createq 2) ∧
        (w m.w2 8 4 ≤ 12 → m.w3.toNat % 4096 = 0 → s.queue (w m.w2 0 6) = none → does .createq { u with lib := { u.lib with
          queues := vmod u.lib.queues ⟨w m.w2 0 6 % 64, Nat.mod_lt _ (by decide)⟩ fun _ =>
            some ⟨m.part.val, w m.w2 32 16, w m.w2 8 4, m.w3.toNat, 0, 0⟩ } })) ∧
      (ok 2 [0x3F] → let q : Fin 64 := ⟨w m.w2 0 6 % 64, Nat.mod_lt _ (by decide)⟩
        (s.queue q.val = none → fails .deleteq 1) ∧ ((s.queue q.val).isSome = true → does .deleteq (u.dropQueue q))) ∧
      (ok 3 [0xFFFF] → let new : Vector (BitVec 4) 4 := Vector.ofFn fun i => m.w2.extractLsb' (4 * i.val) 4
        let once := (List.range 4).all fun q => ((List.finRange 4).filter fun i => new[i.val].getLsbD q).length == 1
        (once = false → fails .partition 1) ∧ (once = true → s.lib.repartition.isSome = true → fails .partition 2) ∧
        (once = true → s.lib.repartition = none → does .partition { u with lib := { u.lib with repartition := some new } })) ∧
      (ok 4 [0x0000003FFFFF0001, BitVec.allOnes 64] →
        (w m.w2 0 1 = 0 → w m.w2 32 6 ≠ 0 ∨ m.w3 ≠ 0 → fails .cancel 1) ∧ (w m.w2 0 1 = 1 → w m.w2 16 16 ≠ 0 → fails .cancel 1) ∧
        (w m.w2 0 1 = 0 → w m.w2 32 6 = 0 → m.w3 = 0 → does .cancel (u.endBinding (w m.w2 16 16) statusCancelled)) ∧
        (w m.w2 0 1 = 1 → w m.w2 16 16 = 0 →
          let hit (l : Launch) (o : Nat) : Bool := o == w m.w2 32 6 && l.words[1] == m.w3
          let v := (u.lib.records.filter fun r => hit r.launch r.queue).foldl (fun (u : State) r => u.endRecord r statusCancelled) u
          does .cancel ((s.bindings.filter fun b => hit b.launch b.queue).foldl (fun (u : State) b => u.endBinding b.bid statusCancelled) v))) ∧
      (ok 5 [0x0000FFFF01FFFFFF, 0x0000FFFFFFFFFFFF, 0x00000001FFFFFFFF, 0x0000FFFFFFFFFFFF] →
        let st := accStatus s.archive (w m.w2 0 24) m.w3.toNat m.w4.toNat m.w5.toNat
        (st = 2 ∨ 2 ^ 32 < m.w4.toNat → fails .accession 1) ∧ (st = 1 → m.w4.toNat ≤ 2 ^ 32 → fails .accession 2) ∧
        (st = 0 → m.w4.toNat ≤ 2 ^ 32 → does .accession (u.queueAccession 0 m.part.val (w m.w2 32 16) (u.root (w m.w2 32 16)) (w m.w2 0 24)
          (m.w2.getLsbD 24) m.w3.toNat m.w4.toNat m.w5.toNat))) ∧
      (ok 6 [0x0000FFFF00000000, 0x0000FFFFFFFFFFFF] →
        does .acccancel { u with archive := u.archive.cancelAcc fun x => x.asid == w m.w2 32 16 && x.record == m.w3.toNat }) ∧
      (ok 7 [0x0000FFFF00000000, 0x0000FFFFFFFFFFFF, 0x0000FFFFFFFFFFFF] →
        let wrong := m.w3.toNat % 4096 ≠ 0 ∨ m.w4.toNat % 4096 ≠ 0 ∨ m.w4.toNat = 0 ∨ 2 ^ 48 < m.w3.toNat + m.w4.toNat
        let key := s.host.nextKey % 2 ^ 32
        (wrong → fails .regmr 1) ∧
        (¬ wrong → exec .regmr s = .next (({ u with host := { u.host with
          nextKey := u.host.nextKey + 1
          regions := u.host.regions ++ [⟨BitVec.ofNat 32 key, m.part.val, w m.w2 32 16, m.w3.toNat, m.w4.toNat⟩] } } : State).answer m 0 key))) ∧
      (∀ i, u.installImage = some i → s.boot.recovery = true → msgWellFormed m 8 [] = true → sha3 i.bytes = i.digest →
        Config.verify i.digest i.signature = true →
        exec .install s = .next (({ u with boot := { u.boot with stored := some i } } : State).restart (some i))) ∧
      (u.installImage = none ∨ s.boot.recovery = false ∨ msgWellFormed m 8 [] = false ∨
        (∀ i, u.installImage = some i → sha3 i.bytes ≠ i.digest ∨ Config.verify i.digest i.signature = false) → fails .install 1) ∧
      (∀ i, s.img = some i → s.boot.image.read 0 i.bytes.length = i.bytes → u.installImage = some i) ∧
      (ok 9 [] → let can := m.part = 0 ∧ s.bindings = [] ∧ (s.lib.parts.toList.filter (· != 0)).length = 1
        (can → exec .recover s = .next ((u.answer m 0 0).restart none)) ∧ (¬ can → fails .recover 2))) ∧
    (∀ (q : MgmtMsg) (status result : Nat), let h := s.host
      let e : Event := ⟨0, [BitVec.ofNat 64 (q.w0.toNat % 256 + 256 * status), q.tag, BitVec.ofNat 64 result]⟩
      (0 < h.posted[q.part.val] → s.answer q status result =
        { s with host := { h with posted := vmod h.posted q.part (· - 1), sent := h.sent ++ [(q.part, e)] } }) ∧
      (h.posted[q.part.val] = 0 → s.answer q status result = { s with host := { h with answers := h.answers ++ [(q.part, e)] } })) ∧
    ((∀ e ∈ s.bindings, e.atHorizon = false) → exec .freezeHorizon s = .next s) ∧
    (s.bindings.find? (·.atHorizon) = some b →
      exec .freezeHorizon s = .next (s.updBinding b.bid fun b => { b with pace := .frozen, live := false })) ∧
    (s.binding bid = none → exec (.bindingResume bid) s = .next s ∧ exec (.bindingFault bid) s = .next s ∧ exec (.preemptRequest bid) s = .next s) ∧
    (s.binding bid = some b →
      (b.pace = .frozen → b.status = none → s.inPlace b = true → s.doubleTrapped b = false →
        exec (.bindingResume bid) s = .next (s.resumeBinding b)) ∧
      (b.pace ≠ .frozen ∨ b.status.isSome = true ∨ s.inPlace b = false ∨ s.doubleTrapped b = true →
        exec (.bindingResume bid) s = .next s) ∧
      (b.status.isSome = true → exec (.bindingFault bid) s = .next s) ∧
      (b.status = none → exec (.bindingFault bid) s =
        .next ((s.faultEvents b).endBinding bid (if b.cg = true ∧ s.memErrTrap b = true then b.retryOr 1 else 1))) ∧
      (b.preempt = true ∨ b.relHc = none → exec (.preemptRequest bid) s = .next s) ∧
      (b.preempt = false → b.relHc.isSome = true → exec (.preemptRequest bid) s = .next (b.stokers.foldl
        (fun (u : State) sk =>
          let v : State := ({ u with choice := u.choice + 1 } : State).updStoker sk fun t => { t with halt := true }
          if Config.choose u.choice then v.abortStoker bid sk else v)
        (s.updBinding bid fun o => { o with preempt := true, reqHc := s.hc, horizon := o.horizon.or (some (8 * ((b.dt + 39) / 8))) })))) ∧
    (∀ sk g, (s.stoker sk).group = some g → s.abortStoker bid sk =
      if g.ref.bid = bid then (s.dropCommands sk).endRunning sk { g with next := g.next + 1 } 15 else s) ∧
    (let due (b : Binding) : Bool := b.members.any fun d => (s.core d).copies.any (s.squashable b)
     ((∀ e ∈ s.bindings, due e = false) → exec .preemptDrainLimit s = .next s) ∧
     (s.bindings.find? due = some b → ∃ t, exec .preemptDrainLimit s = .next t ∧ t.gm = s.gm ∧ t.bindings = s.bindings ∧
       (∀ e, (t.core e).copies = if e ∈ b.members then (s.core e).copies.map fun p =>
         if s.squashable b p then { p with stopped := true, words := none, data := [], samples := [], srcAt := [], barAt := none } else p
         else (s.core e).copies) ∧
       ∀ d, d ∈ t.cal ↔ d ∈ s.cal ∧ ∀ i j p, d.work = .ev (.copyChunkRead i j) → s.copy i = some p → s.squashable b p = false)) ∧
    ((∀ e ∈ s.bindings, s.preempted e = false) → exec .preemptComplete s = .next s) ∧
    (s.bindings.find? s.preempted = some b →
      let unlink (u : State) (c : CoreId) (st : StrandId) : State :=
        if ((u.strand c st).wait.any fun w => match w.why with | .object _ _ _ _ _ | .held _ _ => true | _ => false) then u.abandon c st else u
      exec .preemptComplete s = .next (b.stokers.foldl (fun (u : State) sk => u.saveStoker sk)
        (b.members.foldl (fun (u : State) c => if u.bidOf c = b.bid then [StrandId.x, .l, .c, .s].foldl (fun (u : State) st => unlink u c st) u else u)
          (s.updBinding b.bid fun o => { o with stopped := true, stopHc := s.hc })))) ∧
    (∀ sk, let t := (s.saveStoker sk).stoker sk
      t.stopped = true ∧ t.halt = false ∧ t.group = none ∧ t.queue = (s.stoker sk).queue ∧ (s.saveStoker sk).gm = s.gm ∧
        (∀ g, (s.stoker sk).group = some g → (∃ h, t.saved = some h ∧ h.ref = g.ref ∧ h.next = g.next ∧ h.shadow = g.shadow) ∧ t.frame.get 0 = 1)) ∧
    (∀ sk, s.stokerQuiet sk = false → b ∈ s.bindings → sk ∈ b.stokers → s.preempted b = false) ∧
    ((∀ e, s.engineDue false e = false) → exec .saveEnd s = .next s) ∧
    ((∀ e, s.engineDue true e = false) → exec .loadEnd s = .next s) ∧
    (∀ e, (List.finRange 256).find? (s.engineDue false) = some c → (s.core c).engine = some e →
      (s.bindingOf c = none → exec .saveEnd s = .next (s.outcome c 3 0)) ∧
      (s.bindingOf c = some b → b.stopped = false → exec .saveEnd s = .next (s.outcome c 3 0)) ∧
      (s.bindingOf c = some b → b.stopped = true → exec .saveEnd s = .next (s.saveCore c b e.1))) ∧
    (∀ e, (List.finRange 256).find? (s.engineDue true) = some c → (s.core c).engine = some e →
      ((s.core c).task.isSome = true → exec .loadEnd s = .next (s.outcome c 7 0)) ∧
      ((s.core c).task = none → exec .loadEnd s = .next (s.loadCore c e.1))) ∧
    (∀ code size, (s.outcome c code size).lib.outcomes = s.lib.outcomes ++ [(c, code, size)] ∧ ((s.outcome c code size).core c).engine = none)

/-- What the events of the host attachment, the links, the islands, the sensors, power and boot do (R8, R20, R22, R82, R305, R308, R309, R318,
R332, R333, R368 to R392), each with the conditions under which it completes: rdmaWrite, rdmaWriteWithImmediate, rdmaRead and invalidRequest perform
or are answered with a NAK; portDown, receiveBufferPosted, quarantineRelease and migration act on ports, buffers and pages; domainFormation,
hcCorrection, deviceRemoval, laneFault and remoteAccess act on the domain; hop, hopComplete, hopRetry, supplyDroop, droopEnd and reserveHoldEnd on an
island; powerLease and leaseExpiry on the cap; temperatureSample, adviseTrip, throttleTrip, throttleStep, tripEnd and shutdownTrip on the sensors and
what they ask; patrolScrub, capcfgWrite and librarianRegisterWrite write what they name; coldReset, powerLoss, orderlyShutdown and
attestationRequest act on the whole device. What is the model's own: log entries 6, 9, 10, 13, 33, 35, 36, 37, 38 and 42; indices of free values
(log entry 4) appear in the conclusions only. -/
def Obligations.HostLinkAndPowerEventsDoTheirWork : Prop :=
  ∀ (s : State) (qp : Fin 256) (rkey : Word32) (va n : Nat) (bytes : List Byte) (imm : Word32) (i : Fin 64) (k : Fin 320) (c : CoreId) (v : Word),
    (s.usableQp qp = none → exec (.rdmaWrite qp rkey va bytes) s = .next s ∧ exec (.rdmaWriteWithImmediate qp rkey va bytes imm) s = .next s ∧
      exec (.rdmaRead qp rkey va n) s = .next s ∧ exec (.invalidRequest qp) s = .next s) ∧
    (∀ q, s.usableQp qp = some q →
      let writes (t : State) (told : Bool) : Prop := exec (.rdmaWrite qp rkey va bytes) s = .next t ∧
        exec (.rdmaWriteWithImmediate qp rkey va bytes imm) s = .next (if told = true ∧ q.launch = true ∧ s.boot.recovery = false then t.launchSignal imm else t)
      let reads (t : State) : Prop := exec (.rdmaRead qp rkey va n) s = .next t
      (s.inRegion q rkey va bytes.length = false → writes (s.nakAccess qp) false) ∧ (s.inRegion q rkey va n = false → reads (s.nakAccess qp)) ∧
      (s.boot.recovery = true →
        (s.inRegion q rkey va bytes.length = true → writes { s with boot := { s.boot with image := Mem.write s.boot.image va bytes } } true) ∧
        (s.inRegion q rkey va n = true → reads (s.reply (.bytes qp.val (s.boot.image.read va n))))) ∧
      (s.boot.recovery = false →
        (s.inRegion q rkey va bytes.length = true → let goes := s.hostPlaces q.asid .write (piecesOf va bytes.length)
          (goes = .none → writes (s.nakAccess qp) false) ∧
          (∀ a, goes = .shadowed a → writes ((s.nakAccess qp).event 12 [BitVec.ofNat 64 a, BitVec.ofNat 64 q.asid]) false) ∧
          (∀ ps, goes = .pieces ps →
            writes (ps.foldl (fun (r : State × List Byte) p => (r.1.storeAt .gm p.1 (r.2.take p.2), r.2.drop p.2)) (s, bytes)).1 true)) ∧
        (s.inRegion q rkey va n = true → let at' := s.hostPlaces q.asid .read (piecesOf va n)
          (∀ ps, at' = .pieces ps → let as := ps.flatMap fun p => span p.1 p.2
            (s.badGm as = none → reads ((s.countCorrected 5 (s.correctedIn as)).reply (.bytes qp.val (as.map s.gm.get)))) ∧
            (∀ line, s.badGm as = some line → ∃ bs k, bs.length = as.length ∧
              (∀ j : Nat, ∀ a, as[j]? = some a → s.badGm [a] = none → bs[j]? = some (s.gm.get a)) ∧
              reads (State.reply { s.errorRecord 5 line 0 0 with choice := s.choice + k } (.bytes qp.val bs)))) ∧
          ((∀ ps, at' ≠ .pieces ps) → reads (s.nakAccess qp)))) ∧
      exec (.invalidRequest qp) s = .next (s.reply (.nakInvalid qp.val))) ∧
    (let q := (imm.extractLsb' 26 6).toNat
     let tail : BitVec 16 := imm.setWidth 16
     (s.queue q = none → s.launchSignal imm = s.event 2 [imm.setWidth 64]) ∧
     (∀ l, s.queue q = some l → let d := (tail - l.tail).toInt
       (d ≤ 0 → s.launchSignal imm = s) ∧
       (0 < d → 2 ^ l.k < (tail - l.head).toNat → s.launchSignal imm = s.event 1 [imm.setWidth 64]) ∧
       (0 < d → (tail - l.head).toNat ≤ 2 ^ l.k → imm.extractLsb' 16 10 ≠ 0 → s.launchSignal imm = s.event 2 [imm.setWidth 64]) ∧
       (0 < d → (tail - l.head).toNat ≤ 2 ^ l.k → imm.extractLsb' 16 10 = 0 → s.launchSignal imm =
         ((List.range d.toNat).foldl (fun (u : State) j => u.acceptRecord q (l.tail.toNat + j)) { s with lib := { s.lib with
           queues := vmod s.lib.queues ⟨q % 64, Nat.mod_lt _ (by decide)⟩ fun o => o.map fun o => { o with tail := tail } } }).sometime
             (.ev .eligibilityTest) latePrio))) ∧
    (∀ port, ∃ t, exec (.portDown port) s = .next t ∧ t = { s with host := { s.host with portUp := t.host.portUp, qps := t.host.qps } } ∧
      t.host.portUp[port.toNat]'(by cases port <;> decide) = false ∧
      t.host.portUp[(!port).toNat]'(by cases port <;> decide) = s.host.portUp[(!port).toNat]'(by cases port <;> decide) ∧
      ∀ j : Fin 256, t.host.qps[j.val] = s.host.qps[j.val].map fun q => if q.port = port then { q with port := !port } else q) ∧
    (∀ part : Fin 4, let h := s.host
      (∀ a, h.answers.find? (fun a => a.1 == part) = some a → exec (.receiveBufferPosted part) s =
        .next { s with host := { h with answers := h.answers.erase a, sent := h.sent ++ [a] } }) ∧
      ((∀ a ∈ h.answers, a.1 ≠ part) →
        (∀ e rest, h.held = e :: rest → exec (.receiveBufferPosted part) s =
          .next { s with host := { h with held := rest, sent := h.sent ++ [(part, e)] } }) ∧
        (h.held = [] → exec (.receiveBufferPosted part) s = .next { s with host := { h with posted := vmod h.posted part (· + 1) } }))) ∧
    (s.cleanPage = none → exec .quarantineRelease s = .next s) ∧
    (∀ p, s.cleanPage = some p →
      let left := s.xlate.quarantine.filter fun o => o != p
      let pool := if (assocGet s.lib.poolStripes (p.1 / 2 ^ 30)).isSome = true ∧ p.2.1 ≠ 30 then s.xlate.pool ++ [(p.1, p.2.1)] else s.xlate.pool
      (s.xlate.waiting = [] → exec .quarantineRelease s = .next { s with xlate := { s.xlate with quarantine := left, pool := pool } }) ∧
      (∀ w ws, s.xlate.waiting = w :: ws → exec .quarantineRelease s = .next { s with xlate := { s.xlate with
        quarantine := left ++ [(w.1, w.2, s.xlate.qcur)], waiting := ws, pool := pool } })) ∧
    (∀ asid dst e, walkFrom s.gm va 4 0 (s.root asid) = .error e → exec (.migration asid va dst) s = .next s) ∧
    (∀ asid dst l, walkFrom s.gm va 4 0 (s.root asid) = .ok l →
      let base := va / 2 ^ l.bits * 2 ^ l.bits
      (s.migratable asid l dst = true → ePin l.entry = false ∧ eSH l.entry = false ∧ l.bits ≠ 30 ∧ dst % 2 ^ l.bits = 0 ∧
        s.interleaved dst = true ∧ s.stripeOpen asid dst = true ∧ s.pageFree dst l.bits = true ∧
        exec (.migration asid va dst) s = .next ((({ s with
          gm := s.gm.setWord l.place (l.entry &&& ~~~(4 : Word))
          xlate := { s.xlate with
            migrations := ⟨asid, base, l.bits, l.place, npa l.entry, dst, eW l.entry, 1, s.xlate.nextInval⟩ :: s.xlate.migrations } } : State).ownStripe
              asid dst).ownInval asid base l.bits)) ∧
      (s.migratable asid l dst = false → exec (.migration asid va dst) s = .next s)) ∧
    -- a page that a table, a migration, a shadow or the pool uses is not free, and a stripe of tables or of the pool is mapped in no space
    (∀ pa bits, s.pageFree pa bits = true →
      let apart (a n : Nat) : Prop := pa + 2 ^ bits ≤ a ∨ a + n ≤ pa
      (∀ t ∈ s.tables, apart t.1 t.2) ∧ (∀ e ∈ s.leaves, apart (npa e.1) (2 ^ e.2)) ∧ (∀ p ∈ s.xlate.pool, apart p.1 (2 ^ p.2)) ∧
        (∀ m ∈ s.xlate.migrations, apart m.src (2 ^ m.bits) ∧ apart m.dst (2 ^ m.bits)) ∧
        ∀ b ∈ s.bindings, ∀ h ∈ b.shadows, apart h.copy (2 ^ h.bits)) ∧
    (∀ asid pa, s.stripeOpen asid pa = true → assocGet s.lib.poolStripes (pa / 2 ^ 30) = none ∧ (∀ t ∈ s.tables, t.1 / 2 ^ 30 ≠ pa / 2 ^ 30) ∧
      ∃ q, s.asidPart asid = some q ∧ ∀ p, assocGet s.lib.stripes (pa / 2 ^ 30) = some p → p = q) ∧
    (∀ asid bits, s.stripeOpen asid (npa v) = false ∨ s.pageFree (npa v) bits = false → s.mapPage asid va bits v = s) ∧
    (∀ self members,
      let can := s.lib.nextRec = 0 ∧ s.bindings = [] ∧ s.boot.recovery = false ∧ self < 2 ^ 14 ∧ (∀ d ∈ members, d < 2 ^ 14) ∧ self ∈ members
      (can → ∃ d, exec (.domainFormation self members) s =
        .next { s with devId := self, choice := s.choice + 1, hc := s.hc + d, lib := { s.lib with domMembers := members.dedup } }) ∧
      (¬ can → exec (.domainFormation self members) s = .next s)) ∧
    (s.lib.domMembers = [] ∨ s.hc < s.lib.lastHcCorrection + 2250 → exec .hcCorrection s = .next s) ∧
    (s.lib.domMembers ≠ [] → s.lib.lastHcCorrection + 2250 ≤ s.hc →
      exec .hcCorrection s = .next { s with hc := s.hc + 1, lib := { s.lib with lastHcCorrection := s.hc + 1 } }) ∧
    (exec (.deviceRemoval s.devId) s = .next s) ∧
    (∀ dev, dev ≠ s.devId → exec (.deviceRemoval dev) s = .next ((s.cal.filterMap (State.toDevice dev)).foldl State.loseAccess { s with
      cal := s.cal.filter (fun d => (State.toDevice dev d).isNone), lib := { s.lib with domMembers := s.lib.domMembers.filter (· != dev) } })) ∧
    (∀ a : Access, let u := s.accessDone a.core a.strand a.seq
      let held := (u.strand a.core a.strand).wait.any (fun w => w.ord == a.ord) && (opDest a.op).isSome
      s.loseAccess a = if held then u.trap a.core a.strand { cause := 5, epc := a.pos, i0 := BitVec.ofNat 64 a.va, i1 := 3 }
        else u.endBinding (u.bidOf a.core) 1) ∧
    (∀ port : Fin 18, exec (.laneFault port) s = .next { s with lib := { s.lib with lanes := s.lib.lanes.set port.val true } }) ∧
    (∀ dev addr op rel, s.boot.recovery = true ∨ s.lib.domMembers.contains dev = false → exec (.remoteAccess dev addr op rel) s = .next s) ∧
    (∀ dev addr op rel, s.boot.recovery = false → s.lib.domMembers.contains dev = true →
      let r := s.tryRemote addr op
      (s.lib.remote.any (·.1 == dev) = true → exec (.remoteAccess dev addr op rel) s = .next (s.queueRemote dev addr op)) ∧
      (s.lib.remote.any (·.1 == dev) = false →
        exec (.remoteAccess dev addr op rel) s = .next (if r.2 = true then r.1 else r.1.queueRemote dev addr op))) ∧
    (∀ addr op,
      let u : State := { s with choice := s.choice + 1 }
      let told := match op with | .load _ => false | .atomic _ _ _ => Config.choose s.choice | _ => true
      let lost (t : State) : State := if told then t.event 7 [BitVec.ofNat 64 addr] else t
      let place := u.hit none 0xFFFF s.xlate.domRoot false true addr (remoteAcc op)
      ((∀ p l, place ≠ .pa p l) → s.tryRemote addr op = (lost u, true)) ∧
      (∀ p l, place = .pa p l →
        let ask := u.serve .md [p]
        (∀ line, s.badGm [p] = some line → s.tryRemote addr op = (lost (u.errorRecord 5 line 0 0), true)) ∧
        (s.badGm [p] = none → ask.2 = false → s.tryRemote addr op = (ask.1, false)) ∧
        (s.badGm [p] = none → ask.2 = true → remoteOp op = none → s.tryRemote addr op = (ask.1, true)) ∧
        (∀ o, s.badGm [p] = none → ask.2 = true → remoteOp op = some o → s.tryRemote addr op = ((ask.1.operate ⟨.gm, p⟩ o).1, true)))) ∧
    (∀ dev addr op, let t := s.queueRemote dev addr op
      t.lib.remote = s.lib.remote ++ [(dev, addr, op)] ∧ t.gm = s.gm ∧ (s.lib.remote = [] → t.Pending .hc (s.hc + 1) effects .remotes)) ∧
    (∀ dev addr op, s.lib.remote = [(dev, addr, op)] → let u : State := { s with lib := { s.lib with remote := [] } }
      s.runWork exec .remotes = .next (if (u.tryRemote addr op).2 = true then (u.tryRemote addr op).1
        else (u.tryRemote addr op).1.queueRemote dev addr op)) ∧
    (∀ step, 8 < step → exec (.hop i step) s = .next s) ∧
    (∀ step, step ≤ 8 → exec (.hop i step) s = .next (s.updIsland i fun k =>
      if (k.throttled = true ∨ k.thrNext.isSome = true) ∧ step < k.want.getD (k.hop.getD k.fstep) then { k with setting := step }
      else ({ k with setting := step } : Island).ask step)) ∧
    (∀ (k : Island) step,
      (∀ h, k.hop = some h → k.ask step = { k with want := if h = step then none else some step }) ∧
      (k.hop = none → k.fstep = step → k.ask step = k) ∧
      (k.hop = none → k.fstep ≠ step → k.droop = true →
        k.ask step = { k with hop := some step, retry := true, retryLeft := 256, aborts := 1, stretched := false }) ∧
      (k.hop = none → k.fstep ≠ step → k.droop = false → k.ask step = { k with hop := some step, hopLeft := 64, aborts := 0, stretched := false }) ∧
      k.endHop step = ({ k with fstep := step, hop := none, want := none, retry := false, aborts := 0 } : Island).ask (k.want.getD step)) ∧
    (s.startHop i n = s.updIsland i (·.ask n)) ∧
    ((∀ j, s.hopEnds j = false) → exec .hopComplete s = .next s) ∧
    ((List.finRange 64).find? s.hopEnds = some i → let step := (s.island i).hop.getD (s.island i).fstep
      exec .hopComplete s = .next ((s.noteStep i).updIsland i fun k => k.endHop (k.hop.getD k.fstep)) ∧
      ∃ t, exec .hopComplete s = .next t ∧ t.gm = s.gm ∧ (t.island i).fstep = step ∧ (∀ j, j ≠ i → t.island j = s.island j) ∧
        ((s.island i).want = none → (t.island i).hop = none) ∧ (∀ w, (s.island i).want = some w → w ≠ step → (t.island i).hop = some w)) ∧
    ((∀ j, s.hopRetries j = false) → exec .hopRetry s = .next s) ∧
    ((List.finRange 64).find? s.hopRetries = some i →
      exec .hopRetry s = .next (s.updIsland i fun k => { k with retry := false, hopLeft := 64, stretched := false })) ∧
    (let k := s.island i
     let u := s.updIsland i fun k => { k with droop := true, owed := true }
     (k.hop = none ∨ k.retry = true → exec (.supplyDroop i) s = .next u) ∧
     (k.hop.isSome = true → k.retry = false → k.aborts < 15 →
       exec (.supplyDroop i) s = .next (u.updIsland i fun k => { k with retry := true, aborts := k.aborts + 1 })) ∧
     (k.hop.isSome = true → k.retry = false → 15 ≤ k.aborts → exec (.supplyDroop i) s =
       .next ((u.updIsland i fun k => k.endHop k.fstep).post .hc s.hc (latePrio + 2 ^ 64) (.advise i)))) ∧
    (s.runWork exec (.advise i) = .next { s with lib := { s.lib with advises := s.lib.advises ++ [.inr i] } }) ∧
    exec (.droopEnd i) s = .next (s.updIsland i fun k => { k with droop := false, retryLeft := 256 }) ∧
    exec (.reserveHoldEnd i) s =
      .next (s.updIsland i fun k => { k with holding := false, level := if k.level.ult k.resumeLevel then k.resumeLevel else k.level }) ∧
    (∀ w0 w1 w2 w3 : Word,
      let good := 1000 ≤ w1.toNat ∧ w1.toNat ≤ 4500 ∧ w3 = 0 ∧ s.cap.s0.toNat < w0.toNat
      (good → exec (.powerLease w0 w1 w2 w3) s =
        .next (({ s with cap := { s.cap with s0 := w0, watts := w1.toNat, expiry := some (s.hc + w2.toNat) } } : State).capChanged s.cap.watts)) ∧
      (¬ good → exec (.powerLease w0 w1 w2 w3) s = .next s)) ∧
    (s.leaseOver = true →
      exec .leaseExpiry s = .next (({ s with cap := { s.cap with watts := s.cap.floor, expiry := none } } : State).capChanged s.cap.watts)) ∧
    (s.leaseOver = false → exec .leaseExpiry s = .next s) ∧
    (∀ old : Nat, (s.cap.watts = old → s.capChanged old = s) ∧
      (s.cap.watts ≠ old → ∃ d, d ≤ 2250 ∧ s.capChanged old =
        ({ s with choice := s.choice + 1 } : State).post .hc (s.hc + d) latePrio (.enforceCap (decide (s.cap.watts < old))))) ∧
    (∃ t, s.runWork exec (.enforceCap true) = .next t ∧ t.gm = s.gm ∧ (∀ j : Fin 64, (s.island j).setting ≤ (t.island j).setting) ∧
      ∀ e : CoreId, ∀ j < 4, ((s.core e).damph.extractLsb' (16 * j) 16).toNat ≤ ((t.core e).damph.extractLsb' (16 * j) 16).toNat ∧
        ((s.core e).dampx.extractLsb' (16 * j) 16).toNat ≤ ((t.core e).dampx.extractLsb' (16 * j) 16).toNat) ∧
    (∃ t, exec .temperatureSample s = .next t ∧ t.gm = s.gm ∧ t.lib.lastSample = s.hc ∧
      (∀ n : Fin 320, ∃ j, (t.sensor n).temp = (Config.datum j).setWidth 16) ∧
      ∀ j : Fin 64, if (s.island j).holding then t.island j = s.island j else ∃ l, t.island j = { s.island j with level := (Config.datum l).setWidth 16 }) ∧
    (let due (n : Fin 320) : Bool := !(s.sensor n).advised && (s.sensor n).atLeast (s.sensor n).advise
     ((∀ n, due n = false) → exec .adviseTrip s = .next s) ∧
     ((List.finRange 320).find? due = some k →
       exec .adviseTrip s = .next (({ s.updSensor k fun z => { z with advised := true } with
         lib := { s.lib with advises := s.lib.advises ++ [.inl k] } } : State).event 8 [BitVec.ofNat 64 k.val]))) ∧
    (let due (n : Fin 320) : Bool := !(s.sensor n).throttling && (s.sensor n).atLeast (s.sensor n).throttle
     ((∀ n, due n = false) → exec .throttleTrip s = .next s) ∧
     ((List.finRange 320).find? due = some k →
       exec .throttleTrip s = .next ((s.updSensor k fun z => { z with throttling := true, cool := none }).updIsland (sensorIsland k) fun z =>
         if z.throttled then z else { z with throttled := true, thrNext := some (s.hc + 2250) }))) ∧
    ((∀ j, s.throttleDue j = false) → exec .throttleStep s = .next s) ∧
    ((List.finRange 64).find? s.throttleDue = some i →
      let z := s.island i
      let aim := z.want.getD (z.hop.getD z.fstep)
      let next (u : State) (t : Option Nat) : State := u.updIsland i fun k => { k with thrNext := t }
      exec .throttleStep s = .next (
        if z.throttled then next (if aim < 8 then s.startHop i (aim + 1) else s) (some (s.hc + 2250))
        else if z.setting < aim then next (s.startHop i (aim - 1)) (some (s.hc + 2250))
        else next s none)) ∧
    ((∀ n, s.tripEnds n = false) → exec .tripEnd s = .next s) ∧
    ((List.finRange 320).find? s.tripEnds = some k →
      let cooled (z : Sensor) : Bool := z.throttling && z.cool.any fun h => decide (h + 2250 ≤ s.hc)
      let u := s.updSensor k fun z => { z with
        advised := z.advised && !z.below z.advise, throttling := z.throttling && !cooled z, cool := if cooled z then none else z.cool }
      exec .tripEnd s = .next (if (islandSensors (sensorIsland k)).any fun m => (u.sensor m).throttling then u
        else u.updIsland (sensorIsland k) fun z => if z.throttled then { z with throttled := false, thrNext := some (s.hc + 2250) } else z)) ∧
    (let due (n : Fin 320) : Bool := !(s.sensor n).shut && (s.sensor n).atLeast (s.sensor n).shutdown
     ((∀ n, due n = false) → exec .shutdownTrip s = .next s) ∧
     ((List.finRange 320).find? due = some k → ∃ d, d < 2250000 ∧ exec .shutdownTrip s =
       .next (({ s.updSensor k fun z => { z with shut := true } with
         boot := { s.boot with shutdown := true }, choice := s.choice + 1 } : State).post .hc (s.hc + 1 + d) latePrio (.ev .powerLoss)))) ∧
    exec .patrolScrub s = .next { s with
      xlate := { s.xlate with corrected := [] }
      lib := { s.lib with lastScrub := s.hc }
      life := { s.life with corrected := vmod s.life.corrected 5 (· + s.xlate.corrected.length) } } ∧
    (∀ j : Fin 4, exec (.capcfgWrite c j v) s = .next (s.updCore c fun z => { z with
      caps := z.caps.set j.val { (if v.getLsbD 30 then ({} : Cap) else z.caps[j.val]) with cfg := v &&& 0xFFFFFFFF800F030F } })) ∧
    (let point (lo hi dflt x : Nat) : Nat := if lo ≤ x ∧ x ≤ hi then x else dflt
     exec (.librarianRegisterWrite (.damph c) v) s = .next (s.updCore c fun z => { z with damph := v }) ∧
     exec (.librarianRegisterWrite (.dampx c) v) s = .next (s.updCore c fun z => { z with dampx := v }) ∧
     exec (.librarianRegisterWrite (.fstep i) v) s = exec (.hop i (v.extractLsb' 0 4).toNat) s ∧
     exec (.librarianRegisterWrite (.reserve i) v) s =
       .next (s.updIsland i fun z => { z with resume := v.extractLsb' 32 16, hold := v.extractLsb' 16 16 }) ∧
     exec (.librarianRegisterWrite .plimit v) s = .next { s with lib := { s.lib with plimit := v &&& 0xFFFFFFFF } } ∧
     exec (.librarianRegisterWrite (.trips k) v) s = .next (s.updSensor k fun z => { z with
       advise := point 70 110 95 (v.extractLsb' 0 8).toNat
       throttle := point 85 112 105 (v.extractLsb' 8 8).toNat
       shutdown := point 110 120 115 (v.extractLsb' 16 8).toNat }) ∧
     (∀ ws, exec (.librarianRegisterWrite (.coreSlot c ws) v) s =
       .next (s.writeSlot c #v[v, ws[0], ws[1], ws[2], ws[3], ws[4], ws[5], ws[6]])) ∧
     (∀ sk, exec (.librarianRegisterWrite (.stokerSlot sk) v) s = .next (s.writeStokerSlot sk v)) ∧
     (∀ asid size, exec (.librarianRegisterWrite (.mapPage asid va size) v) s = .next (s.mapPage asid va (Machine.PageSize.bits size) v)) ∧
     (∀ asid chan, exec (.librarianRegisterWrite (.ccPage asid va chan) v) s = .next (s.mapCompute asid va chan (v.getLsbD 2))) ∧
     (∀ asid, exec (.librarianRegisterWrite (.freePage asid va) v) s = .next (s.freePage asid va)) ∧
     (∀ part size, exec (.librarianRegisterWrite (.poolPage part size) v) s = .next (s.poolPage part v.toNat (Machine.PageSize.bits size))) ∧
     (∀ port part launch, let q : QPair := ⟨port, Fin.val part, (v.extractLsb' 0 16).toNat, false, launch⟩
       (s.boot.recovery = false → s.host.qps[qp.val] = none → exec (.librarianRegisterWrite (.createQp qp port part launch) v) s =
         .next { s with host := { s.host with qps := s.host.qps.set qp.val (some q) } }) ∧
       (s.boot.recovery = true ∨ (s.host.qps[qp.val]).isSome = true →
         exec (.librarianRegisterWrite (.createQp qp port part launch) v) s = .next s)) ∧
     (s.boot.recovery = false → exec (.librarianRegisterWrite (.destroyQp qp) v) s =
       .next { s with host := { s.host with qps := s.host.qps.set qp.val none } }) ∧
     (exec (.librarianRegisterWrite (.boardRead true) v) s =
       .next { s with host := { s.host with board := s.host.board ++ [.histograms s.life.kept] } }) ∧
     (exec (.librarianRegisterWrite (.boardRead false) v) s =
       .next { s with host := { s.host with board := s.host.board ++ [.certificate Config.certificate] } }) ∧
     ((s.core c).engine.isSome = true → exec (.librarianRegisterWrite (.save c) v) s = .next s) ∧
     ((s.core c).engine = none → ∃ w, s.hc < w ∧ exec (.librarianRegisterWrite (.save c) v) s =
       .next (({ s with choice := s.choice + 1 } : State).updCore c fun z => { z with engine := some (v.toNat, false, w) }))) ∧
    (∀ ws : Vector Word 8,
      let z := s.core c
      let reserved := (List.range 8).any fun j => ws[j % 8]'(Nat.mod_lt _ (by decide)) &&& BitVec.ofNat 64 (slotReserved j) != 0
      (slotValid z.slot = true → s.writeSlot c ws = s.event 10 [BitVec.ofNat 64 c.val, ws[0]]) ∧
      (slotValid z.slot = false → reserved = true → s.writeSlot c ws = s.event 11 [BitVec.ofNat 64 c.val, ws[0]]) ∧
      (slotValid z.slot = false → reserved = false → slotValid ws = false → s.writeSlot c ws = s.updCore c fun k => { k with slot := ws }) ∧
      (slotValid z.slot = false → reserved = false → slotValid ws = true →
        let l := ((s.binding (slotTask ws).1).map (·.launch)).getD {}
        ∃ d, 0 < d ∧ d ≤ l.loadTicks ∧ let u : State := { s with choice := s.choice + 1 }
          s.writeSlot c ws = (u.updCore c fun k => { k with
            slot := ws, task := k.task.or (some (slotTask ws)), prepared := false, prepAt := some (s.hc + s.prepWith l c d) }).post
              .hc (s.hc + s.prepWith l c d) latePrio (.ev .dispatchPrepare))) ∧
    exec .coldReset s = .next (s.restart (s.boot.stored.or s.img)) ∧
    (∀ img, let t := s.restart img
      t.power = true ∧ t.hc = 0 ∧ t.bindings = [] ∧ t.cal = [] ∧ t.gm = [] ∧ t.archive.objects = s.archive.objects ∧
        t.boot.stored = s.boot.stored ∧ t.boot.strap = s.boot.strap ∧ (∀ e st, (t.strand e st).run = .off ∧ (t.strand e st).fcsr = 0) ∧
        (t.boot.recovery = true ↔ s.boot.strap = true ∨ ∀ j, img = some j → imageAccepted j s.boot.rollback = false)) ∧
    exec .powerLoss s = .next { s with power := false, bindings := [], cal := [], todo := [] } ∧
    exec .orderlyShutdown s = .next { s.foldLife with power := false, bindings := [], cal := [], todo := [] } ∧
    (∀ nonce, ∃ r, exec (.attestationRequest nonce) s = .next { s with boot := { s.boot with reports := s.boot.reports ++ [r] } } ∧ r.length = 2548 ∧
      r.take 128 = s.reportBody nonce)
end

