-- ==== Sys2Proof/Laws/State.lean ====
section
/-! SUPPORT. What each base update of the state leaves alone, one equation for each field; what is read after a core, a strand or a
FIFO has been written; and what leaves `storage` alone. -/

namespace Sys2Proof.Machine

/-! ### Fields of the state -/

@[simp] theorem State.setCore_power (s : State) (c : CoreId) (k : Core) : (s.setCore c k).power = s.power := rfl
@[simp] theorem State.setCore_hc (s : State) (c : CoreId) (k : Core) : (s.setCore c k).hc = s.hc := rfl
@[simp] theorem State.setCore_devId (s : State) (c : CoreId) (k : Core) : (s.setCore c k).devId = s.devId := rfl
@[simp] theorem State.setCore_half (s : State) (c : CoreId) (k : Core) : (s.setCore c k).half = s.half := rfl
@[simp] theorem State.setCore_degrading (s : State) (c : CoreId) (k : Core) : (s.setCore c k).degrading = s.degrading := rfl
@[simp] theorem State.setCore_bindings (s : State) (c : CoreId) (k : Core) : (s.setCore c k).bindings = s.bindings := rfl
@[simp] theorem State.setCore_gm (s : State) (c : CoreId) (k : Core) : (s.setCore c k).gm = s.gm := rfl
@[simp] theorem State.setCore_xlate (s : State) (c : CoreId) (k : Core) : (s.setCore c k).xlate = s.xlate := rfl
@[simp] theorem State.setCore_stokers (s : State) (c : CoreId) (k : Core) : (s.setCore c k).stokers = s.stokers := rfl
@[simp] theorem State.setCore_archive (s : State) (c : CoreId) (k : Core) : (s.setCore c k).archive = s.archive := rfl
@[simp] theorem State.setCore_lib (s : State) (c : CoreId) (k : Core) : (s.setCore c k).lib = s.lib := rfl
@[simp] theorem State.setCore_host (s : State) (c : CoreId) (k : Core) : (s.setCore c k).host = s.host := rfl
@[simp] theorem State.setCore_islands (s : State) (c : CoreId) (k : Core) : (s.setCore c k).islands = s.islands := rfl
@[simp] theorem State.setCore_sensors (s : State) (c : CoreId) (k : Core) : (s.setCore c k).sensors = s.sensors := rfl
@[simp] theorem State.setCore_cap (s : State) (c : CoreId) (k : Core) : (s.setCore c k).cap = s.cap := rfl
@[simp] theorem State.setCore_boot (s : State) (c : CoreId) (k : Core) : (s.setCore c k).boot = s.boot := rfl
@[simp] theorem State.setCore_life (s : State) (c : CoreId) (k : Core) : (s.setCore c k).life = s.life := rfl
@[simp] theorem State.setCore_arrivals (s : State) (c : CoreId) (k : Core) : (s.setCore c k).arrivals = s.arrivals := rfl
@[simp] theorem State.setCore_inbox (s : State) (c : CoreId) (k : Core) : (s.setCore c k).inbox = s.inbox := rfl
@[simp] theorem State.setCore_msg (s : State) (c : CoreId) (k : Core) : (s.setCore c k).msg = s.msg := rfl
@[simp] theorem State.setCore_img (s : State) (c : CoreId) (k : Core) : (s.setCore c k).img = s.img := rfl
@[simp] theorem State.setCore_todo (s : State) (c : CoreId) (k : Core) : (s.setCore c k).todo = s.todo := rfl
@[simp] theorem State.setCore_cur (s : State) (c : CoreId) (k : Core) : (s.setCore c k).cur = s.cur := rfl
@[simp] theorem State.setCore_cal (s : State) (c : CoreId) (k : Core) : (s.setCore c k).cal = s.cal := rfl
@[simp] theorem State.setCore_order (s : State) (c : CoreId) (k : Core) : (s.setCore c k).order = s.order := rfl
@[simp] theorem State.setCore_choice (s : State) (c : CoreId) (k : Core) : (s.setCore c k).choice = s.choice := rfl
@[simp] theorem State.updCore_power (s : State) (c : CoreId) (f : Core → Core) : (s.updCore c f).power = s.power := rfl
@[simp] theorem State.updCore_hc (s : State) (c : CoreId) (f : Core → Core) : (s.updCore c f).hc = s.hc := rfl
@[simp] theorem State.updCore_devId (s : State) (c : CoreId) (f : Core → Core) : (s.updCore c f).devId = s.devId := rfl
@[simp] theorem State.updCore_half (s : State) (c : CoreId) (f : Core → Core) : (s.updCore c f).half = s.half := rfl
@[simp] theorem State.updCore_degrading (s : State) (c : CoreId) (f : Core → Core) : (s.updCore c f).degrading = s.degrading := rfl
@[simp] theorem State.updCore_bindings (s : State) (c : CoreId) (f : Core → Core) : (s.updCore c f).bindings = s.bindings := rfl
@[simp] theorem State.updCore_gm (s : State) (c : CoreId) (f : Core → Core) : (s.updCore c f).gm = s.gm := rfl
@[simp] theorem State.updCore_xlate (s : State) (c : CoreId) (f : Core → Core) : (s.updCore c f).xlate = s.xlate := rfl
@[simp] theorem State.updCore_stokers (s : State) (c : CoreId) (f : Core → Core) : (s.updCore c f).stokers = s.stokers := rfl
@[simp] theorem State.updCore_archive (s : State) (c : CoreId) (f : Core → Core) : (s.updCore c f).archive = s.archive := rfl
@[simp] theorem State.updCore_lib (s : State) (c : CoreId) (f : Core → Core) : (s.updCore c f).lib = s.lib := rfl
@[simp] theorem State.updCore_host (s : State) (c : CoreId) (f : Core → Core) : (s.updCore c f).host = s.host := rfl
@[simp] theorem State.updCore_islands (s : State) (c : CoreId) (f : Core → Core) : (s.updCore c f).islands = s.islands := rfl
@[simp] theorem State.updCore_sensors (s : State) (c : CoreId) (f : Core → Core) : (s.updCore c f).sensors = s.sensors := rfl
@[simp] theorem State.updCore_cap (s : State) (c : CoreId) (f : Core → Core) : (s.updCore c f).cap = s.cap := rfl
@[simp] theorem State.updCore_boot (s : State) (c : CoreId) (f : Core → Core) : (s.updCore c f).boot = s.boot := rfl
@[simp] theorem State.updCore_life (s : State) (c : CoreId) (f : Core → Core) : (s.updCore c f).life = s.life := rfl
@[simp] theorem State.updCore_arrivals (s : State) (c : CoreId) (f : Core → Core) : (s.updCore c f).arrivals = s.arrivals := rfl
@[simp] theorem State.updCore_inbox (s : State) (c : CoreId) (f : Core → Core) : (s.updCore c f).inbox = s.inbox := rfl
@[simp] theorem State.updCore_msg (s : State) (c : CoreId) (f : Core → Core) : (s.updCore c f).msg = s.msg := rfl
@[simp] theorem State.updCore_img (s : State) (c : CoreId) (f : Core → Core) : (s.updCore c f).img = s.img := rfl
@[simp] theorem State.updCore_todo (s : State) (c : CoreId) (f : Core → Core) : (s.updCore c f).todo = s.todo := rfl
@[simp] theorem State.updCore_cur (s : State) (c : CoreId) (f : Core → Core) : (s.updCore c f).cur = s.cur := rfl
@[simp] theorem State.updCore_cal (s : State) (c : CoreId) (f : Core → Core) : (s.updCore c f).cal = s.cal := rfl
@[simp] theorem State.updCore_order (s : State) (c : CoreId) (f : Core → Core) : (s.updCore c f).order = s.order := rfl
@[simp] theorem State.updCore_choice (s : State) (c : CoreId) (f : Core → Core) : (s.updCore c f).choice = s.choice := rfl
@[simp] theorem State.updStrand_power (s : State) (c : CoreId) (st : StrandId) (f : Strand → Strand) : (s.updStrand c st f).power = s.power := rfl
@[simp] theorem State.updStrand_hc (s : State) (c : CoreId) (st : StrandId) (f : Strand → Strand) : (s.updStrand c st f).hc = s.hc := rfl
@[simp] theorem State.updStrand_devId (s : State) (c : CoreId) (st : StrandId) (f : Strand → Strand) : (s.updStrand c st f).devId = s.devId := rfl
@[simp] theorem State.updStrand_half (s : State) (c : CoreId) (st : StrandId) (f : Strand → Strand) : (s.updStrand c st f).half = s.half := rfl
@[simp] theorem State.updStrand_degrading (s : State) (c : CoreId) (st : StrandId) (f : Strand → Strand) : (s.updStrand c st f).degrading = s.degrading := rfl
@[simp] theorem State.updStrand_bindings (s : State) (c : CoreId) (st : StrandId) (f : Strand → Strand) : (s.updStrand c st f).bindings = s.bindings := rfl
@[simp] theorem State.updStrand_gm (s : State) (c : CoreId) (st : StrandId) (f : Strand → Strand) : (s.updStrand c st f).gm = s.gm := rfl
@[simp] theorem State.updStrand_xlate (s : State) (c : CoreId) (st : StrandId) (f : Strand → Strand) : (s.updStrand c st f).xlate = s.xlate := rfl
@[simp] theorem State.updStrand_stokers (s : State) (c : CoreId) (st : StrandId) (f : Strand → Strand) : (s.updStrand c st f).stokers = s.stokers := rfl
@[simp] theorem State.updStrand_archive (s : State) (c : CoreId) (st : StrandId) (f : Strand → Strand) : (s.updStrand c st f).archive = s.archive := rfl
@[simp] theorem State.updStrand_lib (s : State) (c : CoreId) (st : StrandId) (f : Strand → Strand) : (s.updStrand c st f).lib = s.lib := rfl
@[simp] theorem State.updStrand_host (s : State) (c : CoreId) (st : StrandId) (f : Strand → Strand) : (s.updStrand c st f).host = s.host := rfl
@[simp] theorem State.updStrand_islands (s : State) (c : CoreId) (st : StrandId) (f : Strand → Strand) : (s.updStrand c st f).islands = s.islands := rfl
@[simp] theorem State.updStrand_sensors (s : State) (c : CoreId) (st : StrandId) (f : Strand → Strand) : (s.updStrand c st f).sensors = s.sensors := rfl
@[simp] theorem State.updStrand_cap (s : State) (c : CoreId) (st : StrandId) (f : Strand → Strand) : (s.updStrand c st f).cap = s.cap := rfl
@[simp] theorem State.updStrand_boot (s : State) (c : CoreId) (st : StrandId) (f : Strand → Strand) : (s.updStrand c st f).boot = s.boot := rfl
@[simp] theorem State.updStrand_life (s : State) (c : CoreId) (st : StrandId) (f : Strand → Strand) : (s.updStrand c st f).life = s.life := rfl
@[simp] theorem State.updStrand_arrivals (s : State) (c : CoreId) (st : StrandId) (f : Strand → Strand) : (s.updStrand c st f).arrivals = s.arrivals := rfl
@[simp] theorem State.updStrand_inbox (s : State) (c : CoreId) (st : StrandId) (f : Strand → Strand) : (s.updStrand c st f).inbox = s.inbox := rfl
@[simp] theorem State.updStrand_msg (s : State) (c : CoreId) (st : StrandId) (f : Strand → Strand) : (s.updStrand c st f).msg = s.msg := rfl
@[simp] theorem State.updStrand_img (s : State) (c : CoreId) (st : StrandId) (f : Strand → Strand) : (s.updStrand c st f).img = s.img := rfl
@[simp] theorem State.updStrand_todo (s : State) (c : CoreId) (st : StrandId) (f : Strand → Strand) : (s.updStrand c st f).todo = s.todo := rfl
@[simp] theorem State.updStrand_cur (s : State) (c : CoreId) (st : StrandId) (f : Strand → Strand) : (s.updStrand c st f).cur = s.cur := rfl
@[simp] theorem State.updStrand_cal (s : State) (c : CoreId) (st : StrandId) (f : Strand → Strand) : (s.updStrand c st f).cal = s.cal := rfl
@[simp] theorem State.updStrand_order (s : State) (c : CoreId) (st : StrandId) (f : Strand → Strand) : (s.updStrand c st f).order = s.order := rfl
@[simp] theorem State.updStrand_choice (s : State) (c : CoreId) (st : StrandId) (f : Strand → Strand) : (s.updStrand c st f).choice = s.choice := rfl
@[simp] theorem State.updBinding_power (s : State) (bid : Nat) (f : Binding → Binding) : (s.updBinding bid f).power = s.power := rfl
@[simp] theorem State.updBinding_hc (s : State) (bid : Nat) (f : Binding → Binding) : (s.updBinding bid f).hc = s.hc := rfl
@[simp] theorem State.updBinding_devId (s : State) (bid : Nat) (f : Binding → Binding) : (s.updBinding bid f).devId = s.devId := rfl
@[simp] theorem State.updBinding_cores (s : State) (bid : Nat) (f : Binding → Binding) : (s.updBinding bid f).cores = s.cores := rfl
@[simp] theorem State.updBinding_half (s : State) (bid : Nat) (f : Binding → Binding) : (s.updBinding bid f).half = s.half := rfl
@[simp] theorem State.updBinding_degrading (s : State) (bid : Nat) (f : Binding → Binding) : (s.updBinding bid f).degrading = s.degrading := rfl
@[simp] theorem State.updBinding_gm (s : State) (bid : Nat) (f : Binding → Binding) : (s.updBinding bid f).gm = s.gm := rfl
@[simp] theorem State.updBinding_xlate (s : State) (bid : Nat) (f : Binding → Binding) : (s.updBinding bid f).xlate = s.xlate := rfl
@[simp] theorem State.updBinding_stokers (s : State) (bid : Nat) (f : Binding → Binding) : (s.updBinding bid f).stokers = s.stokers := rfl
@[simp] theorem State.updBinding_archive (s : State) (bid : Nat) (f : Binding → Binding) : (s.updBinding bid f).archive = s.archive := rfl
@[simp] theorem State.updBinding_lib (s : State) (bid : Nat) (f : Binding → Binding) : (s.updBinding bid f).lib = s.lib := rfl
@[simp] theorem State.updBinding_host (s : State) (bid : Nat) (f : Binding → Binding) : (s.updBinding bid f).host = s.host := rfl
@[simp] theorem State.updBinding_islands (s : State) (bid : Nat) (f : Binding → Binding) : (s.updBinding bid f).islands = s.islands := rfl
@[simp] theorem State.updBinding_sensors (s : State) (bid : Nat) (f : Binding → Binding) : (s.updBinding bid f).sensors = s.sensors := rfl
@[simp] theorem State.updBinding_cap (s : State) (bid : Nat) (f : Binding → Binding) : (s.updBinding bid f).cap = s.cap := rfl
@[simp] theorem State.updBinding_boot (s : State) (bid : Nat) (f : Binding → Binding) : (s.updBinding bid f).boot = s.boot := rfl
@[simp] theorem State.updBinding_life (s : State) (bid : Nat) (f : Binding → Binding) : (s.updBinding bid f).life = s.life := rfl
@[simp] theorem State.updBinding_arrivals (s : State) (bid : Nat) (f : Binding → Binding) : (s.updBinding bid f).arrivals = s.arrivals := rfl
@[simp] theorem State.updBinding_inbox (s : State) (bid : Nat) (f : Binding → Binding) : (s.updBinding bid f).inbox = s.inbox := rfl
@[simp] theorem State.updBinding_msg (s : State) (bid : Nat) (f : Binding → Binding) : (s.updBinding bid f).msg = s.msg := rfl
@[simp] theorem State.updBinding_img (s : State) (bid : Nat) (f : Binding → Binding) : (s.updBinding bid f).img = s.img := rfl
@[simp] theorem State.updBinding_todo (s : State) (bid : Nat) (f : Binding → Binding) : (s.updBinding bid f).todo = s.todo := rfl
@[simp] theorem State.updBinding_cur (s : State) (bid : Nat) (f : Binding → Binding) : (s.updBinding bid f).cur = s.cur := rfl
@[simp] theorem State.updBinding_cal (s : State) (bid : Nat) (f : Binding → Binding) : (s.updBinding bid f).cal = s.cal := rfl
@[simp] theorem State.updBinding_order (s : State) (bid : Nat) (f : Binding → Binding) : (s.updBinding bid f).order = s.order := rfl
@[simp] theorem State.updBinding_choice (s : State) (bid : Nat) (f : Binding → Binding) : (s.updBinding bid f).choice = s.choice := rfl
@[simp] theorem State.post_power (s : State) (k : Clock) (d p : Nat) (w : Work) : (s.post k d p w).power = s.power := rfl
@[simp] theorem State.post_hc (s : State) (k : Clock) (d p : Nat) (w : Work) : (s.post k d p w).hc = s.hc := rfl
@[simp] theorem State.post_devId (s : State) (k : Clock) (d p : Nat) (w : Work) : (s.post k d p w).devId = s.devId := rfl
@[simp] theorem State.post_cores (s : State) (k : Clock) (d p : Nat) (w : Work) : (s.post k d p w).cores = s.cores := rfl
@[simp] theorem State.post_half (s : State) (k : Clock) (d p : Nat) (w : Work) : (s.post k d p w).half = s.half := rfl
@[simp] theorem State.post_degrading (s : State) (k : Clock) (d p : Nat) (w : Work) : (s.post k d p w).degrading = s.degrading := rfl
@[simp] theorem State.post_bindings (s : State) (k : Clock) (d p : Nat) (w : Work) : (s.post k d p w).bindings = s.bindings := rfl
@[simp] theorem State.post_gm (s : State) (k : Clock) (d p : Nat) (w : Work) : (s.post k d p w).gm = s.gm := rfl
@[simp] theorem State.post_xlate (s : State) (k : Clock) (d p : Nat) (w : Work) : (s.post k d p w).xlate = s.xlate := rfl
@[simp] theorem State.post_stokers (s : State) (k : Clock) (d p : Nat) (w : Work) : (s.post k d p w).stokers = s.stokers := rfl
@[simp] theorem State.post_archive (s : State) (k : Clock) (d p : Nat) (w : Work) : (s.post k d p w).archive = s.archive := rfl
@[simp] theorem State.post_lib (s : State) (k : Clock) (d p : Nat) (w : Work) : (s.post k d p w).lib = s.lib := rfl
@[simp] theorem State.post_host (s : State) (k : Clock) (d p : Nat) (w : Work) : (s.post k d p w).host = s.host := rfl
@[simp] theorem State.post_islands (s : State) (k : Clock) (d p : Nat) (w : Work) : (s.post k d p w).islands = s.islands := rfl
@[simp] theorem State.post_sensors (s : State) (k : Clock) (d p : Nat) (w : Work) : (s.post k d p w).sensors = s.sensors := rfl
@[simp] theorem State.post_cap (s : State) (k : Clock) (d p : Nat) (w : Work) : (s.post k d p w).cap = s.cap := rfl
@[simp] theorem State.post_boot (s : State) (k : Clock) (d p : Nat) (w : Work) : (s.post k d p w).boot = s.boot := rfl
@[simp] theorem State.post_life (s : State) (k : Clock) (d p : Nat) (w : Work) : (s.post k d p w).life = s.life := rfl
@[simp] theorem State.post_arrivals (s : State) (k : Clock) (d p : Nat) (w : Work) : (s.post k d p w).arrivals = s.arrivals := rfl
@[simp] theorem State.post_inbox (s : State) (k : Clock) (d p : Nat) (w : Work) : (s.post k d p w).inbox = s.inbox := rfl
@[simp] theorem State.post_msg (s : State) (k : Clock) (d p : Nat) (w : Work) : (s.post k d p w).msg = s.msg := rfl
@[simp] theorem State.post_img (s : State) (k : Clock) (d p : Nat) (w : Work) : (s.post k d p w).img = s.img := rfl
@[simp] theorem State.post_todo (s : State) (k : Clock) (d p : Nat) (w : Work) : (s.post k d p w).todo = s.todo := rfl
@[simp] theorem State.post_cur (s : State) (k : Clock) (d p : Nat) (w : Work) : (s.post k d p w).cur = s.cur := rfl
@[simp] theorem State.post_choice (s : State) (k : Clock) (d p : Nat) (w : Work) : (s.post k d p w).choice = s.choice := rfl
@[simp] theorem State.laterOn_power (s : State) (k : Clock) (d p : Nat) (w : Work) : (s.laterOn k d p w).power = s.power := rfl
@[simp] theorem State.laterOn_hc (s : State) (k : Clock) (d p : Nat) (w : Work) : (s.laterOn k d p w).hc = s.hc := rfl
@[simp] theorem State.laterOn_devId (s : State) (k : Clock) (d p : Nat) (w : Work) : (s.laterOn k d p w).devId = s.devId := rfl
@[simp] theorem State.laterOn_cores (s : State) (k : Clock) (d p : Nat) (w : Work) : (s.laterOn k d p w).cores = s.cores := rfl
@[simp] theorem State.laterOn_half (s : State) (k : Clock) (d p : Nat) (w : Work) : (s.laterOn k d p w).half = s.half := rfl
@[simp] theorem State.laterOn_degrading (s : State) (k : Clock) (d p : Nat) (w : Work) : (s.laterOn k d p w).degrading = s.degrading := rfl
@[simp] theorem State.laterOn_bindings (s : State) (k : Clock) (d p : Nat) (w : Work) : (s.laterOn k d p w).bindings = s.bindings := rfl
@[simp] theorem State.laterOn_gm (s : State) (k : Clock) (d p : Nat) (w : Work) : (s.laterOn k d p w).gm = s.gm := rfl
@[simp] theorem State.laterOn_xlate (s : State) (k : Clock) (d p : Nat) (w : Work) : (s.laterOn k d p w).xlate = s.xlate := rfl
@[simp] theorem State.laterOn_stokers (s : State) (k : Clock) (d p : Nat) (w : Work) : (s.laterOn k d p w).stokers = s.stokers := rfl
@[simp] theorem State.laterOn_archive (s : State) (k : Clock) (d p : Nat) (w : Work) : (s.laterOn k d p w).archive = s.archive := rfl
@[simp] theorem State.laterOn_lib (s : State) (k : Clock) (d p : Nat) (w : Work) : (s.laterOn k d p w).lib = s.lib := rfl
@[simp] theorem State.laterOn_host (s : State) (k : Clock) (d p : Nat) (w : Work) : (s.laterOn k d p w).host = s.host := rfl
@[simp] theorem State.laterOn_islands (s : State) (k : Clock) (d p : Nat) (w : Work) : (s.laterOn k d p w).islands = s.islands := rfl
@[simp] theorem State.laterOn_sensors (s : State) (k : Clock) (d p : Nat) (w : Work) : (s.laterOn k d p w).sensors = s.sensors := rfl
@[simp] theorem State.laterOn_cap (s : State) (k : Clock) (d p : Nat) (w : Work) : (s.laterOn k d p w).cap = s.cap := rfl
@[simp] theorem State.laterOn_boot (s : State) (k : Clock) (d p : Nat) (w : Work) : (s.laterOn k d p w).boot = s.boot := rfl
@[simp] theorem State.laterOn_life (s : State) (k : Clock) (d p : Nat) (w : Work) : (s.laterOn k d p w).life = s.life := rfl
@[simp] theorem State.laterOn_arrivals (s : State) (k : Clock) (d p : Nat) (w : Work) : (s.laterOn k d p w).arrivals = s.arrivals := rfl
@[simp] theorem State.laterOn_inbox (s : State) (k : Clock) (d p : Nat) (w : Work) : (s.laterOn k d p w).inbox = s.inbox := rfl
@[simp] theorem State.laterOn_msg (s : State) (k : Clock) (d p : Nat) (w : Work) : (s.laterOn k d p w).msg = s.msg := rfl
@[simp] theorem State.laterOn_img (s : State) (k : Clock) (d p : Nat) (w : Work) : (s.laterOn k d p w).img = s.img := rfl
@[simp] theorem State.laterOn_todo (s : State) (k : Clock) (d p : Nat) (w : Work) : (s.laterOn k d p w).todo = s.todo := rfl
@[simp] theorem State.laterOn_cur (s : State) (k : Clock) (d p : Nat) (w : Work) : (s.laterOn k d p w).cur = s.cur := rfl
@[simp] theorem State.laterOn_choice (s : State) (k : Clock) (d p : Nat) (w : Work) : (s.laterOn k d p w).choice = s.choice := rfl
@[simp] theorem State.later_power (s : State) (c : CoreId) (st : StrandId) (d p : Nat) (w : Work) : (s.later c st d p w).power = s.power := rfl
@[simp] theorem State.later_hc (s : State) (c : CoreId) (st : StrandId) (d p : Nat) (w : Work) : (s.later c st d p w).hc = s.hc := rfl
@[simp] theorem State.later_devId (s : State) (c : CoreId) (st : StrandId) (d p : Nat) (w : Work) : (s.later c st d p w).devId = s.devId := rfl
@[simp] theorem State.later_cores (s : State) (c : CoreId) (st : StrandId) (d p : Nat) (w : Work) : (s.later c st d p w).cores = s.cores := rfl
@[simp] theorem State.later_half (s : State) (c : CoreId) (st : StrandId) (d p : Nat) (w : Work) : (s.later c st d p w).half = s.half := rfl
@[simp] theorem State.later_degrading (s : State) (c : CoreId) (st : StrandId) (d p : Nat) (w : Work) : (s.later c st d p w).degrading = s.degrading := rfl
@[simp] theorem State.later_bindings (s : State) (c : CoreId) (st : StrandId) (d p : Nat) (w : Work) : (s.later c st d p w).bindings = s.bindings := rfl
@[simp] theorem State.later_gm (s : State) (c : CoreId) (st : StrandId) (d p : Nat) (w : Work) : (s.later c st d p w).gm = s.gm := rfl
@[simp] theorem State.later_xlate (s : State) (c : CoreId) (st : StrandId) (d p : Nat) (w : Work) : (s.later c st d p w).xlate = s.xlate := rfl
@[simp] theorem State.later_stokers (s : State) (c : CoreId) (st : StrandId) (d p : Nat) (w : Work) : (s.later c st d p w).stokers = s.stokers := rfl
@[simp] theorem State.later_archive (s : State) (c : CoreId) (st : StrandId) (d p : Nat) (w : Work) : (s.later c st d p w).archive = s.archive := rfl
@[simp] theorem State.later_lib (s : State) (c : CoreId) (st : StrandId) (d p : Nat) (w : Work) : (s.later c st d p w).lib = s.lib := rfl
@[simp] theorem State.later_host (s : State) (c : CoreId) (st : StrandId) (d p : Nat) (w : Work) : (s.later c st d p w).host = s.host := rfl
@[simp] theorem State.later_islands (s : State) (c : CoreId) (st : StrandId) (d p : Nat) (w : Work) : (s.later c st d p w).islands = s.islands := rfl
@[simp] theorem State.later_sensors (s : State) (c : CoreId) (st : StrandId) (d p : Nat) (w : Work) : (s.later c st d p w).sensors = s.sensors := rfl
@[simp] theorem State.later_cap (s : State) (c : CoreId) (st : StrandId) (d p : Nat) (w : Work) : (s.later c st d p w).cap = s.cap := rfl
@[simp] theorem State.later_boot (s : State) (c : CoreId) (st : StrandId) (d p : Nat) (w : Work) : (s.later c st d p w).boot = s.boot := rfl
@[simp] theorem State.later_life (s : State) (c : CoreId) (st : StrandId) (d p : Nat) (w : Work) : (s.later c st d p w).life = s.life := rfl
@[simp] theorem State.later_arrivals (s : State) (c : CoreId) (st : StrandId) (d p : Nat) (w : Work) : (s.later c st d p w).arrivals = s.arrivals := rfl
@[simp] theorem State.later_inbox (s : State) (c : CoreId) (st : StrandId) (d p : Nat) (w : Work) : (s.later c st d p w).inbox = s.inbox := rfl
@[simp] theorem State.later_msg (s : State) (c : CoreId) (st : StrandId) (d p : Nat) (w : Work) : (s.later c st d p w).msg = s.msg := rfl
@[simp] theorem State.later_img (s : State) (c : CoreId) (st : StrandId) (d p : Nat) (w : Work) : (s.later c st d p w).img = s.img := rfl
@[simp] theorem State.later_todo (s : State) (c : CoreId) (st : StrandId) (d p : Nat) (w : Work) : (s.later c st d p w).todo = s.todo := rfl
@[simp] theorem State.later_cur (s : State) (c : CoreId) (st : StrandId) (d p : Nat) (w : Work) : (s.later c st d p w).cur = s.cur := rfl
@[simp] theorem State.later_choice (s : State) (c : CoreId) (st : StrandId) (d p : Nat) (w : Work) : (s.later c st d p w).choice = s.choice := rfl
@[simp] theorem State.retry_power (s : State) (d : Due) : (s.retry d).power = s.power := rfl
@[simp] theorem State.retry_hc (s : State) (d : Due) : (s.retry d).hc = s.hc := rfl
@[simp] theorem State.retry_devId (s : State) (d : Due) : (s.retry d).devId = s.devId := rfl
@[simp] theorem State.retry_cores (s : State) (d : Due) : (s.retry d).cores = s.cores := rfl
@[simp] theorem State.retry_half (s : State) (d : Due) : (s.retry d).half = s.half := rfl
@[simp] theorem State.retry_degrading (s : State) (d : Due) : (s.retry d).degrading = s.degrading := rfl
@[simp] theorem State.retry_bindings (s : State) (d : Due) : (s.retry d).bindings = s.bindings := rfl
@[simp] theorem State.retry_gm (s : State) (d : Due) : (s.retry d).gm = s.gm := rfl
@[simp] theorem State.retry_xlate (s : State) (d : Due) : (s.retry d).xlate = s.xlate := rfl
@[simp] theorem State.retry_stokers (s : State) (d : Due) : (s.retry d).stokers = s.stokers := rfl
@[simp] theorem State.retry_archive (s : State) (d : Due) : (s.retry d).archive = s.archive := rfl
@[simp] theorem State.retry_lib (s : State) (d : Due) : (s.retry d).lib = s.lib := rfl
@[simp] theorem State.retry_host (s : State) (d : Due) : (s.retry d).host = s.host := rfl
@[simp] theorem State.retry_islands (s : State) (d : Due) : (s.retry d).islands = s.islands := rfl
@[simp] theorem State.retry_sensors (s : State) (d : Due) : (s.retry d).sensors = s.sensors := rfl
@[simp] theorem State.retry_cap (s : State) (d : Due) : (s.retry d).cap = s.cap := rfl
@[simp] theorem State.retry_boot (s : State) (d : Due) : (s.retry d).boot = s.boot := rfl
@[simp] theorem State.retry_life (s : State) (d : Due) : (s.retry d).life = s.life := rfl
@[simp] theorem State.retry_arrivals (s : State) (d : Due) : (s.retry d).arrivals = s.arrivals := rfl
@[simp] theorem State.retry_inbox (s : State) (d : Due) : (s.retry d).inbox = s.inbox := rfl
@[simp] theorem State.retry_msg (s : State) (d : Due) : (s.retry d).msg = s.msg := rfl
@[simp] theorem State.retry_img (s : State) (d : Due) : (s.retry d).img = s.img := rfl
@[simp] theorem State.retry_todo (s : State) (d : Due) : (s.retry d).todo = s.todo := rfl
@[simp] theorem State.retry_cur (s : State) (d : Due) : (s.retry d).cur = s.cur := rfl
@[simp] theorem State.retry_order (s : State) (d : Due) : (s.retry d).order = s.order := rfl
@[simp] theorem State.retry_choice (s : State) (d : Due) : (s.retry d).choice = s.choice := rfl
@[simp] theorem State.sometime_power (s : State) (w : Work) (p : Nat) : (s.sometime w p).power = s.power := rfl
@[simp] theorem State.sometime_hc (s : State) (w : Work) (p : Nat) : (s.sometime w p).hc = s.hc := rfl
@[simp] theorem State.sometime_devId (s : State) (w : Work) (p : Nat) : (s.sometime w p).devId = s.devId := rfl
@[simp] theorem State.sometime_cores (s : State) (w : Work) (p : Nat) : (s.sometime w p).cores = s.cores := rfl
@[simp] theorem State.sometime_half (s : State) (w : Work) (p : Nat) : (s.sometime w p).half = s.half := rfl
@[simp] theorem State.sometime_degrading (s : State) (w : Work) (p : Nat) : (s.sometime w p).degrading = s.degrading := rfl
@[simp] theorem State.sometime_bindings (s : State) (w : Work) (p : Nat) : (s.sometime w p).bindings = s.bindings := rfl
@[simp] theorem State.sometime_gm (s : State) (w : Work) (p : Nat) : (s.sometime w p).gm = s.gm := rfl
@[simp] theorem State.sometime_xlate (s : State) (w : Work) (p : Nat) : (s.sometime w p).xlate = s.xlate := rfl
@[simp] theorem State.sometime_stokers (s : State) (w : Work) (p : Nat) : (s.sometime w p).stokers = s.stokers := rfl
@[simp] theorem State.sometime_archive (s : State) (w : Work) (p : Nat) : (s.sometime w p).archive = s.archive := rfl
@[simp] theorem State.sometime_lib (s : State) (w : Work) (p : Nat) : (s.sometime w p).lib = s.lib := rfl
@[simp] theorem State.sometime_host (s : State) (w : Work) (p : Nat) : (s.sometime w p).host = s.host := rfl
@[simp] theorem State.sometime_islands (s : State) (w : Work) (p : Nat) : (s.sometime w p).islands = s.islands := rfl
@[simp] theorem State.sometime_sensors (s : State) (w : Work) (p : Nat) : (s.sometime w p).sensors = s.sensors := rfl
@[simp] theorem State.sometime_cap (s : State) (w : Work) (p : Nat) : (s.sometime w p).cap = s.cap := rfl
@[simp] theorem State.sometime_boot (s : State) (w : Work) (p : Nat) : (s.sometime w p).boot = s.boot := rfl
@[simp] theorem State.sometime_life (s : State) (w : Work) (p : Nat) : (s.sometime w p).life = s.life := rfl
@[simp] theorem State.sometime_arrivals (s : State) (w : Work) (p : Nat) : (s.sometime w p).arrivals = s.arrivals := rfl
@[simp] theorem State.sometime_inbox (s : State) (w : Work) (p : Nat) : (s.sometime w p).inbox = s.inbox := rfl
@[simp] theorem State.sometime_msg (s : State) (w : Work) (p : Nat) : (s.sometime w p).msg = s.msg := rfl
@[simp] theorem State.sometime_img (s : State) (w : Work) (p : Nat) : (s.sometime w p).img = s.img := rfl
@[simp] theorem State.sometime_todo (s : State) (w : Work) (p : Nat) : (s.sometime w p).todo = s.todo := rfl
@[simp] theorem State.sometime_cur (s : State) (w : Work) (p : Nat) : (s.sometime w p).cur = s.cur := rfl
@[simp] theorem State.access_power (s : State) (c : CoreId) (st : StrandId) (b : Bool) (m : MemUnit) (vs : List (Nat × Nat)) : (s.access c st b m vs).power = s.power := rfl
@[simp] theorem State.access_hc (s : State) (c : CoreId) (st : StrandId) (b : Bool) (m : MemUnit) (vs : List (Nat × Nat)) : (s.access c st b m vs).hc = s.hc := rfl
@[simp] theorem State.access_devId (s : State) (c : CoreId) (st : StrandId) (b : Bool) (m : MemUnit) (vs : List (Nat × Nat)) : (s.access c st b m vs).devId = s.devId := rfl
@[simp] theorem State.access_half (s : State) (c : CoreId) (st : StrandId) (b : Bool) (m : MemUnit) (vs : List (Nat × Nat)) : (s.access c st b m vs).half = s.half := rfl
@[simp] theorem State.access_degrading (s : State) (c : CoreId) (st : StrandId) (b : Bool) (m : MemUnit) (vs : List (Nat × Nat)) : (s.access c st b m vs).degrading = s.degrading := rfl
@[simp] theorem State.access_bindings (s : State) (c : CoreId) (st : StrandId) (b : Bool) (m : MemUnit) (vs : List (Nat × Nat)) : (s.access c st b m vs).bindings = s.bindings := rfl
@[simp] theorem State.access_gm (s : State) (c : CoreId) (st : StrandId) (b : Bool) (m : MemUnit) (vs : List (Nat × Nat)) : (s.access c st b m vs).gm = s.gm := rfl
@[simp] theorem State.access_xlate (s : State) (c : CoreId) (st : StrandId) (b : Bool) (m : MemUnit) (vs : List (Nat × Nat)) : (s.access c st b m vs).xlate = s.xlate := rfl
@[simp] theorem State.access_stokers (s : State) (c : CoreId) (st : StrandId) (b : Bool) (m : MemUnit) (vs : List (Nat × Nat)) : (s.access c st b m vs).stokers = s.stokers := rfl
@[simp] theorem State.access_archive (s : State) (c : CoreId) (st : StrandId) (b : Bool) (m : MemUnit) (vs : List (Nat × Nat)) : (s.access c st b m vs).archive = s.archive := rfl
@[simp] theorem State.access_lib (s : State) (c : CoreId) (st : StrandId) (b : Bool) (m : MemUnit) (vs : List (Nat × Nat)) : (s.access c st b m vs).lib = s.lib := rfl
@[simp] theorem State.access_host (s : State) (c : CoreId) (st : StrandId) (b : Bool) (m : MemUnit) (vs : List (Nat × Nat)) : (s.access c st b m vs).host = s.host := rfl
@[simp] theorem State.access_islands (s : State) (c : CoreId) (st : StrandId) (b : Bool) (m : MemUnit) (vs : List (Nat × Nat)) : (s.access c st b m vs).islands = s.islands := rfl
@[simp] theorem State.access_sensors (s : State) (c : CoreId) (st : StrandId) (b : Bool) (m : MemUnit) (vs : List (Nat × Nat)) : (s.access c st b m vs).sensors = s.sensors := rfl
@[simp] theorem State.access_cap (s : State) (c : CoreId) (st : StrandId) (b : Bool) (m : MemUnit) (vs : List (Nat × Nat)) : (s.access c st b m vs).cap = s.cap := rfl
@[simp] theorem State.access_boot (s : State) (c : CoreId) (st : StrandId) (b : Bool) (m : MemUnit) (vs : List (Nat × Nat)) : (s.access c st b m vs).boot = s.boot := rfl
@[simp] theorem State.access_life (s : State) (c : CoreId) (st : StrandId) (b : Bool) (m : MemUnit) (vs : List (Nat × Nat)) : (s.access c st b m vs).life = s.life := rfl
@[simp] theorem State.access_arrivals (s : State) (c : CoreId) (st : StrandId) (b : Bool) (m : MemUnit) (vs : List (Nat × Nat)) : (s.access c st b m vs).arrivals = s.arrivals := rfl
@[simp] theorem State.access_inbox (s : State) (c : CoreId) (st : StrandId) (b : Bool) (m : MemUnit) (vs : List (Nat × Nat)) : (s.access c st b m vs).inbox = s.inbox := rfl
@[simp] theorem State.access_msg (s : State) (c : CoreId) (st : StrandId) (b : Bool) (m : MemUnit) (vs : List (Nat × Nat)) : (s.access c st b m vs).msg = s.msg := rfl
@[simp] theorem State.access_img (s : State) (c : CoreId) (st : StrandId) (b : Bool) (m : MemUnit) (vs : List (Nat × Nat)) : (s.access c st b m vs).img = s.img := rfl
@[simp] theorem State.access_todo (s : State) (c : CoreId) (st : StrandId) (b : Bool) (m : MemUnit) (vs : List (Nat × Nat)) : (s.access c st b m vs).todo = s.todo := rfl
@[simp] theorem State.access_cur (s : State) (c : CoreId) (st : StrandId) (b : Bool) (m : MemUnit) (vs : List (Nat × Nat)) : (s.access c st b m vs).cur = s.cur := rfl
@[simp] theorem State.access_cal (s : State) (c : CoreId) (st : StrandId) (b : Bool) (m : MemUnit) (vs : List (Nat × Nat)) : (s.access c st b m vs).cal = s.cal := rfl
@[simp] theorem State.access_order (s : State) (c : CoreId) (st : StrandId) (b : Bool) (m : MemUnit) (vs : List (Nat × Nat)) : (s.access c st b m vs).order = s.order := rfl
@[simp] theorem State.access_choice (s : State) (c : CoreId) (st : StrandId) (b : Bool) (m : MemUnit) (vs : List (Nat × Nat)) : (s.access c st b m vs).choice = s.choice := rfl
@[simp] theorem State.accessDone_power (s : State) (c : CoreId) (st : StrandId) (n : Nat) : (s.accessDone c st n).power = s.power := rfl
@[simp] theorem State.accessDone_hc (s : State) (c : CoreId) (st : StrandId) (n : Nat) : (s.accessDone c st n).hc = s.hc := rfl
@[simp] theorem State.accessDone_devId (s : State) (c : CoreId) (st : StrandId) (n : Nat) : (s.accessDone c st n).devId = s.devId := rfl
@[simp] theorem State.accessDone_half (s : State) (c : CoreId) (st : StrandId) (n : Nat) : (s.accessDone c st n).half = s.half := rfl
@[simp] theorem State.accessDone_degrading (s : State) (c : CoreId) (st : StrandId) (n : Nat) : (s.accessDone c st n).degrading = s.degrading := rfl
@[simp] theorem State.accessDone_bindings (s : State) (c : CoreId) (st : StrandId) (n : Nat) : (s.accessDone c st n).bindings = s.bindings := rfl
@[simp] theorem State.accessDone_gm (s : State) (c : CoreId) (st : StrandId) (n : Nat) : (s.accessDone c st n).gm = s.gm := rfl
@[simp] theorem State.accessDone_xlate (s : State) (c : CoreId) (st : StrandId) (n : Nat) : (s.accessDone c st n).xlate = s.xlate := rfl
@[simp] theorem State.accessDone_stokers (s : State) (c : CoreId) (st : StrandId) (n : Nat) : (s.accessDone c st n).stokers = s.stokers := rfl
@[simp] theorem State.accessDone_archive (s : State) (c : CoreId) (st : StrandId) (n : Nat) : (s.accessDone c st n).archive = s.archive := rfl
@[simp] theorem State.accessDone_lib (s : State) (c : CoreId) (st : StrandId) (n : Nat) : (s.accessDone c st n).lib = s.lib := rfl
@[simp] theorem State.accessDone_host (s : State) (c : CoreId) (st : StrandId) (n : Nat) : (s.accessDone c st n).host = s.host := rfl
@[simp] theorem State.accessDone_islands (s : State) (c : CoreId) (st : StrandId) (n : Nat) : (s.accessDone c st n).islands = s.islands := rfl
@[simp] theorem State.accessDone_sensors (s : State) (c : CoreId) (st : StrandId) (n : Nat) : (s.accessDone c st n).sensors = s.sensors := rfl
@[simp] theorem State.accessDone_cap (s : State) (c : CoreId) (st : StrandId) (n : Nat) : (s.accessDone c st n).cap = s.cap := rfl
@[simp] theorem State.accessDone_boot (s : State) (c : CoreId) (st : StrandId) (n : Nat) : (s.accessDone c st n).boot = s.boot := rfl
@[simp] theorem State.accessDone_life (s : State) (c : CoreId) (st : StrandId) (n : Nat) : (s.accessDone c st n).life = s.life := rfl
@[simp] theorem State.accessDone_arrivals (s : State) (c : CoreId) (st : StrandId) (n : Nat) : (s.accessDone c st n).arrivals = s.arrivals := rfl
@[simp] theorem State.accessDone_inbox (s : State) (c : CoreId) (st : StrandId) (n : Nat) : (s.accessDone c st n).inbox = s.inbox := rfl
@[simp] theorem State.accessDone_msg (s : State) (c : CoreId) (st : StrandId) (n : Nat) : (s.accessDone c st n).msg = s.msg := rfl
@[simp] theorem State.accessDone_img (s : State) (c : CoreId) (st : StrandId) (n : Nat) : (s.accessDone c st n).img = s.img := rfl
@[simp] theorem State.accessDone_todo (s : State) (c : CoreId) (st : StrandId) (n : Nat) : (s.accessDone c st n).todo = s.todo := rfl
@[simp] theorem State.accessDone_cur (s : State) (c : CoreId) (st : StrandId) (n : Nat) : (s.accessDone c st n).cur = s.cur := rfl
@[simp] theorem State.accessDone_cal (s : State) (c : CoreId) (st : StrandId) (n : Nat) : (s.accessDone c st n).cal = s.cal := rfl
@[simp] theorem State.accessDone_order (s : State) (c : CoreId) (st : StrandId) (n : Nat) : (s.accessDone c st n).order = s.order := rfl
@[simp] theorem State.accessDone_choice (s : State) (c : CoreId) (st : StrandId) (n : Nat) : (s.accessDone c st n).choice = s.choice := rfl
@[simp] theorem State.coreDone_power (s : State) (c : CoreId) (st : StrandId) (n : Nat) : (s.coreDone c st n).power = s.power := rfl
@[simp] theorem State.coreDone_hc (s : State) (c : CoreId) (st : StrandId) (n : Nat) : (s.coreDone c st n).hc = s.hc := rfl
@[simp] theorem State.coreDone_devId (s : State) (c : CoreId) (st : StrandId) (n : Nat) : (s.coreDone c st n).devId = s.devId := rfl
@[simp] theorem State.coreDone_half (s : State) (c : CoreId) (st : StrandId) (n : Nat) : (s.coreDone c st n).half = s.half := rfl
@[simp] theorem State.coreDone_degrading (s : State) (c : CoreId) (st : StrandId) (n : Nat) : (s.coreDone c st n).degrading = s.degrading := rfl
@[simp] theorem State.coreDone_bindings (s : State) (c : CoreId) (st : StrandId) (n : Nat) : (s.coreDone c st n).bindings = s.bindings := rfl
@[simp] theorem State.coreDone_gm (s : State) (c : CoreId) (st : StrandId) (n : Nat) : (s.coreDone c st n).gm = s.gm := rfl
@[simp] theorem State.coreDone_xlate (s : State) (c : CoreId) (st : StrandId) (n : Nat) : (s.coreDone c st n).xlate = s.xlate := rfl
@[simp] theorem State.coreDone_stokers (s : State) (c : CoreId) (st : StrandId) (n : Nat) : (s.coreDone c st n).stokers = s.stokers := rfl
@[simp] theorem State.coreDone_archive (s : State) (c : CoreId) (st : StrandId) (n : Nat) : (s.coreDone c st n).archive = s.archive := rfl
@[simp] theorem State.coreDone_lib (s : State) (c : CoreId) (st : StrandId) (n : Nat) : (s.coreDone c st n).lib = s.lib := rfl
@[simp] theorem State.coreDone_host (s : State) (c : CoreId) (st : StrandId) (n : Nat) : (s.coreDone c st n).host = s.host := rfl
@[simp] theorem State.coreDone_islands (s : State) (c : CoreId) (st : StrandId) (n : Nat) : (s.coreDone c st n).islands = s.islands := rfl
@[simp] theorem State.coreDone_sensors (s : State) (c : CoreId) (st : StrandId) (n : Nat) : (s.coreDone c st n).sensors = s.sensors := rfl
@[simp] theorem State.coreDone_cap (s : State) (c : CoreId) (st : StrandId) (n : Nat) : (s.coreDone c st n).cap = s.cap := rfl
@[simp] theorem State.coreDone_boot (s : State) (c : CoreId) (st : StrandId) (n : Nat) : (s.coreDone c st n).boot = s.boot := rfl
@[simp] theorem State.coreDone_life (s : State) (c : CoreId) (st : StrandId) (n : Nat) : (s.coreDone c st n).life = s.life := rfl
@[simp] theorem State.coreDone_arrivals (s : State) (c : CoreId) (st : StrandId) (n : Nat) : (s.coreDone c st n).arrivals = s.arrivals := rfl
@[simp] theorem State.coreDone_inbox (s : State) (c : CoreId) (st : StrandId) (n : Nat) : (s.coreDone c st n).inbox = s.inbox := rfl
@[simp] theorem State.coreDone_msg (s : State) (c : CoreId) (st : StrandId) (n : Nat) : (s.coreDone c st n).msg = s.msg := rfl
@[simp] theorem State.coreDone_img (s : State) (c : CoreId) (st : StrandId) (n : Nat) : (s.coreDone c st n).img = s.img := rfl
@[simp] theorem State.coreDone_todo (s : State) (c : CoreId) (st : StrandId) (n : Nat) : (s.coreDone c st n).todo = s.todo := rfl
@[simp] theorem State.coreDone_cur (s : State) (c : CoreId) (st : StrandId) (n : Nat) : (s.coreDone c st n).cur = s.cur := rfl
@[simp] theorem State.coreDone_cal (s : State) (c : CoreId) (st : StrandId) (n : Nat) : (s.coreDone c st n).cal = s.cal := rfl
@[simp] theorem State.coreDone_order (s : State) (c : CoreId) (st : StrandId) (n : Nat) : (s.coreDone c st n).order = s.order := rfl
@[simp] theorem State.coreDone_choice (s : State) (c : CoreId) (st : StrandId) (n : Nat) : (s.coreDone c st n).choice = s.choice := rfl
@[simp] theorem State.addHold_power (s : State) (c : CoreId) (st : StrandId) (h : Hold) : (s.addHold c st h).power = s.power := rfl
@[simp] theorem State.addHold_hc (s : State) (c : CoreId) (st : StrandId) (h : Hold) : (s.addHold c st h).hc = s.hc := rfl
@[simp] theorem State.addHold_devId (s : State) (c : CoreId) (st : StrandId) (h : Hold) : (s.addHold c st h).devId = s.devId := rfl
@[simp] theorem State.addHold_half (s : State) (c : CoreId) (st : StrandId) (h : Hold) : (s.addHold c st h).half = s.half := rfl
@[simp] theorem State.addHold_degrading (s : State) (c : CoreId) (st : StrandId) (h : Hold) : (s.addHold c st h).degrading = s.degrading := rfl
@[simp] theorem State.addHold_bindings (s : State) (c : CoreId) (st : StrandId) (h : Hold) : (s.addHold c st h).bindings = s.bindings := rfl
@[simp] theorem State.addHold_gm (s : State) (c : CoreId) (st : StrandId) (h : Hold) : (s.addHold c st h).gm = s.gm := rfl
@[simp] theorem State.addHold_xlate (s : State) (c : CoreId) (st : StrandId) (h : Hold) : (s.addHold c st h).xlate = s.xlate := rfl
@[simp] theorem State.addHold_stokers (s : State) (c : CoreId) (st : StrandId) (h : Hold) : (s.addHold c st h).stokers = s.stokers := rfl
@[simp] theorem State.addHold_archive (s : State) (c : CoreId) (st : StrandId) (h : Hold) : (s.addHold c st h).archive = s.archive := rfl
@[simp] theorem State.addHold_lib (s : State) (c : CoreId) (st : StrandId) (h : Hold) : (s.addHold c st h).lib = s.lib := rfl
@[simp] theorem State.addHold_host (s : State) (c : CoreId) (st : StrandId) (h : Hold) : (s.addHold c st h).host = s.host := rfl
@[simp] theorem State.addHold_islands (s : State) (c : CoreId) (st : StrandId) (h : Hold) : (s.addHold c st h).islands = s.islands := rfl
@[simp] theorem State.addHold_sensors (s : State) (c : CoreId) (st : StrandId) (h : Hold) : (s.addHold c st h).sensors = s.sensors := rfl
@[simp] theorem State.addHold_cap (s : State) (c : CoreId) (st : StrandId) (h : Hold) : (s.addHold c st h).cap = s.cap := rfl
@[simp] theorem State.addHold_boot (s : State) (c : CoreId) (st : StrandId) (h : Hold) : (s.addHold c st h).boot = s.boot := rfl
@[simp] theorem State.addHold_life (s : State) (c : CoreId) (st : StrandId) (h : Hold) : (s.addHold c st h).life = s.life := rfl
@[simp] theorem State.addHold_arrivals (s : State) (c : CoreId) (st : StrandId) (h : Hold) : (s.addHold c st h).arrivals = s.arrivals := rfl
@[simp] theorem State.addHold_inbox (s : State) (c : CoreId) (st : StrandId) (h : Hold) : (s.addHold c st h).inbox = s.inbox := rfl
@[simp] theorem State.addHold_msg (s : State) (c : CoreId) (st : StrandId) (h : Hold) : (s.addHold c st h).msg = s.msg := rfl
@[simp] theorem State.addHold_img (s : State) (c : CoreId) (st : StrandId) (h : Hold) : (s.addHold c st h).img = s.img := rfl
@[simp] theorem State.addHold_todo (s : State) (c : CoreId) (st : StrandId) (h : Hold) : (s.addHold c st h).todo = s.todo := rfl
@[simp] theorem State.addHold_cur (s : State) (c : CoreId) (st : StrandId) (h : Hold) : (s.addHold c st h).cur = s.cur := rfl
@[simp] theorem State.addHold_cal (s : State) (c : CoreId) (st : StrandId) (h : Hold) : (s.addHold c st h).cal = s.cal := rfl
@[simp] theorem State.addHold_order (s : State) (c : CoreId) (st : StrandId) (h : Hold) : (s.addHold c st h).order = s.order := rfl
@[simp] theorem State.addHold_choice (s : State) (c : CoreId) (st : StrandId) (h : Hold) : (s.addHold c st h).choice = s.choice := rfl
@[simp] theorem State.push_power (s : State) (c : CoreId) (st : StrandId) (p n : Nat) : (s.push c st p n).power = s.power := rfl
@[simp] theorem State.push_hc (s : State) (c : CoreId) (st : StrandId) (p n : Nat) : (s.push c st p n).hc = s.hc := rfl
@[simp] theorem State.push_devId (s : State) (c : CoreId) (st : StrandId) (p n : Nat) : (s.push c st p n).devId = s.devId := rfl
@[simp] theorem State.push_half (s : State) (c : CoreId) (st : StrandId) (p n : Nat) : (s.push c st p n).half = s.half := rfl
@[simp] theorem State.push_degrading (s : State) (c : CoreId) (st : StrandId) (p n : Nat) : (s.push c st p n).degrading = s.degrading := rfl
@[simp] theorem State.push_bindings (s : State) (c : CoreId) (st : StrandId) (p n : Nat) : (s.push c st p n).bindings = s.bindings := rfl
@[simp] theorem State.push_gm (s : State) (c : CoreId) (st : StrandId) (p n : Nat) : (s.push c st p n).gm = s.gm := rfl
@[simp] theorem State.push_xlate (s : State) (c : CoreId) (st : StrandId) (p n : Nat) : (s.push c st p n).xlate = s.xlate := rfl
@[simp] theorem State.push_stokers (s : State) (c : CoreId) (st : StrandId) (p n : Nat) : (s.push c st p n).stokers = s.stokers := rfl
@[simp] theorem State.push_archive (s : State) (c : CoreId) (st : StrandId) (p n : Nat) : (s.push c st p n).archive = s.archive := rfl
@[simp] theorem State.push_lib (s : State) (c : CoreId) (st : StrandId) (p n : Nat) : (s.push c st p n).lib = s.lib := rfl
@[simp] theorem State.push_host (s : State) (c : CoreId) (st : StrandId) (p n : Nat) : (s.push c st p n).host = s.host := rfl
@[simp] theorem State.push_islands (s : State) (c : CoreId) (st : StrandId) (p n : Nat) : (s.push c st p n).islands = s.islands := rfl
@[simp] theorem State.push_sensors (s : State) (c : CoreId) (st : StrandId) (p n : Nat) : (s.push c st p n).sensors = s.sensors := rfl
@[simp] theorem State.push_cap (s : State) (c : CoreId) (st : StrandId) (p n : Nat) : (s.push c st p n).cap = s.cap := rfl
@[simp] theorem State.push_boot (s : State) (c : CoreId) (st : StrandId) (p n : Nat) : (s.push c st p n).boot = s.boot := rfl
@[simp] theorem State.push_life (s : State) (c : CoreId) (st : StrandId) (p n : Nat) : (s.push c st p n).life = s.life := rfl
@[simp] theorem State.push_arrivals (s : State) (c : CoreId) (st : StrandId) (p n : Nat) : (s.push c st p n).arrivals = s.arrivals := rfl
@[simp] theorem State.push_inbox (s : State) (c : CoreId) (st : StrandId) (p n : Nat) : (s.push c st p n).inbox = s.inbox := rfl
@[simp] theorem State.push_msg (s : State) (c : CoreId) (st : StrandId) (p n : Nat) : (s.push c st p n).msg = s.msg := rfl
@[simp] theorem State.push_img (s : State) (c : CoreId) (st : StrandId) (p n : Nat) : (s.push c st p n).img = s.img := rfl
@[simp] theorem State.push_todo (s : State) (c : CoreId) (st : StrandId) (p n : Nat) : (s.push c st p n).todo = s.todo := rfl
@[simp] theorem State.push_cur (s : State) (c : CoreId) (st : StrandId) (p n : Nat) : (s.push c st p n).cur = s.cur := rfl
@[simp] theorem State.push_cal (s : State) (c : CoreId) (st : StrandId) (p n : Nat) : (s.push c st p n).cal = s.cal := rfl
@[simp] theorem State.push_order (s : State) (c : CoreId) (st : StrandId) (p n : Nat) : (s.push c st p n).order = s.order := rfl
@[simp] theorem State.push_choice (s : State) (c : CoreId) (st : StrandId) (p n : Nat) : (s.push c st p n).choice = s.choice := rfl
@[simp] theorem State.slip_power (s : State) (c : CoreId) (st : StrandId) (n : Nat) : (s.slip c st n).power = s.power := rfl
@[simp] theorem State.slip_hc (s : State) (c : CoreId) (st : StrandId) (n : Nat) : (s.slip c st n).hc = s.hc := rfl
@[simp] theorem State.slip_devId (s : State) (c : CoreId) (st : StrandId) (n : Nat) : (s.slip c st n).devId = s.devId := rfl
@[simp] theorem State.slip_half (s : State) (c : CoreId) (st : StrandId) (n : Nat) : (s.slip c st n).half = s.half := rfl
@[simp] theorem State.slip_degrading (s : State) (c : CoreId) (st : StrandId) (n : Nat) : (s.slip c st n).degrading = s.degrading := rfl
@[simp] theorem State.slip_bindings (s : State) (c : CoreId) (st : StrandId) (n : Nat) : (s.slip c st n).bindings = s.bindings := rfl
@[simp] theorem State.slip_gm (s : State) (c : CoreId) (st : StrandId) (n : Nat) : (s.slip c st n).gm = s.gm := rfl
@[simp] theorem State.slip_xlate (s : State) (c : CoreId) (st : StrandId) (n : Nat) : (s.slip c st n).xlate = s.xlate := rfl
@[simp] theorem State.slip_stokers (s : State) (c : CoreId) (st : StrandId) (n : Nat) : (s.slip c st n).stokers = s.stokers := rfl
@[simp] theorem State.slip_archive (s : State) (c : CoreId) (st : StrandId) (n : Nat) : (s.slip c st n).archive = s.archive := rfl
@[simp] theorem State.slip_lib (s : State) (c : CoreId) (st : StrandId) (n : Nat) : (s.slip c st n).lib = s.lib := rfl
@[simp] theorem State.slip_host (s : State) (c : CoreId) (st : StrandId) (n : Nat) : (s.slip c st n).host = s.host := rfl
@[simp] theorem State.slip_islands (s : State) (c : CoreId) (st : StrandId) (n : Nat) : (s.slip c st n).islands = s.islands := rfl
@[simp] theorem State.slip_sensors (s : State) (c : CoreId) (st : StrandId) (n : Nat) : (s.slip c st n).sensors = s.sensors := rfl
@[simp] theorem State.slip_cap (s : State) (c : CoreId) (st : StrandId) (n : Nat) : (s.slip c st n).cap = s.cap := rfl
@[simp] theorem State.slip_boot (s : State) (c : CoreId) (st : StrandId) (n : Nat) : (s.slip c st n).boot = s.boot := rfl
@[simp] theorem State.slip_life (s : State) (c : CoreId) (st : StrandId) (n : Nat) : (s.slip c st n).life = s.life := rfl
@[simp] theorem State.slip_arrivals (s : State) (c : CoreId) (st : StrandId) (n : Nat) : (s.slip c st n).arrivals = s.arrivals := rfl
@[simp] theorem State.slip_inbox (s : State) (c : CoreId) (st : StrandId) (n : Nat) : (s.slip c st n).inbox = s.inbox := rfl
@[simp] theorem State.slip_msg (s : State) (c : CoreId) (st : StrandId) (n : Nat) : (s.slip c st n).msg = s.msg := rfl
@[simp] theorem State.slip_img (s : State) (c : CoreId) (st : StrandId) (n : Nat) : (s.slip c st n).img = s.img := rfl
@[simp] theorem State.slip_todo (s : State) (c : CoreId) (st : StrandId) (n : Nat) : (s.slip c st n).todo = s.todo := rfl
@[simp] theorem State.slip_cur (s : State) (c : CoreId) (st : StrandId) (n : Nat) : (s.slip c st n).cur = s.cur := rfl
@[simp] theorem State.slip_cal (s : State) (c : CoreId) (st : StrandId) (n : Nat) : (s.slip c st n).cal = s.cal := rfl
@[simp] theorem State.slip_order (s : State) (c : CoreId) (st : StrandId) (n : Nat) : (s.slip c st n).order = s.order := rfl
@[simp] theorem State.slip_choice (s : State) (c : CoreId) (st : StrandId) (n : Nat) : (s.slip c st n).choice = s.choice := rfl
@[simp] theorem State.goto_power (s : State) (u : Turn) (p : Nat) (r : Reach) : (s.goto u p r).power = s.power := rfl
@[simp] theorem State.goto_hc (s : State) (u : Turn) (p : Nat) (r : Reach) : (s.goto u p r).hc = s.hc := rfl
@[simp] theorem State.goto_devId (s : State) (u : Turn) (p : Nat) (r : Reach) : (s.goto u p r).devId = s.devId := rfl
@[simp] theorem State.goto_half (s : State) (u : Turn) (p : Nat) (r : Reach) : (s.goto u p r).half = s.half := rfl
@[simp] theorem State.goto_degrading (s : State) (u : Turn) (p : Nat) (r : Reach) : (s.goto u p r).degrading = s.degrading := rfl
@[simp] theorem State.goto_bindings (s : State) (u : Turn) (p : Nat) (r : Reach) : (s.goto u p r).bindings = s.bindings := rfl
@[simp] theorem State.goto_gm (s : State) (u : Turn) (p : Nat) (r : Reach) : (s.goto u p r).gm = s.gm := rfl
@[simp] theorem State.goto_xlate (s : State) (u : Turn) (p : Nat) (r : Reach) : (s.goto u p r).xlate = s.xlate := rfl
@[simp] theorem State.goto_stokers (s : State) (u : Turn) (p : Nat) (r : Reach) : (s.goto u p r).stokers = s.stokers := rfl
@[simp] theorem State.goto_archive (s : State) (u : Turn) (p : Nat) (r : Reach) : (s.goto u p r).archive = s.archive := rfl
@[simp] theorem State.goto_lib (s : State) (u : Turn) (p : Nat) (r : Reach) : (s.goto u p r).lib = s.lib := rfl
@[simp] theorem State.goto_host (s : State) (u : Turn) (p : Nat) (r : Reach) : (s.goto u p r).host = s.host := rfl
@[simp] theorem State.goto_islands (s : State) (u : Turn) (p : Nat) (r : Reach) : (s.goto u p r).islands = s.islands := rfl
@[simp] theorem State.goto_sensors (s : State) (u : Turn) (p : Nat) (r : Reach) : (s.goto u p r).sensors = s.sensors := rfl
@[simp] theorem State.goto_cap (s : State) (u : Turn) (p : Nat) (r : Reach) : (s.goto u p r).cap = s.cap := rfl
@[simp] theorem State.goto_boot (s : State) (u : Turn) (p : Nat) (r : Reach) : (s.goto u p r).boot = s.boot := rfl
@[simp] theorem State.goto_life (s : State) (u : Turn) (p : Nat) (r : Reach) : (s.goto u p r).life = s.life := rfl
@[simp] theorem State.goto_arrivals (s : State) (u : Turn) (p : Nat) (r : Reach) : (s.goto u p r).arrivals = s.arrivals := rfl
@[simp] theorem State.goto_inbox (s : State) (u : Turn) (p : Nat) (r : Reach) : (s.goto u p r).inbox = s.inbox := rfl
@[simp] theorem State.goto_msg (s : State) (u : Turn) (p : Nat) (r : Reach) : (s.goto u p r).msg = s.msg := rfl
@[simp] theorem State.goto_img (s : State) (u : Turn) (p : Nat) (r : Reach) : (s.goto u p r).img = s.img := rfl
@[simp] theorem State.goto_todo (s : State) (u : Turn) (p : Nat) (r : Reach) : (s.goto u p r).todo = s.todo := rfl
@[simp] theorem State.goto_cur (s : State) (u : Turn) (p : Nat) (r : Reach) : (s.goto u p r).cur = s.cur := rfl
@[simp] theorem State.goto_cal (s : State) (u : Turn) (p : Nat) (r : Reach) : (s.goto u p r).cal = s.cal := rfl
@[simp] theorem State.goto_order (s : State) (u : Turn) (p : Nat) (r : Reach) : (s.goto u p r).order = s.order := rfl
@[simp] theorem State.goto_choice (s : State) (u : Turn) (p : Nat) (r : Reach) : (s.goto u p r).choice = s.choice := rfl
@[simp] theorem State.waitFor_power (s : State) (u : Turn) (w : Why) (d : XReg) (q : Bool) (n : Nat) : (s.waitFor u w d q n).power = s.power := rfl
@[simp] theorem State.waitFor_hc (s : State) (u : Turn) (w : Why) (d : XReg) (q : Bool) (n : Nat) : (s.waitFor u w d q n).hc = s.hc := rfl
@[simp] theorem State.waitFor_devId (s : State) (u : Turn) (w : Why) (d : XReg) (q : Bool) (n : Nat) : (s.waitFor u w d q n).devId = s.devId := rfl
@[simp] theorem State.waitFor_half (s : State) (u : Turn) (w : Why) (d : XReg) (q : Bool) (n : Nat) : (s.waitFor u w d q n).half = s.half := rfl
@[simp] theorem State.waitFor_degrading (s : State) (u : Turn) (w : Why) (d : XReg) (q : Bool) (n : Nat) : (s.waitFor u w d q n).degrading = s.degrading := rfl
@[simp] theorem State.waitFor_bindings (s : State) (u : Turn) (w : Why) (d : XReg) (q : Bool) (n : Nat) : (s.waitFor u w d q n).bindings = s.bindings := rfl
@[simp] theorem State.waitFor_gm (s : State) (u : Turn) (w : Why) (d : XReg) (q : Bool) (n : Nat) : (s.waitFor u w d q n).gm = s.gm := rfl
@[simp] theorem State.waitFor_xlate (s : State) (u : Turn) (w : Why) (d : XReg) (q : Bool) (n : Nat) : (s.waitFor u w d q n).xlate = s.xlate := rfl
@[simp] theorem State.waitFor_stokers (s : State) (u : Turn) (w : Why) (d : XReg) (q : Bool) (n : Nat) : (s.waitFor u w d q n).stokers = s.stokers := rfl
@[simp] theorem State.waitFor_archive (s : State) (u : Turn) (w : Why) (d : XReg) (q : Bool) (n : Nat) : (s.waitFor u w d q n).archive = s.archive := rfl
@[simp] theorem State.waitFor_lib (s : State) (u : Turn) (w : Why) (d : XReg) (q : Bool) (n : Nat) : (s.waitFor u w d q n).lib = s.lib := rfl
@[simp] theorem State.waitFor_host (s : State) (u : Turn) (w : Why) (d : XReg) (q : Bool) (n : Nat) : (s.waitFor u w d q n).host = s.host := rfl
@[simp] theorem State.waitFor_islands (s : State) (u : Turn) (w : Why) (d : XReg) (q : Bool) (n : Nat) : (s.waitFor u w d q n).islands = s.islands := rfl
@[simp] theorem State.waitFor_sensors (s : State) (u : Turn) (w : Why) (d : XReg) (q : Bool) (n : Nat) : (s.waitFor u w d q n).sensors = s.sensors := rfl
@[simp] theorem State.waitFor_cap (s : State) (u : Turn) (w : Why) (d : XReg) (q : Bool) (n : Nat) : (s.waitFor u w d q n).cap = s.cap := rfl
@[simp] theorem State.waitFor_boot (s : State) (u : Turn) (w : Why) (d : XReg) (q : Bool) (n : Nat) : (s.waitFor u w d q n).boot = s.boot := rfl
@[simp] theorem State.waitFor_life (s : State) (u : Turn) (w : Why) (d : XReg) (q : Bool) (n : Nat) : (s.waitFor u w d q n).life = s.life := rfl
@[simp] theorem State.waitFor_arrivals (s : State) (u : Turn) (w : Why) (d : XReg) (q : Bool) (n : Nat) : (s.waitFor u w d q n).arrivals = s.arrivals := rfl
@[simp] theorem State.waitFor_inbox (s : State) (u : Turn) (w : Why) (d : XReg) (q : Bool) (n : Nat) : (s.waitFor u w d q n).inbox = s.inbox := rfl
@[simp] theorem State.waitFor_msg (s : State) (u : Turn) (w : Why) (d : XReg) (q : Bool) (n : Nat) : (s.waitFor u w d q n).msg = s.msg := rfl
@[simp] theorem State.waitFor_img (s : State) (u : Turn) (w : Why) (d : XReg) (q : Bool) (n : Nat) : (s.waitFor u w d q n).img = s.img := rfl
@[simp] theorem State.waitFor_todo (s : State) (u : Turn) (w : Why) (d : XReg) (q : Bool) (n : Nat) : (s.waitFor u w d q n).todo = s.todo := rfl
@[simp] theorem State.waitFor_cur (s : State) (u : Turn) (w : Why) (d : XReg) (q : Bool) (n : Nat) : (s.waitFor u w d q n).cur = s.cur := rfl
@[simp] theorem State.waitFor_cal (s : State) (u : Turn) (w : Why) (d : XReg) (q : Bool) (n : Nat) : (s.waitFor u w d q n).cal = s.cal := rfl
@[simp] theorem State.waitFor_order (s : State) (u : Turn) (w : Why) (d : XReg) (q : Bool) (n : Nat) : (s.waitFor u w d q n).order = s.order := rfl
@[simp] theorem State.waitFor_choice (s : State) (u : Turn) (w : Why) (d : XReg) (q : Bool) (n : Nat) : (s.waitFor u w d q n).choice = s.choice := rfl

/-! ### Fields of a core -/

@[simp] theorem Core.setStrand_v (k : Core) (st : StrandId) (t : Strand) : (k.setStrand st t).v = k.v := rfl
@[simp] theorem Core.setStrand_k (k : Core) (st : StrandId) (t : Strand) : (k.setStrand st t).k = k.k := rfl
@[simp] theorem Core.setStrand_q (k : Core) (st : StrandId) (t : Strand) : (k.setStrand st t).q = k.q := rfl
@[simp] theorem Core.setStrand_fifos (k : Core) (st : StrandId) (t : Strand) : (k.setStrand st t).fifos = k.fifos := rfl
@[simp] theorem Core.setStrand_ls (k : Core) (st : StrandId) (t : Strand) : (k.setStrand st t).ls = k.ls := rfl
@[simp] theorem Core.setStrand_bad (k : Core) (st : StrandId) (t : Strand) : (k.setStrand st t).bad = k.bad := rfl
@[simp] theorem Core.setStrand_badAcc (k : Core) (st : StrandId) (t : Strand) : (k.setStrand st t).badAcc = k.badAcc := rfl
@[simp] theorem Core.setStrand_badV (k : Core) (st : StrandId) (t : Strand) : (k.setStrand st t).badV = k.badV := rfl
@[simp] theorem Core.setStrand_badCode (k : Core) (st : StrandId) (t : Strand) : (k.setStrand st t).badCode = k.badCode := rfl
@[simp] theorem Core.setStrand_corr (k : Core) (st : StrandId) (t : Strand) : (k.setStrand st t).corr = k.corr := rfl
@[simp] theorem Core.setStrand_kindling (k : Core) (st : StrandId) (t : Strand) : (k.setStrand st t).kindling = k.kindling := rfl
@[simp] theorem Core.setStrand_atStart (k : Core) (st : StrandId) (t : Strand) : (k.setStrand st t).atStart = k.atStart := rfl
@[simp] theorem Core.setStrand_badWb (k : Core) (st : StrandId) (t : Strand) : (k.setStrand st t).badWb = k.badWb := rfl
@[simp] theorem Core.setStrand_wb0 (k : Core) (st : StrandId) (t : Strand) : (k.setStrand st t).wb0 = k.wb0 := rfl
@[simp] theorem Core.setStrand_wb1 (k : Core) (st : StrandId) (t : Strand) : (k.setStrand st t).wb1 = k.wb1 := rfl
@[simp] theorem Core.setStrand_active (k : Core) (st : StrandId) (t : Strand) : (k.setStrand st t).active = k.active := rfl
@[simp] theorem Core.setStrand_acc (k : Core) (st : StrandId) (t : Strand) : (k.setStrand st t).acc = k.acc := rfl
@[simp] theorem Core.setStrand_code (k : Core) (st : StrandId) (t : Strand) : (k.setStrand st t).code = k.code := rfl
@[simp] theorem Core.setStrand_handler (k : Core) (st : StrandId) (t : Strand) : (k.setStrand st t).handler = k.handler := rfl
@[simp] theorem Core.setStrand_dom (k : Core) (st : StrandId) (t : Strand) : (k.setStrand st t).dom = k.dom := rfl
@[simp] theorem Core.setStrand_srseed (k : Core) (st : StrandId) (t : Strand) : (k.setStrand st t).srseed = k.srseed := rfl
@[simp] theorem Core.setStrand_gens (k : Core) (st : StrandId) (t : Strand) : (k.setStrand st t).gens = k.gens := rfl
@[simp] theorem Core.setStrand_earlyrd (k : Core) (st : StrandId) (t : Strand) : (k.setStrand st t).earlyrd = k.earlyrd := rfl
@[simp] theorem Core.setStrand_fslot (k : Core) (st : StrandId) (t : Strand) : (k.setStrand st t).fslot = k.fslot := rfl
@[simp] theorem Core.setStrand_fwBind (k : Core) (st : StrandId) (t : Strand) : (k.setStrand st t).fwBind = k.fwBind := rfl
@[simp] theorem Core.setStrand_degr (k : Core) (st : StrandId) (t : Strand) : (k.setStrand st t).degr = k.degr := rfl
@[simp] theorem Core.setStrand_chans (k : Core) (st : StrandId) (t : Strand) : (k.setStrand st t).chans = k.chans := rfl
@[simp] theorem Core.setStrand_partid (k : Core) (st : StrandId) (t : Strand) : (k.setStrand st t).partid = k.partid := rfl
@[simp] theorem Core.setStrand_bindinfo (k : Core) (st : StrandId) (t : Strand) : (k.setStrand st t).bindinfo = k.bindinfo := rfl
@[simp] theorem Core.setStrand_asid (k : Core) (st : StrandId) (t : Strand) : (k.setStrand st t).asid = k.asid := rfl
@[simp] theorem Core.setStrand_ptroot (k : Core) (st : StrandId) (t : Strand) : (k.setStrand st t).ptroot = k.ptroot := rfl
@[simp] theorem Core.setStrand_umiss (k : Core) (st : StrandId) (t : Strand) : (k.setStrand st t).umiss = k.umiss := rfl
@[simp] theorem Core.setStrand_walks (k : Core) (st : StrandId) (t : Strand) : (k.setStrand st t).walks = k.walks := rfl
@[simp] theorem Core.setStrand_utlb (k : Core) (st : StrandId) (t : Strand) : (k.setStrand st t).utlb = k.utlb := rfl
@[simp] theorem Core.setStrand_cyc (k : Core) (st : StrandId) (t : Strand) : (k.setStrand st t).cyc = k.cyc := rfl
@[simp] theorem Core.setStrand_ticked (k : Core) (st : StrandId) (t : Strand) : (k.setStrand st t).ticked = k.ticked := rfl
@[simp] theorem Core.setStrand_task (k : Core) (st : StrandId) (t : Strand) : (k.setStrand st t).task = k.task := rfl
@[simp] theorem Core.setStrand_prepared (k : Core) (st : StrandId) (t : Strand) : (k.setStrand st t).prepared = k.prepared := rfl
@[simp] theorem Core.setStrand_awake (k : Core) (st : StrandId) (t : Strand) : (k.setStrand st t).awake = k.awake := rfl
@[simp] theorem Core.setStrand_gateReq (k : Core) (st : StrandId) (t : Strand) : (k.setStrand st t).gateReq = k.gateReq := rfl
@[simp] theorem Core.setStrand_gateOwn (k : Core) (st : StrandId) (t : Strand) : (k.setStrand st t).gateOwn = k.gateOwn := rfl
@[simp] theorem Core.setStrand_slot (k : Core) (st : StrandId) (t : Strand) : (k.setStrand st t).slot = k.slot := rfl
@[simp] theorem Core.setStrand_prepAt (k : Core) (st : StrandId) (t : Strand) : (k.setStrand st t).prepAt = k.prepAt := rfl
@[simp] theorem Core.setStrand_idleSince (k : Core) (st : StrandId) (t : Strand) : (k.setStrand st t).idleSince = k.idleSince := rfl
@[simp] theorem Core.setStrand_cut (k : Core) (st : StrandId) (t : Strand) : (k.setStrand st t).cut = k.cut := rfl
@[simp] theorem Core.setStrand_bps (k : Core) (st : StrandId) (t : Strand) : (k.setStrand st t).bps = k.bps := rfl
@[simp] theorem Core.setStrand_rail (k : Core) (st : StrandId) (t : Strand) : (k.setStrand st t).rail = k.rail := rfl
@[simp] theorem Core.setStrand_reshape (k : Core) (st : StrandId) (t : Strand) : (k.setStrand st t).reshape = k.reshape := rfl
@[simp] theorem Core.setStrand_chaining (k : Core) (st : StrandId) (t : Strand) : (k.setStrand st t).chaining = k.chaining := rfl
@[simp] theorem Core.setStrand_startFrom (k : Core) (st : StrandId) (t : Strand) : (k.setStrand st t).startFrom = k.startFrom := rfl
@[simp] theorem Core.setStrand_chain (k : Core) (st : StrandId) (t : Strand) : (k.setStrand st t).chain = k.chain := rfl
@[simp] theorem Core.setStrand_chainReq (k : Core) (st : StrandId) (t : Strand) : (k.setStrand st t).chainReq = k.chainReq := rfl
@[simp] theorem Core.setStrand_hobs (k : Core) (st : StrandId) (t : Strand) : (k.setStrand st t).hobs = k.hobs := rfl
@[simp] theorem Core.setStrand_breg (k : Core) (st : StrandId) (t : Strand) : (k.setStrand st t).breg = k.breg := rfl
@[simp] theorem Core.setStrand_csm (k : Core) (st : StrandId) (t : Strand) : (k.setStrand st t).csm = k.csm := rfl
@[simp] theorem Core.setStrand_copies (k : Core) (st : StrandId) (t : Strand) : (k.setStrand st t).copies = k.copies := rfl
@[simp] theorem Core.setStrand_nextCopy (k : Core) (st : StrandId) (t : Strand) : (k.setStrand st t).nextCopy = k.nextCopy := rfl
@[simp] theorem Core.setStrand_colls (k : Core) (st : StrandId) (t : Strand) : (k.setStrand st t).colls = k.colls := rfl
@[simp] theorem Core.setStrand_used (k : Core) (st : StrandId) (t : Strand) : (k.setStrand st t).used = k.used := rfl
@[simp] theorem Core.setStrand_hobLines (k : Core) (st : StrandId) (t : Strand) : (k.setStrand st t).hobLines = k.hobLines := rfl
@[simp] theorem Core.setStrand_damph (k : Core) (st : StrandId) (t : Strand) : (k.setStrand st t).damph = k.damph := rfl
@[simp] theorem Core.setStrand_dampx (k : Core) (st : StrandId) (t : Strand) : (k.setStrand st t).dampx = k.dampx := rfl
@[simp] theorem Core.setStrand_left (k : Core) (st : StrandId) (t : Strand) : (k.setStrand st t).left = k.left := rfl
@[simp] theorem Core.setStrand_poised (k : Core) (st : StrandId) (t : Strand) : (k.setStrand st t).poised = k.poised := rfl
@[simp] theorem Core.setStrand_caps (k : Core) (st : StrandId) (t : Strand) : (k.setStrand st t).caps = k.caps := rfl
@[simp] theorem Core.setStrand_fromBelow (k : Core) (st : StrandId) (t : Strand) : (k.setStrand st t).fromBelow = k.fromBelow := rfl
@[simp] theorem Core.setStrand_fromAbove (k : Core) (st : StrandId) (t : Strand) : (k.setStrand st t).fromAbove = k.fromAbove := rfl
@[simp] theorem Core.setStrand_takesUp (k : Core) (st : StrandId) (t : Strand) : (k.setStrand st t).takesUp = k.takesUp := rfl
@[simp] theorem Core.setStrand_takesDown (k : Core) (st : StrandId) (t : Strand) : (k.setStrand st t).takesDown = k.takesDown := rfl
@[simp] theorem Core.setStrand_putsUp (k : Core) (st : StrandId) (t : Strand) : (k.setStrand st t).putsUp = k.putsUp := rfl
@[simp] theorem Core.setStrand_putsDown (k : Core) (st : StrandId) (t : Strand) : (k.setStrand st t).putsDown = k.putsDown := rfl
@[simp] theorem Core.setStrand_flueFree (k : Core) (st : StrandId) (t : Strand) : (k.setStrand st t).flueFree = k.flueFree := rfl
@[simp] theorem Core.setStrand_engine (k : Core) (st : StrandId) (t : Strand) : (k.setStrand st t).engine = k.engine := rfl
@[simp] theorem Core.updFifo_strands (k : Core) (f : Fin 8) (g : Fifo → Fifo) : (k.updFifo f g).strands = k.strands := rfl
@[simp] theorem Core.updFifo_v (k : Core) (f : Fin 8) (g : Fifo → Fifo) : (k.updFifo f g).v = k.v := rfl
@[simp] theorem Core.updFifo_k (k : Core) (f : Fin 8) (g : Fifo → Fifo) : (k.updFifo f g).k = k.k := rfl
@[simp] theorem Core.updFifo_q (k : Core) (f : Fin 8) (g : Fifo → Fifo) : (k.updFifo f g).q = k.q := rfl
@[simp] theorem Core.updFifo_ls (k : Core) (f : Fin 8) (g : Fifo → Fifo) : (k.updFifo f g).ls = k.ls := rfl
@[simp] theorem Core.updFifo_bad (k : Core) (f : Fin 8) (g : Fifo → Fifo) : (k.updFifo f g).bad = k.bad := rfl
@[simp] theorem Core.updFifo_badAcc (k : Core) (f : Fin 8) (g : Fifo → Fifo) : (k.updFifo f g).badAcc = k.badAcc := rfl
@[simp] theorem Core.updFifo_badV (k : Core) (f : Fin 8) (g : Fifo → Fifo) : (k.updFifo f g).badV = k.badV := rfl
@[simp] theorem Core.updFifo_badCode (k : Core) (f : Fin 8) (g : Fifo → Fifo) : (k.updFifo f g).badCode = k.badCode := rfl
@[simp] theorem Core.updFifo_corr (k : Core) (f : Fin 8) (g : Fifo → Fifo) : (k.updFifo f g).corr = k.corr := rfl
@[simp] theorem Core.updFifo_kindling (k : Core) (f : Fin 8) (g : Fifo → Fifo) : (k.updFifo f g).kindling = k.kindling := rfl
@[simp] theorem Core.updFifo_atStart (k : Core) (f : Fin 8) (g : Fifo → Fifo) : (k.updFifo f g).atStart = k.atStart := rfl
@[simp] theorem Core.updFifo_badWb (k : Core) (f : Fin 8) (g : Fifo → Fifo) : (k.updFifo f g).badWb = k.badWb := rfl
@[simp] theorem Core.updFifo_wb0 (k : Core) (f : Fin 8) (g : Fifo → Fifo) : (k.updFifo f g).wb0 = k.wb0 := rfl
@[simp] theorem Core.updFifo_wb1 (k : Core) (f : Fin 8) (g : Fifo → Fifo) : (k.updFifo f g).wb1 = k.wb1 := rfl
@[simp] theorem Core.updFifo_active (k : Core) (f : Fin 8) (g : Fifo → Fifo) : (k.updFifo f g).active = k.active := rfl
@[simp] theorem Core.updFifo_acc (k : Core) (f : Fin 8) (g : Fifo → Fifo) : (k.updFifo f g).acc = k.acc := rfl
@[simp] theorem Core.updFifo_code (k : Core) (f : Fin 8) (g : Fifo → Fifo) : (k.updFifo f g).code = k.code := rfl
@[simp] theorem Core.updFifo_handler (k : Core) (f : Fin 8) (g : Fifo → Fifo) : (k.updFifo f g).handler = k.handler := rfl
@[simp] theorem Core.updFifo_dom (k : Core) (f : Fin 8) (g : Fifo → Fifo) : (k.updFifo f g).dom = k.dom := rfl
@[simp] theorem Core.updFifo_srseed (k : Core) (f : Fin 8) (g : Fifo → Fifo) : (k.updFifo f g).srseed = k.srseed := rfl
@[simp] theorem Core.updFifo_gens (k : Core) (f : Fin 8) (g : Fifo → Fifo) : (k.updFifo f g).gens = k.gens := rfl
@[simp] theorem Core.updFifo_earlyrd (k : Core) (f : Fin 8) (g : Fifo → Fifo) : (k.updFifo f g).earlyrd = k.earlyrd := rfl
@[simp] theorem Core.updFifo_fslot (k : Core) (f : Fin 8) (g : Fifo → Fifo) : (k.updFifo f g).fslot = k.fslot := rfl
@[simp] theorem Core.updFifo_fwBind (k : Core) (f : Fin 8) (g : Fifo → Fifo) : (k.updFifo f g).fwBind = k.fwBind := rfl
@[simp] theorem Core.updFifo_degr (k : Core) (f : Fin 8) (g : Fifo → Fifo) : (k.updFifo f g).degr = k.degr := rfl
@[simp] theorem Core.updFifo_chans (k : Core) (f : Fin 8) (g : Fifo → Fifo) : (k.updFifo f g).chans = k.chans := rfl
@[simp] theorem Core.updFifo_partid (k : Core) (f : Fin 8) (g : Fifo → Fifo) : (k.updFifo f g).partid = k.partid := rfl
@[simp] theorem Core.updFifo_bindinfo (k : Core) (f : Fin 8) (g : Fifo → Fifo) : (k.updFifo f g).bindinfo = k.bindinfo := rfl
@[simp] theorem Core.updFifo_asid (k : Core) (f : Fin 8) (g : Fifo → Fifo) : (k.updFifo f g).asid = k.asid := rfl
@[simp] theorem Core.updFifo_ptroot (k : Core) (f : Fin 8) (g : Fifo → Fifo) : (k.updFifo f g).ptroot = k.ptroot := rfl
@[simp] theorem Core.updFifo_umiss (k : Core) (f : Fin 8) (g : Fifo → Fifo) : (k.updFifo f g).umiss = k.umiss := rfl
@[simp] theorem Core.updFifo_walks (k : Core) (f : Fin 8) (g : Fifo → Fifo) : (k.updFifo f g).walks = k.walks := rfl
@[simp] theorem Core.updFifo_utlb (k : Core) (f : Fin 8) (g : Fifo → Fifo) : (k.updFifo f g).utlb = k.utlb := rfl
@[simp] theorem Core.updFifo_cyc (k : Core) (f : Fin 8) (g : Fifo → Fifo) : (k.updFifo f g).cyc = k.cyc := rfl
@[simp] theorem Core.updFifo_ticked (k : Core) (f : Fin 8) (g : Fifo → Fifo) : (k.updFifo f g).ticked = k.ticked := rfl
@[simp] theorem Core.updFifo_task (k : Core) (f : Fin 8) (g : Fifo → Fifo) : (k.updFifo f g).task = k.task := rfl
@[simp] theorem Core.updFifo_prepared (k : Core) (f : Fin 8) (g : Fifo → Fifo) : (k.updFifo f g).prepared = k.prepared := rfl
@[simp] theorem Core.updFifo_awake (k : Core) (f : Fin 8) (g : Fifo → Fifo) : (k.updFifo f g).awake = k.awake := rfl
@[simp] theorem Core.updFifo_gateReq (k : Core) (f : Fin 8) (g : Fifo → Fifo) : (k.updFifo f g).gateReq = k.gateReq := rfl
@[simp] theorem Core.updFifo_gateOwn (k : Core) (f : Fin 8) (g : Fifo → Fifo) : (k.updFifo f g).gateOwn = k.gateOwn := rfl
@[simp] theorem Core.updFifo_slot (k : Core) (f : Fin 8) (g : Fifo → Fifo) : (k.updFifo f g).slot = k.slot := rfl
@[simp] theorem Core.updFifo_prepAt (k : Core) (f : Fin 8) (g : Fifo → Fifo) : (k.updFifo f g).prepAt = k.prepAt := rfl
@[simp] theorem Core.updFifo_idleSince (k : Core) (f : Fin 8) (g : Fifo → Fifo) : (k.updFifo f g).idleSince = k.idleSince := rfl
@[simp] theorem Core.updFifo_cut (k : Core) (f : Fin 8) (g : Fifo → Fifo) : (k.updFifo f g).cut = k.cut := rfl
@[simp] theorem Core.updFifo_bps (k : Core) (f : Fin 8) (g : Fifo → Fifo) : (k.updFifo f g).bps = k.bps := rfl
@[simp] theorem Core.updFifo_rail (k : Core) (f : Fin 8) (g : Fifo → Fifo) : (k.updFifo f g).rail = k.rail := rfl
@[simp] theorem Core.updFifo_reshape (k : Core) (f : Fin 8) (g : Fifo → Fifo) : (k.updFifo f g).reshape = k.reshape := rfl
@[simp] theorem Core.updFifo_chaining (k : Core) (f : Fin 8) (g : Fifo → Fifo) : (k.updFifo f g).chaining = k.chaining := rfl
@[simp] theorem Core.updFifo_startFrom (k : Core) (f : Fin 8) (g : Fifo → Fifo) : (k.updFifo f g).startFrom = k.startFrom := rfl
@[simp] theorem Core.updFifo_chain (k : Core) (f : Fin 8) (g : Fifo → Fifo) : (k.updFifo f g).chain = k.chain := rfl
@[simp] theorem Core.updFifo_chainReq (k : Core) (f : Fin 8) (g : Fifo → Fifo) : (k.updFifo f g).chainReq = k.chainReq := rfl
@[simp] theorem Core.updFifo_hobs (k : Core) (f : Fin 8) (g : Fifo → Fifo) : (k.updFifo f g).hobs = k.hobs := rfl
@[simp] theorem Core.updFifo_breg (k : Core) (f : Fin 8) (g : Fifo → Fifo) : (k.updFifo f g).breg = k.breg := rfl
@[simp] theorem Core.updFifo_csm (k : Core) (f : Fin 8) (g : Fifo → Fifo) : (k.updFifo f g).csm = k.csm := rfl
@[simp] theorem Core.updFifo_copies (k : Core) (f : Fin 8) (g : Fifo → Fifo) : (k.updFifo f g).copies = k.copies := rfl
@[simp] theorem Core.updFifo_nextCopy (k : Core) (f : Fin 8) (g : Fifo → Fifo) : (k.updFifo f g).nextCopy = k.nextCopy := rfl
@[simp] theorem Core.updFifo_colls (k : Core) (f : Fin 8) (g : Fifo → Fifo) : (k.updFifo f g).colls = k.colls := rfl
@[simp] theorem Core.updFifo_used (k : Core) (f : Fin 8) (g : Fifo → Fifo) : (k.updFifo f g).used = k.used := rfl
@[simp] theorem Core.updFifo_hobLines (k : Core) (f : Fin 8) (g : Fifo → Fifo) : (k.updFifo f g).hobLines = k.hobLines := rfl
@[simp] theorem Core.updFifo_damph (k : Core) (f : Fin 8) (g : Fifo → Fifo) : (k.updFifo f g).damph = k.damph := rfl
@[simp] theorem Core.updFifo_dampx (k : Core) (f : Fin 8) (g : Fifo → Fifo) : (k.updFifo f g).dampx = k.dampx := rfl
@[simp] theorem Core.updFifo_left (k : Core) (f : Fin 8) (g : Fifo → Fifo) : (k.updFifo f g).left = k.left := rfl
@[simp] theorem Core.updFifo_poised (k : Core) (f : Fin 8) (g : Fifo → Fifo) : (k.updFifo f g).poised = k.poised := rfl
@[simp] theorem Core.updFifo_caps (k : Core) (f : Fin 8) (g : Fifo → Fifo) : (k.updFifo f g).caps = k.caps := rfl
@[simp] theorem Core.updFifo_fromBelow (k : Core) (f : Fin 8) (g : Fifo → Fifo) : (k.updFifo f g).fromBelow = k.fromBelow := rfl
@[simp] theorem Core.updFifo_fromAbove (k : Core) (f : Fin 8) (g : Fifo → Fifo) : (k.updFifo f g).fromAbove = k.fromAbove := rfl
@[simp] theorem Core.updFifo_takesUp (k : Core) (f : Fin 8) (g : Fifo → Fifo) : (k.updFifo f g).takesUp = k.takesUp := rfl
@[simp] theorem Core.updFifo_takesDown (k : Core) (f : Fin 8) (g : Fifo → Fifo) : (k.updFifo f g).takesDown = k.takesDown := rfl
@[simp] theorem Core.updFifo_putsUp (k : Core) (f : Fin 8) (g : Fifo → Fifo) : (k.updFifo f g).putsUp = k.putsUp := rfl
@[simp] theorem Core.updFifo_putsDown (k : Core) (f : Fin 8) (g : Fifo → Fifo) : (k.updFifo f g).putsDown = k.putsDown := rfl
@[simp] theorem Core.updFifo_flueFree (k : Core) (f : Fin 8) (g : Fifo → Fifo) : (k.updFifo f g).flueFree = k.flueFree := rfl
@[simp] theorem Core.updFifo_engine (k : Core) (f : Fin 8) (g : Fifo → Fifo) : (k.updFifo f g).engine = k.engine := rfl

/-! ### Cores, strands and FIFOs after a write -/

theorem StrandId.num_inj {a b : StrandId} (h : a.num.val = b.num.val) : a = b := by
  cases a <;> cases b <;> first | rfl | (exfalso; revert h; decide)

@[simp] theorem State.core_setCore (s : State) (c : CoreId) (k : Core) : (s.setCore c k).core c = k := by
  simp [State.core, State.setCore]
@[simp] theorem State.core_setCore_ne (s : State) {c d : CoreId} (k : Core) (h : d ≠ c) : (s.setCore c k).core d = s.core d := by
  have : c.val ≠ d.val := fun e => h (Fin.ext e.symm)
  simp [State.core, State.setCore, Vector.getElem_set, this]
@[simp] theorem State.core_updCore (s : State) (c : CoreId) (f : Core → Core) : (s.updCore c f).core c = f (s.core c) := by
  simp [State.updCore]
@[simp] theorem State.core_updCore_ne (s : State) {c d : CoreId} (f : Core → Core) (h : d ≠ c) : (s.updCore c f).core d = s.core d := by
  simp [State.updCore, h]
@[simp] theorem Core.strand_setStrand (k : Core) (st : StrandId) (t : Strand) : (k.setStrand st t).strand st = t := by
  simp [Core.strand, Core.setStrand]
@[simp] theorem Core.strand_setStrand_ne (k : Core) {st o : StrandId} (t : Strand) (h : o ≠ st) :
    (k.setStrand st t).strand o = k.strand o := by
  have : st.num.val ≠ o.num.val := fun e => h (StrandId.num_inj e.symm)
  simp [Core.strand, Core.setStrand, Vector.getElem_set, this]
@[simp] theorem Core.strand_updFifo (k : Core) (f : Fin 8) (g : Fifo → Fifo) (st : StrandId) : (k.updFifo f g).strand st = k.strand st := rfl
@[simp] theorem Core.fifo_setStrand (k : Core) (f : Fin 8) (st : StrandId) (t : Strand) : (k.setStrand st t).fifo f = k.fifo f := rfl
@[simp] theorem Core.fifo_updFifo (k : Core) (f : Fin 8) (g : Fifo → Fifo) : (k.updFifo f g).fifo f = g (k.fifo f) := by
  simp [Core.fifo, Core.updFifo]
@[simp] theorem Core.fifo_updFifo_ne (k : Core) {f e : Fin 8} (g : Fifo → Fifo) (h : e ≠ f) : (k.updFifo f g).fifo e = k.fifo e := by
  have : f.val ≠ e.val := fun x => h (Fin.ext x.symm)
  simp [Core.fifo, Core.updFifo, Vector.getElem_set, this]

@[simp] theorem State.core_updStrand (s : State) (c : CoreId) (st : StrandId) (f : Strand → Strand) :
    (s.updStrand c st f).core c = (s.core c).setStrand st (f ((s.core c).strand st)) := by simp [State.updStrand]
@[simp] theorem State.core_updStrand_ne (s : State) {c d : CoreId} (st : StrandId) (f : Strand → Strand) (h : d ≠ c) :
    (s.updStrand c st f).core d = s.core d := by simp [State.updStrand, h]
@[simp] theorem State.strand_updStrand (s : State) (c : CoreId) (st : StrandId) (f : Strand → Strand) :
    (s.updStrand c st f).strand c st = f (s.strand c st) := by simp [State.strand]
theorem State.strand_updStrand_ne (s : State) {c d : CoreId} {st o : StrandId} (f : Strand → Strand) (h : (d, o) ≠ (c, st)) :
    (s.updStrand c st f).strand d o = s.strand d o := by
  by_cases e : d = c
  · subst e
    have : o ≠ st := fun x => h (by rw [x])
    simp [State.strand, this]
  · simp [State.strand, e]

/-- A change of a strand counts by what it makes of that strand. -/
theorem State.updStrand_congr (s : State) (c : CoreId) (st : StrandId) {f g : Strand → Strand} (h : f (s.strand c st) = g (s.strand c st)) :
    s.updStrand c st f = s.updStrand c st g := by
  have : f ((s.core c).strand st) = g ((s.core c).strand st) := h
  simp only [State.updStrand, State.updCore, this]
theorem State.updCore_congr (s : State) (c : CoreId) {f g : Core → Core} (h : f (s.core c) = g (s.core c)) : s.updCore c f = s.updCore c g := by
  simp only [State.updCore, h]

/-! ### The clock of a strand -/

@[simp] theorem State.binding_setCore (s : State) (c : CoreId) (k : Core) (b : Nat) : (s.setCore c k).binding b = s.binding b := rfl
@[simp] theorem State.binding_updCore (s : State) (c : CoreId) (f : Core → Core) (b : Nat) : (s.updCore c f).binding b = s.binding b := rfl
@[simp] theorem State.binding_updStrand (s : State) (c : CoreId) (st : StrandId) (f : Strand → Strand) (b : Nat) :
    (s.updStrand c st f).binding b = s.binding b := rfl

/-- A change of a strand that keeps its level keeps the clock that times it, and the reading of that clock (R349). -/
theorem State.clock_updStrand (s : State) (c : CoreId) (st : StrandId) (f : Strand → Strand) (hf : ∀ t, (f t).level = t.level) :
    (s.updStrand c st f).clock c st = s.clock c st := by
  simp [State.clock, State.bidOf, hf]
theorem State.read_updStrand (s : State) (c : CoreId) (st : StrandId) (f : Strand → Strand) (k : Clock) :
    (s.updStrand c st f).read k = s.read k := by
  cases k with
  | hc => rfl
  | dt b => rfl
  | cyc d =>
    by_cases e : d = c
    · subst e; simp [State.read]
    · simp [State.read, e]
theorem State.now_updStrand (s : State) (c : CoreId) (st : StrandId) (f : Strand → Strand) (hf : ∀ t, (f t).level = t.level) :
    (s.updStrand c st f).now c st = s.now c st := by
  simp [State.now, s.clock_updStrand c st f hf, State.read_updStrand]

/-! ### The calendar -/

@[simp] theorem State.post_cal (s : State) (k : Clock) (d p : Nat) (w : Work) : (s.post k d p w).cal = ⟨k, d, p, s.order, w⟩ :: s.cal := rfl
@[simp] theorem State.core_post (s : State) (k : Clock) (d p : Nat) (w : Work) (c : CoreId) : (s.post k d p w).core c = s.core c := rfl
@[simp] theorem State.strand_post (s : State) (k : Clock) (d p : Nat) (w : Work) (c : CoreId) (st : StrandId) :
    (s.post k d p w).strand c st = s.strand c st := rfl
@[simp] theorem State.clock_post (s : State) (k : Clock) (d p : Nat) (w : Work) (c : CoreId) (st : StrandId) :
    (s.post k d p w).clock c st = s.clock c st := rfl
@[simp] theorem State.now_post (s : State) (k : Clock) (d p : Nat) (w : Work) (c : CoreId) (st : StrandId) :
    (s.post k d p w).now c st = s.now c st := rfl
@[simp] theorem State.core_later (s : State) (c : CoreId) (st : StrandId) (d p : Nat) (w : Work) (e : CoreId) :
    (s.later c st d p w).core e = s.core e := rfl
@[simp] theorem State.strand_later (s : State) (c : CoreId) (st : StrandId) (d p : Nat) (w : Work) (e : CoreId) (o : StrandId) :
    (s.later c st d p w).strand e o = s.strand e o := rfl
theorem State.later_pending (s : State) (c : CoreId) (st : StrandId) (d p : Nat) (w : Work) :
    (s.later c st d p w).Pending (s.clock c st) (s.now c st + d) p w := ⟨s.order, by simp [State.later]⟩
theorem State.Pending.post {s : State} {k : Clock} {d p : Nat} {w : Work} (h : s.Pending k d p w) (k' : Clock) (d' p' : Nat) (w' : Work) :
    (s.post k' d' p' w').Pending k d p w := by
  obtain ⟨n, hn⟩ := h
  exact ⟨n, by simp [hn]⟩
theorem State.Pending.of_cal {s t : State} {k : Clock} {d p : Nat} {w : Work} (h : s.Pending k d p w) (e : t.cal = s.cal) : t.Pending k d p w := by
  obtain ⟨n, hn⟩ := h
  exact ⟨n, by rw [e]; exact hn⟩

/-! ### Storage -/

theorem Core.strands_map_set (v : Vector Strand 4) (i : Fin 4) (t : Strand) (h : t.storage = (v[i.val]).storage) :
    (v.set i.val t).map Strand.storage = v.map Strand.storage := by
  apply Vector.ext
  intro j hj
  simp only [Vector.getElem_map, Vector.getElem_set]
  split
  · next e => subst e; exact h
  · rfl
theorem Core.storage_setStrand (k : Core) (st : StrandId) (t : Strand) (h : t.storage = (k.strand st).storage) :
    (k.setStrand st t).storage = k.storage := by
  unfold Core.storage Core.setStrand
  simp only []
  rw [Core.strands_map_set k.strands st.num t h]
@[simp] theorem Core.storage_updFifo (k : Core) (f : Fin 8) (g : Fifo → Fifo) : (k.updFifo f g).storage = k.storage := rfl
theorem State.storage_setCore (s : State) (c : CoreId) (k : Core) (h : k.storage = (s.core c).storage) :
    (s.setCore c k).storage = s.storage := by
  have e : (s.cores.set c.val k).map Core.storage = s.cores.map Core.storage := by
    apply Vector.ext
    intro j hj
    simp only [Vector.getElem_map, Vector.getElem_set]
    split
    · next e => subst e; exact h
    · rfl
  unfold State.storage State.setCore
  simp only [e]
theorem State.storage_updCore (s : State) (c : CoreId) (f : Core → Core) (h : (f (s.core c)).storage = (s.core c).storage) :
    (s.updCore c f).storage = s.storage := s.storage_setCore c _ h
theorem State.storage_updStrand (s : State) (c : CoreId) (st : StrandId) (f : Strand → Strand)
    (h : (f (s.strand c st)).storage = (s.strand c st).storage) : (s.updStrand c st f).storage = s.storage :=
  s.storage_updCore c _ (Core.storage_setStrand _ st _ h)
@[simp] theorem State.storage_post (s : State) (k : Clock) (d p : Nat) (w : Work) : (s.post k d p w).storage = s.storage := rfl
@[simp] theorem State.storage_later (s : State) (c : CoreId) (st : StrandId) (d p : Nat) (w : Work) : (s.later c st d p w).storage = s.storage := rfl
@[simp] theorem State.storage_laterOn (s : State) (k : Clock) (d p : Nat) (w : Work) : (s.laterOn k d p w).storage = s.storage := rfl
@[simp] theorem State.storage_sometime (s : State) (w : Work) (p : Nat) : (s.sometime w p).storage = s.storage := rfl
@[simp] theorem State.storage_draw (s : State) : s.draw.2.storage = s.storage := rfl
/-- States of equal storage agree in every core's storage, and outside the cores. -/
theorem State.storage_core {s t : State} (h : t.storage = s.storage) (c : CoreId) : (t.core c).storage = (s.core c).storage := by
  have := congrArg (fun u => (u.cores[c.val] : Core)) h
  simpa [State.storage, State.core] using this
theorem State.storage_gm {s t : State} (h : t.storage = s.storage) : t.gm = s.gm := by
  have := congrArg State.gm h
  exact this
theorem Core.storage_strand {k m : Core} (h : m.storage = k.storage) (st : StrandId) : (m.strand st).storage = (k.strand st).storage := by
  have := congrArg (fun u => (u.strands[st.num.val] : Strand)) h
  simpa [Core.storage, Core.strand] using this
theorem Strand.storage_regs {a b : Strand} (h : b.storage = a.storage) : SameRegs a b := by
  constructor
  · exact (congrArg Strand.x h :)
  · exact (congrArg Strand.xs h :)
  · exact (congrArg Strand.level h :)
  · exact (congrArg Strand.fcsr h :)
  · exact (congrArg Strand.sbound h :)
  · exact (congrArg Strand.tcause h :)
  · exact (congrArg Strand.tepc h :)
  · exact (congrArg Strand.tinfo0 h :)
  · exact (congrArg Strand.tinfo1 h :)
  · exact (congrArg Strand.tdt h :)
  · exact (congrArg Strand.tprev h :)
  · exact (congrArg Strand.tlsel h :)
  · exact (congrArg Strand.tscr h :)
  · exact (congrArg Strand.latches h :)
  · exact (congrArg Strand.frames h :)
/-- What equal storage says of a strand's registers. -/
theorem State.storage_regs {s t : State} (h : t.storage = s.storage) (c : CoreId) (st : StrandId) : SameRegs (s.strand c st) (t.strand c st) :=
  Strand.storage_regs (Core.storage_strand (State.storage_core h c) st)
theorem Core.storage_coreRegs {a b : Core} (h : b.storage = a.storage) : SameCoreRegs a b := by
  constructor
  · exact (congrArg Core.v h :)
  · exact (congrArg Core.k h :)
  · exact (congrArg Core.q h :)
  · exact (congrArg Core.dom h :)
  · exact (congrArg Core.srseed h :)
  · exact (congrArg Core.gens h :)
  · exact (congrArg Core.earlyrd h :)
theorem Core.storage_coreMem {a b : Core} (h : b.storage = a.storage) : SameCoreMem a b := by
  constructor
  · exact (congrArg Core.ls h :)
  · exact (congrArg Core.wb0 h :)
  · exact (congrArg Core.wb1 h :)
  · exact (congrArg Core.active h :)
  · exact (congrArg Core.acc h :)
  · exact (congrArg Core.code h :)
  · exact (congrArg Core.handler h :)
  · exact (congrArg Core.breg h :)
  · intro hq; exact (congrArg (fun k : Core => (k.hob hq).scales) h :)

end Sys2Proof.Machine
end

