-- ==== Sys2Proof/Laws/Issue.lean ====
section
/-! SUPPORT. What an issue does, said once: an attempt that is ready has its instruction's effect on the issued state; the issued state
differs from the state before only in the strand's record, its FIFOs and the monitors; a result flies. -/

namespace Sys2Proof.Machine

theorem foldl_keeps {σ α : Type} {P : σ → Prop} (f : σ → α → σ) (hf : ∀ u a, P u → P (f u a)) :
    ∀ (l : List α) (s : σ), P s → P (l.foldl f s)
  | [], _, h => h
  | a :: l, s, h => foldl_keeps f hf l (f s a) (hf s a h)

/-! ### What equal storage fixes -/

section
variable {s t : State} (h : t.storage = s.storage)
include h

theorem State.storage_hc : t.hc = s.hc := (congrArg State.hc h :)
theorem State.storage_bindings : t.bindings = s.bindings := (congrArg State.bindings h :)
theorem State.storage_xlate : t.xlate = s.xlate := (congrArg State.xlate h :)
theorem State.storage_todo : t.todo = s.todo := (congrArg State.todo h :)
theorem State.storage_cur : t.cur = s.cur := (congrArg State.cur h :)
theorem State.storage_task (c : CoreId) : (t.core c).task = (s.core c).task := (congrArg Core.task (State.storage_core h c) :)
theorem State.storage_cyc (c : CoreId) : (t.core c).cyc = (s.core c).cyc := (congrArg Core.cyc (State.storage_core h c) :)
theorem State.storage_level (c : CoreId) (st : StrandId) : (t.strand c st).level = (s.strand c st).level :=
  (State.storage_regs h c st).level
theorem State.storage_bidOf (c : CoreId) : t.bidOf c = s.bidOf c := by simp [State.bidOf, State.storage_task h]
theorem State.storage_clock (c : CoreId) (st : StrandId) : t.clock c st = s.clock c st := by
  simp [State.clock, State.storage_level h, State.storage_bidOf h]
theorem State.storage_read (k : Clock) : t.read k = s.read k := by
  cases k <;> simp [State.read, State.storage_hc h, State.binding, State.storage_bindings h, State.storage_cyc h]
theorem State.storage_now (c : CoreId) (st : StrandId) : t.now c st = s.now c st := by
  simp [State.now, State.storage_clock h, State.storage_read h]
theorem State.storage_dt (c : CoreId) : t.dt c = s.dt c := by
  simp [State.dt, State.bindingOf, State.binding, State.storage_bindings h, State.storage_task h]
theorem State.storage_fetchMem (c : CoreId) (st : StrandId) : t.fetchMem c st = s.fetchMem c st := by
  have e := Core.storage_coreMem (State.storage_core h c)
  simp [State.fetchMem, Core.store, State.storage_level h, e.code, e.handler]
theorem State.storage_x (c : CoreId) (st : StrandId) (r : XReg) : t.x c st r = s.x c st r := by
  have e := State.storage_regs h c st
  simp [State.x, Strand.rx, e.x, e.xs, e.level]
end

/-! ### Monitors -/

/-- A strand without its pending interrupt. -/
def Strand.quiet (t : Strand) : Strand := { t with ipend := none }
/-- What a monitor's record leaves alone: all storage, the calendar, the FIFOs, and every strand but its pending interrupt. -/
structure Kept (s t : State) : Prop where
  storage : t.storage = s.storage
  cal : t.cal = s.cal
  fifos : ∀ c, (t.core c).fifos = (s.core c).fifos
  quiet : ∀ c st, (t.strand c st).quiet = (s.strand c st).quiet

theorem Kept.refl (s : State) : Kept s s := ⟨rfl, rfl, fun _ => rfl, fun _ _ => rfl⟩
theorem Kept.trans {s t u : State} (a : Kept s t) (b : Kept t u) : Kept s u :=
  ⟨b.storage.trans a.storage, b.cal.trans a.cal, fun c => (b.fifos c).trans (a.fifos c), fun c st => (b.quiet c st).trans (a.quiet c st)⟩

theorem Kept.discarded (s : State) (c : CoreId) (st : StrandId) (p : Word) : Kept s (s.discarded c st p) := ⟨rfl, rfl, fun _ => rfl, fun _ _ => rfl⟩

theorem Kept.interruptTo (s : State) (c : CoreId) (st : StrandId) (src : Bool) (p : Word) : Kept s (s.interruptTo c st src p) := by
  unfold State.interruptTo
  split
  · exact .discarded s c st p
  · refine ⟨State.storage_updStrand s c st _ rfl, rfl, fun d => ?_, fun d o => ?_⟩
    · by_cases e : d = c
      · subst e; simp
      · simp [e]
    · by_cases e : (d, o) = (c, st)
      · cases e; simp [Strand.quiet]
      · rw [State.strand_updStrand_ne _ _ e]

theorem Kept.caps (s : State) (c : CoreId) (f : Core → Vector Cap 4) : Kept s (s.updCore c fun m => { m with caps := f m }) := by
  refine ⟨State.storage_updCore s c _ rfl, rfl, fun d => ?_, fun d o => ?_⟩
  · by_cases e : d = c
    · subst e; simp
    · simp [e]
  · by_cases e : d = c
    · subst e; simp [State.strand, Core.strand]
    · simp [State.strand, e]

theorem Kept.draw (s : State) : Kept s s.draw.2 := ⟨rfl, rfl, fun _ => rfl, fun _ _ => rfl⟩

/-- Everything that recording a value in the monitors can do. -/
theorem Kept.capture (s : State) (c : CoreId) (sel : Nat) (o : Option StrandId) (v : Nat) : Kept s (s.capture c sel o v) := by
  unfold State.capture
  refine foldl_keeps (P := Kept s) _ (fun u n hu => hu.trans ?_) _ s (.refl s)
  simp only []
  split
  · split
    · exact ((Kept.caps u c _).trans (Kept.draw _)).trans (Kept.interruptTo _ _ _ _ _)
    · exact Kept.caps u c _
  · exact .refl u

/-! ### The issued state -/

section
variable {s t : State} (h : Kept s t) (c : CoreId) (st : StrandId)
include h
theorem Kept.flights : (t.strand c st).flights = (s.strand c st).flights := (congrArg Strand.flights (h.quiet c st) :)
theorem Kept.ord : (t.strand c st).ord = (s.strand c st).ord := (congrArg Strand.ord (h.quiet c st) :)
theorem Kept.pos : (t.strand c st).pos = (s.strand c st).pos := (congrArg Strand.pos (h.quiet c st) :)
theorem Kept.reach : (t.strand c st).reach = (s.strand c st).reach := (congrArg Strand.reach (h.quiet c st) :)
theorem Kept.loops : (t.strand c st).loops = (s.strand c st).loops := (congrArg Strand.loops (h.quiet c st) :)
theorem Kept.seq : (t.strand c st).seq = (s.strand c st).seq := (congrArg Strand.seq (h.quiet c st) :)
theorem Kept.outs : (t.strand c st).outs = (s.strand c st).outs := (congrArg Strand.outs (h.quiet c st) :)
theorem Kept.holds : (t.strand c st).holds = (s.strand c st).holds := (congrArg Strand.holds (h.quiet c st) :)
theorem Kept.seen : (t.strand c st).seen = (s.strand c st).seen := (congrArg Strand.seen (h.quiet c st) :)
theorem Kept.due : (t.strand c st).due = (s.strand c st).due := (congrArg Strand.due (h.quiet c st) :)
theorem Kept.wait : (t.strand c st).wait = (s.strand c st).wait := (congrArg Strand.wait (h.quiet c st) :)
theorem Kept.run : (t.strand c st).run = (s.strand c st).run := (congrArg Strand.run (h.quiet c st) :)
theorem Kept.lastCall : (t.strand c st).lastCall = (s.strand c st).lastCall := (congrArg Strand.lastCall (h.quiet c st) :)
theorem Kept.fifo (f : Fin 8) : (t.core c).fifo f = (s.core c).fifo f := by simp [Core.fifo, h.fifos]
theorem Kept.loopStep : loopStep (t.fetchMem c st) (t.strand c st) = loopStep (s.fetchMem c st) (s.strand c st) := by
  have e1 := State.storage_fetchMem h.storage c st
  have e2 := h.pos c st
  have e3 := h.loops c st
  simp only [Sys2Proof.Machine.loopStep, e1, e2, e3]
theorem Kept.popped (hd : Hdr) (r : Req) : (t.core c).popped st hd r = (s.core c).popped st hd r := by
  simp [Core.popped, Core.fifo, h.fifos]
end

/-- The state that `advance` starts from at an issue: the one before it, or with the wait recorded for the monitors (R388). -/
theorem State.issued_eq (s : State) (c : CoreId) (st : StrandId) (h : Hdr) (r : Req) :
    ∃ u, Kept s u ∧ s.issued c st h r = u.advance c st h r := by
  unfold State.issued
  simp only []
  split
  · exact ⟨_, Kept.capture s c 1 (some st) _, rfl⟩
  · exact ⟨s, .refl s, rfl⟩

theorem foldl_setFifos_storage (g : Nat → Fifo → Fifo) : ∀ (l : List (Fin 8 × Nat)) (k : Core),
    (l.foldl (fun k (p : Fin 8 × Nat) => k.updFifo p.1 (g p.2)) k).storage = k.storage
  | [], _ => rfl
  | p :: l, k => (foldl_setFifos_storage g l (k.updFifo p.1 (g p.2))).trans rfl
theorem foldl_setFifos_strands (g : Nat → Fifo → Fifo) : ∀ (l : List (Fin 8 × Nat)) (k : Core),
    (l.foldl (fun k (p : Fin 8 × Nat) => k.updFifo p.1 (g p.2)) k).strands = k.strands
  | [], _ => rfl
  | p :: l, k => (foldl_setFifos_strands g l (k.updFifo p.1 (g p.2))).trans rfl

theorem Strand.learn_storage (k : Core) (t : Strand) (ps : List (Fin 8 × Token)) : (Strand.learn k t ps).storage = t.storage := rfl

/-- The core that an issue leaves: its FIFOs popped and reserved, then its strand moved on. -/
theorem State.advance_eq (s : State) (c : CoreId) (st : StrandId) (h : Hdr) (r : Req) :
    ∃ k : Core, k.strands = (s.core c).strands ∧ k.storage = (s.core c).storage ∧
      s.advance c st h r = s.setCore c (k.setStrand st
        (Strand.learn (s.core c) { s.strand c st with
            pos := (if r.transfers then ((s.strand c st).pos, (s.strand c st).reach, (s.strand c st).loops) else loopStep (s.fetchMem c st) (s.strand c st)).1
            reach := (if r.transfers then ((s.strand c st).pos, (s.strand c st).reach, (s.strand c st).loops) else loopStep (s.fetchMem c st) (s.strand c st)).2.1
            loops := (if r.transfers then ((s.strand c st).pos, (s.strand c st).reach, (s.strand c st).loops) else loopStep (s.fetchMem c st) (s.strand c st)).2.2
            prev := some (s.now c st), base := s.now c st + 1, ord := (s.strand c st).ord + 1, blocked := none }
          ((s.core c).popped st h r))) := by
  let k1 : Core := (r.allPops st h).foldl (fun k (p : Fin 8 × Nat) => k.updFifo p.1 (·.pop p.2)) (s.core c)
  let k2 : Core := (r.allPushes st h).foldl (fun k (p : Fin 8 × Nat) => k.updFifo p.1 (·.reserve p.2)) k1
  have e : k2.strands = (s.core c).strands :=
    (foldl_setFifos_strands (fun n f => f.reserve n) _ k1).trans (foldl_setFifos_strands (fun n f => f.pop n) _ (s.core c))
  refine ⟨k2, e, (foldl_setFifos_storage (fun n f => f.reserve n) _ k1).trans (foldl_setFifos_storage (fun n f => f.pop n) _ (s.core c)), ?_⟩
  have e' : k2.strand st = s.strand c st := by simp [Core.strand, State.strand, e]
  rw [← e']
  rfl

theorem State.advance_storage (s : State) (c : CoreId) (st : StrandId) (h : Hdr) (r : Req) : (s.advance c st h r).storage = s.storage := by
  obtain ⟨k, e, e', hk⟩ := s.advance_eq c st h r
  rw [hk]
  refine State.storage_setCore s c _ ((Core.storage_setStrand k st _ ?_).trans e')
  rw [Strand.learn_storage]
  simp [Core.strand, State.strand, e, Strand.storage]

/-- The strand that an issue leaves, but for what it learns from tokens. -/
theorem State.advance_strand (s : State) (c : CoreId) (st : StrandId) (h : Hdr) (r : Req) :
    (s.advance c st h r).strand c st = Strand.learn (s.core c) { s.strand c st with
            pos := (if r.transfers then ((s.strand c st).pos, (s.strand c st).reach, (s.strand c st).loops) else loopStep (s.fetchMem c st) (s.strand c st)).1
            reach := (if r.transfers then ((s.strand c st).pos, (s.strand c st).reach, (s.strand c st).loops) else loopStep (s.fetchMem c st) (s.strand c st)).2.1
            loops := (if r.transfers then ((s.strand c st).pos, (s.strand c st).reach, (s.strand c st).loops) else loopStep (s.fetchMem c st) (s.strand c st)).2.2
            prev := some (s.now c st), base := s.now c st + 1, ord := (s.strand c st).ord + 1, blocked := none }
          ((s.core c).popped st h r) := by
  obtain ⟨k, e, e', hk⟩ := s.advance_eq c st h r
  rw [hk]
  simp [State.strand]

section
variable (s : State) (c : CoreId) (st : StrandId) (h : Hdr) (r : Req)

@[simp] theorem State.issued_storage : (s.issued c st h r).storage = s.storage := by
  obtain ⟨u, hu, e⟩ := s.issued_eq c st h r
  rw [e, State.advance_storage, hu.storage]
@[simp] theorem State.issued_now : (s.issued c st h r).now c st = s.now c st := State.storage_now (s.issued_storage c st h r) c st
@[simp] theorem State.issued_clock : (s.issued c st h r).clock c st = s.clock c st := State.storage_clock (s.issued_storage c st h r) c st
@[simp] theorem State.issued_level : ((s.issued c st h r).strand c st).level = (s.strand c st).level :=
  State.storage_level (s.issued_storage c st h r) c st
@[simp] theorem State.issued_fetchMem : (s.issued c st h r).fetchMem c st = s.fetchMem c st :=
  State.storage_fetchMem (s.issued_storage c st h r) c st
@[simp] theorem State.issued_cal : (s.issued c st h r).cal = s.cal := by
  obtain ⟨u, hu, e⟩ := s.issued_eq c st h r
  rw [e, ← hu.cal]; rfl
@[simp] theorem State.issued_flights : ((s.issued c st h r).strand c st).flights = (s.strand c st).flights := by
  obtain ⟨u, hu, e⟩ := s.issued_eq c st h r
  rw [e, State.advance_strand, ← hu.flights]; rfl
@[simp] theorem State.issued_ord : ((s.issued c st h r).strand c st).ord = (s.strand c st).ord + 1 := by
  obtain ⟨u, hu, e⟩ := s.issued_eq c st h r
  rw [e, State.advance_strand, ← hu.ord]; rfl
@[simp] theorem State.issued_prev : ((s.issued c st h r).strand c st).prev = some (s.now c st) := by
  obtain ⟨u, hu, e⟩ := s.issued_eq c st h r
  rw [e, State.advance_strand, ← State.storage_now hu.storage]; rfl
@[simp] theorem State.issued_base : ((s.issued c st h r).strand c st).base = s.now c st + 1 := by
  obtain ⟨u, hu, e⟩ := s.issued_eq c st h r
  rw [e, State.advance_strand, ← State.storage_now hu.storage]; rfl
@[simp] theorem State.issued_seq : ((s.issued c st h r).strand c st).seq = (s.strand c st).seq := by
  obtain ⟨u, hu, e⟩ := s.issued_eq c st h r
  rw [e, State.advance_strand, ← hu.seq]; rfl
@[simp] theorem State.issued_outs : ((s.issued c st h r).strand c st).outs = (s.strand c st).outs := by
  obtain ⟨u, hu, e⟩ := s.issued_eq c st h r
  rw [e, State.advance_strand, ← hu.outs]; rfl
@[simp] theorem State.issued_holds : ((s.issued c st h r).strand c st).holds = (s.strand c st).holds := by
  obtain ⟨u, hu, e⟩ := s.issued_eq c st h r
  rw [e, State.advance_strand, ← hu.holds]; rfl
@[simp] theorem State.issued_wait : ((s.issued c st h r).strand c st).wait = (s.strand c st).wait := by
  obtain ⟨u, hu, e⟩ := s.issued_eq c st h r
  rw [e, State.advance_strand, ← hu.wait]; rfl
@[simp] theorem State.issued_run : ((s.issued c st h r).strand c st).run = (s.strand c st).run := by
  obtain ⟨u, hu, e⟩ := s.issued_eq c st h r
  rw [e, State.advance_strand, ← hu.run]; rfl
@[simp] theorem State.issued_lastCall : ((s.issued c st h r).strand c st).lastCall = (s.strand c st).lastCall := by
  obtain ⟨u, hu, e⟩ := s.issued_eq c st h r
  rw [e, State.advance_strand, ← hu.lastCall]; rfl
/-- An issue without a transfer leaves the strand at the next position (R165, R170). -/
theorem State.issued_place (hr : r.transfers = false) :
    (((s.issued c st h r).strand c st).pos, ((s.issued c st h r).strand c st).reach, ((s.issued c st h r).strand c st).loops) =
      loopStep (s.fetchMem c st) (s.strand c st) := by
  obtain ⟨u, hu, e⟩ := s.issued_eq c st h r
  rw [e, State.advance_strand, ← hu.loopStep c st, hr]; rfl
/-- A transfer moves the strand itself; before it the strand stands where it did. -/
theorem State.issued_stays (hr : r.transfers = true) :
    (((s.issued c st h r).strand c st).pos, ((s.issued c st h r).strand c st).reach, ((s.issued c st h r).strand c st).loops) =
      ((s.strand c st).pos, (s.strand c st).reach, (s.strand c st).loops) := by
  obtain ⟨u, hu, e⟩ := s.issued_eq c st h r
  rw [e, State.advance_strand, ← hu.pos, ← hu.reach, ← hu.loops, hr]; rfl
theorem State.issued_advanced (hr : r.transfers = false) : s.Advanced (s.issued c st h r) c st := by
  have e := s.issued_place c st h r hr
  exact ⟨s.issued_prev c st h r, s.issued_base c st h r, s.issued_ord c st h r, congrArg (·.1) e, congrArg (·.2.1) e, congrArg (·.2.2) e⟩

/-- The FIFOs that an issue leaves (R37, R39). -/
theorem State.issued_fifo (s : State) (c : CoreId) (st : StrandId) (h : Hdr) (r : Req) (f : Fin 8) :
    ((s.issued c st h r).core c).fifo f =
      (((((s.core c).updFifo (popFifo st false) (·.pop (h.pbp.toNat + (assocGet r.pops (popFifo st false)).getD 0))).updFifo
        (popFifo st true) (·.pop (h.pbn.toNat + (assocGet r.pops (popFifo st true)).getD 0))).updFifo
        (pushFifo st false) (·.reserve (h.pap.toNat + (assocGet r.pushes (pushFifo st false)).getD 0))).updFifo
        (pushFifo st true) (·.reserve (h.pan.toNat + (assocGet r.pushes (pushFifo st true)).getD 0))).fifo f := by
  obtain ⟨u, hu, e⟩ := s.issued_eq c st h r
  rw [e]
  have : (u.core c).fifos = (s.core c).fifos := hu.fifos c
  unfold State.advance
  simp only [Req.allPops, Req.allPushes, List.foldl_cons, List.foldl_nil, State.core_updCore, Core.fifo_setStrand]
  simp only [Core.fifo, Core.updFifo, this]

/-! ### The turn -/

@[simp] theorem State.turn_c : (s.turn c st h r).c = c := rfl
@[simp] theorem State.turn_st : (s.turn c st h r).st = st := rfl
@[simp] theorem State.turn_h : (s.turn c st h r).h = h := rfl
@[simp] theorem State.turn_now : (s.turn c st h r).now = s.now c st := rfl
@[simp] theorem State.turn_pos : (s.turn c st h r).pos = (s.strand c st).pos := rfl
@[simp] theorem State.turn_sys : (s.turn c st h r).sys = (s.strand c st).level := rfl
@[simp] theorem State.turn_ord : (s.turn c st h r).ord = (s.strand c st).ord := rfl
@[simp] theorem State.turn_prev : (s.turn c st h r).prev = (s.strand c st).prev := rfl
@[simp] theorem State.turn_loops : (s.turn c st h r).loops = (s.strand c st).loops := rfl
@[simp] theorem State.turn_pops : (s.turn c st h r).pops = (s.core c).popped st h r := rfl

end

/-! ### An attempt that is ready -/

/-- What an attempt does when the conditions of issue hold: the instruction has its effect on the issued state. -/
theorem State.attempt_ready {s : State} {c : CoreId} {st : StrandId} {h : Hdr} {r : Req} (hr : s.ready c st h r)
    (act : Turn → State → State) : s.attempt c st h r act = act (s.turn c st h r) (s.issued c st h r) := by
  obtain ⟨h1, h2, h3, h4, h5, h6⟩ := hr
  have hj : r.judge (s.core c) (s.strand c st) st h = .go := by simp [Req.judge, h3, h4, h5]
  unfold State.attempt
  simp only [Nat.not_lt.mpr h1, if_false, h2]
  split
  · next w hw =>
    rw [hw] at h6
    obtain ⟨a, b⟩ := h6
    have e : earliest h (s.strand c st) = (s.strand c st).base := by simp [earliest, hw]
    rw [e, if_neg (by omega), if_neg (by omega), hj]
  · next d hd =>
    rw [hd] at h6
    rw [if_neg h6, hj]

/-- An instruction that issues answers the next state that its effect leaves. -/
theorem issue_ready {s : State} {c : CoreId} {st : StrandId} {h : Hdr} {r : Req} (hi : s.Issues c st h r) (act : Turn → State → State) :
    issue h r act s = .next (act (s.turn c st h r) (s.issued c st h r)) := by
  obtain ⟨hc, hr⟩ := hi
  simp [issue, hc, State.attempt_ready hr]

/-- The same for an instruction whose fault and resource checks find nothing. -/
theorem issue_when {s : State} {c : CoreId} {st : StrandId} {h : Hdr} {r : Req} {f : Option TrapInfo} {b : Option (Nat × Word × Nat)}
    {k : Option Nat} (hi : s.Issues c st h r) (hf : f = none) (hb : b = none) (hk : k = none) (he : r.fault = none) (hbr : r.busy = none)
    (hil : r.ill = none) (act : Turn → State → State) :
    issue h { r with fault := f, busy := b, ill := k } act s = .next (act (s.turn c st h r) (s.issued c st h r)) := by
  subst hf hb hk
  have e : ({ r with fault := none, busy := none, ill := none } : Req) = r := by cases r; simp_all
  rw [e]
  exact issue_ready hi act

/-! ### The registers of the strand whose turn it is -/

theorem State.Issues.me {s : State} {c : CoreId} {st : StrandId} {h : Hdr} {r : Req} (hi : s.Issues c st h r) : s.me = (c, st) := by
  simp [State.me, hi.1]
theorem State.Issues.mine {s : State} {c : CoreId} {st : StrandId} {h : Hdr} {r : Req} (hi : s.Issues c st h r) : s.mine = s.strand c st := by
  simp [State.mine, hi.me]
theorem State.Issues.reg {s : State} {c : CoreId} {st : StrandId} {h : Hdr} {r : Req} (hi : s.Issues c st h r) (a : XReg) :
    s.reg a = s.x c st a := by simp [State.reg, State.x, hi.mine]

/-! ### Results -/

/-- Everything that putting a result in flight does. -/
theorem State.fly_spec (s : State) (c : CoreId) (st : StrandId) (lat : Nat) (r : Result) (ready arith : Bool) :
    let t := s.fly c st lat r ready arith
    t.strand c st = { s.strand c st with flights := (s.strand c st).flights ++ [⟨r.ord, s.now c st + lat, r, ready, (s.strand c st).level, arith, []⟩] } ∧
    t.storage = s.storage ∧ (ready = true → t.Pending (s.clock c st) (s.now c st + lat) (writePrio st r.ord) (.flight c st r.ord)) ∧
    (∀ k d p w, s.Pending k d p w → t.Pending k d p w) := by
  intro t
  have hu : ∀ g : Strand → Strand, (∀ x, (g x).storage = x.storage) → (s.updStrand c st g).storage = s.storage :=
    fun g hg => State.storage_updStrand s c st g (hg _)
  let u := s.updStrand c st fun t => { t with flights := t.flights ++ [⟨r.ord, s.now c st + lat, r, ready, (s.strand c st).level, arith, []⟩] }
  have hus : u.storage = s.storage := hu _ fun _ => rfl
  have hst : u.strand c st = { s.strand c st with flights := (s.strand c st).flights ++ [⟨r.ord, s.now c st + lat, r, ready, (s.strand c st).level, arith, []⟩] } := by
    simp [u]
  have hclk : u.clock c st = s.clock c st := State.storage_clock hus c st
  have ht : t = if ready then u.post (u.clock c st) (s.now c st + lat) (writePrio st r.ord) (.flight c st r.ord) else u := rfl
  cases ready with
  | true =>
    simp only [if_true] at ht
    rw [ht]
    refine ⟨hst, hus, fun _ => ?_, fun k d p w hw => (State.Pending.of_cal hw rfl).post _ _ _ _⟩
    rw [← hclk]
    exact ⟨u.order, by simp⟩
  | false =>
    simp only [Bool.false_eq_true, if_false] at ht
    rw [ht]
    exact ⟨hst, hus, fun e => absurd e (by decide), fun k d p w hw => State.Pending.of_cal hw rfl⟩

/-- An issue whose effect is one result yields it. -/
theorem State.yieldsIn_of {s u : State} {c : CoreId} {st : StrandId} {h : Hdr} {r : Req} {i : Instr} {lat : Nat} {res : Result} {arith : Bool}
    (v : State) (hr : r.transfers = false) (hv : v.strand c st = (s.issued c st h r).strand c st) (hn : v.now c st = s.now c st)
    (hk : v.clock c st = s.clock c st) (hu : v.storage = u.storage)
    (he : exec i s = .next (v.fly c st lat (s.resultOf c st h res) true arith)) :
    s.YieldsIn u c st h i lat res arith := by
  obtain ⟨h1, h2, h3, -⟩ := v.fly_spec c st lat (s.resultOf c st h res) true arith
  have a := s.issued_advanced c st h r hr
  refine ⟨_, he, ?_, ⟨⟨[], fun _ => rfl, ?_⟩, fun hh => ?_⟩, h2.trans hu⟩
  · constructor <;> rw [h1, hv]
    exacts [a.prev, a.base, a.ord, a.pos, a.reach, a.loops]
  · rw [h1, hv, hn]; simp [State.resultOf]
  · have := h3 hh
    rw [hk, hn] at this
    simpa [State.resultOf] using this
theorem State.yields_of {s : State} {c : CoreId} {st : StrandId} {h : Hdr} {r : Req} {i : Instr} {lat : Nat} {res : Result} {arith : Bool}
    (hr : r.transfers = false) (he : exec i s = .next ((s.issued c st h r).fly c st lat (s.resultOf c st h res) true arith)) :
    s.Yields c st h i lat res arith :=
  State.yieldsIn_of (s.issued c st h r) hr rfl (s.issued_now c st h r) (s.issued_clock c st h r) (s.issued_storage c st h r) he

/-! ### Pushes -/

/-- Everything that the pushes of the token bits can do at issue. -/
theorem State.pushNow_spec (s : State) (u : Turn) :
    (∀ c, (s.pushNow u).core c = s.core c) ∧ (s.pushNow u).storage = s.storage ∧
    (∀ k d p w, s.Pending k d p w → (s.pushNow u).Pending k d p w) ∧
    ((u.h.pap || u.h.pan) = true →
      (s.pushNow u).Pending (s.clock u.c u.st) (s.now u.c u.st) latePrio (.push u.c u.st u.h.pap.toNat u.h.pan.toNat)) ∧
    ((u.h.pap || u.h.pan) = false → s.pushNow u = s) := by
  unfold State.pushNow
  by_cases h : (u.h.pap || u.h.pan) = true
  · rw [if_pos h]
    refine ⟨fun _ => rfl, rfl, fun k d p w hw => hw.post _ _ _ _, fun _ => s.later_pending _ _ 0 _ _, fun h' => ?_⟩
    rw [h] at h'; exact absurd h' (by decide)
  · rw [if_neg h]
    exact ⟨fun _ => rfl, rfl, fun _ _ _ _ hw => hw, fun h' => absurd h' h, fun _ => rfl⟩
@[simp] theorem State.pushNow_core (s : State) (u : Turn) (c : CoreId) : (s.pushNow u).core c = s.core c := (s.pushNow_spec u).1 c
@[simp] theorem State.pushNow_strand (s : State) (u : Turn) (c : CoreId) (st : StrandId) : (s.pushNow u).strand c st = s.strand c st := by
  simp [State.strand]
@[simp] theorem State.pushNow_storage (s : State) (u : Turn) : (s.pushNow u).storage = s.storage := (s.pushNow_spec u).2.1
/-- After an issue the pushes of its token bits are pending in its cycle. -/
theorem State.pushNow_pushes (s : State) (c : CoreId) (st : StrandId) (h : Hdr) (r : Req) :
    s.Pushes ((s.issued c st h r).pushNow (s.turn c st h r)) c st h 0 := by
  intro hp
  have := ((s.issued c st h r).pushNow_spec (s.turn c st h r)).2.2.2.1 hp
  simpa using this

/-! ### The strand and the storage after each shared effect -/

section
variable (v s : State) (c : CoreId) (st : StrandId) (h : Hdr) (r : Req)

@[simp] theorem State.goto_strand (pos : Nat) (rc : Reach) :
    (v.goto (s.turn c st h r) pos rc).strand c st = { v.strand c st with pos := pos, reach := rc } := by simp [State.goto]
@[simp] theorem State.goto_storage (u : Turn) (pos : Nat) (rc : Reach) : (v.goto u pos rc).storage = v.storage :=
  State.storage_updStrand v _ _ _ rfl
@[simp] theorem State.fly_strand (lat : Nat) (res : Result) (ready arith : Bool) : (v.fly c st lat res ready arith).strand c st =
    { v.strand c st with flights := (v.strand c st).flights ++ [⟨res.ord, v.now c st + lat, res, ready, (v.strand c st).level, arith, []⟩] } :=
  (v.fly_spec c st lat res ready arith).1
@[simp] theorem State.fly_storage (lat : Nat) (res : Result) (ready arith : Bool) : (v.fly c st lat res ready arith).storage = v.storage :=
  (v.fly_spec c st lat res ready arith).2.1
@[simp] theorem State.access_strand (load : Bool) (m : MemUnit) (vs : List (Nat × Nat)) : (v.access c st load m vs).strand c st =
    { v.strand c st with seq := (v.strand c st).seq + 1
                         outs := (v.strand c st).outs ++ [⟨(v.strand c st).seq, load, false, m, v.sampling (v.core c).asid vs⟩] } := by
  simp [State.access]
@[simp] theorem State.access_storage (load : Bool) (m : MemUnit) (vs : List (Nat × Nat)) : (v.access c st load m vs).storage = v.storage := State.storage_updStrand v _ _ _ rfl
@[simp] theorem State.addHold_strand (o : Hold) : (v.addHold c st o).strand c st = { v.strand c st with holds := (v.strand c st).holds ++ [o] } := by
  simp [State.addHold]
@[simp] theorem State.addHold_storage (o : Hold) : (v.addHold c st o).storage = v.storage := State.storage_updStrand v _ _ _ rfl
@[simp] theorem State.waitFor_storage (u : Turn) (why : Why) (d : XReg) (acq : Bool) (cond : Nat) : (v.waitFor u why d acq cond).storage = v.storage :=
  State.storage_updStrand v _ _ _ rfl
/-- The wait that an issue puts its strand into (R41). -/
def Turn.waitOf (u : Turn) (t : Strand) (why : Why) (d : XReg) (acq : Bool) (cond : Nat) : Wait :=
  { why := why, start := u.now, bound := boundOf u.h t, pos := u.pos, prev := u.prev, pops := u.pops, loops := u.loops, pushP := u.h.pap
    pushN := u.h.pan, dest := d, ord := u.ord, acq := acq, cond := cond, linked := false, seq := t.seq, unit := .gm, pa := 0 }
theorem State.waitFor_at (u : Turn) (why : Why) (d : XReg) (acq : Bool) (cond : Nat) : (v.waitFor u why d acq cond).strand u.c u.st =
    { v.strand u.c u.st with wait := some (u.waitOf (v.strand u.c u.st) why d acq cond) } := by
  simp [State.waitFor, Turn.waitOf]
@[simp] theorem State.waitFor_strand (why : Why) (d : XReg) (acq : Bool) (cond : Nat) : (v.waitFor (s.turn c st h r) why d acq cond).strand c st =
    { v.strand c st with wait := some ((s.turn c st h r).waitOf (v.strand c st) why d acq cond) } := v.waitFor_at (s.turn c st h r) why d acq cond
@[simp] theorem State.waitFor_silent_strand (why : Why) (d : XReg) (acq : Bool) (cond : Nat) :
    (v.waitFor (s.turn c st h r).silent why d acq cond).strand c st =
      { v.strand c st with wait := some ((s.turn c st h r).silent.waitOf (v.strand c st) why d acq cond) } :=
  v.waitFor_at (s.turn c st h r).silent why d acq cond

variable {v} {k : Clock} {d p : Nat} {w : Work} (hp : v.Pending k d p w)
include hp
theorem State.Pending.fly (lat : Nat) (res : Result) (ready arith : Bool) : (v.fly c st lat res ready arith).Pending k d p w :=
  (v.fly_spec c st lat res ready arith).2.2.2 _ _ _ _ hp
theorem State.Pending.pushNow (u : Turn) : (v.pushNow u).Pending k d p w := (v.pushNow_spec u).2.2.1 _ _ _ _ hp
theorem State.Pending.sometime (w' : Work) (p' : Nat) : (v.sometime w' p').Pending k d p w := by
  obtain ⟨n, hn⟩ := hp
  exact ⟨n, List.mem_cons_of_mem _ hn⟩
omit hp
end

section
variable {s v : State} {c : CoreId} {st : StrandId} {h : Hdr} {r : Req}
/-- Pushes made in the issue cycle, from a state that stores what the one before the issue stores. -/
theorem State.pushes_of (e : v.storage = s.storage) : s.Pushes (v.pushNow (s.turn c st h r)) c st h 0 := by
  intro hp
  have := (v.pushNow_spec (s.turn c st h r)).2.2.2.1 hp
  simp only [State.turn_c, State.turn_st, State.turn_h] at this
  rwa [State.storage_clock e, State.storage_now e] at this
/-- An effect that leaves the strand's place, issue record and loop stack as the issue left them. -/
theorem State.advanced_of (hr : r.transfers = false) (h1 : (v.strand c st).prev = ((s.issued c st h r).strand c st).prev)
    (h2 : (v.strand c st).base = ((s.issued c st h r).strand c st).base) (h3 : (v.strand c st).ord = ((s.issued c st h r).strand c st).ord)
    (h4 : (v.strand c st).pos = ((s.issued c st h r).strand c st).pos) (h5 : (v.strand c st).reach = ((s.issued c st h r).strand c st).reach)
    (h6 : (v.strand c st).loops = ((s.issued c st h r).strand c st).loops) : s.Advanced v c st := by
  have a := s.issued_advanced c st h r hr
  exact ⟨h1.trans a.prev, h2.trans a.base, h3.trans a.ord, h4.trans a.pos, h5.trans a.reach, h6.trans a.loops⟩
/-- A wait after issue is as the instruction states it (R41). -/
theorem State.waitsFor_of {t0 : Strand} {why : Why} {d : XReg} {acq : Bool} {cond : Nat}
    (hw : (v.strand c st).wait = some ((s.turn c st h r).waitOf t0 why d acq cond)) (hb : t0.sbound = (s.strand c st).sbound) :
    s.WaitsFor v c st h why d := by
  refine ⟨_, hw, rfl, rfl, ?_, rfl, rfl, rfl, rfl, rfl⟩
  show boundOf h t0 = _
  simp only [boundOf, hb]
/-- A result in flight from a state that stores what the one before the issue stores. -/
theorem State.flies_of {lat : Nat} {res : Result} {ready arith : Bool} (e : v.storage = s.storage)
    (hf : (v.strand c st).flights = (s.strand c st).flights) (ho : res.ord = (s.strand c st).ord) :
    s.Flies (v.fly c st lat res ready arith) c st lat res ready arith := by
  obtain ⟨h1, -, h3, -⟩ := v.fly_spec c st lat res ready arith
  refine ⟨⟨[], fun _ => rfl, ?_⟩, fun q => ?_⟩
  · rw [h1]
    simp only [hf, ho, State.storage_now e, State.storage_level e]
  · have := h3 q
    rwa [State.storage_clock e, State.storage_now e, ho] at this
/-- What has flown stays so when the strand's results and the calendar's entries stay. -/
theorem State.Flies.mono {t : State} {lat : Nat} {res : Result} {ready arith : Bool} (f : s.Flies v c st lat res ready arith)
    (hf : (t.strand c st).flights = (v.strand c st).flights) (hp : ∀ k d p w, v.Pending k d p w → t.Pending k d p w) :
    s.Flies t c st lat res ready arith := ⟨f.flight.imp fun _ g => ⟨g.1, hf.trans g.2⟩, fun q => hp _ _ _ _ (f.write q)⟩
end

end Sys2Proof.Machine
end

