-- ==== Sys2Proof/Laws/Access.lean ====
section
/-! SUPPORT. What sending an access at issue can do, said once (R102, R106, R164, R182). -/

namespace Sys2Proof.Machine

/-- Work other than an access in a memory queue leaves the queues as they are. -/
theorem State.queueOf_post (v : State) (k : Clock) (d p : Nat) (w : Work) (c : CoreId) (st : StrandId)
    (h : ∀ k e o n q b ns l p f x, w ≠ .queued k e o n q b ns l p f x) : (v.post k d p w).queueOf c st = v.queueOf c st := by
  unfold State.queueOf
  rw [State.post_cal, List.filter_cons_of_neg]
  cases w <;> first | exact absurd rfl (h _ _ _ _ _ _ _ _ _ _ _) | simp
/-- The queues are what the calendar holds. -/
theorem State.queueOf_of_cal {v s : State} (e : v.cal = s.cal) (c : CoreId) (st : StrandId) : v.queueOf c st = s.queueOf c st := by
  unfold State.queueOf
  rw [e]

/-- Everything that entering the memory queue can do. -/
theorem State.dispatch_spec (v : State) (c : CoreId) (st : StrandId) (ord seq : Nat) (storing : Bool) (needs : List Need) (lat prio : Nat)
    (far : Bool) (w : Work) :
    let t := v.dispatch c st ord seq storing needs lat prio far w
    let free := v.Free (v.strand c st) c st needs
    (∀ e, t.core e = v.core e) ∧ t.storage = v.storage ∧ (∀ k d p x, v.Pending k d p x → t.Pending k d p x) ∧
    (free → far = false → t.Pending (v.clock c st) (v.now c st + lat) prio w) ∧
    (free → far = true → ∃ n, t.Pending .hc (v.hc + 1 + Config.delay n) prio w) ∧
    (¬free → t.Pending (v.clock c st) (v.now c st) (queuePrio storing) (.queued (v.clock c st) c st ord seq storing needs lat prio far w)) := by
  intro t free
  unfold t State.dispatch State.leaveQueue
  simp only []
  by_cases h : ((v.strand c st).holds.isEmpty && (v.strand c st).due.isEmpty && (v.queueOf c st).isEmpty && needs.isEmpty) = true
  · have hf : free := by simpa [free, State.Free, and_assoc] using h
    rw [if_pos h]
    cases far with
    | true =>
      exact ⟨fun _ => rfl, rfl, fun _ _ _ _ hp => hp.sometime _ _, fun _ e => absurd e (by decide),
        fun _ _ => ⟨v.choice, v.order, by simp [State.sometime, State.draw]⟩, fun e => absurd hf e⟩
    | false =>
      exact ⟨fun _ => rfl, rfl, fun _ _ _ _ hp => hp.post _ _ _ _, fun _ _ => v.later_pending c st lat prio w,
        fun _ e => absurd e (by decide), fun e => absurd hf e⟩
  · have hf : ¬free := by simpa [free, State.Free, and_assoc] using h
    rw [if_neg h]
    exact ⟨fun _ => rfl, rfl, fun _ _ _ _ hp => hp.post _ _ _ _, fun e => absurd e hf, fun e => absurd e hf,
      fun _ => v.later_pending c st 0 (queuePrio storing) _⟩

section
variable (v : State) (c : CoreId) (st : StrandId) (ord seq : Nat) (storing : Bool) (needs : List Need) (lat prio : Nat) (far : Bool) (w : Work)
@[simp] theorem State.dispatch_core (e : CoreId) : (v.dispatch c st ord seq storing needs lat prio far w).core e = v.core e :=
  (v.dispatch_spec c st ord seq storing needs lat prio far w).1 e
@[simp] theorem State.dispatch_strand (e : CoreId) (o : StrandId) :
    (v.dispatch c st ord seq storing needs lat prio far w).strand e o = v.strand e o := by simp [State.strand]
@[simp] theorem State.dispatch_storage : (v.dispatch c st ord seq storing needs lat prio far w).storage = v.storage :=
  (v.dispatch_spec c st ord seq storing needs lat prio far w).2.1
theorem State.Pending.dispatch {v : State} {k : Clock} {d p : Nat} {x : Work} (h : v.Pending k d p x) (c : CoreId) (st : StrandId) (ord seq : Nat)
    (storing : Bool) (needs : List Need) (lat prio : Nat) (far : Bool) (w : Work) :
    (v.dispatch c st ord seq storing needs lat prio far w).Pending k d p x :=
  (v.dispatch_spec c st ord seq storing needs lat prio far w).2.2.1 _ _ _ _ h
end

section
variable {s v : State} {q : Strand} {c : CoreId} {st : StrandId} {seq lat prio : Nat} {storing : Bool} {needs : List Need} {w : Work}
/-- An access that enters the queue with the holds and needs of `q` is on its way as the instruction states. -/
theorem State.sends_of (e : v.storage = s.storage) (h1 : (v.strand c st).holds = q.holds) (h2 : (v.strand c st).due = q.due)
    (h3 : v.queueOf c st = s.queueOf c st) :
    s.Sends (v.dispatch c st (s.strand c st).ord seq storing needs lat prio false w) q c st seq storing needs lat prio w := by
  obtain ⟨-, -, -, a, -, b⟩ := v.dispatch_spec c st (s.strand c st).ord seq storing needs lat prio false w
  unfold State.Free at a b
  rw [h1, h2, h3, State.storage_clock e, State.storage_now e] at b
  rw [h1, h2, h3, State.storage_clock e, State.storage_now e] at a
  exact ⟨fun f => a f rfl, b⟩
theorem State.sendsFar_of (e : v.hc = s.hc ∧ v.clock c st = s.clock c st ∧ v.now c st = s.now c st) (h1 : (v.strand c st).holds = q.holds)
    (h2 : (v.strand c st).due = q.due) (h3 : v.queueOf c st = s.queueOf c st) :
    s.SendsFar (v.dispatch c st (s.strand c st).ord seq storing [] lat effects true w) q c st seq storing lat w := by
  obtain ⟨-, -, -, -, a, b⟩ := v.dispatch_spec c st (s.strand c st).ord seq storing [] lat effects true w
  unfold State.Free at a b
  rw [h1, h2, h3, e.2.1, e.2.2] at b
  rw [h1, h2, h3, e.1] at a
  exact ⟨fun f => a f rfl, b⟩
theorem State.Sends.mono {t : State} (h : s.Sends v q c st seq storing needs lat prio w) (hp : ∀ k d p x, v.Pending k d p x → t.Pending k d p x) :
    s.Sends t q c st seq storing needs lat prio w := ⟨fun f => hp _ _ _ _ (h.1 f), fun f => hp _ _ _ _ (h.2 f)⟩
theorem State.SendsFar.mono {t : State} (h : s.SendsFar v q c st seq storing lat w) (hp : ∀ k d p x, v.Pending k d p x → t.Pending k d p x) :
    s.SendsFar t q c st seq storing lat w := ⟨fun f => (h.1 f).imp fun _ g => hp _ _ _ _ g, fun f => hp _ _ _ _ (h.2 f)⟩
end

/-! ### Sending at issue -/

section
variable (v s : State) (c : CoreId) (st : StrandId) (h : Hdr) (r : Req) (unit : MemUnit) (addr va : Nat) (op : UnitOp) (lat prio : Nat)
    (needs : List Need)
@[simp] theorem State.sendAs_storage (u : Turn) : (v.sendAs u unit addr va op lat prio needs).storage = v.storage := by simp [State.sendAs]
@[simp] theorem State.sendAs_strand : ∃ load : Bool, (v.sendAs (s.turn c st h r) unit addr va op lat prio needs).strand c st =
    { v.strand c st with seq := (v.strand c st).seq + 1
                         outs := (v.strand c st).outs ++ [⟨(v.strand c st).seq, load, false, unit,
                           v.sampling (v.core c).asid (if unit = .gm then [(va, opSpan op)] else [])⟩] } :=
  ⟨(match op with | .atomic _ _ _ _ => true | _ => false), by simp [State.sendAs] <;> rfl⟩
end

/-! ### What translation caches leave alone -/

theorem Core.contents_storage (k : Core) : k.contents = { k.storage with utlb := [], umiss := 0, walks := 0 } := rfl
/-- Equal storage is equal but for what translation caches. -/
theorem State.contents_of_storage {s t : State} (h : t.storage = s.storage) : t.contents = s.contents := by
  have e : t.cores.map Core.contents = s.cores.map Core.contents := by
    apply Vector.ext
    intro j hj
    have : (t.core ⟨j, hj⟩).storage = (s.core ⟨j, hj⟩).storage := State.storage_core h ⟨j, hj⟩
    simp only [Vector.getElem_map, Core.contents]
    exact congrArg (fun k : Core => { k with utlb := [], umiss := 0, walks := 0 }) this
  have : { t.storage with cores := s.cores.map Core.contents, xlate := { t.xlate with shared := Vector.replicate 4 [] } } =
      { s.storage with cores := s.cores.map Core.contents, xlate := { s.xlate with shared := Vector.replicate 4 [] } } := by
    rw [h, State.storage_xlate h]
  unfold State.contents
  rw [e]
  exact this
theorem State.contents_core {s t : State} (h : t.contents = s.contents) (c : CoreId) : (t.core c).contents = (s.core c).contents := by
  have := congrArg (fun u => (u.cores[c.val] : Core)) h
  simpa [State.contents, State.core] using this
theorem Core.contents_strand {k m : Core} (h : m.contents = k.contents) (st : StrandId) : (m.strand st).storage = (k.strand st).storage := by
  have := congrArg (fun u => (u.strands[st.num.val] : Strand)) h
  simpa [Core.contents, Core.storage, Core.strand] using this
section
variable {s t : State} (h : t.contents = s.contents)
include h
theorem State.contents_regs (c : CoreId) (st : StrandId) : SameRegs (s.strand c st) (t.strand c st) :=
  Strand.storage_regs (Core.contents_strand (State.contents_core h c) st)
theorem State.contents_hc : t.hc = s.hc := (congrArg State.hc h :)
theorem State.contents_gm : t.gm = s.gm := (congrArg State.gm h :)
theorem State.contents_bindings : t.bindings = s.bindings := (congrArg State.bindings h :)
theorem State.contents_task (c : CoreId) : (t.core c).task = (s.core c).task := (congrArg Core.task (State.contents_core h c) :)
theorem State.contents_cyc (c : CoreId) : (t.core c).cyc = (s.core c).cyc := (congrArg Core.cyc (State.contents_core h c) :)
theorem State.contents_clock (c : CoreId) (st : StrandId) : t.clock c st = s.clock c st := by
  simp [State.clock, State.bidOf, State.contents_task h, (State.contents_regs h c st).level]
theorem State.contents_now (c : CoreId) (st : StrandId) : t.now c st = s.now c st := by
  have e := State.contents_clock h c st
  unfold State.now
  rw [e]
  cases s.clock c st <;> simp [State.read, State.binding, State.contents_hc h, State.contents_bindings h, State.contents_cyc h]
theorem State.contents_dt (c : CoreId) : t.dt c = s.dt c := by
  simp [State.dt, State.bindingOf, State.binding, State.contents_bindings h, State.contents_task h]
end

/-- Everything that the TLB lookups of an access can do (R328, R329). -/
theorem State.touch_spec (s : State) (c : CoreId) (va : Nat) :
    (s.touch c va).contents = s.contents ∧ (∀ d o, (s.touch c va).strand d o = s.strand d o) ∧ (s.touch c va).cal = s.cal ∧
    (∀ d, ((s.touch c va).core d).fifos = (s.core d).fifos) := by
  have upd : ∀ (v : State) (u w : Nat) (tlb : List TlbEntry) (sh : Vector (List TlbEntry) 4) (n : Nat), v = { s with choice := n } →
      let t : State := { (v.updCore c fun k => { k with umiss := u, walks := w, utlb := tlb }) with xlate := { s.xlate with shared := sh } }
      t.contents = s.contents ∧ (∀ d o, t.strand d o = s.strand d o) ∧ t.cal = s.cal ∧ (∀ d, (t.core d).fifos = (s.core d).fifos) := by
    intro v u w tlb sh n hv t
    subst hv
    have hc : ∀ d, t.core d = if d = c then { s.core c with umiss := u, walks := w, utlb := tlb } else s.core d := by
      intro d
      by_cases e : d = c
      · subst e
        rw [if_pos rfl]
        exact State.core_updCore ({ s with choice := n } : State) d fun k => { k with umiss := u, walks := w, utlb := tlb }
      · rw [if_neg e]
        exact State.core_updCore_ne ({ s with choice := n } : State) (fun k => { k with umiss := u, walks := w, utlb := tlb }) e
    refine ⟨?_, fun d o => ?_, rfl, fun d => ?_⟩
    · have : t.cores.map Core.contents = s.cores.map Core.contents := by
        apply Vector.ext
        intro j hj
        have := hc ⟨j, hj⟩
        simp only [Vector.getElem_map]
        show (t.core ⟨j, hj⟩).contents = (s.core ⟨j, hj⟩).contents
        rw [this]
        split
        · next e => subst e; rfl
        · rfl
      unfold State.contents
      rw [this]
      rfl
    · simp only [State.strand, hc]
      split
      · next e => subst e; rfl
      · rfl
    · rw [hc]
      split
      · next e => subst e; rfl
      · rfl
  unfold State.touch
  simp only []
  split
  · exact ⟨rfl, fun _ _ => rfl, rfl, fun _ => rfl⟩
  · simp only [State.draw]
    split
    · exact upd _ _ (s.core c).walks _ s.xlate.shared _ rfl
    · split
      · exact upd _ _ _ (s.core c).utlb s.xlate.shared _ rfl
      · exact upd _ _ _ _ _ _ rfl

/-! ### Ordered forms -/

/-- A hold of an acquire or release form, or none (R180). -/
theorem State.ordFence_storage (v : State) (u : Turn) (form : FenceForm) (sc : Option Scope) : (v.ordFence u form sc).storage = v.storage := by
  cases sc <;> simp [State.ordFence, State.fence]

end Sys2Proof.Machine
end

