-- ==== Sys2Proof/Laws/Memory.lean ====
section
/-! SUPPORT. The laws of byte memory: every operation keeps the canonical form, a read after a write, and that equal contents are equal
data. -/

namespace Sys2Proof.Machine

/-- What the canonical form says of the first cell and of the rest. -/
theorem Mem.wfFrom_cons {lo : Option Nat} {a : Nat} {b : Byte} {m : Mem} :
    Mem.wfFrom lo ((a, b) :: m) = true ↔ (∀ l, lo = some l → l < a) ∧ b ≠ 0 ∧ m.wfFrom (some a) = true := by
  cases lo <;> simp [Mem.wfFrom, and_assoc]

/-- A canonical memory above a bound is one above every lower bound, and above none. -/
theorem Mem.wfFrom_mono {m : Mem} {lo lo' : Option Nat} (h : m.wfFrom lo = true) (hl : ∀ l', lo' = some l' → ∃ l, lo = some l ∧ l' ≤ l) :
    m.wfFrom lo' = true := by
  cases m with
  | nil => rfl
  | cons p m =>
    rw [Mem.wfFrom_cons] at h ⊢
    refine ⟨fun l' e => ?_, h.2⟩
    obtain ⟨l, e', hle⟩ := hl l' e
    exact Nat.lt_of_le_of_lt hle (h.1 l e')

/-- Addresses at or below the bound of a canonical memory are not listed. -/
theorem Mem.get_below {m : Mem} {l : Nat} (h : m.wfFrom (some l) = true) {k : Nat} (hk : k ≤ l) : m.get k = 0 := by
  induction m generalizing l with
  | nil => rfl
  | cons p m ih =>
    obtain ⟨a, b⟩ := p
    rw [Mem.wfFrom_cons] at h
    have hla := h.1 l rfl
    have hne : a ≠ k := by omega
    simp only [Mem.get, if_neg hne]
    exact ih h.2.2 (by omega)

/-- Writing a byte keeps the canonical form above any bound below its address. -/
theorem Mem.wfFrom_set {m : Mem} {lo : Option Nat} (h : m.wfFrom lo = true) (k : Nat) (v : Byte) (hk : ∀ l, lo = some l → l < k) :
    (m.set k v).wfFrom lo = true := by
  induction m generalizing lo with
  | nil =>
    unfold Mem.set
    split
    · rfl
    · next hv => exact Mem.wfFrom_cons.mpr ⟨hk, hv, rfl⟩
  | cons p m ih =>
    obtain ⟨a, b⟩ := p
    have h0 := Mem.wfFrom_cons.mp h
    unfold Mem.set
    split
    · next hka =>
      split
      · exact h
      · next hv => exact Mem.wfFrom_cons.mpr ⟨hk, hv, Mem.wfFrom_cons.mpr ⟨fun l e => by cases e; exact hka, h0.2⟩⟩
    · split
      · next hka =>
        subst hka
        split
        · exact Mem.wfFrom_mono h0.2.2 fun l' hl => ⟨k, rfl, Nat.le_of_lt (hk l' hl)⟩
        · next hv => exact Mem.wfFrom_cons.mpr ⟨hk, hv, h0.2.2⟩
      · next h1 h2 =>
        refine Mem.wfFrom_cons.mpr ⟨h0.1, h0.2.1, ih h0.2.2 fun l e => ?_⟩
        cases e
        omega

theorem Mem.wf_set {m : Mem} (h : m.wf = true) (k : Nat) (v : Byte) : (m.set k v).wf = true :=
  Mem.wfFrom_set h k v (fun _ e => nomatch e)
theorem Mem.wf_write {m : Mem} (h : m.wf = true) (a : Nat) (bs : List Byte) : (m.write a bs).wf = true := by
  induction bs generalizing m a with
  | nil => exact h
  | cons b bs ih => exact ih (Mem.wf_set h a b) (a + 1)
theorem Mem.wf_setWord {m : Mem} (h : m.wf = true) (a : Nat) (w : Word) : (m.setWord a w).wf = true := Mem.wf_write h a _
theorem Mem.wf_nil : Mem.wf [] = true := rfl

/-- A byte reads as it was last written, and every other byte as before. -/
theorem Mem.get_setFrom {m : Mem} {lo : Option Nat} (h : m.wfFrom lo = true) (k : Nat) (v : Byte) (j : Nat) :
    (m.set k v).get j = if j = k then v else m.get j := by
  induction m generalizing lo with
  | nil =>
    unfold Mem.set
    split
    · next hv => subst hv; simp [Mem.get]
    · next hv =>
      by_cases e : j = k
      · subst e; simp [Mem.get]
      · have e' : k ≠ j := fun x => e x.symm
        simp [Mem.get, e, e']
  | cons p m ih =>
    obtain ⟨a, b⟩ := p
    rw [Mem.wfFrom_cons] at h
    unfold Mem.set
    split
    · next hka =>
      split
      · next hv =>
        subst hv
        by_cases e : j = k
        · subst e
          have hne : a ≠ j := by omega
          simp only [Mem.get, if_neg hne, if_true]
          exact Mem.get_below h.2.2 (by omega)
        · simp [e]
      · by_cases e : j = k
        · subst e; simp [Mem.get]
        · have e' : k ≠ j := fun x => e x.symm
          simp [Mem.get, e, e']
    · split
      · next hka =>
        subst hka
        split
        · next hv =>
          subst hv
          by_cases e : j = k
          · subst e
            simp only [if_true]
            exact Mem.get_below h.2.2 (Nat.le_refl _)
          · have e' : k ≠ j := fun x => e x.symm
            simp [Mem.get, e, e']
        · by_cases e : j = k
          · subst e; simp [Mem.get]
          · have e' : k ≠ j := fun x => e x.symm
            simp [Mem.get, e, e']
      · next h1 h2 =>
        by_cases e : a = j
        · subst e
          have e' : ¬a = k := fun x => h2 x.symm
          simp [Mem.get, e']
        · simp only [Mem.get, if_neg e]
          exact ih h.2.2

theorem Mem.get_set {m : Mem} (h : m.wf = true) (k : Nat) (v : Byte) (j : Nat) : (m.set k v).get j = if j = k then v else m.get j :=
  Mem.get_setFrom h k v j

/-- After bytes are written, those addresses read as the bytes, and every other address as before. -/
theorem Mem.get_write {m : Mem} (h : m.wf = true) (a : Nat) (bs : List Byte) (j : Nat) :
    (m.write a bs).get j = if a ≤ j then (bs[j - a]?).getD (m.get j) else m.get j := by
  induction bs generalizing m a with
  | nil => simp [Mem.write]
  | cons b bs ih =>
    simp only [Mem.write]
    rw [ih (Mem.wf_set h a b) (a + 1), Mem.get_set h a b]
    by_cases h1 : j = a
    · subst h1; simp
    · by_cases h2 : a ≤ j
      · have h3 : a + 1 ≤ j := by omega
        have h4 : j - a = (j - (a + 1)) + 1 := by omega
        simp [h2, h3, h1, h4]
      · have h3 : ¬a + 1 ≤ j := by omega
        simp [h2, h3, h1]
theorem Mem.get_write_outside {m : Mem} (h : m.wf = true) (a : Nat) (bs : List Byte) (j : Nat) (hj : j < a ∨ a + bs.length ≤ j) :
    (m.write a bs).get j = m.get j := by
  rw [Mem.get_write h]
  split
  · rw [List.getElem?_eq_none (by omega)]; rfl
  · rfl

theorem Mem.length_read (m : Mem) (a n : Nat) : (m.read a n).length = n := by
  induction n generalizing a with
  | zero => rfl
  | succ n ih => simp [Mem.read, ih]

/-- Bytes read where they were written. -/
theorem Mem.read_write {m : Mem} (h : m.wf = true) (a : Nat) (bs : List Byte) : (m.write a bs).read a bs.length = bs := by
  induction bs generalizing m a with
  | nil => rfl
  | cons b bs ih =>
    simp only [Mem.write, List.length_cons, Mem.read]
    rw [ih (Mem.wf_set h a b) (a + 1), Mem.get_write (Mem.wf_set h a b), if_neg (by omega), Mem.get_set h, if_pos rfl]

/-- Equal contents are equal data. -/
theorem Mem.extFrom {m n : Mem} {lo : Option Nat} (hm : m.wfFrom lo = true) (hn : n.wfFrom lo = true) (h : ∀ k, m.get k = n.get k) : m = n := by
  induction m generalizing n lo with
  | nil =>
    cases n with
    | nil => rfl
    | cons p n =>
      obtain ⟨a, b⟩ := p
      rw [Mem.wfFrom_cons] at hn
      exact absurd (by simpa [Mem.get] using (h a).symm) hn.2.1
  | cons p m ih =>
    obtain ⟨a, b⟩ := p
    rw [Mem.wfFrom_cons] at hm
    cases n with
    | nil => exact absurd (by simpa [Mem.get] using h a) hm.2.1
    | cons q n =>
      obtain ⟨c, d⟩ := q
      rw [Mem.wfFrom_cons] at hn
      have hac : a = c := by
        rcases Nat.lt_trichotomy a c with hl | he | hg
        · have := h a
          simp only [Mem.get, if_true, if_neg (show ¬c = a by omega)] at this
          rw [Mem.get_below hn.2.2 (by omega)] at this
          exact absurd this hm.2.1
        · exact he
        · have := h c
          simp only [Mem.get, if_true, if_neg (show ¬a = c by omega)] at this
          rw [Mem.get_below hm.2.2 (by omega)] at this
          exact absurd this.symm hn.2.1
      subst hac
      have hbd : b = d := by simpa [Mem.get] using h a
      subst hbd
      congr 1
      refine ih hm.2.2 hn.2.2 fun k => ?_
      by_cases e : a = k
      · subst e; rw [Mem.get_below hm.2.2 (Nat.le_refl _), Mem.get_below hn.2.2 (Nat.le_refl _)]
      · simpa [Mem.get, e] using h k
theorem Mem.ext_get {m n : Mem} (hm : m.wf = true) (hn : n.wf = true) (h : ∀ k, m.get k = n.get k) : m = n := Mem.extFrom hm hn h

/-- Little-endian bytes and their value. -/
theorem length_leBytes (n v : Nat) : (leBytes n v).length = n := by
  induction n generalizing v with
  | zero => rfl
  | succ n ih => simp [leBytes, ih]
theorem leNat_leBytes (n v : Nat) : leNat (leBytes n v) = v % 256 ^ n := by
  induction n generalizing v with
  | zero => simp [leBytes, leNat, Nat.mod_one]
  | succ n ih =>
    have e : (BitVec.ofNat 8 v).toNat = v % 256 := by simp
    rw [leBytes, leNat, ih, e, Nat.pow_succ, Nat.mul_comm (256 ^ n) 256, Nat.mod_mul]
/-- A word reads as it was written. -/
theorem Mem.word_setWord {m : Mem} (h : m.wf = true) (a : Nat) (w : Word) : (m.setWord a w).word a = w := by
  have e : (m.setWord a w).read a 8 = leBytes 8 w.toNat := by
    have := Mem.read_write h a (leBytes 8 w.toNat)
    rwa [length_leBytes] at this
  apply BitVec.eq_of_toNat_eq
  simp only [Mem.word, e, leNat_leBytes, BitVec.toNat_ofNat]
  have := w.isLt
  omega

end Sys2Proof.Machine
end

