-- ==== Sys2Proof/Laws/PerInstr.lean ====
section
/-! SUPPORT. The per-instruction family RoundTrip: decoding an encoded well-formed instruction gives it back, one lemma per
constructor. -/

set_option linter.unusedSimpArgs false
set_option linter.unnecessarySeqFocus false
set_option linter.unreachableTactic false
set_option linter.unusedTactic false
set_option Elab.async false

namespace Sys2Proof.Laws

/-- The conditions under which an opcode's fields are cut back from their words, one by one. -/
theorem admits {r : Raw} {sh : Shape} {o : BitVec 8} (ho : r.opc = o) (hs : shapeOf o = some sh) (hf : r.fits = true)
    (hb : sh.baseReserved r.d r.a r.b = false) (he : sh.extReserved r = false) (hy : sh.beyond r = false)
    (ht : sh.typed = false → r.t = 0) (hi : sh.immed = false → r.imm = 0) : Admits r sh := by
  subst ho
  refine ⟨hs, hb, he, hy, ht, hi, ?_⟩
  simpa [Raw.fits, hs] using hf
/-- The decoder reads an opcode in its row of eight. -/
theorem build_eq {r : Raw} {o : BitVec 8} {row col : Nat} (ho : r.opc = o) (h1 : o.toNat / 8 = row) (h2 : o.toNat % 8 = col) :
    r.build = buildRow r row col := by
  subst ho h1 h2; rfl
/-- Decoding the words of a well-formed instruction, whatever follows them, gives the instruction back with its number of words:
no field of an encoding is dropped or read from another place (R142-R152). An event has no encoding and is not well formed. -/
def RoundTrip.Statement (i : Instr) : Prop := i.wellFormed = true → ∀ rest, decode (encode i ++ rest) = .ok (i, (encode i).length)
/-- What well-formedness says of an instruction with fields. -/
theorem wf {i : Instr} {r : Raw} (hr : i.toRaw = some r) (h : i.wellFormed = true) : r.fits = true ∧ i.fieldsOk = true := by
  simpa [Instr.wellFormed, hr] using h

theorem RoundTrip.nop (h) : RoundTrip.Statement (.nop h) := by
  intro hw rest
  obtain ⟨hf, hw⟩ := wf rfl hw
  refine decode_encode rfl (admits (sh := ({} : Shape)) (o := 0x00) rfl (by decide) hf
    (by simp [Shape.baseReserved, RegUse.reserved])
    (by simp [-BitVec.extractLsb'_toNat, Shape.extReserved, Raw.fmt, Raw.rm, Raw.sat, Raw.c, Raw.k, Raw.scope, Raw.fn, RegUse.reserved, objTyped])
    (by simp [Shape.beyond, RegUse.beyond, Raw.c]) (fun _ => rfl) (fun _ => rfl)) ?_ rest
  rw [build_eq (o := 0x00) (row := 0x00) (col := 0) rfl (by decide) (by decide)]
  show buildRow00 _ 0 = _
  simp [Instr.fieldsOk, arithOk, Fmt.isFI, scaleOk, accFmt, bandsOk] at hw
  simp only [buildRow00] <;> simp [-BitVec.extractLsb'_toNat, hw, objTyped, Raw.tgt, Raw.im, Raw.intFmt, Raw.sc, Raw.rm5, Raw.fF, Raw.fI, Raw.fFI, Raw.arith, Raw.fma, Raw.unary, Raw.fmt, Raw.dfmt, Raw.rm, Raw.fn, Raw.sat, Raw.k, Raw.c, Raw.scope, must, bind, Except.bind, pure, Except.pure]
theorem RoundTrip.wait (h n) : RoundTrip.Statement (.wait h n) := by
  intro hw rest
  obtain ⟨hf, hw⟩ := wf rfl hw
  refine decode_encode rfl (admits (sh := ({ immed := true, imm := 0xFFFFFFFF } : Shape)) (o := 0x01) rfl (by decide) hf
    (by simp [Shape.baseReserved, RegUse.reserved])
    (by simp [-BitVec.extractLsb'_toNat, Shape.extReserved, Raw.fmt, Raw.rm, Raw.sat, Raw.c, Raw.k, Raw.scope, Raw.fn, RegUse.reserved, objTyped])
    (by simp [Shape.beyond, RegUse.beyond, Raw.c]) (fun _ => rfl) nofun) ?_ rest
  rw [build_eq (o := 0x01) (row := 0x00) (col := 1) rfl (by decide) (by decide)]
  show buildRow00 _ 1 = _
  simp [Instr.fieldsOk, arithOk, Fmt.isFI, scaleOk, accFmt, bandsOk] at hw
  simp only [buildRow00] <;> simp [-BitVec.extractLsb'_toNat, hw, objTyped, Raw.tgt, Raw.im, Raw.intFmt, Raw.sc, Raw.rm5, Raw.fF, Raw.fI, Raw.fFI, Raw.arith, Raw.fma, Raw.unary, Raw.fmt, Raw.dfmt, Raw.rm, Raw.fn, Raw.sat, Raw.k, Raw.c, Raw.scope, must, bind, Except.bind, pure, Except.pure]
theorem RoundTrip.j (h tgt) : RoundTrip.Statement (.j h tgt) := by
  intro hw rest
  obtain ⟨hf, hw⟩ := wf rfl hw
  refine decode_encode rfl (admits (sh := ({ immed := true, imm := 0x7FFF } : Shape)) (o := 0x02) rfl (by decide) hf
    (by simp [Shape.baseReserved, RegUse.reserved])
    (by simp [-BitVec.extractLsb'_toNat, Shape.extReserved, Raw.fmt, Raw.rm, Raw.sat, Raw.c, Raw.k, Raw.scope, Raw.fn, RegUse.reserved, objTyped])
    (by simp [Shape.beyond, RegUse.beyond, Raw.c]) (fun _ => rfl) nofun) ?_ rest
  rw [build_eq (o := 0x02) (row := 0x00) (col := 2) rfl (by decide) (by decide)]
  show buildRow00 _ 2 = _
  simp [Instr.fieldsOk, arithOk, Fmt.isFI, scaleOk, accFmt, bandsOk] at hw
  simp only [buildRow00] <;> simp [-BitVec.extractLsb'_toNat, hw, objTyped, Raw.tgt, Raw.im, Raw.intFmt, Raw.sc, Raw.rm5, Raw.fF, Raw.fI, Raw.fFI, Raw.arith, Raw.fma, Raw.unary, Raw.fmt, Raw.dfmt, Raw.rm, Raw.fn, Raw.sat, Raw.k, Raw.c, Raw.scope, must, bind, Except.bind, pure, Except.pure]
theorem RoundTrip.jr (h a) : RoundTrip.Statement (.jr h a) := by
  intro hw rest
  obtain ⟨hf, hw⟩ := wf rfl hw
  refine decode_encode rfl (admits (sh := ({ a := .x } : Shape)) (o := 0x03) rfl (by decide) hf
    (by simp [Shape.baseReserved, RegUse.reserved])
    (by simp [-BitVec.extractLsb'_toNat, Shape.extReserved, Raw.fmt, Raw.rm, Raw.sat, Raw.c, Raw.k, Raw.scope, Raw.fn, RegUse.reserved, objTyped])
    (by simp [Shape.beyond, RegUse.beyond, Raw.c]) (fun _ => rfl) (fun _ => rfl)) ?_ rest
  rw [build_eq (o := 0x03) (row := 0x00) (col := 3) rfl (by decide) (by decide)]
  show buildRow00 _ 3 = _
  simp [Instr.fieldsOk, arithOk, Fmt.isFI, scaleOk, accFmt, bandsOk] at hw
  simp only [buildRow00] <;> simp [-BitVec.extractLsb'_toNat, hw, objTyped, Raw.tgt, Raw.im, Raw.intFmt, Raw.sc, Raw.rm5, Raw.fF, Raw.fI, Raw.fFI, Raw.arith, Raw.fma, Raw.unary, Raw.fmt, Raw.dfmt, Raw.rm, Raw.fn, Raw.sat, Raw.k, Raw.c, Raw.scope, must, bind, Except.bind, pure, Except.pure]
theorem RoundTrip.beq (h a b tgt) : RoundTrip.Statement (.beq h a b tgt) := by
  intro hw rest
  obtain ⟨hf, hw⟩ := wf rfl hw
  refine decode_encode rfl (admits (sh := (shBr)) (o := 0x04) rfl (by decide) hf
    (by simp [Shape.baseReserved, RegUse.reserved, shBr])
    (by simp [-BitVec.extractLsb'_toNat, Shape.extReserved, Raw.fmt, Raw.rm, Raw.sat, Raw.c, Raw.k, Raw.scope, Raw.fn, RegUse.reserved, objTyped, shBr])
    (by simp [Shape.beyond, RegUse.beyond, Raw.c, shBr]) (fun _ => rfl) nofun) ?_ rest
  rw [build_eq (o := 0x04) (row := 0x00) (col := 4) rfl (by decide) (by decide)]
  show buildRow00 _ 4 = _
  simp [Instr.fieldsOk, arithOk, Fmt.isFI, scaleOk, accFmt, bandsOk] at hw
  simp only [buildRow00] <;> simp [-BitVec.extractLsb'_toNat, hw, objTyped, Raw.tgt, Raw.im, Raw.intFmt, Raw.sc, Raw.rm5, Raw.fF, Raw.fI, Raw.fFI, Raw.arith, Raw.fma, Raw.unary, Raw.fmt, Raw.dfmt, Raw.rm, Raw.fn, Raw.sat, Raw.k, Raw.c, Raw.scope, must, bind, Except.bind, pure, Except.pure]
theorem RoundTrip.bne (h a b tgt) : RoundTrip.Statement (.bne h a b tgt) := by
  intro hw rest
  obtain ⟨hf, hw⟩ := wf rfl hw
  refine decode_encode rfl (admits (sh := (shBr)) (o := 0x05) rfl (by decide) hf
    (by simp [Shape.baseReserved, RegUse.reserved, shBr])
    (by simp [-BitVec.extractLsb'_toNat, Shape.extReserved, Raw.fmt, Raw.rm, Raw.sat, Raw.c, Raw.k, Raw.scope, Raw.fn, RegUse.reserved, objTyped, shBr])
    (by simp [Shape.beyond, RegUse.beyond, Raw.c, shBr]) (fun _ => rfl) nofun) ?_ rest
  rw [build_eq (o := 0x05) (row := 0x00) (col := 5) rfl (by decide) (by decide)]
  show buildRow00 _ 5 = _
  simp [Instr.fieldsOk, arithOk, Fmt.isFI, scaleOk, accFmt, bandsOk] at hw
  simp only [buildRow00] <;> simp [-BitVec.extractLsb'_toNat, hw, objTyped, Raw.tgt, Raw.im, Raw.intFmt, Raw.sc, Raw.rm5, Raw.fF, Raw.fI, Raw.fFI, Raw.arith, Raw.fma, Raw.unary, Raw.fmt, Raw.dfmt, Raw.rm, Raw.fn, Raw.sat, Raw.k, Raw.c, Raw.scope, must, bind, Except.bind, pure, Except.pure]
theorem RoundTrip.blt (h a b tgt) : RoundTrip.Statement (.blt h a b tgt) := by
  intro hw rest
  obtain ⟨hf, hw⟩ := wf rfl hw
  refine decode_encode rfl (admits (sh := (shBr)) (o := 0x06) rfl (by decide) hf
    (by simp [Shape.baseReserved, RegUse.reserved, shBr])
    (by simp [-BitVec.extractLsb'_toNat, Shape.extReserved, Raw.fmt, Raw.rm, Raw.sat, Raw.c, Raw.k, Raw.scope, Raw.fn, RegUse.reserved, objTyped, shBr])
    (by simp [Shape.beyond, RegUse.beyond, Raw.c, shBr]) (fun _ => rfl) nofun) ?_ rest
  rw [build_eq (o := 0x06) (row := 0x00) (col := 6) rfl (by decide) (by decide)]
  show buildRow00 _ 6 = _
  simp [Instr.fieldsOk, arithOk, Fmt.isFI, scaleOk, accFmt, bandsOk] at hw
  simp only [buildRow00] <;> simp [-BitVec.extractLsb'_toNat, hw, objTyped, Raw.tgt, Raw.im, Raw.intFmt, Raw.sc, Raw.rm5, Raw.fF, Raw.fI, Raw.fFI, Raw.arith, Raw.fma, Raw.unary, Raw.fmt, Raw.dfmt, Raw.rm, Raw.fn, Raw.sat, Raw.k, Raw.c, Raw.scope, must, bind, Except.bind, pure, Except.pure]
theorem RoundTrip.bge (h a b tgt) : RoundTrip.Statement (.bge h a b tgt) := by
  intro hw rest
  obtain ⟨hf, hw⟩ := wf rfl hw
  refine decode_encode rfl (admits (sh := (shBr)) (o := 0x07) rfl (by decide) hf
    (by simp [Shape.baseReserved, RegUse.reserved, shBr])
    (by simp [-BitVec.extractLsb'_toNat, Shape.extReserved, Raw.fmt, Raw.rm, Raw.sat, Raw.c, Raw.k, Raw.scope, Raw.fn, RegUse.reserved, objTyped, shBr])
    (by simp [Shape.beyond, RegUse.beyond, Raw.c, shBr]) (fun _ => rfl) nofun) ?_ rest
  rw [build_eq (o := 0x07) (row := 0x00) (col := 7) rfl (by decide) (by decide)]
  show buildRow00 _ 7 = _
  simp [Instr.fieldsOk, arithOk, Fmt.isFI, scaleOk, accFmt, bandsOk] at hw
  simp only [buildRow00] <;> simp [-BitVec.extractLsb'_toNat, hw, objTyped, Raw.tgt, Raw.im, Raw.intFmt, Raw.sc, Raw.rm5, Raw.fF, Raw.fI, Raw.fFI, Raw.arith, Raw.fma, Raw.unary, Raw.fmt, Raw.dfmt, Raw.rm, Raw.fn, Raw.sat, Raw.k, Raw.c, Raw.scope, must, bind, Except.bind, pure, Except.pure]
theorem RoundTrip.bltu (h a b tgt) : RoundTrip.Statement (.bltu h a b tgt) := by
  intro hw rest
  obtain ⟨hf, hw⟩ := wf rfl hw
  refine decode_encode rfl (admits (sh := (shBr)) (o := 0x08) rfl (by decide) hf
    (by simp [Shape.baseReserved, RegUse.reserved, shBr])
    (by simp [-BitVec.extractLsb'_toNat, Shape.extReserved, Raw.fmt, Raw.rm, Raw.sat, Raw.c, Raw.k, Raw.scope, Raw.fn, RegUse.reserved, objTyped, shBr])
    (by simp [Shape.beyond, RegUse.beyond, Raw.c, shBr]) (fun _ => rfl) nofun) ?_ rest
  rw [build_eq (o := 0x08) (row := 0x01) (col := 0) rfl (by decide) (by decide)]
  show buildRow01 _ 0 = _
  simp [Instr.fieldsOk, arithOk, Fmt.isFI, scaleOk, accFmt, bandsOk] at hw
  simp only [buildRow01] <;> simp [-BitVec.extractLsb'_toNat, hw, objTyped, Raw.tgt, Raw.im, Raw.intFmt, Raw.sc, Raw.rm5, Raw.fF, Raw.fI, Raw.fFI, Raw.arith, Raw.fma, Raw.unary, Raw.fmt, Raw.dfmt, Raw.rm, Raw.fn, Raw.sat, Raw.k, Raw.c, Raw.scope, must, bind, Except.bind, pure, Except.pure]
theorem RoundTrip.bgeu (h a b tgt) : RoundTrip.Statement (.bgeu h a b tgt) := by
  intro hw rest
  obtain ⟨hf, hw⟩ := wf rfl hw
  refine decode_encode rfl (admits (sh := (shBr)) (o := 0x09) rfl (by decide) hf
    (by simp [Shape.baseReserved, RegUse.reserved, shBr])
    (by simp [-BitVec.extractLsb'_toNat, Shape.extReserved, Raw.fmt, Raw.rm, Raw.sat, Raw.c, Raw.k, Raw.scope, Raw.fn, RegUse.reserved, objTyped, shBr])
    (by simp [Shape.beyond, RegUse.beyond, Raw.c, shBr]) (fun _ => rfl) nofun) ?_ rest
  rw [build_eq (o := 0x09) (row := 0x01) (col := 1) rfl (by decide) (by decide)]
  show buildRow01 _ 1 = _
  simp [Instr.fieldsOk, arithOk, Fmt.isFI, scaleOk, accFmt, bandsOk] at hw
  simp only [buildRow01] <;> simp [-BitVec.extractLsb'_toNat, hw, objTyped, Raw.tgt, Raw.im, Raw.intFmt, Raw.sc, Raw.rm5, Raw.fF, Raw.fI, Raw.fFI, Raw.arith, Raw.fma, Raw.unary, Raw.fmt, Raw.dfmt, Raw.rm, Raw.fn, Raw.sat, Raw.k, Raw.c, Raw.scope, must, bind, Except.bind, pure, Except.pure]
theorem RoundTrip.call (h d tgt) : RoundTrip.Statement (.call h d tgt) := by
  intro hw rest
  obtain ⟨hf, hw⟩ := wf rfl hw
  refine decode_encode rfl (admits (sh := ({ d := .x, immed := true, imm := 0x7FFF } : Shape)) (o := 0x0A) rfl (by decide) hf
    (by simp [Shape.baseReserved, RegUse.reserved])
    (by simp [-BitVec.extractLsb'_toNat, Shape.extReserved, Raw.fmt, Raw.rm, Raw.sat, Raw.c, Raw.k, Raw.scope, Raw.fn, RegUse.reserved, objTyped])
    (by simp [Shape.beyond, RegUse.beyond, Raw.c]) (fun _ => rfl) nofun) ?_ rest
  rw [build_eq (o := 0x0A) (row := 0x01) (col := 2) rfl (by decide) (by decide)]
  show buildRow01 _ 2 = _
  simp [Instr.fieldsOk, arithOk, Fmt.isFI, scaleOk, accFmt, bandsOk] at hw
  simp only [buildRow01] <;> simp [-BitVec.extractLsb'_toNat, hw, objTyped, Raw.tgt, Raw.im, Raw.intFmt, Raw.sc, Raw.rm5, Raw.fF, Raw.fI, Raw.fFI, Raw.arith, Raw.fma, Raw.unary, Raw.fmt, Raw.dfmt, Raw.rm, Raw.fn, Raw.sat, Raw.k, Raw.c, Raw.scope, must, bind, Except.bind, pure, Except.pure]
theorem RoundTrip.ret (h a) : RoundTrip.Statement (.ret h a) := by
  intro hw rest
  obtain ⟨hf, hw⟩ := wf rfl hw
  refine decode_encode rfl (admits (sh := ({ a := .x } : Shape)) (o := 0x0B) rfl (by decide) hf
    (by simp [Shape.baseReserved, RegUse.reserved])
    (by simp [-BitVec.extractLsb'_toNat, Shape.extReserved, Raw.fmt, Raw.rm, Raw.sat, Raw.c, Raw.k, Raw.scope, Raw.fn, RegUse.reserved, objTyped])
    (by simp [Shape.beyond, RegUse.beyond, Raw.c]) (fun _ => rfl) (fun _ => rfl)) ?_ rest
  rw [build_eq (o := 0x0B) (row := 0x01) (col := 3) rfl (by decide) (by decide)]
  show buildRow01 _ 3 = _
  simp [Instr.fieldsOk, arithOk, Fmt.isFI, scaleOk, accFmt, bandsOk] at hw
  simp only [buildRow01] <;> simp [-BitVec.extractLsb'_toNat, hw, objTyped, Raw.tgt, Raw.im, Raw.intFmt, Raw.sc, Raw.rm5, Raw.fF, Raw.fI, Raw.fFI, Raw.arith, Raw.fma, Raw.unary, Raw.fmt, Raw.dfmt, Raw.rm, Raw.fn, Raw.sat, Raw.k, Raw.c, Raw.scope, must, bind, Except.bind, pure, Except.pure]
theorem RoundTrip.loop (h a tgt) : RoundTrip.Statement (.loop h a tgt) := by
  intro hw rest
  obtain ⟨hf, hw⟩ := wf rfl hw
  refine decode_encode rfl (admits (sh := ({ a := .x, immed := true, imm := 0x7FFF } : Shape)) (o := 0x0C) rfl (by decide) hf
    (by simp [Shape.baseReserved, RegUse.reserved])
    (by simp [-BitVec.extractLsb'_toNat, Shape.extReserved, Raw.fmt, Raw.rm, Raw.sat, Raw.c, Raw.k, Raw.scope, Raw.fn, RegUse.reserved, objTyped])
    (by simp [Shape.beyond, RegUse.beyond, Raw.c]) (fun _ => rfl) nofun) ?_ rest
  rw [build_eq (o := 0x0C) (row := 0x01) (col := 4) rfl (by decide) (by decide)]
  show buildRow01 _ 4 = _
  simp [Instr.fieldsOk, arithOk, Fmt.isFI, scaleOk, accFmt, bandsOk] at hw
  simp only [buildRow01] <;> simp [-BitVec.extractLsb'_toNat, hw, objTyped, Raw.tgt, Raw.im, Raw.intFmt, Raw.sc, Raw.rm5, Raw.fF, Raw.fI, Raw.fFI, Raw.arith, Raw.fma, Raw.unary, Raw.fmt, Raw.dfmt, Raw.rm, Raw.fn, Raw.sat, Raw.k, Raw.c, Raw.scope, must, bind, Except.bind, pure, Except.pure]
theorem RoundTrip.lexit (h tgt) : RoundTrip.Statement (.lexit h tgt) := by
  intro hw rest
  obtain ⟨hf, hw⟩ := wf rfl hw
  refine decode_encode rfl (admits (sh := ({ immed := true, imm := 0x7FFF } : Shape)) (o := 0x0D) rfl (by decide) hf
    (by simp [Shape.baseReserved, RegUse.reserved])
    (by simp [-BitVec.extractLsb'_toNat, Shape.extReserved, Raw.fmt, Raw.rm, Raw.sat, Raw.c, Raw.k, Raw.scope, Raw.fn, RegUse.reserved, objTyped])
    (by simp [Shape.beyond, RegUse.beyond, Raw.c]) (fun _ => rfl) nofun) ?_ rest
  rw [build_eq (o := 0x0D) (row := 0x01) (col := 5) rfl (by decide) (by decide)]
  show buildRow01 _ 5 = _
  simp [Instr.fieldsOk, arithOk, Fmt.isFI, scaleOk, accFmt, bandsOk] at hw
  simp only [buildRow01] <;> simp [-BitVec.extractLsb'_toNat, hw, objTyped, Raw.tgt, Raw.im, Raw.intFmt, Raw.sc, Raw.rm5, Raw.fF, Raw.fI, Raw.fFI, Raw.arith, Raw.fma, Raw.unary, Raw.fmt, Raw.dfmt, Raw.rm, Raw.fn, Raw.sat, Raw.k, Raw.c, Raw.scope, must, bind, Except.bind, pure, Except.pure]
theorem RoundTrip.retire (h) : RoundTrip.Statement (.retire h) := by
  intro hw rest
  obtain ⟨hf, hw⟩ := wf rfl hw
  refine decode_encode rfl (admits (sh := ({} : Shape)) (o := 0x0E) rfl (by decide) hf
    (by simp [Shape.baseReserved, RegUse.reserved])
    (by simp [-BitVec.extractLsb'_toNat, Shape.extReserved, Raw.fmt, Raw.rm, Raw.sat, Raw.c, Raw.k, Raw.scope, Raw.fn, RegUse.reserved, objTyped])
    (by simp [Shape.beyond, RegUse.beyond, Raw.c]) (fun _ => rfl) (fun _ => rfl)) ?_ rest
  rw [build_eq (o := 0x0E) (row := 0x01) (col := 6) rfl (by decide) (by decide)]
  show buildRow01 _ 6 = _
  simp [Instr.fieldsOk, arithOk, Fmt.isFI, scaleOk, accFmt, bandsOk] at hw
  simp only [buildRow01] <;> simp [-BitVec.extractLsb'_toNat, hw, objTyped, Raw.tgt, Raw.im, Raw.intFmt, Raw.sc, Raw.rm5, Raw.fF, Raw.fI, Raw.fFI, Raw.arith, Raw.fma, Raw.unary, Raw.fmt, Raw.dfmt, Raw.rm, Raw.fn, Raw.sat, Raw.k, Raw.c, Raw.scope, must, bind, Except.bind, pure, Except.pure]
theorem RoundTrip.bbit (h a n sense tgt) : RoundTrip.Statement (.bbit h a n sense tgt) := by
  intro hw rest
  obtain ⟨hf, hw⟩ := wf rfl hw
  refine decode_encode rfl (admits (sh := ({ a := .x, immed := true, imm := 0x3FFFFF } : Shape)) (o := 0x0F) rfl (by decide) hf
    (by simp [Shape.baseReserved, RegUse.reserved])
    (by simp [-BitVec.extractLsb'_toNat, Shape.extReserved, Raw.fmt, Raw.rm, Raw.sat, Raw.c, Raw.k, Raw.scope, Raw.fn, RegUse.reserved, objTyped])
    (by simp [Shape.beyond, RegUse.beyond, Raw.c]) (fun _ => rfl) nofun) ?_ rest
  rw [build_eq (o := 0x0F) (row := 0x01) (col := 7) rfl (by decide) (by decide)]
  show buildRow01 _ 7 = _
  simp [Instr.fieldsOk, arithOk, Fmt.isFI, scaleOk, accFmt, bandsOk] at hw
  simp only [buildRow01] <;> simp [-BitVec.extractLsb'_toNat, hw, objTyped, Raw.tgt, Raw.im, Raw.intFmt, Raw.sc, Raw.rm5, Raw.fF, Raw.fI, Raw.fFI, Raw.arith, Raw.fma, Raw.unary, Raw.fmt, Raw.dfmt, Raw.rm, Raw.fn, Raw.sat, Raw.k, Raw.c, Raw.scope, must, bind, Except.bind, pure, Except.pure]
theorem RoundTrip.give (h dir n) : RoundTrip.Statement (.give h dir n) := by
  intro hw rest
  obtain ⟨hf, hw⟩ := wf rfl hw
  refine decode_encode rfl (admits (sh := ({ d := .bits 0x1F, b := .bits 0xF } : Shape)) (o := 0x10) rfl (by decide) hf
    (by simp [Shape.baseReserved, RegUse.reserved])
    (by simp [-BitVec.extractLsb'_toNat, Shape.extReserved, Raw.fmt, Raw.rm, Raw.sat, Raw.c, Raw.k, Raw.scope, Raw.fn, RegUse.reserved, objTyped])
    (by simp [Shape.beyond, RegUse.beyond, Raw.c]) (fun _ => rfl) (fun _ => rfl)) ?_ rest
  rw [build_eq (o := 0x10) (row := 0x02) (col := 0) rfl (by decide) (by decide)]
  show buildRow02 _ 0 = _
  simp [Instr.fieldsOk, arithOk, Fmt.isFI, scaleOk, accFmt, bandsOk] at hw
  simp only [buildRow02]
  skip
  simp [-BitVec.extractLsb'_toNat, hw, objTyped, Raw.tgt, Raw.im, Raw.intFmt, Raw.sc, Raw.rm5, Raw.fF, Raw.fI, Raw.fFI, Raw.arith, Raw.fma, Raw.unary, Raw.fmt, Raw.dfmt, Raw.rm, Raw.fn, Raw.sat, Raw.k, Raw.c, Raw.scope, must, bind, Except.bind, pure, Except.pure]
theorem RoundTrip.take (h dir n) : RoundTrip.Statement (.take h dir n) := by
  intro hw rest
  obtain ⟨hf, hw⟩ := wf rfl hw
  refine decode_encode rfl (admits (sh := ({ d := .bits 0x1F, b := .bits 0xF } : Shape)) (o := 0x11) rfl (by decide) hf
    (by simp [Shape.baseReserved, RegUse.reserved])
    (by simp [-BitVec.extractLsb'_toNat, Shape.extReserved, Raw.fmt, Raw.rm, Raw.sat, Raw.c, Raw.k, Raw.scope, Raw.fn, RegUse.reserved, objTyped])
    (by simp [Shape.beyond, RegUse.beyond, Raw.c]) (fun _ => rfl) (fun _ => rfl)) ?_ rest
  rw [build_eq (o := 0x11) (row := 0x02) (col := 1) rfl (by decide) (by decide)]
  show buildRow02 _ 1 = _
  simp [Instr.fieldsOk, arithOk, Fmt.isFI, scaleOk, accFmt, bandsOk] at hw
  simp only [buildRow02]
  skip
  simp [-BitVec.extractLsb'_toNat, hw, objTyped, Raw.tgt, Raw.im, Raw.intFmt, Raw.sc, Raw.rm5, Raw.fF, Raw.fI, Raw.fFI, Raw.arith, Raw.fma, Raw.unary, Raw.fmt, Raw.dfmt, Raw.rm, Raw.fn, Raw.sat, Raw.k, Raw.c, Raw.scope, must, bind, Except.bind, pure, Except.pure]
theorem RoundTrip.mark (h tag) : RoundTrip.Statement (.mark h tag) := by
  intro hw rest
  obtain ⟨hf, hw⟩ := wf rfl hw
  refine decode_encode rfl (admits (sh := ({ b := .bits 0xF } : Shape)) (o := 0x12) rfl (by decide) hf
    (by simp [Shape.baseReserved, RegUse.reserved])
    (by simp [-BitVec.extractLsb'_toNat, Shape.extReserved, Raw.fmt, Raw.rm, Raw.sat, Raw.c, Raw.k, Raw.scope, Raw.fn, RegUse.reserved, objTyped])
    (by simp [Shape.beyond, RegUse.beyond, Raw.c]) (fun _ => rfl) (fun _ => rfl)) ?_ rest
  rw [build_eq (o := 0x12) (row := 0x02) (col := 2) rfl (by decide) (by decide)]
  show buildRow02 _ 2 = _
  simp [Instr.fieldsOk, arithOk, Fmt.isFI, scaleOk, accFmt, bandsOk] at hw
  simp only [buildRow02] <;> simp [-BitVec.extractLsb'_toNat, hw, objTyped, Raw.tgt, Raw.im, Raw.intFmt, Raw.sc, Raw.rm5, Raw.fF, Raw.fI, Raw.fFI, Raw.arith, Raw.fma, Raw.unary, Raw.fmt, Raw.dfmt, Raw.rm, Raw.fn, Raw.sat, Raw.k, Raw.c, Raw.scope, must, bind, Except.bind, pure, Except.pure]
theorem RoundTrip.fence (h form sc) : RoundTrip.Statement (.fence h form sc) := by
  intro hw rest
  obtain ⟨hf, hw⟩ := wf rfl hw
  refine decode_encode rfl (admits (sh := ({ typed := true, scope := true, fn := 3 } : Shape)) (o := 0x13) rfl (by decide) hf
    (by simp [Shape.baseReserved, RegUse.reserved])
    (by simp [-BitVec.extractLsb'_toNat, Shape.extReserved, Raw.fmt, Raw.rm, Raw.sat, Raw.c, Raw.k, Raw.scope, Raw.fn, RegUse.reserved, objTyped])
    (by simp [Shape.beyond, RegUse.beyond, Raw.c]) nofun (fun _ => rfl)) ?_ rest
  rw [build_eq (o := 0x13) (row := 0x02) (col := 3) rfl (by decide) (by decide)]
  show buildRow02 _ 3 = _
  simp [Instr.fieldsOk, arithOk, Fmt.isFI, scaleOk, accFmt, bandsOk] at hw
  simp only [buildRow02]
  cases form
  all_goals first | rfl | (simp [Raw.sc, Raw.scope, Raw.fn]; rfl)
theorem RoundTrip.tfence (h) : RoundTrip.Statement (.tfence h) := by
  intro hw rest
  obtain ⟨hf, hw⟩ := wf rfl hw
  refine decode_encode rfl (admits (sh := ({} : Shape)) (o := 0x14) rfl (by decide) hf
    (by simp [Shape.baseReserved, RegUse.reserved])
    (by simp [-BitVec.extractLsb'_toNat, Shape.extReserved, Raw.fmt, Raw.rm, Raw.sat, Raw.c, Raw.k, Raw.scope, Raw.fn, RegUse.reserved, objTyped])
    (by simp [Shape.beyond, RegUse.beyond, Raw.c]) (fun _ => rfl) (fun _ => rfl)) ?_ rest
  rw [build_eq (o := 0x14) (row := 0x02) (col := 4) rfl (by decide) (by decide)]
  show buildRow02 _ 4 = _
  simp [Instr.fieldsOk, arithOk, Fmt.isFI, scaleOk, accFmt, bandsOk] at hw
  simp only [buildRow02] <;> simp [-BitVec.extractLsb'_toNat, hw, objTyped, Raw.tgt, Raw.im, Raw.intFmt, Raw.sc, Raw.rm5, Raw.fF, Raw.fI, Raw.fFI, Raw.arith, Raw.fma, Raw.unary, Raw.fmt, Raw.dfmt, Raw.rm, Raw.fn, Raw.sat, Raw.k, Raw.c, Raw.scope, must, bind, Except.bind, pure, Except.pure]
theorem RoundTrip.trap (h code) : RoundTrip.Statement (.trap h code) := by
  intro hw rest
  obtain ⟨hf, hw⟩ := wf rfl hw
  refine decode_encode rfl (admits (sh := ({ immed := true, imm := 0xFFFF } : Shape)) (o := 0x15) rfl (by decide) hf
    (by simp [Shape.baseReserved, RegUse.reserved])
    (by simp [-BitVec.extractLsb'_toNat, Shape.extReserved, Raw.fmt, Raw.rm, Raw.sat, Raw.c, Raw.k, Raw.scope, Raw.fn, RegUse.reserved, objTyped])
    (by simp [Shape.beyond, RegUse.beyond, Raw.c]) (fun _ => rfl) nofun) ?_ rest
  rw [build_eq (o := 0x15) (row := 0x02) (col := 5) rfl (by decide) (by decide)]
  show buildRow02 _ 5 = _
  simp [Instr.fieldsOk, arithOk, Fmt.isFI, scaleOk, accFmt, bandsOk] at hw
  simp only [buildRow02] <;> simp [-BitVec.extractLsb'_toNat, hw, objTyped, Raw.tgt, Raw.im, Raw.intFmt, Raw.sc, Raw.rm5, Raw.fF, Raw.fI, Raw.fFI, Raw.arith, Raw.fma, Raw.unary, Raw.fmt, Raw.dfmt, Raw.rm, Raw.fn, Raw.sat, Raw.k, Raw.c, Raw.scope, must, bind, Except.bind, pure, Except.pure]
theorem RoundTrip.eret (h) : RoundTrip.Statement (.eret h) := by
  intro hw rest
  obtain ⟨hf, hw⟩ := wf rfl hw
  refine decode_encode rfl (admits (sh := ({} : Shape)) (o := 0x16) rfl (by decide) hf
    (by simp [Shape.baseReserved, RegUse.reserved])
    (by simp [-BitVec.extractLsb'_toNat, Shape.extReserved, Raw.fmt, Raw.rm, Raw.sat, Raw.c, Raw.k, Raw.scope, Raw.fn, RegUse.reserved, objTyped])
    (by simp [Shape.beyond, RegUse.beyond, Raw.c]) (fun _ => rfl) (fun _ => rfl)) ?_ rest
  rw [build_eq (o := 0x16) (row := 0x02) (col := 6) rfl (by decide) (by decide)]
  show buildRow02 _ 6 = _
  simp [Instr.fieldsOk, arithOk, Fmt.isFI, scaleOk, accFmt, bandsOk] at hw
  simp only [buildRow02] <;> simp [-BitVec.extractLsb'_toNat, hw, objTyped, Raw.tgt, Raw.im, Raw.intFmt, Raw.sc, Raw.rm5, Raw.fF, Raw.fI, Raw.fFI, Raw.arith, Raw.fma, Raw.unary, Raw.fmt, Raw.dfmt, Raw.rm, Raw.fn, Raw.sat, Raw.k, Raw.c, Raw.scope, must, bind, Except.bind, pure, Except.pure]
theorem RoundTrip.dtwait (h d a ofs) : RoundTrip.Statement (.dtwait h d a ofs) := by
  intro hw rest
  obtain ⟨hf, hw⟩ := wf rfl hw
  refine decode_encode rfl (admits (sh := (shRI)) (o := 0x17) rfl (by decide) hf
    (by simp [Shape.baseReserved, RegUse.reserved, shRI])
    (by simp [-BitVec.extractLsb'_toNat, Shape.extReserved, Raw.fmt, Raw.rm, Raw.sat, Raw.c, Raw.k, Raw.scope, Raw.fn, RegUse.reserved, objTyped, shRI])
    (by simp [Shape.beyond, RegUse.beyond, Raw.c, shRI]) (fun _ => rfl) nofun) ?_ rest
  rw [build_eq (o := 0x17) (row := 0x02) (col := 7) rfl (by decide) (by decide)]
  show buildRow02 _ 7 = _
  simp [Instr.fieldsOk, arithOk, Fmt.isFI, scaleOk, accFmt, bandsOk] at hw
  simp only [buildRow02] <;> simp [-BitVec.extractLsb'_toNat, hw, objTyped, Raw.tgt, Raw.im, Raw.intFmt, Raw.sc, Raw.rm5, Raw.fF, Raw.fI, Raw.fFI, Raw.arith, Raw.fma, Raw.unary, Raw.fmt, Raw.dfmt, Raw.rm, Raw.fn, Raw.sat, Raw.k, Raw.c, Raw.scope, must, bind, Except.bind, pure, Except.pure]
theorem RoundTrip.add (h d a b) : RoundTrip.Statement (.add h d a b) := by
  intro hw rest
  obtain ⟨hf, hw⟩ := wf rfl hw
  refine decode_encode rfl (admits (sh := (shRR)) (o := 0x20) rfl (by decide) hf
    (by simp [Shape.baseReserved, RegUse.reserved, shRR])
    (by simp [-BitVec.extractLsb'_toNat, Shape.extReserved, Raw.fmt, Raw.rm, Raw.sat, Raw.c, Raw.k, Raw.scope, Raw.fn, RegUse.reserved, objTyped, shRR])
    (by simp [Shape.beyond, RegUse.beyond, Raw.c, shRR]) (fun _ => rfl) (fun _ => rfl)) ?_ rest
  rw [build_eq (o := 0x20) (row := 0x04) (col := 0) rfl (by decide) (by decide)]
  show buildRow04 _ 0 = _
  simp [Instr.fieldsOk, arithOk, Fmt.isFI, scaleOk, accFmt, bandsOk] at hw
  simp only [buildRow04] <;> simp [-BitVec.extractLsb'_toNat, hw, objTyped, Raw.tgt, Raw.im, Raw.intFmt, Raw.sc, Raw.rm5, Raw.fF, Raw.fI, Raw.fFI, Raw.arith, Raw.fma, Raw.unary, Raw.fmt, Raw.dfmt, Raw.rm, Raw.fn, Raw.sat, Raw.k, Raw.c, Raw.scope, must, bind, Except.bind, pure, Except.pure]
theorem RoundTrip.sub (h d a b) : RoundTrip.Statement (.sub h d a b) := by
  intro hw rest
  obtain ⟨hf, hw⟩ := wf rfl hw
  refine decode_encode rfl (admits (sh := (shRR)) (o := 0x21) rfl (by decide) hf
    (by simp [Shape.baseReserved, RegUse.reserved, shRR])
    (by simp [-BitVec.extractLsb'_toNat, Shape.extReserved, Raw.fmt, Raw.rm, Raw.sat, Raw.c, Raw.k, Raw.scope, Raw.fn, RegUse.reserved, objTyped, shRR])
    (by simp [Shape.beyond, RegUse.beyond, Raw.c, shRR]) (fun _ => rfl) (fun _ => rfl)) ?_ rest
  rw [build_eq (o := 0x21) (row := 0x04) (col := 1) rfl (by decide) (by decide)]
  show buildRow04 _ 1 = _
  simp [Instr.fieldsOk, arithOk, Fmt.isFI, scaleOk, accFmt, bandsOk] at hw
  simp only [buildRow04] <;> simp [-BitVec.extractLsb'_toNat, hw, objTyped, Raw.tgt, Raw.im, Raw.intFmt, Raw.sc, Raw.rm5, Raw.fF, Raw.fI, Raw.fFI, Raw.arith, Raw.fma, Raw.unary, Raw.fmt, Raw.dfmt, Raw.rm, Raw.fn, Raw.sat, Raw.k, Raw.c, Raw.scope, must, bind, Except.bind, pure, Except.pure]
theorem RoundTrip.and (h d a b) : RoundTrip.Statement (.and h d a b) := by
  intro hw rest
  obtain ⟨hf, hw⟩ := wf rfl hw
  refine decode_encode rfl (admits (sh := (shRR)) (o := 0x22) rfl (by decide) hf
    (by simp [Shape.baseReserved, RegUse.reserved, shRR])
    (by simp [-BitVec.extractLsb'_toNat, Shape.extReserved, Raw.fmt, Raw.rm, Raw.sat, Raw.c, Raw.k, Raw.scope, Raw.fn, RegUse.reserved, objTyped, shRR])
    (by simp [Shape.beyond, RegUse.beyond, Raw.c, shRR]) (fun _ => rfl) (fun _ => rfl)) ?_ rest
  rw [build_eq (o := 0x22) (row := 0x04) (col := 2) rfl (by decide) (by decide)]
  show buildRow04 _ 2 = _
  simp [Instr.fieldsOk, arithOk, Fmt.isFI, scaleOk, accFmt, bandsOk] at hw
  simp only [buildRow04] <;> simp [-BitVec.extractLsb'_toNat, hw, objTyped, Raw.tgt, Raw.im, Raw.intFmt, Raw.sc, Raw.rm5, Raw.fF, Raw.fI, Raw.fFI, Raw.arith, Raw.fma, Raw.unary, Raw.fmt, Raw.dfmt, Raw.rm, Raw.fn, Raw.sat, Raw.k, Raw.c, Raw.scope, must, bind, Except.bind, pure, Except.pure]
theorem RoundTrip.or (h d a b) : RoundTrip.Statement (.or h d a b) := by
  intro hw rest
  obtain ⟨hf, hw⟩ := wf rfl hw
  refine decode_encode rfl (admits (sh := (shRR)) (o := 0x23) rfl (by decide) hf
    (by simp [Shape.baseReserved, RegUse.reserved, shRR])
    (by simp [-BitVec.extractLsb'_toNat, Shape.extReserved, Raw.fmt, Raw.rm, Raw.sat, Raw.c, Raw.k, Raw.scope, Raw.fn, RegUse.reserved, objTyped, shRR])
    (by simp [Shape.beyond, RegUse.beyond, Raw.c, shRR]) (fun _ => rfl) (fun _ => rfl)) ?_ rest
  rw [build_eq (o := 0x23) (row := 0x04) (col := 3) rfl (by decide) (by decide)]
  show buildRow04 _ 3 = _
  simp [Instr.fieldsOk, arithOk, Fmt.isFI, scaleOk, accFmt, bandsOk] at hw
  simp only [buildRow04] <;> simp [-BitVec.extractLsb'_toNat, hw, objTyped, Raw.tgt, Raw.im, Raw.intFmt, Raw.sc, Raw.rm5, Raw.fF, Raw.fI, Raw.fFI, Raw.arith, Raw.fma, Raw.unary, Raw.fmt, Raw.dfmt, Raw.rm, Raw.fn, Raw.sat, Raw.k, Raw.c, Raw.scope, must, bind, Except.bind, pure, Except.pure]
theorem RoundTrip.xor (h d a b) : RoundTrip.Statement (.xor h d a b) := by
  intro hw rest
  obtain ⟨hf, hw⟩ := wf rfl hw
  refine decode_encode rfl (admits (sh := (shRR)) (o := 0x24) rfl (by decide) hf
    (by simp [Shape.baseReserved, RegUse.reserved, shRR])
    (by simp [-BitVec.extractLsb'_toNat, Shape.extReserved, Raw.fmt, Raw.rm, Raw.sat, Raw.c, Raw.k, Raw.scope, Raw.fn, RegUse.reserved, objTyped, shRR])
    (by simp [Shape.beyond, RegUse.beyond, Raw.c, shRR]) (fun _ => rfl) (fun _ => rfl)) ?_ rest
  rw [build_eq (o := 0x24) (row := 0x04) (col := 4) rfl (by decide) (by decide)]
  show buildRow04 _ 4 = _
  simp [Instr.fieldsOk, arithOk, Fmt.isFI, scaleOk, accFmt, bandsOk] at hw
  simp only [buildRow04] <;> simp [-BitVec.extractLsb'_toNat, hw, objTyped, Raw.tgt, Raw.im, Raw.intFmt, Raw.sc, Raw.rm5, Raw.fF, Raw.fI, Raw.fFI, Raw.arith, Raw.fma, Raw.unary, Raw.fmt, Raw.dfmt, Raw.rm, Raw.fn, Raw.sat, Raw.k, Raw.c, Raw.scope, must, bind, Except.bind, pure, Except.pure]
theorem RoundTrip.sll (h d a b) : RoundTrip.Statement (.sll h d a b) := by
  intro hw rest
  obtain ⟨hf, hw⟩ := wf rfl hw
  refine decode_encode rfl (admits (sh := (shRR)) (o := 0x25) rfl (by decide) hf
    (by simp [Shape.baseReserved, RegUse.reserved, shRR])
    (by simp [-BitVec.extractLsb'_toNat, Shape.extReserved, Raw.fmt, Raw.rm, Raw.sat, Raw.c, Raw.k, Raw.scope, Raw.fn, RegUse.reserved, objTyped, shRR])
    (by simp [Shape.beyond, RegUse.beyond, Raw.c, shRR]) (fun _ => rfl) (fun _ => rfl)) ?_ rest
  rw [build_eq (o := 0x25) (row := 0x04) (col := 5) rfl (by decide) (by decide)]
  show buildRow04 _ 5 = _
  simp [Instr.fieldsOk, arithOk, Fmt.isFI, scaleOk, accFmt, bandsOk] at hw
  simp only [buildRow04] <;> simp [-BitVec.extractLsb'_toNat, hw, objTyped, Raw.tgt, Raw.im, Raw.intFmt, Raw.sc, Raw.rm5, Raw.fF, Raw.fI, Raw.fFI, Raw.arith, Raw.fma, Raw.unary, Raw.fmt, Raw.dfmt, Raw.rm, Raw.fn, Raw.sat, Raw.k, Raw.c, Raw.scope, must, bind, Except.bind, pure, Except.pure]
theorem RoundTrip.srl (h d a b) : RoundTrip.Statement (.srl h d a b) := by
  intro hw rest
  obtain ⟨hf, hw⟩ := wf rfl hw
  refine decode_encode rfl (admits (sh := (shRR)) (o := 0x26) rfl (by decide) hf
    (by simp [Shape.baseReserved, RegUse.reserved, shRR])
    (by simp [-BitVec.extractLsb'_toNat, Shape.extReserved, Raw.fmt, Raw.rm, Raw.sat, Raw.c, Raw.k, Raw.scope, Raw.fn, RegUse.reserved, objTyped, shRR])
    (by simp [Shape.beyond, RegUse.beyond, Raw.c, shRR]) (fun _ => rfl) (fun _ => rfl)) ?_ rest
  rw [build_eq (o := 0x26) (row := 0x04) (col := 6) rfl (by decide) (by decide)]
  show buildRow04 _ 6 = _
  simp [Instr.fieldsOk, arithOk, Fmt.isFI, scaleOk, accFmt, bandsOk] at hw
  simp only [buildRow04] <;> simp [-BitVec.extractLsb'_toNat, hw, objTyped, Raw.tgt, Raw.im, Raw.intFmt, Raw.sc, Raw.rm5, Raw.fF, Raw.fI, Raw.fFI, Raw.arith, Raw.fma, Raw.unary, Raw.fmt, Raw.dfmt, Raw.rm, Raw.fn, Raw.sat, Raw.k, Raw.c, Raw.scope, must, bind, Except.bind, pure, Except.pure]
theorem RoundTrip.sra (h d a b) : RoundTrip.Statement (.sra h d a b) := by
  intro hw rest
  obtain ⟨hf, hw⟩ := wf rfl hw
  refine decode_encode rfl (admits (sh := (shRR)) (o := 0x27) rfl (by decide) hf
    (by simp [Shape.baseReserved, RegUse.reserved, shRR])
    (by simp [-BitVec.extractLsb'_toNat, Shape.extReserved, Raw.fmt, Raw.rm, Raw.sat, Raw.c, Raw.k, Raw.scope, Raw.fn, RegUse.reserved, objTyped, shRR])
    (by simp [Shape.beyond, RegUse.beyond, Raw.c, shRR]) (fun _ => rfl) (fun _ => rfl)) ?_ rest
  rw [build_eq (o := 0x27) (row := 0x04) (col := 7) rfl (by decide) (by decide)]
  show buildRow04 _ 7 = _
  simp [Instr.fieldsOk, arithOk, Fmt.isFI, scaleOk, accFmt, bandsOk] at hw
  simp only [buildRow04] <;> simp [-BitVec.extractLsb'_toNat, hw, objTyped, Raw.tgt, Raw.im, Raw.intFmt, Raw.sc, Raw.rm5, Raw.fF, Raw.fI, Raw.fFI, Raw.arith, Raw.fma, Raw.unary, Raw.fmt, Raw.dfmt, Raw.rm, Raw.fn, Raw.sat, Raw.k, Raw.c, Raw.scope, must, bind, Except.bind, pure, Except.pure]
theorem RoundTrip.addi (h d a imm) : RoundTrip.Statement (.addi h d a imm) := by
  intro hw rest
  obtain ⟨hf, hw⟩ := wf rfl hw
  refine decode_encode rfl (admits (sh := (shRI)) (o := 0x28) rfl (by decide) hf
    (by simp [Shape.baseReserved, RegUse.reserved, shRI])
    (by simp [-BitVec.extractLsb'_toNat, Shape.extReserved, Raw.fmt, Raw.rm, Raw.sat, Raw.c, Raw.k, Raw.scope, Raw.fn, RegUse.reserved, objTyped, shRI])
    (by simp [Shape.beyond, RegUse.beyond, Raw.c, shRI]) (fun _ => rfl) nofun) ?_ rest
  rw [build_eq (o := 0x28) (row := 0x05) (col := 0) rfl (by decide) (by decide)]
  show buildRow05 _ 0 = _
  simp [Instr.fieldsOk, arithOk, Fmt.isFI, scaleOk, accFmt, bandsOk] at hw
  simp only [buildRow05] <;> simp [-BitVec.extractLsb'_toNat, hw, objTyped, Raw.tgt, Raw.im, Raw.intFmt, Raw.sc, Raw.rm5, Raw.fF, Raw.fI, Raw.fFI, Raw.arith, Raw.fma, Raw.unary, Raw.fmt, Raw.dfmt, Raw.rm, Raw.fn, Raw.sat, Raw.k, Raw.c, Raw.scope, must, bind, Except.bind, pure, Except.pure]
theorem RoundTrip.andi (h d a imm) : RoundTrip.Statement (.andi h d a imm) := by
  intro hw rest
  obtain ⟨hf, hw⟩ := wf rfl hw
  refine decode_encode rfl (admits (sh := (shRI)) (o := 0x29) rfl (by decide) hf
    (by simp [Shape.baseReserved, RegUse.reserved, shRI])
    (by simp [-BitVec.extractLsb'_toNat, Shape.extReserved, Raw.fmt, Raw.rm, Raw.sat, Raw.c, Raw.k, Raw.scope, Raw.fn, RegUse.reserved, objTyped, shRI])
    (by simp [Shape.beyond, RegUse.beyond, Raw.c, shRI]) (fun _ => rfl) nofun) ?_ rest
  rw [build_eq (o := 0x29) (row := 0x05) (col := 1) rfl (by decide) (by decide)]
  show buildRow05 _ 1 = _
  simp [Instr.fieldsOk, arithOk, Fmt.isFI, scaleOk, accFmt, bandsOk] at hw
  simp only [buildRow05] <;> simp [-BitVec.extractLsb'_toNat, hw, objTyped, Raw.tgt, Raw.im, Raw.intFmt, Raw.sc, Raw.rm5, Raw.fF, Raw.fI, Raw.fFI, Raw.arith, Raw.fma, Raw.unary, Raw.fmt, Raw.dfmt, Raw.rm, Raw.fn, Raw.sat, Raw.k, Raw.c, Raw.scope, must, bind, Except.bind, pure, Except.pure]
theorem RoundTrip.ori (h d a imm) : RoundTrip.Statement (.ori h d a imm) := by
  intro hw rest
  obtain ⟨hf, hw⟩ := wf rfl hw
  refine decode_encode rfl (admits (sh := (shRI)) (o := 0x2A) rfl (by decide) hf
    (by simp [Shape.baseReserved, RegUse.reserved, shRI])
    (by simp [-BitVec.extractLsb'_toNat, Shape.extReserved, Raw.fmt, Raw.rm, Raw.sat, Raw.c, Raw.k, Raw.scope, Raw.fn, RegUse.reserved, objTyped, shRI])
    (by simp [Shape.beyond, RegUse.beyond, Raw.c, shRI]) (fun _ => rfl) nofun) ?_ rest
  rw [build_eq (o := 0x2A) (row := 0x05) (col := 2) rfl (by decide) (by decide)]
  show buildRow05 _ 2 = _
  simp [Instr.fieldsOk, arithOk, Fmt.isFI, scaleOk, accFmt, bandsOk] at hw
  simp only [buildRow05] <;> simp [-BitVec.extractLsb'_toNat, hw, objTyped, Raw.tgt, Raw.im, Raw.intFmt, Raw.sc, Raw.rm5, Raw.fF, Raw.fI, Raw.fFI, Raw.arith, Raw.fma, Raw.unary, Raw.fmt, Raw.dfmt, Raw.rm, Raw.fn, Raw.sat, Raw.k, Raw.c, Raw.scope, must, bind, Except.bind, pure, Except.pure]
theorem RoundTrip.xori (h d a imm) : RoundTrip.Statement (.xori h d a imm) := by
  intro hw rest
  obtain ⟨hf, hw⟩ := wf rfl hw
  refine decode_encode rfl (admits (sh := (shRI)) (o := 0x2B) rfl (by decide) hf
    (by simp [Shape.baseReserved, RegUse.reserved, shRI])
    (by simp [-BitVec.extractLsb'_toNat, Shape.extReserved, Raw.fmt, Raw.rm, Raw.sat, Raw.c, Raw.k, Raw.scope, Raw.fn, RegUse.reserved, objTyped, shRI])
    (by simp [Shape.beyond, RegUse.beyond, Raw.c, shRI]) (fun _ => rfl) nofun) ?_ rest
  rw [build_eq (o := 0x2B) (row := 0x05) (col := 3) rfl (by decide) (by decide)]
  show buildRow05 _ 3 = _
  simp [Instr.fieldsOk, arithOk, Fmt.isFI, scaleOk, accFmt, bandsOk] at hw
  simp only [buildRow05] <;> simp [-BitVec.extractLsb'_toNat, hw, objTyped, Raw.tgt, Raw.im, Raw.intFmt, Raw.sc, Raw.rm5, Raw.fF, Raw.fI, Raw.fFI, Raw.arith, Raw.fma, Raw.unary, Raw.fmt, Raw.dfmt, Raw.rm, Raw.fn, Raw.sat, Raw.k, Raw.c, Raw.scope, must, bind, Except.bind, pure, Except.pure]
theorem RoundTrip.slli (h d a sh) : RoundTrip.Statement (.slli h d a sh) := by
  intro hw rest
  obtain ⟨hf, hw⟩ := wf rfl hw
  refine decode_encode rfl (admits (sh := (shSh)) (o := 0x2C) rfl (by decide) hf
    (by simp [Shape.baseReserved, RegUse.reserved, shSh])
    (by simp [-BitVec.extractLsb'_toNat, Shape.extReserved, Raw.fmt, Raw.rm, Raw.sat, Raw.c, Raw.k, Raw.scope, Raw.fn, RegUse.reserved, objTyped, shSh])
    (by simp [Shape.beyond, RegUse.beyond, Raw.c, shSh]) (fun _ => rfl) nofun) ?_ rest
  rw [build_eq (o := 0x2C) (row := 0x05) (col := 4) rfl (by decide) (by decide)]
  show buildRow05 _ 4 = _
  simp [Instr.fieldsOk, arithOk, Fmt.isFI, scaleOk, accFmt, bandsOk] at hw
  simp only [buildRow05] <;> simp [-BitVec.extractLsb'_toNat, hw, objTyped, Raw.tgt, Raw.im, Raw.intFmt, Raw.sc, Raw.rm5, Raw.fF, Raw.fI, Raw.fFI, Raw.arith, Raw.fma, Raw.unary, Raw.fmt, Raw.dfmt, Raw.rm, Raw.fn, Raw.sat, Raw.k, Raw.c, Raw.scope, must, bind, Except.bind, pure, Except.pure]
theorem RoundTrip.srli (h d a sh) : RoundTrip.Statement (.srli h d a sh) := by
  intro hw rest
  obtain ⟨hf, hw⟩ := wf rfl hw
  refine decode_encode rfl (admits (sh := (shSh)) (o := 0x2D) rfl (by decide) hf
    (by simp [Shape.baseReserved, RegUse.reserved, shSh])
    (by simp [-BitVec.extractLsb'_toNat, Shape.extReserved, Raw.fmt, Raw.rm, Raw.sat, Raw.c, Raw.k, Raw.scope, Raw.fn, RegUse.reserved, objTyped, shSh])
    (by simp [Shape.beyond, RegUse.beyond, Raw.c, shSh]) (fun _ => rfl) nofun) ?_ rest
  rw [build_eq (o := 0x2D) (row := 0x05) (col := 5) rfl (by decide) (by decide)]
  show buildRow05 _ 5 = _
  simp [Instr.fieldsOk, arithOk, Fmt.isFI, scaleOk, accFmt, bandsOk] at hw
  simp only [buildRow05] <;> simp [-BitVec.extractLsb'_toNat, hw, objTyped, Raw.tgt, Raw.im, Raw.intFmt, Raw.sc, Raw.rm5, Raw.fF, Raw.fI, Raw.fFI, Raw.arith, Raw.fma, Raw.unary, Raw.fmt, Raw.dfmt, Raw.rm, Raw.fn, Raw.sat, Raw.k, Raw.c, Raw.scope, must, bind, Except.bind, pure, Except.pure]
theorem RoundTrip.srai (h d a sh) : RoundTrip.Statement (.srai h d a sh) := by
  intro hw rest
  obtain ⟨hf, hw⟩ := wf rfl hw
  refine decode_encode rfl (admits (sh := (shSh)) (o := 0x2E) rfl (by decide) hf
    (by simp [Shape.baseReserved, RegUse.reserved, shSh])
    (by simp [-BitVec.extractLsb'_toNat, Shape.extReserved, Raw.fmt, Raw.rm, Raw.sat, Raw.c, Raw.k, Raw.scope, Raw.fn, RegUse.reserved, objTyped, shSh])
    (by simp [Shape.beyond, RegUse.beyond, Raw.c, shSh]) (fun _ => rfl) nofun) ?_ rest
  rw [build_eq (o := 0x2E) (row := 0x05) (col := 6) rfl (by decide) (by decide)]
  show buildRow05 _ 6 = _
  simp [Instr.fieldsOk, arithOk, Fmt.isFI, scaleOk, accFmt, bandsOk] at hw
  simp only [buildRow05] <;> simp [-BitVec.extractLsb'_toNat, hw, objTyped, Raw.tgt, Raw.im, Raw.intFmt, Raw.sc, Raw.rm5, Raw.fF, Raw.fI, Raw.fFI, Raw.arith, Raw.fma, Raw.unary, Raw.fmt, Raw.dfmt, Raw.rm, Raw.fn, Raw.sat, Raw.k, Raw.c, Raw.scope, must, bind, Except.bind, pure, Except.pure]
theorem RoundTrip.li (h d imm) : RoundTrip.Statement (.li h d imm) := by
  intro hw rest
  obtain ⟨hf, hw⟩ := wf rfl hw
  refine decode_encode rfl (admits (sh := ({ d := .x, immed := true, imm := 0xFFFFFFFF } : Shape)) (o := 0x2F) rfl (by decide) hf
    (by simp [Shape.baseReserved, RegUse.reserved])
    (by simp [-BitVec.extractLsb'_toNat, Shape.extReserved, Raw.fmt, Raw.rm, Raw.sat, Raw.c, Raw.k, Raw.scope, Raw.fn, RegUse.reserved, objTyped])
    (by simp [Shape.beyond, RegUse.beyond, Raw.c]) (fun _ => rfl) nofun) ?_ rest
  rw [build_eq (o := 0x2F) (row := 0x05) (col := 7) rfl (by decide) (by decide)]
  show buildRow05 _ 7 = _
  simp [Instr.fieldsOk, arithOk, Fmt.isFI, scaleOk, accFmt, bandsOk] at hw
  simp only [buildRow05] <;> simp [-BitVec.extractLsb'_toNat, hw, objTyped, Raw.tgt, Raw.im, Raw.intFmt, Raw.sc, Raw.rm5, Raw.fF, Raw.fI, Raw.fFI, Raw.arith, Raw.fma, Raw.unary, Raw.fmt, Raw.dfmt, Raw.rm, Raw.fn, Raw.sat, Raw.k, Raw.c, Raw.scope, must, bind, Except.bind, pure, Except.pure]
theorem RoundTrip.lih (h d a imm) : RoundTrip.Statement (.lih h d a imm) := by
  intro hw rest
  obtain ⟨hf, hw⟩ := wf rfl hw
  refine decode_encode rfl (admits (sh := (shRI)) (o := 0x30) rfl (by decide) hf
    (by simp [Shape.baseReserved, RegUse.reserved, shRI])
    (by simp [-BitVec.extractLsb'_toNat, Shape.extReserved, Raw.fmt, Raw.rm, Raw.sat, Raw.c, Raw.k, Raw.scope, Raw.fn, RegUse.reserved, objTyped, shRI])
    (by simp [Shape.beyond, RegUse.beyond, Raw.c, shRI]) (fun _ => rfl) nofun) ?_ rest
  rw [build_eq (o := 0x30) (row := 0x06) (col := 0) rfl (by decide) (by decide)]
  show buildRow06 _ 0 = _
  simp [Instr.fieldsOk, arithOk, Fmt.isFI, scaleOk, accFmt, bandsOk] at hw
  simp only [buildRow06] <;> simp [-BitVec.extractLsb'_toNat, hw, objTyped, Raw.tgt, Raw.im, Raw.intFmt, Raw.sc, Raw.rm5, Raw.fF, Raw.fI, Raw.fFI, Raw.arith, Raw.fma, Raw.unary, Raw.fmt, Raw.dfmt, Raw.rm, Raw.fn, Raw.sat, Raw.k, Raw.c, Raw.scope, must, bind, Except.bind, pure, Except.pure]
theorem RoundTrip.slt (h d a b) : RoundTrip.Statement (.slt h d a b) := by
  intro hw rest
  obtain ⟨hf, hw⟩ := wf rfl hw
  refine decode_encode rfl (admits (sh := (shRR)) (o := 0x31) rfl (by decide) hf
    (by simp [Shape.baseReserved, RegUse.reserved, shRR])
    (by simp [-BitVec.extractLsb'_toNat, Shape.extReserved, Raw.fmt, Raw.rm, Raw.sat, Raw.c, Raw.k, Raw.scope, Raw.fn, RegUse.reserved, objTyped, shRR])
    (by simp [Shape.beyond, RegUse.beyond, Raw.c, shRR]) (fun _ => rfl) (fun _ => rfl)) ?_ rest
  rw [build_eq (o := 0x31) (row := 0x06) (col := 1) rfl (by decide) (by decide)]
  show buildRow06 _ 1 = _
  simp [Instr.fieldsOk, arithOk, Fmt.isFI, scaleOk, accFmt, bandsOk] at hw
  simp only [buildRow06] <;> simp [-BitVec.extractLsb'_toNat, hw, objTyped, Raw.tgt, Raw.im, Raw.intFmt, Raw.sc, Raw.rm5, Raw.fF, Raw.fI, Raw.fFI, Raw.arith, Raw.fma, Raw.unary, Raw.fmt, Raw.dfmt, Raw.rm, Raw.fn, Raw.sat, Raw.k, Raw.c, Raw.scope, must, bind, Except.bind, pure, Except.pure]
theorem RoundTrip.sltu (h d a b) : RoundTrip.Statement (.sltu h d a b) := by
  intro hw rest
  obtain ⟨hf, hw⟩ := wf rfl hw
  refine decode_encode rfl (admits (sh := (shRR)) (o := 0x32) rfl (by decide) hf
    (by simp [Shape.baseReserved, RegUse.reserved, shRR])
    (by simp [-BitVec.extractLsb'_toNat, Shape.extReserved, Raw.fmt, Raw.rm, Raw.sat, Raw.c, Raw.k, Raw.scope, Raw.fn, RegUse.reserved, objTyped, shRR])
    (by simp [Shape.beyond, RegUse.beyond, Raw.c, shRR]) (fun _ => rfl) (fun _ => rfl)) ?_ rest
  rw [build_eq (o := 0x32) (row := 0x06) (col := 2) rfl (by decide) (by decide)]
  show buildRow06 _ 2 = _
  simp [Instr.fieldsOk, arithOk, Fmt.isFI, scaleOk, accFmt, bandsOk] at hw
  simp only [buildRow06] <;> simp [-BitVec.extractLsb'_toNat, hw, objTyped, Raw.tgt, Raw.im, Raw.intFmt, Raw.sc, Raw.rm5, Raw.fF, Raw.fI, Raw.fFI, Raw.arith, Raw.fma, Raw.unary, Raw.fmt, Raw.dfmt, Raw.rm, Raw.fn, Raw.sat, Raw.k, Raw.c, Raw.scope, must, bind, Except.bind, pure, Except.pure]
theorem RoundTrip.slti (h d a imm) : RoundTrip.Statement (.slti h d a imm) := by
  intro hw rest
  obtain ⟨hf, hw⟩ := wf rfl hw
  refine decode_encode rfl (admits (sh := (shRI)) (o := 0x33) rfl (by decide) hf
    (by simp [Shape.baseReserved, RegUse.reserved, shRI])
    (by simp [-BitVec.extractLsb'_toNat, Shape.extReserved, Raw.fmt, Raw.rm, Raw.sat, Raw.c, Raw.k, Raw.scope, Raw.fn, RegUse.reserved, objTyped, shRI])
    (by simp [Shape.beyond, RegUse.beyond, Raw.c, shRI]) (fun _ => rfl) nofun) ?_ rest
  rw [build_eq (o := 0x33) (row := 0x06) (col := 3) rfl (by decide) (by decide)]
  show buildRow06 _ 3 = _
  simp [Instr.fieldsOk, arithOk, Fmt.isFI, scaleOk, accFmt, bandsOk] at hw
  simp only [buildRow06] <;> simp [-BitVec.extractLsb'_toNat, hw, objTyped, Raw.tgt, Raw.im, Raw.intFmt, Raw.sc, Raw.rm5, Raw.fF, Raw.fI, Raw.fFI, Raw.arith, Raw.fma, Raw.unary, Raw.fmt, Raw.dfmt, Raw.rm, Raw.fn, Raw.sat, Raw.k, Raw.c, Raw.scope, must, bind, Except.bind, pure, Except.pure]
theorem RoundTrip.min (h d a b) : RoundTrip.Statement (.min h d a b) := by
  intro hw rest
  obtain ⟨hf, hw⟩ := wf rfl hw
  refine decode_encode rfl (admits (sh := (shRR)) (o := 0x34) rfl (by decide) hf
    (by simp [Shape.baseReserved, RegUse.reserved, shRR])
    (by simp [-BitVec.extractLsb'_toNat, Shape.extReserved, Raw.fmt, Raw.rm, Raw.sat, Raw.c, Raw.k, Raw.scope, Raw.fn, RegUse.reserved, objTyped, shRR])
    (by simp [Shape.beyond, RegUse.beyond, Raw.c, shRR]) (fun _ => rfl) (fun _ => rfl)) ?_ rest
  rw [build_eq (o := 0x34) (row := 0x06) (col := 4) rfl (by decide) (by decide)]
  show buildRow06 _ 4 = _
  simp [Instr.fieldsOk, arithOk, Fmt.isFI, scaleOk, accFmt, bandsOk] at hw
  simp only [buildRow06] <;> simp [-BitVec.extractLsb'_toNat, hw, objTyped, Raw.tgt, Raw.im, Raw.intFmt, Raw.sc, Raw.rm5, Raw.fF, Raw.fI, Raw.fFI, Raw.arith, Raw.fma, Raw.unary, Raw.fmt, Raw.dfmt, Raw.rm, Raw.fn, Raw.sat, Raw.k, Raw.c, Raw.scope, must, bind, Except.bind, pure, Except.pure]
theorem RoundTrip.max (h d a b) : RoundTrip.Statement (.max h d a b) := by
  intro hw rest
  obtain ⟨hf, hw⟩ := wf rfl hw
  refine decode_encode rfl (admits (sh := (shRR)) (o := 0x35) rfl (by decide) hf
    (by simp [Shape.baseReserved, RegUse.reserved, shRR])
    (by simp [-BitVec.extractLsb'_toNat, Shape.extReserved, Raw.fmt, Raw.rm, Raw.sat, Raw.c, Raw.k, Raw.scope, Raw.fn, RegUse.reserved, objTyped, shRR])
    (by simp [Shape.beyond, RegUse.beyond, Raw.c, shRR]) (fun _ => rfl) (fun _ => rfl)) ?_ rest
  rw [build_eq (o := 0x35) (row := 0x06) (col := 5) rfl (by decide) (by decide)]
  show buildRow06 _ 5 = _
  simp [Instr.fieldsOk, arithOk, Fmt.isFI, scaleOk, accFmt, bandsOk] at hw
  simp only [buildRow06] <;> simp [-BitVec.extractLsb'_toNat, hw, objTyped, Raw.tgt, Raw.im, Raw.intFmt, Raw.sc, Raw.rm5, Raw.fF, Raw.fI, Raw.fFI, Raw.arith, Raw.fma, Raw.unary, Raw.fmt, Raw.dfmt, Raw.rm, Raw.fn, Raw.sat, Raw.k, Raw.c, Raw.scope, must, bind, Except.bind, pure, Except.pure]
theorem RoundTrip.minu (h d a b) : RoundTrip.Statement (.minu h d a b) := by
  intro hw rest
  obtain ⟨hf, hw⟩ := wf rfl hw
  refine decode_encode rfl (admits (sh := (shRR)) (o := 0x36) rfl (by decide) hf
    (by simp [Shape.baseReserved, RegUse.reserved, shRR])
    (by simp [-BitVec.extractLsb'_toNat, Shape.extReserved, Raw.fmt, Raw.rm, Raw.sat, Raw.c, Raw.k, Raw.scope, Raw.fn, RegUse.reserved, objTyped, shRR])
    (by simp [Shape.beyond, RegUse.beyond, Raw.c, shRR]) (fun _ => rfl) (fun _ => rfl)) ?_ rest
  rw [build_eq (o := 0x36) (row := 0x06) (col := 6) rfl (by decide) (by decide)]
  show buildRow06 _ 6 = _
  simp [Instr.fieldsOk, arithOk, Fmt.isFI, scaleOk, accFmt, bandsOk] at hw
  simp only [buildRow06] <;> simp [-BitVec.extractLsb'_toNat, hw, objTyped, Raw.tgt, Raw.im, Raw.intFmt, Raw.sc, Raw.rm5, Raw.fF, Raw.fI, Raw.fFI, Raw.arith, Raw.fma, Raw.unary, Raw.fmt, Raw.dfmt, Raw.rm, Raw.fn, Raw.sat, Raw.k, Raw.c, Raw.scope, must, bind, Except.bind, pure, Except.pure]
theorem RoundTrip.maxu (h d a b) : RoundTrip.Statement (.maxu h d a b) := by
  intro hw rest
  obtain ⟨hf, hw⟩ := wf rfl hw
  refine decode_encode rfl (admits (sh := (shRR)) (o := 0x37) rfl (by decide) hf
    (by simp [Shape.baseReserved, RegUse.reserved, shRR])
    (by simp [-BitVec.extractLsb'_toNat, Shape.extReserved, Raw.fmt, Raw.rm, Raw.sat, Raw.c, Raw.k, Raw.scope, Raw.fn, RegUse.reserved, objTyped, shRR])
    (by simp [Shape.beyond, RegUse.beyond, Raw.c, shRR]) (fun _ => rfl) (fun _ => rfl)) ?_ rest
  rw [build_eq (o := 0x37) (row := 0x06) (col := 7) rfl (by decide) (by decide)]
  show buildRow06 _ 7 = _
  simp [Instr.fieldsOk, arithOk, Fmt.isFI, scaleOk, accFmt, bandsOk] at hw
  simp only [buildRow06] <;> simp [-BitVec.extractLsb'_toNat, hw, objTyped, Raw.tgt, Raw.im, Raw.intFmt, Raw.sc, Raw.rm5, Raw.fF, Raw.fI, Raw.fFI, Raw.arith, Raw.fma, Raw.unary, Raw.fmt, Raw.dfmt, Raw.rm, Raw.fn, Raw.sat, Raw.k, Raw.c, Raw.scope, must, bind, Except.bind, pure, Except.pure]
theorem RoundTrip.mul (h d a b) : RoundTrip.Statement (.mul h d a b) := by
  intro hw rest
  obtain ⟨hf, hw⟩ := wf rfl hw
  refine decode_encode rfl (admits (sh := (shRR)) (o := 0x38) rfl (by decide) hf
    (by simp [Shape.baseReserved, RegUse.reserved, shRR])
    (by simp [-BitVec.extractLsb'_toNat, Shape.extReserved, Raw.fmt, Raw.rm, Raw.sat, Raw.c, Raw.k, Raw.scope, Raw.fn, RegUse.reserved, objTyped, shRR])
    (by simp [Shape.beyond, RegUse.beyond, Raw.c, shRR]) (fun _ => rfl) (fun _ => rfl)) ?_ rest
  rw [build_eq (o := 0x38) (row := 0x07) (col := 0) rfl (by decide) (by decide)]
  show buildRow07 _ 0 = _
  simp [Instr.fieldsOk, arithOk, Fmt.isFI, scaleOk, accFmt, bandsOk] at hw
  simp only [buildRow07] <;> simp [-BitVec.extractLsb'_toNat, hw, objTyped, Raw.tgt, Raw.im, Raw.intFmt, Raw.sc, Raw.rm5, Raw.fF, Raw.fI, Raw.fFI, Raw.arith, Raw.fma, Raw.unary, Raw.fmt, Raw.dfmt, Raw.rm, Raw.fn, Raw.sat, Raw.k, Raw.c, Raw.scope, must, bind, Except.bind, pure, Except.pure]
theorem RoundTrip.mulh (h d a b) : RoundTrip.Statement (.mulh h d a b) := by
  intro hw rest
  obtain ⟨hf, hw⟩ := wf rfl hw
  refine decode_encode rfl (admits (sh := (shRR)) (o := 0x39) rfl (by decide) hf
    (by simp [Shape.baseReserved, RegUse.reserved, shRR])
    (by simp [-BitVec.extractLsb'_toNat, Shape.extReserved, Raw.fmt, Raw.rm, Raw.sat, Raw.c, Raw.k, Raw.scope, Raw.fn, RegUse.reserved, objTyped, shRR])
    (by simp [Shape.beyond, RegUse.beyond, Raw.c, shRR]) (fun _ => rfl) (fun _ => rfl)) ?_ rest
  rw [build_eq (o := 0x39) (row := 0x07) (col := 1) rfl (by decide) (by decide)]
  show buildRow07 _ 1 = _
  simp [Instr.fieldsOk, arithOk, Fmt.isFI, scaleOk, accFmt, bandsOk] at hw
  simp only [buildRow07] <;> simp [-BitVec.extractLsb'_toNat, hw, objTyped, Raw.tgt, Raw.im, Raw.intFmt, Raw.sc, Raw.rm5, Raw.fF, Raw.fI, Raw.fFI, Raw.arith, Raw.fma, Raw.unary, Raw.fmt, Raw.dfmt, Raw.rm, Raw.fn, Raw.sat, Raw.k, Raw.c, Raw.scope, must, bind, Except.bind, pure, Except.pure]
theorem RoundTrip.mulhu (h d a b) : RoundTrip.Statement (.mulhu h d a b) := by
  intro hw rest
  obtain ⟨hf, hw⟩ := wf rfl hw
  refine decode_encode rfl (admits (sh := (shRR)) (o := 0x3A) rfl (by decide) hf
    (by simp [Shape.baseReserved, RegUse.reserved, shRR])
    (by simp [-BitVec.extractLsb'_toNat, Shape.extReserved, Raw.fmt, Raw.rm, Raw.sat, Raw.c, Raw.k, Raw.scope, Raw.fn, RegUse.reserved, objTyped, shRR])
    (by simp [Shape.beyond, RegUse.beyond, Raw.c, shRR]) (fun _ => rfl) (fun _ => rfl)) ?_ rest
  rw [build_eq (o := 0x3A) (row := 0x07) (col := 2) rfl (by decide) (by decide)]
  show buildRow07 _ 2 = _
  simp [Instr.fieldsOk, arithOk, Fmt.isFI, scaleOk, accFmt, bandsOk] at hw
  simp only [buildRow07] <;> simp [-BitVec.extractLsb'_toNat, hw, objTyped, Raw.tgt, Raw.im, Raw.intFmt, Raw.sc, Raw.rm5, Raw.fF, Raw.fI, Raw.fFI, Raw.arith, Raw.fma, Raw.unary, Raw.fmt, Raw.dfmt, Raw.rm, Raw.fn, Raw.sat, Raw.k, Raw.c, Raw.scope, must, bind, Except.bind, pure, Except.pure]
theorem RoundTrip.div (h d a b) : RoundTrip.Statement (.div h d a b) := by
  intro hw rest
  obtain ⟨hf, hw⟩ := wf rfl hw
  refine decode_encode rfl (admits (sh := (shRR)) (o := 0x3B) rfl (by decide) hf
    (by simp [Shape.baseReserved, RegUse.reserved, shRR])
    (by simp [-BitVec.extractLsb'_toNat, Shape.extReserved, Raw.fmt, Raw.rm, Raw.sat, Raw.c, Raw.k, Raw.scope, Raw.fn, RegUse.reserved, objTyped, shRR])
    (by simp [Shape.beyond, RegUse.beyond, Raw.c, shRR]) (fun _ => rfl) (fun _ => rfl)) ?_ rest
  rw [build_eq (o := 0x3B) (row := 0x07) (col := 3) rfl (by decide) (by decide)]
  show buildRow07 _ 3 = _
  simp [Instr.fieldsOk, arithOk, Fmt.isFI, scaleOk, accFmt, bandsOk] at hw
  simp only [buildRow07] <;> simp [-BitVec.extractLsb'_toNat, hw, objTyped, Raw.tgt, Raw.im, Raw.intFmt, Raw.sc, Raw.rm5, Raw.fF, Raw.fI, Raw.fFI, Raw.arith, Raw.fma, Raw.unary, Raw.fmt, Raw.dfmt, Raw.rm, Raw.fn, Raw.sat, Raw.k, Raw.c, Raw.scope, must, bind, Except.bind, pure, Except.pure]
theorem RoundTrip.divu (h d a b) : RoundTrip.Statement (.divu h d a b) := by
  intro hw rest
  obtain ⟨hf, hw⟩ := wf rfl hw
  refine decode_encode rfl (admits (sh := (shRR)) (o := 0x3C) rfl (by decide) hf
    (by simp [Shape.baseReserved, RegUse.reserved, shRR])
    (by simp [-BitVec.extractLsb'_toNat, Shape.extReserved, Raw.fmt, Raw.rm, Raw.sat, Raw.c, Raw.k, Raw.scope, Raw.fn, RegUse.reserved, objTyped, shRR])
    (by simp [Shape.beyond, RegUse.beyond, Raw.c, shRR]) (fun _ => rfl) (fun _ => rfl)) ?_ rest
  rw [build_eq (o := 0x3C) (row := 0x07) (col := 4) rfl (by decide) (by decide)]
  show buildRow07 _ 4 = _
  simp [Instr.fieldsOk, arithOk, Fmt.isFI, scaleOk, accFmt, bandsOk] at hw
  simp only [buildRow07] <;> simp [-BitVec.extractLsb'_toNat, hw, objTyped, Raw.tgt, Raw.im, Raw.intFmt, Raw.sc, Raw.rm5, Raw.fF, Raw.fI, Raw.fFI, Raw.arith, Raw.fma, Raw.unary, Raw.fmt, Raw.dfmt, Raw.rm, Raw.fn, Raw.sat, Raw.k, Raw.c, Raw.scope, must, bind, Except.bind, pure, Except.pure]
theorem RoundTrip.rem (h d a b) : RoundTrip.Statement (.rem h d a b) := by
  intro hw rest
  obtain ⟨hf, hw⟩ := wf rfl hw
  refine decode_encode rfl (admits (sh := (shRR)) (o := 0x3D) rfl (by decide) hf
    (by simp [Shape.baseReserved, RegUse.reserved, shRR])
    (by simp [-BitVec.extractLsb'_toNat, Shape.extReserved, Raw.fmt, Raw.rm, Raw.sat, Raw.c, Raw.k, Raw.scope, Raw.fn, RegUse.reserved, objTyped, shRR])
    (by simp [Shape.beyond, RegUse.beyond, Raw.c, shRR]) (fun _ => rfl) (fun _ => rfl)) ?_ rest
  rw [build_eq (o := 0x3D) (row := 0x07) (col := 5) rfl (by decide) (by decide)]
  show buildRow07 _ 5 = _
  simp [Instr.fieldsOk, arithOk, Fmt.isFI, scaleOk, accFmt, bandsOk] at hw
  simp only [buildRow07] <;> simp [-BitVec.extractLsb'_toNat, hw, objTyped, Raw.tgt, Raw.im, Raw.intFmt, Raw.sc, Raw.rm5, Raw.fF, Raw.fI, Raw.fFI, Raw.arith, Raw.fma, Raw.unary, Raw.fmt, Raw.dfmt, Raw.rm, Raw.fn, Raw.sat, Raw.k, Raw.c, Raw.scope, must, bind, Except.bind, pure, Except.pure]
theorem RoundTrip.remu (h d a b) : RoundTrip.Statement (.remu h d a b) := by
  intro hw rest
  obtain ⟨hf, hw⟩ := wf rfl hw
  refine decode_encode rfl (admits (sh := (shRR)) (o := 0x3E) rfl (by decide) hf
    (by simp [Shape.baseReserved, RegUse.reserved, shRR])
    (by simp [-BitVec.extractLsb'_toNat, Shape.extReserved, Raw.fmt, Raw.rm, Raw.sat, Raw.c, Raw.k, Raw.scope, Raw.fn, RegUse.reserved, objTyped, shRR])
    (by simp [Shape.beyond, RegUse.beyond, Raw.c, shRR]) (fun _ => rfl) (fun _ => rfl)) ?_ rest
  rw [build_eq (o := 0x3E) (row := 0x07) (col := 6) rfl (by decide) (by decide)]
  show buildRow07 _ 6 = _
  simp [Instr.fieldsOk, arithOk, Fmt.isFI, scaleOk, accFmt, bandsOk] at hw
  simp only [buildRow07] <;> simp [-BitVec.extractLsb'_toNat, hw, objTyped, Raw.tgt, Raw.im, Raw.intFmt, Raw.sc, Raw.rm5, Raw.fF, Raw.fI, Raw.fFI, Raw.arith, Raw.fma, Raw.unary, Raw.fmt, Raw.dfmt, Raw.rm, Raw.fn, Raw.sat, Raw.k, Raw.c, Raw.scope, must, bind, Except.bind, pure, Except.pure]
theorem RoundTrip.popc (h d a) : RoundTrip.Statement (.popc h d a) := by
  intro hw rest
  obtain ⟨hf, hw⟩ := wf rfl hw
  refine decode_encode rfl (admits (sh := ({ d := .x, a := .x } : Shape)) (o := 0x3F) rfl (by decide) hf
    (by simp [Shape.baseReserved, RegUse.reserved])
    (by simp [-BitVec.extractLsb'_toNat, Shape.extReserved, Raw.fmt, Raw.rm, Raw.sat, Raw.c, Raw.k, Raw.scope, Raw.fn, RegUse.reserved, objTyped])
    (by simp [Shape.beyond, RegUse.beyond, Raw.c]) (fun _ => rfl) (fun _ => rfl)) ?_ rest
  rw [build_eq (o := 0x3F) (row := 0x07) (col := 7) rfl (by decide) (by decide)]
  show buildRow07 _ 7 = _
  simp [Instr.fieldsOk, arithOk, Fmt.isFI, scaleOk, accFmt, bandsOk] at hw
  simp only [buildRow07] <;> simp [-BitVec.extractLsb'_toNat, hw, objTyped, Raw.tgt, Raw.im, Raw.intFmt, Raw.sc, Raw.rm5, Raw.fF, Raw.fI, Raw.fFI, Raw.arith, Raw.fma, Raw.unary, Raw.fmt, Raw.dfmt, Raw.rm, Raw.fn, Raw.sat, Raw.k, Raw.c, Raw.scope, must, bind, Except.bind, pure, Except.pure]
theorem RoundTrip.lds (h d a f o imm) : RoundTrip.Statement (.lds h d a f o imm) := by
  intro hw rest
  obtain ⟨hf, hw⟩ := wf rfl hw
  refine decode_encode rfl (admits (sh := (shLd)) (o := 0x40) rfl (by decide) hf
    (by simp [Shape.baseReserved, RegUse.reserved, shLd])
    (by simp [-BitVec.extractLsb'_toNat, Shape.extReserved, Raw.fmt, Raw.rm, Raw.sat, Raw.c, Raw.k, Raw.scope, Raw.fn, RegUse.reserved, objTyped, shLd])
    (by simp [Shape.beyond, RegUse.beyond, Raw.c, shLd]) nofun nofun) ?_ rest
  rw [build_eq (o := 0x40) (row := 0x08) (col := 0) rfl (by decide) (by decide)]
  show buildRow08 _ 0 = _
  simp [Instr.fieldsOk, arithOk, Fmt.isFI, scaleOk, accFmt, bandsOk] at hw
  simp only [buildRow08]
  rw [show Raw.ordScope _ _ = _ from ordScope_code' (o := o) (by simp [Raw.scope, objTyped]) (by simp [Raw.fn, objTyped])]
  simp [-BitVec.extractLsb'_toNat, hw, objTyped, Raw.tgt, Raw.im, Raw.intFmt, Raw.sc, Raw.rm5, Raw.fF, Raw.fI, Raw.fFI, Raw.arith, Raw.fma, Raw.unary, Raw.fmt, Raw.dfmt, Raw.rm, Raw.fn, Raw.sat, Raw.k, Raw.c, Raw.scope, must, bind, Except.bind, pure, Except.pure]
theorem RoundTrip.sts (h a b f o imm) : RoundTrip.Statement (.sts h a b f o imm) := by
  intro hw rest
  obtain ⟨hf, hw⟩ := wf rfl hw
  refine decode_encode rfl (admits (sh := (shSt)) (o := 0x41) rfl (by decide) hf
    (by simp [Shape.baseReserved, RegUse.reserved, shSt])
    (by simp [-BitVec.extractLsb'_toNat, Shape.extReserved, Raw.fmt, Raw.rm, Raw.sat, Raw.c, Raw.k, Raw.scope, Raw.fn, RegUse.reserved, objTyped, shSt])
    (by simp [Shape.beyond, RegUse.beyond, Raw.c, shSt]) nofun nofun) ?_ rest
  rw [build_eq (o := 0x41) (row := 0x08) (col := 1) rfl (by decide) (by decide)]
  show buildRow08 _ 1 = _
  simp [Instr.fieldsOk, arithOk, Fmt.isFI, scaleOk, accFmt, bandsOk] at hw
  simp only [buildRow08]
  rw [show Raw.ordScope _ _ = _ from ordScope_code' (o := o) (by simp [Raw.scope, objTyped]) (by simp [Raw.fn, objTyped])]
  simp [-BitVec.extractLsb'_toNat, hw, objTyped, Raw.tgt, Raw.im, Raw.intFmt, Raw.sc, Raw.rm5, Raw.fF, Raw.fI, Raw.fFI, Raw.arith, Raw.fma, Raw.unary, Raw.fmt, Raw.dfmt, Raw.rm, Raw.fn, Raw.sat, Raw.k, Raw.c, Raw.scope, must, bind, Except.bind, pure, Except.pure]
theorem RoundTrip.ldp (h d a f o imm) : RoundTrip.Statement (.ldp h d a f o imm) := by
  intro hw rest
  obtain ⟨hf, hw⟩ := wf rfl hw
  refine decode_encode rfl (admits (sh := (shLd)) (o := 0x42) rfl (by decide) hf
    (by simp [Shape.baseReserved, RegUse.reserved, shLd])
    (by simp [-BitVec.extractLsb'_toNat, Shape.extReserved, Raw.fmt, Raw.rm, Raw.sat, Raw.c, Raw.k, Raw.scope, Raw.fn, RegUse.reserved, objTyped, shLd])
    (by simp [Shape.beyond, RegUse.beyond, Raw.c, shLd]) nofun nofun) ?_ rest
  rw [build_eq (o := 0x42) (row := 0x08) (col := 2) rfl (by decide) (by decide)]
  show buildRow08 _ 2 = _
  simp [Instr.fieldsOk, arithOk, Fmt.isFI, scaleOk, accFmt, bandsOk] at hw
  simp only [buildRow08]
  rw [show Raw.ordScope _ _ = _ from ordScope_code' (o := o) (by simp [Raw.scope, objTyped]) (by simp [Raw.fn, objTyped])]
  simp [-BitVec.extractLsb'_toNat, hw, objTyped, Raw.tgt, Raw.im, Raw.intFmt, Raw.sc, Raw.rm5, Raw.fF, Raw.fI, Raw.fFI, Raw.arith, Raw.fma, Raw.unary, Raw.fmt, Raw.dfmt, Raw.rm, Raw.fn, Raw.sat, Raw.k, Raw.c, Raw.scope, must, bind, Except.bind, pure, Except.pure]
theorem RoundTrip.stp (h a b f o imm) : RoundTrip.Statement (.stp h a b f o imm) := by
  intro hw rest
  obtain ⟨hf, hw⟩ := wf rfl hw
  refine decode_encode rfl (admits (sh := (shSt)) (o := 0x43) rfl (by decide) hf
    (by simp [Shape.baseReserved, RegUse.reserved, shSt])
    (by simp [-BitVec.extractLsb'_toNat, Shape.extReserved, Raw.fmt, Raw.rm, Raw.sat, Raw.c, Raw.k, Raw.scope, Raw.fn, RegUse.reserved, objTyped, shSt])
    (by simp [Shape.beyond, RegUse.beyond, Raw.c, shSt]) nofun nofun) ?_ rest
  rw [build_eq (o := 0x43) (row := 0x08) (col := 3) rfl (by decide) (by decide)]
  show buildRow08 _ 3 = _
  simp [Instr.fieldsOk, arithOk, Fmt.isFI, scaleOk, accFmt, bandsOk] at hw
  simp only [buildRow08]
  rw [show Raw.ordScope _ _ = _ from ordScope_code' (o := o) (by simp [Raw.scope, objTyped]) (by simp [Raw.fn, objTyped])]
  simp [-BitVec.extractLsb'_toNat, hw, objTyped, Raw.tgt, Raw.im, Raw.intFmt, Raw.sc, Raw.rm5, Raw.fF, Raw.fI, Raw.fFI, Raw.arith, Raw.fma, Raw.unary, Raw.fmt, Raw.dfmt, Raw.rm, Raw.fn, Raw.sat, Raw.k, Raw.c, Raw.scope, must, bind, Except.bind, pure, Except.pure]
theorem RoundTrip.ldg (h d a f o imm) : RoundTrip.Statement (.ldg h d a f o imm) := by
  intro hw rest
  obtain ⟨hf, hw⟩ := wf rfl hw
  refine decode_encode rfl (admits (sh := (shLd)) (o := 0x44) rfl (by decide) hf
    (by simp [Shape.baseReserved, RegUse.reserved, shLd])
    (by simp [-BitVec.extractLsb'_toNat, Shape.extReserved, Raw.fmt, Raw.rm, Raw.sat, Raw.c, Raw.k, Raw.scope, Raw.fn, RegUse.reserved, objTyped, shLd])
    (by simp [Shape.beyond, RegUse.beyond, Raw.c, shLd]) nofun nofun) ?_ rest
  rw [build_eq (o := 0x44) (row := 0x08) (col := 4) rfl (by decide) (by decide)]
  show buildRow08 _ 4 = _
  simp [Instr.fieldsOk, arithOk, Fmt.isFI, scaleOk, accFmt, bandsOk] at hw
  simp only [buildRow08]
  rw [show Raw.ordScope _ _ = _ from ordScope_code' (o := o) (by simp [Raw.scope, objTyped]) (by simp [Raw.fn, objTyped])]
  simp [-BitVec.extractLsb'_toNat, hw, objTyped, Raw.tgt, Raw.im, Raw.intFmt, Raw.sc, Raw.rm5, Raw.fF, Raw.fI, Raw.fFI, Raw.arith, Raw.fma, Raw.unary, Raw.fmt, Raw.dfmt, Raw.rm, Raw.fn, Raw.sat, Raw.k, Raw.c, Raw.scope, must, bind, Except.bind, pure, Except.pure]
theorem RoundTrip.stg (h a b f o imm) : RoundTrip.Statement (.stg h a b f o imm) := by
  intro hw rest
  obtain ⟨hf, hw⟩ := wf rfl hw
  refine decode_encode rfl (admits (sh := (shSt)) (o := 0x45) rfl (by decide) hf
    (by simp [Shape.baseReserved, RegUse.reserved, shSt])
    (by simp [-BitVec.extractLsb'_toNat, Shape.extReserved, Raw.fmt, Raw.rm, Raw.sat, Raw.c, Raw.k, Raw.scope, Raw.fn, RegUse.reserved, objTyped, shSt])
    (by simp [Shape.beyond, RegUse.beyond, Raw.c, shSt]) nofun nofun) ?_ rest
  rw [build_eq (o := 0x45) (row := 0x08) (col := 5) rfl (by decide) (by decide)]
  show buildRow08 _ 5 = _
  simp [Instr.fieldsOk, arithOk, Fmt.isFI, scaleOk, accFmt, bandsOk] at hw
  simp only [buildRow08]
  rw [show Raw.ordScope _ _ = _ from ordScope_code' (o := o) (by simp [Raw.scope, objTyped]) (by simp [Raw.fn, objTyped])]
  simp [-BitVec.extractLsb'_toNat, hw, objTyped, Raw.tgt, Raw.im, Raw.intFmt, Raw.sc, Raw.rm5, Raw.fF, Raw.fI, Raw.fFI, Raw.arith, Raw.fma, Raw.unary, Raw.fmt, Raw.dfmt, Raw.rm, Raw.fn, Raw.sat, Raw.k, Raw.c, Raw.scope, must, bind, Except.bind, pure, Except.pure]
theorem RoundTrip.ldx (h d a f o imm) : RoundTrip.Statement (.ldx h d a f o imm) := by
  intro hw rest
  obtain ⟨hf, hw⟩ := wf rfl hw
  refine decode_encode rfl (admits (sh := (shLd)) (o := 0x46) rfl (by decide) hf
    (by simp [Shape.baseReserved, RegUse.reserved, shLd])
    (by simp [-BitVec.extractLsb'_toNat, Shape.extReserved, Raw.fmt, Raw.rm, Raw.sat, Raw.c, Raw.k, Raw.scope, Raw.fn, RegUse.reserved, objTyped, shLd])
    (by simp [Shape.beyond, RegUse.beyond, Raw.c, shLd]) nofun nofun) ?_ rest
  rw [build_eq (o := 0x46) (row := 0x08) (col := 6) rfl (by decide) (by decide)]
  show buildRow08 _ 6 = _
  simp [Instr.fieldsOk, arithOk, Fmt.isFI, scaleOk, accFmt, bandsOk] at hw
  simp only [buildRow08]
  rw [show Raw.ordScope _ _ = _ from ordScope_code' (o := o) (by simp [Raw.scope, objTyped]) (by simp [Raw.fn, objTyped])]
  simp [-BitVec.extractLsb'_toNat, hw, objTyped, Raw.tgt, Raw.im, Raw.intFmt, Raw.sc, Raw.rm5, Raw.fF, Raw.fI, Raw.fFI, Raw.arith, Raw.fma, Raw.unary, Raw.fmt, Raw.dfmt, Raw.rm, Raw.fn, Raw.sat, Raw.k, Raw.c, Raw.scope, must, bind, Except.bind, pure, Except.pure]
theorem RoundTrip.stx (h a b f o imm) : RoundTrip.Statement (.stx h a b f o imm) := by
  intro hw rest
  obtain ⟨hf, hw⟩ := wf rfl hw
  refine decode_encode rfl (admits (sh := (shSt)) (o := 0x47) rfl (by decide) hf
    (by simp [Shape.baseReserved, RegUse.reserved, shSt])
    (by simp [-BitVec.extractLsb'_toNat, Shape.extReserved, Raw.fmt, Raw.rm, Raw.sat, Raw.c, Raw.k, Raw.scope, Raw.fn, RegUse.reserved, objTyped, shSt])
    (by simp [Shape.beyond, RegUse.beyond, Raw.c, shSt]) nofun nofun) ?_ rest
  rw [build_eq (o := 0x47) (row := 0x08) (col := 7) rfl (by decide) (by decide)]
  show buildRow08 _ 7 = _
  simp [Instr.fieldsOk, arithOk, Fmt.isFI, scaleOk, accFmt, bandsOk] at hw
  simp only [buildRow08]
  rw [show Raw.ordScope _ _ = _ from ordScope_code' (o := o) (by simp [Raw.scope, objTyped]) (by simp [Raw.fn, objTyped])]
  simp [-BitVec.extractLsb'_toNat, hw, objTyped, Raw.tgt, Raw.im, Raw.intFmt, Raw.sc, Raw.rm5, Raw.fF, Raw.fI, Raw.fFI, Raw.arith, Raw.fma, Raw.unary, Raw.fmt, Raw.dfmt, Raw.rm, Raw.fn, Raw.sat, Raw.k, Raw.c, Raw.scope, must, bind, Except.bind, pure, Except.pure]
theorem RoundTrip.qset (h d a n) : RoundTrip.Statement (.qset h d a n) := by
  intro hw rest
  obtain ⟨hf, hw⟩ := wf rfl hw
  refine decode_encode rfl (admits (sh := ({ d := .q, a := .x, immed := true, imm := 3 } : Shape)) (o := 0x50) rfl (by decide) hf
    (by simp [Shape.baseReserved, RegUse.reserved])
    (by simp [-BitVec.extractLsb'_toNat, Shape.extReserved, Raw.fmt, Raw.rm, Raw.sat, Raw.c, Raw.k, Raw.scope, Raw.fn, RegUse.reserved, objTyped])
    (by simp [Shape.beyond, RegUse.beyond, Raw.c]) (fun _ => rfl) nofun) ?_ rest
  rw [build_eq (o := 0x50) (row := 0x0A) (col := 0) rfl (by decide) (by decide)]
  show buildRow0A _ 0 = _
  simp [Instr.fieldsOk, arithOk, Fmt.isFI, scaleOk, accFmt, bandsOk] at hw
  simp only [buildRow0A] <;> simp [-BitVec.extractLsb'_toNat, hw, objTyped, Raw.tgt, Raw.im, Raw.intFmt, Raw.sc, Raw.rm5, Raw.fF, Raw.fI, Raw.fFI, Raw.arith, Raw.fma, Raw.unary, Raw.fmt, Raw.dfmt, Raw.rm, Raw.fn, Raw.sat, Raw.k, Raw.c, Raw.scope, must, bind, Except.bind, pure, Except.pure]
theorem RoundTrip.qld (h d a imm) : RoundTrip.Statement (.qld h d a imm) := by
  intro hw rest
  obtain ⟨hf, hw⟩ := wf rfl hw
  refine decode_encode rfl (admits (sh := ({ d := .q, a := .x, immed := true, imm := 0xFFFFFFFF } : Shape)) (o := 0x51) rfl (by decide) hf
    (by simp [Shape.baseReserved, RegUse.reserved])
    (by simp [-BitVec.extractLsb'_toNat, Shape.extReserved, Raw.fmt, Raw.rm, Raw.sat, Raw.c, Raw.k, Raw.scope, Raw.fn, RegUse.reserved, objTyped])
    (by simp [Shape.beyond, RegUse.beyond, Raw.c]) (fun _ => rfl) nofun) ?_ rest
  rw [build_eq (o := 0x51) (row := 0x0A) (col := 1) rfl (by decide) (by decide)]
  show buildRow0A _ 1 = _
  simp [Instr.fieldsOk, arithOk, Fmt.isFI, scaleOk, accFmt, bandsOk] at hw
  simp only [buildRow0A] <;> simp [-BitVec.extractLsb'_toNat, hw, objTyped, Raw.tgt, Raw.im, Raw.intFmt, Raw.sc, Raw.rm5, Raw.fF, Raw.fI, Raw.fFI, Raw.arith, Raw.fma, Raw.unary, Raw.fmt, Raw.dfmt, Raw.rm, Raw.fn, Raw.sat, Raw.k, Raw.c, Raw.scope, must, bind, Except.bind, pure, Except.pure]
theorem RoundTrip.qst (h a b imm) : RoundTrip.Statement (.qst h a b imm) := by
  intro hw rest
  obtain ⟨hf, hw⟩ := wf rfl hw
  refine decode_encode rfl (admits (sh := ({ a := .q, b := .x, immed := true, imm := 0xFFFFFFFF } : Shape)) (o := 0x52) rfl (by decide) hf
    (by simp [Shape.baseReserved, RegUse.reserved])
    (by simp [-BitVec.extractLsb'_toNat, Shape.extReserved, Raw.fmt, Raw.rm, Raw.sat, Raw.c, Raw.k, Raw.scope, Raw.fn, RegUse.reserved, objTyped])
    (by simp [Shape.beyond, RegUse.beyond, Raw.c]) (fun _ => rfl) nofun) ?_ rest
  rw [build_eq (o := 0x52) (row := 0x0A) (col := 2) rfl (by decide) (by decide)]
  show buildRow0A _ 2 = _
  simp [Instr.fieldsOk, arithOk, Fmt.isFI, scaleOk, accFmt, bandsOk] at hw
  simp only [buildRow0A] <;> simp [-BitVec.extractLsb'_toNat, hw, objTyped, Raw.tgt, Raw.im, Raw.intFmt, Raw.sc, Raw.rm5, Raw.fF, Raw.fI, Raw.fFI, Raw.arith, Raw.fma, Raw.unary, Raw.fmt, Raw.dfmt, Raw.rm, Raw.fn, Raw.sat, Raw.k, Raw.c, Raw.scope, must, bind, Except.bind, pure, Except.pure]
theorem RoundTrip.qmov (h d a) : RoundTrip.Statement (.qmov h d a) := by
  intro hw rest
  obtain ⟨hf, hw⟩ := wf rfl hw
  refine decode_encode rfl (admits (sh := ({ d := .q, a := .q } : Shape)) (o := 0x53) rfl (by decide) hf
    (by simp [Shape.baseReserved, RegUse.reserved])
    (by simp [-BitVec.extractLsb'_toNat, Shape.extReserved, Raw.fmt, Raw.rm, Raw.sat, Raw.c, Raw.k, Raw.scope, Raw.fn, RegUse.reserved, objTyped])
    (by simp [Shape.beyond, RegUse.beyond, Raw.c]) (fun _ => rfl) (fun _ => rfl)) ?_ rest
  rw [build_eq (o := 0x53) (row := 0x0A) (col := 3) rfl (by decide) (by decide)]
  show buildRow0A _ 3 = _
  simp [Instr.fieldsOk, arithOk, Fmt.isFI, scaleOk, accFmt, bandsOk] at hw
  simp only [buildRow0A] <;> simp [-BitVec.extractLsb'_toNat, hw, objTyped, Raw.tgt, Raw.im, Raw.intFmt, Raw.sc, Raw.rm5, Raw.fF, Raw.fI, Raw.fFI, Raw.arith, Raw.fma, Raw.unary, Raw.fmt, Raw.dfmt, Raw.rm, Raw.fn, Raw.sat, Raw.k, Raw.c, Raw.scope, must, bind, Except.bind, pure, Except.pure]
theorem RoundTrip.qadv (h d a b imm) : RoundTrip.Statement (.qadv h d a b imm) := by
  intro hw rest
  obtain ⟨hf, hw⟩ := wf rfl hw
  refine decode_encode rfl (admits (sh := ({ d := .q, a := .x, b := .x, immed := true, imm := 0xFFFFFFFF } : Shape)) (o := 0x54) rfl (by decide) hf
    (by simp [Shape.baseReserved, RegUse.reserved])
    (by simp [-BitVec.extractLsb'_toNat, Shape.extReserved, Raw.fmt, Raw.rm, Raw.sat, Raw.c, Raw.k, Raw.scope, Raw.fn, RegUse.reserved, objTyped])
    (by simp [Shape.beyond, RegUse.beyond, Raw.c]) (fun _ => rfl) nofun) ?_ rest
  rw [build_eq (o := 0x54) (row := 0x0A) (col := 4) rfl (by decide) (by decide)]
  show buildRow0A _ 4 = _
  simp [Instr.fieldsOk, arithOk, Fmt.isFI, scaleOk, accFmt, bandsOk] at hw
  simp only [buildRow0A] <;> simp [-BitVec.extractLsb'_toNat, hw, objTyped, Raw.tgt, Raw.im, Raw.intFmt, Raw.sc, Raw.rm5, Raw.fF, Raw.fI, Raw.fFI, Raw.arith, Raw.fma, Raw.unary, Raw.fmt, Raw.dfmt, Raw.rm, Raw.fn, Raw.sat, Raw.k, Raw.c, Raw.scope, must, bind, Except.bind, pure, Except.pure]
theorem RoundTrip.qget (h d a n) : RoundTrip.Statement (.qget h d a n) := by
  intro hw rest
  obtain ⟨hf, hw⟩ := wf rfl hw
  refine decode_encode rfl (admits (sh := ({ d := .x, a := .q, b := .bits 3 } : Shape)) (o := 0x55) rfl (by decide) hf
    (by simp [Shape.baseReserved, RegUse.reserved])
    (by simp [-BitVec.extractLsb'_toNat, Shape.extReserved, Raw.fmt, Raw.rm, Raw.sat, Raw.c, Raw.k, Raw.scope, Raw.fn, RegUse.reserved, objTyped])
    (by simp [Shape.beyond, RegUse.beyond, Raw.c]) (fun _ => rfl) (fun _ => rfl)) ?_ rest
  rw [build_eq (o := 0x55) (row := 0x0A) (col := 5) rfl (by decide) (by decide)]
  show buildRow0A _ 5 = _
  simp [Instr.fieldsOk, arithOk, Fmt.isFI, scaleOk, accFmt, bandsOk] at hw
  simp only [buildRow0A] <;> simp [-BitVec.extractLsb'_toNat, hw, objTyped, Raw.tgt, Raw.im, Raw.intFmt, Raw.sc, Raw.rm5, Raw.fF, Raw.fI, Raw.fFI, Raw.arith, Raw.fma, Raw.unary, Raw.fmt, Raw.dfmt, Raw.rm, Raw.fn, Raw.sat, Raw.k, Raw.c, Raw.scope, must, bind, Except.bind, pure, Except.pure]
theorem RoundTrip.qchk (h d a u) : RoundTrip.Statement (.qchk h d a u) := by
  intro hw rest
  obtain ⟨hf, hw⟩ := wf rfl hw
  refine decode_encode rfl (admits (sh := ({ d := .x, a := .q, immed := true, imm := 1 } : Shape)) (o := 0x56) rfl (by decide) hf
    (by simp [Shape.baseReserved, RegUse.reserved])
    (by simp [-BitVec.extractLsb'_toNat, Shape.extReserved, Raw.fmt, Raw.rm, Raw.sat, Raw.c, Raw.k, Raw.scope, Raw.fn, RegUse.reserved, objTyped])
    (by simp [Shape.beyond, RegUse.beyond, Raw.c]) (fun _ => rfl) nofun) ?_ rest
  rw [build_eq (o := 0x56) (row := 0x0A) (col := 6) rfl (by decide) (by decide)]
  show buildRow0A _ 6 = _
  simp [Instr.fieldsOk, arithOk, Fmt.isFI, scaleOk, accFmt, bandsOk] at hw
  simp only [buildRow0A] <;> simp [-BitVec.extractLsb'_toNat, hw, objTyped, Raw.tgt, Raw.im, Raw.intFmt, Raw.sc, Raw.rm5, Raw.fF, Raw.fI, Raw.fFI, Raw.arith, Raw.fma, Raw.unary, Raw.fmt, Raw.dfmt, Raw.rm, Raw.fn, Raw.sat, Raw.k, Raw.c, Raw.scope, must, bind, Except.bind, pure, Except.pure]
theorem RoundTrip.qwp (h d ch en) : RoundTrip.Statement (.qwp h d ch en) := by
  intro hw rest
  obtain ⟨hf, hw⟩ := wf rfl hw
  refine decode_encode rfl (admits (sh := ({ d := .q, immed := true, imm := 0xF } : Shape)) (o := 0x57) rfl (by decide) hf
    (by simp [Shape.baseReserved, RegUse.reserved])
    (by simp [-BitVec.extractLsb'_toNat, Shape.extReserved, Raw.fmt, Raw.rm, Raw.sat, Raw.c, Raw.k, Raw.scope, Raw.fn, RegUse.reserved, objTyped])
    (by simp [Shape.beyond, RegUse.beyond, Raw.c]) (fun _ => rfl) nofun) ?_ rest
  rw [build_eq (o := 0x57) (row := 0x0A) (col := 7) rfl (by decide) (by decide)]
  show buildRow0A _ 7 = _
  simp [Instr.fieldsOk, arithOk, Fmt.isFI, scaleOk, accFmt, bandsOk] at hw
  simp only [buildRow0A] <;> simp [-BitVec.extractLsb'_toNat, hw, objTyped, Raw.tgt, Raw.im, Raw.intFmt, Raw.sc, Raw.rm5, Raw.fF, Raw.fI, Raw.fFI, Raw.arith, Raw.fma, Raw.unary, Raw.fmt, Raw.dfmt, Raw.rm, Raw.fn, Raw.sat, Raw.k, Raw.c, Raw.scope, must, bind, Except.bind, pure, Except.pure]
theorem RoundTrip.cpLl (h d a b o) : RoundTrip.Statement (.cpLl h d a b o) := by
  intro hw rest
  obtain ⟨hf, hw⟩ := wf rfl hw
  refine decode_encode rfl (admits (sh := (shCp)) (o := 0x58) rfl (by decide) hf
    (by simp [Shape.baseReserved, RegUse.reserved, shCp])
    (by simp [-BitVec.extractLsb'_toNat, Shape.extReserved, Raw.fmt, Raw.rm, Raw.sat, Raw.c, Raw.k, Raw.scope, Raw.fn, RegUse.reserved, objTyped, shCp])
    (by simp [Shape.beyond, RegUse.beyond, Raw.c, shCp]) nofun (fun _ => rfl)) ?_ rest
  rw [build_eq (o := 0x58) (row := 0x0B) (col := 0) rfl (by decide) (by decide)]
  show buildRow0B _ 0 = _
  simp only [Instr.fieldsOk] at hw
  simp only [buildRow0B]
  rw [copySpec_typed (o := o) (n := 0x58) rfl rfl (by simpa [copyRow] using hw)]
  rfl
theorem RoundTrip.cpLp (h d a b o) : RoundTrip.Statement (.cpLp h d a b o) := by
  intro hw rest
  obtain ⟨hf, hw⟩ := wf rfl hw
  refine decode_encode rfl (admits (sh := (shCp)) (o := 0x59) rfl (by decide) hf
    (by simp [Shape.baseReserved, RegUse.reserved, shCp])
    (by simp [-BitVec.extractLsb'_toNat, Shape.extReserved, Raw.fmt, Raw.rm, Raw.sat, Raw.c, Raw.k, Raw.scope, Raw.fn, RegUse.reserved, objTyped, shCp])
    (by simp [Shape.beyond, RegUse.beyond, Raw.c, shCp]) nofun (fun _ => rfl)) ?_ rest
  rw [build_eq (o := 0x59) (row := 0x0B) (col := 1) rfl (by decide) (by decide)]
  show buildRow0B _ 1 = _
  simp only [Instr.fieldsOk] at hw
  simp only [buildRow0B]
  rw [copySpec_typed (o := o) (n := 0x59) rfl rfl (by simpa [copyRow] using hw)]
  rfl
theorem RoundTrip.cpPl (h d a b o) : RoundTrip.Statement (.cpPl h d a b o) := by
  intro hw rest
  obtain ⟨hf, hw⟩ := wf rfl hw
  refine decode_encode rfl (admits (sh := (shCp)) (o := 0x5A) rfl (by decide) hf
    (by simp [Shape.baseReserved, RegUse.reserved, shCp])
    (by simp [-BitVec.extractLsb'_toNat, Shape.extReserved, Raw.fmt, Raw.rm, Raw.sat, Raw.c, Raw.k, Raw.scope, Raw.fn, RegUse.reserved, objTyped, shCp])
    (by simp [Shape.beyond, RegUse.beyond, Raw.c, shCp]) nofun (fun _ => rfl)) ?_ rest
  rw [build_eq (o := 0x5A) (row := 0x0B) (col := 2) rfl (by decide) (by decide)]
  show buildRow0B _ 2 = _
  simp only [Instr.fieldsOk] at hw
  simp only [buildRow0B]
  rw [copySpec_typed (o := o) (n := 0x5A) rfl rfl (by simpa [copyRow] using hw)]
  rfl
theorem RoundTrip.cpLf (h d a b o) : RoundTrip.Statement (.cpLf h d a b o) := by
  intro hw rest
  obtain ⟨hf, hw⟩ := wf rfl hw
  refine decode_encode rfl (admits (sh := (shCp)) (o := 0x5B) rfl (by decide) hf
    (by simp [Shape.baseReserved, RegUse.reserved, shCp])
    (by simp [-BitVec.extractLsb'_toNat, Shape.extReserved, Raw.fmt, Raw.rm, Raw.sat, Raw.c, Raw.k, Raw.scope, Raw.fn, RegUse.reserved, objTyped, shCp])
    (by simp [Shape.beyond, RegUse.beyond, Raw.c, shCp]) nofun (fun _ => rfl)) ?_ rest
  rw [build_eq (o := 0x5B) (row := 0x0B) (col := 3) rfl (by decide) (by decide)]
  show buildRow0B _ 3 = _
  simp only [Instr.fieldsOk] at hw
  simp only [buildRow0B]
  rw [copySpec_typed (o := o) (n := 0x5B) rfl rfl (by simpa [copyRow] using hw)]
  rfl
theorem RoundTrip.cpLw (h d a b o) : RoundTrip.Statement (.cpLw h d a b o) := by
  intro hw rest
  obtain ⟨hf, hw⟩ := wf rfl hw
  refine decode_encode rfl (admits (sh := (shCp)) (o := 0x5C) rfl (by decide) hf
    (by simp [Shape.baseReserved, RegUse.reserved, shCp])
    (by simp [-BitVec.extractLsb'_toNat, Shape.extReserved, Raw.fmt, Raw.rm, Raw.sat, Raw.c, Raw.k, Raw.scope, Raw.fn, RegUse.reserved, objTyped, shCp])
    (by simp [Shape.beyond, RegUse.beyond, Raw.c, shCp]) nofun (fun _ => rfl)) ?_ rest
  rw [build_eq (o := 0x5C) (row := 0x0B) (col := 4) rfl (by decide) (by decide)]
  show buildRow0B _ 4 = _
  simp only [Instr.fieldsOk] at hw
  simp only [buildRow0B]
  rw [copySpec_typed (o := o) (n := 0x5C) rfl rfl (by simpa [copyRow] using hw)]
  rfl
theorem RoundTrip.cpLg (h d a b o) : RoundTrip.Statement (.cpLg h d a b o) := by
  intro hw rest
  obtain ⟨hf, hw⟩ := wf rfl hw
  refine decode_encode rfl (admits (sh := (shCp)) (o := 0x5D) rfl (by decide) hf
    (by simp [Shape.baseReserved, RegUse.reserved, shCp])
    (by simp [-BitVec.extractLsb'_toNat, Shape.extReserved, Raw.fmt, Raw.rm, Raw.sat, Raw.c, Raw.k, Raw.scope, Raw.fn, RegUse.reserved, objTyped, shCp])
    (by simp [Shape.beyond, RegUse.beyond, Raw.c, shCp]) nofun (fun _ => rfl)) ?_ rest
  rw [build_eq (o := 0x5D) (row := 0x0B) (col := 5) rfl (by decide) (by decide)]
  show buildRow0B _ 5 = _
  simp only [Instr.fieldsOk] at hw
  simp only [buildRow0B]
  rw [copySpec_typed (o := o) (n := 0x5D) rfl rfl (by simpa [copyRow] using hw)]
  rfl
theorem RoundTrip.cpGl (h d a b o) : RoundTrip.Statement (.cpGl h d a b o) := by
  intro hw rest
  obtain ⟨hf, hw⟩ := wf rfl hw
  refine decode_encode rfl (admits (sh := (shCp)) (o := 0x5E) rfl (by decide) hf
    (by simp [Shape.baseReserved, RegUse.reserved, shCp])
    (by simp [-BitVec.extractLsb'_toNat, Shape.extReserved, Raw.fmt, Raw.rm, Raw.sat, Raw.c, Raw.k, Raw.scope, Raw.fn, RegUse.reserved, objTyped, shCp])
    (by simp [Shape.beyond, RegUse.beyond, Raw.c, shCp]) nofun (fun _ => rfl)) ?_ rest
  rw [build_eq (o := 0x5E) (row := 0x0B) (col := 6) rfl (by decide) (by decide)]
  show buildRow0B _ 6 = _
  simp only [Instr.fieldsOk] at hw
  simp only [buildRow0B]
  rw [copySpec_typed (o := o) (n := 0x5E) rfl rfl (by simpa [copyRow] using hw)]
  rfl
theorem RoundTrip.cpGg (h d a b o) : RoundTrip.Statement (.cpGg h d a b o) := by
  intro hw rest
  obtain ⟨hf, hw⟩ := wf rfl hw
  refine decode_encode rfl (admits (sh := (shCp)) (o := 0x5F) rfl (by decide) hf
    (by simp [Shape.baseReserved, RegUse.reserved, shCp])
    (by simp [-BitVec.extractLsb'_toNat, Shape.extReserved, Raw.fmt, Raw.rm, Raw.sat, Raw.c, Raw.k, Raw.scope, Raw.fn, RegUse.reserved, objTyped, shCp])
    (by simp [Shape.beyond, RegUse.beyond, Raw.c, shCp]) nofun (fun _ => rfl)) ?_ rest
  rw [build_eq (o := 0x5F) (row := 0x0B) (col := 7) rfl (by decide) (by decide)]
  show buildRow0B _ 7 = _
  simp only [Instr.fieldsOk] at hw
  simp only [buildRow0B]
  rw [copySpec_typed (o := o) (n := 0x5F) rfl rfl (by simpa [copyRow] using hw)]
  rfl
theorem RoundTrip.cpLx (h d a b o) : RoundTrip.Statement (.cpLx h d a b o) := by
  intro hw rest
  obtain ⟨hf, hw⟩ := wf rfl hw
  refine decode_encode rfl (admits (sh := (shCp)) (o := 0x60) rfl (by decide) hf
    (by simp [Shape.baseReserved, RegUse.reserved, shCp])
    (by simp [-BitVec.extractLsb'_toNat, Shape.extReserved, Raw.fmt, Raw.rm, Raw.sat, Raw.c, Raw.k, Raw.scope, Raw.fn, RegUse.reserved, objTyped, shCp])
    (by simp [Shape.beyond, RegUse.beyond, Raw.c, shCp]) nofun (fun _ => rfl)) ?_ rest
  rw [build_eq (o := 0x60) (row := 0x0C) (col := 0) rfl (by decide) (by decide)]
  show buildRow0C _ 0 = _
  simp only [Instr.fieldsOk] at hw
  simp only [buildRow0C]
  rw [copySpec_typed (o := o) (n := 0x60) rfl rfl (by simpa [copyRow] using hw)]
  rfl
theorem RoundTrip.cpXl (h d a b o) : RoundTrip.Statement (.cpXl h d a b o) := by
  intro hw rest
  obtain ⟨hf, hw⟩ := wf rfl hw
  refine decode_encode rfl (admits (sh := (shCp)) (o := 0x61) rfl (by decide) hf
    (by simp [Shape.baseReserved, RegUse.reserved, shCp])
    (by simp [-BitVec.extractLsb'_toNat, Shape.extReserved, Raw.fmt, Raw.rm, Raw.sat, Raw.c, Raw.k, Raw.scope, Raw.fn, RegUse.reserved, objTyped, shCp])
    (by simp [Shape.beyond, RegUse.beyond, Raw.c, shCp]) nofun (fun _ => rfl)) ?_ rest
  rw [build_eq (o := 0x61) (row := 0x0C) (col := 1) rfl (by decide) (by decide)]
  show buildRow0C _ 1 = _
  simp only [Instr.fieldsOk] at hw
  simp only [buildRow0C]
  rw [copySpec_typed (o := o) (n := 0x61) rfl rfl (by simpa [copyRow] using hw)]
  rfl
theorem RoundTrip.cpGx (h d a b o) : RoundTrip.Statement (.cpGx h d a b o) := by
  intro hw rest
  obtain ⟨hf, hw⟩ := wf rfl hw
  refine decode_encode rfl (admits (sh := (shCp)) (o := 0x62) rfl (by decide) hf
    (by simp [Shape.baseReserved, RegUse.reserved, shCp])
    (by simp [-BitVec.extractLsb'_toNat, Shape.extReserved, Raw.fmt, Raw.rm, Raw.sat, Raw.c, Raw.k, Raw.scope, Raw.fn, RegUse.reserved, objTyped, shCp])
    (by simp [Shape.beyond, RegUse.beyond, Raw.c, shCp]) nofun (fun _ => rfl)) ?_ rest
  rw [build_eq (o := 0x62) (row := 0x0C) (col := 2) rfl (by decide) (by decide)]
  show buildRow0C _ 2 = _
  simp only [Instr.fieldsOk] at hw
  simp only [buildRow0C]
  rw [copySpec_typed (o := o) (n := 0x62) rfl rfl (by simpa [copyRow] using hw)]
  rfl
theorem RoundTrip.cpXg (h d a b o) : RoundTrip.Statement (.cpXg h d a b o) := by
  intro hw rest
  obtain ⟨hf, hw⟩ := wf rfl hw
  refine decode_encode rfl (admits (sh := (shCp)) (o := 0x63) rfl (by decide) hf
    (by simp [Shape.baseReserved, RegUse.reserved, shCp])
    (by simp [-BitVec.extractLsb'_toNat, Shape.extReserved, Raw.fmt, Raw.rm, Raw.sat, Raw.c, Raw.k, Raw.scope, Raw.fn, RegUse.reserved, objTyped, shCp])
    (by simp [Shape.beyond, RegUse.beyond, Raw.c, shCp]) nofun (fun _ => rfl)) ?_ rest
  rw [build_eq (o := 0x63) (row := 0x0C) (col := 3) rfl (by decide) (by decide)]
  show buildRow0C _ 3 = _
  simp only [Instr.fieldsOk] at hw
  simp only [buildRow0C]
  rw [copySpec_typed (o := o) (n := 0x63) rfl rfl (by simpa [copyRow] using hw)]
  rfl
theorem RoundTrip.cpAl (h d a b o) : RoundTrip.Statement (.cpAl h d a b o) := by
  intro hw rest
  obtain ⟨hf, hw⟩ := wf rfl hw
  refine decode_encode rfl (admits (sh := (shCp)) (o := 0x64) rfl (by decide) hf
    (by simp [Shape.baseReserved, RegUse.reserved, shCp])
    (by simp [-BitVec.extractLsb'_toNat, Shape.extReserved, Raw.fmt, Raw.rm, Raw.sat, Raw.c, Raw.k, Raw.scope, Raw.fn, RegUse.reserved, objTyped, shCp])
    (by simp [Shape.beyond, RegUse.beyond, Raw.c, shCp]) nofun (fun _ => rfl)) ?_ rest
  rw [build_eq (o := 0x64) (row := 0x0C) (col := 4) rfl (by decide) (by decide)]
  show buildRow0C _ 4 = _
  simp only [Instr.fieldsOk] at hw
  simp only [buildRow0C]
  rw [copySpec_typed (o := o) (n := 0x64) rfl rfl (by simpa [copyRow] using hw)]
  rfl
theorem RoundTrip.cpAg (h d a b o) : RoundTrip.Statement (.cpAg h d a b o) := by
  intro hw rest
  obtain ⟨hf, hw⟩ := wf rfl hw
  refine decode_encode rfl (admits (sh := (shCp)) (o := 0x65) rfl (by decide) hf
    (by simp [Shape.baseReserved, RegUse.reserved, shCp])
    (by simp [-BitVec.extractLsb'_toNat, Shape.extReserved, Raw.fmt, Raw.rm, Raw.sat, Raw.c, Raw.k, Raw.scope, Raw.fn, RegUse.reserved, objTyped, shCp])
    (by simp [Shape.beyond, RegUse.beyond, Raw.c, shCp]) nofun (fun _ => rfl)) ?_ rest
  rw [build_eq (o := 0x65) (row := 0x0C) (col := 5) rfl (by decide) (by decide)]
  show buildRow0C _ 5 = _
  simp only [Instr.fieldsOk] at hw
  simp only [buildRow0C]
  rw [copySpec_typed (o := o) (n := 0x65) rfl rfl (by simpa [copyRow] using hw)]
  rfl
theorem RoundTrip.cpAw (h d a b o) : RoundTrip.Statement (.cpAw h d a b o) := by
  intro hw rest
  obtain ⟨hf, hw⟩ := wf rfl hw
  refine decode_encode rfl (admits (sh := (shCp)) (o := 0x66) rfl (by decide) hf
    (by simp [Shape.baseReserved, RegUse.reserved, shCp])
    (by simp [-BitVec.extractLsb'_toNat, Shape.extReserved, Raw.fmt, Raw.rm, Raw.sat, Raw.c, Raw.k, Raw.scope, Raw.fn, RegUse.reserved, objTyped, shCp])
    (by simp [Shape.beyond, RegUse.beyond, Raw.c, shCp]) nofun (fun _ => rfl)) ?_ rest
  rw [build_eq (o := 0x66) (row := 0x0C) (col := 6) rfl (by decide) (by decide)]
  show buildRow0C _ 6 = _
  simp only [Instr.fieldsOk] at hw
  simp only [buildRow0C]
  rw [copySpec_typed (o := o) (n := 0x66) rfl rfl (by simpa [copyRow] using hw)]
  rfl
theorem RoundTrip.cpGw (h d a b o) : RoundTrip.Statement (.cpGw h d a b o) := by
  intro hw rest
  obtain ⟨hf, hw⟩ := wf rfl hw
  refine decode_encode rfl (admits (sh := (shCp)) (o := 0x67) rfl (by decide) hf
    (by simp [Shape.baseReserved, RegUse.reserved, shCp])
    (by simp [-BitVec.extractLsb'_toNat, Shape.extReserved, Raw.fmt, Raw.rm, Raw.sat, Raw.c, Raw.k, Raw.scope, Raw.fn, RegUse.reserved, objTyped, shCp])
    (by simp [Shape.beyond, RegUse.beyond, Raw.c, shCp]) nofun (fun _ => rfl)) ?_ rest
  rw [build_eq (o := 0x67) (row := 0x0C) (col := 7) rfl (by decide) (by decide)]
  show buildRow0C _ 7 = _
  simp only [Instr.fieldsOk] at hw
  simp only [buildRow0C]
  rw [copySpec_typed (o := o) (n := 0x67) rfl rfl (by simpa [copyRow] using hw)]
  rfl
theorem RoundTrip.binit (h sp a b) : RoundTrip.Statement (.binit h sp a b) := by
  intro hw rest
  obtain ⟨hf, hw⟩ := wf rfl hw
  refine decode_encode rfl (admits (sh := ({ a := .x, b := .x, typed := true, fn := 3 } : Shape)) (o := 0x68) rfl (by decide) hf
    (by simp [Shape.baseReserved, RegUse.reserved])
    (by simp [-BitVec.extractLsb'_toNat, Shape.extReserved, Raw.fmt, Raw.rm, Raw.sat, Raw.c, Raw.k, Raw.scope, Raw.fn, RegUse.reserved, objTyped])
    (by simp [Shape.beyond, RegUse.beyond, Raw.c]) nofun (fun _ => rfl)) ?_ rest
  rw [build_eq (o := 0x68) (row := 0x0D) (col := 0) rfl (by decide) (by decide)]
  show buildRow0D _ 0 = _
  simp [Instr.fieldsOk, arithOk, Fmt.isFI, scaleOk, accFmt, bandsOk] at hw
  simp only [buildRow0D] <;> simp [-BitVec.extractLsb'_toNat, hw, objTyped, Raw.tgt, Raw.im, Raw.intFmt, Raw.sc, Raw.rm5, Raw.fF, Raw.fI, Raw.fFI, Raw.arith, Raw.fma, Raw.unary, Raw.fmt, Raw.dfmt, Raw.rm, Raw.fn, Raw.sat, Raw.k, Raw.c, Raw.scope, must, bind, Except.bind, pure, Except.pure]
theorem RoundTrip.barr (h sp a o) : RoundTrip.Statement (.barr h sp a o) := by
  intro hw rest
  obtain ⟨hf, hw⟩ := wf rfl hw
  refine decode_encode rfl (admits (sh := ({ a := .x, typed := true, scope := true, fn := 7 } : Shape)) (o := 0x69) rfl (by decide) hf
    (by simp [Shape.baseReserved, RegUse.reserved])
    (by simp [-BitVec.extractLsb'_toNat, Shape.extReserved, Raw.fmt, Raw.rm, Raw.sat, Raw.c, Raw.k, Raw.scope, Raw.fn, RegUse.reserved, objTyped])
    (by simp [Shape.beyond, RegUse.beyond, Raw.c]) nofun (fun _ => rfl)) ?_ rest
  rw [build_eq (o := 0x69) (row := 0x0D) (col := 1) rfl (by decide) (by decide)]
  show buildRow0D _ 1 = _
  simp [Instr.fieldsOk, arithOk, Fmt.isFI, scaleOk, accFmt, bandsOk] at hw
  simp only [buildRow0D]
  rw [show Raw.ordScope _ _ = _ from ordScope_code' (o := o) (by simp [Raw.scope, objTyped]) (by simp [Raw.fn, objTyped])]
  simp [-BitVec.extractLsb'_toNat, hw, objTyped, Raw.tgt, Raw.im, Raw.intFmt, Raw.sc, Raw.rm5, Raw.fF, Raw.fI, Raw.fFI, Raw.arith, Raw.fma, Raw.unary, Raw.fmt, Raw.dfmt, Raw.rm, Raw.fn, Raw.sat, Raw.k, Raw.c, Raw.scope, must, bind, Except.bind, pure, Except.pure]
theorem RoundTrip.bwait (h sp d a b o) : RoundTrip.Statement (.bwait h sp d a b o) := by
  intro hw rest
  obtain ⟨hf, hw⟩ := wf rfl hw
  refine decode_encode rfl (admits (sh := (shWt .x 7)) (o := 0x6A) rfl (by decide) hf
    (by simp [Shape.baseReserved, RegUse.reserved, shWt])
    (by simp [-BitVec.extractLsb'_toNat, Shape.extReserved, Raw.fmt, Raw.rm, Raw.sat, Raw.c, Raw.k, Raw.scope, Raw.fn, RegUse.reserved, objTyped, shWt])
    (by simp [Shape.beyond, RegUse.beyond, Raw.c, shWt]) nofun (fun _ => rfl)) ?_ rest
  rw [build_eq (o := 0x6A) (row := 0x0D) (col := 2) rfl (by decide) (by decide)]
  show buildRow0D _ 2 = _
  simp [Instr.fieldsOk, arithOk, Fmt.isFI, scaleOk, accFmt, bandsOk] at hw
  simp only [buildRow0D]
  rw [show Raw.ordScope _ _ = _ from ordScope_code' (o := o) (by simp [Raw.scope, objTyped]) (by simp [Raw.fn, objTyped])]
  simp [-BitVec.extractLsb'_toNat, hw, objTyped, Raw.tgt, Raw.im, Raw.intFmt, Raw.sc, Raw.rm5, Raw.fF, Raw.fI, Raw.fFI, Raw.arith, Raw.fma, Raw.unary, Raw.fmt, Raw.dfmt, Raw.rm, Raw.fn, Raw.sat, Raw.k, Raw.c, Raw.scope, must, bind, Except.bind, pure, Except.pure]
theorem RoundTrip.bwaitt (h sp d a b o lim) : RoundTrip.Statement (.bwaitt h sp d a b o lim) := by
  intro hw rest
  obtain ⟨hf, hw⟩ := wf rfl hw
  refine decode_encode rfl (admits (sh := ({ shWt .x 7 with immed := true, imm := 0xFFFFFFFF } : Shape)) (o := 0x6B) rfl (by decide) hf
    (by simp [Shape.baseReserved, RegUse.reserved, shWt])
    (by simp [-BitVec.extractLsb'_toNat, Shape.extReserved, Raw.fmt, Raw.rm, Raw.sat, Raw.c, Raw.k, Raw.scope, Raw.fn, RegUse.reserved, objTyped, shWt])
    (by simp [Shape.beyond, RegUse.beyond, Raw.c, shWt]) nofun nofun) ?_ rest
  rw [build_eq (o := 0x6B) (row := 0x0D) (col := 3) rfl (by decide) (by decide)]
  show buildRow0D _ 3 = _
  simp [Instr.fieldsOk, arithOk, Fmt.isFI, scaleOk, accFmt, bandsOk] at hw
  simp only [buildRow0D]
  rw [show Raw.ordScope _ _ = _ from ordScope_code' (o := o) (by simp [Raw.scope, objTyped]) (by simp [Raw.fn, objTyped])]
  simp [-BitVec.extractLsb'_toNat, hw, objTyped, Raw.tgt, Raw.im, Raw.intFmt, Raw.sc, Raw.rm5, Raw.fF, Raw.fI, Raw.fFI, Raw.arith, Raw.fma, Raw.unary, Raw.fmt, Raw.dfmt, Raw.rm, Raw.fn, Raw.sat, Raw.k, Raw.c, Raw.scope, must, bind, Except.bind, pure, Except.pure]
theorem RoundTrip.wset (h sp a b o) : RoundTrip.Statement (.wset h sp a b o) := by
  intro hw rest
  obtain ⟨hf, hw⟩ := wf rfl hw
  refine decode_encode rfl (admits (sh := ({ a := .x, b := .x, typed := true, scope := true, fn := 7 } : Shape)) (o := 0x6C) rfl (by decide) hf
    (by simp [Shape.baseReserved, RegUse.reserved])
    (by simp [-BitVec.extractLsb'_toNat, Shape.extReserved, Raw.fmt, Raw.rm, Raw.sat, Raw.c, Raw.k, Raw.scope, Raw.fn, RegUse.reserved, objTyped])
    (by simp [Shape.beyond, RegUse.beyond, Raw.c]) nofun (fun _ => rfl)) ?_ rest
  rw [build_eq (o := 0x6C) (row := 0x0D) (col := 4) rfl (by decide) (by decide)]
  show buildRow0D _ 4 = _
  simp [Instr.fieldsOk, arithOk, Fmt.isFI, scaleOk, accFmt, bandsOk] at hw
  simp only [buildRow0D]
  rw [show Raw.ordScope _ _ = _ from ordScope_code' (o := o) (by simp [Raw.scope, objTyped]) (by simp [Raw.fn, objTyped])]
  simp [-BitVec.extractLsb'_toNat, hw, objTyped, Raw.tgt, Raw.im, Raw.intFmt, Raw.sc, Raw.rm5, Raw.fF, Raw.fI, Raw.fFI, Raw.arith, Raw.fma, Raw.unary, Raw.fmt, Raw.dfmt, Raw.rm, Raw.fn, Raw.sat, Raw.k, Raw.c, Raw.scope, must, bind, Except.bind, pure, Except.pure]
theorem RoundTrip.wwait (h sp d a b cond o) : RoundTrip.Statement (.wwait h sp d a b cond o) := by
  intro hw rest
  obtain ⟨hf, hw⟩ := wf rfl hw
  refine decode_encode rfl (admits (sh := (shWt .x 0x3F)) (o := 0x6D) rfl (by decide) hf
    (by simp [Shape.baseReserved, RegUse.reserved, shWt])
    (by simp [-BitVec.extractLsb'_toNat, Shape.extReserved, Raw.fmt, Raw.rm, Raw.sat, Raw.c, Raw.k, Raw.scope, Raw.fn, RegUse.reserved, objTyped, shWt])
    (by simp [Shape.beyond, RegUse.beyond, Raw.c, shWt]) nofun (fun _ => rfl)) ?_ rest
  rw [build_eq (o := 0x6D) (row := 0x0D) (col := 5) rfl (by decide) (by decide)]
  show buildRow0D _ 5 = _
  simp [Instr.fieldsOk, arithOk, Fmt.isFI, scaleOk, accFmt, bandsOk] at hw
  simp only [buildRow0D]
  rw [show Raw.ordScope _ _ = _ from ordScope_code' (o := o) (by simp [Raw.scope, objTyped]) (by simp [Raw.fn, objTyped])]
  simp [-BitVec.extractLsb'_toNat, hw, objTyped, Raw.tgt, Raw.im, Raw.intFmt, Raw.sc, Raw.rm5, Raw.fF, Raw.fI, Raw.fFI, Raw.arith, Raw.fma, Raw.unary, Raw.fmt, Raw.dfmt, Raw.rm, Raw.fn, Raw.sat, Raw.k, Raw.c, Raw.scope, must, bind, Except.bind, pure, Except.pure]
theorem RoundTrip.wqwait (h sp d a o) : RoundTrip.Statement (.wqwait h sp d a o) := by
  intro hw rest
  obtain ⟨hf, hw⟩ := wf rfl hw
  refine decode_encode rfl (admits (sh := (shWt .zero 7)) (o := 0x6E) rfl (by decide) hf
    (by simp [Shape.baseReserved, RegUse.reserved, shWt])
    (by simp [-BitVec.extractLsb'_toNat, Shape.extReserved, Raw.fmt, Raw.rm, Raw.sat, Raw.c, Raw.k, Raw.scope, Raw.fn, RegUse.reserved, objTyped, shWt])
    (by simp [Shape.beyond, RegUse.beyond, Raw.c, shWt]) nofun (fun _ => rfl)) ?_ rest
  rw [build_eq (o := 0x6E) (row := 0x0D) (col := 6) rfl (by decide) (by decide)]
  show buildRow0D _ 6 = _
  simp [Instr.fieldsOk, arithOk, Fmt.isFI, scaleOk, accFmt, bandsOk] at hw
  simp only [buildRow0D]
  rw [show Raw.ordScope _ _ = _ from ordScope_code' (o := o) (by simp [Raw.scope, objTyped]) (by simp [Raw.fn, objTyped])]
  simp [-BitVec.extractLsb'_toNat, hw, objTyped, Raw.tgt, Raw.im, Raw.intFmt, Raw.sc, Raw.rm5, Raw.fF, Raw.fI, Raw.fFI, Raw.arith, Raw.fma, Raw.unary, Raw.fmt, Raw.dfmt, Raw.rm, Raw.fn, Raw.sat, Raw.k, Raw.c, Raw.scope, must, bind, Except.bind, pure, Except.pure]
theorem RoundTrip.wwake (h sp d a b o) : RoundTrip.Statement (.wwake h sp d a b o) := by
  intro hw rest
  obtain ⟨hf, hw⟩ := wf rfl hw
  refine decode_encode rfl (admits (sh := (shWt .x 7)) (o := 0x6F) rfl (by decide) hf
    (by simp [Shape.baseReserved, RegUse.reserved, shWt])
    (by simp [-BitVec.extractLsb'_toNat, Shape.extReserved, Raw.fmt, Raw.rm, Raw.sat, Raw.c, Raw.k, Raw.scope, Raw.fn, RegUse.reserved, objTyped, shWt])
    (by simp [Shape.beyond, RegUse.beyond, Raw.c, shWt]) nofun (fun _ => rfl)) ?_ rest
  rw [build_eq (o := 0x6F) (row := 0x0D) (col := 7) rfl (by decide) (by decide)]
  show buildRow0D _ 7 = _
  simp [Instr.fieldsOk, arithOk, Fmt.isFI, scaleOk, accFmt, bandsOk] at hw
  simp only [buildRow0D]
  rw [show Raw.ordScope _ _ = _ from ordScope_code' (o := o) (by simp [Raw.scope, objTyped]) (by simp [Raw.fn, objTyped])]
  simp [-BitVec.extractLsb'_toNat, hw, objTyped, Raw.tgt, Raw.im, Raw.intFmt, Raw.sc, Raw.rm5, Raw.fF, Raw.fI, Raw.fFI, Raw.arith, Raw.fma, Raw.unary, Raw.fmt, Raw.dfmt, Raw.rm, Raw.fn, Raw.sat, Raw.k, Raw.c, Raw.scope, must, bind, Except.bind, pure, Except.pure]
theorem RoundTrip.aml (h d a b o) : RoundTrip.Statement (.aml h d a b o) := by
  intro hw rest
  obtain ⟨hf, hw⟩ := wf rfl hw
  refine decode_encode rfl (admits (sh := (shAt)) (o := 0x70) rfl (by decide) hf
    (by simp [Shape.baseReserved, RegUse.reserved, shAt])
    (by simp [-BitVec.extractLsb'_toNat, Shape.extReserved, Raw.fmt, Raw.rm, Raw.sat, Raw.c, Raw.k, Raw.scope, Raw.fn, RegUse.reserved, objTyped, shAt])
    (by simp [Shape.beyond, RegUse.beyond, Raw.c, shAt]) nofun (fun _ => rfl)) ?_ rest
  rw [build_eq (o := 0x70) (row := 0x0E) (col := 0) rfl (by decide) (by decide)]
  show buildRow0E _ 0 = _
  simp only [Instr.fieldsOk] at hw
  simp only [buildRow0E]
  rw [atomSpec_typed (o := o) rfl hw]
  rfl
theorem RoundTrip.amp (h d a b o) : RoundTrip.Statement (.amp h d a b o) := by
  intro hw rest
  obtain ⟨hf, hw⟩ := wf rfl hw
  refine decode_encode rfl (admits (sh := (shAt)) (o := 0x71) rfl (by decide) hf
    (by simp [Shape.baseReserved, RegUse.reserved, shAt])
    (by simp [-BitVec.extractLsb'_toNat, Shape.extReserved, Raw.fmt, Raw.rm, Raw.sat, Raw.c, Raw.k, Raw.scope, Raw.fn, RegUse.reserved, objTyped, shAt])
    (by simp [Shape.beyond, RegUse.beyond, Raw.c, shAt]) nofun (fun _ => rfl)) ?_ rest
  rw [build_eq (o := 0x71) (row := 0x0E) (col := 1) rfl (by decide) (by decide)]
  show buildRow0E _ 1 = _
  simp only [Instr.fieldsOk] at hw
  simp only [buildRow0E]
  rw [atomSpec_typed (o := o) rfl hw]
  rfl
theorem RoundTrip.amg (h d a b o) : RoundTrip.Statement (.amg h d a b o) := by
  intro hw rest
  obtain ⟨hf, hw⟩ := wf rfl hw
  refine decode_encode rfl (admits (sh := (shAt)) (o := 0x72) rfl (by decide) hf
    (by simp [Shape.baseReserved, RegUse.reserved, shAt])
    (by simp [-BitVec.extractLsb'_toNat, Shape.extReserved, Raw.fmt, Raw.rm, Raw.sat, Raw.c, Raw.k, Raw.scope, Raw.fn, RegUse.reserved, objTyped, shAt])
    (by simp [Shape.beyond, RegUse.beyond, Raw.c, shAt]) nofun (fun _ => rfl)) ?_ rest
  rw [build_eq (o := 0x72) (row := 0x0E) (col := 2) rfl (by decide) (by decide)]
  show buildRow0E _ 2 = _
  simp only [Instr.fieldsOk] at hw
  simp only [buildRow0E]
  rw [atomSpec_typed (o := o) rfl hw]
  rfl
theorem RoundTrip.amx (h d a b o) : RoundTrip.Statement (.amx h d a b o) := by
  intro hw rest
  obtain ⟨hf, hw⟩ := wf rfl hw
  refine decode_encode rfl (admits (sh := (shAt)) (o := 0x73) rfl (by decide) hf
    (by simp [Shape.baseReserved, RegUse.reserved, shAt])
    (by simp [-BitVec.extractLsb'_toNat, Shape.extReserved, Raw.fmt, Raw.rm, Raw.sat, Raw.c, Raw.k, Raw.scope, Raw.fn, RegUse.reserved, objTyped, shAt])
    (by simp [Shape.beyond, RegUse.beyond, Raw.c, shAt]) nofun (fun _ => rfl)) ?_ rest
  rw [build_eq (o := 0x73) (row := 0x0E) (col := 3) rfl (by decide) (by decide)]
  show buildRow0E _ 3 = _
  simp only [Instr.fieldsOk] at hw
  simp only [buildRow0E]
  rw [atomSpec_typed (o := o) rfl hw]
  rfl
theorem RoundTrip.fluePut (h dir a) : RoundTrip.Statement (.fluePut h dir a) := by
  intro hw rest
  obtain ⟨hf, hw⟩ := wf rfl hw
  refine decode_encode rfl (admits (sh := ({ d := .bits 0x1F, a := .v } : Shape)) (o := 0x74) rfl (by decide) hf
    (by simp [Shape.baseReserved, RegUse.reserved])
    (by simp [-BitVec.extractLsb'_toNat, Shape.extReserved, Raw.fmt, Raw.rm, Raw.sat, Raw.c, Raw.k, Raw.scope, Raw.fn, RegUse.reserved, objTyped])
    (by simp [Shape.beyond, RegUse.beyond, Raw.c]) (fun _ => rfl) (fun _ => rfl)) ?_ rest
  rw [build_eq (o := 0x74) (row := 0x0E) (col := 4) rfl (by decide) (by decide)]
  show buildRow0E _ 4 = _
  simp [Instr.fieldsOk, arithOk, Fmt.isFI, scaleOk, accFmt, bandsOk] at hw
  simp only [buildRow0E]
  skip
  simp [-BitVec.extractLsb'_toNat, hw, objTyped, Raw.tgt, Raw.im, Raw.intFmt, Raw.sc, Raw.rm5, Raw.fF, Raw.fI, Raw.fFI, Raw.arith, Raw.fma, Raw.unary, Raw.fmt, Raw.dfmt, Raw.rm, Raw.fn, Raw.sat, Raw.k, Raw.c, Raw.scope, must, bind, Except.bind, pure, Except.pure]
theorem RoundTrip.flueGet (h d dir) : RoundTrip.Statement (.flueGet h d dir) := by
  intro hw rest
  obtain ⟨hf, hw⟩ := wf rfl hw
  refine decode_encode rfl (admits (sh := ({ d := .v, a := .bits 0x1F } : Shape)) (o := 0x75) rfl (by decide) hf
    (by simp [Shape.baseReserved, RegUse.reserved])
    (by simp [-BitVec.extractLsb'_toNat, Shape.extReserved, Raw.fmt, Raw.rm, Raw.sat, Raw.c, Raw.k, Raw.scope, Raw.fn, RegUse.reserved, objTyped])
    (by simp [Shape.beyond, RegUse.beyond, Raw.c]) (fun _ => rfl) (fun _ => rfl)) ?_ rest
  rw [build_eq (o := 0x75) (row := 0x0E) (col := 5) rfl (by decide) (by decide)]
  show buildRow0E _ 5 = _
  simp [Instr.fieldsOk, arithOk, Fmt.isFI, scaleOk, accFmt, bandsOk] at hw
  simp only [buildRow0E]
  skip
  simp [-BitVec.extractLsb'_toNat, hw, objTyped, Raw.tgt, Raw.im, Raw.intFmt, Raw.sc, Raw.rm5, Raw.fF, Raw.fI, Raw.fFI, Raw.arith, Raw.fma, Raw.unary, Raw.fmt, Raw.dfmt, Raw.rm, Raw.fn, Raw.sat, Raw.k, Raw.c, Raw.scope, must, bind, Except.bind, pure, Except.pure]
theorem RoundTrip.flueFree (h d dir) : RoundTrip.Statement (.flueFree h d dir) := by
  intro hw rest
  obtain ⟨hf, hw⟩ := wf rfl hw
  refine decode_encode rfl (admits (sh := ({ d := .x, a := .bits 0x1F } : Shape)) (o := 0x76) rfl (by decide) hf
    (by simp [Shape.baseReserved, RegUse.reserved])
    (by simp [-BitVec.extractLsb'_toNat, Shape.extReserved, Raw.fmt, Raw.rm, Raw.sat, Raw.c, Raw.k, Raw.scope, Raw.fn, RegUse.reserved, objTyped])
    (by simp [Shape.beyond, RegUse.beyond, Raw.c]) (fun _ => rfl) (fun _ => rfl)) ?_ rest
  rw [build_eq (o := 0x76) (row := 0x0E) (col := 6) rfl (by decide) (by decide)]
  show buildRow0E _ 6 = _
  simp [Instr.fieldsOk, arithOk, Fmt.isFI, scaleOk, accFmt, bandsOk] at hw
  simp only [buildRow0E]
  skip
  simp [-BitVec.extractLsb'_toNat, hw, objTyped, Raw.tgt, Raw.im, Raw.intFmt, Raw.sc, Raw.rm5, Raw.fF, Raw.fI, Raw.fFI, Raw.arith, Raw.fma, Raw.unary, Raw.fmt, Raw.dfmt, Raw.rm, Raw.fn, Raw.sat, Raw.k, Raw.c, Raw.scope, must, bind, Except.bind, pure, Except.pure]
theorem RoundTrip.lred (h d a b fmt rm sat o) : RoundTrip.Statement (.lred h d a b fmt rm sat o) := by
  intro hw rest
  obtain ⟨hf, hw⟩ := wf rfl hw
  refine decode_encode rfl (admits (sh := (shCo true true)) (o := 0x78) rfl (by decide) hf
    (by simp [Shape.baseReserved, RegUse.reserved, shCo])
    (by simp [-BitVec.extractLsb'_toNat, Shape.extReserved, Raw.fmt, Raw.rm, Raw.sat, Raw.c, Raw.k, Raw.scope, Raw.fn, RegUse.reserved, objTyped, shCo])
    (by simp [Shape.beyond, RegUse.beyond, Raw.c, shCo]) nofun nofun) ?_ rest
  rw [build_eq (o := 0x78) (row := 0x0F) (col := 0) rfl (by decide) (by decide)]
  show buildRow0F _ 0 = _
  simp only [Instr.fieldsOk] at hw
  simp only [Bool.and_eq_true] at hw
  simp only [buildRow0F]
  rw [collSpec_typed (o := o) rfl (rfl) hw.1.1]
  rw [rm4_code (m := rm) (by simp [Raw.rm, CollSpec.typed]) hw.1.2]
  simp_all [-BitVec.extractLsb'_toNat, CollSpec.typed, Raw.tgt, Raw.im, Raw.intFmt, Raw.sc, Raw.rm5, Raw.fF, Raw.fI, Raw.fFI, Raw.arith, Raw.fma, Raw.unary, Raw.fmt, Raw.dfmt, Raw.rm, Raw.fn, Raw.sat, Raw.k, Raw.c, Raw.scope, must, bind, Except.bind, pure, Except.pure]
theorem RoundTrip.lbcast (h d a b o) : RoundTrip.Statement (.lbcast h d a b o) := by
  intro hw rest
  obtain ⟨hf, hw⟩ := wf rfl hw
  refine decode_encode rfl (admits (sh := (shCo false true)) (o := 0x79) rfl (by decide) hf
    (by simp [Shape.baseReserved, RegUse.reserved, shCo])
    (by simp [-BitVec.extractLsb'_toNat, Shape.extReserved, Raw.fmt, Raw.rm, Raw.sat, Raw.c, Raw.k, Raw.scope, Raw.fn, RegUse.reserved, objTyped, shCo])
    (by simp [Shape.beyond, RegUse.beyond, Raw.c, shCo]) nofun nofun) ?_ rest
  rw [build_eq (o := 0x79) (row := 0x0F) (col := 1) rfl (by decide) (by decide)]
  show buildRow0F _ 1 = _
  simp only [Instr.fieldsOk] at hw
  skip
  simp only [buildRow0F]
  rw [collSpec_typed (o := o) rfl (rfl) hw]
  rfl
theorem RoundTrip.lgath (h d a b o) : RoundTrip.Statement (.lgath h d a b o) := by
  intro hw rest
  obtain ⟨hf, hw⟩ := wf rfl hw
  have harg : o.arg = 0#22 := by simp [Instr.fieldsOk] at hw; exact hw.2
  refine decode_encode rfl (admits (sh := (shCo false false)) (o := 0x7A) rfl (by decide) hf
    (by simp [Shape.baseReserved, RegUse.reserved, shCo])
    (by simp [-BitVec.extractLsb'_toNat, Shape.extReserved, Raw.fmt, Raw.rm, Raw.sat, Raw.c, Raw.k, Raw.scope, Raw.fn, RegUse.reserved, harg, shCo])
    (by simp [Shape.beyond, RegUse.beyond, Raw.c, shCo]) nofun nofun) ?_ rest
  rw [build_eq (o := 0x7A) (row := 0x0F) (col := 2) rfl (by decide) (by decide)]
  show buildRow0F _ 2 = _
  simp only [Instr.fieldsOk] at hw
  simp only [Bool.and_eq_true] at hw
  simp only [buildRow0F]
  rw [collSpec_typed (o := o) rfl (rfl) hw.1]
  rfl
theorem RoundTrip.acc (h d a b c repl) : RoundTrip.Statement (.acc h d a b c repl) := by
  intro hw rest
  obtain ⟨hf, hw⟩ := wf rfl hw
  refine decode_encode rfl (admits (sh := ({ d := .x, a := .x, b := .x, typed := true, c := .x, fn := 1 } : Shape)) (o := 0x7B) rfl (by decide) hf
    (by simp [Shape.baseReserved, RegUse.reserved])
    (by simp [-BitVec.extractLsb'_toNat, Shape.extReserved, Raw.fmt, Raw.rm, Raw.sat, Raw.c, Raw.k, Raw.scope, Raw.fn, RegUse.reserved, objTyped])
    (by simp [Shape.beyond, RegUse.beyond, Raw.c]) nofun (fun _ => rfl)) ?_ rest
  rw [build_eq (o := 0x7B) (row := 0x0F) (col := 3) rfl (by decide) (by decide)]
  show buildRow0F _ 3 = _
  simp [Instr.fieldsOk, arithOk, Fmt.isFI, scaleOk, accFmt, bandsOk] at hw
  simp only [buildRow0F] <;> simp [-BitVec.extractLsb'_toNat, hw, objTyped, Raw.tgt, Raw.im, Raw.intFmt, Raw.sc, Raw.rm5, Raw.fF, Raw.fI, Raw.fFI, Raw.arith, Raw.fma, Raw.unary, Raw.fmt, Raw.dfmt, Raw.rm, Raw.fn, Raw.sat, Raw.k, Raw.c, Raw.scope, must, bind, Except.bind, pure, Except.pure]
theorem RoundTrip.bpoll (h sp d a o) : RoundTrip.Statement (.bpoll h sp d a o) := by
  intro hw rest
  obtain ⟨hf, hw⟩ := wf rfl hw
  refine decode_encode rfl (admits (sh := (shWt .zero 7)) (o := 0x7C) rfl (by decide) hf
    (by simp [Shape.baseReserved, RegUse.reserved, shWt])
    (by simp [-BitVec.extractLsb'_toNat, Shape.extReserved, Raw.fmt, Raw.rm, Raw.sat, Raw.c, Raw.k, Raw.scope, Raw.fn, RegUse.reserved, objTyped, shWt])
    (by simp [Shape.beyond, RegUse.beyond, Raw.c, shWt]) nofun (fun _ => rfl)) ?_ rest
  rw [build_eq (o := 0x7C) (row := 0x0F) (col := 4) rfl (by decide) (by decide)]
  show buildRow0F _ 4 = _
  simp [Instr.fieldsOk, arithOk, Fmt.isFI, scaleOk, accFmt, bandsOk] at hw
  simp only [buildRow0F]
  rw [show Raw.ordScope _ _ = _ from ordScope_code' (o := o) (by simp [Raw.scope, objTyped]) (by simp [Raw.fn, objTyped])]
  simp_all [-BitVec.extractLsb'_toNat, objTyped, Raw.tgt, Raw.im, Raw.intFmt, Raw.sc, Raw.rm5, Raw.fF, Raw.fI, Raw.fFI, Raw.arith, Raw.fma, Raw.unary, Raw.fmt, Raw.dfmt, Raw.rm, Raw.fn, Raw.sat, Raw.k, Raw.c, Raw.scope, must, bind, Except.bind, pure, Except.pure]
theorem RoundTrip.wpoll (h sp d a o) : RoundTrip.Statement (.wpoll h sp d a o) := by
  intro hw rest
  obtain ⟨hf, hw⟩ := wf rfl hw
  refine decode_encode rfl (admits (sh := (shWt .zero 7)) (o := 0x7D) rfl (by decide) hf
    (by simp [Shape.baseReserved, RegUse.reserved, shWt])
    (by simp [-BitVec.extractLsb'_toNat, Shape.extReserved, Raw.fmt, Raw.rm, Raw.sat, Raw.c, Raw.k, Raw.scope, Raw.fn, RegUse.reserved, objTyped, shWt])
    (by simp [Shape.beyond, RegUse.beyond, Raw.c, shWt]) nofun (fun _ => rfl)) ?_ rest
  rw [build_eq (o := 0x7D) (row := 0x0F) (col := 5) rfl (by decide) (by decide)]
  show buildRow0F _ 5 = _
  simp [Instr.fieldsOk, arithOk, Fmt.isFI, scaleOk, accFmt, bandsOk] at hw
  simp only [buildRow0F]
  rw [show Raw.ordScope _ _ = _ from ordScope_code' (o := o) (by simp [Raw.scope, objTyped]) (by simp [Raw.fn, objTyped])]
  simp_all [-BitVec.extractLsb'_toNat, objTyped, Raw.tgt, Raw.im, Raw.intFmt, Raw.sc, Raw.rm5, Raw.fF, Raw.fI, Raw.fFI, Raw.arith, Raw.fma, Raw.unary, Raw.fmt, Raw.dfmt, Raw.rm, Raw.fn, Raw.sat, Raw.k, Raw.c, Raw.scope, must, bind, Except.bind, pure, Except.pure]
theorem RoundTrip.accq (h d sel) : RoundTrip.Statement (.accq h d sel) := by
  intro hw rest
  obtain ⟨hf, hw⟩ := wf rfl hw
  refine decode_encode rfl (admits (sh := ({ d := .x, typed := true, fn := 3 } : Shape)) (o := 0x7E) rfl (by decide) hf
    (by simp [Shape.baseReserved, RegUse.reserved])
    (by simp [-BitVec.extractLsb'_toNat, Shape.extReserved, Raw.fmt, Raw.rm, Raw.sat, Raw.c, Raw.k, Raw.scope, Raw.fn, RegUse.reserved, objTyped])
    (by simp [Shape.beyond, RegUse.beyond, Raw.c]) nofun (fun _ => rfl)) ?_ rest
  rw [build_eq (o := 0x7E) (row := 0x0F) (col := 6) rfl (by decide) (by decide)]
  show buildRow0F _ 6 = _
  simp [Instr.fieldsOk, arithOk, Fmt.isFI, scaleOk, accFmt, bandsOk] at hw
  simp only [buildRow0F]
  cases sel
  all_goals first | rfl | (simp [Raw.sc, Raw.scope, Raw.fn]; rfl)
theorem RoundTrip.vadd (h d a b k f rm sat) : RoundTrip.Statement (.vadd h d a b k f rm sat) := by
  intro hw rest
  obtain ⟨hf, hw⟩ := wf rfl hw
  refine decode_encode rfl (admits (sh := (shV2 true true)) (o := 0x80) rfl (by decide) hf
    (by simp [Shape.baseReserved, RegUse.reserved, shV2])
    (by simp [-BitVec.extractLsb'_toNat, Shape.extReserved, Raw.fmt, Raw.rm, Raw.sat, Raw.c, Raw.k, Raw.scope, Raw.fn, RegUse.reserved, objTyped, shV2])
    (by simp [Shape.beyond, RegUse.beyond, Raw.c, shV2]) nofun (fun _ => rfl)) ?_ rest
  rw [build_eq (o := 0x80) (row := 0x10) (col := 0) rfl (by decide) (by decide)]
  show buildRow10 _ 0 = _
  simp [Instr.fieldsOk, arithOk, Fmt.isFI, scaleOk, accFmt, bandsOk] at hw
  simp only [buildRow10] <;> simp [-BitVec.extractLsb'_toNat, hw, objTyped, Raw.tgt, Raw.im, Raw.intFmt, Raw.sc, Raw.rm5, Raw.fF, Raw.fI, Raw.fFI, Raw.arith, Raw.fma, Raw.unary, Raw.fmt, Raw.dfmt, Raw.rm, Raw.fn, Raw.sat, Raw.k, Raw.c, Raw.scope, must, bind, Except.bind, pure, Except.pure]
theorem RoundTrip.vsub (h d a b k f rm sat) : RoundTrip.Statement (.vsub h d a b k f rm sat) := by
  intro hw rest
  obtain ⟨hf, hw⟩ := wf rfl hw
  refine decode_encode rfl (admits (sh := (shV2 true true)) (o := 0x81) rfl (by decide) hf
    (by simp [Shape.baseReserved, RegUse.reserved, shV2])
    (by simp [-BitVec.extractLsb'_toNat, Shape.extReserved, Raw.fmt, Raw.rm, Raw.sat, Raw.c, Raw.k, Raw.scope, Raw.fn, RegUse.reserved, objTyped, shV2])
    (by simp [Shape.beyond, RegUse.beyond, Raw.c, shV2]) nofun (fun _ => rfl)) ?_ rest
  rw [build_eq (o := 0x81) (row := 0x10) (col := 1) rfl (by decide) (by decide)]
  show buildRow10 _ 1 = _
  simp [Instr.fieldsOk, arithOk, Fmt.isFI, scaleOk, accFmt, bandsOk] at hw
  simp only [buildRow10] <;> simp [-BitVec.extractLsb'_toNat, hw, objTyped, Raw.tgt, Raw.im, Raw.intFmt, Raw.sc, Raw.rm5, Raw.fF, Raw.fI, Raw.fFI, Raw.arith, Raw.fma, Raw.unary, Raw.fmt, Raw.dfmt, Raw.rm, Raw.fn, Raw.sat, Raw.k, Raw.c, Raw.scope, must, bind, Except.bind, pure, Except.pure]
theorem RoundTrip.vmul (h d a b k f rm sat) : RoundTrip.Statement (.vmul h d a b k f rm sat) := by
  intro hw rest
  obtain ⟨hf, hw⟩ := wf rfl hw
  refine decode_encode rfl (admits (sh := (shV2 true true)) (o := 0x82) rfl (by decide) hf
    (by simp [Shape.baseReserved, RegUse.reserved, shV2])
    (by simp [-BitVec.extractLsb'_toNat, Shape.extReserved, Raw.fmt, Raw.rm, Raw.sat, Raw.c, Raw.k, Raw.scope, Raw.fn, RegUse.reserved, objTyped, shV2])
    (by simp [Shape.beyond, RegUse.beyond, Raw.c, shV2]) nofun (fun _ => rfl)) ?_ rest
  rw [build_eq (o := 0x82) (row := 0x10) (col := 2) rfl (by decide) (by decide)]
  show buildRow10 _ 2 = _
  simp [Instr.fieldsOk, arithOk, Fmt.isFI, scaleOk, accFmt, bandsOk] at hw
  simp only [buildRow10] <;> simp [-BitVec.extractLsb'_toNat, hw, objTyped, Raw.tgt, Raw.im, Raw.intFmt, Raw.sc, Raw.rm5, Raw.fF, Raw.fI, Raw.fFI, Raw.arith, Raw.fma, Raw.unary, Raw.fmt, Raw.dfmt, Raw.rm, Raw.fn, Raw.sat, Raw.k, Raw.c, Raw.scope, must, bind, Except.bind, pure, Except.pure]
theorem RoundTrip.vfma (h d a b c k f rm sat) : RoundTrip.Statement (.vfma h d a b c k f rm sat) := by
  intro hw rest
  obtain ⟨hf, hw⟩ := wf rfl hw
  refine decode_encode rfl (admits (sh := (shV3 true true)) (o := 0x83) rfl (by decide) hf
    (by simp [Shape.baseReserved, RegUse.reserved, shV2, shV3])
    (by simp [-BitVec.extractLsb'_toNat, Shape.extReserved, Raw.fmt, Raw.rm, Raw.sat, Raw.c, Raw.k, Raw.scope, Raw.fn, RegUse.reserved, objTyped, shV2, shV3])
    (by simp [Shape.beyond, RegUse.beyond, Raw.c, shV2, shV3]) nofun (fun _ => rfl)) ?_ rest
  rw [build_eq (o := 0x83) (row := 0x10) (col := 3) rfl (by decide) (by decide)]
  show buildRow10 _ 3 = _
  simp [Instr.fieldsOk, arithOk, Fmt.isFI, scaleOk, accFmt, bandsOk] at hw
  simp only [buildRow10] <;> simp [-BitVec.extractLsb'_toNat, hw, objTyped, Raw.tgt, Raw.im, Raw.intFmt, Raw.sc, Raw.rm5, Raw.fF, Raw.fI, Raw.fFI, Raw.arith, Raw.fma, Raw.unary, Raw.fmt, Raw.dfmt, Raw.rm, Raw.fn, Raw.sat, Raw.k, Raw.c, Raw.scope, must, bind, Except.bind, pure, Except.pure]
theorem RoundTrip.vfms (h d a b c k f rm sat) : RoundTrip.Statement (.vfms h d a b c k f rm sat) := by
  intro hw rest
  obtain ⟨hf, hw⟩ := wf rfl hw
  refine decode_encode rfl (admits (sh := (shV3 true true)) (o := 0x84) rfl (by decide) hf
    (by simp [Shape.baseReserved, RegUse.reserved, shV2, shV3])
    (by simp [-BitVec.extractLsb'_toNat, Shape.extReserved, Raw.fmt, Raw.rm, Raw.sat, Raw.c, Raw.k, Raw.scope, Raw.fn, RegUse.reserved, objTyped, shV2, shV3])
    (by simp [Shape.beyond, RegUse.beyond, Raw.c, shV2, shV3]) nofun (fun _ => rfl)) ?_ rest
  rw [build_eq (o := 0x84) (row := 0x10) (col := 4) rfl (by decide) (by decide)]
  show buildRow10 _ 4 = _
  simp [Instr.fieldsOk, arithOk, Fmt.isFI, scaleOk, accFmt, bandsOk] at hw
  simp only [buildRow10] <;> simp [-BitVec.extractLsb'_toNat, hw, objTyped, Raw.tgt, Raw.im, Raw.intFmt, Raw.sc, Raw.rm5, Raw.fF, Raw.fI, Raw.fFI, Raw.arith, Raw.fma, Raw.unary, Raw.fmt, Raw.dfmt, Raw.rm, Raw.fn, Raw.sat, Raw.k, Raw.c, Raw.scope, must, bind, Except.bind, pure, Except.pure]
theorem RoundTrip.vfnma (h d a b c k f rm sat) : RoundTrip.Statement (.vfnma h d a b c k f rm sat) := by
  intro hw rest
  obtain ⟨hf, hw⟩ := wf rfl hw
  refine decode_encode rfl (admits (sh := (shV3 true true)) (o := 0x85) rfl (by decide) hf
    (by simp [Shape.baseReserved, RegUse.reserved, shV2, shV3])
    (by simp [-BitVec.extractLsb'_toNat, Shape.extReserved, Raw.fmt, Raw.rm, Raw.sat, Raw.c, Raw.k, Raw.scope, Raw.fn, RegUse.reserved, objTyped, shV2, shV3])
    (by simp [Shape.beyond, RegUse.beyond, Raw.c, shV2, shV3]) nofun (fun _ => rfl)) ?_ rest
  rw [build_eq (o := 0x85) (row := 0x10) (col := 5) rfl (by decide) (by decide)]
  show buildRow10 _ 5 = _
  simp [Instr.fieldsOk, arithOk, Fmt.isFI, scaleOk, accFmt, bandsOk] at hw
  simp only [buildRow10] <;> simp [-BitVec.extractLsb'_toNat, hw, objTyped, Raw.tgt, Raw.im, Raw.intFmt, Raw.sc, Raw.rm5, Raw.fF, Raw.fI, Raw.fFI, Raw.arith, Raw.fma, Raw.unary, Raw.fmt, Raw.dfmt, Raw.rm, Raw.fn, Raw.sat, Raw.k, Raw.c, Raw.scope, must, bind, Except.bind, pure, Except.pure]
theorem RoundTrip.vmin (h d a b k f) : RoundTrip.Statement (.vmin h d a b k f) := by
  intro hw rest
  obtain ⟨hf, hw⟩ := wf rfl hw
  refine decode_encode rfl (admits (sh := (shV2 false false)) (o := 0x86) rfl (by decide) hf
    (by simp [Shape.baseReserved, RegUse.reserved, shV2])
    (by simp [-BitVec.extractLsb'_toNat, Shape.extReserved, Raw.fmt, Raw.rm, Raw.sat, Raw.c, Raw.k, Raw.scope, Raw.fn, RegUse.reserved, objTyped, shV2])
    (by simp [Shape.beyond, RegUse.beyond, Raw.c, shV2]) nofun (fun _ => rfl)) ?_ rest
  rw [build_eq (o := 0x86) (row := 0x10) (col := 6) rfl (by decide) (by decide)]
  show buildRow10 _ 6 = _
  simp [Instr.fieldsOk, arithOk, Fmt.isFI, scaleOk, accFmt, bandsOk] at hw
  simp only [buildRow10] <;> simp [-BitVec.extractLsb'_toNat, hw, objTyped, Raw.tgt, Raw.im, Raw.intFmt, Raw.sc, Raw.rm5, Raw.fF, Raw.fI, Raw.fFI, Raw.arith, Raw.fma, Raw.unary, Raw.fmt, Raw.dfmt, Raw.rm, Raw.fn, Raw.sat, Raw.k, Raw.c, Raw.scope, must, bind, Except.bind, pure, Except.pure]
theorem RoundTrip.vmax (h d a b k f) : RoundTrip.Statement (.vmax h d a b k f) := by
  intro hw rest
  obtain ⟨hf, hw⟩ := wf rfl hw
  refine decode_encode rfl (admits (sh := (shV2 false false)) (o := 0x87) rfl (by decide) hf
    (by simp [Shape.baseReserved, RegUse.reserved, shV2])
    (by simp [-BitVec.extractLsb'_toNat, Shape.extReserved, Raw.fmt, Raw.rm, Raw.sat, Raw.c, Raw.k, Raw.scope, Raw.fn, RegUse.reserved, objTyped, shV2])
    (by simp [Shape.beyond, RegUse.beyond, Raw.c, shV2]) nofun (fun _ => rfl)) ?_ rest
  rw [build_eq (o := 0x87) (row := 0x10) (col := 7) rfl (by decide) (by decide)]
  show buildRow10 _ 7 = _
  simp [Instr.fieldsOk, arithOk, Fmt.isFI, scaleOk, accFmt, bandsOk] at hw
  simp only [buildRow10] <;> simp [-BitVec.extractLsb'_toNat, hw, objTyped, Raw.tgt, Raw.im, Raw.intFmt, Raw.sc, Raw.rm5, Raw.fF, Raw.fI, Raw.fFI, Raw.arith, Raw.fma, Raw.unary, Raw.fmt, Raw.dfmt, Raw.rm, Raw.fn, Raw.sat, Raw.k, Raw.c, Raw.scope, must, bind, Except.bind, pure, Except.pure]
theorem RoundTrip.vabs (h d a k f sat) : RoundTrip.Statement (.vabs h d a k f sat) := by
  intro hw rest
  obtain ⟨hf, hw⟩ := wf rfl hw
  refine decode_encode rfl (admits (sh := (shV1 false true)) (o := 0x88) rfl (by decide) hf
    (by simp [Shape.baseReserved, RegUse.reserved, shV1])
    (by simp [-BitVec.extractLsb'_toNat, Shape.extReserved, Raw.fmt, Raw.rm, Raw.sat, Raw.c, Raw.k, Raw.scope, Raw.fn, RegUse.reserved, objTyped, shV1])
    (by simp [Shape.beyond, RegUse.beyond, Raw.c, shV1]) nofun (fun _ => rfl)) ?_ rest
  rw [build_eq (o := 0x88) (row := 0x11) (col := 0) rfl (by decide) (by decide)]
  show buildRow11 _ 0 = _
  simp [Instr.fieldsOk, arithOk, Fmt.isFI, scaleOk, accFmt, bandsOk] at hw
  simp only [buildRow11] <;> simp [-BitVec.extractLsb'_toNat, hw, objTyped, Raw.tgt, Raw.im, Raw.intFmt, Raw.sc, Raw.rm5, Raw.fF, Raw.fI, Raw.fFI, Raw.arith, Raw.fma, Raw.unary, Raw.fmt, Raw.dfmt, Raw.rm, Raw.fn, Raw.sat, Raw.k, Raw.c, Raw.scope, must, bind, Except.bind, pure, Except.pure]
theorem RoundTrip.vneg (h d a k f sat) : RoundTrip.Statement (.vneg h d a k f sat) := by
  intro hw rest
  obtain ⟨hf, hw⟩ := wf rfl hw
  refine decode_encode rfl (admits (sh := (shV1 false true)) (o := 0x89) rfl (by decide) hf
    (by simp [Shape.baseReserved, RegUse.reserved, shV1])
    (by simp [-BitVec.extractLsb'_toNat, Shape.extReserved, Raw.fmt, Raw.rm, Raw.sat, Raw.c, Raw.k, Raw.scope, Raw.fn, RegUse.reserved, objTyped, shV1])
    (by simp [Shape.beyond, RegUse.beyond, Raw.c, shV1]) nofun (fun _ => rfl)) ?_ rest
  rw [build_eq (o := 0x89) (row := 0x11) (col := 1) rfl (by decide) (by decide)]
  show buildRow11 _ 1 = _
  simp [Instr.fieldsOk, arithOk, Fmt.isFI, scaleOk, accFmt, bandsOk] at hw
  simp only [buildRow11] <;> simp [-BitVec.extractLsb'_toNat, hw, objTyped, Raw.tgt, Raw.im, Raw.intFmt, Raw.sc, Raw.rm5, Raw.fF, Raw.fI, Raw.fFI, Raw.arith, Raw.fma, Raw.unary, Raw.fmt, Raw.dfmt, Raw.rm, Raw.fn, Raw.sat, Raw.k, Raw.c, Raw.scope, must, bind, Except.bind, pure, Except.pure]
theorem RoundTrip.vdiv (h d a b k f rm) : RoundTrip.Statement (.vdiv h d a b k f rm) := by
  intro hw rest
  obtain ⟨hf, hw⟩ := wf rfl hw
  refine decode_encode rfl (admits (sh := (shV2 true false)) (o := 0x8A) rfl (by decide) hf
    (by simp [Shape.baseReserved, RegUse.reserved, shV2])
    (by simp [-BitVec.extractLsb'_toNat, Shape.extReserved, Raw.fmt, Raw.rm, Raw.sat, Raw.c, Raw.k, Raw.scope, Raw.fn, RegUse.reserved, objTyped, shV2])
    (by simp [Shape.beyond, RegUse.beyond, Raw.c, shV2]) nofun (fun _ => rfl)) ?_ rest
  rw [build_eq (o := 0x8A) (row := 0x11) (col := 2) rfl (by decide) (by decide)]
  show buildRow11 _ 2 = _
  simp [Instr.fieldsOk, arithOk, Fmt.isFI, scaleOk, accFmt, bandsOk] at hw
  simp only [buildRow11] <;> simp [-BitVec.extractLsb'_toNat, hw, objTyped, Raw.tgt, Raw.im, Raw.intFmt, Raw.sc, Raw.rm5, Raw.fF, Raw.fI, Raw.fFI, Raw.arith, Raw.fma, Raw.unary, Raw.fmt, Raw.dfmt, Raw.rm, Raw.fn, Raw.sat, Raw.k, Raw.c, Raw.scope, must, bind, Except.bind, pure, Except.pure]
theorem RoundTrip.vsqrt (h d a k f rm) : RoundTrip.Statement (.vsqrt h d a k f rm) := by
  intro hw rest
  obtain ⟨hf, hw⟩ := wf rfl hw
  refine decode_encode rfl (admits (sh := (shV1 true false)) (o := 0x8B) rfl (by decide) hf
    (by simp [Shape.baseReserved, RegUse.reserved, shV1])
    (by simp [-BitVec.extractLsb'_toNat, Shape.extReserved, Raw.fmt, Raw.rm, Raw.sat, Raw.c, Raw.k, Raw.scope, Raw.fn, RegUse.reserved, objTyped, shV1])
    (by simp [Shape.beyond, RegUse.beyond, Raw.c, shV1]) nofun (fun _ => rfl)) ?_ rest
  rw [build_eq (o := 0x8B) (row := 0x11) (col := 3) rfl (by decide) (by decide)]
  show buildRow11 _ 3 = _
  simp [Instr.fieldsOk, arithOk, Fmt.isFI, scaleOk, accFmt, bandsOk] at hw
  simp only [buildRow11] <;> simp [-BitVec.extractLsb'_toNat, hw, objTyped, Raw.tgt, Raw.im, Raw.intFmt, Raw.sc, Raw.rm5, Raw.fF, Raw.fI, Raw.fFI, Raw.arith, Raw.fma, Raw.unary, Raw.fmt, Raw.dfmt, Raw.rm, Raw.fn, Raw.sat, Raw.k, Raw.c, Raw.scope, must, bind, Except.bind, pure, Except.pure]
theorem RoundTrip.vrcp (h d a k f rm) : RoundTrip.Statement (.vrcp h d a k f rm) := by
  intro hw rest
  obtain ⟨hf, hw⟩ := wf rfl hw
  refine decode_encode rfl (admits (sh := (shV1 true false)) (o := 0x8C) rfl (by decide) hf
    (by simp [Shape.baseReserved, RegUse.reserved, shV1])
    (by simp [-BitVec.extractLsb'_toNat, Shape.extReserved, Raw.fmt, Raw.rm, Raw.sat, Raw.c, Raw.k, Raw.scope, Raw.fn, RegUse.reserved, objTyped, shV1])
    (by simp [Shape.beyond, RegUse.beyond, Raw.c, shV1]) nofun (fun _ => rfl)) ?_ rest
  rw [build_eq (o := 0x8C) (row := 0x11) (col := 4) rfl (by decide) (by decide)]
  show buildRow11 _ 4 = _
  simp [Instr.fieldsOk, arithOk, Fmt.isFI, scaleOk, accFmt, bandsOk] at hw
  simp only [buildRow11] <;> simp [-BitVec.extractLsb'_toNat, hw, objTyped, Raw.tgt, Raw.im, Raw.intFmt, Raw.sc, Raw.rm5, Raw.fF, Raw.fI, Raw.fFI, Raw.arith, Raw.fma, Raw.unary, Raw.fmt, Raw.dfmt, Raw.rm, Raw.fn, Raw.sat, Raw.k, Raw.c, Raw.scope, must, bind, Except.bind, pure, Except.pure]
theorem RoundTrip.vrsq (h d a k f rm) : RoundTrip.Statement (.vrsq h d a k f rm) := by
  intro hw rest
  obtain ⟨hf, hw⟩ := wf rfl hw
  refine decode_encode rfl (admits (sh := (shV1 true false)) (o := 0x8D) rfl (by decide) hf
    (by simp [Shape.baseReserved, RegUse.reserved, shV1])
    (by simp [-BitVec.extractLsb'_toNat, Shape.extReserved, Raw.fmt, Raw.rm, Raw.sat, Raw.c, Raw.k, Raw.scope, Raw.fn, RegUse.reserved, objTyped, shV1])
    (by simp [Shape.beyond, RegUse.beyond, Raw.c, shV1]) nofun (fun _ => rfl)) ?_ rest
  rw [build_eq (o := 0x8D) (row := 0x11) (col := 5) rfl (by decide) (by decide)]
  show buildRow11 _ 5 = _
  simp [Instr.fieldsOk, arithOk, Fmt.isFI, scaleOk, accFmt, bandsOk] at hw
  have hm := hw.2
  simp only [buildRow11, Raw.unary]
  rw [rm4_code (m := rm) (by simp [Raw.rm]) hm]
  simp [-BitVec.extractLsb'_toNat, hw, objTyped, Raw.tgt, Raw.im, Raw.intFmt, Raw.sc, Raw.rm5, Raw.fF, Raw.fI, Raw.fFI, Raw.arith, Raw.fma, Raw.unary, Raw.fmt, Raw.dfmt, Raw.rm, Raw.fn, Raw.sat, Raw.k, Raw.c, Raw.scope, must, bind, Except.bind, pure, Except.pure]
theorem RoundTrip.vround (h d a k f rm) : RoundTrip.Statement (.vround h d a k f rm) := by
  intro hw rest
  obtain ⟨hf, hw⟩ := wf rfl hw
  refine decode_encode rfl (admits (sh := (shV1 true false)) (o := 0x8E) rfl (by decide) hf
    (by simp [Shape.baseReserved, RegUse.reserved, shV1])
    (by simp [-BitVec.extractLsb'_toNat, Shape.extReserved, Raw.fmt, Raw.rm, Raw.sat, Raw.c, Raw.k, Raw.scope, Raw.fn, RegUse.reserved, objTyped, shV1])
    (by simp [Shape.beyond, RegUse.beyond, Raw.c, shV1]) nofun (fun _ => rfl)) ?_ rest
  rw [build_eq (o := 0x8E) (row := 0x11) (col := 6) rfl (by decide) (by decide)]
  show buildRow11 _ 6 = _
  simp [Instr.fieldsOk, arithOk, Fmt.isFI, scaleOk, accFmt, bandsOk] at hw
  simp only [buildRow11] <;> simp [-BitVec.extractLsb'_toNat, hw, objTyped, Raw.tgt, Raw.im, Raw.intFmt, Raw.sc, Raw.rm5, Raw.fF, Raw.fI, Raw.fFI, Raw.arith, Raw.fma, Raw.unary, Raw.fmt, Raw.dfmt, Raw.rm, Raw.fn, Raw.sat, Raw.k, Raw.c, Raw.scope, must, bind, Except.bind, pure, Except.pure]
theorem RoundTrip.vclass (h d a k f) : RoundTrip.Statement (.vclass h d a k f) := by
  intro hw rest
  obtain ⟨hf, hw⟩ := wf rfl hw
  refine decode_encode rfl (admits (sh := (shV1 false false)) (o := 0x8F) rfl (by decide) hf
    (by simp [Shape.baseReserved, RegUse.reserved, shV1])
    (by simp [-BitVec.extractLsb'_toNat, Shape.extReserved, Raw.fmt, Raw.rm, Raw.sat, Raw.c, Raw.k, Raw.scope, Raw.fn, RegUse.reserved, objTyped, shV1])
    (by simp [Shape.beyond, RegUse.beyond, Raw.c, shV1]) nofun (fun _ => rfl)) ?_ rest
  rw [build_eq (o := 0x8F) (row := 0x11) (col := 7) rfl (by decide) (by decide)]
  show buildRow11 _ 7 = _
  simp [Instr.fieldsOk, arithOk, Fmt.isFI, scaleOk, accFmt, bandsOk] at hw
  simp only [buildRow11] <;> simp [-BitVec.extractLsb'_toNat, hw, objTyped, Raw.tgt, Raw.im, Raw.intFmt, Raw.sc, Raw.rm5, Raw.fF, Raw.fI, Raw.fFI, Raw.arith, Raw.fma, Raw.unary, Raw.fmt, Raw.dfmt, Raw.rm, Raw.fn, Raw.sat, Raw.k, Raw.c, Raw.scope, must, bind, Except.bind, pure, Except.pure]
theorem RoundTrip.vexp (h d a k f rm) : RoundTrip.Statement (.vexp h d a k f rm) := by
  intro hw rest
  obtain ⟨hf, hw⟩ := wf rfl hw
  refine decode_encode rfl (admits (sh := (shV1 true false)) (o := 0x90) rfl (by decide) hf
    (by simp [Shape.baseReserved, RegUse.reserved, shV1])
    (by simp [-BitVec.extractLsb'_toNat, Shape.extReserved, Raw.fmt, Raw.rm, Raw.sat, Raw.c, Raw.k, Raw.scope, Raw.fn, RegUse.reserved, objTyped, shV1])
    (by simp [Shape.beyond, RegUse.beyond, Raw.c, shV1]) nofun (fun _ => rfl)) ?_ rest
  rw [build_eq (o := 0x90) (row := 0x12) (col := 0) rfl (by decide) (by decide)]
  show buildRow12 _ 0 = _
  simp [Instr.fieldsOk, arithOk, Fmt.isFI, scaleOk, accFmt, bandsOk] at hw
  have hm := hw.2
  simp only [buildRow12, Raw.unary]
  rw [rm4_code (m := rm) (by simp [Raw.rm]) hm]
  simp [-BitVec.extractLsb'_toNat, hw, objTyped, Raw.tgt, Raw.im, Raw.intFmt, Raw.sc, Raw.rm5, Raw.fF, Raw.fI, Raw.fFI, Raw.arith, Raw.fma, Raw.unary, Raw.fmt, Raw.dfmt, Raw.rm, Raw.fn, Raw.sat, Raw.k, Raw.c, Raw.scope, must, bind, Except.bind, pure, Except.pure]
theorem RoundTrip.vexp2 (h d a k f rm) : RoundTrip.Statement (.vexp2 h d a k f rm) := by
  intro hw rest
  obtain ⟨hf, hw⟩ := wf rfl hw
  refine decode_encode rfl (admits (sh := (shV1 true false)) (o := 0x91) rfl (by decide) hf
    (by simp [Shape.baseReserved, RegUse.reserved, shV1])
    (by simp [-BitVec.extractLsb'_toNat, Shape.extReserved, Raw.fmt, Raw.rm, Raw.sat, Raw.c, Raw.k, Raw.scope, Raw.fn, RegUse.reserved, objTyped, shV1])
    (by simp [Shape.beyond, RegUse.beyond, Raw.c, shV1]) nofun (fun _ => rfl)) ?_ rest
  rw [build_eq (o := 0x91) (row := 0x12) (col := 1) rfl (by decide) (by decide)]
  show buildRow12 _ 1 = _
  simp [Instr.fieldsOk, arithOk, Fmt.isFI, scaleOk, accFmt, bandsOk] at hw
  have hm := hw.2
  simp only [buildRow12, Raw.unary]
  rw [rm4_code (m := rm) (by simp [Raw.rm]) hm]
  simp [-BitVec.extractLsb'_toNat, hw, objTyped, Raw.tgt, Raw.im, Raw.intFmt, Raw.sc, Raw.rm5, Raw.fF, Raw.fI, Raw.fFI, Raw.arith, Raw.fma, Raw.unary, Raw.fmt, Raw.dfmt, Raw.rm, Raw.fn, Raw.sat, Raw.k, Raw.c, Raw.scope, must, bind, Except.bind, pure, Except.pure]
theorem RoundTrip.vlog (h d a k f rm) : RoundTrip.Statement (.vlog h d a k f rm) := by
  intro hw rest
  obtain ⟨hf, hw⟩ := wf rfl hw
  refine decode_encode rfl (admits (sh := (shV1 true false)) (o := 0x92) rfl (by decide) hf
    (by simp [Shape.baseReserved, RegUse.reserved, shV1])
    (by simp [-BitVec.extractLsb'_toNat, Shape.extReserved, Raw.fmt, Raw.rm, Raw.sat, Raw.c, Raw.k, Raw.scope, Raw.fn, RegUse.reserved, objTyped, shV1])
    (by simp [Shape.beyond, RegUse.beyond, Raw.c, shV1]) nofun (fun _ => rfl)) ?_ rest
  rw [build_eq (o := 0x92) (row := 0x12) (col := 2) rfl (by decide) (by decide)]
  show buildRow12 _ 2 = _
  simp [Instr.fieldsOk, arithOk, Fmt.isFI, scaleOk, accFmt, bandsOk] at hw
  have hm := hw.2
  simp only [buildRow12, Raw.unary]
  rw [rm4_code (m := rm) (by simp [Raw.rm]) hm]
  simp [-BitVec.extractLsb'_toNat, hw, objTyped, Raw.tgt, Raw.im, Raw.intFmt, Raw.sc, Raw.rm5, Raw.fF, Raw.fI, Raw.fFI, Raw.arith, Raw.fma, Raw.unary, Raw.fmt, Raw.dfmt, Raw.rm, Raw.fn, Raw.sat, Raw.k, Raw.c, Raw.scope, must, bind, Except.bind, pure, Except.pure]
theorem RoundTrip.vlog2 (h d a k f rm) : RoundTrip.Statement (.vlog2 h d a k f rm) := by
  intro hw rest
  obtain ⟨hf, hw⟩ := wf rfl hw
  refine decode_encode rfl (admits (sh := (shV1 true false)) (o := 0x93) rfl (by decide) hf
    (by simp [Shape.baseReserved, RegUse.reserved, shV1])
    (by simp [-BitVec.extractLsb'_toNat, Shape.extReserved, Raw.fmt, Raw.rm, Raw.sat, Raw.c, Raw.k, Raw.scope, Raw.fn, RegUse.reserved, objTyped, shV1])
    (by simp [Shape.beyond, RegUse.beyond, Raw.c, shV1]) nofun (fun _ => rfl)) ?_ rest
  rw [build_eq (o := 0x93) (row := 0x12) (col := 3) rfl (by decide) (by decide)]
  show buildRow12 _ 3 = _
  simp [Instr.fieldsOk, arithOk, Fmt.isFI, scaleOk, accFmt, bandsOk] at hw
  have hm := hw.2
  simp only [buildRow12, Raw.unary]
  rw [rm4_code (m := rm) (by simp [Raw.rm]) hm]
  simp [-BitVec.extractLsb'_toNat, hw, objTyped, Raw.tgt, Raw.im, Raw.intFmt, Raw.sc, Raw.rm5, Raw.fF, Raw.fI, Raw.fFI, Raw.arith, Raw.fma, Raw.unary, Raw.fmt, Raw.dfmt, Raw.rm, Raw.fn, Raw.sat, Raw.k, Raw.c, Raw.scope, must, bind, Except.bind, pure, Except.pure]
theorem RoundTrip.vsin (h d a k f rm) : RoundTrip.Statement (.vsin h d a k f rm) := by
  intro hw rest
  obtain ⟨hf, hw⟩ := wf rfl hw
  refine decode_encode rfl (admits (sh := (shV1 true false)) (o := 0x94) rfl (by decide) hf
    (by simp [Shape.baseReserved, RegUse.reserved, shV1])
    (by simp [-BitVec.extractLsb'_toNat, Shape.extReserved, Raw.fmt, Raw.rm, Raw.sat, Raw.c, Raw.k, Raw.scope, Raw.fn, RegUse.reserved, objTyped, shV1])
    (by simp [Shape.beyond, RegUse.beyond, Raw.c, shV1]) nofun (fun _ => rfl)) ?_ rest
  rw [build_eq (o := 0x94) (row := 0x12) (col := 4) rfl (by decide) (by decide)]
  show buildRow12 _ 4 = _
  simp [Instr.fieldsOk, arithOk, Fmt.isFI, scaleOk, accFmt, bandsOk] at hw
  have hm := hw.2
  simp only [buildRow12, Raw.unary]
  rw [rm4_code (m := rm) (by simp [Raw.rm]) hm]
  simp [-BitVec.extractLsb'_toNat, hw, objTyped, Raw.tgt, Raw.im, Raw.intFmt, Raw.sc, Raw.rm5, Raw.fF, Raw.fI, Raw.fFI, Raw.arith, Raw.fma, Raw.unary, Raw.fmt, Raw.dfmt, Raw.rm, Raw.fn, Raw.sat, Raw.k, Raw.c, Raw.scope, must, bind, Except.bind, pure, Except.pure]
theorem RoundTrip.vcos (h d a k f rm) : RoundTrip.Statement (.vcos h d a k f rm) := by
  intro hw rest
  obtain ⟨hf, hw⟩ := wf rfl hw
  refine decode_encode rfl (admits (sh := (shV1 true false)) (o := 0x95) rfl (by decide) hf
    (by simp [Shape.baseReserved, RegUse.reserved, shV1])
    (by simp [-BitVec.extractLsb'_toNat, Shape.extReserved, Raw.fmt, Raw.rm, Raw.sat, Raw.c, Raw.k, Raw.scope, Raw.fn, RegUse.reserved, objTyped, shV1])
    (by simp [Shape.beyond, RegUse.beyond, Raw.c, shV1]) nofun (fun _ => rfl)) ?_ rest
  rw [build_eq (o := 0x95) (row := 0x12) (col := 5) rfl (by decide) (by decide)]
  show buildRow12 _ 5 = _
  simp [Instr.fieldsOk, arithOk, Fmt.isFI, scaleOk, accFmt, bandsOk] at hw
  have hm := hw.2
  simp only [buildRow12, Raw.unary]
  rw [rm4_code (m := rm) (by simp [Raw.rm]) hm]
  simp [-BitVec.extractLsb'_toNat, hw, objTyped, Raw.tgt, Raw.im, Raw.intFmt, Raw.sc, Raw.rm5, Raw.fF, Raw.fI, Raw.fFI, Raw.arith, Raw.fma, Raw.unary, Raw.fmt, Raw.dfmt, Raw.rm, Raw.fn, Raw.sat, Raw.k, Raw.c, Raw.scope, must, bind, Except.bind, pure, Except.pure]
theorem RoundTrip.vtanh (h d a k f rm) : RoundTrip.Statement (.vtanh h d a k f rm) := by
  intro hw rest
  obtain ⟨hf, hw⟩ := wf rfl hw
  refine decode_encode rfl (admits (sh := (shV1 true false)) (o := 0x96) rfl (by decide) hf
    (by simp [Shape.baseReserved, RegUse.reserved, shV1])
    (by simp [-BitVec.extractLsb'_toNat, Shape.extReserved, Raw.fmt, Raw.rm, Raw.sat, Raw.c, Raw.k, Raw.scope, Raw.fn, RegUse.reserved, objTyped, shV1])
    (by simp [Shape.beyond, RegUse.beyond, Raw.c, shV1]) nofun (fun _ => rfl)) ?_ rest
  rw [build_eq (o := 0x96) (row := 0x12) (col := 6) rfl (by decide) (by decide)]
  show buildRow12 _ 6 = _
  simp [Instr.fieldsOk, arithOk, Fmt.isFI, scaleOk, accFmt, bandsOk] at hw
  have hm := hw.2
  simp only [buildRow12, Raw.unary]
  rw [rm4_code (m := rm) (by simp [Raw.rm]) hm]
  simp [-BitVec.extractLsb'_toNat, hw, objTyped, Raw.tgt, Raw.im, Raw.intFmt, Raw.sc, Raw.rm5, Raw.fF, Raw.fI, Raw.fFI, Raw.arith, Raw.fma, Raw.unary, Raw.fmt, Raw.dfmt, Raw.rm, Raw.fn, Raw.sat, Raw.k, Raw.c, Raw.scope, must, bind, Except.bind, pure, Except.pure]
theorem RoundTrip.vclamp (h d a b c k f) : RoundTrip.Statement (.vclamp h d a b c k f) := by
  intro hw rest
  obtain ⟨hf, hw⟩ := wf rfl hw
  refine decode_encode rfl (admits (sh := (shV3 false false)) (o := 0x97) rfl (by decide) hf
    (by simp [Shape.baseReserved, RegUse.reserved, shV2, shV3])
    (by simp [-BitVec.extractLsb'_toNat, Shape.extReserved, Raw.fmt, Raw.rm, Raw.sat, Raw.c, Raw.k, Raw.scope, Raw.fn, RegUse.reserved, objTyped, shV2, shV3])
    (by simp [Shape.beyond, RegUse.beyond, Raw.c, shV2, shV3]) nofun (fun _ => rfl)) ?_ rest
  rw [build_eq (o := 0x97) (row := 0x12) (col := 7) rfl (by decide) (by decide)]
  show buildRow12 _ 7 = _
  simp [Instr.fieldsOk, arithOk, Fmt.isFI, scaleOk, accFmt, bandsOk] at hw
  simp only [buildRow12] <;> simp [-BitVec.extractLsb'_toNat, hw, objTyped, Raw.tgt, Raw.im, Raw.intFmt, Raw.sc, Raw.rm5, Raw.fF, Raw.fI, Raw.fFI, Raw.arith, Raw.fma, Raw.unary, Raw.fmt, Raw.dfmt, Raw.rm, Raw.fn, Raw.sat, Raw.k, Raw.c, Raw.scope, must, bind, Except.bind, pure, Except.pure]
theorem RoundTrip.vcmp (h d a b k cond f) : RoundTrip.Statement (.vcmp h d a b k cond f) := by
  intro hw rest
  obtain ⟨hf, hw⟩ := wf rfl hw
  refine decode_encode rfl (admits (sh := ({ shV2 false false with d := .k, fn := 7 } : Shape)) (o := 0x98) rfl (by decide) hf
    (by simp [Shape.baseReserved, RegUse.reserved, shV2])
    (by simp [-BitVec.extractLsb'_toNat, Shape.extReserved, Raw.fmt, Raw.rm, Raw.sat, Raw.c, Raw.k, Raw.scope, Raw.fn, RegUse.reserved, objTyped, shV2])
    (by simp [Shape.beyond, RegUse.beyond, Raw.c, shV2]) nofun (fun _ => rfl)) ?_ rest
  rw [build_eq (o := 0x98) (row := 0x13) (col := 0) rfl (by decide) (by decide)]
  show buildRow13 _ 0 = _
  simp [Instr.fieldsOk, arithOk, Fmt.isFI, scaleOk, accFmt, bandsOk] at hw
  simp only [buildRow13] <;> simp [-BitVec.extractLsb'_toNat, hw, objTyped, Raw.tgt, Raw.im, Raw.intFmt, Raw.sc, Raw.rm5, Raw.fF, Raw.fI, Raw.fFI, Raw.arith, Raw.fma, Raw.unary, Raw.fmt, Raw.dfmt, Raw.rm, Raw.fn, Raw.sat, Raw.k, Raw.c, Raw.scope, must, bind, Except.bind, pure, Except.pure]
theorem RoundTrip.vsel (h d a b k f) : RoundTrip.Statement (.vsel h d a b k f) := by
  intro hw rest
  obtain ⟨hf, hw⟩ := wf rfl hw
  refine decode_encode rfl (admits (sh := (shV2 false false)) (o := 0x99) rfl (by decide) hf
    (by simp [Shape.baseReserved, RegUse.reserved, shV2])
    (by simp [-BitVec.extractLsb'_toNat, Shape.extReserved, Raw.fmt, Raw.rm, Raw.sat, Raw.c, Raw.k, Raw.scope, Raw.fn, RegUse.reserved, objTyped, shV2])
    (by simp [Shape.beyond, RegUse.beyond, Raw.c, shV2]) nofun (fun _ => rfl)) ?_ rest
  rw [build_eq (o := 0x99) (row := 0x13) (col := 1) rfl (by decide) (by decide)]
  show buildRow13 _ 1 = _
  simp [Instr.fieldsOk, arithOk, Fmt.isFI, scaleOk, accFmt, bandsOk] at hw
  simp only [buildRow13] <;> simp [-BitVec.extractLsb'_toNat, hw, objTyped, Raw.tgt, Raw.im, Raw.intFmt, Raw.sc, Raw.rm5, Raw.fF, Raw.fI, Raw.fFI, Raw.arith, Raw.fma, Raw.unary, Raw.fmt, Raw.dfmt, Raw.rm, Raw.fn, Raw.sat, Raw.k, Raw.c, Raw.scope, must, bind, Except.bind, pure, Except.pure]
theorem RoundTrip.kop (h d a b c tt) : RoundTrip.Statement (.kop h d a b c tt) := by
  intro hw rest
  obtain ⟨hf, hw⟩ := wf rfl hw
  refine decode_encode rfl (admits (sh := ({ d := .k, a := .k, b := .k, c := .k, typed := true, fn := 0xFF } : Shape)) (o := 0x9A) rfl (by decide) hf
    (by simp [Shape.baseReserved, RegUse.reserved])
    (by simp [-BitVec.extractLsb'_toNat, Shape.extReserved, Raw.fmt, Raw.rm, Raw.sat, Raw.c, Raw.k, Raw.scope, Raw.fn, RegUse.reserved, objTyped])
    (by simp [Shape.beyond, RegUse.beyond, Raw.c]) nofun (fun _ => rfl)) ?_ rest
  rw [build_eq (o := 0x9A) (row := 0x13) (col := 2) rfl (by decide) (by decide)]
  show buildRow13 _ 2 = _
  simp [Instr.fieldsOk, arithOk, Fmt.isFI, scaleOk, accFmt, bandsOk] at hw
  simp only [buildRow13] <;> simp [-BitVec.extractLsb'_toNat, hw, objTyped, Raw.tgt, Raw.im, Raw.intFmt, Raw.sc, Raw.rm5, Raw.fF, Raw.fI, Raw.fFI, Raw.arith, Raw.fma, Raw.unary, Raw.fmt, Raw.dfmt, Raw.rm, Raw.fn, Raw.sat, Raw.k, Raw.c, Raw.scope, must, bind, Except.bind, pure, Except.pure]
theorem RoundTrip.kmov (h d a b n) : RoundTrip.Statement (.kmov h d a b n) := by
  intro hw rest
  obtain ⟨hf, hw⟩ := wf rfl hw
  refine decode_encode rfl (admits (sh := ({ d := .k, a := .x, b := .k, typed := true, fn := 3 } : Shape)) (o := 0x9B) rfl (by decide) hf
    (by simp [Shape.baseReserved, RegUse.reserved])
    (by simp [-BitVec.extractLsb'_toNat, Shape.extReserved, Raw.fmt, Raw.rm, Raw.sat, Raw.c, Raw.k, Raw.scope, Raw.fn, RegUse.reserved, objTyped])
    (by simp [Shape.beyond, RegUse.beyond, Raw.c]) nofun (fun _ => rfl)) ?_ rest
  rw [build_eq (o := 0x9B) (row := 0x13) (col := 3) rfl (by decide) (by decide)]
  show buildRow13 _ 3 = _
  simp [Instr.fieldsOk, arithOk, Fmt.isFI, scaleOk, accFmt, bandsOk] at hw
  simp only [buildRow13] <;> simp [-BitVec.extractLsb'_toNat, hw, objTyped, Raw.tgt, Raw.im, Raw.intFmt, Raw.sc, Raw.rm5, Raw.fF, Raw.fI, Raw.fFI, Raw.arith, Raw.fma, Raw.unary, Raw.fmt, Raw.dfmt, Raw.rm, Raw.fn, Raw.sat, Raw.k, Raw.c, Raw.scope, must, bind, Except.bind, pure, Except.pure]
theorem RoundTrip.vlop3 (h d a b c k f tt) : RoundTrip.Statement (.vlop3 h d a b c k f tt) := by
  intro hw rest
  obtain ⟨hf, hw⟩ := wf rfl hw
  refine decode_encode rfl (admits (sh := ({ shV3 false false with fn := 0xFF } : Shape)) (o := 0x9C) rfl (by decide) hf
    (by simp [Shape.baseReserved, RegUse.reserved, shV2, shV3])
    (by simp [-BitVec.extractLsb'_toNat, Shape.extReserved, Raw.fmt, Raw.rm, Raw.sat, Raw.c, Raw.k, Raw.scope, Raw.fn, RegUse.reserved, objTyped, shV2, shV3])
    (by simp [Shape.beyond, RegUse.beyond, Raw.c, shV2, shV3]) nofun (fun _ => rfl)) ?_ rest
  rw [build_eq (o := 0x9C) (row := 0x13) (col := 4) rfl (by decide) (by decide)]
  show buildRow13 _ 4 = _
  simp [Instr.fieldsOk, arithOk, Fmt.isFI, scaleOk, accFmt, bandsOk] at hw
  simp only [buildRow13] <;> simp [-BitVec.extractLsb'_toNat, hw, objTyped, Raw.tgt, Raw.im, Raw.intFmt, Raw.sc, Raw.rm5, Raw.fF, Raw.fI, Raw.fFI, Raw.arith, Raw.fma, Raw.unary, Raw.fmt, Raw.dfmt, Raw.rm, Raw.fn, Raw.sat, Raw.k, Raw.c, Raw.scope, must, bind, Except.bind, pure, Except.pure]
theorem RoundTrip.vsll (h d a b k f) : RoundTrip.Statement (.vsll h d a b k f) := by
  intro hw rest
  obtain ⟨hf, hw⟩ := wf rfl hw
  refine decode_encode rfl (admits (sh := (shV2 false false)) (o := 0x9D) rfl (by decide) hf
    (by simp [Shape.baseReserved, RegUse.reserved, shV2])
    (by simp [-BitVec.extractLsb'_toNat, Shape.extReserved, Raw.fmt, Raw.rm, Raw.sat, Raw.c, Raw.k, Raw.scope, Raw.fn, RegUse.reserved, objTyped, shV2])
    (by simp [Shape.beyond, RegUse.beyond, Raw.c, shV2]) nofun (fun _ => rfl)) ?_ rest
  rw [build_eq (o := 0x9D) (row := 0x13) (col := 5) rfl (by decide) (by decide)]
  show buildRow13 _ 5 = _
  simp [Instr.fieldsOk, arithOk, Fmt.isFI, scaleOk, accFmt, bandsOk] at hw
  simp only [buildRow13] <;> simp [-BitVec.extractLsb'_toNat, hw, objTyped, Raw.tgt, Raw.im, Raw.intFmt, Raw.sc, Raw.rm5, Raw.fF, Raw.fI, Raw.fFI, Raw.arith, Raw.fma, Raw.unary, Raw.fmt, Raw.dfmt, Raw.rm, Raw.fn, Raw.sat, Raw.k, Raw.c, Raw.scope, must, bind, Except.bind, pure, Except.pure]
theorem RoundTrip.vsrl (h d a b k f) : RoundTrip.Statement (.vsrl h d a b k f) := by
  intro hw rest
  obtain ⟨hf, hw⟩ := wf rfl hw
  refine decode_encode rfl (admits (sh := (shV2 false false)) (o := 0x9E) rfl (by decide) hf
    (by simp [Shape.baseReserved, RegUse.reserved, shV2])
    (by simp [-BitVec.extractLsb'_toNat, Shape.extReserved, Raw.fmt, Raw.rm, Raw.sat, Raw.c, Raw.k, Raw.scope, Raw.fn, RegUse.reserved, objTyped, shV2])
    (by simp [Shape.beyond, RegUse.beyond, Raw.c, shV2]) nofun (fun _ => rfl)) ?_ rest
  rw [build_eq (o := 0x9E) (row := 0x13) (col := 6) rfl (by decide) (by decide)]
  show buildRow13 _ 6 = _
  simp [Instr.fieldsOk, arithOk, Fmt.isFI, scaleOk, accFmt, bandsOk] at hw
  simp only [buildRow13] <;> simp [-BitVec.extractLsb'_toNat, hw, objTyped, Raw.tgt, Raw.im, Raw.intFmt, Raw.sc, Raw.rm5, Raw.fF, Raw.fI, Raw.fFI, Raw.arith, Raw.fma, Raw.unary, Raw.fmt, Raw.dfmt, Raw.rm, Raw.fn, Raw.sat, Raw.k, Raw.c, Raw.scope, must, bind, Except.bind, pure, Except.pure]
theorem RoundTrip.vsra (h d a b k f) : RoundTrip.Statement (.vsra h d a b k f) := by
  intro hw rest
  obtain ⟨hf, hw⟩ := wf rfl hw
  refine decode_encode rfl (admits (sh := (shV2 false false)) (o := 0x9F) rfl (by decide) hf
    (by simp [Shape.baseReserved, RegUse.reserved, shV2])
    (by simp [-BitVec.extractLsb'_toNat, Shape.extReserved, Raw.fmt, Raw.rm, Raw.sat, Raw.c, Raw.k, Raw.scope, Raw.fn, RegUse.reserved, objTyped, shV2])
    (by simp [Shape.beyond, RegUse.beyond, Raw.c, shV2]) nofun (fun _ => rfl)) ?_ rest
  rw [build_eq (o := 0x9F) (row := 0x13) (col := 7) rfl (by decide) (by decide)]
  show buildRow13 _ 7 = _
  simp [Instr.fieldsOk, arithOk, Fmt.isFI, scaleOk, accFmt, bandsOk] at hw
  simp only [buildRow13] <;> simp [-BitVec.extractLsb'_toNat, hw, objTyped, Raw.tgt, Raw.im, Raw.intFmt, Raw.sc, Raw.rm5, Raw.fF, Raw.fI, Raw.fFI, Raw.arith, Raw.fma, Raw.unary, Raw.fmt, Raw.dfmt, Raw.rm, Raw.fn, Raw.sat, Raw.k, Raw.c, Raw.scope, must, bind, Except.bind, pure, Except.pure]
theorem RoundTrip.vfsl (h d a b c) : RoundTrip.Statement (.vfsl h d a b c) := by
  intro hw rest
  obtain ⟨hf, hw⟩ := wf rfl hw
  refine decode_encode rfl (admits (sh := ({ d := .v, a := .v, b := .v, c := .x, typed := true } : Shape)) (o := 0xA0) rfl (by decide) hf
    (by simp [Shape.baseReserved, RegUse.reserved])
    (by simp [-BitVec.extractLsb'_toNat, Shape.extReserved, Raw.fmt, Raw.rm, Raw.sat, Raw.c, Raw.k, Raw.scope, Raw.fn, RegUse.reserved, objTyped])
    (by simp [Shape.beyond, RegUse.beyond, Raw.c]) nofun (fun _ => rfl)) ?_ rest
  rw [build_eq (o := 0xA0) (row := 0x14) (col := 0) rfl (by decide) (by decide)]
  show buildRow14 _ 0 = _
  simp [Instr.fieldsOk, arithOk, Fmt.isFI, scaleOk, accFmt, bandsOk] at hw
  simp only [buildRow14] <;> simp [-BitVec.extractLsb'_toNat, hw, objTyped, Raw.tgt, Raw.im, Raw.intFmt, Raw.sc, Raw.rm5, Raw.fF, Raw.fI, Raw.fFI, Raw.arith, Raw.fma, Raw.unary, Raw.fmt, Raw.dfmt, Raw.rm, Raw.fn, Raw.sat, Raw.k, Raw.c, Raw.scope, must, bind, Except.bind, pure, Except.pure]
theorem RoundTrip.vfsr (h d a b c) : RoundTrip.Statement (.vfsr h d a b c) := by
  intro hw rest
  obtain ⟨hf, hw⟩ := wf rfl hw
  refine decode_encode rfl (admits (sh := ({ d := .v, a := .v, b := .v, c := .x, typed := true } : Shape)) (o := 0xA1) rfl (by decide) hf
    (by simp [Shape.baseReserved, RegUse.reserved])
    (by simp [-BitVec.extractLsb'_toNat, Shape.extReserved, Raw.fmt, Raw.rm, Raw.sat, Raw.c, Raw.k, Raw.scope, Raw.fn, RegUse.reserved, objTyped])
    (by simp [Shape.beyond, RegUse.beyond, Raw.c]) nofun (fun _ => rfl)) ?_ rest
  rw [build_eq (o := 0xA1) (row := 0x14) (col := 1) rfl (by decide) (by decide)]
  show buildRow14 _ 1 = _
  simp [Instr.fieldsOk, arithOk, Fmt.isFI, scaleOk, accFmt, bandsOk] at hw
  simp only [buildRow14] <;> simp [-BitVec.extractLsb'_toNat, hw, objTyped, Raw.tgt, Raw.im, Raw.intFmt, Raw.sc, Raw.rm5, Raw.fF, Raw.fI, Raw.fFI, Raw.arith, Raw.fma, Raw.unary, Raw.fmt, Raw.dfmt, Raw.rm, Raw.fn, Raw.sat, Raw.k, Raw.c, Raw.scope, must, bind, Except.bind, pure, Except.pure]
theorem RoundTrip.vrot (h d a c) : RoundTrip.Statement (.vrot h d a c) := by
  intro hw rest
  obtain ⟨hf, hw⟩ := wf rfl hw
  refine decode_encode rfl (admits (sh := ({ d := .v, a := .v, c := .x, typed := true } : Shape)) (o := 0xA2) rfl (by decide) hf
    (by simp [Shape.baseReserved, RegUse.reserved])
    (by simp [-BitVec.extractLsb'_toNat, Shape.extReserved, Raw.fmt, Raw.rm, Raw.sat, Raw.c, Raw.k, Raw.scope, Raw.fn, RegUse.reserved, objTyped])
    (by simp [Shape.beyond, RegUse.beyond, Raw.c]) nofun (fun _ => rfl)) ?_ rest
  rw [build_eq (o := 0xA2) (row := 0x14) (col := 2) rfl (by decide) (by decide)]
  show buildRow14 _ 2 = _
  simp [Instr.fieldsOk, arithOk, Fmt.isFI, scaleOk, accFmt, bandsOk] at hw
  simp only [buildRow14] <;> simp [-BitVec.extractLsb'_toNat, hw, objTyped, Raw.tgt, Raw.im, Raw.intFmt, Raw.sc, Raw.rm5, Raw.fF, Raw.fI, Raw.fFI, Raw.arith, Raw.fma, Raw.unary, Raw.fmt, Raw.dfmt, Raw.rm, Raw.fn, Raw.sat, Raw.k, Raw.c, Raw.scope, must, bind, Except.bind, pure, Except.pure]
theorem RoundTrip.vcvt (h d a k sf df rm sat part) : RoundTrip.Statement (.vcvt h d a k sf df rm sat part) := by
  intro hw rest
  obtain ⟨hf, hw⟩ := wf rfl hw
  refine decode_encode rfl (admits (sh := ({ shV1 true true with fn := 0x1E0F } : Shape)) (o := 0xA3) rfl (by decide) hf
    (by simp [Shape.baseReserved, RegUse.reserved, shV1])
    (by simp [-BitVec.extractLsb'_toNat, Shape.extReserved, Raw.fmt, Raw.rm, Raw.sat, Raw.c, Raw.k, Raw.scope, Raw.fn, RegUse.reserved, objTyped, shV1])
    (by simp [Shape.beyond, RegUse.beyond, Raw.c, shV1]) nofun (fun _ => rfl)) ?_ rest
  rw [build_eq (o := 0xA3) (row := 0x14) (col := 3) rfl (by decide) (by decide)]
  show buildRow14 _ 3 = _
  simp [Instr.fieldsOk, arithOk, Fmt.isFI, scaleOk, accFmt, bandsOk] at hw
  simp only [buildRow14] <;> simp [-BitVec.extractLsb'_toNat, hw, objTyped, Raw.tgt, Raw.im, Raw.intFmt, Raw.sc, Raw.rm5, Raw.fF, Raw.fI, Raw.fFI, Raw.arith, Raw.fma, Raw.unary, Raw.fmt, Raw.dfmt, Raw.rm, Raw.fn, Raw.sat, Raw.k, Raw.c, Raw.scope, must, bind, Except.bind, pure, Except.pure]
theorem RoundTrip.vqnt (h d a b k sf df rm sat sb fs part) : RoundTrip.Statement (.vqnt h d a b k sf df rm sat sb fs part) := by
  intro hw rest
  obtain ⟨hf, hw⟩ := wf rfl hw
  refine decode_encode rfl (admits (sh := ({ shV2 true true with fn := 0x1FFF } : Shape)) (o := 0xA4) rfl (by decide) hf
    (by simp [Shape.baseReserved, RegUse.reserved, shV2])
    (by simp [-BitVec.extractLsb'_toNat, Shape.extReserved, Raw.fmt, Raw.rm, Raw.sat, Raw.c, Raw.k, Raw.scope, Raw.fn, RegUse.reserved, objTyped, shV2])
    (by simp [Shape.beyond, RegUse.beyond, Raw.c, shV2]) nofun (fun _ => rfl)) ?_ rest
  rw [build_eq (o := 0xA4) (row := 0x14) (col := 4) rfl (by decide) (by decide)]
  show buildRow14 _ 4 = _
  simp [Instr.fieldsOk, arithOk, Fmt.isFI, scaleOk, accFmt, bandsOk] at hw
  simp only [buildRow14] <;> simp [-BitVec.extractLsb'_toNat, hw, objTyped, Raw.tgt, Raw.im, Raw.intFmt, Raw.sc, Raw.rm5, Raw.fF, Raw.fI, Raw.fFI, Raw.arith, Raw.fma, Raw.unary, Raw.fmt, Raw.dfmt, Raw.rm, Raw.fn, Raw.sat, Raw.k, Raw.c, Raw.scope, must, bind, Except.bind, pure, Except.pure]
theorem RoundTrip.vdqnt (h d a b k sf df rm sat sb fs part) : RoundTrip.Statement (.vdqnt h d a b k sf df rm sat sb fs part) := by
  intro hw rest
  obtain ⟨hf, hw⟩ := wf rfl hw
  refine decode_encode rfl (admits (sh := ({ shV2 true true with fn := 0x1FFF } : Shape)) (o := 0xA5) rfl (by decide) hf
    (by simp [Shape.baseReserved, RegUse.reserved, shV2])
    (by simp [-BitVec.extractLsb'_toNat, Shape.extReserved, Raw.fmt, Raw.rm, Raw.sat, Raw.c, Raw.k, Raw.scope, Raw.fn, RegUse.reserved, objTyped, shV2])
    (by simp [Shape.beyond, RegUse.beyond, Raw.c, shV2]) nofun (fun _ => rfl)) ?_ rest
  rw [build_eq (o := 0xA5) (row := 0x14) (col := 5) rfl (by decide) (by decide)]
  show buildRow14 _ 5 = _
  simp [Instr.fieldsOk, arithOk, Fmt.isFI, scaleOk, accFmt, bandsOk] at hw
  simp only [buildRow14] <;> simp [-BitVec.extractLsb'_toNat, hw, objTyped, Raw.tgt, Raw.im, Raw.intFmt, Raw.sc, Raw.rm5, Raw.fF, Raw.fI, Raw.fFI, Raw.arith, Raw.fma, Raw.unary, Raw.fmt, Raw.dfmt, Raw.rm, Raw.fn, Raw.sat, Raw.k, Raw.c, Raw.scope, must, bind, Except.bind, pure, Except.pure]
theorem RoundTrip.vmov (h d a k f) : RoundTrip.Statement (.vmov h d a k f) := by
  intro hw rest
  obtain ⟨hf, hw⟩ := wf rfl hw
  refine decode_encode rfl (admits (sh := (shV1 false false)) (o := 0xA6) rfl (by decide) hf
    (by simp [Shape.baseReserved, RegUse.reserved, shV1])
    (by simp [-BitVec.extractLsb'_toNat, Shape.extReserved, Raw.fmt, Raw.rm, Raw.sat, Raw.c, Raw.k, Raw.scope, Raw.fn, RegUse.reserved, objTyped, shV1])
    (by simp [Shape.beyond, RegUse.beyond, Raw.c, shV1]) nofun (fun _ => rfl)) ?_ rest
  rw [build_eq (o := 0xA6) (row := 0x14) (col := 6) rfl (by decide) (by decide)]
  show buildRow14 _ 6 = _
  simp [Instr.fieldsOk, arithOk, Fmt.isFI, scaleOk, accFmt, bandsOk] at hw
  simp only [buildRow14] <;> simp [-BitVec.extractLsb'_toNat, hw, objTyped, Raw.tgt, Raw.im, Raw.intFmt, Raw.sc, Raw.rm5, Raw.fF, Raw.fI, Raw.fFI, Raw.arith, Raw.fma, Raw.unary, Raw.fmt, Raw.dfmt, Raw.rm, Raw.fn, Raw.sat, Raw.k, Raw.c, Raw.scope, must, bind, Except.bind, pure, Except.pure]
theorem RoundTrip.vsplat (h d a k f) : RoundTrip.Statement (.vsplat h d a k f) := by
  intro hw rest
  obtain ⟨hf, hw⟩ := wf rfl hw
  refine decode_encode rfl (admits (sh := ({ shV1 false false with a := .x } : Shape)) (o := 0xA7) rfl (by decide) hf
    (by simp [Shape.baseReserved, RegUse.reserved, shV1])
    (by simp [-BitVec.extractLsb'_toNat, Shape.extReserved, Raw.fmt, Raw.rm, Raw.sat, Raw.c, Raw.k, Raw.scope, Raw.fn, RegUse.reserved, objTyped, shV1])
    (by simp [Shape.beyond, RegUse.beyond, Raw.c, shV1]) nofun (fun _ => rfl)) ?_ rest
  rw [build_eq (o := 0xA7) (row := 0x14) (col := 7) rfl (by decide) (by decide)]
  show buildRow14 _ 7 = _
  simp [Instr.fieldsOk, arithOk, Fmt.isFI, scaleOk, accFmt, bandsOk] at hw
  simp only [buildRow14] <;> simp [-BitVec.extractLsb'_toNat, hw, objTyped, Raw.tgt, Raw.im, Raw.intFmt, Raw.sc, Raw.rm5, Raw.fF, Raw.fI, Raw.fFI, Raw.arith, Raw.fma, Raw.unary, Raw.fmt, Raw.dfmt, Raw.rm, Raw.fn, Raw.sat, Raw.k, Raw.c, Raw.scope, must, bind, Except.bind, pure, Except.pure]
theorem RoundTrip.vext (h d a b f) : RoundTrip.Statement (.vext h d a b f) := by
  intro hw rest
  obtain ⟨hf, hw⟩ := wf rfl hw
  refine decode_encode rfl (admits (sh := ({ d := .x, a := .v, b := .x, typed := true, fmt := true } : Shape)) (o := 0xA8) rfl (by decide) hf
    (by simp [Shape.baseReserved, RegUse.reserved])
    (by simp [-BitVec.extractLsb'_toNat, Shape.extReserved, Raw.fmt, Raw.rm, Raw.sat, Raw.c, Raw.k, Raw.scope, Raw.fn, RegUse.reserved, objTyped])
    (by simp [Shape.beyond, RegUse.beyond, Raw.c]) nofun (fun _ => rfl)) ?_ rest
  rw [build_eq (o := 0xA8) (row := 0x15) (col := 0) rfl (by decide) (by decide)]
  show buildRow15 _ 0 = _
  simp [Instr.fieldsOk, arithOk, Fmt.isFI, scaleOk, accFmt, bandsOk] at hw
  simp only [buildRow15] <;> simp [-BitVec.extractLsb'_toNat, hw, objTyped, Raw.tgt, Raw.im, Raw.intFmt, Raw.sc, Raw.rm5, Raw.fF, Raw.fI, Raw.fFI, Raw.arith, Raw.fma, Raw.unary, Raw.fmt, Raw.dfmt, Raw.rm, Raw.fn, Raw.sat, Raw.k, Raw.c, Raw.scope, must, bind, Except.bind, pure, Except.pure]
theorem RoundTrip.vredadd (h d a b k f df rm sat) : RoundTrip.Statement (.vredadd h d a b k f df rm sat) := by
  intro hw rest
  obtain ⟨hf, hw⟩ := wf rfl hw
  refine decode_encode rfl (admits (sh := ({ shV2 true true with fn := 0x1E00 } : Shape)) (o := 0xA9) rfl (by decide) hf
    (by simp [Shape.baseReserved, RegUse.reserved, shV2])
    (by simp [-BitVec.extractLsb'_toNat, Shape.extReserved, Raw.fmt, Raw.rm, Raw.sat, Raw.c, Raw.k, Raw.scope, Raw.fn, RegUse.reserved, objTyped, shV2])
    (by simp [Shape.beyond, RegUse.beyond, Raw.c, shV2]) nofun (fun _ => rfl)) ?_ rest
  rw [build_eq (o := 0xA9) (row := 0x15) (col := 1) rfl (by decide) (by decide)]
  show buildRow15 _ 1 = _
  simp [Instr.fieldsOk, arithOk, Fmt.isFI, scaleOk, accFmt, bandsOk] at hw
  simp only [buildRow15]
  have hg := fmt_group df
  simp_all [-BitVec.extractLsb'_toNat, objTyped, Raw.tgt, Raw.im, Raw.intFmt, Raw.sc, Raw.rm5, Raw.fF, Raw.fI, Raw.fFI, Raw.arith, Raw.fma, Raw.unary, Raw.fmt, Raw.dfmt, Raw.rm, Raw.fn, Raw.sat, Raw.k, Raw.c, Raw.scope, must, bind, Except.bind, pure, Except.pure]
theorem RoundTrip.vredmax (h d a b k f df) : RoundTrip.Statement (.vredmax h d a b k f df) := by
  intro hw rest
  obtain ⟨hf, hw⟩ := wf rfl hw
  refine decode_encode rfl (admits (sh := ({ shV2 false false with fn := 0x1E00 } : Shape)) (o := 0xAA) rfl (by decide) hf
    (by simp [Shape.baseReserved, RegUse.reserved, shV2])
    (by simp [-BitVec.extractLsb'_toNat, Shape.extReserved, Raw.fmt, Raw.rm, Raw.sat, Raw.c, Raw.k, Raw.scope, Raw.fn, RegUse.reserved, objTyped, shV2])
    (by simp [Shape.beyond, RegUse.beyond, Raw.c, shV2]) nofun (fun _ => rfl)) ?_ rest
  rw [build_eq (o := 0xAA) (row := 0x15) (col := 2) rfl (by decide) (by decide)]
  show buildRow15 _ 2 = _
  simp [Instr.fieldsOk, arithOk, Fmt.isFI, scaleOk, accFmt, bandsOk] at hw
  simp only [buildRow15] <;> simp [-BitVec.extractLsb'_toNat, hw, objTyped, Raw.tgt, Raw.im, Raw.intFmt, Raw.sc, Raw.rm5, Raw.fF, Raw.fI, Raw.fFI, Raw.arith, Raw.fma, Raw.unary, Raw.fmt, Raw.dfmt, Raw.rm, Raw.fn, Raw.sat, Raw.k, Raw.c, Raw.scope, must, bind, Except.bind, pure, Except.pure]
theorem RoundTrip.vredmin (h d a b k f df) : RoundTrip.Statement (.vredmin h d a b k f df) := by
  intro hw rest
  obtain ⟨hf, hw⟩ := wf rfl hw
  refine decode_encode rfl (admits (sh := ({ shV2 false false with fn := 0x1E00 } : Shape)) (o := 0xAB) rfl (by decide) hf
    (by simp [Shape.baseReserved, RegUse.reserved, shV2])
    (by simp [-BitVec.extractLsb'_toNat, Shape.extReserved, Raw.fmt, Raw.rm, Raw.sat, Raw.c, Raw.k, Raw.scope, Raw.fn, RegUse.reserved, objTyped, shV2])
    (by simp [Shape.beyond, RegUse.beyond, Raw.c, shV2]) nofun (fun _ => rfl)) ?_ rest
  rw [build_eq (o := 0xAB) (row := 0x15) (col := 3) rfl (by decide) (by decide)]
  show buildRow15 _ 3 = _
  simp [Instr.fieldsOk, arithOk, Fmt.isFI, scaleOk, accFmt, bandsOk] at hw
  simp only [buildRow15] <;> simp [-BitVec.extractLsb'_toNat, hw, objTyped, Raw.tgt, Raw.im, Raw.intFmt, Raw.sc, Raw.rm5, Raw.fF, Raw.fI, Raw.fFI, Raw.arith, Raw.fma, Raw.unary, Raw.fmt, Raw.dfmt, Raw.rm, Raw.fn, Raw.sat, Raw.k, Raw.c, Raw.scope, must, bind, Except.bind, pure, Except.pure]
theorem RoundTrip.vperm (h d a b k f) : RoundTrip.Statement (.vperm h d a b k f) := by
  intro hw rest
  obtain ⟨hf, hw⟩ := wf rfl hw
  refine decode_encode rfl (admits (sh := (shV2 false false)) (o := 0xAC) rfl (by decide) hf
    (by simp [Shape.baseReserved, RegUse.reserved, shV2])
    (by simp [-BitVec.extractLsb'_toNat, Shape.extReserved, Raw.fmt, Raw.rm, Raw.sat, Raw.c, Raw.k, Raw.scope, Raw.fn, RegUse.reserved, objTyped, shV2])
    (by simp [Shape.beyond, RegUse.beyond, Raw.c, shV2]) nofun (fun _ => rfl)) ?_ rest
  rw [build_eq (o := 0xAC) (row := 0x15) (col := 4) rfl (by decide) (by decide)]
  show buildRow15 _ 4 = _
  simp [Instr.fieldsOk, arithOk, Fmt.isFI, scaleOk, accFmt, bandsOk] at hw
  simp only [buildRow15] <;> simp [-BitVec.extractLsb'_toNat, hw, objTyped, Raw.tgt, Raw.im, Raw.intFmt, Raw.sc, Raw.rm5, Raw.fF, Raw.fI, Raw.fFI, Raw.arith, Raw.fma, Raw.unary, Raw.fmt, Raw.dfmt, Raw.rm, Raw.fn, Raw.sat, Raw.k, Raw.c, Raw.scope, must, bind, Except.bind, pure, Except.pure]
theorem RoundTrip.vslide (h d a b c k f up) : RoundTrip.Statement (.vslide h d a b c k f up) := by
  intro hw rest
  obtain ⟨hf, hw⟩ := wf rfl hw
  refine decode_encode rfl (admits (sh := ({ shV2 false false with c := .x, fn := 1 } : Shape)) (o := 0xAD) rfl (by decide) hf
    (by simp [Shape.baseReserved, RegUse.reserved, shV2])
    (by simp [-BitVec.extractLsb'_toNat, Shape.extReserved, Raw.fmt, Raw.rm, Raw.sat, Raw.c, Raw.k, Raw.scope, Raw.fn, RegUse.reserved, objTyped, shV2])
    (by simp [Shape.beyond, RegUse.beyond, Raw.c, shV2]) nofun (fun _ => rfl)) ?_ rest
  rw [build_eq (o := 0xAD) (row := 0x15) (col := 5) rfl (by decide) (by decide)]
  show buildRow15 _ 5 = _
  simp [Instr.fieldsOk, arithOk, Fmt.isFI, scaleOk, accFmt, bandsOk] at hw
  simp only [buildRow15] <;> simp [-BitVec.extractLsb'_toNat, hw, objTyped, Raw.tgt, Raw.im, Raw.intFmt, Raw.sc, Raw.rm5, Raw.fF, Raw.fI, Raw.fFI, Raw.arith, Raw.fma, Raw.unary, Raw.fmt, Raw.dfmt, Raw.rm, Raw.fn, Raw.sat, Raw.k, Raw.c, Raw.scope, must, bind, Except.bind, pure, Except.pure]
theorem RoundTrip.vbcast (h d a b k f) : RoundTrip.Statement (.vbcast h d a b k f) := by
  intro hw rest
  obtain ⟨hf, hw⟩ := wf rfl hw
  refine decode_encode rfl (admits (sh := ({ shV2 false false with b := .x } : Shape)) (o := 0xAE) rfl (by decide) hf
    (by simp [Shape.baseReserved, RegUse.reserved, shV2])
    (by simp [-BitVec.extractLsb'_toNat, Shape.extReserved, Raw.fmt, Raw.rm, Raw.sat, Raw.c, Raw.k, Raw.scope, Raw.fn, RegUse.reserved, objTyped, shV2])
    (by simp [Shape.beyond, RegUse.beyond, Raw.c, shV2]) nofun (fun _ => rfl)) ?_ rest
  rw [build_eq (o := 0xAE) (row := 0x15) (col := 6) rfl (by decide) (by decide)]
  show buildRow15 _ 6 = _
  simp [Instr.fieldsOk, arithOk, Fmt.isFI, scaleOk, accFmt, bandsOk] at hw
  simp only [buildRow15] <;> simp [-BitVec.extractLsb'_toNat, hw, objTyped, Raw.tgt, Raw.im, Raw.intFmt, Raw.sc, Raw.rm5, Raw.fF, Raw.fI, Raw.fFI, Raw.arith, Raw.fma, Raw.unary, Raw.fmt, Raw.dfmt, Raw.rm, Raw.fn, Raw.sat, Raw.k, Raw.c, Raw.scope, must, bind, Except.bind, pure, Except.pure]
theorem RoundTrip.vpopc (h d a first) : RoundTrip.Statement (.vpopc h d a first) := by
  intro hw rest
  obtain ⟨hf, hw⟩ := wf rfl hw
  refine decode_encode rfl (admits (sh := ({ d := .x, a := .k, typed := true, fn := 1 } : Shape)) (o := 0xAF) rfl (by decide) hf
    (by simp [Shape.baseReserved, RegUse.reserved])
    (by simp [-BitVec.extractLsb'_toNat, Shape.extReserved, Raw.fmt, Raw.rm, Raw.sat, Raw.c, Raw.k, Raw.scope, Raw.fn, RegUse.reserved, objTyped])
    (by simp [Shape.beyond, RegUse.beyond, Raw.c]) nofun (fun _ => rfl)) ?_ rest
  rw [build_eq (o := 0xAF) (row := 0x15) (col := 7) rfl (by decide) (by decide)]
  show buildRow15 _ 7 = _
  simp [Instr.fieldsOk, arithOk, Fmt.isFI, scaleOk, accFmt, bandsOk] at hw
  simp only [buildRow15] <;> simp [-BitVec.extractLsb'_toNat, hw, objTyped, Raw.tgt, Raw.im, Raw.intFmt, Raw.sc, Raw.rm5, Raw.fF, Raw.fI, Raw.fFI, Raw.arith, Raw.fma, Raw.unary, Raw.fmt, Raw.dfmt, Raw.rm, Raw.fn, Raw.sat, Raw.k, Raw.c, Raw.scope, must, bind, Except.bind, pure, Except.pure]
theorem RoundTrip.vld (h d a c k) : RoundTrip.Statement (.vld h d a c k) := by
  intro hw rest
  obtain ⟨hf, hw⟩ := wf rfl hw
  refine decode_encode rfl (admits (sh := ({ d := .v, a := .q, c := .x, typed := true, k := true } : Shape)) (o := 0xB0) rfl (by decide) hf
    (by simp [Shape.baseReserved, RegUse.reserved])
    (by simp [-BitVec.extractLsb'_toNat, Shape.extReserved, Raw.fmt, Raw.rm, Raw.sat, Raw.c, Raw.k, Raw.scope, Raw.fn, RegUse.reserved, objTyped])
    (by simp [Shape.beyond, RegUse.beyond, Raw.c]) nofun (fun _ => rfl)) ?_ rest
  rw [build_eq (o := 0xB0) (row := 0x16) (col := 0) rfl (by decide) (by decide)]
  show buildRow16 _ 0 = _
  simp [Instr.fieldsOk, arithOk, Fmt.isFI, scaleOk, accFmt, bandsOk] at hw
  simp only [buildRow16] <;> simp [-BitVec.extractLsb'_toNat, hw, objTyped, Raw.tgt, Raw.im, Raw.intFmt, Raw.sc, Raw.rm5, Raw.fF, Raw.fI, Raw.fFI, Raw.arith, Raw.fma, Raw.unary, Raw.fmt, Raw.dfmt, Raw.rm, Raw.fn, Raw.sat, Raw.k, Raw.c, Raw.scope, must, bind, Except.bind, pure, Except.pure]
theorem RoundTrip.vst (h a b c k) : RoundTrip.Statement (.vst h a b c k) := by
  intro hw rest
  obtain ⟨hf, hw⟩ := wf rfl hw
  refine decode_encode rfl (admits (sh := ({ a := .v, b := .q, c := .x, typed := true, k := true } : Shape)) (o := 0xB1) rfl (by decide) hf
    (by simp [Shape.baseReserved, RegUse.reserved])
    (by simp [-BitVec.extractLsb'_toNat, Shape.extReserved, Raw.fmt, Raw.rm, Raw.sat, Raw.c, Raw.k, Raw.scope, Raw.fn, RegUse.reserved, objTyped])
    (by simp [Shape.beyond, RegUse.beyond, Raw.c]) nofun (fun _ => rfl)) ?_ rest
  rw [build_eq (o := 0xB1) (row := 0x16) (col := 1) rfl (by decide) (by decide)]
  show buildRow16 _ 1 = _
  simp [Instr.fieldsOk, arithOk, Fmt.isFI, scaleOk, accFmt, bandsOk] at hw
  simp only [buildRow16] <;> simp [-BitVec.extractLsb'_toNat, hw, objTyped, Raw.tgt, Raw.im, Raw.intFmt, Raw.sc, Raw.rm5, Raw.fF, Raw.fI, Raw.fFI, Raw.arith, Raw.fma, Raw.unary, Raw.fmt, Raw.dfmt, Raw.rm, Raw.fn, Raw.sat, Raw.k, Raw.c, Raw.scope, must, bind, Except.bind, pure, Except.pure]
theorem RoundTrip.vacr (h d a k f) : RoundTrip.Statement (.vacr h d a k f) := by
  intro hw rest
  obtain ⟨hf, hw⟩ := wf rfl hw
  refine decode_encode rfl (admits (sh := ({ d := .v, a := .x, typed := true, fmt := true, k := true } : Shape)) (o := 0xB2) rfl (by decide) hf
    (by simp [Shape.baseReserved, RegUse.reserved])
    (by simp [-BitVec.extractLsb'_toNat, Shape.extReserved, Raw.fmt, Raw.rm, Raw.sat, Raw.c, Raw.k, Raw.scope, Raw.fn, RegUse.reserved, objTyped])
    (by simp [Shape.beyond, RegUse.beyond, Raw.c]) nofun (fun _ => rfl)) ?_ rest
  rw [build_eq (o := 0xB2) (row := 0x16) (col := 2) rfl (by decide) (by decide)]
  show buildRow16 _ 2 = _
  simp [Instr.fieldsOk, arithOk, Fmt.isFI, scaleOk, accFmt, bandsOk] at hw
  simp only [buildRow16] <;> simp [-BitVec.extractLsb'_toNat, hw, objTyped, Raw.tgt, Raw.im, Raw.intFmt, Raw.sc, Raw.rm5, Raw.fF, Raw.fI, Raw.fFI, Raw.arith, Raw.fma, Raw.unary, Raw.fmt, Raw.dfmt, Raw.rm, Raw.fn, Raw.sat, Raw.k, Raw.c, Raw.scope, must, bind, Except.bind, pure, Except.pure]
theorem RoundTrip.vacw (h a b k f) : RoundTrip.Statement (.vacw h a b k f) := by
  intro hw rest
  obtain ⟨hf, hw⟩ := wf rfl hw
  refine decode_encode rfl (admits (sh := ({ a := .x, b := .v, typed := true, fmt := true, k := true } : Shape)) (o := 0xB3) rfl (by decide) hf
    (by simp [Shape.baseReserved, RegUse.reserved])
    (by simp [-BitVec.extractLsb'_toNat, Shape.extReserved, Raw.fmt, Raw.rm, Raw.sat, Raw.c, Raw.k, Raw.scope, Raw.fn, RegUse.reserved, objTyped])
    (by simp [Shape.beyond, RegUse.beyond, Raw.c]) nofun (fun _ => rfl)) ?_ rest
  rw [build_eq (o := 0xB3) (row := 0x16) (col := 3) rfl (by decide) (by decide)]
  show buildRow16 _ 3 = _
  simp [Instr.fieldsOk, arithOk, Fmt.isFI, scaleOk, accFmt, bandsOk] at hw
  simp only [buildRow16] <;> simp [-BitVec.extractLsb'_toNat, hw, objTyped, Raw.tgt, Raw.im, Raw.intFmt, Raw.sc, Raw.rm5, Raw.fF, Raw.fI, Raw.fFI, Raw.arith, Raw.fma, Raw.unary, Raw.fmt, Raw.dfmt, Raw.rm, Raw.fn, Raw.sat, Raw.k, Raw.c, Raw.scope, must, bind, Except.bind, pure, Except.pure]
theorem RoundTrip.hcut (h cut bps) : RoundTrip.Statement (.hcut h cut bps) := by
  intro hw rest
  obtain ⟨hf, hw⟩ := wf rfl hw
  refine decode_encode rfl (admits (sh := ({ immed := true, imm := 0xFF7 } : Shape)) (o := 0xC0) rfl (by decide) hf
    (by simp [Shape.baseReserved, RegUse.reserved])
    (by simp [-BitVec.extractLsb'_toNat, Shape.extReserved, Raw.fmt, Raw.rm, Raw.sat, Raw.c, Raw.k, Raw.scope, Raw.fn, RegUse.reserved, objTyped])
    (by simp [Shape.beyond, RegUse.beyond, Raw.c]) (fun _ => rfl) nofun) ?_ rest
  rw [build_eq (o := 0xC0) (row := 0x18) (col := 0) rfl (by decide) (by decide)]
  show buildRow18 _ 0 = _
  simp [Instr.fieldsOk, arithOk, Fmt.isFI, scaleOk, accFmt, bandsOk] at hw
  simp only [buildRow18] <;> simp [-BitVec.extractLsb'_toNat, hw, objTyped, Raw.tgt, Raw.im, Raw.intFmt, Raw.sc, Raw.rm5, Raw.fF, Raw.fI, Raw.fFI, Raw.arith, Raw.fma, Raw.unary, Raw.fmt, Raw.dfmt, Raw.rm, Raw.fn, Raw.sat, Raw.k, Raw.c, Raw.scope, must, bind, Except.bind, pure, Except.pure]
theorem RoundTrip.hchain (h lt lw head) : RoundTrip.Statement (.hchain h lt lw head) := by
  intro hw rest
  obtain ⟨hf, hw⟩ := wf rfl hw
  refine decode_encode rfl (admits (sh := ({ immed := true, imm := 0xFFF } : Shape)) (o := 0xC1) rfl (by decide) hf
    (by simp [Shape.baseReserved, RegUse.reserved])
    (by simp [-BitVec.extractLsb'_toNat, Shape.extReserved, Raw.fmt, Raw.rm, Raw.sat, Raw.c, Raw.k, Raw.scope, Raw.fn, RegUse.reserved, objTyped])
    (by simp [Shape.beyond, RegUse.beyond, Raw.c]) (fun _ => rfl) nofun) ?_ rest
  rw [build_eq (o := 0xC1) (row := 0x18) (col := 1) rfl (by decide) (by decide)]
  show buildRow18 _ 1 = _
  simp [Instr.fieldsOk, arithOk, Fmt.isFI, scaleOk, accFmt, bandsOk] at hw
  simp only [buildRow18]
  have hg : (¬lt = 0#2 ∨ ¬lw = 0#2) ∨ head = 0#8 := by rcases hw.2 with (h | h) | h <;> simp [h]
  simp_all [-BitVec.extractLsb'_toNat, objTyped, Raw.tgt, Raw.im, Raw.intFmt, Raw.sc, Raw.rm5, Raw.fF, Raw.fI, Raw.fFI, Raw.arith, Raw.fma, Raw.unary, Raw.fmt, Raw.dfmt, Raw.rm, Raw.fn, Raw.sat, Raw.k, Raw.c, Raw.scope, must, bind, Except.bind, pure, Except.pure]
theorem RoundTrip.mloadb (h hq a f wz csm imm) : RoundTrip.Statement (.mloadb h hq a f wz csm imm) := by
  intro hw rest
  obtain ⟨hf, hw⟩ := wf rfl hw
  refine decode_encode rfl (admits (sh := ({ d := .bits 3, a := .x, typed := true, immed := true, fmt := true, fn := 0xF, imm := 0xFFFFFFFF } : Shape)) (o := 0xC2) rfl (by decide) hf
    (by simp [Shape.baseReserved, RegUse.reserved])
    (by simp [-BitVec.extractLsb'_toNat, Shape.extReserved, Raw.fmt, Raw.rm, Raw.sat, Raw.c, Raw.k, Raw.scope, Raw.fn, RegUse.reserved, objTyped])
    (by simp [Shape.beyond, RegUse.beyond, Raw.c]) nofun nofun) ?_ rest
  rw [build_eq (o := 0xC2) (row := 0x18) (col := 2) rfl (by decide) (by decide)]
  show buildRow18 _ 2 = _
  simp [Instr.fieldsOk, arithOk, Fmt.isFI, scaleOk, accFmt, bandsOk] at hw
  simp only [buildRow18] <;> simp [-BitVec.extractLsb'_toNat, hw, objTyped, Raw.tgt, Raw.im, Raw.intFmt, Raw.sc, Raw.rm5, Raw.fF, Raw.fI, Raw.fFI, Raw.arith, Raw.fma, Raw.unary, Raw.fmt, Raw.dfmt, Raw.rm, Raw.fn, Raw.sat, Raw.k, Raw.c, Raw.scope, must, bind, Except.bind, pure, Except.pure]
theorem RoundTrip.mma (h hq a b f rm rs cs row col mm) : RoundTrip.Statement (.mma h hq a b f rm rs cs row col mm) := by
  intro hw rest
  obtain ⟨hf, hw⟩ := wf rfl hw
  refine decode_encode rfl (admits (sh := ({ d := .bits 3, a := .q, b := .x, typed := true, immed := true, fmt := true, rm := true, fn := 3, imm := 0x7FFFFFF } : Shape)) (o := 0xC3) rfl (by decide) hf
    (by simp [Shape.baseReserved, RegUse.reserved])
    (by simp [-BitVec.extractLsb'_toNat, Shape.extReserved, Raw.fmt, Raw.rm, Raw.sat, Raw.c, Raw.k, Raw.scope, Raw.fn, RegUse.reserved, objTyped])
    (by simp [Shape.beyond, RegUse.beyond, Raw.c]) nofun nofun) ?_ rest
  rw [build_eq (o := 0xC3) (row := 0x18) (col := 3) rfl (by decide) (by decide)]
  show buildRow18 _ 3 = _
  simp [Instr.fieldsOk, arithOk, Fmt.isFI, scaleOk, accFmt, bandsOk] at hw
  have hm := hw.1.2
  simp only [buildRow18]
  rw [rm4_code (m := rm) (by simp [Raw.rm]) hm]
  simp [-BitVec.extractLsb'_toNat, hw, objTyped, Raw.tgt, Raw.im, Raw.intFmt, Raw.sc, Raw.rm5, Raw.fF, Raw.fI, Raw.fFI, Raw.arith, Raw.fma, Raw.unary, Raw.fmt, Raw.dfmt, Raw.rm, Raw.fn, Raw.sat, Raw.k, Raw.c, Raw.scope, must, bind, Except.bind, pure, Except.pure]
theorem RoundTrip.mdrain (h hq a b f rm sat rs cs row col mm) : RoundTrip.Statement (.mdrain h hq a b f rm sat rs cs row col mm) := by
  intro hw rest
  obtain ⟨hf, hw⟩ := wf rfl hw
  refine decode_encode rfl (admits (sh := ({ d := .bits 3, a := .q, b := .x, typed := true, immed := true, fmt := true, rm := true, sat := true, fn := 3, imm := 0x7FFFFFF } : Shape)) (o := 0xC4) rfl (by decide) hf
    (by simp [Shape.baseReserved, RegUse.reserved])
    (by simp [-BitVec.extractLsb'_toNat, Shape.extReserved, Raw.fmt, Raw.rm, Raw.sat, Raw.c, Raw.k, Raw.scope, Raw.fn, RegUse.reserved, objTyped])
    (by simp [Shape.beyond, RegUse.beyond, Raw.c]) nofun nofun) ?_ rest
  rw [build_eq (o := 0xC4) (row := 0x18) (col := 4) rfl (by decide) (by decide)]
  show buildRow18 _ 4 = _
  simp [Instr.fieldsOk, arithOk, Fmt.isFI, scaleOk, accFmt, bandsOk] at hw
  have hm := hw.1
  simp only [buildRow18]
  rw [rm4_code (m := rm) (by simp [Raw.rm]) hm]
  simp [-BitVec.extractLsb'_toNat, hw, objTyped, Raw.tgt, Raw.im, Raw.intFmt, Raw.sc, Raw.rm5, Raw.fF, Raw.fI, Raw.fFI, Raw.arith, Raw.fma, Raw.unary, Raw.fmt, Raw.dfmt, Raw.rm, Raw.fn, Raw.sat, Raw.k, Raw.c, Raw.scope, must, bind, Except.bind, pure, Except.pure]
theorem RoundTrip.mzero (h hq b row nn) : RoundTrip.Statement (.mzero h hq b row nn) := by
  intro hw rest
  obtain ⟨hf, hw⟩ := wf rfl hw
  refine decode_encode rfl (admits (sh := ({ d := .bits 3, b := .x, immed := true, imm := 0xFFFFF } : Shape)) (o := 0xC5) rfl (by decide) hf
    (by simp [Shape.baseReserved, RegUse.reserved])
    (by simp [-BitVec.extractLsb'_toNat, Shape.extReserved, Raw.fmt, Raw.rm, Raw.sat, Raw.c, Raw.k, Raw.scope, Raw.fn, RegUse.reserved, objTyped])
    (by simp [Shape.beyond, RegUse.beyond, Raw.c]) (fun _ => rfl) nofun) ?_ rest
  rw [build_eq (o := 0xC5) (row := 0x18) (col := 5) rfl (by decide) (by decide)]
  show buildRow18 _ 5 = _
  simp [Instr.fieldsOk, arithOk, Fmt.isFI, scaleOk, accFmt, bandsOk] at hw
  simp only [buildRow18] <;> simp [-BitVec.extractLsb'_toNat, hw, objTyped, Raw.tgt, Raw.im, Raw.intFmt, Raw.sc, Raw.rm5, Raw.fF, Raw.fI, Raw.fFI, Raw.arith, Raw.fma, Raw.unary, Raw.fmt, Raw.dfmt, Raw.rm, Raw.fn, Raw.sat, Raw.k, Raw.c, Raw.scope, must, bind, Except.bind, pure, Except.pure]
theorem RoundTrip.wswap (h) : RoundTrip.Statement (.wswap h) := by
  intro hw rest
  obtain ⟨hf, hw⟩ := wf rfl hw
  refine decode_encode rfl (admits (sh := ({} : Shape)) (o := 0xC6) rfl (by decide) hf
    (by simp [Shape.baseReserved, RegUse.reserved])
    (by simp [-BitVec.extractLsb'_toNat, Shape.extReserved, Raw.fmt, Raw.rm, Raw.sat, Raw.c, Raw.k, Raw.scope, Raw.fn, RegUse.reserved, objTyped])
    (by simp [Shape.beyond, RegUse.beyond, Raw.c]) (fun _ => rfl) (fun _ => rfl)) ?_ rest
  rw [build_eq (o := 0xC6) (row := 0x18) (col := 6) rfl (by decide) (by decide)]
  show buildRow18 _ 6 = _
  simp [Instr.fieldsOk, arithOk, Fmt.isFI, scaleOk, accFmt, bandsOk] at hw
  simp only [buildRow18] <;> simp [-BitVec.extractLsb'_toNat, hw, objTyped, Raw.tgt, Raw.im, Raw.intFmt, Raw.sc, Raw.rm5, Raw.fF, Raw.fI, Raw.fFI, Raw.arith, Raw.fma, Raw.unary, Raw.fmt, Raw.dfmt, Raw.rm, Raw.fn, Raw.sat, Raw.k, Raw.c, Raw.scope, must, bind, Except.bind, pure, Except.pure]
theorem RoundTrip.nlaunch (h hq a b imm) : RoundTrip.Statement (.nlaunch h hq a b imm) := by
  intro hw rest
  obtain ⟨hf, hw⟩ := wf rfl hw
  refine decode_encode rfl (admits (sh := ({ d := .bits 3, a := .x, b := .x, typed := true, immed := true, scope := true, fn := 0x1FFF, imm := 0xFFFFFFFF } : Shape)) (o := 0xD0) rfl (by decide) hf
    (by simp [Shape.baseReserved, RegUse.reserved])
    (by simp [-BitVec.extractLsb'_toNat, Shape.extReserved, Raw.fmt, Raw.rm, Raw.sat, Raw.c, Raw.k, Raw.scope, Raw.fn, RegUse.reserved, objTyped])
    (by simp [Shape.beyond, RegUse.beyond, Raw.c]) nofun nofun) ?_ rest
  rw [build_eq (o := 0xD0) (row := 0x1A) (col := 0) rfl (by decide) (by decide)]
  show buildRow1A _ 0 = _
  simp [Instr.fieldsOk, arithOk, Fmt.isFI, scaleOk, accFmt, bandsOk] at hw
  simp only [buildRow1A] <;> simp [-BitVec.extractLsb'_toNat, hw, objTyped, Raw.tgt, Raw.im, Raw.intFmt, Raw.sc, Raw.rm5, Raw.fF, Raw.fI, Raw.fFI, Raw.arith, Raw.fma, Raw.unary, Raw.fmt, Raw.dfmt, Raw.rm, Raw.fn, Raw.sat, Raw.k, Raw.c, Raw.scope, must, bind, Except.bind, pure, Except.pure]
theorem RoundTrip.nwait (h d a b acq) : RoundTrip.Statement (.nwait h d a b acq) := by
  intro hw rest
  obtain ⟨hf, hw⟩ := wf rfl hw
  refine decode_encode rfl (admits (sh := ({ d := .x, a := .x, b := .x, typed := true, scope := true, fn := 0x1FFF } : Shape)) (o := 0xD1) rfl (by decide) hf
    (by simp [Shape.baseReserved, RegUse.reserved])
    (by simp [-BitVec.extractLsb'_toNat, Shape.extReserved, Raw.fmt, Raw.rm, Raw.sat, Raw.c, Raw.k, Raw.scope, Raw.fn, RegUse.reserved, objTyped])
    (by simp [Shape.beyond, RegUse.beyond, Raw.c]) nofun (fun _ => rfl)) ?_ rest
  rw [build_eq (o := 0xD1) (row := 0x1A) (col := 1) rfl (by decide) (by decide)]
  show buildRow1A _ 1 = _
  simp [Instr.fieldsOk, arithOk, Fmt.isFI, scaleOk, accFmt, bandsOk] at hw
  simp only [buildRow1A]
  cases acq
  all_goals simp_all [flagFn, bit, -BitVec.extractLsb'_toNat, objTyped, Raw.tgt, Raw.im, Raw.intFmt, Raw.sc, Raw.rm5, Raw.fF, Raw.fI, Raw.fFI, Raw.arith, Raw.fma, Raw.unary, Raw.fmt, Raw.dfmt, Raw.rm, Raw.fn, Raw.sat, Raw.k, Raw.c, Raw.scope, must, bind, Except.bind, pure, Except.pure]
theorem RoundTrip.npost (h a b rel) : RoundTrip.Statement (.npost h a b rel) := by
  intro hw rest
  obtain ⟨hf, hw⟩ := wf rfl hw
  refine decode_encode rfl (admits (sh := ({ a := .x, b := .x, typed := true, scope := true, fn := 0x1FFF } : Shape)) (o := 0xD2) rfl (by decide) hf
    (by simp [Shape.baseReserved, RegUse.reserved])
    (by simp [-BitVec.extractLsb'_toNat, Shape.extReserved, Raw.fmt, Raw.rm, Raw.sat, Raw.c, Raw.k, Raw.scope, Raw.fn, RegUse.reserved, objTyped])
    (by simp [Shape.beyond, RegUse.beyond, Raw.c]) nofun (fun _ => rfl)) ?_ rest
  rw [build_eq (o := 0xD2) (row := 0x1A) (col := 2) rfl (by decide) (by decide)]
  show buildRow1A _ 2 = _
  simp [Instr.fieldsOk, arithOk, Fmt.isFI, scaleOk, accFmt, bandsOk] at hw
  simp only [buildRow1A]
  cases rel
  all_goals simp_all [flagFn, bit, -BitVec.extractLsb'_toNat, objTyped, Raw.tgt, Raw.im, Raw.intFmt, Raw.sc, Raw.rm5, Raw.fF, Raw.fI, Raw.fFI, Raw.arith, Raw.fma, Raw.unary, Raw.fmt, Raw.dfmt, Raw.rm, Raw.fn, Raw.sat, Raw.k, Raw.c, Raw.scope, must, bind, Except.bind, pure, Except.pure]
theorem RoundTrip.nabort (h d a all) : RoundTrip.Statement (.nabort h d a all) := by
  intro hw rest
  obtain ⟨hf, hw⟩ := wf rfl hw
  refine decode_encode rfl (admits (sh := ({ d := .x, a := .x, typed := true, scope := true, fn := 0x1FFF } : Shape)) (o := 0xD3) rfl (by decide) hf
    (by simp [Shape.baseReserved, RegUse.reserved])
    (by simp [-BitVec.extractLsb'_toNat, Shape.extReserved, Raw.fmt, Raw.rm, Raw.sat, Raw.c, Raw.k, Raw.scope, Raw.fn, RegUse.reserved, objTyped])
    (by simp [Shape.beyond, RegUse.beyond, Raw.c]) nofun (fun _ => rfl)) ?_ rest
  rw [build_eq (o := 0xD3) (row := 0x1A) (col := 3) rfl (by decide) (by decide)]
  show buildRow1A _ 3 = _
  simp [Instr.fieldsOk, arithOk, Fmt.isFI, scaleOk, accFmt, bandsOk] at hw
  simp only [buildRow1A]
  cases all
  all_goals simp_all [flagFn, bit, -BitVec.extractLsb'_toNat, objTyped, Raw.tgt, Raw.im, Raw.intFmt, Raw.sc, Raw.rm5, Raw.fF, Raw.fI, Raw.fFI, Raw.arith, Raw.fma, Raw.unary, Raw.fmt, Raw.dfmt, Raw.rm, Raw.fn, Raw.sat, Raw.k, Raw.c, Raw.scope, must, bind, Except.bind, pure, Except.pure]
theorem RoundTrip.nstat (h d a sel) : RoundTrip.Statement (.nstat h d a sel) := by
  intro hw rest
  obtain ⟨hf, hw⟩ := wf rfl hw
  refine decode_encode rfl (admits (sh := ({ d := .x, a := .x, typed := true, scope := true, fn := 0x1FFF } : Shape)) (o := 0xD4) rfl (by decide) hf
    (by simp [Shape.baseReserved, RegUse.reserved])
    (by simp [-BitVec.extractLsb'_toNat, Shape.extReserved, Raw.fmt, Raw.rm, Raw.sat, Raw.c, Raw.k, Raw.scope, Raw.fn, RegUse.reserved, objTyped])
    (by simp [Shape.beyond, RegUse.beyond, Raw.c]) nofun (fun _ => rfl)) ?_ rest
  rw [build_eq (o := 0xD4) (row := 0x1A) (col := 4) rfl (by decide) (by decide)]
  show buildRow1A _ 4 = _
  simp [Instr.fieldsOk, arithOk, Fmt.isFI, scaleOk, accFmt, bandsOk] at hw
  simp only [buildRow1A]
  cases sel
  all_goals first | rfl | (simp [Raw.sc, Raw.scope, Raw.fn]; rfl)
theorem RoundTrip.dsync (h d lvl) : RoundTrip.Statement (.dsync h d lvl) := by
  intro hw rest
  obtain ⟨hf, hw⟩ := wf rfl hw
  refine decode_encode rfl (admits (sh := ({ d := .x, b := .bits 3 } : Shape)) (o := 0xD8) rfl (by decide) hf
    (by simp [Shape.baseReserved, RegUse.reserved])
    (by simp [-BitVec.extractLsb'_toNat, Shape.extReserved, Raw.fmt, Raw.rm, Raw.sat, Raw.c, Raw.k, Raw.scope, Raw.fn, RegUse.reserved, objTyped])
    (by simp [Shape.beyond, RegUse.beyond, Raw.c]) (fun _ => rfl) (fun _ => rfl)) ?_ rest
  rw [build_eq (o := 0xD8) (row := 0x1B) (col := 0) rfl (by decide) (by decide)]
  show buildRow1B _ 0 = _
  simp [Instr.fieldsOk, arithOk, Fmt.isFI, scaleOk, accFmt, bandsOk] at hw
  simp only [buildRow1B] <;> simp [-BitVec.extractLsb'_toNat, hw, objTyped, Raw.tgt, Raw.im, Raw.intFmt, Raw.sc, Raw.rm5, Raw.fF, Raw.fI, Raw.fFI, Raw.arith, Raw.fma, Raw.unary, Raw.fmt, Raw.dfmt, Raw.rm, Raw.fn, Raw.sat, Raw.k, Raw.c, Raw.scope, must, bind, Except.bind, pure, Except.pure]
theorem RoundTrip.srd (h d reg) : RoundTrip.Statement (.srd h d reg) := by
  intro hw rest
  obtain ⟨hf, hw⟩ := wf rfl hw
  refine decode_encode rfl (admits (sh := ({ d := .x, immed := true, imm := 0xFFF } : Shape)) (o := 0xE0) rfl (by decide) hf
    (by simp [Shape.baseReserved, RegUse.reserved])
    (by simp [-BitVec.extractLsb'_toNat, Shape.extReserved, Raw.fmt, Raw.rm, Raw.sat, Raw.c, Raw.k, Raw.scope, Raw.fn, RegUse.reserved, objTyped])
    (by simp [Shape.beyond, RegUse.beyond, Raw.c]) (fun _ => rfl) nofun) ?_ rest
  rw [build_eq (o := 0xE0) (row := 0x1C) (col := 0) rfl (by decide) (by decide)]
  show buildRow1C _ 0 = _
  simp [Instr.fieldsOk, arithOk, Fmt.isFI, scaleOk, accFmt, bandsOk] at hw
  simp only [buildRow1C] <;> simp [-BitVec.extractLsb'_toNat, hw, objTyped, Raw.tgt, Raw.im, Raw.intFmt, Raw.sc, Raw.rm5, Raw.fF, Raw.fI, Raw.fFI, Raw.arith, Raw.fma, Raw.unary, Raw.fmt, Raw.dfmt, Raw.rm, Raw.fn, Raw.sat, Raw.k, Raw.c, Raw.scope, must, bind, Except.bind, pure, Except.pure]
theorem RoundTrip.swr (h a reg) : RoundTrip.Statement (.swr h a reg) := by
  intro hw rest
  obtain ⟨hf, hw⟩ := wf rfl hw
  refine decode_encode rfl (admits (sh := ({ a := .x, immed := true, imm := 0xFFF } : Shape)) (o := 0xE1) rfl (by decide) hf
    (by simp [Shape.baseReserved, RegUse.reserved])
    (by simp [-BitVec.extractLsb'_toNat, Shape.extReserved, Raw.fmt, Raw.rm, Raw.sat, Raw.c, Raw.k, Raw.scope, Raw.fn, RegUse.reserved, objTyped])
    (by simp [Shape.beyond, RegUse.beyond, Raw.c]) (fun _ => rfl) nofun) ?_ rest
  rw [build_eq (o := 0xE1) (row := 0x1C) (col := 1) rfl (by decide) (by decide)]
  show buildRow1C _ 1 = _
  simp [Instr.fieldsOk, arithOk, Fmt.isFI, scaleOk, accFmt, bandsOk] at hw
  simp only [buildRow1C] <;> simp [-BitVec.extractLsb'_toNat, hw, objTyped, Raw.tgt, Raw.im, Raw.intFmt, Raw.sc, Raw.rm5, Raw.fF, Raw.fI, Raw.fFI, Raw.arith, Raw.fma, Raw.unary, Raw.fmt, Raw.dfmt, Raw.rm, Raw.fn, Raw.sat, Raw.k, Raw.c, Raw.scope, must, bind, Except.bind, pure, Except.pure]
theorem RoundTrip.sset (h d a reg) : RoundTrip.Statement (.sset h d a reg) := by
  intro hw rest
  obtain ⟨hf, hw⟩ := wf rfl hw
  refine decode_encode rfl (admits (sh := ({ d := .x, a := .x, immed := true, imm := 0xFFF } : Shape)) (o := 0xE2) rfl (by decide) hf
    (by simp [Shape.baseReserved, RegUse.reserved])
    (by simp [-BitVec.extractLsb'_toNat, Shape.extReserved, Raw.fmt, Raw.rm, Raw.sat, Raw.c, Raw.k, Raw.scope, Raw.fn, RegUse.reserved, objTyped])
    (by simp [Shape.beyond, RegUse.beyond, Raw.c]) (fun _ => rfl) nofun) ?_ rest
  rw [build_eq (o := 0xE2) (row := 0x1C) (col := 2) rfl (by decide) (by decide)]
  show buildRow1C _ 2 = _
  simp [Instr.fieldsOk, arithOk, Fmt.isFI, scaleOk, accFmt, bandsOk] at hw
  simp only [buildRow1C] <;> simp [-BitVec.extractLsb'_toNat, hw, objTyped, Raw.tgt, Raw.im, Raw.intFmt, Raw.sc, Raw.rm5, Raw.fF, Raw.fI, Raw.fFI, Raw.arith, Raw.fma, Raw.unary, Raw.fmt, Raw.dfmt, Raw.rm, Raw.fn, Raw.sat, Raw.k, Raw.c, Raw.scope, must, bind, Except.bind, pure, Except.pure]
theorem RoundTrip.sclr (h d a reg) : RoundTrip.Statement (.sclr h d a reg) := by
  intro hw rest
  obtain ⟨hf, hw⟩ := wf rfl hw
  refine decode_encode rfl (admits (sh := ({ d := .x, a := .x, immed := true, imm := 0xFFF } : Shape)) (o := 0xE3) rfl (by decide) hf
    (by simp [Shape.baseReserved, RegUse.reserved])
    (by simp [-BitVec.extractLsb'_toNat, Shape.extReserved, Raw.fmt, Raw.rm, Raw.sat, Raw.c, Raw.k, Raw.scope, Raw.fn, RegUse.reserved, objTyped])
    (by simp [Shape.beyond, RegUse.beyond, Raw.c]) (fun _ => rfl) nofun) ?_ rest
  rw [build_eq (o := 0xE3) (row := 0x1C) (col := 3) rfl (by decide) (by decide)]
  show buildRow1C _ 3 = _
  simp [Instr.fieldsOk, arithOk, Fmt.isFI, scaleOk, accFmt, bandsOk] at hw
  simp only [buildRow1C] <;> simp [-BitVec.extractLsb'_toNat, hw, objTyped, Raw.tgt, Raw.im, Raw.intFmt, Raw.sc, Raw.rm5, Raw.fF, Raw.fI, Raw.fFI, Raw.arith, Raw.fma, Raw.unary, Raw.fmt, Raw.dfmt, Raw.rm, Raw.fn, Raw.sat, Raw.k, Raw.c, Raw.scope, must, bind, Except.bind, pure, Except.pure]
theorem RoundTrip.tlbinv (h a b kind size) : RoundTrip.Statement (.tlbinv h a b kind size) := by
  intro hw rest
  obtain ⟨hf, hw⟩ := wf rfl hw
  refine decode_encode rfl (admits (sh := ({ a := .x, b := .x, typed := true, scope := true, fn := 0x1FFF } : Shape)) (o := 0xE4) rfl (by decide) hf
    (by simp [Shape.baseReserved, RegUse.reserved])
    (by simp [-BitVec.extractLsb'_toNat, Shape.extReserved, Raw.fmt, Raw.rm, Raw.sat, Raw.c, Raw.k, Raw.scope, Raw.fn, RegUse.reserved, objTyped])
    (by simp [Shape.beyond, RegUse.beyond, Raw.c]) nofun (fun _ => rfl)) ?_ rest
  rw [build_eq (o := 0xE4) (row := 0x1C) (col := 4) rfl (by decide) (by decide)]
  show buildRow1C _ 4 = _
  simp [Instr.fieldsOk, arithOk, Fmt.isFI, scaleOk, accFmt, bandsOk] at hw
  simp only [buildRow1C]
  cases kind <;> cases size
  all_goals simp_all [invFn, TlbKind.code, PageSize.code, -BitVec.extractLsb'_toNat, objTyped, Raw.tgt, Raw.im, Raw.intFmt, Raw.sc, Raw.rm5, Raw.fF, Raw.fI, Raw.fFI, Raw.arith, Raw.fma, Raw.unary, Raw.fmt, Raw.dfmt, Raw.rm, Raw.fn, Raw.sat, Raw.k, Raw.c, Raw.scope, must, bind, Except.bind, pure, Except.pure]
theorem RoundTrip.ctxsave (h d a b) : RoundTrip.Statement (.ctxsave h d a b) := by
  intro hw rest
  obtain ⟨hf, hw⟩ := wf rfl hw
  refine decode_encode rfl (admits (sh := (shRR)) (o := 0xE5) rfl (by decide) hf
    (by simp [Shape.baseReserved, RegUse.reserved, shRR])
    (by simp [-BitVec.extractLsb'_toNat, Shape.extReserved, Raw.fmt, Raw.rm, Raw.sat, Raw.c, Raw.k, Raw.scope, Raw.fn, RegUse.reserved, objTyped, shRR])
    (by simp [Shape.beyond, RegUse.beyond, Raw.c, shRR]) (fun _ => rfl) (fun _ => rfl)) ?_ rest
  rw [build_eq (o := 0xE5) (row := 0x1C) (col := 5) rfl (by decide) (by decide)]
  show buildRow1C _ 5 = _
  simp [Instr.fieldsOk, arithOk, Fmt.isFI, scaleOk, accFmt, bandsOk] at hw
  simp only [buildRow1C] <;> simp [-BitVec.extractLsb'_toNat, hw, objTyped, Raw.tgt, Raw.im, Raw.intFmt, Raw.sc, Raw.rm5, Raw.fF, Raw.fI, Raw.fFI, Raw.arith, Raw.fma, Raw.unary, Raw.fmt, Raw.dfmt, Raw.rm, Raw.fn, Raw.sat, Raw.k, Raw.c, Raw.scope, must, bind, Except.bind, pure, Except.pure]
theorem RoundTrip.ctxload (h d a b) : RoundTrip.Statement (.ctxload h d a b) := by
  intro hw rest
  obtain ⟨hf, hw⟩ := wf rfl hw
  refine decode_encode rfl (admits (sh := (shRR)) (o := 0xE6) rfl (by decide) hf
    (by simp [Shape.baseReserved, RegUse.reserved, shRR])
    (by simp [-BitVec.extractLsb'_toNat, Shape.extReserved, Raw.fmt, Raw.rm, Raw.sat, Raw.c, Raw.k, Raw.scope, Raw.fn, RegUse.reserved, objTyped, shRR])
    (by simp [Shape.beyond, RegUse.beyond, Raw.c, shRR]) (fun _ => rfl) (fun _ => rfl)) ?_ rest
  rw [build_eq (o := 0xE6) (row := 0x1C) (col := 6) rfl (by decide) (by decide)]
  show buildRow1C _ 6 = _
  simp [Instr.fieldsOk, arithOk, Fmt.isFI, scaleOk, accFmt, bandsOk] at hw
  simp only [buildRow1C] <;> simp [-BitVec.extractLsb'_toNat, hw, objTyped, Raw.tgt, Raw.im, Raw.intFmt, Raw.sc, Raw.rm5, Raw.fF, Raw.fI, Raw.fFI, Raw.arith, Raw.fma, Raw.unary, Raw.fmt, Raw.dfmt, Raw.rm, Raw.fn, Raw.sat, Raw.k, Raw.c, Raw.scope, must, bind, Except.bind, pure, Except.pure]
theorem RoundTrip.idle (h) : RoundTrip.Statement (.idle h) := by
  intro hw rest
  obtain ⟨hf, hw⟩ := wf rfl hw
  refine decode_encode rfl (admits (sh := ({} : Shape)) (o := 0xE7) rfl (by decide) hf
    (by simp [Shape.baseReserved, RegUse.reserved])
    (by simp [-BitVec.extractLsb'_toNat, Shape.extReserved, Raw.fmt, Raw.rm, Raw.sat, Raw.c, Raw.k, Raw.scope, Raw.fn, RegUse.reserved, objTyped])
    (by simp [Shape.beyond, RegUse.beyond, Raw.c]) (fun _ => rfl) (fun _ => rfl)) ?_ rest
  rw [build_eq (o := 0xE7) (row := 0x1C) (col := 7) rfl (by decide) (by decide)]
  show buildRow1C _ 7 = _
  simp [Instr.fieldsOk, arithOk, Fmt.isFI, scaleOk, accFmt, bandsOk] at hw
  simp only [buildRow1C] <;> simp [-BitVec.extractLsb'_toNat, hw, objTyped, Raw.tgt, Raw.im, Raw.intFmt, Raw.sc, Raw.rm5, Raw.fF, Raw.fI, Raw.fFI, Raw.arith, Raw.fma, Raw.unary, Raw.fmt, Raw.dfmt, Raw.rm, Raw.fn, Raw.sat, Raw.k, Raw.c, Raw.scope, must, bind, Except.bind, pure, Except.pure]
theorem RoundTrip.evpost (h a code) : RoundTrip.Statement (.evpost h a code) := by
  intro hw rest
  obtain ⟨hf, hw⟩ := wf rfl hw
  refine decode_encode rfl (admits (sh := ({ a := .x, immed := true, imm := 0xFFFF } : Shape)) (o := 0xE8) rfl (by decide) hf
    (by simp [Shape.baseReserved, RegUse.reserved])
    (by simp [-BitVec.extractLsb'_toNat, Shape.extReserved, Raw.fmt, Raw.rm, Raw.sat, Raw.c, Raw.k, Raw.scope, Raw.fn, RegUse.reserved, objTyped])
    (by simp [Shape.beyond, RegUse.beyond, Raw.c]) (fun _ => rfl) nofun) ?_ rest
  rw [build_eq (o := 0xE8) (row := 0x1D) (col := 0) rfl (by decide) (by decide)]
  show buildRow1D _ 0 = _
  simp [Instr.fieldsOk, arithOk, Fmt.isFI, scaleOk, accFmt, bandsOk] at hw
  simp only [buildRow1D] <;> simp [-BitVec.extractLsb'_toNat, hw, objTyped, Raw.tgt, Raw.im, Raw.intFmt, Raw.sc, Raw.rm5, Raw.fF, Raw.fI, Raw.fFI, Raw.arith, Raw.fma, Raw.unary, Raw.fmt, Raw.dfmt, Raw.rm, Raw.fn, Raw.sat, Raw.k, Raw.c, Raw.scope, must, bind, Except.bind, pure, Except.pure]
theorem RoundTrip.waitRelease a0 a1 a2 a3 : RoundTrip.Statement (.waitRelease a0 a1 a2 a3) := nofun
theorem RoundTrip.mloadbStart a0 a1 a2 : RoundTrip.Statement (.mloadbStart a0 a1 a2) := nofun
theorem RoundTrip.mmaStart a0 a1 a2 : RoundTrip.Statement (.mmaStart a0 a1 a2) := nofun
theorem RoundTrip.accumulatorRowWrite a0 a1 a2 a3 : RoundTrip.Statement (.accumulatorRowWrite a0 a1 a2 a3) := nofun
theorem RoundTrip.mdrainStart a0 a1 a2 : RoundTrip.Statement (.mdrainStart a0 a1 a2) := nofun
theorem RoundTrip.drainRowWrite a0 a1 a2 a3 : RoundTrip.Statement (.drainRowWrite a0 a1 a2 a3) := nofun
theorem RoundTrip.mzeroStart a0 a1 a2 : RoundTrip.Statement (.mzeroStart a0 a1 a2) := nofun
theorem RoundTrip.nlaunchDelivery a0 a1 a2 : RoundTrip.Statement (.nlaunchDelivery a0 a1 a2) := nofun
theorem RoundTrip.dsyncComplete a0 a1 : RoundTrip.Statement (.dsyncComplete a0 a1) := nofun
theorem RoundTrip.srseedWrite a0 a1 : RoundTrip.Statement (.srseedWrite a0 a1) := nofun
theorem RoundTrip.fcsrWrite a0 a1 a2 : RoundTrip.Statement (.fcsrWrite a0 a1 a2) := nofun
theorem RoundTrip.earlyrdWrite a0 a1 : RoundTrip.Statement (.earlyrdWrite a0 a1) := nofun
theorem RoundTrip.stallTrap a0 a1 : RoundTrip.Statement (.stallTrap a0 a1) := nofun
theorem RoundTrip.resultWrite a0 a1 a2 : RoundTrip.Statement (.resultWrite a0 a1 a2) := nofun
theorem RoundTrip.storePerform a0 : RoundTrip.Statement (.storePerform a0) := nofun
theorem RoundTrip.interrupt a0 a1 a2 a3 : RoundTrip.Statement (.interrupt a0 a1 a2 a3) := nofun
theorem RoundTrip.latchReinject a0 a1 a2 : RoundTrip.Statement (.latchReinject a0 a1 a2) := nofun
theorem RoundTrip.shadowPageFill a0 a1 : RoundTrip.Statement (.shadowPageFill a0 a1) := nofun
theorem RoundTrip.copyGroupTransfer a0 a1 a2 : RoundTrip.Statement (.copyGroupTransfer a0 a1 a2) := nofun
theorem RoundTrip.copyChunkRead a0 a1 : RoundTrip.Statement (.copyChunkRead a0 a1) := nofun
theorem RoundTrip.copyChunkPerform a0 a1 : RoundTrip.Statement (.copyChunkPerform a0 a1) := nofun
theorem RoundTrip.flueBeatPerform a0 a1 : RoundTrip.Statement (.flueBeatPerform a0 a1) := nofun
theorem RoundTrip.flueDegrade a0 : RoundTrip.Statement (.flueDegrade a0) := nofun
theorem RoundTrip.groupStart a0 : RoundTrip.Statement (.groupStart a0) := nofun
theorem RoundTrip.gemv a0 a1 : RoundTrip.Statement (.gemv a0 a1) := nofun
theorem RoundTrip.reduce a0 a1 : RoundTrip.Statement (.reduce a0 a1) := nofun
theorem RoundTrip.map a0 a1 : RoundTrip.Statement (.map a0 a1) := nofun
theorem RoundTrip.ncopy a0 a1 : RoundTrip.Statement (.ncopy a0 a1) := nofun
theorem RoundTrip.semwait a0 a1 : RoundTrip.Statement (.semwait a0 a1) := nofun
theorem RoundTrip.sempost a0 a1 : RoundTrip.Statement (.sempost a0 a1) := nofun
theorem RoundTrip.commit a0 : RoundTrip.Statement (.commit a0) := nofun
theorem RoundTrip.abort a0 : RoundTrip.Statement (.abort a0) := nofun
theorem RoundTrip.nmFence a0 : RoundTrip.Statement (.nmFence a0) := nofun
theorem RoundTrip.charbWrite a0 a1 : RoundTrip.Statement (.charbWrite a0 a1) := nofun
theorem RoundTrip.readingRoomFill a0 a1 a2 : RoundTrip.Statement (.readingRoomFill a0 a1 a2) := nofun
theorem RoundTrip.fillComplete a0 a1 a2 a3 : RoundTrip.Statement (.fillComplete a0 a1 a2 a3) := nofun
theorem RoundTrip.rrsizeWrite a0 : RoundTrip.Statement (.rrsizeWrite a0) := nofun
theorem RoundTrip.rdmaWriteWithImmediate a0 a1 a2 a3 a4 : RoundTrip.Statement (.rdmaWriteWithImmediate a0 a1 a2 a3 a4) := nofun
theorem RoundTrip.rdmaWrite a0 a1 a2 a3 : RoundTrip.Statement (.rdmaWrite a0 a1 a2 a3) := nofun
theorem RoundTrip.rdmaRead a0 a1 a2 a3 : RoundTrip.Statement (.rdmaRead a0 a1 a2 a3) := nofun
theorem RoundTrip.invalidRequest a0 : RoundTrip.Statement (.invalidRequest a0) := nofun
theorem RoundTrip.portDown a0 : RoundTrip.Statement (.portDown a0) := nofun
theorem RoundTrip.coreGateRequest a0 : RoundTrip.Statement (.coreGateRequest a0) := nofun
theorem RoundTrip.migration a0 a1 a2 : RoundTrip.Statement (.migration a0 a1 a2) := nofun
theorem RoundTrip.bindingResume a0 : RoundTrip.Statement (.bindingResume a0) := nofun
theorem RoundTrip.preemptRequest a0 : RoundTrip.Statement (.preemptRequest a0) := nofun
theorem RoundTrip.domainFormation a0 a1 : RoundTrip.Statement (.domainFormation a0 a1) := nofun
theorem RoundTrip.deviceRemoval a0 : RoundTrip.Statement (.deviceRemoval a0) := nofun
theorem RoundTrip.laneFault a0 : RoundTrip.Statement (.laneFault a0) := nofun
theorem RoundTrip.hop a0 a1 : RoundTrip.Statement (.hop a0 a1) := nofun
theorem RoundTrip.supplyDroop a0 : RoundTrip.Statement (.supplyDroop a0) := nofun
theorem RoundTrip.powerLease a0 a1 a2 a3 : RoundTrip.Statement (.powerLease a0 a1 a2 a3) := nofun
theorem RoundTrip.capcfgWrite a0 a1 a2 : RoundTrip.Statement (.capcfgWrite a0 a1 a2) := nofun
theorem RoundTrip.librarianRegisterWrite a0 a1 : RoundTrip.Statement (.librarianRegisterWrite a0 a1) := nofun
theorem RoundTrip.attestationRequest a0 : RoundTrip.Statement (.attestationRequest a0) := nofun
theorem RoundTrip.remoteAccess a0 a1 a2 a3 : RoundTrip.Statement (.remoteAccess a0 a1 a2 a3) := nofun
theorem RoundTrip.droopEnd a0 : RoundTrip.Statement (.droopEnd a0) := nofun
theorem RoundTrip.reserveHoldEnd a0 : RoundTrip.Statement (.reserveHoldEnd a0) := nofun
theorem RoundTrip.bindingFault a0 : RoundTrip.Statement (.bindingFault a0) := nofun
theorem RoundTrip.receiveBufferPosted a0 : RoundTrip.Statement (.receiveBufferPosted a0) := nofun
theorem RoundTrip.bwaittExpiry : RoundTrip.Statement (.bwaittExpiry) := nofun
theorem RoundTrip.reshapeComplete : RoundTrip.Statement (.reshapeComplete) := nofun
theorem RoundTrip.chainReady : RoundTrip.Statement (.chainReady) := nofun
theorem RoundTrip.tlbinvComplete : RoundTrip.Statement (.tlbinvComplete) := nofun
theorem RoundTrip.taskRetire : RoundTrip.Statement (.taskRetire) := nofun
theorem RoundTrip.commitGroupSwap : RoundTrip.Statement (.commitGroupSwap) := nofun
theorem RoundTrip.semwaitTimeout : RoundTrip.Statement (.semwaitTimeout) := nofun
theorem RoundTrip.budgetPeriod : RoundTrip.Statement (.budgetPeriod) := nofun
theorem RoundTrip.refresh : RoundTrip.Statement (.refresh) := nofun
theorem RoundTrip.refreshManagement : RoundTrip.Statement (.refreshManagement) := nofun
theorem RoundTrip.tenureEnd : RoundTrip.Statement (.tenureEnd) := nofun
theorem RoundTrip.accessionStart : RoundTrip.Statement (.accessionStart) := nofun
theorem RoundTrip.accessionComplete : RoundTrip.Statement (.accessionComplete) := nofun
theorem RoundTrip.wearDay : RoundTrip.Statement (.wearDay) := nofun
theorem RoundTrip.rrsizeApply : RoundTrip.Statement (.rrsizeApply) := nofun
theorem RoundTrip.eligibilityTest : RoundTrip.Statement (.eligibilityTest) := nofun
theorem RoundTrip.placement : RoundTrip.Statement (.placement) := nofun
theorem RoundTrip.dispatchPrepare : RoundTrip.Statement (.dispatchPrepare) := nofun
theorem RoundTrip.bindingRelease : RoundTrip.Statement (.bindingRelease) := nofun
theorem RoundTrip.completionReport : RoundTrip.Statement (.completionReport) := nofun
theorem RoundTrip.coreGate : RoundTrip.Statement (.coreGate) := nofun
theorem RoundTrip.idleCoreTimeout : RoundTrip.Statement (.idleCoreTimeout) := nofun
theorem RoundTrip.createq : RoundTrip.Statement (.createq) := nofun
theorem RoundTrip.deleteq : RoundTrip.Statement (.deleteq) := nofun
theorem RoundTrip.partition : RoundTrip.Statement (.partition) := nofun
theorem RoundTrip.partitionInstall : RoundTrip.Statement (.partitionInstall) := nofun
theorem RoundTrip.cancel : RoundTrip.Statement (.cancel) := nofun
theorem RoundTrip.accession : RoundTrip.Statement (.accession) := nofun
theorem RoundTrip.acccancel : RoundTrip.Statement (.acccancel) := nofun
theorem RoundTrip.regmr : RoundTrip.Statement (.regmr) := nofun
theorem RoundTrip.install : RoundTrip.Statement (.install) := nofun
theorem RoundTrip.recover : RoundTrip.Statement (.recover) := nofun
theorem RoundTrip.quarantineRelease : RoundTrip.Statement (.quarantineRelease) := nofun
theorem RoundTrip.freezeHorizon : RoundTrip.Statement (.freezeHorizon) := nofun
theorem RoundTrip.preemptDrainLimit : RoundTrip.Statement (.preemptDrainLimit) := nofun
theorem RoundTrip.preemptComplete : RoundTrip.Statement (.preemptComplete) := nofun
theorem RoundTrip.saveEnd : RoundTrip.Statement (.saveEnd) := nofun
theorem RoundTrip.loadEnd : RoundTrip.Statement (.loadEnd) := nofun
theorem RoundTrip.hcCorrection : RoundTrip.Statement (.hcCorrection) := nofun
theorem RoundTrip.hopRetry : RoundTrip.Statement (.hopRetry) := nofun
theorem RoundTrip.leaseExpiry : RoundTrip.Statement (.leaseExpiry) := nofun
theorem RoundTrip.adviseTrip : RoundTrip.Statement (.adviseTrip) := nofun
theorem RoundTrip.throttleTrip : RoundTrip.Statement (.throttleTrip) := nofun
theorem RoundTrip.throttleStep : RoundTrip.Statement (.throttleStep) := nofun
theorem RoundTrip.shutdownTrip : RoundTrip.Statement (.shutdownTrip) := nofun
theorem RoundTrip.patrolScrub : RoundTrip.Statement (.patrolScrub) := nofun
theorem RoundTrip.coldReset : RoundTrip.Statement (.coldReset) := nofun
theorem RoundTrip.hopComplete : RoundTrip.Statement (.hopComplete) := nofun
theorem RoundTrip.tripEnd : RoundTrip.Statement (.tripEnd) := nofun
theorem RoundTrip.temperatureSample : RoundTrip.Statement (.temperatureSample) := nofun
theorem RoundTrip.powerLoss : RoundTrip.Statement (.powerLoss) := nofun
theorem RoundTrip.orderlyShutdown : RoundTrip.Statement (.orderlyShutdown) := nofun

end Sys2Proof.Laws
end

