-- ==== Sys2Proof/Laws/Queues.lean ====
section
/-! SUPPORT. Operations that change bytes of scratchpads or HBM and nothing else: words, waiter records, waiter queues (R198, R200). -/

namespace Sys2Proof.Machine

/-- The second state differs from the first at most in bytes of scratchpads and of HBM, and in the marks of near-memory groups whose rows
were written (R265). -/
structure OnlyBytes (s t : State) : Prop where
  rest : { t with gm := s.gm, cores := s.cores, stokers := s.stokers } = s
  core : ∀ c, { t.core c with ls := (s.core c).ls } = s.core c

theorem OnlyBytes.refl (s : State) : OnlyBytes s s := ⟨rfl, fun _ => rfl⟩
theorem OnlyBytes.trans {s t u : State} (a : OnlyBytes s t) (b : OnlyBytes t u) : OnlyBytes s u :=
  ⟨(congrArg (fun v : State => { v with gm := s.gm, cores := s.cores, stokers := s.stokers }) b.rest).trans a.rest,
    fun c => (congrArg (fun k : Core => { k with ls := (s.core c).ls }) (b.core c)).trans (a.core c)⟩

section
variable {s t : State} (h : OnlyBytes s t)
include h
theorem OnlyBytes.strands (c : CoreId) : (t.core c).strands = (s.core c).strands := (congrArg Core.strands (h.core c) :)
theorem OnlyBytes.strand (c : CoreId) (st : StrandId) : t.strand c st = s.strand c st := by
  simp [State.strand, Core.strand, h.strands]
theorem OnlyBytes.fifos (c : CoreId) : (t.core c).fifos = (s.core c).fifos := (congrArg Core.fifos (h.core c) :)
theorem OnlyBytes.task (c : CoreId) : (t.core c).task = (s.core c).task := (congrArg Core.task (h.core c) :)
theorem OnlyBytes.regs (c : CoreId) : SameCoreRegs (s.core c) (t.core c) :=
  ⟨(congrArg Core.v (h.core c) :), (congrArg Core.k (h.core c) :), (congrArg Core.q (h.core c) :), (congrArg Core.dom (h.core c) :),
    (congrArg Core.srseed (h.core c) :), (congrArg Core.gens (h.core c) :), (congrArg Core.earlyrd (h.core c) :)⟩
theorem OnlyBytes.cyc (c : CoreId) : (t.core c).cyc = (s.core c).cyc := (congrArg Core.cyc (h.core c) :)
theorem OnlyBytes.used (c : CoreId) : (t.core c).used = (s.core c).used := (congrArg Core.used (h.core c) :)
theorem OnlyBytes.bindings : t.bindings = s.bindings := (congrArg State.bindings h.rest :)
theorem OnlyBytes.cal : t.cal = s.cal := (congrArg State.cal h.rest :)
theorem OnlyBytes.hc : t.hc = s.hc := (congrArg State.hc h.rest :)
theorem OnlyBytes.xlate : t.xlate = s.xlate := (congrArg State.xlate h.rest :)
end

theorem OnlyBytes.setUnitMem (s : State) (u : MemUnit) (m : Mem) : OnlyBytes s (s.setUnitMem u m) := by
  cases u with
  | ls c =>
    refine ⟨rfl, fun d => ?_⟩
    by_cases e : d = c
    · subst e; simp [State.setUnitMem]
    · simp [State.setUnitMem, e]
  | gm => exact ⟨rfl, fun _ => rfl⟩
  | xm n => exact .refl s
theorem OnlyBytes.setWordAt (s : State) (p : Place) (ofs : Nat) (w : Word) : OnlyBytes s (s.setWordAt p ofs w) := by
  unfold State.setWordAt
  simp only []
  split
  · exact (OnlyBytes.setUnitMem s _ _).trans ⟨rfl, fun _ => rfl⟩
  · exact .setUnitMem s _ _
theorem OnlyBytes.setRecord (s : State) (id cond : Nat) (linked : Bool) (next : Nat) (opnd : Word) :
    OnlyBytes s (s.setRecord id cond linked next opnd) := by
  unfold State.setRecord
  exact (OnlyBytes.setWordAt s _ _ _).trans (.setWordAt _ _ _ _)
theorem OnlyBytes.link (s : State) (p : Place) (ofs id cond : Nat) (opnd : Word) : OnlyBytes s (s.link p ofs id cond opnd) := by
  unfold State.link
  simp only []
  split
  · exact (OnlyBytes.setRecord s _ _ _ _ _).trans (.setWordAt _ _ _ _)
  · exact ((OnlyBytes.setRecord s _ _ _ _ _).trans (.setWordAt _ _ _ _)).trans (.setWordAt _ _ _ _)
theorem OnlyBytes.relink (s : State) (id nxt : Nat) : OnlyBytes s (State.requeue.relink s id nxt) := by
  unfold State.requeue.relink
  exact .setWordAt s _ _ _
theorem OnlyBytes.chain : ∀ (l : List Nat) (s : State), OnlyBytes s (State.requeue.chain s l)
  | [], s => by rw [State.requeue.chain]; exact .refl s
  | [id], s => by rw [State.requeue.chain]; exact .relink s _ _
  | id :: nxt :: rest, s => by rw [State.requeue.chain]; exact (OnlyBytes.relink s _ _).trans (OnlyBytes.chain (nxt :: rest) _)
theorem OnlyBytes.foldl {α : Type} (f : State → α → State) (hf : ∀ u a, OnlyBytes u (f u a)) : ∀ (l : List α) (s : State), OnlyBytes s (l.foldl f s)
  | [], s => .refl s
  | a :: l, s => (hf s a).trans (OnlyBytes.foldl f hf l (f s a))
/-- Rewriting a waiter queue changes bytes alone. -/
theorem OnlyBytes.requeue (s : State) (p : Place) (ofs : Nat) (keep drop : List Nat) : OnlyBytes s (s.requeue p ofs keep drop) := by
  unfold State.requeue
  simp only []
  refine ((OnlyBytes.foldl _ (fun u a => ?_) drop s).trans (OnlyBytes.chain keep _)).trans (.setWordAt _ _ _ _)
  exact .setWordAt u _ _ _

end Sys2Proof.Machine
end

