-- ==== Sys2Proof/Laws/Trap.lean ====
section
/-! SUPPORT. What taking a trap and returning from one do, said once (R336-R343). -/

namespace Sys2Proof.Machine

/-- With no wait to undo, a trap at user level is the entry alone; an asynchronous one records the strand's position. -/
theorem State.trap_user {s : State} {c : CoreId} {st : StrandId} (i : TrapInfo) (hl : (s.strand c st).level = false)
    (hw : (s.strand c st).wait = none) :
    s.trap c st i = (s.enterTrap c st (if i.async then { i with epc := (s.strand c st).pos } else i)).dispose c st i := by
  simp [State.trap, hl, State.abandon, hw]
/-- Everything that disposing of a cause can do: it leaves the state alone but for the calendar, its order and the free choices, and what it adds to the
calendar is one piece of work at a tick that is not exposed (R347). -/
theorem State.dispose_spec (s : State) (c : CoreId) (st : StrandId) (i : TrapInfo) :
    { s.dispose c st i with cal := s.cal, order := s.order, choice := s.choice } = s ∧
    (let later (w : Work) : Prop := (s.dispose c st i).cal = ⟨.hc, s.hc + 1 + Config.delay s.choice, latePrio, s.order, w⟩ :: s.cal
     (i.fatal = true → later (.ev (.bindingFault (s.bidOf c)))) ∧
     (i.fatal = false → i.cause = 14 → later (.ev (.preemptRequest (s.bidOf c)))) ∧
     (i.fatal = false → i.cause = 1 → later (.notify 5 [i.i0, (s.strand c st).x[1]])) ∧
     (i.fatal = false → i.cause ≠ 14 → i.cause ≠ 1 → s.dispose c st i = s)) := by
  refine ⟨?_, fun h => ?_, fun h e => ?_, fun h e => ?_, fun h e g => ?_⟩
  · unfold State.dispose
    split
    · rfl
    · split
      · rfl
      · split <;> rfl
  · simp [State.dispose, h, State.sometime, State.draw, State.post]
  · simp [State.dispose, h, e, State.sometime, State.draw, State.post]
  · simp [State.dispose, h, e, State.sometime, State.draw, State.post]
  · simp [State.dispose, h, e, g]
/-- At system level a trap is a double trap. -/
theorem State.trap_system {s : State} {c : CoreId} {st : StrandId} (i : TrapInfo) (hl : (s.strand c st).level = true) :
    s.trap c st i = s.doubleTrap c st := by simp [State.trap, hl]

/-- What rounding the stochastic elements of a result can do (R65). -/
theorem Core.roundStoch_spec (k : Core) (r : Result) :
    (∃ g, (k.roundStoch r).1 = { k with gens := g }) ∧ ∃ d f, (k.roundStoch r).2 = { r with data := d, flags := f, stoch := [] } := by
  have fold : ∀ (g : Core × Result → Stoch → Core × Result),
      (∀ p e, (∃ v, (g p e).1 = { p.1 with gens := v }) ∧ ∃ d f, (g p e).2 = { p.2 with data := d, flags := f }) →
      ∀ (l : List Stoch) (p : Core × Result),
      (∃ v, (l.foldl g p).1 = { p.1 with gens := v }) ∧ ∃ d f, (l.foldl g p).2 = { p.2 with data := d, flags := f } := by
    intro g hg l
    induction l with
    | nil => intro p; exact ⟨⟨p.1.gens, rfl⟩, p.2.data, p.2.flags, rfl⟩
    | cons e l ih =>
      intro p
      obtain ⟨⟨v, hv⟩, d, f, hd⟩ := hg p e
      obtain ⟨⟨v', hv'⟩, d', f', hd'⟩ := ih (g p e)
      exact ⟨⟨v', by rw [List.foldl_cons, hv', hv]⟩, d', f', by rw [List.foldl_cons, hd', hd]⟩
  unfold Core.roundStoch
  refine fold _ ?_ r.stoch (k, { r with stoch := [] })
  exact fun p e => ⟨⟨_, rfl⟩, _, _, rfl⟩
/-- A result without stochastic elements is as it stands. -/
theorem Core.roundStoch_none (k : Core) (r : Result) (h : r.stoch = []) : k.roundStoch r = (k, r) := by
  cases r
  simp only at h
  subst h
  rfl
/-- What rounding a list of results can do: the generators advance, and the results keep their places. -/
theorem Core.roundFlights_spec (k : Core) (fs : List Flight) :
    (∃ g, (k.roundFlights fs).1 = { k with gens := g }) ∧ (k.roundFlights fs).2.map (·.ord) = fs.map (·.ord) := by
  have fold : ∀ (g : Core × List Flight → Flight → Core × List Flight),
      (∀ p f, (∃ v, (g p f).1 = { p.1 with gens := v }) ∧ (g p f).2.map (·.ord) = p.2.map (·.ord) ++ [f.ord]) →
      ∀ (l : List Flight) (p : Core × List Flight),
      (∃ v, (l.foldl g p).1 = { p.1 with gens := v }) ∧ (l.foldl g p).2.map (·.ord) = p.2.map (·.ord) ++ l.map (·.ord) := by
    intro g hg l
    induction l with
    | nil => intro p; exact ⟨⟨p.1.gens, rfl⟩, by simp⟩
    | cons e l ih =>
      intro p
      obtain ⟨⟨v, hv⟩, hd⟩ := hg p e
      obtain ⟨⟨v', hv'⟩, hd'⟩ := ih (g p e)
      exact ⟨⟨v', by rw [List.foldl_cons, hv', hv]⟩, by rw [List.foldl_cons, hd', hd]; simp⟩
  unfold Core.roundFlights
  have := fold (fun (p : Core × List Flight) (f : Flight) => ((p.1.roundStoch f.res).1, p.2 ++ [{ f with res := (p.1.roundStoch f.res).2 }]))
    (fun p f => ⟨(p.1.roundStoch_spec f.res).1, by simp⟩) fs (k, [])
  exact ⟨this.1, by simpa using this.2⟩

/-- The fields of TCAUSE (R336). -/
theorem trapCause_fields (n : Nat) (stopping arrived migr async : Bool) {cause : Nat} (h : cause < 256) :
    let w : Word := BitVec.ofNat 64 (n * 2 ^ 16 + stopping.toNat * 2 ^ 11 + arrived.toNat * 2 ^ 10 + migr.toNat * 2 ^ 9 + async.toNat * 2 ^ 8 + cause)
    w.toNat % 256 = cause ∧ w.getLsbD 8 = async ∧ w.getLsbD 9 = migr ∧ w.getLsbD 10 = arrived := by
  have hb : ∀ b : Bool, b.toNat < 2 := fun b => by cases b <;> decide
  have h1 := hb stopping
  have h2 := hb arrived
  have h3 := hb migr
  have h4 := hb async
  have e : ∀ b : Bool, b = decide (b.toNat = 1) := fun b => by cases b <;> decide
  intro w
  refine ⟨by simp only [w, BitVec.toNat_ofNat]; omega, ?_, ?_, ?_⟩ <;>
    simp only [w, BitVec.getLsbD_ofNat, Nat.testBit_eq_decide_div_mod_eq, show (8 : Nat) < 64 by decide, show (9 : Nat) < 64 by decide,
      show (10 : Nat) < 64 by decide, decide_true, Bool.true_and]
  · exact Eq.trans (by congr 1; apply propext; constructor <;> intro q <;> omega) (e async).symm
  · exact Eq.trans (by congr 1; apply propext; constructor <;> intro q <;> omega) (e migr).symm
  · exact Eq.trans (by congr 1; apply propext; constructor <;> intro q <;> omega) (e arrived).symm

/-- What entering a trap writes into the strand's registers and place. -/
theorem State.enterTrap_strand (s : State) (c : CoreId) (st : StrandId) (i : TrapInfo) (hi : i.cause < 256) :
    let t := s.strand c st
    let u := (s.enterTrap c st i).strand c st
    u.level = true ∧ (u.tcause.toNat % 256 = i.cause ∧ u.tcause.getLsbD 8 = i.async ∧ u.tcause.getLsbD 9 = i.migr ∧ u.tcause.getLsbD 10 = t.arrived) ∧
    (u.tepc = BitVec.ofNat 64 (i.epc % 2 ^ 15) ∧ u.tinfo0 = i.i0 ∧ u.tinfo1 = i.i1 ∧ u.tdt = BitVec.ofNat 64 (s.dt c % 2 ^ 48) ∧
      u.tprev = (match t.prev with | some p => BitVec.ofNat 64 (p % 2 ^ 48) | none => 0xFFFFFFFFFFFF)) ∧
    (u.pos = 16 * (64 * st.num.val + i.cause) ∧ u.base = (s.core c).cyc + 1 ∧ u.reach = .jump ∧ u.prev = none ∧ u.wait = t.wait) ∧
    (u.x = t.x ∧ u.xs = t.xs ∧ u.fcsr = t.fcsr ∧ u.sbound = t.sbound ∧ u.loops = t.loops ∧ u.run = t.run) ∧
    u.latches.length = t.latches.length + (s.capturable c st).length ∧
    u.flights = t.flights.filter (fun f => !((s.capturable c st).any fun g => g.ord == f.ord)) := by
  intro t u
  obtain ⟨⟨g, hg⟩, hf⟩ := (s.core c).roundFlights_spec (s.capturable c st)
  have hs : (s.updCore c fun _ => ((s.core c).roundFlights (s.capturable c st)).1).strand c st = t := by simp [State.strand, hg, t, Core.strand]
  have hc : ((s.updCore c fun _ => ((s.core c).roundFlights (s.capturable c st)).1).core c).cyc = (s.core c).cyc := by simp [hg]
  have hd : (s.updCore c fun _ => ((s.core c).roundFlights (s.capturable c st)).1).dt c = s.dt c := by
    simp [State.dt, State.bindingOf, hg]
  have hl := congrArg List.length hf
  have ha : ∀ n, ((s.core c).roundFlights (s.capturable c st)).2.any (fun g => g.ord == n) = (s.capturable c st).any fun g => g.ord == n := by
    intro n
    have := congrArg (fun l => l.any (· == n)) hf
    simpa [List.any_map, Function.comp_def] using this
  unfold u State.enterTrap
  simp only [State.strand_updStrand, hs, hd, hc]
  refine ⟨trivial, trapCause_fields _ _ _ _ _ hi, ⟨trivial, trivial, trivial, trivial, ?_⟩, ⟨trivial, trivial, trivial, trivial, trivial⟩,
    ⟨trivial, trivial, trivial, trivial, trivial, trivial⟩, ?_, ?_⟩
  · rfl
  · simpa using hl
  · simp only [ha]

/-- What entering a trap leaves alone. -/
theorem State.enterTrap_frame (s : State) (c : CoreId) (st : StrandId) (i : TrapInfo) :
    (∀ d o, (d, o) ≠ (c, st) → (s.enterTrap c st i).strand d o = s.strand d o) ∧ (s.enterTrap c st i).gm = s.gm ∧
    (∀ d, ((s.enterTrap c st i).core d).ls = (s.core d).ls) ∧ (∀ d, ((s.enterTrap c st i).core d).fifos = (s.core d).fifos) ∧
    (s.enterTrap c st i).cal = s.cal := by
  obtain ⟨⟨g, hg⟩, -⟩ := (s.core c).roundFlights_spec (s.capturable c st)
  have hs : ∀ d o, (s.updCore c fun _ => ((s.core c).roundFlights (s.capturable c st)).1).strand d o = s.strand d o := by
    intro d o
    by_cases e : d = c
    · subst e; simp [State.strand, Core.strand, hg]
    · simp [State.strand, e]
  refine ⟨fun d o h => (State.strand_updStrand_ne _ _ h).trans (hs d o), rfl, fun d => ?_, fun d => ?_, rfl⟩ <;>
  · unfold State.enterTrap
    by_cases e : d = c
    · subst e; simp [hg]
    · simp [e]

/-! ### Abandoning a wait -/

theorem foldr_restore_strands : ∀ (l : List (Fin 8 × Token)) (k : Core),
    (l.foldr (fun (p : Fin 8 × Token) k => k.updFifo p.1 (·.restore [p.2])) k).strands = k.strands
  | [], _ => rfl
  | p :: l, k => foldr_restore_strands l k
/-- A wait that a trap ends leaves the strand standing at its instruction, and every register and every other strand as it was. -/
theorem State.abandon_strands (s : State) (c : CoreId) (st : StrandId) :
    let u := s.abandon c st
    (∀ d o, (d, o) ≠ (c, st) → u.strand d o = s.strand d o) ∧ (u.strand c st).wait = none ∧ SameRegs (s.strand c st) (u.strand c st) := by
  have upd : ∀ (v : State) (g : Strand → Strand), (∀ d o, v.strand d o = s.strand d o) →
      (g (s.strand c st)).wait = none → SameRegs (s.strand c st) (g (s.strand c st)) →
      (∀ d o, (d, o) ≠ (c, st) → (v.updStrand c st g).strand d o = s.strand d o) ∧ ((v.updStrand c st g).strand c st).wait = none ∧
        SameRegs (s.strand c st) ((v.updStrand c st g).strand c st) := by
    intro v g hv h1 h2
    refine ⟨fun d o h => (State.strand_updStrand_ne v g h).trans (hv d o), ?_, ?_⟩ <;> rw [State.strand_updStrand, hv]
    exacts [h1, h2]
  have strands : ∀ (v : State) (f : Core → Core), (∀ k, (f k).strands = k.strands) → ∀ d o, (v.updCore c f).strand d o = v.strand d o := by
    intro v f hf d o
    by_cases e : d = c
    · subst e; simp [State.strand, Core.strand, hf]
    · simp [State.strand, e]
  intro u
  unfold u State.abandon
  split
  · next h => exact ⟨fun _ _ _ => rfl, h, ⟨rfl, rfl, rfl, rfl, rfl, rfl, rfl, rfl, rfl, rfl, rfl, rfl, rfl, rfl, rfl⟩⟩
  · next w hw =>
    split
    · exact upd s _ (fun _ _ => rfl) rfl ⟨rfl, rfl, rfl, rfl, rfl, rfl, rfl, rfl, rfl, rfl, rfl, rfl, rfl, rfl, rfl⟩
    · refine upd _ _ (fun d o => ?_) rfl ⟨rfl, rfl, rfl, rfl, rfl, rfl, rfl, rfl, rfl, rfl, rfl, rfl, rfl, rfl, rfl⟩
      refine (strands _ (fun k => (k.updFifo (pushFifo st false) (·.release w.pushP.toNat)).updFifo (pushFifo st true) (·.release w.pushN.toNat))
        (fun _ => rfl) d o).trans ?_
      refine (strands _ (fun k => w.pops.foldr (fun (f, tok) k => k.updFifo f (·.restore [tok])) k) (fun k => foldr_restore_strands w.pops k) d o).trans ?_
      split
      · rfl
      · exact strands _ _ (by intro k; rfl) d o
      · simp only []
        split
        · exact (OnlyBytes.requeue s _ _ _ _).strand d o
        · rfl
      · rfl

/-! ### Returning -/

/-- What returning from a trap puts into the calendar for a list of results. -/
theorem State.returnUser_fold (c : CoreId) (st : StrandId) : ∀ (fs : List Flight) (s : State),
    let t := fs.foldl (fun u f => u.post (.dt (u.bidOf c)) f.w (writePrio st f.ord) (.ev (.latchReinject c st { f.res with ord := f.ord }))) s
    t.cores = s.cores ∧ t.gm = s.gm ∧ (∀ k d p w, s.Pending k d p w → t.Pending k d p w) ∧
    ∀ f ∈ fs, t.Pending (.dt (s.bidOf c)) f.w (writePrio st f.ord) (.ev (.latchReinject c st { f.res with ord := f.ord }))
  | [], s => ⟨rfl, rfl, fun _ _ _ _ h => h, fun f hf => absurd hf (by simp)⟩
  | f :: fs, s => by
    intro t
    let u := s.post (.dt (s.bidOf c)) f.w (writePrio st f.ord) (.ev (.latchReinject c st { f.res with ord := f.ord }))
    obtain ⟨h1, h2, h3, h4⟩ := State.returnUser_fold c st fs u
    refine ⟨h1, h2, fun k d p w h => h3 k d p w (h.post _ _ _ _), fun g hg => ?_⟩
    rcases List.mem_cons.mp hg with e | hg
    · subst e
      exact h3 _ _ _ _ ⟨s.order, by simp [u]⟩
    · exact h4 g hg

/-- Everything that returning to user level can do (R338, R343). -/
theorem State.returnFrom_spec (s : State) (c : CoreId) (st : StrandId) (hf : (s.strand c st).frames = []) :
    let t := s.strand c st
    let u := s.returnFrom c st
    u.strand c st = { t with level := false, latches := [], flights := t.flights ++ t.latches.map (fun l => { l.fl with w := s.dt c + l.r })
                             pos := t.tepc.toNat % 2 ^ 15, reach := .jump, prev := some (s.dt c), base := s.dt c + 1, blocked := none, wait := none } ∧
    (∀ d o, (d, o) ≠ (c, st) → u.strand d o = s.strand d o) ∧ u.gm = s.gm ∧ (∀ d, (u.core d).ls = (s.core d).ls) ∧
    (∀ l ∈ t.latches, u.Pending (.dt (s.bidOf c)) (s.dt c + l.r) (writePrio st l.fl.ord)
      (.ev (.latchReinject c st { l.fl.res with ord := l.fl.ord }))) := by
  intro t u
  let g : Strand → Strand := fun o =>
    { o with level := false, latches := [], flights := o.flights ++ t.latches.map (fun l => { l.fl with w := s.dt c + l.r })
             pos := o.tepc.toNat % 2 ^ 15, reach := .jump, prev := some (s.dt c), base := s.dt c + 1, blocked := none, wait := none }
  have hu : u = s.returnUser c st := by simp only [u, State.returnFrom, hf]
  rw [hu]
  obtain ⟨h1, h2, -, h4⟩ := State.returnUser_fold c st (t.latches.map fun l => { l.fl with w := s.dt c + l.r }) (s.updStrand c st g)
  have hc : ∀ d, (s.returnUser c st).core d = (s.updStrand c st g).core d := fun d => by
    simp only [State.core]
    exact congrArg (fun v : Vector Core 256 => v[d.val]) h1
  refine ⟨?_, fun d o h => ?_, h2, fun d => ?_, fun l hl => ?_⟩
  · have : (s.returnUser c st).strand c st = _ := congrArg (fun k : Core => k.strand st) (hc c)
    rw [this]
    exact State.strand_updStrand s c st g
  · have : (s.returnUser c st).strand d o = _ := congrArg (fun k : Core => k.strand o) (hc d)
    rw [this]
    exact State.strand_updStrand_ne s _ h
  · rw [hc]
    by_cases e : d = c
    · subst e; simp
    · simp [e]
  · have := h4 _ (List.mem_map_of_mem (f := fun l : Latch => ({ l.fl with w := s.dt c + l.r } : Flight)) hl)
    have e : (s.updStrand c st g).bidOf c = s.bidOf c := by simp [State.bidOf]
    rw [e] at this
    exact this

/-- Everything that returning to an outer handler can do (R173, R187). -/
theorem State.returnNested_spec (s : State) (c : CoreId) (st : StrandId) (r : Frame) (rest : List Frame) (hf : (s.strand c st).frames = r :: rest) :
    let t := s.strand c st
    let u := s.returnFrom c st
    (u.strand c st = { t with frames := rest, tcause := r.tcause, tepc := r.tepc, tinfo0 := r.tinfo0, tinfo1 := r.tinfo1, tdt := r.tdt, tprev := r.tprev
                              tlsel := r.tlsel, latches := r.latches
                              flights := t.flights ++ t.latches.map (fun l => { l.fl with w := (s.core c).cyc + l.r })
                              pos := t.tepc.toNat % 2 ^ 15, reach := .jump, prev := some (s.core c).cyc, base := (s.core c).cyc + 1, blocked := none
                              wait := none }) ∧
    (∀ d o, (d, o) ≠ (c, st) → u.strand d o = s.strand d o) ∧ u.gm = s.gm ∧ (∀ d, (u.core d).ls = (s.core d).ls) := by
  intro t u
  have fold : ∀ (fs : List Flight) (v : State),
      let w := fs.foldl (fun u f => u.post (.cyc c) f.w (writePrio st f.ord) (.flight c st f.ord)) v
      w.cores = v.cores ∧ w.gm = v.gm := by
    intro fs
    induction fs with
    | nil => exact fun v => ⟨rfl, rfl⟩
    | cons f fs ih => exact fun v => ih (v.post (.cyc c) f.w (writePrio st f.ord) (.flight c st f.ord))
  have hu : u = s.returnNested c st r rest := by simp only [u, State.returnFrom, hf]
  rw [hu]
  let g : Strand → Strand := fun t =>
    { t with frames := rest, tcause := r.tcause, tepc := r.tepc, tinfo0 := r.tinfo0, tinfo1 := r.tinfo1, tdt := r.tdt, tprev := r.tprev
             tlsel := r.tlsel, latches := r.latches
             flights := t.flights ++ (s.strand c st).latches.map (fun l => { l.fl with w := (s.core c).cyc + l.r })
             pos := t.tepc.toNat % 2 ^ 15, reach := .jump, prev := some (s.core c).cyc, base := (s.core c).cyc + 1, blocked := none, wait := none }
  obtain ⟨h1, h2⟩ := fold ((s.strand c st).latches.map fun l => { l.fl with w := (s.core c).cyc + l.r }) (s.updStrand c st g)
  have hc : ∀ d, (s.returnNested c st r rest).core d = (s.updStrand c st g).core d := fun d => by
    simp only [State.core]
    exact congrArg (fun v : Vector Core 256 => v[d.val]) h1
  refine ⟨?_, fun d o h => ?_, h2, fun d => ?_⟩
  · have : (s.returnNested c st r rest).strand c st = _ := congrArg (fun k : Core => k.strand st) (hc c)
    rw [this]
    exact State.strand_updStrand s c st g
  · have : (s.returnNested c st r rest).strand d o = _ := congrArg (fun k : Core => k.strand o) (hc d)
    rw [this]
    exact State.strand_updStrand_ne s _ h
  · rw [hc]
    by_cases e : d = c
    · subst e; simp
    · simp [e]

/-! ### Bindings -/

/-- A binding that a change keeps under its ID reads as changed. -/
theorem State.binding_updBinding (s : State) (bid : Nat) (f : Binding → Binding) (hf : ∀ b, (f b).bid = b.bid) :
    (s.updBinding bid f).binding bid = (s.binding bid).map f := by
  simp only [State.binding, State.updBinding]
  induction s.bindings with
  | nil => rfl
  | cons b l ih =>
    by_cases e : b.bid = bid
    · have : (f b).bid = bid := (hf b).trans e
      simp [e, this]
    · simp [e, ih]
/-- The binding of a core's task is the one of its ID. -/
theorem State.bindingOf_bidOf {s : State} {c : CoreId} {b : Binding} (h : s.bindingOf c = some b) :
    s.binding (s.bidOf c) = some b ∧ b.bid = s.bidOf c := by
  unfold State.bindingOf at h
  unfold State.bidOf
  cases ht : (s.core c).task with
  | none => simp [ht] at h
  | some p =>
    simp only [ht, Option.bind_some] at h
    refine ⟨h, ?_⟩
    have := List.find?_some h
    simpa using this
/-- Every other binding reads as before. -/
theorem State.binding_updBinding_ne (s : State) {bid other : Nat} (f : Binding → Binding) (hf : ∀ b, (f b).bid = b.bid) (h : other ≠ bid) :
    (s.updBinding bid f).binding other = s.binding other := by
  simp only [State.binding, State.updBinding]
  induction s.bindings with
  | nil => rfl
  | cons b l ih =>
    by_cases e : b.bid = bid
    · have h1 : ((f b).bid == other) = false := by rw [hf, e]; exact beq_eq_false_iff_ne.mpr (Ne.symm h)
      have h2 : (b.bid == other) = false := by rw [e]; exact beq_eq_false_iff_ne.mpr (Ne.symm h)
      rw [List.map_cons, if_pos e, List.find?_cons, List.find?_cons, h1, h2, ih]
    · rw [List.map_cons, if_neg e, List.find?_cons, List.find?_cons, ih]

end Sys2Proof.Machine
end

