-- ==== Sys2Proof/Tests/Slice0.lean ====
section
/-! SUPPORT. Tests: ill-formed terms that the checks refuse, words written out from the encoding tables, the manual's worked values,
single steps, and for every statement with hypotheses a state and operands that meet them. -/

set_option Elab.async false

namespace Sys2Proof.Tests
open Sys2Proof Sys2Proof.Machine

/-! ### Ill-formed terms are refused (WellFormed.lean), one for each check -/

theorem test_event_has_no_encoding : Instr.wellFormed .coldReset = false := by decide
/-- A stamp, a bound, a typed word and an immediate word are four extension words, one too many (R143). -/
theorem test_too_many_words : (Instr.lds { timing := .stamped 0, bound := some 0 } 1 2 .z64 none 0).wellFormed = false := by decide
theorem test_retire_takes_no_push : (Instr.retire { pap := true }).wellFormed = false := by decide
theorem test_give_takes_no_zero : (Instr.give {} false 0).wellFormed = false := by decide
theorem test_cp_ll_takes_no_scope : (Instr.cpLl {} 1 2 3 ⟨none, none, 0, .dev, 0, none⟩).wellFormed = false := by decide
theorem test_cp_lw_takes_no_channel : (Instr.cpLw {} 1 2 3 ⟨none, none, 0, .core, 1, none⟩).wellFormed = false := by decide
theorem test_cp_lg_takes_no_ps_barrier : (Instr.cpLg {} 1 2 3 ⟨some .ps, none, 4, .dev, 0, none⟩).wellFormed = false := by decide
theorem test_cp_gl_pair_without_barrier : (Instr.cpGl {} 1 2 3 ⟨none, none, 4, .dev, 0, none⟩).wellFormed = false := by decide
theorem test_cp_gg_takes_no_conversion : (Instr.cpGg {} 1 2 3 ⟨none, none, 0, .dev, 0, some ⟨.f32, .bf16, .rne, false⟩⟩).wellFormed = false := by decide
theorem test_cp_lx_needs_a_wide_scope : (Instr.cpLx {} 1 2 3 ⟨none, none, 0, .dev, 0, none⟩).wellFormed = false := by decide
theorem test_cp_gx_needs_a_wide_scope : (Instr.cpGx {} 1 2 3 ⟨none, none, 0, .core, 0, none⟩).wellFormed = false := by decide
theorem test_cp_xl_pair_beyond_the_file : (Instr.cpXl {} 1 2 3 ⟨none, some false, 31, .dev, 0, none⟩).wellFormed = false := by decide
theorem test_bwait_not_in_xm : (Instr.bwait {} .xm 1 2 3 none).wellFormed = false := by decide
theorem test_atomic_cas_format : (Instr.aml {} 1 2 3 ⟨.cas, .bf16, .rne, false, 0, .rlx⟩).wellFormed = false := by decide
theorem test_amx_release_scope : (Instr.amx {} 1 2 3 ⟨.add, .s64, .rne, false, 0, .rel .dev⟩).wellFormed = false := by decide
theorem test_lred_format : (Instr.lred {} 1 2 3 .z32 .rne false ⟨.bind, none, none, 0, .dev, 0, 0, 0⟩).wellFormed = false := by decide
theorem test_lbcast_scope : (Instr.lbcast {} 1 2 3 ⟨.grp, none, none, 0, .dev, 0, 0, 0⟩).wellFormed = false := by decide
theorem test_lgath_argument : (Instr.lgath {} 1 2 3 ⟨.bind, none, none, 0, .dev, 0, 0, 1⟩).wellFormed = false := by decide
theorem test_acc_pair : (Instr.acc {} 1 2 3 31 false).wellFormed = false := by decide
theorem test_vadd_integer_rounding : (Instr.vadd {} 1 2 3 0 .s32 .rz false).wellFormed = false := by decide
theorem test_vfma_integer : (Instr.vfma {} 1 2 3 4 0 .s32 .rne false).wellFormed = false := by decide
theorem test_vmin_storage_format : (Instr.vmin {} 1 2 3 0 .e4m3).wellFormed = false := by decide
theorem test_vneg_float_sat : (Instr.vneg {} 1 2 0 .f32 true).wellFormed = false := by decide
theorem test_vdiv_integer : (Instr.vdiv {} 1 2 3 0 .s32 .rne).wellFormed = false := by decide
theorem test_vexp_stochastic : (Instr.vexp {} 1 2 0 .f32 .rs).wellFormed = false := by decide
theorem test_vclass_integer : (Instr.vclass {} 1 2 0 .s32).wellFormed = false := by decide
theorem test_vcmp_nibbles : (Instr.vcmp {} 1 2 3 0 0 .e2m1).wellFormed = false := by decide
theorem test_vsll_float : (Instr.vsll {} 1 2 3 0 .f32).wellFormed = false := by decide
theorem test_vcvt_part : (Instr.vcvt {} 1 2 0 .f32 .f32 .rne false 1).wellFormed = false := by decide
theorem test_vqnt_widens : (Instr.vqnt {} 1 2 3 0 .bf16 .f32 .rne false 0 false 0).wellFormed = false := by decide
theorem test_vdqnt_narrows : (Instr.vdqnt {} 1 2 3 0 .f32 .bf16 .rne false 0 false 0).wellFormed = false := by decide
theorem test_vredadd_format : (Instr.vredadd {} 1 2 3 0 .f32 .s32 .rne false).wellFormed = false := by decide
theorem test_vredmax_format : (Instr.vredmax {} 1 2 3 0 .s32 .f32).wellFormed = false := by decide
theorem test_vacr_format : (Instr.vacr {} 1 2 0 .bf16).wellFormed = false := by decide
theorem test_hcut_code : (Instr.hcut {} 7 0).wellFormed = false := by decide
theorem test_hcut_band : (Instr.hcut {} 0 3).wellFormed = false := by decide
theorem test_hchain_length : (Instr.hchain {} 3 0 0).wellFormed = false := by decide
theorem test_hchain_dissolve_head : (Instr.hchain {} 0 0 1).wellFormed = false := by decide
theorem test_mloadb_wz : (Instr.mloadb {} 0 1 .bf16 3 0 0).wellFormed = false := by decide
theorem test_mma_rounding : (Instr.mma {} 0 1 2 .bf16 .rz false false 0 0 0).wellFormed = false := by decide
theorem test_mdrain_format : (Instr.mdrain {} 0 1 2 .bf16 .rne false false false 0 0 0).wellFormed = false := by decide
theorem test_tlbinv_asid_size : (Instr.tlbinv {} 0 1 .asid .m2).wellFormed = false := by decide

/-! ### Decoding: words written out bit by bit from the encoding tables (R142 to R150), most of them the manual's examples -/

theorem test_decode_nop : decode [0x00000000] = .ok (.nop {}, 1) := by decide
theorem test_decode_li : decode [0x00978800, 0x00000003] = .ok (.li {} 2 3, 2) := by decide
theorem test_decode_addi : decode [0x009414A0, 0x00000040] = .ok (.addi {} 5 5 0x40, 2) := by decide
theorem test_decode_loop : decode [0x20860040, 0x00000008] = .ok (.loop { timing := .after 1 } 2 8, 2) := by decide
theorem test_decode_give : decode [0x00080001] = .ok (.give {} false 1, 1) := by decide
theorem test_decode_retire : decode [0x00070000] = .ok (.retire {}, 1) := by decide
theorem test_decode_sts : decode [0x21208004, 0xF0000000, 0x00000100] = .ok (.sts { timing := .after 1 } 0 4 .z64 none 0x100, 3) := by decide
/-- R190's table: qset q3, x5, 2. -/
theorem test_decode_qset : decode [0x00A80CA0, 0x00000002] = .ok (.qset {} 3 5 2, 2) := by decide
theorem test_decode_cp_gl : decode [0x00AF10A6, 0x0040001A] = .ok (.cpGl {} 4 5 6 ⟨some .ls, some false, 8, .core, 2, none⟩, 2) := by decide
theorem test_decode_barr : decode [0x00B48100, 0x00000004] = .ok (.barr {} .ls 8 (some .core), 2) := by decide
/-- R204's table: amg.add.rel.s64.dev x1, x2, x3: FMT 11, SCOPE 2, ORD 2, OP 1. -/
theorem test_decode_amg : decode [0x00B90443, 0xB0004021] = .ok (.amg {} 1 2 3 ⟨.add, .s64, .rne, false, 0, .rel .dev⟩, 2) := by decide
theorem test_decode_flue : decode [0x003B1000] = .ok (.flueFree {} 4 false, 1) := by decide
/-- R206's table: lgath.bind.dev x1, x2, x3, tag 5, channel 1. -/
theorem test_decode_lgath : decode [0x013D0443, 0x00004041, 0x01400000] = .ok (.lgath {} 1 2 3 ⟨.bind, none, none, 0, .dev, 1, 5, 0⟩, 3) := by decide
theorem test_decode_acc : decode [0x00BD94C7, 0x00400001] = .ok (.acc {} 5 6 7 8 true, 2) := by decide
theorem test_decode_vlop3 : decode [0x00CE0C01, 0x00100096] = .ok (.vlop3 {} 3 0 1 2 0 .f64 0x96, 2) := by decide
theorem test_decode_vsplat : decode [0x40D38040, 0x10000000] = .ok (.vsplat { timing := .after 2 } 0 2 0 .f32, 2) := by decide
theorem test_decode_vst : decode [0x00D88063, 0x00280000] = .ok (.vst {} 3 3 5 0, 2) := by decide
theorem test_decode_mloadb : decode [0x01610800, 0x40000004, 0x00004000] = .ok (.mloadb {} 2 0 .e4m3 0 1 0x4000, 3) := by decide
theorem test_decode_mma : decode [0x01618860, 0x40000003, 0x007E0200] = .ok (.mma {} 2 3 0 .e4m3 .rne true true 512 0 63, 3) := by decide
theorem test_decode_mdrain : decode [0x01620880, 0x10000000, 0x007E0200] = .ok (.mdrain {} 2 4 0 .f32 .rne false false false 512 0 63, 3) := by decide
/-- R273's table: npost.rel.dev x1, x2. -/
theorem test_decode_npost : decode [0x00E90022, 0x00004001] = .ok (.npost {} 1 2 true, 2) := by decide
theorem test_decode_dsync : decode [0x006C1401] = .ok (.dsync {} 5 1, 1) := by decide
/-- R183's table: swr SRSEED, x7. -/
theorem test_decode_swr : decode [0x00F080E0, 0x0000000A] = .ok (.swr {} 7 10, 2) := by decide
/-- R185's table: tlbinv.page.dev x1, x2 of 2 MiB. -/
theorem test_decode_tlbinv : decode [0x00F20022, 0x00004004] = .ok (.tlbinv {} 1 2 .page .m2, 2) := by decide

/-! ### The manual's worked values -/

/-- R55 to R67, the worked conversions: ties, tapering, saturation, invalid inputs. -/
theorem test_tf8_conversions :
    convert .f32 .t8 .rne 0 false 0x407C0000 = (0x30, fNX) ∧ convert .f32 .t8 .rz 0 false 0x407C0000 = (0x7F, fNX) ∧
    convert .f32 .t8 .rne 0 false 0x49C00000 = (0x03, fNX) ∧ convert .f32 .t8 .rne 0 false 0x4A800000 = (0x80, fOF ||| fNX) ∧
    convert .f32 .t8 .rne 0 true 0x4A800000 = (0x01, fSAT ||| fNX) ∧ convert .f32 .t8 .rne 0 false 0xB4000000 = (0x00, fUF ||| fNX) ∧
    convert .f32 .t8 .rne 0 false 0xB4800000 = (0x00, fUF ||| fNX) ∧ convert .f32 .t8 .rna 0 false 0xB4800000 = (0x82, fNX) ∧
    convert .f32 .t8 .rne 0 false 0x80000000 = (0x00, 0) ∧ convert .f32 .t8 .rne 0 false 0x7F800000 = (0x80, fIV) ∧
    convert .f32 .t8 .rne 0 true 0x7F800000 = (0x01, fSAT) ∧ convert .t8 .f32 .rne 0 false 0x31 = (0x40A00000, 0) ∧
    convert .t8 .f32 .rne 0 false 0x80 = (0x7FC00000, fIV) := by decide
theorem test_other_conversions :
    convert .f32 .e4m3 .rne 0 false 0x43FA0000 = (0x7F, fOF ||| fNX) ∧ convert .f32 .e4m3 .rne 0 true 0x43FA0000 = (0x7E, fSAT ||| fNX) ∧
    convert .f32 .e2m1 .rne 0 false 0x40600000 = (0x6, fNX) ∧ roundE8m0 .rne 0 (floatValue .f32 0x3F400000) = (0x7E, fNX) ∧
    convert .f32 .s8 .rne 0 false 0xC0F00000 = (0xF8, fNX) ∧ convert .f32 .z8 .rne 0 false 0x43960000 = (0xFF, fIV) ∧
    convert .f32 .z8 .rne 0 true 0x43960000 = (0xFF, fSAT) := by decide
/-- R64, R65, the stochastic example: G0 steps from 1 to 0x0004_2021, and 1 + 2^-9 rounds up. -/
theorem test_stochastic_conversion :
    xorshift 1 = 0x00042021 ∧ convert .f32 .bf16 .rs 0x00042021 false 0x3F804000 = (0x3F81, fNX) ∧
    convert .f32 .bf16 .rs 0x90000000 false 0x3F804000 = (0x3F80, fNX) := by decide
/-- R259, the example: the command's words, and elements 0 and 1 of y over 40 elements of 0.5 and rows of 1.0. -/
theorem test_gemv_example :
    let c := gemvOf 0x0200800800000200000004E00E200440
    let x := leNat (List.replicate 40 0x30)
    let one : Nat → Machine.Num := fun _ => .fin false 1 1
    c.k = 40 ∧ c.m = 4 ∧ c.gb = 4 ∧ c.ne = 2 ∧
    (gemvElem c x (leNat (List.replicate 35 0x38 ++ [0x7E] ++ List.replicate 4 0x38)) one one 0).1 = 0x43738000 ∧
    (gemvElem c x (leNat (List.replicate 40 0x38)) one one 0).1 = 0x41A00000 := by decide
/-- R387, the example: the waits 0, 3, 100 and 70,000 fall into bins 0, 1, 6 and 15, with MIN 0 and MAX 70,000. -/
theorem test_monitor_example :
    let k := ((((({ cfg := 1 } : Cap).record 0).record 3).record 100).record 70000)
    k.mn = 0 ∧ k.mx = 70000 ∧ k.bins = #v[1, 1, 0, 0, 0, 0, 1, 0, 0, 0, 0, 0, 0, 0, 0, 1] := by decide
/-- R383, the sequence: lease 7, its duplicate, then 9, then the late 8. -/
theorem test_lease_sequence :
    let put (s : State) (hc seq w : Nat) : State :=
      match exec (.powerLease (BitVec.ofNat 64 seq) (BitVec.ofNat 64 w) 9000000 0) { s with hc := hc } with | .next t => t | _ => s
    let a := put State.reset 1000000 7 3600
    let b := put a 4000000 7 3600
    let c := put b 12000000 9 4000
    let d := put c 13000000 8 3000
    a.cap.expiry = some 10000000 ∧ b.cap.expiry = some 10000000 ∧ b.cap.watts = 3600 ∧ c.cap.expiry = some 21000000 ∧ d.cap.s0 = 9 ∧
      d.cap.watts = 4000 := by decide

/-! ### Single steps: a strand of core 0 with some of its x registers set has its turn in DT cycle 0 -/

/-- The state after cold reset with the issue turn of a strand of core 0. -/
def turnOf (st : StrandId) : State := { State.reset with cur := some (0, st) }
/-- As `turnOf` for X, with x1 and x2 set. -/
def withX (a b : Word) : State := (turnOf .x).updStrand 0 .x fun t => { t with x := (t.x.set 1 a).set 2 b }
/-- The state that an outcome goes on with; reset where it stops. -/
def nextOf (o : Host.Outcome State Fault Refusal) : State := match o with | .next t => t | _ => State.reset
/-- Cycle, value and flags of the x result that an instruction of X leaves in flight. -/
def xOut (i : Instr) (s : State) : Option (Nat × Word × BitVec 6) :=
  ((nextOf (exec i s)).strand 0 .x).flights.head?.map fun f => (f.w, f.res.data.setWidth 64, f.res.flags)
/-- As `xOut` on x1 = a and x2 = b. -/
def xOf (i : Instr) (a b : Word) : Option (Nat × Word × BitVec 6) := xOut i (withX a b)

theorem test_add_wraps : xOf (.add {} 3 1 2) 0xFFFFFFFFFFFFFFFF 2 = some (1, 1, 0) := by decide
theorem test_sub_wraps : xOf (.sub {} 3 1 2) 0 1 = some (1, 0xFFFFFFFFFFFFFFFF, 0) := by decide
theorem test_and : xOf (.and {} 3 1 2) 0xF0F0 0xFF00 = some (1, 0xF000, 0) := by decide
theorem test_or : xOf (.or {} 3 1 2) 0xF0F0 0xFF00 = some (1, 0xFFF0, 0) := by decide
theorem test_xor : xOf (.xor {} 3 1 2) 0xF0F0 0xFF00 = some (1, 0x0FF0, 0) := by decide
theorem test_sll_takes_six_bits : xOf (.sll {} 3 1 2) 3 0x41 = some (1, 6, 0) := by decide
theorem test_srl : xOf (.srl {} 3 1 2) 0x8000000000000000 63 = some (1, 1, 0) := by decide
theorem test_sra_copies_sign : xOf (.sra {} 3 1 2) 0x8000000000000000 62 = some (1, 0xFFFFFFFFFFFFFFFE, 0) := by decide
theorem test_addi_sign_extends : xOf (.addi {} 3 1 0xFFFFFFFF) 0 0 = some (1, 0xFFFFFFFFFFFFFFFF, 0) := by decide
theorem test_andi_sign_extends : xOf (.andi {} 3 1 0x80000000) 0xFFFFFFFFFFFFFFFF 0 = some (1, 0xFFFFFFFF80000000, 0) := by decide
theorem test_ori : xOf (.ori {} 3 1 0x0F) 0xF0 0 = some (1, 0xFF, 0) := by decide
theorem test_xori_inverts : xOf (.xori {} 3 1 0xFFFFFFFF) 0 0 = some (1, 0xFFFFFFFFFFFFFFFF, 0) := by decide
theorem test_slli : xOf (.slli {} 3 1 63) 3 0 = some (1, 0x8000000000000000, 0) := by decide
theorem test_srli : xOf (.srli {} 3 1 63) 0x8000000000000000 0 = some (1, 1, 0) := by decide
theorem test_srai : xOf (.srai {} 3 1 63) 0x8000000000000000 0 = some (1, 0xFFFFFFFFFFFFFFFF, 0) := by decide
theorem test_li_sign_extends : xOf (.li {} 3 0x80000000) 0 0 = some (1, 0xFFFFFFFF80000000, 0) := by decide
theorem test_lih_keeps_the_low_half : xOf (.lih {} 3 1 0x12345678) 0xFFFFFFFF9ABCDEF0 0 = some (1, 0x123456789ABCDEF0, 0) := by decide
theorem test_slt_signed : xOf (.slt {} 3 1 2) 0xFFFFFFFFFFFFFFFF 0 = some (1, 1, 0) := by decide
theorem test_sltu_unsigned : xOf (.sltu {} 3 1 2) 0xFFFFFFFFFFFFFFFF 0 = some (1, 0, 0) := by decide
theorem test_slti_signed : xOf (.slti {} 3 1 0xFFFFFFFF) 0xFFFFFFFFFFFFFFFE 0 = some (1, 1, 0) := by decide
theorem test_min_signed : xOf (.min {} 3 1 2) 0xFFFFFFFFFFFFFFFF 1 = some (1, 0xFFFFFFFFFFFFFFFF, 0) := by decide
theorem test_max_signed : xOf (.max {} 3 1 2) 0xFFFFFFFFFFFFFFFF 1 = some (1, 1, 0) := by decide
theorem test_minu_unsigned : xOf (.minu {} 3 1 2) 0xFFFFFFFFFFFFFFFF 1 = some (1, 1, 0) := by decide
theorem test_maxu_unsigned : xOf (.maxu {} 3 1 2) 0xFFFFFFFFFFFFFFFF 1 = some (1, 0xFFFFFFFFFFFFFFFF, 0) := by decide
theorem test_mul_low : xOf (.mul {} 3 1 2) 0x100000000 0x100000001 = some (3, 0x100000000, 0) := by decide
theorem test_mulh_signed : xOf (.mulh {} 3 1 2) 0xFFFFFFFFFFFFFFFF 2 = some (3, 0xFFFFFFFFFFFFFFFF, 0) := by decide
theorem test_mulhu_unsigned : xOf (.mulhu {} 3 1 2) 0xFFFFFFFFFFFFFFFF 2 = some (3, 1, 0) := by decide
theorem test_div_truncates : xOf (.div {} 3 1 2) 0xFFFFFFFFFFFFFFF9 2 = some (18, 0xFFFFFFFFFFFFFFFD, 0) := by decide
theorem test_div_by_zero : xOf (.div {} 3 1 2) 7 0 = some (18, 0xFFFFFFFFFFFFFFFF, 0x10) := by decide
theorem test_divu : xOf (.divu {} 3 1 2) 0xFFFFFFFFFFFFFFF9 2 = some (18, 0x7FFFFFFFFFFFFFFC, 0) := by decide
theorem test_rem_sign : xOf (.rem {} 3 1 2) 0xFFFFFFFFFFFFFFF9 2 = some (18, 0xFFFFFFFFFFFFFFFF, 0) := by decide
theorem test_rem_overflow : xOf (.rem {} 3 1 2) 0x8000000000000000 0xFFFFFFFFFFFFFFFF = some (18, 0, 0) := by decide
theorem test_remu : xOf (.remu {} 3 1 2) 0xFFFFFFFFFFFFFFF9 2 = some (18, 1, 0) := by decide
theorem test_popc : xOf (.popc {} 3 1) 0xF000000000000001 0 = some (1, 5, 0) := by decide
theorem test_dtwait_late : xOf (.dtwait {} 3 1 0) 0 0 = some (1, 1, 0) := by decide
theorem test_dtwait_ahead : xOf (.dtwait {} 3 1 0xFFFFFFFF) 6 0 = some (6, 0, 0) := by decide

/-- The position of X after an instruction on x1 = a and x2 = b. -/
def posOf (i : Instr) (a b : Word) : Nat := ((nextOf (exec i (withX a b))).strand 0 .x).pos
theorem test_beq : posOf (.beq {} 1 2 0x123) 5 5 = 0x123 := by decide
theorem test_bne : posOf (.bne {} 1 2 0x123) 5 6 = 0x123 := by decide
theorem test_blt_signed : posOf (.blt {} 1 2 0x123) 0xFFFFFFFFFFFFFFFF 0 = 0x123 := by decide
theorem test_bge_equal : posOf (.bge {} 1 2 0x123) 5 5 = 0x123 := by decide
theorem test_bltu_unsigned : posOf (.bltu {} 1 2 0x123) 0 0xFFFFFFFFFFFFFFFF = 0x123 := by decide
theorem test_bgeu_unsigned : posOf (.bgeu {} 1 2 0x123) 0xFFFFFFFFFFFFFFFF 0 = 0x123 := by decide
theorem test_bbit_clear : posOf (.bbit {} 1 63 false 0x123) 0x7FFFFFFFFFFFFFFF 0 = 0x123 := by decide
theorem test_j : posOf (.j {} 0x7FE) 0 0 = 0x7FE := by decide
theorem test_jr : posOf (.jr {} 1) 0x7FE 0 = 0x7FE := by decide
theorem test_ret : posOf (.ret {} 1) 0x7FE 0 = 0x7FE := by decide

/-- C with v1 and v2 holding one value of a format in their first four elements. -/
def withV (f : Fmt) (a b : Nat) : State :=
  (turnOf .c).updCore 0 fun k =>
    let rep (x : Nat) : VecData := (packElems f.bits ((List.range 4).map fun j => (j, x))).1
    { k with v := (k.v.set 1 (rep a)).set 2 (rep b) }
/-- Cycle, element 0 and flags of the vector result that an instruction of C leaves in flight, with only element 0 enabled by k1. -/
def vOf (f : Fmt) (i : Instr) (a b : Nat) : Option (Nat × Nat × BitVec 6) :=
  let s := (withV f a b).updCore 0 fun k => { k with k := k.k.set 1 (BitVec.ofNat 256 (2 ^ (f.bits / 8) - 1)) }
  ((nextOf (exec i s)).strand 0 .c).flights.head?.map fun g => (g.w, elem g.res.data f 0, g.res.flags)

theorem test_vadd : vOf .f32 (.vadd {} 3 1 2 1 .f32 .rne false) 0x3F800000 0x40000000 = some (4, 0x40400000, 0) := by decide +kernel
theorem test_vsub : vOf .f16 (.vsub {} 3 1 2 1 .f16 .rne false) 0x3C00 0x4000 = some (4, 0xBC00, 0) := by decide +kernel
theorem test_vmul_f64 : vOf .f64 (.vmul {} 3 1 2 1 .f64 .rne false) 0x3FF8000000000000 0x4000000000000000 = some (6, 0x4008000000000000, 0) := by decide +kernel
theorem test_vmul_saturates : vOf .s8 (.vmul {} 3 1 2 1 .s8 .rne true) 100 2 = some (3, 0x7F, 1) := by decide +kernel
theorem test_vfma : vOf .f32 (.vfma {} 3 1 2 1 1 .f32 .rne false) 0x3F800000 0x40000000 = some (4, 0x40400000, 0) := by decide +kernel
theorem test_vfnma : vOf .f32 (.vfnma {} 3 1 2 1 1 .f32 .rne false) 0x3F800000 0x40000000 = some (4, 0xBF800000, 0) := by decide +kernel
theorem test_vmax_negative_zero : vOf .f32 (.vmax {} 3 1 2 1 .f32) 0xBF800000 0x3F800000 = some (4, 0x3F800000, 0) := by decide +kernel
theorem test_vmin_signed : vOf .s16 (.vmin {} 3 1 2 1 .s16) 0xFFFF 1 = some (2, 0xFFFF, 0) := by decide +kernel
theorem test_vdiv_by_zero : vOf .f32 (.vdiv {} 3 1 2 1 .f32 .rne) 0x3F800000 0 = some (14, 0x7F800000, 0x10) := by decide +kernel
theorem test_vsqrt : vOf .f32 (.vsqrt {} 3 1 1 .f32 .rne) 0x40800000 0 = some (14, 0x40000000, 0) := by decide +kernel
theorem test_vneg_saturates : vOf .s8 (.vneg {} 3 1 1 .s8 true) 0x80 0 = some (2, 0x7F, 1) := by decide +kernel
theorem test_vsra : vOf .s16 (.vsra {} 3 1 2 1 .s16) 0x8000 15 = some (2, 0xFFFF, 0) := by decide +kernel
theorem test_vlop3_xor : vOf .f64 (.vlop3 {} 3 1 2 2 1 .f64 0xF0) 0x123 0x456 = some (2, 0x123, 0) := by decide +kernel

/-- Pops its tokens: X takes both tokens that S has pushed to it. -/
theorem test_take : ((((nextOf (exec (.take {} false 2) ((turnOf .x).updCore 0 fun k => k.updFifo (popFifo .x false) fun f => { f with toks := [{}, {}, {}] }))).core 0).fifo
    (popFifo .x false)).toks.length) = 1 := by decide +kernel
/-- give reserves its slots and pushes in the issue cycle. -/
theorem test_give : (nextOf (exec (.give {} true 3) (turnOf .x))).cal.map (fun d => (d.due, d.work)) = [(0, .push 0 .x 0 3)] := by decide +kernel
theorem test_retire : ((nextOf (exec (.retire {}) (turnOf .x))).strand 0 .x).run = .retired := by decide +kernel
theorem test_wait : ((nextOf (exec (.wait {} 7) (turnOf .x))).strand 0 .x).base = 8 := by decide +kernel
/-- A vector instruction on S is the illegal-instruction fault of kind 1 (R152, R336). -/
theorem test_vadd_on_s : (let t := (nextOf (exec (.vadd {} 3 1 2 0 .f32 .rne false) (turnOf .s))).strand 0 .s
    (t.level, t.tcause.toNat % 256, t.tinfo0)) = (true, 3, 1) := by decide +kernel
/-- idle is privileged: kind 6 at user level (R151). -/
theorem test_idle_at_user_level : (let t := (nextOf (exec (.idle {}) (turnOf .x))).strand 0 .x
    (t.level, t.tcause.toNat % 256, t.tinfo0)) = (true, 3, 6) := by decide +kernel
/-- A misaligned lds is the space-access fault in LS (R179, R336). -/
theorem test_lds_misaligned : (let t := (nextOf (exec (.lds {} 3 1 .z64 none 0) (withX 4 0))).strand 0 .x
    (t.tcause.toNat % 256, t.tinfo0, t.tinfo1, t.tepc)) = (5, 4, 0, 0) := by decide +kernel
/-- sts sends its bytes to the scratchpad, where they perform two cycles after issue (R164). -/
theorem test_sts : (nextOf (exec (.sts {} 1 2 .z16 none 8) (withX 0x100 0xABCD))).cal.map (fun d => (d.due, match d.work with
    | .ev (.storePerform a) => (a.addr, a.op) | _ => (0, .barr))) = [(2, (0x108, .write [0xCD, 0xAB]))] := by decide +kernel
/-- srd HCLK reads HC at the start of its issue cycle and delivers it two cycles later (R24, R164). -/
theorem test_srd : ((nextOf (exec (.srd {} 3 1) { turnOf .x with hc := 77 })).strand 0 .x).flights.head?.map
    (fun f => (f.w, f.res.data.setWidth 64)) = some (2, (77 : Word)) := by decide +kernel
/-- dsync on a core whose DOM0 has EN 0 is the illegal-instruction fault of kind 7 (R45). -/
theorem test_dsync_disabled : (let t := (nextOf (exec (.dsync {} 3 0) (turnOf .x))).strand 0 .x
    (t.tcause.toNat % 256, t.tinfo0)) = (3, 7) := by decide +kernel
/-- A step fetches, decodes and runs the instruction at the position: addi x5, x5, 0x40 in code line 0. -/
theorem test_step_runs_what_it_fetches : ((nextOf (step (State.reset.withFetchWord 64 0x00000040009414A0))).strand 0 .x).flights.map
    (fun f => (f.w, f.res.target, f.res.data.setWidth 64)) = [(1, .x false 5, (0x40 : Word))] := by decide +kernel

/-! ### Witnesses: states and operands that meet the hypotheses of the statements -/

/-- A check that an unstamped instruction with the demands `r` issues. -/
def goes (s : State) (c : CoreId) (st : StrandId) (h : Hdr) (r : Req) : Bool :=
  match h.timing with
  | .after _ => s.cur == some (c, st) && decide (earliest h (s.strand c st) ≤ s.now c st) && (r.illegal (s.strand c st) st h).isNone &&
      (r.unmet (s.core c) (s.strand c st) st h).isNone && r.fault.isNone && r.busy.isNone && (s.strand c st).blocked.isNone
  | .stamped _ => false
theorem issues_of {s : State} {c : CoreId} {st : StrandId} {h : Hdr} {r : Req} (g : goes s c st h r = true) : s.Issues c st h r := by
  unfold goes at g
  split at g
  · next e =>
    simp only [Bool.and_eq_true, beq_iff_eq, decide_eq_true_eq, Option.isNone_iff_eq_none] at g
    obtain ⟨⟨⟨⟨⟨⟨a, b⟩, i⟩, u⟩, f⟩, y⟩, k⟩ := g
    exact ⟨a, b, i, u, f, y, by rw [e]; simp [k]⟩
  · simp at g

/-- A placed instruction whose words stand at code line 0 of core 0, with X's issue turn. -/
def placed (nbits w : Nat) : State := State.reset.withFetchWord nbits w

theorem witness_encoding : Instr.wellFormed (.nop {}) = true := by decide
theorem witness_rejected_words :
    ((0x18 ≤ (0x000C0000 : Word32).extractLsb' 15 8 ∧ (0x000C0000 : Word32).extractLsb' 15 8 ≤ 0x1F) ∧
      0xF0 ≤ ((0x00780000 : Word32).extractLsb' 15 8).toNat) ∧
    ((0x01900000 : Word32).extractLsb' 15 8 = 0x20 ∧ ((0x01900000 : Word32).extractLsb' 23 2).toNat = 3) ∧
    ((0x00140000 : Word32).extractLsb' 15 8 = 0x28 ∧ (0x00140000 : Word32).extractLsb' 0 5 = 0 ∧ ((0x00140000 : Word32).extractLsb' 23 2).toNat = 0) ∧
    ((0x00400000 : Word32).extractLsb' 15 8 = 0x80 ∧ ((0x00400000 : Word32).extractLsb' 23 2).toNat = 0) ∧
    ((0x00200000 : Word32).extractLsb' 15 8 = 0x40 ∧ (0x00200000 : Word32).extractLsb' 0 5 = 0 ∧ ((0x00200000 : Word32).extractLsb' 23 2).toNat = 0) := by
  decide
/-- The hypotheses under which it is a strand's turn at a position (the two step statements). -/
def itsTurn (s : State) (c : CoreId) (st : StrandId) (rest : List (CoreId × StrandId)) : Prop :=
  s.inbox = [] ∧ s.power = true ∧ s.opening = none ∧ s.nextItem = none ∧ s.todo = (c, st) :: rest ∧ s.canRun c st = true ∧
  s.poisonDue c st = none ∧ (s.strand c st).trapDue = none ∧ s.interruptDue c st = none ∧ (s.strand c st).wait = none ∧
  (s.strand c st).base ≤ s.now c st
theorem witness_step_decoded : itsTurn (placed 32 0) 0 .x [] ∧
    fetchFault (((placed 32 0).core 0).store ((placed 32 0).strand 0 .x).level).1 (((placed 32 0).core 0).store ((placed 32 0).strand 0 .x).level).2
      .x ((placed 32 0).strand 0 .x).pos ((placed 32 0).strand 0 .x).reach = none ∧
    decode (fetchWords ((placed 32 0).fetchMem 0 .x) ((placed 32 0).strand 0 .x).pos) = .ok (.nop {}, 1) := by
  unfold itsTurn
  decide +kernel
/-- The placed state with X of core 0 changed. -/
def placedX (w : Nat) (f : Strand → Strand) : State := (placed 32 w).updStrand 0 .x f
/-- What a fetch of X finds at its position. -/
def badOf (s : State) : Option (Nat × Nat) :=
  fetchFault ((s.core 0).store (s.strand 0 .x).level).1 ((s.core 0).store (s.strand 0 .x).level).2 .x (s.strand 0 .x).pos (s.strand 0 .x).reach
theorem witness_bad_fetch : itsTurn (placedX 0 fun t => { t with pos := 16, reach := .jump }) 0 .x [] ∧
    badOf (placedX 0 fun t => { t with pos := 16, reach := .jump }) = some (1, 1) := by
  unfold itsTurn
  decide +kernel
theorem witness_bad_decode : itsTurn (placed 32 0x00780000) 0 .x [] ∧ badOf (placed 32 0x00780000) = none ∧
    decode (fetchWords ((placed 32 0x00780000).fetchMem 0 .x) 0) = .error 0 ∧
    (hdrOf ((placed 32 0x00780000).baseWord 0 .x) 0 none).timing = .after 0 ∧ shapeOf (((placed 32 0x00780000).baseWord 0 .x).extractLsb' 15 8) = none := by
  unfold itsTurn
  decide +kernel
/-- A code store whose line 0 belongs to X with a number of words, and whose word 1 claims two extension words. -/
def lineOf (owner count : Nat) : Mem := Mem.write [] 0 (leBytes 4 (owner * 2 ^ 30 + 0x3FFFFFF * 16 + count) ++ leBytes 8 (2 * 2 ^ 23 * 2 ^ 32))
theorem witness_code_image_kinds :
    (2048 ≤ (0x8000 / 16) ∧ 0x8000 % 16 ≠ 15) ∧ (linkOf (lineOf 0 0) 0).2.2 = 0 ∧
    ((linkOf (lineOf 1 3) 0).2.2 ≠ 0 ∧ (linkOf (lineOf 1 3) 0).1 ≠ StrandId.x.num.val) ∧
    ((linkOf (lineOf 0 3) 0).1 = StrandId.x.num.val ∧ (linkOf (lineOf 0 3) 0).2.2 ≤ 3) ∧
    ((linkOf (lineOf 0 3) 0).2.2 ≤ 1 + ((wordAt (lineOf 0 3) 0 1).extractLsb' 23 2).toNat) ∧
    1 + ((wordAt (lineOf 0 4) 0 1).extractLsb' 23 2).toNat < (linkOf (lineOf 0 4) 0).2.2 := by decide +kernel
/-- A result of X in flight whose write is due. -/
def flying : State :=
  let s := (placedX 0 fun t => { t with flights := [⟨0, 0, xResult false 3 5, true, false, true, []⟩] })
  { s with todo := [], bindings := s.bindings, cal := [⟨.hc, 0, latePrio, 0, .flight 0 .x 0⟩] }
theorem witness_first_due_work :
    ({ State.reset with cal := [⟨.hc, 0, 5, 0, .ev .hopRetry⟩] } : State).nextItem = some ⟨.hc, 0, 5, 0, .ev .hopRetry⟩ ∧
    State.reset.inbox = [] ∧ State.reset.power = true ∧ ({ State.reset with cal := [⟨.hc, 0, 5, 0, .ev .hopRetry⟩] } : State).opening = none ∧
    flying.opening = none ∧ flying.nextItem = some ⟨.hc, 0, latePrio, 0, .flight 0 .x 0⟩ ∧ flying.landing 0 .x 0 = some ⟨0, 0, xResult false 3 5, true, false, true, []⟩ := by
  decide +kernel
theorem witness_step_goes_on : (placed 32 0).gm.wf = true ∧ (match step (placed 32 0) with | .next _ => true | _ => false) = true := by decide +kernel
theorem witness_memory : Mem.wf [(3, 7)] = true ∧ (5 < 6 ∨ 6 + [(1 : Byte)].length ≤ 5) := by decide
theorem witness_has_words : (Instr.nop {}).toRaw.isSome = true := by decide
theorem witness_before_its_cycle : (Instr.nop { timing := .after 3 }).toRaw.isSome = true ∧ (turnOf .x).cur = some (0, .x) ∧
    (turnOf .x).now 0 .x < earliest { timing := .after 3 } ((turnOf .x).strand 0 .x) := by decide +kernel
theorem witness_may_not_issue :
    ((Instr.vmov {} 1 2 0 .f32).toRaw.map fun w => (strandsOf w.opc).contains .x) = some false ∧
    ((Instr.idle {}).toRaw.map fun w => privileged w.opc) = some true ∧ ((turnOf .x).strand 0 .x).level = false ∧
    earliest {} ((turnOf .x).strand 0 .x) ≤ (turnOf .x).now 0 .x := by decide +kernel
/-- Stamps behind, ahead and now; with nothing unmet, a token unmet, a fault, a resource unmet. -/
theorem witness_stamps :
    let s := (turnOf .x).updStrand 0 .x fun t => { t with base := 0 }
    let t := s.strand 0 .x
    ((0xFFFFFFFF - BitVec.ofNat 32 t.base : Word32).toInt < 0) ∧ (0 ≤ (5 - BitVec.ofNat 32 t.base : Word32).toInt) ∧
    (s.now 0 .x : Int) < t.base + (5 - BitVec.ofNat 32 t.base : Word32).toInt ∧ (t.base + (0 - BitVec.ofNat 32 t.base : Word32).toInt ≤ (s.now 0 .x : Int)) ∧
    ({} : Req).illegal t .x { timing := .stamped 0 } = none ∧ ({} : Req).unmet (s.core 0) t .x { timing := .stamped 0 } = none ∧
    ({} : Req).unmet (s.core 0) t .x { timing := .stamped 0, pbp := true } = some (0, BitVec.ofNat 64 (fifoName (popFifo .x false)), 0) := by decide +kernel
theorem witness_unmet_waits :
    let s := turnOf .x
    let h : Hdr := { pbn := true, bound := some 0 }
    let late := s.updStrand 0 .x fun t => { t with blocked := some (0, 0, 0), level := false }
    ({} : Req).illegal (s.strand 0 .x) .x h = none ∧ (s.strand 0 .x).base + 0 ≤ s.now 0 .x ∧ (({} : Req).unmet (s.core 0) (s.strand 0 .x) .x h).isSome = true ∧
    (s.strand 0 .x).blocked = none ∧
    (let u : State := { (placedX 0 fun t => { t with blocked := some (0, 0, 0) }) with bindings := [{ placeBinding State.reset with dt := 1 }] }
     (u.strand 0 .x).blocked.isSome = true ∧ (u.strand 0 .x).base + 0 + boundOf h (u.strand 0 .x) < u.now 0 .x ∧ (u.strand 0 .x).level = false ∧
     (u.strand 0 .x).wait = none) ∧ (late.strand 0 .x).blocked.isSome = true := by decide +kernel
/-- A line whose word 0 is the last of its chain, one whose next line is 7, one with a further word; loop ends before, at and past one pass. -/
theorem witness_next_position :
    (0 % 16 + 0 + 1 < (linkOf (lineOf 0 3) 0).2.2) ∧ ((linkOf (lineOf 0 1) 0).2.2 ≤ 0 % 16 + 0 + 1 ∧ (linkOf (lineOf 0 1) 0).2.1 = 0x3FFFFFF) ∧
    (let m := Mem.write [] 0 (leBytes 4 (7 * 16 + 1)); (linkOf m 0).2.2 ≤ 0 % 16 + 0 + 1 ∧ (linkOf m 0).2.1 = 7) ∧
    (let t : Strand := { loops := [⟨0, 0, 1⟩] }; t.loops = ⟨0, 0, 1⟩ :: []) ∧ (let t : Strand := { loops := [⟨0, 0, 2⟩] }; t.loops = ⟨0, 0, 2⟩ :: []) := by
  decide +kernel
theorem witness_trap_entry : ((placed 32 0).strand 0 .x).level = false ∧ ((placed 32 0).strand 0 .x).wait = none ∧ (13 < 256) := by decide +kernel
theorem witness_double_trap : ((placedX 0 fun t => { t with level := true }).strand 0 .x).level = true ∧
    ((placedX 0 fun t => { t with level := true }).bindingOf 0).map (·.horizon) = some none := by decide +kernel
theorem witness_eret : ({ placedX 0 (fun t => { t with level := true }) with cur := some (0, .x) } : State).Issues 0 .x {} { priv := true, transfers := true } :=
  issues_of (by decide +kernel)
theorem witness_interrupts : ((turnOf .x).strand 0 .x).run ≠ .running ∧ ((placed 32 0).strand 0 .x).run = .running ∧ ((placed 32 0).strand 0 .x).ipend = none ∧
    ((placedX 0 fun t => { t with ipend := some (0, false, 1) }).strand 0 .x).ipend = some (0, false, 1) := by decide +kernel
/-- A wait of X that began in cycle 0 with a bound. -/
def waitOn (why : Why) (bound : Nat) : Wait := ⟨why, 0, bound, 0, none, [], [], false, false, 0, 0, false, 0, false, 0, .gm, 0⟩
/-- The placed state in DT cycle `n`, X in a wait. -/
def waiting (w : Wait) (n : Nat) : State := { (placedX 0 fun t => { t with wait := some w }) with bindings := [{ placeBinding State.reset with dt := n }] }
theorem witness_stall : ((waiting (waitOn (.held 2 8) 5) 6).strand 0 .x).wait = some (waitOn (.held 2 8) 5) ∧ (waitOn (.held 2 8) 5).why ≠ .idle ∧
    (waitOn (.held 2 8) 5).why ≠ .chain ∧ (waiting (waitOn (.held 2 8) 5) 5).now 0 .x ≤ 0 + 5 ∧ 0 + 5 < (waiting (waitOn (.held 2 8) 5) 6).now 0 .x ∧
    ((waiting (waitOn (.held 2 8) 5) 6).strand 0 .x).level = false := by decide +kernel
theorem witness_result : (xResult false 3 5).poison = none ∧ (xResult false 3 5).pushP = false ∧ (xResult false 3 5).pushN = false := by decide
/-! The statements about control, tokens, integers and scalar accesses. -/

/-- The placed nop with its issue turn taken. -/
def ready0 : State := { placed 32 0 with cur := some (0, .x) }
/-- The same turn for another strand of core 0. -/
def readyOn (st : StrandId) : State := { ready0.updStrand 0 st (fun t => { t with run := .running }) with cur := some (0, st) }
theorem witness_plain : (∀ st, (readyOn st).Issues 0 st {} {}) ∧ ready0.Issues 0 .x { pan := true } {} :=
  ⟨fun st => issues_of (by cases st <;> decide +kernel), issues_of (by decide +kernel)⟩
theorem witness_taken : ready0.Issues 0 .x {} { transfers := true } ∧ ready0.Issues 0 .x {} { transfers := true, writes := true } :=
  ⟨issues_of (by decide +kernel), issues_of (by decide +kernel)⟩
theorem witness_loop :
    (let s := ready0.updStrand 0 .x fun t => { t with loops := List.replicate 4 ⟨0, 0, 1⟩ }
     s.cur = some (0, .x) ∧ (s.strand 0 .x).base + 0 ≤ s.now 0 .x ∧ 4 ≤ (s.strand 0 .x).loops.length) ∧ (ready0.strand 0 .x).loops = [] ∧
    (ready0.strand 0 .x).loops.length < 4 ∧ 14 % 16 ≠ 15 ∧ 14 / 16 < ((ready0.core 0).store (ready0.strand 0 .x).level).2 ∧
    14 % 16 < (linkOf (ready0.fetchMem 0 .x) (14 / 16)).2.2 ∧ ((withX 3 0).x 0 .x 1 ≠ 0 ∧ (withX 0 0).x 0 .x 1 = 0) := by decide +kernel
theorem witness_lexit : (ready0.updStrand 0 .x fun t => { t with loops := [⟨0, 0, 2⟩] }).Issues 0 .x {} { transfers := true } ∧
    ((ready0.updStrand 0 .x fun t => { t with loops := [⟨0, 0, 2⟩] }).strand 0 .x).loops ≠ [] :=
  ⟨issues_of (by decide +kernel), by decide +kernel⟩
theorem witness_trap_due : (let u := placedX 0 fun t => { t with trapDue := some (1, (7 : BitVec 16).setWidth 64, none) }
    u.canRun 0 .x = true ∧ u.poisonDue 0 .x = none ∧ (u.strand 0 .x).trapDue = some (1, (7 : BitVec 16).setWidth 64, none)) := by decide +kernel
theorem witness_give : ready0.Issues 0 .x {} { pushes := [(pushFifo .x false, 15)] } := issues_of (by decide +kernel)
theorem witness_take : (ready0.updCore 0 fun k => k.updFifo (popFifo .x true) fun f => { f with toks := List.replicate 15 {} }).Issues 0 .x {}
    { pops := [(popFifo .x true, 15)] } := issues_of (by decide +kernel)
theorem witness_mark : (readyOn .l).Issues 0 .l {} { legal := [.l, .s] } ∧ ((readyOn .l).strand 0 .l).marks[15] < 15 + ((readyOn .l).strand 0 (markPartner .l)).marks[15] :=
  ⟨issues_of (by decide +kernel), by decide +kernel⟩
theorem witness_writes : ready0.Issues 0 .x {} { writes := true } := issues_of (by decide +kernel)
theorem witness_dtwait : 0 < ((0x7FFFFFFFFFFF : BitVec 48) - BitVec.ofNat 48 (ready0.dt 0)).toInt ∧ ((0x800000000000 : BitVec 48) - BitVec.ofNat 48 (ready0.dt 0)).toInt ≤ 0 := by
  decide +kernel
theorem witness_division : (withX 0 0).x 0 .x 2 = 0 ∧ ((withX 0x8000000000000000 0xFFFFFFFFFFFFFFFF).x 0 .x 1 = 0x8000000000000000 ∧
    (withX 0x8000000000000000 0xFFFFFFFFFFFFFFFF).x 0 .x 2 = 0xFFFFFFFFFFFFFFFF) ∧ (withX 7 2).x 0 .x 2 ≠ 0 := by decide +kernel
/-- The last naturally aligned words of the scratchpad and of the store space. -/
theorem witness_scratchpad :
    (0x3FFFF8 % 8 = 0 ∧ 0x3FFFF8 + 8 ≤ lsSize ∧ 0x3FFFF8 < lsSize ∧ ready0.earlyFault 0 0 none ((List.range 8).map fun i => (0x3FFFF8 + i, ready0.now 0 .x + 2)) = none) ∧
    (0x3FFFF8 < 2 ^ 30 ∧ 0x3FFFF8 % lsSize + 8 ≤ lsSize ∧ ready0.member 0 (psCore 0x3FFFF8) = true ∧ psCore 0x3FFFF8 = 0) ∧
    (0x3FFEF8 % 8 = 0 ∧ 0x3FFEF8 + 8 ≤ reservedCell ∧ 0x3FFEF8 % lsSize + 8 ≤ reservedCell ∧ ready0.member 0 (psCore 0x3FFEF8) = true) ∧
    (4 % 8 ≠ 0 ∧ lsSize < 0x400000 + 8 ∧ reservedCell < 0x3FFF00 + 8 ∧ 2 ^ 30 ≤ 0x40000000 ∧ ready0.member 0 (psCore 0x400000) = false) := by decide +kernel
/-! The statements about far accesses, streams, copies, objects, atomics, flue FIFOs, collectives and vectors. -/

/-- Root 0 maps the first gibibyte of GM; core 64 stands above core 0 in the same binding, with a slot for it; the archive holds object 1. -/
def rich (st : StrandId) : State :=
  let s : State := { readyOn st with bindings := [{ placeBinding State.reset with members := [0, 64] }]
                                     gm := (Mem.setWord [] 0 0x1001).setWord 0x1000 0x40000007, archive := { objects := [⟨1, 0, 2 ^ 24, [], [], true⟩] } }
  (s.updCore 0 fun k => { k with fslot := 0x1411, awake := true }).updCore 64 fun k => { k with awake := true }
/-- The same with x1, x2 and x3 of the strand set. -/
def richX (st : StrandId) (d a b : Word) : State := (rich st).updStrand 0 st fun t => { t with x := ((t.x.set 1 d).set 2 a).set 3 b }
theorem witness_far : (rich .x).Issues 0 .x {} { writes := true } ∧ (rich .x).Issues 0 .x {} {} ∧ ready0.Issues 0 .x {} { writes := true } ∧
    ((rich .x).gmFault 0 .x false 8 .read = none ∧ (rich .x).gmFault 0 .x false 8 .write = none ∧ 8 % 8 = 0 ∧ (rich .x).xmFault 0 8 8 = none ∧
      (rich .x).slotsUsed 0 .x < 16 ∧ (rich .x).inGroup 0 = false) ∧
    (ready0.gmFault 0 .x false 8 .read).isSome = true ∧ (ready0.gmFault 0 .x false 8 .write).isSome = true :=
  ⟨issues_of (by decide +kernel), issues_of (by decide +kernel), issues_of (by decide +kernel), by decide +kernel, by decide +kernel, by decide +kernel⟩
theorem witness_streams : ready0.Issues 0 .x {} { legal := [.x, .l, .s], writes := true } ∧
    (0x3FFFE0 % 32 = 0 ∧ 0x3FFFE0 + 32 ≤ lsSize ∧ ready0.earlyFault 0 0 none ((List.range 32).map fun i => (0x3FFFE0 + i, ready0.now 0 .x + 2)) = none) ∧
    (0x3FFEE0 % 32 = 0 ∧ 0x3FFEE0 + 32 ≤ reservedCell) :=
  ⟨issues_of (by decide +kernel), by decide +kernel, by decide +kernel⟩
/-- For each kind of copy a destination and a source, with 128 bytes and with none. -/
theorem witness_copies : (rich .l).Issues 0 .l {} { legal := [.l, .s] } ∧ ((rich .l).core 0).copyBusy .l = none ∧
    ([(CopyKind.ll, 0, 128), (.lp, 0, 128), (.pl, 0, 128), (.lf, lsSize, 128), (.lw, 0, 128), (.lg, 0, 128), (.gl, 0, 128), (.gg, 0, 128),
      (.lx, 0, 128), (.xl, 0, 128), (.gx, 0, 128), (.xg, 0, 128), (.al, 0, 2 ^ 40), (.ag, 0, 2 ^ 40), (.aw, 0, 2 ^ 40), (.gw, 0, 128)].all fun p =>
        [0, 128].all fun n => ((richX .l 0 0 (BitVec.ofNat 64 n)).x 0 .l 3).toNat % 2 ^ 33 == n &&
          ((rich .l).copyFault p.1 p.2.1 p.2.2 n none none none).isNone) = true ∧
    ((rich .l).copyFault .ll 0 128 128 none (some (.ls, 0x1000)) (some (.gm, 0x1000))).isNone = true :=
  ⟨issues_of (by decide +kernel), by decide +kernel, by decide +kernel, by decide +kernel⟩
theorem witness_objects : (rich .x).Issues 0 .x {} { writes := true } ∧ (rich .x).Issues 0 .x {} {} ∧ (rich .x).slotsUsed 0 .x < 16 ∧
    ([ObjSpace.ls, .ps, .gm, .xm].all fun sp => [(32, false), (16, false)].all fun p => ((rich .x).objFault 0 .x sp 0x1000 p.1 p.2 .atomic).isNone) = true ∧
    ([ObjSpace.ls, .ps, .gm, .xm].all fun sp => [32, 16].all fun n => ((rich .x).objFault 0 .x sp 0x1000 n true .read).isNone) = true ∧
    (((rich .x).objPlace 0 .ls 0x1000 .atomic).1 = .ls 0 ∧ ((rich .x).objPlace 0 .gm 0x1000 .atomic).1 = .gm) :=
  ⟨issues_of (by decide +kernel), issues_of (by decide +kernel), by decide +kernel, by decide +kernel, by decide +kernel, by decide +kernel⟩
theorem witness_atomics : (rich .x).Issues 0 .x {} { writes := true } ∧ (0x3FFEF8 % 8 = 0 ∧ 0x3FFEF8 + 8 ≤ reservedCell) ∧
    (0x103FFEF8 % 8 = 0 ∧ 0x103FFEF8 < 2 ^ 30 ∧ 0x103FFEF8 % lsSize + 8 ≤ reservedCell ∧ (rich .x).member 0 (psCore 0x103FFEF8) = true) ∧
    (rich .x).gmFault 0 .x false 8 .atomic = none ∧ ((rich .x).xmFault 0 8 8 = none ∧ (rich .x).inGroup 0 = false) ∧ (rich .x).slotsUsed 0 .x < 16 :=
  ⟨issues_of (by decide +kernel), by decide, by decide +kernel, by decide +kernel, by decide +kernel, by decide +kernel⟩
/-- An entry put ten cycles ago waits in the FIFO from above. -/
def flued (st : StrandId) : State :=
  let s := (rich st).updCore 0 fun k => { k with fromAbove := [(0, 5)] }
  { s with bindings := s.bindings.map fun b => { b with dt := 10 } }
theorem witness_flue : ((rich .s).member 0 64 = true ∧ neighbour 0 false = some 64 ∧ ((rich .s).core 64).awake = true ∧
      0 < (rich .s).freeSlots 0 false ((rich .s).dt 0)) ∧
    (rich .s).Issues 0 .s {} { legal := [.s] } ∧ (rich .s).Issues 0 .s {} { legal := [.s], writes := true } ∧
    ((flued .l).member 0 64 = true ∧ neighbour 0 (!true) = some 64 ∧ ((flued .l).core 0).visible true ((flued .l).dt 0) = some (0, 5)) ∧
    (flued .l).Issues 0 .l {} { legal := [.l], writes := true } :=
  ⟨by decide +kernel, issues_of (by decide +kernel), issues_of (by decide +kernel), by decide +kernel, issues_of (by decide +kernel)⟩
theorem witness_collectives : (rich .l).Issues 0 .l {} { legal := [.l, .s] } ∧ (rich .l).Issues 0 .l {} { legal := [.l, .s], writes := true } ∧
    (rich .l).Issues 0 .l {} { writes := true } ∧
    ([0, 128].all fun n => ((rich .l).collFault 0 128 n n none none).isNone && ((rich .l).collFault 0 128 n (n * domCount 0) none none).isNone) = true ∧
    ((rich .l).core 0).copyBusy .l = none ∧ (rich .l).inGroup 0 = false ∧ accStatus (rich .l).archive 1 0 4096 0x1000 = 0 ∧
    accStatus (rich .l).archive 0 0 4096 0x1000 = 2 :=
  ⟨issues_of (by decide +kernel), issues_of (by decide +kernel), issues_of (by decide +kernel), by decide +kernel, by decide +kernel, by decide +kernel,
    by decide +kernel, by decide +kernel⟩
/-- C's turn with a stream of four f32 elements in q1 (a scratchpad stream, or one of GM). -/
def streaming (st : StrandId) (gm : Bool) : State :=
  (rich st).updCore 0 fun k => { k with q := k.q.set 1 { w0 := BitVec.ofNat 64 (0x8000 + 1 * 2 ^ 48 + gm.toNat * 2 ^ 52), w1 := 3, w2 := 0, w3 := 0 } }
theorem witness_vectors : (rich .c).Issues 0 .c {} { legal := [.c], writes := true } ∧ (rich .c).Issues 0 .c {} { legal := [.c] } := 
  ⟨issues_of (by decide +kernel), issues_of (by decide +kernel)⟩
theorem witness_vector_memory : (streaming .c false).Issues 0 .c {} { legal := [.l, .c], writes := true } ∧
    (streaming .c true).Issues 0 .c {} { legal := [.l, .c], writes := true } ∧ (streaming .c false).Issues 0 .c {} { legal := [.s, .c] } ∧
    (streaming .c true).Issues 0 .c {} { legal := [.s, .c] } ∧
    ([false, true].all fun g => [false, true].all fun wr =>
      let s := streaming .c g
      let q := (s.core 0).rq 1
      let ps := streamPlaces ((s.core 0).rk 0) q 0
      let none' := streamPlaces ((s.core 0).rk 0) q 4
      q.space == g.toNat && (s.streamFault 1 ps wr).isNone && (s.streamFault 1 none' wr).isNone && !(loadPlaces q.fmt ps).isEmpty && (loadPlaces q.fmt none').isEmpty &&
        !(storeBytes q.fmt 0 ps).isEmpty && (storeBytes q.fmt 0 none').isEmpty && decide (s.slotsUsed 0 .c < 16)) = true ∧
    ((0x4003FF : Nat) = 1023 + 2 ^ 16 * 64 ∧ 64 % 64 = 0) ∧ ((0x6001FF : Nat) = 511 + 2 ^ 16 * 96 ∧ 96 % 32 = 0 ∧ 511 < 512) :=
  ⟨issues_of (by decide +kernel), issues_of (by decide +kernel), issues_of (by decide +kernel), issues_of (by decide +kernel), by decide +kernel, by decide, by decide⟩
/-! The statements about the range engine, system instructions and stores. -/

/-- C's turn on a range whose bands are all on, with stoker 0, a compute-capable page and q1 a stream of rows of 128 e4m3 elements. -/
def ranged : State :=
  let s := (rich .c).updCore 0 fun k => { k with bps := 0x55, q := k.q.set 1 { w0 := BitVec.ofNat 64 (0x8000 + 4 * 2 ^ 48), w1 := 127, w2 := 0, w3 := 0 } }
  { s with bindings := s.bindings.map fun b => { b with stokers := [0] }, gm := ((Mem.setWord [] 0 0x1001).setWord 0x1000 0x2001).setWord 0x2000 0x4000001F }
/-- A core's demands are met: no fault and nothing to wait for. -/
def met (r : Req) : Bool := r.fault.isNone && r.busy.isNone
theorem witness_commands : ranged.Issues 0 .c {} { legal := [.c] } ∧ met (mloadbReq 0 0 .e4m3 0 0 ranged) = true ∧
    met (mmaReq 0 1 0 .e4m3 false false 1023 0 0 ranged) = true ∧ met (mdrainReq 0 1 1023 .bf16 false 0 0 0 ranged) = true ∧
    met (mzeroReq 0 0 0 1023 ranged) = true ∧ met (nlaunchReq 0 0x2000 0 ranged) = true :=
  ⟨issues_of (by decide +kernel), by decide +kernel, by decide +kernel, by decide +kernel, by decide +kernel, by decide +kernel⟩
/-- The range in a chain of two. -/
def chained : State := ranged.updCore 0 fun k => { k with chain := some ⟨0, 2, 1⟩ }
theorem witness_reshapes : ranged.cutBusy 0 = none ∧ (ranged.core 0).chain = none ∧ chained.Issues 0 .c {} { legal := [.c] } ∧ chained.cutBusy 0 = none ∧
    (chained.core 0).chain = some ⟨0, 2, 1⟩ ∧ ranged.chainOk 0 0 (2 ^ 1) (2 ^ 0) = true ∧ chained.chainOk 0 0 (2 ^ 0) (2 ^ 0) = true ∧
    ranged.chainOk 0 0 (2 ^ 3) (2 ^ 0) = false ∧ ranged.preloading 0 = none :=
  ⟨by decide +kernel, by decide +kernel, issues_of (by decide +kernel), by decide +kernel, by decide +kernel, by decide +kernel, by decide +kernel,
    by decide +kernel, by decide +kernel⟩
/-- A strand's turn at system level. -/
def system (st : StrandId) : State := (rich st).updStrand 0 st fun t => { t with level := true }
theorem witness_registers : (rich .c).Issues 0 .c {} { legal := [.c], writes := true } ∧ (rich .x).Issues 0 .x {} { writes := true } ∧
    (rich .x).Issues 0 .x {} {} ∧ (system .x).Issues 0 .x {} { writes := true } ∧ (system .x).Issues 0 .x {} {} ∧
    sysKind 0x008 false .x false = none ∧ sysKind 0x008 true .x false = none ∧ sysKind 0x009 true .x false = none ∧
    ([0x00A, 0x00B].all fun n => [StrandId.x, .l, .c, .s].any fun st => (sysKind n true st false).isNone) = true ∧
    sysKind 0x111 true .x true = none ∧ sysKind 0x116 true .x true = none ∧ sysKind 0x11A true .x true = none :=
  ⟨issues_of (by decide +kernel), issues_of (by decide +kernel), issues_of (by decide +kernel), issues_of (by decide +kernel),
    issues_of (by decide +kernel), by decide +kernel, by decide +kernel, by decide +kernel, by decide +kernel, by decide +kernel, by decide +kernel, by decide +kernel⟩
/-- The same turn with every synchronisation domain enabled, or none. -/
def domained (w : Word) : State := (rich .x).updCore 0 fun k => { k with dom := Vector.replicate 4 w }
theorem witness_system : (domained 0x800000000000).Issues 0 .x {} { legal := dsyncStrands 1, writes := true } ∧ domEn (((domained 0x800000000000).core 0).domOf 1) = true ∧
    ((domained 0x800000000000).strand 0 .x).arrived = false ∧ (domained 0).Issues 0 .x {} { legal := dsyncStrands 1, writes := true } ∧
    domEn (((domained 0).core 0).domOf 1) = false ∧ (dsyncStrands 1).contains .x = true ∧ (system .x).Issues 0 .x {} { priv := true } ∧
    (system .x).Issues 0 .x {} { priv := true, writes := true } ∧ (system .x).ctxStatus 0 0 0x1000 = 0 ∧ (system .x).ctxStatus 0 256 0 = 3 :=
  ⟨issues_of (by decide +kernel), by decide +kernel, by decide +kernel, issues_of (by decide +kernel), by decide +kernel, by decide +kernel,
    issues_of (by decide +kernel), issues_of (by decide +kernel), by decide +kernel, by decide +kernel⟩
theorem witness_stores : [(1 : Byte)] ≠ [] ∧ (ready0.core 0).ls.wf = true ∧ ready0.watched (.ls 0) 0x40 1 = [] ∧ ready0.watched .gm (2 ^ 40 - 1) 1 = [] ∧
    (let u := ready0.updCore 0 fun k => { k with used := [1] }; u.watched (.ls 0) 0x40 1 = [] ∧ ∃ b ∈ banksOf 0x40 1, b ∈ (u.core 0).used) ∧
    (∀ b ∈ banksOf 0x40 1, b ∉ (ready0.core 0).used) ∧ bankOf 0x40 ∉ (ready0.core 0).used ∧ leBytes 8 (5 : Word).toNat ≠ [] ∧
    ready0.watched (.ls 0) 0x40 8 = [] ∧ ready0.gm.wf = true ∧ (∀ b, ready0.bindingOf 0 = some b → b.cg = false) ∧ ready0.portOf 0 = [] := by decide +kernel
/-- Demands with a fault, and with a resource that is not free, at a stamp. -/
theorem witness_stamped_faults :
    let s := turnOf .x
    let t := s.strand 0 .x
    let r : Req := { fault := some { cause := 5, epc := 0 } }
    let b : Req := { busy := some (4, 0, 0) }
    r.illegal t .x { timing := .stamped 0 } = none ∧ r.unmet (s.core 0) t .x { timing := .stamped 0 } = none ∧ r.fault = some { cause := 5, epc := 0 } ∧
    b.illegal t .x { timing := .stamped 0 } = none ∧ b.unmet (s.core 0) t .x { timing := .stamped 0 } = none ∧ b.fault = none ∧ b.busy = some (4, 0, 0) := by
  decide +kernel
/-- An outer trap's frame, and a latch of a result. -/
def someFrame : Frame := ⟨1, 2, 3, 4, 5, 6, 7, []⟩
def someLatch : Latch := ⟨1, ⟨0, 5, xResult false 3 5, true, false, true, []⟩⟩
theorem witness_eret_frames :
    (let s : State := { placedX 0 (fun t => { t with level := true, frames := [someFrame], latches := [someLatch] }) with cur := some (0, .x) }
     s.Issues 0 .x {} { priv := true, transfers := true } ∧ (s.strand 0 .x).frames = someFrame :: [] ∧ someLatch ∈ (s.strand 0 .x).latches) ∧
    (let s : State := { placedX 0 (fun t => { t with level := true, latches := [someLatch] }) with cur := some (0, .x) }
     s.Issues 0 .x {} { priv := true, transfers := true } ∧ (s.strand 0 .x).frames = [] ∧ someLatch ∈ (s.strand 0 .x).latches) :=
  ⟨⟨issues_of (by decide +kernel), by decide +kernel⟩, ⟨issues_of (by decide +kernel), by decide +kernel⟩⟩
theorem witness_turns : (waitOn (.held 2 8) 5).why ≠ .dtime ∧ (xResult false 3 5).stoch = [] ∧
    ((ready0.updStrand 0 .x fun t => { t with run := .retired }).strand 0 .x).run = .retired ∧
    ((ready0.updStrand 0 .x fun t => { t with level := true, wait := some (waitOn .dtime 0) }).strand 0 .x).wait = some (waitOn .dtime 0) ∧
    (system .x).Issues 0 .x {} { writes := true } ∧ ((system .x).strand 0 .x).level = true := 
  ⟨by decide, by decide, by decide +kernel, by decide +kernel, issues_of (by decide +kernel), by decide +kernel⟩
/-- L, or S, where its partner has marked tag 15 that many times. -/
def markedBy (st p : StrandId) (n : Nat) : State := (readyOn st).updStrand 0 p fun t => { t with marks := Vector.replicate 16 n }
theorem witness_marks : (∀ n ∈ [0, 1], (markedBy .l .s n).Issues 0 .l {} { legal := [.l, .s] } ∧ (markedBy .s .l n).Issues 0 .s {} { legal := [.l, .s] }) ∧
    ((markedBy .l .s 0).strand 0 .s).marks[15] < ((markedBy .l .s 0).strand 0 .l).marks[15] + 1 ∧
    ((markedBy .l .s 1).strand 0 .l).marks[15] + 1 ≤ ((markedBy .l .s 1).strand 0 .s).marks[15] ∧
    (let s := (markedBy .l .s 0).updStrand 0 .l fun t => { t with marks := Vector.replicate 16 14 }
     s.Issues 0 .l {} { legal := [.l, .s] } ∧ (s.strand 0 .l).marks[15] + 1 ≤ 15 + (s.strand 0 .s).marks[15]) := by
  refine ⟨fun n hn => ?_, by decide +kernel, by decide +kernel, issues_of (by decide +kernel), by decide +kernel⟩
  simp only [List.mem_cons, List.not_mem_nil, or_false] at hn
  rcases hn with rfl | rfl <;> exact ⟨issues_of (by decide +kernel), issues_of (by decide +kernel)⟩
/-- X in a tfence, its overflow flag set, and enabled or not. -/
def fenced (en : Bool) : Strand := { ({} : Strand) with wait := some (waitOn .tfence 5), fcsr := if en then 0x404 else 0x004 }
theorem witness_tfence :
    (let f := (fenced true).fcsr.toNat; (f / 2 ^ 8 % 2 ^ 6) &&& (f % 2 ^ 6) ≠ 0) ∧ (let f := (fenced false).fcsr.toNat; (f / 2 ^ 8 % 2 ^ 6) &&& (f % 2 ^ 6) = 0) ∧
    ((ready0.updStrand 0 .x fun _ => fenced true).strand 0 .x).wait = some (waitOn .tfence 5) := by decide +kernel
/-- The same FIFOs without a slot for the pair. -/
def slotless (st : StrandId) : State := (rich st).updCore 0 fun k => { k with fslot := 0 }
theorem witness_flue_slots :
    (∃ i < 8, slotOf ((rich .s).core 0).fslot (layerOf 0) (layerOf 64) i = true) ∧ (rich .s).member 0 64 = true ∧
    (∃ i < 8, slotOf ((flued .l).core 0).fslot (layerOf 64) (layerOf 0) i = true) ∧
    (¬∃ i < 8, slotOf ((slotless .s).core 0).fslot (layerOf 0) (layerOf 64) i = true) ∧
    (¬∃ i < 8, slotOf ((slotless .l).core 0).fslot (layerOf 64) (layerOf 0) i = true) ∧
    (slotless .s).Issues 0 .s {} { legal := [.s] } ∧ (slotless .s).Issues 0 .s {} { legal := [.s], writes := true } ∧
    (slotless .l).Issues 0 .l {} { legal := [.l], writes := true } := by
  refine ⟨by decide +kernel, by decide +kernel, by decide +kernel, by decide +kernel, by decide +kernel, issues_of (by decide +kernel),
    issues_of (by decide +kernel), issues_of (by decide +kernel)⟩
theorem witness_acc : ((richX .l 0 0 0x100000000).x 0 .l 3).toNat % 2 ^ 33 ≤ 2 ^ 32 ∧ (rich .l).inGroup 0 = false := by decide +kernel
/-! The statements about events. -/

/-- A copy of core 0 that no event has moved yet. -/
def someCopy : Copy :=
  { id := 0, core := 0, strand := .l, pos := 0, sys := false, kind := .ll, dst := 0, src := 128, n := 64, scope := .dev, ch := 0, cv := none, db := none
    sb := none, dt := 0, hc := 0, half := true, rd := 0, wr := 0, data := [], dlen := 64, chunk := 0, left := [], words := none, filled := false
    stopped := false, ver := 0, coll := none, formed := none, err := false, flags := [], fault := none, samples := []
    srcAt := [], barAt := none, owes := [], carry := [], halfWidth := false, entry := 0, failed := none }
/-- The placed state with that copy, changed. -/
def copying (f : Copy → Copy) : State := ready0.updCore 0 fun k => { k with copies := [f someCopy] }
/-- The placed state whose one binding is changed. -/
def bound (f : Binding → Binding) : State := { ready0 with bindings := [f (placeBinding State.reset)] }
/-- A queued command of hob 0. -/
def someCmd (op : HobOp) : HobCmd :=
  { id := 0, op := op, pos := 0, dt := 0, t0 := none, pe := 0, height := 128, pec := 0, width := 128, chain := none, row := 0, m := 1, descs := []
    rows := [], scales := [], bstate := [], tops := [], samples := [], failed := none, started := false, done := 0, needs := [], pa := 0, bfmt := none }
/-- The placed state with that command in hob 0. -/
def commanded (op : HobOp) (held : Bool) : State := ready0.updHob 0 0 fun b => { b with cmds := [someCmd op], held := held }
/-- X waits on a barrier with a limit that has passed. -/
def timed : State := ready0.updStrand 0 .x fun t => { t with wait := some (waitOn (.object 2 .ls 0 0 (some 0)) 5) }
/-- X waits for its superstep, in which it alone takes part. -/
def synced : State := { (ready0.updStrand 0 .x fun t => { t with wait := some (waitOn (.dsync 0) 5) }) with arrivals := [⟨1, 0, 0, 0, .x, 1, [], true⟩] }
/-- X waits for its invalidation. -/
def invalidating : State :=
  { (ready0.updStrand 0 .x fun t => { t with wait := some (waitOn (.unit 2 0) 5) }) with xlate := { ready0.xlate with invals := [⟨0, some (0, .x), .all, 0, 0, 12, 0⟩] } }
/-- A binding in a commit group with a shadow whose original is not the one its leaf names, drained. -/
def grouped : State :=
  let s := bound fun b => { b with cg := true, retired := [0], shadows := [⟨0, 16, 0x10000, 0x20000, 0x1000, true, 0, 0⟩] }
  s.updCore 0 fun k => { k with task := none }
theorem witness_core_events :
    (let f : Flight := ⟨0, 0, xResult false 3 5, true, false, true, []⟩
     let u := ready0.updStrand 0 .x fun t => { t with flights := [f] }
     (u.strand 0 .x).flights.find? (fun g => g.ord == (xResult false 3 5).ord && g.res.target == (xResult false 3 5).target && g.ready) = some f) ∧
    (ready0.strand 0 .x).flights = [] ∧ ready0.copy 0 = none ∧ (copying id).copy 0 = some someCopy ∧ someCopy.kind ≠ .lf ∧
    (copying fun p => { p with stopped := true }).copy 0 = some { someCopy with stopped := true } ∧
    (someCopy.stopped = false ∧ ((copying id).core 0).task.isSome = true ∧ (copying id).dt 0 < 0 + 32) ∧
    (let w := waitOn (.held 2 8) 5; ((waiting w 5).strand 0 .x).wait = some w ∧ (waiting w 5).now 0 .x ≤ 0 + 5 ∧ w.why ≠ .idle) ∧
    (∀ p ∈ ready0.places, ready0.expired p.1 p.2 = false) ∧
    (timed.places.find? (fun p => timed.expired p.1 p.2) = some (0, .x) ∧ (timed.strand 0 .x).wait = some (waitOn (.object 2 .ls 0 0 (some 0)) 5)) ∧
    ((bound fun b => { b with live := false }).binding ((bound id).bidOf 0)).map (·.live) = some false ∧
    ((synced.binding (synced.bidOf 0)).map (·.live) = some true ∧ (synced.strand 0 .x).wait = some (waitOn (.dsync 0) 5)) ∧
    ready0.xlate.invals = [] ∧ (invalidating.invalDone ⟨0, some (0, .x), .all, 0, 0, 12, 0⟩ = true ∧
      (invalidating.strand 0 .x).wait = some (waitOn (.unit 2 0) 5)) ∧
    (∀ e, State.reset.retires e = false) ∧
    ((List.finRange 256).find? (bound fun b => { b with retired := [0] }).retires = some 0 ∧ ((bound id).core 0).copies = []) ∧
    (∀ b ∈ ready0.bindings, b.cg = false) ∧
    (grouped.bindings.find? (fun b => b.cg && grouped.drained b) = grouped.bindings.head? ∧ grouped.bindings ≠ [] ∧
      grouped.bindings.all (fun b => !grouped.originalsStand b) = true) ∧
    (grouped.binding 1).any (fun b => b.cg && (b.shadowOf 0x20000).isNone && (b.shadowOf 0x100).isSome) = true ∧
    (List.finRange 256).find? (ready0.updCore 0 fun k => { k with reshape := some 0 }).reshaped = some 0 ∧
    (List.finRange 256).find? (ready0.updCore 0 fun k => { k with chaining := some 0 }).chained = some 0 ∧
    ready0.cmd 0 0 0 = none ∧ ((commanded .mzero false).cmd 0 0 0 = some (someCmd .mzero) ∧ (someCmd .mzero).limit ≤ 1 % 1024) ∧
    ((commanded (.nlaunch 0 0) true).cmd 0 0 0 = some (someCmd (.nlaunch 0 0)) ∧ (((commanded (.nlaunch 0 0) true).core 0).hob 0).held = true) := by
  decide +kernel
/-- Channel 0 of core `t` delivers that copy. -/
def opening (t : CoreId) (f : Copy → Copy) : State :=
  (copying f).updCore t fun k => { k with chans := k.chans.set 0 { k.chans[0] with act := true, queue := [(0, 0)] } }
/-- The binding at DT `n`, with slots in chimney 0. -/
def framed (n : Nat) : State := (bound fun b => { b with dt := n }).updCore 0 fun k => { k with fslot := 0x11 }
theorem witness_transfers :
    (opening 0 id).copy 0 = some someCopy ∧ (opening 0 id).delivering someCopy = true ∧
    (let p := { someCopy with kind := .lf, dst := lsSize }
     (opening 64 fun _ => p).copy 0 = some p ∧ (opening 64 fun _ => p).delivering p = true ∧ p.halfWidth = (opening 64 fun _ => p).half[(chimOf p.core).val]) ∧
    (framed 8).flueBoundary 0 = true ∧ (framed 9).flueBoundary 0 = false := by decide +kernel
/-- The arrival of X that completes its superstep. -/
def lastArrival : Arrival := ⟨1, 0, 0, 0, .x, 1, [], true⟩
theorem witness_supersteps :
    (synced.binding (synced.bidOf 0)).map (·.live) = some true ∧ synced.arrivals = [lastArrival] ∧ lastArrival.lvl = 0 ∧ lastArrival.full = true ∧
    lastArrival.core = 0 ∧ lastArrival.strand = .x ∧ lastArrival.bid = synced.bidOf 0 ∧ (synced.strand 0 .x).wait = some (waitOn (.dsync 0) 5) ∧
    (let s := synced.updStrand 0 .x fun t => { t with wait := some { waitOn (.dsync 0) 5 with dest := 31 } }
     (s.strand 0 .x).wait = some { waitOn (.dsync 0) 5 with dest := 31 } ∧ ({ waitOn (.dsync 0) 5 with dest := 31 }).dest ≠ 0) := by decide +kernel
theorem witness_ends :
    invalidating.xlate.invals = [⟨0, some (0, .x), .all, 0, 0, 12, 0⟩] ∧ (waitOn (.unit 2 0) 5).ord = 0 ∧
    (let s := copying fun p => p
     let u : State := { s with bindings := [{ placeBinding State.reset with retired := [0] }] }
     (List.finRange 256).find? (bound fun b => { b with retired := [0] }).retires = some 0 ∧ (u.core 0).copies ≠ []) ∧
    (grouped.binding 1).any (fun b => b.cg && (b.shadowOf 0x20000).isNone) = true := by decide +kernel
/-- A posted write of one byte to GM, and the placed state whose channel of that byte is free, or busy. -/
def someStore : Access := 
  { core := 0, strand := .x, seq := 0, unit := .gm, addr := 0x40000000, op := .write [1], pushP := false, pushN := false, pos := 0, sys := false, ord := 0
    posted := true, va := 0, epoch := 0, prio := effects }
theorem witness_gm_stores :
    (ready0.gm.wf = true ∧ ready0.watched .gm 0x40000000 1 = [] ∧ (∀ b, ready0.bindingOf 0 = some b → b.cg = false) ∧ ready0.portBlocked someStore = false ∧
      (ready0.serve .md (opAddrs 0x40000000 (.write [1]))).2 = true) ∧
    (let s := ready0.updStoker (channelOf 0 0x40000000) fun t => { t with busy := 1 }
     s.watched .gm 0x40000000 1 = [] ∧ s.portBlocked someStore = false ∧ (s.serve .md (opAddrs 0x40000000 (.write [1]))).2 = false) := by
  decide +kernel
/-- A group of one command, its semaphore at 0x40000010, which has one burst to read. -/
def someGroup : Group :=
  { ref := ⟨0, 0x5000, 0, 0, 1, false, 0, []⟩, ncmd := 1, slots := [], next := 0, page0 := 0x40000000, page1 := none, sem := 0x40000010, ce := 0, flags := 0
    samples := [], rows := [], shadow := [], fenced := [], fencedRows := [], conflicted := false, dirty := false, waiting := none, kill := false, last := 0
    sems := [], want := some [0x2000000], got := [] }
/-- Stoker 0, whose channel holds the page at 0x40000000, with that group, changed, over the tables of `ranged`. -/
def grouping (f : Group → Group) : State := ranged.updStoker 0 fun t => { t with group := some (f someGroup) }
/-- A header at 0x5000 of one command slot, ABORT, its semaphore at virtual address 0x10; bad when `w0` is. -/
def headed (w0 : Word) : State :=
  let s : State := { ranged with gm := ((ranged.gm.setWord 0x5000 w0).setWord 0x5018 0x10).setWord 0x5040 7 }
  s.updStoker 0 fun t => { t with queue := [⟨0x5000, 0x5000, 0, 0, 1, false, 0, []⟩] }
/-- What a judged group is: well formed or not. -/
def judged (w0 : Word) : Bool :=
  let s := headed w0
  (s.stoker 0).group.isNone && !(s.stoker 0).stopped && (s.stoker 0).queue == [⟨0x5000, 0x5000, 0, 0, 1, false, 0, []⟩] &&
    match ((s.updStoker 0 fun t => { t with queue := [] }).judgeGroup 0 ⟨0x5000, 0x5000, 0, 0, 1, false, s.hc, []⟩).2 with | .ok _ => true | .error _ => false
/-- A line of that page has an uncorrectable error. -/
def broken (s : State) : State := { s with xlate := { s.xlate with bad := [0x40000000] } }
/-- The stoker's channel is busy. -/
def busy (s : State) : State := s.updStoker 0 fun t => { t with busy := s.hc + 1 }
theorem witness_groups : judged 0x101 = true ∧ judged 0x100 = false ∧ channelOf 0 0x40000000 = 0 ∧ (ranged.stoker 0).group = none ∧ (ranged.stoker 0).queue = [] ∧
    ((grouping id).stoker 0).group = some someGroup ∧ (∀ n, ((grouping fun g => { g with next := n }).stoker 0).group = some { someGroup with next := n }) ∧
    someGroup.next < someGroup.ncmd ∧ ({ someGroup with next := 1 }).ncmd ≤ 1 ∧ (ranged.stoker 0).athr ≤ ((ranged.stoker 0).acts[5] + 15) + 1 ∧
    Traffic.rr.num.val < (ranged.stoker 0).budget.length ∧ ranged.watched .gm (0x5000 + 32) 8 = [] ∧
    ((grouping fun g => { g with kill := true }).stoker 0).group = some { someGroup with kill := true } ∧
    ((grouping fun g => { g with conflicted := true }).stoker 0).group = some { someGroup with conflicted := true } ∧
    someGroup.kill = false ∧ someGroup.conflicted = false ∧ ({ someGroup with conflicted := true }).kill = false := by
  refine ⟨by decide +kernel, by decide +kernel, by decide +kernel, by decide +kernel, by decide +kernel, by decide +kernel, fun n => ?_, by decide, by decide,
    by decide +kernel, by decide +kernel, by decide +kernel, by decide +kernel, by decide +kernel, by decide, by decide, by decide⟩
  rfl
/-- What a command finds of its burst: its channel free or not, then its bytes there or not. -/
def burstOf (s : State) : Bool × Bool :=
  let ask := s.serve .nm (([0x2000000] : List Nat).flatMap fun b => span (32 * b) 32)
  (ask.2, (ask.1.engineRead 0 someGroup (([0x2000000] : List Nat).flatMap fun b => span (32 * b) 32)).2.2.isSome)
theorem witness_bursts : (∀ s : State, ∀ bs, someGroup.want.getD bs = [0x2000000] ∧ s.pick [0x2000000] = (([0x2000000], []), s)) ∧
    burstOf (grouping id) = (true, true) ∧ burstOf (broken (grouping id)) = (true, false) ∧ (burstOf (busy (grouping id))).1 = false ∧
    ((broken (grouping id)).stoker 0).group = some someGroup ∧ ((busy (grouping id)).stoker 0).group = some someGroup :=
  ⟨fun _ _ => ⟨rfl, rfl⟩, by decide +kernel, by decide +kernel, by decide +kernel, by decide +kernel, by decide +kernel⟩
/-- What a command finds that writes one word to the page: the channel free, the row's bytes there, a shadow row free. -/
def writeOf (s : State) (g : Group) : Bool × Bool × Bool :=
  let ws := wordBytes 0x40000000 [1]
  let q := s.serve .nm (ws.map (·.1))
  let r := q.1.engineRead 0 g (q.1.rowCopies g (ws.map (·.1)))
  (q.2, r.2.2.isSome, (r.1.groupWrite r.2.1 ws).isSome)
/-- The group holds all 32 shadow rows of the bank that word lies in. -/
def fullGroup : Group := { someGroup with rows := (List.range 32).map fun j => hbmRow 0 0x40000000 + 1 + j }
theorem witness_writes_of_groups : writeOf (grouping id) someGroup = (true, true, true) ∧ (writeOf (busy (grouping id)) someGroup).1 = false ∧
    (let w := writeOf (broken (grouping id)) someGroup; w.1 = true ∧ w.2.1 = false) ∧ writeOf (grouping id) fullGroup = (true, true, false) := by
  decide +kernel
/-- The semaphore's word with a value and an error, as a SEMWAIT that names the group's own semaphore reads it. -/
def semOf (n err : Nat) : State := let s := grouping id
  { s with gm := s.gm.setWord 0x40000010 (BitVec.ofNat 64 (n + err * 2 ^ 32)) }
theorem witness_semwait :
    let p := someGroup.cmdSem (4 + 16 : BitVec 512).toNat
    let w (n err : Nat) : Word := (semOf n err).gm.word p
    (w 0 1).extractLsb' 32 8 ≠ 0 ∧ ((w 1 0).extractLsb' 32 8 = 0 ∧ ((4 + 16 : BitVec 512).extractLsb' 4 32).toNat ≤ ((w 1 0).extractLsb' 0 32).toNat) ∧
    ((w 0 0).extractLsb' 32 8 = 0 ∧ ((w 0 0).extractLsb' 0 32).toNat < ((4 + 16 : BitVec 512).extractLsb' 4 32).toNat) ∧
    ((semOf 0 0).stokerRead 0 1 (span p 8)).2.2 = false ∧ ((broken (semOf 0 0)).stokerRead 0 1 (span p 8)).2.2 = true := by decide +kernel
theorem witness_timeouts : (∀ k, State.reset.semExpired k = false) ∧
    ((List.finRange 384).find? (grouping fun g => { g with waiting := some 0 }).semExpired = some 0) ∧
    (∀ k, (State.reset.stoker k).rfm = [] ∧ (State.reset.stoker k).tenureOver 0 = false) ∧
    (let s := ranged.updStoker 3 fun t => { t with rfm := [(5, 2)] }
     (List.finRange 384).find? (fun k => !(s.stoker k).rfm.isEmpty) = some 3 ∧ (s.stoker 3).rfm = (5, 2) :: []) ∧
    (let s := ranged.updStoker 3 fun t => { t with tenure := [(5, 0)] }
     (List.finRange 384).find? (fun k => (s.stoker k).tenureOver s.hc) = some 3) := by decide +kernel
/-- An accession that waits, runs, or has ended. -/
def someAccession (started : Bool) (outcome : Option Nat) : Accession :=
  { num := 0, bid := 1, part := 0, asid := 0, root := 0, id := 1, repl := false, src := 0, n := 4096, record := 0x1000, started := started, ctrl := 0, need := 0
    blocks := [], done := 0, reloc := 0, outcome := outcome, status := none, cancelled := false, data := [], pieces := [], samples := [] }
/-- An archive with one accession. -/
def acceding (started : Bool) (outcome : Option Nat) : State := { State.reset with archive := { accs := [someAccession started outcome] } }
/-- A folio, being filled or there. -/
def someFolio (filling : Option Nat) : Folio := ⟨1, 0, 0, 0, filling, none, none, 0⟩
/-- A reading room of a size with that folio. -/
def roomed (size : Nat) : State := { State.reset with archive := { rrsize := size, folios := [someFolio (some 0)] } }
theorem witness_archive :
    64 < ((0x7F000000 : Word).extractLsb' 24 7).toNat ∧
    roomFolios (roomed 0).archive.rrsize < ((roomed 0).shrinkRoom (roomFolios (roomed 0).archive.rrsize) (roomed 0).archive.folios.length).archive.folios.length ∧
    ((roomed 1).shrinkRoom (roomFolios (roomed 1).archive.rrsize) (roomed 1).archive.folios.length).archive.folios.length ≤ roomFolios (roomed 1).archive.rrsize ∧
    State.reset.folio 1 0 0 = none ∧ (roomed 1).folio 1 0 0 = some (someFolio (some 0)) ∧
    (let u (bs : List Binding) : State := { State.reset with archive := { rrHeld := some 5 }, bindings := bs }
     (u []).archive.rrHeld = some 5 ∧ (u []).rrReady = true ∧ (u [placeBinding State.reset]).rrReady = false) ∧
    State.reset.pruneVersions.archive.nextAccession = none ∧ (acceding false none).pruneVersions.archive.nextAccession = some (someAccession false none) ∧
    archiveStacks ((acceding false none).lib.parts[(someAccession false none).part % 4]'(Nat.mod_lt _ (by decide))) ≠ [] ∧
    State.reset.archive.flying.filter (·.outcome.isSome) = [] ∧
    (acceding true (some 0)).archive.flying.filter (·.outcome.isSome) = [someAccession true (some 0)] := by decide +kernel
/-- The record of an ended accession can be written, or not. -/
theorem witness_records : 
    (let s : State := { ranged with archive := (acceding true (some 0)).archive }
     (match s.hit none 0 0 false true 0x1000 .write with | .pa _ _ => true | _ => false) = true) ∧
    (match (acceding true (some 0)).hit none 0 0 false true 0x1000 .write with | .pa _ _ => true | _ => false) = false := by decide +kernel
/-- A record of one task on one core, eligible. -/
def someRec : QRec := ⟨0, {}, 0, 0, some 0, 0, none, 0⟩
theorem witness_reports :
    (let s : State := { ranged with lib := ranged.lib }
     (match s.reportPlace 0 0x1000 .write with | some (some _) => true | _ => false) = true ∧ s.reportPlace 0 0 .atomic = some none ∧
     (match s.reportPlace 0 0x2000 .atomic with | some (some _) => true | _ => false) = true) ∧
    State.reset.boot.recovery = false ∧ domGid someRec.dom2 = 0 ∧ someRec.eligible.isSome = true ∧ (State.reset.nextBids 1).length = 1 ∧
    (State.reset.bestPlace someRec).isSome = true ∧ State.reset.freeStokers someRec.launch = some [] := by decide +kernel
/-- A binding of core 0 in preparation, whose load ends now, with an image in GM or none. -/
def preparing (mapped : Bool) (copies : List Copy) : State :=
  let l : Launch := { words := (Vector.replicate 32 0).set 3 (2 ^ 32 + 64) }
  let b := { placeBinding State.reset with relHc := none, live := false, launch := l }
  let s : State := if mapped then ranged else State.reset
  let s : State := { s with bindings := [b], cal := [] }
  s.updCore 0 fun k => { k with slot := b.slotWords 0 0 0, task := some (1, 0), prepared := false, prepAt := some 0, copies := copies }
theorem witness_preparation :
    (let cs (s : State) := (List.finRange 256).filter fun c => (s.toPrepare c).isSome
     (∀ c ∈ cs (preparing true [someCopy]), ((preparing true [someCopy]).core c).copies ≠ []) ∧ cs (preparing true [someCopy]) = [0] ∧
     (cs (preparing true [])).find? (fun c => ((preparing true []).core c).copies.isEmpty) = some 0 ∧
     (cs (preparing false [])).find? (fun c => ((preparing false []).core c).copies.isEmpty) = some 0) ∧
    ((preparing true []).toPrepare 0).any (fun b => ((preparing true []).loadBytes b.asid (b.launch.f 2 0 64) (64 * b.launch.image.1)).isSome &&
      ((preparing true []).loadBytes b.asid (b.launch.f 4 0 64) b.launch.image.2).isSome) = true ∧
    ((preparing false []).toPrepare 0).any (fun b => ((preparing false []).loadBytes b.asid (b.launch.f 2 0 64) (64 * b.launch.image.1)).isNone) = true := by
  decide +kernel
/-- A binding of core 0 ready for its release, or restored on core 1. -/
def releasing (restored : Bool) : State :=
  let b := { placeBinding State.reset with relHc := none, live := false }
  let b := if restored then { b with relHc := some 0, pace := .frozen, stopped := true, moved := [(0, 1)] } else b
  ({ State.reset with bindings := [b] }).updCore 0 fun k => { k with task := some (1, 0), prepared := true }
theorem witness_releases : (∀ e ∈ (bound id).bindings, (bound id).releases e = false) ∧
    ((releasing false).bindings.find? (releasing false).releases).any (fun b => !b.restored) = true ∧
    ((releasing true).bindings.find? (releasing true).releases).any (fun b => b.restored && (((releasing true).renameCores b).binding b.bid).isSome) = true ∧
    (∀ e ∈ (bound id).bindings, (bound id).reportable e = false) ∧
    ((bound fun b => { b with status := some 1 }).bindings.find? (bound fun b => { b with status := some 1 }).reportable).isSome = true := by decide +kernel
/-- Core 5, idle and awake since tick 0, at tick `n`, its gate asked for or not. -/
def idleCore (n : Nat) (asked : Bool) : State := ({ State.reset with hc := n }).updCore 5 fun k => { k with awake := true, gateReq := asked }
theorem witness_gates : (∀ e, (State.reset).gates e = false) ∧ (List.finRange 256).find? (idleCore 0 true).gates = some 5 ∧
    (∀ e, (idleCore 224999 false).idleLong e = false) ∧ (List.finRange 256).find? (idleCore 225000 false).idleLong = some 5 := by decide +kernel
/-- A change of the partitions that waits. -/
def changingTo (new : Vector (BitVec 4) 4) (s : State) : State := { s with lib := { s.lib with repartition := some new } }
theorem witness_partitions : State.reset.lib.repartition = none ∧ (changingTo #v[3, 12, 0, 0] State.reset).canInstall = true ∧
    (changingTo #v[12, 3, 0, 0] (bound id)).canInstall = false := by decide +kernel
/-- A message of partition 0 with an opcode and words 2 to 5. -/
def told (op : Nat) (w2 w3 w4 w5 : Word) : MgmtMsg := { part := 0, w0 := BitVec.ofNat 64 op, tag := 0, w2 := w2, w3 := w3, w4 := w4, w5 := w5, w6 := 0, w7 := 0 }
/-- The machine with that message, its queue 0 made or not. -/
def telling (m : MgmtMsg) (queue : Bool) : State := { State.reset with msg := some m, lib := { State.reset.lib with
  queues := if queue then State.reset.lib.queues.set 0 (some ⟨0, 0, 4, 0, 0, 0⟩) else State.reset.lib.queues } }
/-- A firmware image. -/
def someImage : FwImage := { bytes := [], digest := 0, signature := [], version := 1, advance := false, stripesP := 0, floor := 1000, handlers := [] }
theorem witness_messages : State.reset.msg = none ∧ (telling (told 1 0 0 0 0) false).msg = some (told 1 0 0 0 0) ∧
    (∀ op ∈ [1, 2, 3, 4, 5, 6, 7, 8, 9], msgWellFormed { told op 0 0 0 0 with w7 := 1 } op [] = false ∧ msgWellFormed (told op 0 0 0 0) op [] = true) ∧
    (∀ q, (telling q false).queue 0 = none ∧ ((telling q true).queue 0).isSome = true) ∧
    (msgWellFormed (told 1 (13 * 2 ^ 8) 0 0 0) 1 [0x0000FFFF00000F3F, 0x0000FFFFFFFFFFFF] = true ∧ 12 < ((13 * 2 ^ 8 : Word).extractLsb' 8 4).toNat) ∧
    (msgWellFormed (told 1 (12 * 2 ^ 8) 4096 0 0) 1 [0x0000FFFF00000F3F, 0x0000FFFFFFFFFFFF] = true ∧ ((12 * 2 ^ 8 : Word).extractLsb' 8 4).toNat ≤ 12) ∧
    (let once (w2 : Word) : Bool := (List.range 4).all fun q => ((List.finRange 4).filter fun i => (w2.extractLsb' (4 * i.val) 4).getLsbD q).length == 1
     msgWellFormed (told 3 0xFFFF 0 0 0) 3 [0xFFFF] = true ∧ once 0xF = true ∧ once 0xFF = false ∧ once 0 = false) ∧
    (let ok (w2 w3 : Word) : Bool := msgWellFormed (told 4 w2 w3 0 0) 4 [0x0000003FFFFF0001, BitVec.allOnes 64]
     ok 0x10000 0 = true ∧ ok 0x2000000000 1 = true ∧ ok 1 5 = true ∧ ok 0xFFFF0001 5 = true ∧ ((0xFFFF0001 : Word).extractLsb' 16 16).toNat ≠ 0) ∧
    (let m (n : Word) := told 5 1 0 n 0x1000
     let ok (n : Word) : Bool := msgWellFormed (m n) 5 [0x0000FFFF01FFFFFF, 0x0000FFFFFFFFFFFF, 0x00000001FFFFFFFF, 0x0000FFFFFFFFFFFF]
     ok 0 = true ∧ accStatus {} 1 0 0 0x1000 = 2 ∧ ok 0x100000001 = true ∧ ok 0x100000000 = true ∧ accStatus {} 1 0 0x100000000 0x1000 = 0 ∧
       accStatus { accs := List.replicate 64 (someAccession false none) } 1 0 4096 0x1000 = 1) ∧
    (let ok (w3 w4 : Word) : Bool := msgWellFormed (told 7 0 w3 w4 0) 7 [0x0000FFFF00000000, 0x0000FFFFFFFFFFFF, 0x0000FFFFFFFFFFFF]
     ok 0 0 = true ∧ ok 0xFFFFFFFFF000 0x2000 = true ∧ ok 0xFFFFFFFFF000 0x1000 = true ∧ 0xFFFFFFFFF000 + 0x1000 ≤ 2 ^ 48 ∧
       2 ^ 48 < 0xFFFFFFFFF000 + 0x2000) ∧
    ({ State.reset with img := some someImage } : State).img = some someImage ∧ State.reset.img = none ∧ State.reset.bindings = [] ∧
    (State.reset.lib.parts.toList.filter (· != 0)).length = 1 ∧ (bound id).bindings ≠ [] := by
  refine ⟨by decide +kernel, rfl, by decide, fun q => ⟨rfl, rfl⟩, ?_⟩
  decide +kernel
/-- The binding is pre-empted with a copy whose drain limit has passed, or stands with every acknowledgement made. -/
def preempting (copies : List Copy) : State :=
  let s : State := { bound (fun b => { b with preempt := true, horizon := some 8, dt := 8, pace := .frozen, live := false }) with hc := 2 ^ 40 }
  s.updCore 0 fun k => { k with copies := copies }
/-- Core 0 has an engine that ends now: a save or a load. -/
def engined (load task stopped : Bool) : State :=
  (bound fun b => { b with stopped := stopped }).updCore 0 fun k => { k with engine := some (0x1000, load, 0), task := if task then k.task else none }
theorem witness_pre_emptions : (∀ e ∈ (bound id).bindings, e.atHorizon = false) ∧
    ((bound fun b => { b with horizon := some 0 }).bindings.find? (·.atHorizon)).isSome = true ∧ State.reset.binding 1 = none ∧
    (let frozen := bound fun b => { b with pace := .frozen, live := false }
     (frozen.binding 1).any (fun b => b.pace == .frozen && b.status.isNone && frozen.inPlace b) = true) ∧
    ((bound id).binding 1).any (fun b => b.pace != .frozen && b.status.isNone && !b.preempt && b.relHc.isSome) = true ∧
    ((bound fun b => { b with status := some 1, preempt := true }).binding 1).any (fun b => b.status.isSome && b.preempt) = true ∧
    ((grouping id).stoker 0).group = some someGroup ∧
    (let due (s : State) (b : Binding) : Bool := b.members.any fun d => (s.core d).copies.any (s.squashable b)
     (∀ e ∈ (bound id).bindings, due (bound id) e = false) ∧
       (let s := preempting [{ someCopy with kind := .lg, db := some (.ls, 0) }]; (s.bindings.find? (due s)).isSome) = true) ∧
    (∀ e ∈ (bound id).bindings, (bound id).preempted e = false) ∧ ((preempting []).bindings.find? (preempting []).preempted).isSome = true ∧
    (∀ e, (bound id).engineDue false e = false ∧ (bound id).engineDue true e = false) ∧
    ((List.finRange 256).find? ((engined false true false).engineDue false) = some 0 ∧ ((engined false true false).core 0).engine = some (0x1000, false, 0)) ∧
    (engined false false false).bindingOf 0 = none ∧ (((engined false true false).bindingOf 0).map (·.stopped)) = some false ∧
    (((engined false true true).bindingOf 0).map (·.stopped)) = some true ∧ (List.finRange 256).find? ((engined true true false).engineDue true) = some 0 ∧
    ((engined true true false).core 0).task.isSome = true ∧ ((engined true false false).core 0).task = none := by decide +kernel
/-- Queue pair 0 of partition 0 and address space 0, with a registered region of 64 KiB; the page of the region has the leaf `entry`. -/
def attached (entry : Word) (recovery : Bool) : State :=
  { State.reset with gm := ((Mem.setWord [] 0 0x1001).setWord 0x1000 0x2001).setWord 0x2000 entry, boot := { State.reset.boot with recovery := recovery }
                     host := { qps := (Vector.replicate 256 none).set 0 (some ⟨false, 0, 0, false, true⟩), regions := [⟨7, 0, 0, 0, 0x10000⟩] } }
theorem witness_host : (attached 0 false).usableQp 1 = none ∧ (attached 0 false).usableQp 0 = some ⟨false, 0, 0, false, true⟩ ∧
    (let q : QPair := ⟨false, 0, 0, false, true⟩
     (∀ r, (attached 0 r).boot.recovery = r ∧ (attached 0 r).inRegion q 7 0xFFFF 2 = false ∧ (attached 0 r).inRegion q 7 0xFFFF 1 = true)) ∧
    ((attached 0 false).hostPlaces 0 .write (piecesOf 0 1) = .none ∧ (attached 0x40000027 false).hostPlaces 0 .write (piecesOf 0 1) = .shadowed 0 ∧
      (attached 0x40000007 false).hostPlaces 0 .write (piecesOf 0 1) = .pieces [(0x40000000, 1)] ∧
      (attached 0 false).hostPlaces 0 .read (piecesOf 0 1) = .none ∧
      (attached 0x40000027 false).hostPlaces 0 .read (piecesOf 0 1) = .pieces [(0x40000000, 1)]) ∧
    State.reset.badGm [0x40000000] = none ∧
    ({ State.reset with xlate := { State.reset.xlate with bad := [0x40000000] } } : State).badGm [0x4000003F] = some 0x40000000 := by
  decide +kernel
theorem witness_launch_signals : State.reset.queue 0 = none ∧
    (let l : LQueue := ⟨0, 0, 2, 0, 0, 0⟩
     let s : State := { State.reset with lib := { State.reset.lib with queues := State.reset.lib.queues.set 0 (some l) } }
     let d (imm : Word32) : Int := ((imm.setWidth 16 : BitVec 16) - l.tail).toInt
     s.queue 0 = some l ∧ d 0 ≤ 0 ∧ (0 < d 5 ∧ 2 ^ l.k < (5 - l.head).toNat) ∧ (0 < d 4 ∧ (4 - l.head).toNat ≤ 2 ^ l.k) ∧
       (0x10004 : Word32).extractLsb' 16 10 ≠ 0 ∧ (4 : Word32).extractLsb' 16 10 = 0 ∧ (0x10004 : Word32).setWidth 16 = (4 : BitVec 16)) := by decide +kernel
theorem witness_events_held :
    (let s : State := { State.reset with host := { State.reset.host with held := [(⟨1, []⟩ : Event)] } }; s.host.held = ⟨1, []⟩ :: []) ∧
    State.reset.host.held = [] := by decide +kernel
/-- A page in quarantine, with or without one that waits. -/
def quarantined (waiting : List (Nat × Nat)) : State :=
  { State.reset with xlate := { State.reset.xlate with qcur := 1, quarantine := [(0x40000000, 21, 0)], waiting := waiting } }
theorem witness_quarantine : State.reset.cleanPage = none ∧ (∀ b : Bool, (quarantined (if b then [(0, 21)] else [])).cleanPage = some (0x40000000, 21, 0)) := by
  decide +kernel
theorem witness_migrations : (match walkFrom [] 0 4 0 0 with | .error e => e == (0, 0) | .ok _ => false) = true ∧
    (let l (e : Word) : Leaf := ⟨e, 21, 0x2000⟩
     let found (e : Word) : Bool := match walkFrom (attached e false).gm 0 4 0 0 with | .ok o => o == l e | .error _ => false
     found 0x40000007 = true ∧ (attached 0x40000007 false).migratable 0 (l 0x40000007) 0x80000000 = true ∧
       (attached 0x40000007 false).migratable 0 (l 0x40000007) 0x80001000 = false) := by decide +kernel
/-- The machine in a domain of devices 0 and 3, at a tick; its domain window's first page has the leaf `entry`. -/
def joined (entry : Word) (tick : Nat) (bad : List Nat) (recovery : Bool) : State :=
  { attached entry recovery with
    hc := tick, lib := { State.reset.lib with domMembers := [0, 3] }, xlate := { State.reset.xlate with bad := bad } }
theorem witness_domains :
    (State.reset.lib.nextRec = 0 ∧ State.reset.bindings = [] ∧ State.reset.boot.recovery = false ∧ (3 : Nat) ∈ [0, 3]) ∧
    State.reset.lib.domMembers = [] ∧ (joined 0 2249 [] false).hc < (joined 0 2249 [] false).lib.lastHcCorrection + 2250 ∧
    (joined 0 2250 [] false).lib.domMembers ≠ [] ∧ (joined 0 2250 [] false).lib.lastHcCorrection + 2250 ≤ (joined 0 2250 [] false).hc ∧
    (∀ r, (joined 0 0 [] r).lib.domMembers.contains 3 = true ∧ (joined 0 0 [] r).lib.domMembers.contains 1 = false ∧ (joined 0 0 [] r).boot.recovery = r) ∧
    (let place (e : Word) := (joined e 0 [] false).hit none 0xFFFF 0 false true 0 .write
     place 0 = .fault 0 2 ∧ place 0x40000007 = .pa 0x40000000 ⟨0x40000007, 21, 0x2000⟩) ∧
    (joined 0x40000007 0 [0x40000000] false).badGm [0x40000000] = some 0x40000000 ∧ (joined 0x40000007 0 [] false).badGm [0x40000000] = none ∧
    (let s : State := { joined 0x40000007 0 [] false with choice := 1 }
     (s.serve .md [0x40000000]).2 = true ∧
       ((s.updStoker (channelOf 0 0x40000000) fun t => { t with busy := 1 }).serve .md [0x40000000]).2 = false) ∧
    remoteOp (.load 8) = none ∧ (remoteOp (.store [1])).isSome = true := by decide +kernel
/-- Island 0 changed, at a tick. -/
def islanded (tick : Nat) (f : Island → Island) : State := ({ State.reset with hc := tick } : State).updIsland 0 f
theorem witness_islands :
    ((State.reset.island 0).hop = none ∧ (State.reset.island 0).fstep = 0 ∧ ((islanded 0 fun k => { k with throttled := true, fstep := 2 }).island 0).throttled = true) ∧
    (∀ j, State.reset.hopEnds j = false ∧ State.reset.hopRetries j = false) ∧
    (List.finRange 64).find? (islanded 64 fun k => { k with hop := some 1, hopLeft := 0 }).hopEnds = some 0 ∧
    (List.finRange 64).find? (islanded 64 fun k => { k with hop := some 1, retry := true, retryLeft := 0 }).hopRetries = some 0 ∧
    (let k (n : Nat) := (islanded 0 fun k => { k with hop := some 1, hopLeft := 64, aborts := n }).island 0
     ∀ n ∈ [14, 15], (k n).hop.isSome = true ∧ (k n).retry = false ∧ (k n).aborts = n) ∧
    (1000 ≤ (1000 : Word).toNat ∧ (4500 : Word).toNat ≤ 4500 ∧ State.reset.cap.s0.toNat < (1 : Word).toNat ∧ ¬ (1000 ≤ (999 : Word).toNat)) := by
  decide +kernel
/-- Sensor 7 changed, at a tick. -/
def sensed (tick : Nat) (f : Sensor → Sensor) : State := ({ State.reset with hc := tick } : State).updSensor 7 f
theorem witness_heat :
    (let advise (s : State) (n : Fin 320) : Bool := !(s.sensor n).advised && (s.sensor n).atLeast (s.sensor n).advise
     let throttle (s : State) (n : Fin 320) : Bool := !(s.sensor n).throttling && (s.sensor n).atLeast (s.sensor n).throttle
     let shut (s : State) (n : Fin 320) : Bool := !(s.sensor n).shut && (s.sensor n).atLeast (s.sensor n).shutdown
     (∀ n, advise State.reset n = false ∧ throttle State.reset n = false ∧ shut State.reset n = false ∧ State.reset.tripEnds n = false) ∧
       (List.finRange 320).find? (advise (sensed 0 fun z => { z with temp := 95 * 16 })) = some 7 ∧
       advise (sensed 0 fun z => { z with temp := 95 * 16 - 1 }) 7 = false ∧
       (List.finRange 320).find? (throttle (sensed 0 fun z => { z with temp := 105 * 16 })) = some 7 ∧
       (List.finRange 320).find? (shut (sensed 0 fun z => { z with temp := 115 * 16 })) = some 7) ∧
    (List.finRange 320).find? (sensed 0 fun z => { z with advised := true, temp := 90 * 16 }).tripEnds = some 7 ∧
    (sensed 0 fun z => { z with advised := true, temp := 90 * 16 + 1 }).tripEnds 7 = false ∧
    (List.finRange 320).find? (sensed 2250 fun z => { z with throttling := true, cool := some 0, temp := 0 }).tripEnds = some 7 ∧
    (sensed 2249 fun z => { z with throttling := true, cool := some 0 }).tripEnds 7 = false ∧
    (∀ j, State.reset.throttleDue j = false) ∧
    (List.finRange 64).find? (islanded 2250 fun k => { k with throttled := true, thrNext := some 2250 }).throttleDue = some 0 := by decide +kernel
theorem witness_slot_writes :
    (let reserved (ws : Vector Word 8) := (List.range 8).any fun j => ws[j % 8]'(Nat.mod_lt _ (by decide)) &&& BitVec.ofNat 64 (slotReserved j) != 0
     slotValid (#v[2 ^ 63, 0, 0, 0, 0, 0, 0, 0]) = true ∧ slotValid (Vector.replicate 8 0) = false ∧ reserved (Vector.replicate 8 0) = false ∧
       reserved #v[2 ^ 63, 0, 0, 0, 0, 0, 0, 0] = false ∧ reserved #v[1, 0, 0, 0, 0, 0, 0, 0] = true) := by decide +kernel
/-! Witnesses for the further clauses: words, fetches, steps and waits. -/

theorem witness_unassigned : ∀ n ∈ [0x18, 0x48, 0x77, 0x7F, 0xB8, 0xC8], ((BitVec.ofNat 32 (n * 2 ^ 15)).extractLsb' 15 8).toNat = n ∧
    ¬(n ≤ 0x17 ∨ (0x20 ≤ n ∧ n ≤ 0x47) ∨ (0x50 ≤ n ∧ n ≤ 0x76) ∨ (0x78 ≤ n ∧ n ≤ 0x7E) ∨ (0x80 ≤ n ∧ n ≤ 0xB3) ∨
      (0xC0 ≤ n ∧ n ≤ 0xC6) ∨ (0xD0 ≤ n ∧ n ≤ 0xD4) ∨ n = 0xD8 ∨ (0xE0 ≤ n ∧ n ≤ 0xE8)) := by decide
theorem witness_reserved_field : (0x00140001 : Word32).extractLsb' 15 8 = 0x28 ∧ (0x00140001 : Word32).extractLsb' 0 5 ≠ 0 := by decide
/-- The placed state with a word at X's position, its code line lost or with a corrected error. -/
def coded (w : Word32) (lost : List Nat) (corr : List (Fin 9 × Nat)) : State :=
  (placed 32 0).updCore 0 fun k => { k with code := k.code.write 4 (leBytes 4 w.toNat), badCode := lost, corr := corr }
theorem witness_code_errors : (∀ lost : Bool, itsTurn (coded 0 (if lost then [0] else []) [(4, 0)]) 0 .x [] ∧ badOf (coded 0 (if lost then [0] else []) [(4, 0)]) = none) ∧
    decode (fetchWords ((coded 0 [0] []).fetchMem 0 .x) 0) = .ok (.nop {}, 1) ∧ decode (fetchWords ((coded 0 [] [(4, 0)]).fetchMem 0 .x) 0) = .ok (.nop {}, 1) ∧
    ((coded 0 [0] []).strand 0 .x).level = false ∧ 0 ∈ ((coded 0 [0] []).core 0).badCode := by
  unfold itsTurn
  decide +kernel
/-- A stamped word, one before its delay is over, one that may not stand on X, one with a wrong LEN that may. -/
def badWord (i : Fin 4) : Word32 := match i with | 0 => 0xE0780000 | 1 => 0x60780000 | 2 => 0x00400000 | 3 => 0x00140000
theorem witness_bad_words_met : ∀ i : Fin 4, itsTurn (coded (badWord i) [] []) 0 .x [] ∧ badOf (coded (badWord i) [] []) = none := by
  unfold itsTurn
  decide +kernel
theorem witness_bad_words :
    decode (fetchWords ((coded 0xE0780000 [] []).fetchMem 0 .x) 0) = .error 0 ∧ (hdrOf 0xE0780000 0 none).timing = .stamped 0 ∧
    decode (fetchWords ((coded 0x60780000 [] []).fetchMem 0 .x) 0) = .error 0 ∧ (hdrOf 0x60780000 0 none).timing = .after 3 ∧
    (let ws := fetchWords ((coded 0x00400000 [] []).fetchMem 0 .x) 0
     decode ws = .error 3 ∧ (shapeOf ((0x00400000 : Word32).extractLsb' 15 8)).isSome = true ∧ offStrand ws .x = true) ∧
    (let ws := fetchWords ((coded 0x00140000 [] []).fetchMem 0 .x) 0
     decode ws = .error 3 ∧ (shapeOf ((0x00140000 : Word32).extractLsb' 15 8)).isSome = true ∧ offStrand ws .x = false) := by decide +kernel
theorem witness_any_work (w : Work) : ({ State.reset with cal := [⟨.hc, 0, 5, 0, w⟩] } : State).nextItem = some ⟨.hc, 0, 5, 0, w⟩ ∧
    ({ State.reset with cal := [⟨.hc, 0, 5, 0, w⟩] } : State).opening = none := ⟨rfl, rfl⟩
theorem witness_busy_waits :
    let s := turnOf .x
    let r : Req := { busy := some (4, 0, 0) }
    r.illegal (s.strand 0 .x) .x {} = none ∧ r.unmet (s.core 0) (s.strand 0 .x) .x {} = none ∧ r.fault = none ∧ r.busy = some (4, 0, 0) ∧
    (s.strand 0 .x).base + 0 ≤ s.now 0 .x := by decide +kernel
theorem witness_ended_binding :
    (let s := bound fun b => { b with status := some 1 }
     (s.strand 0 .x).run = .running ∧ ∀ b, s.bindingOf 0 = some b → b.status.isSome = true) ∧
    ¬∀ b, (bound id).bindingOf 0 = some b → b.status.isSome = true := by
  refine ⟨by decide +kernel, fun h => ?_⟩
  have := h (placeBinding State.reset) (by decide +kernel)
  revert this
  decide +kernel
/-- A read of X in its memory queue: with a need that is not met, behind a hold, or free. -/
theorem witness_queued :
    (let n : Need := ⟨0, .l, 0, 1, false, false⟩
     let s := ready0.updStrand 0 .l fun t => { t with outs := [⟨0, false, false, .gm, []⟩] }
     (¬∀ m ∈ [n], s.met m = true) ∧ ∀ m ∈ ([] : List Need), s.met m = true) ∧
    (let o : Hold := ⟨0, 0, false, [⟨0, .l, 0, 1, false, false⟩], none, false, false, false⟩
     let s := (ready0.updStrand 0 .l fun t => { t with outs := [⟨0, false, false, .gm, []⟩] }).updStrand 0 .x fun t => { t with holds := [o] }
     o ∈ (s.strand 0 .x).holds ∧ o.start ≤ 0 ∧ s.passes o false = false ∧ s.released o = false) ∧
    (ready0.strand 0 .x).holds = [] ∧ (ready0.strand 0 .x).due = [] := by decide +kernel
/-! Accesses that fall due. -/

/-- A result of X that waits for its data. -/
def dueFlight : Flight := ⟨0, 8, xResult false 3 0, false, false, false, []⟩
/-- A read of eight bytes of core 0's scratchpad for it. -/
def dueRead : LsRead := { core := 0, strand := .x, target := 0, seq := 0, ord := 0, prio := 5, pos := 0, rounds := [(List.range 8).map fun i => (i, 0x40 + i)], sext := 0 }
/-- X with that result in flight. -/
def reading : State := ready0.updStrand 0 .x fun t => { t with flights := [dueFlight] }
theorem witness_reads_due :
    0x40 % 8 = 0 ∧ dueRead.rounds = [(List.range 8).map fun i => (i, 0x40 + i)] ∧ (reading.strand 0 .x).flight 0 = some dueFlight ∧ dueFlight.res.data = 0 ∧
    dueFlight.res.flags = 0 ∧ dueFlight.res.poison = none ∧ bankOf 0x40 ∉ (reading.core 0).used ∧
    reading.crosses (.dt (reading.bidOf 0)) 0 .x 0 0 ((List.range 8).map (0x40 + ·)) false = false ∧ (reading.core 0).bad = [] ∧
    bankOf 0x40 ∈ ((reading.updCore 0 fun k => { k with used := [bankOf 0x40] }).core 0).used := by decide +kernel
theorem witness_far_reads_due :
    let s := reading.updStrand 0 .x fun t => { t with wait := some (waitOn (.held 2 0) 5) }
    let as := (List.range 8).map (0x40000000 + ·)
    0x40000000 % 8 = 0 ∧ (List.replicate 8 0).length = 8 ∧ (s.strand 0 .x).wait = some (waitOn (.held 2 0) 5) ∧ (waitOn (.held 2 0) 5).ord = 0 ∧
    (s.strand 0 .x).flight 0 = some dueFlight ∧ (∀ b, s.bindingOf 0 = some b → b.cg = false) ∧ (s.strand 0 .x).outs = [] ∧ s.badGm as = none ∧
    (s.serve .md as).2 = true ∧ s.portWrites 0 .gm = [] := by decide +kernel
theorem witness_objects_due :
    bankOf 0x1000 ∉ (reading.core 0).used ∧ reading.crosses (reading.clock 0 .x) 0 .x 0 0 ((List.range 32).map (0x1000 + ·)) false = false ∧
    (∀ cond ∈ [0, 1, 2, 3, 4, 5, 6, 7, 9, 10], ∀ v : Bool,
      let w := { waitOn (.object 3 .ls 0x1000 (if v then 0 else 1) none) 5 with cond := cond }
      let s := ready0.updStrand 0 .x fun t => { t with wait := some w }
      (s.strand 0 .x).wait = some w ∧ w.cond ≠ 8 ∧ w.cond ≤ 10 ∧ w.why = .object 3 .ls 0x1000 (if v then 0 else 1) none) := by decide +kernel
theorem witness_bad_far_addresses :
    (2 ^ 48 ≤ 0x1000000000000 ∧ 0x1000000000000 % 8 = 0 ∧ 4 % 8 ≠ 0 ∧ 2 ^ 62 ≤ 0x4000000000000000 ∧ 2 ^ 48 < 0xFFFFFFFFFFFF + 8) ∧
    ((1 * 2 ^ 48 / 2 ^ 48 % 2 ^ 14 ≠ (rich .x).devId) ∧ (1 * 2 ^ 48 / 2 ^ 48 % 2 ^ 14) ∉ (rich .x).lib.domMembers) ∧
    (let s : State := { rich .x with bindings := (rich .x).bindings.map fun b => { b with cg := true } }
     s.inGroup 0 = true ∧ (8 : Nat) / 2 ^ 48 % 2 ^ 14 = s.devId) := by decide +kernel
/-- Every entry of L's copy unit is taken. -/
def full (n : Nat) : State := (rich .l).updCore 0 fun k => { k with copies := List.replicate n someCopy }
theorem witness_copy_unit_full : ((full 95).core 0).copyBusy .l = none ∧ (((full 96).core 0).copyBusy .l).isSome = true ∧
    ((full 96).copyFault .ll 0 128 128 none none none).isNone = true ∧ (full 96).Issues 0 .l {} { legal := [.l, .s] } :=
  ⟨by decide +kernel, by decide +kernel, by decide +kernel, issues_of (by decide +kernel)⟩
theorem witness_cells :
    (ready0.core 0).acc.wf = true ∧ 64 + elemCount .f32 ≤ 128 ∧ 96 + elemCount .f64 ≤ 128 ∧
    (((ready0.updCore 0 fun k => { k with badAcc := [1] }).core 0).badAcc.contains 1) = true ∧ (accWords 0 0 64).contains 1 = true := by decide +kernel
/-- An atomic of X behind an older one of the same strand; a store behind an older store of the same word. -/
theorem witness_stores_behind :
    let old : Access := { someStore with unit := .ls 0, addr := 0x40, posted := false, op := .atomic ⟨.add, .s64, .rne, false, 0, .rlx⟩ 1 0 0 }
    let new : Access := { old with seq := 1 }
    let s : State := { ready0 with cal := [⟨.dt (ready0.bidOf 0), 5, old.prio, 0, .ev (.storePerform old)⟩] }
    s.atomicWaits new = true ∧ (∀ ps, new.op ≠ .scatter ps) ∧ ready0.atomicWaits new = false ∧
    s.crosses (.dt (s.bidOf 0)) 0 .x 1 0 (opAddrs 0x40 (.write [1])) true = true ∧
    ready0.crosses (.dt (ready0.bidOf 0)) 0 .x 1 0 (opAddrs 0x40 (.write [1])) true = false := by
  refine ⟨by decide +kernel, fun _ => by simp, by decide +kernel, by decide +kernel, by decide +kernel⟩
/-! Roundings. -/

/-- Between 1 and 1.5 lies no finite value of e2m1; 1.25 lies between them, and 7 past the greatest finite value, 6. -/
theorem witness_neighbours : finiteCode .e2m1 2 = true ∧ finiteCode .e2m1 3 = true ∧ magnitude .e2m1 2 < (5 : Nat) / (4 : Nat) ∧
    ((5 : Nat) / (4 : Nat) : ℚ) < magnitude .e2m1 3 ∧ magnitude .e2m1 2 = (1 : Nat) / (1 : Nat) ∧ magnitude .e2m1 (maxFinite .e2m1) < (7 : Nat) / (1 : Nat) ∧
    (∀ m < 8, magnitude .e2m1 m ≤ magnitude .e2m1 2 ∨ magnitude .e2m1 3 ≤ magnitude .e2m1 m) := by decide +kernel
theorem witness_no_code_between (m : Nat) (h : finiteCode .e2m1 m = true) :
    magnitude .e2m1 m ≤ magnitude .e2m1 2 ∨ magnitude .e2m1 3 ≤ magnitude .e2m1 m := by
  unfold finiteCode at h
  rw [Bool.and_eq_true] at h
  exact witness_neighbours.2.2.2.2.2.2 m (of_decide_eq_true h.1)
theorem witness_integers : Fmt.s8.isI = true ∧ Fmt.z16.isI = true ∧ intMin .s8 ≤ 5 ∧ (5 : Int) ≤ intMax .s8 ∧ (intMax .s8 : Int) < 200 ∧ (-200 : Int) < intMin .s8 := by
  decide
theorem witness_bounded_specials :
    (floatValue .f32 0x7FC00000 = .nan ∧ floatValue .f32 0x7F800000 = .inf false ∧ floatValue .f32 0xFF800000 = .inf true) ∧
    (∃ d, floatValue .f32 0x80000000 = .fin true 0 d) ∧ (∃ n d, floatValue .f32 0xBF800000 = .fin true n d ∧ 0 < n) ∧
    0x3F800000 = signBit .f32 false + fpBias .f32 * 2 ^ fracBits .f32 ∧
    (∃ n d, floatValue .f32 0x41000000 = .fin false n d ∧ (n / d : ℚ) = 2 ^ (3 : Int)) ∧
    (∃ n d, floatValue .f32 0xC0000000 = .fin true n d ∧ -(n / d : ℚ) = (-2 : Int)) ∧ finiteCode .f32 0x3E800000 = true ∧
    magnitude .f32 0x3E800000 = 2 ^ (-2 : Int) := by
  refine ⟨by decide +kernel, ⟨_, rfl⟩, ⟨_, _, rfl, by decide +kernel⟩, by decide +kernel, ⟨_, _, rfl, by decide +kernel⟩, ⟨_, _, rfl, by decide +kernel⟩,
    by decide +kernel, by decide +kernel⟩
theorem witness_bounded_results : ∃ e, bounded .exp (floatValue .f32 0x40000000) = .encl e ∧ 0 < e.den ∧
    candidates .f32 .rne (halfUlps .exp (floatValue .f32 0x40000000)) e ≠ [] :=
  ⟨_, rfl, by decide +kernel, by decide +kernel⟩
/-- SHA3-256 of the empty message, as FIPS 202's own example gives it. -/
theorem test_sha3_of_nothing : sha3 [] = 0x4a43f8804b0ad882fa493be44dff80f562d661a05647c15166d71ebff8c6ffa7 := by decide +kernel
/-! Chunks, queued commands and shadows. -/

/-- The copy with its chunk located in one word. -/
def located : Copy := { someCopy with words := some [(0, 0, 1)] }
/-- The binding at DT `n`, whose core 0 has that copy, changed. -/
def chunked (n : Nat) (f : Copy → Copy) : State :=
  (bound fun b => { b with dt := n }).updCore 0 fun k => { k with copies := [f located] }
theorem witness_chunks :
    ((chunked 32 id).copy 0 = some located ∧ located.stopped = false ∧ (chunked 32 id).stretched located = false ∧ located.kind ≠ .lx ∧ located.kind ≠ .gx) ∧
    ((chunked 2 id).hasLeft located = true ∧ (chunked 1 id).hasLeft located = false ∧ (chunked 32 id).agedCopy located = true ∧
      (chunked 31 id).agedCopy located = false ∧ ((chunked 32 id).updIsland 0 fun k => { k with held := true }).stretched located = true) ∧
    (let ok (b : Option (ObjSpace × Nat)) (p : Copy) : Bool := match (chunked 32 id).openChunk p b with | (_, .ok q) => q.words == some [(0, 0, 1)] | _ => false
     ok located.sb located = true ∧ ok (some (.gm, 0)) located = true) ∧
    (let p := { someCopy with kind := .gl, db := some (.gm, 0x40) }
     (match (chunked 32 fun _ => p).openChunk p p.db with | (_, .error _) => true | _ => false) = true) ∧
    (({ located with err := true } : Copy).err = true ∧ (opening 0 fun _ => { located with err := true }).delivering { located with err := true } = true) := by
  decide +kernel
theorem witness_chunk_words :
    (let s := chunked 32 id
     let read (s : State) : Bool × Bool × Bool := match (s.readWords located [(0, 0, 1)]).2 with
       | .bytes _ => (true, false, false) | .wait => (false, true, false) | .stop => (false, false, true)
     read s = (true, false, false) ∧ read (s.updCore 0 fun k => { k with used := [0] }) = (false, true, false) ∧
       read (s.updCore 0 fun k => { k with bad := [0] }) = (false, false, true)) ∧
    (let p := { located with kind := .gl }
     (∀ b, (chunked 32 fun _ => p).bindingOf 0 = some b → b.cg = false) ∧ ((chunked 32 fun _ => p).serve .md [0]).2 = true ∧
       (chunked 32 fun _ => p).badGm [0] = none) ∧
    (let p := { located with kind := .gl }
     let s := (opening 0 fun _ => p)
     s.delivering p = true ∧ (s.writeWords p [((0, 0, 1), [7])]).2 = true ∧
       ((s.updCore 0 fun k => { k with used := [0] }).writeWords p [((0, 0, 1), [7])]).2 = false ∧ s.watched (.ls 0) 0 1 = []) ∧
    (let p := { located with kind := .lg }
     let s := chunked 32 fun _ => p
     s.watched .gm 0 1 = [] ∧ (s.serve .md [0]).2 = true ∧ ((s.updStoker (channelOf 0 0) fun t => { t with busy := 1 }).serve .md [0]).2 = false) := by
  decide +kernel
/-- An invalidation of the Librarian's own, and a migration that waits for it, or none. -/
def migrating (waits : Bool) (stage : Nat) : State :=
  { ready0 with xlate := { ready0.xlate with
    invals := [⟨0, none, .page, 0, 0, 21, 0⟩]
    migrations := if waits then [⟨0, 0, 21, 0x2000, 0x40000000, 0x80000000, true, stage, 0⟩] else [] } }
theorem witness_own_invalidations : (∀ w : Bool, (migrating w 1).xlate.invals = [⟨0, none, .page, 0, 0, 21, 0⟩] ∧
      (migrating w 1).invalDone ⟨0, none, .page, 0, 0, 21, 0⟩ = true) ∧
    ((migrating true 1).xlate.migrations.find? fun g => g.inval == 0).isSome = true ∧ (∀ g ∈ (migrating false 1).xlate.migrations, g.inval ≠ 0) := by
  decide +kernel
/-- The binding in a commit group with those shadows, its task over. -/
def shadowing (hs : List Shadow) : State :=
  (bound fun b => { b with cg := true, retired := [0], shadows := hs }).updCore 0 fun k => { k with task := none }
theorem witness_swaps :
    (let due (hs : List Shadow) (stand : Bool) : Bool :=
       ((shadowing hs).bindings.find? (shadowing hs).swapDue).any fun b => (shadowing hs).originalsStand b == stand && b.shadows == hs
     due [] true = true ∧ due [⟨0, 16, 0, 0x20000, 0x1000, true, 0, 0⟩] true = true ∧ due [⟨0, 16, 0x10000, 0x20000, 0x1000, true, 0, 0⟩] false = true) := by
  decide +kernel
/-- A running member of a commit group whose page at 0 has that shadow; an invalidation with number 0 is in progress or not. -/
def shaded (cg filled opened : Bool) : State :=
  let s := bound fun b => { b with cg := cg, shadows := [⟨0, 16, 0x10000, 0x20000, 0x1000, filled, 0, 0⟩] }
  { s with xlate := { s.xlate with invals := if opened then [⟨0, none, .page, 0, 0, 16, 0⟩] else [] } }
theorem witness_fills :
    (let b (cg filled opened : Bool) (p : Binding → Bool) : Bool := ((shaded cg filled opened).binding 1).any fun b => b.cg == cg && b.status.isNone && p b
     let open' (opened : Bool) : Bool := (shaded true false opened).xlate.invals.any fun i => i.issuer.isNone && i.id == 0
     let is (f : Bool) (b : Binding) : Bool := b.shadowOf 0 == some ⟨0, 16, 0x10000, 0x20000, 0x1000, f, 0, 0⟩
     b false false false (fun _ => true) = true ∧ b true false false (fun b => (b.shadowOf 0x10000).isNone) = true ∧ b true true false (is true) = true ∧
       b true false true (is false) = true ∧ b true false false (is false) = true ∧ open' true = true ∧ open' false = false) := by decide +kernel
/-- A binding whose root maps a page with the leaf `entry`, with a quota of shadow pages; the pool holds one page of 2 MiB for partition 0. -/
def pooled (entry : Word) (quota : Nat) : State :=
  let l : Launch := { words := (Vector.replicate 32 0).set 21 (BitVec.ofNat 64 quota) }
  { attached entry false with
    bindings := [{ placeBinding State.reset with cg := true, launch := l }]
    lib := { State.reset.lib with poolStripes := [(2, 0)] }
    xlate := { State.reset.xlate with pool := [(0x80000000, 21)] } }
theorem witness_pool :
    (let leaf (e : Word) (s : State) : Option Nat := match walkFrom s.gm 0 4 0 0 with | .ok l => if l.entry == e then some l.bits else none | _ => none
     leaf 0x40000007 (pooled 0x40000007 32) = some 21 ∧
       ((pooled 0x40000007 32).binding 1).any (fun b => b.root == 0 && b.part == 0 && b.quota == 0 && Word.bits b.launch.words[21] 0 24 == 32) = true ∧
       ((pooled 0x40000007 31).binding 1).any (fun b => decide (Word.bits b.launch.words[21] 0 24 < b.quota + 32)) = true ∧
       ((pooled 0x40000007 32).xlate.pool.find? fun p => p.2 == 21 && assocGet (pooled 0x40000007 32).lib.poolStripes (p.1 / 2 ^ 30) == some 0) =
         some (0x80000000, 21)) ∧
    (let s : State := { State.reset with gm := (Mem.setWord [] 0 0x1001).setWord 0x1000 0x40000007 }
     (match walkFrom s.gm 0 4 0 0 with | .ok l => l.bits == 30 | _ => false) = true) := by decide +kernel
/-- A drain's one row to core 0's scratchpad. -/
def draining : State := ready0.updHob 0 0 fun b => { b with cmds := [{ someCmd (.mdrain .f32 .rne false false false) with descs := [(0, {})], width := 1 }] }
theorem witness_rows :
    (draining.cmd 0 0 0).any (fun m => m.epilogue 0 (0 / 1024) == 0 && decide (0 % 1024 < m.limit)) = true ∧
    (∀ b ∈ banksOf (({} : Desc).row 0).toNat ({} : Desc).rowBytes, b ∉ (draining.core 0).used) ∧
    (∃ b ∈ banksOf (({} : Desc).row 0).toNat ({} : Desc).rowBytes, b ∈ ((draining.updCore 0 fun k => { k with used := List.range 32 }).core 0).used) ∧
    (∀ n ∈ [0, 1, 64], draining.watched (.ls 0) 0 n = []) := by decide +kernel
/-- A launch at the head of hob 0 for slot 0 of the binding, which has stoker 0 whose queue holds `n` groups; another need of it is met or not; C is
held by its walk or not. -/
def launching (n : Nat) (unmet walks : Bool) : State :=
  let m := { someCmd (.nlaunch 0 0x5000) with needs := if unmet then [⟨0, .l, 0, 1, false, false⟩] else [] }
  let s := ranged.updHob 0 0 fun b => { b with cmds := [m] }
  let s := s.updStoker 0 fun t => { t with queue := List.replicate n ⟨0, 0, 0, 0, 1, false, 0, []⟩ }
  let s := s.updStrand 0 .l fun t => { t with outs := [⟨0, false, false, .gm, []⟩] }
  if walks then s.updStrand 0 .c fun t => { t with wait := some (waitOn (.unit 2 0) 5) } else s
theorem witness_launches :
    (let m (s : State) (p : HobCmd → Bool) : Bool := (s.cmd 0 0 0).any p
     let met (s : State) (m : HobCmd) : Bool := m.needs.all s.met
     let s := launching 15 false false
     s.slotStoker 0 0 = some 0 ∧ ((s.core 0).hob 0).held = false ∧ (((s.core 0).hob 0).cmds.all fun n => decide (0 ≤ n.id) || n.started) = true ∧
       m s (fun m => !s.walking 0 m && met s m) = true ∧ (s.stoker 0).queue.length < 16 ∧ 16 ≤ ((launching 16 false false).stoker 0).queue.length ∧
       m (launching 0 true false) (fun m => !met (launching 0 true false) m) = true ∧ m (launching 0 false true) ((launching 0 false true).walking 0) = true ∧
       ready0.slotStoker 0 0 = none) := by decide +kernel
theorem witness_retiring_slots : ((bound fun b => { b with retired := [0], fslot := 0x11 }).bindingOf 0).any (fun b =>
    b.status.isNone && b.relHc.isSome && b.fslot != 0 && b.members.all fun e => decide (e = 0) || b.retired.contains e) = true := by decide +kernel
/-! Channels, engines and the reading room. -/

/-- Stoker 0 with a group, told to stop. -/
def halted : State := (grouping id).updStoker 0 fun t => { t with halt := true }
theorem witness_halts : (halted.stoker 0).halt = true ∧ ((grouping id).stoker 0).halt = false ∧
    ((ranged.updStoker 0 fun t => { t with stopped := true }).stoker 0).stopped = true ∧
    (let q (s : State) : Bool := (s.serve .nm (s.imageAddrs ⟨0x5000, 0x5000, 0, 0, 1, false, 0, []⟩)).2
     q (headed 0x101) = true ∧ q ((headed 0x101).updStoker (channelOf 0 0x5000) fun t => { t with busy := 1 }) = false) := by decide +kernel
theorem witness_channels :
    (let t : Stoker := {}
     t.admits 0 .md false [3] = true ∧ (0 < ({ t with busy := 1 } : Stoker).busy) ∧ ({ t with rfm := [(3, 1)] } : Stoker).resting 0 3 = true ∧
       ({ t with paused := [(3, 1)] } : Stoker).resting 0 3 = true ∧ ({ t with tenure := [(3, 9)] } : Stoker).inTenure 3 = true ∧
       (t.inTenure 3 = false ∧ ({ t with bankAsks := [(3, 1)] } : Stoker).bankAsked 0 3 = true) ∧
       t.athr ≤ ({ t with acts := Vector.replicate 32 t.athr } : Stoker).acts[3] + 1) := by decide +kernel
/-- What a command finds that asks its channel for the engines: served or not, then its burst's bytes there or not. -/
def askedOf (s : State) : Bool × Bool :=
  let now := ([0x2000000] : List Nat).flatMap fun b => span (32 * b) 32
  let ask := s.serveEngine now
  (ask.2, (ask.1.engineRead 0 someGroup now).2.2.isSome)
theorem witness_engine_bursts : askedOf (grouping id) = (true, true) ∧ askedOf (broken (grouping id)) = (true, false) ∧
    (askedOf (busy (grouping id))).1 = false := by decide +kernel
/-- What a command finds that writes one word to the page through the engines. -/
def enginedOf (s : State) (g : Group) : Bool × Bool × Bool :=
  let ws := wordBytes 0x40000000 [1]
  let q := s.serveEngine (ws.map (·.1))
  let r := q.1.engineRead 0 g (q.1.rowCopies g (ws.map (·.1)))
  (q.2, r.2.2.isSome, (r.1.groupWrite r.2.1 ws).isSome)
theorem witness_engine_writes : enginedOf (grouping id) someGroup = (true, true, true) ∧ (enginedOf (busy (grouping id)) someGroup).1 = false ∧
    (let w := enginedOf (broken (grouping id)) someGroup; w.1 = true ∧ w.2.1 = false) ∧ enginedOf (grouping id) fullGroup = (true, true, false) := by
  decide +kernel
theorem witness_semaphores :
    (let p := someGroup.cmdSem (4 + 16 : BitVec 512).toNat
     let q (s : State) : Bool := (s.serve .nm (span p 8)).2
     q (semOf 0 0) = true ∧ q (busy (semOf 0 0)) = false ∧
       (((semOf 0 0).serve .nm (span p 8)).1.stokerRead 0 1 (span p 8)).2.2 = false ∧
       (((broken (semOf 0 0)).serve .nm (span p 8)).1.stokerRead 0 1 (span p 8)).2.2 = true) ∧
    someGroup.want.isSome = true ∧ ({ someGroup with want := none } : Group).want = none ∧
    ((grouping fun g => { g with want := none }).stoker 0).group = some { someGroup with want := none } := by decide +kernel
/-- A group whose SEMWAIT for one post has run out, over a semaphore with a value and an error. -/
def outrun (n err : Nat) : State := (semOf n err).updStoker 0 fun t => { t with group := some { someGroup with waiting := some 0, slots := [4 + 16, 0, 0, 0] } }
theorem witness_outrun :
    (let ok (n err : Nat) (p : Word → Bool) : Bool := (List.finRange 384).find? (outrun n err).semExpired == some 0 &&
       ((outrun n err).stoker 0).group.any fun g => bitsAt (cmdBits g.slots g.next) 4 32 == 1 && p ((outrun n err).gm.word (g.cmdSem (cmdBits g.slots g.next)))
     ok 0 1 (fun w => w.extractLsb' 32 8 != 0) = true ∧
       ok 1 0 (fun w => w.extractLsb' 32 8 == 0 && decide (1 ≤ (w.extractLsb' 0 32).toNat)) = true ∧
       ok 0 0 (fun w => w.extractLsb' 32 8 == 0 && (w.extractLsb' 0 32).toNat == 0) = true) := by decide +kernel
theorem witness_fill_channels :
    (let e : Folio := { someFolio (some 0) with slot := some 0 }
     let s : State := { roomed 1 with archive := { rrsize := 1, folios := [e] } }
     s.folio 1 0 0 = some e ∧ (s.serve .rr e.rows).2 = true ∧
       ((s.updStoker (channelOf 0 (roomPa 0)) fun t => { t with busy := 1 }).serve .rr e.rows).2 = false) := by decide +kernel
/-! The Librarian, its answers and pre-emption. -/

theorem witness_placement_first :
    (let r : QRec := someRec
     let s : State := { State.reset with lib := { State.reset.lib with records := [r] } }
     (∃ o ∈ r :: s.gang r, s.recPart o ∈ [s.recPart r]) ∧ s.nextBids 1 = [1] ∧ s.standFirst.ranked.length = 1 ∧
       State.reset.standFirst.placeFirst [] State.reset.standFirst.ranked = none) ∧
    (let s : State := { State.reset with boot := { State.reset.boot with recovery := true } }; s.boot.recovery = true) := by
  refine ⟨⟨⟨someRec, by simp, by simp⟩, ?_⟩, rfl⟩
  refine ⟨by decide +kernel, by decide +kernel, by decide +kernel⟩
/-- A removed binding without flue slots on core 0. -/
theorem witness_slotless_removal : ((bound id).bidOf 0 = 1 ∧ ((bound id).binding 1).any (fun b => b.members == [0] && b.status.isNone && b.launch.fslots == []) = true) := by
  decide +kernel
theorem witness_answers :
    (State.reset.host.posted[0] = 0) ∧
    (let h := { State.reset.host with posted := Vector.replicate 4 1 }; 0 < ({ State.reset with host := h } : State).host.posted[0]) ∧
    (let h := { State.reset.host with answers := [((0 : Fin 4), (⟨0, []⟩ : Event))] }
     h.answers.find? (fun a => a.1 == (0 : Fin 4)) = some (0, ⟨0, []⟩) ∧ ∀ a ∈ h.answers, a.1 ≠ (1 : Fin 4)) := by decide +kernel
/-- INSTALL in recovery, with an image that lies in the region. -/
theorem witness_install :
    (let s : State := { State.reset with img := some someImage, msg := some (told 8 0 0 0 0), boot := { State.reset.boot with recovery := true } }
     s.boot.image.read 0 someImage.bytes.length = someImage.bytes ∧ s.installImage = some someImage ∧ s.boot.recovery = true ∧
       msgWellFormed (told 8 0 0 0 0) 8 [] = true) := by
  refine ⟨rfl, rfl, rfl, by decide⟩
theorem witness_double_trapped :
    (let s := (bound fun b => { b with pace := .frozen, live := false }).updStrand 0 .x fun t => { t with run := .stopped }
     (s.binding 1).any s.doubleTrapped = true ∧ ((bound fun b => { b with pace := .frozen, live := false }).binding 1).any (bound id).doubleTrapped = false) := by
  decide +kernel
/-- A stoker of a pre-empted binding runs a command, or stands. -/
theorem witness_running_stokers :
    (let s (n : Nat) : State := { grouping id with cal := List.replicate n ⟨.hc, 0, effects, 0, .ev (.gemv 0 0)⟩ }
     (s 1).stokerQuiet 0 = false ∧ (s 0).stokerQuiet 0 = true ∧ ∃ b ∈ (s 1).bindings, (0 : Fin 384) ∈ b.stokers) := by decide +kernel
/-! Pages, devices and islands. -/

/-- Address space 0 has that root; queue 0 gives it to partition 0. -/
def rooted : State :=
  let s := attached 0x40000007 false
  { s with xlate := { s.xlate with roots := [(0, 0)] }
           lib := { s.lib with queues := s.lib.queues.set 0 (some ⟨0, 0, 4, 0, 0, 0⟩), poolStripes := [(3, 0)], stripes := [(4, 1)] } }
theorem witness_free_pages : rooted.pageFree 0x80000000 21 = true ∧ rooted.pageFree 0x40000000 21 = false ∧ rooted.pageFree 0 21 = false := by
  decide +kernel
theorem witness_open_stripes : rooted.stripeOpen 0 0x80000000 = true ∧ rooted.stripeOpen 0 0xC0000000 = false ∧
    rooted.stripeOpen 0 0x100000000 = false ∧ rooted.stripeOpen 0 0 = false := by decide +kernel
/-- Requests of device 3 wait, or none. -/
def remote (waits : Bool) : State :=
  let s := joined 0x40000007 0 [] false
  { s with lib := { s.lib with remote := if waits then [(3, 0, .store [1])] else [] } }
theorem witness_remote : (remote true).lib.remote = [(3, 0, .store [1])] ∧ (remote true).lib.remote.any (·.1 == 3) = true ∧
    (remote false).lib.remote = [] ∧ (remote false).lib.remote.any (·.1 == 3) = false ∧ ((remote false).tryRemote 0 (.store [1])).2 = true ∧
    (((remote false).updStoker (channelOf 0 0x40000000) fun t => { t with busy := 1 }).tryRemote 0 (.store [1])).2 = false := by decide +kernel
theorem witness_hops :
    (let k : Island := {}
     k.hop = none ∧ k.fstep = 0 ∧ k.droop = false ∧ ({ k with droop := true } : Island).droop = true ∧ ({ k with hop := some 1 } : Island).hop = some 1) ∧
    (let s (w : Option Nat) := islanded 64 fun k => { k with hop := some 1, hopLeft := 0, want := w }
     (∀ w ∈ [none, some 2], (List.finRange 64).find? (s w).hopEnds = some 0 ∧ ((s w).island 0).want = w) ∧ ((s (some 2)).island 0).hop = some 1) ∧
    (let due (f : Island → Island) : Bool := (List.finRange 64).find? (islanded 2250 f).throttleDue == some 0
     due (fun k => { k with throttled := true, thrNext := some 2250, fstep := 8 }) = true ∧
       due (fun k => { k with thrNext := some 2250, fstep := 3, setting := 2 }) = true ∧ due (fun k => { k with thrNext := some 2250 }) = true) := by
  decide +kernel
theorem witness_caps :
    (let s : State := { State.reset with hc := 10, cap := { State.reset.cap with expiry := some 10 } }
     s.leaseOver = true ∧ State.reset.leaseOver = false ∧ State.reset.cap.watts = State.reset.cap.watts ∧ State.reset.cap.watts ≠ State.reset.cap.watts + 1) := by
  decide +kernel
theorem witness_queue_pairs : State.reset.host.qps[0] = none ∧ State.reset.boot.recovery = false ∧ ((attached 0 false).host.qps[0]).isSome = true ∧
    ((engined false true false).core 0).engine.isSome = true ∧ (State.reset.core 0).engine = none := by decide +kernel
theorem witness_cold_start : (∀ j, (none : Option FwImage) = some j → imageAccepted j State.reset.boot.rollback = false) ∧
    ({ State.reset with boot := { State.reset.boot with stored := some someImage } } : State).boot.stored.or none = some someImage :=
  ⟨fun _ h => by simp at h, rfl⟩
end Sys2Proof.Tests
end

/-! The issue of stamped instructions (R36): the judgement of the conditions, one lemma for each verdict, and the attempt of a stamped
instruction, said once for the three places of its stamp. -/

namespace Sys2Proof.Machine

section StampedIssue

variable {s : State} {c : CoreId} {st : StrandId} {h : Hdr} {r : Req} {k : Core} {t : Strand} {w : Word32}

/-! ### The verdicts on the conditions of R35 -/

theorem Req.judge_of_unmet {u : Nat × Word × Nat} (hu : r.unmet k t st h = some u) : r.judge k t st h = .wait u := by
  simp [Req.judge, hu]
theorem Req.judge_of_fault {f : TrapInfo} (hu : r.unmet k t st h = none) (hf : r.fault = some f) : r.judge k t st h = .fault f := by
  simp [Req.judge, hu, hf]
theorem Req.judge_of_busy {u : Nat × Word × Nat} (hu : r.unmet k t st h = none) (hf : r.fault = none) (hb : r.busy = some u) :
    r.judge k t st h = .wait u := by
  simp [Req.judge, hu, hf, hb]
theorem Req.judge_of_met (hu : r.unmet k t st h = none) (hf : r.fault = none) (hb : r.busy = none) : r.judge k t st h = .go := by
  simp [Req.judge, hu, hf, hb]

/-! ### The attempt of a stamped instruction -/

/-- What a stamped instruction does in its stamp's cycle on each verdict: an instruction with a stamp never waits (R36). -/
def State.atStamp (s : State) (c : CoreId) (st : StrandId) (h : Hdr) (r : Req) (act : Turn → State → State) (w : Word32) : Verdict → State
  | .wait u => s.trap c st (missInfo (s.strand c st) w (missCond u.1))
  | .fault f => s.issueFault c st f
  | .go => act (s.turn c st h r) (s.issued c st h r)

/-- A stamped instruction does not delay its strand: cycle a follows the issue before it (R36). -/
theorem earliest_stamped (hw : h.timing = .stamped w) : earliest h t = t.base := by
  simp [earliest, hw]

/-- From cycle a on, a legal stamped instruction misses a stamp that lies behind a, waits for one that lies ahead, and is judged once its
cycle is reached (R36). -/
theorem State.attempt_stamped (hw : h.timing = .stamped w) (hi : r.illegal (s.strand c st) st h = none)
    (ha : (s.strand c st).base ≤ s.now c st) (act : Turn → State → State) :
    s.attempt c st h r act =
      if stampDelta w (s.strand c st).base < 0 then s.trap c st (missInfo (s.strand c st) w 0)
      else if (s.now c st : Int) < (s.strand c st).base + stampDelta w (s.strand c st).base then s
      else s.atStamp c st h r act w (r.judge (s.core c) (s.strand c st) st h) := by
  unfold State.attempt
  simp only [earliest_stamped hw, if_neg (Nat.not_lt.mpr ha), hi, hw]
  cases r.judge (s.core c) (s.strand c st) st h <;> rfl

section Placed

variable (hw : h.timing = .stamped w) (hi : r.illegal (s.strand c st) st h = none) (ha : (s.strand c st).base ≤ s.now c st)
include hw hi ha

/-- A stamp behind cycle a is missed in cycle a, with condition 0 (R36, R336). -/
theorem State.attempt_stamp_past (hd : stampDelta w (s.strand c st).base < 0) (act : Turn → State → State) :
    s.attempt c st h r act = s.trap c st (missInfo (s.strand c st) w 0) := by
  rw [State.attempt_stamped hw hi ha, if_pos hd]

/-- Waiting for a stamp that lies ahead leaves the state as it is: it is no blocking point (R36). -/
theorem State.attempt_before_stamp (hd : 0 ≤ stampDelta w (s.strand c st).base)
    (hn : (s.now c st : Int) < (s.strand c st).base + stampDelta w (s.strand c st).base) (act : Turn → State → State) :
    s.attempt c st h r act = s := by
  rw [State.attempt_stamped hw hi ha, if_neg (not_lt.mpr hd), if_pos hn]

/-- In the stamp's cycle the verdict on the conditions decides. -/
theorem State.attempt_at_stamp (hd : 0 ≤ stampDelta w (s.strand c st).base)
    (hn : (s.strand c st).base + stampDelta w (s.strand c st).base ≤ (s.now c st : Int)) (act : Turn → State → State) :
    s.attempt c st h r act = s.atStamp c st h r act w (r.judge (s.core c) (s.strand c st) st h) := by
  rw [State.attempt_stamped hw hi ha, if_neg (not_lt.mpr hd), if_neg (not_lt.mpr hn)]

end Placed

end StampedIssue

/-- Settles O15: by where the stamp lies against cycle a and the present cycle, and in the stamp's cycle by the verdict on the conditions. -/
theorem stampsIssueExactlyOrMiss : Obligations.StampsIssueExactlyOrMiss := by
  intro s c st h r act w t d miss hw hi ha
  refine ⟨fun hd => State.attempt_stamp_past hw hi ha hd act, fun hd hn => State.attempt_before_stamp hw hi ha hd hn act, fun hd hn => ?_⟩
  have judged := State.attempt_at_stamp hw hi ha hd hn act
  refine ⟨fun u hu => ?_, fun f hu hf => ?_, fun u hu hf hb => ?_, fun hu hf hb => ?_⟩
  · rw [judged, Req.judge_of_unmet hu]; rfl
  · rw [judged, Req.judge_of_fault hu hf]; rfl
  · rw [judged, Req.judge_of_busy hu hf hb]; rfl
  · rw [judged, Req.judge_of_met hu hf hb]; rfl

end Sys2Proof.Machine

/-! Branches and j (R165, R168): what an issue that may transfer leaves, once for a transfer and once for none. -/

namespace Sys2Proof.Machine

section Branches

variable {s t u : State} {c : CoreId} {st : StrandId} {h : Hdr} {i : Instr} {pos : Nat} {cond taken : Bool}

/-- What has advanced stays so when the strand stays. -/
theorem State.Advanced.of_strand (a : s.Advanced u c st) (e : t.strand c st = u.strand c st) : s.Advanced t c st := by
  constructor <;> rw [e]
  exacts [a.prev, a.base, a.ord, a.pos, a.reach, a.loops]

/-- The outcome of a branch that issued: its pushes are made, its strand stands at `pos` with its loops as they were when the branch is
taken and at the next position otherwise, and the next issue may come one cycle later in both cases (R165, R168). -/
def State.Branches (s : State) (c : CoreId) (st : StrandId) (h : Hdr) (taken : Bool) (pos : Nat) (o : Host.Outcome State Fault Refusal) : Prop :=
  ∃ t, o = .next t ∧ t.storage = s.storage ∧ s.Pushes t c st h 0 ∧
    (t.strand c st).prev = some (s.now c st) ∧ (t.strand c st).base = s.now c st + 1 ∧
    (taken = true → (t.strand c st).pos = pos ∧ (t.strand c st).reach = .jump ∧ (t.strand c st).loops = (s.strand c st).loops) ∧
    (taken = false → s.Advanced t c st)

/-- A transfer moves the strand after the issue has left its place and its loops alone. -/
theorem State.branches_taken (hi : s.Issues c st h { transfers := true }) : s.Branches c st h true pos (branch h true pos s) := by
  have loops : ((s.issued c st h { transfers := true }).strand c st).loops = (s.strand c st).loops :=
    congrArg (·.2.2) (s.issued_stays c st h _ rfl)
  exact ⟨_, issue_ready hi _, by simp, State.pushes_of (by simp), by simp, by simp, fun _ => by simp [loops], nofun⟩

/-- A branch that is not taken does what nop does. -/
theorem State.branches_not_taken (hi : s.Issues c st h {}) : s.Branches c st h false pos (branch h false pos s) :=
  ⟨_, issue_ready hi _, by simp, s.pushNow_pushes c st h _, by simp, by simp, nofun,
    fun _ => (s.issued_advanced c st h {} rfl).of_strand (by simp)⟩

/-- An instruction that is a branch on a condition branches when the condition holds. -/
theorem State.branches_of (hi : s.Issues c st h { transfers := taken }) (he : exec i s = branch h cond pos s) (hc : cond = taken) :
    s.Branches c st h taken pos (exec i s) := by
  subst hc
  rw [he]
  cases cond with
  | true => exact State.branches_taken hi
  | false => exact State.branches_not_taken hi

end Branches

/-- Settles O28: each instruction is a branch on its own condition, which reads the registers as they stand at issue. -/
theorem branchesTransferWhenTheirConditionHolds : Obligations.BranchesTransferWhenTheirConditionHolds := by
  intro s c st h a b n sense tgt
  refine ⟨fun hi => State.branches_of hi rfl rfl, fun hi => State.branches_of hi rfl ?beq, fun hi => State.branches_of hi rfl ?bne,
    fun hi => State.branches_of hi rfl ?blt, fun hi => State.branches_of hi rfl ?bge, fun hi => State.branches_of hi rfl ?bltu,
    fun hi => State.branches_of hi rfl ?bgeu, fun hi => State.branches_of hi rfl ?bbit⟩ <;> simp only [hi.reg]
  case beq => rfl
  case bne => exact (decide_not ..).symm
  case blt => exact BitVec.slt_eq_decide
  case bge => rw [BitVec.slt_eq_decide, ← decide_not, decide_eq_decide]; exact not_lt
  case bltu => exact BitVec.ult_eq_decide
  case bgeu => rw [BitVec.ult_eq_decide, ← decide_not, decide_eq_decide]; exact not_lt
  case bbit => exact Bool.beq_eq_decide_eq ..

end Sys2Proof.Machine

/-! The integer instructions (R164, R177): an integer operation yields its value; the values that the model computes otherwise than the
statement writes them. -/

namespace Sys2Proof.Machine

/-- An integer operation whose value is read from the registers at issue yields that value. -/
theorem State.yields_of_intOp {s : State} {c : CoreId} {st : StrandId} {h : Hdr} {i : Instr} {lat : Nat} {d : XReg} {v v' : Word}
    (hi : s.Issues c st h { writes := true }) (he : exec i s = intOp h lat d v' s) (hv : v' = v) :
    s.Yields c st h i lat (xResult (s.strand c st).level d v) true := by
  subst hv
  exact State.yields_of rfl (he.trans (issue_ready hi _))

/-! ### Values -/

/-- lih keeps the low half of its register under the immediate. -/
theorem append_low_half (imm : Word32) (x : Word) : imm ++ x.extractLsb' 0 32 = (imm.setWidth 64 <<< 32) ||| (x &&& 0xFFFFFFFF) := by
  have low : (x.extractLsb' 0 32).setWidth 64 = x &&& 0xFFFFFFFF := by
    have masked : x.toNat &&& 0xFFFFFFFF = x.toNat % 2 ^ 32 := Nat.and_two_pow_sub_one_eq_mod x.toNat 32
    apply BitVec.eq_of_toNat_eq
    simp only [BitVec.toNat_setWidth, BitVec.extractLsb'_toNat, Nat.shiftRight_zero, BitVec.toNat_and, BitVec.reduceToNat, masked]
    omega
  rw [BitVec.append_def, BitVec.shiftLeftZeroExtend_eq, BitVec.setWidth'_eq, low]

/-- The signed product of two words is exact in 128 bits. -/
theorem mulHigh_eq (x y : Word) : mulHigh x y = ((x.signExtend 128 * y.signExtend 128) >>> 64).setWidth 64 := by
  have product : x.signExtend 128 * y.signExtend 128 = BitVec.ofInt 128 (x.toInt * y.toInt) := (BitVec.ofInt_mul ..).symm
  rw [product, mulHigh]
  apply BitVec.eq_of_toNat_eq
  simp only [BitVec.toNat_setWidth, BitVec.toNat_ushiftRight, BitVec.toNat_ofInt, Nat.shiftRight_eq_div_pow]
  omega

/-- The unsigned product of two words is exact in 128 bits. -/
theorem mulHighU_eq (x y : Word) : mulHighU x y = ((x.setWidth 128 * y.setWidth 128) >>> 64).setWidth 64 := by
  have product : x.setWidth 128 * y.setWidth 128 = BitVec.ofNat 128 (x.toNat * y.toNat) := by
    simp only [BitVec.ofNat_mul, BitVec.ofNat_toNat]
  rw [product, mulHighU]
  apply BitVec.eq_of_toNat_eq
  simp only [BitVec.toNat_setWidth, BitVec.toNat_ushiftRight, BitVec.toNat_ofNat, Nat.shiftRight_eq_div_pow]
  omega

theorem ite_slt_toInt (x y u v : Word) : (if x.slt y then u else v) = if x.toInt < y.toInt then u else v := by
  simp only [BitVec.slt_iff_toInt_lt]
theorem ite_ult_toNat (x y u v : Word) : (if x.ult y then u else v) = if x.toNat < y.toNat then u else v := by
  simp only [BitVec.ult_iff_lt, BitVec.lt_def]

/-- Settles O36: each instruction is one integer operation on the registers as they stand at issue; the model writes that value as the
statement does but for lih, the signed and unsigned minimum and maximum, and the high halves of the products. -/
theorem integerInstructionsYieldTheirResults : Obligations.IntegerInstructionsYieldTheirResults := by
  intro s c st h d a b imm sh hi
  have reads : s.x c st = s.reg := funext fun r => (hi.reg r).symm
  rw [reads]
  intro x y i yields truth
  refine ⟨?add, ?addi, ?sub, ?and, ?andi, ?or, ?ori, ?xor, ?xori, ?sll, ?slli, ?srl, ?srli, ?sra, ?srai, ?li, ?lih, ?slt, ?sltu, ?slti,
    ?min, ?max, ?minu, ?maxu, ?mul, ?mulh, ?mulhu, ?popc⟩
  case lih => exact State.yields_of_intOp hi rfl (append_low_half imm x)
  case min => exact State.yields_of_intOp hi rfl (ite_slt_toInt x y x y)
  case max => exact State.yields_of_intOp hi rfl (ite_slt_toInt x y y x)
  case minu => exact State.yields_of_intOp hi rfl (ite_ult_toNat x y x y)
  case maxu => exact State.yields_of_intOp hi rfl (ite_ult_toNat x y y x)
  case mulh => exact State.yields_of_intOp hi rfl (mulHigh_eq x y)
  case mulhu => exact State.yields_of_intOp hi rfl (mulHighU_eq x y)
  all_goals exact State.yields_of_intOp hi rfl rfl

end Sys2Proof.Machine

/-! Decoding gives back what the encoder wrote (R142 to R150): the family RoundTrip, one lemma for each constructor, put together. -/

namespace Sys2Proof.Laws

/-- Every constructor has its round trip: an instruction's is its own lemma, and an event has no encoding. -/
theorem RoundTrip.all (i : Instr) : RoundTrip.Statement i := by
  cases i with
  | nop h => exact RoundTrip.nop h
  | wait h n => exact RoundTrip.wait h n
  | j h tgt => exact RoundTrip.j h tgt
  | jr h a => exact RoundTrip.jr h a
  | beq h a b tgt => exact RoundTrip.beq h a b tgt
  | bne h a b tgt => exact RoundTrip.bne h a b tgt
  | blt h a b tgt => exact RoundTrip.blt h a b tgt
  | bge h a b tgt => exact RoundTrip.bge h a b tgt
  | bltu h a b tgt => exact RoundTrip.bltu h a b tgt
  | bgeu h a b tgt => exact RoundTrip.bgeu h a b tgt
  | call h d tgt => exact RoundTrip.call h d tgt
  | ret h a => exact RoundTrip.ret h a
  | loop h a tgt => exact RoundTrip.loop h a tgt
  | lexit h tgt => exact RoundTrip.lexit h tgt
  | retire h => exact RoundTrip.retire h
  | bbit h a n sense tgt => exact RoundTrip.bbit h a n sense tgt
  | give h dir n => exact RoundTrip.give h dir n
  | take h dir n => exact RoundTrip.take h dir n
  | mark h tag => exact RoundTrip.mark h tag
  | fence h form sc => exact RoundTrip.fence h form sc
  | tfence h => exact RoundTrip.tfence h
  | trap h code => exact RoundTrip.trap h code
  | eret h => exact RoundTrip.eret h
  | dtwait h d a ofs => exact RoundTrip.dtwait h d a ofs
  | add h d a b => exact RoundTrip.add h d a b
  | sub h d a b => exact RoundTrip.sub h d a b
  | and h d a b => exact RoundTrip.and h d a b
  | or h d a b => exact RoundTrip.or h d a b
  | xor h d a b => exact RoundTrip.xor h d a b
  | sll h d a b => exact RoundTrip.sll h d a b
  | srl h d a b => exact RoundTrip.srl h d a b
  | sra h d a b => exact RoundTrip.sra h d a b
  | addi h d a imm => exact RoundTrip.addi h d a imm
  | andi h d a imm => exact RoundTrip.andi h d a imm
  | ori h d a imm => exact RoundTrip.ori h d a imm
  | xori h d a imm => exact RoundTrip.xori h d a imm
  | slli h d a sh => exact RoundTrip.slli h d a sh
  | srli h d a sh => exact RoundTrip.srli h d a sh
  | srai h d a sh => exact RoundTrip.srai h d a sh
  | li h d imm => exact RoundTrip.li h d imm
  | lih h d a imm => exact RoundTrip.lih h d a imm
  | slt h d a b => exact RoundTrip.slt h d a b
  | sltu h d a b => exact RoundTrip.sltu h d a b
  | slti h d a imm => exact RoundTrip.slti h d a imm
  | min h d a b => exact RoundTrip.min h d a b
  | max h d a b => exact RoundTrip.max h d a b
  | minu h d a b => exact RoundTrip.minu h d a b
  | maxu h d a b => exact RoundTrip.maxu h d a b
  | mul h d a b => exact RoundTrip.mul h d a b
  | mulh h d a b => exact RoundTrip.mulh h d a b
  | mulhu h d a b => exact RoundTrip.mulhu h d a b
  | div h d a b => exact RoundTrip.div h d a b
  | divu h d a b => exact RoundTrip.divu h d a b
  | rem h d a b => exact RoundTrip.rem h d a b
  | remu h d a b => exact RoundTrip.remu h d a b
  | popc h d a => exact RoundTrip.popc h d a
  | lds h d a f o imm => exact RoundTrip.lds h d a f o imm
  | sts h a b f o imm => exact RoundTrip.sts h a b f o imm
  | ldp h d a f o imm => exact RoundTrip.ldp h d a f o imm
  | stp h a b f o imm => exact RoundTrip.stp h a b f o imm
  | ldg h d a f o imm => exact RoundTrip.ldg h d a f o imm
  | stg h a b f o imm => exact RoundTrip.stg h a b f o imm
  | ldx h d a f o imm => exact RoundTrip.ldx h d a f o imm
  | stx h a b f o imm => exact RoundTrip.stx h a b f o imm
  | qset h d a n => exact RoundTrip.qset h d a n
  | qld h d a imm => exact RoundTrip.qld h d a imm
  | qst h a b imm => exact RoundTrip.qst h a b imm
  | qmov h d a => exact RoundTrip.qmov h d a
  | qadv h d a b imm => exact RoundTrip.qadv h d a b imm
  | qget h d a n => exact RoundTrip.qget h d a n
  | qchk h d a u => exact RoundTrip.qchk h d a u
  | qwp h d ch en => exact RoundTrip.qwp h d ch en
  | cpLl h d a b o => exact RoundTrip.cpLl h d a b o
  | cpLp h d a b o => exact RoundTrip.cpLp h d a b o
  | cpPl h d a b o => exact RoundTrip.cpPl h d a b o
  | cpLf h d a b o => exact RoundTrip.cpLf h d a b o
  | cpLw h d a b o => exact RoundTrip.cpLw h d a b o
  | cpLg h d a b o => exact RoundTrip.cpLg h d a b o
  | cpGl h d a b o => exact RoundTrip.cpGl h d a b o
  | cpGg h d a b o => exact RoundTrip.cpGg h d a b o
  | cpLx h d a b o => exact RoundTrip.cpLx h d a b o
  | cpXl h d a b o => exact RoundTrip.cpXl h d a b o
  | cpGx h d a b o => exact RoundTrip.cpGx h d a b o
  | cpXg h d a b o => exact RoundTrip.cpXg h d a b o
  | cpAl h d a b o => exact RoundTrip.cpAl h d a b o
  | cpAg h d a b o => exact RoundTrip.cpAg h d a b o
  | cpAw h d a b o => exact RoundTrip.cpAw h d a b o
  | cpGw h d a b o => exact RoundTrip.cpGw h d a b o
  | binit h sp a b => exact RoundTrip.binit h sp a b
  | barr h sp a o => exact RoundTrip.barr h sp a o
  | bwait h sp d a b o => exact RoundTrip.bwait h sp d a b o
  | bwaitt h sp d a b o lim => exact RoundTrip.bwaitt h sp d a b o lim
  | wset h sp a b o => exact RoundTrip.wset h sp a b o
  | wwait h sp d a b cond o => exact RoundTrip.wwait h sp d a b cond o
  | wqwait h sp d a o => exact RoundTrip.wqwait h sp d a o
  | wwake h sp d a b o => exact RoundTrip.wwake h sp d a b o
  | aml h d a b o => exact RoundTrip.aml h d a b o
  | amp h d a b o => exact RoundTrip.amp h d a b o
  | amg h d a b o => exact RoundTrip.amg h d a b o
  | amx h d a b o => exact RoundTrip.amx h d a b o
  | fluePut h dir a => exact RoundTrip.fluePut h dir a
  | flueGet h d dir => exact RoundTrip.flueGet h d dir
  | flueFree h d dir => exact RoundTrip.flueFree h d dir
  | lred h d a b fmt rm sat o => exact RoundTrip.lred h d a b fmt rm sat o
  | lbcast h d a b o => exact RoundTrip.lbcast h d a b o
  | lgath h d a b o => exact RoundTrip.lgath h d a b o
  | acc h d a b c repl => exact RoundTrip.acc h d a b c repl
  | bpoll h sp d a o => exact RoundTrip.bpoll h sp d a o
  | wpoll h sp d a o => exact RoundTrip.wpoll h sp d a o
  | accq h d sel => exact RoundTrip.accq h d sel
  | vadd h d a b k f rm sat => exact RoundTrip.vadd h d a b k f rm sat
  | vsub h d a b k f rm sat => exact RoundTrip.vsub h d a b k f rm sat
  | vmul h d a b k f rm sat => exact RoundTrip.vmul h d a b k f rm sat
  | vfma h d a b c k f rm sat => exact RoundTrip.vfma h d a b c k f rm sat
  | vfms h d a b c k f rm sat => exact RoundTrip.vfms h d a b c k f rm sat
  | vfnma h d a b c k f rm sat => exact RoundTrip.vfnma h d a b c k f rm sat
  | vmin h d a b k f => exact RoundTrip.vmin h d a b k f
  | vmax h d a b k f => exact RoundTrip.vmax h d a b k f
  | vabs h d a k f sat => exact RoundTrip.vabs h d a k f sat
  | vneg h d a k f sat => exact RoundTrip.vneg h d a k f sat
  | vdiv h d a b k f rm => exact RoundTrip.vdiv h d a b k f rm
  | vsqrt h d a k f rm => exact RoundTrip.vsqrt h d a k f rm
  | vrcp h d a k f rm => exact RoundTrip.vrcp h d a k f rm
  | vrsq h d a k f rm => exact RoundTrip.vrsq h d a k f rm
  | vround h d a k f rm => exact RoundTrip.vround h d a k f rm
  | vclass h d a k f => exact RoundTrip.vclass h d a k f
  | vexp h d a k f rm => exact RoundTrip.vexp h d a k f rm
  | vexp2 h d a k f rm => exact RoundTrip.vexp2 h d a k f rm
  | vlog h d a k f rm => exact RoundTrip.vlog h d a k f rm
  | vlog2 h d a k f rm => exact RoundTrip.vlog2 h d a k f rm
  | vsin h d a k f rm => exact RoundTrip.vsin h d a k f rm
  | vcos h d a k f rm => exact RoundTrip.vcos h d a k f rm
  | vtanh h d a k f rm => exact RoundTrip.vtanh h d a k f rm
  | vclamp h d a b c k f => exact RoundTrip.vclamp h d a b c k f
  | vcmp h d a b k cond f => exact RoundTrip.vcmp h d a b k cond f
  | vsel h d a b k f => exact RoundTrip.vsel h d a b k f
  | kop h d a b c tt => exact RoundTrip.kop h d a b c tt
  | kmov h d a b n => exact RoundTrip.kmov h d a b n
  | vlop3 h d a b c k f tt => exact RoundTrip.vlop3 h d a b c k f tt
  | vsll h d a b k f => exact RoundTrip.vsll h d a b k f
  | vsrl h d a b k f => exact RoundTrip.vsrl h d a b k f
  | vsra h d a b k f => exact RoundTrip.vsra h d a b k f
  | vfsl h d a b c => exact RoundTrip.vfsl h d a b c
  | vfsr h d a b c => exact RoundTrip.vfsr h d a b c
  | vrot h d a c => exact RoundTrip.vrot h d a c
  | vcvt h d a k sf df rm sat part => exact RoundTrip.vcvt h d a k sf df rm sat part
  | vqnt h d a b k sf df rm sat sb fs part => exact RoundTrip.vqnt h d a b k sf df rm sat sb fs part
  | vdqnt h d a b k sf df rm sat sb fs part => exact RoundTrip.vdqnt h d a b k sf df rm sat sb fs part
  | vmov h d a k f => exact RoundTrip.vmov h d a k f
  | vsplat h d a k f => exact RoundTrip.vsplat h d a k f
  | vext h d a b f => exact RoundTrip.vext h d a b f
  | vredadd h d a b k f df rm sat => exact RoundTrip.vredadd h d a b k f df rm sat
  | vredmax h d a b k f df => exact RoundTrip.vredmax h d a b k f df
  | vredmin h d a b k f df => exact RoundTrip.vredmin h d a b k f df
  | vperm h d a b k f => exact RoundTrip.vperm h d a b k f
  | vslide h d a b c k f up => exact RoundTrip.vslide h d a b c k f up
  | vbcast h d a b k f => exact RoundTrip.vbcast h d a b k f
  | vpopc h d a first => exact RoundTrip.vpopc h d a first
  | vld h d a c k => exact RoundTrip.vld h d a c k
  | vst h a b c k => exact RoundTrip.vst h a b c k
  | vacr h d a k f => exact RoundTrip.vacr h d a k f
  | vacw h a b k f => exact RoundTrip.vacw h a b k f
  | hcut h cut bps => exact RoundTrip.hcut h cut bps
  | hchain h lt lw head => exact RoundTrip.hchain h lt lw head
  | mloadb h hq a f wz csm imm => exact RoundTrip.mloadb h hq a f wz csm imm
  | mma h hq a b f rm rs cs row col mm => exact RoundTrip.mma h hq a b f rm rs cs row col mm
  | mdrain h hq a b f rm sat rs cs row col mm => exact RoundTrip.mdrain h hq a b f rm sat rs cs row col mm
  | mzero h hq b row nn => exact RoundTrip.mzero h hq b row nn
  | wswap h => exact RoundTrip.wswap h
  | nlaunch h hq a b imm => exact RoundTrip.nlaunch h hq a b imm
  | nwait h d a b acq => exact RoundTrip.nwait h d a b acq
  | npost h a b rel => exact RoundTrip.npost h a b rel
  | nabort h d a all => exact RoundTrip.nabort h d a all
  | nstat h d a sel => exact RoundTrip.nstat h d a sel
  | dsync h d lvl => exact RoundTrip.dsync h d lvl
  | srd h d reg => exact RoundTrip.srd h d reg
  | swr h a reg => exact RoundTrip.swr h a reg
  | sset h d a reg => exact RoundTrip.sset h d a reg
  | sclr h d a reg => exact RoundTrip.sclr h d a reg
  | tlbinv h a b kind size => exact RoundTrip.tlbinv h a b kind size
  | ctxsave h d a b => exact RoundTrip.ctxsave h d a b
  | ctxload h d a b => exact RoundTrip.ctxload h d a b
  | idle h => exact RoundTrip.idle h
  | evpost h a code => exact RoundTrip.evpost h a code
  | _ => exact nofun

/-- Settles O1, by the round trip of each constructor. -/
theorem decodeGivesBackEncode : Obligations.DecodeGivesBackEncode :=
  fun i rest hw => RoundTrip.all i hw rest

end Sys2Proof.Laws

/-! The laws of byte memory (R3, R98), what reset leaves (R8) and the hard-wired registers (R17). -/

namespace Sys2Proof.Machine

/-- Settles O11, law by law. -/
theorem memoryReadsWhatWasWritten : Obligations.MemoryReadsWhatWasWritten :=
  fun _ hm => ⟨Mem.get_set hm, Mem.get_write_outside hm, fun a bs => ⟨Mem.read_write hm a bs, Mem.wf_write hm a bs⟩,
    Mem.word_setWord hm, fun _ hn he => Mem.ext_get hm hn he⟩

/-! ### Reset -/

/-- Reset leaves every core as the default core. -/
theorem State.reset_core (c : CoreId) : State.reset.core c = {} := by simp [State.core, State.reset]
/-- Reset leaves every strand as the default strand. -/
theorem State.reset_strand (c : CoreId) (st : StrandId) : State.reset.strand c st = {} := by
  simp [State.strand, State.reset_core, Core.strand]

/-- Settles O8, value by value: each core, strand, island, sensor and stoker that reset leaves is the default one. -/
theorem resetLeavesTheStatedValues : Obligations.ResetLeavesTheStatedValues := by
  refine ⟨rfl, rfl, rfl, rfl, rfl, rfl, rfl, rfl, fun c => ?core, fun c st => ?strand, fun c f => ?fifo, fun i => ?island, fun n => ?sensor, fun k => ?stoker⟩
  case core => simp [State.reset_core, Core.rv, Core.rq]
  case strand => simp [State.reset_strand, Strand.rx]
  case fifo => simp [State.reset_core, Core.fifo]
  case island => simp [State.reset]
  case sensor => simp [State.reset]
  case stoker => simp [State.reset]

/-- Settles O9: every memory of the reset state is empty. -/
theorem resetMemoryIsCanonical : Obligations.ResetMemoryIsCanonical := by
  refine ⟨Mem.wf_nil, fun c => ?_⟩
  rw [State.reset_core]
  exact ⟨Mem.wf_nil, Mem.wf_nil, Mem.wf_nil, Mem.wf_nil, Mem.wf_nil, Mem.wf_nil⟩

/-- Settles O26: reading a register looks at its number first. -/
theorem hardWiredRegistersReadAsStated : Obligations.HardWiredRegistersReadAsStated :=
  fun s c st => ⟨by simp [State.x, Strand.rx], if_pos rfl, fun r hr => if_neg hr⟩

end Sys2Proof.Machine

/-! Token FIFOs (R37 to R39), the code image (R34), and the position after an issue (R165, R170). -/

namespace Sys2Proof.Machine

/-- Settles O17: each count is what the FIFO's operations compute, and the ring order of the strands is their definition. -/
theorem tokensAreCountedAsTheRulesSay : Obligations.TokensAreCountedAsTheRulesSay := by
  refine ⟨fun h t b hb => ?bound, fun h t hb => ?sbound, fun f n => ?fifo, fun st b => ?ring⟩
  case bound => simp [boundOf, hb]
  case sbound => simp [boundOf, hb, Word.bits, bitsAt]
  case fifo => simp [Fifo.has, Fifo.room, Fifo.pop, Fifo.reserve, Fifo.push]
  case ring => cases st <;> cases b <;> decide

/-- Settles O19, by the cases of the successor and of the innermost loop entry. -/
theorem nextPositionFollowsLineAndLoop : Obligations.NextPositionFollowsLineAndLoop := by
  intro m t line next count e
  refine ⟨fun h => if_pos h, fun h hn => ?line, fun h hn => ?chain, fun hl => ?none, fun en rest hl => ⟨fun hs => ?inside, fun hs hr => ?last, fun hs hr => ?again⟩⟩
  case line => exact (if_neg (Nat.not_lt.mpr h)).trans (if_neg hn)
  case chain => exact (if_neg (Nat.not_lt.mpr h)).trans (if_pos hn)
  case none => simp [loopStep, hl]
  case inside => simp [loopStep, hl, hs]
  case last => simp [loopStep, hl, hs, hr]
  case again => simp only [loopStep, hl, hs, if_true, if_neg hr]

/-- Beyond the store, a jump to word 15 records kind 2 and everything else kind 4 (R34). -/
theorem fetchFault_beyond {m : Mem} {lines : Nat} {st : StrandId} {pos : Nat} {r : Reach} (hr : r ≠ .chainEnd) (hp : ¬(r = .jump ∧ pos = 0x7FFF))
    (hl : lines ≤ pos / 16) : fetchFault m lines st pos r = some (if r = .jump ∧ pos % 16 = 15 then 2 else 4, pos / 16) := by
  simp only [fetchFault, if_neg hr, if_neg hp, if_pos hl]
  split <;> rfl
/-- Inside the store, the line's COUNT, its OWNER, the word reached and the words of the instruction are judged in this order (R34). -/
theorem fetchFault_inside {m : Mem} {lines : Nat} {st : StrandId} {pos : Nat} {r : Reach} (hr : r ≠ .chainEnd) (hp : pos ≠ 0x7FFF)
    (hl : pos / 16 < lines) : fetchFault m lines st pos r =
      if (linkOf m (pos / 16)).2.2 = 0 then some (1, pos / 16)
      else if (linkOf m (pos / 16)).1 ≠ st.num.val then some (0, pos / 16)
      else if r = .jump ∧ ((linkOf m (pos / 16)).2.2 ≤ pos % 16 ∨ pos % 16 = 15) then some (2, pos / 16)
      else if (linkOf m (pos / 16)).2.2 ≤ pos % 16 + ((wordAt m (pos / 16) (pos % 16)).extractLsb' 23 2).toNat then some (5, pos / 16)
      else none := by
  simp only [fetchFault, if_neg hr, hp, and_false, if_false, if_neg (Nat.not_le.mpr hl)]

/-- Settles O6, in the order in which the kinds are judged: beyond the store, and inside it. -/
theorem codeImageFaultKinds : Obligations.CodeImageFaultKinds := by
  intro m lines st pos line word owner count e
  have jump : Reach.jump ≠ .chainEnd := by decide
  have seq : Reach.seq ≠ .chainEnd := by decide
  refine ⟨fun p r hr => by simp [fetchFault, hr], fun hl => ?beyond, fun hl hw => ?jumpBeyond, fun hl hp hc => ⟨?_, ?_⟩, fun hl hp hc ho => ⟨?_, ?_⟩,
    fun hl hp hc ho hw => ?target, fun hl hp ho hc hw he => ⟨?cutJump, ?cutSeq⟩, fun hl hp ho hw he => ⟨?wholeJump, ?wholeSeq⟩⟩
  case beyond => exact fetchFault_beyond seq (by simp) hl
  case jumpBeyond =>
    have hp : ¬(Reach.jump = .jump ∧ pos = 0x7FFF) := fun h => hw (by simp only [word, h.2])
    exact (fetchFault_beyond jump hp hl).trans (by rw [if_neg fun h => hw h.2])
  case target => rw [fetchFault_inside jump hp hl, if_neg hc, if_neg (not_not.mpr ho), if_pos ⟨rfl, hw⟩]
  case cutJump =>
    have some_words : count ≠ 0 := by omega
    have valid : ¬(Reach.jump = .jump ∧ (count ≤ word ∨ word = 15)) := by omega
    rw [fetchFault_inside jump hp hl, if_neg some_words, if_neg (not_not.mpr ho), if_neg valid, if_pos he]
  case cutSeq =>
    have some_words : count ≠ 0 := by omega
    rw [fetchFault_inside seq hp hl, if_neg some_words, if_neg (not_not.mpr ho), if_neg (by simp), if_pos he]
  case wholeJump =>
    have some_words : count ≠ 0 := by omega
    have valid : ¬(Reach.jump = .jump ∧ (count ≤ word ∨ word = 15)) := by omega
    rw [fetchFault_inside jump hp hl, if_neg some_words, if_neg (not_not.mpr ho), if_neg valid, if_neg (Nat.not_le.mpr he)]
  case wholeSeq =>
    have some_words : count ≠ 0 := by omega
    rw [fetchFault_inside seq hp hl, if_neg some_words, if_neg (not_not.mpr ho), if_neg (by simp), if_neg (Nat.not_le.mpr he)]
  · rw [fetchFault_inside jump hp hl, if_pos hc]
  · rw [fetchFault_inside seq hp hl, if_pos hc]
  · rw [fetchFault_inside jump hp hl, if_neg hc, if_pos ho]
  · rw [fetchFault_inside seq hp hl, if_neg hc, if_pos ho]

end Sys2Proof.Machine

/-! The one rule of issue (R35, R149, R151, R152): every encoded instruction is an issue attempt with demands of its own. -/

namespace Sys2Proof.Machine

/-- Every encoded instruction is an issue with some demands, on strands that its opcode lists, privileged when its opcode is. -/
theorem exec_eq_issue {i : Instr} {w : Raw} (hw : i.toRaw = some w) (s : State) : ∃ (r : Req) (act : Turn → State → State),
    exec i s = issue w.h r act s ∧ r.priv = privileged w.opc ∧ r.legal ⊆ strandsOf w.opc := by
  cases i with
  | dsync h d lvl =>
    cases hw
    refine ⟨_, _, rfl, rfl, ?_⟩
    show dsyncStrands lvl.toNat ⊆ [.x, .l, .c, .s]
    unfold dsyncStrands
    split <;> simp
  | _ => cases hw <;> exact ⟨_, _, rfl, rfl, List.Subset.refl _⟩

/-- The privileged instructions may issue on every strand, and nothing but their level makes them illegal. -/
theorem exec_eq_issue_of_privileged {i : Instr} {w : Raw} (hw : i.toRaw = some w) (hp : privileged w.opc = true) (s : State) :
    ∃ (r : Req) (act : Turn → State → State),
      exec i s = issue w.h r act s ∧ r.priv = true ∧ r.ill = none ∧ r.legal = [.x, .l, .c, .s] := by
  cases i with
  | eret | tlbinv | ctxsave | ctxload | idle | evpost => cases hw; exact ⟨_, _, rfl, rfl, rfl, rfl⟩
  | _ => cases hw <;> exact absurd hp Bool.false_ne_true

/-- Settles O12. -/
theorem everyInstructionIsJudgedByTheIssueRule : Obligations.EveryInstructionIsJudgedByTheIssueRule := by
  intro i w hw s
  obtain ⟨r, act, he, hp, hl⟩ := exec_eq_issue hw s
  refine ⟨r, act, he, hp, fun st hs => ?_⟩
  rw [List.contains_iff_mem] at hs ⊢
  exact hl hs

section Turns

variable {s : State} {c : CoreId} {st : StrandId} {h : Hdr} {r : Req} {act : Turn → State → State}

/-- With a strand's turn an issue is one attempt of that strand. -/
theorem issue_at (hc : s.cur = some (c, st)) : issue h r act s = .next (s.attempt c st h r act) := by
  simp [issue, hc]

/-- Before its earliest cycle an instruction does nothing (R35). -/
theorem State.attempt_early (hn : s.now c st < earliest h (s.strand c st)) : s.attempt c st h r act = s := by
  simp [State.attempt, hn]

/-- From that cycle on, an instruction that is illegal takes its fault (R152). -/
theorem State.attempt_illegal {k : Nat} (hn : earliest h (s.strand c st) ≤ s.now c st) (hk : r.illegal (s.strand c st) st h = some k) :
    s.attempt c st h r act =
      s.trap c st { cause := 3, epc := (s.strand c st).pos, i0 := BitVec.ofNat 64 k, i1 := (s.baseWord c st).setWidth 64 } := by
  simp [State.attempt, Nat.not_lt.mpr hn, hk]

end Turns

/-- Settles O13: the attempt ends at its first test. -/
theorem nothingIssuesBeforeItsCycle : Obligations.NothingIssuesBeforeItsCycle := by
  intro i w s c st hw hc hn
  obtain ⟨r, act, he, -, -⟩ := exec_eq_issue hw s
  rw [he, issue_at hc, State.attempt_early hn]

/-- Settles O14: the strand is judged first, then the level. -/
theorem instructionsTrapWhereTheyMayNotIssue : Obligations.InstructionsTrapWhereTheyMayNotIssue := by
  intro i w s c st hw hc hn ill
  refine ⟨fun hs => ?strand, fun hp hl => ?level⟩
  case strand =>
    obtain ⟨r, act, he, -, hsub⟩ := exec_eq_issue hw s
    have off : r.legal.contains st = false := by
      rw [← Bool.not_eq_true, List.contains_iff_mem] at hs ⊢
      exact fun hm => hs (hsub hm)
    have judged : r.illegal (s.strand c st) st w.h = some 1 := by simp only [Req.illegal, off]; rfl
    rw [he, issue_at hc, State.attempt_illegal hn judged]
    rfl
  case level =>
    obtain ⟨r, act, he, hr, hi, hall⟩ := exec_eq_issue_of_privileged hw hp s
    have on : r.legal.contains st = true := by rw [hall]; cases st <;> rfl
    have judged : r.illegal (s.strand c st) st w.h = some 6 := by simp only [Req.illegal, on, hi, hr, hl]; rfl
    rw [he, issue_at hc, State.attempt_illegal hn judged]
    rfl

/-! ### What an issue takes -/

/-- The two FIFOs that a strand pops from are two, and so are the two that it pushes into; none is both. -/
theorem pushFifo_ne (st : StrandId) (a b : Bool) : pushFifo st a ≠ popFifo st b := by cases st <;> cases a <;> cases b <;> decide
theorem popFifo_ne (st : StrandId) : popFifo st false ≠ popFifo st true := by cases st <;> decide
theorem pushFifo_false_ne (st : StrandId) : pushFifo st false ≠ pushFifo st true := by cases st <;> decide

/-- Settles O18, from the laws of the issued state. -/
theorem issueTakesTokensAndMovesOn : Obligations.IssueTakesTokensAndMovesOn := by
  intro s c st h r t n
  have taken : ∀ f, (t.core c).fifo f = _ := s.issued_fifo c st h r
  have apart := pushFifo_ne st
  have pops := popFifo_ne st
  have pushes := pushFifo_false_ne st
  refine ⟨s.issued_storage c st h r, s.issued_cal c st h r, s.issued_advanced c st h r, fun hr => ?stays, fun b => ?pops, fun b => ?pushes,
    fun f hf => ?other⟩
  case stays =>
    have e := s.issued_stays c st h r hr
    exact ⟨congrArg (·.1) e, congrArg (·.2.2) e⟩
  case pops =>
    rw [taken]
    cases b <;> simp [(apart _ _).symm, pops, pops.symm, Fifo.pop, n]
  case pushes =>
    rw [taken]
    cases b <;> simp [apart, pushes, pushes.symm, Fifo.reserve, n]
  case other =>
    rw [taken]
    by_cases h0 : f = pushFifo st false
    · simp [h0, apart, pushes, Fifo.reserve]
    · by_cases h1 : f = pushFifo st true
      · simp [h1, apart, pushes.symm, Fifo.reserve]
      · simp [h0, h1, hf]

end Sys2Proof.Machine

/-! Taking a trap (R336, R337, R340, R347): what the disposition of its cause leaves alone, and the trap at each level. -/

namespace Sys2Proof.Machine

section Taking

variable (s : State) (c : CoreId) (st : StrandId) (i : TrapInfo)

/-- Disposing of a cause touches no core, no memory and no binding. -/
theorem State.dispose_core (d : CoreId) : (s.dispose c st i).core d = s.core d :=
  (congrArg (fun u : State => u.core d) (s.dispose_spec c st i).1 :)
@[simp] theorem State.dispose_strand (d : CoreId) (o : StrandId) : (s.dispose c st i).strand d o = s.strand d o := by
  simp only [State.strand, State.dispose_core]
theorem State.dispose_gm : (s.dispose c st i).gm = s.gm := (congrArg State.gm (s.dispose_spec c st i).1 :)

/-- Entering a trap leaves the core's task. -/
theorem State.enterTrap_bidOf : (s.enterTrap c st i).bidOf c = s.bidOf c := by
  obtain ⟨⟨g, hg⟩, -⟩ := (s.core c).roundFlights_spec (s.capturable c st)
  simp [State.enterTrap, State.bidOf, Core.setStrand, hg]

/-- The cause that a trap enters with: an asynchronous one returns to where the strand stands (R337). -/
def TrapInfo.at (i : TrapInfo) (pos : Nat) : TrapInfo := if i.async then { i with epc := pos } else i

@[simp] theorem TrapInfo.at_cause (pos : Nat) : (i.at pos).cause = i.cause := by unfold TrapInfo.at; split <;> rfl
@[simp] theorem TrapInfo.at_async (pos : Nat) : (i.at pos).async = i.async := by unfold TrapInfo.at; split <;> rfl
@[simp] theorem TrapInfo.at_migr (pos : Nat) : (i.at pos).migr = i.migr := by unfold TrapInfo.at; split <;> rfl
@[simp] theorem TrapInfo.at_i0 (pos : Nat) : (i.at pos).i0 = i.i0 := by unfold TrapInfo.at; split <;> rfl
@[simp] theorem TrapInfo.at_i1 (pos : Nat) : (i.at pos).i1 = i.i1 := by unfold TrapInfo.at; split <;> rfl
@[simp] theorem TrapInfo.at_epc (pos : Nat) : (i.at pos).epc = if i.async then pos else i.epc := by unfold TrapInfo.at; split <;> rfl

end Taking

section User

variable {s : State} {c : CoreId} {st : StrandId} {i : TrapInfo}

/-- A translation fault for which the handler waits is no fatal cause, and neither are INTR, SWTRAP and FLUEDEG (R347). -/
theorem TrapInfo.fatal_iff : i.fatal = true ↔
    i.cause ≠ 0 ∧ i.cause ≠ 1 ∧ i.cause ≠ 14 ∧ ¬(i.cause = 6 ∧ (i.migr = true ∨ i.i1.toNat % 4 = 3)) := by
  unfold TrapInfo.fatal
  split
  · next h => simp [h]
  · next h => simp [h]
  · next h => simp [h]
  · next h => cases hm : i.migr <;> simp [h]
  · next h0 h1 h14 h6 => simp only [true_iff]; exact ⟨h0, h1, h14, fun h => h6 h.1⟩

theorem TrapInfo.fatal_of_waits (h : i.cause = 0 ∨ i.cause = 6 ∧ (i.migr = true ∨ i.i1.toNat % 4 = 3)) : i.fatal = false := by
  rw [← Bool.not_eq_true, TrapInfo.fatal_iff]
  exact fun ⟨h0, _, _, h6⟩ => h.elim h0 h6

theorem TrapInfo.fatal_of_passing (h : i.cause = 1 ∨ i.cause = 14) : i.fatal = false := by
  rw [← Bool.not_eq_true, TrapInfo.fatal_iff]
  exact fun ⟨_, h1, h14, _⟩ => h.elim h1 h14

variable (hl : (s.strand c st).level = false) (hw : (s.strand c st).wait = none)
include hl hw

/-- A trap of a strand at user level that does not wait enters with its cause and disposes of it. -/
theorem State.trap_enter : s.trap c st i = (s.enterTrap c st (i.at (s.strand c st).pos)).dispose c st i := State.trap_user i hl hw

/-- What such a trap leaves alone. -/
theorem State.trap_frame : (∀ d o, (d, o) ≠ (c, st) → (s.trap c st i).strand d o = s.strand d o) ∧ (s.trap c st i).gm = s.gm ∧
    (∀ d, ((s.trap c st i).core d).ls = (s.core d).ls) ∧ ∀ d, ((s.trap c st i).core d).fifos = (s.core d).fifos := by
  obtain ⟨others, gm, ls, fifos, -⟩ := s.enterTrap_frame c st (i.at (s.strand c st).pos)
  rw [State.trap_enter hl hw]
  simp only [State.dispose_strand, State.dispose_gm, State.dispose_core]
  exact ⟨others, gm, ls, fifos⟩

/-- What such a trap sets in train: the work that its cause asks of the Librarian, at a tick that is not exposed (R347). -/
theorem State.trap_cal (hi : i.cause < 256) : let later (w : Work) : Prop := ∃ n o, (s.trap c st i).cal = ⟨.hc, s.hc + 1 + Config.delay n, latePrio, o, w⟩ :: s.cal
    (i.fatal = true → later (.ev (.bindingFault (s.bidOf c)))) ∧
    (i.fatal = false → i.cause = 14 → later (.ev (.preemptRequest (s.bidOf c)))) ∧
    (i.fatal = false → i.cause = 1 → later (.notify 5 [i.i0, (s.strand c st).x[1]])) ∧
    (i.fatal = false → i.cause ≠ 14 → i.cause ≠ 1 → (s.trap c st i).cal = s.cal) := by
  intro later
  let e := s.enterTrap c st (i.at (s.strand c st).pos)
  have cal : e.cal = s.cal := (s.enterTrap_frame c st _).2.2.2.2
  have hc : e.hc = s.hc := rfl
  have bid : e.bidOf c = s.bidOf c := s.enterTrap_bidOf c st _
  have x : (e.strand c st).x = (s.strand c st).x := (s.enterTrap_strand c st (i.at _) (by simpa using hi)).2.2.2.2.1.1
  obtain ⟨-, fatal, degraded, software, rest⟩ := e.dispose_spec c st i
  rw [cal, hc, bid] at fatal degraded
  rw [cal, hc, x] at software
  simp only [later, State.trap_enter hl hw]
  exact ⟨fun h => ⟨_, _, fatal h⟩, fun h h' => ⟨_, _, degraded h h'⟩, fun h h' => ⟨_, _, software h h'⟩, fun h h' h'' => (congrArg State.cal (rest h h' h'')).trans cal⟩

end User

/-- Settles O20: the trap enters, which writes the strand's registers and captures its results, and disposes of its cause. -/
theorem trapEntrySavesAndGoesToTheHandler : Obligations.TrapEntrySavesAndGoesToTheHandler := by
  intro s c st i hl hw hi t u
  have enter := s.enterTrap_strand c st (i.at t.pos) (by simpa using hi)
  have hu : u = (s.enterTrap c st (i.at t.pos)).strand c st := by simp only [u, State.trap_enter hl hw, State.dispose_strand, t]
  obtain ⟨level, ⟨cause, async, migr, arrived⟩, ⟨tepc, i0, i1, tdt, tprev⟩, ⟨pos, base, -, -, -⟩, ⟨x, xs, fcsr, sbound, loops, -⟩, latches, flights⟩ := enter
  simp only [← hu, TrapInfo.at_cause, TrapInfo.at_async, TrapInfo.at_migr, TrapInfo.at_epc, TrapInfo.at_i0, TrapInfo.at_i1] at *
  obtain ⟨others, gm, ls, -⟩ := State.trap_frame (i := i) hl hw
  obtain ⟨ends, degraded, software, quiet⟩ := State.trap_cal hl hw hi
  refine ⟨level, cause, async, migr, arrived, tepc, i0, i1, tdt, tprev, pos, base, x, xs, fcsr, sbound, loops, latches, fun f hf => ?captured,
    others, gm, ls, fun h => ?nothing, fun h => ?software, fun h => ?degraded, fun h0 h1 h14 hwait => ?ends⟩
  case captured =>
    rw [flights, List.mem_filter] at hf
    simpa [List.all_eq_not_any_not, bne] using hf
  case nothing => exact quiet (TrapInfo.fatal_of_waits h) (by omega) (by omega)
  case software => exact software (TrapInfo.fatal_of_passing (.inl h)) h
  case degraded => exact degraded (TrapInfo.fatal_of_passing (.inr h)) h
  case ends => exact ends (TrapInfo.fatal_iff.mpr ⟨h0, h1, h14, hwait⟩)

end Sys2Proof.Machine

/-! The stall of an instruction, interrupts and the double trap (R41, R339, R340). -/

namespace Sys2Proof.Machine

theorem Kept.level {s t : State} (h : Kept s t) (c : CoreId) (st : StrandId) : (t.strand c st).level = (s.strand c st).level :=
  (congrArg Strand.level (h.quiet c st) :)

section Stalls

variable {s : State} {c : CoreId} {st : StrandId}

/-- What any trap of a strand at user level that does not wait records: its level, its cause and, for a synchronous one, the position it names. -/
theorem State.trap_records (i : TrapInfo) (hl : (s.strand c st).level = false) (hw : (s.strand c st).wait = none) (hi : i.cause < 256) :
    ((s.trap c st i).strand c st).level = true ∧ ((s.trap c st i).strand c st).tcause.toNat % 256 = i.cause ∧
    ((s.trap c st i).strand c st).tepc.toNat = (i.at (s.strand c st).pos).epc % 2 ^ 15 ∧ ((s.trap c st i).strand c st).tinfo0 = i.i0 ∧
    ((s.trap c st i).strand c st).tinfo1 = i.i1 ∧ ((s.trap c st i).strand c st).wait = none := by
  obtain ⟨level, ⟨cause, -⟩, ⟨tepc, i0, i1, -⟩, ⟨-, -, -, -, wait⟩, -⟩ := s.enterTrap_strand c st (i.at (s.strand c st).pos) (by simpa using hi)
  rw [State.trap_enter hl hw, State.dispose_strand]
  refine ⟨level, cause.trans (i.at_cause _), ?_, i0.trans (i.at_i0 _), i1.trans (i.at_i1 _), wait.trans hw⟩
  rw [tepc, BitVec.toNat_ofNat]
  exact Nat.mod_eq_of_lt (by omega)

variable {h : Hdr} {r : Req} {act : Turn → State → State} {d : Fin 7}

/-- An unstamped instruction that waits already and is past its bound takes the stall trap, whatever its conditions (R41). -/
theorem State.attempt_stalls (ht : h.timing = .after d) (hi : r.illegal (s.strand c st) st h = none) (hn : (s.strand c st).base + d.val ≤ s.now c st)
    (hb : (s.strand c st).blocked.isSome = true) (hp : (s.strand c st).base + d.val + boundOf h (s.strand c st) < s.now c st) :
    s.attempt c st h r act =
      s.stallBlocked c st ((s.strand c st).blocked.getD (0, 0, 0)) (boundOf h (s.strand c st) + 1) := by
  simp [State.attempt, earliest, ht, hi, Nat.not_lt.mpr hn, hb, hp]

/-- One that is within its bound, or does not wait yet, waits when its conditions are not met. -/
theorem State.attempt_waits {u : Nat × Word × Nat} (ht : h.timing = .after d) (hi : r.illegal (s.strand c st) st h = none)
    (hn : (s.strand c st).base + d.val ≤ s.now c st)
    (hb : (s.strand c st).blocked = none ∨ s.now c st ≤ (s.strand c st).base + d.val + boundOf h (s.strand c st))
    (hj : r.judge (s.core c) (s.strand c st) st h = .wait u) :
    s.attempt c st h r act = s.updStrand c st fun t => { t with blocked := some u } := by
  have hs : ¬((s.strand c st).blocked.isSome ∧ (s.strand c st).base + d.val + boundOf h (s.strand c st) < s.now c st) :=
    fun ⟨hw, hp⟩ => hb.elim (fun e => by simp [e] at hw) fun e => by omega
  simp only [State.attempt, earliest, ht, hi, Nat.not_lt.mpr hn, hs, hj, if_false]

/-- The stall trap of a wait before issue is a trap with cause 13 at the instruction, behind the monitors' records. -/
theorem State.stallBlocked_eq (b : Nat × Word × Nat) (n : Nat) : ∃ i : TrapInfo, i.cause = 13 ∧ i.async = false ∧ i.epc = (s.strand c st).pos ∧
    s.stallBlocked c st b n = (s.capture c 1 (some st) n).trap c st i := ⟨_, rfl, rfl, rfl, rfl⟩

end Stalls

/-- Settles O16: past the bound the attempt is the stall trap; else the unmet condition is the verdict, and the strand notes it. -/
theorem unmetConditionsWaitWithinTheBound : Obligations.UnmetConditionsWaitWithinTheBound := by
  intro s c st h r act d u t ht hi hn hu
  refine ⟨fun hb => ?waits, fun hb hp hl hw => ?stalls⟩
  case waits =>
    have judged : r.judge (s.core c) t st h = .wait u := hu.elim Req.judge_of_unmet fun ⟨hu, hf, hb⟩ => Req.judge_of_busy hu hf hb
    rw [State.attempt_waits ht hi hn hb judged]
    exact ⟨State.storage_updStrand s c st _ rfl, rfl, fun f => by simp [Core.fifo], State.strand_updStrand s c st _⟩
  case stalls =>
    rw [State.attempt_stalls ht hi hn hb hp]
    obtain ⟨i, cause, async, epc, trap⟩ := State.stallBlocked_eq (s := s) (c := c) (st := st) (t.blocked.getD (0, 0, 0)) (boundOf h t + 1)
    have kept := Kept.capture s c 1 (some st) (boundOf h t + 1)
    obtain ⟨level, cause', tepc, -⟩ := State.trap_records i ((kept.level c st).trans hl) ((kept.wait c st).trans hw) (by omega)
    obtain ⟨-, -, -, fifos⟩ := State.trap_frame (i := i) ((kept.level c st).trans hl) ((kept.wait c st).trans hw)
    rw [trap]
    refine ⟨level, cause'.trans cause, by simpa [async, epc] using tepc, fun f => ?_⟩
    simp only [Core.fifo, fifos, kept.fifos]

/-! ### Requests for an interrupt -/

section Interrupts

variable {s : State} {c : CoreId} {st : StrandId} {src : Bool} {v : Word}

/-- One to a strand that does not run, or whose binding has ended, is discarded. -/
theorem State.interruptTo_discarded (h : (s.strand c st).run ≠ .running ∨ s.ended c = true) : s.interruptTo c st src v = s.discarded c st v := by
  unfold State.interruptTo
  exact if_pos (by simpa using h)

/-- Any other changes what is pending on its strand. -/
theorem State.interruptTo_pends (hr : (s.strand c st).run = .running) (he : s.ended c = false) {p : Option (Nat × Bool × Word)}
    (hp : (match (s.strand c st).ipend with | some (a, k, q) => some (a, k, q ||| v) | none => some (s.hc, src, v)) = p) :
    s.interruptTo c st src v = s.updStrand c st fun o => { o with ipend := p } := by
  unfold State.interruptTo
  rw [if_neg (by simp [hr, he])]
  refine State.updStrand_congr s c st ?_
  subst hp
  rfl

end Interrupts

/-- Settles O23, on the three cases of the request. -/
theorem interruptsPendAndMerge : Obligations.InterruptsPendAndMerge := by
  intro s c st src v gone o
  have ended : s.ended c = true ↔ gone := by
    simp only [State.ended, gone]
    cases s.bindingOf c <;> simp
  have going (hg : ¬gone) : s.ended c = false := Bool.not_eq_true _ ▸ fun h => hg (ended.mp h)
  refine ⟨fun hd => ?discarded, fun hr hg hp => ?pends, fun a k p hr hg hp => ?merges, _, rfl, (Kept.interruptTo s c st src v).storage⟩
  case discarded => exact congrArg _ (State.interruptTo_discarded (hd.imp_right ended.mpr))
  case pends => exact congrArg _ (State.interruptTo_pends hr (going hg) (by rw [hp]))
  case merges => exact congrArg _ (State.interruptTo_pends hr (going hg) (by rw [hp]))

end Sys2Proof.Machine

/-! The stall trap of a wait after issue, the double trap and the returns (R41, R340, R343). -/

namespace Sys2Proof.Machine

section Waits

variable {s : State} {c : CoreId} {st : StrandId} {w : Wait}

/-- A trap at user level is the trap of the strand with its wait given up. -/
theorem State.trap_abandons (i : TrapInfo) (hl : (s.strand c st).level = false) : s.trap c st i = (s.abandon c st).trap c st i := by
  obtain ⟨-, wait, regs⟩ := s.abandon_strands c st
  rw [State.trap_user i (regs.level.trans hl) wait]
  simp [State.trap, hl]

/-- The class of a stall stands in the low four bits of its record (R336). -/
theorem stallInfo_class {cls prod field space n : Nat} (h : cls < 16) : (stallInfo cls prod field space n).toNat % 16 = cls := by
  simp only [stallInfo, BitVec.toNat_ofNat]
  omega

/-- The stall trap of a wait after issue is a trap with cause 13 at the waiting instruction, behind the monitors' records. -/
theorem State.stallWait_held {sp a : Nat} (hw : w.why = .held sp a) : ∃ (i : TrapInfo) (n : Nat), i.cause = 13 ∧ i.async = false ∧ i.epc = w.pos ∧
    i.i0 = BitVec.ofNat 64 a ∧ i.i1.toNat % 16 = 9 ∧ s.stallWait c st w = (s.capture c 2 (some st) n).trap c st i := by
  refine ⟨{ cause := 13, epc := w.pos, i0 := BitVec.ofNat 64 a, i1 := stallInfo 9 0 0 sp (w.bound + 1) }, w.bound + 1,
    rfl, rfl, rfl, rfl, stallInfo_class (by decide), ?_⟩
  simp only [State.stallWait, State.waitObject, hw, Why.cls]
  rfl

end Waits

/-- Settles O24: only an idle, a chain change and a dtwait have no bound; the stall of a held access names its address. -/
theorem waitsPastTheirBoundTakeTheStallTrap : Obligations.WaitsPastTheirBoundTakeTheStallTrap := by
  intro s c st w hw idle chain dtime
  have turn : s.plainTurn exec c st = if w.start + w.bound + 1 ≤ s.now c st then exec (.stallTrap c st) s else .next s := by
    simp only [State.plainTurn, hw, State.waitTurn]
  refine ⟨fun hn => ?within, fun hn => ?past, fun sp a hh hl => ?held⟩
  case within => rw [turn, if_neg (by omega)]
  case past => rw [turn, if_pos (by omega)]
  case held =>
    obtain ⟨i, n, cause, async, epc, i0, i1, stall⟩ := State.stallWait_held (s := s) (c := c) (st := st) hh
    let k := s.capture c 2 (some st) n
    have kept : Kept s k := Kept.capture s c 2 (some st) n
    obtain ⟨-, wait, regs⟩ := k.abandon_strands c st
    have user : (k.strand c st).level = false := (kept.level c st).trans hl
    obtain ⟨level, cause', tepc, i0', i1', wait'⟩ := State.trap_records i (regs.level.trans user) wait (by omega)
    refine ⟨(k.abandon c st).trap c st i, ?_, level, cause'.trans cause, ?_, i0'.trans i0, by rw [i1', i1], wait'⟩
    · have waits : exec (.stallTrap c st) s = .next (s.stallWait c st w) := by simp only [exec.eq_def, execStallTrap, hw]
      rw [waits, stall]
      exact congrArg _ (State.trap_abandons i user)
    · simpa [async, epc] using tepc

end Sys2Proof.Machine

/-! Double traps and returns (R340, R343, R348). -/

namespace Sys2Proof.Machine

/-! ### The double trap -/

section Doubles

variable (s : State) (c : CoreId) (st : StrandId)

/-- A freeze touches no core. -/
@[simp] theorem State.freeze_cores (bid : Nat) : (s.freeze bid).cores = s.cores := by
  unfold State.freeze
  split
  · rfl
  · split <;> rfl
@[simp] theorem State.freeze_gm (bid : Nat) : (s.freeze bid).gm = s.gm := by
  unfold State.freeze
  split
  · rfl
  · split <;> rfl
@[simp] theorem State.freeze_hc (bid : Nat) : (s.freeze bid).hc = s.hc := by
  unfold State.freeze
  split
  · rfl
  · split <;> rfl
@[simp] theorem State.freeze_core (bid : Nat) (d : CoreId) : (s.freeze bid).core d = s.core d := by simp [State.core]

/-- A binding that no freeze has reached yet is faulted, and its horizon is 32 of its cycles on (R348). -/
theorem State.freeze_binding {bid : Nat} {b : Binding} (hb : s.binding bid = some b) (hh : b.horizon = none) :
    (s.freeze bid).binding bid = some { b with faulted := true, horizon := some (b.dt + 32) } := by
  have frozen : s.freeze bid = s.updBinding bid fun b => { b with faulted := true, horizon := some (b.dt + 32) } := by
    simp only [State.freeze, hb, hh]
  have keeps : ∀ b : Binding, ({ b with faulted := true, horizon := some (b.dt + 32) } : Binding).bid = b.bid := fun _ => rfl
  rw [frozen, s.binding_updBinding bid _ keeps, hb]
  rfl

/-- The double trap touches no core but the strand that stops. -/
theorem State.doubleTrap_core (d : CoreId) :
    (s.doubleTrap c st).core d = (s.updStrand c st fun t => { t with run := .stopped }).core d := by
  simp only [State.core, State.doubleTrap, State.sometime_cores, State.freeze_cores]

end Doubles

/-- Settles O21. -/
theorem doubleTrapStopsTheStrandAndFreezes : Obligations.DoubleTrapStopsTheStrandAndFreezes := by
  intro s c st i hl
  let u := s.updStrand c st fun t => { t with run := .stopped }
  have task : ∀ d, ((s.doubleTrap c st).core d).task = (s.core d).task := fun d => by
    rw [State.doubleTrap_core]
    by_cases e : d = c
    · subst e; simp
    · simp [e]
  rw [State.trap_system i hl]
  refine ⟨rfl, ?stops, fun b hb hh => ?freezes, ⟨s.choice, ?_⟩, ?gm, fun d => ?bytes⟩
  case stops => exact (congrArg (Core.strand · st) (State.doubleTrap_core s c st c) :).trans (State.strand_updStrand s c st _)
  case freezes =>
    obtain ⟨found, -⟩ := State.bindingOf_bidOf hb
    refine ⟨{ b with faulted := true, horizon := some (b.dt + 32) }, ?_, rfl, rfl⟩
    have bid : (s.doubleTrap c st).bidOf c = s.bidOf c := by simp only [State.bidOf, task]
    have frozen : (s.doubleTrap c st).binding (s.bidOf c) = (u.freeze (s.bidOf c)).binding (s.bidOf c) := rfl
    have : (s.doubleTrap c st).bindingOf c = (s.core c).task.bind fun t => (s.doubleTrap c st).binding t.1 := by simp only [State.bindingOf, task]
    rw [this]
    unfold State.bindingOf at hb
    cases ht : (s.core c).task with
    | none => simp [ht] at hb
    | some p =>
      have e : s.bidOf c = p.1 := by simp [State.bidOf, ht]
      rw [Option.bind_some, ← e, frozen]
      exact u.freeze_binding (show u.binding (s.bidOf c) = some b from found) hh
  case gm => exact u.freeze_gm _
  case bytes =>
    rw [State.doubleTrap_core]
    by_cases e : d = c
    · subst e; simp
    · simp [e]
  · have choice : (u.freeze (s.bidOf c)).choice = s.choice := by
      unfold State.freeze; split
      · rfl
      · split <;> rfl
    exact ⟨(u.freeze (s.bidOf c)).order, by simp [State.doubleTrap, State.sometime, State.draw, State.post, u, choice]⟩

/-! ### Returns -/

section Returns

/-- A state whose items are posted one after another: what is stored stays, what was pending stays so, and each item is pending. -/
theorem State.foldl_posts {α : Type} (s : State) (k : α → Clock) (d p : α → Nat) (w : α → Work) (f : State → α → State)
    (hf : ∀ u a, u.storage = s.storage → f u a = u.post (k a) (d a) (p a) (w a)) : ∀ (l : List α) (u : State), u.storage = s.storage →
    (l.foldl f u).storage = s.storage ∧ (∀ k d p w, u.Pending k d p w → (l.foldl f u).Pending k d p w) ∧
    (∀ a ∈ l, (l.foldl f u).Pending (k a) (d a) (p a) (w a))
  | [], _, hu => ⟨hu, fun _ _ _ _ h => h, fun _ h => absurd h List.not_mem_nil⟩
  | a :: l, u, hu => by
    rw [List.foldl_cons, hf u a hu]
    obtain ⟨stored, stays, posted⟩ := State.foldl_posts s k d p w f hf l (u.post (k a) (d a) (p a) (w a)) hu
    refine ⟨stored, fun _ _ _ _ h => stays _ _ _ _ (h.post _ _ _ _), fun b hb => ?_⟩
    rcases List.mem_cons.mp hb with rfl | hb
    · exact stays _ _ _ _ ⟨u.order, by simp⟩
    · exact posted b hb

/-- Storing a core, or a strand, stores what it stores. -/
theorem State.storage_setCore_eq (s : State) (c : CoreId) (k : Core) : (s.setCore c k).storage = s.storage.setCore c k.storage := by
  simp only [State.storage, State.setCore, Vector.map_set]
theorem Core.storage_setStrand_eq (k : Core) (st : StrandId) (t : Strand) : (k.setStrand st t).storage = k.storage.setStrand st t.storage := by
  simp only [Core.storage, Core.setStrand, Vector.map_set]
/-- Changes that store the same leave equal storage of equal storage. -/
theorem State.storage_updCore_congr {s v : State} (h : v.storage = s.storage) (c : CoreId) {f g : Core → Core}
    (hf : (f (v.core c)).storage = (g (s.core c)).storage) : (v.updCore c f).storage = (s.updCore c g).storage := by
  simp only [State.updCore, State.storage_setCore_eq, h, hf]
theorem State.storage_updStrand_congr {s v : State} (h : v.storage = s.storage) (c : CoreId) (st : StrandId) {f g : Strand → Strand}
    (hf : (f (v.strand c st)).storage = (g (s.strand c st)).storage) : (v.updStrand c st f).storage = (s.updStrand c st g).storage := by
  refine State.storage_updCore_congr h c ?_
  rw [Core.storage_setStrand_eq, Core.storage_setStrand_eq, State.storage_core h]
  exact congrArg _ hf

variable {s v : State} {c : CoreId} {st : StrandId}

/-- Returning to user level stores the level and the empty latches alone, and each latch is pending again (R343). -/
theorem State.returnUser_spec (v : State) :
    (v.returnUser c st).storage = (v.updStrand c st fun o => { o with level := false, latches := [] }).storage ∧
    (∀ k d p w, v.Pending k d p w → (v.returnUser c st).Pending k d p w) ∧
    ∀ l ∈ (v.strand c st).latches, (v.returnUser c st).Pending (.dt (v.bidOf c)) (v.dt c + l.r) (writePrio st l.fl.ord)
      (.ev (.latchReinject c st { l.fl.res with ord := l.fl.ord })) := by
  let u := v.updStrand c st fun o => { o with level := false, latches := [] }
  have bid : u.bidOf c = v.bidOf c := by simp [u, State.bidOf]
  obtain ⟨stored, stays, posted⟩ := State.foldl_posts u (fun _ : Flight => .dt (v.bidOf c)) (·.w) (fun f => writePrio st f.ord)
    (fun f => .ev (.latchReinject c st { f.res with ord := f.ord })) (fun u f => u.post (.dt (u.bidOf c)) f.w (writePrio st f.ord)
      (.ev (.latchReinject c st { f.res with ord := f.ord }))) (fun w f hw => by simp only [State.storage_bidOf hw, bid])
    ((v.strand c st).latches.map fun l => { l.fl with w := v.dt c + l.r })
    (v.updStrand c st fun t => { t with
      level := false, latches := [], flights := t.flights ++ (v.strand c st).latches.map fun l => { l.fl with w := v.dt c + l.r }
      pos := t.tepc.toNat % 2 ^ 15, reach := .jump, prev := some (v.dt c), base := v.dt c + 1, blocked := none, wait := none })
    (State.storage_updStrand_congr rfl c st rfl)
  exact ⟨stored, stays, fun l hl => posted _ (List.mem_map_of_mem hl)⟩

/-- Returning to the trap around it stores that trap's registers alone, and each latch is pending again (R187). -/
theorem State.returnNested_posts (v : State) (g : Frame) (rest : List Frame) :
    (v.returnNested c st g rest).storage = (v.updStrand c st fun o => { o with
      frames := rest, tcause := g.tcause, tepc := g.tepc, tinfo0 := g.tinfo0, tinfo1 := g.tinfo1, tdt := g.tdt
      tprev := g.tprev, tlsel := g.tlsel, latches := g.latches }).storage ∧
    (∀ k d p w, v.Pending k d p w → (v.returnNested c st g rest).Pending k d p w) ∧
    ∀ l ∈ (v.strand c st).latches, (v.returnNested c st g rest).Pending (.cyc c) ((v.core c).cyc + l.r) (writePrio st l.fl.ord)
      (.flight c st l.fl.ord) := by
  let u := v.updStrand c st fun o => { o with
    frames := rest, tcause := g.tcause, tepc := g.tepc, tinfo0 := g.tinfo0, tinfo1 := g.tinfo1, tdt := g.tdt
    tprev := g.tprev, tlsel := g.tlsel, latches := g.latches }
  obtain ⟨stored, stays, posted⟩ := State.foldl_posts u (fun _ : Flight => .cyc c) (·.w) (fun f => writePrio st f.ord)
    (fun f => .flight c st f.ord) (fun u f => u.post (.cyc c) f.w (writePrio st f.ord) (.flight c st f.ord)) (fun _ _ _ => rfl)
    ((v.strand c st).latches.map fun l => { l.fl with w := (v.core c).cyc + l.r })
    (v.updStrand c st fun t => { t with
      frames := rest, tcause := g.tcause, tepc := g.tepc, tinfo0 := g.tinfo0, tinfo1 := g.tinfo1, tdt := g.tdt
      tprev := g.tprev, tlsel := g.tlsel, latches := g.latches
      flights := t.flights ++ (v.strand c st).latches.map fun l => { l.fl with w := (v.core c).cyc + l.r }
      pos := t.tepc.toNat % 2 ^ 15, reach := .jump, prev := some (v.core c).cyc, base := (v.core c).cyc + 1, blocked := none, wait := none })
    (State.storage_updStrand_congr rfl c st rfl)
  exact ⟨stored, stays, fun l hl => posted _ (List.mem_map_of_mem hl)⟩

end Returns

/-- Settles O22: the issue and its pushes leave the trap registers alone, and the return reads them. -/
theorem eretReturnsFromTheTrap : Obligations.EretReturnsFromTheTrap := by
  intro s c st h hi o cyc resumes
  let r : Req := { priv := true, transfers := true }
  let v := (s.issued c st h r).pushNow (s.turn c st h r)
  have step : exec (.eret h) s = .next (v.returnFrom c st) := issue_ready hi _
  have stored : v.storage = s.storage := (State.pushNow_storage _ _).trans (s.issued_storage c st h r)
  have regs : SameRegs o (v.strand c st) := State.storage_regs stored c st
  have bank : (v.strand c st).storage = o.storage := Core.storage_strand (State.storage_core stored c) st
  have place : (v.strand c st).loops = o.loops := by
    have := congrArg (·.2.2) (s.issued_stays c st h r rfl)
    simpa [v] using this
  have flights : (v.strand c st).flights = o.flights := by simp [v, o]
  have pushes : s.Pushes v c st h 0 := State.pushNow_pushes s c st h r
  have dt := State.storage_dt stored c
  have bid := State.storage_bidOf stored c
  have at' := State.storage_cyc stored c
  refine ⟨fun hf => ⟨_, step, ?_⟩, fun g rest hf => ⟨_, step, ?_⟩⟩
  · have hf' : (v.strand c st).frames = [] := regs.frames.trans hf
    have user : v.returnFrom c st = v.returnUser c st := by simp only [State.returnFrom, hf']
    obtain ⟨strand, -⟩ := v.returnFrom_spec c st hf'
    obtain ⟨changed, stays, posted⟩ := State.returnUser_spec (c := c) (st := st) v
    rw [dt, bid, regs.latches] at posted
    rw [user] at strand ⊢
    refine ⟨?_, posted⟩
    simp only [resumes, strand, regs.tepc, regs.latches, place, flights, dt, true_and]
    exact ⟨fun hp => stays _ _ _ _ (pushes hp), changed.trans (State.storage_updStrand_congr stored c st
      (congrArg (fun o : Strand => { o with level := false, latches := [] }) bank))⟩
  · have hf' : (v.strand c st).frames = g :: rest := regs.frames.trans hf
    have nested : v.returnFrom c st = v.returnNested c st g rest := by simp only [State.returnFrom, hf']
    obtain ⟨strand, -⟩ := v.returnNested_spec c st g rest hf'
    obtain ⟨changed, stays, posted⟩ := State.returnNested_posts (c := c) (st := st) v g rest
    rw [at', regs.latches] at posted
    rw [nested] at strand ⊢
    refine ⟨?_, posted⟩
    simp only [resumes, strand, regs.tepc, regs.latches, place, flights, at', cyc, true_and]
    exact ⟨fun hp => stays _ _ _ _ (pushes hp), changed.trans (State.storage_updStrand_congr stored c st
      (congrArg (fun o : Strand => { o with
        frames := rest, tcause := g.tcause, tepc := g.tepc, tinfo0 := g.tinfo0, tinfo1 := g.tinfo1, tdt := g.tdt
        tprev := g.tprev, tlsel := g.tlsel, latches := g.latches }) bank))⟩

end Sys2Proof.Machine

/-! The write of a result (R17, R65, R71, R213). -/

namespace Sys2Proof.Machine

section Writes

/-- A descriptor of its bits has those bits. -/
@[simp] theorem Desc.toBits_ofBits (b : BitVec 256) : (Desc.ofBits b).toBits = b := by
  refine BitVec.eq_of_getLsbD_eq fun i hi => ?_
  simp only [Desc.toBits, Desc.ofBits, BitVec.getLsbD_append, BitVec.getLsbD_extractLsb']
  grind

/-- What the write of a result leaves in a core: the bits of its mask in its one destination are new, everything else is as before. -/
structure Core.Wrote (a m : Core) (st : StrandId) (r : Result) : Prop where
  x : ∀ d : XReg, (m.strand st).x[d.toNat] = if r.target = .x false d ∧ d ≠ 0 then
    merge (a.strand st).x[d.toNat] (r.data.setWidth 64) (r.mask.setWidth 64) else (a.strand st).x[d.toNat]
  xs : ∀ d : XReg, (m.strand st).xs[d.toNat] = if r.target = .x true d ∧ d ≠ 0 then
    merge (a.strand st).xs[d.toNat] (r.data.setWidth 64) (r.mask.setWidth 64) else (a.strand st).xs[d.toNat]
  v : ∀ d : VReg, m.v[d.toNat] = if r.target = .v d then merge a.v[d.toNat] r.data r.mask else a.v[d.toNat]
  k : ∀ d : KReg, m.k[d.toNat] = if r.target = .k d ∧ d ≠ 0 then
    merge a.k[d.toNat] (r.data.setWidth 256) (r.mask.setWidth 256) else a.k[d.toNat]
  q : ∀ d : QReg, m.q[d.toNat].toBits = if r.target = .q d then
    merge a.q[d.toNat].toBits (r.data.setWidth 256) (r.mask.setWidth 256) else a.q[d.toNat].toBits
  rest : ∃ x xs, m.strand st = { a.strand st with x := x, xs := xs }
  others : ∀ o, o ≠ st → m.strand o = a.strand o
  mem : SameCoreMem a m

/-- Equal cores agree in every memory. -/
theorem SameCoreMem.refl (k : Core) : SameCoreMem k k := ⟨rfl, rfl, rfl, rfl, rfl, rfl, rfl, rfl, fun _ => rfl⟩
theorem SameCoreMem.trans {a b d : Core} (h : SameCoreMem a b) (g : SameCoreMem b d) : SameCoreMem a d :=
  ⟨g.ls.trans h.ls, g.wb0.trans h.wb0, g.wb1.trans h.wb1, g.active.trans h.active, g.acc.trans h.acc, g.code.trans h.code,
    g.handler.trans h.handler, g.breg.trans h.breg, fun q => (g.scales q).trans (h.scales q)⟩

variable (k : Core) (st : StrandId) (r : Result)

/-- Forgetting the errors of rewritten words touches nothing else. -/
theorem Core.heal_spec (store : Fin 9) (ps : List Nat) :
    ∃ a v l, k.heal store ps = { k with badAcc := a, badV := v, corr := l } := by
  unfold Core.heal
  split
  · exact ⟨_, _, _, rfl⟩
  · exact ⟨_, _, _, rfl⟩

/-- The element written to a vector of registers reads as written, at its number alone. -/
theorem getElem_set_reg {α : Type} {w n : Nat} (v : Vector α n) (d e : BitVec w) (x : α) (hd : d.toNat < n) (he : e.toNat < n) :
    (v.set d.toNat x)[e.toNat] = if d = e then x else v[e.toNat] := by
  simp only [Vector.getElem_set, BitVec.toNat_inj]

/-- The write of an x register at each level; x0 takes none. -/
theorem Strand.wx_zero (t : Strand) (sys : Bool) (w : Word) : t.wx sys 0 w = t := if_pos rfl
theorem Strand.wx_user {d : XReg} (h : d ≠ 0) (t : Strand) (w : Word) : t.wx false d w = { t with x := t.x.set d.toNat w } := if_neg h
theorem Strand.wx_system {d : XReg} (h : d ≠ 0) (t : Strand) (w : Word) : t.wx true d w = { t with xs := t.xs.set d.toNat w } := if_neg h

/-- A written x register reads as written in its own bank, unless it is x0; every other register, and the rest of the strand, stays. -/
theorem Strand.wx_x (t : Strand) (sys : Bool) (d e : XReg) (w : Word → Word) :
    (t.wx sys d (w (if sys then t.xs[d.toNat] else t.x[d.toNat]))).x[e.toNat] =
      if RegTarget.x sys d = .x false e ∧ e ≠ 0 then w t.x[e.toNat] else t.x[e.toNat] := by
  simp only [RegTarget.x.injEq]
  by_cases h0 : d = 0
  · rw [h0, Strand.wx_zero, if_neg fun h => h.2 h.1.2.symm]
  · cases sys
    · rw [Strand.wx_user h0, if_neg Bool.false_ne_true, getElem_set_reg]
      by_cases e' : d = e
      · subst e'; rw [if_pos rfl, if_pos ⟨⟨rfl, rfl⟩, h0⟩]
      · simp [e']
    · rw [Strand.wx_system h0]; simp
theorem Strand.wx_xs (t : Strand) (sys : Bool) (d e : XReg) (w : Word → Word) :
    (t.wx sys d (w (if sys then t.xs[d.toNat] else t.x[d.toNat]))).xs[e.toNat] =
      if RegTarget.x sys d = .x true e ∧ e ≠ 0 then w t.xs[e.toNat] else t.xs[e.toNat] := by
  simp only [RegTarget.x.injEq]
  by_cases h0 : d = 0
  · rw [h0, Strand.wx_zero, if_neg fun h => h.2 h.1.2.symm]
  · cases sys
    · rw [Strand.wx_user h0]; simp
    · rw [Strand.wx_system h0, if_pos rfl, getElem_set_reg]
      by_cases e' : d = e
      · subst e'; rw [if_pos rfl, if_pos ⟨⟨rfl, rfl⟩, h0⟩]
      · simp [e']
theorem Strand.wx_rest (t : Strand) (sys : Bool) (d : XReg) (w : Word) : ∃ x xs, t.wx sys d w = { t with x := x, xs := xs } := by
  unfold Strand.wx
  split
  · exact ⟨_, _, rfl⟩
  · split <;> exact ⟨_, _, rfl⟩

/-- The write of a result, destination by destination. -/
theorem Core.writeReg_wrote : k.Wrote (k.writeReg st r) st r := by
  unfold Core.writeReg
  split
  case h_1 h => exact ⟨by simp [h], by simp [h], by simp [h], by simp [h], by simp [h], ⟨_, _, rfl⟩, fun _ _ => rfl, SameCoreMem.refl k⟩
  case h_2 sys d h =>
    refine ⟨fun e => ?_, fun e => ?_, by simp [h], by simp [h], by simp [h], ?_, fun o ho => Core.strand_setStrand_ne k _ ho,
      ⟨rfl, rfl, rfl, rfl, rfl, rfl, rfl, rfl, fun _ => rfl⟩⟩
    · simp only [Core.strand_setStrand, h]
      exact Strand.wx_x _ sys d e fun old => merge old (r.data.setWidth 64) (r.mask.setWidth 64)
    · simp only [Core.strand_setStrand, h]
      exact Strand.wx_xs _ sys d e fun old => merge old (r.data.setWidth 64) (r.mask.setWidth 64)
    · rw [Core.strand_setStrand]
      exact Strand.wx_rest _ _ _ _
  case h_3 d h =>
    obtain ⟨a, v, l, heal⟩ := k.heal_spec 3 (wholeWords d r.mask)
    rw [heal]
    refine ⟨by simp [h, Core.strand], by simp [h, Core.strand], fun e => ?_, by simp [h], by simp [h], ⟨_, _, rfl⟩, fun _ _ => rfl,
      ⟨rfl, rfl, rfl, rfl, rfl, rfl, rfl, rfl, fun _ => rfl⟩⟩
    rw [getElem_set_reg, h]
    by_cases e' : d = e <;> simp [e']
  case h_4 d h =>
    split
    · next h0 => exact ⟨by simp [h], by simp [h], by simp [h], by simp +contextual [h, h0], by simp [h], ⟨_, _, rfl⟩, fun _ _ => rfl, SameCoreMem.refl k⟩
    · next h0 =>
      refine ⟨by simp [h, Core.strand], by simp [h, Core.strand], by simp [h], fun e => ?_, by simp [h], ⟨_, _, rfl⟩, fun _ _ => rfl,
        ⟨rfl, rfl, rfl, rfl, rfl, rfl, rfl, rfl, fun _ => rfl⟩⟩
      rw [getElem_set_reg, h]
      by_cases e' : d = e
      · subst e'; rw [if_pos rfl, if_pos ⟨rfl, h0⟩]
      · simp [e']
  case h_5 d h =>
    refine ⟨by simp [h, Core.strand], by simp [h, Core.strand], by simp [h], by simp [h], fun e => ?_, ⟨_, _, rfl⟩, fun _ _ => rfl,
      ⟨rfl, rfl, rfl, rfl, rfl, rfl, rfl, rfl, fun _ => rfl⟩⟩
    rw [getElem_set_reg, h]
    by_cases e' : d = e <;> simp [e']

/-- Rounding reads the generators alone. -/
theorem Core.roundStoch_congr {k m : Core} (h : m.gens = k.gens) (r : Result) : (m.roundStoch r).2 = (k.roundStoch r).2 := by
  have fold : ∀ (l : List Stoch) (a b : Core) (r : Result), b.gens = a.gens →
      ∀ f : Core × Result → Stoch → Core × Result, (∀ a b r e, b.gens = a.gens → (f (b, r) e).2 = (f (a, r) e).2 ∧ (f (b, r) e).1.gens = (f (a, r) e).1.gens) →
      (l.foldl f (b, r)).2 = (l.foldl f (a, r)).2 := by
    intro l
    induction l with
    | nil => exact fun _ _ _ _ _ _ => rfl
    | cons e l ih =>
      intro a b r h f hf
      obtain ⟨result, gens⟩ := hf a b r e h
      rw [List.foldl_cons, List.foldl_cons, ← Prod.eta (f (b, r) e), ← Prod.eta (f (a, r) e), result]
      exact ih _ _ _ gens f hf
  refine fold r.stoch k m _ h _ fun a b r e h => ?_
  simp only [h, and_self]

end Writes

/-! ### A result that lands and performs -/

section Landing

variable (s : State) (c : CoreId) (st : StrandId) (r : Result)

theorem foldr_restore_storage : ∀ (l : List (Fin 8 × Token)) (k : Core),
    (l.foldr (fun (p : Fin 8 × Token) k => k.updFifo p.1 (·.restore [p.2])) k).storage = k.storage
  | [], _ => rfl
  | _ :: l, k => foldr_restore_storage l k

/-- Tokens that go back leave every strand. -/
theorem State.strand_restored (l : List (Fin 8 × Token)) (o : StrandId) :
    (s.updCore c fun k => l.foldr (fun (f, tok) k => k.updFifo f (·.restore [tok])) k).strand c o = s.strand c o := by
  rw [State.strand, State.core_updCore]
  exact congrArg (fun v : Vector Strand 4 => v[o.num.val]) (foldr_restore_strands l (s.core c))

/-- A result that leaves the ones in flight stores nothing, ... -/
@[simp] theorem State.land_storage : (s.land c st r).storage = s.storage :=
  (State.storage_updStrand _ c st _ rfl).trans (s.storage_updCore c _ (foldr_restore_storage _ _))
/-- ... changes its own strand in nothing else, no other strand and no other core. -/
theorem State.land_strand : ∃ fs, (s.land c st r).strand c st = { s.strand c st with flights := fs } := by
  unfold State.land
  rw [State.strand_updStrand, State.strand_restored]
  exact ⟨_, rfl⟩
theorem State.land_strand_ne {o : StrandId} (h : o ≠ st) : (s.land c st r).strand c o = s.strand c o := by
  unfold State.land
  rw [State.strand_updStrand_ne _ _ (by simp [h]), State.strand_restored]
theorem State.land_core_ne {d : CoreId} (h : d ≠ c) : (s.land c st r).core d = s.core d := by simp [State.land, h]

/-- A result without poison and without pushes performs as its write and its flags. -/
theorem State.perform_plain (hp : r.poison = none) (h1 : r.pushP = false) (h2 : r.pushN = false) : s.perform c st r = s.updCore c fun k =>
    (((k.roundStoch r).1.writeReg st (k.roundStoch r).2).setStrand st
      ((((k.roundStoch r).1.writeReg st (k.roundStoch r).2).strand st).flag (k.roundStoch r).2.flags)) := by
  simp [State.perform, hp, h1, h2, State.pushFor]

end Landing

/-- A written result leaves its destination and its flags; nothing of any other core. -/
theorem Core.writes_of {k : Core} {st : StrandId} (r₀ : Result) :
    let r := (k.roundStoch r₀).2
    let m := (k.roundStoch r₀).1.writeReg st r
    k.Wrote m st r := by
  intro r m
  obtain ⟨⟨g, hg⟩, -⟩ := k.roundStoch_spec r₀
  have w : (k.roundStoch r₀).1.Wrote m st r := Core.writeReg_wrote _ st r
  rw [hg] at w
  exact ⟨w.x, w.xs, w.v, w.k, w.q, w.rest, w.others, ⟨w.mem.ls, w.mem.wb0, w.mem.wb1, w.mem.active, w.mem.acc, w.mem.code, w.mem.handler, w.mem.breg, w.mem.scales⟩⟩

/-! ### A poisoned result -/

section Poison

variable (s : State) (c : CoreId) (st : StrandId) (i : TrapInfo)

/-- Entering a trap changes its core in the strand and the generators alone. -/
theorem State.enterTrap_core : ∃ g ts, (s.enterTrap c st i).core c = { s.core c with gens := g, strands := ts } := by
  obtain ⟨⟨g, hg⟩, -⟩ := (s.core c).roundFlights_spec (s.capturable c st)
  refine ⟨g, ((s.enterTrap c st i).core c).strands, ?_⟩
  simp [State.enterTrap, hg, Core.setStrand]

/-- An error record touches no core and no memory. -/
theorem State.event_frame (kind : Nat) (ws : List Word) :
    (s.event kind ws).cores = s.cores ∧ (s.event kind ws).gm = s.gm ∧ (s.event kind ws).bindings = s.bindings ∧ (s.event kind ws).hc = s.hc := by
  unfold State.event
  simp only []
  split
  · exact ⟨rfl, rfl, rfl, rfl⟩
  · split <;> exact ⟨rfl, rfl, rfl, rfl⟩
@[simp] theorem State.errorRecord_core (src : Fin 9) (addr bid unit : Nat) (d : CoreId) : (s.errorRecord src addr bid unit).core d = s.core d :=
  congrArg (fun v : Vector Core 256 => v[d.val]) (State.event_frame _ _ _).1
@[simp] theorem State.errorRecord_strand (src : Fin 9) (addr bid unit : Nat) (d : CoreId) (o : StrandId) :
    (s.errorRecord src addr bid unit).strand d o = s.strand d o := by simp [State.strand]
@[simp] theorem State.errorRecord_gm (src : Fin 9) (addr bid unit : Nat) : (s.errorRecord src addr bid unit).gm = s.gm := (State.event_frame _ _ _).2.1

/-- What MEMERR for a poisoned datum leaves: the trap's record, every register and every memory (R385). -/
theorem State.memErr_records {s : State} {c : CoreId} {st : StrandId} (store : Fin 9) (a pos : Nat) (hl : (s.strand c st).level = false)
    (hw : (s.strand c st).wait = none) :
    let o := s.strand c st
    let t := s.memErr c st store a pos
    let u := t.strand c st
    (u.level = true ∧ u.tcause.toNat % 256 = 11 ∧ u.tcause.getLsbD 8 = true ∧ u.tepc = BitVec.ofNat 64 (o.pos % 2 ^ 15) ∧
      u.tinfo0 = BitVec.ofNat 64 a ∧ u.tinfo1 = BitVec.ofNat 64 pos) ∧ (u.x = o.x ∧ u.xs = o.xs ∧ u.fcsr = o.fcsr) ∧
    (∃ g ts, t.core c = { s.core c with gens := g, strands := ts }) ∧ t.gm = s.gm := by
  let e := s.errorRecord store a (s.bidOf c) c.val
  let i : TrapInfo := { cause := 11, epc := (e.strand c st).pos, i0 := BitVec.ofNat 64 a, i1 := BitVec.ofNat 64 pos, async := true }
  have own : e.strand c st = s.strand c st := State.errorRecord_strand s ..
  have core : e.core c = s.core c := State.errorRecord_core s ..
  have user : (e.strand c st).level = false := own ▸ hl
  have idle : (e.strand c st).wait = none := own ▸ hw
  have trapped : (e.trap c st i).core c = (e.enterTrap c st (i.at (e.strand c st).pos)).core c := by
    rw [State.trap_enter user idle, State.dispose_core]
  have there : (e.trap c st i).strand c st = (e.enterTrap c st (i.at (e.strand c st).pos)).strand c st := congrArg (Core.strand · st) trapped
  obtain ⟨level, ⟨cause, async, -⟩, ⟨tepc, i0, i1, -⟩, -, ⟨x, xs, fcsr, -⟩, -⟩ :=
    e.enterTrap_strand c st (i.at (e.strand c st).pos) (by simp [i])
  rw [← there] at level cause async tepc i0 i1 x xs fcsr
  rw [own] at x xs fcsr
  rw [TrapInfo.at_cause] at cause
  rw [TrapInfo.at_async] at async
  rw [TrapInfo.at_epc, own] at tepc
  rw [TrapInfo.at_i0] at i0
  rw [TrapInfo.at_i1] at i1
  obtain ⟨-, gm, -⟩ := State.trap_frame (i := i) user idle
  exact ⟨⟨level, cause, async, tepc, i0, i1⟩, ⟨x, xs, fcsr⟩, core ▸ trapped ▸ e.enterTrap_core c st (i.at (e.strand c st).pos),
    gm.trans (State.errorRecord_gm s ..)⟩

/-- A poisoned result of a running strand is MEMERR, behind the slots that its pushes give back. -/
theorem State.perform_poisoned {s : State} {c : CoreId} {st : StrandId} {r : Result} {store : Fin 9} {a : Nat} (hp : r.poison = some (store, a))
    (hr : (s.strand c st).run = .running) : ∃ u : State, s.perform c st r = u.memErr c st store a r.pos ∧ u.storage = s.storage ∧
      u.strand c st = s.strand c st := by
  let u := s.updCore c fun k => (k.updFifo (pushFifo st false) (·.release r.pushP.toNat)).updFifo (pushFifo st true) (·.release r.pushN.toNat)
  have own : u.strand c st = s.strand c st := by simp [u, State.strand]
  refine ⟨u, ?_, State.storage_updCore s c _ rfl, own⟩
  simp only [State.perform, hp]
  exact if_pos ((congrArg Strand.run own).trans hr)

end Poison

/-- Settles O25: a poisoned result traps behind its error record; any other is the write of its rounded form. -/
theorem resultsWriteTheirDestinationOnly : Obligations.ResultsWriteTheirDestinationOnly := by
  refine ⟨fun s c st r store a hp hr hl hw => ?poison, fun s c st r₀ hp h1 h2 => ?writes⟩
  case poison =>
    obtain ⟨fs, own⟩ := s.land_strand c st r
    obtain ⟨u, step, stored, same⟩ := State.perform_poisoned hp ((congrArg Strand.run own).trans hr)
    rw [own] at same
    have bank : (u.core c).storage = (s.core c).storage := State.storage_core (stored.trans (s.land_storage c st r)) c
    have mem := Core.storage_coreMem bank
    obtain ⟨v, k, q, -⟩ := Core.storage_coreRegs bank
    obtain ⟨⟨level, cause, async, tepc, i0, i1⟩, ⟨x, xs, fcsr⟩, ⟨g, ts, core⟩, gm⟩ :=
      State.memErr_records store a r.pos ((congrArg Strand.level same).trans hl) ((congrArg Strand.wait same).trans hw)
    rw [same] at tepc x xs fcsr
    refine ⟨_, congrArg Host.Outcome.next step, level, cause, async, tepc, i0, i1, x, xs, fcsr, ?_⟩
    rw [core]
    exact ⟨v, k, q, mem.trans ⟨rfl, rfl, rfl, rfl, rfl, rfl, rfl, rfl, fun _ => rfl⟩, gm.trans (State.storage_gm (stored.trans (s.land_storage c st r)))⟩
  case writes =>
    intro r
    let u := s.land c st r₀
    obtain ⟨fs, strand⟩ := s.land_strand c st r₀
    have landed : (u.core c).strand st = { s.strand c st with flights := fs } := strand
    have others : ∀ o, o ≠ st → u.strand c o = s.strand c o := fun o h => s.land_strand_ne c st r₀ h
    have bank : (u.core c).storage = (s.core c).storage := State.storage_core (s.land_storage c st r₀) c
    obtain ⟨v, k, q, -, -, gens, -⟩ := Core.storage_coreRegs bank
    have mem := Core.storage_coreMem bank
    have rounded : ((u.core c).roundStoch r₀).2 = r := Core.roundStoch_congr gens r₀
    let m := ((u.core c).roundStoch r₀).1.writeReg st r
    let t := u.updCore c fun _ => m.setStrand st ((m.strand st).flag r.flags)
    have step : exec (.resultWrite c st r₀) s = .next t := by
      have := u.perform_plain c st r₀ hp h1 h2
      exact congrArg Host.Outcome.next (this.trans (by simp only [rounded, State.updCore, t, m]))
    have wrote : (u.core c).Wrote m st r := by simpa only [rounded] using Core.writes_of (k := u.core c) (st := st) r₀
    obtain ⟨wx, wxs, wv, wk, wq, ⟨xs', xs'', rest⟩, wo, wm⟩ := wrote
    have core : t.core c = m.setStrand st ((m.strand st).flag r.flags) := State.core_updCore u c _
    have own : t.strand c st = { s.strand c st with x := xs', xs := xs'', flights := fs, fcsr := (s.strand c st).fcsr ||| r.flags.setWidth 64 } := by
      rw [State.strand, core, Core.strand_setStrand, rest, landed]
      rfl
    refine ⟨fun h => congrArg Prod.snd (Core.roundStoch_none _ _ h), t, step, ?_⟩
    simp only [rest, landed] at wx wxs
    rw [own, core]
    refine ⟨rfl, wx, wxs, v ▸ wv, k ▸ wk, q ▸ wq, fun o h => ?_, fun d h => ?_, ?_, ?_, ?_, rfl, rfl, rfl⟩
    · rw [State.strand, core, Core.strand_setStrand_ne _ _ h, wo o h]
      exact others o h
    · exact (State.core_updCore_ne u _ h).trans (s.land_core_ne c st r₀ h)
    · exact mem.trans (wm.trans ⟨rfl, rfl, rfl, rfl, rfl, rfl, rfl, rfl, fun _ => rfl⟩)
    · rfl
    · rfl

end Sys2Proof.Machine

/-! Control and tokens (R165-R174): what each effect leaves after its issue. -/

namespace Sys2Proof.Machine

section Control

variable {s : State} {c : CoreId} {st : StrandId} {h : Hdr} {r : Req}

/-- Pushes that no token bit asks for add nothing to the calendar. -/
theorem State.pushNow_cal {v : State} (hp : (h.pap || h.pan) = false) : (v.pushNow (s.turn c st h r)).cal = v.cal :=
  congrArg State.cal ((v.pushNow_spec (s.turn c st h r)).2.2.2.2 hp)

end Control

/-- Settles O27. -/
theorem nopAndWaitDoOnlyWhatTheySay : Obligations.NopAndWaitDoOnlyWhatTheySay := by
  intro s c st h n hi
  have place := congrArg (·.1) (s.issued_place c st h {} rfl)
  refine ⟨⟨_, issue_ready hi _, ?_, ?_, ?_, ?_, s.pushNow_pushes c st h {}, fun hp => (State.pushNow_cal hp).trans (s.issued_cal c st h {})⟩,
    ⟨_, issue_ready hi _, ?_, ?_, ?_, ?_, ?_, fun h' d hd => ?_, State.pushes_of ?_, fun hp => (State.pushNow_cal hp).trans (s.issued_cal c st h {})⟩⟩
  · exact (s.issued_advanced c st h {} rfl).of_strand (by simp [noEffect])
  · simp [noEffect]
  · simp [noEffect]
  · simp [noEffect]
  · exact (State.pushNow_storage _ _).trans ((State.storage_updStrand _ c st _ rfl).trans (s.issued_storage c st h {}))
  · simp
  · simp
  · simp
  · simpa using place
  · simp [earliest, hd]
  · exact (State.storage_updStrand _ c st _ rfl).trans (s.issued_storage c st h {})

/-- Settles O29: call and ret transfer as a branch that is taken does, behind the link and the monitor's record of the return. -/
theorem callsAndReturnsTransfer : Obligations.CallsAndReturnsTransfer := by
  intro s c st h d a tgt at'
  refine ⟨fun hi => ?call, fun hi => ?jr, fun hi => ?ret⟩
  case call =>
    let r : Req := { transfers := true, writes := true }
    let v := (s.issued c st h r).updStrand c st fun t => { t with lastCall := some (s.now c st) }
    have stored : v.storage = s.storage := (State.storage_updStrand _ c st _ rfl).trans (s.issued_storage c st h r)
    have loops : ((s.issued c st h r).strand c st).loops = (s.strand c st).loops := congrArg (·.2.2) (s.issued_stays c st h r rfl)
    let link : Result := { xResult (s.strand c st).level d (BitVec.ofNat 64 (successor (s.fetchMem c st) (s.strand c st).pos).1) with
      pos := (s.strand c st).pos, ord := (s.strand c st).ord }
    have flies : s.Flies (v.fly c st 1 link true false) c st 1 link true false := State.flies_of stored (by simp [v]) rfl
    have step : exec (.call h d tgt) s = .next (((v.fly c st 1 link true false).goto (s.turn c st h r) tgt.toNat .jump).pushNow (s.turn c st h r)) := by
      refine (issue_ready hi _).trans (congrArg Host.Outcome.next ?_)
      have mem : (s.issued c st h r).fetchMem c st = s.fetchMem c st := State.storage_fetchMem (s.issued_storage c st h r) c st
      show callEffect d tgt (s.turn c st h r) (s.issued c st h r) = _
      unfold callEffect
      simp only [State.turn_c, State.turn_st, State.turn_pos, State.turn_sys, State.turn_ord, State.turn_now, mem, v, link]
    refine ⟨_, step, ⟨?_, State.pushes_of ?_, ?_⟩, flies.mono ?_ fun _ _ _ _ hp => ?_⟩
    · simpa using stored
    · simpa using stored
    · simp [v, loops]
    · simp
    · exact (State.Pending.of_cal (t := (v.fly c st 1 link true false).goto (s.turn c st h r) tgt.toNat .jump) hp rfl).pushNow _
  case jr =>
    obtain ⟨t, step, stored, pushes, prev, base, taken, -⟩ := State.branches_taken (pos := (s.reg a).toNat) hi
    obtain ⟨pos, reach, loops⟩ := taken rfl
    exact ⟨t, step, stored, pushes, pos.trans (congrArg _ (hi.reg a)), reach, loops, prev, base⟩
  case ret =>
    let r : Req := { transfers := true }
    have loops : ((s.issued c st h r).strand c st).loops = (s.strand c st).loops := congrArg (·.2.2) (s.issued_stays c st h r rfl)
    obtain ⟨v, kept, e⟩ : ∃ v, Kept (s.issued c st h r) v ∧ exec (.ret h a) s =
        .next ((v.goto (s.turn c st h r) (s.x c st a).toNat .jump).pushNow (s.turn c st h r)) := by
      have step : exec (.ret h a) s = _ := issue_ready hi _
      simp only [retEffect, State.turn_c, State.turn_st, State.issued_lastCall, hi.reg] at step
      cases hl : (s.strand c st).lastCall with
      | none => exact ⟨_, .refl _, by simpa only [hl] using step⟩
      | some n => exact ⟨_, Kept.capture _ _ _ _ _, by simpa only [hl] using step⟩
    have stored : v.storage = s.storage := kept.storage.trans (s.issued_storage c st h r)
    have prev : (v.strand c st).prev = some (s.now c st) := (congrArg Strand.prev (kept.quiet c st)).trans (s.issued_prev c st h r)
    have base : (v.strand c st).base = s.now c st + 1 := (congrArg Strand.base (kept.quiet c st)).trans (s.issued_base c st h r)
    refine ⟨_, e, ?_, State.pushes_of ?_, ?_⟩
    · simpa using stored
    · simpa using stored
    · simp [(kept.loops c st).trans loops, prev, base]

/-- Settles O32. -/
theorem trapIsTakenInTheNextCycle : Obligations.TrapIsTakenInTheNextCycle := by
  intro s c st h code hi
  have stored := (State.storage_updStrand (s.issued c st h {}) c st (fun t => { t with trapDue := some (1, code.setWidth 64, none) }) rfl).trans
    (s.issued_storage c st h {})
  refine ⟨⟨_, issue_ready hi _, ?_, ?_, State.pushes_of stored, ?_⟩, fun u hr hp hd => ?_⟩
  · exact State.advanced_of (h := h) (r := {}) rfl (by simp) (by simp) (by simp) (by simp) (by simp) (by simp)
  · exact (State.pushNow_storage _ _).trans stored
  · simp
  · simp [State.strandTurn, hr, hp, hd]

/-! ### Hardware loops (R170) -/

/-- A demand that names an illegal form is illegal with that kind, on a strand that may issue it, at any level. -/
theorem Req.illegal_of_ill {r : Req} {t : Strand} {st : StrandId} {h : Hdr} {k : Nat} (hl : r.legal.contains st = true) (hp : r.priv = false)
    (hi : r.ill = some k) : r.illegal t st h = some k := by
  simp only [Req.illegal, hl, hp, hi, Bool.not_true, Bool.false_eq_true, if_false, Bool.false_and, ite_self]

/-- A target that a line of the image holds breaks nothing. -/
theorem targetFault_none {m : Mem} {lines pos tgt : Nat} (hw : tgt % 16 ≠ 15) (hl : tgt / 16 < lines) (hn : tgt % 16 < (linkOf m (tgt / 16)).2.2) :
    targetFault m lines pos tgt = none := by
  simp [targetFault, hw, Nat.not_le.mpr hl, Nat.not_le.mpr hn]

/-- Settles O30. -/
theorem loopsPushPassAndExit : Obligations.LoopsPushPassAndExit := by
  intro s c st h a tgt
  have all : ([.x, .l, .c, .s] : List StrandId).contains st = true := by cases st <;> rfl
  refine ⟨fun d hc ht hn => ?illegal, fun hi => ?issues⟩
  case illegal =>
    have now : earliest h (s.strand c st) ≤ s.now c st := by simpa [earliest, ht] using hn
    have mine : s.mine = s.strand c st := by simp [State.mine, State.me, hc]
    refine ⟨fun hf => ?full, fun he => ?empty⟩
    case full =>
      exact (issue_at hc).trans (congrArg _ (State.attempt_illegal now (Req.illegal_of_ill all rfl (by simp [mine, hf]))))
    case empty =>
      exact (issue_at hc).trans (congrArg _ (State.attempt_illegal now (Req.illegal_of_ill all rfl (by simp [mine, he]))))
  case issues =>
    intro t0 m line
    let r : Req := { transfers := true }
    have loops : ((s.issued c st h r).strand c st).loops = t0.loops := congrArg (·.2.2) (s.issued_stays c st h r rfl)
    have mem : (s.issued c st h r).fetchMem c st = m := State.storage_fetchMem (s.issued_storage c st h r) c st
    refine ⟨fun hl hw hline hword => ?loop, fun hne => ?lexit⟩
    case loop =>
      have ill : (if 4 ≤ s.mine.loops.length then some 7 else none) = none := if_neg (by rw [hi.mine]; exact Nat.not_le.mpr hl)
      have fault : targetFault ((s.core s.me.1).store s.mine.level).1 ((s.core s.me.1).store s.mine.level).2 s.mine.pos tgt.toNat = none := by
        rw [hi.mine, hi.me]
        exact targetFault_none hw hline hword
      have step : exec (.loop h a tgt) s = .next (loopEffect (s.reg a) tgt (s.turn c st h r) (s.issued c st h r)) :=
        issue_when (r := r) hi fault rfl ill rfl rfl rfl _
      rw [hi.reg] at step
      by_cases h0 : s.x c st a = 0
      · simp only [loopEffect, State.turn_c, State.turn_st, mem, h0, if_true] at step
        exact ⟨_, step, by simp, State.pushes_of (by simp), by simp, fun hne => absurd h0 hne, fun _ => by simp [loops, m, line, t0]⟩
      · simp only [loopEffect, State.turn_c, State.turn_st, State.turn_pos, mem, h0, if_false] at step
        have stored : ∀ e : LoopEntry, ((s.issued c st h r).updStrand c st fun t => { t with loops := e :: t.loops }).storage = s.storage := fun e =>
          (State.storage_updStrand _ c st _ rfl).trans (s.issued_storage c st h r)
        exact ⟨_, step, by simp [stored], State.pushes_of (by simp [stored]), by simp, fun _ => by simp [loops, m, t0], fun he => absurd he h0⟩
    case lexit =>
      have ill : (if s.mine.loops.isEmpty then some 7 else none) = none := if_neg (by rw [hi.mine]; simpa [t0] using hne)
      have step : exec (.lexit h tgt) s = _ := issue_when (r := r) hi rfl rfl ill rfl rfl rfl _
      have stored := (State.storage_updStrand (s.issued c st h r) c st (fun t => { t with loops := t.loops.drop 1 }) rfl).trans
        (s.issued_storage c st h r)
      refine ⟨_, step, by simpa using stored, State.pushes_of (by simpa using stored), by simp, by simp [loops], by simp, by simp⟩

/-! ### Tokens (R174) -/

/-- A push makes its tokens stand in its two FIFOs, in slots that were reserved. -/
theorem State.push_fifo (s : State) (c : CoreId) (st : StrandId) (p n : Nat) (f : Fin 8) : ((s.push c st p n).core c).fifo f =
    (((s.core c).updFifo (pushFifo st false) (·.push p ((s.core c).token st))).updFifo (pushFifo st true) (·.push n ((s.core c).token st))).fifo f := by
  simp [State.push]
@[simp] theorem State.push_storage (s : State) (c : CoreId) (st : StrandId) (p n : Nat) : (s.push c st p n).storage = s.storage :=
  State.storage_updCore s c _ rfl

/-- Settles O33. -/
theorem giveAndTakeMoveTheirTokens : Obligations.GiveAndTakeMoveTheirTokens := by
  intro s c st h dir n p m
  have apart := pushFifo_ne st
  have pushes := pushFifo_false_ne st
  have pops := popFifo_ne st
  refine ⟨fun hi => ?give, fun hi => ?take, fun b => ?pushed, fun f hf => ?other, s.push_storage c st p m, rfl⟩
  case give =>
    let r : Req := { pushes := [(pushFifo st dir, n.toNat)] }
    have step : exec (.give h dir n) s = .next ((s.issued c st h r).later c st 0 latePrio
        (.push c st (h.pap.toNat + if dir then 0 else n.toNat) (h.pan.toNat + if dir then n.toNat else 0))) := by
      show issue h { pushes := [(pushFifo s.me.2 dir, n.toNat)] } _ s = _
      rw [hi.me]
      exact issue_ready (r := r) hi _
    have at' := State.later_pending (s.issued c st h r) c st 0 latePrio
      (.push c st (h.pap.toNat + if dir then 0 else n.toNat) (h.pan.toNat + if dir then n.toNat else 0))
    simp only [State.issued_clock, State.issued_now, Nat.add_zero] at at'
    refine ⟨_, step, (s.issued_advanced c st h r rfl).of_strand rfl, s.issued_storage c st h r, at', ?_⟩
    have taken := s.issued_fifo c st h r (pushFifo st dir)
    refine (congrArg Fifo.resv taken).trans ?_
    cases dir <;> simp [apart, pushes, pushes.symm, Fifo.reserve, r, assocGet]
  case take =>
    let r : Req := { pops := [(popFifo st dir, n.toNat)] }
    have step : exec (.take h dir n) s = .next ((s.issued c st h r).pushNow (s.turn c st h r)) := by
      show issue h { pops := [(popFifo s.me.2 dir, n.toNat)] } _ s = _
      rw [hi.me]
      exact issue_ready (r := r) hi _
    refine ⟨_, step, (s.issued_advanced c st h r rfl).of_strand (by simp), by simp, s.pushNow_pushes c st h r, ?_⟩
    rw [State.pushNow_core, s.issued_fifo c st h r (popFifo st dir)]
    cases dir <;> simp [(apart _ _).symm, pops, pops.symm, Fifo.pop, r, assocGet]
  case pushed =>
    rw [State.push_fifo]
    cases b <;> simp [pushes, pushes.symm, Fifo.push]
  case other =>
    rw [State.push_fifo, Core.fifo_updFifo_ne _ _ (hf true), Core.fifo_updFifo_ne _ _ (hf false)]

end Sys2Proof.Machine

/-! Division and remainder (R178), and waiting for a domain time (R167). -/

namespace Sys2Proof.Machine

section Division

variable {s : State} {c : CoreId} {st : StrandId} {h : Hdr} {i : Instr}

/-- A division whose operands are read from the registers at issue yields its value, with DZ when the divisor is zero. -/
theorem State.yields_of_divOp {d : XReg} {v v' : Word} {z dz : Bool} (hi : s.Issues c st h { writes := true })
    (he : exec i s = divOp h d v' z s) (hv : v' = v) (hz : z = dz) :
    s.Yields c st h i 18 { xResult (s.strand c st).level d v with flags := if dz then 0x10 else 0 } true := by
  subst hv hz
  exact State.yields_of rfl (he.trans (issue_ready hi _))

variable (x y : Word)

/-- With a divisor other than 0 the quotients and remainders are those of the machine's words. -/
theorem quotS_eq (hy : y ≠ 0) : quotS x y = x.sdiv y := by
  rw [quotS, if_neg hy]
  refine BitVec.eq_of_toInt_eq ?_
  rw [BitVec.toInt_ofInt, BitVec.toInt_sdiv]
theorem remS_eq (hy : y ≠ 0) : remS x y = x.srem y := by
  rw [remS, if_neg hy]
  refine BitVec.eq_of_toInt_eq ?_
  rw [BitVec.toInt_ofInt, ← BitVec.toInt_srem]
  exact BitVec.toInt_bmod_cancel _

/-- The quotient of two words is exact but for the one overflow. -/
theorem toInt_quotS (hy : y ≠ 0) (ho : ¬(x = 0x8000000000000000 ∧ y = 0xFFFFFFFFFFFFFFFF)) : (quotS x y).toInt = x.toInt.tdiv y.toInt := by
  rw [quotS_eq x y hy]
  exact BitVec.toInt_sdiv_of_ne_or_ne x y (by rw [← not_and_or]; exact ho)
theorem toInt_remS (hy : y ≠ 0) : (remS x y).toInt = x.toInt.tmod y.toInt := by rw [remS_eq x y hy, BitVec.toInt_srem]

/-- A remainder other than 0 has the sign of the dividend. -/
theorem tmod_neg_iff {m n : Int} (h : m.tmod n ≠ 0) : m.tmod n < 0 ↔ m < 0 := by
  by_cases hm : 0 ≤ m
  · have := Int.tmod_nonneg n hm
    omega
  · have := Int.tmod_nonneg (a := -m) n (by omega)
    rw [Int.neg_tmod] at this
    omega

end Division

/-- Settles O37: the model's quotients and remainders are those of the integers, which fit but for the one overflow. -/
theorem divisionYieldsQuotientAndRemainder : Obligations.DivisionYieldsQuotientAndRemainder := by
  intro s c st h d a b hi
  have reads : s.x c st = s.reg := funext fun r => (hi.reg r).symm
  rw [reads]
  intro x y yields
  refine ⟨fun hy => ?zero, fun hx hy => ?overflow, fun hy ho => ?signed, fun hy => ?unsigned⟩
  case zero =>
    have hz : (y == 0) = true := by simp [hy]
    exact ⟨State.yields_of_divOp hi rfl (if_pos hy) hz, State.yields_of_divOp hi rfl (if_pos hy) hz,
      State.yields_of_divOp hi rfl (if_pos hy) hz, State.yields_of_divOp hi rfl (if_pos hy) hz⟩
  case overflow =>
    have quot : quotS x y = 0x8000000000000000 := by rw [hx, hy]; decide
    have rem : remS x y = 0 := by rw [hx, hy]; decide
    have hz : (y == 0) = false := by rw [hy]; decide
    exact ⟨State.yields_of_divOp hi rfl quot hz, State.yields_of_divOp hi rfl rem hz⟩
  case signed =>
    have hz : (y == 0) = false := beq_eq_false_iff_ne.mpr hy
    have hy' : y.toInt ≠ 0 := fun h => hy (BitVec.eq_of_toInt_eq h)
    refine ⟨quotS x y, remS x y, State.yields_of_divOp hi rfl rfl hz, State.yields_of_divOp hi rfl rfl hz, ?_⟩
    rw [toInt_quotS x y hy ho, toInt_remS x y hy]
    refine ⟨(Int.mul_tdiv_add_tmod _ _).symm, ?_, ?_⟩
    · rw [Int.natAbs_tmod]
      exact Nat.mod_lt _ (Int.natAbs_pos.mpr hy')
    · by_cases hr : x.toInt.tmod y.toInt = 0
      · exact .inl (BitVec.eq_of_toInt_eq ((toInt_remS x y hy).trans hr))
      · exact .inr (tmod_neg_iff hr)
  case unsigned =>
    have hz : (y == 0) = false := beq_eq_false_iff_ne.mpr hy
    exact ⟨State.yields_of_divOp hi rfl (if_neg hy) hz, State.yields_of_divOp hi rfl (if_neg hy) hz⟩

/-! ### The end of a wait -/

section Ends

variable (s : State) (c : CoreId) (st : StrandId)

/-- Strands that agree but for a pending interrupt. -/
theorem Strand.eq_of_quiet {a b : Strand} (h : a.quiet = b.quiet) : a = { b with ipend := a.ipend } := by
  cases a
  cases b
  simp only [Strand.quiet, Strand.mk.injEq] at h ⊢
  simpa only [true_and, and_true] using h

/-- Pushes behind a hold are kept with it; any others are made. Neither touches what is stored, or more of a strand than its holds. -/
theorem State.pushFor_spec (ord : Nat) (p n : Bool) :
    (∃ hs, (s.pushFor c st ord p n).strand c st = { s.strand c st with holds := hs }) ∧
    (∀ d o, (d, o) ≠ (c, st) → (s.pushFor c st ord p n).strand d o = s.strand d o) ∧
    (s.pushFor c st ord p n).storage = s.storage ∧ (s.pushFor c st ord p n).cal = s.cal := by
  have pushed : ∀ d o, (s.push c st p.toNat n.toNat).strand d o = s.strand d o := fun d o => by
    by_cases e : d = c
    · subst e; simp [State.push, State.strand, Core.strand, Core.updFifo]
    · simp [State.push, State.strand, e]
  unfold State.pushFor
  split
  · exact ⟨⟨_, rfl⟩, fun _ _ _ => rfl, rfl, rfl⟩
  · split
    · exact ⟨⟨_, State.strand_updStrand ..⟩, fun d o h => State.strand_updStrand_ne s _ h, State.storage_updStrand s c st _ rfl, rfl⟩
    · exact ⟨⟨_, pushed c st⟩, fun d o _ => pushed d o, s.push_storage c st _ _, rfl⟩

/-- What the end of a wait leaves in its strand: the wait is over, and the strand may issue from the next cycle plus `extra`. -/
theorem State.endWait_spec {w : Wait} (hw : (s.strand c st).wait = some w) (extra : Nat) :
    let t := s.endWait c st extra
    let a := match w.why with | .dsync _ => (s.strand c st).arrived && (s.strand c st).level | _ => (s.strand c st).arrived
    (∃ hs ip, t.strand c st = { s.strand c st with wait := none, base := s.now c st + 1 + extra, arrived := a, holds := hs, ipend := ip }) ∧
    t.storage = (s.updStrand c st fun o => { o with arrived := a }).storage ∧ t.cal = s.cal := by
  intro t a
  let u := s.updStrand c st fun t => { t with
    wait := none, base := s.now c st + 1 + extra, arrived := (match w.why with | .dsync _ => t.arrived && t.level | _ => t.arrived) }
  let v := u.pushFor c st w.ord w.pushP w.pushN
  obtain ⟨⟨hs, own⟩, -, stored, cal⟩ := u.pushFor_spec c st w.ord w.pushP w.pushN
  have kept : Kept v t := by
    simp only [t, State.endWait, hw]
    split
    · exact .refl _
    · exact .refl _
    · exact Kept.capture ..
    · exact Kept.capture ..
  have before : u.strand c st = { s.strand c st with wait := none, base := s.now c st + 1 + extra, arrived := a } := State.strand_updStrand ..
  refine ⟨⟨hs, (t.strand c st).ipend, ?_⟩, kept.storage.trans (stored.trans (State.storage_updStrand_congr rfl c st rfl)), kept.cal.trans cal⟩
  rw [Strand.eq_of_quiet (kept.quiet c st), own, before]

/-- The end of any wait but a dsync's stores nothing. -/
theorem State.endWait_storage {w : Wait} (hw : (s.strand c st).wait = some w) (hd : ∀ l, w.why ≠ .dsync l) (extra : Nat) :
    (s.endWait c st extra).storage = s.storage := by
  refine (s.endWait_spec c st hw extra).2.1.trans (State.storage_updStrand s c st _ ?_)
  cases e : w.why with
  | dsync l => exact absurd e (hd l)
  | _ => rfl

end Ends

/-! ### dtwait (R167) -/

/-- A dtwait at system level for a time ahead posts its end on the clock of the binding of its core's ID. -/
theorem State.dtwait_system {s : State} {c : CoreId} {st : StrandId} {h : Hdr} {d a : XReg} {ofs : Word32}
    (hi : s.Issues c st h { writes := true }) (hl : (s.strand c st).level = true)
    (ht : 0 < ((s.x c st a + ofs.signExtend 64).extractLsb' 0 48 - BitVec.ofNat 48 (s.dt c)).toInt) :
    ∃ t n, exec (.dtwait h d a ofs) s = .next t ∧ t.cal =
      ⟨.dt (s.bidOf c), s.read (.dt (s.bidOf c)) + ((s.x c st a + ofs.signExtend 64).extractLsb' 0 48 - BitVec.ofNat 48 (s.dt c)).toInt.toNat,
        latePrio, n, .dtEnd c st (s.strand c st).ord⟩ :: s.cal := by
  let r : Req := { writes := true }
  let target := (s.x c st a + ofs.signExtend 64).extractLsb' 0 48
  let ahead := (target - BitVec.ofNat 48 (s.dt c)).toInt
  let u := s.issued c st h r
  let v := u.waitFor (s.turn c st h r) .dtime d false 0
  have stored := s.issued_storage c st h r
  have effect : dtwaitEffect d target (s.turn c st h r) u = v.laterOn (.dt (s.bidOf c)) ahead.toNat latePrio (.dtEnd c st (s.strand c st).ord) := by
    have waits : ((s.strand c st).level && decide (0 < ahead)) = true := by simp only [hl, ahead, target, ht, decide_true, Bool.and_self]
    have dt : u.dt c = s.dt c := State.storage_dt stored c
    have bid : u.bidOf c = s.bidOf c := State.storage_bidOf stored c
    simp only [dtwaitEffect, State.turn_c, State.turn_st, State.turn_sys, State.turn_ord, dt, bid]
    exact if_pos waits
  have step : exec (.dtwait h d a ofs) s = .next (dtwaitEffect d target (s.turn c st h r) u) := by
    refine (issue_ready (r := r) hi _).trans ?_
    rw [hi.reg]
    rfl
  have clock : v.read (.dt (s.bidOf c)) = s.read (.dt (s.bidOf c)) := State.storage_read ((State.waitFor_storage ..).trans stored) _
  have cal : v.cal = s.cal := s.issued_cal c st h r
  refine ⟨_, v.order, step.trans (congrArg _ effect), ?_⟩
  rw [State.laterOn, State.post, clock, cal]

/-- A core without a task, at system level, beside a binding of ID 0 whose DT is 100: its own DT reads 0, the clock of its binding's ID 100. -/
def strayClock : State :=
  { State.reset with
    cores := Vector.replicate 256 { strands := Vector.replicate 4 { level := true } }
    cur := some (0, .x)
    bindings := [{ bid := 0, launch := {}, queue := 0, run := 0, part := 0, asid := 0, root := 0, cg := false, members := [], stokers := []
                   fslot := 0, rel := 0, relHc := none, dt := 100, live := true, pace := .running, horizon := none, faulted := false
                   preempt := false, stopped := false, reqHc := 0, stopHc := 0, status := none, retired := [], shadows := []
                   swapping := none, quota := 0, phase := 0, moved := [] }] }

/-- Refutes O35: in `strayClock` a dtwait for DT 5 posts its end at 105 of that clock, not at 5. -/
theorem not_dtwaitWaitsForADomainTime : ¬ Obligations.DtwaitWaitsForADomainTime := by
  intro holds
  let own : Strand := { level := true }
  have strand : strayClock.strand 0 .x = own := by simp [strayClock, State.strand, State.core, Core.strand, own]
  have hi : strayClock.Issues 0 .x {} { writes := true } := by
    refine ⟨rfl, ?_, ?_, ?_, rfl, rfl, ?_⟩
    · exact Nat.zero_le _
    · rw [strand]; rfl
    · rw [strand]
      simp only [strayClock, State.core, Vector.getElem_replicate]
      decide
    · exact fun h => absurd h.1 (by rw [strand]; decide)
  have level : (strayClock.strand 0 .x).level = true := congrArg Strand.level strand
  have bid : strayClock.bidOf 0 = 0 := by simp [strayClock, State.bidOf, State.core]
  have dt : strayClock.dt 0 = 0 := by simp [strayClock, State.dt, State.bindingOf, State.core]
  have other : strayClock.read (.dt 0) = 100 := rfl
  have x : strayClock.x 0 .x 0 = 0 := by simp [State.x, Strand.rx]
  have ahead : ((strayClock.x 0 .x 0 + (5 : Word32).signExtend 64).extractLsb' 0 48 - BitVec.ofNat 48 (strayClock.dt 0)).toInt = 5 := by
    rw [x, dt]; decide
  obtain ⟨t, n, step, cal⟩ := State.dtwait_system (d := 1) (a := 0) (ofs := 5) hi level (by rw [ahead]; decide)
  obtain ⟨⟨t', step', -, -, waits, -⟩, -⟩ := holds strayClock 0 .x {} 1 0 5 hi
  obtain rfl : t = t' := Host.Outcome.next.inj (step.symm.trans step')
  obtain ⟨-, m, pending⟩ := waits (by rw [ahead]; decide) level
  rw [cal, ahead, bid, dt, other] at pending
  have none : strayClock.cal = [] := rfl
  rw [none, List.mem_singleton] at pending
  have due : 0 + 5 = 100 + 5 := congrArg Due.due pending
  omega

end Sys2Proof.Machine

/-! Exact faults at issue, and the faults of scalar accesses (R26, R50, R75, R179). -/

namespace Sys2Proof.Machine

section Faults

variable {s : State} {c : CoreId} {st : StrandId} {h : Hdr} {r : Req}

/-- An instruction that would issue but for an exact fault takes that fault, whatever resources it waits for. -/
theorem State.attempt_faults {f : TrapInfo} {b : Option (Nat × Word × Nat)} {n : Bool} (hr : s.ready c st h r) (act : Turn → State → State) :
    s.attempt c st h { r with fault := some f, busy := b, needs := n } act = s.issueFault c st f := by
  obtain ⟨now, legal, met, -, -, timing⟩ := hr
  have legal' : ({ r with fault := some f, busy := b, needs := n } : Req).illegal (s.strand c st) st h = none := legal
  have judged : ({ r with fault := some f, busy := b, needs := n } : Req).judge (s.core c) (s.strand c st) st h = .fault f :=
    Req.judge_of_fault met rfl
  unfold State.attempt
  simp only [Nat.not_lt.mpr now, if_false, legal', judged]
  split
  · next w hw =>
    rw [hw] at timing
    obtain ⟨late, exact⟩ := timing
    have at' : earliest h (s.strand c st) = (s.strand c st).base := by simp [earliest, hw]
    rw [at', if_neg (by omega), if_neg (by omega)]
  · next d hd =>
    rw [hd] at timing
    rw [if_neg timing]

theorem issue_faults {f : TrapInfo} {b : Option (Nat × Word × Nat)} {n : Bool} (hi : s.Issues c st h r) (act : Turn → State → State) :
    issue h { r with fault := some f, busy := b, needs := n } act s = .next (s.issueFault c st f) := by
  rw [issue_at hi.1, State.attempt_faults hi.2]

/-- A fault other than a translation's is its trap alone. -/
theorem State.issueFault_trap {f : TrapInfo} (hc : f.cause ≠ 6) : s.issueFault c st f = s.trap c st f := by
  simp [State.issueFault, hc]

end Faults

section Addresses

variable {s : State} {pos a n : Nat} {c : CoreId}

/-- A misaligned address is the first fault of an access. -/
theorem firstFault_misaligned {sp : SpaceCode} {l : List (Option TrapInfo)} (h : a % n ≠ 0) :
    firstFault (alignFault pos a n sp :: l) = some (spaceFault pos a sp) := by
  simp [alignFault, h, firstFault]
theorem firstFault_aligned {sp : SpaceCode} {l : List (Option TrapInfo)} (h : a % n = 0) :
    firstFault (alignFault pos a n sp :: l) = firstFault l := by
  simp [alignFault, h, firstFault]

/-- An aligned or misaligned access whose space refuses it takes the space-access fault. -/
theorem firstFault_space {sp : SpaceCode} {f : Option TrapInfo} {l : List (Option TrapInfo)} (h : a % n ≠ 0 ∨ f = some (spaceFault pos a sp)) :
    firstFault (alignFault pos a n sp :: f :: l) = some (spaceFault pos a sp) := by
  by_cases ha : a % n = 0
  · rw [firstFault_aligned ha, h.resolve_left (not_not.mpr ha), firstFault]
  · exact firstFault_misaligned ha

theorem lsFault_read (h : lsSize < a + n) : lsFault pos a n false = some (spaceFault pos a .ls) := if_pos (.inl h)
theorem lsFault_write (hn : n ≠ 0) (h : reservedCell < a + n) : lsFault pos a n true = some (spaceFault pos a .ls) := by
  unfold lsFault
  split
  · rfl
  · exact if_pos (by simp only [touchesCell, Bool.true_and, Bool.and_eq_true, decide_eq_true_eq, bne_iff_ne]; omega)
theorem State.psFault_read (h : 2 ^ 30 ≤ a ∨ lsSize < a % lsSize + n ∨ s.member c (psCore a) = false) :
    s.psFault c pos a n false = some (spaceFault pos a .ps) := if_pos (by simpa using h)
theorem State.psFault_write (hn : n ≠ 0) (h : 2 ^ 30 ≤ a ∨ reservedCell < a % lsSize + n ∨ s.member c (psCore a) = false) :
    s.psFault c pos a n true = some (spaceFault pos a .ps) := by
  have below : a % lsSize < lsSize := Nat.mod_lt _ (by decide)
  unfold State.psFault
  split
  · rfl
  · next ok =>
    simp only [Bool.not_eq_true', not_or] at ok
    have past : reservedCell < a % lsSize + n := (h.resolve_left ok.1).resolve_right ok.2.2
    exact if_pos (by simp only [touchesCell, Bool.true_and, Bool.and_eq_true, decide_eq_true_eq, bne_iff_ne]; omega)
theorem State.gmFault_beyond {st : StrandId} {acc : Acc} (h : 2 ^ 48 ≤ a) :
    s.gmFault c st false a acc = some (spaceFault (s.strand c st).pos a .gm) := if_pos h
/-- A device is absent when it is neither this one nor another of the domain (R26). -/
theorem State.absent_iff (s : State) (dev : Nat) : (!s.present dev) = true ↔ dev ≠ s.devId ∧ dev ∉ s.lib.domMembers := by
  rw [Bool.not_eq_true', State.present, Bool.or_eq_false_iff, decide_eq_false_iff_not, ← Bool.not_eq_true, List.contains_iff_mem]
theorem State.xmFault_outside (h : 2 ^ 62 ≤ a ∨ 2 ^ 48 < a % 2 ^ 48 + n ∨ (a / 2 ^ 48 % 2 ^ 14 ≠ s.devId ∧ a / 2 ^ 48 % 2 ^ 14 ∉ s.lib.domMembers)) :
    s.xmFault pos a n = some (spaceFault pos a .xm) := if_pos (h.imp_right (.imp_right (s.absent_iff _).mpr))
theorem State.xmFault_inside (h : ¬(2 ^ 62 ≤ a ∨ 2 ^ 48 < a % 2 ^ 48 + n ∨ (a / 2 ^ 48 % 2 ^ 14 ≠ s.devId ∧ a / 2 ^ 48 % 2 ^ 14 ∉ s.lib.domMembers))) :
    s.xmFault pos a n = none := if_neg fun h' => h (h'.imp_right (.imp_right (s.absent_iff _).mp))

end Addresses

/-- The integer formats have whole bytes. -/
theorem scalarBytes_ne (f : IntFmt) : scalarBytes f ≠ 0 := by cases f <;> decide

/-- Settles O40: each access is an issue whose first fault is that of its address. -/
theorem badScratchpadAddressesFault : Obligations.BadScratchpadAddressesFault := by
  intro s c st h d a b f ord imm t0 n ea space
  have hn : n ≠ 0 := scalarBytes_ne f
  have faults : ∀ {r : Req} {l : List (Option TrapInfo)} {e : TrapInfo} {b : Option (Nat × Word × Nat)} {w : Bool} (act : Turn → State → State),
      s.Issues c st h r → firstFault l = some e → e.cause ≠ 6 → issue h { r with fault := firstFault l, busy := b, needs := w } act s = .next (s.trap c st e) :=
    fun act hi hf hc => by rw [hf, issue_faults hi, State.issueFault_trap hc]
  refine ⟨fun hi hbad => ?lds, fun hi hbad => ?sts, fun hi hbad => ?ldp, fun hi hbad => ?stp, fun hi hbad => ?ldg, fun hi hbad => ?stg,
    fun hi hbad => ?ldx, fun hi hbad => ?stx, fun hi hin hgroup => ?scope⟩ <;>
    have reads : s.ea a imm = ea := congrArg (fun x : Word => (x + imm.signExtend 64).toNat) (hi.reg a)
  case lds =>
    have fault : firstFault [alignFault t0.pos ea n .ls, lsFault t0.pos ea n false, s.earlyFault c t0.pos none (s.readAt ea n 2)] =
      some (space 0) := firstFault_space (hbad.imp_right lsFault_read)
    simp only [exec.eq_def, execLds, lsLoad, reads, hi.me, hi.mine]
    exact faults _ hi fault (by decide : (5 : Nat) ≠ 6)
  case sts =>
    have fault : firstFault [alignFault t0.pos ea n .ls, lsFault t0.pos ea n true] = some (space 0) :=
      firstFault_space (hbad.imp_right (lsFault_write hn))
    simp only [exec.eq_def, execSts, lsStore, reads, hi.me, hi.mine]
    exact faults _ hi fault (by decide : (5 : Nat) ≠ 6)
  case ldp =>
    have fault : firstFault [alignFault t0.pos ea n .ps, s.psFault c t0.pos ea n false,
        if psCore ea = c then s.earlyFault c t0.pos none (s.readAt (ea % lsSize) n 10) else none] = some (space 1) :=
      firstFault_space (hbad.imp_right State.psFault_read)
    simp only [exec.eq_def, execLdp, lsLoad, reads, hi.me, hi.mine]
    exact faults _ hi fault (by decide : (5 : Nat) ≠ 6)
  case stp =>
    have fault : firstFault [alignFault t0.pos ea n .ps, s.psFault c t0.pos ea n true] = some (space 1) :=
      firstFault_space (hbad.imp_right (State.psFault_write hn))
    simp only [exec.eq_def, execStp, lsStore, reads, hi.me, hi.mine]
    exact faults _ hi fault (by decide : (5 : Nat) ≠ 6)
  case ldg =>
    have fault : firstFault [alignFault t0.pos ea n .gm, s.gmFault c st false ea .read] = some (space 2) :=
      firstFault_space (hbad.imp_right State.gmFault_beyond)
    simp only [exec.eq_def, execLdg, farLoad, reads, hi.me, hi.mine]
    exact faults _ hi fault (by decide : (5 : Nat) ≠ 6)
  case stg =>
    have fault : firstFault [alignFault t0.pos ea n .gm, s.gmFault c st false ea .write] = some (space 2) :=
      firstFault_space (hbad.imp_right State.gmFault_beyond)
    simp only [exec.eq_def, execStg, farStore, reads, hi.me, hi.mine]
    exact faults _ hi fault (by decide : (5 : Nat) ≠ 6)
  case ldx =>
    have fault : firstFault [alignFault t0.pos ea n .xm, s.xmFault t0.pos ea n] = some (space 3) :=
      firstFault_space (hbad.imp_right State.xmFault_outside)
    simp only [exec.eq_def, execLdx, farLoad, reads, hi.mine]
    exact faults _ hi fault (by decide : (5 : Nat) ≠ 6)
  case stx =>
    have fault : firstFault [alignFault t0.pos ea n .xm, s.xmFault t0.pos ea n, s.xmScope c t0.pos ea] = some (space 3) :=
      firstFault_space (hbad.imp_right State.xmFault_outside)
    simp only [exec.eq_def, execStx, farStore, reads, hi.me, hi.mine]
    exact faults _ hi fault (by decide : (5 : Nat) ≠ 6)
  case scope =>
    have aligned : ea % n = 0 := not_not.mp fun ha => hin (.inl ha)
    have fault : firstFault [alignFault t0.pos ea n .xm, s.xmFault t0.pos ea n, s.xmScope c t0.pos ea] =
        some { cause := 10, epc := t0.pos, i0 := BitVec.ofNat 64 ea } := by
      rw [firstFault_aligned aligned, State.xmFault_inside fun h => hin (.inr h), State.xmScope, if_pos hgroup]
      rfl
    simp only [exec.eq_def, execStx, farStore, reads, hi.me, hi.mine]
    exact faults _ hi fault (by decide : (10 : Nat) ≠ 6)

end Sys2Proof.Machine

/-! Accesses on their way: what an instruction that sends one leaves (R102, R106, R164, R180), and the scratchpad stores. -/

namespace Sys2Proof.Machine

section Sending

variable {s v : State} {q : Strand} {c : CoreId} {st : StrandId}

theorem State.contents_xlate {t : State} (h : t.contents = s.contents) : t.xlate.qcur = s.xlate.qcur :=
  (congrArg (fun u : State => u.xlate.qcur) h :)

/-- An access that enters the memory queue is on its way, from a state that differs in what translation caches alone. -/
theorem State.sends_from {seq lat prio : Nat} {storing : Bool} {needs : List Need} {w : Work} (e : v.contents = s.contents)
    (h1 : (v.strand c st).holds = q.holds) (h2 : (v.strand c st).due = q.due) (h3 : v.cal = s.cal) :
    s.Sends (v.dispatch c st (s.strand c st).ord seq storing needs lat prio false w) q c st seq storing needs lat prio w := by
  obtain ⟨-, -, -, free, -, held⟩ := v.dispatch_spec c st (s.strand c st).ord seq storing needs lat prio false w
  simp only [State.Free, h1, h2, State.queueOf_of_cal h3, State.contents_clock e, State.contents_now e] at free held
  exact ⟨fun f => free f trivial, held⟩

/-- Behind a hold it stands in the queue from its issue cycle on. -/
theorem State.queued_from {ord seq lat prio : Nat} {storing far : Bool} {needs : List Need} {w : Work} (e : v.contents = s.contents)
    (h1 : (v.strand c st).holds ≠ []) : (v.dispatch c st ord seq storing needs lat prio far w).Pending (s.clock c st) (s.now c st) (queuePrio storing)
      (.queued (s.clock c st) c st ord seq storing needs lat prio far w) := by
  obtain ⟨-, -, -, -, -, held⟩ := v.dispatch_spec c st ord seq storing needs lat prio far w
  rw [State.contents_clock e, State.contents_now e] at held
  exact held fun f => h1 f.1

/-- The access of the instruction that a strand has at its position. -/
def State.accessOf (s : State) (c : CoreId) (st : StrandId) (h : Hdr) (unit : MemUnit) (addr va : Nat) (op : UnitOp) (prio : Nat) : Access :=
  { core := c, strand := st, seq := (s.strand c st).seq, unit := unit, addr := addr, op := op, pushP := h.pap, pushN := h.pan
    pos := (s.strand c st).pos, sys := (s.strand c st).level, ord := (s.strand c st).ord, posted := false, va := va
    epoch := s.xlate.qcur, prio := prio }

variable {h : Hdr} {r : Req} {unit : MemUnit} {addr va lat prio : Nat} {op : UnitOp} {needs : List Need}

/-- What a hold for an ordered form adds (R106). -/
theorem State.fence_strand (v : State) (c : CoreId) (st : StrandId) (form : FenceForm) (sc : Scope) (p n : Bool) :
    (v.fence c st form sc p n).strand c st = { v.strand c st with holds := (v.strand c st).holds ++
      [⟨(v.strand c st).ord - 1, (v.strand c st).seq, form == .rel, v.before c st sc (form == .acq), none, p, n, sc == .core⟩] } := by
  simp [State.fence]
theorem State.fence_storage (v : State) (c : CoreId) (st : StrandId) (form : FenceForm) (sc : Scope) (p n : Bool) :
    (v.fence c st form sc p n).storage = v.storage := by simp [State.fence]

/-- The access that is sent is the instruction's. -/
theorem State.sendAs_eq (e : v.contents = s.contents) (hs : (v.strand c st).seq = (s.strand c st).seq) : ∃ u : State,
    u.contents = s.contents ∧ u.cal = v.cal ∧ (u.strand c st).holds = (v.strand c st).holds ∧ (u.strand c st).due = (v.strand c st).due ∧
    v.sendAs (s.turn c st h r) unit addr va op lat prio needs = u.dispatch c st (s.strand c st).ord (s.strand c st).seq true needs lat prio false
      (.ev (.storePerform (s.accessOf c st h unit addr va op prio))) := by
  let u := v.access c st (match op with | .atomic _ _ _ _ => true | _ => false) unit (if unit = .gm then [(va, opSpan op)] else [])
  refine ⟨u, (State.contents_of_storage (State.access_storage ..)).trans e, rfl, by simp [u], by simp [u], ?_⟩
  unfold State.sendAs State.accessOf
  simp only [State.turn_c, State.turn_st, State.turn_ord, State.turn_h, State.turn_pos, State.turn_sys, hs, State.contents_xlate e]
  rfl

theorem State.sendAs_sends (e : v.contents = s.contents) (hs : (v.strand c st).seq = (s.strand c st).seq) (h1 : (v.strand c st).holds = q.holds)
    (h2 : (v.strand c st).due = q.due) (h3 : v.cal = s.cal) :
    s.Sends (v.sendAs (s.turn c st h r) unit addr va op lat prio needs) q c st (s.strand c st).seq true needs lat prio
      (.ev (.storePerform (s.accessOf c st h unit addr va op prio))) := by
  obtain ⟨u, eu, cal, holds, due, sent⟩ := State.sendAs_eq (h := h) (r := r) (unit := unit) (addr := addr) (va := va) (op := op) (lat := lat)
    (prio := prio) (needs := needs) e hs
  rw [sent]
  exact State.sends_from eu (holds.trans h1) (due.trans h2) (cal.trans h3)

theorem State.sendAs_queued (e : v.contents = s.contents) (hs : (v.strand c st).seq = (s.strand c st).seq) (h1 : (v.strand c st).holds ≠ []) :
    (v.sendAs (s.turn c st h r) unit addr va op lat prio needs).Pending (s.clock c st) (s.now c st) (queuePrio true)
      (.queued (s.clock c st) c st (s.strand c st).ord (s.strand c st).seq true needs lat prio false
        (.ev (.storePerform (s.accessOf c st h unit addr va op prio)))) := by
  obtain ⟨u, eu, -, holds, -, sent⟩ := State.sendAs_eq (h := h) (r := r) (unit := unit) (addr := addr) (va := va) (op := op) (lat := lat)
    (prio := prio) (needs := needs) e hs
  rw [sent]
  exact State.queued_from eu (holds ▸ h1)

/-- What has advanced stays so where the strand's place, issue record and loops stay. -/
theorem State.Advanced.of_eq {t u : State} {b : Strand} (a : s.Advanced u c st) (e : t.strand c st = b) (he : b.prev = (u.strand c st).prev ∧
    b.base = (u.strand c st).base ∧ b.ord = (u.strand c st).ord ∧ b.pos = (u.strand c st).pos ∧ b.reach = (u.strand c st).reach ∧
    b.loops = (u.strand c st).loops) : s.Advanced t c st := by
  subst e
  obtain ⟨prev, base, ord, pos, reach, loops⟩ := he
  exact ⟨prev.trans a.prev, base.trans a.base, ord.trans a.ord, pos.trans a.pos, reach.trans a.reach, loops.trans a.loops⟩

/-- A store that is sent after its issue, with nothing before it: it is on its way, and its strand goes on. -/
theorem State.stores_of (e : v.contents = s.contents) (cal : v.cal = s.cal) (hr : r.transfers = false)
    (own : v.strand c st = (s.issued c st h r).strand c st) :
    let t := v.sendAs (s.turn c st h r) unit addr va op lat prio needs
    s.Advanced t c st ∧ t.contents = s.contents ∧ (t.strand c st).seq = (s.strand c st).seq + 1 ∧
    s.Sends t ((s.issued c st h r).strand c st) c st (s.strand c st).seq true needs lat prio
      (.ev (.storePerform (s.accessOf c st h unit addr va op prio))) := by
  have seq : (v.strand c st).seq = (s.strand c st).seq := by rw [own, State.issued_seq]
  intro t
  obtain ⟨load, sent⟩ := v.sendAs_strand s c st h r unit addr va op lat prio needs
  refine ⟨(s.issued_advanced c st h r hr).of_eq sent ?_, (State.contents_of_storage (State.sendAs_storage ..)).trans e, ?_,
    State.sendAs_sends e seq (by rw [own]) (by rw [own]) cal⟩
  · rw [← own]; exact ⟨rfl, rfl, rfl, rfl, rfl, rfl⟩
  · rw [sent, ← seq]

/-- A store of a release form: a hold of everything ordered before it stands, and the store is in the queue behind it. -/
theorem State.stores_released (e : v.contents = s.contents) (hr : r.transfers = false)
    (own : v.strand c st = (s.issued c st h r).strand c st) (sc : Scope) :
    let t := (v.fence c st .rel sc false false).sendAs (s.turn c st h r) unit addr va op lat prio needs
    s.Advanced t c st ∧ t.contents = s.contents ∧
    (∃ o, (t.strand c st).holds = (s.strand c st).holds ++ [o] ∧ o.start = (s.strand c st).seq ∧ o.stores = true ∧
      o.needs = (s.issued c st h r).before c st sc false) ∧
    t.Pending (s.clock c st) (s.now c st) (queuePrio true) (.queued (s.clock c st) c st (s.strand c st).ord (s.strand c st).seq true needs lat prio
      false (.ev (.storePerform (s.accessOf c st h unit addr va op prio)))) := by
  let f := v.fence c st .rel sc false false
  have fenced := v.fence_strand c st .rel sc false false
  have stored : f.contents = s.contents := (State.contents_of_storage (v.fence_storage c st .rel sc false false)).trans e
  have seq : (f.strand c st).seq = (s.strand c st).seq := by rw [fenced]; show (v.strand c st).seq = _; rw [own, State.issued_seq]
  have needs' : v.before c st sc false = (s.issued c st h r).before c st sc false := by simp only [State.before, own]
  intro t
  obtain ⟨load, sent⟩ := f.sendAs_strand s c st h r unit addr va op lat prio needs
  refine ⟨(s.issued_advanced c st h r hr).of_eq sent ?_, (State.contents_of_storage (State.sendAs_storage ..)).trans stored, ?_,
    State.sendAs_queued stored seq (by rw [fenced]; simp)⟩
  · rw [fenced, ← own]; exact ⟨rfl, rfl, rfl, rfl, rfl, rfl⟩
  · refine ⟨⟨(v.strand c st).ord - 1, (v.strand c st).seq, true, v.before c st sc false, none, false, false, sc == .core⟩, ?_, ?_, rfl, needs'⟩
    · rw [sent]
      show (f.strand c st).holds = _
      rw [fenced, ← State.issued_holds s c st h r, ← own]
      rfl
    · show (v.strand c st).seq = _
      rw [own, State.issued_seq]

end Sending

/-! ### Stores to a scratchpad (R179, R181) -/

section Scratchpad

variable {s : State} {c : CoreId} {st : StrandId} {h : Hdr} {i : Instr} {b : XReg} {f : IntFmt} {target : CoreId} {ad lat : Nat}

/-- The access of a scalar store to a scratchpad. -/
def State.lsAccess (s : State) (c : CoreId) (st : StrandId) (h : Hdr) (target : CoreId) (ad lat : Nat) (bytes : List Byte) : Access :=
  s.accessOf c st h (.ls target) ad 0 (.write bytes) (accessPrio c st target (s.dt c) lat (s.strand c st).ord)

/-- A scalar access with the rank of R74. -/
theorem State.sendAccess_ls {v : State} {r : Req} {bytes : List Byte} (e : v.contents = s.contents) :
    v.sendAccess (s.turn c st h r) (.ls target) ad 0 (.write bytes) lat [] =
      v.sendAs (s.turn c st h r) (.ls target) ad 0 (.write bytes) lat (accessPrio c st target (s.dt c) lat (s.strand c st).ord) [] := by
  unfold State.sendAccess
  simp only [State.turn_c, State.turn_st, State.turn_ord, State.contents_dt e]

/-- A scalar store whose address has no fault sends its bytes. -/
theorem State.lsStore_plain {fault : Option TrapInfo} (hi : s.Issues c st h {}) (hf : fault = none) :
    let acc := s.lsAccess c st h target ad lat (leBytes (scalarBytes f) (s.x c st b).toNat)
    ∃ t, lsStore h b f none target ad lat fault s = .next t ∧ s.Advanced t c st ∧ t.storage = s.storage ∧
      (t.strand c st).seq = (s.strand c st).seq + 1 ∧
      s.Sends t ((s.issued c st h {}).strand c st) c st (s.strand c st).seq true [] lat acc.prio (.ev (.storePerform acc)) := by
  intro acc
  have stored := s.issued_storage c st h {}
  have e := State.contents_of_storage stored
  have step : lsStore h b f none target ad lat fault s = _ := issue_when hi hf rfl rfl rfl rfl rfl _
  rw [hi.reg] at step
  simp only [State.ordFence, State.sendAccess_ls e] at step
  obtain ⟨advanced, -, seq, sends⟩ := State.stores_of (unit := .ls target) (addr := ad) (va := 0)
    (op := .write (leBytes (scalarBytes f) (s.x c st b).toNat)) (lat := lat) (prio := acc.prio) (needs := []) (h := h) e (s.issued_cal c st h {}) rfl rfl
  exact ⟨_, step, advanced, (State.sendAs_storage ..).trans stored, seq, sends⟩

/-- One of a release form stands behind everything before it. -/
theorem State.lsStore_release {fault : Option TrapInfo} (hi : s.Issues c st h {}) (hf : fault = none) (sc : Scope) :
    let acc := s.lsAccess c st h target ad lat (leBytes (scalarBytes f) (s.x c st b).toNat)
    ∃ t o, lsStore h b f (some sc) target ad lat fault s = .next t ∧ s.Advanced t c st ∧ t.storage = s.storage ∧
      (t.strand c st).holds = (s.strand c st).holds ++ [o] ∧ o.start = (s.strand c st).seq ∧ o.stores = true ∧
      o.needs = (s.issued c st h {}).before c st sc false ∧
      t.Pending (s.clock c st) (s.now c st) (queuePrio true) (.queued (s.clock c st) c st (s.strand c st).ord (s.strand c st).seq true [] lat
        acc.prio false (.ev (.storePerform acc))) := by
  intro acc
  have stored := s.issued_storage c st h {}
  have fenced := ((s.issued c st h {}).fence_storage c st .rel sc false false).trans stored
  have step : lsStore h b f (some sc) target ad lat fault s = _ := issue_when hi hf rfl rfl rfl rfl rfl _
  rw [hi.reg] at step
  simp only [State.ordFence, State.turn_c, State.turn_st, State.sendAccess_ls (State.contents_of_storage fenced)] at step
  obtain ⟨advanced, -, ⟨o, holds⟩, queued⟩ := State.stores_released (unit := .ls target) (addr := ad) (va := 0)
    (op := .write (leBytes (scalarBytes f) (s.x c st b).toNat)) (lat := lat) (prio := acc.prio) (needs := []) (h := h)
    (State.contents_of_storage stored) (r := {}) rfl rfl sc
  exact ⟨_, o, step, advanced, (State.sendAs_storage ..).trans fenced, holds.1, holds.2.1, holds.2.2.1, holds.2.2.2, queued⟩

end Scratchpad

section Good

variable {s : State} {pos a n : Nat} {c : CoreId}

/-- An access of whole bytes inside its scratchpad, below the reserved cell when it writes, has no fault. -/
theorem lsFault_none_read (ha : a < lsSize) (h : a + n ≤ lsSize) : lsFault pos a n false = none := by
  simp [lsFault, Nat.not_lt.mpr h, Nat.not_le.mpr ha]
theorem touchesCell_below (h : a + n ≤ reservedCell) : touchesCell a n = false := by
  simp [touchesCell, Nat.not_lt.mpr h]
theorem lsFault_none_write (h : a + n ≤ reservedCell) : lsFault pos a n true = none := by
  have inside : a + n < lsSize := Nat.lt_of_le_of_lt h (by decide)
  simp [lsFault, touchesCell_below h, Nat.not_lt.mpr inside.le, Nat.not_le.mpr (show a < lsSize by omega)]
theorem State.psFault_none_read (h30 : a < 2 ^ 30) (h : a % lsSize + n ≤ lsSize) (hm : s.member c (psCore a) = true) :
    s.psFault c pos a n false = none := by
  have ok : ¬(2 ^ 30 ≤ a ∨ lsSize < a % lsSize + n ∨ (!s.member c (psCore a)) = true) := by
    simp only [hm, Bool.not_true, Bool.false_eq_true, or_false]; omega
  exact if_neg ok
theorem State.psFault_none_write (h30 : a < 2 ^ 30) (h : a % lsSize + n ≤ reservedCell) (hm : s.member c (psCore a) = true) :
    s.psFault c pos a n true = none := by
  have inside : a % lsSize + n < lsSize := Nat.lt_of_le_of_lt h (by decide)
  have ok : ¬(2 ^ 30 ≤ a ∨ lsSize < a % lsSize + n ∨ (!s.member c (psCore a)) = true) := by
    simp only [hm, Bool.not_true, Bool.false_eq_true, or_false]; omega
  refine (if_neg ok).trans (if_neg ?_)
  simp [touchesCell_below h]

end Good

/-- Settles O39: each is the store of the low bytes of its register, at its address and latency. -/
theorem scratchpadStoresSendTheirBytes : Obligations.ScratchpadStoresSendTheirBytes := by
  intro s c st h a b f imm hi t0 q n ea acc stores
  have reads : s.ea a imm = ea := congrArg (fun x : Word => (x + imm.signExtend 64).toNat) (hi.reg a)
  refine ⟨fun ha hin => ?sts, fun ha h30 hin hm => ?stp⟩
  case sts =>
    have fault : firstFault [alignFault t0.pos ea n .ls, lsFault t0.pos ea n true] = none := by
      rw [firstFault_aligned ha, lsFault_none_write hin]; rfl
    refine ⟨?_, fun sc => ?_⟩ <;> simp only [exec.eq_def, execSts, reads, hi.me, hi.mine]
    · exact State.lsStore_plain hi fault
    · exact State.lsStore_release hi fault sc
  case stp =>
    have fault : firstFault [alignFault t0.pos ea n .ps, s.psFault c t0.pos ea n true] = none := by
      rw [firstFault_aligned ha, State.psFault_none_write h30 hin hm]; rfl
    refine ⟨?_, fun sc => ?_⟩ <;> simp only [exec.eq_def, execStp, reads, hi.me, hi.mine]
    · exact State.lsStore_plain hi fault
    · exact State.lsStore_release hi fault sc

end Sys2Proof.Machine

/-! Words that do not decode (R143, R149, R150, R152), and the words of the encoding tables. -/

namespace Sys2Proof

/-- Settles O2. -/
theorem writtenWordsDecode : Obligations.WrittenWordsDecode := by
  unfold Obligations.WrittenWordsDecode
  decide

/-! ### Opcodes and their shapes -/

/-- An opcode that R149 assigns. -/
def assignedOpc (n : Nat) : Bool :=
  decide (n ≤ 0x17 ∨ (0x20 ≤ n ∧ n ≤ 0x47) ∨ (0x50 ≤ n ∧ n ≤ 0x76) ∨ (0x78 ≤ n ∧ n ≤ 0x7E) ∨ (0x80 ≤ n ∧ n ≤ 0xB3) ∨
    (0xC0 ≤ n ∧ n ≤ 0xC6) ∨ (0xD0 ≤ n ∧ n ≤ 0xD4) ∨ n = 0xD8 ∨ (0xE0 ≤ n ∧ n ≤ 0xE8))
/-- An opcode with a typed word (R150). -/
def typedOpc (n : Nat) : Bool :=
  decide (n = 0x13 ∨ (0x40 ≤ n ∧ n ≤ 0x47) ∨ (0x58 ≤ n ∧ n ≤ 0x73) ∨ (0x78 ≤ n ∧ n ≤ 0xB3) ∨ (0xC2 ≤ n ∧ n ≤ 0xC4) ∨
    (0xD0 ≤ n ∧ n ≤ 0xD4) ∨ n = 0xE4)
/-- An opcode with an immediate (R150). -/
def immedOpc (n : Nat) : Bool :=
  decide (n ∈ [0x01, 0x02, 0x04, 0x05, 0x06, 0x07, 0x08, 0x09, 0x0A, 0x0C, 0x0D, 0x0F, 0x15, 0x17] ∨ (0x28 ≤ n ∧ n ≤ 0x30) ∨ n = 0x33 ∨
    (0x40 ≤ n ∧ n ≤ 0x47) ∨ n ∈ [0x50, 0x51, 0x52, 0x54, 0x56, 0x57, 0x6B, 0x78, 0x79, 0x7A] ∨ (0xC0 ≤ n ∧ n ≤ 0xC5) ∨ n = 0xD0 ∨
    (0xE0 ≤ n ∧ n ≤ 0xE3) ∨ n = 0xE8)

/-- The opcode map has a shape for exactly the assigned opcodes, with the words that R150 gives them. -/
theorem shapeRow_words : ∀ (row : Fin 32) (col : Fin 8),
    (((shapeRow row.val)[col.val]?).join).map (fun sh => (sh.typed, sh.immed)) =
      if assignedOpc (8 * row.val + col.val) then some (typedOpc (8 * row.val + col.val), immedOpc (8 * row.val + col.val)) else none := by
  decide

theorem shapeOf_words (opc : BitVec 8) : (shapeOf opc).map (fun sh => (sh.typed, sh.immed)) =
    if assignedOpc opc.toNat then some (typedOpc opc.toNat, immedOpc opc.toNat) else none := by
  have h := shapeRow_words ⟨opc.toNat / 8, by omega⟩ ⟨opc.toNat % 8, by omega⟩
  have e : 8 * (opc.toNat / 8) + opc.toNat % 8 = opc.toNat := by omega
  rw [e] at h
  exact h

/-! ### Words whose LEN is wrong -/

section Wrong

variable {w : Word32} {ws : List Word32} {sh : Shape}

/-- An unassigned opcode is rejected first. -/
theorem decode_unassigned (h : shapeOf (w.extractLsb' 15 8) = none) : decode (w :: ws) = .error 0 := by
  simp [decode, rawOf, h]

/-- A reserved field is rejected whatever the rest. -/
theorem decode_reserved (h : shapeOf (w.extractLsb' 15 8) = some sh)
    (hr : (sh.baseReserved (w.extractLsb' 10 5) (w.extractLsb' 5 5) (w.extractLsb' 0 5) || sh.extReserved (fieldsOf sh w ws)) = true) :
    decode (w :: ws) = .error 2 := by
  have : rawOf (w :: ws) = .error 2 := by
    simp only [rawOf, h]
    exact if_pos hr
  simp [decode, this]

/-- Without one a wrong LEN raises kind 3, or kind 2 where a field has no use in the form that other fields name. -/
theorem decode_len (h : shapeOf (w.extractLsb' 15 8) = some sh)
    (hr : (sh.baseReserved (w.extractLsb' 10 5) (w.extractLsb' 5 5) (w.extractLsb' 0 5) || sh.extReserved (fieldsOf sh w ws)) = false)
    (h0 : (w.extractLsb' 23 2).toNat ≠ sh.words w) (h1 : (w.extractLsb' 23 2).toNat ≠ sh.words w + 1) :
    decode (w :: ws) = .error (if reservedForm (w :: ws) then 2 else 3) := by
  have : rawOf (w :: ws) = .error 3 := by
    simp only [rawOf, h]
    exact (if_neg fun he => Bool.false_ne_true (hr.symm.trans he)).trans (if_pos ⟨h0, h1⟩)
  simp [decode, this]

end Wrong

section Plain

variable {w : Word32} {ws : List Word32} {sh : Shape}

/-- A register field of 0 leaves no unused bit set. -/
theorem RegUse.reserved_zero (u : RegUse) : u.reserved 0#5 = false := by
  cases u <;> simp [RegUse.reserved]

/-- A typed word of 0, and an immediate with used bits alone, leave no reserved field set. -/
theorem extReserved_plain {r : Raw} (ht : r.t = 0) (hi : r.imm &&& ~~~sh.imm = 0) : sh.extReserved r = false := by
  simp [Shape.extReserved, Raw.fmt, Raw.rm, Raw.sat, Raw.c, Raw.k, Raw.scope, Raw.fn, ht, hi, RegUse.reserved_zero, Fmt.ofCode]

/-- The form of a word is judged by what its fields build. -/
theorem reservedForm_of (hs : shapeOf (w.extractLsb' 15 8) = some sh) (hb : (fieldsOf sh w ws).build ≠ .error 2) :
    reservedForm (w :: ws) = false := by
  simp only [reservedForm, hs]
  split
  · next k e => exact beq_eq_false_iff_ne.mpr fun h => hb (h ▸ e)
  · rfl

/-- A word of an opcode whose fields are plain raises kind 3 for a wrong LEN. -/
theorem decode_plain_len {row col : Nat} (hs : shapeOf (w.extractLsb' 15 8) = some sh) (hr : (w.extractLsb' 15 8).toNat / 8 = row)
    (hc : (w.extractLsb' 15 8).toNat % 8 = col)
    (hbase : sh.baseReserved (w.extractLsb' 10 5) (w.extractLsb' 5 5) (w.extractLsb' 0 5) = false) (ht : (fieldsOf sh w ws).t = 0)
    (hi : (fieldsOf sh w ws).imm &&& ~~~sh.imm = 0) (hb : ∀ r : Raw, r.t = 0 → buildRow r row col ≠ .error 2)
    (h0 : (w.extractLsb' 23 2).toNat ≠ sh.words w) (h1 : (w.extractLsb' 23 2).toNat ≠ sh.words w + 1) : decode (w :: ws) = .error 3 := by
  have form : reservedForm (w :: ws) = false := by
    refine reservedForm_of hs ?_
    show buildRow _ ((w.extractLsb' 15 8).toNat / 8) ((w.extractLsb' 15 8).toNat % 8) ≠ _
    rw [hr, hc]
    exact hb _ ht
  rw [decode_len hs (by rw [hbase, extReserved_plain ht hi]; rfl) h0 h1, form]
  rfl

/-- A typed word that LEN leaves out reads as 0. -/
theorem fieldsOf_t_zero (h : (if (w.extractLsb' 29 3).toNat = 7 then 1 else 0) < (w.extractLsb' 23 2).toNat →
    ws.getD (if (w.extractLsb' 29 3).toNat = 7 then 1 else 0) 0 = 0) : (fieldsOf sh w ws).t = 0 := by
  exact ite_eq_right_iff.mpr fun hc => h hc.2

/-- An opcode without an immediate reads it as 0. -/
theorem fieldsOf_imm_zero (h : sh.immed = false) : (fieldsOf sh w ws).imm &&& ~~~sh.imm = 0 := by
  have zero : (fieldsOf sh w ws).imm = 0 := if_neg (by simp [h])
  rw [zero]
  exact BitVec.zero_and

end Plain

/-- Settles O3: the opcode map by enumeration, then the fields of four opcodes, one of each class of R150. -/
theorem rejectedWordsRaiseTheirKind : Obligations.RejectedWordsRaiseTheirKind := by
  intro w ws opc n len stamp assigned typed immed needs
  have map := shapeOf_words opc
  have shape : ∀ {k : BitVec 8} {sh : Shape}, n = k.toNat → shapeOf k = some sh → shapeOf opc = some sh := fun hn hs =>
    (congrArg shapeOf (BitVec.eq_of_toNat_eq hn)).trans hs
  refine ⟨fun ha => ?unassigned, fun k ha hk h0 h1 => ?assigned, fun hn h0 h1 => ?add, fun hn hb h0 h1 => ?addi, fun hn hb => ?reserved,
    fun hn ht h0 h1 => ?vadd, fun hn hb ht h0 h1 => ?lds⟩
  case unassigned =>
    rw [if_neg (by simpa [assignedOpc, assigned] using ha), Option.map_eq_none_iff] at map
    exact decode_unassigned map
  case assigned =>
    rw [if_pos (by simpa [assignedOpc, assigned] using ha), Option.map_eq_some_iff] at map
    obtain ⟨sh, hs, uses⟩ := map
    have words : sh.words w = k := by
      obtain ⟨t, i, ht, hi, rfl⟩ := hk
      have tw : (if sh.typed then 1 else 0) = t := by
        rw [show sh.typed = typedOpc n from congrArg Prod.fst uses]
        rcases ht with ⟨h, rfl⟩ | ⟨h, rfl⟩
        · exact if_pos (decide_eq_true h)
        · exact if_neg fun h' => h (of_decide_eq_true h')
      have iw : (if sh.immed then 1 else 0) = i := by
        rw [show sh.immed = immedOpc n from congrArg Prod.snd uses]
        rcases hi with ⟨h, rfl⟩ | ⟨h, rfl⟩
        · exact if_pos (decide_eq_true h)
        · exact if_neg fun h' => h (of_decide_eq_true h')
      rw [Shape.words, tw, iw]
    by_cases hr : (sh.baseReserved (w.extractLsb' 10 5) (w.extractLsb' 5 5) (w.extractLsb' 0 5) || sh.extReserved (fieldsOf sh w ws)) = true
    · exact .inl (decode_reserved hs hr)
    · rw [decode_len hs (Bool.not_eq_true _ ▸ hr) (words ▸ h0) (words ▸ h1)]
      cases reservedForm (w :: ws)
      · exact .inr rfl
      · exact .inl rfl
  case add =>
    have hs : shapeOf opc = some shRR := shape (k := 0x20) hn rfl
    exact decode_plain_len (row := 4) (col := 0) hs (by rw [show (w.extractLsb' 15 8).toNat = _ from hn]) (by rw [show (w.extractLsb' 15 8).toNat = _ from hn])
      rfl rfl (fieldsOf_imm_zero rfl) (fun r _ => nofun) h0 h1
  case addi =>
    have hs : shapeOf opc = some shRI := shape (k := 0x28) hn rfl
    exact decode_plain_len (row := 5) (col := 0) hs (by rw [show (w.extractLsb' 15 8).toNat = _ from hn]) (by rw [show (w.extractLsb' 15 8).toNat = _ from hn])
      (by rw [hb]; rfl) rfl (BitVec.and_zero ..) (fun r _ => nofun) h0 h1
  case reserved =>
    have hs : shapeOf opc = some shRI := shape (k := 0x28) hn rfl
    refine decode_reserved hs ?_
    have : shRI.b.reserved (w.extractLsb' 0 5) = true := bne_iff_ne.mpr hb
    simp [Shape.baseReserved, this]
  case vadd =>
    have hs : shapeOf opc = some (shV2 true true) := shape (k := 0x80) hn rfl
    refine decode_plain_len (row := 16) (col := 0) hs (by rw [show (w.extractLsb' 15 8).toNat = _ from hn])
      (by rw [show (w.extractLsb' 15 8).toNat = _ from hn]) rfl (fieldsOf_t_zero ht) (fieldsOf_imm_zero rfl) (fun r hr => ?_) h0 h1
    obtain ⟨h, o, d, a, b, t, m⟩ := r
    subst hr
    obtain ⟨i, built⟩ : ∃ i, buildRow ⟨h, o, d, a, b, 0, m⟩ 16 0 = .ok i := by
      simp [buildRow, buildRow10, Raw.arith, Raw.fFI, Raw.rm5, Raw.rm, Raw.fmt, Fmt.ofCode, Fmt.isF, Rm.ofCode, must]
      exact ⟨_, rfl⟩
    rw [built]
    nofun
  case lds =>
    have hs : shapeOf opc = some shLd := shape (k := 0x40) hn rfl
    refine decode_plain_len (row := 8) (col := 0) hs (by rw [show (w.extractLsb' 15 8).toNat = _ from hn])
      (by rw [show (w.extractLsb' 15 8).toNat = _ from hn]) (by rw [hb]; rfl) (fieldsOf_t_zero ht) (BitVec.and_zero ..) (fun r hr => ?_) h0 h1
    obtain ⟨h, o, d, a, b, t, m⟩ := r
    subst hr
    have built : buildRow ⟨h, o, d, a, b, 0, m⟩ 8 0 = .error 5 := by
      simp [buildRow, buildRow08, Raw.ordScope, Raw.intFmt, Raw.scope, Raw.fn, Raw.fmt, Fmt.ofCode, IntFmt.ofFmt]
      rfl
    rw [built]
    nofun

end Sys2Proof

/-! One step of the machine: the first due work, and the turn of a strand that may issue (R35, R74, R152, R385). -/

namespace Sys2Proof.Machine

/-! ### The first due work (R21, R74) -/

section FirstDue

variable {s : State}

/-- An item that may run now. -/
def State.mayRun (s : State) (o : Due) : Bool := s.itemReady o && (s.todo.isEmpty || decide (o.prio < effects))

/-- One item goes no later than another: by priority, then by order (R74). -/
def Due.le (a b : Due) : Prop := a.prio < b.prio ∨ (a.prio = b.prio ∧ a.order ≤ b.order)
theorem Due.le_refl (a : Due) : a.le a := .inr ⟨rfl, Nat.le_refl _⟩
theorem Due.le_trans {a b d : Due} (h : a.le b) (g : b.le d) : a.le d := by
  unfold Due.le at *
  omega
/-- The first of two items is one of them and goes no later than either. -/
theorem Due.first_spec (a b : Due) : (a.first b = a ∨ a.first b = b) ∧ (a.first b).le a ∧ (a.first b).le b := by
  unfold Due.first Due.le
  split <;> simp <;> omega

/-- The item that the calendar's scan keeps: the first of those that may run. -/
theorem nextItem_fold (may : Due → Bool) : ∀ (l : List Due) (best : Option Due) (d : Due),
    l.foldl (fun best d => if may d then some (match best with | none => d | some b => b.first d) else best) best = some d →
    (best = some d ∨ (d ∈ l ∧ may d = true)) ∧ (∀ b, best = some b → d.le b) ∧ ∀ o ∈ l, may o = true → d.le o
  | [], best, d, h => ⟨.inl h, fun b hb => by cases hb.symm.trans h; exact d.le_refl, fun o ho => absurd ho List.not_mem_nil⟩
  | a :: l, best, d, h => by
    rw [List.foldl_cons] at h
    obtain ⟨from', below, least⟩ := nextItem_fold may l _ d h
    by_cases ha : may a = true
    · rw [if_pos ha] at from' below
      cases best with
      | none =>
        have first : d.le a := below a rfl
        refine ⟨.inr ?_, nofun, fun o ho hm => (List.mem_cons.mp ho).elim (fun e => e ▸ first) fun ho => least o ho hm⟩
        exact from'.elim (fun e => by cases e; exact ⟨List.mem_cons_self .., ha⟩) fun ⟨hm, hd⟩ => ⟨List.mem_cons_of_mem _ hm, hd⟩
      | some b =>
        obtain ⟨one, le_b, le_a⟩ := b.first_spec a
        have first : d.le (b.first a) := below _ rfl
        refine ⟨?_, fun x hx => by cases hx; exact Due.le_trans first le_b,
          fun o ho hm => (List.mem_cons.mp ho).elim (fun e => e ▸ Due.le_trans first le_a) fun ho => least o ho hm⟩
        rcases from' with e | ⟨hm, hd⟩
        · have e' : b.first a = d := Option.some.inj e
          rcases one with h' | h'
          · exact .inl (congrArg some (h'.symm.trans e'))
          · exact .inr (h'.symm.trans e' ▸ ⟨List.mem_cons_self .., ha⟩)
        · exact .inr ⟨List.mem_cons_of_mem _ hm, hd⟩
    · rw [if_neg ha] at from' below
      refine ⟨from'.imp_right fun ⟨hm, hd⟩ => ⟨List.mem_cons_of_mem _ hm, hd⟩, below,
        fun o ho hm => (List.mem_cons.mp ho).elim (fun e => absurd (e ▸ hm) ha) fun ho => least o ho hm⟩

/-- The next item may run, and goes no later than any other that may. -/
theorem State.nextItem_first {d : Due} (h : s.nextItem = some d) :
    (d ∈ s.cal ∧ s.mayRun d = true) ∧ ∀ o ∈ s.cal, s.mayRun o = true → d.le o := by
  obtain ⟨from', -, least⟩ := nextItem_fold s.mayRun s.cal none d h
  exact ⟨from'.resolve_left nofun, least⟩

/-- A step with nothing to open the cycle does the first due work, which leaves the calendar. -/
theorem step_of_nextItem {d : Due} (hin : s.inbox = []) (hp : s.power = true) (ho : s.opening = none) (hd : s.nextItem = some d) :
    step s = ({ s with cal := s.cal.filter fun o => o.order != d.order } : State).runWork exec d.work := by
  simp [step, State.stepWith, hin, hp, ho, hd]

end FirstDue

/-- Settles O7. -/
theorem stepRunsTheFirstDueWork : Obligations.StepRunsTheFirstDueWork := by
  intro s d hin hp ho hd u may
  have may_iff (o : Due) : may o ↔ o ∈ s.cal ∧ s.mayRun o = true := by
    simp [may, State.mayRun]
  have step' : step s = u.runWork exec d.work := step_of_nextItem hin hp ho hd
  obtain ⟨may_d, least⟩ := State.nextItem_first hd
  have landing (c : CoreId) (st : StrandId) (ord : Nat) : u.landing c st ord = s.landing c st ord := rfl
  refine ⟨(may_iff d).mpr may_d, fun o h => least o ((may_iff o).mp h).1 ((may_iff o).mp h).2,
    fun o => ⟨fun hc => ?hc, fun bid b hc hb => ?dt, fun e b hc hb => ?cyc⟩, step', fun i h => ?event, fun c st ord f h hl => ?lands,
    fun c st ord h hl => ?waits, fun r h => ?_, fun c st p n h => ?_, fun c st o q dev cells x vas h => ?_, fun c st o q m pa poll r p h => ?_,
    fun c st o v h => ?_, fun c st h => ?_, fun clk c st o q b ns lat prio far w h => ?_, fun c st o r k w h => ?_, fun c r k w v m h => ?_,
    fun kind ws h => ?_, fun i h => ?_⟩
  case hc => simp [State.itemReady, hc]
  case dt => simp [State.itemReady, hc, hb]
  case cyc => simp [State.itemReady, hc, hb]
  case lands =>
    rw [step', h]
    simp only [State.runWork, landing, hl]
  case waits =>
    rw [step', h]
    simp only [State.runWork, landing, hl]
  all_goals rw [step', h]; rfl

/-! ### The turn of a strand that may issue -/

section FetchTurn

variable {s u : State} {c : CoreId} {st : StrandId} {rest : List (CoreId × StrandId)}

/-- A step with nothing due is the turn of the strand that is next. -/
theorem step_of_turn (hin : s.inbox = []) (hp : s.power = true) (ho : s.opening = none) (hd : s.nextItem = none) (ht : s.todo = (c, st) :: rest) :
    step s = (s.begin c st rest).strandTurn exec c st := by
  simp [step, State.stepWith, hin, hp, ho, hd, ht]

/-- A strand that no trap and no interrupt takes, and that does not wait, fetches once its base time has come. -/
theorem State.strandTurn_fetches {ex : Instr → State → Host.Outcome State Fault Refusal} (hr : s.canRun c st = true)
    (hp : s.poisonDue c st = none) (hd : (s.strand c st).trapDue = none) (hi : s.interruptDue c st = none) (hw : (s.strand c st).wait = none)
    (hb : (s.strand c st).base ≤ s.now c st) : s.strandTurn ex c st = s.fetchTurn ex c st := by
  simp [State.strandTurn, hr, hp, hd, hi, State.plainTurn, hw, Nat.not_lt.mpr hb]

/-- What a fetch does: the fault of the image, the error of the code store, the words that do not decode, or the instruction. -/
theorem State.fetchTurn_image {kind line : Nat} (hf : fetchFault ((s.core c).store (s.strand c st).level).1
    ((s.core c).store (s.strand c st).level).2 st (s.strand c st).pos (s.strand c st).reach = some (kind, line)) : s.fetchTurn exec c st =
    .next (s.trap c st { cause := 4, epc := (s.strand c st).pos, i0 := BitVec.ofNat 64 kind, i1 := BitVec.ofNat 64 line }) := by
  simp only [State.fetchTurn, hf]
  rfl

variable (hf : fetchFault ((s.core c).store (s.strand c st).level).1 ((s.core c).store (s.strand c st).level).2
  st (s.strand c st).pos (s.strand c st).reach = none)
include hf

theorem State.fetchTurn_lost (hc : s.codeError c st = some u) : s.fetchTurn exec c st = .next u := by
  simp only [State.fetchTurn, hf, hc]

theorem State.fetchTurn_illegal {k : Nat} (hc : s.codeError c st = none)
    (hv : (if (s.strand c st).level then s else s.countPlaces c 4 [(s.strand c st).pos / 16]) = u)
    (hd : decode (fetchWords (s.fetchMem c st) (s.strand c st).pos) = .error k) :
    s.fetchTurn exec c st = .next (u.illegalWord c st (u.baseWord c st) k) := by
  have hd' : decode (fetchWords ((s.core c).store (s.strand c st).level).1 (s.strand c st).pos) = .error k := hd
  simp only [State.fetchTurn, hf, hc, hv, hd']

theorem State.fetchTurn_runs {i : Instr} {n : Nat} (hc : s.codeError c st = none)
    (hv : (if (s.strand c st).level then s else s.countPlaces c 4 [(s.strand c st).pos / 16]) = u)
    (hd : decode (fetchWords (s.fetchMem c st) (s.strand c st).pos) = .ok (i, n)) :
    s.fetchTurn exec c st = match exec i u with
      | .next t => .next (u.judgeSources t c st i (u.headerAt c st))
      | r => r := by
  have hd' : decode (fetchWords ((s.core c).store (s.strand c st).level).1 (s.strand c st).pos) = .ok (i, n) := hd
  simp only [State.fetchTurn, hf, hc, hv, hd'] <;> rfl

end FetchTurn

section Errors

variable {s : State} {c : CoreId} {st : StrandId}

/-- A fetch from a line without an error at user level, or at system level, meets none (R385). -/
theorem State.codeError_none (h : ¬((s.strand c st).level = false ∧ (s.strand c st).pos / 16 ∈ (s.core c).badCode)) : s.codeError c st = none := by
  simp only [State.codeError]
  refine if_pos ?_
  by_cases hl : (s.strand c st).level = true
  · simp [hl]
  · simpa [hl] using h

/-- One from a line with an uncorrectable error at user level is MEMERR there, behind its error record. -/
theorem State.codeError_some (h : (s.strand c st).level = false ∧ (s.strand c st).pos / 16 ∈ (s.core c).badCode) :
    ∃ a, s.codeError c st = some ((({ s with choice := s.choice + 1 } : State).errorRecord 4 a (s.bidOf c) c.val).trap c st
      { cause := 11, epc := (s.strand c st).pos, i0 := BitVec.ofNat 64 a, i1 := BitVec.ofNat 64 (s.strand c st).pos }) :=
  ⟨_, by simp only [State.codeError, h.1, List.contains_iff_mem.mpr h.2]; rfl⟩

/-- Counting corrected errors touches only the counts. -/
theorem State.countPlaces_eq (s : State) (c : CoreId) (store : Fin 9) (ps : List Nat) : ∃ l, s.countPlaces c store ps = { s with life := l } := by
  unfold State.countPlaces
  split
  · exact ⟨_, rfl⟩
  · exact ⟨_, rfl⟩
theorem State.countPlaces_none (h : (s.core c).corr = []) (store : Fin 9) (ps : List Nat) : s.countPlaces c store ps = s := by
  simp [State.countPlaces, h]

/-- Where no register holds an error, what has issued is not judged. -/
theorem State.judgeSources_none (hv : (s.core c).badV = []) (hr : (s.core c).corr = []) (t : State) (i : Instr) (h : Hdr) :
    s.judgeSources t c st i h = t := by
  simp [State.judgeSources, hv, hr]

end Errors

/-- Settles O4. -/
theorem stepRunsTheDecodedInstruction : Obligations.StepRunsTheDecodedInstruction := by
  intro s c st rest i n hin hp ho hi ht hr hpo htd hint hw hb hf hd u line user lost
  have turn : step s = u.fetchTurn exec c st :=
    (step_of_turn hin hp ho hi ht).trans (State.strandTurn_fetches (s := u) hr hpo htd hint hw hb)
  refine ⟨fun h1 h2 h3 => ?clean, fun hl => ?lost, fun hl => ?runs⟩
  case clean =>
    have none : u.codeError c st = none := State.codeError_none (s := u) fun h => by
      have := h.2
      rw [show (u.core c).badCode = [] from h1] at this
      exact List.not_mem_nil this
    have same : (if (u.strand c st).level then u else u.countPlaces c 4 [(u.strand c st).pos / 16]) = u := by
      rw [State.countPlaces_none (s := u) h3, ite_self]
    rw [turn, State.fetchTurn_runs (s := u) hf none same hd]
    split
    · next t e => rw [State.judgeSources_none (s := u) h2 h3, e]
    · rfl
  case lost =>
    obtain ⟨a, code⟩ := State.codeError_some (s := u) hl
    let w : State := ({ u with choice := u.choice + 1 } : State).errorRecord 4 a (u.bidOf c) c.val
    let i : TrapInfo := { cause := 11, epc := (u.strand c st).pos, i0 := BitVec.ofNat 64 a, i1 := BitVec.ofNat 64 (u.strand c st).pos }
    have own : w.strand c st = u.strand c st := State.errorRecord_strand ..
    have level : (w.strand c st).level = false := own ▸ hl.1
    have wait : (w.strand c st).wait = none := own ▸ hw
    obtain ⟨sys, cause, tepc, i0, -⟩ := State.trap_records i level wait (by simp [i])
    obtain ⟨-, gm, -⟩ := State.trap_frame (i := i) level wait
    refine ⟨_, _, turn.trans (State.fetchTurn_lost (s := u) hf code), sys, cause, BitVec.eq_of_toNat_eq ?_, i0, gm.trans (State.errorRecord_gm ..)⟩
    rw [tepc, BitVec.toNat_ofNat, Nat.mod_eq_of_lt (a := _ % 2 ^ 15) (by omega)]
    rfl
  case runs =>
    let v : State := if (u.strand c st).level then u else u.countPlaces c 4 [(u.strand c st).pos / 16]
    have none : u.codeError c st = none := State.codeError_none (s := u) hl
    obtain ⟨l, counted⟩ := u.countPlaces_eq c 4 [(u.strand c st).pos / 16]
    have only : v = u ∨ v = { u with life := l } := by
      by_cases h : (u.strand c st).level = true
      · exact .inl (if_pos h)
      · exact .inr ((if_neg h).trans counted)
    refine ⟨v, ?_, ?_, ?_, ?_, fun hs => if_pos (Bool.eq_true_of_not_eq_false hs), fun t e => ?_⟩
    · rcases only with h | h <;> rw [h]
    · rcases only with h | h <;> rw [h]
    · rcases only with h | h <;> rw [h]
    · rcases only with h | h <;> rw [h]
    · rw [turn, State.fetchTurn_runs (s := u) (u := v) hf none rfl hd, e]

/-- What an illegal word is once its delay is over, by the first of the three questions that it fails (R152). -/
theorem State.illegalWord_early {s : State} {c : CoreId} {st : StrandId} {w : Word32} (k : Nat)
    (h : s.now c st < (s.strand c st).base + (match (hdrOf w 0 none).timing with | .after d => d.val | .stamped _ => 0)) :
    s.illegalWord c st w k = s := by
  unfold State.illegalWord
  exact if_pos h
theorem State.illegalWord_late {s : State} {c : CoreId} {st : StrandId} {w : Word32} {k kind : Nat}
    (hk : (if (shapeOf (w.extractLsb' 15 8)).isNone then 0 else if offStrand (fetchWords (s.fetchMem c st) (s.strand c st).pos) st then 1 else k) = kind)
    (h : (s.strand c st).base + (match (hdrOf w 0 none).timing with | .after d => d.val | .stamped _ => 0) ≤ s.now c st) :
    s.illegalWord c st w k = s.trap c st { cause := 3, epc := (s.strand c st).pos, i0 := BitVec.ofNat 64 kind, i1 := w.setWidth 64 } := by
  subst hk
  unfold State.illegalWord
  exact if_neg (Nat.not_lt.mpr h)

/-- The words at a position on a strand that the opcode map does not list for their opcode. -/
theorem offStrand_of_strands {w : Word32} (ext : List Word32) {st : StrandId} (h : (strandsOf (w.extractLsb' 15 8)).contains st = false)
    (hs : (shapeOf (w.extractLsb' 15 8)).isSome = true) : offStrand (w :: ext) st = true := by
  obtain ⟨sh, he⟩ := Option.isSome_iff_exists.mp hs
  simp only [offStrand, he, h]
  rfl

/-- Settles O5. -/
theorem stepTrapsOnBadFetches : Obligations.StepTrapsOnBadFetches := by
  intro s c st rest hin hp ho hi ht hr hpo htd hint hw u bad ws
  have turn (hb : (s.strand c st).base ≤ s.now c st) : step s = u.fetchTurn exec c st :=
    (step_of_turn hin hp ho hi ht).trans (State.strandTurn_fetches (s := u) hr hpo htd hint hw hb)
  refine ⟨fun kind line hf hb => ?image, fun k hf h1 h2 hd hb => ?words,
    fun opc hs ho hw => offStrand_of_strands _ (hw ▸ hs) (hw ▸ ho)⟩
  case image => exact (turn hb).trans (State.fetchTurn_image (s := u) hf)
  case words =>
    intro ill dly
    have none : u.codeError c st = none := State.codeError_none (s := u) fun h => List.not_mem_nil (h1 ▸ h.2)
    have same : (if (u.strand c st).level then u else u.countPlaces c 4 [(u.strand c st).pos / 16]) = u := by
      rw [State.countPlaces_none (s := u) h2, ite_self]
    have judged : step s = .next (u.illegalWord c st (s.baseWord c st) k) := (turn hb).trans (State.fetchTurn_illegal (s := u) hf none same hd)
    refine ⟨fun early => judged.trans (congrArg _ (State.illegalWord_early (s := u) k early)), fun late => ?_⟩
    have assigned {o : Option Shape} (h : o ≠ Option.none) : ¬o.isNone = true := mt Option.isNone_iff_eq_none.mp h
    have kinds {kind : Nat} (h : (if (shapeOf ((s.baseWord c st).extractLsb' 15 8)).isNone then 0 else if offStrand ws st then 1 else k) = kind) :
        step s = .next (ill kind) := judged.trans (congrArg _ (State.illegalWord_late (s := u) h late))
    exact ⟨fun hs => kinds (if_pos (Option.isNone_iff_eq_none.mpr hs)), fun hs off => kinds ((if_neg (assigned hs)).trans (if_pos off)),
      fun hs on => kinds ((if_neg (assigned hs)).trans (if_neg (ne_true_of_eq_false on)))⟩

end Sys2Proof.Machine

/-! wswap (R247) on a core without a task: the clock that its exchange is posted on is not the core's own. -/

namespace Sys2Proof.Machine

/-- A wswap that finds no preload posts the exchange on the clock of the binding of its core's ID, at that clock's reading. -/
theorem State.wswap_posts {s : State} {c : CoreId} {st : StrandId} {h : Hdr} (hi : s.Issues c st h { legal := [.c] }) (hp : s.preloading c = none)
    (ha : h.pap = false) (hn : h.pan = false) :
    ∃ t n, exec (.wswap h) s = .next t ∧ t.cal = ⟨.dt (s.bidOf c), s.read (.dt (s.bidOf c)), latePrio + 1, n, .wswap c⟩ :: s.cal := by
  let r : Req := { legal := [.c], busy := (s.preloading s.me.1).map fun p => (4, BitVec.ofNat 64 p.1, 16 * p.2 + 2), needs := true }
  have hr : s.Issues c st h r := by
    have me := hi.me
    obtain ⟨cur, now, legal, unmet, -, -, timing⟩ := hi
    exact ⟨cur, now, legal, unmet, rfl, by simp only [r, me, hp]; rfl, timing⟩
  let u := s.issued c st h r
  have stored : u.storage = s.storage := s.issued_storage c st h r
  have bid : u.bidOf c = s.bidOf c := State.storage_bidOf stored c
  have clock : u.read (.dt (s.bidOf c)) = s.read (.dt (s.bidOf c)) := State.storage_read stored _
  have cal : u.cal = s.cal := s.issued_cal c st h r
  refine ⟨_, u.order, issue_ready hr _, ?_⟩
  rw [((_ : State).pushNow_spec _).2.2.2.2 (by simp only [State.turn_h, ha, hn, Bool.or_false])]
  simp only [State.turn_c, State.laterOn, State.post]
  show ⟨.dt (u.bidOf c), u.read (.dt (u.bidOf c)) + 0, _, _, _⟩ :: u.cal = _
  rw [bid, clock, cal]
  rfl

/-- `strayClock` in the turn of strand C. -/
def strayRange : State := { strayClock with cur := some (0, .c) }

/-- Refutes O53: in `strayRange` the exchange of a wswap is posted for reading 100 of the clock of binding 0, while the core's domain time is 0. -/
theorem not_reshapesChainsAndSwapsActOnTheirCore : ¬ Obligations.ReshapesChainsAndSwapsActOnTheirCore := by
  intro holds
  have strand : strayRange.strand 0 .c = { level := true } := by simp [strayRange, strayClock, State.strand, State.core, Core.strand]
  have hi : strayRange.Issues 0 .c {} { legal := [.c] } := by
    refine ⟨rfl, ?_, ?_, ?_, rfl, rfl, ?_⟩
    · exact Nat.zero_le _
    · rw [strand]; rfl
    · rw [strand]
      simp only [strayRange, strayClock, State.core, Vector.getElem_replicate]
      decide
    · exact fun h => absurd h.1 (by rw [strand]; decide)
  have bid : strayRange.bidOf 0 = 0 := by simp [strayRange, strayClock, State.bidOf, State.core]
  have dt : strayRange.dt 0 = 0 := by simp [strayRange, strayClock, State.dt, State.bindingOf, State.core]
  have other : strayRange.read (.dt 0) = 100 := rfl
  have idle : strayRange.preloading 0 = none := by
    simp [State.preloading, strayRange, strayClock, State.core, Core.lead, Core.hob]
  obtain ⟨t, n, step, cal⟩ := State.wswap_posts hi idle rfl rfl
  obtain ⟨-, -, -, -, swaps, -⟩ := holds strayRange 0 .c {} 0 0 0 0 0 hi
  obtain ⟨t', step', -, -, -, m, pending⟩ := swaps idle
  obtain rfl : t = t' := Host.Outcome.next.inj (step.symm.trans step')
  rw [cal, bid, dt, other] at pending
  have none : strayRange.cal = [] := rfl
  rw [none, List.mem_singleton] at pending
  have due : 0 = 100 := congrArg Due.due pending
  omega

end Sys2Proof.Machine

/-! A group that its channel does not yet deliver (R195), on a core without a task: the clock of its retry is not the core's own. -/

namespace Sys2Proof.Machine

/-- The write of a group that its channel does not deliver is put off by a cycle of the clock of the binding of the core's ID. -/
theorem State.writeGroup_waits {s : State} {p : Copy} {j : Nat} {d : CoreId × Nat} (hf : p.failed = none) (hd : p.lsDest = some d)
    (hk : p.kind ≠ .lf) (hs : s.delivering p = false) : s.writeGroup p j = s.loseGroup p j .write := by
  simp [State.writeGroup, hf, hd, hk, hs]

/-- With nothing else in the calendar, the retry of a group is all that it holds. -/
theorem State.loseGroup_cal {s : State} (p : Copy) (j : Nat) (side : XferSide) (hc : s.cal = []) : (s.loseGroup p j side).cal =
    [⟨.dt (s.bidOf p.core), s.read (.dt (s.bidOf p.core)) + 1, p.rank (side == .write), s.order, .ev (.copyGroupTransfer p.id j side)⟩] := by
  simp only [State.loseGroup, State.laterOn, State.post, State.delayGroups, hc, List.map_nil]
  rfl

/-- A copy of 64 bytes within the scratchpad of core 0. -/
def strayGroup : Copy :=
  { id := 0, core := 0, strand := .l, pos := 0, sys := false, kind := .ll, dst := 0, src := 0, n := 64, scope := .core, ch := 0, cv := none
    db := none, sb := none, dt := 0, hc := 0, half := false, rd := 0, wr := 0, data := [], dlen := 64, chunk := 0, left := [], words := none
    filled := false, stopped := false, ver := 0, coll := none, formed := none, err := false, flags := [], fault := none, samples := []
    srcAt := [], barAt := none, owes := [], carry := [], halfWidth := false, entry := 0, failed := none }

/-- A command, a wait and a result beside it, for what the statement speaks of besides copies. -/
def strayCmd : HobCmd :=
  ⟨0, .mzero, 0, 0, none, 0, 0, 0, 0, none, 0, 0, [], [], [], [], [], none, false, 0, [], 0, [], none⟩
def strayWait : Wait := Turn.waitOf ⟨0, .l, 0, 0, none, [], [], {}, false, 0⟩ {} .idle 0 false 0
def strayResult : Result := xResult false 0 0

/-- `strayClock` with that copy on every core, none of whose channels delivers. -/
def strayCopy : State := { strayClock with cores := Vector.replicate 256 { copies := [strayGroup] } }

/-- Refutes O57: in `strayCopy` the write of the group is put off to reading 101 of the clock of binding 0, while the core's domain time is 0. -/
theorem not_coreEventsDoTheirWork : ¬ Obligations.CoreEventsDoTheirWork := by
  intro holds
  have copy : strayCopy.copy 0 = some strayGroup := by simp [strayCopy, State.copy, State.copyOf, State.core, strayGroup]
  have closed : strayCopy.delivering strayGroup = false := by simp [strayCopy, State.delivering, State.core, strayGroup, Copy.lsDest]
  have bid : strayCopy.bidOf 0 = 0 := by simp [strayCopy, State.bidOf, State.core]
  have dt : strayCopy.dt 0 = 0 := by simp [strayCopy, State.dt, State.bindingOf, State.core]
  have other : strayCopy.read (.dt 0) = 100 := rfl
  obtain ⟨-, -, -, groups, -⟩ := holds strayCopy 0 .l strayResult ⟨0, 0, strayResult, false, false, false, []⟩ 0 0 0 strayGroup 0 strayWait 0 strayCmd
  obtain ⟨write, -⟩ := groups copy
  obtain ⟨-, lands⟩ := write nofun
  obtain ⟨-, waits⟩ := lands 0 0 rfl
  obtain ⟨t, step, -, -, m, pending⟩ := waits nofun (.inl closed)
  have step' : exec (.copyGroupTransfer 0 0 .write) strayCopy = .next (strayCopy.loseGroup strayGroup 0 .write) := by
    have := State.writeGroup_waits (j := 0) (d := (0, 0)) (p := strayGroup) rfl rfl nofun closed
    simp only [exec.eq_def, execCopyGroupTransfer, copy, this]
  obtain rfl : strayCopy.loseGroup strayGroup 0 .write = t := Host.Outcome.next.inj (step'.symm.trans step)
  rw [State.loseGroup_cal strayGroup 0 .write rfl, List.mem_singleton] at pending
  have due : strayCopy.dt 0 + 1 = strayCopy.read (.dt (strayCopy.bidOf 0)) + 1 := congrArg Due.due pending
  rw [bid, dt, other] at due
  omega

end Sys2Proof.Machine

/-! The system instructions (R44 to R47, R185 to R187): what each leaves alone, and what it starts. -/

namespace Sys2Proof.Machine

/-! ### What stays in view -/

theorem SameRegs.refl (t : Strand) : SameRegs t t := ⟨rfl, rfl, rfl, rfl, rfl, rfl, rfl, rfl, rfl, rfl, rfl, rfl, rfl, rfl, rfl⟩
theorem SameRegs.trans {a b d : Strand} (h : SameRegs a b) (g : SameRegs b d) : SameRegs a d :=
  ⟨g.x.trans h.x, g.xs.trans h.xs, g.level.trans h.level, g.fcsr.trans h.fcsr, g.sbound.trans h.sbound, g.tcause.trans h.tcause,
    g.tepc.trans h.tepc, g.tinfo0.trans h.tinfo0, g.tinfo1.trans h.tinfo1, g.tdt.trans h.tdt, g.tprev.trans h.tprev, g.tlsel.trans h.tlsel,
    g.tscr.trans h.tscr, g.latches.trans h.latches, g.frames.trans h.frames⟩
theorem SameCoreRegs.refl (k : Core) : SameCoreRegs k k := ⟨rfl, rfl, rfl, rfl, rfl, rfl, rfl⟩
theorem SameCoreRegs.trans {a b d : Core} (h : SameCoreRegs a b) (g : SameCoreRegs b d) : SameCoreRegs a d :=
  ⟨g.v.trans h.v, g.k.trans h.k, g.q.trans h.q, g.dom.trans h.dom, g.srseed.trans h.srseed, g.gens.trans h.gens, g.earlyrd.trans h.earlyrd⟩

/-- Two states agree in every register and every byte of memory. -/
def State.Same (s t : State) : Prop := (∀ e o, SameRegs (s.strand e o) (t.strand e o)) ∧
  (∀ e, SameCoreRegs (s.core e) (t.core e) ∧ SameCoreMem (s.core e) (t.core e)) ∧ t.gm = s.gm

section Same

variable {s t u : State}

theorem State.Same.refl (s : State) : s.Same s := ⟨fun _ _ => .refl _, fun _ => ⟨.refl _, .refl _⟩, rfl⟩
theorem State.Same.trans (h : s.Same t) (g : t.Same u) : s.Same u :=
  ⟨fun e o => (h.1 e o).trans (g.1 e o), fun e => ⟨(h.2.1 e).1.trans (g.2.1 e).1, (h.2.1 e).2.trans (g.2.1 e).2⟩, g.2.2.trans h.2.2⟩
theorem State.Same.of_storage (h : t.storage = s.storage) : s.Same t :=
  ⟨State.storage_regs h, fun e => ⟨Core.storage_coreRegs (State.storage_core h e), Core.storage_coreMem (State.storage_core h e)⟩, State.storage_gm h⟩
/-- Nothing of a core and nothing of GM has changed. -/
theorem State.Same.of_cores (hc : t.cores = s.cores) (hg : t.gm = s.gm) : s.Same t := by
  have core (e : CoreId) : t.core e = s.core e := by simp only [State.core, hc]
  exact ⟨fun e o => by simp only [State.strand, core]; exact .refl _, fun e => by rw [core]; exact ⟨.refl _, .refl _⟩, hg⟩
/-- Every core keeps its strands, its registers and its memories. -/
theorem State.Same.of_core (h : ∀ e, (t.core e).strands = (s.core e).strands ∧ SameCoreRegs (s.core e) (t.core e) ∧ SameCoreMem (s.core e) (t.core e))
    (hg : t.gm = s.gm) : s.Same t :=
  ⟨fun e o => by simp only [State.strand, Core.strand, (h e).1]; exact .refl _, fun e => (h e).2, hg⟩
/-- A change of one core that keeps its strands, its registers and its memories. -/
theorem State.Same.updCore (s : State) (c : CoreId) (f : Core → Core) (hs : (f (s.core c)).strands = (s.core c).strands)
    (hr : SameCoreRegs (s.core c) (f (s.core c))) (hm : SameCoreMem (s.core c) (f (s.core c))) : s.Same (s.updCore c f) := by
  refine .of_core (fun e => ?_) rfl
  by_cases h : e = c
  · subst h; rw [State.core_updCore]; exact ⟨hs, hr, hm⟩
  · rw [State.core_updCore_ne s f h]; exact ⟨rfl, .refl _, .refl _⟩
/-- A change of one strand that keeps its registers. -/
theorem State.Same.updStrand (s : State) (c : CoreId) (st : StrandId) (f : Strand → Strand) (hf : SameRegs (s.strand c st) (f (s.strand c st))) :
    s.Same (s.updStrand c st f) := by
  refine ⟨fun e o => ?_, fun e => ?_, rfl⟩
  · by_cases h : (e, o) = (c, st)
    · obtain ⟨rfl, rfl⟩ := Prod.mk.inj h
      rw [State.strand_updStrand]
      exact hf
    · rw [State.strand_updStrand_ne s f h]
      exact .refl _
  · by_cases h : e = c
    · subst h
      rw [State.core_updStrand]
      exact ⟨⟨rfl, rfl, rfl, rfl, rfl, rfl, rfl⟩, rfl, rfl, rfl, rfl, rfl, rfl, rfl, rfl, fun _ => rfl⟩
    · rw [State.core_updStrand_ne s st f h]
      exact ⟨.refl _, .refl _⟩

end Same

/-! ### dsync (R44 to R47) -/

theorem State.storage_stepsAt {s t : State} (h : t.storage = s.storage) (c : CoreId) (st : StrandId) (l : Nat) :
    (t.strand c st).stepsAt l = (s.strand c st).stepsAt l :=
  (congrArg (fun x : Strand => x.stepsAt l) (Core.storage_strand (State.storage_core h c) st) :)
theorem State.storage_domOf {s t : State} (h : t.storage = s.storage) (c : CoreId) (l : Nat) : (t.core c).domOf l = (s.core c).domOf l :=
  (congrArg (fun x : Core => x.domOf l) (State.storage_core h c) :)

section Dsync

/-- The arrivals with those of a full superstep marked: each needs what any of them needs (R47). -/
def State.marked (s : State) (c : CoreId) (st : StrandId) (l : Nat) : List Arrival := s.arrivals.map fun a =>
  if (s.arrivalsAt c st l).contains a then { a with needs := ((s.arrivalsAt c st l).map (·.needs)).flatten, full := true } else a

/-- Closing a superstep posts its completion and marks its arrivals; nothing else changes. -/
theorem State.closeStep_spec (s : State) (c : CoreId) (st : StrandId) (l : Nat) :
    (s.closeStep c st l).cores = s.cores ∧ (s.closeStep c st l).gm = s.gm ∧ (s.closeStep c st l).arrivals = s.marked c st l := by
  unfold State.closeStep
  simp only []
  split
  · exact ⟨rfl, rfl, rfl⟩
  · split
    · exact ⟨rfl, rfl, rfl⟩
    · refine foldl_keeps (P := fun v : State => v.cores = s.cores ∧ v.gm = s.gm ∧ v.arrivals = s.marked c st l) _ ?_ _ _ ⟨rfl, rfl, rfl⟩
      exact fun v p h => h

variable (v : State) (u : Turn) (l : Nat)

/-- The strand has arrived at its next superstep of a level. -/
def State.arrives : State :=
  ({ v with arrivals := v.arrivals ++ [v.arrival u l] } : State).updStrand u.c u.st fun t => { t with arrivedFor := (v.arrival u l).step }

theorem State.arrives_same : v.Same (v.arrives u l) :=
  State.Same.updStrand { v with arrivals := v.arrivals ++ [v.arrival u l] } u.c u.st _ ⟨rfl, rfl, rfl, rfl, rfl, rfl, rfl, rfl, rfl, rfl, rfl, rfl, rfl, rfl, rfl⟩
theorem State.arrives_strand : (v.arrives u l).strand u.c u.st = { v.strand u.c u.st with arrivedFor := (v.arrival u l).step } :=
  State.strand_updStrand ..

variable {v u}

/-- A dsync whose arrival is its own or stands at system level arrives; the last participant closes the superstep. -/
theorem dsyncEffect_arrives (d : XReg) (h : (v.strand u.c u.st).arrived = false ∨ (v.strand u.c u.st).level = true) :
    let y := (v.waitFor u (.dsync ⟨l % 4, Nat.mod_lt _ (by decide)⟩) d true 0).arrives u l
    dsyncEffect d l u v = if y.stepFull u.c u.st l then y.closeStep u.c u.st l else y := by
  have fresh : ¬((v.strand u.c u.st).arrived && !(v.strand u.c u.st).level) = true := by
    rcases h with h | h <;> simp [h]
  exact if_neg fresh

/-- What stays of the arrivals after a dsync's own: each, but for the mark of a full superstep. -/
theorem dsyncEffect_spec (d : XReg) (h : (v.strand u.c u.st).arrived = false ∨ (v.strand u.c u.st).level = true) :
    let w := v.waitFor u (.dsync ⟨l % 4, Nat.mod_lt _ (by decide)⟩) d true 0
    let t := dsyncEffect d l u v
    w.Same t ∧ t.strand u.c u.st = { w.strand u.c u.st with arrivedFor := (w.arrival u l).step } ∧
    t.arrivals.length = v.arrivals.length + 1 ∧ ∃ ns full, { w.arrival u l with needs := ns, full := full } ∈ t.arrivals := by
  intro w t
  let y := w.arrives u l
  have same := w.arrives_same u l
  have strand := w.arrives_strand u l
  have arrivals : y.arrivals = v.arrivals ++ [w.arrival u l] := rfl
  have step : t = if y.stepFull u.c u.st l then y.closeStep u.c u.st l else y := dsyncEffect_arrives l d h
  by_cases full : y.stepFull u.c u.st l = true
  · obtain ⟨cores, gm, marked⟩ := y.closeStep_spec u.c u.st l
    rw [step, if_pos full]
    refine ⟨same.trans (.of_cores cores gm), ?_, ?_, ?_⟩
    · rw [← strand]
      simp only [State.strand, State.core, cores]
      rfl
    · rw [marked, State.marked, List.length_map, arrivals, List.length_append]
      rfl
    · rw [marked, State.marked]
      by_cases m : (y.arrivalsAt u.c u.st l).contains (w.arrival u l) = true
      · exact ⟨_, _, List.mem_map.mpr ⟨w.arrival u l, by simp [arrivals], if_pos m⟩⟩
      · exact ⟨_, _, List.mem_map.mpr ⟨w.arrival u l, by simp [arrivals], if_neg m⟩⟩
  · rw [step, if_neg full]
    exact ⟨same, strand, by simp [y, arrivals], _, _, by rw [arrivals]; exact List.mem_append_right _ (List.mem_singleton.mpr rfl)⟩

end Dsync

/-! ### tlbinv (R185, R331) -/

section Tlb

/-- What an invalidation removes from a TLB. -/
def TlbEntry.matches (e : TlbEntry) (kind : TlbKind) (asid va bits : Nat) : Prop := match kind with
  | .all => True
  | .asid => e.asid = asid
  | .page => e.asid = asid ∧ e.bits = bits ∧ e.va = va / 2 ^ bits * 2 ^ bits

theorem mem_tlbRemove {kind : TlbKind} {asid va bits : Nat} {es : List TlbEntry} {e : TlbEntry} :
    e ∈ tlbRemove kind asid va bits es ↔ e ∈ es ∧ ¬e.matches kind asid va bits := by
  unfold tlbRemove TlbEntry.matches
  rw [List.mem_filter]
  cases kind with
  | all => simp
  | asid => simp
  | page => simp; tauto

/-- A page's base address names the same page. -/
theorem TlbEntry.matches_base {e : TlbEntry} {kind : TlbKind} {asid va bits : Nat} :
    e.matches kind asid (va / 2 ^ bits * 2 ^ bits) bits ↔ e.matches kind asid va bits := by
  unfold TlbEntry.matches
  rw [Nat.mul_div_cancel _ (Nat.two_pow_pos bits)]

variable (s : State) (by' : Option (CoreId × StrandId)) (id : Nat) (kind : TlbKind) (asid va bits : Nat)

/-- An invalidation takes the matching entries from every TLB; no register and no byte of memory changes. -/
theorem State.startInval_spec : let t := s.startInval by' id kind asid va bits
    (∀ e, t.core e = { s.core e with utlb := tlbRemove kind asid (va / 2 ^ bits * 2 ^ bits) bits (s.core e).utlb }) ∧ t.gm = s.gm ∧
    (∀ l : Fin 4, t.xlate.shared[l.val] = tlbRemove kind asid (va / 2 ^ bits * 2 ^ bits) bits s.xlate.shared[l.val]) :=
  ⟨fun e => by simp [State.startInval, State.tlbRemoveAll, State.core], rfl, fun l => by simp [State.startInval, State.tlbRemoveAll]⟩

end Tlb

/-! ### ctxsave, ctxload and evpost (R186, R187) -/

section Engines

/-- Starting the save engine of a core touches that core's engine alone. -/
theorem State.startEngine_spec (s : State) (t : CoreId) (area : Nat) (load : Bool) :
    s.Same (s.startEngine t area load) ∧ (∀ e o, (s.startEngine t area load).strand e o = s.strand e o) ∧
    (∃ w, ((s.startEngine t area load).core t).engine = some (area, load, w) ∧ s.hc < w) ∧
    (∀ k, (s.startEngine t area load).read k = s.read k) ∧ ∀ e o, (s.startEngine t area load).clock e o = s.clock e o := by
  let g (k : Core) : Core := { k with engine := some (area, load, s.hc + 1 + Config.delay s.choice) }
  let u : State := { s with choice := s.choice + 1 }
  have same : s.Same (u.updCore t g) := State.Same.updCore u t g rfl ⟨rfl, rfl, rfl, rfl, rfl, rfl, rfl⟩ ⟨rfl, rfl, rfl, rfl, rfl, rfl, rfl, rfl, fun _ => rfl⟩
  have core (e : CoreId) : ∃ x, (u.updCore t g).core e = { s.core e with engine := x } := by
    by_cases h : e = t
    · subst h; exact ⟨_, State.core_updCore ..⟩
    · exact ⟨_, State.core_updCore_ne u g h⟩
  have strand (e : CoreId) (o : StrandId) : (u.updCore t g).strand e o = s.strand e o := by
    obtain ⟨x, hx⟩ := core e
    simp only [State.strand, hx, Core.strand]
  refine ⟨same, strand, ⟨s.hc + 1 + Config.delay s.choice, ?_, ?_⟩, fun k => ?_, fun e o => ?_⟩
  · exact congrArg Core.engine (State.core_updCore u t g)
  · omega
  · cases k with
    | cyc e => obtain ⟨x, hx⟩ := core e; exact (congrArg Core.cyc hx :)
    | _ => rfl
  · obtain ⟨x, hx⟩ := core e
    show (if ((u.updCore t g).strand e o).level then Clock.cyc e else .dt ((u.updCore t g).bidOf e)) = _
    rw [strand, State.bidOf, hx]
    rfl

/-- A posted event goes out, is held back, or is dropped. -/
theorem State.event_host (s : State) (kind : Nat) (ws : List Word) :
    (∃ part, (s.event kind ws).host.sent = s.host.sent ++ [(part, ⟨kind, ws⟩)]) ∨
    (s.event kind ws).host.held = s.host.held ++ [⟨kind, ws⟩] ∨ (s.event kind ws).host.dropped = s.host.dropped + 1 := by
  unfold State.event
  simp only []
  split
  · next p _ => exact .inl ⟨p, rfl⟩
  · split
    · exact .inr (.inl rfl)
    · exact .inr (.inr rfl)

end Engines

/-- A state with the same cores, bindings and tick reads every strand's clock as before. -/
theorem State.now_of_cores {s t : State} (hc : t.cores = s.cores) (hb : t.bindings = s.bindings) (hh : t.hc = s.hc) (c : CoreId) (st : StrandId) :
    t.clock c st = s.clock c st ∧ t.now c st = s.now c st := by
  have core (e : CoreId) : t.core e = s.core e := congrArg (fun v : Vector Core 256 => v[e.val]) hc
  have clock : t.clock c st = s.clock c st := by rw [State.clock, State.bidOf, State.strand, core]; rfl
  have read (k : Clock) : t.read k = s.read k := by cases k <;> simp only [State.read, State.binding, core, hb, hh]
  exact ⟨clock, by rw [State.now, clock, read, State.now]⟩

/-- A result in flight from a state whose strand's results, level and clock are those of the state before the issue. -/
theorem State.flies_from {s v : State} {c : CoreId} {st : StrandId} {lat : Nat} {res : Result} {ready arith : Bool}
    (hf : (v.strand c st).flights = (s.strand c st).flights) (hl : (v.strand c st).level = (s.strand c st).level)
    (hk : v.clock c st = s.clock c st) (hn : v.now c st = s.now c st) (ho : res.ord = (s.strand c st).ord) :
    s.Flies (v.fly c st lat res ready arith) c st lat res ready arith := by
  obtain ⟨strand, -, write, -⟩ := v.fly_spec c st lat res ready arith
  refine ⟨⟨[], fun _ => rfl, ?_⟩, fun q => ?_⟩
  · rw [strand]
    simp only [hf, ho, hn, hl]
  · have := write q
    rwa [hk, hn, ho] at this

section Ctx

variable {s : State} {c : CoreId} {st : StrandId} {h : Hdr} {d a b : XReg}

/-- ctxsave and ctxload: the status is on its way to x[D], and with status 0 the engine of the core named has started. -/
theorem ctxOp_spec (load : Bool) (hi : s.Issues c st h { priv := true, writes := true }) :
    let status := s.ctxStatus c (s.x c st a) (s.x c st b)
    ∃ t, ctxOp h d a b load s = .next t ∧ s.Advanced t c st ∧ s.Same t ∧
      s.Flies t c st 2 (s.resultOf c st h (xResult (s.strand c st).level d (BitVec.ofNat 64 status))) true false ∧
      (status ≠ 0 → t.storage = s.storage) ∧
      (status = 0 → ∃ w, (t.core (coreId (s.x c st a).toNat)).engine = some ((s.x c st b).toNat, load, w) ∧ s.hc < w) := by
  intro status
  let r : Req := { priv := true, writes := true }
  let v := s.issued c st h r
  let k := coreId (s.x c st a).toNat
  let e := if status = 0 then v.startEngine k (s.x c st b).toNat load else v
  let res := s.resultOf c st h (xResult (s.strand c st).level d (BitVec.ofNat 64 status))
  have stored : v.storage = s.storage := s.issued_storage c st h r
  have advanced := s.issued_advanced c st h r rfl
  have step : ctxOp h d a b load s = .next (e.fly c st 2 res true false) := by
    refine (issue_ready hi _).trans ?_
    simp only [hi.me, hi.reg]
    rfl
  obtain ⟨same, strands, ⟨w, engine, later'⟩, reads, clocks⟩ := v.startEngine_spec k (s.x c st b).toNat load
  have strand (o : StrandId) : e.strand c o = v.strand c o := by
    by_cases z : status = 0 <;> simp only [e, z, if_true, if_false, strands]
  have kept : v.Same e := by
    by_cases z : status = 0
    · simp only [e, z, if_true]; exact same
    · simp only [e, z, if_false]; exact .refl v
  have clock : e.clock c st = v.clock c st := by
    by_cases z : status = 0 <;> simp only [e, z, if_true, if_false, clocks]
  have now : e.now c st = v.now c st := by
    rw [State.now, clock, State.now]
    by_cases z : status = 0 <;> simp only [e, z, if_true, if_false, reads]
  obtain ⟨own, flown, -, -⟩ := e.fly_spec c st 2 res true false
  refine ⟨_, step, advanced.of_eq own ?_, (State.Same.of_storage stored).trans (kept.trans (.of_storage flown)), ?_, fun z => ?_, fun z => ?_⟩
  · rw [strand]; exact ⟨rfl, rfl, rfl, rfl, rfl, rfl⟩
  · refine State.flies_from ?_ ?_ (clock.trans (State.storage_clock stored c st)) (now.trans (State.storage_now stored c st)) rfl
    · rw [strand]; exact State.issued_flights s c st h r
    · rw [strand]; exact State.storage_level stored c st
  · exact flown.trans (by simp only [e, z, if_false]; exact stored)
  · refine ⟨w, ?_, by rw [← State.storage_hc stored]; exact later'⟩
    have here : (e.core k).engine = some ((s.x c st b).toNat, load, w) := by simp only [e, z, if_true]; exact engine
    exact ((congrArg Core.engine (State.storage_core flown k) :)).trans here

end Ctx

/-- Settles O55. -/
theorem systemInstructionsActOnTheirUnits : Obligations.SystemInstructionsActOnTheirUnits := by
  intro s c st h d a b lvl code kind size t0 x y same matches' status engine
  refine ⟨fun hi hd ha => ?dsync, fun hi hd hl => ?undefined, fun hi => ?tlbinv, fun hi => ⟨ctxOp_spec false hi, ctxOp_spec true hi⟩,
    fun hi => ?idle, fun hi => ?evpost⟩
  case dsync =>
    let r : Req := { legal := dsyncStrands lvl.toNat, writes := true }
    let v := s.issued c st h r
    let u := s.turn c st h r
    have stored : v.storage = s.storage := s.issued_storage c st h r
    have bank := Core.storage_strand (State.storage_core stored c) st
    have fresh : (v.strand c st).arrived = false ∨ (v.strand c st).level = true := by
      rwa [show (v.strand c st).arrived = t0.arrived from (congrArg Strand.arrived bank :), State.storage_level stored c st]
    obtain ⟨kept, own, count, ns, full, mem⟩ := dsyncEffect_spec (v := v) (u := u) lvl.toNat d fresh
    have waited := (v.waitFor_storage u (.dsync ⟨lvl.toNat % 4, Nat.mod_lt _ (by decide)⟩) d true 0).trans stored
    have step : exec (.dsync h d lvl) s = .next (dsyncEffect d lvl.toNat u v) :=
      issue_when (r := r) hi rfl rfl (if_pos (by rw [hi.me]; exact hd)) rfl rfl rfl (dsyncEffect d lvl.toNat)
    have level : (⟨lvl.toNat % 4, Nat.mod_lt _ (by decide)⟩ : Fin 4) = lvl.toFin := Fin.ext (Nat.mod_eq_of_lt lvl.isLt)
    let n := ((v.waitFor u (.dsync ⟨lvl.toNat % 4, Nat.mod_lt _ (by decide)⟩) d true 0).arrival u lvl.toNat).step
    have own' : (dsyncEffect d lvl.toNat u v).strand c st =
        { v.strand c st with
          wait := some (u.waitOf (v.strand c st) (.dsync ⟨lvl.toNat % 4, Nat.mod_lt _ (by decide)⟩) d true 0), arrivedFor := n } :=
      own.trans (congrArg (fun t : Strand => { t with arrivedFor := n }) (State.waitFor_at v u _ d true 0))
    have waits := State.waitsFor_of (r := r) (congrArg Strand.wait own') (State.storage_regs stored c st).sbound
    rw [level] at waits
    refine ⟨_, step, (s.issued_advanced c st h r rfl).of_eq own' ⟨rfl, rfl, rfl, rfl, rfl, rfl⟩, (State.Same.of_storage waited).trans kept,
      waits, ?_, _, mem, rfl, rfl, rfl, ?_, ?_⟩
    · rw [count, show v.arrivals = s.arrivals from (congrArg State.arrivals stored :)]
    · exact congrArg domGid (State.storage_domOf waited c _)
    · exact congrArg (· + 1) (State.storage_stepsAt waited c st _)
  case undefined =>
    let r : Req := { legal := dsyncStrands lvl.toNat, writes := true, ill := some 7 }
    have ill : r.illegal t0 st h = some 7 := Req.illegal_of_ill hl rfl rfl
    have step : exec (.dsync h d lvl) s = issue h r (dsyncEffect d lvl.toNat) s := by
      have : ¬domEn ((s.core s.me.1).domOf lvl.toNat) = true := by rw [hi.me]; simp [hd]
      simp only [exec.eq_def, execDsync, if_neg this, r]
    rw [step, issue_at hi.1, State.attempt_illegal hi.2.1 ill]
    rfl
  case tlbinv =>
    let r : Req := { priv := true }
    let v := s.issued c st h r
    let w := v.waitFor (s.turn c st h r) (.unit 2 x.toNat) 0 false 0
    have stored : w.storage = s.storage := (State.waitFor_storage ..).trans (s.issued_storage c st h r)
    obtain ⟨cores, gm, shared⟩ := w.startInval_spec (some (c, st)) t0.ord kind (Word.bits y 0 16) x.toNat (PageSize.bits size)
    have own : (w.startInval (some (c, st)) t0.ord kind (Word.bits y 0 16) x.toNat (PageSize.bits size)).strand c st = w.strand c st := by
      simp only [State.strand, cores, Core.strand]
    have step : exec (.tlbinv h a b kind size) s = .next (w.startInval (some (c, st)) t0.ord kind (Word.bits y 0 16) x.toNat (PageSize.bits size)) := by
      refine (issue_ready (r := r) hi _).trans ?_
      rw [hi.reg, hi.reg]
      rfl
    have asid : Word.bits y 0 16 = y.toNat % 2 ^ 16 := by simp [Word.bits, bitsAt]
    have removed (o : TlbEntry) (es : List TlbEntry) : o ∈ tlbRemove kind (Word.bits y 0 16)
        (x.toNat / 2 ^ PageSize.bits size * 2 ^ PageSize.bits size) (PageSize.bits size) es ↔ o ∈ es ∧ ¬matches' o := by
      rw [mem_tlbRemove, TlbEntry.matches_base, asid]
      rfl
    refine ⟨_, step, (s.issued_advanced c st h r rfl).of_eq (own.trans (State.waitFor_strand ..)) ⟨rfl, rfl, rfl, rfl, rfl, rfl⟩,
      (State.Same.of_storage stored).trans (.of_core (fun e => ?_) gm),
      State.waitsFor_of (r := r) (by rw [own]; exact congrArg Strand.wait (State.waitFor_strand ..)) (State.storage_regs (s.issued_storage c st h r) c st).sbound,
      fun e o => ?_, fun l o => ?_⟩
    · rw [cores]; exact ⟨rfl, ⟨rfl, rfl, rfl, rfl, rfl, rfl, rfl⟩, rfl, rfl, rfl, rfl, rfl, rfl, rfl, rfl, fun _ => rfl⟩
    · rw [cores, removed, show (w.core e).utlb = (s.core e).utlb from (congrArg Core.utlb (State.storage_core stored e) :)]
    · rw [shared, removed, State.storage_xlate stored]
  case idle =>
    let r : Req := { priv := true }
    let v := s.issued c st h r
    let u := s.turn c st h r
    have stored : v.storage = s.storage := s.issued_storage c st h r
    have own : ((v.pushNow u).waitFor u.silent .idle 0 false 0).strand c st = _ := State.waitFor_silent_strand (v.pushNow u) s c st h r .idle 0 false 0
    rw [State.pushNow_strand] at own
    exact ⟨_, _, issue_ready hi _, (s.issued_advanced c st h r rfl).of_eq own ⟨rfl, rfl, rfl, rfl, rfl, rfl⟩,
      (State.waitFor_storage ..).trans ((v.pushNow_storage u).trans stored), fun hp => (s.pushNow_pushes c st h r hp).of_cal rfl, congrArg Strand.wait own, rfl⟩
  case evpost =>
    let r : Req := { priv := true }
    let v := s.issued c st h r
    let u := s.turn c st h r
    let w : State := { v with choice := v.choice + 1 }
    let ws : List Word := [code.setWidth 64, x]
    have stored : v.storage = s.storage := s.issued_storage c st h r
    have drawn : w.storage = s.storage := stored
    have host : w.host = s.host := (congrArg State.host drawn :)
    have step : exec (.evpost h a code) s = .next (if Config.choose v.choice then (w.event 5 ws).pushNow u else
        (w.waitFor u (.unit 7 0) 0 false 0).sometime (.evpost c st t0.ord (code.setWidth 64) x) latePrio) := by
      refine (issue_ready (r := r) hi _).trans ?_
      rw [hi.reg]
      rfl
    by_cases now : Config.choose v.choice = true
    · rw [if_pos now] at step
      obtain ⟨cores, gm, bindings, hc⟩ := w.event_frame 5 ws
      let e := w.event 5 ws
      have strand : e.strand c st = v.strand c st := by simp only [State.strand, State.core, e, cores, w]
      obtain ⟨clock, at'⟩ := State.now_of_cores cores bindings hc c st
      have pushed : (e.pushNow u).storage = e.storage := State.pushNow_storage ..
      have hosts : (e.pushNow u).host = e.host := (congrArg State.host pushed :)
      refine ⟨_, step, (s.issued_advanced c st h r rfl).of_eq ((State.pushNow_strand ..).trans strand) ⟨rfl, rfl, rfl, rfl, rfl, rfl⟩,
        (State.Same.of_storage drawn).trans ((State.Same.of_cores cores gm).trans (.of_storage pushed)), .inl ⟨?_, fun hp => ?_, ?_⟩⟩
      · rw [State.pushNow_strand]
        exact (congrArg Strand.wait strand).trans (s.issued_wait c st h r)
      · have := (e.pushNow_spec u).2.2.2.1 hp
        simp only [State.turn_c, State.turn_st, u, clock, at', e, State.storage_clock drawn, State.storage_now drawn] at this
        exact this
      · show (∃ part, (e.pushNow u).host.sent = _) ∨ (e.pushNow u).host.held = _ ∨ (e.pushNow u).host.dropped = _
        rw [hosts, ← host]
        exact w.event_host 5 ws
    · rw [if_neg now] at step
      have own : (w.waitFor u (.unit 7 0) 0 false 0).strand c st = _ := State.waitFor_strand w s c st h r (.unit 7 0) 0 false 0
      exact ⟨_, step, (s.issued_advanced c st h r rfl).of_eq own ⟨rfl, rfl, rfl, rfl, rfl, rfl⟩,
        State.Same.of_storage ((State.waitFor_storage ..).trans drawn),
        .inr ⟨State.waitsFor_of (r := r) (congrArg Strand.wait own) (State.storage_regs drawn c st).sbound, host⟩⟩

end Sys2Proof.Machine

/-! Status and system registers (R183, R184, R273): what a write changes, and the values on their way. -/

namespace Sys2Proof.Machine

/-! ### The other strands of the core -/

section Others

variable (s : State) (c : CoreId) (st : StrandId)

theorem State.interruptTo_strand_ne (src : Bool) (p : Word) {e : CoreId} {o : StrandId} (h : (e, o) ≠ (c, st)) :
    (s.interruptTo c st src p).strand e o = s.strand e o := by
  unfold State.interruptTo
  split
  · rfl
  · exact State.strand_updStrand_ne s _ h

/-- A record of the monitors for one strand interrupts no other. -/
theorem State.capture_strand_ne (sel v : Nat) {e : CoreId} {o : StrandId} (h : (e, o) ≠ (c, st)) :
    (s.capture c sel (some st) v).strand e o = s.strand e o := by
  unfold State.capture
  refine foldl_keeps (P := fun u : State => u.strand e o = s.strand e o) _ ?_ _ _ rfl
  intro u n hu
  simp only []
  have caps (g : Core → Vector Cap 4) : (u.updCore c fun m => { m with caps := g m }).strand e o = s.strand e o := by
    refine Eq.trans ?_ hu
    by_cases he : e = c
    · subst he; simp [State.strand, Core.strand]
    · simp [State.strand, he]
  split
  · next own =>
    have str : StrandId.ofNum ⟨(u.core c).caps[n.val].cfg.toNat / 256 % 4, Nat.mod_lt _ (by decide)⟩ = st :=
      (own.2.resolve_left nofun |> Option.some.inj).symm
    split
    · exact (State.interruptTo_strand_ne _ c _ true _ (by rw [str]; exact h)).trans (caps fun m => m.caps.set n.val ((u.core c).caps[n.val].record v))
    · exact caps fun m => m.caps.set n.val ((u.core c).caps[n.val].record v)
  · exact hu

/-- An issue leaves the other strands as they are. -/
theorem State.issued_strand_ne (h : Hdr) (r : Req) {e : CoreId} {o : StrandId} (ne : (e, o) ≠ (c, st)) :
    (s.issued c st h r).strand e o = s.strand e o := by
  have moved (u : State) : (u.advance c st h r).strand e o = u.strand e o := by
    obtain ⟨k, strands, -, eq⟩ := u.advance_eq c st h r
    rw [eq]
    by_cases he : e = c
    · subst he
      have ho : o ≠ st := fun h => ne (by rw [h])
      rw [State.strand, State.core_setCore, Core.strand_setStrand_ne k _ ho, Core.strand, strands]
      rfl
    · simp [State.strand, he]
  unfold State.issued
  simp only []
  split
  · exact (moved _).trans (State.capture_strand_ne s c st 1 _ ne)
  · exact moved s

end Others

/-! ### Writes of system registers (R7, R71, R108, R184) -/

section Writes

variable (v : State) (u : Turn) (n : Nat) (w : Word)

/-- A strand whose own registers among the system registers have taken a write. -/
def Strand.sysWrite (t : Strand) (n : Nat) (w : Word) : Strand :=
  { t with
    sbound := if n = 0x008 then w &&& 0xFFFFFFFF else t.sbound
    tepc := if n = 0x111 then w &&& 0x7FFF else t.tepc
    tlsel := if n = 0x116 then w &&& 0x7FF else t.tlsel
    tscr := if n = 0x11A then w else t.tscr }

theorem SameRegs.sysWrite {a b : Strand} (h : SameRegs a b) (n : Nat) (w : Word) : SameRegs (a.sysWrite n w) (b.sysWrite n w) :=
  ⟨h.x, h.xs, h.level, h.fcsr, by simp only [Strand.sysWrite, h.sbound], h.tcause, by simp only [Strand.sysWrite, h.tepc], h.tinfo0, h.tinfo1,
    h.tdt, h.tprev, by simp only [Strand.sysWrite, h.tlsel], by simp only [Strand.sysWrite, h.tscr], h.latches, h.frames⟩

/-- What a write of a system register leaves: the strand's own register at once, three shared ones at the end of the cycle. -/
structure State.SysWritten (t : State) : Prop where
  own : t.strand u.c u.st = (v.strand u.c u.st).sysWrite n w
  others : ∀ e o, (e, o) ≠ (u.c, u.st) → t.strand e o = v.strand e o
  cores : ∀ e, SameCoreRegs (v.core e) (t.core e) ∧ SameCoreMem (v.core e) (t.core e)
  gm : t.gm = v.gm
  clock : t.clock u.c u.st = v.clock u.c u.st
  now : t.now u.c u.st = v.now u.c u.st
  kept : ∀ k d p x, v.Pending k d p x → t.Pending k d p x
  fcsr : n = 0x009 → t.Pending (v.clock u.c u.st) (v.now u.c u.st) sysPrio (.ev (.fcsrWrite u.c u.st (w &&& 0x3F3F)))
  srseed : n = 0x00A → t.Pending (v.clock u.c u.st) (v.now u.c u.st) latePrio (.ev (.srseedWrite u.c (w &&& 0xFFFFFFFF)))
  earlyrd : n = 0x00B → t.Pending (v.clock u.c u.st) (v.now u.c u.st) sysPrio (.ev (.earlyrdWrite u.c (w &&& 3)))

variable {v u n w}

/-- A write of one of the strand's own registers. -/
theorem State.SysWritten.of_upd {f : Strand → Strand} (hf : f (v.strand u.c u.st) = (v.strand u.c u.st).sysWrite n w)
    (hl : ∀ t, (f t).level = t.level) (h9 : n ≠ 0x009) (hA : n ≠ 0x00A) (hB : n ≠ 0x00B) : v.SysWritten u n w (v.updStrand u.c u.st f) where
  own := (State.strand_updStrand ..).trans hf
  others _ _ h := State.strand_updStrand_ne v f h
  cores e := by
    by_cases h : e = u.c
    · subst h
      rw [State.core_updStrand]
      exact ⟨⟨rfl, rfl, rfl, rfl, rfl, rfl, rfl⟩, rfl, rfl, rfl, rfl, rfl, rfl, rfl, rfl, fun _ => rfl⟩
    · rw [State.core_updStrand_ne v u.st f h]
      exact ⟨.refl _, .refl _⟩
  gm := rfl
  clock := v.clock_updStrand u.c u.st f hl
  now := v.now_updStrand u.c u.st f hl
  kept _ _ _ _ h := h
  fcsr h := absurd h h9
  srseed h := absurd h hA
  earlyrd h := absurd h hB

/-- A write that names none of the strand's own registers leaves the strand as it is. -/
theorem Strand.sysWrite_shared (t : Strand) (h1 : n ≠ 0x008) (h2 : n ≠ 0x111) (h3 : n ≠ 0x116) (h4 : n ≠ 0x11A) : t.sysWrite n w = t := by
  simp [Strand.sysWrite, h1, h2, h3, h4]

/-- Every write of a system register. -/
theorem State.writeSys_spec (v : State) (u : Turn) (n : Nat) (w : Word) : v.SysWritten u n w (v.writeSys u n w) := by
  have posted (p : Nat) (x : Work) (h1 : n ≠ 0x008) (h2 : n ≠ 0x111) (h3 : n ≠ 0x116) (h4 : n ≠ 0x11A)
      (h9 : n = 0x009 → p = sysPrio ∧ x = .ev (.fcsrWrite u.c u.st (w &&& 0x3F3F)))
      (hA : n = 0x00A → p = latePrio ∧ x = .ev (.srseedWrite u.c (w &&& 0xFFFFFFFF)))
      (hB : n = 0x00B → p = sysPrio ∧ x = .ev (.earlyrdWrite u.c (w &&& 3))) : v.SysWritten u n w (v.later u.c u.st 0 p x) :=
    have pending := v.later_pending u.c u.st 0 p x
    { own := (Strand.sysWrite_shared _ h1 h2 h3 h4).symm, others := fun _ _ _ => rfl, cores := fun _ => ⟨.refl _, .refl _⟩, gm := rfl, clock := rfl
      now := rfl, kept := fun k d p x h => h.post _ _ _ _, fcsr := fun h => by obtain ⟨rfl, rfl⟩ := h9 h; exact pending
      srseed := fun h => by obtain ⟨rfl, rfl⟩ := hA h; exact pending
      earlyrd := fun h => by obtain ⟨rfl, rfl⟩ := hB h; exact pending }
  unfold State.writeSys
  simp only []
  split
  · exact .of_upd (by simp [Strand.sysWrite, sysMask]) (fun _ => rfl) (by decide) (by decide) (by decide)
  · exact posted _ _ (by decide) (by decide) (by decide) (by decide) (fun _ => ⟨rfl, rfl⟩) (fun h => absurd h (by decide)) (fun h => absurd h (by decide))
  · exact posted _ _ (by decide) (by decide) (by decide) (by decide) (fun h => absurd h (by decide)) (fun _ => ⟨rfl, rfl⟩) (fun h => absurd h (by decide))
  · exact posted _ _ (by decide) (by decide) (by decide) (by decide) (fun h => absurd h (by decide)) (fun h => absurd h (by decide)) (fun _ => ⟨rfl, rfl⟩)
  · exact .of_upd (by simp [Strand.sysWrite, sysMask]) (fun _ => rfl) (by decide) (by decide) (by decide)
  · exact .of_upd (by simp [Strand.sysWrite, sysMask]) (fun _ => rfl) (by decide) (by decide) (by decide)
  · refine .of_upd ?_ (fun _ => rfl) (by decide) (by decide) (by decide)
    have all : w &&& sysMask 0x11A = w := BitVec.and_allOnes
    simp [Strand.sysWrite, all]
  · next h8 h9 hA hB h111 h116 h11A =>
    exact ⟨(Strand.sysWrite_shared _ h8 h111 h116 h11A).symm, fun _ _ _ => rfl, fun _ => ⟨.refl _, .refl _⟩, rfl, rfl, rfl, fun _ _ _ _ h => h,
      fun h => absurd h h9, fun h => absurd h hA, fun h => absurd h hB⟩

end Writes

/-! ### The statement -/

section Reads

variable {s : State} {c : CoreId} {st : StrandId} {h : Hdr} {d : XReg}

/-- An instruction that asks another unit holds its strand until the answer comes (R182). -/
theorem State.asks {r : Req} {i : Instr} {w : Work} (hr : r.transfers = false) (hi : exec i s = .next
      (((s.issued c st h r).waitFor (s.turn c st h r) (.unit 7 0) d false 0).sometime w latePrio)) :
    ∃ t k, exec i s = .next t ∧ s.Advanced t c st ∧ t.storage = s.storage ∧ s.WaitsFor t c st h (.unit 7 0) d ∧
      t.Pending .hc (s.hc + 1 + Config.delay k) latePrio w := by
  let v := s.issued c st h r
  have stored : v.storage = s.storage := s.issued_storage c st h r
  have own : (v.waitFor (s.turn c st h r) (.unit 7 0) d false 0).strand c st = _ := State.waitFor_strand v s c st h r (.unit 7 0) d false 0
  refine ⟨_, v.choice, hi, (s.issued_advanced c st h r hr).of_eq own ⟨rfl, rfl, rfl, rfl, rfl, rfl⟩, (State.waitFor_storage ..).trans stored,
    State.waitsFor_of (r := r) (congrArg Strand.wait own) (State.storage_regs stored c st).sbound, v.order, ?_⟩
  rw [← State.storage_hc stored]
  exact List.mem_cons_self ..

end Reads

section Statement

variable {s t : State} {c : CoreId} {st : StrandId} {h : Hdr} {r : Req} {n : Nat} {w : Word}

/-- What a write leaves, seen from before the issue: the strand's registers, the other strands, the memories, and the writes still to come. -/
structure State.Wrote (s t : State) (c : CoreId) (st : StrandId) (n : Nat) (w : Word) : Prop where
  own : ∃ b : Strand, t.strand c st = b ∧ SameRegs ((s.strand c st).sysWrite n w) b
  others : ∀ o, o ≠ st → t.strand c o = s.strand c o
  cores : ∀ e, SameCoreRegs (s.core e) (t.core e) ∧ SameCoreMem (s.core e) (t.core e)
  gm : t.gm = s.gm
  fcsr : n = 0x009 → t.Pending (s.clock c st) (s.now c st) sysPrio (.ev (.fcsrWrite c st (w &&& 0x3F3F)))
  srseed : n = 0x00A → t.Pending (s.clock c st) (s.now c st) latePrio (.ev (.srseedWrite c (w &&& 0xFFFFFFFF)))
  earlyrd : n = 0x00B → t.Pending (s.clock c st) (s.now c st) sysPrio (.ev (.earlyrdWrite c (w &&& 3)))

/-- A write after the issue, whatever is put in flight or pushed beside it. -/
theorem State.Wrote.of (hw : (s.issued c st h r).SysWritten (s.turn c st h r) n w t) {u : State} (hs : u.storage = t.storage)
    (ho : ∀ o, o ≠ st → u.strand c o = t.strand c o) (hp : ∀ k d p x, t.Pending k d p x → u.Pending k d p x) : s.Wrote u c st n w := by
  let v := s.issued c st h r
  have stored : v.storage = s.storage := s.issued_storage c st h r
  have regs := State.storage_regs stored c st
  have kept : t.Same u := .of_storage hs
  have before : s.Same v := .of_storage stored
  refine ⟨⟨_, rfl, SameRegs.trans ?_ (kept.1 c st)⟩, fun o ne => (ho o ne).trans ((hw.others c o fun e => ne (Prod.mk.inj e).2).trans
    (s.issued_strand_ne c st h r fun e => ne (Prod.mk.inj e).2)), fun e => ⟨(before.2.1 e).1.trans ((hw.cores e).1.trans (kept.2.1 e).1),
    (before.2.1 e).2.trans ((hw.cores e).2.trans (kept.2.1 e).2)⟩, kept.2.2.trans (hw.gm.trans before.2.2), fun e => ?_, fun e => ?_, fun e => ?_⟩
  · have own := hw.own
    simp only [State.turn_c, State.turn_st] at own
    rw [own]
    exact regs.sysWrite n w
  · have := hw.fcsr e
    simp only [State.turn_c, State.turn_st, State.issued_clock, State.issued_now] at this
    exact hp _ _ _ _ this
  · have := hw.srseed e
    simp only [State.turn_c, State.turn_st, State.issued_clock, State.issued_now] at this
    exact hp _ _ _ _ this
  · have := hw.earlyrd e
    simp only [State.turn_c, State.turn_st, State.issued_clock, State.issued_now] at this
    exact hp _ _ _ _ this

end Statement

/-- A result that takes flight leaves the other strands as they are. -/
theorem State.fly_strand_ne (v : State) (c : CoreId) (st : StrandId) (lat : Nat) (res : Result) (ready arith : Bool) {e : CoreId} {o : StrandId}
    (ne : (e, o) ≠ (c, st)) : (v.fly c st lat res ready arith).strand e o = v.strand e o := by
  unfold State.fly
  simp only []
  split
  · exact (State.strand_post ..).trans (State.strand_updStrand_ne v _ ne)
  · exact State.strand_updStrand_ne v _ ne

/-- What sset and sclr do: the register is written, and its old value is on its way to x[D]. -/
theorem sysUpdate_spec {s : State} {c : CoreId} {st : StrandId} {h : Hdr} (hi : s.Issues c st h { writes := true }) (d : XReg) {n : Nat}
    (hk : sysKind n true st (s.strand c st).level = none) (new old : Word) :
    ∃ t, sysUpdate h d n new old s = .next t ∧ s.Advanced t c st ∧ s.Wrote t c st n new ∧
      s.Flies t c st 2 (s.resultOf c st h (xResult (s.strand c st).level d old)) true false := by
  let r : Req := { writes := true }
  let v := s.issued c st h r
  let u := s.turn c st h r
  let w := v.writeSys u n new
  let res := s.resultOf c st h (xResult (s.strand c st).level d old)
  have hw : v.SysWritten u n new w := v.writeSys_spec u n new
  have own : w.strand c st = (v.strand c st).sysWrite n new := hw.own
  obtain ⟨flown, stored, -, kept⟩ := w.fly_spec c st 2 res true false
  have step : sysUpdate h d n new old s = .next (w.fly c st 2 res true false) := by
    refine (issue_when (r := r) hi rfl rfl ?_ rfl rfl rfl _).trans rfl
    rw [hi.me, hi.mine]
    exact hk
  refine ⟨_, step, (s.issued_advanced c st h r rfl).of_eq flown ?_, .of hw stored (fun o ne => w.fly_strand_ne c st 2 res true false fun e => ne
    (Prod.mk.inj e).2) kept, State.flies_from ?_ ?_ (hw.clock.trans (s.issued_clock c st h r)) (hw.now.trans (s.issued_now c st h r)) rfl⟩
  · rw [own]; exact ⟨rfl, rfl, rfl, rfl, rfl, rfl⟩
  · rw [own]; exact s.issued_flights c st h r
  · rw [own]; exact s.issued_level c st h r

/-- Settles O54. -/
theorem statusAndSystemRegisterAccesses : Obligations.StatusAndSystemRegisterAccesses := by
  intro s c st h d a all reg t0 n v x held wrote
  have wrote_of {t : State} {w : Word} (g : s.Wrote t c st n w) : wrote t w := by
    obtain ⟨⟨b, own, regs⟩, others, cores, gm, fcsr, srseed, earlyrd⟩ := g
    simp only [wrote, own]
    exact ⟨regs.sbound, regs.tepc, regs.tlsel, regs.tscr, regs.x, regs.xs, regs.fcsr, regs.level, regs.tcause, others, cores, gm, fcsr, srseed,
      earlyrd⟩
  refine ⟨fun hi => ?nabort, fun hi => ⟨?q, ?ecc, ?map⟩, fun hi hk => ?srd, fun hi hk => ?swr, fun hi hk => ⟨?sset, ?sclr⟩⟩
  case nabort =>
    refine State.asks (r := { legal := [.c], writes := true }) rfl ((issue_ready hi _).trans ?_)
    rw [hi.reg]
    rfl
  case q =>
    refine State.asks (r := { writes := true }) rfl ((issue_ready hi _).trans ?_)
    rw [hi.reg]
    rfl
  case ecc =>
    refine State.asks (r := { writes := true }) rfl ((issue_ready hi _).trans ?_)
    rw [hi.reg]
    rfl
  case map =>
    refine State.yields_of (r := { writes := true }) rfl ((issue_ready hi _).trans ?_)
    rw [hi.reg, hi.me]
    rfl
  case srd =>
    refine State.yields_of (r := { writes := true }) rfl ((issue_when (r := { writes := true }) hi rfl rfl ?_ rfl rfl rfl _).trans ?_)
    · rw [hi.me, hi.mine]; exact hk
    · rw [hi.me]; rfl
  case swr =>
    let r : Req := {}
    have step : exec (.swr h a reg) s = .next (((s.issued c st h r).writeSys (s.turn c st h r) n x).pushNow (s.turn c st h r)) := by
      refine (issue_when (r := r) hi rfl rfl ?_ rfl rfl rfl _).trans ?_
      · rw [hi.me, hi.mine]; exact hk
      · rw [hi.reg]
    have hw := (s.issued c st h r).writeSys_spec (s.turn c st h r) n x
    have own : ((s.issued c st h r).writeSys (s.turn c st h r) n x).strand c st = ((s.issued c st h r).strand c st).sysWrite n x := hw.own
    refine ⟨_, step, (s.issued_advanced c st h r rfl).of_eq ((State.pushNow_strand ..).trans own) ⟨rfl, rfl, rfl, rfl, rfl, rfl⟩, fun hp => ?_,
      wrote_of (.of hw (State.pushNow_storage ..) (fun o _ => State.pushNow_strand ..) fun k d p x hx => hx.pushNow _)⟩
    have := (((s.issued c st h r).writeSys (s.turn c st h r) n x).pushNow_spec (s.turn c st h r)).2.2.2.1 hp
    rw [hw.clock, hw.now] at this
    simp only [State.turn_c, State.turn_st, State.turn_h, State.issued_clock, State.issued_now] at this
    exact this
  case sset =>
    obtain ⟨t, step, advanced, written, flies⟩ := sysUpdate_spec hi d hk (v ||| x) v
    refine ⟨t, ?_, advanced, wrote_of written, flies⟩
    simp only [exec.eq_def, execSset, hi.me, hi.reg]
    exact step
  case sclr =>
    obtain ⟨t, step, advanced, written, flies⟩ := sysUpdate_spec hi d hk (v &&& ~~~x) v
    refine ⟨t, ?_, advanced, wrote_of written, flies⟩
    simp only [exec.eq_def, execSclr, hi.me, hi.reg]
    exact step

end Sys2Proof.Machine

/-! The queued commands of the range engine and nlaunch (R122, R237, R241 to R246, R272): what planning a queue leaves alone. -/

namespace Sys2Proof.Machine

/-! ### Planning a queue fixes starts and posts work, and nothing else (R124) -/

/-- A hob without the starts that are fixed for its commands. -/
def Hob.unplanned (b : Hob) : Hob := { b with cmds := b.cmds.map fun m => { m with t0 := none }, free := 0, lastWrite := 0 }
/-- A core without the starts of its commands. -/
def Core.unplanned (k : Core) : Core := { k with hobs := k.hobs.map Hob.unplanned }
/-- A state without the starts of queued commands and without the work that is pending. -/
def State.unplanned (s : State) : State := { s with cores := s.cores.map Core.unplanned, cal := [], order := 0, choice := 0 }

section Unplanned

variable {s t : State}

theorem State.unplanned_core (h : t.unplanned = s.unplanned) (c : CoreId) : (t.core c).unplanned = (s.core c).unplanned := by
  have := congrArg (fun u => (u.cores[c.val] : Core)) h
  simpa [State.unplanned, State.core] using this

theorem Core.unplanned_hob {k m : Core} (h : m.unplanned = k.unplanned) (q : Fin 4) : (m.hob q).unplanned = (k.hob q).unplanned := by
  have := congrArg (fun u => (u.hobs[q.val] : Hob)) h
  simpa [Core.unplanned, Core.hob] using this

theorem Core.unplanned_set (k : Core) (q : Fin 4) (b : Hob) (h : b.unplanned = (k.hob q).unplanned) :
    ({ k with hobs := k.hobs.set q.val b } : Core).unplanned = k.unplanned := by
  have : (k.hobs.set q.val b).map Hob.unplanned = k.hobs.map Hob.unplanned := by
    apply Vector.ext
    intro j hj
    simp only [Vector.getElem_map, Vector.getElem_set]
    split
    · next e => subst e; exact h
    · rfl
  exact congrArg (fun v => ({ k with hobs := v } : Core)) this

theorem State.unplanned_updHob (s : State) (c : CoreId) (q : Fin 4) (f : Hob → Hob)
    (h : (f ((s.core c).hob q)).unplanned = ((s.core c).hob q).unplanned) : (s.updHob c q f).unplanned = s.unplanned := by
  have : (s.updHob c q f).cores.map Core.unplanned = s.cores.map Core.unplanned := by
    apply Vector.ext
    intro j hj
    simp only [State.updHob, State.updCore, State.setCore, Vector.getElem_map, Vector.getElem_set]
    split
    · next e => subst e; exact Core.unplanned_set _ q _ h
    · rfl
  exact congrArg (fun v => ({ s with cores := v, cal := [], order := 0, choice := 0 } : State)) this

theorem State.unplanned_updCmd (s : State) (c : CoreId) (q : Fin 4) (id t0 : Nat) :
    (s.updCmd c q id fun m => { m with t0 := some t0 }).unplanned = s.unplanned := by
  refine s.unplanned_updHob c q _ ?_
  have : ∀ m : HobCmd, ({ (if m.id = id then { m with t0 := some t0 } else m) with t0 := none } : HobCmd) = { m with t0 := none } := by
    intro m
    split <;> rfl
  simp only [Hob.unplanned, List.map_map, Function.comp_def, this]

theorem State.unplanned_post (s : State) (k : Clock) (d p : Nat) (w : Work) : (s.post k d p w).unplanned = s.unplanned := rfl
theorem State.unplanned_postRow (s : State) (c : CoreId) (q : Fin 4) (m : HobCmd) (seg row d : Nat) :
    (s.postRow c q m seg row d).unplanned = s.unplanned := by
  unfold State.postRow
  simp only []
  split <;> rfl

theorem State.unplanned_startCmd (s : State) (c : CoreId) (q : Fin 4) (m : HobCmd) : (s.startCmd c q m).unplanned = s.unplanned := by
  let fixed (b : Hob) (t0 : Nat) : Hob := { b with free := (m.span t0).1, lastWrite := max b.lastWrite (m.span t0).2 }
  have fix (t0 : Nat) : ((s.updHob c q (fixed · t0)).updCmd c q m.id fun m => { m with t0 := some t0 }).unplanned = s.unplanned :=
    (State.unplanned_updCmd ..).trans (s.unplanned_updHob c q _ rfl)
  unfold State.startCmd
  simp only []
  split
  · exact fix _
  · have rows : ∀ v : State, v.unplanned = s.unplanned → ∀ n, ((List.range m.t).foldl (fun v i => v.postRow c q m i 0 (n + 134 * i)) v).unplanned =
        s.unplanned := fun v hv n => foldl_keeps (P := fun v : State => v.unplanned = s.unplanned) _
          (fun u i hu => (u.unplanned_postRow c q m i 0 _).trans hu) _ _ hv
    split <;>
    · simp only [State.unplanned_post]
      refine rows _ ?_ _
      rw [State.unplanned_post]
      exact fix _
  · refine foldl_keeps (P := fun v : State => v.unplanned = s.unplanned) _ ?_ _ _ ?_
    · exact fun u i hu => hu
    · rw [State.unplanned_post]
      exact fix _
  · exact fix _
  · exact fix _

theorem State.unplanned_planHob (c : CoreId) (q : Fin 4) : ∀ (n : Nat) (s : State), (s.planHob c q n).unplanned = s.unplanned
  | 0, _ => rfl
  | n + 1, s => by
    unfold State.planHob
    simp only []
    split
    · rfl
    · split
      · rfl
      · split
        · rfl
        · exact (State.unplanned_planHob c q n _).trans (s.unplanned_startCmd c q _)


theorem State.unplanned_strand (h : t.unplanned = s.unplanned) (e : CoreId) (o : StrandId) : t.strand e o = s.strand e o :=
  (congrArg (fun k : Core => k.strand o) (State.unplanned_core h e) :)

/-- Registers and memories are in view of a state without starts. -/
theorem State.Same.of_unplanned (h : t.unplanned = s.unplanned) : s.Same t := by
  refine ⟨fun e o => ?_, fun e => ?_, (congrArg State.gm h :)⟩
  · rw [State.unplanned_strand h]
    exact .refl _
  · have k := State.unplanned_core h e
    exact ⟨⟨(congrArg Core.v k :), (congrArg Core.k k :), (congrArg Core.q k :), (congrArg Core.dom k :), (congrArg Core.srseed k :),
      (congrArg Core.gens k :), (congrArg Core.earlyrd k :)⟩, (congrArg Core.ls k :), (congrArg Core.wb0 k :), (congrArg Core.wb1 k :),
      (congrArg Core.active k :), (congrArg Core.acc k :), (congrArg Core.code k :), (congrArg Core.handler k :), (congrArg Core.breg k :),
      fun q => (congrArg Hob.scales (Core.unplanned_hob k q) :)⟩

/-- The same of a state that differs in what the translation units cache. -/
theorem State.Same.of_contents (h : t.contents = s.contents) : s.Same t := by
  refine ⟨State.contents_regs h, fun e => ?_, State.contents_gm h⟩
  have k := State.contents_core h e
  exact ⟨⟨(congrArg Core.v k :), (congrArg Core.k k :), (congrArg Core.q k :), (congrArg Core.dom k :), (congrArg Core.srseed k :),
    (congrArg Core.gens k :), (congrArg Core.earlyrd k :)⟩, (congrArg Core.ls k :), (congrArg Core.wb0 k :), (congrArg Core.wb1 k :),
    (congrArg Core.active k :), (congrArg Core.acc k :), (congrArg Core.code k :), (congrArg Core.handler k :), (congrArg Core.breg k :),
    fun q => (congrArg (fun k : Core => (k.hob q).scales) k :)⟩

/-- A strand's clock and its reading, from what they are made of. -/
theorem State.now_of (hb : t.bindings = s.bindings) (hh : t.hc = s.hc) (hk : ∀ e, (t.core e).task = (s.core e).task ∧ (t.core e).cyc = (s.core e).cyc)
    (c : CoreId) (st : StrandId) (hl : (t.strand c st).level = (s.strand c st).level) : t.clock c st = s.clock c st ∧ t.now c st = s.now c st := by
  have clock : t.clock c st = s.clock c st := by rw [State.clock, State.bidOf, hl, (hk c).1]; rfl
  have read (k : Clock) : t.read k = s.read k := by cases k <;> simp only [State.read, State.binding, hb, hh, (hk _).2]
  exact ⟨clock, by rw [State.now, clock, read, State.now]⟩

theorem State.unplanned_now (h : t.unplanned = s.unplanned) (c : CoreId) (st : StrandId) : t.clock c st = s.clock c st ∧ t.now c st = s.now c st :=
  State.now_of (s := s) (t := t) (congrArg State.bindings h :) (congrArg State.hc h :) (fun e => ⟨(congrArg Core.task (State.unplanned_core h e) :),
    (congrArg Core.cyc (State.unplanned_core h e) :)⟩) c st (congrArg Strand.level (State.unplanned_strand h c st))

end Unplanned

/-! ### A command joins its queue (R122) -/

section Accept

variable {s v : State} {c : CoreId} {st : StrandId} {h : Hdr} {r : Req}

/-- The queue with a command more, and the format that a preload leaves recorded. -/
def Hob.join (b : Hob) (m : HobCmd) : Hob :=
  { b with cmds := b.cmds ++ [{ m with id := b.next }], next := b.next + 1
           bfmt := match m.op with | .mloadb f _ _ _ => some f | _ => b.bfmt }

theorem State.Same.join (v : State) (c : CoreId) (q : Fin 4) (m : HobCmd) : v.Same (v.updHob c q (·.join m)) := by
  refine State.Same.updCore v c _ rfl ⟨rfl, rfl, rfl, rfl, rfl, rfl, rfl⟩ ⟨rfl, rfl, rfl, rfl, rfl, rfl, rfl, rfl, fun n => ?_⟩
  simp only [Core.hob, vmod, Vector.getElem_set]
  split
  · next e => simp only [e]; rfl
  · rfl

theorem State.join_hob (v : State) (c : CoreId) (q : Fin 4) (m : HobCmd) :
    ((v.updHob c q (·.join m)).core c).hob q = ((v.core c).hob q).join m := by
  simp [State.updHob, Core.hob, vmod]

theorem State.join_strand (v : State) (c : CoreId) (q : Fin 4) (m : HobCmd) (e : CoreId) (o : StrandId) :
    (v.updHob c q (·.join m)).strand e o = v.strand e o := by
  by_cases h : e = c
  · subst h; simp [State.updHob, State.strand, Core.strand]
  · simp [State.updHob, State.strand, h]

theorem State.join_now (v : State) (c : CoreId) (q : Fin 4) (m : HobCmd) (e : CoreId) (o : StrandId) :
    (v.updHob c q (·.join m)).clock e o = v.clock e o ∧ (v.updHob c q (·.join m)).now e o = v.now e o := by
  refine State.now_of (s := v) (t := v.updHob c q (·.join m)) rfl rfl (fun d => ?_) e o (congrArg Strand.level (v.join_strand c q m e o))
  by_cases h : d = c
  · subst h; simp [State.updHob]
  · simp [State.updHob, h]

/-- What accepting a command leaves alone, and what stands in its queue then. -/
theorem State.accept_spec (q : Fin 4) (m : HobCmd) (hn : v.clock c st = s.clock c st ∧ v.now c st = s.now c st) :
    let t := v.accept (s.turn c st h r) q m
    let old := (v.core c).hob q
    v.Same t ∧ (∀ e o, t.strand e o = v.strand e o) ∧ s.Pushes t c st h 0 ∧
    ((t.core c).hob q).cmds.length = old.cmds.length + 1 ∧ ((t.core c).hob q).next = old.next + 1 ∧
    ∃ t0, { m with id := old.next, t0 := t0 } ∈ ((t.core c).hob q).cmds := by
  intro t old
  let j := v.updHob c q (·.join m)
  let p := j.planHob c q (old.cmds.length + 1)
  have planned : p.unplanned = j.unplanned := State.unplanned_planHob ..
  have ht : t = p.pushNow (s.turn c st h r) := rfl
  have hob : ((t.core c).hob q).unplanned = (old.join m).unplanned := by
    rw [ht, State.pushNow_core, Core.unplanned_hob (State.unplanned_core planned c), State.join_hob]
  have now : p.clock c st = s.clock c st ∧ p.now c st = s.now c st := by
    obtain ⟨a, b⟩ := State.unplanned_now planned c st
    obtain ⟨a', b'⟩ := v.join_now c q m c st
    exact ⟨a.trans (a'.trans hn.1), b.trans (b'.trans hn.2)⟩
  have cmds := congrArg Hob.cmds hob
  refine ⟨((State.Same.join v c q m).trans (.of_unplanned planned)).trans (.of_storage (State.pushNow_storage ..)), fun e o => ?_, fun hp => ?_, ?_, ?_, ?_⟩
  · rw [ht, State.pushNow_strand, State.unplanned_strand planned, State.join_strand]
  · have := (p.pushNow_spec (s.turn c st h r)).2.2.2.1 hp
    simp only [State.turn_c, State.turn_st, now] at this
    exact this
  · have := congrArg List.length cmds
    simpa [Hob.unplanned, Hob.join] using this
  · exact (congrArg Hob.next hob :)
  · have joined : ({ m with id := old.next, t0 := none } : HobCmd) ∈ (old.join m).unplanned.cmds :=
      List.mem_map.mpr ⟨{ m with id := old.next }, List.mem_append_right _ (List.mem_singleton.mpr rfl), rfl⟩
    rw [← cmds] at joined
    obtain ⟨n, hm, e⟩ := List.mem_map.mp joined
    refine ⟨n.t0, ?_⟩
    have : n = { m with id := old.next, t0 := n.t0 } := congrArg (fun x : HobCmd => { x with t0 := n.t0 }) e
    rwa [← this]

/-- What `Obligations.CommandsJoinTheirQueue` states of one command that joins its queue. -/
def State.Joins (s t : State) (c : CoreId) (st : StrandId) (h : Hdr) (q : Fin 4) (op : HobOp) (delay row m : Nat) : Prop :=
  s.Advanced t c st ∧ s.Pushes t c st h 0 ∧ s.Same t ∧
    ((t.core c).hob q).cmds.length = ((s.core c).hob q).cmds.length + 1 ∧ ((t.core c).hob q).next = ((s.core c).hob q).next + 1 ∧
    ∃ n ∈ ((t.core c).hob q).cmds, n.id = ((s.core c).hob q).next ∧ n.op = op ∧ n.pos = (s.strand c st).pos ∧ n.dt = s.dt c + delay ∧ n.row = row ∧
      n.m = m ∧ n.started = false ∧ n.chain = (s.core c).chain

/-- A command accepted with its operands as the issue left the machine. -/
theorem State.joins_of {q : Fin 4} {m : HobCmd} {op : HobOp} {delay row rows : Nat} (e : v.contents = s.contents)
    (place : v.strand c st = (s.issued c st h r).strand c st) (hr : r.transfers = false)
    (hm : m.op = op ∧ m.pos = (s.strand c st).pos ∧ m.dt = s.dt c + delay ∧ m.row = row ∧ m.m = rows ∧ m.started = false ∧
      m.chain = (s.core c).chain) :
    s.Joins (v.accept (s.turn c st h r) q m) c st h q op delay row rows := by
  obtain ⟨same, strand, pushes, length, next, t0, mem⟩ := State.accept_spec (v := v) (h := h) (r := r) q m
    ⟨State.contents_clock e c st, State.contents_now e c st⟩
  have hob : (v.core c).hob q = (s.core c).hob q := (congrArg (fun k : Core => k.hob q) (State.contents_core e c) :)
  rw [hob] at length next mem
  obtain ⟨hop, hpos, hdt, hrow, hrows, hst, hch⟩ := hm
  exact ⟨(s.issued_advanced c st h r hr).of_eq ((strand c st).trans place) ⟨rfl, rfl, rfl, rfl, rfl, rfl⟩, pushes, (State.Same.of_contents e).trans same,
    length, next, _, mem, rfl, hop, hpos, hdt, hrow, hrows, hst, hch⟩

/-- A command of the engine joins its queue in the issue itself. -/
theorem State.accepts (q : Fin 4) (op : HobOp) (delay row m : Nat) (descs : List (CoreId × Desc)) (hr : r.transfers = false) :
    s.Joins ((s.issued c st h r).accept (s.turn c st h r) q ((s.issued c st h r).newCmd (s.turn c st h r) q op delay row m descs))
      c st h q op delay row m := by
  have e := State.contents_of_storage (s.issued_storage c st h r)
  exact State.joins_of e rfl hr ⟨rfl, rfl, congrArg (· + delay) (State.contents_dt e c), rfl, rfl, rfl,
    (congrArg Core.chain (State.contents_core e c) :)⟩

/-- A wait and work at a tick that is not exposed leave what has joined as it is. -/
theorem State.Joins.waits {t : State} {q : Fin 4} {op : HobOp} {delay row m : Nat} (j : s.Joins t c st h q op delay row m) (u : Turn)
    (hu : u.c = c ∧ u.st = st) (why : Why) (w : Work) (p : Nat) :
    s.Joins ((t.waitFor u why 0 false 0).sometime w p) c st h q op delay row m := by
  obtain ⟨advanced, pushes, same, length, next, mem⟩ := j
  obtain ⟨rfl, rfl⟩ := hu
  have stored : ((t.waitFor u why 0 false 0).sometime w p).storage = t.storage := State.waitFor_storage t u why 0 false 0
  have hob : (((t.waitFor u why 0 false 0).sometime w p).core u.c).hob q = (t.core u.c).hob q :=
    (congrArg (fun k : Core => k.hob q) (State.storage_core stored u.c) :)
  refine ⟨advanced.of_eq (State.waitFor_at t u why 0 false 0) ⟨rfl, rfl, rfl, rfl, rfl, rfl⟩, fun hp => ?_, same.trans (.of_storage stored), ?_⟩
  · exact State.Pending.sometime (State.Pending.of_cal (pushes hp) rfl) _ _
  · rw [hob]
    exact ⟨length, next, mem⟩

end Accept

/-- Settles O52. -/
theorem commandsJoinTheirQueue : Obligations.CommandsJoinTheirQueue := by
  intro s c st h hq qr a b f rm sat rs cs wz csm imm row mm col hi q ofs xb old rest joins
  have hi' : s.Issues c st h { legal := [.c], needs := true } := hi
  have out {i : Instr} {r : Req} {delay first rows : Nat} {op : HobOp} (hx : r.fault = none → r.busy = none → ∃ t, exec i s = .next t ∧
      s.Joins t c st h q op delay first rows) : joins i r delay op first rows := by
    intro hf hb
    obtain ⟨t, step, advanced, pushes, ⟨regs, cores, gm⟩, queue⟩ := hx hf hb
    exact ⟨t, step, advanced, pushes, ⟨regs, cores, gm⟩, queue⟩
  have queued {i : Instr} {r : Req} {op : HobOp} {delay first rows : Nat} (descs : Turn → State → List (CoreId × Desc))
      (hr : r = { legal := [.c], fault := r.fault, busy := r.busy, needs := true })
      (hx : exec i s = issue h r (fun u v => v.accept u q (v.newCmd u q op delay first rows (descs u v))) s) : joins i r delay op first rows := by
    refine out fun hf hb => ⟨_, ?_, State.accepts (r := { legal := [.c], needs := true }) q op delay first rows (descs (s.turn c st h { legal := [.c], needs := true }) (s.issued c st h { legal := [.c], needs := true })) rfl⟩
    rw [hx, hr]
    exact issue_when hi' hf hb rfl rfl rfl rfl _
  have hofs : (s.x c st a + imm.signExtend 64).toNat = (s.reg a + immW imm).toNat := by rw [hi.reg]; rfl
  have hxb : (s.x c st b).toNat = (s.reg b).toNat := by rw [hi.reg]
  refine ⟨queued (fun _ _ => []) rfl ?mloadb, queued (fun u v => (readers (membersOf u.c (v.core u.c).chain)).map fun p => (p.2, (v.core p.2).rq qr)) rfl ?mma,
    queued (fun u v => (epilogues (v.core u.c).chainT (membersOf u.c (v.core u.c).chain)).map fun p => (p.2, (v.core p.2).rq qr)) rfl ?mdrain,
    queued (fun _ _ => []) rfl ?mzero, out fun hf hb => ?nlaunch⟩
  case mloadb => simp only [ofs, hofs]; rfl
  case mma => simp only [xb, hxb]; rfl
  case mdrain => simp only [xb, hxb]; rfl
  case mzero => simp only [xb, hxb]; rfl
  case nlaunch =>
    let r : Req := { legal := [.c], needs := true }
    let v := s.issued c st h r
    let u := s.turn c st h r
    have step : exec (.nlaunch h hq a b imm) s = .next (nlaunchEffect q ofs xb u v) := by
      have : exec (.nlaunch h hq a b imm) s = issue h (nlaunchReq q ofs xb s) (nlaunchEffect q ofs xb) s := by
        simp only [ofs, hofs, xb, hxb]
        rfl
      rw [this]
      exact issue_when hi' hf hb rfl rfl rfl rfl _
    refine ⟨_, step, ?_⟩
    obtain ⟨touched, strand, -, -⟩ := v.touch_spec c ofs
    have e := touched.trans (State.contents_of_storage (s.issued_storage c st h r))
    have stored := s.issued_storage c st h r
    let m : HobCmd := { v.newCmd u q (.nlaunch xb ofs) 4 0 1 [] with
      needs := v.before c st .dev false, pa := v.gmPa c true ofs .read, samples := v.sampling (v.core c).asid [(ofs, 64)] }
    have joined : s.Joins ((v.touch c ofs).accept u q m) c st h q (.nlaunch xb ofs) 4 0 1 :=
      State.joins_of e (strand c st) rfl ⟨rfl, rfl, congrArg (· + 4) (State.storage_dt stored c), rfl, rfl, rfl,
        (congrArg Core.chain (State.storage_core stored c) :)⟩
    by_cases miss : (cachedLeaf (v.core c).utlb (v.core c).asid ofs).isNone = true
    · have : nlaunchEffect q ofs xb u v = (((v.touch c ofs).accept u q m).waitFor u.silent (.unit 2 ofs) 0 false 0).sometime
        (.unitDone c st u.ord none) latePrio := if_pos miss
      rw [this]
      exact joined.waits _ ⟨rfl, rfl⟩ _ _ _
    · have : nlaunchEffect q ofs xb u v = (v.touch c ofs).accept u q m := if_neg miss
      rw [this]
      exact joined

end Sys2Proof.Machine

/-! The vertical register FIFOs (R97, R206). -/

namespace Sys2Proof.Machine

/-! ### States that differ in engines and calendars only -/

/-- Two states agree in every strand, every register, every byte of memory and every clock. -/
structure State.Like (s t : State) : Prop where
  bindings : t.bindings = s.bindings
  hc : t.hc = s.hc
  gm : t.gm = s.gm
  strands : ∀ e, (t.core e).strands = (s.core e).strands
  task : ∀ e, (t.core e).task = (s.core e).task
  cyc : ∀ e, (t.core e).cyc = (s.core e).cyc
  regs : ∀ e, SameCoreRegs (s.core e) (t.core e)
  mem : ∀ e, SameCoreMem (s.core e) (t.core e)

section Like

variable {s t u : State}

theorem State.Like.trans (h : s.Like t) (g : t.Like u) : s.Like u :=
  ⟨g.bindings.trans h.bindings, g.hc.trans h.hc, g.gm.trans h.gm, fun e => (g.strands e).trans (h.strands e), fun e => (g.task e).trans (h.task e),
    fun e => (g.cyc e).trans (h.cyc e), fun e => (h.regs e).trans (g.regs e), fun e => (h.mem e).trans (g.mem e)⟩
theorem State.Like.refl (s : State) : s.Like s := ⟨rfl, rfl, rfl, fun _ => rfl, fun _ => rfl, fun _ => rfl, fun _ => .refl _, fun _ => .refl _⟩

/-- A change of one core that keeps its strands, its task, its cycle, its registers and its memories. -/
theorem State.Like.updCore (s : State) (c : CoreId) (f : Core → Core)
    (hf : ∀ k, (f k).strands = k.strands ∧ (f k).task = k.task ∧ (f k).cyc = k.cyc ∧ SameCoreRegs k (f k) ∧ SameCoreMem k (f k)) :
    s.Like (s.updCore c f) := by
  have core (e : CoreId) : (s.updCore c f).core e = s.core e ∨ (s.updCore c f).core e = f (s.core e) := by
    by_cases h : e = c
    · subst h; exact .inr (s.core_updCore e f)
    · exact .inl (s.core_updCore_ne f h)
  refine ⟨rfl, rfl, rfl, fun e => ?_, fun e => ?_, fun e => ?_, fun e => ?_, fun e => ?_⟩ <;> obtain h | h := core e <;> rw [h]
  · exact (hf _).1
  · exact (hf _).2.1
  · exact (hf _).2.2.1
  · exact .refl _
  · exact (hf _).2.2.2.1
  · exact .refl _
  · exact (hf _).2.2.2.2

theorem State.Like.same (h : s.Like t) : s.Same t := .of_core (fun e => ⟨h.strands e, h.regs e, h.mem e⟩) h.gm
theorem State.Like.strand (h : s.Like t) (e : CoreId) (o : StrandId) : t.strand e o = s.strand e o := by
  simp only [State.strand, Core.strand, h.strands]
theorem State.Like.now (h : s.Like t) (c : CoreId) (st : StrandId) : t.clock c st = s.clock c st ∧ t.now c st = s.now c st :=
  State.now_of h.bindings h.hc (fun e => ⟨h.task e, h.cyc e⟩) c st (congrArg Strand.level (h.strand c st))
/-- The pushes of the token bits, made by an effect that has left the strand's clock and its reading alone. -/
theorem State.pushes_at {v p : State} {c : CoreId} {st : StrandId} {h : Hdr} {r : Req} (e : p.clock c st = v.clock c st ∧ p.now c st = v.now c st) :
    v.Pushes (p.pushNow (v.turn c st h r)) c st h 0 := by
  intro hp
  have := (p.pushNow_spec (v.turn c st h r)).2.2.2.1 hp
  simp only [State.turn_c, State.turn_st, e] at this
  exact this

end Like

/-! ### Entries of a FIFO -/

section Fifo

variable {s : State} {c n : CoreId} {st : StrandId} {h : Hdr} {down : Bool}

/-- A slot of FSLOT joins two layers. -/
def State.joined (s : State) (c src dst : CoreId) : Prop := ∃ i < 8, slotOf (s.core c).fslot (layerOf src) (layerOf dst) i = true

theorem State.joined_iff (s : State) (c src dst : CoreId) :
    ((List.range 8).any fun i => slotOf (s.core c).fslot (layerOf src) (layerOf dst) i) = true ↔ s.joined c src dst := by
  simp [State.joined]

/-- The FIFO into or from a member of the binding faults exactly where no slot joins the pair. -/
theorem State.fifoFault_member (hm : s.member c n = true) :
    (s.joined c c n → s.fifoFault c (some n) true = none) ∧ (¬s.joined c c n → s.fifoFault c (some n) true = some (spaceFault s.mine.pos 0 .ls)) ∧
    (s.joined c n c → s.fifoFault c (some n) false = none) ∧
    (¬s.joined c n c → s.fifoFault c (some n) false = some (spaceFault s.mine.pos 0 .ls)) := by
  simp only [State.fifoFault, hm, Bool.true_and]
  exact ⟨fun j => if_pos ((s.joined_iff c c n).mpr j), fun j => if_neg (j ∘ (s.joined_iff c c n).mp),
    fun j => if_pos ((s.joined_iff c n c).mpr j), fun j => if_neg (j ∘ (s.joined_iff c n c).mp)⟩

/-- A change of a core's FIFOs is a change of its engines only. -/
theorem State.Like.updFifo (s : State) (c : CoreId) (f : Core → Core)
    (hf : ∀ k, ∃ a b x y z w, f k = { k with fromAbove := a, fromBelow := b, takesDown := x, takesUp := y, putsDown := z, putsUp := w }) :
    s.Like (s.updCore c f) := by
  refine .updCore s c f fun k => ?_
  obtain ⟨a, b, x, y, z, w, e⟩ := hf k
  rw [e]
  exact ⟨rfl, rfl, rfl, ⟨rfl, rfl, rfl, rfl, rfl, rfl, rfl⟩, rfl, rfl, rfl, rfl, rfl, rfl, rfl, rfl, fun _ => rfl⟩

/-- A change of a core that keeps its entries leaves the entries of every core. -/
theorem State.entries_updCore (s : State) (c e : CoreId) (f : Core → Core) (b : Bool) (hf : ∀ k, (f k).entries b = k.entries b) :
    ((s.updCore c f).core e).entries b = (s.core e).entries b := by
  by_cases h : e = c
  · subst h; rw [State.core_updCore, hf]
  · rw [State.core_updCore_ne s f h]

/-- Forgetting puts and takes that have met touches no entry. -/
theorem State.pruneFifo_spec (s : State) (c : CoreId) (down : Bool) (d : Nat) :
    s.Like (s.pruneFifo c down d) ∧ ∀ e b, ((s.pruneFifo c down d).core e).entries b = (s.core e).entries b := by
  unfold State.pruneFifo
  split
  · exact ⟨.refl s, fun _ _ => rfl⟩
  · refine ⟨(State.Like.updFifo _ _ _ fun k => ?_).trans (.updFifo _ _ _ fun k => ?_), fun e b => ?_⟩
    · cases down <;> exact ⟨_, _, _, _, _, _, rfl⟩
    · cases down <;> exact ⟨_, _, _, _, _, _, rfl⟩
    · rw [State.entries_updCore _ _ _ _ b fun k => by cases down <;> rfl, State.entries_updCore _ _ _ _ b fun k => by cases down <;> rfl]

/-- An entry more in the neighbour's FIFO, and a put more in the producer's count. -/
theorem fluePutEffect_spec {data : VecData} {v : State} {r : Req} (hn : neighbour c down = some n) (e : v.storage = s.storage) :
    ∃ w, fluePutEffect down data (s.turn c st h r) v = w.pushNow (s.turn c st h r) ∧ v.Like w ∧
      (w.core n).entries down = (s.core n).entries down ++ [(s.dt c, data)] := by
  obtain ⟨like, entries⟩ := v.pruneFifo_spec c down (v.dt c)
  refine ⟨_, by simp only [fluePutEffect, State.turn_c, hn]; rfl, (like.trans (.updFifo _ _ _ fun k => ?_)).trans (.updFifo _ _ _ fun k => ?_), ?_⟩
  · cases down <;> exact ⟨_, _, _, _, _, _, rfl⟩
  · cases down <;> exact ⟨_, _, _, _, _, _, rfl⟩
  · rw [State.entries_updCore _ _ _ _ down fun k => by cases down <;> rfl, State.core_updCore, ← State.storage_dt e c]
    have : ((v.core n).entries down) = (s.core n).entries down := (congrArg (fun k : Core => k.entries down) (State.storage_core e n) :)
    rw [← this, ← entries n down]
    cases down <;> rfl

end Fifo

/-- Settles O47. -/
theorem flueFifosPassEntriesInOrder : Obligations.FlueFifosPassEntriesInOrder := by
  intro s c n st h v r down member same slots faults
  obtain ⟨out, shut, into, closed⟩ := State.fifoFault_member member
  have takes {r : Req} {f : Option TrapInfo} {b : Option (Nat × Word × Nat)} {w : Bool} (hi : s.Issues c st h r) (act : Turn → State → State)
      (hf : f = some (spaceFault s.mine.pos 0 .ls)) : issue h { r with fault := f, busy := b, needs := w } act s =
        .next (s.trap c st { cause := 5, epc := (s.strand c st).pos, i0 := 0, i1 := 0 }) := by
    rw [hf, issue_faults hi, hi.mine]
    exact congrArg _ (State.issueFault_trap (show (5 : Nat) ≠ 6 by decide))
  refine ⟨fun hn hj awake free hi => ?put, fun e hn hj see hi => ?get, fun hn hj hi => ?free, fun hn hj => ⟨fun hi => ?putFault, fun hi => ?freeFault⟩,
    fun hn hj hi => ?getFault⟩
  case put =>
    let r : Req := { legal := [.s], needs := true }
    have hi' : s.Issues c st h r := hi
    obtain ⟨w, effect, like, entry⟩ := fluePutEffect_spec (data := (s.core c).rv v) (st := st) (h := h) (r := r) hn (s.issued_storage c st h r)
    have step : exec (.fluePut h down v) s = .next (w.pushNow (s.turn c st h r)) := by
      rw [← effect]
      simp only [exec.eq_def, execFluePut, hi.me, hn, out hj, awake, Bool.not_true, firstFault]
      exact issue_when hi' rfl (if_pos free) rfl rfl rfl rfl _
    refine ⟨_, step, (s.issued_advanced c st h r rfl).of_eq ((State.pushNow_strand ..).trans (like.strand c st)) ⟨rfl, rfl, rfl, rfl, rfl, rfl⟩,
      State.pushes_at ⟨(like.now c st).1.trans (s.issued_clock c st h r), (like.now c st).2.trans (s.issued_now c st h r)⟩,
      (State.Same.of_storage (s.issued_storage c st h r)).trans (like.same.trans (.of_storage (State.pushNow_storage ..))), ?_⟩
    rw [State.pushNow_core]
    exact entry
  case get =>
    let r : Req := { legal := [.l], writes := true, needs := true }
    have hi' : s.Issues c st h r := hi
    let x := s.issued c st h r
    let u := s.turn c st h r
    let taken (k : Core) : Core :=
      let k := k.setEntries down ((k.entries down).drop 1)
      if down then { k with takesDown := k.takesDown ++ [x.dt c] } else { k with takesUp := k.takesUp ++ [x.dt c] }
    let w := x.updCore c taken
    let res : Result := { vResult v (e.2, BitVec.allOnes 2048) 0 with pos := (s.strand c st).pos, ord := (s.strand c st).ord }
    have stored : x.storage = s.storage := s.issued_storage c st h r
    have like : x.Like w := .updFifo _ _ _ fun k => by cases down <;> exact ⟨_, _, _, _, _, _, rfl⟩
    have own : w.strand c st = x.strand c st := like.strand c st
    obtain ⟨clock, now⟩ := like.now c st
    obtain ⟨flown, kept, -, -⟩ := w.fly_spec c st 2 res true false
    obtain ⟨first, seen⟩ := Option.filter_eq_some_iff.mp see
    have old : (x.core c).entries down = (s.core c).entries down := (congrArg (fun k : Core => k.entries down) (State.storage_core stored c) :)
    have step : exec (.flueGet h v down) s = .next ((w.fly c st 2 res true false).pushNow u) := by
      simp only [exec.eq_def, execFlueGet, hi.me, hn, into hj, see]
      exact issue_when hi' rfl (if_pos rfl) rfl rfl rfl rfl _
    refine ⟨_, step, (s.issued_advanced c st h r rfl).of_eq ((State.pushNow_strand ..).trans flown) ?_,
      State.pushes_at ⟨?_, ?_⟩, (State.Same.of_storage stored).trans (like.same.trans (.of_storage ((State.pushNow_storage ..).trans kept))), ?_, by simpa using seen, ?_⟩
    · rw [own]
      exact ⟨rfl, rfl, rfl, rfl, rfl, rfl⟩
    · exact (State.storage_clock kept c st).trans (clock.trans (s.issued_clock c st h r))
    · exact (State.storage_now kept c st).trans (now.trans (s.issued_now c st h r))
    · have after : (((w.fly c st 2 res true false).pushNow u).core c).entries down = ((x.core c).entries down).drop 1 := by
        have : (((w.fly c st 2 res true false).pushNow u).core c).entries down = (w.core c).entries down :=
          (congrArg (fun k : Core => k.entries down) (State.storage_core ((State.pushNow_storage ..).trans kept) c) :)
        rw [this, State.core_updCore]
        cases down <;> rfl
      rw [after, old]
      obtain ⟨rest, whole⟩ := List.head?_eq_some_iff.mp first
      rw [whole]
      rfl
    · refine (State.flies_from ?_ ?_ (clock.trans (s.issued_clock c st h r)) (now.trans (s.issued_now c st h r)) rfl).mono
        (congrArg Strand.flights (State.pushNow_strand ..)) fun _ _ _ _ hp => hp.pushNow _
      · rw [own]; exact s.issued_flights c st h r
      · rw [own]; exact s.issued_level c st h r
  case free =>
    refine State.yields_of (r := { legal := [.s], writes := true }) rfl ?_
    simp only [exec.eq_def, execFlueFree, hi.me, hn, out hj]
    exact issue_ready hi _
  case putFault => exact takes hi _ (by rw [hi.me]; simp only [hn, shut hj, firstFault])
  case freeFault => exact takes hi _ (by rw [hi.me, hn]; exact shut hj)
  case getFault => exact takes hi _ (by rw [hi.me]; simp only [hn, closed hj])

end Sys2Proof.Machine

/-! Loads from a scratchpad (R179 to R181, R190): what their issue sends, and what their read delivers. -/

namespace Sys2Proof.Machine

/-! ### The read that an issue sends -/

section Issue

variable {s v : State} {c : CoreId} {st : StrandId} {h : Hdr} {r : Req} {target : CoreId} {bytes : List (Nat × Nat)} {sext lat wr prio : Nat}
  {pops : List (Fin 8 × Token)} {res : Result}

/-- The read of the instruction that a strand has at its position. -/
def State.readOf (s : State) (c : CoreId) (st : StrandId) (target : CoreId) (bytes : List (Nat × Nat)) (sext prio : Nat)
    (pops : List (Fin 8 × Token)) : LsRead :=
  { core := c, strand := st, target := target, seq := (s.strand c st).seq, ord := (s.strand c st).ord, prio := prio, pos := (s.strand c st).pos
    rounds := roundsOf 257 bytes, sext := sext, pops := pops }

/-- A strand with one more access outstanding. -/
def Strand.reads (t : Strand) (target : CoreId) : Strand :=
  { t with seq := t.seq + 1, outs := t.outs ++ [⟨t.seq, true, false, .ls target, []⟩] }

/-- The rank of a read in its class (R74). -/
def State.readRank (s : State) (c : CoreId) (st : StrandId) (target : CoreId) (lat cls : Nat) : Nat :=
  if cls = 5 then accessPrio c st target (s.dt c) lat (s.strand c st).ord else bankPrio cls (strandRank st (s.strand c st).ord)

/-- Everything that sending a read at issue does. -/
theorem State.sendRead_spec {cls : Nat} (e : v.storage = s.storage) (own : v.strand c st = (s.issued c st h r).strand c st) (cal : v.cal = s.cal) :
    let t := v.sendRead (s.turn c st h r) target bytes sext lat cls pops
    let p := s.readRank c st target lat cls
    t.storage = s.storage ∧ t.strand c st = (v.strand c st).reads target ∧
    s.Sends t ((s.issued c st h r).strand c st) c st (s.strand c st).seq false [] lat p (.lsRead (s.readOf c st target bytes sext p pops)) := by
  intro t p
  let u := v.access c st true (.ls target) []
  have accessed : u.storage = s.storage := (State.access_storage ..).trans e
  have at' : u.strand c st = (v.strand c st).reads target := by simp [u, State.access, Strand.reads, State.sampling]
  have seq : (v.strand c st).seq = (s.strand c st).seq := by rw [own, State.issued_seq]
  have ht : t = u.dispatch c st (s.strand c st).ord (s.strand c st).seq false [] lat p false (.lsRead (s.readOf c st target bytes sext p pops)) := by
    simp only [t, State.sendRead, State.turn_c, State.turn_st, State.turn_ord, State.turn_pos, State.storage_dt e, seq]
    rfl
  rw [ht]
  refine ⟨(State.dispatch_storage ..).trans accessed, (State.dispatch_strand ..).trans at',
    State.sends_from (State.contents_of_storage accessed) ?_ ?_ cal⟩ <;> rw [at', own] <;> rfl

/-- A load's issue: its read is on its way and its result is in flight, not ready. -/
theorem State.loads_of {cls : Nat} (hr : r.transfers = false) :
    let u := s.turn c st h r
    let t := ((s.issued c st h r).sendRead u target bytes sext lat cls pops).resultLater u wr res
    let p := s.readRank c st target lat cls
    s.Advanced t c st ∧ t.storage = s.storage ∧ s.Flies t c st wr (s.resultOf c st h res) false false ∧
    (t.strand c st).seq = (s.strand c st).seq + 1 ∧ (t.strand c st).outs = (s.strand c st).outs ++ [⟨(s.strand c st).seq, true, false, .ls target, []⟩] ∧
    (t.strand c st).holds = (s.strand c st).holds ∧
    s.Sends t ((s.issued c st h r).strand c st) c st (s.strand c st).seq false [] lat p (.lsRead (s.readOf c st target bytes sext p pops)) := by
  intro u t p
  obtain ⟨stored, own, sends⟩ := State.sendRead_spec (h := h) (r := r) (target := target) (bytes := bytes) (sext := sext) (lat := lat) (cls := cls)
    (pops := pops) (s.issued_storage c st h r) rfl (s.issued_cal c st h r)
  obtain ⟨flown, kept, -, pending⟩ := ((s.issued c st h r).sendRead u target bytes sext lat cls pops).fly_spec c st wr (s.resultOf c st h res) false false
  refine ⟨(s.issued_advanced c st h r hr).of_eq flown ?_, kept.trans stored, State.flies_of stored ?_ rfl, ?_, ?_, ?_, sends.mono pending⟩
  · rw [own]; exact ⟨rfl, rfl, rfl, rfl, rfl, rfl⟩
  · exact (congrArg Strand.flights own).trans (s.issued_flights c st h r)
  · exact (congrArg Strand.seq flown).trans ((congrArg Strand.seq own).trans (congrArg (· + 1) (s.issued_seq c st h r)))
  · rw [← s.issued_outs c st h r, ← s.issued_seq c st h r]
    exact (congrArg Strand.outs flown).trans (congrArg Strand.outs own)
  · exact (congrArg Strand.holds flown).trans ((congrArg Strand.holds own).trans (s.issued_holds c st h r))

end Issue

end Sys2Proof.Machine

/-! What the read of a scalar load delivers (R164, R179). -/

namespace Sys2Proof.Machine

section Bits

theorem getLsbD_atBit (v lo j : Nat) : (atBit v lo).getLsbD j = (decide (j < 2048) && (decide (lo ≤ j) && v.testBit (j - lo))) := by
  simp [atBit, BitVec.getLsbD_ofNat, Nat.testBit_mul_two_pow]

theorem getLsbD_merge {n : Nat} (old new mask : BitVec n) (j : Nat) :
    (merge old new mask).getLsbD j = if mask.getLsbD j then new.getLsbD j else old.getLsbD j := by
  by_cases hj : j < n
  · simp only [merge, BitVec.getLsbD_or, BitVec.getLsbD_and, BitVec.getLsbD_not, hj, decide_true, Bool.true_and]
    cases mask.getLsbD j <;> simp
  · simp [merge, BitVec.getLsbD_of_ge _ j (Nat.not_lt.mp hj)]

/-- A byte placed at byte `i` is there, and every other bit stays. -/
theorem getLsbD_placeByte (v : VecData) {i : Nat} (hi : i < 65536) (b : Byte) (j : Nat) :
    (placeByte v i b).getLsbD j = if j < 2048 ∧ j / 8 = i then b.getLsbD (j % 8) else v.getLsbD j := by
  have mask : (255 : Nat) = 2 ^ 8 - 1 := rfl
  simp only [placeByte, if_pos hi, getLsbD_merge, getLsbD_atBit, mask, Nat.testBit_two_pow_sub_one, BitVec.testBit_toNat]
  by_cases h : j < 2048 ∧ j / 8 = i
  · obtain ⟨h1, h2⟩ := h
    have : j - 8 * i = j % 8 := by omega
    simp [h1, h2, this, show 8 * i ≤ j by omega, show j % 8 < 8 by omega]
  · rw [if_neg h]
    by_cases h1 : j < 2048
    · have : ¬(8 * i ≤ j ∧ j - 8 * i < 8) := by omega
      simp [h1, this]
    · simp [h1]

theorem testBit_leNat_read (m : Mem) (n : Nat) : ∀ a j, (leNat (m.read a n)).testBit j = (decide (j / 8 < n) && (m.get (a + j / 8)).getLsbD (j % 8)) := by
  induction n with
  | zero => intro a j; simp [Mem.read, leNat]
  | succ n ih =>
    intro a j
    have : leNat (m.read a (n + 1)) = 2 ^ 8 * leNat (m.read (a + 1) n) + (m.get a).toNat := by simp [Mem.read, leNat, Nat.add_comm]
    rw [this, Nat.testBit_two_pow_mul_add _ (m.get a).isLt]
    split
    · next h =>
      rw [show j / 8 = 0 by omega, show j % 8 = j by omega]
      simp [BitVec.getLsbD]
    · next h =>
      rw [ih]
      have h1 : (j - 8) / 8 = j / 8 - 1 := by omega
      have h2 : (j - 8) % 8 = j % 8 := by omega
      have h3 : a + 1 + (j / 8 - 1) = a + j / 8 := by omega
      have h4 : j / 8 - 1 < n ↔ j / 8 < n + 1 := by omega
      rw [h1, h2, h3, decide_eq_decide.mpr h4]

/-- The bytes of consecutive addresses, placed in order, are the number that stands there. -/
theorem placeBytes_read (m : Mem) (a : Nat) {n : Nat} (hn : n ≤ 256) :
    placeBytes 0 ((List.range n).map fun i => (i, m.get (a + i))) = BitVec.ofNat 2048 (leNat (m.read a n)) := by
  have placed : ∀ n ≤ 256, ∀ j, (placeBytes 0 ((List.range n).map fun i => (i, m.get (a + i)))).getLsbD j =
      (decide (j / 8 < n) && (m.get (a + j / 8)).getLsbD (j % 8)) := by
    intro n
    induction n with
    | zero => intro _ j; simp [placeBytes]
    | succ n ih =>
      intro hn j
      rw [List.range_succ, List.map_append, placeBytes, List.foldl_append]
      show (placeByte (placeBytes 0 _) n _).getLsbD j = _
      rw [getLsbD_placeByte _ (by omega), ih (by omega)]
      by_cases h : j / 8 = n
      · simp [h, show j < 2048 by omega]
      · simp [h, show j / 8 < n + 1 ↔ j / 8 < n by omega]
  apply BitVec.eq_of_getLsbD_eq
  intro j hj
  rw [placed n hn, BitVec.getLsbD_ofNat, testBit_leNat_read]
  simp [hj]

end Bits

/-! ### Results in flight -/

section Flights

theorem Strand.flight_updFlight (t : Strand) (ord : Nat) (g : Flight → Flight) (dr : Nat) (hg : ∀ f, (g f).ord = f.ord) :
    (t.updFlight ord g dr).flight ord = (t.flight ord).map g := by
  have : ∀ l : List Flight, (l.map fun f => if f.ord = ord then g f else f).find? (fun f => f.ord == ord) = (l.find? fun f => f.ord == ord).map g := by
    intro l
    induction l with
    | nil => rfl
    | cons f l ih =>
      by_cases h : f.ord = ord
      · simp [h, hg]
      · simp [h, ih]
  exact this t.flights

variable {s : State} {c : CoreId} {st : StrandId} {ord : Nat} {f : Flight}

theorem State.slip_flight (hf : (s.strand c st).flight ord = some f) : ((s.slip c st ord).strand c st).flight ord = some { f with w := f.w + 1 } := by
  unfold State.slip
  rw [State.strand_updStrand, Strand.flight_updFlight _ _ _ _ (by intro _; rfl), hf]
  rfl

theorem State.ls_updStrand (s : State) (c : CoreId) (st : StrandId) (g : Strand → Strand) (e : CoreId) :
    ((s.updStrand c st g).core e).ls = (s.core e).ls ∧ ((s.updStrand c st g).core e).task = (s.core e).task := by
  by_cases h : e = c
  · subst h; rw [State.core_updStrand]; exact ⟨rfl, rfl⟩
  · rw [State.core_updStrand_ne s st g h]; exact ⟨rfl, rfl⟩

/-- Data that arrives makes its result ready, whose write falls due at its cycle. -/
theorem State.arrive_spec {data : VecData} {flags : BitVec 6} {poison : Option (Fin 9 × Nat)} (hf : (s.strand c st).flight ord = some f) :
    let t := s.arrive c st ord data flags poison
    let g : Flight := { f with ready := true, res := { f.res with data := data, flags := flags, poison := poison } }
    (t.strand c st).flight ord = some g ∧
    t.Pending (if f.sys then .cyc c else .dt (s.bidOf c)) f.w (writePrio st ord) (.flight c st ord) ∧ t.gm = s.gm ∧
    ∀ e, (t.core e).ls = (s.core e).ls := by
  intro t g
  let u := s.updStrand c st fun t =>
    t.updFlight ord (fun f => { f with ready := true, res := { f.res with data := data, flags := flags, poison := poison } }) 0
  have found : (u.strand c st).flight ord = some g := by
    rw [State.strand_updStrand, Strand.flight_updFlight _ _ _ _ (by intro _; rfl), hf]
    rfl
  have ht : t = u.post (if g.sys then .cyc c else .dt (u.bidOf c)) g.w (writePrio st ord) (.flight c st ord) := by
    show (match (u.strand c st).flight ord with | none => u | some f => _) = _
    rw [found]
  have kept (e : CoreId) : (u.core e).ls = (s.core e).ls := (s.ls_updStrand c st _ e).1
  have bid : u.bidOf c = s.bidOf c := by rw [State.bidOf, (s.ls_updStrand c st _ c).2]; rfl
  rw [ht, bid]
  exact ⟨found, ⟨u.order, by simp [g]⟩, rfl, kept⟩

end Flights

/-! ### The read itself (R107, R234) -/

section Read

variable {s : State} {r : LsRead} {f : Flight} {n ad : Nat}

/-- The clock of a read: that of the strand's level at its issue. -/
def LsRead.clock (r : LsRead) (s : State) (f : Flight) : Clock := if f.sys then .cyc r.core else .dt (s.bidOf r.core)

theorem banksOfAddrs_word (hn : n ∈ [1, 2, 4, 8]) (ha : ad % n = 0) : banksOfAddrs ((List.range n).map (ad + ·)) = [bankOf ad] := by
  have bank : ∀ i < n, bankOf (ad + i) = bankOf ad := by
    intro i hi
    have : (ad + i) / 64 = ad / 64 := by
      simp only [List.mem_cons, List.not_mem_nil, or_false] at hn
      rcases hn with rfl | rfl | rfl | rfl <;> omega
    rw [bankOf, this, bankOf]
  have all : (((List.range n).map (ad + ·)).map bankOf) = List.replicate n (bankOf ad) := by
    refine List.eq_replicate_iff.mpr ⟨by simp, ?_⟩
    simpa using bank
  have pos : n ≠ 0 := by rintro rfl; exact absurd hn (by decide)
  rw [banksOfAddrs, all, List.replicate_dedup pos]

theorem State.countLs_eq (s : State) (c : CoreId) (as : List Nat) : ∃ l, s.countLs c as = { s with life := l } := by
  unfold State.countLs State.countPlaces
  split
  · exact ⟨_, rfl⟩
  · exact ⟨_, rfl⟩

variable (hr : r.rounds = [(List.range n).map fun i => (i, ad + i)]) (hf : (s.strand r.core r.strand).flight r.ord = some f)
include hr hf

/-- What the read of one word makes of its bank and of the strand's older accesses. -/
theorem State.readLs_eq (g : Option State) (hg : (if s.crosses (r.clock s f) r.core r.strand r.seq r.target ((List.range n).map (ad + ·)) false
      then none else s.grant r.target (banksOfAddrs ((List.range n).map (ad + ·)))) = g) :
    (g = none → s.readLs r = (s.post (r.clock s f) (s.read (r.clock s f) + 1) r.prio (.lsRead r)).slip r.core r.strand r.ord) ∧
    ∀ v, g = some v → (v.strand r.core r.strand).flight r.ord = some f → (v.core r.target).bad = [] → f.res.poison = none →
      s.readLs r = (((v.countLs r.target ((List.range n).map (ad + ·))).accessDone r.core r.strand r.seq).updStrand r.core r.strand fun t =>
        t.updFlight r.ord (fun f => { f with pops := [] }) 0).arrive r.core r.strand r.ord
          (loadValue r.sext (placeBytes f.res.data ((List.range n).map fun i => (i, (v.core r.target).ls.get (ad + i))))) 0 none := by
  have addrs : ((List.range n).map fun i => (i, ad + i)).map (·.2) = (List.range n).map (ad + ·) := by simp
  have clock : (if ((s.strand r.core r.strand).flight r.ord).elim false (·.sys) then Clock.cyc r.core else .dt (s.bidOf r.core)) = r.clock s f := by
    rw [hf]; rfl
  unfold State.readLs
  simp only [hr, addrs, clock, hg]
  refine ⟨fun h => by rw [h], fun v h own fine sound => ?_⟩
  subst h
  obtain ⟨life, counted⟩ := v.countLs_eq r.target ((List.range n).map (ad + ·))
  have found : ((v.countLs r.target ((List.range n).map (ad + ·))).strand r.core r.strand).flight r.ord = some f := by rw [counted]; exact own
  have good : v.badLs r.target ((List.range n).map (ad + ·)) = none := by simp [State.badLs, fine]
  simp only [found, sound, good, List.map_map, Function.comp_def]
  rfl

/-- One whose bank is taken, or that an older access holds up, comes one cycle later, and so does its result's write. -/
theorem State.readLs_waits
    (hw : s.crosses (r.clock s f) r.core r.strand r.seq r.target ((List.range n).map (ad + ·)) false = true ∨
      s.grant r.target (banksOfAddrs ((List.range n).map (ad + ·))) = none) :
    let t := s.readLs r
    (t.strand r.core r.strand).flight r.ord = some { f with w := f.w + 1 } ∧ t.Pending (r.clock s f) (s.read (r.clock s f) + 1) r.prio (.lsRead r) ∧
    t.gm = s.gm ∧ ∀ e, (t.core e).ls = (s.core e).ls := by
  intro t
  have none' : (if s.crosses (r.clock s f) r.core r.strand r.seq r.target ((List.range n).map (ad + ·)) false
      then none else s.grant r.target (banksOfAddrs ((List.range n).map (ad + ·)))) = none := by
    rcases hw with h | h
    · rw [if_pos h]
    · rw [h, ite_self]
  have ht : t = _ := (State.readLs_eq hr hf none none').1 rfl
  rw [ht]
  exact ⟨State.slip_flight hf, ⟨s.order, by simp [State.slip]⟩, rfl, fun e => (State.ls_updStrand ..).1⟩

/-- One that is granted its bank has its result ready, with the bytes that stand there; its write falls due at its cycle. -/
theorem State.readLs_delivers (hn : n ≤ 256) (fresh : s.crosses (r.clock s f) r.core r.strand r.seq r.target ((List.range n).map (ad + ·)) false = false)
    (bank : s.grant r.target (banksOfAddrs ((List.range n).map (ad + ·))) =
      some (s.updCore r.target fun k => { k with used := banksOfAddrs ((List.range n).map (ad + ·)) ++ k.used }))
    (bad : (s.core r.target).bad = []) (data : f.res.data = 0) (flags : f.res.flags = 0) (sound : f.res.poison = none) :
    let t := s.readLs r
    ∃ g, (t.strand r.core r.strand).flight r.ord = some g ∧ g.ready = true ∧ g.w = f.w ∧
      g.res = { f.res with data := loadValue r.sext (BitVec.ofNat 2048 (leNat ((s.core r.target).ls.read ad n))) } ∧
      t.Pending (r.clock s f) f.w (writePrio r.strand r.ord) (.flight r.core r.strand r.ord) ∧ t.gm = s.gm ∧
      ∀ e, (t.core e).ls = (s.core e).ls := by
  intro t
  let v := s.updCore r.target fun k => { k with used := banksOfAddrs ((List.range n).map (ad + ·)) ++ k.used }
  have core (e : CoreId) : ∃ l, v.core e = { s.core e with used := l } := by
    by_cases h : e = r.target
    · subst h; exact ⟨_, s.core_updCore r.target _⟩
    · exact ⟨_, s.core_updCore_ne _ h⟩
  have own : v.strand r.core r.strand = s.strand r.core r.strand := by
    obtain ⟨l, h⟩ := core r.core
    rw [State.strand, h]; rfl
  obtain ⟨k, target⟩ := core r.target
  have ht := (State.readLs_eq hr hf (some v) (by rw [fresh]; exact bank)).2 v rfl (by rw [own]; exact hf) (by rw [target]; exact bad) sound
  obtain ⟨life, counted⟩ := v.countLs_eq r.target ((List.range n).map (ad + ·))
  rw [counted, data, target, placeBytes_read _ _ hn] at ht
  let w : State := { v with life := life }
  have found : ((((w.accessDone r.core r.strand r.seq).updStrand r.core r.strand fun t => t.updFlight r.ord (fun f => { f with pops := [] }) 0)).strand
      r.core r.strand).flight r.ord = some { f with pops := [] } := by
    rw [State.strand_updStrand, Strand.flight_updFlight _ _ _ _ (by intro _; rfl), State.accessDone, State.strand_updStrand]
    show Option.map _ ((v.strand r.core r.strand).flight r.ord) = _
    rw [own, hf]
    rfl
  obtain ⟨flight, pending, gm, ls⟩ := State.arrive_spec (data := loadValue r.sext (BitVec.ofNat 2048 (leNat ((s.core r.target).ls.read ad n))))
    (flags := 0) (poison := none) found
  have kept (e : CoreId) : ((((w.accessDone r.core r.strand r.seq).updStrand r.core r.strand fun t =>
      t.updFlight r.ord (fun f => { f with pops := [] }) 0)).core e).ls = (s.core e).ls ∧
      ((((w.accessDone r.core r.strand r.seq).updStrand r.core r.strand fun t => t.updFlight r.ord (fun f => { f with pops := [] }) 0)).core e).task =
        (s.core e).task := by
    obtain ⟨l, h⟩ := core e
    have a := State.ls_updStrand (w.accessDone r.core r.strand r.seq) r.core r.strand (fun t => t.updFlight r.ord (fun f => { f with pops := [] }) 0) e
    have b := w.ls_updStrand r.core r.strand (fun t => { t with outs := t.outs.filter fun o => o.seq != r.seq }) e
    have c : (w.core e).ls = (s.core e).ls ∧ (w.core e).task = (s.core e).task := by
      show (v.core e).ls = _ ∧ (v.core e).task = _
      rw [h]
      exact ⟨rfl, rfl⟩
    exact ⟨a.1.trans (b.1.trans c.1), a.2.trans (b.2.trans c.2)⟩
  have clock : (if f.sys then Clock.cyc r.core else .dt (State.bidOf (((w.accessDone r.core r.strand r.seq).updStrand r.core r.strand fun t =>
      t.updFlight r.ord (fun f => { f with pops := [] }) 0)) r.core)) = r.clock s f := by
    rw [State.bidOf, (kept r.core).2]; rfl
  rw [show t = _ from ht]
  refine ⟨_, flight, rfl, rfl, ?_, clock ▸ pending, gm, fun e => (ls e).trans (kept e).1⟩
  rw [← flags, ← sound]

end Read

theorem State.Pending.fence {v : State} {k : Clock} {d p : Nat} {w : Work} (hp : v.Pending k d p w) (c : CoreId) (st : StrandId) (form : FenceForm)
    (sc : Scope) (a b : Bool) : (v.fence c st form sc a b).Pending k d p w := by
  unfold State.fence
  exact State.Pending.post (State.Pending.of_cal hp rfl) _ _ _ _

theorem State.readRank_five (s : State) (c : CoreId) (st : StrandId) (target : CoreId) (lat : Nat) :
    s.readRank c st target lat 5 = accessPrio c st target (s.dt c) lat (s.strand c st).ord := if_pos rfl

theorem lsLoad_issues {s : State} {c : CoreId} {st : StrandId} {h : Hdr} {d : XReg} {f : IntFmt} {target : CoreId} {ad rd wr : Nat}
    {fault : Option TrapInfo} (hi : s.Issues c st h { writes := true }) (hf : fault = none) (ord : Option Scope) :
    let u := s.turn c st h { writes := true }
    lsLoad h d f ord target ad rd wr fault s = .next ((((s.issued c st h { writes := true }).sendRead u target (loadBytes ad (scalarBytes f)) (sextOf f)
      rd 5 u.pops).resultLater u wr (xResult u.sys d 0)).ordFence u .acq ord) := by
  subst hf
  exact issue_ready hi _

/-- A scalar load from a scratchpad whose address has no fault. -/
theorem lsLoad_spec {s : State} {c : CoreId} {st : StrandId} {h : Hdr} {d : XReg} {f : IntFmt} {target : CoreId} {ad rd wr : Nat}
    {fault : Option TrapInfo} (hi : s.Issues c st h { writes := true }) (hf : fault = none) (ord : Option Scope) :
    let q := (s.issued c st h { writes := true }).strand c st
    let prio := accessPrio c st target (s.dt c) rd (s.strand c st).ord
    ∃ t, lsLoad h d f ord target ad rd wr fault s = .next t ∧ s.Advanced t c st ∧ t.storage = s.storage ∧
      s.Flies t c st wr (s.resultOf c st h (xResult (s.strand c st).level d 0)) false false ∧ (t.strand c st).seq = (s.strand c st).seq + 1 ∧
      (t.strand c st).outs = (s.strand c st).outs ++ [⟨(s.strand c st).seq, true, false, .ls target, []⟩] ∧
      s.Sends t q c st (s.strand c st).seq false [] rd prio (.lsRead (s.readOf c st target (loadBytes ad (scalarBytes f)) (sextOf f) prio
        ((s.core c).popped st h { writes := true }))) ∧
      (ord = none → (t.strand c st).holds = (s.strand c st).holds) ∧
      (∀ sc, ord = some sc → ∃ o, (t.strand c st).holds = (s.strand c st).holds ++ [o] ∧ o.start = (s.strand c st).seq + 1 ∧ o.stores = false) := by
  intro q prio
  let r : Req := { writes := true }
  let u := s.turn c st h r
  obtain ⟨advanced, stored, flies, seq, outs, holds, sends⟩ := State.loads_of (s := s) (c := c) (st := st) (h := h) (r := r) (target := target)
    (bytes := loadBytes ad (scalarBytes f)) (sext := sextOf f) (lat := rd) (wr := wr) (pops := u.pops) (res := xResult u.sys d 0) (cls := 5) rfl
  rw [State.readRank_five] at sends
  have step : lsLoad h d f ord target ad rd wr fault s = .next (State.ordFence (((s.issued c st h r).sendRead u target (loadBytes ad (scalarBytes f))
    (sextOf f) rd 5 u.pops).resultLater u wr (xResult u.sys d 0)) u .acq ord) := lsLoad_issues (d := d) (f := f) (target := target) (ad := ad) (rd := rd) (wr := wr) hi hf ord
  generalize ((s.issued c st h r).sendRead u target (loadBytes ad (scalarBytes f)) (sextOf f) rd 5 u.pops).resultLater u wr (xResult u.sys d 0) = v
    at step advanced stored flies seq outs holds sends
  cases ord with
  | none => exact ⟨v, step, advanced, stored, flies, seq, outs, sends, fun _ => holds, nofun⟩
  | some sc =>
    have fenced := v.fence_strand c st .acq sc false false
    have pending (k : Clock) (d p : Nat) (w : Work) (hp : v.Pending k d p w) := hp.fence c st .acq sc false false
    let o : Hold := ⟨(v.strand c st).ord - 1, (v.strand c st).seq, false, v.before c st sc true, none, false, false, sc == .core⟩
    have held : ((v.fence c st .acq sc false false).strand c st).holds = (s.strand c st).holds ++ [o] := by
      rw [fenced, ← holds]
      rfl
    refine ⟨v.fence c st .acq sc false false, step, advanced.of_eq fenced ⟨rfl, rfl, rfl, rfl, rfl, rfl⟩,
      (v.fence_storage c st .acq sc false false).trans stored, flies.mono ((congrArg Strand.flights fenced).trans rfl) pending, (congrArg Strand.seq fenced).trans seq,
      (congrArg Strand.outs fenced).trans outs, sends.mono pending, nofun, fun sc' e => ⟨o, held, seq, rfl⟩⟩

/-- Settles O38. -/
theorem scratchpadLoadsReadTheirBytes : Obligations.ScratchpadLoadsReadTheirBytes := by
  refine ⟨?read, ?issue⟩
  case read =>
    intro s r f n ad hn ha hr hf data flags sound clk free
    have banks := banksOfAddrs_word hn ha
    have hn' : n ≤ 256 := by
      simp only [List.mem_cons, List.not_mem_nil, or_false] at hn
      omega
    refine ⟨fun ⟨bank, fresh⟩ bad => ?_, fun taken => ?_⟩
    · have granted : s.grant r.target (banksOfAddrs ((List.range n).map (ad + ·))) =
          some (s.updCore r.target fun k => { k with used := banksOfAddrs ((List.range n).map (ad + ·)) ++ k.used }) := by
        rw [State.grant, if_neg (by simpa [banks] using bank)]
      exact ⟨_, (State.readLs_delivers hr hf hn' fresh granted bad data flags sound).imp fun g e => ⟨rfl, e⟩⟩
    · have : s.crosses (r.clock s f) r.core r.strand r.seq r.target ((List.range n).map (ad + ·)) false = true ∨
          s.grant r.target (banksOfAddrs ((List.range n).map (ad + ·))) = none := by
        by_cases hx : s.crosses (r.clock s f) r.core r.strand r.seq r.target ((List.range n).map (ad + ·)) false = true
        · exact .inl hx
        · have bank : bankOf ad ∈ (s.core r.target).used := by
            by_contra hb
            exact taken ⟨hb, Bool.eq_false_of_not_eq_true hx⟩
          exact .inr (by rw [State.grant, if_pos (by simpa [banks] using bank)])
      obtain ⟨flight, again, kept⟩ := State.readLs_waits hr hf this
      exact ⟨_, _, rfl, flight, rfl, again, kept⟩
  case issue =>
    intro s c st h d a f ord imm hi t0 q n ea loads
    have reads : s.ea a imm = ea := congrArg (fun x : Word => (x + imm.signExtend 64).toNat) (hi.reg a)
    refine ⟨fun ha hin hlt early => ?lds, fun ha h30 hin hm early => ?ldp⟩
    case lds =>
      have fault : firstFault [alignFault t0.pos ea n .ls, lsFault t0.pos ea n false, s.earlyFault s.me.1 t0.pos none (s.readAt ea n 2)] = none := by
        rw [firstFault_aligned ha, lsFault_none_read hlt hin, State.readAt, hi.me]
        simp only [firstFault, early]
      have spec := lsLoad_spec (d := d) (f := f) (target := c) (ad := ea) (rd := 2) (wr := 8) hi fault ord
      have step : exec (.lds h d a f ord imm) s = lsLoad h d f ord c ea 2 8 (firstFault [alignFault t0.pos ea n .ls, lsFault t0.pos ea n false,
          s.earlyFault s.me.1 t0.pos none (s.readAt ea n 2)]) s := by
        show execLds h d a f ord imm s = _
        simp only [execLds, reads, hi.me, hi.mine]
        rfl
      rw [← step] at spec
      exact spec
    case ldp =>
      have fault : firstFault [alignFault t0.pos ea n .ps, s.psFault c t0.pos ea n false,
          if psCore ea = c then s.earlyFault c t0.pos none (s.readAt (ea % lsSize) n 10) else none] = none := by
        rw [firstFault_aligned ha, State.psFault_none_read h30 hin hm, State.readAt, hi.me]
        by_cases own : psCore ea = c
        · simp only [firstFault, if_pos own, early own]
        · simp only [firstFault, if_neg own]
      have spec := lsLoad_spec (d := d) (f := f) (target := psCore ea) (ad := ea % lsSize) (rd := 10 + 4 * hops c (psCore ea))
        (wr := 20 + 8 * hops c (psCore ea)) hi fault ord
      have step : exec (.ldp h d a f ord imm) s = lsLoad h d f ord (psCore ea) (ea % lsSize) (10 + 4 * hops c (psCore ea)) (20 + 8 * hops c (psCore ea))
          (firstFault [alignFault t0.pos ea n .ps, s.psFault c t0.pos ea n false,
            if psCore ea = c then s.earlyFault c t0.pos none (s.readAt (ea % lsSize) n 10) else none]) s := by
        show execLdp h d a f ord imm s = _
        simp only [execLdp, reads, hi.me, hi.mine]
        rfl
      rw [← step] at spec
      exact spec

end Sys2Proof.Machine

/-! Stream set-up (R190, R191). -/

namespace Sys2Proof.Machine

/-! ### Bits of a descriptor -/

section Bits

theorem getLsbD_qMask (lo n j : Nat) : (qMask lo n).getLsbD j = (decide (j < 256) && (decide (lo ≤ j) && decide (j - lo < n))) := by
  simp [qMask, BitVec.getLsbD_ofNat, Nat.testBit_mul_two_pow, Nat.testBit_two_pow_sub_one]

theorem getLsbD_qBits (v lo j : Nat) : (qBits v lo).getLsbD j = (decide (j < 256) && (decide (lo ≤ j) && v.testBit (j - lo))) := by
  simp [qBits, BitVec.getLsbD_ofNat, Nat.testBit_mul_two_pow]

/-- What a result makes of a descriptor: its own bits under the mask. -/
theorem merge_qResult (old data mask : BitVec 256) (d : QReg) :
    merge old ((qResult d data mask).data.setWidth 256) ((qResult d data mask).mask.setWidth 256) = merge old data mask := by
  have (x : BitVec 256) : (x.setWidth 2048).setWidth 256 = x := by
    apply BitVec.eq_of_getLsbD_eq
    intro j hj
    simp only [BitVec.getLsbD_setWidth, hj, show j < 2048 by omega, decide_true, Bool.true_and]
  simp only [qResult, this]

theorem Desc.word_bits (q : Desc) {j : Nat} (hj : j < 48) : q.toBits.getLsbD j = q.w0.getLsbD j ∧ q.toBits.getLsbD (192 + j) = q.w3.getLsbD j := by
  have h1 : j < 64 := by omega
  have h2 : ¬192 + j < 64 := by omega
  have h3 : ¬192 + j - 64 < 64 := by omega
  have h4 : ¬192 + j - 64 - 64 < 64 := by omega
  have h5 : 192 + j - 64 - 64 - 64 = j := by omega
  simp only [Desc.toBits, BitVec.getLsbD_append, h1, h2, h3, h4, h5, if_true, if_false, and_self]

theorem Desc.base_eq (q : Desc) : q.base = (q.toBits.extractLsb' 0 48).toNat := by
  have : q.toBits.extractLsb' 0 48 = q.w0.extractLsb' 0 48 := by
    apply BitVec.eq_of_getLsbD_eq
    intro j hj
    simp only [BitVec.getLsbD_extractLsb', hj, Nat.zero_add, (q.word_bits hj).1]
  rw [this, BitVec.extractLsb'_toNat, Nat.shiftRight_zero, Desc.base, Word.bits, bitsAt, pow_zero, Nat.div_one]

theorem Desc.sbase_eq (q : Desc) : q.sbase = (q.toBits.extractLsb' 192 48).toNat := by
  have : q.toBits.extractLsb' 192 48 = q.w3.extractLsb' 0 48 := by
    apply BitVec.eq_of_getLsbD_eq
    intro j hj
    simp only [BitVec.getLsbD_extractLsb', hj, Nat.zero_add, (q.word_bits hj).2]
  rw [this, BitVec.extractLsb'_toNat, Nat.shiftRight_zero, Desc.sbase, Word.bits, bitsAt, pow_zero, Nat.div_one]

/-- Word n alone is written. -/
theorem merge_word (old : BitVec 256) (x : Word) (n m : BitVec 2) :
    (merge old (qBits x.toNat (64 * n.toNat)) (qMask (64 * n.toNat) 64)).extractLsb' (64 * m.toNat) 64 =
      if m = n then x else old.extractLsb' (64 * m.toNat) 64 := by
  apply BitVec.eq_of_getLsbD_eq
  intro j hj
  have inside : 64 * m.toNat + j < 256 := by have := m.isLt; omega
  rw [BitVec.getLsbD_extractLsb', getLsbD_merge, getLsbD_qMask, getLsbD_qBits]
  by_cases same : m = n
  · subst same
    simp [hj, inside, BitVec.getLsbD]
  · have other : ¬(64 * n.toNat ≤ 64 * m.toNat + j ∧ 64 * m.toNat + j - 64 * n.toNat < 64) :=
      fun e => same (BitVec.eq_of_toNat_eq (by omega))
    have : (decide (64 * m.toNat + j < 256) && (decide (64 * n.toNat ≤ 64 * m.toNat + j) && decide (64 * m.toNat + j - 64 * n.toNat < 64))) = false := by
      simpa [inside] using other
    rw [this, if_neg same, BitVec.getLsbD_extractLsb']
    rfl

theorem merge_allOnes (old data : BitVec 256) : merge old data (BitVec.allOnes 256) = data := by
  apply BitVec.eq_of_getLsbD_eq
  intro j hj
  rw [getLsbD_merge, BitVec.getLsbD_allOnes, decide_eq_true hj, if_pos rfl]

/-- A field alone is what was put there; the bits of two fields are those of each. -/
theorem merge_field (old data mask : BitVec 256) {lo n v : Nat} (hv : v < 2 ^ n)
    (hm : ∀ j < n, mask.getLsbD (lo + j) = true) (hd : ∀ j < n, data.getLsbD (lo + j) = v.testBit j) :
    ((merge old data mask).extractLsb' lo n).toNat = v := by
  have : (merge old data mask).extractLsb' lo n = BitVec.ofNat n v := by
    apply BitVec.eq_of_getLsbD_eq
    intro j hj
    rw [BitVec.getLsbD_extractLsb', getLsbD_merge, hm j hj, if_pos rfl, hd j hj, BitVec.getLsbD_ofNat]
  rw [this, BitVec.toNat_ofNat, Nat.mod_eq_of_lt hv]

/-- BASE and SBASE alone are written. -/
theorem merge_bases (old : BitVec 256) {base sbase : Nat} (hb : base < 2 ^ 48) (hs : sbase < 2 ^ 48) :
    let w := merge old (qBits base 0 ||| qBits sbase 192) (qMask 0 48 ||| qMask 192 48)
    (w.extractLsb' 0 48).toNat = base ∧ (w.extractLsb' 192 48).toNat = sbase ∧
      ∀ j, 48 ≤ j ∧ j < 192 ∨ 240 ≤ j → w.getLsbD j = old.getLsbD j := by
  have far : ∀ {j}, 48 ≤ j → base.testBit j = false := fun h => Nat.testBit_lt_two_pow (lt_of_lt_of_le hb (Nat.pow_le_pow_right (by omega) h))
  refine ⟨merge_field _ _ _ hb (fun j hj => ?_) (fun j hj => ?_), merge_field _ _ _ hs (fun j hj => ?_) (fun j hj => ?_), fun j hj => ?_⟩
  · rw [BitVec.getLsbD_or, getLsbD_qMask]
    simp [hj, show j < 256 by omega]
  · rw [BitVec.getLsbD_or, getLsbD_qBits, getLsbD_qBits]
    simp [show j < 256 by omega, show ¬192 ≤ j by omega]
  · rw [BitVec.getLsbD_or, getLsbD_qMask, getLsbD_qMask]
    simp [hj, show 192 + j < 256 by omega]
  · rw [BitVec.getLsbD_or, getLsbD_qBits, getLsbD_qBits]
    simp [show 192 + j < 256 by omega, far (show 48 ≤ 192 + j by omega)]
  · have : (qMask 0 48 ||| qMask 192 48).getLsbD j = false := by
      simp only [BitVec.getLsbD_or, getLsbD_qMask, Bool.or_eq_false_iff, Bool.and_eq_false_iff, decide_eq_false_iff_not]
      omega
    rw [getLsbD_merge, this]
    rfl

/-- WPB and WPCH alone are written. -/
theorem merge_channel (old : BitVec 256) (ch : BitVec 3) (en : Bool) :
    let w := merge old (qBits ch.toNat 55 ||| qBits en.toNat 54) (qMask 54 4)
    w.getLsbD 54 = en ∧ w.extractLsb' 55 3 = ch ∧ ∀ j, j < 54 ∨ 58 ≤ j → w.getLsbD j = old.getLsbD j := by
  intro w
  have high : ∀ {j}, 0 < j → en.toNat.testBit j = false := fun h => Nat.testBit_lt_two_pow (lt_of_lt_of_le (by cases en <;> decide : en.toNat < 2 ^ 1)
    (Nat.pow_le_pow_right (by omega) h))
  refine ⟨?_, ?_, fun j hj => ?_⟩
  · rw [getLsbD_merge, getLsbD_qMask]
    rw [BitVec.getLsbD_or, getLsbD_qBits, getLsbD_qBits]
    cases en <;> simp
  · apply BitVec.eq_of_getLsbD_eq
    intro j hj
    rw [BitVec.getLsbD_extractLsb', getLsbD_merge, getLsbD_qMask]
    rw [BitVec.getLsbD_or, getLsbD_qBits, getLsbD_qBits]
    simp [hj, show 55 + j < 256 by omega, show 54 ≤ 55 + j by omega, show 55 + j - 54 < 4 by omega, high (show 0 < 55 + j - 54 by omega),
      BitVec.getLsbD]
  · have : (qMask 54 4).getLsbD j = false := by
      simp only [getLsbD_qMask, Bool.and_eq_false_iff, decide_eq_false_iff_not]
      omega
    rw [getLsbD_merge, this]
    rfl

end Bits

/-- A stream set-up writes the bits of its mask, one cycle later. -/
theorem qOp_yields {s : State} {c : CoreId} {st : StrandId} {h : Hdr} {i : Instr} {d : QReg} {data mask : BitVec 256}
    (hi : s.Issues c st h { legal := [.x, .l, .s], writes := true }) (hx : exec i s = qOp h d data mask s) :
    s.Yields c st h i 1 (qResult d data mask) false :=
  State.yields_of rfl (hx.trans (issue_ready hi _))

/-- Settles O42. -/
theorem streamSetUpWritesDescriptors : Obligations.StreamSetUpWritesDescriptors := by
  intro s c st h d a r x y n imm ch en u t0 old src ea becomes delivers
  have reads {i : Instr} {v : Word} (hx : s.Issues c st h { writes := true } → exec i s =
      issue h { writes := true } (fun t s => s.resultRead t 2 (xResult t.sys r v)) s) : delivers i v := fun hi =>
    State.yields_of rfl ((hx hi).trans (issue_ready hi _))
  have reach {r : Req} (hi : s.Issues c st h r) : s.ea x imm = ea := congrArg (fun v : Word => (v + imm.signExtend 64).toNat) (hi.reg x)
  let base := ((old.extractLsb' 0 48).toNat + ea) % 2 ^ 48
  let sbase := ((old.extractLsb' 192 48).toNat + (s.x c st y).toNat) % 2 ^ 48
  refine ⟨fun hi => ⟨_, qOp_yields (data := qBits (s.x c st x).toNat (64 * n.toNat)) (mask := qMask (64 * n.toNat) 64) hi ?qset, rfl, rfl, ?word⟩,
    fun hi => ⟨_, qOp_yields (data := src) (mask := BitVec.allOnes 256) hi ?qmov, rfl, rfl, ?copy⟩,
    fun hi => ⟨_, qOp_yields (data := qBits base 0 ||| qBits sbase 192) (mask := qMask 0 48 ||| qMask 192 48) hi ?qadv, rfl, rfl, ?bases⟩,
    fun hi => ⟨_, qOp_yields (data := qBits ch.toNat 55 ||| qBits en.toNat 54) (mask := qMask 54 4) hi rfl, rfl, rfl, ?channel⟩,
    reads (i := .qget h r a n) fun hi => ?qget, reads (i := .qchk h r a u) fun hi => ?qchk, fun ha hin early hi => ?qld, fun ha hin hi => ?qst⟩
  case qset => simp only [exec.eq_def, execQset, hi.reg]
  case word => rw [merge_qResult]; exact merge_word old _ n
  case qmov => simp only [exec.eq_def, execQmov, hi.me, src]
  case copy => rw [merge_qResult]; exact merge_allOnes old src
  case qadv =>
    simp only [exec.eq_def, execQadv, hi.reg, hi.me, Desc.base_eq, Desc.sbase_eq]
    rfl
  case bases => rw [merge_qResult]; exact merge_bases old (Nat.mod_lt _ (by decide)) (Nat.mod_lt _ (by decide))
  case channel => rw [merge_qResult]; exact merge_channel old ch en
  case qget => simp only [exec.eq_def, execQget, hi.me, src]
  case qchk => simp only [exec.eq_def, execQchk, hi.me]
  case qld =>
    have fault : s.qFault ea false = none := by
      rw [State.qFault, firstFault_aligned ha, lsFault_none_read (by omega) hin, State.readAt, hi.me, hi.mine]
      simp only [firstFault, Bool.false_eq_true, if_false]
      simp only [t0] at early
      rw [early]
      rfl
    obtain ⟨advanced, stored, flies, -, -, -, sends⟩ := State.loads_of (s := s) (c := c) (st := st) (h := h)
      (r := { legal := [.x, .l, .s], writes := true }) (target := c) (bytes := loadBytes ea 32) (sext := 0) (lat := 2) (wr := 8) (pops := [])
      (res := qResult d 0 (BitVec.allOnes 256)) (cls := 5) rfl
    rw [State.readRank_five] at sends
    refine ⟨_, ?_, advanced, stored, flies, sends⟩
    simp only [exec.eq_def, execQld, reach hi]
    exact issue_when hi fault rfl rfl rfl rfl rfl _
  case qst =>
    have fault : s.qFault ea true = none := by
      rw [State.qFault, firstFault_aligned ha, lsFault_none_write hin]
      rfl
    have e := State.contents_of_storage (s.issued_storage c st h {})
    obtain ⟨advanced, -, -, sends⟩ := State.stores_of (unit := .ls c) (addr := ea) (va := 0) (op := .write (leBytes 32 src.toNat)) (lat := 2)
      (prio := accessPrio c st c (s.dt c) 2 (s.strand c st).ord) (needs := []) (h := h) (r := {}) e (s.issued_cal c st h {}) rfl rfl
    refine ⟨_, ?_, advanced, (State.sendAs_storage ..).trans (s.issued_storage c st h {}),
      s.lsAccess c st h c ea 2 (leBytes 32 src.toNat), rfl, rfl, rfl, rfl, rfl, rfl, rfl, sends⟩
    simp only [exec.eq_def, execQst, reach hi, hi.me]
    rw [← State.sendAccess_ls e]
    exact issue_when hi fault rfl rfl rfl rfl rfl _

end Sys2Proof.Machine

/-! Accesses sent with an effect of their own before them: object updates (R199, R201, R202) and atomics (R204, R205). -/

namespace Sys2Proof.Machine

/-! ### Sending behind an effect of the instruction -/

section Sending

variable {s v : State} {q : Strand} {c : CoreId} {st : StrandId} {h : Hdr} {r : Req} {unit : MemUnit} {addr va lat prio : Nat} {op : UnitOp}
  {needs : List Need}

/-- The rank of an access in its cycle (R74). -/
def State.unitPrio (s : State) (c : CoreId) (st : StrandId) (unit : MemUnit) (lat : Nat) : Nat :=
  match unit with | .ls t => accessPrio c st t (s.dt c) lat (s.strand c st).ord | _ => effects

theorem State.sendAccess_eq (e : v.contents = s.contents) : v.sendAccess (s.turn c st h r) unit addr va op lat needs =
    v.sendAs (s.turn c st h r) unit addr va op lat (s.unitPrio c st unit lat) needs := by
  unfold State.sendAccess State.unitPrio
  simp only [State.turn_c, State.turn_st, State.turn_ord, State.contents_dt e] <;> rfl

/-- A state from which the strand's next access goes, with the holds of `q` before it: nothing else has entered its queue. -/
structure State.Sending (s v : State) (q : Strand) (c : CoreId) (st : StrandId) : Prop where
  contents : v.contents = s.contents
  queue : v.queueOf c st = s.queueOf c st
  seq : (v.strand c st).seq = (s.strand c st).seq
  holds : (v.strand c st).holds = q.holds
  due : (v.strand c st).due = q.due

/-- The strand after its access has entered the queue. -/
theorem State.Sending.sent (b : s.Sending v q c st) (r : Req) (unit : MemUnit) (addr va : Nat) (op : UnitOp) (lat prio : Nat) (needs : List Need) :
    let t := v.sendAs (s.turn c st h r) unit addr va op lat prio needs
    t.storage = v.storage ∧ (∃ o, t.strand c st = { v.strand c st with seq := (s.strand c st).seq + 1, outs := (v.strand c st).outs ++ [o] }) ∧
    s.Sends t q c st (s.strand c st).seq true needs lat prio (.ev (.storePerform (s.accessOf c st h unit addr va op prio))) := by
  intro t
  obtain ⟨u, eu, cal, holds, due, sent⟩ := State.sendAs_eq (h := h) (r := r) (unit := unit) (addr := addr) (va := va) (op := op) (lat := lat)
    (prio := prio) (needs := needs) b.contents b.seq
  obtain ⟨load, own⟩ := v.sendAs_strand s c st h r unit addr va op lat prio needs
  refine ⟨State.sendAs_storage .., ⟨_, by rw [own, b.seq]⟩, ?_⟩
  have queue : u.queueOf c st = s.queueOf c st := (State.queueOf_of_cal cal c st).trans b.queue
  rw [show t = _ from sent]
  obtain ⟨-, -, -, free, -, held⟩ := u.dispatch_spec c st (s.strand c st).ord (s.strand c st).seq true needs lat prio false
    (.ev (.storePerform (s.accessOf c st h unit addr va op prio)))
  simp only [State.Free, holds, due, b.holds, b.due, queue, State.contents_clock eu, State.contents_now eu] at free held
  exact ⟨fun f => free f trivial, held⟩

/-- From the issue itself. -/
theorem State.Sending.issued (s : State) (c : CoreId) (st : StrandId) (h : Hdr) (r : Req) :
    s.Sending (s.issued c st h r) ((s.issued c st h r).strand c st) c st :=
  ⟨State.contents_of_storage (s.issued_storage c st h r), State.queueOf_of_cal (s.issued_cal c st h r) c st, s.issued_seq c st h r, rfl, rfl⟩

/-- Looking up a GM address leaves it so. -/
theorem State.Sending.touch (b : s.Sending v q c st) (a : Nat) : s.Sending (v.touch c a) q c st := by
  obtain ⟨contents, strand, cal, -⟩ := v.touch_spec c a
  exact ⟨contents.trans b.contents, (State.queueOf_of_cal cal c st).trans b.queue, by rw [strand]; exact b.seq, by rw [strand]; exact b.holds,
    by rw [strand]; exact b.due⟩

/-- So does a result that takes flight before its data. -/
theorem State.Sending.fly (b : s.Sending v q c st) (lat : Nat) (res : Result) (arith : Bool) : s.Sending (v.fly c st lat res false arith) q c st := by
  obtain ⟨own, stored, -, -⟩ := v.fly_spec c st lat res false arith
  exact ⟨(State.contents_of_storage stored).trans b.contents, b.queue, (congrArg Strand.seq own).trans b.seq, (congrArg Strand.holds own).trans b.holds,
    (congrArg Strand.due own).trans b.due⟩

/-- So does a wait. -/
theorem State.Sending.waitFor (b : s.Sending v q c st) (r : Req) (why : Why) (d : XReg) (acq : Bool) (cond : Nat) :
    s.Sending (v.waitFor (s.turn c st h r) why d acq cond) q c st := by
  have own := v.waitFor_strand (s := s) (c := c) (st := st) (h := h) (r := r) why d acq cond
  exact ⟨(State.contents_of_storage (State.waitFor_storage ..)).trans b.contents, b.queue, (congrArg Strand.seq own).trans b.seq,
    (congrArg Strand.holds own).trans b.holds, (congrArg Strand.due own).trans b.due⟩

/-- The hold of an ordered form stands before it. -/
theorem State.Sending.fence (b : s.Sending v q c st) (form : FenceForm) (sc : Scope) :
    s.Sending (v.fence c st form sc false false) { q with holds := q.holds ++
      [⟨(v.strand c st).ord - 1, (v.strand c st).seq, form == .rel, v.before c st sc (form == .acq), none, false, false, sc == .core⟩] } c st := by
  have own := v.fence_strand c st form sc false false
  refine ⟨(State.contents_of_storage (State.fence_storage ..)).trans b.contents, ?_, (congrArg Strand.seq own).trans b.seq,
    (congrArg Strand.holds own).trans (congrArg (· ++ _) b.holds), (congrArg Strand.due own).trans b.due⟩
  refine Eq.trans ?_ b.queue
  unfold State.fence
  exact (State.queueOf_post _ _ _ _ _ c st (by intros; simp)).trans (State.queueOf_of_cal rfl c st)

end Sending

/-! ### Object updates (R199, R201, R202) -/

section Updates

variable {s : State} {c : CoreId} {st : StrandId} {h : Hdr}

theorem State.objBusy_none {sp : ObjSpace} (hm : s.me = (c, st)) (hs : sp = .gm ∨ sp = .xm → s.slotsUsed c st < 16) : s.objBusy sp = none := by
  unfold State.objBusy
  split
  · rw [hm, State.slotBusy, if_pos (hs (.inl rfl))]
  · rw [hm, State.slotBusy, if_pos (hs (.inr rfl))]
  · rfl

/-- An update of an object without a fault and with a slot is sent to the object's unit. -/
theorem objUpdate_spec {a : XReg} {sp : ObjSpace} {size : Nat} {ord : Option Scope} {op : UnitOp} {writes : Bool} 
    (hi : s.Issues c st h { writes := writes }) (hf : s.objFault c st sp (s.x c st a).toNat size false .atomic = none)
    (hs : sp = .gm ∨ sp = .xm → s.slotsUsed c st < 16) :
    let r : Req := { writes := writes, needs := decide (sp = .gm ∨ sp = .xm) }
    let ad := (s.x c st a).toNat
    let pl := s.objPlace c sp ad .atomic
    let lat := updateLat c sp pl.1
    let acc := s.accessOf c st h pl.1 pl.2 ad op (s.unitPrio c st pl.1 lat)
    ∃ t, objUpdate h sp a size ord op writes s = .next t ∧ s.Advanced t c st ∧ t.contents = s.contents ∧ (pl.1 ≠ .gm → t.storage = s.storage) ∧
      (t.strand c st).seq = (s.strand c st).seq + 1 ∧ (opDest op = none → (t.strand c st).flights = (s.strand c st).flights) ∧
      (∀ d, opDest op = some d → s.Flies t c st (lat + (unitDelay c sp pl.1).getD 2)
        { xResult (s.strand c st).level d 0 with pos := (s.strand c st).pos, ord := (s.strand c st).ord } false false) ∧
      s.Sends t ((s.issued c st h r).strand c st) c st (s.strand c st).seq true ((s.issued c st h r).releaseNeeds (s.turn c st h r) sp ord) lat acc.prio
        (.ev (.storePerform acc)) := by
  intro r ad pl lat acc
  have hi' : s.Issues c st h r := hi
  let x := s.issued c st h r
  let u := s.turn c st h r
  let v := if pl.1 = .gm then x.touch c ad else x
  have before : s.Sending v (x.strand c st) c st := by
    unfold v
    split
    · exact (State.Sending.issued s c st h r).touch ad
    · exact State.Sending.issued s c st h r
  have own : v.strand c st = x.strand c st := by
    unfold v
    split
    · exact (x.touch_spec c ad).2.1 c st
    · rfl
  have stored : pl.1 ≠ .gm → v.storage = s.storage := fun hp => by
    unfold v
    rw [if_neg hp]
    exact s.issued_storage c st h r
  have first : v.releaseNeeds u sp ord = x.releaseNeeds u sp ord := by
    cases ord with
    | none => rfl
    | some sc => simp only [State.releaseNeeds, State.before, u, State.turn_c, State.turn_st, own]
  have step : objUpdate h sp a size ord op writes s = .next ((match opDest op with
      | some d => v.fly c st (lat + (unitDelay c sp pl.1).getD 2)
          { xResult (s.strand c st).level d 0 with pos := (s.strand c st).pos, ord := (s.strand c st).ord } false false
      | none => v).sendAccess u pl.1 pl.2 ad op lat (v.releaseNeeds u sp ord)) := by
    unfold objUpdate
    rw [hi.reg, hi.me]
    exact issue_when hi' hf (State.objBusy_none hi.me hs) rfl rfl rfl rfl _
  rw [step, first]
  cases hd : opDest op with
  | none =>
    obtain ⟨kept, ⟨o, at'⟩, sends⟩ := before.sent (h := h) r pl.1 pl.2 ad op lat acc.prio (x.releaseNeeds u sp ord)
    refine ⟨_, congrArg _ (State.sendAccess_eq before.contents), (s.issued_advanced c st h r rfl).of_eq at' ?_,
      (State.contents_of_storage kept).trans before.contents, fun hp => kept.trans (stored hp), congrArg Strand.seq at', fun _ => ?_, nofun, sends⟩
    · rw [own]; exact ⟨rfl, rfl, rfl, rfl, rfl, rfl⟩
    · exact (congrArg Strand.flights at').trans ((congrArg Strand.flights own).trans (s.issued_flights c st h r))
  | some d =>
    let res : Result := { xResult (s.strand c st).level d 0 with pos := (s.strand c st).pos, ord := (s.strand c st).ord }
    let w := v.fly c st (lat + (unitDelay c sp pl.1).getD 2) res false false
    obtain ⟨flown, flight, -, -⟩ := v.fly_spec c st (lat + (unitDelay c sp pl.1).getD 2) res false false
    have after : s.Sending w (x.strand c st) c st := before.fly _ res false
    obtain ⟨kept, ⟨o, at'⟩, sends⟩ := after.sent (h := h) r pl.1 pl.2 ad op lat acc.prio (x.releaseNeeds u sp ord)
    have flies : s.Flies w c st (lat + (unitDelay c sp pl.1).getD 2) res false false := State.flies_from (by rw [own]; exact s.issued_flights c st h r)
      (by rw [own]; exact s.issued_level c st h r) (State.contents_clock before.contents c st) (State.contents_now before.contents c st) rfl
    refine ⟨_, congrArg _ (State.sendAccess_eq after.contents), (s.issued_advanced c st h r rfl).of_eq at' ?_,
      (State.contents_of_storage kept).trans after.contents, fun hp => kept.trans (flight.trans (stored hp)), congrArg Strand.seq at', nofun,
      fun d' e => ?_, sends⟩
    · rw [flown, own]; exact ⟨rfl, rfl, rfl, rfl, rfl, rfl⟩
    · obtain rfl := Option.some.inj e
      exact ⟨flies.flight.imp fun _ g => ⟨g.1, (congrArg Strand.flights at').trans g.2⟩, nofun⟩

end Updates

/-- Settles O44. -/
theorem objectUpdatesAreSentToTheirUnit : Obligations.ObjectUpdatesAreSentToTheirUnit := by
  intro s c st h sp d a b ord t0 ad y sends
  have updates (sp : ObjSpace) (i : Instr) (size : Nat) (ord : Option Scope) (writes : Bool) (op : UnitOp)
      (hx : s.Issues c st h { writes := writes } → exec i s = objUpdate h sp a size ord op writes s) : sends sp i size ord writes op := by
    dsimp -zeta only [sends]
    intro r pl lat back needs hi hf hs
    have late : updateLat c sp pl.1 = lat := by unfold updateLat; rfl
    have returns : (unitDelay c sp pl.1).getD 2 = back := by unfold unitDelay back; cases pl.1 <;> rfl
    have first : (s.issued c st h r).releaseNeeds (s.turn c st h r) sp ord = needs := by cases ord <;> rfl
    obtain ⟨t, step, advanced, contents, stored, seq, none', some', sent⟩ := objUpdate_spec (a := a) (ord := ord) (op := op) hi hf hs
    rw [late, returns] at some'
    rw [late, first] at sent
    exact ⟨t, _, (hx hi).trans step, advanced, contents, stored, seq, rfl, rfl, rfl, rfl, rfl, rfl, rfl, rfl, rfl, none', some', sent⟩
  refine ⟨updates sp (.binit h sp a b) 32 none false (.binit (y.extractLsb' 0 32) (y.extractLsb' 32 16)) fun hi => ?binit,
    updates sp (.barr h sp a ord) 32 ord false .barr fun _ => rfl, updates sp (.wset h sp a b ord) 16 ord false (.wset y) fun hi => ?wset,
    updates sp (.wwake h sp d a b ord) 16 ord true (.wwake y d) fun hi => ?wwake,
    updates .gm (.npost h a b false) 16 none false (.npost (y.extractLsb' 0 32)) fun hi => ?npost,
    updates .gm (.npost h a b true) 16 (some .dev) false (.npost (y.extractLsb' 0 32)) fun hi => ?release⟩
  case binit => simp only [exec.eq_def, execBinit, hi.reg, y]
  case wset => simp only [exec.eq_def, execWset, hi.reg, y]
  case wwake => simp only [exec.eq_def, execWwake, hi.reg, y]
  case npost => simp only [exec.eq_def, execNpost, hi.reg, y]; rfl
  case release => simp only [exec.eq_def, execNpost, hi.reg, y]; rfl

end Sys2Proof.Machine

/-! The atomics (R113, R204, R205): the holds of their order, and their operation on its way. -/

namespace Sys2Proof.Machine

/-! ### What an issue leaves of the record of accesses, whatever it names as a resource -/

section Learned

variable {s u : State} {c : CoreId} {st : StrandId} {h : Hdr} {r r' : Req}

theorem Kept.outstanding (k : Kept s u) (c : CoreId) : (u.core c).outstanding = (s.core c).outstanding := by
  funext p
  show ((u.strand c p.1).outs.any _) = ((s.strand c p.1).outs.any _)
  rw [k.outs c p.1]

/-- What an issue has learned comes from the tokens that it popped. -/
theorem State.issued_learned (s : State) (c : CoreId) (st : StrandId) (h : Hdr) (r : Req) :
    ((s.issued c st h r).strand c st).due = (Strand.learn (s.core c) (s.strand c st) ((s.core c).popped st h r)).due ∧
    ((s.issued c st h r).strand c st).seen = (Strand.learn (s.core c) (s.strand c st) ((s.core c).popped st h r)).seen := by
  obtain ⟨u, hu, e⟩ := s.issued_eq c st h r
  rw [e, State.advance_strand]
  simp only [Strand.learn, hu.popped c st h r, hu.outstanding c, hu.due c st, hu.seen c st, hu.seq c st, and_self]

/-- Two demands that pop the same tokens leave the same record. -/
theorem State.issued_before (hp : (s.core c).popped st h r = (s.core c).popped st h r') :
    ((s.issued c st h r).strand c st).due = ((s.issued c st h r').strand c st).due ∧
    ∀ sc loads, (s.issued c st h r).before c st sc loads = (s.issued c st h r').before c st sc loads := by
  obtain ⟨due, seen⟩ := s.issued_learned c st h r
  obtain ⟨due', seen'⟩ := s.issued_learned c st h r'
  rw [hp] at due seen
  refine ⟨due.trans due'.symm, fun sc loads => ?_⟩
  simp only [State.before, due, due', seen, seen', State.issued_seq]

end Learned

/-! ### Holds of an ordered form around an access -/

section Ordered

variable {s v : State} {q : Strand} {c : CoreId} {st : StrandId} {h : Hdr} {r : Req}

/-- The hold that an ordered form puts before the strand's next accesses. -/
def State.orderHold (v : State) (c : CoreId) (st : StrandId) (form : FenceForm) (sc : Scope) : Hold :=
  ⟨(v.strand c st).ord - 1, (v.strand c st).seq, form == .rel, v.before c st sc (form == .acq), none, false, false, sc == .core⟩

/-- The holds of a form that may be ordered. -/
def State.orderHolds (v : State) (c : CoreId) (st : StrandId) (form : FenceForm) (sc : Option Scope) : List Hold :=
  sc.toList.map (v.orderHold c st form)

theorem State.ordFence_strand (v : State) (u : Turn) (form : FenceForm) (sc : Option Scope) :
    (v.ordFence u form sc).strand u.c u.st = { v.strand u.c u.st with holds := (v.strand u.c u.st).holds ++ v.orderHolds u.c u.st form sc } := by
  cases sc with
  | none => simp [State.ordFence, State.orderHolds]
  | some sc => exact v.fence_strand u.c u.st form sc false false

theorem State.Pending.ordFence {k : Clock} {d p : Nat} {w : Work} (hp : v.Pending k d p w) (u : Turn) (form : FenceForm) (sc : Option Scope) :
    (v.ordFence u form sc).Pending k d p w := by
  cases sc with
  | none => exact hp
  | some sc => exact hp.fence u.c u.st form sc false false

theorem State.Sending.ordFence (b : s.Sending v q c st) (r : Req) (form : FenceForm) (sc : Option Scope) :
    s.Sending (v.ordFence (s.turn c st h r) form sc) { q with holds := q.holds ++ v.orderHolds c st form sc } c st := by
  cases sc with
  | none => simpa [State.ordFence, State.orderHolds] using b
  | some sc => exact b.fence form sc

/-- A hold of an ordered form: its first access, whether it covers stores only, with no push and no mark. -/
def Hold.covers (k : Hold) (start : Nat) (stores : Bool) : Prop := k.start = start ∧ k.stores = stores ∧ k.mark = none ∧ k.pushP = false ∧ k.pushN = false

/-- What the four orders of an atomic leave among the holds, and the holds behind which the access stands. -/
def State.Orders (s t : State) (c : CoreId) (st : StrandId) (o : AtomOrd) (needs : Scope → List Need) (after : List Hold → Prop) : Prop :=
  let t0 := s.strand c st
  (o = .rlx → (t.strand c st).holds = t0.holds ∧ after []) ∧
  (∀ sc, o = .acq sc → ∃ k, (t.strand c st).holds = t0.holds ++ [k] ∧ k.covers (t0.seq + 1) false ∧ after []) ∧
  (∀ sc, o = .rel sc → ∃ k, (t.strand c st).holds = t0.holds ++ [k] ∧ k.covers t0.seq true ∧ k.needs = needs sc ∧ after [k]) ∧
  (∀ sc, o = .acqrel sc → ∃ k l, (t.strand c st).holds = t0.holds ++ [k, l] ∧ k.covers t0.seq true ∧ k.needs = needs sc ∧ l.covers (t0.seq + 1) false ∧
    after [k])

theorem State.orders_of {v w t : State} {o : AtomOrd} {needs : Scope → List Need} {after : List Hold → Prop}
    (holds : (t.strand c st).holds = (s.strand c st).holds ++ v.orderHolds c st .rel (ordRel o) ++ w.orderHolds c st .acq (ordAcq o))
    (seq : (v.strand c st).seq = (s.strand c st).seq) (next : (w.strand c st).seq = (s.strand c st).seq + 1)
    (hn : ∀ sc, v.before c st sc false = needs sc) (ha : after (v.orderHolds c st .rel (ordRel o))) : s.Orders t c st o needs after := by
  refine ⟨fun e => ?_, fun sc e => ?_, fun sc e => ?_, fun sc e => ?_⟩ <;> subst e
  · exact ⟨by simpa [State.orderHolds, ordRel, ordAcq] using holds, ha⟩
  · exact ⟨_, by simpa [State.orderHolds, ordRel, ordAcq] using holds, ⟨next, rfl, rfl, rfl, rfl⟩, ha⟩
  · exact ⟨_, by simpa [State.orderHolds, ordRel, ordAcq] using holds, ⟨seq, rfl, rfl, rfl, rfl⟩, hn sc, ha⟩
  · exact ⟨_, _, by simpa [State.orderHolds, ordRel, ordAcq] using holds, ⟨seq, rfl, rfl, rfl, rfl⟩, hn sc, ⟨next, rfl, rfl, rfl, rfl⟩, ha⟩

end Ordered

/-! ### An atomic's operation -/

section Operation

variable {s v g : State} {q : Strand} {c : CoreId} {st : StrandId} {h : Hdr} {unit : MemUnit} {addr va lat : Nat} {op : UnitOp} {o : AtomOrd}
  {needs : Scope → List Need}

/-- An atomic's operation is sent behind the hold of its release, which `v` puts down, and before that of its acquire. -/
theorem State.Sending.orders (r : Req) (b : s.Sending g { q with holds := q.holds ++ v.orderHolds c st .rel (ordRel o) } c st)
    (hq : q.holds = (s.strand c st).holds) (seq : (v.strand c st).seq = (s.strand c st).seq) (hn : ∀ sc, v.before c st sc false = needs sc) :
    let acc := s.accessOf c st h unit addr va op (s.unitPrio c st unit lat)
    let u := s.turn c st h r
    let t := (g.sendAccess u unit addr va op lat []).ordFence u .acq (ordAcq o)
    t.storage = g.storage ∧ (∃ outs holds, t.strand c st = { g.strand c st with seq := (s.strand c st).seq + 1, outs := outs, holds := holds }) ∧
    s.Orders t c st o needs (fun ks => s.Sends t { q with holds := q.holds ++ ks } c st (s.strand c st).seq true [] lat acc.prio
      (.ev (.storePerform acc))) := by
  intro acc u t
  let w := g.sendAs u unit addr va op lat acc.prio []
  have ht : t = w.ordFence u .acq (ordAcq o) := congrArg (fun x => State.ordFence x u .acq (ordAcq o)) (State.sendAccess_eq b.contents)
  obtain ⟨kept, ⟨out, own⟩, sends⟩ := b.sent (h := h) r unit addr va op lat acc.prio []
  have own : w.strand c st = _ := own
  have fenced : t.strand c st = { w.strand c st with holds := (w.strand c st).holds ++ w.orderHolds c st .acq (ordAcq o) } := by
    rw [ht]
    exact w.ordFence_strand u .acq (ordAcq o)
  refine ⟨by rw [ht]; exact (State.ordFence_storage ..).trans kept, ⟨_, _, by rw [fenced, own]⟩, State.orders_of ?_ seq (congrArg Strand.seq own) hn ?_⟩
  · rw [fenced, ← hq]
    exact congrArg (· ++ _) ((congrArg Strand.holds own).trans b.holds)
  · rw [ht]
    exact State.Sends.mono sends fun _ _ _ _ hp => hp.ordFence u .acq (ordAcq o)

/-- An atomic at a scratchpad without a fault. -/
theorem lsAtomic_spec {s : State} {c k : CoreId} {st : StrandId} {h : Hdr} {d : XReg} {o : AtomSpec} {ad lat wr : Nat} {y cmp : Word}
    {fault : Option TrapInfo} (hi : s.Issues c st h { writes := true }) (hf : fault = none) :
    let r : Req := { writes := true }
    let x := s.issued c st h r
    let acc := s.accessOf c st h (.ls k) ad 0 (.atomic o y cmp d) (s.unitPrio c st (.ls k) lat)
    ∃ t, lsAtomic h d o k ad lat wr y cmp fault s = .next t ∧ s.Advanced t c st ∧ t.storage = s.storage ∧
      (t.strand c st).seq = (s.strand c st).seq + 1 ∧
      s.Orders t c st o.ord (x.before c st · false) (fun ks => s.Sends t { x.strand c st with holds := (x.strand c st).holds ++ ks } c st
        (s.strand c st).seq true [] lat acc.prio (.ev (.storePerform acc))) ∧
      (t.strand c st).wait = (s.strand c st).wait ∧ (d = 0 → (t.strand c st).flights = (s.strand c st).flights) ∧
      (d ≠ 0 → s.Flies t c st wr (s.resultOf c st h (xResult (s.strand c st).level d 0)) false true) := by
  intro r x acc
  subst hf
  let u := s.turn c st h r
  let v := x.ordFence u .rel (ordRel o.ord)
  let res := s.resultOf c st h (xResult (s.strand c st).level d 0)
  let g := if d = 0 then v else v.fly c st wr res false true
  have stored : v.storage = s.storage := (State.ordFence_storage ..).trans (s.issued_storage c st h r)
  have fenced : v.strand c st = _ := x.ordFence_strand u .rel (ordRel o.ord)
  have before : s.Sending v { x.strand c st with holds := (x.strand c st).holds ++ x.orderHolds c st .rel (ordRel o.ord) } c st :=
    (State.Sending.issued s c st h r).ordFence r .rel _
  have step : lsAtomic h d o k ad lat wr y cmp none s =
      .next ((g.sendAccess u (.ls k) ad 0 (.atomic o y cmp d) lat []).ordFence u .acq (ordAcq o.ord)) := issue_ready hi _
  have flown := v.fly_spec c st wr res false true
  have sending : s.Sending g { x.strand c st with holds := (x.strand c st).holds ++ x.orderHolds c st .rel (ordRel o.ord) } c st := by
    unfold g
    split
    · exact before
    · exact before.fly wr res true
  have own : ∃ fl, g.strand c st = { v.strand c st with flights := fl } ∧ (d = 0 → fl = (s.strand c st).flights) := by
    unfold g
    split
    · next e => exact ⟨_, rfl, fun _ => (congrArg Strand.flights fenced).trans (s.issued_flights c st h r)⟩
    · next e => exact ⟨_, flown.1, fun e' => absurd e' e⟩
  have kept : g.storage = v.storage := by
    unfold g
    split
    · rfl
    · exact flown.2.1
  obtain ⟨fl, own, none'⟩ := own
  obtain ⟨same, ⟨outs, holds, at'⟩, orders⟩ := sending.orders (h := h) (unit := .ls k) (addr := ad) (va := 0) (lat := lat) (op := .atomic o y cmp d)
    (o := o.ord) (needs := (x.before c st · false)) r (s.issued_holds c st h r) (s.issued_seq c st h r) fun _ => rfl
  refine ⟨_, step, (s.issued_advanced c st h r rfl).of_eq at' ?_, same.trans (kept.trans stored), congrArg Strand.seq at', orders, ?_, ?_, ?_⟩
  · rw [own, fenced]; exact ⟨rfl, rfl, rfl, rfl, rfl, rfl⟩
  · rw [at', own, fenced]; exact s.issued_wait c st h r
  · intro e
    rw [at', own]
    exact none' e
  · intro e
    have flies : s.Flies g c st wr res false true := by
      unfold g
      rw [if_neg e]
      exact State.flies_of stored ((congrArg Strand.flights fenced).trans (s.issued_flights c st h r)) rfl
    exact ⟨flies.flight.imp fun _ f => ⟨f.1, (congrArg Strand.flights at').trans f.2⟩, nofun⟩

/-- An atomic at GM or XM without a fault: one with a destination holds its strand, one without takes a store slot. -/
theorem farAtomic_spec {s : State} {c : CoreId} {st : StrandId} {h : Hdr} {d : XReg} {o : AtomSpec} {unit : MemUnit} {ad pa : Nat} {y cmp : Word}
    {fault : Option TrapInfo} (hi : s.Issues c st h { writes := true }) (hf : fault = none) (hs : d = 0 → s.slotsUsed c st < 16) :
    let x := s.issued c st h { writes := true }
    let acc := s.accessOf c st h unit pa ad (.atomic o y cmp d) (s.unitPrio c st unit 1)
    ∃ t, farAtomic h d o unit ad pa y cmp fault s = .next t ∧ s.Advanced t c st ∧ t.contents = s.contents ∧ (unit ≠ .gm → t.storage = s.storage) ∧
      (t.strand c st).seq = (s.strand c st).seq + 1 ∧
      s.Orders t c st o.ord (x.before c st · false) (fun ks => s.Sends t { x.strand c st with holds := (x.strand c st).holds ++ ks } c st
        (s.strand c st).seq true [] 1 acc.prio (.ev (.storePerform acc))) ∧
      (t.strand c st).flights = (s.strand c st).flights ∧ (d = 0 → (t.strand c st).wait = (s.strand c st).wait) ∧
      (d ≠ 0 → s.WaitsFor t c st h (.held (if unit = .gm then 2 else 3) ad) d) := by
  intro x acc
  subst hf
  let r : Req := { writes := true, needs := decide (d = 0) }
  have hi' : s.Issues c st h r := hi
  let y' := s.issued c st h r
  let u := s.turn c st h r
  let v1 := if unit = .gm then y'.touch c ad else y'
  let v2 := if d = 0 then v1 else v1.waitFor u (.held (if unit = .gm then 2 else 3) ad) d false 0
  let g := v2.ordFence u .rel (ordRel o.ord)
  have step : farAtomic h d o unit ad pa y cmp none s =
      .next ((g.sendAccess u unit pa ad (.atomic o y cmp d) 1 []).ordFence u .acq (ordAcq o.ord)) := by
    refine issue_when hi' rfl ?_ rfl rfl rfl rfl _
    split
    · next e => rw [hi.me, State.slotBusy, if_pos (hs e)]
    · rfl
  obtain ⟨due, learned⟩ := State.issued_before (s := s) (c := c) (st := st) (h := h) (r := r) (r' := { writes := true }) rfl
  have start : s.Sending y' (x.strand c st) c st :=
    ⟨State.contents_of_storage (s.issued_storage c st h r), State.queueOf_of_cal (s.issued_cal c st h r) c st, s.issued_seq c st h r,
      (s.issued_holds c st h r).trans (s.issued_holds c st h _).symm, due⟩
  have touched : s.Sending v1 (x.strand c st) c st ∧ v1.strand c st = y'.strand c st ∧ (unit ≠ .gm → v1.storage = s.storage) := by
    unfold v1
    split
    · next e => exact ⟨start.touch ad, (y'.touch_spec c ad).2.1 c st, fun n => absurd e n⟩
    · exact ⟨start, rfl, fun _ => s.issued_storage c st h r⟩
  obtain ⟨ready, own1, stored1⟩ := touched
  have waited : s.Sending v2 (x.strand c st) c st ∧ v2.storage = v1.storage ∧ ∃ w, v2.strand c st = { y'.strand c st with wait := w } ∧
      (d = 0 → w = (s.strand c st).wait) ∧
      (d ≠ 0 → w = some (u.waitOf (v1.strand c st) (.held (if unit = .gm then 2 else 3) ad) d false 0)) := by
    unfold v2
    split
    · next e => exact ⟨ready, rfl, _, own1, fun _ => s.issued_wait c st h r, fun n => absurd e n⟩
    · next e =>
      refine ⟨ready.waitFor r _ d false 0, State.waitFor_storage .., _, ?_, fun n => absurd n e, fun _ => rfl⟩
      rw [← own1]
      exact v1.waitFor_strand ..
  obtain ⟨ready2, kept2, w, own2, hw, held⟩ := waited
  have sending : s.Sending g { x.strand c st with holds := (x.strand c st).holds ++ v2.orderHolds c st .rel (ordRel o.ord) } c st := ready2.ordFence r .rel _
  have fenced : g.strand c st = { v2.strand c st with holds := (v2.strand c st).holds ++ v2.orderHolds c st .rel (ordRel o.ord) } := v2.ordFence_strand u .rel (ordRel o.ord)
  have first : ∀ sc, v2.before c st sc false = x.before c st sc false := fun sc => by
    rw [← learned sc false]
    simp only [State.before, own2, y']
  obtain ⟨same, ⟨outs, holds, at'⟩, orders⟩ := sending.orders (h := h) (unit := unit) (addr := pa) (va := ad) (lat := 1) (op := .atomic o y cmp d)
    (o := o.ord) (needs := (x.before c st · false)) r (s.issued_holds c st h _) (by rw [own2]; exact s.issued_seq c st h r) first
  refine ⟨_, step, (s.issued_advanced c st h r rfl).of_eq at' ?_, (State.contents_of_storage same).trans sending.contents, fun n => ?_,
    congrArg Strand.seq at', orders, ?_, fun e => ?_, fun e => State.waitsFor_of (r := r) (t0 := v1.strand c st) (acq := false) (cond := 0) ?_ ?_⟩
  · rw [fenced, own2]; exact ⟨rfl, rfl, rfl, rfl, rfl, rfl⟩
  · exact same.trans ((State.ordFence_storage ..).trans (kept2.trans (stored1 n)))
  · rw [at', fenced, own2]; exact s.issued_flights c st h r
  · rw [at', fenced, own2]; exact hw e
  · rw [at', fenced, own2]; exact held e
  · rw [own1]; exact (State.storage_regs (s.issued_storage c st h r) c st).sbound

end Operation

/-- Settles O46. -/
theorem atomicsAreSentToTheirUnit : Obligations.AtomicsAreSentToTheirUnit := by
  intro s c st h d a b o hi r t0 q n ad op cov sends scratch far
  have scratch' {i : Instr} {k : CoreId} {addr lat wr : Nat} {f : Option TrapInfo} (hf : f = none)
      (hx : exec i s = lsAtomic h d o k addr lat wr (s.x c st b) (s.x c st o.c) f s) : scratch i k addr lat wr := by
    obtain ⟨t, step, advanced, stored, seq, orders, rest⟩ := lsAtomic_spec (k := k) (ad := addr) (lat := lat) (wr := wr) (d := d) (o := o)
      (y := s.x c st b) (cmp := s.x c st o.c) hi hf
    exact ⟨t, hx.trans step, advanced, stored, ⟨seq, orders⟩, rest⟩
  have far' {i : Instr} {unit : MemUnit} {space pa : Nat} {f : Option TrapInfo} (hu : (if unit = .gm then 2 else 3) = space) (hp : ∀ k, unit ≠ .ls k) (hf : f = none)
      (hx : exec i s = farAtomic h d o unit ad pa (s.x c st b) (s.x c st o.c) f s) : far i space unit pa := by
    intro hs
    obtain ⟨t, step, advanced, contents, stored, seq, orders, flights, free, held⟩ := farAtomic_spec (unit := unit) (ad := ad) (pa := pa) (d := d) (o := o)
      (y := s.x c st b) (cmp := s.x c st o.c) hi hf hs
    rw [hu] at held
    have prio : s.unitPrio c st unit 1 = effects := by
      unfold State.unitPrio
      split
      · next k => exact absurd rfl (hp k)
      · rfl
    rw [prio] at orders
    exact ⟨t, hx.trans step, advanced, contents, stored, ⟨seq, orders⟩, flights, free, held⟩
  refine ⟨fun ha hin => scratch' ?aml (by simp only [exec.eq_def, execAml, hi.reg, hi.me]; rfl), fun ha h30 hin hm => scratch' ?amp (by simp only [exec.eq_def, execAmp, hi.reg, hi.me]; rfl),
    fun ha hg => far' (if_pos rfl) nofun ?amg (by simp only [exec.eq_def, execAmg, hi.reg, hi.me]; rfl),
    fun ha hx hg => far' rfl nofun ?amx (by simp only [exec.eq_def, execAmx, hi.reg, hi.me]; rfl)⟩
  case aml =>
    rw [hi.mine, firstFault_aligned (n := atomBytes o) ha, lsFault_none_write (n := atomBytes o) hin]
    rfl
  case amp =>
    rw [hi.mine, firstFault_aligned (n := atomBytes o) ha, State.psFault_none_write (n := atomBytes o) h30 hin hm]
    rfl
  case amg =>
    rw [hi.mine, firstFault_aligned (n := atomBytes o) ha, hg]
    rfl
  case amx =>
    rw [hi.mine, firstFault_aligned (n := atomBytes o) ha, show s.xmFault (s.strand c st).pos (s.x c st a).toNat (atomBytes o) = none from hx, State.xmScope, hg]
    rfl

end Sys2Proof.Machine

/-! Accesses through the port (R99, R102, R164, R182): what their issue sends, and what a far read delivers. -/

namespace Sys2Proof.Machine

/-! ### A channel that serves a request -/

section Serve

/-- A request changes the channels and the counter of free values only. -/
theorem State.serveAs_eq (s : State) (cls : Traffic) (engine : Bool) (as : List Nat) :
    ∃ sk n, (s.serveAs cls engine as).1 = { s with stokers := sk, choice := n } := by
  have keep (f : State → Fin 384 → State) (hf : ∀ v k, ∃ sk, f v k = { v with stokers := sk }) (l : List (Fin 384)) (v : State)
      (hv : ∃ sk n, v = { s with stokers := sk, choice := n }) : ∃ sk n, l.foldl f v = { s with stokers := sk, choice := n } := by
    refine foldl_keeps (P := fun v : State => ∃ sk n, v = { s with stokers := sk, choice := n }) f (fun u a hu => ?_) l v hv
    obtain ⟨sk, n, rfl⟩ := hu
    obtain ⟨sk', e⟩ := hf { s with stokers := sk, choice := n } a
    exact ⟨sk', n, e⟩
  unfold State.serveAs
  simp only []
  split
  · exact keep _ (fun v k => ⟨_, rfl⟩) _ _ ⟨_, _, rfl⟩
  · exact keep _ (fun v k => ⟨_, rfl⟩) _ _ ⟨_, _, rfl⟩

end Serve

/-! ### One word is not torn -/

section Tear

variable {α : Type} (s : State) {addr : α → Nat} {ps : List α} {w : Nat}

theorem State.tear_word (hp : ps ≠ []) (hw : ∀ p ∈ ps, addr p / 8 = w) : s.tear addr ps = ((ps, []), s) := by
  have words : (ps.map fun p => addr p / 8).dedup = [w] := by
    have : (ps.map fun p => addr p / 8) = List.replicate ps.length w := List.eq_replicate_iff.mpr ⟨by simp, by simpa using hw⟩
    rw [this, List.replicate_dedup (by simpa using hp)]
  have all : ps.partition (fun p => [w].contains (addr p / 8)) = (ps, []) := by
    rw [List.partition_eq_filter_filter, List.filter_eq_self.mpr (by simpa using hw), List.filter_eq_nil_iff.mpr (by simpa using hw)]
  unfold State.tear
  rw [words, State.pick, if_pos (by simp)]
  simp only [all]

end Tear

/-- Bytes placed in order are their number. -/
theorem placeBytes_zip (bs : List Byte) (hn : bs.length ≤ 256) : placeBytes 0 ((List.range bs.length).zip bs) = BitVec.ofNat 2048 (leNat bs) := by
  let m : Mem := Mem.write [] 0 bs
  have wf : Mem.wf [] = true := rfl
  have placed : (List.range bs.length).zip bs = (List.range bs.length).map fun i => (i, m.get (0 + i)) := by
    apply List.ext_getElem
    · simp
    · intro i h1 h2
      have hi : i < bs.length := by simpa using h1
      simp [m, Mem.get_write wf, hi]
  rw [placed, placeBytes_read m 0 hn, Mem.read_write wf]

theorem Mem.read_eq_map (m : Mem) (n : Nat) : ∀ a, m.read a n = (List.range n).map fun i => m.get (a + i) := by
  induction n with
  | zero => intro a; rfl
  | succ n ih =>
    intro a
    rw [Mem.read, ih, List.range_succ_eq_map, List.map_cons, List.map_map]
    simp [Function.comp_def, Nat.add_assoc, Nat.add_comm 1]

/-- A core with no accepted write under way sees what HBM holds. -/
theorem State.gmBytes_settled (s : State) {c : CoreId} (h : s.portWrites c .gm = []) (a n : Nat) :
    s.gmBytes c ((List.range n).map (a + ·)) = s.gm.read a n := by
  simp [State.gmBytes, State.seenBytes, h, Mem.read_eq_map, Function.comp_def]

/-! ### The data of a load from GM (R101, R182) -/

section Read

variable {s : State} {c : CoreId} {st : StrandId} {ord seq n pa sext : Nat} {vas : List Nat} {w : Wait} {f : Flight}

/-- The result that a far read leaves. -/
def Flight.delivered (f : Flight) (now : Nat) (v : VecData) : Flight :=
  { f with w := now, ready := true, res := { f.res with data := v, pushP := false, pushN := false } }

/-- An access that is done, with its result delivered in this tick and its hold over. -/
def State.handOver (s : State) (c : CoreId) (st : StrandId) (ord seq now : Nat) (v : VecData) : State :=
  (((s.accessDone c st seq).updStrand c st fun t => t.updFlight ord (·.delivered now v) 0).post .hc s.hc (writePrio st ord) (.flight c st ord)).endWait c st 0

/-- A far read that its channel serves delivers its bytes, posts its result's write in this tick and ends the hold. -/
theorem State.readFar_eq (hn : n ∈ [1, 2, 4, 8]) (hp : pa % n = 0) (hv : vas.length = n) (hw : (s.strand c st).wait = some w) (ho : w.ord = ord)
    (hf : (s.strand c st).flight ord = some f) (hd : f.res.data = 0) (hg : ∀ b, s.bindingOf c = some b → b.cg = false)
    (hr : ∀ o ∈ (s.strand c st).outs, o.seq < seq → o.core = true) (hb : s.badGm ((List.range n).map (pa + ·)) = none)
    (hs : (s.serve .md ((List.range n).map (pa + ·))).2 = true) :
    ∃ sk ch l, s.readFar c st ord seq none ((List.range n).map fun i => (i, pa + i)) sext vas =
      let x : State := { s with stokers := sk, choice := ch, life := l }
      x.handOver c st ord seq (x.now c st) (loadValue sext (BitVec.ofNat 2048 (leNat (s.gmBytes c ((List.range n).map (pa + ·)))))) := by
  have pos : 0 < n ∧ n ≤ 8 := by
    simp only [List.mem_cons, List.not_mem_nil, or_false] at hn
    omega
  let cells := (List.range n).map fun i => (i, pa + i)
  let all := cells.zip vas
  have plain (va p : Nat) : s.groupPa c va p = p := by
    unfold State.groupPa
    cases h : s.bindingOf c with
    | none => rfl
    | some b => simp [hg b h]
  have cellsOf : all.map Prod.fst = cells := List.map_fst_zip (by simp [cells, hv])
  have addrs : all.map (·.1.2) = (List.range n).map (pa + ·) := by
    have : all.map (·.1.2) = (all.map Prod.fst).map Prod.snd := by simp
    rw [this, cellsOf]
    simp [cells]
  have word : ∀ p ∈ all, p.1.2 / 8 = pa / 8 := by
    intro p hp'
    have : p.1.2 ∈ (List.range n).map (pa + ·) := by rw [← addrs]; exact List.mem_map.mpr ⟨p, hp', rfl⟩
    obtain ⟨i, hi, e⟩ := List.mem_map.mp this
    have := List.mem_range.mp hi
    simp only [List.mem_cons, List.not_mem_nil, or_false] at hn
    rw [← e]
    rcases hn with rfl | rfl | rfl | rfl <;> omega
  have some' : all ≠ [] := by
    intro e
    have := congrArg List.length cellsOf
    simp [e, cells] at this
    omega
  have torn := s.tear_word (addr := fun p : (Nat × Nat) × Nat => p.1.2) some' word
  obtain ⟨sk, ch, served⟩ := s.serveAs_eq .md false ((List.range n).map (pa + ·))
  have free : s.readBlocked c st seq = false := by
    unfold State.readBlocked
    rw [List.any_eq_false]
    intro o ho'
    by_cases h : o.seq < seq
    · simp [hr o ho' h]
    · simp [h]
  have place : (fun p : (Nat × Nat) × Nat => if (none : Option Nat).isNone then s.groupPa c p.2 p.1.2 else p.1.2) = fun p => p.1.2 := by
    funext p
    simp [plain]
  have pairs : all.map (fun p => (p.1.1, p.1.2)) = cells := cellsOf
  have seconds : cells.map Prod.snd = (List.range n).map (pa + ·) := by simp [cells]
  have firsts : cells.map Prod.fst = List.range n := by simp [cells, Function.comp_def]
  let v : State := { s with stokers := sk, choice := ch }
  have served' : s.serve .md ((List.range n).map (pa + ·)) = (v, true) := Prod.ext served hs
  have data : v.farData c w none cells = (v.countCorrected 5 (v.correctedIn ((List.range n).map (pa + ·))),
      .ok ((List.range n).zip (s.gmBytes c ((List.range n).map (pa + ·))))) := by
    unfold State.farData
    simp only [seconds, firsts]
    rw [show v.badGm _ = none from hb]
    rfl
  have number : placeBytes f.res.data ((List.range n).zip (s.gmBytes c ((List.range n).map (pa + ·)))) =
      BitVec.ofNat 2048 (leNat (s.gmBytes c ((List.range n).map (pa + ·)))) := by
    have length : (s.gmBytes c ((List.range n).map (pa + ·))).length = n := by simp [State.gmBytes, State.seenBytes]
    have placed := placeBytes_zip (s.gmBytes c ((List.range n).map (pa + ·))) (by omega)
    rwa [length, ← hd] at placed
  refine ⟨sk, ch, (v.countCorrected 5 (v.correctedIn ((List.range n).map (pa + ·)))).life, ?_⟩
  unfold State.readFar
  simp only [hw, hf, ho, free, place]
  simp only [ne_eq, not_true_eq_false, if_false, Bool.false_eq_true]
  rw [torn]
  simp only [Option.isNone_none, if_true, addrs, served', List.isEmpty_nil]
  simp only [plain, pairs, data, number]
  rfl

theorem State.core_strands (s : State) (c : CoreId) (st : StrandId) (g : Strand → Strand) (e : CoreId) :
    ∃ ts, (s.updStrand c st g).core e = { s.core e with strands := ts } := by
  by_cases h : e = c
  · subst h; exact ⟨_, s.core_updStrand e st g⟩
  · exact ⟨_, s.core_updStrand_ne st g h⟩

/-- What that leaves: the result ready, its write in this tick, and the strand free from the next cycle. -/
theorem State.handOver_spec {v : VecData} {now : Nat} (hw : (s.strand c st).wait = some w) (held : ∃ sp a, w.why = .held sp a)
    (hf : (s.strand c st).flight ord = some f) :
    let t := s.handOver c st ord seq now v
    (t.strand c st).wait = none ∧ (t.strand c st).base = s.now c st + 1 ∧ (t.strand c st).flight ord = some (f.delivered now v) ∧
    t.Pending .hc s.hc (writePrio st ord) (.flight c st ord) ∧ t.gm = s.gm ∧ ∀ e, (t.core e).ls = (s.core e).ls := by
  intro t
  let a := s.accessDone c st seq
  let y := a.updStrand c st fun t => t.updFlight ord (·.delivered now v) 0
  let z := y.post .hc s.hc (writePrio st ord) (.flight c st ord)
  have done : a.strand c st = { s.strand c st with outs := (s.strand c st).outs.filter fun o => o.seq != seq } := s.strand_updStrand ..
  have own : y.strand c st = (a.strand c st).updFlight ord (·.delivered now v) 0 := a.strand_updStrand ..
  have waits : (y.strand c st).wait = some w := by rw [own, done]; exact hw
  have level : (y.strand c st).level = (s.strand c st).level := by rw [own, done]; rfl
  have core (e : CoreId) : (y.core e).ls = (s.core e).ls ∧ (y.core e).task = (s.core e).task ∧ (y.core e).cyc = (s.core e).cyc := by
    obtain ⟨ts, e1⟩ := a.core_strands c st (fun t => t.updFlight ord (·.delivered now v) 0) e
    obtain ⟨us, e2⟩ := s.core_strands c st (fun t => { t with outs := t.outs.filter fun o => o.seq != seq }) e
    have e3 : a.core e = _ := e2
    rw [show y.core e = _ from e1, e3]
    exact ⟨rfl, rfl, rfl⟩
  have here : z.now c st = s.now c st := (State.now_of (s := s) (t := z) rfl rfl (fun e => ⟨(core e).2.1, (core e).2.2⟩) c st level).2
  obtain ⟨⟨hs, ip, after⟩, -, cal⟩ := z.endWait_spec c st waits 0
  have after : t.strand c st = _ := after
  have flight : (y.strand c st).flight ord = some (f.delivered now v) := by
    rw [own, Strand.flight_updFlight _ _ _ _ (by intro _; rfl), done]
    exact congrArg (Option.map _) hf
  have noDsync : ∀ l, w.why ≠ .dsync l := by
    obtain ⟨sp, a, h⟩ := held
    intro l
    rw [h]
    exact nofun
  have stored : t.storage = z.storage := z.endWait_storage c st waits noDsync 0
  have kept (e : CoreId) : (t.core e).ls = (y.core e).ls := (congrArg Core.ls (State.storage_core stored e) :)
  refine ⟨congrArg Strand.wait after, ?_, (congrArg (fun t : Strand => t.flight ord) after).trans flight, ?_, (State.storage_gm stored).trans rfl,
    fun e => (kept e).trans (core e).1⟩
  · rw [after, here]
  · exact State.Pending.of_cal (t := t) (s := z) ⟨y.order, by simp [z]⟩ cal

end Read

/-! ### Loads and stores through the port at issue (R164, R182) -/

section Issue

variable {s v : State} {q : Strand} {c : CoreId} {st : StrandId} {h : Hdr} {d b : XReg} {f : IntFmt} {ad pa : Nat} {fault : Option TrapInfo}

/-- A load from GM or XM without a fault: it holds its strand, and its read is on its way. -/
theorem farLoad_spec {dev : Option Nat} (hi : s.Issues c st h { writes := true }) (hf : fault = none) (ord : Option Scope) :
    let r : Req := { writes := true }
    let unit : MemUnit := match dev with | none => .gm | some d => .xm d
    ∃ t, farLoad h d f ord dev ad pa fault s = .next t ∧ s.Advanced t c st ∧ t.contents = s.contents ∧
      s.WaitsFor t c st h (.held (if dev.isSome then 3 else 2) ad) d ∧
      s.Flies t c st 1 (s.resultOf c st h (xResult (s.strand c st).level d 0)) false false ∧ (t.strand c st).seq = (s.strand c st).seq + 1 ∧
      (∃ o, (t.strand c st).outs = (s.strand c st).outs ++ [o] ∧ o.seq = (s.strand c st).seq ∧ o.load = true ∧ o.core = false ∧ o.unit = unit) ∧
      s.SendsFar t ((s.issued c st h r).strand c st) c st (s.strand c st).seq false 0 (.farRead c st (s.strand c st).ord (s.strand c st).seq dev
        (loadBytes pa (scalarBytes f)) (sextOf f) ((List.range (scalarBytes f)).map (ad + ·))) ∧
      (ord = none → (t.strand c st).holds = (s.strand c st).holds) ∧
      (∀ sc, ord = some sc → ∃ o, (t.strand c st).holds = (s.strand c st).holds ++ [o] ∧ o.start = (s.strand c st).seq + 1 ∧ o.stores = false) := by
  intro r unit
  subst hf
  let u := s.turn c st h r
  let x := s.issued c st h r
  let v1 := x.waitFor u (.held (if dev.isSome then 3 else 2) ad) d false 0
  let v2 := v1.access c st true unit (if dev.isNone then [(ad, scalarBytes f)] else [])
  let res := s.resultOf c st h (xResult (s.strand c st).level d 0)
  let v3 := v2.fly c st 1 res false false
  let v4 := if dev.isSome then v3 else v3.touch c ad
  let w (n : Nat) : Work := .farRead c st (s.strand c st).ord n dev (loadBytes pa (scalarBytes f)) (sextOf f)
    ((List.range (scalarBytes f)).map (ad + ·))
  let t1 (n : Nat) : State := v4.dispatch c st (s.strand c st).ord n false [] 0 effects true (w n)
  have seq : (x.strand c st).seq = (s.strand c st).seq := s.issued_seq c st h r
  have step : farLoad h d f ord dev ad pa none s = .next ((t1 (x.strand c st).seq).ordFence u .acq ord) := issue_ready hi _
  rw [seq] at step
  have waited : v1.strand c st = _ := x.waitFor_strand (s := s) (c := c) (st := st) (h := h) (r := r) (.held (if dev.isSome then 3 else 2) ad) d false 0
  let o : Out := ⟨(v1.strand c st).seq, true, false, unit, v1.sampling (v1.core c).asid (if dev.isNone then [(ad, scalarBytes f)] else [])⟩
  have accessed : v2.strand c st = { v1.strand c st with seq := (v1.strand c st).seq + 1, outs := (v1.strand c st).outs ++ [o] } :=
    State.strand_updStrand ..
  obtain ⟨flown, stored3, -, -⟩ := v2.fly_spec c st 1 res false false
  have stored2 : v2.storage = s.storage := (State.access_storage ..).trans ((State.waitFor_storage ..).trans (s.issued_storage c st h r))
  have touched : v4.contents = s.contents ∧ v4.strand c st = v3.strand c st ∧ v4.cal = v3.cal := by
    have e := State.contents_of_storage (stored3.trans stored2)
    unfold v4
    split
    · exact ⟨e, rfl, rfl⟩
    · obtain ⟨a, b, c', -⟩ := v3.touch_spec c ad
      exact ⟨a.trans e, b c st, c'⟩
  obtain ⟨contents, own, cal⟩ := touched
  have flies : s.Flies v3 c st 1 res false false := State.flies_of stored2 ((congrArg Strand.flights accessed).trans
    ((congrArg Strand.flights waited).trans (s.issued_flights c st h r))) rfl
  let fl : Flight := ⟨res.ord, v2.now c st + 1, res, false, (v2.strand c st).level, false, []⟩
  let wait : Wait := u.waitOf (x.strand c st) (.held (if dev.isSome then 3 else 2) ad) d false 0
  have all : v4.strand c st = { x.strand c st with
      wait := some wait, seq := (s.strand c st).seq + 1, outs := (s.strand c st).outs ++ [o], flights := (s.strand c st).flights ++ [fl] } := by
    have a2 : v2.strand c st = { x.strand c st with wait := some wait, seq := (s.strand c st).seq + 1, outs := (s.strand c st).outs ++ [o] } :=
      accessed.trans (by rw [waited, ← seq, ← s.issued_outs c st h r])
    have a3 : v3.strand c st = { v2.strand c st with flights := (v2.strand c st).flights ++ [fl] } := flown
    rw [own, a3, a2, ← s.issued_flights c st h r]
  have sent : s.SendsFar (t1 (s.strand c st).seq) (x.strand c st) c st (s.strand c st).seq false 0 (w (s.strand c st).seq) := by
    refine State.sendsFar_of ⟨State.contents_hc contents, State.contents_clock contents c st, State.contents_now contents c st⟩ ?_ ?_ ?_
    · rw [all]
    · rw [all]
    · exact (State.queueOf_of_cal cal c st).trans (State.queueOf_of_cal (s.issued_cal c st h r) c st)
  have at1 : (t1 (s.strand c st).seq).strand c st = _ := (State.dispatch_strand ..).trans all
  have fenced : ((t1 (s.strand c st).seq).ordFence u .acq ord).strand c st = _ := (t1 (s.strand c st).seq).ordFence_strand u .acq ord
  have whole : ((t1 (s.strand c st).seq).ordFence u .acq ord).strand c st = { x.strand c st with
      wait := some wait, seq := (s.strand c st).seq + 1, outs := (s.strand c st).outs ++ [o], flights := (s.strand c st).flights ++ [fl]
      holds := (x.strand c st).holds ++ (t1 (s.strand c st).seq).orderHolds c st .acq ord } := by
    rw [fenced, show (t1 (s.strand c st).seq).strand u.c u.st = _ from at1]
    rfl
  refine ⟨_, step, (s.issued_advanced c st h r rfl).of_eq whole ⟨rfl, rfl, rfl, rfl, rfl, rfl⟩,
    (State.contents_of_storage ((State.ordFence_storage ..).trans (State.dispatch_storage ..))).trans contents,
    State.waitsFor_of (r := r) (congrArg Strand.wait whole) (State.storage_regs (s.issued_storage c st h r) c st).sbound,
    ⟨flies.flight.imp fun _ g => ⟨g.1, ?_⟩, nofun⟩, congrArg Strand.seq whole, ⟨o, congrArg Strand.outs whole, ?_, rfl, rfl, rfl⟩,
    ⟨fun f => (sent.1 f).imp fun _ g => g.ordFence u .acq ord, fun f => (sent.2 f).ordFence u .acq ord⟩, fun e => ?_, fun sc e => ?_⟩
  · exact (congrArg Strand.flights whole).trans ((congrArg Strand.flights (own.symm.trans all)).symm.trans g.2)
  · exact (congrArg Strand.seq waited).trans seq
  · subst e
    exact (congrArg Strand.holds whole).trans ((List.append_nil _).trans (s.issued_holds c st h r))
  · subst e
    refine ⟨(t1 (s.strand c st).seq).orderHold c st .acq sc, ?_, congrArg Strand.seq at1, rfl⟩
    exact (congrArg Strand.holds whole).trans (congrArg (· ++ [_]) (s.issued_holds c st h r))

/-- The access of a store through the port. -/
def State.farStoreOf (s : State) (c : CoreId) (st : StrandId) (h : Hdr) (unit : MemUnit) (pa ad : Nat) (bytes : List Byte) : Access :=
  s.accessOf c st h unit pa ad (.write bytes) effects

/-- A store through the port without a fault and with a slot. -/
theorem farStore_spec {unit : MemUnit} (hu : ∀ k, unit ≠ .ls k) (hi : s.Issues c st h {}) (hf : fault = none) (hs : s.slotsUsed c st < 16) :
    let r : Req := { needs := true }
    let acc := s.farStoreOf c st h unit pa ad (leBytes (scalarBytes f) (s.x c st b).toNat)
    (∃ t, farStore h b f none unit ad pa fault s = .next t ∧ s.Advanced t c st ∧ t.contents = s.contents ∧
      (t.strand c st).seq = (s.strand c st).seq + 1 ∧
      s.Sends t ((s.issued c st h r).strand c st) c st (s.strand c st).seq true [] 1 effects (.ev (.storePerform acc))) ∧
    (∀ sc, ∃ t o, farStore h b f (some sc) unit ad pa fault s = .next t ∧ s.Advanced t c st ∧ t.contents = s.contents ∧
      (t.strand c st).holds = (s.strand c st).holds ++ [o] ∧ o.start = (s.strand c st).seq ∧ o.stores = true ∧
      o.needs = (s.issued c st h r).before c st sc false ∧
      t.Pending (s.clock c st) (s.now c st) (queuePrio true)
        (.queued (s.clock c st) c st (s.strand c st).ord (s.strand c st).seq true [] 1 effects false (.ev (.storePerform acc)))) := by
  intro r acc
  subst hf
  have hi' : s.Issues c st h r := hi
  let u := s.turn c st h r
  let x := s.issued c st h r
  let v := if unit = .gm then x.touch c ad else x
  have prio : s.unitPrio c st unit 1 = effects := by
    unfold State.unitPrio
    split
    · next k => exact absurd rfl (hu k)
    · rfl
  have touched : v.contents = s.contents ∧ v.strand c st = x.strand c st ∧ v.cal = s.cal := by
    have e := State.contents_of_storage (s.issued_storage c st h r)
    unfold v
    split
    · obtain ⟨a, b, c', -⟩ := x.touch_spec c ad
      exact ⟨a.trans e, b c st, c'.trans (s.issued_cal c st h r)⟩
    · exact ⟨e, rfl, s.issued_cal c st h r⟩
  obtain ⟨contents, own, cal⟩ := touched
  have step (sc : Option Scope) : farStore h b f sc unit ad pa none s = .next ((v.ordFence u .rel sc).sendAccess u unit pa ad
      (.write (leBytes (scalarBytes f) (s.x c st b).toNat)) 1 []) := by
    rw [← hi.reg]
    exact issue_when hi' rfl (by rw [hi.me, State.slotBusy, if_pos hs]) rfl rfl rfl rfl _
  refine ⟨?plain, fun sc => ?release⟩
  case plain =>
    obtain ⟨advanced, contents', seq, sends⟩ := State.stores_of (unit := unit) (addr := pa) (va := ad)
      (op := .write (leBytes (scalarBytes f) (s.x c st b).toNat)) (lat := 1) (prio := effects) (needs := []) (h := h) (r := r) contents cal rfl own
    exact ⟨_, (step none).trans (congrArg _ ((State.sendAccess_eq contents).trans (by rw [prio]))), advanced, contents', seq, sends⟩
  case release =>
    have fenced := (State.contents_of_storage (v.fence_storage c st .rel sc false false)).trans contents
    obtain ⟨advanced, contents', ⟨o, holds⟩, queued⟩ := State.stores_released (unit := unit) (addr := pa) (va := ad)
      (op := .write (leBytes (scalarBytes f) (s.x c st b).toNat)) (lat := 1) (prio := effects) (needs := []) (h := h) (r := r) contents rfl own sc
    exact ⟨_, o, (step (some sc)).trans (congrArg _ ((State.sendAccess_eq fenced).trans (by rw [prio]))), advanced, contents', holds.1, holds.2.1,
      holds.2.2.1, holds.2.2.2, queued⟩

end Issue

/-- What a far read that its channel serves leaves. -/
theorem State.readFar_delivers {s : State} {c : CoreId} {st : StrandId} {ord seq n pa sext : Nat} {vas : List Nat} {w : Wait} {f : Flight}
    (hn : n ∈ [1, 2, 4, 8]) (hp : pa % n = 0) (hv : vas.length = n) (hw : (s.strand c st).wait = some w) (ho : w.ord = ord)
    (held : ∃ sp a, w.why = .held sp a) (hf : (s.strand c st).flight ord = some f) (hd : f.res.data = 0)
    (hg : ∀ b, s.bindingOf c = some b → b.cg = false) (hr : ∀ o ∈ (s.strand c st).outs, o.seq < seq → o.core = true)
    (hb : s.badGm ((List.range n).map (pa + ·)) = none) (hs : (s.serve .md ((List.range n).map (pa + ·))).2 = true) :
    let t := s.readFar c st ord seq none ((List.range n).map fun i => (i, pa + i)) sext vas
    (t.strand c st).wait = none ∧ (t.strand c st).base = s.now c st + 1 ∧
    (t.strand c st).flight ord = some (f.delivered (s.now c st) (loadValue sext (BitVec.ofNat 2048 (leNat (s.gmBytes c ((List.range n).map (pa + ·)))))))
    ∧ t.Pending .hc s.hc (writePrio st ord) (.flight c st ord) ∧ t.gm = s.gm ∧ ∀ e, (t.core e).ls = (s.core e).ls := by
  obtain ⟨sk, ch, l, ht⟩ := State.readFar_eq (sext := sext) hn hp hv hw ho hf hd hg hr hb hs
  let x : State := { s with stokers := sk, choice := ch, life := l }
  have here : x.now c st = s.now c st := (State.now_of (s := s) (t := x) rfl rfl (fun _ => ⟨rfl, rfl⟩) c st rfl).2
  have spec := x.handOver_spec (seq := seq) (v := loadValue sext (BitVec.ofNat 2048 (leNat (s.gmBytes c ((List.range n).map (pa + ·))))))
    (now := x.now c st) hw held hf
  rw [← ht, here] at spec
  exact spec

/-- Settles O41. -/
theorem farAccessesGoThroughThePort : Obligations.FarAccessesGoThroughThePort := by
  refine ⟨?read, ?issue⟩
  case read =>
    intro s c st ord seq n pa sext vas w f hn hp hv hw ho held hf hd hg hr as hb hs
    obtain ⟨wait, base, flight, pending, gm, ls⟩ := State.readFar_delivers (sext := sext) hn hp hv hw ho held hf hd hg hr hb hs
    exact ⟨_, _, rfl, wait, base, flight, rfl, rfl, rfl, rfl, rfl, fun e => s.gmBytes_settled e pa n, pending, gm, ls⟩
  case issue =>
    intro s c st h d a b f imm t0 n ea q loads stores
    have reach {r : Req} (hi : s.Issues c st h r) : s.ea a imm = ea := congrArg (fun x : Word => (x + imm.signExtend 64).toNat) (hi.reg a)
    have align {sp : SpaceCode} {l : List (Option TrapInfo)} (ha : ea % n = 0) : firstFault (alignFault t0.pos ea (scalarBytes f) sp :: l) = firstFault l :=
      firstFault_aligned ha
    refine ⟨fun ha hg hi ord => ?ldg, fun ha hx hi ord => ?ldx, fun ha hg hi hs => ?stg, fun ha hx hc hi hs => ?stx,
      fun e ord ha he hi => ?ldgFault, fun e ord ha he hi => ?stgFault⟩
    case ldg =>
      have fault : firstFault [alignFault t0.pos ea (scalarBytes f) .gm, s.gmFault c st false ea .read] = none := by
        rw [align ha, hg]
        rfl
      have := farLoad_spec (d := d) (f := f) (ad := ea) (pa := s.gmPa c false ea .read) (dev := none) hi fault ord
      simp only [exec.eq_def, execLdg, reach hi, hi.me, hi.mine]
      exact this
    case ldx =>
      have fault : firstFault [alignFault t0.pos ea (scalarBytes f) .xm, s.xmFault t0.pos ea (scalarBytes f)] = none := by
        rw [align ha, show s.xmFault t0.pos ea (scalarBytes f) = none from hx]
        rfl
      have := farLoad_spec (d := d) (f := f) (ad := ea) (pa := ea % 2 ^ 48) (dev := some (xmDev ea)) hi fault ord
      simp only [exec.eq_def, execLdx, reach hi, hi.mine]
      exact this
    case stg =>
      have fault : firstFault [alignFault t0.pos ea (scalarBytes f) .gm, s.gmFault c st false ea .write] = none := by
        rw [align ha, hg]
        rfl
      have := farStore_spec (b := b) (f := f) (ad := ea) (pa := s.gmPa c false ea .write) (unit := .gm) nofun hi fault hs
      simp only [exec.eq_def, execStg, reach hi, hi.me, hi.mine]
      exact this
    case stx =>
      have fault : firstFault [alignFault t0.pos ea (scalarBytes f) .xm, s.xmFault t0.pos ea (scalarBytes f), s.xmScope c t0.pos ea] = none := by
        rw [align ha, show s.xmFault t0.pos ea (scalarBytes f) = none from hx, State.xmScope, hc]
        rfl
      have := farStore_spec (b := b) (f := f) (ad := ea) (pa := ea % 2 ^ 48) (unit := .xm (xmDev ea)) nofun hi fault hs
      simp only [exec.eq_def, execStx, reach hi, hi.me, hi.mine]
      exact this
    case ldgFault =>
      have fault : firstFault [alignFault t0.pos ea (scalarBytes f) .gm, s.gmFault c st false ea .read] = some e := by
        rw [align ha, he]
        rfl
      simp only [exec.eq_def, execLdg, reach hi, hi.me, hi.mine, farLoad]
      rw [fault]
      exact issue_faults hi _
    case stgFault =>
      have fault : firstFault [alignFault t0.pos ea (scalarBytes f) .gm, s.gmFault c st false ea .write] = some e := by
        rw [align ha, he]
        rfl
      simp only [exec.eq_def, execStg, reach hi, hi.me, hi.mine, farStore]
      rw [fault]
      exact issue_faults hi _

end Sys2Proof.Machine

/-! Waits on objects and polls of them (R200 to R203, R273): what their issue sends, and what their read does. -/

namespace Sys2Proof.Machine

/-! ### Issue -/

section Issue

variable {s v : State} {q : Strand} {c : CoreId} {st : StrandId} {h : Hdr} {sp : ObjSpace} {d a : XReg}

/-- A read of an object is on its way to its unit (R74, R182, R201). -/
def State.SendsRead (s t : State) (q : Strand) (c : CoreId) (st : StrandId) (sp : ObjSpace) (d : XReg) (pl : MemUnit × Nat) (poll : Nat) : Prop :=
  let lat := readLat c sp pl.1
  let w : Work := .objRead c st (s.strand c st).ord (s.strand c st).seq pl.1 pl.2 poll d (s.unitPrio c st pl.1 lat)
  (∀ k, pl.1 = .ls k → s.Sends t q c st (s.strand c st).seq false [] lat (s.unitPrio c st pl.1 lat) w) ∧
  ((∀ k, pl.1 ≠ .ls k) → s.SendsFar t q c st (s.strand c st).seq false lat w)

theorem State.SendsRead.mono {t t' : State} {pl : MemUnit × Nat} {poll : Nat} (b : s.SendsRead t q c st sp d pl poll)
    (hp : ∀ k d p w, t.Pending k d p w → t'.Pending k d p w) : s.SendsRead t' q c st sp d pl poll :=
  ⟨fun k e => (b.1 k e).mono hp, fun e => (b.2 e).mono hp⟩

theorem State.sendTo_far {u : Turn} {unit : MemUnit} (hu : ∀ k, unit ≠ .ls k) {seq lat : Nat} {storing : Bool} {w : Work} :
    v.sendTo u unit seq lat storing w = v.dispatch u.c u.st u.ord seq storing [] lat effects true w := by
  cases unit with
  | ls k => exact absurd rfl (hu k)
  | gm => rfl
  | xm dev => rfl

theorem readPrio_eq (r : Req) (unit : MemUnit) (lat : Nat) : readPrio (s.turn c st h r) (s.dt c) unit lat = s.unitPrio c st unit lat := rfl

/-- Sending a read of an object changes nothing that the machine stores, and nothing of the strand. -/
theorem State.sendTo_reads {x : State} (contents : x.contents = s.contents) (queue : x.queueOf c st = s.queueOf c st)
    (holds : (x.strand c st).holds = q.holds) (due : (x.strand c st).due = q.due) (r : Req) (pl : MemUnit × Nat) (poll : Nat) :
    let lat := readLat c sp pl.1
    let t := x.sendTo (s.turn c st h r) pl.1 (s.strand c st).seq lat false
      (.objRead c st (s.strand c st).ord (s.strand c st).seq pl.1 pl.2 poll d (s.unitPrio c st pl.1 lat))
    t.storage = x.storage ∧ t.strand c st = x.strand c st ∧ s.SendsRead t q c st sp d pl poll := by
  intro lat t
  let w : Work := .objRead c st (s.strand c st).ord (s.strand c st).seq pl.1 pl.2 poll d (s.unitPrio c st pl.1 lat)
  have same : x.Free (x.strand c st) c st [] = s.Free q c st [] := by
    unfold State.Free
    rw [holds, due, queue]
  have near (k : CoreId) (hu : pl.1 = .ls k) : t = x.dispatch c st (s.strand c st).ord (s.strand c st).seq false [] lat (s.unitPrio c st pl.1 lat) false w := by
    simp only [t, State.sendTo, hu, State.unitPrio, State.turn_c, State.turn_st, State.turn_ord, State.contents_dt contents, w]
  have far (hu : ∀ k, pl.1 ≠ .ls k) : t = x.dispatch c st (s.strand c st).ord (s.strand c st).seq false [] lat effects true w :=
    State.sendTo_far hu
  have kept : t.storage = x.storage ∧ t.strand c st = x.strand c st := by
    by_cases hu : ∃ k, pl.1 = .ls k
    · obtain ⟨k, hu⟩ := hu
      rw [near k hu]
      exact ⟨State.dispatch_storage .., State.dispatch_strand ..⟩
    · rw [far fun k e => hu ⟨k, e⟩]
      exact ⟨State.dispatch_storage .., State.dispatch_strand ..⟩
  refine ⟨kept.1, kept.2, fun k hu => ?_, fun hu => ?_⟩
  · rw [near k hu]
    obtain ⟨-, -, -, free, -, held⟩ := x.dispatch_spec c st (s.strand c st).ord (s.strand c st).seq false [] lat (s.unitPrio c st pl.1 lat) false w
    rw [same, State.contents_clock contents, State.contents_now contents] at free held
    exact ⟨fun f => free f rfl, held⟩
  · rw [far hu]
    exact State.sendsFar_of ⟨State.contents_hc contents, State.contents_clock contents c st, State.contents_now contents c st⟩ holds due queue

/-- The place of an object that an issue names in GM is looked up. -/
theorem State.Sending.looks (b : s.Sending v q c st) (unit : MemUnit) (ad : Nat) :
    let t := if unit = .gm then v.touch c ad else v
    s.Sending t q c st ∧ t.strand c st = v.strand c st ∧ (unit ≠ .gm → t.storage = v.storage) := by
  intro t
  unfold t
  split
  · next e => exact ⟨b.touch ad, (v.touch_spec c ad).2.1 c st, fun n => absurd e n⟩
  · exact ⟨b, rfl, fun _ => rfl⟩

/-- A wait on an object without a fault. -/
theorem objWait_spec {size cls cond : Nat} {arg : Word} {limit : Option Nat} {acq : Bool} (hi : s.Issues c st h { writes := true })
    (hf : s.objFault c st sp (s.x c st a).toNat size false .atomic = none) :
    let r : Req := { writes := true }
    let ad := (s.x c st a).toNat
    let pl := s.objPlace c sp ad .atomic
    ∃ t w, objWait h sp d a size cls cond arg limit acq s = .next t ∧ s.Advanced t c st ∧ t.contents = s.contents ∧
      (pl.1 ≠ .gm → t.storage = s.storage) ∧ s.WaitsFor t c st h (.object cls sp ad arg limit) d ∧
      (t.strand c st).wait = some w ∧ w.cond = cond ∧ w.acq = acq ∧ w.seq = (s.strand c st).seq ∧ w.unit = pl.1 ∧ w.pa = pl.2 ∧ w.linked = false ∧
      (t.strand c st).seq = (s.strand c st).seq + 1 ∧ s.SendsRead t ((s.issued c st h r).strand c st) c st sp d pl 0 := by
  intro r ad pl
  let x := s.issued c st h r
  let u := s.turn c st h r
  let why : Why := .object cls sp ad arg limit
  let w : Wait := { u.waitOf (x.strand c st) why d acq cond with unit := pl.1, pa := pl.2 }
  let v1 := (x.waitFor u why d acq cond).updStrand c st fun t => { t with wait := t.wait.map fun w => { w with unit := pl.1, pa := pl.2 } }
  let v := if pl.1 = .gm then v1.touch c ad else v1
  let z := v.access c st acq pl.1 (if pl.1 = .gm then [(ad, 32)] else [])
  have waited : v1.strand c st = { x.strand c st with wait := some w } := by
    simp only [v1, State.strand_updStrand, u, State.waitFor_strand]
    rfl
  have stored1 : v1.storage = s.storage :=
    (State.storage_updStrand _ _ _ _ rfl).trans ((State.waitFor_storage ..).trans (s.issued_storage c st h r))
  have first : s.Sending v1 (x.strand c st) c st := ⟨State.contents_of_storage stored1, State.queueOf_of_cal (s.issued_cal c st h r) c st,
    (congrArg Strand.seq waited).trans (s.issued_seq c st h r), (congrArg Strand.holds waited :), (congrArg Strand.due waited :)⟩
  obtain ⟨b, own, stored⟩ := first.looks pl.1 ad
  change s.Sending v (x.strand c st) c st at b
  let o : Out := ⟨(s.strand c st).seq, acq, false, pl.1, v.sampling (v.core c).asid (if pl.1 = .gm then [(ad, 32)] else [])⟩
  have at' : z.strand c st = { x.strand c st with wait := some w, seq := (s.strand c st).seq + 1, outs := (x.strand c st).outs ++ [o] } :=
    (State.strand_updStrand ..).trans (by rw [show v.strand c st = _ from own.trans waited, s.issued_seq c st h r])
  have kept : z.storage = v.storage := State.access_storage ..
  obtain ⟨sameZ, ownZ, sends⟩ := State.sendTo_reads (h := h) (sp := sp) (d := d) (q := x.strand c st) (x := z)
    ((State.contents_of_storage kept).trans b.contents) b.queue (congrArg Strand.holds at' :) (congrArg Strand.due at' :) r pl 0
  have step : objWait h sp d a size cls cond arg limit acq s = .next (z.sendTo u pl.1 (s.strand c st).seq (readLat c sp pl.1) false
      (.objRead c st (s.strand c st).ord (s.strand c st).seq pl.1 pl.2 0 d (s.unitPrio c st pl.1 (readLat c sp pl.1)))) := by
    have seq : (x.strand c st).seq = (s.strand c st).seq := s.issued_seq c st h r
    have dt : v.dt c = s.dt c := State.contents_dt b.contents c
    unfold objWait
    rw [hi.reg, hi.me, ← readPrio_eq (h := h) r, ← dt, ← seq]
    exact issue_when hi hf rfl rfl rfl rfl rfl _
  have whole := ownZ.trans at'
  refine ⟨_, w, step, (s.issued_advanced c st h r rfl).of_eq whole ⟨rfl, rfl, rfl, rfl, rfl, rfl⟩,
    (State.contents_of_storage (sameZ.trans kept)).trans b.contents, fun n => sameZ.trans (kept.trans ((stored n).trans stored1)),
    ⟨w, congrArg Strand.wait whole, rfl, rfl, ?_, rfl, rfl, rfl, rfl, rfl⟩, congrArg Strand.wait whole, rfl, rfl, s.issued_seq c st h r, rfl, rfl, rfl,
    congrArg Strand.seq whole, sends⟩
  show boundOf h (x.strand c st) = boundOf h (s.strand c st)
  rw [boundOf, boundOf, show (x.strand c st).sbound = (s.strand c st).sbound from (State.storage_regs (s.issued_storage c st h r) c st).sbound]

/-- A poll of an object without a fault. -/
theorem objPoll_spec {size poll : Nat} (hi : s.Issues c st h { writes := true })
    (hf : s.objFault c st sp (s.x c st a).toNat size true .read = none) (ord : Option Scope) :
    let r : Req := { writes := true }
    let ad := (s.x c st a).toNat
    let pl := s.objPlace c sp ad .read
    ∃ t, objPoll h sp d a size poll ord s = .next t ∧ s.Advanced t c st ∧ t.contents = s.contents ∧ (pl.1 ≠ .gm → t.storage = s.storage) ∧
      (t.strand c st).seq = (s.strand c st).seq + 1 ∧
      s.Flies t c st (readLat c sp pl.1 + (unitDelay c sp pl.1).getD 2) (s.resultOf c st h (xResult (s.strand c st).level d 0)) false false ∧
      s.SendsRead t ((s.issued c st h r).strand c st) c st sp d pl poll ∧
      (ord = none → (t.strand c st).holds = (s.strand c st).holds) ∧
      (∀ sc, ord = some sc → ∃ o, (t.strand c st).holds = (s.strand c st).holds ++ [o] ∧ o.start = (s.strand c st).seq + 1 ∧ o.stores = false) := by
  intro r ad pl
  let x := s.issued c st h r
  let u := s.turn c st h r
  let wr := readLat c sp pl.1 + (unitDelay c sp pl.1).getD 2
  let res := s.resultOf c st h (xResult (s.strand c st).level d 0)
  obtain ⟨b, own, stored⟩ := (State.Sending.issued s c st h r).looks pl.1 ad
  let v := if pl.1 = .gm then x.touch c ad else x
  change s.Sending v (x.strand c st) c st at b
  change v.strand c st = x.strand c st at own
  let y := v.access c st true pl.1 (if pl.1 = .gm then [(ad, 32)] else [])
  let z := y.fly c st wr res false false
  let o : Out := ⟨(s.strand c st).seq, true, false, pl.1, v.sampling (v.core c).asid (if pl.1 = .gm then [(ad, 32)] else [])⟩
  have seq : (x.strand c st).seq = (s.strand c st).seq := s.issued_seq c st h r
  have accessed : y.strand c st = { x.strand c st with seq := (s.strand c st).seq + 1, outs := (x.strand c st).outs ++ [o] } :=
    (State.strand_updStrand ..).trans (by rw [own, seq])
  have keptY : y.storage = v.storage := State.access_storage ..
  have contentsY := (State.contents_of_storage keptY).trans b.contents
  obtain ⟨flown, keptZ, -, -⟩ := y.fly_spec c st wr res false false
  have contentsZ : z.contents = s.contents := (State.contents_of_storage keptZ).trans contentsY
  have flies : s.Flies z c st wr res false false := State.flies_from
    ((congrArg Strand.flights accessed :).trans (s.issued_flights c st h r)) ((congrArg Strand.level accessed :).trans (s.issued_level c st h r))
    (State.contents_clock contentsY c st) (State.contents_now contentsY c st) rfl
  obtain ⟨fl, whole⟩ : ∃ fl, z.strand c st =
      { x.strand c st with seq := (s.strand c st).seq + 1, outs := (x.strand c st).outs ++ [o], flights := fl } := ⟨_, by rw [flown, accessed]⟩
  obtain ⟨sameT, ownT, sends⟩ := State.sendTo_reads (h := h) (sp := sp) (d := d) (q := x.strand c st) (x := z)
    contentsZ b.queue (congrArg Strand.holds whole :) (congrArg Strand.due whole :) r pl poll
  have step : objPoll h sp d a size poll ord s = .next ((z.sendTo u pl.1 (s.strand c st).seq (readLat c sp pl.1) false
      (.objRead c st (s.strand c st).ord (s.strand c st).seq pl.1 pl.2 poll d (s.unitPrio c st pl.1 (readLat c sp pl.1)))).ordFence u .acq ord) := by
    unfold objPoll
    rw [hi.reg, hi.me, ← readPrio_eq (h := h) r, ← State.contents_dt contentsZ c, ← seq]
    exact issue_when hi hf rfl rfl rfl rfl rfl _
  let t1 := z.sendTo u pl.1 (s.strand c st).seq (readLat c sp pl.1) false
      (.objRead c st (s.strand c st).ord (s.strand c st).seq pl.1 pl.2 poll d (s.unitPrio c st pl.1 (readLat c sp pl.1)))
  have fenced : (t1.ordFence u .acq ord).strand c st = { t1.strand c st with holds := (t1.strand c st).holds ++ t1.orderHolds c st .acq ord } :=
    t1.ordFence_strand u .acq ord
  have keptT : (t1.ordFence u .acq ord).storage = v.storage := (State.ordFence_storage ..).trans (sameT.trans (keptZ.trans keptY))
  have at' : (t1.ordFence u .acq ord).strand c st = { x.strand c st with
      seq := (s.strand c st).seq + 1, outs := (x.strand c st).outs ++ [o], flights := fl
      holds := (x.strand c st).holds ++ t1.orderHolds c st .acq ord } := by
    rw [fenced, show t1.strand c st = _ from ownT.trans whole]
  have holds : ((t1.ordFence u .acq ord).strand c st).holds = (s.strand c st).holds ++ t1.orderHolds c st .acq ord :=
    (congrArg Strand.holds at' :).trans (congrArg (· ++ _) (s.issued_holds c st h r))
  refine ⟨_, step, (s.issued_advanced c st h r rfl).of_eq at' ⟨rfl, rfl, rfl, rfl, rfl, rfl⟩,
    (State.contents_of_storage keptT).trans b.contents, fun n => keptT.trans ((stored n).trans (s.issued_storage c st h r)),
    (congrArg Strand.seq at' :), ⟨flies.flight.imp fun _ g => ⟨g.1, ?_⟩, nofun⟩, sends.mono fun _ _ _ _ hp => hp.ordFence u .acq ord, fun e => ?_, fun sc e => ?_⟩
  · exact (congrArg Strand.flights at' :).trans ((congrArg Strand.flights whole :).symm.trans g.2)
  · subst e
    exact holds.trans (List.append_nil _)
  · subst e
    exact ⟨t1.orderHold c st .acq sc, holds, (congrArg Strand.seq (ownT.trans whole) :), rfl⟩

end Issue

/-! ### The read of an object in a scratchpad -/

section Read

variable {s : State} {c k : CoreId} {st : StrandId} {ord seq pa poll prio : Nat} {d : XReg}

/-- The machine after a read at its bank: the bank is used in this cycle and the access has performed. -/
def State.readDone (s : State) (c : CoreId) (st : StrandId) (k : CoreId) (seq pa : Nat) : State :=
  (s.updCore k fun l => { l with used := [bankOf pa] ++ l.used }).accessDone c st seq

theorem State.readDone_core (e : CoreId) : ((s.readDone c st k seq pa).core e).ls = (s.core e).ls ∧ ((s.readDone c st k seq pa).core e).task = (s.core e).task := by
  obtain ⟨ls, task⟩ := (s.updCore k fun l => { l with used := [bankOf pa] ++ l.used }).ls_updStrand c st
    (fun t => { t with outs := t.outs.filter fun o => o.seq != seq }) e
  by_cases h : e = k
  · subst h
    rw [State.core_updCore] at ls task
    exact ⟨ls, task⟩
  · rw [State.core_updCore_ne _ _ h] at ls task
    exact ⟨ls, task⟩

theorem State.readDone_strand : (s.readDone c st k seq pa).strand c st =
    { s.strand c st with outs := (s.strand c st).outs.filter fun o => o.seq != seq } := by
  have kept : (s.updCore k fun l => { l with used := [bankOf pa] ++ l.used }).strand c st = s.strand c st := by
    by_cases h : c = k
    · subst h
      rw [State.strand, State.core_updCore]
      rfl
    · rw [State.strand, State.core_updCore_ne _ _ h]
      rfl
  rw [State.readDone, State.accessDone, State.strand_updStrand, kept]

/-- The read reaches its object when its bank is free and no older access of its strand has still to come. -/
theorem State.readObject_granted (bank : bankOf pa ∉ (s.core k).used)
    (fresh : s.crosses (s.clock c st) c st seq k ((List.range 32).map (pa + ·)) false = false) :
    let v := s.readDone c st k seq pa
    s.readObject c st ord seq (.ls k) pa poll d prio =
      if poll ≠ 0 then
        v.arrive c st ord ((if poll = 1 then BitVec.ofNat 64 (Word.bits (v.word ⟨.ls k, pa⟩ 8) 0 32 * 2 ^ 32 + Word.bits (v.word ⟨.ls k, pa⟩ 16) 16 8 * 2 ^ 16 +
          Word.bits (v.word ⟨.ls k, pa⟩ 16) 0 16) else v.word ⟨.ls k, pa⟩ 0).setWidth 2048) 0 none
      else if (match (v.strand c st).wait with | some w => w.cond == 8 | none => false) then v.judgeWait c st ord (.ls k) pa
      else v.post .hc v.hc judgePrio (.objJudge c st ord (.ls k) pa) := by
  have granted : s.grant k [bankOf pa] = some (s.updCore k fun l => { l with used := [bankOf pa] ++ l.used }) := by
    rw [State.grant, if_neg (by simpa using bank)]
  simp only [State.readObject, State.readUnit, fresh, granted] 
  rfl

end Read

/-! ### Judging a wait -/

theorem Word.bits_eq (w : Word) (lo n : Nat) : Word.bits w lo n = (w.extractLsb' lo n).toNat := by
  simp [Word.bits, bitsAt, Nat.shiftRight_eq_div_pow]

/-- A phase has been reached when the signed difference of the two is not below 0 (R111). -/
theorem phaseReached_iff (ph arg : Word) : phaseReached (Word.bits ph 0 16) (Word.bits arg 0 16) = true ↔
    0 ≤ (ph.extractLsb' 0 16 - arg.extractLsb' 0 16).toInt := by
  have hb := (arg.extractLsb' 0 16).isLt
  rw [BitVec.toInt_eq_toNat_cond, BitVec.toNat_sub, phaseReached, decide_eq_true_iff, Word.bits_eq, Word.bits_eq]
  split <;> omega

/-- A semaphore wait is satisfied by its count or by ERR (R273). -/
theorem semCond_iff (v arg : Word) : semCond v (Word.bits arg 0 32) = true ↔ arg.toNat % 2 ^ 32 ≤ v.toNat % 2 ^ 32 ∨ v.extractLsb' 32 8 ≠ 0 := by
  simp only [semCond, Word.bits_eq v 32, Bool.or_eq_true, decide_eq_true_iff, bne_iff_ne, ne_eq, ← BitVec.toNat_inj]
  simp [Word.bits, bitsAt]

/-- The object meets the condition of a wait (R111, R200, R203, R273). -/
def objectMeets (cond : Nat) (ph v arg : Word) : Bool :=
  if cond = 9 then phaseReached (Word.bits ph 0 16) (Word.bits arg 0 16)
  else if cond = 8 then false
  else if cond = 10 then semCond v (Word.bits arg 0 32)
  else waitCond cond v arg

theorem objectMeets_iff {cond : Nat} (ph v arg : Word) (h : cond ≤ 10) : objectMeets cond ph v arg = true ↔
    (cond = 9 ∧ 0 ≤ (ph.extractLsb' 0 16 - arg.extractLsb' 0 16).toInt) ∨
    (cond = 10 ∧ (arg.toNat % 2 ^ 32 ≤ v.toNat % 2 ^ 32 ∨ v.extractLsb' 32 8 ≠ 0)) ∨ (cond = 0 ∧ v = arg) ∨ (cond = 1 ∧ v ≠ arg) ∨
    (cond = 2 ∧ arg.toNat ≤ v.toNat) ∨ (cond = 3 ∧ v.toNat < arg.toNat) ∨ (cond = 4 ∧ arg.toInt ≤ v.toInt) ∨
    (cond = 5 ∧ v.toInt < arg.toInt) ∨ (cond = 6 ∧ v &&& arg ≠ 0) ∨ (cond = 7 ∧ v &&& arg = 0) := by
  match cond, h with
  | 9, _ => simp [objectMeets, phaseReached_iff]
  | 10, _ => simpa [objectMeets] using semCond_iff v arg
  | 0, _ => simp [objectMeets, waitCond]
  | 1, _ => simp [objectMeets, waitCond]
  | 2, _ => simp [objectMeets, waitCond, BitVec.ult]
  | 3, _ => simp [objectMeets, waitCond, BitVec.ult]
  | 4, _ => simp [objectMeets, waitCond, BitVec.slt]
  | 5, _ => simp [objectMeets, waitCond, BitVec.slt]
  | 6, _ => simp [objectMeets, waitCond]
  | 7, _ => simp [objectMeets, waitCond]
  | 8, _ => simp [objectMeets]

section Judge

variable {s : State} {c k : CoreId} {st : StrandId} {pa cls a : Nat} {w : Wait} {sp : ObjSpace} {arg : Word} {lim : Option Nat}

/-- A wait on an object in a scratchpad is judged by its words. -/
theorem State.judgeWait_eq (hw : (s.strand c st).wait = some w) (hy : w.why = .object cls sp a arg lim) :
    s.judgeWait c st w.ord (.ls k) pa =
      if objectMeets w.cond (s.word ⟨.ls k, pa⟩ 16) (s.word ⟨.ls k, pa⟩ 0) arg then
        s.later c st 0 latePrio (.ev (.waitRelease c st w.ord (if w.cond = 9 then s.barrierValue ⟨.ls k, pa⟩ 0 else s.word ⟨.ls k, pa⟩ 0)))
      else (s.link ⟨.ls k, pa⟩ (if w.cond = 9 then 24 else 8) (waiterId c st) (if w.cond < 8 then w.cond else 0) arg).updStrand c st
        fun t => { t with wait := t.wait.map fun w => { w with linked := true } } := by
  simp only [State.judgeWait, hw, hy, ne_eq, not_true_eq_false, if_false, objectMeets]
  rfl

end Judge

/-- Settles O45. -/
theorem objectWaitsAndPollsReadTheirObject : Obligations.ObjectWaitsAndPollsReadTheirObject := by
  refine ⟨?read, ?judge, ?issue⟩
  case read =>
    intro s c k st ord seq pa prio d bank fresh at' reads
    let v := s.readDone c st k seq pa
    have own := s.readDone_strand (c := c) (k := k) (st := st) (seq := seq) (pa := pa)
    have step (poll : Nat) : s.runWork exec (reads poll) = .next (s.readObject c st ord seq (.ls k) pa poll d prio) := rfl
    have word (o : Nat) : v.word ⟨.ls k, pa⟩ o = at' o := congrArg (fun m : Mem => m.word (pa + o)) (s.readDone_core k).1
    refine ⟨?poll, ?wait⟩
    case poll =>
      intro f poll hf hp v1
      have found : (v.strand c st).flight ord = some f := (congrArg (Strand.flight · ord) own).trans hf
      have bid : v.bidOf c = s.bidOf c := by rw [State.bidOf, (s.readDone_core c).2]; rfl
      have value : (if poll = 1 then BitVec.ofNat 64 (Word.bits (v.word ⟨.ls k, pa⟩ 8) 0 32 * 2 ^ 32 + Word.bits (v.word ⟨.ls k, pa⟩ 16) 16 8 * 2 ^ 16 +
          Word.bits (v.word ⟨.ls k, pa⟩ 16) 0 16) else v.word ⟨.ls k, pa⟩ 0) = (if poll = 1 then v1 else at' 0) := by
        simp only [word, Word.bits_eq, v1]
      obtain ⟨flight, pending, gm, ls⟩ := State.arrive_spec (data := (if poll = 1 then v1 else at' 0).setWidth 2048) (flags := 0) (poison := none) found
      refine ⟨_, _, (step poll).trans ?_, flight, rfl, rfl, rfl, bid ▸ pending, gm, fun e => (ls e).trans (s.readDone_core e).1⟩
      rw [State.readObject_granted bank fresh, if_pos (by omega), ← value]
    case wait =>
      intro w hw hc
      have waits : (v.strand c st).wait = some w := (congrArg Strand.wait own :).trans hw
      refine ⟨v.post .hc v.hc judgePrio (.objJudge c st ord (.ls k) pa), (step 0).trans ?_, ⟨v.order, List.mem_cons_self⟩, waits, rfl, fun e => (s.readDone_core e).1⟩
      rw [State.readObject_granted bank fresh, if_neg (by simp), waits]
      simp [hc, v]
  case judge =>
    intro s c k st pa w cls a sp arg lim hw hy v ph ahead done
    have met : w.cond ≤ 10 → (objectMeets w.cond (s.word ⟨.ls k, pa⟩ 16) (s.word ⟨.ls k, pa⟩ 0) arg = true ↔ done) := objectMeets_iff ph v arg
    have step : s.runWork exec (.objJudge c st w.ord (.ls k) pa) = .next _ := congrArg Host.Outcome.next (State.judgeWait_eq hw hy)
    refine ⟨fun h d => ?_, fun h d => ?_⟩
    · rw [if_pos ((met h).2 d)] at step
      exact ⟨_, step, ⟨s.order, List.mem_cons_self⟩, rfl, fun _ => rfl⟩
    · rw [if_neg fun e => d ((met h).1 e)] at step
      have bytes := OnlyBytes.link s ⟨.ls k, pa⟩ (if w.cond = 9 then 24 else 8) (waiterId c st) (if w.cond < 8 then w.cond else 0) arg
      refine ⟨_, _, step, ?_, rfl, bytes.cal⟩
      rw [State.strand_updStrand, bytes.strand, hw]
      rfl
  case issue =>
    intro s c st h sp d a b cond ord lim acq hi t0 q ad y sent waits polls
    have sends (t : State) (sp : ObjSpace) (pl : MemUnit × Nat) (poll : Nat) (b : s.SendsRead t q c st sp d pl poll) : sent t sp pl poll := by
      cases hu : pl.1 <;> simp only [State.SendsRead, State.unitPrio, readLat, hu] at b <;> simp only [sent, hu] <;> exact b
    have waits' (sp : ObjSpace) (i : Instr) (size cls cnd : Nat) (arg : Word) (limit : Option Nat) (acq : Bool)
        (hx : exec i s = objWait h sp d a size cls cnd arg limit acq s) : waits sp i size cls cnd arg limit acq := by
      dsimp -zeta only [waits]
      intro pl hf
      obtain ⟨t, w, step, advanced, contents, stored, wait, found, hc, ha, hs, hu, hp, hl, seq, read⟩ :=
        objWait_spec (d := d) (cls := cls) (cond := cnd) (arg := arg) (limit := limit) (acq := acq) hi hf
      exact ⟨t, w, hx.trans step, advanced, contents, stored, wait, found, hc, ha, hs, hu, hp, hl, seq, sends t sp pl 0 read⟩
    have polls' (i : Option Scope → Instr) (size kind : Nat) (hx : exec (i ord) s = objPoll h sp d a size kind ord s) : polls i size kind := by
      dsimp -zeta only [polls]
      intro pl hf
      obtain ⟨t, step, advanced, contents, stored, seq, flies, read, free, held⟩ := objPoll_spec (d := d) (poll := kind) hi hf ord
      refine ⟨t, hx.trans step, advanced, contents, stored, seq, fun k e => ?near, fun n => ?far, sends t sp pl kind read, free, held⟩
      case near =>
        rw [show pl.1 = .ls k from e] at flies
        have late : readLat c sp (.ls k) + (unitDelay c sp (.ls k)).getD 2 = if sp = .ls then 4 else 20 + 8 * hops c k := by
          simp only [readLat, unitDelay, Option.getD_some]
          split <;> omega
        exact late ▸ flies
      case far =>
        have late : readLat c sp pl.1 + (unitDelay c sp pl.1).getD 2 = 2 := by
          cases hu : pl.1 with
          | ls k => exact absurd hu (n k)
          | gm => rfl
          | xm dev => rfl
        exact late ▸ flies
    refine ⟨waits' sp _ 32 2 9 _ none _ ?_, waits' sp _ 32 2 9 _ _ _ ?_, waits' sp _ 16 3 _ _ none _ ?_, waits' sp _ 16 3 8 0 none _ ?_,
      waits' .gm _ 16 3 10 _ none _ ?_, polls' _ 32 1 ?_, polls' _ 16 2 ?_⟩
    · simp only [exec.eq_def, execBwait, hi.reg, Word.bits, bitsAt, Nat.pow_zero, Nat.div_one, y]
    · simp only [exec.eq_def, execBwaitt, hi.reg, Word.bits, bitsAt, Nat.pow_zero, Nat.div_one, y]
    · simp only [exec.eq_def, execWwait, hi.reg, y]
    · simp only [exec.eq_def, execWqwait]
    · simp only [exec.eq_def, execNwait, hi.reg, Word.bits, bitsAt, Nat.pow_zero, Nat.div_one, y]
    · rfl
    · rfl

end Sys2Proof.Machine

/-! The copy unit accepts copies and collectives (R192 to R197, R206, R207), and the accession instructions (R210, R211). -/

namespace Sys2Proof.Machine

/-! ### What the copy unit leaves alone -/

/-- A copy as it was accepted, without its progress. -/
def Copy.operands (p : Copy) : Copy :=
  { p with entry := 0, left := [], chunk := 0, words := none, filled := false, stopped := false, owes := [] }

/-- A core's contents without its copies, its scratchpad and its flue plan. -/
def Core.still (k : Core) : Core := { k.contents with copies := [], ls := [], flueFree := Vector.replicate 4 0 }

/-- What the copy unit may do with a copy that it holds: copies progress, work is posted, barriers count; the rest of every core stays, and unless a
barrier is counted no byte changes. -/
structure State.Progresses (quiet : Prop) (s t : State) : Prop where
  strand : ∀ e q, { t.strand e q with ipend := none } = { s.strand e q with ipend := none }
  copies : ∀ e, (t.core e).copies.map Copy.operands = (s.core e).copies.map Copy.operands
  still : ∀ e, (t.core e).still = (s.core e).still
  pending : ∀ k d p w, s.Pending k d p w → t.Pending k d p w
  bytes : quiet → t.gm = s.gm ∧ ∀ e, (t.core e).ls = (s.core e).ls

section Progresses

variable {s t u : State} {quiet : Prop}

theorem State.Progresses.refl (s : State) : s.Progresses quiet s := ⟨fun _ _ => rfl, fun _ => rfl, fun _ => rfl, fun _ _ _ _ h => h, fun _ => ⟨rfl, fun _ => rfl⟩⟩

theorem State.Progresses.trans (a : s.Progresses quiet t) (b : t.Progresses quiet u) : s.Progresses quiet u :=
  ⟨fun e q => (b.strand e q).trans (a.strand e q), fun e => (b.copies e).trans (a.copies e), fun e => (b.still e).trans (a.still e),
    fun k d p w h => b.pending k d p w (a.pending k d p w h),
    fun h => ⟨(b.bytes h).1.trans (a.bytes h).1, fun e => ((b.bytes h).2 e).trans ((a.bytes h).2 e)⟩⟩

/-- Without a change of cores or of HBM. -/
theorem State.Progresses.of_cores (hc : t.cores = s.cores) (hg : t.gm = s.gm) (hp : ∀ d ∈ s.cal, d ∈ t.cal) : s.Progresses quiet t := by
  have core (e : CoreId) : t.core e = s.core e := by simp only [State.core, hc]
  exact ⟨fun e q => by simp only [State.strand, core], fun e => by rw [core], fun e => by rw [core], fun k d p w h => h.imp fun _ m => hp _ m,
    fun _ => ⟨hg, fun e => by rw [core]⟩⟩

theorem State.Progresses.post (s : State) (k : Clock) (d p : Nat) (w : Work) : s.Progresses quiet (s.post k d p w) :=
  .of_cores rfl rfl fun _ h => List.mem_cons_of_mem _ h

theorem State.Progresses.laterOn (s : State) (k : Clock) (d p : Nat) (w : Work) : s.Progresses quiet (s.laterOn k d p w) := .post s _ _ _ _

theorem State.Progresses.sometime (s : State) (w : Work) (p : Nat) : s.Progresses quiet (s.sometime w p) :=
  .of_cores rfl rfl fun _ h => List.mem_cons_of_mem _ h

/-- A change of one core that keeps all but the progress of its copies. -/
theorem State.Progresses.updCore (s : State) (c : CoreId) (f : Core → Core) (h1 : (f (s.core c)).strands = (s.core c).strands)
    (h2 : (f (s.core c)).copies.map Copy.operands = (s.core c).copies.map Copy.operands) (h3 : (f (s.core c)).still = (s.core c).still)
    (h4 : (f (s.core c)).ls = (s.core c).ls) : s.Progresses quiet (s.updCore c f) := by
  refine ⟨fun e q => ?_, fun e => ?_, fun e => ?_, fun _ _ _ _ h => h, fun _ => ⟨rfl, fun e => ?_⟩⟩ <;> by_cases h : e = c
  · subst h; simp only [State.strand, Core.strand, State.core_updCore, h1]
  · simp only [State.strand, State.core_updCore_ne _ _ h]
  · subst h; rw [State.core_updCore, h2]
  · rw [State.core_updCore_ne _ _ h]
  · subst h; rw [State.core_updCore, h3]
  · rw [State.core_updCore_ne _ _ h]
  · subst h; rw [State.core_updCore, h4]
  · rw [State.core_updCore_ne _ _ h]

/-- A copy progresses. -/
theorem State.Progresses.updCopy (s : State) (c : CoreId) (id : Nat) (f : Copy → Copy) (hf : ∀ p, (f p).operands = p.operands) :
    s.Progresses quiet (s.updCopy c id f) := by
  refine .updCore s c _ rfl ?_ rfl rfl
  simp only [List.map_map]
  refine List.map_congr_left fun p _ => ?_
  simp only [Function.comp_apply]
  split
  · exact hf p
  · rfl

/-- A translation that is looked up. -/
theorem State.Progresses.touch (s : State) (c : CoreId) (va : Nat) : s.Progresses quiet (s.touch c va) := by
  obtain ⟨contents, strand, cal, -⟩ := s.touch_spec c va
  have core (e : CoreId) : ((s.touch c va).core e).contents = (s.core e).contents := State.contents_core contents e
  exact ⟨fun e q => by rw [strand], fun e => congrArg (·.map Copy.operands) (congrArg Core.copies (core e) :),
    fun e => (congrArg (fun k : Core => { k with copies := [], ls := [], flueFree := Vector.replicate 4 0 }) (core e) :),
    fun k d p w h => by rw [State.Pending, cal]; exact h, fun _ => ⟨State.contents_gm contents, fun e => (congrArg Core.ls (core e) :)⟩⟩

/-- A strand's pending interrupt is discarded. -/
theorem State.Progresses.dropInterrupt (s : State) (c : CoreId) (st : StrandId) : s.Progresses quiet (s.dropInterrupt c st) := by
  unfold State.dropInterrupt
  split
  · next p h =>
    have noted : s.Progresses quiet (s.discarded c st p) := .of_cores rfl rfl fun _ h => h
    refine noted.trans ⟨fun e q => ?_, fun e => ?_, fun e => ?_, fun _ _ _ _ h => h, fun _ => ⟨rfl, fun e => (State.ls_updStrand _ c st _ e).1⟩⟩
    · by_cases h : (e, q) = (c, st)
      · obtain ⟨rfl, rfl⟩ := Prod.mk.inj h
        rw [State.strand_updStrand]
      · rw [State.strand_updStrand_ne _ _ h]
    · by_cases h : e = c
      · subst h; simp only [State.updStrand, State.core_updCore]; rfl
      · simp only [State.updStrand, State.core_updCore_ne _ _ h]
    · have := State.contents_core (State.contents_of_storage (State.storage_updStrand (s.discarded c st p) c st (fun t => { t with ipend := none }) rfl)) e
      exact (congrArg (fun k : Core => { k with copies := [], ls := [], flueFree := Vector.replicate 4 0 }) this :)
  · exact .refl s

/-- A binding's end is noted. -/
theorem State.Progresses.endBinding (s : State) (bid status : Nat) : s.Progresses quiet (s.endBinding bid status) := by
  have noted : s.Progresses quiet (s.updBinding bid fun b => { b with status := b.status.or (some status) }) := .of_cores rfl rfl fun _ h => h
  unfold State.endBinding
  simp only []
  split
  · exact noted
  · refine foldl_keeps (P := fun v : State => s.Progresses quiet v) _ (fun v c hv => ?_) _ _ noted
    split
    · exact hv
    · exact foldl_keeps (P := fun v : State => s.Progresses quiet v) _ (fun w st hw => hw.trans (.dropInterrupt w c st)) _ _ hv

/-- Words of memory change. -/
theorem State.Progresses.of_bytes (h : OnlyBytes s t) : s.Progresses False t :=
  ⟨fun e q => by rw [h.strand], fun e => congrArg (·.map Copy.operands) (congrArg Core.copies (h.core e) :),
    fun e => (congrArg Core.still (h.core e) :), fun k d p w g => by rw [State.Pending, h.cal]; exact g, False.elim⟩

/-- The place of a barrier is looked up. -/
theorem State.Progresses.barrierPlace (s : State) (c : CoreId) (b : ObjSpace × Nat) : s.Progresses quiet (s.barrierPlace c b).1 := by
  unfold State.barrierPlace
  split
  · exact .refl s
  · exact .refl s
  · split
    · exact .touch s c b.2
    · exact .touch s c b.2
    · exact .refl s
  · simp only []
    split
    · split <;> exact .refl s
    · split
      · exact .endBinding s _ _
      · exact .of_cores rfl rfl fun _ h => h

/-- Bytes are announced to barriers. -/
theorem State.Progresses.announce (s : State) (c : CoreId) (bs : List ((ObjSpace × Nat) × Nat)) : s.Progresses False (s.announce c bs).1 := by
  unfold State.announce
  refine foldl_keeps (P := fun r : State × List ((ObjSpace × Nat) × Nat) × Option (Word × Word) => s.Progresses False r.1) _ (fun r b hr => ?_) _ _ (.refl s)
  have looked := hr.trans (.barrierPlace r.1 c b.1)
  split
  · next v u a e =>
    rw [e] at looked
    exact looked.trans (.of_bytes (OnlyBytes.setWordAt ..))
  · next v e =>
    rw [e] at looked
    exact looked
  · next v f e =>
    rw [e] at looked
    exact looked

/-- A copy's barriers count it in. -/
theorem State.Progresses.announceCopy (s : State) (p : Copy) (nd : Nat) (hq : quiet → p.db = none ∧ p.sb = none) :
    s.Progresses quiet (s.announceCopy p nd) := by
  by_cases h : quiet
  · have none' : s.announceCopy p nd = s := by simp [State.announceCopy, State.announce, hq h]
    rw [none']
    exact .refl s
  · have announced := State.Progresses.announce s p.core ((p.db.toList.map fun b => (b, nd)) ++ p.sb.toList.map fun b => (b, p.n))
    have all : s.Progresses False (s.announceCopy p nd) := by
      unfold State.announceCopy
      simp only []
      split
      · exact announced
      · exact announced.trans (.updCopy _ _ _ _ fun _ => rfl)
    exact ⟨all.strand, all.copies, all.still, all.pending, fun q => absurd q h⟩

/-- A flue transfer takes its slots. -/
theorem State.Progresses.takeSlots (s : State) (p : Copy) (n : Nat) : s.Progresses quiet (s.takeSlots p n) := by
  unfold State.takeSlots
  simp only []
  refine State.Progresses.trans ?_ (.post _ _ _ _ _)
  refine State.Progresses.trans ?_ (.updCopy _ _ _ _ fun _ => rfl)
  exact .updCore s _ _ rfl rfl rfl rfl

/-- A copy starts the fills of its folios. -/
theorem State.Progresses.wantFolios (s : State) (p : Copy) : s.Progresses quiet (s.wantFolios p) := by
  have want (v : State) (obj num : Nat) : v.Progresses quiet (v.wantFolio p obj num) := by
    unfold State.wantFolio
    split
    · exact .refl v
    · exact .of_cores rfl rfl fun _ h => List.mem_cons_of_mem _ h
  unfold State.wantFolios
  split
  · exact foldl_keeps (P := fun v : State => s.Progresses quiet v) _ (fun v f hv => hv.trans (want v _ f)) _ _ (.refl s)
  · exact foldl_keeps (P := fun v : State => s.Progresses quiet v) _ (fun v f hv => hv.trans (want v _ f)) _ _ (.refl s)
  · exact foldl_keeps (P := fun v : State => s.Progresses quiet v) _ (fun v f hv => hv.trans (want v _ f)) _ _ (.refl s)
  · exact .refl s

/-- A copy goes on with its next chunk, or is at its end; a collective has chunks left. -/
theorem State.Progresses.nextChunk (s : State) (p : Copy) (h : p.coll = none ∨ p.left ≠ []) : s.Progresses quiet (s.nextChunk p) := by
  unfold State.nextChunk
  split
  · next e =>
    rw [h.resolve_right fun n => n e]
    exact .post s _ _ _ _
  · simp only []
    have drawn : s.Progresses quiet s.draw.2 := .of_cores rfl rfl fun _ h => h
    split
    · exact drawn.trans (.updCopy _ _ _ _ fun _ => rfl)
    · refine State.Progresses.trans ?_ (.sometime _ _ _)
      exact drawn.trans (.updCopy _ _ _ _ fun _ => rfl)

end Progresses

/-! ### Acceptance -/

section Accept

variable {s : State} {c : CoreId} {st : StrandId} {h : Hdr} {r : Req} {quiet : Prop}

/-- A copy has joined its unit's list: the strand has gone on, the copy stands there as it was accepted, and no register has changed. -/
structure State.Accepted (s t : State) (c : CoreId) (st : StrandId) (h : Hdr) (p : Copy) (quiet : Prop) : Prop where
  advanced : s.Advanced t c st
  pushes : s.Pushes t c st h 0
  next : (t.core c).nextCopy = (s.core c).nextCopy + 1
  length : (t.core c).copies.length = (s.core c).copies.length + 1
  copy : ∃ q ∈ (t.core c).copies, q.operands = p.operands
  regs : ∀ e q, SameRegs (s.strand e q) (t.strand e q)
  coreRegs : ∀ e, SameCoreRegs (s.core e) (t.core e)
  bytes : quiet → t.gm = s.gm ∧ ∀ e, SameCoreMem (s.core e) (t.core e)

theorem Core.still_regs {k l : Core} (h : l.still = k.still) : SameCoreRegs k l ∧ l.nextCopy = k.nextCopy :=
  ⟨⟨(congrArg Core.v h :), (congrArg Core.k h :), (congrArg Core.q h :), (congrArg Core.dom h :), (congrArg Core.srseed h :),
    (congrArg Core.gens h :), (congrArg Core.earlyrd h :)⟩, (congrArg Core.nextCopy h :)⟩

theorem Core.still_mem {k l : Core} (h : l.still = k.still) (hl : l.ls = k.ls) : SameCoreMem k l :=
  ⟨hl, (congrArg Core.wb0 h :), (congrArg Core.wb1 h :), (congrArg Core.active h :), (congrArg Core.acc h :), (congrArg Core.code h :),
    (congrArg Core.handler h :), (congrArg Core.breg h :), fun q => (congrArg (fun k : Core => (k.hob q).scales) h :)⟩

theorem Core.storage_still {k l : Core} (h : l.storage = k.storage) : l.still = k.still :=
  (congrArg (fun k : Core => { k with copies := [], ls := [], flueFree := Vector.replicate 4 0, utlb := [], umiss := 0, walks := 0 }) h :)

/-- From the issue and the pushes, a copy is appended and progresses. -/
theorem State.accepted_of {t : State} {p : Copy} {f : Core → Core} (hr : r.transfers = false)
    (hs : ∀ k, (f k).strands = k.strands) (hc : ∀ k, (f k).copies = k.copies ++ [p]) (hn : ∀ k, (f k).nextCopy = k.nextCopy + 1)
    (hk : ∀ k, SameCoreRegs k (f k) ∧ SameCoreMem k (f k))
    (hp : (((s.issued c st h r).pushNow (s.turn c st h r)).updCore c f).Progresses quiet t) : s.Accepted t c st h p quiet := by
  let x := s.issued c st h r
  let v := x.pushNow (s.turn c st h r)
  let w := v.updCore c f
  have stored : v.storage = s.storage := (State.pushNow_storage ..).trans (s.issued_storage c st h r)
  have core (e : CoreId) : (v.core e).copies = (s.core e).copies ∧ (v.core e).still = (s.core e).still ∧ SameCoreMem (s.core e) (v.core e) :=
    have k := State.storage_core stored e
    ⟨(congrArg Core.copies k :), Core.storage_still k, Core.storage_coreMem k⟩
  have own : w.core c = f (v.core c) := State.core_updCore ..
  have strands (e : CoreId) : (w.core e).strands = (v.core e).strands := by
    by_cases he : e = c
    · subst he; rw [own, hs]
    · exact congrArg Core.strands (State.core_updCore_ne _ _ he)
  have strand (e : CoreId) (q : StrandId) : w.strand e q = x.strand e q := by
    rw [State.strand, Core.strand, strands, State.pushNow_core]
    rfl
  have kept (e : CoreId) : SameCoreRegs (v.core e) (w.core e) ∧ SameCoreMem (v.core e) (w.core e) := by
    by_cases he : e = c
    · subst he; rw [own]; exact hk _
    · rw [show w.core e = v.core e from State.core_updCore_ne _ _ he]; exact ⟨.refl _, .refl _⟩
  have list : (t.core c).copies.map Copy.operands = ((s.core c).copies ++ [p]).map Copy.operands := by
    rw [hp.copies, show ((v.updCore c f).core c).copies = _ from (congrArg Core.copies own).trans (hc _), (core c).1]
  refine ⟨?advanced, fun hh => hp.pending _ _ _ _ (s.pushNow_pushes c st h r hh), ?next, ?length, ?copy, fun e q => ?regs, fun e => ?coreRegs, fun hq => ?bytes⟩
  case advanced =>
    have at' : { t.strand c st with ipend := none } = { x.strand c st with ipend := none } := (hp.strand c st).trans (by rw [strand])
    exact (s.issued_advanced c st h r hr).of_eq rfl ⟨(congrArg Strand.prev at' :), (congrArg Strand.base at' :), (congrArg Strand.ord at' :),
      (congrArg Strand.pos at' :), (congrArg Strand.reach at' :), (congrArg Strand.loops at' :)⟩
  case next =>
    rw [(Core.still_regs (hp.still c)).2, show ((v.updCore c f).core c).nextCopy = _ from (congrArg Core.nextCopy own).trans (hn _),
      (Core.still_regs (core c).2.1).2]
  case length =>
    have := congrArg List.length list
    simpa using this
  case copy =>
    have : p.operands ∈ (t.core c).copies.map Copy.operands := by
      rw [list]
      exact List.mem_map.mpr ⟨p, by simp, rfl⟩
    exact List.mem_map.mp this
  case regs =>
    have at' : { t.strand e q with ipend := none } = { x.strand e q with ipend := none } := (hp.strand e q).trans (by rw [strand])
    obtain ⟨h1, h2, h3, h4, h5, h6, h7, h8, h9, h10, h11, h12, h13, h14, h15⟩ := State.storage_regs (s.issued_storage c st h r) e q
    exact ⟨(congrArg Strand.x at' :).trans h1, (congrArg Strand.xs at' :).trans h2, (congrArg Strand.level at' :).trans h3,
      (congrArg Strand.fcsr at' :).trans h4, (congrArg Strand.sbound at' :).trans h5, (congrArg Strand.tcause at' :).trans h6,
      (congrArg Strand.tepc at' :).trans h7, (congrArg Strand.tinfo0 at' :).trans h8, (congrArg Strand.tinfo1 at' :).trans h9,
      (congrArg Strand.tdt at' :).trans h10, (congrArg Strand.tprev at' :).trans h11, (congrArg Strand.tlsel at' :).trans h12,
      (congrArg Strand.tscr at' :).trans h13, (congrArg Strand.latches at' :).trans h14, (congrArg Strand.frames at' :).trans h15⟩
  case coreRegs => exact (Core.still_regs (core e).2.1).1.trans ((kept e).1.trans (Core.still_regs (hp.still e)).1)
  case bytes =>
    obtain ⟨gm, ls⟩ := hp.bytes hq
    exact ⟨(show t.gm = v.gm from gm).trans (State.storage_gm stored), fun e => (core e).2.2.trans ((kept e).2.trans (Core.still_mem (hp.still e) (ls e)))⟩

/-- A copy of some bytes that is accepted. -/
theorem State.acceptCopy_spec {p : Copy} (hr : r.transfers = false) (h0 : p.coll = none) (hn : p.n ≠ 0)
    (hq : quiet → p.db = none ∧ p.sb = none) :
    s.Accepted ((s.issued c st h r).acceptCopy (s.turn c st h r) p) c st h p quiet := by
  refine State.accepted_of (r := r) (f := fun k => { k with nextCopy := k.nextCopy + 1, copies := k.copies ++ [p] }) hr (fun _ => rfl) (fun _ => rfl)
    (fun _ => rfl) (fun _ => ⟨⟨rfl, rfl, rfl, rfl, rfl, rfl, rfl⟩, rfl, rfl, rfl, rfl, rfl, rfl, rfl, rfl, fun _ => rfl⟩) ?_
  unfold State.acceptCopy
  rw [if_neg hn]
  simp only [State.turn_c]
  refine (State.Progresses.announceCopy _ p p.nd hq).trans ?_
  generalize State.announceCopy _ p p.nd = a
  refine (State.Progresses.laterOn a (.dt (a.bidOf c)) 0 latePrio (.copyAccept c p.id)).trans ?_
  generalize a.laterOn (.dt (a.bidOf c)) 0 latePrio (.copyAccept c p.id) = b
  split
  · exact .takeSlots b p _
  · split
    · refine State.Progresses.trans ?_ (.laterOn _ _ _ _ _)
      exact .updCopy b c p.id _ fun _ => rfl
    · refine State.Progresses.trans ?_ (.nextChunk _ _ (.inl h0))
      refine State.Progresses.trans ?_ (.wantFolios _ p)
      exact .updCopy b c p.id _ fun _ => rfl

/-- A collective that is accepted takes its number, with the chunks of its source before it. -/
theorem State.acceptColl_spec {p : Copy} {o : Coll} {nd : Nat} (hr : r.transfers = false) (h0 : p.chunks ≠ 0) :
    ∃ nth, s.Accepted ((s.issued c st h r).acceptColl (s.turn c st h r) p o nd) c st h
      { p with coll := some { o with nth := nth }, dlen := nd } False := by
  let nth := ((((s.issued c st h r).core c).colls.find? fun e => e.1 == o.lvl && e.2.1 == o.tag).map (·.2.2)).getD 0
  let q : Copy := { p with coll := some { o with nth := nth }, left := List.range p.chunks, dlen := nd }
  have left : q.left ≠ [] := fun e => h0 (List.range_eq_nil.mp e)
  refine ⟨nth, ?_⟩
  suffices a : s.Accepted ((s.issued c st h r).acceptColl (s.turn c st h r) p o nd) c st h q False from
    ⟨a.advanced, a.pushes, a.next, a.length, a.copy, a.regs, a.coreRegs, a.bytes⟩
  refine State.accepted_of (r := r) (f := fun k => { k with
      nextCopy := k.nextCopy + 1, copies := k.copies ++ [q]
      colls := (o.lvl, o.tag, nth + 1) :: k.colls.filter fun e => !(e.1 == o.lvl && e.2.1 == o.tag) }) hr (fun _ => rfl) (fun _ => rfl)
    (fun _ => rfl) (fun _ => ⟨⟨rfl, rfl, rfl, rfl, rfl, rfl, rfl⟩, rfl, rfl, rfl, rfl, rfl, rfl, rfl, rfl, fun _ => rfl⟩) ?_
  refine (State.Progresses.announceCopy _ q nd False.elim).trans ?_
  refine State.Progresses.trans ?_ (.nextChunk _ q (.inr left))
  split
  · exact .refl _
  · exact .laterOn _ _ _ _ _

end Accept

/-! ### The instructions -/

section Instructions

variable {s : State} {c : CoreId} {st : StrandId} {h : Hdr}

theorem State.count33_eq (s : State) (b : XReg) : s.count33 b = (s.reg b).toNat % 2 ^ 33 := by
  simp [State.count33, Word.bits, bitsAt]

/-- Some bytes lie in some chunk. -/
theorem Copy.chunks_ne {p : Copy} (hf : p.formed = none) (hv : p.cv = none) (hn : p.n ≠ 0) : p.chunks ≠ 0 := by
  have nd : p.nd = p.n := by simp [Copy.nd, hf, hv, destBytes]
  rw [Copy.chunks, nd, if_neg hn]
  omega

/-- An instruction that could issue but for its resource waits for it. -/
theorem issue_busy {r : Req} {b : Nat × Word × Nat} {d : Fin 7} (hi : s.Issues c st h r) (ht : h.timing = .after d) (act : Turn → State → State) :
    issue h { r with busy := some b } act s = .next (s.updStrand c st fun t => { t with blocked := some b }) := by
  obtain ⟨turn, early, legal, met, fault, busy, time⟩ := hi
  simp only [ht, earliest] at early time
  have judged : Req.judge { r with busy := some b } (s.core c) (s.strand c st) st h = .wait b := by
    have met' : Req.unmet { r with busy := some b } (s.core c) (s.strand c st) st h = none := met
    rw [Req.judge, met']
    simp only [fault]
  have waits := State.attempt_waits (s := s) (act := act) ht (show Req.illegal { r with busy := some b } (s.strand c st) st h = none from legal) early
    (by
      by_contra n
      rw [not_or] at n
      exact time ⟨Option.isSome_iff_ne_none.mpr n.1, by omega⟩) judged
  simp only [issue, turn, waits]

end Instructions

/-- Settles O43. -/
theorem copiesAreAcceptedByTheCopyUnit : Obligations.CopiesAreAcceptedByTheCopyUnit := by
  intro s c st h d a b o hi dst src n db sb accepts
  have accept (k : CopyKind) (i : Instr) (hx : exec i s = copyOp h k d a b o s) : accepts k i := by
    have hi' : s.Issues c st h { legal := [.l, .s], needs := true } := hi
    have count : s.count33 b = n := by rw [State.count33_eq, hi.reg]
    have step : exec i s = issue h { legal := [.l, .s], fault := s.copyFault k dst src n o.cv db sb, busy := (s.core c).copyBusy st, needs := true }
        (fun u v => v.acceptCopy u (v.newCopy u k dst src n o.scope o.ch o.cv db sb none)) s := by
      rw [hx, copyOp, hi.me, count]
      simp only [hi.reg]
      rfl
    intro hf
    have run (hb : (s.core c).copyBusy st = none) : exec i s = .next _ := step.trans (issue_when hi' hf hb rfl rfl rfl rfl _)
    refine ⟨fun h0 hb => ?none', fun u hb ⟨d', ht⟩ => ?waits, fun hn hb => ?some'⟩
    case none' =>
      let v := s.issued c st h { legal := [.l, .s], needs := true }
      let u := s.turn c st h { legal := [.l, .s], needs := true }
      refine ⟨_, run hb, ?_⟩
      rw [State.acceptCopy, if_pos (show (v.newCopy u k dst src n o.scope o.ch o.cv db sb none).n = 0 from h0)]
      exact ⟨(s.issued_advanced c st h _ rfl).of_strand (State.pushNow_strand ..), (State.pushNow_storage ..).trans (s.issued_storage c st h _),
        s.pushNow_pushes c st h _⟩
    case waits =>
      rw [step, hf, hb]
      exact issue_busy hi' ht _
    case some' =>
      let v := s.issued c st h { legal := [.l, .s], needs := true }
      let u := s.turn c st h { legal := [.l, .s], needs := true }
      have stored : v.storage = s.storage := s.issued_storage c st h _
      have a := State.acceptCopy_spec (s := s) (c := c) (st := st) (h := h) (r := { legal := [.l, .s], needs := true }) (quiet := db = none ∧ sb = none)
        (p := v.newCopy u k dst src n o.scope o.ch o.cv db sb none) rfl rfl hn fun q => q
      have number : (v.core c).nextCopy = (s.core c).nextCopy := (congrArg Core.nextCopy (State.storage_core stored c) :)
      obtain ⟨q, hm, e⟩ := a.copy
      refine ⟨_, run hb, a.advanced, a.pushes, a.next, a.length, ⟨q, hm, ?_, (congrArg Copy.core e :), (congrArg Copy.strand e :), (congrArg Copy.pos e :),
        (congrArg Copy.kind e :), (congrArg Copy.dst e :), (congrArg Copy.src e :), (congrArg Copy.n e :), (congrArg Copy.scope e :),
        (congrArg (fun p : Copy => p.ch.val) e :), (congrArg Copy.cv e :), (congrArg Copy.db e :), (congrArg Copy.sb e :),
        (congrArg Copy.dt e :).trans (State.storage_dt stored c)⟩, a.regs, a.coreRegs, fun hd hs => a.bytes ⟨hd, hs⟩⟩
      exact (congrArg Copy.id e :).trans (by rw [← number]; rfl)
  exact ⟨accept .ll _ rfl, accept .lp _ rfl, accept .pl _ rfl, accept .lf _ rfl, accept .lw _ rfl, accept .lg _ rfl, accept .gl _ rfl, accept .gg _ rfl,
    accept .lx _ rfl, accept .xl _ rfl, accept .gx _ rfl, accept .xg _ rfl, accept .al _ rfl, accept .ag _ rfl, accept .aw _ rfl, accept .gw _ rfl⟩

/-- Settles O48. -/
theorem collectivesAndAccessionsAreAccepted : Obligations.CollectivesAndAccessionsAreAccepted := by
  intro s c st h d a b e f rm sat repl o sel dst src n sp db sb joins
  have join (k : CopyKind) (nd : Nat) (i : Instr) (fmt : Fmt) (rm : Rm) (sat : Bool) (hx : exec i s = collOp h k d a b fmt rm sat o s)
      (hd : (if k = .lgath then n * domCount (collDom (s.core c) o.lvl) else n) = nd) : joins k nd i := by
    intro hi hf hb
    have hi' : s.Issues c st h { legal := [.l, .s], needs := true } := hi
    have count : s.count33 b = n := by rw [State.count33_eq, hi.reg]
    let coll : Coll := { lvl := o.lvl, tag := o.tag, nth := 0, fmt := fmt, rm := rm, sat := sat, arg := o.arg.toNat }
    have step : exec i s = issue h { legal := [.l, .s], fault := s.collFault dst src n nd db sb, busy := (s.core c).copyBusy st, needs := true }
        (fun u v => v.acceptColl u (v.newCopy u k dst src n o.scope o.ch none db sb none) coll nd) s := by
      rw [hx, collOp, hi.me, count, hd]
      simp only [hi.reg]
      rfl
    have run : exec i s = .next _ := step.trans (issue_when hi' hf hb rfl rfl rfl rfl _)
    refine ⟨fun _ => ⟨_, run⟩, fun hn => ?_⟩
    let v := s.issued c st h { legal := [.l, .s], needs := true }
    let u := s.turn c st h { legal := [.l, .s], needs := true }
    have stored : v.storage = s.storage := s.issued_storage c st h _
    obtain ⟨nth, a⟩ := State.acceptColl_spec (s := s) (c := c) (st := st) (h := h) (r := { legal := [.l, .s], needs := true })
      (p := v.newCopy u k dst src n o.scope o.ch none db sb none) (o := coll) (nd := nd) rfl (Copy.chunks_ne rfl rfl hn)
    have number : (v.core c).nextCopy = (s.core c).nextCopy := (congrArg Core.nextCopy (State.storage_core stored c) :)
    obtain ⟨q, hm, e⟩ := a.copy
    refine ⟨_, run, a.advanced, a.pushes, a.next, a.length, ⟨q, hm, ?_, (congrArg Copy.kind e :), (congrArg Copy.dst e :), (congrArg Copy.src e :),
      (congrArg Copy.n e :), (congrArg Copy.strand e :), (congrArg Copy.db e :), (congrArg Copy.sb e :), { coll with nth := nth },
      (congrArg Copy.coll e :), rfl, rfl, rfl⟩, a.regs, a.coreRegs⟩
    exact (congrArg Copy.id e :).trans (by rw [← number]; rfl)
  refine ⟨join .lred n _ f rm sat rfl rfl, join .lbcast n _ .f64 .rne false rfl rfl, join .lgath _ _ .f64 .rne false rfl rfl, fun hi hg hn => ?acc, fun hi => ?accq⟩
  case acc =>
    intro id record status
    let r : Req := { legal := [.l, .s], writes := true }
    let v := s.issued c st h r
    let u := s.turn c st h r
    let k := v.core c
    let y := if status = 0 then v.queueAccession (v.bidOf c) (k.partid.toNat % 4) k.asid k.root id repl src n record else v
    let res := s.resultOf c st h (xResult (s.strand c st).level d (BitVec.ofNat 64 status))
    have stored : v.storage = s.storage := s.issued_storage c st h r
    have archive : v.archive = s.archive := (congrArg State.archive stored :)
    have step : exec (.acc h d a b e repl) s = .next (y.fly c st 2 res true false) := by
      have fault : firstFault [if s.inGroup c then some { cause := 10, epc := (s.strand c st).pos, i0 := BitVec.ofNat 64 src } else none,
          if 2 ^ 32 < n then some (spaceFault (s.strand c st).pos n .gm) else none] = none := by
        rw [hg, if_neg (Nat.not_lt.mpr hn)]
        rfl
      have count : s.count33 b = n := by rw [State.count33_eq, hi.reg]
      simp only [exec.eq_def, execAcc, hi.me, hi.mine, hi.reg, count]
      rw [show firstFault [if s.inGroup c then some { cause := 10, epc := (s.strand c st).pos, i0 := BitVec.ofNat 64 (s.x c st a).toNat } else none,
          if 2 ^ 32 < n then some (spaceFault (s.strand c st).pos n .gm) else none] = none from fault]
      refine (issue_ready hi _).trans ?_
      simp only [y, res, status, ← archive]
      rfl
    have cores : y.cores = v.cores ∧ y.bindings = v.bindings ∧ y.hc = v.hc ∧ y.gm = v.gm := by
      unfold y
      split <;> exact ⟨rfl, rfl, rfl, rfl⟩
    have core (e : CoreId) : y.core e = v.core e := by simp only [State.core, cores.1]
    have strand (e : CoreId) (q : StrandId) : y.strand e q = v.strand e q := by simp only [State.strand, core]
    obtain ⟨clock, now⟩ := State.now_of (s := s) (t := y) (cores.2.1.trans (State.storage_bindings stored)) (cores.2.2.1.trans (State.storage_hc stored))
      (fun e => by rw [core]; exact ⟨State.storage_task stored e, State.storage_cyc stored e⟩) c st (by rw [strand]; exact s.issued_level c st h r)
    obtain ⟨flown, kept, -, -⟩ := y.fly_spec c st 2 res true false
    have same : s.Same y := (State.Same.of_storage stored).trans (.of_cores cores.1 cores.2.2.2)
    have all : s.Same (y.fly c st 2 res true false) := same.trans (.of_storage kept)
    refine ⟨_, step, (s.issued_advanced c st h r rfl).of_eq flown ?_, State.flies_from ?_ ?_ clock now rfl, fun n => kept.trans ?_, fun e => ?_, all.1, all.2.2, ?_⟩
    · rw [strand]; exact ⟨rfl, rfl, rfl, rfl, rfl, rfl⟩
    · rw [strand]; exact s.issued_flights c st h r
    · rw [strand]; exact s.issued_level c st h r
    · rw [show y = v from if_neg n]; exact stored
    · have same' : (y.fly c st 2 res true false).archive = (v.queueAccession (v.bidOf c) (k.partid.toNat % 4) k.asid k.root id repl src n record).archive :=
        (show _ = y.archive from (congrArg State.archive kept :)).trans (congrArg State.archive (if_pos e))
      rw [same', ← archive]
      exact ⟨_, rfl, rfl, rfl, rfl, rfl, rfl, (congrArg Core.asid (State.storage_core stored c) :), rfl, rfl⟩
    · have objects : y.archive.objects = v.archive.objects := by
        unfold y
        split <;> rfl
      exact (congrArg (fun x : State => x.archive.objects) kept :).trans (objects.trans (congrArg Archive.objects archive))
  case accq =>
    let r : Req := { writes := true }
    let u := s.turn c st h r
    let w := (s.issued c st h r).waitFor u (.unit 7 0) d false 0
    have waited : w.strand c st = _ := State.waitFor_strand ..
    have stored : w.storage = s.storage := (State.waitFor_storage ..).trans (s.issued_storage c st h r)
    refine ⟨w.sometime (.accq c st (s.strand c st).ord sel) latePrio, issue_ready hi _, (s.issued_advanced c st h r rfl).of_eq waited ⟨rfl, rfl, rfl, rfl, rfl, rfl⟩,
      stored, State.waitsFor_of (r := r) (congrArg Strand.wait waited :) (State.storage_regs (s.issued_storage c st h r) c st).sbound, w.choice, w.order, ?_⟩
    have hc : w.hc = s.hc := (congrArg State.hc stored :)
    rw [← hc]
    exact List.mem_cons_self

end Sys2Proof.Machine

/-! Stores, wait words and atomics as they perform at a scratchpad or at HBM (R74, R99, R102, R113, R202, R204, R205, R268). -/

namespace Sys2Proof.Machine

/-! ### Wait words -/

/-- The wait words of a unit that a write meets depend on the strands' waits alone. -/
theorem State.watched_congr {s t : State} (h : ∀ e, (t.core e).strands.map (·.wait) = (s.core e).strands.map (·.wait)) (u : MemUnit) (lo n : Nat) :
    t.watched u lo n = s.watched u lo n := by
  have waits (k : Core) : (k.strands.toList.filterMap fun t => t.wait.bind fun w =>
      if w.linked ∧ w.cond ≠ 9 ∧ w.unit = u ∧ w.pa < lo + n ∧ lo < w.pa + 8 then some w.pa else none) =
      ((k.strands.map (·.wait)).toList.filterMap fun o => o.bind fun w =>
        if w.linked ∧ w.cond ≠ 9 ∧ w.unit = u ∧ w.pa < lo + n ∧ lo < w.pa + 8 then some w.pa else none) := by
    rw [Vector.toList_map, List.filterMap_map]
    rfl
  have cores : t.cores.map (fun k => k.strands.map (·.wait)) = s.cores.map fun k => k.strands.map (·.wait) := by
    apply Vector.ext
    intro j hj
    simp only [Vector.getElem_map]
    exact h ⟨j, hj⟩
  unfold State.watched
  simp only [waits]
  have lists := congrArg Vector.toList cores
  simp only [Vector.toList_map] at lists
  have := congrArg (fun l : List (Vector (Option Wait) 4) => ((l.map fun v => v.toList.filterMap fun o => o.bind fun w =>
        if w.linked ∧ w.cond ≠ 9 ∧ w.unit = u ∧ w.pa < lo + n ∧ lo < w.pa + 8 then some w.pa else none).flatten).dedup) lists
  simpa only [List.map_map, Function.comp_def] using this

/-- A write that meets no linked wait word changes its bytes alone. -/
theorem State.storeAt_unwatched {s : State} {u : MemUnit} {a : Nat} {bs : List Byte} (hb : bs ≠ []) (hw : s.watched u a bs.length = []) :
    s.storeAt u a bs = s.writeUnit u a bs := by
  have kept : (s.writeUnit u a bs).watched u a bs.length = s.watched u a bs.length := by
    refine State.watched_congr (fun e => ?_) u a bs.length
    cases u with
    | ls c =>
      by_cases h : e = c
      · subst h; rw [State.writeUnit, State.core_updCore]
      · rw [State.writeUnit, State.core_updCore_ne _ _ h]
    | gm => rfl
    | xm d => rfl
  have some' : bs.isEmpty = false := by simpa using hb
  rw [State.storeAt, some', State.retest, kept, hw]
  rfl

/-- The bytes of a write at HBM. -/
theorem State.writeUnit_gm (s : State) (a : Nat) (bs : List Byte) : ((s.writeUnit .gm a bs).gm = s.gm.write a bs) ∧ (s.writeUnit .gm a bs).cores = s.cores :=
  ⟨rfl, rfl⟩

/-! ### What performing leaves alone -/

/-- The registers stay: x, xs and FCSR of every strand, and those that strands share. -/
def State.KeepsRegs (s t : State) : Prop := (∀ e o, (t.strand e o).x = (s.strand e o).x ∧ (t.strand e o).xs = (s.strand e o).xs ∧
  (t.strand e o).fcsr = (s.strand e o).fcsr) ∧ ∀ e, SameCoreRegs (s.core e) (t.core e)

/-- Registers, HBM, scratchpads and waits stay. -/
structure State.Quiet (s t : State) : Prop where
  regs : s.KeepsRegs t
  gm : t.gm = s.gm
  ls : ∀ e, (t.core e).ls = (s.core e).ls
  waits : ∀ e, (t.core e).strands.map (·.wait) = (s.core e).strands.map (·.wait)

section Quiet

variable {s t u : State}

theorem State.KeepsRegs.trans (h : s.KeepsRegs t) (g : t.KeepsRegs u) : s.KeepsRegs u :=
  ⟨fun e o => ⟨(g.1 e o).1.trans (h.1 e o).1, (g.1 e o).2.1.trans (h.1 e o).2.1, (g.1 e o).2.2.trans (h.1 e o).2.2⟩, fun e => (h.2 e).trans (g.2 e)⟩

theorem State.Quiet.trans (h : s.Quiet t) (g : t.Quiet u) : s.Quiet u :=
  ⟨h.regs.trans g.regs, g.gm.trans h.gm, fun e => (g.ls e).trans (h.ls e), fun e => (g.waits e).trans (h.waits e)⟩

theorem State.Quiet.of_cores (hc : t.cores = s.cores) (hg : t.gm = s.gm) : s.Quiet t := by
  have core (e : CoreId) : t.core e = s.core e := by simp only [State.core, hc]
  exact ⟨⟨fun e o => by simp only [State.strand, core]; exact ⟨trivial, trivial, trivial⟩, fun e => by rw [core]; exact .refl _⟩, hg,
    fun e => by rw [core], fun e => by rw [core]⟩

theorem State.Quiet.post (s : State) (k : Clock) (d p : Nat) (w : Work) : s.Quiet (s.post k d p w) := .of_cores rfl rfl

theorem State.Quiet.refl (s : State) : s.Quiet s := .of_cores rfl rfl

theorem State.Quiet.updStrand (s : State) (c : CoreId) (st : StrandId) (f : Strand → Strand) (hf : ∀ t, (f t).x = t.x ∧ (f t).xs = t.xs ∧
    (f t).fcsr = t.fcsr ∧ (f t).wait = t.wait) : s.Quiet (s.updStrand c st f) := by
  refine ⟨⟨fun e o => ?_, fun e => ?_⟩, rfl, fun e => (s.ls_updStrand c st f e).1, fun e => ?_⟩
  · by_cases h : (e, o) = (c, st)
    · obtain ⟨rfl, rfl⟩ := Prod.mk.inj h
      rw [State.strand_updStrand]
      exact ⟨(hf _).1, (hf _).2.1, (hf _).2.2.1⟩
    · rw [State.strand_updStrand_ne s f h]
      exact ⟨rfl, rfl, rfl⟩
  · by_cases h : e = c
    · subst h
      rw [State.core_updStrand]
      exact ⟨rfl, rfl, rfl, rfl, rfl, rfl, rfl⟩
    · rw [State.core_updStrand_ne s st f h]
      exact .refl _
  · by_cases h : e = c
    · subst h
      rw [State.core_updStrand]
      apply Vector.ext
      intro j hj
      simp only [Core.setStrand, Vector.getElem_map, Vector.getElem_set]
      split
      · next e => subst e; exact (hf _).2.2.2
      · rfl
    · rw [State.core_updStrand_ne s st f h]

/-- Banks that are granted. -/
theorem State.Quiet.used (s : State) (c : CoreId) (l : List Nat) : s.Quiet (s.updCore c fun k => { k with used := l ++ k.used }) := by
  have core (e : CoreId) : ∃ l', (s.updCore c fun k => { k with used := l ++ k.used }).core e = { s.core e with used := l' } := by
    by_cases h : e = c
    · subst h; exact ⟨_, s.core_updCore e _⟩
    · exact ⟨_, s.core_updCore_ne _ h⟩
  refine ⟨⟨fun e o => ?_, fun e => ?_⟩, rfl, fun e => ?_, fun e => ?_⟩ <;> obtain ⟨l', h⟩ := core e
  · simp only [State.strand, h]; exact ⟨rfl, rfl, rfl⟩
  · rw [h]; exact ⟨rfl, rfl, rfl, rfl, rfl, rfl, rfl⟩
  · rw [h]
  · rw [h]

theorem State.Quiet.slip (s : State) (c : CoreId) (st : StrandId) (ord : Nat) : s.Quiet (s.slip c st ord) := .updStrand s c st _ fun _ => ⟨rfl, rfl, rfl, rfl⟩
theorem State.Quiet.again (s : State) (a : Access) : s.Quiet (s.again a) := .post s _ _ _ _
theorem State.Quiet.accessDone (s : State) (c : CoreId) (st : StrandId) (seq : Nat) : s.Quiet (s.accessDone c st seq) :=
  .updStrand s c st _ fun _ => ⟨rfl, rfl, rfl, rfl⟩
theorem State.Quiet.resample (s : State) (a : Access) (keep : Bool) : s.Quiet (s.resample a keep) := by
  unfold State.resample
  exact .updStrand s _ _ _ fun _ => ⟨rfl, rfl, rfl, rfl⟩
theorem State.Quiet.raise (s : State) (c : CoreId) (st : StrandId) (f : BitVec 6) : s.Quiet (s.raise c st f) := by
  unfold State.raise
  split <;> exact .of_cores rfl rfl
theorem State.Quiet.pushAccess (s : State) (a : Access) : s.Quiet (s.pushAccess a) := by
  unfold State.pushAccess
  split <;> exact .of_cores rfl rfl
theorem State.Quiet.arrive (s : State) (c : CoreId) (st : StrandId) (ord : Nat) (data : VecData) (flags : BitVec 6) (poison : Option (Fin 9 × Nat)) :
    s.Quiet (s.arrive c st ord data flags poison) := by
  unfold State.arrive
  simp only []
  have updated (g : Flight → Flight) : s.Quiet (s.updStrand c st fun t => t.updFlight ord g 0) := .updStrand s c st _ fun _ => ⟨rfl, rfl, rfl, rfl⟩
  split
  · exact updated _
  · refine State.Quiet.trans ?_ (.post _ _ _ _ _)
    exact updated _
theorem State.Quiet.serve (s : State) (cls : Traffic) (as : List Nat) : s.Quiet (s.serve cls as).1 := by
  obtain ⟨sk, n, h⟩ := s.serveAs_eq cls false as
  rw [State.serve, h]
  exact .of_cores rfl rfl

end Quiet


/-! ### At a scratchpad -/

section Scratchpad

variable {s : State} {k : CoreId} {a : Access} {bs : List Byte}

/-- The clock by which a scratchpad's accesses of the strand are ordered. -/
def State.accessClock (s : State) (a : Access) : Clock := if a.sys then .cyc a.core else .dt (s.bidOf a.core)

/-- The bank that an access is granted, unless an older access of its strand stands before it. -/
def State.admits (s : State) (a : Access) (k : CoreId) : Option State :=
  if s.atomicWaits a || s.crosses (s.accessClock a) a.core a.strand a.seq k (opAddrs a.addr a.op) true then none else s.grant k (opBanks a.addr a.op)

/-- What follows an operation that has performed at a scratchpad. -/
def State.concludes (s : State) (a : Access) (v : Word) (f : BitVec 6) : State :=
  let s := (s.accessDone a.core a.strand a.seq).raise a.core a.strand f
  if (opDest a.op).isSome then (if opDirect a.op then s.pushAccess a else s).arrive a.core a.strand a.ord (v.setWidth 2048) 0 none
  else s.pushAccess a

theorem State.Quiet.concludes (s : State) (a : Access) (v : Word) (f : BitVec 6) : s.Quiet (s.concludes a v f) := by
  have done := (State.Quiet.accessDone s a.core a.strand a.seq).trans (.raise _ a.core a.strand f)
  unfold State.concludes
  simp only []
  split
  · split
    · exact (done.trans (.pushAccess _ a)).trans (.arrive ..)
    · exact done.trans (.arrive ..)
  · exact done.trans (.pushAccess _ a)

/-- An access at a scratchpad that is no scatter performs in one step, when it is admitted. -/
theorem State.performAccess_ls (hu : a.unit = .ls k) (hs : ∀ ps, a.op ≠ .scatter ps) : s.performAccess a =
    match s.admits a k with
    | none => (s.again a).slip a.core a.strand a.ord
    | some v => (v.operate ⟨.ls k, a.addr⟩ a.op).1.concludes a (v.operate ⟨.ls k, a.addr⟩ a.op).2.1 (v.operate ⟨.ls k, a.addr⟩ a.op).2.2 := by
  unfold State.performAccess
  rw [hu]
  cases ho : a.op with
  | scatter ps => exact absurd ho (hs ps)
  | _ => simp only [State.admits, State.accessClock, State.concludes, ho]; rfl

/-- The words of an access in place: its bytes are written, no other byte changes, no register changes. -/
def State.Lands (s t : State) (k : CoreId) (addr : Nat) (bs : List Byte) : Prop := s.KeepsRegs t ∧
  (∀ j, (t.core k).ls.get j = if addr ≤ j ∧ j < addr + bs.length then bs.getD (j - addr) 0 else (s.core k).ls.get j) ∧
  (∀ e, e ≠ k → (t.core e).ls = (s.core e).ls) ∧ t.gm = s.gm

theorem Mem.get_written {m : Mem} (h : m.wf = true) (addr : Nat) (bs : List Byte) (j : Nat) :
    (m.write addr bs).get j = if addr ≤ j ∧ j < addr + bs.length then bs.getD (j - addr) 0 else m.get j := by
  rw [Mem.get_write h]
  by_cases lo : addr ≤ j
  · by_cases hi : j < addr + bs.length
    · have : j - addr < bs.length := by omega
      simp [lo, hi, this]
    · have : bs.length ≤ j - addr := by omega
      simp [lo, hi, this]
  · simp [lo]

/-- Bytes written to a scratchpad behind and before what leaves memory alone. -/
theorem State.lands_of {v t : State} {addr : Nat} (h : s.Quiet v) (hw : (s.core k).ls.wf = true) (g : (v.writeUnit (.ls k) addr bs).Quiet t) :
    s.Lands t k addr bs := by
  have own : (v.writeUnit (.ls k) addr bs).core k = _ := State.core_updCore ..
  have other {e : CoreId} (n : e ≠ k) : (v.writeUnit (.ls k) addr bs).core e = v.core e := State.core_updCore_ne _ _ n
  have regs : v.KeepsRegs (v.writeUnit (.ls k) addr bs) := by
    refine ⟨fun e o => ?_, fun e => ?_⟩ <;> by_cases n : e = k
    · subst n; rw [State.strand, own]; exact ⟨rfl, rfl, rfl⟩
    · rw [State.strand, other n]; exact ⟨rfl, rfl, rfl⟩
    · subst n; rw [own]; exact ⟨rfl, rfl, rfl, rfl, rfl, rfl, rfl⟩
    · rw [other n]; exact .refl _
  refine ⟨h.regs.trans (regs.trans g.regs), fun j => ?_, fun e n => ?_, g.gm.trans h.gm⟩
  · rw [g.ls, own, h.ls, Mem.get_written hw]
  · rw [g.ls, other n, h.ls]

end Scratchpad


/-! ### At HBM -/

section Hbm

variable {s : State} {a : Access} {bs : List Byte}

theorem State.serve_admitted {t : State} (hb : t.boot = s.boot) (hk : t.stokers = s.stokers) (hh : t.hc = s.hc) (cls : Traffic) (as : List Nat) :
    (t.serve cls as).2 = (s.serve cls as).2 := by
  have targets : t.targets as = s.targets as := by simp only [State.targets, hb]
  have stoker (k : Fin 384) : t.stoker k = s.stoker k := by simp only [State.stoker, hk]
  simp only [State.serve, State.serveAs, targets, stoker, hh]
  split <;> rfl

/-- A plain store that the port has accepted, and that nothing at the port keeps, asks its channels. -/
theorem State.performAccess_gm (hu : a.unit = .gm) (hp : a.posted = true) (ho : a.op = .write bs)
    (hg : ∀ b, s.bindingOf a.core = some b → b.cg = false) (hb : s.portBlocked a = false) :
    let v := s.resample a true
    let w := (v.serve .md (opAddrs a.addr a.op)).1
    s.performAccess a = if (v.serve .md (opAddrs a.addr a.op)).2 then ((w.accessDone a.core a.strand a.seq).storeAt .gm a.addr bs)
      else w.post .hc (w.hc + 1) (farPrio a.op) (.ev (.storePerform a)) := by
  intro v w
  have placed : s.shadowed a.core a.va a.addr = (s, .at a.addr) := by
    unfold State.shadowed
    split
    · rfl
    · next b e => simp [hg b e]
  have free : s.atomicWaits a = false := by simp [State.atomicWaits, opAtomic, ho]
  have performs : s.performAccess a = v.performAt a a.addr := by
    unfold State.performAccess
    rw [hu]
    simp only [hp, hb, free, ho, opDirect, placed, opDest]
    simp
    rfl
  rw [performs, State.performAt, ho]
  simp only [w, ho, opDest, opPlain, opDirect]
  cases hv : v.serve .md (opAddrs a.addr (.write bs)) with
  | mk y b => cases b <;> rfl

end Hbm

/-- Settles O56. -/
theorem storesChangeTheirBytesOnly : Obligations.StoresChangeTheirBytesOnly := by
  intro s a k bs hne old regs lands
  refine ⟨?scratchpad, fun hu hp ho hw hf _ hg hb => ?hbm⟩
  case scratchpad =>
    intro hu hw hf behind waits
    have step : exec (.storePerform a) s = .next (s.performAccess a) := rfl
    have turned (hs : ∀ ps, a.op ≠ .scatter ps) (hn : s.admits a k = none) : waits := by
      have same := (State.Quiet.again s a).trans (.slip _ a.core a.strand a.ord)
      refine ⟨_, step, ?_⟩
      rw [State.performAccess_ls hu hs, hn]
      exact ⟨same.regs, same.gm, same.ls⟩
    have performs (hs : ∀ ps, a.op ≠ .scatter ps) (hb : behind = false) (hat : s.atomicWaits a = false)
        (free : ∀ b ∈ opBanks a.addr a.op, b ∉ (s.core k).used)
        (writes : ∀ v : State, (v.core k).ls = (s.core k).ls → (v.operate ⟨.ls k, a.addr⟩ a.op).1 = v.storeAt (.ls k) a.addr bs) :
        ∃ t, exec (.storePerform a) s = .next t ∧ lands t bs := by
      let v := s.updCore k fun l => { l with used := opBanks a.addr a.op ++ l.used }
      have quiet : s.Quiet v := .used s k _
      have granted : s.admits a k = some v := by
        have first : s.crosses (s.accessClock a) a.core a.strand a.seq k (opAddrs a.addr a.op) true = false := hb
        rw [State.admits, hat, first, if_neg (by simp), State.grant, if_neg (by simpa using free)]
      refine ⟨_, step, ?_⟩
      rw [State.performAccess_ls hu hs, granted]
      refine State.lands_of quiet hw ?_
      have written : (v.operate ⟨.ls k, a.addr⟩ a.op).1 = v.writeUnit (.ls k) a.addr bs :=
        (writes v (quiet.ls k)).trans (State.storeAt_unwatched hne (by rw [State.watched_congr quiet.waits]; exact hf))
      rw [← written]
      exact .concludes ..
    have single {op : UnitOp} (ho : a.op = op) (banks : opBanks a.addr op = [bankOf a.addr]) (free : bankOf a.addr ∉ (s.core k).used) :
        ∀ b ∈ opBanks a.addr a.op, b ∉ (s.core k).used := by
      rw [ho, banks]
      simpa using free
    refine ⟨fun ho hb => ?busy, fun hat hs => ?atomics, fun ho hb free => ?write, fun v ho e hb free => ?wset, fun o v cmp d ho hb hat e free => ?atomic⟩
    case busy =>
      refine turned (by rw [ho]; nofun) ?_
      by_cases hc : s.atomicWaits a || s.crosses (s.accessClock a) a.core a.strand a.seq k (opAddrs a.addr a.op) true
      · exact if_pos hc
      · rw [State.admits, if_neg hc, State.grant, ho, if_pos]
        obtain ⟨b, hm, taken⟩ := hb.resolve_left fun hb => hc (by rw [Bool.or_eq_true]; exact .inr hb)
        exact List.any_eq_true.mpr ⟨b, hm, List.contains_iff_mem.mpr taken⟩
    case atomics => exact turned hs (if_pos (by rw [hat, Bool.true_or]))
    case write =>
      refine performs (by rw [ho]; nofun) hb (by simp [State.atomicWaits, opAtomic, ho]) (by rw [ho]; exact free) fun v _ => ?_
      rw [ho]
      rfl
    case wset =>
      refine performs (by rw [ho]; nofun) hb (by simp [State.atomicWaits, opAtomic, ho]) (single ho rfl free) fun v _ => ?_
      rw [ho, e]
      rfl
    case atomic =>
      refine performs (by rw [ho]; nofun) hb hat (single ho rfl free) fun w ls => ?_
      have whole : 8 * (o.fmt.bits / 8) = o.fmt.bits := by
        have : o.fmt.bits / 8 ≠ 0 := fun z => hne (by rw [e, z]; rfl)
        cases hf : o.fmt <;> simp [Fmt.bits, hf] at this ⊢
      rw [ho, e]
      simp only [State.operate, whole, State.unitMem, ls, old]
  case hbm =>
    let v := s.resample a true
    let w := (v.serve .md (opAddrs a.addr a.op)).1
    have step : exec (.storePerform a) s = .next _ := congrArg Host.Outcome.next (State.performAccess_gm hu hp ho hg hb)
    have admitted : (v.serve .md (opAddrs a.addr a.op)).2 = (s.serve .md (opAddrs a.addr a.op)).2 := State.serve_admitted (s := s) (t := v) rfl rfl rfl .md _
    have quiet : s.Quiet w := (State.Quiet.resample s a true).trans (.serve v .md _)
    rw [admitted] at step
    cases hs : (s.serve .md (opAddrs a.addr a.op)).2 with
    | false =>
      have same := quiet.trans (.post w .hc (w.hc + 1) (farPrio a.op) (.ev (.storePerform a)))
      rw [hs] at step
      exact ⟨_, step, same.regs, same.ls, fun _ => same.gm, nofun⟩
    | true =>
      let y := w.accessDone a.core a.strand a.seq
      have same : s.Quiet y := quiet.trans (.accessDone w _ _ _)
      have wrote : y.storeAt .gm a.addr bs = y.writeUnit .gm a.addr bs := State.storeAt_unwatched hne (by rw [State.watched_congr same.waits]; exact hf)
      rw [hs, if_pos rfl, show (State.accessDone _ a.core a.strand a.seq).storeAt .gm a.addr bs = _ from wrote] at step
      obtain ⟨gm, cores⟩ := y.writeUnit_gm a.addr bs
      have core (e : CoreId) : (y.writeUnit .gm a.addr bs).core e = y.core e := by simp only [State.core, cores]
      have kept : y.KeepsRegs (y.writeUnit .gm a.addr bs) :=
        ⟨fun e o => by simp only [State.strand, core]; exact ⟨trivial, trivial, trivial⟩, fun e => by rw [core]; exact .refl _⟩
      refine ⟨_, step, same.regs.trans kept, fun e => by rw [core]; exact same.ls e, nofun, fun _ j => ?_⟩
      rw [gm, same.gm, Mem.get_written hw]

end Sys2Proof.Machine

/-! Marks, fences and the memory queue that they hold (R72, R102, R105, R106, R175, R176). -/

namespace Sys2Proof.Machine

section Holds

variable {s : State} {c : CoreId} {st : StrandId}

theorem State.issued_marks (s : State) (c : CoreId) (st : StrandId) (h : Hdr) (r : Req) : ((s.issued c st h r).strand c st).marks = (s.strand c st).marks := by
  obtain ⟨u, hu, e⟩ := s.issued_eq c st h r
  have kept : (u.strand c st).marks = (s.strand c st).marks := (congrArg Strand.marks (hu.quiet c st) :)
  rw [e, State.advance_strand, ← kept]
  rfl

/-! ### Marks -/

/-- What a mark of the partner's with the same ordinal is to become when the two pair (R105). -/
def Hold.paired (tag n : Nat) (need : Need) (o : Hold) : Hold := if o.mark = some (tag, n) then { o with mark := none, needs := need :: o.needs } else o

/-- A mark's hold, and the partner's mark where it stands already. -/
theorem State.markNow_spec (v : State) (tag : BitVec 4) (hp : markPartner st ≠ st) :
    let t0 := v.strand c st
    let q0 := v.strand c (markPartner st)
    let n := t0.markCount tag + 1
    let own : Need := ⟨c, st, 0, t0.seq, false, false⟩
    let theirs := match q0.holds.find? fun h => h.mark == some (tag.toNat, n) with | some h => h.start | none => q0.seq
    let t := v.markNow c st tag
    t.storage = v.storage ∧ t.Pending (v.clock c st) (v.now c st) latePrio (.holds c st) ∧
    (q0.markCount tag < n → t.strand c st = { t0 with marks := t0.marks.set tag.toNat n, holds := t0.holds ++ [⟨t0.ord - 1, t0.seq, false, [own], some (tag.toNat, n), false, false, false⟩] } ∧
      t.strand c (markPartner st) = q0) ∧
    (n ≤ q0.markCount tag → t.strand c st = { t0 with marks := t0.marks.set tag.toNat n, holds := t0.holds ++ [⟨t0.ord - 1, t0.seq, false, [own, ⟨c, markPartner st, 0, theirs, false, false⟩], none, false, false, false⟩] } ∧
      t.strand c (markPartner st) = { q0 with holds := q0.holds.map (·.paired tag.toNat n own) }) := by
  intro t0 q0 n own theirs t
  have ne : (c, markPartner st) ≠ (c, st) := fun e => hp (congrArg Prod.snd e)
  have en : (c, st) ≠ (c, markPartner st) := fun e => ne e.symm
  let v1 := v.updStrand c st fun t => { t with marks := t.marks.set tag.toNat n }
  let hold : Hold := ⟨t0.ord - 1, t0.seq, false, own :: (if decide (n ≤ q0.markCount tag) then [⟨c, markPartner st, 0, theirs, false, false⟩] else []),
    if decide (n ≤ q0.markCount tag) then none else some (tag.toNat, n), false, false, false⟩
  let v2 := v1.addHold c st hold
  let v3 := if decide (n ≤ q0.markCount tag) then v2.updStrand c (markPartner st) fun q => { q with holds := q.holds.map (·.paired tag.toNat n own) } else v2
  have ht : t = v3.later c st 0 latePrio (.holds c st) := rfl
  have stored1 : v1.storage = v.storage := State.storage_updStrand v c st _ rfl
  have stored2 : v2.storage = v.storage := (State.addHold_storage ..).trans stored1
  have stored : v3.storage = v.storage := by
    unfold v3
    split
    · exact (State.storage_updStrand v2 c _ _ rfl).trans stored2
    · exact stored2
  have own2 : v2.strand c st = { t0 with marks := t0.marks.set tag.toNat n, holds := t0.holds ++ [hold] } := by
    rw [show v2.strand c st = _ from State.addHold_strand .., State.strand_updStrand]
  have other2 : v2.strand c (markPartner st) = q0 := (State.strand_updStrand_ne v1 _ ne).trans (State.strand_updStrand_ne v _ ne)
  have pending : (v3.later c st 0 latePrio (.holds c st)).Pending (v.clock c st) (v.now c st) latePrio (.holds c st) := by
    rw [← State.storage_clock stored, ← State.storage_now stored]
    exact v3.later_pending c st 0 latePrio _
  rw [ht]
  simp only [State.storage_later, State.strand_later]
  refine ⟨stored, pending, fun h => ?_, fun h => ?_⟩
  · have alone : v3 = v2 := if_neg (by simpa using h)
    have hold' : hold = ⟨t0.ord - 1, t0.seq, false, [own], some (tag.toNat, n), false, false, false⟩ := by
      simp [hold, Nat.not_le.mpr h]
    rw [alone, own2, other2, hold']
    exact ⟨rfl, rfl⟩
  · have both : v3 = v2.updStrand c (markPartner st) fun q => { q with holds := q.holds.map (·.paired tag.toNat n own) } := if_pos (by simpa using h)
    have hold' : hold = ⟨t0.ord - 1, t0.seq, false, [own, ⟨c, markPartner st, 0, theirs, false, false⟩], none, false, false, false⟩ := by
      simp [hold, h]
    rw [both, State.strand_updStrand_ne v2 _ en, own2, State.strand_updStrand, other2, hold']
    exact ⟨rfl, rfl⟩

/-! ### The end of a tfence -/

/-- The arithmetic trap of a tfence is due with the flags that are set and enabled, or the wait ends (R72). -/
theorem State.endTfence_spec {w : Wait} (hw : (s.strand c st).wait = some w) (hy : w.why = .tfence) :
    let bits : Nat := Word.bits (s.strand c st).fcsr 8 6 &&& Word.bits (s.strand c st).fcsr 0 6
    (bits ≠ 0 → s.endTfence c st = s.updStrand c st fun t => { t with trapDue := some (2, BitVec.ofNat 64 bits, some w.pos) }) ∧
    (bits = 0 → ((s.endTfence c st).strand c st).wait = none ∧ ((s.endTfence c st).strand c st).base = s.now c st + 1 ∧
      ((s.endTfence c st).strand c st).trapDue = (s.strand c st).trapDue ∧ (s.endTfence c st).storage = s.storage) := by
  intro bits
  refine ⟨fun h => ?_, fun h => ?_⟩
  · have pos : (s.strand c st).wait.map (·.pos) = some w.pos := by rw [hw]; rfl
    have same : { s.strand c st with trapDue := some (2, BitVec.ofNat 64 bits, (s.strand c st).wait.map (·.pos)) } =
        { s.strand c st with trapDue := some (2, BitVec.ofNat 64 bits, some w.pos) } := by rw [pos]
    exact (if_neg h).trans (congrArg (fun o => s.setCore c ((s.core c).setStrand st o)) same)
  · obtain ⟨⟨hs, ip, own⟩, -, -⟩ := State.endWait_spec s c st hw 0
    have ends : s.endTfence c st = s.endWait c st 0 := if_pos h
    rw [ends, own]
    exact ⟨rfl, rfl, rfl, s.endWait_storage c st hw (by rw [hy]; nofun) 0⟩

/-! ### The memory queue -/

/-- An access in the memory queue that nothing keeps leaves it. -/
theorem State.leaveQueue_spec (s : State) (clk : Clock) (lat prio : Nat) (far : Bool) (w : Work) :
    let t := s.leaveQueue clk lat prio far w
    t.gm = s.gm ∧ t.storage = s.storage ∧ (∀ e, t.core e = s.core e) ∧ (far = false → t.Pending clk (s.read clk + lat) prio w) ∧
      (far = true → ∃ n, t.Pending .hc (s.hc + 1 + Config.delay n) prio w) := by
  cases far
  · exact ⟨rfl, rfl, fun _ => rfl, fun _ => ⟨s.order, List.mem_cons_self⟩, nofun⟩
  · exact ⟨rfl, rfl, fun _ => rfl, nofun, fun _ => ⟨s.choice, s.order, List.mem_cons_self⟩⟩

/-- One that is kept is judged again in the next cycle, by which its result's write moves on. -/
theorem State.requeue_spec (s : State) (clk : Clock) (c : CoreId) (st : StrandId) (ord p : Nat) (w : Work) :
    let t := (s.laterOn clk 1 p w).slip c st ord
    t.gm = s.gm ∧ t.Pending clk (s.read clk + 1) p w ∧ t.strand c st = (s.strand c st).updFlight ord (fun r => { r with w := r.w + 1 }) 1 ∧
      (∀ e, e ≠ c → t.core e = s.core e) ∧ SameCoreRegs (s.core c) (t.core c) ∧ SameCoreMem (s.core c) (t.core c) := by
  intro t
  have own : t.core c = (s.core c).setStrand st _ := State.core_updStrand ..
  refine ⟨rfl, ⟨s.order, List.mem_cons_self⟩, State.strand_updStrand .., fun e he => State.core_updStrand_ne _ st _ he, ?_, ?_⟩ <;> rw [own]
  · exact ⟨rfl, rfl, rfl, rfl, rfl, rfl, rfl⟩
  · exact ⟨rfl, rfl, rfl, rfl, rfl, rfl, rfl, rfl, fun _ => rfl⟩

/-- What keeps an access in its queue. -/
theorem State.keeps_iff (s : State) (c : CoreId) (st : StrandId) (seq : Nat) (storing : Bool) (needs : List Need) (w : Work) :
    (!(needs.all s.met) || s.isHeld c st seq storing (w.isLs c) || (!storing && s.behindOwn c st seq w)) = true ↔
      (∃ n ∈ needs, s.met n = false) ∨
      (∃ o ∈ (s.strand c st).holds, o.start ≤ seq ∧ (storing = true ∨ o.stores = false) ∧ s.passes o (w.isLs c) = false) ∨
      (∃ d ∈ (s.strand c st).due, d.1 ≤ seq ∧ s.met d.2 = false) ∨ (storing = false ∧ s.behindOwn c st seq w = true) := by
  simp only [State.isHeld, Bool.or_eq_true, Bool.and_eq_true, Bool.not_eq_true', List.all_eq_false, List.any_eq_true, decide_eq_true_iff,
    Bool.not_eq_true, and_assoc, or_assoc]

/-! ### Judging holds -/

/-- A strand's ended holds go with their pushes, and the others are judged again in the next cycle. -/
theorem State.judgeHolds_spec (s : State) (c : CoreId) (st : StrandId) :
    let t := s.judgeHolds c st
    t.storage = s.storage ∧ (t.strand c st).holds = (s.strand c st).holds.filter (fun o => !s.released o) ∧
      (t.strand c st).due = (s.strand c st).due.filter (fun d => !s.met d.2) ∧
      (t.core c).fifos = ((((s.strand c st).holds.filter s.released).foldl (fun u o => u.push c st o.pushP.toNat o.pushN.toNat) s).core c).fifos ∧
      ((∃ o ∈ (s.strand c st).holds, s.released o = false) → t.Pending (s.clock c st) (s.now c st + 1) latePrio (.holds c st)) := by
  intro t
  let v := ((s.strand c st).holds.filter s.released).foldl (fun u o => u.push c st o.pushP.toNat o.pushN.toNat) s
  let rest := (s.strand c st).holds.filter fun o => !s.released o
  let u := v.updStrand c st fun t => { t with holds := rest, due := t.due.filter fun d => !s.met d.2 }
  have pushed : v.storage = s.storage ∧ v.strand c st = s.strand c st := by
    refine foldl_keeps (P := fun v : State => v.storage = s.storage ∧ v.strand c st = s.strand c st) _ (fun u o hu => ⟨(u.push_storage ..).trans hu.1, ?_⟩)
      _ _ ⟨rfl, rfl⟩
    refine Eq.trans ?_ hu.2
    rw [State.strand, State.push, State.core_updCore]
    rfl
  have stored : u.storage = s.storage := (State.storage_updStrand v c st _ rfl).trans pushed.1
  have own : u.strand c st = { s.strand c st with holds := rest, due := (s.strand c st).due.filter fun d => !s.met d.2 } := by
    rw [show u.strand c st = _ from State.strand_updStrand .., pushed.2]
  have fifos : (u.core c).fifos = (v.core c).fifos := by
    rw [show u.core c = _ from State.core_updStrand ..]
    rfl
  have ht : t = if rest.isEmpty then u else u.later c st 1 latePrio (.holds c st) := rfl
  have kept : t.storage = u.storage ∧ t.strand c st = u.strand c st ∧ t.core c = u.core c := by
    rw [ht]
    split <;> exact ⟨rfl, rfl, rfl⟩
  refine ⟨kept.1.trans stored, (congrArg Strand.holds (kept.2.1.trans own) :), (congrArg Strand.due (kept.2.1.trans own) :),
    (congrArg Core.fifos kept.2.2).trans fifos, fun ⟨o, ho, hr⟩ => ?_⟩
  have left : rest.isEmpty = false := by
    rw [List.isEmpty_eq_false_iff_exists_mem]
    exact ⟨o, List.mem_filter.mpr ⟨ho, by simp [hr]⟩⟩
  rw [ht, left, ← State.storage_clock stored, ← State.storage_now stored]
  exact u.later_pending c st 1 latePrio _

end Holds

/-- Settles O34. -/
theorem marksAndFencesHoldLaterAccesses : Obligations.MarksAndFencesHoldLaterAccesses := by
  intro s c st h tag form sc t0 n own
  refine ⟨fun p hp hi hn => ?mark, fun hi => ?fence, fun hi => ?tfence, fun w hw hy => ?endTfence, ?queued,
    ⟨_, rfl, s.judgeHolds_spec c st⟩⟩
  case mark =>
    intro q0
    let r : Req := { legal := [.l, .s], needs := true }
    have hi' : s.Issues c st h r := hi
    let v := s.issued c st h r
    have partner : markPartner st = p := by
      obtain ⟨rfl, rfl⟩ | ⟨rfl, rfl⟩ := hp <;> rfl
    have ne : p ≠ st := by
      obtain ⟨rfl, rfl⟩ | ⟨rfl, rfl⟩ := hp <;> nofun
    have other : v.strand c p = q0 := s.issued_strand_ne c st h r fun e => ne (congrArg Prod.snd e :)
    have stored : v.storage = s.storage := s.issued_storage c st h r
    have near : decide (15 + (s.strand c (markPartner st)).markCount tag ≤ (s.strand c st).markCount tag) = false := by
      rw [decide_eq_false_iff_not, partner]
      show ¬(15 + (s.strand c p).marks[tag.toNat] ≤ t0.marks[tag.toNat])
      omega
    have step : exec (.mark h tag) s = .next ((v.markNow c st tag).pushNow (s.turn c st h r)) := by
      simp only [exec.eq_def, execMark, hi.me, hi.mine, near]
      exact issue_ready hi' _
    obtain ⟨kept, pending, alone, paired⟩ := v.markNow_spec (c := c) (st := st) tag (by rw [partner]; exact ne)
    rw [partner, other] at alone paired
    have ord : (v.strand c st).ord - 1 = t0.ord := by rw [show (v.strand c st).ord = t0.ord + 1 from s.issued_ord c st h r]; rfl
    have seq : (v.strand c st).seq = t0.seq := s.issued_seq c st h r
    have holds : (v.strand c st).holds = t0.holds := s.issued_holds c st h r
    have marks : (v.strand c st).marks = t0.marks := s.issued_marks c st h r
    have count : (v.strand c st).markCount tag + 1 = n := by rw [Strand.markCount, marks]
    rw [count, ord, seq, holds, marks] at alone paired
    let y := v.markNow c st tag
    have strand (o : StrandId) : (y.pushNow (s.turn c st h r)).strand c o = y.strand c o := State.pushNow_strand ..
    have marked : ∃ hs, y.strand c st = { v.strand c st with marks := t0.marks.set tag.toNat n, seq := t0.seq, holds := hs } := by
      rcases Nat.lt_or_ge (q0.markCount tag) n with h | h
      · exact ⟨_, (alone h).1⟩
      · exact ⟨_, (paired h).1⟩
    obtain ⟨hs, at'⟩ := marked
    have all : y.storage = s.storage := kept.trans stored
    obtain ⟨-, stored', later, pushes, -⟩ := y.pushNow_spec (s.turn c st h r)
    refine ⟨_, step, (s.issued_advanced c st h r rfl).of_eq ((strand st).trans at') ⟨rfl, rfl, rfl, rfl, rfl, rfl⟩, stored'.trans all, fun hh => ?_,
      (congrArg Strand.marks ((strand st).trans at') :), ?_, fun h => ⟨?_, (strand p).trans (alone h).2⟩, fun h => ?_⟩
    · have := pushes hh
      simp only [State.turn_c, State.turn_st, State.storage_clock all, State.storage_now all] at this
      exact this
    · have := later _ _ _ _ pending
      rw [State.storage_clock stored, State.storage_now stored] at this
      exact this
    · exact (congrArg Strand.holds ((strand st).trans (alone h).1) :)
    · intro theirs pairedHold
      have start : theirs = match q0.holds.find? fun h => h.mark == some (tag.toNat, n) with | some h => h.start | none => q0.seq := by
        unfold theirs
        cases q0.holds.find? fun h => h.mark == some (tag.toNat, n) <;> rfl
      rw [start]
      exact ⟨(congrArg Strand.holds ((strand st).trans (paired h).1) :), (strand p).trans (paired h).2⟩
  case fence =>
    let v := s.issued c st h {}
    have fenced := v.fence_strand c st form sc h.pap h.pan
    have ord : (v.strand c st).ord - 1 = t0.ord := by rw [show (v.strand c st).ord = t0.ord + 1 from s.issued_ord c st h _]; rfl
    have stored : v.storage = s.storage := s.issued_storage c st h _
    refine ⟨_, issue_ready hi _, (s.issued_advanced c st h _ rfl).of_eq fenced ⟨rfl, rfl, rfl, rfl, rfl, rfl⟩, (v.fence_storage ..).trans stored, ?_, ?_⟩
    · refine (congrArg Strand.holds fenced :).trans ?_
      rw [ord, show (v.strand c st).seq = t0.seq from s.issued_seq c st h _, show (v.strand c st).holds = t0.holds from s.issued_holds c st h _]
    · let hold : Hold := ⟨(v.strand c st).ord - 1, (v.strand c st).seq, form == .rel, v.before c st sc (form == .acq), none, h.pap, h.pan, sc == .core⟩
      have kept : (v.addHold c st hold).storage = s.storage := (State.addHold_storage ..).trans stored
      rw [← State.storage_clock kept, ← State.storage_now kept]
      exact State.later_pending _ c st 0 latePrio _
  case tfence =>
    have waited := State.waitFor_strand (v := s.issued c st h {}) (s := s) (c := c) (st := st) (h := h) (r := {}) .tfence 0 false 0
    exact ⟨_, issue_ready hi _, (s.issued_advanced c st h _ rfl).of_eq waited ⟨rfl, rfl, rfl, rfl, rfl, rfl⟩,
      (State.waitFor_storage ..).trans (s.issued_storage c st h _), s.issued_cal c st h _,
      State.waitsFor_of (congrArg Strand.wait waited :) (State.storage_regs (s.issued_storage c st h _) c st).sbound⟩
  case endTfence =>
    have flags : (t0.fcsr.toNat / 2 ^ 8 % 2 ^ 6) &&& (t0.fcsr.toNat % 2 ^ 6) = Word.bits t0.fcsr 8 6 &&& Word.bits t0.fcsr 0 6 := by simp [Word.bits, bitsAt]
    rw [flags]
    exact State.endTfence_spec hw hy
  case queued =>
    intro clk ord seq lat prio storing far needs w held stays p
    have keeps : _ ↔ stays := s.keeps_iff c st seq storing needs w
    have step : s.runWork exec (.queued clk c st ord seq storing needs lat prio far w) =
      .next (s.judgeQueued clk c st ord seq storing needs lat prio far w) := rfl
    by_cases h : stays
    · have again : s.judgeQueued clk c st ord seq storing needs lat prio far w =
          (s.laterOn clk 1 (queuePrio storing) (.queued clk c st ord seq storing needs lat p far (withPrio p w))).slip c st ord := if_pos (keeps.mpr h)
      rw [again] at step
      obtain ⟨gm, rest⟩ := s.requeue_spec clk c st ord (queuePrio storing) (.queued clk c st ord seq storing needs lat p far (withPrio p w))
      exact ⟨_, step, gm, fun n => absurd h n, fun _ => rest⟩
    · have leaves : s.judgeQueued clk c st ord seq storing needs lat prio far w = s.leaveQueue clk lat prio far w := if_neg fun k => h (keeps.mp k)
      rw [leaves] at step
      obtain ⟨gm, rest⟩ := s.leaveQueue_spec clk lat prio far w
      exact ⟨_, step, gm, fun _ => rest, fun k => absurd k h⟩

end Sys2Proof.Machine

/-! A pre-emption (R352, R353) of a binding whose ID two entries carry: the horizon that each takes counts from its own domain time, and the
statement counts both from the first entry's. -/

namespace Sys2Proof.Machine

/-- A released binding of ID 0 without members or stokers, at a domain time. -/
def twinBinding (dt : Nat) : Binding :=
  { bid := 0, launch := {}, queue := 0, run := 0, part := 0, asid := 0, root := 0, cg := false, members := [], stokers := [], fslot := 0, rel := 0
    relHc := some 0, dt := dt, live := false, pace := .running, horizon := none, faulted := false, preempt := false, stopped := false, reqHc := 0
    stopHc := 0, status := none, retired := [], shadows := [], swapping := none, quota := 0, phase := 0, moved := [] }

/-- A machine with two entries of ID 0, one at domain time 0 and one at 100. -/
def twinBindings : State := { State.reset with bindings := [twinBinding 0, twinBinding 100] }

/-- What the request makes of an entry: the horizon counts from that entry's own domain time. -/
theorem twinBindings_preempt : exec (.preemptRequest 0) twinBindings =
    .next (twinBindings.updBinding 0 fun b =>
      { b with preempt := true, reqHc := twinBindings.hc, horizon := b.horizon.or (some (8 * ((b.dt + 32 + 7) / 8))) }) := rfl

/-- Refutes O59: in `twinBindings` the second entry freezes at its own horizon, 136, and not at the first entry's, 32. -/
theorem not_librarianAndDispatchEventsDoTheirWork : ¬ Obligations.LibrarianAndDispatchEventsDoTheirWork := by
  intro holds
  obtain ⟨-, -, -, -, -, -, -, -, -, -, -, -, -, -, -, -, -, -, -, -, -, -, -, -, -, -, -, -, -, -, -, named, -⟩ :=
    holds twinBindings 0 (twinBinding 0) 0 ⟨0, 0, 0, 0, 0, 0, 0, 0, 0⟩
  obtain ⟨-, -, -, -, -, request⟩ := named rfl
  have same := Host.Outcome.next.inj (twinBindings_preempt.symm.trans (request rfl rfl))
  have horizons := congrArg (fun s : State => s.bindings.map (·.horizon)) same
  exact absurd horizons (by decide)

end Sys2Proof.Machine

/-! Vector comparison, masks, bits, shifts, permutes and transfers (R223 to R228, R231). -/

namespace Sys2Proof.Machine

/-- An instruction on strand C whose effect is one result, computed from the registers at issue, yields that result. -/
theorem State.yields_of_result {s : State} {c : CoreId} {st : StrandId} {h : Hdr} {i : Instr} {lat : Nat} {r r' : Result}
    (hi : s.Issues c st h { legal := [.c], writes := true })
    (he : exec i s = issue h { legal := [.c], writes := true } (fun u s => s.result u lat r') s) (hr : r' = r) : s.Yields c st h i lat r true := by
  subst hr
  exact State.yields_of rfl (he.trans (issue_ready hi _))

/-- As `State.yields_of_result`, for a result to a scalar register. -/
theorem State.yields_of_scalar {s : State} {c : CoreId} {st : StrandId} {h : Hdr} {i : Instr} {lat : Nat} {d : XReg} {v v' : Word}
    (hi : s.Issues c st h { legal := [.c], writes := true })
    (he : exec i s = issue h { legal := [.c], writes := true } (fun u s => s.xres u lat d v') s) (hv : v' = v) :
    s.Yields c st h i lat (xResult (s.strand c st).level d v) true := by
  subst hv
  exact State.yields_of rfl (he.trans (issue_ready hi _))

/-! ### Values -/

/-- A truth table on three words gives the bit of the table that the three bits name (R225, R226). -/
theorem getLsbD_lop3 {n : Nat} (tt : BitVec 8) (a b c : BitVec n) {j : Nat} (hj : j < n) :
    (lop3 tt a b c).getLsbD j = tt.getLsbD (4 * (a.getLsbD j).toNat + 2 * (b.getLsbD j).toNat + (c.getLsbD j).toNat) := by
  have term (i : Nat) (p q r : Bool) : (if tt.getLsbD i then (if p then a else ~~~a) &&& (if q then b else ~~~b) &&& (if r then c else ~~~c)
      else (0 : BitVec n)).getLsbD j =
      (tt.getLsbD i && (a.getLsbD j == p) && (b.getLsbD j == q) && (c.getLsbD j == r)) := by
    cases tt.getLsbD i <;> cases p <;> cases q <;> cases r <;> simp [hj]
  simp only [lop3, BitVec.getLsbD_or, term]
  cases a.getLsbD j <;> cases b.getLsbD j <;> cases c.getLsbD j <;> simp [Nat.testBit]

/-- A mask register with one word replaced (R225). -/
theorem extract_kmov (v : MaskData) (x : Word) (n i : BitVec 2) :
    (merge v (BitVec.ofNat 256 (x.toNat * 2 ^ (64 * n.toNat))) (BitVec.ofNat 256 ((2 ^ 64 - 1) * 2 ^ (64 * n.toNat)))).extractLsb' (64 * i.toNat) 64 =
      if i = n then x else v.extractLsb' (64 * i.toNat) 64 := by
  have hi := i.isLt
  have hn := n.isLt
  ext j hj
  have inside : 64 * i.toNat + j < 256 := by omega
  have ones : Nat.testBit ((2 ^ 64 - 1) * 2 ^ (64 * n.toNat)) (64 * i.toNat + j) = decide (i = n) := by
    rw [Nat.mul_comm, Nat.testBit_two_pow_mul, Nat.testBit_two_pow_sub_one]
    by_cases h : i = n
    · simp [h, hj]
    · have : i.toNat ≠ n.toNat := fun e => h (BitVec.eq_of_toNat_eq e)
      simp only [h, decide_false, Bool.and_eq_false_iff, decide_eq_false_iff_not]
      omega
  have word : i = n → Nat.testBit (x.toNat * 2 ^ (64 * n.toNat)) (64 * i.toNat + j) = x[j] := by
    rintro rfl
    rw [Nat.mul_comm x.toNat, Nat.testBit_two_pow_mul]
    simp [BitVec.getElem_eq_testBit_toNat]
  simp only [BitVec.getElem_extractLsb', merge, BitVec.getLsbD_or, BitVec.getLsbD_and, BitVec.getLsbD_not, BitVec.getLsbD_ofNat, inside, decide_true,
    Bool.true_and, ones]
  by_cases h : i = n
  · simp [h, ← word h]
  · simp [h]

/-- The lower half of a register before itself, shifted down, is the register rotated (R228). -/
theorem getLsbD_rotated (v : VecData) {n j : Nat} (hn : n < 2048) (hj : j < 2048) :
    ((v ++ v).extractLsb' (2048 - n) 2048).getLsbD ((j + n) % 2048) = v.getLsbD j := by
  have at' : (j + n) % 2048 < 2048 := Nat.mod_lt _ (by decide)
  rw [BitVec.getLsbD_extractLsb', BitVec.getLsbD_append, decide_eq_true at', Bool.true_and]
  by_cases h : j + n < 2048
  · have : ¬2048 - n + (j + n) % 2048 < 2048 := by omega
    simp only [this]
    exact congrArg v.getLsbD (by omega)
  · have : 2048 - n + (j + n) % 2048 < 2048 := by omega
    simp only [this]
    exact congrArg v.getLsbD (by omega)

/-! ### The statement -/

/-- Settles O50: each instruction's result is computed from the registers at issue. -/
theorem vectorMovesYieldTheirResults : Obligations.VectorMovesYieldTheirResults := by
  intro s c st h d a b e k ka kb kd xr xd f cond tt n first up hi
  have vec : (s.core c).rv = s.vec := funext fun r => by rw [State.vec, hi.me]
  have msk : (s.core c).rk = s.msk := funext fun r => by rw [State.msk, hi.me]
  have reads : s.x c st = s.reg := funext fun r => (hi.reg r).symm
  rw [vec, msk, reads]
  intro va vb m x level count elems whole inside window outcomes bits sh
  refine ⟨?vcmp, ?vsel, ?vmov, ?kop, ?kmov, ?vpopc, ?vlop3, ?vsll, ?vsrl, ?vsra, ?vfsl, ?vfsr, ?vrot, ?vperm, ?vslide, ?vbcast, ?vsplat, ?vext⟩
  case vcmp =>
    refine State.yields_of_result hi rfl ?_
    simp only [bits, List.foldl_filter, if_true]
    rfl
  case kop => exact ⟨_, State.yields_of_result hi rfl rfl, fun j hj => getLsbD_lop3 _ _ _ _ hj⟩
  case kmov => exact ⟨_, State.yields_of_result hi rfl rfl, fun i => extract_kmov _ _ _ _⟩
  case vpopc =>
    refine State.yields_of_scalar hi rfl ?_
    rw [List.countP_eq_length_filter]
    rfl
  case vlop3 => exact ⟨_, State.yields_of_result hi rfl rfl, fun j hj => getLsbD_lop3 _ _ _ _ hj⟩
  case vrot => exact ⟨_, State.yields_of_result hi rfl rfl, fun j hj => getLsbD_rotated _ (Nat.mod_lt _ (by decide)) hj⟩
  case vext => exact State.yields_of_scalar hi rfl rfl
  all_goals exact State.yields_of_result hi rfl rfl

end Sys2Proof.Machine

/-! What the host attachment, the links, the islands, the sensors, power and boot do (R8, R20, R22, R82, R305, R308, R309, R318, R332, R333,
R368 to R392). -/

namespace Sys2Proof.Machine

/-- No index satisfies what none satisfies. -/
theorem finRange_find?_none {n : Nat} {p : Fin n → Bool} (h : ∀ i, p i = false) : (List.finRange n).find? p = none :=
  List.find?_eq_none.mpr fun i _ => by simp [h i]

/-! ### The host (R308, R309, R372 to R374) -/

section Host

variable {s : State} {qp : Fin 256} {q : QPair} {rkey : Word32} {va n : Nat} {bytes : List Byte}

/-- What an RDMA WRITE, with or without an immediate, makes of a write that leaves `t` and was performed or not. -/
theorem State.writes_of {t : State} {told : Bool} (imm : Word32) (hq : s.usableQp qp = some q) (hw : s.hostWrite qp rkey va bytes = (t, told)) :
    exec (.rdmaWrite qp rkey va bytes) s = .next t ∧ exec (.rdmaWriteWithImmediate qp rkey va bytes imm) s =
      .next (if told = true ∧ q.launch = true ∧ s.boot.recovery = false then t.launchSignal imm else t) := by
  simp only [exec.eq_def, execRdmaWrite, execRdmaWriteWithImmediate, hw, hq]
  cases told <;> simp

/-- A write of the host to a region: out of it, into the recovery image, or where its pages lead. -/
theorem State.hostWrite_outside (hq : s.usableQp qp = some q) (hr : s.inRegion q rkey va bytes.length = false) :
    s.hostWrite qp rkey va bytes = (s.nakAccess qp, false) := by simp [State.hostWrite, hq, hr]
theorem State.hostWrite_recovery (hq : s.usableQp qp = some q) (hr : s.inRegion q rkey va bytes.length = true) (h : s.boot.recovery = true) :
    s.hostWrite qp rkey va bytes = ({ s with boot := { s.boot with image := Mem.write s.boot.image va bytes } }, true) := by
  simp [State.hostWrite, hq, hr, h]
theorem State.hostWrite_pages (hq : s.usableQp qp = some q) (hr : s.inRegion q rkey va bytes.length = true) (h : s.boot.recovery = false) :
    s.hostWrite qp rkey va bytes = match s.hostPlaces q.asid .write (piecesOf va bytes.length) with
      | .none => (s.nakAccess qp, false)
      | .shadowed a => ((s.nakAccess qp).event 12 [BitVec.ofNat 64 a, BitVec.ofNat 64 q.asid], false)
      | .pieces ps => ((ps.foldl (fun (r : State × List Byte) p => (r.1.storeAt .gm p.1 (r.2.take p.2), r.2.drop p.2)) (s, bytes)).1, true) := by
  simp only [State.hostWrite, hq, hr, h]
  rfl

/-- Free bytes are as many as asked for. -/
theorem length_freeBytes (n len : Nat) : (freeBytes n len).length = len := by
  have words (l : List Nat) (f : Nat → Nat) : ((l.map fun i => leBytes 8 (f i)).flatten).length = 8 * l.length := by
    rw [List.length_flatten, List.map_map]
    have : (List.length ∘ fun i => leBytes 8 (f i)) = fun _ => 8 := funext fun i => length_leBytes 8 (f i)
    rw [this, List.map_const', List.sum_replicate, smul_eq_mul, Nat.mul_comm]
  rw [freeBytes, List.length_take, words, List.length_range]
  omega

/-- Lines with uncorrectable errors stay as they are when one is recorded. -/
theorem State.errorRecord_kept (s : State) (src : Fin 9) (addr bid unit : Nat) :
    (s.errorRecord src addr bid unit).gm = s.gm ∧ (s.errorRecord src addr bid unit).xlate = s.xlate ∧
      (s.errorRecord src addr bid unit).choice = s.choice := by
  simp only [State.errorRecord, State.event]
  split
  · exact ⟨rfl, rfl, rfl⟩
  · split <;> exact ⟨rfl, rfl, rfl⟩

/-- Bytes that the host reads across a line with an uncorrectable error: those of other lines are as they stand. -/
theorem State.hostRead_bad {as : List Nat} {line : Nat} (h : s.badGm as = some line) : ∃ bs k, bs.length = as.length ∧
    (∀ (j a : Nat), as[j]? = some a → s.badGm [a] = none → bs[j]? = some (s.gm.get a)) ∧
    s.hostRead as = ({ s.errorRecord 5 line 0 0 with choice := s.choice + k }, bs) := by
  obtain ⟨gm, xlate, choice⟩ := s.errorRecord_kept 5 line 0 0
  let free := freeBytes (s.errorRecord 5 line 0 0).choice as.length
  have length : free.length = as.length := length_freeBytes _ _
  refine ⟨(as.zip free).map fun (a, f) => if (s.badGm [a]).isSome then f else s.gm.get a, as.length / 8 + 1, by simp [length], ?_, ?_⟩
  · intro j a ha hb
    have hj : j < as.length := (List.getElem?_eq_some_iff.mp ha).1
    have at' : (as.zip free)[j]? = some (a, free[j]'(by omega)) := by
      rw [List.getElem?_zip_eq_some]
      exact ⟨ha, List.getElem?_eq_getElem _⟩
    simp [List.getElem?_map, at', hb]
  · let u : State := { s.errorRecord 5 line 0 0 with choice := (s.errorRecord 5 line 0 0).choice + as.length / 8 + 1 }
    have read : s.hostRead as = (u, (as.zip free).map fun (a, f) => if (u.badGm [a]).isSome then f else u.gm.get a) := by
      rw [State.hostRead, h]
      rfl
    have bad (l : List Nat) : u.badGm l = s.badGm l := by rw [State.badGm, State.badGm, show u.xlate = s.xlate from xlate]
    rw [read, ← choice]
    simp only [bad, show u.gm = s.gm from gm]
    rfl

/-- A signal to a queue that stands: its tail goes on, too far, or not at all (R309). -/
theorem State.launchSignal_some {imm : Word32} {q : Nat} {l : LQueue} (hq : bitsAt imm.toNat 26 6 = q) (h : s.queue q = some l) :
    s.launchSignal imm =
      let tail : BitVec 16 := imm.setWidth 16
      let d := (tail - l.tail).toInt
      if d ≤ 0 then s
      else if 2 ^ l.k < (tail - l.head).toNat then s.event 1 [imm.setWidth 64]
      else if bitsAt imm.toNat 16 10 ≠ 0 then s.event 2 [imm.setWidth 64]
      else ((List.range d.toNat).foldl (fun (u : State) j => u.acceptRecord q (l.tail.toNat + j)) { s with lib := { s.lib with
        queues := vmod s.lib.queues ⟨q % 64, Nat.mod_lt _ (by decide)⟩ fun o => o.map fun o => { o with tail := tail } } }).sometime
          (.ev .eligibilityTest) latePrio := by
  subst hq
  simp only [State.launchSignal, h]

end Host

/-! ### Islands, sensors and the cap (R376 to R384) -/

section Power

theorem getElem_vmod {α : Type} {n : Nat} (v : Vector α n) (i j : Fin n) (f : α → α) : (vmod v i f)[j.val] = if j = i then f v[j.val] else v[j.val] := by
  rw [vmod, Vector.getElem_set]
  by_cases h : j = i
  · subst h; simp
  · rw [if_neg h, if_neg fun e => h (Fin.ext e.symm)]

theorem State.island_updIsland (s : State) (i j : Fin 64) (f : Island → Island) :
    (s.updIsland i f).island j = if j = i then f (s.island j) else s.island j := getElem_vmod s.islands i j f

/-- The setting of an island never falls under a request for a step that is not below it. -/
theorem State.setFstep_raises (s : State) (i j : Fin 64) (n : Nat) (h : (s.island i).setting ≤ n) :
    (s.island j).setting ≤ ((s.setFstep i n).island j).setting := by
  have asked (k : Island) (t : Nat) : (k.ask t).setting = k.setting := by
    unfold Island.ask Island.beginHop
    split
    · rfl
    · split
      · rfl
      · split <;> rfl
  unfold State.setFstep
  split
  · exact le_refl _
  · rw [State.island_updIsland]
    by_cases e : j = i
    · subst e
      rw [if_pos rfl]
      split
      · exact h
      · rw [asked]; exact h
    · rw [if_neg e]

theorem State.setFstep_kept (s : State) (i : Fin 64) (n : Nat) : (s.setFstep i n).gm = s.gm ∧ (s.setFstep i n).cores = s.cores := by
  unfold State.setFstep
  split <;> exact ⟨rfl, rfl⟩

/-- Each field of raised gaps is the greater of the two. -/
theorem raiseGaps_field (old new : Word) {j : Nat} (h : j < 4) : ((raiseGaps old new).extractLsb' (16 * j) 16).toNat =
    max (old.extractLsb' (16 * j) 16).toNat (new.extractLsb' (16 * j) 16).toNat := by
  let m (j : Nat) : Nat := max (Word.bits old (16 * j) 16) (Word.bits new (16 * j) 16)
  have small (j : Nat) : m j < 2 ^ 16 := max_lt (Nat.mod_lt _ (by decide)) (Nat.mod_lt _ (by decide))
  have sum : (raiseGaps old new).toNat = m 0 + 2 ^ 16 * m 1 + 2 ^ 32 * m 2 + 2 ^ 48 * m 3 := by
    have : raiseGaps old new = BitVec.ofNat 64 (m 0 + 2 ^ 16 * m 1 + 2 ^ 32 * m 2 + 2 ^ 48 * m 3) := by
      rw [raiseGaps, show List.range 4 = [0, 1, 2, 3] from rfl]
      simp only [List.foldl_cons, List.foldl_nil, Nat.mul_zero, Nat.pow_zero, Nat.one_mul, Nat.zero_add, m]
    have h0 := small 0
    have h1 := small 1
    have h2 := small 2
    have h3 := small 3
    rw [this, BitVec.toNat_ofNat]
    omega
  rw [← Word.bits_eq, ← Word.bits_eq, ← Word.bits_eq]
  show Word.bits (raiseGaps old new) (16 * j) 16 = m j
  rw [Word.bits, bitsAt, sum]
  have h0 := small 0
  have h1 := small 1
  have h2 := small 2
  have h3 := small 3
  interval_cases j <;> omega

/-- Acting on a lower cap raises settings and gaps (R383). -/
theorem State.enforceCap_raises (s : State) : let t := s.enforceCap true
    t.gm = s.gm ∧ (∀ j : Fin 64, (s.island j).setting ≤ (t.island j).setting) ∧
      ∀ e : CoreId, ∀ j < 4, ((s.core e).damph.extractLsb' (16 * j) 16).toNat ≤ ((t.core e).damph.extractLsb' (16 * j) 16).toNat ∧
        ((s.core e).dampx.extractLsb' (16 * j) 16).toNat ≤ ((t.core e).dampx.extractLsb' (16 * j) 16).toNat := by
  intro t
  let chosen (i : Fin 64) : Bool := Config.choose (s.choice + i.val)
  let cores : Vector Core 256 := Vector.ofFn fun c => if chosen (islandOf c) then
    { s.cores[c] with damph := raiseGaps s.cores[c].damph (Config.datum (s.choice + (128 + c.val)))
                      dampx := raiseGaps s.cores[c].dampx (Config.datum (s.choice + (384 + c.val))) } else s.cores[c]
  let f (u : State) (i : Fin 64) : State :=
    if chosen i then u.setFstep i (max (u.island i).setting (Config.delay (s.choice + 64 + i.val) % 9)) else u
  have ht : t = (List.finRange 64).foldl f { s with choice := s.choice + 640, cores := cores } := by
    simp only [t, State.enforceCap, if_true]
    rfl
  have folded : t.gm = s.gm ∧ t.cores = cores ∧ ∀ j : Fin 64, (s.island j).setting ≤ (t.island j).setting := by
    rw [ht]
    refine foldl_keeps (P := fun t : State => t.gm = s.gm ∧ t.cores = cores ∧ ∀ j : Fin 64, (s.island j).setting ≤ (t.island j).setting) f
      (fun u i hu => ?_) _ _ ⟨rfl, rfl, fun j => Nat.le_refl s.islands[j.val].setting⟩
    obtain ⟨gm, same, higher⟩ := hu
    simp only [f]
    split
    · obtain ⟨gm', same'⟩ := u.setFstep_kept i (max (u.island i).setting (Config.delay (s.choice + 64 + i.val) % 9))
      exact ⟨gm'.trans gm, same'.trans same, fun j => (higher j).trans (u.setFstep_raises i j _ (le_max_left _ _))⟩
    · exact ⟨gm, same, higher⟩
  obtain ⟨gm, same, higher⟩ := folded
  refine ⟨gm, higher, fun e j hj => ?_⟩
  have core : t.core e = if chosen (islandOf e) then
      { s.core e with damph := raiseGaps (s.core e).damph (Config.datum (s.choice + (128 + e.val)))
                      dampx := raiseGaps (s.core e).dampx (Config.datum (s.choice + (384 + e.val))) } else s.core e := by
    show t.cores[e.val] = _
    simp only [same, cores, Vector.getElem_ofFn]
    rfl
  rw [core]
  split
  · simp only [raiseGaps_field _ _ hj]
    exact ⟨le_max_left _ _, le_max_left _ _⟩
  · exact ⟨le_refl _, le_refl _⟩

/-- A sample of the sensors measures every temperature, and the charge of every island that no reserve hold stops (R381, R384). -/
theorem State.temperatureSample_spec (s : State) : ∃ t, exec .temperatureSample s = .next t ∧ t.gm = s.gm ∧ t.lib.lastSample = s.hc ∧
    (∀ n : Fin 320, ∃ j, (t.sensor n).temp = (Config.datum j).setWidth 16) ∧
    ∀ j : Fin 64, if (s.island j).holding then t.island j = s.island j else ∃ l, t.island j = { s.island j with level := (Config.datum l).setWidth 16 } := by
  let Sampled (t : State) : Prop := t.gm = s.gm ∧ t.lib.lastSample = s.hc ∧
    (∀ n : Fin 320, ∃ j, (t.sensor n).temp = (Config.datum j).setWidth 16) ∧
    ∀ j : Fin 64, if (s.island j).holding then t.island j = s.island j else ∃ l, t.island j = { s.island j with level := (Config.datum l).setWidth 16 }
  have capture (u : State) (c : CoreId) (st : Option StrandId) (k v : Nat) (hu : Sampled u) : Sampled (u.capture c k st v) := by
    have e := (Kept.capture u c k st v).storage
    have gm : (u.capture c k st v).gm = u.gm := (congrArg State.gm e :)
    have sample : (u.capture c k st v).lib.lastSample = u.lib.lastSample := (congrArg (fun s : State => s.lib.lastSample) e :)
    have sensor (n : Fin 320) : (u.capture c k st v).sensor n = u.sensor n := (congrArg (fun s : State => s.sensor n) e :)
    have island (j : Fin 64) : (u.capture c k st v).island j = u.island j := (congrArg (fun s : State => s.island j) e :)
    simp only [Sampled, gm, sample, sensor, island]
    exact hu
  let sample (n : Nat) (k : Sensor) : Sensor :=
    let k := { k with temp := (Config.datum n).setWidth 16 }
    { k with cool := if k.throttling ∧ k.below k.throttle then some (k.cool.getD s.hc) else none }
  let v : State := { s with
    choice := s.choice + 384, lib := { s.lib with lastSample := s.hc }, sensors := Vector.ofFn fun i => sample (s.choice + i.val) s.sensors[i]
    islands := Vector.ofFn fun i => if s.islands[i].holding then s.islands[i] else
      { s.islands[i] with level := (Config.datum (s.choice + 320 + i.val)).setWidth 16 } }
  have start : Sampled v := by
    refine ⟨rfl, rfl, fun n => ⟨s.choice + n.val, by simp [State.sensor, v, sample]⟩, fun j => ?_⟩
    have at' : v.island j = if (s.island j).holding then s.island j else
      { s.island j with level := (Config.datum (s.choice + 320 + j.val)).setWidth 16 } := by
      simp only [State.island, v, Fin.getElem_fin, Vector.getElem_ofFn]
      rfl
    rw [at']
    split
    · rfl
    · exact ⟨_, rfl⟩
  let hottest (u : State) (c : CoreId) : State := u.capture c 6 none (u.hotDegrees (islandOf c))
  let counted (u : State) (i : Fin 64) : State := { u with life := { u.life with temps := histAdd u.life.temps i.val (capBin (u.hotDegrees i)) 1 } }
  have step : exec .temperatureSample s = .next ((List.finRange 64).foldl counted ((List.finRange 256).foldl hottest v)) := rfl
  exact ⟨_, step, foldl_keeps (P := Sampled) counted (fun u _ hu => hu) _ _
    (foldl_keeps (P := Sampled) hottest (fun u c hu => capture u c _ _ _ hu) _ v start)⟩

end Power

/-- Settles O60: each event's arm with its conditions; what the cap and the sensors do stands in the lemmas above. -/
theorem hostLinkAndPowerEventsDoTheirWork : Obligations.HostLinkAndPowerEventsDoTheirWork := by
  intro s qp rkey va n bytes imm i k c v
  refine ⟨?noQp, ?qp, ?signal, ?port, ?buffer, ?noClean, ?clean, ?walkErr, ?migrate, ?pageFree, ?stripe, ?mapPage, ?domain, ?noCorr, ?corr, ?ownDev,
    ?device, ?lose, ?lane, ?noRemote, ?remote, ?try_, ?queueRemote, ?remotes, ?hopBad, ?hop, ?ask, ?startHop, ?noHopEnd, ?hopEnd, ?noRetry, ?retry,
    ?droop, ?advise, ?droopEnd, ?reserve, ?lease, ?leaseOver, ?leaseGoes, ?cap, ?enforce, ?sample, ?adviseTrip, ?throttleTrip, ?noStep, ?step,
    ?noTrip, ?trip, ?shutdown, ?scrub, ?capcfg, ?regs, ?slot, ?cold, ?restart, ?power, ?orderly, ?attest⟩
  case droopEnd => rfl
  case reserve => rfl
  case scrub => rfl
  case lane => intro port; rfl
  case startHop => rfl
  case cold => rfl
  case power => rfl
  case orderly => rfl
  case advise => rfl
  case capcfg => intro j; rfl
  case noQp =>
    intro hq
    simp [exec.eq_def, execRdmaWrite, execRdmaWriteWithImmediate, execRdmaRead, execInvalidRequest, State.hostWrite, hq]
  case qp =>
    intro q hq writes reads
    have write {t told} (hw : s.hostWrite qp rkey va bytes = (t, told)) : writes t told := State.writes_of imm hq hw
    have read {t} (hr : execRdmaRead qp rkey va n s = .next t) : reads t := hr
    refine ⟨fun hr => write (State.hostWrite_outside hq hr), fun hr => read (by simp [execRdmaRead, hq, hr]),
      fun h => ⟨fun hr => write (State.hostWrite_recovery hq hr h), fun hr => read (by simp [execRdmaRead, hq, hr, h])⟩, fun h => ⟨fun hr => ?_, fun hr => ?_⟩,
      by simp [exec.eq_def, execInvalidRequest, hq]⟩
    · have pages := State.hostWrite_pages (s := s) hq hr h
      exact ⟨fun e => write (pages.trans (by rw [e])), fun a e => write (pages.trans (by rw [e])), fun ps e => write (pages.trans (by rw [e]))⟩
    · have goes : execRdmaRead qp rkey va n s = .next (match s.hostPlaces q.asid .read (piecesOf va n) with
          | .pieces ps => (s.hostRead (ps.flatMap fun p => span p.1 p.2)).1.reply (.bytes qp.val (s.hostRead (ps.flatMap fun p => span p.1 p.2)).2)
          | _ => s.nakAccess qp) := by
        simp only [execRdmaRead, hq, hr, h]
        rfl
      refine ⟨fun ps e => ⟨fun good => read (goes.trans ?_), fun line bad => ?_⟩, fun e => read (goes.trans ?_)⟩
      · simp [e, State.hostRead, good]
      · obtain ⟨bs, k, length, kept, eq⟩ := State.hostRead_bad bad
        exact ⟨bs, k, length, kept, read (goes.trans (by rw [e]; simp only [eq]))⟩
      · split
        · next ps e' => exact absurd e' (e ps)
        · rfl
  case signal =>
    intro q tail
    have queue : bitsAt imm.toNat 26 6 = q := by simp [q, bitsAt, BitVec.extractLsb'_toNat, Nat.shiftRight_eq_div_pow]
    have rest : bitsAt imm.toNat 16 10 = 0 ↔ imm.extractLsb' 16 10 = 0 := by
      rw [← BitVec.toNat_inj]
      simp [bitsAt, BitVec.extractLsb'_toNat, Nat.shiftRight_eq_div_pow]
    refine ⟨fun h => by simp only [State.launchSignal, queue, h], fun l h => ?_⟩
    have judged := State.launchSignal_some (imm := imm) queue h
    intro d
    refine ⟨fun h1 => judged.trans (if_pos h1), fun h1 h2 => judged.trans ?_, fun h1 h2 h3 => judged.trans ?_, fun h1 h2 h3 => judged.trans ?_⟩
    · exact (if_neg (not_le.mpr h1)).trans (if_pos h2)
    · exact (if_neg (not_le.mpr h1)).trans ((if_neg (not_lt.mpr h2)).trans (if_pos (fun e => h3 (rest.mp e))))
    · exact (if_neg (not_le.mpr h1)).trans ((if_neg (not_lt.mpr h2)).trans (if_neg (not_not.mpr (rest.mpr h3))))
  case port =>
    intro port
    refine ⟨_, rfl, rfl, ?_, ?_, fun j => by simp⟩ <;> cases port <;> simp
  case buffer =>
    intro part h
    refine ⟨fun a ha => ?_, fun none => ?_⟩
    · simp only [exec.eq_def, execReceiveBufferPosted]
      rw [ha]
    · have found : s.host.answers.find? (fun a => a.1 == part) = Option.none := List.find?_eq_none.mpr fun a ha => by simpa using none a ha
      refine ⟨fun e rest he => ?_, fun he => ?_⟩ <;> simp only [exec.eq_def, execReceiveBufferPosted, found, h, show s.host.held = _ from he]
  case noClean =>
    intro h
    simp only [exec.eq_def, execQuarantineRelease, h]
  case clean =>
    intro p hp left pool
    have pooled : (if (assocGet s.lib.poolStripes (p.1 / 2 ^ 30)).isSome && p.2.1 != 30 then s.xlate.pool ++ [(p.1, p.2.1)] else s.xlate.pool) = pool := by
      simp only [pool, Bool.and_eq_true, bne_iff_ne]
    refine ⟨fun hw => ?_, fun w ws hw => ?_⟩ <;> simp only [exec.eq_def, execQuarantineRelease, hp, hw, pooled] <;> rfl
  case walkErr =>
    intro asid dst e h
    simp only [exec.eq_def, execMigration, h]
  case migrate =>
    intro asid dst l h base
    refine ⟨fun hm => ?_, fun hm => by simp only [exec.eq_def, execMigration, h, hm]; rfl⟩
    have parts := hm
    simp only [State.migratable, Bool.and_eq_true, Bool.not_eq_true', bne_iff_ne, decide_eq_true_eq] at parts
    obtain ⟨⟨⟨⟨⟨⟨⟨pin, sh⟩, bits⟩, aligned⟩, inter⟩, stripe⟩, free⟩, -⟩ := parts
    exact ⟨pin, sh, bits, aligned, inter, stripe, free, by simp only [exec.eq_def, execMigration, h, hm]; rfl⟩
  case pageFree =>
    intro pa bits h apart
    simp only [State.pageFree, Bool.and_eq_true, List.all_eq_true, Bool.or_eq_true, decide_eq_true_eq] at h
    obtain ⟨⟨leaves, tables⟩, used⟩ := h
    have busy (p : Nat × Nat) (hp : p ∈ s.busyPages) : apart p.1 (2 ^ p.2) := used p (List.mem_append_right _ hp)
    refine ⟨tables, leaves, fun p hp => used p (by simp [hp]), fun m hm => ⟨busy (m.src, m.bits) ?_, busy (m.dst, m.bits) ?_⟩, fun b hb e he =>
      busy (e.copy, e.bits) ?_⟩
    · exact List.mem_append_left _ (List.mem_append_left _ (List.mem_flatMap.mpr ⟨m, hm, by simp⟩))
    · exact List.mem_append_left _ (List.mem_append_left _ (List.mem_flatMap.mpr ⟨m, hm, by simp⟩))
    · exact List.mem_append_left _ (List.mem_append_right _ (List.mem_flatMap.mpr ⟨b, hb, List.mem_map.mpr ⟨e, he, rfl⟩⟩))
  case stripe =>
    intro asid pa h
    simp only [State.stripeOpen, State.stripeKept, Bool.and_eq_true, Bool.not_eq_true', Bool.or_eq_false_iff, Option.isSome_eq_false_iff,
      Option.isNone_iff_eq_none, List.any_eq_false, beq_iff_eq] at h
    obtain ⟨⟨pool, tables⟩, part⟩ := h
    refine ⟨pool, tables, ?_⟩
    split at part
    · next q p hq hp => exact ⟨q, hq, fun p' h' => by rw [hp] at h'; exact (Option.some.inj h').symm.trans (by simpa using part)⟩
    · next q hq hp => exact ⟨q, hq, fun p' h' => absurd (hp.symm.trans h') nofun⟩
    · exact absurd part nofun
  case mapPage =>
    intro asid bits h
    refine if_pos ?_
    rcases h with h | h <;> simp [h]
  case domain =>
    intro self members can
    let no := s.lib.nextRec != 0 || !s.bindings.isEmpty || s.boot.recovery || decide (2 ^ 14 ≤ self) || !(members.all fun d => decide (d < 2 ^ 14)) ||
      !members.contains self
    have judged : can ↔ no = false := by
      simp only [can, no, Bool.or_eq_false_iff, bne_eq_false_iff_eq, Bool.not_eq_false', List.isEmpty_iff, decide_eq_false_iff_not, not_le,
        List.all_eq_true, decide_eq_true_eq, List.contains_iff_mem]
      tauto
    have step : exec (.domainFormation self members) s = .next (if no then s else
        { s with devId := self, choice := s.choice + 1, hc := s.hc + Config.delay s.choice, lib := { s.lib with domMembers := members.dedup } }) := rfl
    exact ⟨fun h => ⟨_, step.trans (by rw [judged.mp h]; rfl)⟩, fun h => step.trans (by rw [Bool.eq_true_of_not_eq_false (mt judged.mpr h)]; rfl)⟩
  case noCorr =>
    intro h
    exact congrArg _ (if_pos (by simpa using h))
  case corr =>
    intro h1 h2
    exact congrArg _ (if_neg (by simp [h1, h2]))
  case ownDev => exact congrArg _ (if_pos rfl)
  case device =>
    intro dev h
    exact congrArg _ (if_neg h)
  case lose =>
    intro a u held
    have same : (match (u.strand a.core a.strand).wait with | some w => decide (w.ord = a.ord) && (opDest a.op).isSome | none => false) = held := by
      simp only [held]
      cases (u.strand a.core a.strand).wait <;> rfl
    exact congrArg (fun b : Bool => if b then u.trap a.core a.strand { cause := 5, epc := a.pos, i0 := BitVec.ofNat 64 a.va, i1 := 3 }
      else u.endBinding (u.bidOf a.core) 1) same
  case noRemote =>
    intro dev addr op rel h
    exact congrArg _ (if_pos (by rcases h with h | h <;> rw [h] <;> simp))
  case remote =>
    intro dev addr op rel h1 h2 r
    have step : exec (.remoteAccess dev addr op rel) s = .next (if s.lib.remote.any (·.1 == dev) then s.queueRemote dev addr op
        else if r.2 then r.1 else r.1.queueRemote dev addr op) := by
      simp only [exec.eq_def, execRemoteAccess, h1, h2, r]
      cases s.tryRemote addr op with
      | mk u b => cases b <;> rfl
    exact ⟨fun h => step.trans (by rw [h]; rfl), fun h => step.trans (by rw [h]; rfl)⟩
  case try_ =>
    intro addr op u told lost place
    refine ⟨fun h => ?_, fun p l h => ?_⟩
    · simp only [State.tryRemote, State.draw]
      cases hp : place
      case pa p l => exact absurd hp (h p l)
      all_goals rw [show State.hit { s with choice := s.choice + 1 } none 0xFFFF _ false true addr (remoteAcc op) = _ from hp]
      all_goals rfl
    intro ask
    refine ⟨fun line bad => ?_, fun good no => ?_, fun good yes none => ?_, fun o good yes some => ?_⟩
    all_goals simp only [State.tryRemote, State.draw]
    all_goals rw [show State.hit { s with choice := s.choice + 1 } Option.none 0xFFFF _ false true addr (remoteAcc op) = _ from h]
    all_goals dsimp only
    · rw [show State.badGm { s with choice := s.choice + 1 } [p] = _ from bad]
      rfl
    all_goals rw [show State.badGm { s with choice := s.choice + 1 } [p] = _ from good]
    all_goals dsimp only
    · rw [show State.serve { s with choice := s.choice + 1 } .md [p] = (ask.1, false) from Prod.ext rfl no]
    · rw [show State.serve { s with choice := s.choice + 1 } .md [p] = (ask.1, true) from Prod.ext rfl yes, none]
    · rw [show State.serve { s with choice := s.choice + 1 } .md [p] = (ask.1, true) from Prod.ext rfl yes, some]
  case queueRemote =>
    intro dev addr op t
    have ht : t = if s.lib.remote.isEmpty then ({ s with lib := { s.lib with remote := s.lib.remote ++ [(dev, addr, op)] } } : State).post .hc (s.hc + 1)
      effects .remotes else { s with lib := { s.lib with remote := s.lib.remote ++ [(dev, addr, op)] } } := rfl
    refine ⟨?_, ?_, fun h => ⟨s.order, ?_⟩⟩
    · rw [ht]; split <;> rfl
    · rw [ht]; split <;> rfl
    · rw [ht, if_pos (by rw [h]; rfl)]
      exact List.mem_cons_self
  case remotes =>
    intro dev addr op h u
    have step : s.runWork exec .remotes = .next (match u.tryRemote addr op with | (s, true) => s | (s, false) => s.queueRemote dev addr op) := by
      simp only [State.runWork, State.retryRemotes, h, List.foldl_cons, List.foldl_nil, List.any_nil]
      rfl
    rw [step]
    cases u.tryRemote addr op with
    | mk t b => cases b <;> rfl
  case hopBad =>
    intro step h
    exact congrArg _ (if_pos h)
  case hop =>
    intro step h
    exact congrArg _ (if_neg (by omega))
  case ask =>
    intro k step
    refine ⟨fun h hh => ?_, fun h1 h2 => ?_, fun h1 h2 h3 => ?_, fun h1 h2 h3 => ?_, rfl⟩
    · simp [Island.ask, hh]
    · simp [Island.ask, h1, h2]
    · simp [Island.ask, Island.beginHop, h1, h2, h3]
    · simp [Island.ask, Island.beginHop, h1, h2, h3]
  case noHopEnd =>
    intro h
    simp only [exec.eq_def, execHopComplete, finRange_find?_none h]
  case hopEnd =>
    intro h step
    have ended : exec .hopComplete s = .next ((s.noteStep i).updIsland i fun k => k.endHop (k.hop.getD k.fstep)) := by
      simp only [exec.eq_def, execHopComplete, h]
    have noted (j : Fin 64) : (s.noteStep i).island j = if j = i then { s.island j with since := s.hc } else s.island j :=
      getElem_vmod s.islands i j _
    have own : ((s.noteStep i).updIsland i fun k => k.endHop (k.hop.getD k.fstep)).island i = ({ s.island i with since := s.hc } : Island).endHop step := by
      rw [State.island_updIsland, if_pos rfl, noted, if_pos rfl]
    have hops (k : Island) (w : Nat) (hk : k.hop = none) : (k.ask w).fstep = k.fstep ∧ (w = k.fstep → (k.ask w).hop = none) ∧
        (w ≠ k.fstep → (k.ask w).hop = some w) := by
      unfold Island.ask Island.beginHop
      rw [if_neg (by simp [hk])]
      split
      · next e => exact ⟨rfl, fun _ => hk, fun ne => absurd e.symm ne⟩
      · next e => split <;> exact ⟨rfl, fun w => absurd w.symm e, fun _ => rfl⟩
    refine ⟨ended, _, ended, rfl, ?_, fun j hj => ?_, fun hw => ?_, fun w hw ne => ?_⟩
    · rw [own]
      exact (hops _ _ rfl).1
    · rw [State.island_updIsland, if_neg hj, noted, if_neg hj]
    · rw [own]
      refine (hops _ _ rfl).2.1 ?_
      rw [show ({ s.island i with since := s.hc } : Island).want = none from hw]
      rfl
    · rw [own, Island.endHop, show ({ s.island i with since := s.hc } : Island).want = some w from hw]
      exact (hops _ _ rfl).2.2 ne
  case noRetry =>
    intro h
    simp only [exec.eq_def, execHopRetry, finRange_find?_none h]
  case retry =>
    intro h
    simp only [exec.eq_def, execHopRetry, h]
  case droop =>
    intro k u
    have step : exec (.supplyDroop i) s = .next (if k.hop.isNone ∨ k.retry then u
        else if 16 ≤ k.aborts + 1 then (u.updIsland i fun k => k.endHop k.fstep).post .hc s.hc (latePrio + 2 ^ 64) (.advise i)
        else u.updIsland i fun k => { k with retry := true, aborts := k.aborts + 1 }) := rfl
    have hops (h1 : k.hop.isSome = true) (h2 : k.retry = false) : ¬(k.hop.isNone = true ∨ k.retry = true) := by
      rw [h2]
      simpa [Option.isSome_iff_ne_none] using h1
    refine ⟨fun h => ?_, fun h1 h2 h3 => ?_, fun h1 h2 h3 => ?_⟩
    · rw [step, if_pos (by simpa using h)]
    · rw [step, if_neg (hops h1 h2), if_neg (by omega)]
    · rw [step, if_neg (hops h1 h2), if_pos (by omega)]
  case lease =>
    intro w0 w1 w2 w3 good
    have low : Word.bits w1 0 32 = w1.toNat % 2 ^ 32 := by simp [Word.bits, bitsAt]
    have high : Word.bits w1 32 32 = w1.toNat / 2 ^ 32 % 2 ^ 32 := rfl
    have size := w1.isLt
    refine ⟨fun h => ?_, fun h => ?_⟩
    · obtain ⟨h1, h2, h3, h4⟩ := h
      have watts : Word.bits w1 0 32 = w1.toNat := by omega
      refine (congrArg Host.Outcome.next (if_neg ?_)).trans (by rw [watts])
      rw [watts]
      rintro (h | h | h | h | h)
      · omega
      · exact h h3
      · omega
      · omega
      · omega
    · refine congrArg Host.Outcome.next (if_pos ?_)
      by_contra no
      simp only [not_or, not_not, not_lt, not_le] at no
      obtain ⟨h1, h2, h3, h4, h5⟩ := no
      have watts : Word.bits w1 0 32 = w1.toNat := by omega
      exact h ⟨by omega, by omega, h2, h5⟩
  case leaseOver =>
    intro h
    exact congrArg _ (if_pos h)
  case leaseGoes =>
    intro h
    exact congrArg _ (if_neg (by simp [h]))
  case cap =>
    intro old
    refine ⟨fun h => if_pos h, fun h => ⟨Config.delay s.choice % 2251, by omega, if_neg h⟩⟩
  case enforce => exact ⟨_, rfl, s.enforceCap_raises⟩
  case sample => exact s.temperatureSample_spec
  case adviseTrip =>
    intro due
    refine ⟨fun h => ?_, fun h => ?_⟩ <;> simp only [exec.eq_def, execAdviseTrip]
    · rw [finRange_find?_none h]
    · rw [h]
      rfl
  case throttleTrip =>
    intro due
    refine ⟨fun h => ?_, fun h => ?_⟩ <;> simp only [exec.eq_def, execThrottleTrip]
    · rw [finRange_find?_none h]
    · rw [h]
  case noStep =>
    intro h
    simp only [exec.eq_def, execThrottleStep, finRange_find?_none h]
  case step =>
    intro h z aim next
    simp only [exec.eq_def, execThrottleStep, h]
    rfl
  case noTrip =>
    intro h
    simp only [exec.eq_def, execTripEnd, finRange_find?_none h]
  case trip =>
    intro h cooled u
    let model (z : Sensor) : Bool := match z.cool with | some h => z.throttling && decide (h + 2250 ≤ s.hc) | none => false
    let ended (isOver : Sensor → Bool) : Host.Outcome State Fault Refusal :=
      let u := s.updSensor k fun z => { z with
        advised := z.advised && !z.below z.advise, throttling := z.throttling && !isOver z, cool := if isOver z then none else z.cool }
      .next (if (islandSensors (sensorIsland k)).any fun m => (u.sensor m).throttling then u
        else u.updIsland (sensorIsland k) fun z => if z.throttled then { z with throttled := false, thrNext := some (s.hc + 2250) } else z)
    have same : model = cooled := by
      funext z
      simp only [model, cooled]
      cases z.cool <;> simp
    have step : exec .tripEnd s = ended model := by
      simp only [exec.eq_def, execTripEnd, h]
      rfl
    rw [step, same]
  case shutdown =>
    intro due
    refine ⟨fun h => ?_, fun h => ⟨Config.delay s.choice % 2250000, by omega, ?_⟩⟩ <;> simp only [exec.eq_def, execShutdownTrip]
    · rw [finRange_find?_none h]
    · rw [h]
      rfl
  case regs =>
    intro point
    refine ⟨rfl, rfl, ?_, rfl, rfl, ?_, fun ws => ?_, fun _ => rfl, fun _ _ => rfl, fun _ _ => rfl, fun _ => rfl, fun _ _ => rfl, ?_, fun h => ?_, rfl, rfl,
      fun h => congrArg _ (if_pos h), fun h => ⟨s.hc + 1 + Config.delay s.choice, by omega, congrArg _ (if_neg (by simp [h]))⟩⟩
    · rw [← Word.bits_eq]; rfl
    · rw [← Word.bits_eq, ← Word.bits_eq, ← Word.bits_eq]; rfl
    · refine congrArg (fun w => Host.Outcome.next (s.writeSlot c w)) (Vector.ext fun j hj => ?_)
      rw [Vector.getElem_ofFn]
      interval_cases j <;> rfl
    · intro port part launch q
      refine ⟨fun h1 h2 => congrArg _ ((if_neg (by simp [h1, h2])).trans ?_), fun h => congrArg _ (if_pos (by simpa using h))⟩
      rw [Word.bits_eq]
    · exact congrArg _ (if_neg (by simp [h]))
  case slot =>
    intro ws z reserved
    let l := ((s.binding (slotTask ws).1).map (·.launch)).getD {}
    have length : 0 < l.loadTicks := Nat.add_pos_left (by decide) _
    have ticks : 1 + Config.delay s.choice % l.loadTicks ≤ l.loadTicks := by
      have := Nat.mod_lt (Config.delay s.choice) length
      omega
    have free (h : slotValid z.slot = false) : ¬slotValid (s.core c).slot = true := Bool.not_eq_true _ |>.mpr h
    have plain (h : reserved = false) : ¬reserved = true := Bool.not_eq_true _ |>.mpr h
    refine ⟨fun h => if_pos h, fun h1 h2 => (if_neg (free h1)).trans (if_pos h2), fun h1 h2 h3 => (if_neg (free h1)).trans
      ((if_neg (plain h2)).trans (if_pos (by simp [h3]))), fun h1 h2 h3 => ⟨1 + Config.delay s.choice % l.loadTicks, Nat.add_pos_left Nat.one_pos _, ticks,
      (if_neg (free h1)).trans ((if_neg (plain h2)).trans (if_neg (by simp [h3])))⟩⟩
  case restart =>
    intro img t
    have off (u : State) (m : Mem) (h : u.cores = Vector.replicate 256 { handler := m }) (e : CoreId) (st : StrandId) :
        (u.strand e st).run = .off ∧ (u.strand e st).fcsr = 0 := by
      have core : u.core e = { handler := m } := by rw [State.core, h, Vector.getElem_replicate]
      rw [State.strand, core, Core.strand, Vector.getElem_replicate]
      exact ⟨rfl, rfl⟩
    cases h : img.filter fun i => !s.boot.strap && imageAccepted i s.boot.rollback with
    | some i =>
      obtain ⟨rfl, ok⟩ := Option.filter_eq_some_iff.mp h
      rw [Bool.and_eq_true, Bool.not_eq_true'] at ok
      simp only [t, State.restart, h]
      refine ⟨rfl, rfl, rfl, rfl, rfl, rfl, rfl, rfl, off _ _ rfl, ?_⟩
      simp [ok.1, ok.2, State.powerUp]
    | none =>
      simp only [t, State.restart, h]
      refine ⟨rfl, rfl, rfl, rfl, rfl, rfl, rfl, rfl, off _ [] rfl, ?_⟩
      have no := Option.filter_eq_none_iff.mp h
      refine iff_of_true trivial ?_
      cases strap : s.boot.strap
      · exact .inr fun j hj => by simpa [strap] using no j hj
      · exact .inl rfl
  case attest =>
    intro nonce
    have body : (s.reportBody nonce).length = 128 := by simp [State.reportBody, length_leBytes]
    refine ⟨_, rfl, ?_, List.take_left' body⟩
    rw [List.length_append, body, List.length_take, List.length_append, List.length_replicate]
    omega
end Sys2Proof.Machine

/-! What the events of the near-memory engines, of a channel's arbiter and of the archive do (R250 to R285, R307, R389). -/

namespace Sys2Proof.Machine

/-- A field of a word of any width, as the model reads it. -/
theorem bitsAt_toNat {w : Nat} (x : BitVec w) (lo n : Nat) : bitsAt x.toNat lo n = (x.extractLsb' lo n).toNat := by
  simp [bitsAt, BitVec.extractLsb'_toNat, Nat.shiftRight_eq_div_pow]

theorem Word.bits_eq_zero (w : Word) (lo n : Nat) : Word.bits w lo n = 0 ↔ w.extractLsb' lo n = 0 := by
  rw [Word.bits_eq, ← BitVec.toNat_inj]
  simp

/-! ### The channel's arbiter (R268 to R270) -/

section Channel

theorem stokerTicks_pos {o : Nat} (h : 0 < o) : 0 < stokerTicks o := by
  rw [stokerTicks]
  omega

theorem State.stoker_updStoker (s : State) (a b : Fin 384) (f : Stoker → Stoker) :
    (s.updStoker a f).stoker b = if b = a then f (s.stoker b) else s.stoker b := getElem_vmod s.stokers a b f

theorem State.stoker_updStoker_same (s : State) (a : Fin 384) (f : Stoker → Stoker) : (s.updStoker a f).stoker a = f (s.stoker a) := by
  rw [State.stoker_updStoker, if_pos rfl]

/-- Changes of a stoker that agree on it as it stands are the same. -/
theorem State.updStoker_congr {s : State} {sk : Fin 384} {f g : Stoker → Stoker} (h : f (s.stoker sk) = g (s.stoker sk)) :
    s.updStoker sk f = s.updStoker sk g := by
  have : vmod s.stokers sk f = vmod s.stokers sk g := congrArg (s.stokers.set sk.val · sk.isLt) h
  simp only [State.updStoker, this]

/-- What a grant for one bank does to the channel. -/
theorem Stoker.grant_one (t : Stoker) (hc n : Nat) (cls : Traffic) (engine : Bool) (b : Fin 32) : let u := t.grant hc n cls engine [b.val]
    hc < u.busy ∧ u.acts[b.val] = t.acts[b.val] + 1 ∧ (∀ d : Fin 32, d ≠ b → u.acts[d.val] = t.acts[d.val]) ∧ u.athr = t.athr ∧
      (t.athr ≤ t.acts[b.val] + 1 → (b.val, cls.num.val) ∈ u.rfm) ∧
      (engine = false → u.tenure = t.tenure) ∧ (engine = true → t.inTenure b.val = true ∨ ∃ e, (b.val, e) ∈ u.tenure ∧ hc < e) ∧
      ∃ o : Nat, 0 < o ∧ u.busy = hc + stokerTicks o ∧ (cls.num.val < t.budget.length → u.left cls = t.left cls - o) := by
  intro u
  let o := 1 + Config.delay n
  have positive : 0 < o := Nat.add_pos_left Nat.one_pos _
  have bank : (⟨b.val % 32, Nat.mod_lt _ (by decide)⟩ : Fin 32) = b := Fin.ext (Nat.mod_eq_of_lt b.isLt)
  have acts : u.acts = vmod t.acts b (· + 1) := by
    rw [← bank]
    rfl
  have count : u.acts[b.val] = t.acts[b.val] + 1 := by rw [acts, getElem_vmod, if_pos rfl]
  have threshold : u.athr = t.athr := rfl
  refine ⟨Nat.lt_add_of_pos_right (stokerTicks_pos positive), count, fun d h => by rw [acts, getElem_vmod, if_neg h], threshold, fun h => ?_, ?_, ?_,
    o, positive, rfl, fun h => ?_⟩
  · have rfm : u.rfm = if t.athr ≤ u.acts[b.val % 32]'(Nat.mod_lt _ (by decide)) then t.rfm ++ [(b.val % 32, cls.num.val)] else t.rfm := rfl
    simp only [Nat.mod_eq_of_lt b.isLt, count, if_pos h] at rfm
    simp [rfm]
  · rintro rfl; rfl
  · rintro rfl
    have tenure : u.tenure = if true = true ∧ !t.inTenure b.val then
        (b.val, hc + (1 + Config.delay (n + 1) % 64) * (1 + Config.rowCycle)) :: t.tenure else t.tenure := rfl
    cases open' : t.inTenure b.val
    · refine .inr ⟨hc + (1 + Config.delay (n + 1) % 64) * (1 + Config.rowCycle), by simp [tenure, open'], ?_⟩
      exact Nat.lt_add_of_pos_right (Nat.mul_pos (by omega) (by omega))
    · exact .inl rfl
  · have budget : u.budget = t.budget.zipIdx.map fun (b, i) => if i = cls.num.val then b - (o : Int) else b := rfl
    rw [Stoker.left, Stoker.left, budget]
    simp [h]

/-- A channel takes no request while it is busy, or for a bank that is not open to it. -/
theorem Stoker.admits_no (t : Stoker) (hc : Nat) (cls : Traffic) (engine : Bool) (banks : List Nat) (b : Nat) (h : b ∈ banks)
    (no : hc < t.busy ∨ t.resting hc b = true ∨ (cls = .md ∧ t.inTenure b = true) ∨
      (cls = .nm ∧ engine = true ∧ t.inTenure b = false ∧ t.bankAsked hc b = true)) : t.admits hc cls engine banks = false := by
  have closed (e : t.banksFree hc cls engine [b] = false) : t.admits hc cls engine banks = false := by
    have : t.banksFree hc cls engine banks = false := by
      obtain ⟨d, hd, no⟩ := List.all_eq_false.mp e
      exact List.all_eq_false.mpr ⟨b, h, List.mem_singleton.mp hd ▸ no⟩
    rw [Stoker.admits, this]
    simp
  rcases no with no | no | ⟨rfl, no⟩ | ⟨rfl, rfl, no, asked⟩
  · rw [Stoker.admits, decide_eq_false (Nat.not_le.mpr no)]
    rfl
  · exact closed (by simp [Stoker.banksFree, no])
  · exact closed (by simp [Stoker.banksFree, no])
  · exact closed (by simp [Stoker.banksFree, no, asked])

end Channel
/-! ### Groups at their stoker (R250 to R271) -/

section Groups

variable {s : State} {sk : Fin 384} {cmd : BitVec 512} {g : Group}

theorem StrandId.num_ofNum : ∀ i : Fin 4, (StrandId.ofNum i).num = i := by decide

/-- An error record leaves the units alone. -/
theorem State.errorRecord_units (s : State) (src : Fin 9) (addr bid unit : Nat) : let t := s.errorRecord src addr bid unit
    t.gm = s.gm ∧ t.stokers = s.stokers ∧ t.archive = s.archive := by
  simp only [State.errorRecord, State.event]
  split
  · exact ⟨rfl, rfl, rfl⟩
  · split <;> exact ⟨rfl, rfl, rfl⟩

/-- What a stoker reads is counted on its channel. -/
theorem State.stokerRead_spec (s : State) (sk : Fin 384) (bid : Nat) (as : List Nat) : let r := s.stokerRead sk bid as
    r.2.1 = s.correctedIn as ∧ r.2.2 = (s.badGm as).isSome ∧ (r.1.stoker sk).ecc = (s.stoker sk).ecc + s.correctedIn as ∧ r.1.gm = s.gm := by
  let u : State := (s.countCorrected 6 (s.correctedIn as)).updStoker sk fun t => { t with ecc := t.ecc + s.correctedIn as }
  have bad : u.badGm as = s.badGm as := rfl
  have ecc : (u.stoker sk).ecc = (s.stoker sk).ecc + s.correctedIn as := by rw [State.stoker_updStoker_same]; rfl
  have read : s.stokerRead sk bid as = match s.badGm as with
    | some a => (u.errorRecord 6 a bid sk.val, s.correctedIn as, true)
    | none => (u, s.correctedIn as, false) := rfl
  rw [read]
  cases s.badGm as with
  | none => exact ⟨rfl, rfl, ecc, rfl⟩
  | some a =>
    obtain ⟨gm, stokers, -⟩ := u.errorRecord_units 6 a bid sk.val
    exact ⟨rfl, rfl, by rw [State.stoker, stokers]; exact ecc, gm⟩

theorem State.startNext_kept (s : State) (sk : Fin 384) : (s.startNext sk).gm = s.gm ∧ (s.startNext sk).stokers = s.stokers := by
  rw [State.startNext]
  split <;> exact ⟨rfl, rfl⟩

/-- A group that ends leaves its stoker and writes word 4 of its header (R254). -/
theorem State.endGroup_spec (s : State) (sk : Fin 384) (ref : GroupRef) (status cmdix : Nat) (flags : Flg) (ce : Nat) (sem : Option Nat)
    (ok : status = 0 ∨ sem = none) (apart : s.watched .gm (ref.pa + 32) 8 = []) : let t := s.endGroup sk ref status cmdix flags ce sem
    (t.stoker sk).group = none ∧ t.gm = s.gm.write (ref.pa + 32) (leBytes 8 (word4 status cmdix flags ce).toNat) := by
  let u := s.updStoker sk fun t => { t with group := none, tenure := [] }
  let v := u.capture ref.core 7 none ((s.hc - ref.hc) * 5 / 9)
  let bs := leBytes 8 (word4 status cmdix flags ce).toNat
  have kept : Kept u v := Kept.capture ..
  have length : bs.length = 8 := length_leBytes ..
  have waits (e : CoreId) : (v.core e).strands.map (·.wait) = (s.core e).strands.map (·.wait) := by
    refine Vector.ext fun i hi => ?_
    have wait : (v.strand e (.ofNum ⟨i, hi⟩)).wait = (s.strand e (.ofNum ⟨i, hi⟩)).wait := kept.wait e _
    simpa only [State.strand, Core.strand, StrandId.num_ofNum, Vector.getElem_map] using wait
  have stored : v.storeAt .gm (ref.pa + 32) bs = v.writeUnit .gm (ref.pa + 32) bs :=
    State.storeAt_unwatched (by rw [← List.length_pos_iff, length]; decide) (by rw [State.watched_congr waits, length]; exact apart)
  have ends : s.endGroup sk ref status cmdix flags ce sem = (v.writeUnit .gm (ref.pa + 32) bs).startNext sk := by
    rw [← stored]
    rcases ok with rfl | rfl
    · cases sem <;> rfl
    · rfl
  obtain ⟨gm, stokers⟩ := (v.writeUnit .gm (ref.pa + 32) bs).startNext_kept sk
  have group : (v.stoker sk).group = none := by
    have : v.stokers = u.stokers := (congrArg State.stokers kept.storage :)
    rw [State.stoker, this]
    exact congrArg Stoker.group (s.stoker_updStoker_same sk _)
  rw [ends]
  refine ⟨?_, gm.trans ?_⟩
  · rw [State.stoker, stokers]
    simp only [State.writeUnit, State.conflict, Vector.getElem_map]
    split
    · exact group
    · exact congrArg (Option.map _) group
  · exact congrArg (Mem.write · (ref.pa + 32) bs) (congrArg State.gm kept.storage :)

/-- A group with a command left stands at it (R264, R361). -/
theorem State.nextCommand_goes (h : g.next < g.ncmd) : let t := s.nextCommand sk g
    (t.stoker sk).group = some g ∧ t.gm = s.gm ∧ ((s.stoker sk).halt = true → t.cal = s.cal) ∧
      ((s.stoker sk).halt = false → ∃ k, t.Pending .hc (s.hc + 1 + Config.delay k) effects (.ev (cmdEvent sk (cmdBits g.slots g.next)))) := by
  let u := s.updStoker sk fun t => { t with group := some g }
  have at' : u.stoker sk = { s.stoker sk with group := some g } := s.stoker_updStoker_same sk _
  have halt : (u.stoker sk).halt = (s.stoker sk).halt := by rw [at']
  have next : s.nextCommand sk g = if (u.stoker sk).halt then u else u.sometime (.ev (cmdEvent sk (cmdBits g.slots g.next))) effects :=
    if_neg (Nat.not_le.mpr h)
  rw [next, halt]
  cases (s.stoker sk).halt with
  | true => exact ⟨congrArg Stoker.group at', rfl, fun _ => rfl, nofun⟩
  | false => exact ⟨congrArg Stoker.group at', rfl, nofun, fun _ => ⟨s.choice, s.order, List.mem_cons_self⟩⟩

/-- A command that computes, from the bytes that it reads and its writes as a function of them: its channel turns it away, or an error of a burst ends
its group, or it goes on, to its writes after its last burst. -/
def State.Runs (s : State) (sk : Fin 384) (cmd : BitVec 512) (g : Group) (i : Instr) (reads : List Nat)
    (out : List Byte → List (Nat × Byte × Byte) × Flg) : Prop :=
  let again (u : State) : State := u.post .hc (u.hc + 1) effects (.ev (cmdEvent sk cmd.toNat))
  let p := s.pick (g.want.getD (reads.map (· / 32)).dedup)
  let now := p.1.1.flatMap fun b => span (32 * b) 32
  let ask := p.2.serveEngine now
  let r := ask.1.engineRead sk g now
  (ask.2 = false → exec i s = .next (again ask.1)) ∧
  (ask.2 = true → r.2.2 = none → exec i s = .next (r.1.endRunning sk { r.2.1 with next := r.2.1.next + 1 } 9)) ∧
  (∀ bs, ask.2 = true → r.2.2 = some bs →
    let h : Group := { r.2.1 with want := some p.1.2, got := (p.1.1.zipIdx.map fun x => (x.1, (bs.drop (32 * x.2)).take 32)) ++ r.2.1.got }
    let o := out (reads.map fun a => ((assocGet h.got (a / 32)).getD []).getD (a % 32) 0)
    exec i s = .next (if p.1.2 = [] then r.1.finishCommand sk h again o.1 o.2
      else (r.1.updStoker sk fun t => { t with group := some h }).sometime (.ev (cmdEvent sk cmd.toNat)) effects))

theorem State.runCommand_runs (hg : (s.stoker sk).group = some g) {i : Instr} {addrs : Pages → List Nat}
    {f : Pages → List Byte → List (Nat × Byte × Byte) × Flg} (he : exec i s = .next (s.runCommand sk cmd addrs f)) :
    s.Runs sk cmd g i (addrs ⟨g.page0, g.page1⟩) (f ⟨g.page0, g.page1⟩) := by
  unfold State.Runs
  intro again p now ask r
  have run : s.runCommand sk cmd addrs f = match ask with
      | (u, false) => again u
      | (u, true) => match u.engineRead sk g now with
        | (v, e, none) => v.endRunning sk { e with next := e.next + 1 } 9
        | (v, e, some bs) =>
          let h : Group := { e with want := some p.1.2, got := (p.1.1.zipIdx.map fun x => (x.1, (bs.drop (32 * x.2)).take 32)) ++ e.got }
          if !p.1.2.isEmpty then (v.updStoker sk fun t => { t with group := some h }).sometime (.ev (cmdEvent sk cmd.toNat)) effects
          else
            let o := f ⟨g.page0, g.page1⟩ ((addrs ⟨g.page0, g.page1⟩).map fun a => ((assocGet h.got (a / 32)).getD []).getD (a % 32) 0)
            v.finishCommand sk h again o.1 o.2 := by
    simp only [State.runCommand, hg]
    rfl
  have served (h : ask.2 = true) : ask = (ask.1, true) := Prod.ext rfl h
  refine ⟨fun h => he.trans ?_, fun h none => he.trans ?_, fun bs h some => he.trans ?_⟩
  · rw [run, show ask = (ask.1, false) from Prod.ext rfl h]
  · rw [run, served h]
    dsimp only
    rw [show ask.1.engineRead sk g now = (r.1, r.2.1, Option.none) from Prod.ext rfl (Prod.ext rfl none)]
  · rw [run, served h]
    dsimp only
    rw [show ask.1.engineRead sk g now = (r.1, r.2.1, Option.some bs) from Prod.ext rfl (Prod.ext rfl some)]
    cases p.1.2 <;> rfl

/-- The writes of a command: turned away, ended by an error of a row that is copied first or by a bank without a free shadow row, or made. -/
theorem State.finishCommand_cases (s : State) (sk : Fin 384) (g : Group) (again : State → State) (ws : List (Nat × Byte × Byte)) (fl : Flg) :
    let q := s.serveEngine (ws.map (·.1))
    let r := q.1.engineRead sk g (q.1.rowCopies g (ws.map (·.1)))
    let h : Group := { r.2.1 with flags := r.2.1.flags ||| fl }
    (q.2 = false → s.finishCommand sk g again ws fl = again (q.1.updStoker sk fun t => { t with group := some g })) ∧
    (q.2 = true → r.2.2 = none → s.finishCommand sk g again ws fl = r.1.endRunning sk { r.2.1 with next := r.2.1.next + 1 } 9) ∧
    (q.2 = true → r.2.2.isSome = true → r.1.groupWrite h ws = none →
      s.finishCommand sk g again ws fl = r.1.endRunning sk { h with next := h.next + 1 } 7) ∧
    (∀ h', q.2 = true → r.2.2.isSome = true → r.1.groupWrite h ws = some h' → s.finishCommand sk g again ws fl = r.1.nextCommand sk h'.step) := by
  intro q r h
  have finish : s.finishCommand sk g again ws fl = match q with
      | (u, false) => again (u.updStoker sk fun t => { t with group := some g })
      | (u, true) => match u.engineRead sk g (u.rowCopies g (ws.map (·.1))) with
        | (v, g, none) => v.endRunning sk { g with next := g.next + 1 } 9
        | (v, g, some _) => match v.groupWrite { g with flags := g.flags ||| fl } ws with
          | none => v.endRunning sk { g with flags := g.flags ||| fl, next := g.next + 1 } 7
          | some g => v.nextCommand sk g.step := rfl
  have judged (served : q.2 = true) (read : r.2.2.isSome = true) : s.finishCommand sk g again ws fl = match r.1.groupWrite h ws with
      | none => r.1.endRunning sk { h with next := h.next + 1 } 7
      | some g => r.1.nextCommand sk g.step := by
    obtain ⟨bs, read⟩ := Option.isSome_iff_exists.mp read
    rw [finish, show q = (q.1, true) from Prod.ext rfl served]
    dsimp only
    rw [show q.1.engineRead sk g (q.1.rowCopies g (ws.map (·.1))) = (r.1, r.2.1, some bs) from Prod.ext rfl (Prod.ext rfl read)]
  refine ⟨fun turned => ?_, fun served error => ?_, fun served read full => ?_, fun h' served read wrote => ?_⟩
  · rw [finish, show q = (q.1, false) from Prod.ext rfl turned]
  · rw [finish, show q = (q.1, true) from Prod.ext rfl served]
    dsimp only
    rw [show q.1.engineRead sk g (q.1.rowCopies g (ws.map (·.1))) = (r.1, r.2.1, none) from Prod.ext rfl (Prod.ext rfl error)]
  · rw [judged served read, full]
  · rw [judged served read, wrote]

theorem eq_mk_of_snd {α β : Type} {p : α × β} {b : β} (h : p.2 = b) : p = (p.1, b) := Prod.ext rfl h
theorem eq_mk_of_snd_snd {α β γ : Type} {p : α × β × γ} {b : γ} (h : p.2.2 = b) : p = (p.1, p.2.1, b) := eq_mk_of_snd (eq_mk_of_snd h)

section Start

variable {ref : GroupRef} {rest : List GroupRef} (free : (s.stoker sk).group = none ∧ (s.stoker sk).halt = false ∧ (s.stoker sk).stopped = false ∧
  (s.stoker sk).queue = ref :: rest)
include free

/-- A stoker that is free asks for its next group's image: its channel turns it away, or the group is judged. -/
theorem State.groupStart_turned {u : State} (h : s.serve .nm (s.imageAddrs ref) = (u, false)) :
    exec (.groupStart sk) s = .next (u.post .hc (u.hc + 1) effects (.ev (.groupStart sk))) := by
  obtain ⟨h1, h2, h3, h4⟩ := free
  simp [exec.eq_def, execGroupStart, h1, h2, h3, h4, h]
theorem State.groupStart_good {u v : State} {g : Group} (h : s.serve .nm (s.imageAddrs ref) = (u, true))
    (j : (u.updStoker sk fun t => { t with queue := rest }).judgeGroup sk { ref with hc := u.hc } = (v, .ok g)) :
    exec (.groupStart sk) s = .next (if ref.killed then v.endGroup sk { ref with hc := u.hc } 13 0 0 g.ce (some g.sem) else v.nextCommand sk g) := by
  obtain ⟨h1, h2, h3, h4⟩ := free
  simp [exec.eq_def, execGroupStart, h1, h2, h3, h4, h, j]
theorem State.groupStart_bad {u v : State} {e : Nat × Nat × Option Nat × Nat} (h : s.serve .nm (s.imageAddrs ref) = (u, true))
    (j : (u.updStoker sk fun t => { t with queue := rest }).judgeGroup sk { ref with hc := u.hc } = (v, .error e)) :
    exec (.groupStart sk) s = .next (v.endGroup sk { ref with hc := u.hc } (if ref.killed then 13 else e.1) (if ref.killed then 0 else e.2.1) 0
      e.2.2.2 e.2.2.1) := by
  obtain ⟨h1, h2, h3, h4⟩ := free
  simp only [exec.eq_def, execGroupStart, h1, h2, h3, h4, h, j, Option.isSome_none, Bool.or_self, Bool.false_eq_true, if_false]
  split <;> rfl

end Start

/-- A boundary of a killed group ends it; another group's earlier writes have performed there. -/
theorem State.boundary_killed (f : State → Group → State) (hg : (s.stoker sk).group = some g) (h : g.kill = true) :
    s.boundary sk f = s.endRunning sk { g.fence with next := g.fence.next + 1 } 13 := by
  simp only [State.boundary, hg]
  exact if_pos h
theorem State.boundary_goes (f : State → Group → State) (hg : (s.stoker sk).group = some g) (h : g.kill = false) : s.boundary sk f = f s g.fence := by
  simp only [State.boundary, hg]
  exact if_neg (by rw [show g.fence.kill = g.kill from rfl, h]; decide)

theorem Group.fence_cmdSem (g : Group) (v : Nat) : g.fence.cmdSem v = g.cmdSem v := rfl
theorem Group.fence_want (g : Group) : g.fence.want = g.want := rfl
theorem Group.fence_ref (g : Group) : g.fence.ref = g.ref := rfl

/-- A SEMWAIT that waits on, to be checked again in the next tick. -/
def State.semAgain (u : State) (sk : Fin 384) (cmd : BitVec 512) (h : Group) : State :=
  (u.updStoker sk fun t => { t with group := some h }).post .hc (u.hc + 1) effects (.ev (.semwait sk cmd))
/-- A SEMWAIT judged by its semaphore as it stands. -/
def State.semTest (u : State) (sk : Fin 384) (cmd : BitVec 512) (p : Nat) (h : Group) : State :=
  if (u.gm.word p).extractLsb' 32 8 ≠ 0 then u.endRunning sk { h with next := h.next + 1 } 11
  else if (cmd.extractLsb' 4 32).toNat ≤ ((u.gm.word p).extractLsb' 0 32).toNat then u.nextCommand sk h.step else u.semAgain sk cmd { h with want := some [] }

section Boundary

variable {u v : State} {ce : Nat} (hg : (s.stoker sk).group = some g) (hk : g.kill = false)
include hg hk

/-- A COMMIT copies the rows that the group has shadowed home (R266). -/
theorem State.commit_rows (hc : g.conflicted = false) : ∃ rows : List Nat, rows.Nodup ∧
    (∀ b, b ∈ rows ↔ (∃ c ∈ g.shadow, c.1 / 2048 = b) ∨ ∃ c ∈ s.gm, hbmRow s.boot.stripesP c.1 ∈ g.rows ∧ c.1 / 2048 = b) ∧
    exec (.commit sk) s = .next ((rows.foldl (fun (u : State) (b : Nat) => u.storeAt .gm (2048 * b) (g.shadow.read (2048 * b) 2048))
      (s.updStoker sk fun t => { t with group := some g.fence.fresh })).nextCommand sk g.fence.fresh.step) := by
  let rows : List Nat := ((g.shadow.map fun (c : Host.Cell) => c.1 / 2048) ++
    s.gm.filterMap fun (c : Host.Cell) => if g.rows.contains (hbmRow s.boot.stripesP c.1) then some (c.1 / 2048) else none).dedup
  refine ⟨rows, List.nodup_dedup _, fun b => ?_, ?_⟩
  · simp only [rows, List.mem_dedup, List.mem_append, List.mem_map, List.mem_filterMap, List.contains_iff_mem, Option.ite_none_right_eq_some, Option.some.injEq]
  · simp only [exec.eq_def]
    rw [execCommit, State.boundary_goes _ hg hk]
    exact congrArg _ (if_neg (by rw [show g.fence.conflicted = g.conflicted from rfl, hc]; decide))

/-- A SEMWAIT goes on by its semaphore's value, reads it, or is turned away by the channel (R263, R267, R268). -/
theorem State.semwait_held (h : g.want.isSome = true) :
    exec (.semwait sk cmd) s = .next (s.semTest sk cmd (g.cmdSem cmd.toNat) { g.fence with waiting := some (g.waiting.getD s.hc) }) := by
  simp only [exec.eq_def, execSemwait, State.boundary_goes _ hg hk, Group.fence_cmdSem, Group.fence_want, h, if_true, ne_eq, Word.bits_eq_zero]
  simp only [Word.bits_eq, bitsAt_toNat]
  rfl
theorem State.semwait_turned (h : g.want = none) (served : s.serve .nm (span (g.cmdSem cmd.toNat) 8) = (u, false)) :
    exec (.semwait sk cmd) s = .next (u.semAgain sk cmd { g.fence with waiting := some (g.waiting.getD s.hc) }) := by
  simp only [exec.eq_def, execSemwait, State.boundary_goes _ hg hk, Group.fence_cmdSem, Group.fence_want, h, served]
  rfl
theorem State.semwait_error (h : g.want = none) (served : s.serve .nm (span (g.cmdSem cmd.toNat) 8) = (u, true))
    (read : u.stokerRead sk g.ref.bid (span (g.cmdSem cmd.toNat) 8) = (v, ce, true)) : exec (.semwait sk cmd) s =
      .next (v.endRunning sk { g.fence with waiting := some (g.waiting.getD s.hc), ce := g.ce + ce, next := g.next + 1 } 9) := by
  simp only [exec.eq_def, execSemwait, State.boundary_goes _ hg hk, Group.fence_cmdSem, Group.fence_want, Group.fence_ref, h, served, read]
  rfl
theorem State.semwait_read (h : g.want = none) (served : s.serve .nm (span (g.cmdSem cmd.toNat) 8) = (u, true))
    (read : u.stokerRead sk g.ref.bid (span (g.cmdSem cmd.toNat) 8) = (v, ce, false)) : exec (.semwait sk cmd) s =
      .next (v.semTest sk cmd (g.cmdSem cmd.toNat) { g.fence with waiting := some (g.waiting.getD s.hc), ce := g.ce + ce }) := by
  simp only [exec.eq_def, execSemwait, State.boundary_goes _ hg hk, Group.fence_cmdSem, Group.fence_want, Group.fence_ref, h, served, read, ne_eq,
    Word.bits_eq_zero]
  simp only [Word.bits_eq, bitsAt_toNat]
  rfl

/-- A SEMPOST is turned away, meets an error, or adds N to COUNT (R255, R263). -/
theorem State.sempost_turned (served : s.serve .nm (span (g.cmdSem cmd.toNat) 8) = (u, false)) :
    exec (.sempost sk cmd) s = .next (u.post .hc (u.hc + 1) effects (.ev (.sempost sk cmd))) := by
  simp only [exec.eq_def, execSempost, State.boundary_goes _ hg hk, Group.fence_cmdSem, served]
theorem State.sempost_error (served : s.serve .nm (span (g.cmdSem cmd.toNat) 8) = (u, true))
    (read : u.stokerRead sk g.ref.bid (span (g.cmdSem cmd.toNat) 8) = (v, ce, true)) :
    exec (.sempost sk cmd) s = .next (v.endRunning sk { g.fence with ce := g.ce + ce, next := g.next + 1 } 9) := by
  simp only [exec.eq_def, execSempost, State.boundary_goes _ hg hk, Group.fence_cmdSem, Group.fence_ref, served, read]
  rfl
theorem State.sempost_adds (served : s.serve .nm (span (g.cmdSem cmd.toNat) 8) = (u, true))
    (read : u.stokerRead sk g.ref.bid (span (g.cmdSem cmd.toNat) 8) = (v, ce, false)) : let w := v.gm.word (g.cmdSem cmd.toNat)
    exec (.sempost sk cmd) s = .next ((v.storeAt .gm (g.cmdSem cmd.toNat) (leBytes 8 ((w.extractLsb' 32 8).toNat * 2 ^ 32 +
      ((w.extractLsb' 0 32).toNat + (cmd.extractLsb' 4 32).toNat) % 2 ^ 32))).retestRecords.nextCommand sk { g.fence with ce := g.ce + ce }.step) := by
  simp only [exec.eq_def, execSempost, State.boundary_goes _ hg hk, Group.fence_cmdSem, Group.fence_ref, served, read]
  simp only [Word.bits_eq, bitsAt_toNat]
  rfl

end Boundary

end Groups
/-! ### Periods, refresh and the lifetime counts (R268, R270, R389) -/

/-- A new period of the arbiter: every channel takes its CHARB and its budgets (R268). -/
theorem State.budgetPeriod_spec (s : State) : ∃ t, exec .budgetPeriod s = .next t ∧ t.gm = s.gm ∧ t.cores = s.cores ∧ t.lib.lastPeriod = s.hc ∧
    (∃ k, t.Pending .hc (s.hc + 1 + Config.delay k) effects (.ev .refresh)) ∧
    ∀ k, (t.stoker k).charb = (s.stoker k).charbNext.getD (s.stoker k).charb ∧ (t.stoker k).charbNext = none ∧
      (t.stoker k).budget = newBudgets (t.stoker k).charb (s.stoker k).budget ∧ (t.stoker k).group = (s.stoker k).group := by
  refine ⟨_, rfl, rfl, rfl, rfl, ⟨s.choice, s.order, List.mem_cons_self⟩, fun k => ?_⟩
  simp [State.stoker, State.sometime, State.draw, State.post]

/-- A refresh goes to some bank of some channel, if its refresh management does not come first (R268, R270). -/
theorem State.refresh_spec (s : State) : ∃ k b n, b < 32 ∧ exec .refresh s = .next (({ s with choice := s.choice + 3 } : State).updStoker k fun t =>
    { t.grant s.hc n .rf false ([b].filter fun b => !t.resting s.hc b) with refreshes := t.refreshes + 1 }) :=
  ⟨⟨Config.delay s.choice % 384, Nat.mod_lt _ (by decide)⟩, Config.delay (s.choice + 1 + 1) % 32, s.choice + 1, Nat.mod_lt _ (by decide), rfl⟩

/-- Refresh management of the first bank that is due (R270). -/
theorem State.refreshManagement_spec {s : State} {sk : Fin 384} {b c : Nat} {rest : List (Nat × Nat)}
    (first : ((List.finRange 384).find? fun k => !(s.stoker k).rfm.isEmpty) = some sk) (due : (s.stoker sk).rfm = (b, c) :: rest) :
    ∃ m : Nat, 0 < m ∧ exec .refreshManagement s = .next (({ s with choice := s.choice + 1 } : State).updStoker sk fun t =>
      { t.charge (Traffic.all.getD c .rf) m with
        acts := t.acts.set (b % 32) (t.acts[b % 32]'(Nat.mod_lt _ (by decide)) - t.athr) (Nat.mod_lt _ (by decide)), rfm := rest
        paused := (b, s.hc + stokerTicks m) :: t.paused }) := by
  refine ⟨1 + Config.delay s.choice, Nat.add_pos_left Nat.one_pos _, ?_⟩
  simp only [exec.eq_def, execRefreshManagement, first]
  refine congrArg _ (State.updStoker_congr ?_)
  have due' : (State.stoker { s with choice := s.choice + 1 } sk).rfm = (b, c) :: rest := due
  simp only [State.draw, due']
  rfl

/-- What counting the ticks of islands leaves alone, and the islands that it has counted (R389). -/
structure State.Counted (s : State) (l : List (Fin 64)) (t : State) : Prop where
  hc : t.hc = s.hc
  gm : t.gm = s.gm
  archive : t.archive = s.archive
  corrected : t.life.corrected = s.life.corrected
  foldedCorrected : t.life.foldedCorrected = s.life.foldedCorrected
  fstep : ∀ i, (t.island i).fstep = (s.island i).fstep
  since : ∀ i ∈ l, (t.island i).since = s.hc

theorem State.Counted.step {s t : State} {l : List (Fin 64)} (h : s.Counted l t) (i : Fin 64) : s.Counted (i :: l) (t.noteStep i) := by
  have at' (j : Fin 64) : (t.noteStep i).island j = if j = i then { t.island j with since := t.hc } else t.island j := getElem_vmod t.islands i j _
  refine ⟨h.hc, h.gm, h.archive, h.corrected, h.foldedCorrected, fun j => ?_, fun j hj => ?_⟩
  · rw [at', ← h.fstep]
    split <;> rfl
  · rw [at']
    split
    · exact h.hc
    · next ne => exact h.since j ((List.mem_cons.mp hj).resolve_left ne)

theorem State.Counted.foldl {s : State} : ∀ (l done : List (Fin 64)) (t : State), s.Counted done t →
    s.Counted (l.reverse ++ done) (l.foldl State.noteStep t)
  | [], _, _, h => h
  | i :: l, done, t, h => by
    have := State.Counted.foldl l (i :: done) (t.noteStep i) (h.step i)
    rwa [List.reverse_cons, List.append_assoc]

/-- The live counts join the folded ones (R389). -/
theorem State.foldLife_spec (u : State) : (∀ i : Fin 64, (u.foldLife.island i).since = u.hc ∧ (u.foldLife.island i).fstep = (u.island i).fstep) ∧
    u.foldLife.gm = u.gm ∧ u.foldLife.archive = u.archive ∧
    ∀ n : Fin 9, u.foldLife.life.foldedCorrected[n.val] = u.life.foldedCorrected[n.val] + u.life.corrected[n.val] ∧
      u.foldLife.life.corrected[n.val] = 0 ∧ u.foldLife.life.uncorrected[n.val] = 0 := by
  let t := (List.finRange 64).foldl State.noteStep u
  have start : u.Counted [] u := ⟨rfl, rfl, rfl, rfl, rfl, fun _ => rfl, nofun⟩
  have counted : u.Counted _ t := State.Counted.foldl (List.finRange 64) [] u start
  have fold : u.foldLife = { t with life := t.life.fold } := rfl
  rw [fold]
  clear_value t
  refine ⟨fun i => ⟨counted.since i (by simp), counted.fstep i⟩, counted.gm, counted.archive, fun n => ?_⟩
  rw [← counted.corrected, ← counted.foldedCorrected]
  simp [Lifetime.fold]

/-! ### The reading room (R277 to R279, R307) -/

section Room

variable {s : State} {obj ver num : Nat}

/-- A room that shrinks only gives up folios. -/
theorem State.shrinkRoom_spec (cap : Nat) : ∀ (n : Nat) (s : State), ∃ fs, s.shrinkRoom cap n = { s with archive := { s.archive with folios := fs } } ∧
    ∀ o ∈ fs, o ∈ s.archive.folios
  | 0, s => ⟨s.archive.folios, rfl, fun _ h => h⟩
  | n + 1, s => by
    rw [State.shrinkRoom]
    split
    · exact ⟨s.archive.folios, rfl, fun _ h => h⟩
    · split
      · next f rest _ =>
        obtain ⟨fs, eq, sub⟩ := State.shrinkRoom_spec cap n { s with archive := { s.archive with folios := s.archive.folios.filter fun g => g != f } }
        exact ⟨fs, eq, fun o ho => (List.mem_filter.mp (sub o ho)).1⟩
      · exact ⟨s.archive.folios, rfl, fun _ h => h⟩

/-- A fill starts once folios in use leave it a place, which it takes (R277). -/
theorem State.readingRoomFill_spec (s : State) (obj ver folio : Nat) : let room := roomFolios s.archive.rrsize
    let u := s.shrinkRoom room s.archive.folios.length
    (room < u.archive.folios.length → exec (.readingRoomFill obj ver folio) s =
      .next (u.post .hc (u.hc + 1) effects (.ev (.readingRoomFill obj ver folio)))) ∧
    (u.archive.folios.length ≤ room → ∃ d err slot, d < 80000 ∧ (∀ k, slot = some k → k < room ∧ ∀ o ∈ u.archive.folios, o.slot ≠ some k) ∧
      exec (.readingRoomFill obj ver folio) s = .next (({ u with
        choice := u.choice + 1
        archive := { u.archive with folios := u.archive.folios.map fun o =>
          if o.obj = obj ∧ o.ver = ver ∧ o.num = folio then { o with slot := slot } else o } } : State).post .hc (u.hc + 1 + d) effects
            (.ev (.fillComplete obj ver folio err)))) := by
  intro room u
  obtain ⟨fs, eq, -⟩ := State.shrinkRoom_spec room s.archive.folios.length s
  have size : roomFolios u.archive.rrsize = room := by rw [show u = _ from eq]
  let slot := (List.range room).find? fun k => !(u.archive.folios.filterMap (·.slot)).contains k
  let placed : State := { u with choice := u.choice + 1, archive := { u.archive with folios := u.archive.folios.map fun o =>
    if o.obj = obj ∧ o.ver = ver ∧ o.num = folio then { o with slot := slot } else o } }
  have step : exec (.readingRoomFill obj ver folio) s = .next (if room < u.archive.folios.length then
      u.post .hc (u.hc + 1) effects (.ev (.readingRoomFill obj ver folio)) else placed.post .hc (u.hc + 1 + Config.delay u.choice % 80000) effects
        (.ev (.fillComplete obj ver folio (Config.choose u.choice)))) := by
    simp only [placed, slot, ← size]
    rfl
  refine ⟨fun h => step.trans (congrArg _ (if_pos h)), fun h => ⟨Config.delay u.choice % 80000, Config.choose u.choice, slot, ?_, fun k hk => ?_,
    step.trans (congrArg _ (if_neg (Nat.not_lt.mpr h)))⟩⟩
  · exact Nat.mod_lt _ (Nat.succ_pos _)
  · have free := List.find?_some hk
    have range := List.mem_of_find?_eq_some hk
    simp only [Bool.not_eq_true', List.contains_eq_mem, List.mem_filterMap, decide_eq_false_iff_not, not_exists, not_and] at free
    exact ⟨List.mem_range.mp range, free⟩

/-- A fill that completes: its error drops it, or its channel takes it, and the folio is present (R277, R278). -/
theorem State.fillComplete_bad {e : Folio} (h : s.folio obj ver num = some e) :
    let u := s.errorRecord 7 (s.flashAddr obj ver num) (e.starter.elim 0 fun x => s.bidOf x.1) (e.starter.elim 0 fun x => x.1.val)
    exec (.fillComplete obj ver num true) s = .next { u with archive := { u.archive with
      folios := s.archive.folios.filter fun o => o != e
      badFolios := (e.starter.toList.map fun x => (x.2.2, obj, ver, num)) ++ u.archive.badFolios } } := by
  obtain ⟨-, -, archive⟩ := s.errorRecord_units 7 (s.flashAddr obj ver num) (e.starter.elim 0 fun x => s.bidOf x.1) (e.starter.elim 0 fun x => x.1.val)
  simp only [exec.eq_def, execFillComplete, h, if_true]
  cases e.starter <;> rfl
theorem State.fillComplete_turned {e : Folio} {u : State} (h : s.folio obj ver num = some e) (turned : s.serve .rr e.rows = (u, false)) :
    exec (.fillComplete obj ver num false) s = .next (u.post .hc (u.hc + 1) effects (.ev (.fillComplete obj ver num false))) := by
  simp only [exec.eq_def, execFillComplete, h, turned, Bool.false_eq_true, if_false]
theorem State.fillComplete_present {e : Folio} {u : State} (h : s.folio obj ver num = some e) (served : s.serve .rr e.rows = (u, true)) :
    ∃ t, exec (.fillComplete obj ver num false) s = .next t ∧ t.gm = s.gm ∧ t.hc = s.hc ∧
      t.archive = { s.archive with folios := { e with filling := none, used := s.hc } :: s.archive.folios.filter fun o => o != e } ∧
      t.life.fills = vmod s.life.fills ⟨capBin (s.hc - e.filling.getD s.hc) % 16, Nat.mod_lt _ (by decide)⟩ (· + 1) := by
  have same : u.gm = s.gm ∧ u.hc = s.hc ∧ u.archive = s.archive ∧ u.life = s.life := by
    obtain ⟨sk, n, eq⟩ := s.serveAs_eq .rr false e.rows
    rw [show s.serveAs .rr false e.rows = (u, true) from served] at eq
    rw [show u = _ from eq]
    exact ⟨rfl, rfl, rfl, rfl⟩
  obtain ⟨gm, hc, archive, life⟩ := same
  let left := s.archive.folios.filter fun o => o != e
  let v : State := ({ u with archive := { u.archive with folios := { e with filling := none, used := u.hc } :: left } } : State).countFill
    (u.hc - e.filling.getD u.hc)
  have step : exec (.fillComplete obj ver num false) s = .next (match e.starter with
      | some (c, st, _) => v.capture c 4 (some st) (u.hc - e.filling.getD u.hc)
      | none => v) := by
    simp only [exec.eq_def, execFillComplete, h, served, Bool.false_eq_true, if_false]
    rfl
  have good : v.gm = s.gm ∧ v.hc = s.hc ∧ v.archive = { s.archive with folios := { e with filling := none, used := s.hc } :: left } ∧ v.life.fills = vmod s.life.fills ⟨capBin (s.hc - e.filling.getD s.hc) % 16, Nat.mod_lt _ (by decide)⟩ (· + 1) := by
    simp only [v, State.countFill, gm, hc, archive, life, and_self]
  have ends : ∃ t, exec (.fillComplete obj ver num false) s = .next t ∧ t.gm = v.gm ∧ t.hc = v.hc ∧ t.archive = v.archive ∧ t.life = v.life := by
    cases starter : e.starter with
    | none => exact ⟨v, by rw [step, starter], rfl, rfl, rfl, rfl⟩
    | some x =>
      have kept := (Kept.capture v x.1 4 (some x.2.1) (u.hc - e.filling.getD u.hc)).storage
      exact ⟨v.capture x.1 4 (some x.2.1) (u.hc - e.filling.getD u.hc), by rw [step, starter], (congrArg State.gm kept :), (congrArg State.hc kept :),
        (congrArg State.archive kept :), (congrArg State.life kept :)⟩
  obtain ⟨t, eq, gm', hc', archive', life'⟩ := ends
  exact ⟨t, eq, by rw [gm', hc', archive', life']; exact good⟩

/-- The reading room at a new size, with the folios whose places it keeps. -/
def State.resized (s : State) (n : Nat) : State :=
  let fits (f : Folio) : Bool := f.slot.all (decide <| · < roomFolios n)
  { s with archive := { s.archive with rrsize := n, rrHeld := none, folios := s.archive.folios.filter fits } }

theorem State.rrsizeApply_shrinks {n : Nat} (held : s.archive.rrHeld = some n) (ready : s.rrReady = true) :
    execRrsizeApply s = .next ((s.resized n).shrinkRoom (roomFolios n) s.archive.folios.length) := by
  unfold execRrsizeApply
  rw [held]
  dsimp only
  rw [if_pos ready]
  rfl

theorem State.resized_fits {n : Nat} {o : Folio} (h : o ∈ (s.resized n).archive.folios) :
    o ∈ s.archive.folios ∧ ∀ k, o.slot = some k → k < roomFolios n := by
  simp only [State.resized, List.mem_filter] at h
  refine ⟨h.1, fun k hk => ?_⟩
  have fit := h.2
  rw [hk, Option.all_some, decide_eq_true_eq] at fit
  exact fit

/-- A held size applies: folios that do not fit are gone (R279, R307). -/
theorem State.rrsizeApply_spec {n : Nat} (held : s.archive.rrHeld = some n) (ready : s.rrReady = true) : ∃ t, exec .rrsizeApply s = .next t ∧
    t.gm = s.gm ∧ t.cores = s.cores ∧ t.archive.rrsize = n ∧ t.archive.rrHeld = none ∧
    ∀ o ∈ t.archive.folios, o ∈ s.archive.folios ∧ ∀ k, o.slot = some k → k < roomFolios n := by
  obtain ⟨fs, eq, sub⟩ := State.shrinkRoom_spec (roomFolios n) s.archive.folios.length (s.resized n)
  refine ⟨_, State.rrsizeApply_shrinks held ready, ?_⟩
  rw [eq]
  exact ⟨rfl, rfl, rfl, rfl, fun o ho => State.resized_fits (sub o ho)⟩

end Room

/-! ### Accessions (R280 to R285) -/

section Accessions

variable {s : State} {x : Accession}

/-- An accession that starts takes a controller of its partition and is checked; what follows comes at a tick that is not exposed (R280, R305). -/
theorem State.accessionStart_some (h : s.pruneVersions.archive.nextAccession = some x) : let u := s.pruneVersions
    let need := (x.n + 2 ^ 24 - 1) / 2 ^ 24
    let st := u.archive.precheck x need
    let own := archiveStacks (u.lib.parts[x.part % 4]'(Nat.mod_lt _ (by decide)))
    ∃ t ctrl k, exec .accessionStart s = .next t ∧ t.gm = s.gm ∧ t.cores = s.cores ∧ (own ≠ [] → ctrl ∈ own) ∧
      t.archive = u.archive.updAcc x.num (fun y => { y with
        started := true, ctrl := ctrl, need := need, outcome := st
        blocks := if st.isSome then [] else u.archive.allot x.id need 0 u.archive.usedBlocks }) ∧
      t.Pending .hc (s.hc + 1 + Config.delay k) effects (if st.isSome then .ev .accessionComplete else .accStep x.num) := by
  intro u need st own
  let ctrl := (own[Config.delay u.choice % (own.length + 1)]?).getD (own.headD 0)
  let v : State := { u with choice := u.choice + 1, archive := u.archive.updAcc x.num fun y => { y with
    started := true, ctrl := ctrl, need := need, blocks := if st.isSome then [] else u.archive.allot x.id need 0 u.archive.usedBlocks, outcome := st } }
  have step : exec .accessionStart s = .next (if st.isSome then v.sometime (.ev .accessionComplete) effects else v.sometime (.accStep x.num) effects) := by
    simp only [exec.eq_def, execAccessionStart, h]
    rfl
  have chosen (ne : own ≠ []) : ctrl ∈ own := by
    obtain ⟨a, rest, e⟩ := List.exists_cons_of_ne_nil ne
    simp only [ctrl]
    cases at' : own[Config.delay u.choice % (own.length + 1)]? with
    | none => simp [e]
    | some b => exact List.mem_of_getElem? at'
  refine ⟨v.sometime (if st.isSome then .ev .accessionComplete else .accStep x.num) effects, ctrl, v.choice, ?_, rfl, rfl, chosen, rfl,
    v.order, List.mem_cons_self⟩
  rw [step]
  cases st.isSome <;> rfl

/-- The accessions that have ended and not been recorded. -/
theorem State.accessionComplete_spec (s : State) : let ended := s.archive.flying.filter (·.outcome.isSome)
    (ended = [] → exec .accessionComplete s = .next { s with choice := s.choice + 1 }) ∧
    (ended ≠ [] → ∃ x ∈ ended, let u : State := { s with choice := s.choice + 1 }
      let place := u.hit none x.asid x.root false true x.record .write
      (∀ p l, place = .pa p l →
        let status := x.outcome.getD 0
        let a : Archive := { s.archive with wearRemaining := s.archive.wearRemaining - x.worn * 2 ^ 24 }
        let r := accRecord x status a.level
        exec .accessionComplete s = .next ((((((({ u with
            archive := a.updAcc x.num fun y => { y with status := some status } } : State).pruneVersions).storeAt .gm (p + 16)
          (leBytes 8 r.2.1.toNat)).storeAt .gm (p + 24) (leBytes 8 r.2.2.toNat)).storeAt .gm p (leBytes 8 r.1.toNat))).sometime
            (.ev .accessionStart) effects)) ∧
      ((∀ p l, place ≠ .pa p l) → exec .accessionComplete s = .next (u.sometime (.ev .accessionComplete) effects))) := by
  intro ended
  let picked := (ended[Config.delay s.choice % ended.length]?).or ended.head?
  refine ⟨fun h => ?_, fun h => ?_⟩
  · have missing : picked = none := by simp [picked, h]
    dsimp only [picked, ended] at missing
    simp only [exec.eq_def, execAccessionComplete, State.draw, missing]
  · obtain ⟨x, found⟩ : ∃ x, picked = some x := by
      obtain ⟨a, rest, e⟩ := List.exists_cons_of_ne_nil h
      rw [← Option.isSome_iff_exists]
      simp [picked, e]
    have mem : x ∈ ended := by
      rcases Option.or_eq_some_iff.mp found with at' | ⟨-, first⟩
      · exact List.mem_of_getElem? at'
      · exact List.mem_of_mem_head? first
    refine ⟨x, mem, ?_⟩
    dsimp only [picked, ended] at found
    intro u place
    refine ⟨fun p l h => ?_, fun h => ?_⟩
    · dsimp only [place, u] at h
      simp only [exec.eq_def, execAccessionComplete, State.draw, found, h]
      rfl
    · simp only [exec.eq_def, execAccessionComplete, State.draw, found]
      split
      · next p l h' => exact absurd h' (h p l)
      · rfl

end Accessions

/-- Settles O58: the commands and boundaries of a group, the rules of the arbiter, the reading room, accessions and the fold of the counts, each by its lemma
above. -/
theorem engineAndArchiveEventsDoTheirWork : Obligations.EngineAndArchiveEventsDoTheirWork := by
  intro s sk cmd g v obj ver folio bad ended
  refine ⟨?idle, ?start, ?read, ?ends, ?next, ?endGroup, ?grant, ?admits, ?noGroup, ?runs, ?finish, ?abort, ?killed, ?alive, ?noTimeout, ?timeout, ?charb,
    ?budget, ?refresh, ?noManage, ?manage, ?noTenure, ?tenure, ?fill, ?noFolio, ?folio, ?rrsize, ?noApply, ?apply, ?accStart, ?accComplete, ?wear, ?fold⟩
  case read => exact s.stokerRead_spec sk
  case ends => exact fun h => if_pos h
  case next => exact State.nextCommand_goes
  case endGroup => exact s.endGroup_spec sk
  case grant => exact fun t => t.grant_one s.hc
  case admits => exact fun t => t.admits_no s.hc
  case finish => exact fun again ws fl => s.finishCommand_cases sk g again ws fl
  case wear => rfl
  case idle =>
    intro h
    simp only [exec.eq_def, execGroupStart]
    rcases h with h | h | h | h
    · rw [h]; rfl
    · rw [h]; simp
    · rw [h]; simp
    · rw [h]; simp
  case start =>
    intro ref rest h1 h2 h3 h4 q r j
    have free := And.intro h1 (And.intro h2 (And.intro h3 h4))
    exact ⟨fun h => State.groupStart_turned free (eq_mk_of_snd h), fun g h hj => State.groupStart_good free (eq_mk_of_snd h) (eq_mk_of_snd hj),
      fun e h hj => State.groupStart_bad free (eq_mk_of_snd h) (eq_mk_of_snd hj)⟩
  case noGroup =>
    intro h
    simp only [exec.eq_def, execGemv, execReduce, execMap, execNcopy, execSemwait, execSempost, execCommit, execAbort, execNmFence, State.runCommand,
      State.boundary, h, and_self]
  case runs =>
    intro hg again runs pg gc rc mc nc rn len
    have same : runs = s.Runs sk cmd g := rfl
    clear_value runs
    subst same
    have gemv := State.runCommand_runs hg (show exec (.gemv sk cmd) s = .next (s.runCommand sk cmd _ _) from rfl)
    have reduce := State.runCommand_runs hg (show exec (.reduce sk cmd) s = .next (s.runCommand sk cmd _ _) from rfl)
    have map := State.runCommand_runs hg (show exec (.map sk cmd) s = .next (s.runCommand sk cmd _ _) from rfl)
    have ncopy := State.runCommand_runs hg (show exec (.ncopy sk cmd) s = .next (s.runCommand sk cmd _ _) from rfl)
    exact ⟨gemv, reduce, map, ncopy⟩
  case abort =>
    intro h
    simp only [exec.eq_def, execAbort, h]
    rfl
  case killed =>
    intro hg h
    exact ⟨congrArg _ (State.boundary_killed _ hg h), congrArg _ (State.boundary_killed _ hg h), congrArg _ (State.boundary_killed _ hg h),
      congrArg _ (State.boundary_killed _ hg h)⟩
  case alive =>
    intro hg hk
    refine ⟨congrArg _ (State.boundary_goes _ hg hk), fun h => ?_, fun h => State.commit_rows hg hk h, ?_⟩
    · simp only [exec.eq_def]
      rw [execCommit, State.boundary_goes _ hg hk]
      exact congrArg _ (if_pos h)
    · intro p n q r posts since read waits tests
      have pair (b : Bool) (h : r.2.2 = b) : r = (r.1, r.2.1, b) := eq_mk_of_snd_snd h
      have asked (b : Bool) (h : q.2 = b) : q = (q.1, b) := eq_mk_of_snd h
      refine ⟨fun h => State.semwait_held hg hk h, fun h turned => ?_, fun h served error => ?_, fun h served good => ?_, fun turned => ?_,
        fun served error => ?_, fun served good => ?_⟩
      · exact (State.semwait_turned hg hk h (asked _ turned) :)
      · exact (State.semwait_error hg hk h (asked _ served) (pair _ error) :)
      · exact (State.semwait_read hg hk h (asked _ served) (pair _ good) :)
      · exact (State.sempost_turned hg hk (asked _ turned) :)
      · exact (State.sempost_error hg hk (asked _ served) (pair _ error) :)
      · exact (State.sempost_adds hg hk (asked _ served) (pair _ good) :)
  case noTimeout =>
    intro h
    simp only [exec.eq_def, execSemwaitTimeout, finRange_find?_none h]
  case timeout =>
    intro h hg c w
    simp only [exec.eq_def, execSemwaitTimeout, h, hg, ne_eq, Word.bits_eq_zero]
    simp only [Word.bits_eq]
    rfl
  case charb =>
    intro sum
    have shares : (charbShares v).foldl (· + ·) 0 = sum := by simp [charbShares, sum, Word.bits_eq]
    simp only [exec.eq_def, execCharbWrite, shares]
  case budget => exact s.budgetPeriod_spec
  case refresh => exact s.refresh_spec
  case noManage =>
    intro h
    simp only [exec.eq_def, execRefreshManagement, finRange_find?_none fun k => show (!(s.stoker k).rfm.isEmpty) = false by rw [h]; rfl]
  case manage => exact fun b c rest first due => State.refreshManagement_spec first due
  case noTenure =>
    intro h
    simp only [exec.eq_def, execTenureEnd, finRange_find?_none h]
  case tenure =>
    intro h
    simp only [exec.eq_def, execTenureEnd, h]
  case fill => exact s.readingRoomFill_spec obj ver folio
  case noFolio =>
    intro h
    simp only [exec.eq_def, execFillComplete, h]
  case folio =>
    intro e h left u q
    exact ⟨State.fillComplete_bad h, fun turned => State.fillComplete_turned h (eq_mk_of_snd turned),
      fun served => State.fillComplete_present h (eq_mk_of_snd served)⟩
  case rrsize =>
    intro n
    simp only [exec.eq_def, execRrsizeWrite, Word.bits_eq]
    rfl
  case noApply =>
    intro h
    simp only [exec.eq_def, execRrsizeApply, h]
    cases s.archive.rrHeld <;> rfl
  case apply => exact fun n held ready => State.rrsizeApply_spec held ready
  case accStart =>
    intro u
    refine ⟨fun h => ?_, fun x h => State.accessionStart_some h⟩
    simp only [exec.eq_def, execAccessionStart]
    rw [h]
  case accComplete => exact s.accessionComplete_spec
  case fold => exact State.foldLife_spec

end Sys2Proof.Machine

/-! Rounding to floating-point formats and to integers, against the exact values of codes (R54 to R68). -/

namespace Sys2Proof.Machine

/-! ### Units and binades -/

/-- A rational in units of a power of two. -/
theorem unitsOf_spec {n d : Nat} (hd : 0 < d) (g : Int) :
    0 < (unitsOf n d g).2 ∧ ((unitsOf n d g).1 : ℚ) / (unitsOf n d g).2 = (n : ℚ) / d / 2 ^ g := by
  have hd' : (d : ℚ) ≠ 0 := by positivity
  by_cases h : 0 ≤ g
  · obtain ⟨k, rfl⟩ := Int.eq_ofNat_of_zero_le h
    simp only [unitsOf, h, if_true, Int.toNat_natCast, zpow_natCast]
    refine ⟨by positivity, ?_⟩
    push_cast
    field_simp
  · obtain ⟨k, rfl⟩ : ∃ k : Nat, g = -(k : Int) := ⟨(-g).toNat, by omega⟩
    simp only [unitsOf, h, if_false, neg_neg, Int.toNat_natCast, zpow_neg, zpow_natCast]
    refine ⟨hd, ?_⟩
    push_cast
    field_simp

/-- The binade of a positive rational holds it. -/
theorem binade_spec {n d : Nat} (hn : 0 < n) (hd : 0 < d) :
    (2 : ℚ) ^ binade n d ≤ (n : ℚ) / d ∧ (n : ℚ) / d < 2 ^ (binade n d + 1) := by
  have hd' : (0 : ℚ) < d := by positivity
  let e : Int := (n.log2 : Int) - d.log2
  have size {k : Nat} (hk : 0 < k) : (2 : ℚ) ^ (k.log2 : Int) ≤ k ∧ (k : ℚ) < 2 ^ ((k.log2 : Int) + 1) := by
    have lo := Nat.log2_self_le (Nat.pos_iff_ne_zero.mp hk)
    have hi := Nat.lt_log2_self (n := k)
    constructor
    · rw [zpow_natCast]; exact_mod_cast lo
    · rw [← Nat.cast_one (R := Int), ← Nat.cast_add, zpow_natCast]; exact_mod_cast hi
  have two : (2 : ℚ) ≠ 0 := by norm_num
  have below : (2 : ℚ) ^ (e - 1) < (n : ℚ) / d := by
    rw [lt_div_iff₀ hd']
    calc (2 : ℚ) ^ (e - 1) * d < 2 ^ (e - 1) * 2 ^ ((d.log2 : Int) + 1) := by gcongr; exact (size hd).2
      _ = 2 ^ (n.log2 : Int) := by rw [← zpow_add₀ two]; congr 1; omega
      _ ≤ n := (size hn).1
  have above : (n : ℚ) / d < 2 ^ (e + 1) := by
    rw [div_lt_iff₀ hd']
    calc (n : ℚ) < 2 ^ ((n.log2 : Int) + 1) := (size hn).2
      _ = 2 ^ (e + 1) * 2 ^ (d.log2 : Int) := by rw [← zpow_add₀ two]; congr 1; omega
      _ ≤ 2 ^ (e + 1) * d := by gcongr; exact (size hd).1
  obtain ⟨pos, units⟩ := unitsOf_spec (n := n) hd e
  have judged : (if 0 ≤ e then n < d * 2 ^ e.toNat else n * 2 ^ (-e).toNat < d) ↔ (n : ℚ) / d < 2 ^ e := by
    have : (if 0 ≤ e then n < d * 2 ^ e.toNat else n * 2 ^ (-e).toNat < d) ↔ (unitsOf n d e).1 < (unitsOf n d e).2 := by
      rw [unitsOf]; split <;> rfl
    rw [this, ← Nat.cast_lt (α := ℚ), ← div_lt_one (by exact_mod_cast pos), units, div_lt_one (by positivity)]
  have eq : binade n d = if (n : ℚ) / d < 2 ^ e then e - 1 else e := by
    rw [binade]
    exact if_congr judged rfl rfl
  rw [eq]
  split
  · next h => exact ⟨below.le, by rwa [sub_add_cancel]⟩
  · next h => exact ⟨not_lt.mp h, above⟩

/-! ### One rounding of a quotient (R57, R60, R65) -/

/-- A quotient that is no integer goes to the neighbour that the mode takes. -/
theorem roundQuot_eq {n d : Nat} (hd : 0 < d) (rm : Rm) (neg : Bool) (r : Nat) (tie : Bool) :
    roundQuot rm neg r n d tie = if n % d = 0 then n / d else
      if takesUpper rm neg r (((n % d : Nat) : ℚ) / d) tie then n / d + 1 else n / d := by
  have hd' : (0 : ℚ) < d := by positivity
  simp only [roundQuot]
  by_cases h : n % d = 0
  · rw [if_pos h, if_pos h]
  · rw [if_neg h, if_neg h]
    have more : d < 2 * (n % d) ↔ (1 / 2 : ℚ) < ((n % d : Nat) : ℚ) / d := by
      rw [div_lt_div_iff₀ (by norm_num) hd', ← Nat.cast_lt (α := ℚ)]; push_cast; constructor <;> intro h <;> linarith
    have half : d = 2 * (n % d) ↔ ((n % d : Nat) : ℚ) / d = 1 / 2 := by
      rw [div_eq_div_iff (by positivity) (by norm_num), ← Nat.cast_inj (R := ℚ)]; push_cast; constructor <;> intro h <;> linarith
    have least : d ≤ 2 * (n % d) ↔ (1 / 2 : ℚ) ≤ ((n % d : Nat) : ℚ) / d := by
      rw [div_le_div_iff₀ (by norm_num) hd', ← Nat.cast_le (α := ℚ)]; push_cast; constructor <;> intro h <;> linarith
    have stochastic : r * d < n % d * 2 ^ 32 ↔ (r : ℚ) < ((n % d : Nat) : ℚ) / d * 2 ^ 32 := by
      rw [div_mul_eq_mul_div, lt_div_iff₀ hd', ← Nat.cast_lt (α := ℚ)]; push_cast; rfl
    cases rm <;> simp only [takesUpper, more, half, least, stochastic] <;> rfl

/-- The part of a quotient above its integer. -/
theorem mod_div_eq {n d : Nat} (hd : 0 < d) : ((n % d : Nat) : ℚ) / d = (n : ℚ) / d - (n / d : Nat) := by
  have hd' : (d : ℚ) ≠ 0 := by positivity
  have : (n : ℚ) = d * (n / d : Nat) + (n % d : Nat) := by exact_mod_cast (Nat.div_add_mod n d).symm
  field_simp
  linarith

/-! ### Codes of the binary formats (R54) -/

section Binary

/-- The significand of a code without its sign, in units of the last place of its binade. -/
def codeSig (f : Fmt) (c : Nat) : Nat := if c / 2 ^ fracBits f = 0 then c else 2 ^ fracBits f + c % 2 ^ fracBits f
/-- The exponent of those units. -/
def codeExp (f : Fmt) (c : Nat) : Int := expMin f - fracBits f + (c / 2 ^ fracBits f - 1 : Nat)
/-- The magnitude of a code of a binary format, its binades extended upward without end. -/
def codeMag (f : Fmt) (c : Nat) : ℚ := codeSig f c * 2 ^ codeExp f c

theorem codeMag_pos_exp (f : Fmt) (k : Int) : (0 : ℚ) < 2 ^ (expMin f - fracBits f + k) := by positivity

variable {f : Fmt}

/-- A code from its binade, counted from the least, and its significand, which may stand one beyond the binade. -/
theorem codeMag_of {k q : Nat} (hk : 0 < k → 2 ^ fracBits f ≤ q) (hq : q ≤ 2 ^ (fracBits f + 1)) :
    codeMag f (k * 2 ^ fracBits f + q) = q * 2 ^ (expMin f - fracBits f + k) := by
  have pos : 0 < 2 ^ fracBits f := Nat.two_pow_pos _
  have double : 2 ^ (fracBits f + 1) = 2 ^ fracBits f + 2 ^ fracBits f := by rw [Nat.pow_succ]; omega
  by_cases low : q < 2 ^ fracBits f
  · have : k = 0 := by by_contra h; exact absurd (hk (Nat.pos_of_ne_zero h)) (not_le.mpr low)
    subst this
    have zero : q / 2 ^ fracBits f = 0 := Nat.div_eq_of_lt low
    simp [codeMag, codeSig, codeExp, zero]
  · obtain ⟨p, rfl⟩ := Nat.exists_eq_add_of_le (not_lt.mp low)
    have split : k * 2 ^ fracBits f + (2 ^ fracBits f + p) = p + (k + 1) * 2 ^ fracBits f := by ring
    by_cases top : p < 2 ^ fracBits f
    · have div : (p + (k + 1) * 2 ^ fracBits f) / 2 ^ fracBits f = k + 1 := by
        rw [Nat.add_mul_div_right _ _ pos, Nat.div_eq_of_lt top, Nat.zero_add]
      have mod : (p + (k + 1) * 2 ^ fracBits f) % 2 ^ fracBits f = p := by rw [Nat.add_mul_mod_self_right, Nat.mod_eq_of_lt top]
      rw [split, codeMag, codeSig, codeExp, div, mod, if_neg (Nat.succ_ne_zero k)]
      simp
    · have : p = 2 ^ fracBits f := by omega
      subst this
      have next : 2 ^ fracBits f + (k + 1) * 2 ^ fracBits f = (k + 2) * 2 ^ fracBits f := by ring
      have div : (k + 2) * 2 ^ fracBits f / 2 ^ fracBits f = k + 2 := Nat.mul_div_cancel _ pos
      rw [split, next, codeMag, codeSig, codeExp, div, Nat.mul_mod_left, if_neg (by omega), show k + 2 - 1 = k + 1 by omega]
      push_cast
      rw [← add_assoc, zpow_add_one₀ (by norm_num)]
      ring

/-- Every code has that form. -/
theorem code_eq (f : Fmt) (c : Nat) : (c / 2 ^ fracBits f - 1) * 2 ^ fracBits f + codeSig f c = c := by
  rw [codeSig]
  split
  · next h => rw [h]; simp
  · next h =>
    obtain ⟨k, hk⟩ := Nat.exists_eq_succ_of_ne_zero h
    have := Nat.div_add_mod c (2 ^ fracBits f)
    rw [hk, Nat.succ_sub_one]
    rw [hk, Nat.mul_succ, Nat.mul_comm] at this
    omega
theorem codeSig_lt (f : Fmt) (c : Nat) : codeSig f c < 2 ^ (fracBits f + 1) := by
  have pos : 0 < 2 ^ fracBits f := Nat.two_pow_pos _
  have mod := Nat.mod_lt c pos
  rw [codeSig, Nat.pow_succ]
  split
  · next h => have := (Nat.div_eq_zero_iff_lt pos).mp h; omega
  · omega
theorem codeSig_ge {c : Nat} (h : 0 < c / 2 ^ fracBits f - 1) : 2 ^ fracBits f ≤ codeSig f c := by
  rw [codeSig, if_neg (by omega)]
  omega

/-- The next code is one unit greater. -/
theorem codeMag_succ (f : Fmt) (c : Nat) : codeMag f (c + 1) = codeMag f c + 2 ^ codeExp f c := by
  have := codeMag_of (k := c / 2 ^ fracBits f - 1) (q := codeSig f c + 1) (fun h => (codeSig_ge h).trans (Nat.le_succ _)) (codeSig_lt f c)
  rw [← Nat.add_assoc, code_eq] at this
  rw [this, codeMag, codeExp]
  push_cast
  ring
theorem codeMag_strictMono (f : Fmt) : StrictMono (codeMag f) :=
  strictMono_nat_of_lt_succ fun c => by
    rw [codeMag_succ]
    exact lt_add_of_pos_right _ (codeMag_pos_exp f _)

/-- The scaled numbers are what they say. -/
theorem Num.scale_eq (neg : Bool) (m : Nat) (e : Int) : ∃ n d, Num.scale neg m e = .fin neg n d ∧ 0 < d ∧ (n : ℚ) / d = m * 2 ^ e := by
  rw [Num.scale]
  split
  · next h =>
    obtain ⟨k, rfl⟩ := Int.eq_ofNat_of_zero_le h
    exact ⟨_, _, rfl, Nat.one_pos, by simp⟩
  · next h =>
    obtain ⟨k, rfl⟩ : ∃ k : Nat, e = -(k : Int) := ⟨(-e).toNat, by omega⟩
    refine ⟨_, _, rfl, Nat.two_pow_pos _, ?_⟩
    simp [div_eq_mul_inv]

/-- The value of an element of a binary format. -/
theorem floatValue_binary (hf : f ≠ .t8) {v : Nat} (hv : v < 2 ^ f.bits) : let c := v % 2 ^ (f.bits - 1)
    let neg := decide (2 ^ (f.bits - 1) ≤ v)
    floatValue f v = if maxFinite f < c then (if hasInf f && c == maxFinite f + 1 then .inf neg else .nan)
      else .scale neg (codeSig f c) (codeExp f c) := by
  intro c neg
  have read : floatValue f v = if maxFinite f < c then (if hasInf f && c == maxFinite f + 1 then .inf neg else .nan)
      else if c / 2 ^ fracBits f = 0 then .scale neg (c % 2 ^ fracBits f) (1 - (fpBias f + fracBits f : Nat))
      else .scale neg (2 ^ fracBits f + c % 2 ^ fracBits f) ((c / 2 ^ fracBits f : Nat) - (fpBias f + fracBits f : Nat)) := by
    rw [floatValue]
    · simp only [Nat.mod_eq_of_lt hv]
      rfl
    · exact hf
  rw [read]
  refine if_congr Iff.rfl rfl ?_
  rw [codeSig, codeExp, expMin]
  split
  · next h =>
    have small := (Nat.div_eq_zero_iff_lt (Nat.two_pow_pos _)).mp h
    rw [Nat.mod_eq_of_lt small, h]
    congr 1
    push_cast
    omega
  · next h =>
    generalize c / 2 ^ fracBits f = e at h ⊢
    congr 1
    omega

/-- The binary formats have a fraction, and their greatest finite code stands inside its binade. -/
theorem binary_facts (f : Fmt) : f.isI = false → f ≠ .t8 → 0 < fracBits f ∧ 0 < f.bits ∧ 2 ^ fracBits f ≤ maxFinite f ∧
    maxFinite f < 2 ^ (f.bits - 1) ∧ (maxFinite f - 1) / 2 ^ fracBits f = maxFinite f / 2 ^ fracBits f := by
  cases f <;> decide

variable (hi : f.isI = false) (hf : f ≠ .t8)
include hi hf

/-- The finite codes are those up to the greatest, and stand for their magnitudes. -/
theorem floatValue_code {c : Nat} (hc : c < 2 ^ (f.bits - 1)) :
    (c ≤ maxFinite f → ∃ n d, floatValue f c = .fin false n d ∧ 0 < d ∧ (n : ℚ) / d = codeMag f c) ∧
      (maxFinite f < c → ∀ n d, floatValue f c ≠ .fin false n d) := by
  obtain ⟨-, bits, -, -, -⟩ := binary_facts f hi hf
  have wide : c < 2 ^ f.bits := hc.trans_le (Nat.pow_le_pow_right (by decide) (Nat.sub_le _ _))
  have value := floatValue_binary hf wide
  simp only [Nat.mod_eq_of_lt hc, decide_eq_false (not_le.mpr hc)] at value
  refine ⟨fun h => ?_, fun h n d => ?_⟩
  · rw [value, if_neg (not_lt.mpr h)]
    exact Num.scale_eq false _ _
  · rw [value, if_pos h]
    split <;> nofun

theorem binary_finite {c : Nat} : finiteCode f c = true ↔ c ≤ maxFinite f := by
  obtain ⟨-, bits, -, top, -⟩ := binary_facts f hi hf
  rw [finiteCode, Bool.and_eq_true, decide_eq_true_eq]
  constructor
  · rintro ⟨hc, fin⟩
    by_contra h
    have no := (floatValue_code hi hf hc).2 (not_le.mp h)
    split at fin
    · next n d e => exact no n d e
    · exact absurd fin nofun
  · intro h
    obtain ⟨n, d, e, -, -⟩ := (floatValue_code hi hf (h.trans_lt top)).1 h
    exact ⟨h.trans_lt top, by rw [e]⟩
theorem binary_magnitude {c : Nat} (h : c ≤ maxFinite f) : magnitude f c = codeMag f c := by
  obtain ⟨-, -, -, top, -⟩ := binary_facts f hi hf
  obtain ⟨n, d, e, -, eq⟩ := (floatValue_code hi hf (h.trans_lt top)).1 h
  rw [magnitude, e]
  exact eq
theorem binary_next : nextMagnitude f = codeMag f (maxFinite f + 1) := by
  obtain ⟨frac, -, normal, -, binade⟩ := binary_facts f hi hf
  have pos : 0 < maxFinite f := (Nat.two_pow_pos _).trans_le normal
  have last := codeMag_succ f (maxFinite f - 1)
  rw [Nat.sub_add_cancel pos, codeExp, binade] at last
  rw [nextMagnitude, if_neg hf, binary_magnitude hi hf le_rfl, binary_magnitude hi hf (Nat.sub_le _ _), codeMag_succ, codeExp, last]
  ring

end Binary

/-! ### The neighbours of a magnitude (R57, R61) -/

/-- The neighbour that a mode takes of two magnitudes about `x`, exact where `x` is the lower one. -/
def takeNear (rm : Rm) (neg : Bool) (r : Nat) (x lo hi : ℚ) (cl ch : Nat) (tie : Bool) : Near :=
  if x = lo then ⟨cl, false⟩ else ⟨if takesUpper rm neg r ((x - lo) / (hi - lo)) tie then ch else cl, true⟩

/-- What rounding a positive magnitude gives: one of two finite neighbours; the greatest finite code or a code of an overflow; or an overflow. -/
def Brackets (f : Fmt) (rm : Rm) (neg : Bool) (r : Nat) (x : ℚ) (y : Near) : Prop :=
  (∃ lo hi, finiteCode f lo = true ∧ finiteCode f hi = true ∧ magnitude f lo ≤ x ∧ x < magnitude f hi ∧
    (∀ m, finiteCode f m = true → magnitude f m ≤ magnitude f lo ∨ magnitude f hi ≤ magnitude f m) ∧
    y = takeNear rm neg r x (magnitude f lo) (magnitude f hi) lo hi (lo % 2 == 1 && hi % 2 == 0)) ∨
  (magnitude f (maxFinite f) ≤ x ∧ x < nextMagnitude f ∧ ∃ beyond, overflows f beyond = true ∧
    y = takeNear rm neg r x (magnitude f (maxFinite f)) (nextMagnitude f) (maxFinite f) beyond (maxFinite f % 2 == 1 && f != .t8)) ∨
  (nextMagnitude f ≤ x ∧ overflows f y.code = true)

/-- A quotient in units that two magnitudes are multiples of rounds to the one that the mode takes. -/
theorem roundQuot_takeNear {n d : Nat} (hd : 0 < d) (rm : Rm) (neg : Bool) (r : Nat) (tie : Bool) {x unit lo hi : ℚ} (hu : 0 < unit)
    (hx : (n : ℚ) / d = x / unit) (hl : lo = (n / d : Nat) * unit) (hh : hi = ((n / d : Nat) + 1) * unit) (cl ch : Nat) :
    (⟨if roundQuot rm neg r n d tie = n / d then cl else ch, decide (n % d ≠ 0)⟩ : Near) = takeNear rm neg r x lo hi cl ch tie := by
  have part : ((n % d : Nat) : ℚ) / d = (x - lo) / (hi - lo) := by
    rw [mod_div_eq hd, hx, hl, hh]
    field_simp
    ring
  have exact : n % d = 0 ↔ x = lo := by
    have hd' : (d : ℚ) ≠ 0 := by positivity
    have below : hi - lo = unit := by rw [hl, hh]; ring
    rw [below, div_eq_div_iff hd' hu.ne'] at part
    constructor
    · intro h
      rw [h] at part
      have : (x - lo) * d = 0 := by rw [← part]; simp
      exact sub_eq_zero.mp ((mul_eq_zero.mp this).resolve_right hd')
    · rintro rfl
      rw [sub_self, zero_mul] at part
      exact_mod_cast (mul_eq_zero.mp part).resolve_right hu.ne'
  rw [roundQuot_eq hd, takeNear, part]
  by_cases h : n % d = 0
  · simp [h, exact.mp h]
  · rw [if_neg h, if_neg (mt exact.mpr h)]
    cases takesUpper rm neg r ((x - lo) / (hi - lo)) tie <;> simp [h]

theorem roundQuot_or {n d : Nat} (hd : 0 < d) (rm : Rm) (neg : Bool) (r : Nat) (tie : Bool) :
    roundQuot rm neg r n d tie = n / d ∨ roundQuot rm neg r n d tie = n / d + 1 := by
  rw [roundQuot_eq hd]
  split
  · exact .inl rfl
  · split
    · exact .inr rfl
    · exact .inl rfl

/-- The integer part of a quotient in units. -/
theorem floor_units {n d : Nat} {x unit : ℚ} (hd : 0 < d) (hu : 0 < unit) (hx : (n : ℚ) / d = x / unit) :
    ((n / d : Nat) : ℚ) * unit ≤ x ∧ x < ((n / d : Nat) + 1) * unit := by
  have hd' : (0 : ℚ) < d := by exact_mod_cast hd
  have part := mod_div_eq (n := n) hd
  have least : (0 : ℚ) ≤ ((n % d : Nat) : ℚ) / d := by positivity
  have less : ((n % d : Nat) : ℚ) / d < 1 := by rw [div_lt_one hd']; exact_mod_cast Nat.mod_lt n hd
  rw [part, hx] at least less
  constructor
  · rw [← le_div_iff₀ hu]; linarith
  · rw [← div_lt_iff₀ hu]; linarith

/-- The code at or below a positive magnitude, its binades extended upward without end. -/
def lowerCode (f : Fmt) (n d : Nat) : Nat :=
  let e := max (expMin f) (binade n d)
  let units := unitsOf n d (e - fracBits f)
  (e - expMin f).toNat * 2 ^ fracBits f + units.1 / units.2

section

variable {f : Fmt} (hi : f.isI = false) (hf : f ≠ .t8) {n d : Nat} (hn : 0 < n) (hd : 0 < d)
include hi hf hn hd

/-- A positive magnitude lies between a code of a binary format and the next, one of which rounding takes. -/
theorem nearest_binary (rm : Rm) (neg : Bool) (r : Nat) : let c := lowerCode f n d
    codeMag f c ≤ (n : ℚ) / d ∧ (n : ℚ) / d < codeMag f (c + 1) ∧
    nearest f rm neg r n d = takeNear rm neg r ((n : ℚ) / d) (codeMag f c) (codeMag f (c + 1)) c (c + 1) (c % 2 == 1) := by
  intro c
  obtain ⟨frac, -⟩ := binary_facts f hi hf
  obtain ⟨low, high⟩ := binade_spec hn hd
  let e := max (expMin f) (binade n d)
  let k := (e - expMin f).toNat
  have he : e = expMin f + k := by have : expMin f ≤ e := le_max_left _ _; omega
  obtain ⟨pos, units⟩ := unitsOf_spec (n := n) hd (e - fracBits f)
  let N := (unitsOf n d (e - fracBits f)).1
  let D := (unitsOf n d (e - fracBits f)).2
  let unit : ℚ := 2 ^ (e - fracBits f)
  have hu : 0 < unit := by positivity
  let q := N / D
  have c_eq : c = k * 2 ^ fracBits f + q := rfl
  obtain ⟨below, above⟩ := floor_units pos hu units
  have scaled (i : Nat) (z : Int) (h : z = e - fracBits f + i) : (2 : ℚ) ^ z = (2 ^ i : Nat) * unit := by
    rw [h, zpow_add₀ (by norm_num), zpow_natCast, mul_comm]
    push_cast
    rfl
  have q_lt : q < 2 ^ (fracBits f + 1) := by
    have : (n : ℚ) / d < (2 ^ (fracBits f + 1) : Nat) * unit :=
      high.trans_le (by rw [← scaled _ (e + 1) (by push_cast; ring)]; exact zpow_le_zpow_right₀ (by norm_num) (by have := le_max_right (expMin f) (binade n d); omega))
    exact_mod_cast lt_of_mul_lt_mul_right (below.trans_lt this) hu.le
  have q_ge (h : 0 < k) : 2 ^ fracBits f ≤ q := by
    have top : e = binade n d := by omega
    have : ((2 ^ fracBits f : Nat) : ℚ) * unit < (q + 1) * unit := by
      rw [← scaled _ e (by ring)]
      exact (top ▸ low).trans_lt above
    have : 2 ^ fracBits f < q + 1 := by exact_mod_cast lt_of_mul_lt_mul_right this hu.le
    omega
  have place : unit = 2 ^ (expMin f - fracBits f + k) := by
    simp only [unit, he]
    congr 1
    ring
  have lo : codeMag f c = q * unit := by rw [c_eq, codeMag_of q_ge q_lt.le, place]
  have hi' : codeMag f (c + 1) = (q + 1) * unit := by
    have := codeMag_of (f := f) (k := k) (q := q + 1) (fun h => (q_ge h).trans (Nat.le_succ _)) q_lt
    rw [← Nat.add_assoc] at this
    rw [c_eq, this, place]
    push_cast
    rfl
  have parity : decide (q % 2 = 1) = (c % 2 == 1) := by
    have : c % 2 = q % 2 := by
      obtain ⟨m, hm⟩ := Nat.exists_eq_succ_of_ne_zero frac.ne'
      rw [show c = q + k * 2 ^ m * 2 by rw [c_eq, hm, Nat.pow_succ]; ring, Nat.add_mul_mod_self_right]
    rw [this]
    rfl
  refine ⟨lo ▸ below, hi' ▸ above, ?_⟩
  rw [← parity, ← roundQuot_takeNear pos rm neg r _ hu units lo hi']
  have code : nearest f rm neg r n d = ⟨k * 2 ^ fracBits f + roundQuot rm neg r N D (decide (q % 2 = 1)), decide (N % D ≠ 0)⟩ := by
    rw [nearest]
    · rfl
    · exact hf
  rw [code]
  congr 1
  rcases roundQuot_or pos rm neg r (n := N) (decide (q % 2 = 1)) with h | h
  · rw [h]
    exact (if_pos rfl).symm
  · rw [h]
    exact (if_neg (Nat.succ_ne_self _)).symm

theorem binary_brackets (rm : Rm) (neg : Bool) (r : Nat) : Brackets f rm neg r ((n : ℚ) / d) (nearest f rm neg r n d) := by
  let c := lowerCode f n d
  obtain ⟨lo, above, near⟩ := nearest_binary hi hf hn hd rm neg r
  rw [show lowerCode f n d = c from rfl] at lo above near
  clear_value c
  have mono := codeMag_strictMono f
  have t8 : (f != .t8) = true := by simpa using hf
  rcases lt_trichotomy c (maxFinite f) with h | rfl | h
  · have parity : (c % 2 == 1 && (c + 1) % 2 == 0) = (c % 2 == 1) := by
      rcases Nat.mod_two_eq_zero_or_one c with e | e
      · simp [e]
      · have : (c + 1) % 2 = 0 := by omega
        simp [e, this]
    refine .inl ⟨c, c + 1, (binary_finite hi hf).mpr h.le, (binary_finite hi hf).mpr h, ?_⟩
    rw [binary_magnitude hi hf h.le, binary_magnitude hi hf h, parity]
    refine ⟨lo, above, fun m hm => ?_, near⟩
    rw [binary_magnitude hi hf ((binary_finite hi hf).mp hm), mono.le_iff_le, mono.le_iff_le]
    omega
  · refine .inr (.inl ?_)
    rw [binary_magnitude hi hf le_rfl, binary_next hi hf, t8, Bool.and_true]
    exact ⟨lo, above, maxFinite f + 1, by simp [overflows, hf], near⟩
  · refine .inr (.inr ⟨?_, ?_⟩)
    · rw [binary_next hi hf]
      exact (mono.monotone h).trans lo
    · rw [near, takeNear]
      simp only [overflows, hf, if_false, decide_eq_true_eq]
      split
      · exact h
      · dsimp only
        split <;> omega

end

/-! ### TF8 (R56) -/

section Tf8

/-- An exponent and a fraction that TF8 has at it. -/
def tf8Place (e : Int) (p : Nat) : Prop := -21 ≤ e ∧ e ≤ 21 ∧ p < 2 ^ tf8Width e
/-- The magnitude there. -/
def tf8Value (e : Int) (p : Nat) : ℚ := ((2 ^ tf8Width e + p : Nat) : ℚ) * 2 ^ (e - tf8Width e)

/-- Codes and places name each other. -/
theorem tf8Fields_code : ∀ (i : Fin 43) (p : Fin 16), p.val < 2 ^ tf8Width ((i.val : Int) - 21) →
    tf8Code (i.val - 21) p ≠ 0 ∧ tf8Code (i.val - 21) p < 128 ∧ tf8Fields (tf8Code (i.val - 21) p) = ((i.val : Int) - 21, p.val, tf8Width (i.val - 21)) := by
  decide
theorem tf8Code_fields : ∀ c : Fin 128, c.val ≠ 0 → -21 ≤ (tf8Fields c).1 ∧ (tf8Fields c).1 ≤ 21 ∧ (tf8Fields c).2.1 < 2 ^ tf8Width (tf8Fields c).1 ∧
    tf8Code (tf8Fields c).1 (tf8Fields c).2.1 = c := by
  decide

theorem tf8Width_le (e : Int) : tf8Width e ≤ 4 := by
  unfold tf8Width
  split
  · rfl
  · split <;> omega

theorem tf8Place.fields {e : Int} {p : Nat} (h : tf8Place e p) : tf8Code e p ≠ 0 ∧ tf8Code e p < 128 ∧ tf8Fields (tf8Code e p) = (e, p, tf8Width e) := by
  obtain ⟨low, high, frac⟩ := h
  have small : p < 16 := frac.trans_le (Nat.pow_le_pow_right (by decide) (tf8Width_le e))
  have place : ((⟨(e + 21).toNat, by omega⟩ : Fin 43).val : Int) - 21 = e := by
    show ((e + 21).toNat : Int) - 21 = e
    omega
  have := tf8Fields_code ⟨(e + 21).toNat, by omega⟩ ⟨p, small⟩
  rw [place] at this
  exact this frac

theorem tf8Value_bounds {e : Int} {p : Nat} (h : tf8Place e p) : (2 : ℚ) ^ e ≤ tf8Value e p ∧ tf8Value e p < 2 ^ (e + 1) := by
  have two : (2 : ℚ) ≠ 0 := by norm_num
  have unit : (0 : ℚ) < 2 ^ (e - tf8Width e) := by positivity
  have scaled (i : Nat) (z : Int) (h : z = i + (e - tf8Width e)) : (2 : ℚ) ^ z = (2 ^ i : Nat) * 2 ^ (e - tf8Width e) := by
    rw [h, zpow_add₀ two, zpow_natCast]
    push_cast
    rfl
  constructor
  · rw [scaled (tf8Width e) e (by ring), tf8Value, mul_le_mul_iff_left₀ unit]
    exact_mod_cast Nat.le_add_right _ _
  · rw [scaled (tf8Width e + 1) (e + 1) (by push_cast; ring), tf8Value, mul_lt_mul_iff_left₀ unit]
    have := h.2.2
    rw [Nat.cast_lt, Nat.pow_succ]
    omega

/-- The value of a TF8 code without its sign. -/
theorem floatValue_tf8 {e : Int} {p : Nat} (h : tf8Place e p) : ∃ n d, floatValue .t8 (tf8Code e p) = .fin false n d ∧ (n : ℚ) / d = tf8Value e p := by
  obtain ⟨ne, small, fields⟩ := h.fields
  have byte : tf8Code e p % 2 ^ Fmt.t8.bits = tf8Code e p := Nat.mod_eq_of_lt (small.trans (by decide))
  have plain : decide (128 ≤ tf8Code e p) = false := decide_eq_false (not_le.mpr small)
  obtain ⟨n, d, eq, -, ratio⟩ := Num.scale_eq false (2 ^ tf8Width e + p) (e - tf8Width e)
  refine ⟨n, d, ?_, ratio⟩
  simp only [floatValue, byte, Nat.mod_eq_of_lt small, if_neg ne, fields, plain, eq]

theorem tf8_finite {e : Int} {p : Nat} (h : tf8Place e p) : finiteCode .t8 (tf8Code e p) = true ∧ magnitude .t8 (tf8Code e p) = tf8Value e p := by
  obtain ⟨-, small, -⟩ := h.fields
  obtain ⟨n, d, eq, ratio⟩ := floatValue_tf8 h
  rw [finiteCode, magnitude, eq]
  exact ⟨Bool.and_eq_true _ _ |>.mpr ⟨decide_eq_true small, rfl⟩, ratio⟩
theorem tf8_zero : finiteCode .t8 0 = true ∧ magnitude .t8 0 = 0 := by
  have : floatValue .t8 0 = .fin false 0 1 := by decide
  rw [finiteCode, magnitude, this]
  exact ⟨by decide, by simp⟩
theorem tf8_cases {m : Nat} (h : finiteCode .t8 m = true) : m = 0 ∨ ∃ e p, tf8Place e p ∧ m = tf8Code e p := by
  have small : m < 128 := by
    rw [finiteCode, Bool.and_eq_true, decide_eq_true_eq] at h
    exact h.1
  by_cases zero : m = 0
  · exact .inl zero
  · obtain ⟨low, high, frac, code⟩ := tf8Code_fields ⟨m, small⟩ zero
    exact .inr ⟨_, _, ⟨low, high, frac⟩, code.symm⟩

/-- No magnitude stands between two that are one unit apart. -/
theorem tf8_apart {e : Int} {q : Nat} (low : 2 ^ tf8Width e ≤ q) (high : q < 2 ^ (tf8Width e + 1)) {m : Nat} (h : finiteCode .t8 m = true) :
    magnitude .t8 m ≤ q * 2 ^ (e - tf8Width e) ∨ ((q : ℚ) + 1) * 2 ^ (e - tf8Width e) ≤ magnitude .t8 m := by
  have two : (2 : ℚ) ≠ 0 := by norm_num
  have unit : (0 : ℚ) < 2 ^ (e - tf8Width e) := by positivity
  have scaled (i : Nat) (z : Int) (h : z = i + (e - tf8Width e)) : (2 : ℚ) ^ z = (2 ^ i : Nat) * 2 ^ (e - tf8Width e) := by
    rw [h, zpow_add₀ two, zpow_natCast]
    push_cast
    rfl
  rcases tf8_cases h with rfl | ⟨e', p, place, rfl⟩
  · rw [tf8_zero.2]
    exact .inl (by positivity)
  · rw [(tf8_finite place).2]
    obtain ⟨least, less⟩ := tf8Value_bounds place
    rcases lt_trichotomy e' e with lt | rfl | lt
    · refine .inl (less.le.trans ((zpow_le_zpow_right₀ (by norm_num) lt).trans ?_))
      rw [scaled (tf8Width e) e (by ring)]
      exact mul_le_mul_of_nonneg_right (by exact_mod_cast low) unit.le
    · rw [tf8Value, mul_le_mul_iff_left₀ unit, mul_le_mul_iff_left₀ unit]
      norm_cast
      omega
    · refine .inr (le_trans ?_ ((zpow_le_zpow_right₀ (by norm_num) lt).trans least))
      rw [scaled (tf8Width e + 1) (e + 1) (by push_cast; ring)]
      exact mul_le_mul_of_nonneg_right (by exact_mod_cast high) unit.le

variable {n d : Nat} (hn : 0 < n) (hd : 0 < d) (rm : Rm) (neg : Bool) (r : Nat)
include hn hd

/-- Below the least magnitude rounding takes it or zero. -/
theorem tf8_brackets_low (h : binade n d < -21) : Brackets .t8 rm neg r ((n : ℚ) / d) (nearest .t8 rm neg r n d) := by
  obtain ⟨-, high⟩ := binade_spec hn hd
  obtain ⟨pos, units⟩ := unitsOf_spec (n := n) hd (-21)
  have unit : (0 : ℚ) < 2 ^ (-21 : Int) := by positivity
  have least : tf8Place (-21) 0 := ⟨le_rfl, by norm_num, by decide⟩
  have code : tf8Code (-21) 0 = 2 := by decide
  have value : tf8Value (-21) 0 = 2 ^ (-21 : Int) := by simp [tf8Value, show tf8Width (-21) = 0 by decide]
  have two := tf8_finite least
  rw [code, value] at two
  have small : (n : ℚ) / d < 2 ^ (-21 : Int) := high.trans_le (zpow_le_zpow_right₀ (by norm_num) (by omega))
  have positive : (0 : ℚ) < (n : ℚ) / d := by positivity
  have zero : (unitsOf n d (-21)).1 / (unitsOf n d (-21)).2 = 0 := by
    obtain ⟨below, -⟩ := floor_units pos unit units
    have : ((((unitsOf n d (-21)).1 / (unitsOf n d (-21)).2 : Nat) : ℚ)) * 2 ^ (-21 : Int) < 1 * 2 ^ (-21 : Int) := by
      rw [one_mul]; exact below.trans_lt small
    have := lt_of_mul_lt_mul_right this unit.le
    exact Nat.lt_one_iff.mp (by exact_mod_cast this)
  have near := roundQuot_takeNear pos rm neg r false (x := (n : ℚ) / d) (lo := 0) (hi := 2 ^ (-21 : Int)) unit units (by rw [zero]; simp)
    (by rw [zero]; simp) 0 2
  have inexact : decide ((unitsOf n d (-21)).1 % (unitsOf n d (-21)).2 ≠ 0) = true := by
    have := congrArg Near.inexact near
    rw [takeNear, if_neg positive.ne'] at this
    exact this
  refine .inl ⟨0, 2, tf8_zero.1, two.1, ?_⟩
  rw [tf8_zero.2, two.2]
  refine ⟨positive.le, small, fun m hm => ?_, ?_⟩
  · rcases tf8_cases hm with rfl | ⟨e, p, place, rfl⟩
    · exact .inl tf8_zero.2.le
    · rw [(tf8_finite place).2]
      exact .inr ((zpow_le_zpow_right₀ (by norm_num) place.1).trans (tf8Value_bounds place).1)
  · rw [inexact, zero] at near
    simp only [nearest, if_pos h]
    exact near

/-- Above the top binade a magnitude overflows. -/
theorem tf8_brackets_high (h : 21 < binade n d) : Brackets .t8 rm neg r ((n : ℚ) / d) (nearest .t8 rm neg r n d) := by
  obtain ⟨low, -⟩ := binade_spec hn hd
  refine .inr (.inr ⟨?_, ?_⟩)
  · have : (2 : ℚ) ^ (22 : Int) ≤ 2 ^ binade n d := zpow_le_zpow_right₀ (by norm_num) h
    exact le_trans (by simp [nextMagnitude]) (this.trans low)
  · simp only [nearest, if_neg (show ¬binade n d < -21 by omega), if_pos h]
    decide

/-- Within the binades of the format rounding takes a code, or the next, if there is one. -/
theorem tf8_brackets_mid (h1 : -21 ≤ binade n d) (h2 : binade n d ≤ 21) :
    Brackets .t8 rm neg r ((n : ℚ) / d) (nearest .t8 rm neg r n d) := by
  obtain ⟨low, high⟩ := binade_spec hn hd
  let e := binade n d
  let w := tf8Width e
  obtain ⟨pos, units⟩ := unitsOf_spec (n := n) hd (e - w)
  have unit : (0 : ℚ) < 2 ^ (e - w) := by positivity
  let N := (unitsOf n d (e - w)).1
  let D := (unitsOf n d (e - w)).2
  let q := N / D
  obtain ⟨below, above⟩ := floor_units pos unit units
  have scaled (i : Nat) (z : Int) (h : z = i + (e - w)) : (2 : ℚ) ^ z = (2 ^ i : Nat) * 2 ^ (e - w) := by
    rw [h, zpow_add₀ (by norm_num), zpow_natCast]
    push_cast
    rfl
  have q_lt : q < 2 ^ (w + 1) := by
    have : (n : ℚ) / d < (2 ^ (w + 1) : Nat) * 2 ^ (e - w) := high.trans_eq (scaled _ _ (by push_cast; ring))
    exact_mod_cast lt_of_mul_lt_mul_right (below.trans_lt this) unit.le
  have q_ge : 2 ^ w ≤ q := by
    have : ((2 ^ w : Nat) : ℚ) * 2 ^ (e - w) < (q + 1) * 2 ^ (e - w) := by
      rw [← scaled _ e (by ring)]
      exact low.trans_lt above
    have : 2 ^ w < q + 1 := by exact_mod_cast lt_of_mul_lt_mul_right this unit.le
    omega
  obtain ⟨p, hp⟩ := Nat.exists_eq_add_of_le q_ge
  have double : 2 ^ (w + 1) = 2 ^ w + 2 ^ w := by rw [Nat.pow_succ]; omega
  have place : tf8Place e p := ⟨h1, h2, by show p < 2 ^ w; omega⟩
  obtain ⟨finite, value⟩ := tf8_finite place
  have lo : magnitude .t8 (tf8Code e p) = q * 2 ^ (e - w) := by rw [value, tf8Value, hp]
  let cl := tf8Code e p
  let ch := if q + 1 = 2 ^ (w + 1) then tf8Code (e + 1) 0 else tf8Code e (p + 1)
  have code : nearest .t8 rm neg r n d = ⟨if roundQuot rm neg r N D (decide (cl % 2 = 1) && decide (ch % 2 = 0) && decide (ch ≠ 0)) = N / D then cl
      else if ch = 0 then 256 else ch, decide (N % D ≠ 0)⟩ := by
    have cl_eq : cl = tf8Code e (q - 2 ^ w) := by rw [show q - 2 ^ w = p by omega]
    have ch_eq : ch = if q + 1 = 2 ^ (w + 1) then tf8Code (e + 1) 0 else tf8Code e (q + 1 - 2 ^ w) := by rw [show q + 1 - 2 ^ w = p + 1 by omega]
    rw [cl_eq, ch_eq]
    simp only [nearest, if_neg (show ¬binade n d < -21 by omega), if_neg (show ¬21 < binade n d by omega)]
    rfl
  have near (hi : ℚ) (hh : hi = (q + 1) * 2 ^ (e - w)) := roundQuot_takeNear pos rm neg r
    (decide (cl % 2 = 1) && decide (ch % 2 = 0) && decide (ch ≠ 0)) unit units lo hh cl (if ch = 0 then 256 else ch)
  have upper (finite' : finiteCode .t8 ch = true) (some : ch ≠ 0) (hh : magnitude .t8 ch = (q + 1) * 2 ^ (e - w)) :
      Brackets .t8 rm neg r ((n : ℚ) / d) (nearest .t8 rm neg r n d) := by
    refine .inl ⟨cl, ch, finite, finite', lo ▸ below, hh ▸ above, fun m hm => ?_, ?_⟩
    · rw [lo, hh]
      exact tf8_apart q_ge q_lt hm
    · rw [code]
      refine (near _ hh).trans ?_
      rw [if_neg some, decide_eq_true some, Bool.and_true]
      rfl
  by_cases last : q + 1 = 2 ^ (w + 1)
  · have hi : ((q : ℚ) + 1) * 2 ^ (e - w) = 2 ^ (e + 1) := by
      rw [scaled (w + 1) (e + 1) (by push_cast; ring), ← last]
      push_cast
      rfl
    have ch_eq : ch = tf8Code (e + 1) 0 := if_pos last
    by_cases top : e = 21
    · have width : w = 0 := by simp only [w, top]; decide
      have first : p = 0 := by rw [width] at hp last; omega
      have cl_top : cl = maxFinite .t8 := by simp only [cl, top, first]; decide
      have none : ch = 0 := by rw [ch_eq, top]; decide
      have next : nextMagnitude .t8 = (q + 1) * 2 ^ (e - w) := by
        rw [hi, top]
        simp only [nextMagnitude, if_true]
        norm_cast
      have final := near _ next
      rw [lo, cl_top, none] at final
      rw [show tf8Code e p = maxFinite .t8 from cl_top] at lo
      refine .inr (.inl ⟨lo ▸ below, next ▸ above, 256, by decide, ?_⟩)
      rw [code, cl_top, none, lo]
      exact final
    · have place' : tf8Place (e + 1) 0 := ⟨by omega, by omega, Nat.two_pow_pos _⟩
      refine upper (ch_eq ▸ (tf8_finite place').1) (ch_eq ▸ place'.fields.1) ?_
      rw [ch_eq, (tf8_finite place').2, hi, tf8Value, Nat.add_zero]
      push_cast
      rw [← zpow_natCast, ← zpow_add₀ (by norm_num)]
      congr 1
      ring
  · have place' : tf8Place e (p + 1) := ⟨h1, h2, by show p + 1 < 2 ^ w; omega⟩
    have ch_eq : ch = tf8Code e (p + 1) := if_neg last
    refine upper (ch_eq ▸ (tf8_finite place').1) (ch_eq ▸ place'.fields.1) ?_
    rw [ch_eq, (tf8_finite place').2, tf8Value, hp]
    push_cast
    ring

end Tf8

/-! ### The codes of a format, in order -/

/-- The greatest finite TF8 code. -/
theorem tf8_top : tf8Place 21 0 ∧ tf8Code 21 0 = maxFinite .t8 := ⟨⟨by norm_num, le_rfl, by decide⟩, by decide⟩

section Order

variable {f : Fmt} (hi : f.isI = false)
include hi

theorem nearest_brackets (rm : Rm) (neg : Bool) (r : Nat) {n d : Nat} (hn : 0 < n) (hd : 0 < d) :
    Brackets f rm neg r ((n : ℚ) / d) (nearest f rm neg r n d) := by
  by_cases hf : f = .t8
  · subst hf
    rcases lt_or_ge (binade n d) (-21) with low | low
    · exact tf8_brackets_low hn hd rm neg r low
    · rcases lt_or_ge 21 (binade n d) with high | high
      · exact tf8_brackets_high hn hd rm neg r high
      · exact tf8_brackets_mid hn hd rm neg r low high
  · exact binary_brackets hi hf hn hd rm neg r

/-- Finite codes with one magnitude are one. -/
theorem finite_injective {a b : Nat} (ha : finiteCode f a = true) (hb : finiteCode f b = true) (h : magnitude f a = magnitude f b) : a = b := by
  by_cases hf : f = .t8
  · subst hf
    have positive {e : Int} {p : Nat} (h : tf8Place e p) : 0 < tf8Value e p := lt_of_lt_of_le (by positivity) (tf8Value_bounds h).1
    rcases tf8_cases ha with rfl | ⟨e, p, place, rfl⟩ <;> rcases tf8_cases hb with rfl | ⟨e', p', place', rfl⟩
    · rfl
    · rw [tf8_zero.2, (tf8_finite place').2] at h
      exact absurd h (positive place').ne
    · rw [tf8_zero.2, (tf8_finite place).2] at h
      exact absurd h (positive place).ne'
    · rw [(tf8_finite place).2, (tf8_finite place').2] at h
      have same : e = e' := by
        obtain ⟨least, less⟩ := tf8Value_bounds place
        obtain ⟨least', less'⟩ := tf8Value_bounds place'
        have one : e < e' + 1 := (zpow_lt_zpow_iff_right₀ (by norm_num : (1 : ℚ) < 2)).mp (least.trans_lt (h ▸ less'))
        have two : e' < e + 1 := (zpow_lt_zpow_iff_right₀ (by norm_num : (1 : ℚ) < 2)).mp (least'.trans_lt (h ▸ less))
        omega
      subst same
      rw [tf8Value, tf8Value, mul_left_inj' (by positivity)] at h
      have : p = p' := by
        have := Nat.cast_injective h
        omega
      rw [this]
  · have ha' := (binary_finite hi hf).mp ha
    have hb' := (binary_finite hi hf).mp hb
    rw [binary_magnitude hi hf ha', binary_magnitude hi hf hb'] at h
    exact (codeMag_strictMono f).injective h

/-- The greatest finite code is one, and no finite code overflows. -/
theorem finite_top : finiteCode f (maxFinite f) = true ∧ ∀ m, finiteCode f m = true → magnitude f m ≤ magnitude f (maxFinite f) ∧ overflows f m = false := by
  by_cases hf : f = .t8
  · subst hf
    obtain ⟨place, top⟩ := tf8_top
    rw [← top, (tf8_finite place).2]
    refine ⟨(tf8_finite place).1, fun m hm => ?_⟩
    rcases tf8_cases hm with rfl | ⟨e, p, place', rfl⟩
    · exact ⟨by rw [tf8_zero.2, tf8Value]; positivity, by decide⟩
    · obtain ⟨-, small, -⟩ := place'.fields
      rw [(tf8_finite place').2]
      refine ⟨?_, by simp only [overflows, if_true, beq_eq_false_iff_ne]; omega⟩
      rcases eq_or_lt_of_le place'.2.1 with rfl | lt
      · have : p = 0 := Nat.lt_one_iff.mp place'.2.2
        rw [this]
      · exact (tf8Value_bounds place').2.le.trans ((zpow_le_zpow_right₀ (by norm_num) (by omega)).trans (tf8Value_bounds place).1)
  · refine ⟨(binary_finite hi hf).mpr le_rfl, fun m hm => ?_⟩
    have hm' := (binary_finite hi hf).mp hm
    rw [binary_magnitude hi hf hm', binary_magnitude hi hf le_rfl]
    exact ⟨(codeMag_strictMono f).monotone hm', by simpa [overflows, hf] using hm'⟩

/-- A finite code below the least normal magnitude is tiny. -/
theorem tiny_iff {c : Nat} (h : finiteCode f c = true) : tiny f c = true ↔ magnitude f c < minNormal f := by
  by_cases hf : f = .t8
  · subst hf
    have least : tf8Place (-21) 0 := ⟨le_rfl, by norm_num, by decide⟩
    have two : magnitude .t8 2 = tf8Value (-21) 0 := (tf8_finite least).2
    simp only [tiny, minNormal, if_true, beq_iff_eq, two]
    rcases tf8_cases h with rfl | ⟨e, p, place, rfl⟩
    · rw [tf8_zero.2]
      exact iff_of_true rfl (lt_of_lt_of_le (by positivity) (tf8Value_bounds least).1)
    · refine iff_of_false place.fields.1 (not_lt.mpr ?_)
      rw [(tf8_finite place).2]
      have value : tf8Value (-21) 0 = 2 ^ (-21 : Int) := by simp [tf8Value, show tf8Width (-21) = 0 by decide]
      rw [value]
      exact (zpow_le_zpow_right₀ (by norm_num) place.1).trans (tf8Value_bounds place).1
  · obtain ⟨-, -, normal, -, -⟩ := binary_facts f hi hf
    rw [minNormal, if_neg hf, binary_magnitude hi hf ((binary_finite hi hf).mp h), binary_magnitude hi hf normal, (codeMag_strictMono f).lt_iff_lt]
    simp [tiny, hf]

theorem top_lt_next : magnitude f (maxFinite f) < nextMagnitude f ∧ ¬magnitude f (maxFinite f) < minNormal f := by
  rw [← tiny_iff hi (finite_top hi).1]
  by_cases hf : f = .t8
  · subst hf
    obtain ⟨place, top⟩ := tf8_top
    rw [← top, (tf8_finite place).2]
    refine ⟨(tf8Value_bounds place).2.trans_eq ?_, by decide⟩
    simp only [nextMagnitude, if_true]
    norm_cast
  · obtain ⟨-, -, normal, -, -⟩ := binary_facts f hi hf
    rw [binary_next hi hf, binary_magnitude hi hf le_rfl]
    exact ⟨codeMag_strictMono f (Nat.lt_succ_self _), by simpa [tiny, hf] using normal⟩

end Order

/-! ### RoundTo (R61, R63) -/

section RoundTo

variable {f : Fmt} (hi : f.isI = false) (rm : Rm) (r : Nat) (sat neg : Bool) {n d : Nat}

theorem roundTo_zero (f : Fmt) (d : Nat) : roundTo f rm r sat (.fin neg 0 d) = (signedCode f neg 0, 0) := by
  simp only [roundTo, if_true, zeroOf, signedCode, and_true, Nat.add_zero]

/-- A magnitude that overflows: the greatest finite value, or what the format has beyond it. -/
theorem roundTo_overflows (hn : 0 < n) (h : overflows f (nearest f rm neg r n d).code = true) : roundTo f rm r sat (.fin neg n d) =
    if sat then (signBit f neg + maxFinite f, fSAT ||| fNX)
    else if rm = .rz ∨ (rm = .rdn ∧ neg = false) ∨ (rm = .rup ∧ neg = true) then (signBit f neg + maxFinite f, fOF ||| fNX)
    else (overflowValue f neg, fOF ||| fNX) := by
  simp only [roundTo, if_neg hn.ne', h, if_true, Bool.not_eq_true']

include hi

theorem signedCode_top : signedCode f neg (maxFinite f) = signBit f neg + maxFinite f := by
  have : ¬(f = .t8 ∧ maxFinite f = 0) := by rintro ⟨rfl, h⟩; exact absurd h (by decide)
  exact if_neg this

/-- A magnitude that rounds to a finite code. -/
theorem roundTo_finite (hn : 0 < n) {c : Nat} {inexact : Bool} (near : nearest f rm neg r n d = ⟨c, inexact⟩) (hc : finiteCode f c = true) :
    roundTo f rm r sat (.fin neg n d) = (signedCode f neg c, if inexact then (if magnitude f c < minNormal f then fNX ||| fUF else fNX) else 0) := by
  have stands := ((finite_top hi).2 c hc).2
  have tiny := tiny_iff hi hc
  simp only [roundTo, if_neg hn.ne', near, stands, ← tiny, Bool.false_eq_true, if_false, signedCode]
  cases inexact <;> cases Machine.tiny f c <;> rfl

variable (hn : 0 < n) (hd : 0 < d)
include hn hd

/-- A representable value stands. -/
theorem roundTo_exact {m : Nat} (hm : finiteCode f m = true) (h : magnitude f m = (n : ℚ) / d) :
    roundTo f rm r sat (.fin neg n d) = (signedCode f neg m, 0) := by
  obtain ⟨top, least⟩ := finite_top hi
  rcases nearest_brackets hi rm neg r hn hd with ⟨lo, up, hlo, hup, below, above, apart, near⟩ | ⟨below, above, c, beyond, near⟩ | ⟨beyond, -⟩
  · have same : magnitude f lo = magnitude f m := by
      rcases apart m hm with le | le
      · exact le_antisymm (h ▸ below) le
      · exact absurd (h ▸ above) (not_lt.mpr le)
    rw [takeNear, if_pos (by rw [same, h]), finite_injective hi hlo hm same] at near
    exact roundTo_finite hi rm r sat neg hn near hm
  · have same : magnitude f (maxFinite f) = magnitude f m := le_antisymm (h ▸ below) (least m hm).1
    rw [takeNear, if_pos (by rw [same, h]), finite_injective hi top hm same] at near
    exact roundTo_finite hi rm r sat neg hn near hm
  · exact absurd ((least m hm).1.trans_lt (top_lt_next hi).1) (not_lt.mpr (h ▸ beyond))

/-- Between two neighbouring values the mode takes one. -/
theorem roundTo_between {lo up : Nat} (hlo : finiteCode f lo = true) (hup : finiteCode f up = true) (below : magnitude f lo < (n : ℚ) / d)
    (above : (n : ℚ) / d < magnitude f up) (apart : ∀ m, finiteCode f m = true → magnitude f m ≤ magnitude f lo ∨ magnitude f up ≤ magnitude f m) :
    let part := ((n : ℚ) / d - magnitude f lo) / (magnitude f up - magnitude f lo)
    let c := if takesUpper rm neg r part (lo % 2 == 1 && up % 2 == 0) then up else lo
    roundTo f rm r sat (.fin neg n d) = (signedCode f neg c, if magnitude f c < minNormal f then fNX ||| fUF else fNX) := by
  intro part c
  have under := ((finite_top hi).2 up hup).1
  rcases nearest_brackets hi rm neg r hn hd with ⟨lo', up', hlo', hup', below', above', apart', near⟩ | ⟨below', -, -⟩ | ⟨beyond, -⟩
  · have same_lo : lo' = lo := by
      refine finite_injective hi hlo' hlo (le_antisymm ?_ ?_)
      · exact (apart lo' hlo').resolve_right fun h => absurd (above.trans_le h) (not_lt.mpr below')
      · exact (apart' lo hlo).resolve_right fun h => absurd (above'.trans_le h) (not_lt.mpr below.le)
    have same_up : up' = up := by
      refine finite_injective hi hup' hup (le_antisymm ?_ ?_)
      · exact (apart' up hup).resolve_left fun h => absurd (h.trans below') (not_le.mpr above)
      · exact (apart up' hup').resolve_left fun h => absurd (h.trans below.le) (not_le.mpr above')
    rw [same_lo, same_up, takeNear, if_neg below.ne'] at near
    have finite : finiteCode f c = true := by
      simp only [c]
      split
      · exact hup
      · exact hlo
    exact roundTo_finite hi rm r sat neg hn near finite
  · exact absurd (under.trans below') (not_le.mpr above)
  · exact absurd ((above.trans_le under).trans (top_lt_next hi).1) (not_lt.mpr beyond)

/-- Beyond the greatest finite value it overflows, or the mode takes that value. -/
theorem roundTo_beyond (h : magnitude f (maxFinite f) < (n : ℚ) / d) : let x : ℚ := n / d
    let top := maxFinite f
    let next := nextMagnitude f
    roundTo f rm r sat (.fin neg n d) =
      if next ≤ x ∨ takesUpper rm neg r ((x - magnitude f top) / (next - magnitude f top)) (top % 2 == 1 && f != .t8) = true then
        if sat then (signedCode f neg top, fSAT ||| fNX)
        else if rm = .rz ∨ (rm = .rdn ∧ neg = false) ∨ (rm = .rup ∧ neg = true) then (signedCode f neg top, fOF ||| fNX)
        else (overflowValue f neg, fOF ||| fNX)
      else (signedCode f neg top, fNX) := by
  intro x top next
  obtain ⟨finite, least⟩ := finite_top hi
  have beyond (y : overflows f (nearest f rm neg r n d).code = true) := roundTo_overflows rm r sat neg hn y
  rw [← signedCode_top hi neg] at beyond
  rcases nearest_brackets hi rm neg r hn hd with ⟨lo, up, -, hup, -, above, -⟩ | ⟨-, above, c, over', near⟩ | ⟨above, over'⟩
  · exact absurd (above.trans_le (least up hup).1) (not_lt.mpr h.le)
  · rw [takeNear, if_neg h.ne'] at near
    cases takes : takesUpper rm neg r ((x - magnitude f top) / (next - magnitude f top)) (top % 2 == 1 && f != .t8)
    · rw [if_neg (by simpa [takes] using above)]
      have := roundTo_finite hi rm r sat neg hn (near.trans (by rw [takes]; rfl)) finite
      rw [this, if_pos rfl, if_neg (top_lt_next hi).2]
    · rw [if_pos (.inr rfl)]
      refine beyond ?_
      rw [near, takes]
      exact over'
  · rw [if_pos (.inl above)]
    exact beyond over'

end RoundTo

end Sys2Proof.Machine

/-! The statement about vector arithmetic: integers, conversions, special values, bounded operations, and the element-wise instructions (R59 to R68,
R212 to R222, R229, R230). -/

namespace Sys2Proof.Machine

/-! ### Integers (R59, R67, R68) -/

section Integers

variable {f : Fmt}

theorem bits_pos (f : Fmt) : 0 < f.bits := by cases f <;> decide

theorem intBits_lt (f : Fmt) (i : Int) : intBits f i < 2 ^ f.bits := by
  have pos : (0 : Int) < (2 ^ f.bits : Nat) := by exact_mod_cast Nat.two_pow_pos _
  have := Int.emod_lt_of_pos i pos
  have := Int.emod_nonneg i pos.ne'
  rw [intBits]
  omega
theorem intBits_cast (f : Fmt) (i : Int) : (intBits f i : Int) = i % 2 ^ f.bits := by
  have pos : (0 : Int) < (2 ^ f.bits : Nat) := by exact_mod_cast Nat.two_pow_pos _
  rw [intBits, Int.toNat_of_nonneg (Int.emod_nonneg i pos.ne')]
  push_cast
  rfl
theorem two_pow_bits (f : Fmt) : (2 ^ f.bits : Nat) = 2 * 2 ^ (f.bits - 1) := by
  obtain ⟨k, hk⟩ := Nat.exists_eq_succ_of_ne_zero (bits_pos f).ne'
  rw [hk, Nat.succ_sub_one, Nat.pow_succ, Nat.mul_comm]

/-- An integer within its format is the value of its bits. -/
theorem intValue_intBits {i : Int} (low : intMin f ≤ i) (high : i ≤ intMax f) : intValue f (intBits f i) = i := by
  have double := two_pow_bits f
  have pos : 0 < 2 ^ (f.bits - 1) := Nat.two_pow_pos _
  have cast := intBits_cast f i
  have small := intBits_lt f i
  rw [intValue, Nat.mod_eq_of_lt small]
  rw [intMin] at low
  rw [intMax] at high
  have whole : (2 : Int) ^ f.bits = (2 ^ f.bits : Nat) := by push_cast; rfl
  rw [whole] at cast
  rw [double] at cast high ⊢
  generalize 2 ^ (f.bits - 1) = b at *
  generalize intBits f i = v at *
  cases sign : f.isSigned with
  | true =>
    simp only [sign, if_true] at low high
    simp only [Bool.true_and, decide_eq_true_eq]
    by_cases neg : i < 0
    · have : i % ((2 * b : Nat) : Int) = i + (2 * b : Nat) := by
        rw [← Int.add_emod_right, Int.emod_eq_of_lt (by omega) (by omega)]
      split <;> omega
    · have : i % ((2 * b : Nat) : Int) = i := Int.emod_eq_of_lt (by omega) (by omega)
      split <;> omega
  | false =>
    simp only [sign, Bool.false_eq_true, if_false] at low high
    have : i % ((2 * b : Nat) : Int) = i := Int.emod_eq_of_lt low (by omega)
    simpa [cast] using this

theorem intMin_le_intMax (f : Fmt) : intMin f ≤ intMax f := by
  have double := two_pow_bits f
  have pos : 0 < 2 ^ (f.bits - 1) := Nat.two_pow_pos _
  rw [intMin, intMax]
  split <;> omega

/-- The bits of an integer at the nearer end of its format, or its own. -/
theorem intValue_clamped (f : Fmt) (i : Int) : intValue f (if i < intMin f then intBits f (intMin f) else if intMax f < i then intBits f (intMax f)
    else intBits f i) = max (intMin f) (min i (intMax f)) := by
  have ends := intMin_le_intMax f
  by_cases low : i < intMin f
  · rw [if_pos low, intValue_intBits le_rfl ends, max_eq_left ((min_le_left _ _).trans low.le)]
  · rw [if_neg low]
    by_cases high : intMax f < i
    · rw [if_pos high, intValue_intBits ends le_rfl, min_eq_right high.le, max_eq_right ends]
    · rw [if_neg high, intValue_intBits (not_lt.mp low) (not_lt.mp high), min_eq_left (not_lt.mp high), max_eq_right (not_lt.mp low)]

/-- An integer is fitted by clamping or by its low bits (R68). -/
theorem fitInt_spec (f : Fmt) (sat : Bool) (i : Int) : let y := fitInt f sat i
    y.1 < 2 ^ f.bits ∧ (intMin f ≤ i → i ≤ intMax f → intValue f y.1 = i ∧ y.2 = 0) ∧ (sat = false → (y.1 : Int) = i % 2 ^ f.bits ∧ y.2 = 0) ∧
    (sat = true → intValue f y.1 = max (intMin f) (min i (intMax f)) ∧ (i < intMin f ∨ intMax f < i → y.2 = fSAT)) := by
  intro y
  have fits : y = (if sat then (if i < intMin f then intBits f (intMin f) else if intMax f < i then intBits f (intMax f) else intBits f i) else intBits f i,
      if sat ∧ (i < intMin f ∨ intMax f < i) then fSAT else 0) := by
    simp only [y, fitInt]
    cases sat
    · simp
    · by_cases low : i < intMin f
      · simp [low]
      · by_cases high : intMax f < i <;> simp [low, high]
  rw [fits]
  refine ⟨?_, fun low high => ?_, ?_, ?_⟩
  · dsimp only
    split
    · split
      · exact intBits_lt f _
      · split <;> exact intBits_lt f _
    · exact intBits_lt f _
  · have inside : ¬(i < intMin f ∨ intMax f < i) := by omega
    cases sat <;> simp [not_lt.mpr low, not_lt.mpr high, intValue_intBits low high]
  · rintro rfl
    simp [intBits_cast]
  · rintro rfl
    exact ⟨intValue_clamped f i, fun out => if_pos ⟨rfl, out⟩⟩

/-- A real value becomes the integer that the mode takes, clamped to its format (R67). -/
theorem toInt_spec (f : Fmt) (rm : Rm) (r : Nat) (sat neg : Bool) (n : Nat) {d : Nat} (hd : 0 < d) : let x : ℚ := n / d
    let lo := n / d
    let q : Nat := if (lo : ℚ) = x then lo else if takesUpper rm neg r (x - lo) (lo % 2 == 1) then lo + 1 else lo
    let i : Int := if neg then -(q : Int) else q
    let y := toInt f rm r sat (.fin neg n d)
    let out := if sat then fSAT else fIV
    intValue f y.1 = max (intMin f) (min i (intMax f)) ∧ y.1 < 2 ^ f.bits ∧
    y.2 = (if intMin f ≤ i ∧ i ≤ intMax f then (if (q : ℚ) = x then 0 else fNX) else out) ∧
    toInt f rm r sat .nan = (0, fIV) ∧ (toInt f rm r sat (.inf neg)).2 = out ∧
    intValue f (toInt f rm r sat (.inf neg)).1 = if neg then intMin f else intMax f := by
  intro x lo q i y out
  have hd' : (d : ℚ) ≠ 0 := by positivity
  have part : ((n % d : Nat) : ℚ) / d = x - lo := mod_div_eq hd
  have whole : n % d = 0 ↔ (lo : ℚ) = x := by
    rw [← sub_eq_zero (a := (lo : ℚ)), ← neg_eq_zero, neg_sub, ← part]
    simp [hd']
  have rounds : roundQuot rm neg r n d (decide (n / d % 2 = 1)) = q := by
    rw [roundQuot_eq hd, part]
    exact if_congr whole rfl rfl
  have inexact : (q : ℚ) = x ↔ n % d = 0 := by
    rw [whole]
    constructor
    · intro h
      by_contra ne
      have strict : x < lo + 1 := by
        have : ((n % d : Nat) : ℚ) / d < 1 := by rw [div_lt_one (by positivity)]; exact_mod_cast Nat.mod_lt n hd
        rw [part] at this
        linarith
      simp only [q, if_neg ne] at h
      split at h
      · rw [← h] at strict
        push_cast at strict
        exact lt_irrefl _ strict
      · exact ne h
    · intro h
      simp only [q, if_pos h, h]
  have fits : y = (if i < intMin f then intBits f (intMin f) else if intMax f < i then intBits f (intMax f) else intBits f i,
      if intMin f ≤ i ∧ i ≤ intMax f then (if (q : ℚ) = x then 0 else fNX) else out) := by
    simp only [y, toInt, rounds, inexact]
    by_cases low : i < intMin f
    · have no : ¬(intMin f ≤ i ∧ i ≤ intMax f) := fun h => absurd h.1 (not_le.mpr low)
      rw [if_pos low, if_pos low, if_neg no]
    · rw [if_neg low, if_neg low]
      by_cases high : intMax f < i
      · have no : ¬(intMin f ≤ i ∧ i ≤ intMax f) := fun h => absurd h.2 (not_le.mpr high)
        rw [if_pos high, if_pos high, if_neg no]
      · have yes : intMin f ≤ i ∧ i ≤ intMax f := ⟨not_lt.mp low, not_lt.mp high⟩
        rw [if_neg high, if_neg high, if_pos yes]
        by_cases exact : n % d = 0 <;> simp [exact, flagIf, i]
  have ends := intMin_le_intMax f
  rw [fits]
  refine ⟨intValue_clamped f i, ?_, rfl, rfl, rfl, ?_⟩
  · dsimp only
    split
    · exact intBits_lt f _
    · split <;> exact intBits_lt f _
  · cases neg
    · exact intValue_intBits ends le_rfl
    · exact intValue_intBits le_rfl ends

end Integers

end Sys2Proof.Machine

/-! The bounded operations: their special and exact cases, and the results that their bound allows (R220 to R222). -/

namespace Sys2Proof.Machine

/-! ### The formats of the bounded operations -/

/-- The formats f64, f32, bf16 and f16. -/
def boundedFormats : List Fmt := [.f64, .f32, .bf16, .f16]

section Formats

variable {f : Fmt} (hf : f ∈ boundedFormats)
include hf

/-- They are binary formats with infinities. -/
theorem boundedFormats_binary : f.isI = false ∧ f ≠ .t8 ∧ hasInf f = true := by
  fin_cases hf <;> decide

/-- Their codes: one, the greatest finite one, and room for the integers below 2^(m+1), among which are all exponents. -/
theorem boundedFormats_codes : (fpBias f - 1) * 2 ^ fracBits f + 2 ^ fracBits f = fpBias f * 2 ^ fracBits f ∧
    maxFinite f + 1 = (2 * fpBias f + 1) * 2 ^ fracBits f ∧ fpBias f + fracBits f < 2 ^ (fracBits f + 1) ∧
    fracBits f + 1 < fpBias f := by
  fin_cases hf <;> decide

end Formats

/-! ### Codes and values -/

section Values

variable {f : Fmt} (hi : f.isI = false) (hf : f ≠ .t8)

/-- An element is its sign and its code. -/
theorem sign_add_code {v : Nat} (hv : v < 2 ^ f.bits) : signBit f (decide (2 ^ (f.bits - 1) ≤ v)) + v % 2 ^ (f.bits - 1) = v := by
  have double := two_pow_bits f
  have small : v % 2 ^ (f.bits - 1) = if 2 ^ (f.bits - 1) ≤ v then v - 2 ^ (f.bits - 1) else v := by
    split
    · next h => rw [Nat.mod_eq_sub_mod h, Nat.mod_eq_of_lt (by omega)]
    · next h => exact Nat.mod_eq_of_lt (not_le.mp h)
  rw [small, signBit]
  by_cases h : 2 ^ (f.bits - 1) ≤ v
  · simp [h]
  · simp [h]

/-- The sign and the code of an element put together from them. -/
theorem signBit_add {c : Nat} (hc : c < 2 ^ (f.bits - 1)) (neg : Bool) : signBit f neg + c < 2 ^ f.bits ∧
    (signBit f neg + c) % 2 ^ (f.bits - 1) = c ∧ decide (2 ^ (f.bits - 1) ≤ signBit f neg + c) = neg := by
  have double := two_pow_bits f
  cases neg
  · simp only [signBit, Bool.false_eq_true, if_false, Nat.zero_add, Nat.mod_eq_of_lt hc, decide_eq_false_iff_not, true_and]
    omega
  · simp only [signBit, if_true, Nat.add_mod_left, Nat.mod_eq_of_lt hc, decide_eq_true_eq, true_and]
    omega

include hi hf

omit hi in
/-- A finite element is a sign and a finite code. -/
theorem floatValue_fin {v : Nat} (hv : v < 2 ^ f.bits) {neg : Bool} {n d : Nat} (h : floatValue f v = .fin neg n d) :
    ∃ c ≤ maxFinite f, v = signBit f neg + c ∧ 0 < d ∧ (n : ℚ) / d = codeMag f c := by
  have parts := sign_add_code hv
  have value := floatValue_binary hf hv
  simp only [h] at value
  split at value
  · split at value <;> exact absurd value nofun
  · next le =>
    obtain ⟨n', d', scaled, pos, eq⟩ := Num.scale_eq (decide (2 ^ (f.bits - 1) ≤ v)) (codeSig f (v % 2 ^ (f.bits - 1))) (codeExp f (v % 2 ^ (f.bits - 1)))
    rw [scaled] at value
    obtain ⟨rfl, rfl, rfl⟩ := Num.fin.inj value
    exact ⟨_, not_lt.mp le, parts.symm, pos, eq⟩

/-- A sign and a finite code have the code's magnitude. -/
theorem floatValue_signBit {c : Nat} (hc : c ≤ maxFinite f) (neg : Bool) :
    ∃ n d, floatValue f (signBit f neg + c) = .fin neg n d ∧ 0 < d ∧ (n : ℚ) / d = codeMag f c := by
  obtain ⟨-, -, -, top, -⟩ := binary_facts f hi hf
  obtain ⟨wide, code, sign⟩ := signBit_add (hc.trans_lt top) neg
  have value := floatValue_binary hf wide
  simp only [code, sign, if_neg (not_lt.mpr hc)] at value
  rw [value]
  exact Num.scale_eq neg _ _

omit hi in
/-- An infinity is a sign and the code after the greatest finite one. -/
theorem floatValue_inf {v : Nat} (hv : v < 2 ^ f.bits) {neg : Bool} (h : floatValue f v = .inf neg) : v = signBit f neg + maxFinite f + 1 := by
  have parts := sign_add_code hv
  have value := floatValue_binary hf hv
  simp only [h] at value
  split at value
  · split at value
    · next code =>
      rw [Bool.and_eq_true, beq_iff_eq] at code
      rw [Num.inf.inj value, Nat.add_assoc, ← code.2, parts]
    · exact absurd value nofun
  · rw [Num.scale] at value
    split at value <;> exact absurd value nofun

omit hi hf in
@[simp] theorem codeMag_zero (f : Fmt) : codeMag f 0 = 0 := by simp [codeMag, codeSig]
omit hi hf in
theorem codeMag_eq_zero {c : Nat} (h : codeMag f c = 0) : c = 0 := (codeMag_strictMono f).injective (h.trans (codeMag_zero f).symm)

omit hi in
/-- A zero is its sign. -/
theorem floatValue_zero {v : Nat} (hv : v < 2 ^ f.bits) {neg : Bool} {d : Nat} (h : floatValue f v = .fin neg 0 d) : v = signBit f neg := by
  obtain ⟨c, -, code, -, value⟩ := floatValue_fin hf hv h
  rw [Nat.cast_zero, zero_div] at value
  rw [code, codeMag_eq_zero value.symm, Nat.add_zero]

/-- A magnitude that a finite code has rounds to that code. -/
theorem roundTo_code {c : Nat} (hc : c ≤ maxFinite f) (rm : Rm) (r : Nat) (sat neg : Bool) {n d : Nat} (hd : 0 < d) (h : codeMag f c = (n : ℚ) / d) :
    roundTo f rm r sat (.fin neg n d) = (signBit f neg + c, 0) := by
  have code : signedCode f neg c = signBit f neg + c := if_neg fun t => hf t.1
  rcases Nat.eq_zero_or_pos n with rfl | hn
  · rw [Nat.cast_zero, zero_div] at h
    rw [roundTo_zero, ← code, codeMag_eq_zero h]
  · rw [← code]
    exact roundTo_exact hi rm r sat neg hn hd ((binary_finite hi hf).mpr hc) ((binary_magnitude hi hf hc).trans h)

end Values

section Codes

variable {f : Fmt} (hf : f ∈ boundedFormats)
include hf

/-- The integers below 2^(m+1) have codes. -/
theorem integer_code {a : Nat} (ha : a < 2 ^ (fracBits f + 1)) : ∃ c ≤ maxFinite f, codeMag f c = a := by
  rcases Nat.eq_zero_or_pos a with rfl | pos
  · exact ⟨0, Nat.zero_le _, by rw [codeMag_zero, Nat.cast_zero]⟩
  obtain ⟨-, last, -, room⟩ := boundedFormats_codes hf
  let L := a.log2
  have hL : L ≤ fracBits f := Nat.lt_succ_iff.mp ((Nat.log2_lt pos.ne').mpr ha)
  have low : 2 ^ L ≤ a := Nat.log2_self_le pos.ne'
  have high : a < 2 ^ (L + 1) := Nat.lt_log2_self
  have shift (i : Nat) : 2 ^ (L + i) * 2 ^ (fracBits f - L) = 2 ^ (fracBits f + i) := by rw [← Nat.pow_add]; congr 1; omega
  have q_lt : a * 2 ^ (fracBits f - L) < 2 ^ (fracBits f + 1) := by
    rw [← shift 1]
    exact Nat.mul_lt_mul_of_pos_right high (Nat.two_pow_pos _)
  have q_ge : 2 ^ fracBits f ≤ a * 2 ^ (fracBits f - L) := by
    have := shift 0
    rw [Nat.add_zero, Nat.add_zero] at this
    rw [← this]
    exact Nat.mul_le_mul_right _ low
  refine ⟨(L + (fpBias f - 1)) * 2 ^ fracBits f + a * 2 ^ (fracBits f - L), ?_, ?_⟩
  · have : (fracBits f + (fpBias f - 1) + 2) * 2 ^ fracBits f ≤ (2 * fpBias f) * 2 ^ fracBits f := Nat.mul_le_mul_right _ (by omega)
    have : (L + (fpBias f - 1)) * 2 ^ fracBits f ≤ (fracBits f + (fpBias f - 1)) * 2 ^ fracBits f := Nat.mul_le_mul_right _ (by omega)
    rw [Nat.pow_succ] at q_lt
    have := Nat.two_pow_pos (fracBits f)
    rw [Nat.add_mul] at *
    omega
  · rw [codeMag_of (fun _ => q_ge) q_lt.le, expMin]
    have exponent : (1 : Int) - fpBias f - fracBits f + (L + (fpBias f - 1) : Nat) = -(fracBits f - L : Nat) := by omega
    rw [exponent, zpow_neg, zpow_natCast]
    push_cast
    field_simp

/-- The powers of two from the least code to the greatest binade have codes. -/
theorem power_code {k : Int} (low : expMin f - fracBits f ≤ k) (high : k ≤ expMax f) : ∃ c ≤ maxFinite f, codeMag f c = 2 ^ k := by
  obtain ⟨-, last, -, room⟩ := boundedFormats_codes hf
  have pos := Nat.two_pow_pos (fracBits f)
  rw [expMin] at low
  rw [expMax] at high
  by_cases normal : expMin f ≤ k
  · rw [expMin] at normal
    refine ⟨(k - expMin f).toNat * 2 ^ fracBits f + 2 ^ fracBits f, ?_, ?_⟩
    · have : ((k - expMin f).toNat + 2) * 2 ^ fracBits f ≤ (2 * fpBias f + 1) * 2 ^ fracBits f :=
        Nat.mul_le_mul_right _ (by rw [expMin]; omega)
      rw [Nat.add_mul] at this
      omega
    · rw [codeMag_of (fun _ => le_rfl) (Nat.pow_le_pow_right (by decide) (Nat.le_succ _))]
      have exponent : expMin f - fracBits f + (k - expMin f).toNat = k - fracBits f := by rw [expMin]; omega
      rw [exponent]
      push_cast
      rw [← zpow_natCast, ← zpow_add₀ (by norm_num)]
      congr 1
      ring
  · rw [expMin] at normal
    let i := (k - (expMin f - fracBits f)).toNat
    have small : i < fracBits f := by simp only [i, expMin]; omega
    refine ⟨2 ^ i, ?_, ?_⟩
    · have := Nat.pow_lt_pow_right (by decide : 1 < 2) small
      have : 2 * 2 ^ fracBits f ≤ (2 * fpBias f + 1) * 2 ^ fracBits f := Nat.mul_le_mul_right _ (by omega)
      omega
    · have := codeMag_of (f := f) (k := 0) (q := 2 ^ i) (fun h => absurd h (lt_irrefl _))
        (Nat.pow_le_pow_right (by decide) (by omega))
      rw [Nat.zero_mul, Nat.zero_add] at this
      rw [this]
      push_cast
      rw [← zpow_natCast, ← zpow_add₀ (by norm_num)]
      congr 1
      simp only [i, expMin]
      omega

/-- The magnitudes of finite codes lie below the binade after the greatest. -/
theorem codeMag_last : codeMag f (maxFinite f + 1) = 2 ^ (expMax f + 1) := by
  obtain ⟨-, last, -, room⟩ := boundedFormats_codes hf
  have split : maxFinite f + 1 = (2 * fpBias f - 1) * 2 ^ fracBits f + 2 ^ (fracBits f + 1) := by
    obtain ⟨b, hb⟩ : ∃ b, fpBias f = b + 1 := ⟨fpBias f - 1, by omega⟩
    rw [last, hb, show 2 * (b + 1) - 1 = 2 * b + 1 by omega, Nat.pow_succ]
    ring
  rw [split, codeMag_of (fun _ => Nat.pow_le_pow_right (by decide) (Nat.le_succ _)) le_rfl, expMin, expMax]
  push_cast
  rw [← zpow_natCast, ← zpow_add₀ (by norm_num)]
  congr 1
  push_cast
  omega

/-- A power of two that a finite code has lies between the least and the greatest binade. -/
theorem power_bounds {k : Int} {c : Nat} (hc : c ≤ maxFinite f) (h : codeMag f c = 2 ^ k) : expMin f - fracBits f ≤ k ∧ k ≤ expMax f := by
  have mono := codeMag_strictMono f
  have two : (1 : ℚ) < 2 := by norm_num
  constructor
  · have pos : 0 < c := by
      rcases Nat.eq_zero_or_pos c with rfl | pos
      · rw [codeMag_zero] at h
        exact absurd h (by positivity : (0 : ℚ) < 2 ^ k).ne
      · exact pos
    have one := codeMag_succ f 0
    rw [codeMag_zero, zero_add, zero_add] at one
    have least : (2 : ℚ) ^ (expMin f - fracBits f) ≤ 2 ^ k := by
      rw [← h]
      calc (2 : ℚ) ^ (expMin f - fracBits f) = codeMag f 1 := by rw [one, codeExp]; simp
        _ ≤ codeMag f c := mono.monotone pos
    exact (zpow_le_zpow_iff_right₀ two).mp least
  · have : (2 : ℚ) ^ k < 2 ^ (expMax f + 1) := by
      rw [← h, ← codeMag_last hf]
      exact mono (Nat.lt_succ_of_le hc)
    have := (zpow_lt_zpow_iff_right₀ two).mp this
    omega

end Codes

end Sys2Proof.Machine

/-! The bounded operations: their special and exact cases (R222). -/

namespace Sys2Proof.Machine

/-- A bounded operation that has a special or exact value gives that value's code, and NaN and IV where it has none. -/
theorem boundedOp_of_exact {o : BoundedOp} {f : Fmt} {v : Nat} {x : Num} {g : Flg} (h : bounded o (floatValue f v) = .exact x g) (rm : Rm) :
    boundedOp o f rm v = if x = .nan then (defaultNan f, fIV) else ((roundTo f rm 0 false x).1, g) := by
  have wide : boundedWide o f rm v = if x = .nan then (defaultNan f, fIV) else ((roundTo f rm 0 false x).1, g) := by
    rw [boundedWide, h]
    cases x <;> rfl
  have narrow : (match bounded o (floatValue f v) with
      | .exact .nan _ => (defaultNan f, fIV)
      | .exact x g => ((roundTo f rm 0 false x).1, g)
      | .encl e =>
        let y := (roundTo f rm 0 false (floatValue .f32 (boundedWide o .f32 rm (roundTo .f32 .rne 0 false (floatValue f v)).1).1)).1
        (y, narrowFlags f e y)) = if x = .nan then (defaultNan f, fIV) else ((roundTo f rm 0 false x).1, g) := by
    rw [h]
    cases x <;> rfl
  cases f
  case f64 | f32 => exact wide
  all_goals exact narrow

/-- The results for a NaN. -/
theorem boundedOp_nan {f : Fmt} {v : Nat} (h : floatValue f v = .nan) (rm : Rm) (o : BoundedOp) : boundedOp o f rm v = (defaultNan f, fIV) :=
  boundedOp_of_exact (x := .nan) (by rw [h]; cases o <;> rfl) rm
section Special

variable {f : Fmt} (hf : f ∈ boundedFormats) (rm : Rm)
include hf

theorem one_code : fpBias f * 2 ^ fracBits f ≤ maxFinite f ∧ codeMag f (fpBias f * 2 ^ fracBits f) = 1 := by
  obtain ⟨one, last, -, room⟩ := boundedFormats_codes hf
  constructor
  · have : (fpBias f + 1) * 2 ^ fracBits f ≤ (2 * fpBias f + 1) * 2 ^ fracBits f := Nat.mul_le_mul_right _ (by omega)
    have := Nat.two_pow_pos (fracBits f)
    rw [Nat.add_mul (fpBias f)] at *
    omega
  · rw [← one, codeMag_of (fun _ => le_rfl) (Nat.pow_le_pow_right (by decide) (Nat.le_succ _)), expMin]
    have exponent : (1 : Int) - fpBias f - fracBits f + (fpBias f - 1 : Nat) = -(fracBits f : Nat) := by omega
    rw [exponent, zpow_neg, zpow_natCast]
    push_cast
    field_simp

theorem roundTo_signed_one (neg : Bool) : roundTo f rm 0 false (.fin neg 1 1) = (signBit f neg + fpBias f * 2 ^ fracBits f, 0) := by
  obtain ⟨hi, t8, -⟩ := boundedFormats_binary hf
  obtain ⟨finite, value⟩ := one_code hf
  exact roundTo_code hi t8 finite rm 0 false neg Nat.one_pos (by rw [value, Nat.cast_one, div_one])

theorem roundTo_inf (neg : Bool) : roundTo f rm 0 false (.inf neg) = (signBit f neg + maxFinite f + 1, 0) := by
  simp [roundTo, (boundedFormats_binary hf).2.2]

end Special

/-! ### Logarithms of powers of two -/

/-- Of a quotient that is a power of two, one side is the other times such a power. -/
theorem quotient_eq_power {n d : Nat} (hd : 0 < d) {k : Int} (h : (n : ℚ) / d = 2 ^ k) : ∃ i, n = 2 ^ i * d ∨ d = 2 ^ i * n := by
  have hd' : (d : ℚ) ≠ 0 := by positivity
  obtain ⟨i, rfl | rfl⟩ := k.eq_nat_or_neg
  · rw [zpow_natCast, div_eq_iff hd'] at h
    exact ⟨i, .inl (by exact_mod_cast h)⟩
  · rw [zpow_neg, zpow_natCast, div_eq_iff hd', inv_mul_eq_div, eq_div_iff (by positivity), mul_comm] at h
    exact ⟨i, .inr (by exact_mod_cast h.symm)⟩

/-- A quotient that is a power of two has powers of two as its lowest terms, and that power's binade. -/
theorem lowestTerms_of_power {n d : Nat} (hn : 0 < n) (hd : 0 < d) {k : Int} (h : (n : ℚ) / d = 2 ^ k) :
    isPow2 (n / n.gcd d) = true ∧ isPow2 (d / n.gcd d) = true ∧ binade n d = k := by
  have two : (1 : ℚ) < 2 := by norm_num
  have power (i : Nat) : isPow2 (2 ^ i) = true := by rw [isPow2, Nat.log2_two_pow, beq_self_eq_true]
  have log : binade n d = k := by
    obtain ⟨low, high⟩ := binade_spec hn hd
    rw [h] at low high
    have := (zpow_le_zpow_iff_right₀ two).mp low
    have := (zpow_lt_zpow_iff_right₀ two).mp high
    omega
  obtain ⟨i, rfl | rfl⟩ := quotient_eq_power hd h
  · rw [Nat.gcd_eq_right (Nat.dvd_mul_left d _), Nat.mul_div_cancel _ hd, Nat.div_self hd]
    exact ⟨power i, power 0, log⟩
  · rw [Nat.gcd_eq_left (Nat.dvd_mul_left n _), Nat.mul_div_cancel _ hn, Nat.div_self hn]
    exact ⟨power 0, power i, log⟩

/-- A small integer rounds to its code under every mode. -/
theorem roundTo_integer {f : Fmt} (hf : f ∈ boundedFormats) {k : Int} (hk : k.natAbs < 2 ^ (fracBits f + 1)) :
    ∃ m ≤ maxFinite f, codeMag f m = k.natAbs ∧ ∀ rm, roundTo f rm 0 false (.ofInt k) = (signBit f (decide (k < 0)) + m, 0) := by
  obtain ⟨hi, t8, -⟩ := boundedFormats_binary hf
  obtain ⟨m, hm, value⟩ := integer_code hf hk
  exact ⟨m, hm, value, fun rm => roundTo_code hi t8 hm rm 0 false _ Nat.one_pos (by rw [value, Nat.cast_one, div_one])⟩

/-- The logarithm of a power of two is exact. -/
theorem boundedOp_log2 {f : Fmt} (hf : f ∈ boundedFormats) {v : Nat} (hv : v < 2 ^ f.bits) (rm : Rm) {k : Int} {n d : Nat}
    (h : floatValue f v = .fin false n d) (hk : (n : ℚ) / d = 2 ^ k) : boundedOp .log2 f rm v = ((roundTo f .rz 0 false (.ofInt k)).1, 0) := by
  obtain ⟨hi, t8, -⟩ := boundedFormats_binary hf
  obtain ⟨-, -, room, -⟩ := boundedFormats_codes hf
  obtain ⟨c, hc, -, hd, value⟩ := floatValue_fin t8 hv h
  have hn : 0 < n := by
    rcases Nat.eq_zero_or_pos n with rfl | pos
    · rw [Nat.cast_zero, zero_div] at hk
      exact absurd hk (by positivity : (0 : ℚ) < 2 ^ k).ne
    · exact pos
  obtain ⟨up, down, log⟩ := lowestTerms_of_power hn hd hk
  obtain ⟨low, high⟩ := power_bounds hf hc (value.symm.trans hk)
  have small : k.natAbs < 2 ^ (fracBits f + 1) := by
    rw [expMin] at low
    rw [expMax] at high
    omega
  obtain ⟨m, -, -, rounds⟩ := roundTo_integer hf small
  have exact : bounded .log2 (floatValue f v) = .exact (.ofInt k) 0 := by
    simp only [h, bounded, if_neg hn.ne', up, down, log, Bool.and_self, if_true, Bool.false_eq_true, if_false]
  rw [boundedOp_of_exact exact, if_neg (by rw [Num.ofInt]; nofun), rounds, rounds]

end Sys2Proof.Machine

/-! The bounded operations: places, the results that the bound allows, and the exact powers of two (R220 to R222). -/

namespace Sys2Proof.Machine

/-! ### Places -/

/-- The value of a place as a rational. -/
def placeRat (f : Fmt) (i : Int) : ℚ := ((placeValue f i).1 : ℚ) / (placeValue f i).2
/-- The magnitude of a place, the top binade extended upward. -/
def placeMag (f : Fmt) (c : Nat) : ℚ := ((magUnits f c).1 : ℚ) * 2 ^ (magUnits f c).2

theorem placeValue_pos (f : Fmt) (i : Int) : 0 < (placeValue f i).2 := by
  simp only [placeValue]
  split
  · exact Nat.one_pos
  · exact Nat.two_pow_pos _

/-- A place has the magnitude of its code and its own sign. -/
theorem placeRat_eq (f : Fmt) (i : Int) : placeRat f i = (if i < 0 then -1 else 1) * placeMag f i.natAbs := by
  simp only [placeRat, placeMag, placeValue]
  generalize (magUnits f i.natAbs).1 = n
  generalize (magUnits f i.natAbs).2 = g
  by_cases h : 0 ≤ g
  · obtain ⟨k, rfl⟩ := Int.eq_ofNat_of_zero_le h
    rw [if_pos h, Int.toNat_natCast, zpow_natCast]
    split <;> push_cast <;> ring
  · obtain ⟨k, rfl⟩ : ∃ k : Nat, g = -(k : Int) := ⟨(-g).toNat, by omega⟩
    rw [if_neg h, neg_neg, Int.toNat_natCast, zpow_neg, zpow_natCast]
    split <;> push_cast <;> ring

theorem placeMag_nonneg (f : Fmt) (c : Nat) : 0 ≤ placeMag f c := by
  rw [placeMag]
  positivity
theorem placeMag_zero (f : Fmt) : placeMag f 0 = 0 := by simp [placeMag, magUnits]

/-- The sign of a place is that of its value. -/
theorem placeRat_sign (f : Fmt) (i : Int) : (0 ≤ i → 0 ≤ placeRat f i) ∧ (i ≤ 0 → placeRat f i ≤ 0) := by
  rw [placeRat_eq]
  have := placeMag_nonneg f i.natAbs
  refine ⟨fun h => ?_, fun h => ?_⟩
  · rw [if_neg (not_lt.mpr h), one_mul]
    exact this
  · rcases eq_or_lt_of_le h with rfl | neg
    · simp [placeMag_zero]
    · rw [if_pos neg]
      linarith

section Places

variable {f : Fmt} (hf : f ∈ boundedFormats)
include hf

/-- Up to the greatest finite code a place stands for its code. -/
theorem placeMag_code {c : Nat} (hc : c ≤ maxFinite f) : placeMag f c = codeMag f c := by
  obtain ⟨-, last, -, room⟩ := boundedFormats_codes hf
  have pos := Nat.two_pow_pos (fracBits f)
  have binade : c / 2 ^ fracBits f ≤ 2 * fpBias f := by
    rw [← Nat.lt_succ_iff, Nat.div_lt_iff_lt_mul pos, Nat.succ_eq_add_one, ← last]
    exact Nat.lt_succ_of_le hc
  have top : (expMax f - expMin f).toNat + 1 = 2 * fpBias f := by rw [expMax, expMin]; omega
  have rest : c - c / 2 ^ fracBits f * 2 ^ fracBits f = c % 2 ^ fracBits f := by rw [Nat.mod_eq_sub, Nat.mul_comm]
  simp only [placeMag, magUnits, codeMag, codeSig, codeExp, top, Nat.min_eq_right binade, rest]
  split
  · next h => simp [h]
  · congr 2
    ring

/-- Beyond it a place is no finite value. -/
theorem placeMag_beyond {c : Nat} (hc : maxFinite f < c) : (2 : ℚ) ^ (expMax f + 1) ≤ placeMag f c := by
  obtain ⟨-, last, -, room⟩ := boundedFormats_codes hf
  have pos := Nat.two_pow_pos (fracBits f)
  have least : (2 * fpBias f + 1) * 2 ^ fracBits f ≤ c := last ▸ hc
  have binade : 2 * fpBias f ≤ c / 2 ^ fracBits f := by
    rw [Nat.le_div_iff_mul_le pos]
    exact (Nat.mul_le_mul_right _ (Nat.le_succ _)).trans least
  have top : (expMax f - expMin f).toNat + 1 = 2 * fpBias f := by rw [expMax, expMin]; omega
  have some : 2 * fpBias f ≠ 0 := by omega
  have units : 2 ^ (fracBits f + 1) ≤ 2 ^ fracBits f + (c - 2 * fpBias f * 2 ^ fracBits f) := by
    rw [Nat.add_mul, Nat.one_mul] at least
    rw [Nat.pow_succ]
    omega
  have exponent : expMin f + ((2 * fpBias f - 1 : Nat) : Int) - fracBits f = expMax f - fracBits f := by rw [expMax, expMin]; omega
  simp only [placeMag, magUnits, top, Nat.min_eq_left binade, if_neg some, exponent]
  calc (2 : ℚ) ^ (expMax f + 1) = (2 ^ (fracBits f + 1) : Nat) * 2 ^ (expMax f - fracBits f) := by
        push_cast
        rw [← zpow_natCast, ← zpow_add₀ (by norm_num)]
        congr 1
        push_cast
        ring
    _ ≤ _ := by gcongr

/-- The place of a finite code is the only one with its positive value. -/
theorem place_unique {m : Nat} (hm : m ≤ maxFinite f) (pos : 0 < codeMag f m) {i : Int} (h : placeRat f i = codeMag f m) : i = m := by
  have mono := codeMag_strictMono f
  have positive : 0 < i := by
    by_contra no
    exact absurd ((placeRat_sign f i).2 (not_lt.mp no)) (not_le.mpr (h ▸ pos))
  rw [placeRat_eq, if_neg (not_lt.mpr positive.le), one_mul] at h
  have finite : i.natAbs ≤ maxFinite f := by
    by_contra no
    have := placeMag_beyond hf (not_le.mp no)
    rw [h, ← codeMag_last hf] at this
    exact absurd (mono.le_iff_le.mp this) (by omega)
  rw [placeMag_code hf finite] at h
  have := mono.injective h
  omega
theorem placeRat_code {m : Nat} (hm : m ≤ maxFinite f) : placeRat f m = codeMag f m := by
  rw [placeRat_eq, if_neg (by omega), one_mul, Int.natAbs_natCast, placeMag_code hf hm]

end Places

/-! ### Enclosures -/

theorem Encl.le_iff {e : Encl} {n : Int} {d : Nat} (he : 0 < e.den) (hd : 0 < d) : e.le n d = true ↔ (e.high : ℚ) / e.den ≤ (n : ℚ) / d := by
  rw [Encl.le, decide_eq_true_eq, div_le_div_iff₀ (by exact_mod_cast he) (by exact_mod_cast hd)]
  exact_mod_cast Iff.rfl
theorem Encl.ge_iff {e : Encl} {n : Int} {d : Nat} (he : 0 < e.den) (hd : 0 < d) : e.ge n d = true ↔ (n : ℚ) / d ≤ (e.low : ℚ) / e.den := by
  rw [Encl.ge, decide_eq_true_eq, div_le_div_iff₀ (by exact_mod_cast hd) (by exact_mod_cast he)]
  exact_mod_cast Iff.rfl

/-- A place is allowed when its value is within the bound of the whole enclosure, on the side that the mode asks (R221). -/
theorem allowed_iff {f : Fmt} {rm : Rm} {half : Nat} {e : Encl} {i : Int} (he : 0 < e.den) : allowed f rm half e i = true ↔
    (e.high : ℚ) / e.den ≤ placeRat f i + half / 2 * 2 ^ (e.binade f - fracBits f) ∧
    placeRat f i - half / 2 * 2 ^ (e.binade f - fracBits f) ≤ (e.low : ℚ) / e.den ∧
    (match rm with
      | .rdn => placeRat f i ≤ (e.low : ℚ) / e.den
      | .rup => (e.high : ℚ) / e.den ≤ placeRat f i
      | .rz => if 0 ≤ e.low then placeRat f i ≤ (e.low : ℚ) / e.den ∧ 0 ≤ i else (e.high : ℚ) / e.den ≤ placeRat f i ∧ i ≤ 0
      | _ => True) := by
  have hd := placeValue_pos f i
  have le := Encl.le_iff (n := (placeValue f i).1) he hd
  have ge := Encl.ge_iff (n := (placeValue f i).1) he hd
  rw [← placeRat] at le ge
  let g := e.binade f - fracBits f - 1
  let bound : Nat × Nat := if 0 ≤ g then (half * 2 ^ g.toNat, 1) else (half, 2 ^ (-g).toNat)
  have unit : 0 < bound.2 ∧ (bound.1 : ℚ) / bound.2 = half / 2 * 2 ^ (e.binade f - fracBits f) := by
    have scaled : (half : ℚ) / 2 * 2 ^ (e.binade f - fracBits f) = half * 2 ^ g := by
      rw [show g = e.binade f - fracBits f - 1 from rfl, zpow_sub_one₀ (by norm_num)]
      ring
    rw [scaled]
    by_cases h : 0 ≤ g
    · obtain ⟨k, hk⟩ := Int.eq_ofNat_of_zero_le h
      simp only [bound, hk, Int.toNat_natCast, zpow_natCast, Int.natCast_nonneg, if_true]
      exact ⟨Nat.one_pos, by push_cast; ring⟩
    · obtain ⟨k, hk⟩ : ∃ k : Nat, g = -(k : Int) := ⟨(-g).toNat, by omega⟩
      simp only [bound, if_neg h]
      rw [hk, neg_neg, Int.toNat_natCast, zpow_neg, zpow_natCast]
      exact ⟨Nat.two_pow_pos _, by push_cast; ring⟩
  have ratio (n : Int) (d : Nat) (hd : 0 < d) : ((n * bound.2 + bound.1 * d : Int) : ℚ) / (d * bound.2 : Nat) = (n : ℚ) / d + bound.1 / bound.2 ∧
      ((n * bound.2 - bound.1 * d : Int) : ℚ) / (d * bound.2 : Nat) = (n : ℚ) / d - bound.1 / bound.2 := by
    have : (bound.2 : ℚ) ≠ 0 := by exact_mod_cast unit.1.ne'
    have : (d : ℚ) ≠ 0 := by exact_mod_cast hd.ne'
    constructor <;> (push_cast; field_simp)
  obtain ⟨plus, minus⟩ := ratio (placeValue f i).1 _ hd
  have over' : e.le ((placeValue f i).1 * bound.2 + bound.1 * (placeValue f i).2) ((placeValue f i).2 * bound.2) = true ↔ _ :=
    Encl.le_iff he (Nat.mul_pos hd unit.1)
  have under : e.ge ((placeValue f i).1 * bound.2 - bound.1 * (placeValue f i).2) ((placeValue f i).2 * bound.2) = true ↔ _ :=
    Encl.ge_iff he (Nat.mul_pos hd unit.1)
  rw [plus, ← placeRat, unit.2] at over'
  rw [minus, ← placeRat, unit.2] at under
  rw [← over', ← under, ← and_assoc, allowed, Bool.and_eq_true, Bool.and_eq_true]
  refine and_congr Iff.rfl ?_
  cases rm
  case rdn => exact ge
  case rup => exact le
  case rz =>
    rw [← le, ← ge, Encl.pos]
    by_cases h : 0 ≤ e.low <;> simp [h]
  all_goals simp

/-- An allowed place is near every value of the enclosure, on the side that the mode asks (R221). -/
theorem allowed_near {f : Fmt} {rm : Rm} {half : Nat} {e : Encl} {i : Int} (he : 0 < e.den) (h : allowed f rm half e i = true) {x : ℚ}
    (low : (e.low : ℚ) ≤ x * e.den) (high : x * e.den ≤ e.high) : let y : ℚ := (placeValue f i).1 / (placeValue f i).2
    |y - x| ≤ half / 2 * 2 ^ (e.binade f - fracBits f) ∧ (rm = .rdn → y ≤ x) ∧ (rm = .rup → x ≤ y) ∧ (rm = .rz → |y| ≤ |x|) := by
  intro y
  have he' : (0 : ℚ) < e.den := by exact_mod_cast he
  rw [← div_le_iff₀ he'] at low
  rw [← le_div_iff₀ he'] at high
  obtain ⟨above, below, side⟩ := (allowed_iff he).mp h
  rw [show placeRat f i = y from rfl] at above below side
  obtain ⟨nonneg, nonpos⟩ := placeRat_sign f i
  refine ⟨abs_le.mpr ⟨by linarith, by linarith⟩, ?_, ?_, ?_⟩
  · rintro rfl
    exact side.trans low
  · rintro rfl
    exact high.trans side
  · rintro rfl
    dsimp only at side
    split at side
    · have sign : 0 ≤ y := nonneg side.2
      have lower := side.1.trans low
      rwa [abs_of_nonneg sign, abs_of_nonneg (sign.trans lower)]
    · have sign : y ≤ 0 := nonpos side.2
      have upper := high.trans side.1
      rwa [abs_of_nonpos sign, abs_of_nonpos (upper.trans sign), neg_le_neg_iff]

/-! ### The choice among the allowed places -/

/-- What a narrow form's exactness leaves is some of the allowed places, and not none. -/
theorem narrowKept_sublist (rm : Rm) (a : Num) (e : Encl) (cs : List Int) :
    (∀ i ∈ narrowKept rm a e cs, i ∈ cs) ∧ (cs ≠ [] → narrowKept rm a e cs ≠ []) := by
  have keeps (n : Fmt) (cs : List Int) : let kept := if (roundTo n .rne 0 false a).2 = 0 ∧ cs.filter (narrowOk n rm e) ≠ [] then cs.filter (narrowOk n rm e) else cs
      (∀ i ∈ kept, i ∈ cs) ∧ (cs ≠ [] → kept ≠ []) := by
    intro kept
    simp only [kept]
    split
    · next h => exact ⟨fun i hi => (List.mem_filter.mp hi).1, fun _ => h.2⟩
    · exact ⟨fun _ hi => hi, id⟩
  obtain ⟨first, some⟩ := keeps .bf16 cs
  obtain ⟨second, some'⟩ := keeps .f16 _
  exact ⟨fun i hi => first i (second i hi), fun h => some' (some h)⟩

/-- The enclosed value is the place's own. -/
def Encl.isPlace (f : Fmt) (e : Encl) (i : Int) : Bool :=
  decide (e.low = e.high) && e.le (placeValue f i).1 (placeValue f i).2 && e.ge (placeValue f i).1 (placeValue f i).2

/-- The places among which a wide operation chooses (R221, R222). -/
def chosenFrom (o : BoundedOp) (f : Fmt) (rm : Rm) (a : Num) (e : Encl) : List Int :=
  match o, (candidates f rm (halfUlps o a) e).filter (e.isPlace f) with
  | .exp2, i :: _ => [i]
  | _, _ => if f = .f32 then narrowKept rm a e (candidates f rm (halfUlps o a) e) else candidates f rm (halfUlps o a) e

/-- It chooses among the allowed places, where there are any. -/
theorem chosenFrom_sublist {o : BoundedOp} {f : Fmt} {rm : Rm} {a : Num} {e : Encl} (some : candidates f rm (halfUlps o a) e ≠ []) :
    (∀ i ∈ chosenFrom o f rm a e, i ∈ candidates f rm (halfUlps o a) e) ∧ chosenFrom o f rm a e ≠ [] := by
  unfold chosenFrom
  generalize candidates f rm (halfUlps o a) e = all at some ⊢
  have kept : (∀ i ∈ if f = .f32 then narrowKept rm a e all else all, i ∈ all) ∧ (if f = .f32 then narrowKept rm a e all else all) ≠ [] := by
    split
    · exact ⟨(narrowKept_sublist rm a e all).1, (narrowKept_sublist rm a e all).2 some⟩
    · exact ⟨fun _ hj => hj, some⟩
  cases same : all.filter (e.isPlace f) with
  | nil => cases o <;> exact kept
  | cons i rest =>
    have member : i ∈ all := (List.mem_filter.mp (same ▸ List.mem_cons_self)).1
    cases o
    case exp2 => exact ⟨fun j hj => List.mem_singleton.mp hj ▸ member, List.cons_ne_nil _ _⟩
    all_goals exact kept

theorem boundedWide_of_encl {o : BoundedOp} {f : Fmt} {v : Nat} {e : Encl} (h : bounded o (floatValue f v) = .encl e) (rm : Rm) :
    ∃ p, boundedWide o f rm v = placeResult f rm e (((chosenFrom o f rm (floatValue f v) e)[p % (chosenFrom o f rm (floatValue f v) e).length]?).getD (e.place f)) := by
  refine ⟨Config.pick o.num f.code.toNat rm.code.toNat v, ?_⟩
  rw [boundedWide, h]
  rfl

/-- A wide operation takes one of the allowed places. -/
theorem boundedWide_allowed {o : BoundedOp} {f : Fmt} {v : Nat} {e : Encl} (h : bounded o (floatValue f v) = .encl e) (rm : Rm)
    (some : candidates f rm (halfUlps o (floatValue f v)) e ≠ []) :
    ∃ i, allowed f rm (halfUlps o (floatValue f v)) e i = true ∧ boundedWide o f rm v = placeResult f rm e i := by
  obtain ⟨members, some'⟩ := chosenFrom_sublist some
  obtain ⟨p, result⟩ := boundedWide_of_encl h rm
  have place : p % (chosenFrom o f rm (floatValue f v) e).length < (chosenFrom o f rm (floatValue f v) e).length :=
    Nat.mod_lt _ (List.length_pos_iff.mpr some')
  rw [List.getElem?_eq_getElem place, Option.getD_some] at result
  exact ⟨_, (List.mem_filter.mp (members _ (List.getElem_mem place))).2, result⟩

end Sys2Proof.Machine

/-! Exact powers of two (R222). -/

namespace Sys2Proof.Machine

/-- The magnitude of a value that is an integer, and its sign. -/
theorem integer_parts {neg : Bool} {n d : Nat} (hd : 0 < d) {k : Int} (hk : (if neg then -((n : ℚ) / d) else (n : ℚ) / d) = k) :
    (n : ℚ) / d = k.natAbs ∧ n = k.natAbs * d ∧ k = if neg then -(k.natAbs : Int) else k.natAbs := by
  have hd' : (d : ℚ) ≠ 0 := by positivity
  have size : (k.natAbs : ℚ) = |(k : ℚ)| := by rw [← Int.cast_abs, Int.abs_eq_natAbs, Int.cast_natCast]
  have pos : 0 ≤ (n : ℚ) / d := by positivity
  have eq : (n : ℚ) / d = k.natAbs := by
    rw [size, ← hk]
    cases neg
    · exact (abs_of_nonneg pos).symm
    · exact ((abs_neg _).trans (abs_of_nonneg pos)).symm
  refine ⟨eq, ?_, ?_⟩
  · rw [div_eq_iff hd'] at eq
    exact_mod_cast eq
  · have := hk.symm
    rw [eq] at this
    cases neg
    · exact Int.cast_injective (α := ℚ) (this.trans (Int.cast_natCast _).symm)
    · exact Int.cast_injective (α := ℚ) (this.trans ((Int.cast_neg _).trans (congrArg Neg.neg (Int.cast_natCast _))).symm)

/-- The power of two of a small integer is enclosed exactly. -/
theorem bounded_exp2 {neg : Bool} {n d : Nat} (hn : 0 < n) (hd : 0 < d) {k : Int} (hk : (if neg then -((n : ℚ) / d) else (n : ℚ) / d) = k)
    (small : k.natAbs ≤ 4000) : ∃ P Q : Nat, 0 < P ∧ 0 < Q ∧ (P : ℚ) / Q = 2 ^ k ∧ bounded .exp2 (.fin neg n d) = .encl ⟨P, P, Q⟩ := by
  obtain ⟨-, rfl, sign⟩ := integer_parts hd hk
  have div : k.natAbs * d / d = k.natAbs := Nat.mul_div_cancel _ hd
  have mod : k.natAbs * d % d = 0 := Nat.mul_mod_left _ _
  have read : bounded .exp2 (.fin neg (k.natAbs * d) d) = if neg then .encl (.point 1 (2 ^ k.natAbs)) else .encl (.point (2 ^ k.natAbs) 1) := by
    simp only [bounded, if_neg hn.ne', mod, div, if_true, if_neg (not_lt.mpr small)]
  generalize k.natAbs = a at *
  subst sign
  cases neg
  · refine ⟨2 ^ a, 1, Nat.two_pow_pos _, Nat.one_pos, ?_, ?_⟩
    · simp
    · rw [read, Encl.point]
      push_cast
      rfl
  · refine ⟨1, 2 ^ a, Nat.one_pos, Nat.two_pow_pos _, ?_, ?_⟩
    · simp
    · exact read

section Exact

variable {f : Fmt} (hf : f ∈ boundedFormats) {P Q : Nat} (hP : 0 < P) (hQ : 0 < Q) {m : Nat} (hm : m ≤ maxFinite f) {k : Int}
  (value : (P : ℚ) / Q = 2 ^ k) (code : codeMag f m = 2 ^ k)
include hf hP hQ hm value code

/-- The exact value of a finite code stands at the code's place. -/
theorem place_of_code : (⟨P, P, Q⟩ : Encl).place f = m := by
  obtain ⟨hi, t8, -⟩ := boundedFormats_binary hf
  have log := (lowestTerms_of_power hP hQ value).2.2
  have high := (power_bounds hf hm code).2
  obtain ⟨below, above, -⟩ := nearest_binary hi t8 hP hQ .rne false 0
  have mono := codeMag_strictMono f
  rw [value, ← code, mono.le_iff_le] at below
  rw [value, ← code, mono.lt_iff_lt] at above
  have lower : lowerCode f P Q = m := by omega
  have pos : (⟨P, P, Q⟩ : Encl).pos = true := decide_eq_true (Int.natCast_nonneg P)
  have binade' : (⟨P, P, Q⟩ : Encl).binade f = max (expMin f) (binade P Q) := by
    have some : ¬((P : Int) ≤ 0) := by omega
    have range : expMin f ≤ expMax f := by rw [expMin, expMax]; have := (boundedFormats_codes hf).2.2.2; omega
    simp only [Encl.binade, pos, if_true, if_neg some, Int.toNat_natCast, log]
    exact min_eq_right (max_le range high)
  simp only [Encl.place, pos, if_true, binade', Int.toNat_natCast]
  exact_mod_cast lower

omit hP in
/-- The only place with the exact value is the code's. -/
theorem isPlace_iff (i : Int) : (⟨P, P, Q⟩ : Encl).isPlace f i = true ↔ i = m := by
  have positive : 0 < codeMag f m := code ▸ (by positivity)
  rw [Encl.isPlace, Bool.and_eq_true, Bool.and_eq_true, Encl.le_iff hQ (placeValue_pos f i), Encl.ge_iff hQ (placeValue_pos f i), ← placeRat]
  simp only [decide_true, true_and, Int.cast_natCast, value, ← code]
  constructor
  · rintro ⟨least, most⟩
    exact place_unique hf hm positive (le_antisymm most least)
  · rintro rfl
    exact ⟨(placeRat_code hf hm).ge, (placeRat_code hf hm).le⟩

omit hP in
theorem exact_allowed (rm : Rm) (half : Nat) : allowed f rm half ⟨P, P, Q⟩ m = true := by
  rw [allowed_iff hQ, placeRat_code hf hm]
  simp only [Int.cast_natCast, value, code]
  have unit : (0 : ℚ) ≤ half / 2 * 2 ^ ((⟨P, P, Q⟩ : Encl).binade f - fracBits f) := by positivity
  refine ⟨le_add_of_nonneg_right unit, sub_le_self _ unit, ?_⟩
  cases rm <;> simp

omit hP in
/-- The place of an exact value gives its code without a flag. -/
theorem placeResult_code (rm : Rm) : placeResult f rm ⟨P, P, Q⟩ m = (m, 0) := by
  have same := (isPlace_iff hf hQ hm value code m).mpr rfl
  have pos : (⟨P, P, Q⟩ : Encl).pos = true := decide_eq_true (Int.natCast_nonneg P)
  have sign : ¬((m : Int) < 0) := by omega
  simp only [Encl.isPlace, Bool.and_eq_true] at same
  obtain ⟨⟨-, le⟩, ge⟩ := same
  simp only [placeResult, le, ge, pos, Int.natAbs_natCast, if_neg (not_lt.mpr hm), decide_eq_false sign, Bool.not_true, ite_self]
  simp [signBit, flagIf]

/-- The power of two that has a code is that code. -/
theorem boundedWide_exp2 {v : Nat} (h : bounded .exp2 (floatValue f v) = .encl ⟨P, P, Q⟩) (rm : Rm) : boundedWide .exp2 f rm v = (m, 0) := by
  have member : (m : Int) ∈ candidates f rm (halfUlps .exp2 (floatValue f v)) ⟨P, P, Q⟩ := by
    refine List.mem_filter.mpr ⟨List.mem_map.mpr ⟨7, by decide, ?_⟩, exact_allowed hf hQ hm value code rm _⟩
    rw [place_of_code hf hP hQ hm value code]
    exact add_sub_cancel_right _ _
  have chosen : chosenFrom .exp2 f rm (floatValue f v) ⟨P, P, Q⟩ = [(m : Int)] := by
    unfold chosenFrom
    generalize candidates f rm (halfUlps .exp2 (floatValue f v)) ⟨P, P, Q⟩ = all at member ⊢
    cases same : all.filter ((⟨P, P, Q⟩ : Encl).isPlace f) with
    | nil => exact absurd ((isPlace_iff hf hQ hm value code m).mpr rfl) (by simpa using List.filter_eq_nil_iff.mp same _ member)
    | cons i rest =>
      have : i = m := (isPlace_iff hf hQ hm value code i).mp (List.mem_filter.mp (same ▸ List.mem_cons_self)).2
      rw [this]
  obtain ⟨p, result⟩ := boundedWide_of_encl h rm
  rw [result, chosen]
  simp only [List.length_singleton, Nat.mod_one, List.getElem?_cons_zero, Option.getD_some]
  exact placeResult_code hf hQ hm value code rm

omit hP in
/-- Nor has it a flag in a narrow format. -/
theorem narrowFlags_code : narrowFlags f ⟨P, P, Q⟩ m = 0 := by
  obtain ⟨hi, t8, -⟩ := boundedFormats_binary hf
  obtain ⟨-, -, -, top, -⟩ := binary_facts f hi t8
  have small : m < 2 ^ (f.bits - 1) := hm.trans_lt top
  have same := (isPlace_iff hf hQ hm value code m).mpr rfl
  simp only [Encl.isPlace, Bool.and_eq_true] at same
  obtain ⟨⟨-, le⟩, ge⟩ := same
  have under : (⟨P, P, Q⟩ : Encl).ge (placeValue f ((maxFinite f + 1 : Nat) : Int)).1 (placeValue f ((maxFinite f + 1 : Nat) : Int)).2 = false := by
    rw [← Bool.not_eq_true, Encl.ge_iff hQ (placeValue_pos f _), ← placeRat, not_le, Int.cast_natCast, value, ← code]
    rw [placeRat_eq, if_neg (by omega), one_mul, Int.natAbs_natCast]
    calc codeMag f m < codeMag f (maxFinite f + 1) := codeMag_strictMono f (Nat.lt_succ_of_le hm)
      _ = 2 ^ (expMax f + 1) := codeMag_last hf
      _ ≤ _ := placeMag_beyond hf (Nat.lt_succ_self _)
  simp only [narrowFlags, Nat.mod_eq_of_lt small, decide_eq_false (not_le.mpr small), Bool.false_eq_true, if_false, le, ge, under,
    decide_eq_false (not_lt.mpr hm)]
  simp [flagIf]

end Exact

/-- A small integer's power of two that has a code is that code (R222). -/
theorem boundedOp_exp2 {f : Fmt} (hf : f ∈ boundedFormats) {v : Nat} (hv : v < 2 ^ f.bits) (rm : Rm) {k : Int} {m n d : Nat} {neg : Bool}
    (h : floatValue f v = .fin neg n d) (hk : (if neg then -((n : ℚ) / d) else (n : ℚ) / d) = k) (hm : m ≤ maxFinite f)
    (code : codeMag f m = 2 ^ k) : boundedOp .exp2 f rm v = (m, 0) := by
  obtain ⟨hi, t8, -⟩ := boundedFormats_binary hf
  obtain ⟨c, hc, -, hd, -⟩ := floatValue_fin t8 hv h
  obtain ⟨size, -, -⟩ := integer_parts hd hk
  obtain ⟨low, high⟩ := power_bounds hf hm code
  rcases Nat.eq_zero_or_pos n with rfl | hn
  · have zero : k = 0 := by
      rw [Nat.cast_zero, zero_div] at size
      exact Int.natAbs_eq_zero.mp (by exact_mod_cast size.symm)
    subst zero
    rw [boundedOp_of_exact (x := .fin false 1 1) (g := 0) (by rw [h]; rfl), if_neg nofun, roundTo_code hi t8 hm rm 0 false false Nat.one_pos (by rw [code]; simp)]
    simp [signBit]
  have small : k.natAbs ≤ 4000 := by
    have : fpBias f + fracBits f ≤ 4000 := by fin_cases hf <;> decide
    rw [expMin] at low
    rw [expMax] at high
    omega
  obtain ⟨P, Q, hP, hQ, value, encl⟩ := bounded_exp2 hn hd hk small
  rw [← h] at encl
  by_cases wide : f = .f64 ∨ f = .f32
  · have := boundedWide_exp2 hf hP hQ hm value code encl rm
    rcases wide with rfl | rfl <;> exact this
  · have narrow : (fpBias f + fracBits f < 2 ^ (fracBits .f32 + 1) ∧ fpBias f + fracBits f ≤ fpBias .f32 + fracBits .f32 ∧ fpBias f ≤ fpBias .f32) ∧
        boundedOp .exp2 f rm v = match bounded .exp2 (floatValue f v) with
          | .exact .nan _ => (defaultNan f, fIV)
          | .exact x g => ((roundTo f rm 0 false x).1, g)
          | .encl e =>
            let y := (roundTo f rm 0 false (floatValue .f32 (boundedWide .exp2 .f32 rm (roundTo .f32 .rne 0 false (floatValue f v)).1).1)).1
            (y, narrowFlags f e y) := by
      fin_cases hf
      · exact absurd (.inl rfl) wide
      · exact absurd (.inr rfl) wide
      · exact ⟨by decide, rfl⟩
      · exact ⟨by decide, rfl⟩
    obtain ⟨⟨bits, range, top⟩, split⟩ := narrow
    rw [expMin] at low
    rw [expMax] at high
    have hf32 : Fmt.f32 ∈ boundedFormats := by decide
    obtain ⟨hi32, t32, -⟩ := boundedFormats_binary hf32
    -- the f32 operand has the same value, and the f32 result is the power
    obtain ⟨M, hM, operand⟩ := integer_code hf32 (a := k.natAbs) (by omega)
    have widened := roundTo_code hi32 t32 hM .rne 0 false neg hd (operand.trans size.symm)
    obtain ⟨n', d', value', hd', eq'⟩ := floatValue_signBit hi32 t32 hM neg
    obtain ⟨size', hn'⟩ : (n' : ℚ) / d' = (n : ℚ) / d ∧ 0 < n' := by
      have same : (n' : ℚ) / d' = (n : ℚ) / d := eq'.trans (operand.trans size.symm)
      refine ⟨same, Nat.pos_of_ne_zero ?_⟩
      rintro rfl
      rw [Nat.cast_zero, zero_div] at same
      exact absurd same (by positivity : (0 : ℚ) < (n : ℚ) / d).ne
    obtain ⟨P', Q', hP', hQ', power', encl'⟩ := bounded_exp2 (neg := neg) hn' hd' (k := k) (by rw [size']; exact hk) small
    obtain ⟨m32, hm32, code32⟩ := power_code hf32 (k := k) (by rw [expMin]; omega) (by rw [expMax]; omega)
    have result := boundedWide_exp2 hf32 hP' hQ' hm32 power' code32 (v := signBit .f32 neg + M) (by rw [value', encl']) rm
    obtain ⟨n'', d'', value'', hd'', eq''⟩ := floatValue_signBit hi32 t32 hm32 false
    have final := roundTo_code hi t8 hm rm 0 false false hd'' (code.trans (code32.symm.trans eq''.symm))
    have sign (f : Fmt) (c : Nat) : signBit f false + c = c := Nat.zero_add c
    rw [sign] at value'' final
    rw [split, encl]
    dsimp only
    rw [h, widened, result, value'', final, narrowFlags_code hf hQ hm value code]

end Sys2Proof.Machine

/-! The statement about vector arithmetic: the element-wise instructions. -/

namespace Sys2Proof.Machine

/-- An element-wise instruction yields its elements, whose results the statement may spell otherwise. -/
theorem State.yieldsElems_of {s : State} {c : CoreId} {st : StrandId} {h : Hdr} {i : Instr} {d : VReg} {w : Nat} {js : List Nat} {rm : Rm} {lat : Nat}
    {op op' : Nat → Nat → Nat × Flg} (hi : s.Issues c st h { legal := [.c], writes := true }) (he : exec i s = vElems h d w js rm lat op' s)
    (hop : op' = op) : s.YieldsElems c st h i d w js rm lat op := by
  subst hop
  exact State.yields_of_result hi he rfl

theorem pos_of_above {f : Fmt} {lo n d : Nat} (h : magnitude f lo < (n : ℚ) / d) : 0 < n := by
  rcases Nat.eq_zero_or_pos n with rfl | pos
  · have least : 0 ≤ magnitude f lo := by
      rw [magnitude]
      split
      · positivity
      · exact le_rfl
    simp only [Nat.cast_zero, zero_div] at h
    exact absurd h (not_lt.mpr least)
  · exact pos

/-- Settles O49: the instructions' elements are the model's own, and the rounded values are compared with the exact values of the codes. -/
theorem vectorArithmeticYieldsItsElements : Obligations.VectorArithmeticYieldsItsElements := by
  refine ⟨?exec, ?round, ?table, ?toInt, ?fit, ?convert, ?bounded⟩
  case exec =>
    intro s c st h d a b e k f g rm sat sf part sb hi
    have vec : (s.core c).rv = s.vec := funext fun r => by rw [State.vec, hi.me]
    have msk : (s.core c).rk = s.msk := funext fun r => by rw [State.msk, hi.me]
    rw [vec, msk]
    intro va vb ve m wide i x each two fused bounded moves from' terms
    refine ⟨?vadd, ?vsub, ?vmul, ?vfma, ?vfms, ?vfnma, ?vmin, ?vmax, ?vclamp, ?vabs, ?vneg, ?vround, ?vclass, ?vdiv, ?vsqrt, ?vrcp, ?vrsq, ?vexp, ?vexp2,
      ?vlog, ?vlog2, ?vsin, ?vcos, ?vtanh, ?vcvt, ?vqnt, ?vdqnt, ?vredadd, ?vredmax, ?vredmin⟩
    all_goals exact State.yieldsElems_of hi rfl rfl
  case toInt => exact fun f rm r sat neg n d _ hd => toInt_spec f rm r sat neg n hd
  case fit => exact fun f sat i _ => fitInt_spec f sat i
  case round =>
    intro f rm r sat neg n d hi hd x y top next
    refine ⟨?_, fun m hm hn h => roundTo_exact hi rm r sat neg hn hd hm h, fun lo up hlo hup below above apart => ?_, fun h => ?_⟩
    · rintro rfl
      exact roundTo_zero rm r sat neg f d
    · exact roundTo_between hi rm r sat neg (pos_of_above below) hd hlo hup below above apart
    · exact roundTo_beyond hi rm r sat neg (pos_of_above h) hd h
  case table =>
    intro p hp rm r sat neg
    fin_cases hp <;> cases sat <;> cases neg <;> exact ⟨rfl, rfl, rfl, rfl⟩
  case convert =>
    intro f g rm r sat v
    simp only [Machine.convert, toFmt, numValue, Num.ofInt]
    cases f.isI <;> cases g.isI <;> rfl
  case bounded =>
    intro f rm v hf hv is one inf nan
    obtain ⟨hi, t8, -⟩ := boundedFormats_binary hf
    have special {o : BoundedOp} {x : Machine.Num} {m : Nat} {g : Flg} (rounds : (roundTo f rm 0 false x).1 = m) (some : x.isNan = false)
        (h : bounded o (floatValue f v) = .exact x g) : is o m g := (boundedOp_of_exact h rm).trans (by rw [if_neg (by rintro rfl; exact absurd some nofun), rounds])
    have none {o : BoundedOp} (h : bounded o (floatValue f v) = .exact .nan 0) : nan o := boundedOp_of_exact h rm
    have zero : (roundTo f rm 0 false (.fin false 0 1)).1 = 0 := by rw [roundTo_zero]; exact if_neg fun t => t8 t.1
    have signedZero (neg : Bool) : (roundTo f rm 0 false (.fin neg 0 1)).1 = signBit f neg := by rw [roundTo_zero]; exact if_neg fun t => t8 t.1
    have signedOne (neg : Bool) : (roundTo f rm 0 false (.fin neg 1 1)).1 = one neg := congrArg Prod.fst (roundTo_signed_one hf rm neg)
    have signedInf (neg : Bool) : (roundTo f rm 0 false (.inf neg)).1 = inf neg := congrArg Prod.fst (roundTo_inf hf rm neg)
    refine ⟨fun h o => boundedOp_nan h rm o, fun h => ?_, fun h => ?_, fun neg h => ?_, fun neg d h => ?_, fun n d h hn => ?_, ?_, fun k n d h hk => ?_,
      fun k m neg n d h hk hm code => ?_, fun wide o e h he some => ?_⟩
    · have same : (roundTo f rm 0 false (.inf false)).1 = v := (signedInf false).trans (floatValue_inf t8 hv h).symm
      exact ⟨special zero rfl (by rw [h]; rfl), special same rfl (by rw [h]; rfl), special same rfl (by rw [h]; rfl),
        special same rfl (by rw [h]; rfl), special same rfl (by rw [h]; rfl), special (signedOne false) rfl (by rw [h]; rfl)⟩
    · exact ⟨none (by rw [h]; rfl), special zero rfl (by rw [h]; rfl), special zero rfl (by rw [h]; rfl), none (by rw [h]; rfl),
        none (by rw [h]; rfl), special (signedOne true) rfl (by rw [h]; rfl)⟩
    · exact ⟨none (by rw [h]; rfl), none (by rw [h]; rfl)⟩
    · have same : (roundTo f rm 0 false (.fin neg 0 1)).1 = v := (signedZero neg).trans (floatValue_zero t8 hv h).symm
      exact ⟨special (signedInf neg) rfl (by rw [h]; rfl), special (signedOne false) rfl (by rw [h]; rfl), special (signedOne false) rfl (by rw [h]; rfl),
        special (signedInf true) rfl (by rw [h]; rfl), special (signedInf true) rfl (by rw [h]; rfl), special same rfl (by rw [h]; rfl),
        special (signedOne false) rfl (by rw [h]; rfl), special same rfl (by rw [h]; rfl)⟩
    · exact ⟨none (by rw [h]; simp [bounded, hn.ne']), none (by rw [h]; simp [bounded, hn.ne']), none (by rw [h]; simp [bounded, hn.ne'])⟩
    · rintro rfl
      obtain ⟨finite, value⟩ := one_code hf
      obtain ⟨n, d, read, hd, eq⟩ := floatValue_signBit hi t8 finite false
      have same : n = d := by
        rw [value, div_eq_one_iff_eq (Nat.cast_ne_zero.mpr hd.ne')] at eq
        exact_mod_cast eq
      refine special zero rfl ?_
      rw [read, same]
      simp [bounded, hd.ne']
    · exact boundedOp_log2 hf hv rm h hk
    · have finite := (binary_finite hi t8).mp hm
      rw [binary_magnitude hi t8 finite] at code
      exact boundedOp_exp2 hf hv rm h hk finite code
    · obtain ⟨i, allow, result⟩ := boundedWide_allowed h rm some
      refine ⟨i, ?_, fun x low high => allowed_near he allow low high⟩
      rcases wide with rfl | rfl <;> exact result

end Sys2Proof.Machine

/-! The canonical form of the memories as a property of states, and the rules by which the operations keep it (log entry 3).

HBM and the cores' memories are two statements, each from its own hypothesis: the property carries both, each under a condition. -/

namespace Sys2Proof.Machine

/-! ### Cores -/

/-- The byte memories of a core. -/
def Core.mems (k : Core) : List Mem := [k.ls, k.wb0, k.wb1, k.acc, k.code, k.handler]
/-- Every byte memory of a core has the canonical form. -/
def Core.Canonical (k : Core) : Prop := ∀ m ∈ k.mems, m.wf = true

theorem Core.canonical_iff {k : Core} : k.Canonical ↔
    k.ls.wf = true ∧ k.wb0.wf = true ∧ k.wb1.wf = true ∧ k.acc.wf = true ∧ k.code.wf = true ∧ k.handler.wf = true := by
  simp [Core.Canonical, Core.mems]

namespace Core.Canonical

/-- A change that leaves the memories. -/
theorem same {k k' : Core} (hk : k.Canonical) (h : k'.mems = k.mems := by rfl) : k'.Canonical := by
  rw [Core.Canonical, h]
  exact hk

theorem ite {p : Prop} [Decidable p] {a b : Core} (ha : a.Canonical) (hb : b.Canonical) : (if p then a else b).Canonical := by
  split <;> assumption
theorem foldl {α : Type} {f : Core → α → Core} (hf : ∀ k a, k.Canonical → (f k a).Canonical) {k : Core} (hk : k.Canonical) {l : List α} :
    (l.foldl f k).Canonical := by
  induction l generalizing k with
  | nil => exact hk
  | cons a l ih => exact ih (hf k a hk)
theorem foldr {α : Type} {f : α → Core → Core} (hf : ∀ a k, k.Canonical → (f a k).Canonical) {k : Core} (hk : k.Canonical) {l : List α} :
    (l.foldr f k).Canonical := by
  induction l with
  | nil => exact hk
  | cons a l ih => exact hf a _ ih
/-- A fold that carries the core beside something else. -/
theorem foldl_fst {α β : Type} {f : Core × β → α → Core × β} (hf : ∀ p a, p.1.Canonical → (f p a).1.Canonical) {p : Core × β} (hk : p.1.Canonical)
    {l : List α} : (l.foldl f p).1.Canonical := by
  induction l generalizing p with
  | nil => exact hk
  | cons a l ih => exact ih (hf p a hk)

end Core.Canonical

/-! ### States -/

/-- HBM, under one condition, and every memory of every core, under another, have the canonical form. -/
def State.Canonical (G K : Prop) (s : State) : Prop := (G → s.gm.wf = true) ∧ (K → ∀ c, (s.core c).Canonical)

namespace State.Canonical

variable {G K : Prop} {s t : State}

/-- A change that leaves HBM and the cores. -/
theorem same (hs : s.Canonical G K) (hg : t.gm = s.gm := by rfl) (hc : t.cores = s.cores := by rfl) : t.Canonical G K := by
  obtain ⟨gm, core⟩ := hs
  refine ⟨fun g => hg ▸ gm g, fun k c => ?_⟩
  rw [State.core, hc]
  exact core k c
/-- The state of a pair. -/
theorem of_pair {α : Type} {p : State × α} {a : α} (eq : p = (t, a)) (h : p.1.Canonical G K) : t.Canonical G K := by
  rw [eq] at h
  exact h
/-- The state of a pair. -/
theorem of_pair' {α : Type} {p : α × State} {a : α} (eq : p = (a, t)) (h : p.2.Canonical G K) : t.Canonical G K := by
  rw [eq] at h
  exact h

theorem ite {p : Prop} [Decidable p] (hs : s.Canonical G K) (ht : t.Canonical G K) : (if p then s else t).Canonical G K := by
  split <;> assumption
theorem foldl {α : Type} {f : State → α → State} (hf : ∀ s a, s.Canonical G K → (f s a).Canonical G K) (hs : s.Canonical G K) {l : List α} :
    (l.foldl f s).Canonical G K := by
  induction l generalizing s with
  | nil => exact hs
  | cons a l ih => exact ih (hf s a hs)
/-- A fold that carries the state beside something else. -/
theorem foldl_fst {α β : Type} {f : State × β → α → State × β} (hf : ∀ p a, p.1.Canonical G K → (f p a).1.Canonical G K) {p : State × β}
    (hs : p.1.Canonical G K) {l : List α} : (l.foldl f p).1.Canonical G K := by
  induction l generalizing p with
  | nil => exact hs
  | cons a l ih => exact ih (hf p a hs)

/-- A change of HBM and of what stands beside it. -/
theorem change (hs : s.Canonical G K) (hm : s.gm.wf = true → t.gm.wf = true) (hc : t.cores = s.cores := by rfl) : t.Canonical G K := by
  obtain ⟨gm, core⟩ := hs
  refine ⟨fun g => hm (gm g), fun k c => ?_⟩
  rw [State.core, hc]
  exact core k c

/-- A core replaced by one that is canonical where all cores are. -/
theorem setCore {c : CoreId} {k : Core} (hk : (∀ c, (s.core c).Canonical) → k.Canonical) (hs : s.Canonical G K) : (s.setCore c k).Canonical G K := by
  obtain ⟨gm, core⟩ := hs
  refine ⟨gm, fun a d => ?_⟩
  show (s.cores.set c.val k)[d.val].Canonical
  rw [Vector.getElem_set]
  split
  · exact hk (core a)
  · exact core a d
theorem updCore {c : CoreId} {f : Core → Core} (hf : ∀ k, k.Canonical → (f k).Canonical) (hs : s.Canonical G K) : (s.updCore c f).Canonical G K :=
  setCore (fun all => hf _ (all c)) hs
/-- Every core changed. -/
theorem changeCores (hs : s.Canonical G K) (hc : ∀ c, (∀ c, (s.core c).Canonical) → (t.core c).Canonical) (hg : t.gm = s.gm := by rfl) :
    t.Canonical G K := by
  obtain ⟨gm, core⟩ := hs
  exact ⟨fun g => hg ▸ gm g, fun k c => hc c (core k)⟩

end State.Canonical

/-! ### Outcomes -/

/-- An outcome's state, where it has one, is canonical. -/
def State.Keeps (G K : Prop) : Host.Outcome State Fault Refusal → Prop
  | .next t => t.Canonical G K
  | _ => True

namespace State.Keeps

variable {G K : Prop} {s t : State}

theorem next (hs : s.Canonical G K) : State.Keeps G K (.next s) := hs
theorem ite {p : Prop} [Decidable p] {a b : Host.Outcome State Fault Refusal} (ha : State.Keeps G K a) (hb : State.Keeps G K b) :
    State.Keeps G K (if p then a else b) := by
  split <;> assumption

end State.Keeps

end Sys2Proof.Machine

/-! What each operation on states leaves canonical (log entry 3). -/

namespace Sys2Proof.Machine

-- many short proofs: one after the other they need no thread each
set_option Elab.async false

variable {G K : Prop}

/-! ### The state -/

theorem State.Canonical.reset : State.reset.Canonical G K :=
  ⟨fun _ => rfl, fun _ c => by
    show (Vector.replicate 256 ({} : Core))[c.val].Canonical
    rw [Vector.getElem_replicate]
    exact Core.canonical_iff.mpr ⟨rfl, rfl, rfl, rfl, rfl, rfl⟩⟩

/-! ### Operations that units share -/

theorem Core.Canonical.setStrand {k : Core} {st : StrandId} {t : Strand} (hk : k.Canonical) : (k.setStrand st t).Canonical := .same hk

theorem State.Canonical.updStrand {s : State} {c : CoreId} {st : StrandId} {f : Strand → Strand} (hs : s.Canonical G K) :
    (s.updStrand c st f).Canonical G K :=
  .updCore (fun _ hk => .setStrand hk) hs

theorem State.Canonical.updBinding {s : State} {bid : Nat} {f : Binding → Binding} (hs : s.Canonical G K) : (s.updBinding bid f).Canonical G K :=
  .same hs

theorem State.Canonical.post {s : State} {k : Clock} {due prio : Nat} {w : Work} (hs : s.Canonical G K) : (s.post k due prio w).Canonical G K :=
  .same hs

theorem State.Canonical.later {s : State} {c : CoreId} {st : StrandId} {d prio : Nat} {w : Work} (hs : s.Canonical G K) :
    (s.later c st d prio w).Canonical G K :=
  .post hs

theorem State.Canonical.laterOn {s : State} {k : Clock} {d prio : Nat} {w : Work} (hs : s.Canonical G K) : (s.laterOn k d prio w).Canonical G K :=
  .post hs

theorem State.Canonical.draw {s : State} (hs : s.Canonical G K) : s.draw.2.Canonical G K := .same hs

theorem State.Canonical.sometime {s : State} {w : Work} {prio : Nat} (hs : s.Canonical G K) : (s.sometime w prio).Canonical G K := .post (.same hs)

theorem State.Canonical.retestRecords {s : State} (hs : s.Canonical G K) : s.retestRecords.Canonical G K := .ite hs (.sometime hs)

theorem Core.Canonical.roundStoch {k : Core} {r : Result} (hk : k.Canonical) : (k.roundStoch r).1.Canonical := .foldl_fst (fun _ _ ha => .same ha) hk

theorem Core.Canonical.roundFlights {k : Core} {fs : List Flight} (hk : k.Canonical) : (k.roundFlights fs).1.Canonical := by
  unfold Core.roundFlights
  refine foldl_fst (fun p f h => ?_) hk
  exact roundStoch h

theorem Core.Canonical.heal {k : Core} {store : Fin 9} {ps : List Nat} (hk : k.Canonical) : (k.heal store ps).Canonical := .ite hk (.same hk)

theorem Core.Canonical.writeReg {k : Core} {st : StrandId} {r : Result} (hk : k.Canonical) : (k.writeReg st r).Canonical := by
  unfold Core.writeReg
  split
  · exact hk
  · exact .setStrand hk
  · exact .same (.heal hk)
  · exact .ite hk (.same hk)
  · exact .same hk

theorem State.Canonical.raise {s : State} {c : CoreId} {st : StrandId} {f : BitVec 6} (hs : s.Canonical G K) : (s.raise c st f).Canonical G K :=
  .ite hs (.post hs)

theorem Core.Canonical.updFifo {k : Core} {f : Fin 8} {g : Fifo → Fifo} (hk : k.Canonical) : (k.updFifo f g).Canonical := .same hk

theorem State.Canonical.push {s : State} {c : CoreId} {st : StrandId} {p n : Nat} (hs : s.Canonical G K) : (s.push c st p n).Canonical G K :=
  .updCore (fun _ hk => .updFifo (.updFifo hk)) hs

theorem State.Canonical.addHold {s : State} {c : CoreId} {st : StrandId} {h : Hold} (hs : s.Canonical G K) : (s.addHold c st h).Canonical G K :=
  .updStrand hs

theorem State.Canonical.fence {s : State} {c : CoreId} {st : StrandId} {form : FenceForm} {sc : Scope} {p n : Bool} (hs : s.Canonical G K) :
    (s.fence c st form sc p n).Canonical G K :=
  .later (.addHold hs)

theorem State.Canonical.access {s : State} {c : CoreId} {st : StrandId} {load : Bool} {unit : MemUnit} {vas : List (Nat × Nat)}
    (hs : s.Canonical G K) :
    (s.access c st load unit vas).Canonical G K :=
  .updStrand hs

theorem State.Canonical.coreDone {s : State} {c : CoreId} {st : StrandId} {seq : Nat} (hs : s.Canonical G K) : (s.coreDone c st seq).Canonical G K :=
  .updStrand hs

theorem State.Canonical.accessDone {s : State} {c : CoreId} {st : StrandId} {seq : Nat} (hs : s.Canonical G K) :
    (s.accessDone c st seq).Canonical G K :=
  .updStrand hs

theorem State.Canonical.judgeHolds {s : State} {c : CoreId} {st : StrandId} (hs : s.Canonical G K) : (s.judgeHolds c st).Canonical G K := by
  unfold State.judgeHolds
  dsimp only
  split
  · exact .updStrand (.foldl (fun _ _ ha => .push ha) hs)
  · exact .later (.updStrand (.foldl (fun _ _ ha => .push ha) hs))

theorem State.Canonical.discarded {s : State} {c : CoreId} {st : StrandId} {payload : Word} (hs : s.Canonical G K) :
    (s.discarded c st payload).Canonical G K :=
  .same hs

theorem State.Canonical.dropInterrupt {s : State} {c : CoreId} {st : StrandId} (hs : s.Canonical G K) : (s.dropInterrupt c st).Canonical G K := by
  unfold State.dropInterrupt
  split
  · exact .updStrand (.discarded hs)
  · exact hs

theorem State.Canonical.interruptTo {s : State} {c : CoreId} {st : StrandId} {src : Bool} {payload : Word} (hs : s.Canonical G K) :
    (s.interruptTo c st src payload).Canonical G K :=
  .ite (.discarded hs) (.updStrand hs)

theorem State.Canonical.capture {s : State} {c : CoreId} {sel : Nat} {st : Option StrandId} {v : Nat} (hs : s.Canonical G K) :
    (s.capture c sel st v).Canonical G K := by
  unfold State.capture
  refine .foldl (fun _ _ ha => ?_) hs
  dsimp only
  split
  · split
    · exact .interruptTo (.draw (.updCore (fun _ hk => .same hk) ha))
    · exact .updCore (fun _ hk => .same hk) ha
  · exact ha

theorem State.Canonical.conflict {s : State} {lo n : Nat} (hs : s.Canonical G K) : (s.conflict lo n).Canonical G K := .same hs

theorem State.Canonical.setUnitMem {s : State} {u : MemUnit} {m : Mem} (hm : (s.unitMem u).wf = true → m.wf = true) (hs : s.Canonical G K) :
    (s.setUnitMem u m).Canonical G K := by
  cases u with
  | ls c =>
    refine .setCore (fun all => ?_) hs
    obtain ⟨ls, rest⟩ := Core.canonical_iff.mp (all c)
    exact Core.canonical_iff.mpr ⟨hm ls, rest⟩
  | gm => exact .change hs hm
  | xm d => exact hs

theorem State.Canonical.setWordAt {s : State} {p : Place} {ofs : Nat} {w : Word} (hs : s.Canonical G K) : (s.setWordAt p ofs w).Canonical G K := by
  unfold State.setWordAt
  dsimp only
  have written : (s.setUnitMem p.unit ((s.unitMem p.unit).setWord (p.addr + ofs) w)).Canonical G K := .setUnitMem (fun h => Mem.wf_setWord h _ _) hs
  split
  · exact .conflict written
  · exact written

theorem State.Canonical.setRecord {s : State} {id : Nat} {cond : Nat} {linked : Bool} {next : Nat} {opnd : Word} (hs : s.Canonical G K) :
    (s.setRecord id cond linked next opnd).Canonical G K :=
  .setWordAt (.setWordAt hs)

theorem State.Canonical.link {s : State} {p : Place} {ofs id cond : Nat} {opnd : Word} (hs : s.Canonical G K) :
    (s.link p ofs id cond opnd).Canonical G K :=
  .ite (.setWordAt (.setRecord hs)) (.setWordAt (.setWordAt (.setRecord hs)))

theorem State.Canonical.requeue_relink {s : State} {id nxt : Nat} (hs : s.Canonical G K) : (State.requeue.relink s id nxt).Canonical G K :=
  .setWordAt hs

theorem State.Canonical.requeue_chain {s : State} {ids : List Nat} (hs : s.Canonical G K) : (State.requeue.chain s ids).Canonical G K := by
  induction ids generalizing s with
  | nil => exact hs
  | cons id rest ih =>
    cases rest with
    | nil => exact .requeue_relink hs
    | cons next rest => exact ih (.requeue_relink hs)

theorem State.Canonical.requeue {s : State} {p : Place} {ofs : Nat} {keep drop : List Nat} (hs : s.Canonical G K) :
    (s.requeue p ofs keep drop).Canonical G K :=
  .setWordAt (.requeue_chain (.foldl (fun _ _ h => .setWordAt h) hs))

theorem State.Canonical.freeze {s : State} {bid : Nat} (hs : s.Canonical G K) : (s.freeze bid).Canonical G K := by
  unfold State.freeze
  split
  · exact hs
  · split <;> exact .updBinding hs

theorem State.Canonical.event {s : State} {kind : Nat} {words : List Word} (hs : s.Canonical G K) : (s.event kind words).Canonical G K := by
  unfold State.event
  dsimp only
  split
  · exact .same hs
  · exact .ite (.same hs) (.same hs)

theorem State.Canonical.errorRecord {s : State} {src : Fin 9} {addr bid unit : Nat} (hs : s.Canonical G K) :
    (s.errorRecord src addr bid unit).Canonical G K :=
  .event (.same hs)

theorem State.Canonical.recall {s : State} {c : CoreId} {st : StrandId} {ord : Nat} (hs : s.Canonical G K) : (s.recall c st ord).Canonical G K :=
  .same hs

theorem State.Canonical.abandon {s : State} {c : CoreId} {st : StrandId} (hs : s.Canonical G K) : (s.abandon c st).Canonical G K := by
  unfold State.abandon
  split
  · exact hs
  · split
    · exact .updStrand hs
    · refine .updStrand (.updCore (fun _ hk => .updFifo (.updFifo hk)) (.updCore (fun _ hk => .foldr (fun _ _ hk' => .updFifo hk') hk) ?_))
      split
      · exact .recall hs
      · exact .updCore (fun _ hk => .same hk) (.same hs)
      · exact .ite (.requeue hs) hs
      · exact hs

theorem State.Canonical.doubleTrap {s : State} {c : CoreId} {st : StrandId} (hs : s.Canonical G K) : (s.doubleTrap c st).Canonical G K :=
  .sometime (.freeze (.updStrand hs))

theorem State.Canonical.dispose {s : State} {c : CoreId} {st : StrandId} {i : TrapInfo} (hs : s.Canonical G K) : (s.dispose c st i).Canonical G K :=
  .ite (.sometime hs) (.ite (.sometime hs) (.ite (.sometime hs) hs))

theorem State.Canonical.enterTrap {s : State} {c : CoreId} {st : StrandId} {i : TrapInfo} (hs : s.Canonical G K) :
    (s.enterTrap c st i).Canonical G K :=
  .updStrand (.setCore (fun a => .roundFlights (a _)) hs)

theorem State.Canonical.enterNested {s : State} {c : CoreId} {st : StrandId} {src : Bool} {payload : Word} (hs : s.Canonical G K) :
    (s.enterNested c st src payload).Canonical G K :=
  .updStrand (.setCore (fun all => .roundFlights (all _)) hs)

theorem State.Canonical.trap {s : State} {c : CoreId} {st : StrandId} {i : TrapInfo} (hs : s.Canonical G K) : (s.trap c st i).Canonical G K :=
  .ite (.doubleTrap hs) (.dispose (.enterTrap (.abandon hs)))

theorem State.Canonical.returnNested {s : State} {c : CoreId} {st : StrandId} {r : Frame} {rest : List Frame} (hs : s.Canonical G K) :
    (s.returnNested c st r rest).Canonical G K :=
  .foldl (fun _ _ ha => .post ha) (.updStrand hs)

theorem State.Canonical.returnUser {s : State} {c : CoreId} {st : StrandId} (hs : s.Canonical G K) : (s.returnUser c st).Canonical G K :=
  .foldl (fun _ _ ha => .post ha) (.updStrand hs)

theorem State.Canonical.returnFrom {s : State} {c : CoreId} {st : StrandId} (hs : s.Canonical G K) : (s.returnFrom c st).Canonical G K := by
  unfold State.returnFrom
  split
  · exact .returnUser hs
  · exact .returnNested hs

theorem State.Canonical.fly {s : State} {c : CoreId} {st : StrandId} {lat : Nat} {r : Result} {ready arith : Bool} (hs : s.Canonical G K) :
    (s.fly c st lat r ready arith).Canonical G K :=
  .ite (.post (.updStrand hs)) (.updStrand hs)

theorem State.Canonical.slip {s : State} {c : CoreId} {st : StrandId} {ord : Nat} (hs : s.Canonical G K) : (s.slip c st ord).Canonical G K :=
  .updStrand hs

theorem State.Canonical.arrive {s : State} {c : CoreId} {st : StrandId} {ord : Nat} {data : VecData} {flags : BitVec 6} {poison : Option
    (Fin 9 × Nat)} (hs : s.Canonical G K) :
    (s.arrive c st ord data flags poison).Canonical G K := by
  unfold State.arrive
  dsimp only
  split
  · exact .updStrand hs
  · exact .post (.updStrand hs)

theorem State.Canonical.pushFor {s : State} {c : CoreId} {st : StrandId} {ord : Nat} {p n : Bool} (hs : s.Canonical G K) :
    (s.pushFor c st ord p n).Canonical G K :=
  .ite hs (.ite (.updStrand hs) (.push hs))

theorem State.Canonical.endWait {s : State} {c : CoreId} {st : StrandId} {extra : Nat} (hs : s.Canonical G K) :
    (s.endWait c st extra).Canonical G K := by
  unfold State.endWait
  split
  · exact hs
  · dsimp only
    split
    · exact .pushFor (.updStrand hs)
    · exact .pushFor (.updStrand hs)
    · exact .capture (.pushFor (.updStrand hs))
    · exact .capture (.pushFor (.updStrand hs))

/-! ### Translation -/

theorem State.Canonical.touch {s : State} {c : CoreId} {va : Nat} (hs : s.Canonical G K) : (s.touch c va).Canonical G K := by
  unfold State.touch
  extract_lets k asid
  split
  · exact hs
  · split
    next n t eq =>
    have ht := of_pair' eq (.draw hs)
    split
    · exact .updCore (fun _ hk => .same hk) ht
    · split
      · exact .updCore (fun _ hk => .same hk) ht
      · extract_lets e walked
        have hwalked : walked.Canonical G K := .updCore (fun _ hk => .same hk) ht
        clear_value walked
        exact .same hwalked

theorem State.Canonical.tlbRemoveAll {s : State} {kind : TlbKind} {asid va bits : Nat} (hs : s.Canonical G K) :
    (s.tlbRemoveAll kind asid va bits).Canonical G K := by
  refine .changeCores hs fun c all => ?_
  show Core.Canonical (Vector.map _ s.cores)[c.val]
  rw [Vector.getElem_map]
  exact .same (all c)

theorem State.Canonical.toQuarantine {s : State} {page bits : Nat} (hs : s.Canonical G K) : (s.toQuarantine page bits).Canonical G K :=
  .ite (.same hs) (.same hs)

theorem State.Canonical.startInval {s : State} {issuer : Option (CoreId × StrandId)} {id : Nat} {kind : TlbKind} {asid va bits : Nat}
    (hs : s.Canonical G K) :
    (s.startInval issuer id kind asid va bits).Canonical G K :=
  .same (.tlbRemoveAll hs)

theorem State.Canonical.ownInval {s : State} {asid va bits : Nat} (hs : s.Canonical G K) : (s.ownInval asid va bits).Canonical G K :=
  .startInval (.same hs)

/-! ### Channels -/

theorem State.Canonical.updStoker {s : State} {sk : Fin 384} {f : Stoker → Stoker} (hs : s.Canonical G K) : (s.updStoker sk f).Canonical G K :=
  .same hs

theorem State.Canonical.serveAs {s : State} {cls : Traffic} {engine : Bool} {as : List Nat} (hs : s.Canonical G K) :
    (s.serveAs cls engine as).1.Canonical G K := by
  unfold State.serveAs
  dsimp only
  split
  · exact .foldl (fun _ _ ha => .updStoker ha) (.same hs)
  · exact .foldl (fun _ _ ha => .updStoker ha) hs

theorem State.Canonical.serve {s : State} {cls : Traffic} {as : List Nat} (hs : s.Canonical G K) : (s.serve cls as).1.Canonical G K := .serveAs hs

theorem State.Canonical.serveEngine {s : State} {as : List Nat} (hs : s.Canonical G K) : (s.serveEngine as).1.Canonical G K := .serveAs hs

/-! ### Issue -/

theorem State.Canonical.stallBlocked {s : State} {c : CoreId} {st : StrandId} {b : Nat × Word × Nat} {waited : Nat} (hs : s.Canonical G K) :
    (s.stallBlocked c st b waited).Canonical G K :=
  .trap (.capture hs)

theorem State.Canonical.stallWait {s : State} {c : CoreId} {st : StrandId} {w : Wait} (hs : s.Canonical G K) : (s.stallWait c st w).Canonical G K :=
  .trap (.capture hs)

theorem State.Canonical.advance {s : State} {c : CoreId} {st : StrandId} {h : Hdr} {r : Req} (hs : s.Canonical G K) :
    (s.advance c st h r).Canonical G K :=
  .updCore (fun _ hk => .setStrand (.foldl (fun _ _ hp => .updFifo hp) (.foldl (fun _ _ hp => .updFifo hp) hk))) hs

theorem State.Canonical.issued {s : State} {c : CoreId} {st : StrandId} {h : Hdr} {r : Req} (hs : s.Canonical G K) :
    (s.issued c st h r).Canonical G K :=
  .advance (.ite (.capture hs) hs)

theorem State.Canonical.issueFault {s : State} {c : CoreId} {st : StrandId} {f : TrapInfo} (hs : s.Canonical G K) :
    (s.issueFault c st f).Canonical G K :=
  .trap (.ite (.touch hs) hs)

theorem State.Canonical.attempt {s : State} {c : CoreId} {st : StrandId} {h : Hdr} {r : Req} {act : Turn → State → State}
    (hact : ∀ u s, s.Canonical G K → (act u s).Canonical G K) (hs : s.Canonical G K) : (s.attempt c st h r act).Canonical G K := by
  unfold State.attempt
  dsimp only
  split
  · exact hs
  · split
    · exact .trap hs
    · split
      · split
        · exact .trap hs
        · split
          · exact hs
          · split
            · exact .trap hs
            · exact .issueFault hs
            · exact hact _ _ (.issued hs)
      · split
        · exact .stallBlocked hs
        · split
          · exact .updStrand hs
          · exact .issueFault hs
          · exact hact _ _ (.issued hs)

theorem State.Canonical.pushNow {s : State} {u : Turn} (hs : s.Canonical G K) : (s.pushNow u).Canonical G K := .ite (.later hs) hs

theorem State.Canonical.result {s : State} {u : Turn} {lat : Nat} {r : Result} (hs : s.Canonical G K) : (s.result u lat r).Canonical G K := .fly hs

theorem State.Canonical.resultLater {s : State} {u : Turn} {lat : Nat} {r : Result} (hs : s.Canonical G K) : (s.resultLater u lat r).Canonical G K :=
  .fly hs

theorem State.Canonical.resultRead {s : State} {u : Turn} {lat : Nat} {r : Result} (hs : s.Canonical G K) : (s.resultRead u lat r).Canonical G K :=
  .fly hs

theorem State.Canonical.xres {s : State} {u : Turn} {lat : Nat} {d : XReg} {v : Word} (hs : s.Canonical G K) : (s.xres u lat d v).Canonical G K :=
  .result hs

theorem State.Canonical.waitFor {s : State} {u : Turn} {why : Why} {d : XReg} {acq : Bool} {cond : Nat} (hs : s.Canonical G K) :
    (s.waitFor u why d acq cond).Canonical G K :=
  .updStrand hs

theorem State.Canonical.goto {s : State} {u : Turn} {pos : Nat} {reach : Reach} (hs : s.Canonical G K) : (s.goto u pos reach).Canonical G K :=
  .updStrand hs

theorem State.Canonical.noEffect {u : Turn} {s : State} (hs : s.Canonical G K) : (noEffect u s).Canonical G K := .pushNow hs

/-! ### Units and the memory queue -/

theorem State.Canonical.grant {s t : State} {c : CoreId} {banks : List Nat} (eq : s.grant c banks = some t) (hs : s.Canonical G K) :
    t.Canonical G K := by
  unfold State.grant at eq
  obtain ⟨-, eq⟩ := Option.ite_none_left_eq_some.mp eq
  exact Option.some.inj eq ▸ .updCore (fun _ hk => .same hk) hs

theorem State.Canonical.claim {s : State} {c : CoreId} {banks : List Nat} (hs : s.Canonical G K) : (s.claim c banks).Canonical G K :=
  .updCore (fun _ hk => .same hk) hs

theorem State.Canonical.countCorrected {s : State} {store : Fin 9} {n : Nat} (hs : s.Canonical G K) : (s.countCorrected store n).Canonical G K :=
  .same hs

theorem State.Canonical.countPlaces {s : State} {c : CoreId} {store : Fin 9} {ps : List Nat} (hs : s.Canonical G K) :
    (s.countPlaces c store ps).Canonical G K :=
  .ite hs (.countCorrected hs)

theorem State.Canonical.countLs {s : State} {c : CoreId} {as : List Nat} (hs : s.Canonical G K) : (s.countLs c as).Canonical G K := .countPlaces hs

theorem State.Canonical.deliver {s : State} {u : MemUnit} {id : Nat} {v : Word} (hs : s.Canonical G K) : (s.deliver u id v).Canonical G K := by
  unfold State.deliver
  split
  · split
    · exact hs
    · dsimp only
      split
      · exact .later (.updStrand hs)
      · exact .sometime (.updStrand hs)

theorem State.Canonical.checkBarrier {s : State} {p : Place} (hs : s.Canonical G K) : (s.checkBarrier p).Canonical G K := by
  unfold State.checkBarrier
  dsimp only
  split
  · split
    · exact .setWordAt (.setWordAt hs)
    · exact .foldl (fun _ _ ha => .deliver ha) (.requeue (.setWordAt (.setWordAt hs)))
  · exact hs

theorem State.Canonical.arriveAt {s : State} {p : Place} (hs : s.Canonical G K) : (s.arriveAt p).Canonical G K :=
  .checkBarrier (.ite (.setWordAt hs) (.setWordAt hs))

theorem State.Canonical.addPending {s : State} {p : Place} {n : Nat} (hs : s.Canonical G K) : (s.addPending p n).Canonical G K := .setWordAt hs

theorem State.Canonical.countAt {s : State} {p : Place} {n : Nat} {err : Bool} (hs : s.Canonical G K) : (s.countAt p n err).Canonical G K :=
  .checkBarrier (.addPending (.ite (.setWordAt hs) hs))

theorem State.Canonical.initBarrier {s : State} {p : Place} {tgt : Word32} {ph : BitVec 16} (hs : s.Canonical G K) :
    (s.initBarrier p tgt ph).Canonical G K :=
  .foldl (fun _ _ ha => .deliver ha) (.requeue (.setWordAt (.setWordAt (.setWordAt hs))))

theorem State.Canonical.retestWord {s : State} {p : Place} (hs : s.Canonical G K) : (s.retestWord p).Canonical G K :=
  .ite hs (.foldl (fun _ _ ha => .deliver ha) (.requeue hs))

theorem State.Canonical.retest {s : State} {u : MemUnit} {lo n : Nat} (hs : s.Canonical G K) : (s.retest u lo n).Canonical G K :=
  .foldl (fun _ _ ha => .retestWord ha) hs

theorem State.Canonical.wake {s : State} {p : Place} {n : Nat} (hs : s.Canonical G K) : (s.wake p n).1.Canonical G K := by
  unfold State.wake
  dsimp only
  split
  · exact hs
  · exact .foldl (fun _ _ ha => .deliver ha) (.requeue hs)

theorem State.Canonical.writeUnit {s : State} {u : MemUnit} {a : Nat} {bs : List Byte} (hs : s.Canonical G K) :
    (s.writeUnit u a bs).Canonical G K := by
  cases u with
  | ls c =>
    refine .updCore (fun k hk => ?_) hs
    obtain ⟨ls, rest⟩ := Core.canonical_iff.mp hk
    exact Core.canonical_iff.mpr ⟨Mem.wf_write ls _ _, rest⟩
  | gm => exact .conflict (.change hs fun h => Mem.wf_write h _ _)
  | xm d => exact hs

theorem State.Canonical.storeAt {s : State} {u : MemUnit} {a : Nat} {bs : List Byte} (hs : s.Canonical G K) : (s.storeAt u a bs).Canonical G K :=
  .ite hs (.retest (.writeUnit hs))

theorem State.Canonical.scatterAt {s : State} {u : MemUnit} {bs : List (Nat × Byte × Byte)} (hs : s.Canonical G K) :
    (s.scatterAt u bs).Canonical G K :=
  .foldl (fun _ _ ha => .retest ha) (.foldl (fun _ _ hp => .writeUnit hp) hs)

theorem State.Canonical.pick {α : Type} {s : State} {ws : List α} (hs : s.Canonical G K) : (s.pick ws).2.Canonical G K := by
  unfold State.pick
  split
  · exact hs
  · exact .same hs

theorem State.Canonical.tear {α : Type} {s : State} {addr : α → Nat} {ps : List α} (hs : s.Canonical G K) : (s.tear addr ps).2.Canonical G K :=
  .pick hs

theorem State.Canonical.again {s : State} {a : Access} (hs : s.Canonical G K) : (s.again a).Canonical G K := .laterOn hs

theorem State.Canonical.leaveQueue {s : State} {clk : Clock} {lat prio : Nat} {far : Bool} {w : Work} (hs : s.Canonical G K) :
    (s.leaveQueue clk lat prio far w).Canonical G K :=
  .ite (.sometime hs) (.laterOn hs)

theorem State.Canonical.dispatch {s : State} {c : CoreId} {st : StrandId} {ord seq : Nat} {storing : Bool} {needs : List Need} {lat prio : Nat}
    {far : Bool} {w : Work} (hs : s.Canonical G K) :
    (s.dispatch c st ord seq storing needs lat prio far w).Canonical G K :=
  .ite (.leaveQueue hs) (.later hs)

theorem State.Canonical.judgeQueued {s : State} {clk : Clock} {c : CoreId} {st : StrandId} {ord seq : Nat} {storing : Bool} {needs : List Need}
    {lat prio : Nat} {far : Bool} {w : Work} (hs : s.Canonical G K) :
    (s.judgeQueued clk c st ord seq storing needs lat prio far w).Canonical G K :=
  .ite (.slip (.laterOn hs)) (.leaveQueue hs)

theorem State.Canonical.pushAccess {s : State} {a : Access} (hs : s.Canonical G K) : (s.pushAccess a).Canonical G K := .ite (.laterOn hs) hs

theorem State.Canonical.dueIn {s : State} {c : CoreId} {st : StrandId} {ord lat : Nat} (hs : s.Canonical G K) :
    (s.dueIn c st ord lat).Canonical G K :=
  .updStrand hs

theorem State.Canonical.operate {s : State} {p : Place} {o : UnitOp} (hs : s.Canonical G K) : (s.operate p o).1.Canonical G K := by
  cases o with
  | write bs => exact .storeAt hs
  | scatter bs => exact .scatterAt hs
  | atomic o v cmp d => exact .storeAt hs
  | binit tgt ph => exact .initBarrier hs
  | barr => exact .arriveAt hs
  | wset v => exact .storeAt hs
  | wwake n d => exact .wake hs
  | npost n => exact .retestRecords (.storeAt hs)

theorem State.Canonical.endBinding {s : State} {bid status : Nat} (hs : s.Canonical G K) : (s.endBinding bid status).Canonical G K := by
  unfold State.endBinding
  dsimp only
  split
  · exact .updBinding hs
  · exact .foldl (fun _ _ ha => .ite ha (.foldl (fun _ _ ha' => .dropInterrupt ha') ha)) (.updBinding hs)

theorem State.Canonical.unsample {s : State} {b : Binding} {va bits : Nat} (hs : s.Canonical G K) : (s.unsample b va bits).Canonical G K :=
  .foldl (fun _ _ ha => .updCore (fun _ hk => .same hk) (.foldl (fun _ _ hp => .ite (.updStrand hp) hp) ha)) hs

theorem State.Canonical.fillShadow {s : State} {bid va : Nat} (hs : s.Canonical G K) : (s.fillShadow bid va).Canonical G K := by
  unfold State.fillShadow
  split
  · exact hs
  · split
    · exact hs
    · dsimp only
      split
      · split
        · exact .endBinding hs
        · split
          · exact hs
          · exact .ownInval (.updBinding (.unsample (.change hs (fun h => Mem.wf_setWord h _ _))))
      · split
        · exact .endBinding hs
        · split
          · exact hs
          · exact .ownInval (.updBinding (.unsample (.change hs (fun h => Mem.wf_setWord h _ _))))

theorem State.Canonical.copyShadow {s : State} {bid : Nat} {h : Shadow} (hs : s.Canonical G K) : (s.copyShadow bid h).Canonical G K :=
  .updBinding (.change hs (fun h => Mem.wf_write h _ _))

theorem State.Canonical.shadowed {s : State} {c : CoreId} {va pa : Nat} (hs : s.Canonical G K) : (s.shadowed c va pa).1.Canonical G K := by
  unfold State.shadowed
  split
  · exact hs
  · split
    · exact hs
    · exact .ite hs (.fillShadow hs)

theorem State.Canonical.resample {s : State} {a : Access} {keep : Bool} (hs : s.Canonical G K) : (s.resample a keep).Canonical G K := .updStrand hs

theorem State.Canonical.farResult {s : State} {a : Access} {v : Word} (hs : s.Canonical G K) : (s.farResult a v).Canonical G K :=
  .ite (.post hs) (.arrive (.dueIn (.pushAccess hs)))

theorem State.Canonical.loseAccess {s : State} {a : Access} (hs : s.Canonical G K) : (s.loseAccess a).Canonical G K :=
  .ite (.trap (.accessDone hs)) (.endBinding (.accessDone hs))

theorem State.Canonical.performAt {s : State} {a : Access} {p : Nat} (hs : s.Canonical G K) : (s.performAt a p).Canonical G K := by
  unfold State.performAt
  dsimp only
  split
  · split
    · next eq => exact .post (.of_pair eq (.serve (.tear hs)))
    · next eq' =>
        split
        · exact .accessDone (.scatterAt (.of_pair eq' (.serve (.tear hs))))
        · exact .sometime (.scatterAt (.of_pair eq' (.serve (.tear hs))))
  · split
    · next eq => exact .post (.of_pair eq (.serve hs))
    · next eq' =>
        split
        · exact .farResult (.raise (.operate (.accessDone (.of_pair eq' (.serve hs)))))
        · split
          · exact .raise (.operate (.accessDone (.of_pair eq' (.serve hs))))
          · exact .pushAccess (.raise (.operate (.accessDone (.of_pair eq' (.serve hs)))))

theorem State.Canonical.refuseAccess {s : State} {a : Access} {i : TrapInfo} (hs : s.Canonical G K) : (s.refuseAccess a i).Canonical G K := by
  unfold State.refuseAccess
  dsimp only
  split
  · exact .trap (.accessDone hs)
  · exact .endBinding (.event (.ite (.accessDone hs) (.pushAccess (.accessDone hs))))

theorem State.Canonical.performXm {s : State} {a : Access} {dev : Nat} (hs : s.Canonical G K) : (s.performXm a dev).Canonical G K := by
  unfold State.performXm
  dsimp only
  split
  · split
    · split
      · exact .refuseAccess (.errorRecord hs)
      · exact .performAt hs
    · exact .refuseAccess hs
    · exact .refuseAccess hs
  · split
    · exact .loseAccess hs
    · split
      · exact .refuseAccess (.draw (.draw hs))
      · split
        · exact .farResult (.raise (.accessDone (.draw hs)))
        · exact .ite (.raise (.accessDone (.draw hs))) (.pushAccess (.raise (.accessDone (.draw hs))))

theorem State.Canonical.performAccess {s : State} {a : Access} (hs : s.Canonical G K) : (s.performAccess a).Canonical G K := by
  unfold State.performAccess
  split
  · split
    · dsimp only
      split
      · exact .slip (.again hs)
      · next eq'' =>
          split
          · exact .again (.operate (.grant ((Option.ite_none_left_eq_some.mp eq'').2) hs))
          · split
            · refine .arrive ?_
              split
              · exact .pushAccess (.raise (.accessDone (.operate (.grant ((Option.ite_none_left_eq_some.mp eq'').2) hs))))
              · exact .raise (.accessDone (.operate (.grant ((Option.ite_none_left_eq_some.mp eq'').2) hs)))
            · exact .pushAccess (.raise (.accessDone (.operate (.grant ((Option.ite_none_left_eq_some.mp eq'').2) hs))))
  · split
    · exact .ite (.again hs) (.sometime (.ite (.pushAccess (.ite (.coreDone hs) hs)) (.ite (.coreDone hs) hs)))
    · split
      · exact .post hs
      · split
        · exact .performXm hs
        · split
          · next eq'''' =>
              refine .post (.resample (.of_pair eq'''' ?_))
              split
              · exact hs
              · exact .shadowed hs
          · next eq'''' =>
              dsimp only
              split
              · refine .refuseAccess (.errorRecord (.resample (.of_pair eq'''' ?_)))
                split
                · exact hs
                · exact .shadowed hs
              · refine .performAt (.resample (.of_pair eq'''' ?_))
                split
                · exact hs
                · exact .shadowed hs
          · next eq'''' =>
              refine .accessDone (.of_pair eq'''' ?_)
              split
              · exact hs
              · exact .shadowed hs
  · split
    · exact .ite (.again hs) (.sometime (.ite (.pushAccess (.ite (.coreDone hs) hs)) (.ite (.coreDone hs) hs)))
    · split
      · exact .post hs
      · split
        · exact .performXm hs
        · split
          · next eq'''' =>
              refine .post (.resample (.of_pair eq'''' ?_))
              split
              · exact hs
              · exact .shadowed hs
          · next eq'''' =>
              dsimp only
              split
              · refine .refuseAccess (.errorRecord (.resample (.of_pair eq'''' ?_)))
                split
                · exact hs
                · exact .shadowed hs
              · refine .performAt (.resample (.of_pair eq'''' ?_))
                split
                · exact hs
                · exact .shadowed hs
          · next eq'''' =>
              refine .accessDone (.of_pair eq'''' ?_)
              split
              · exact hs
              · exact .shadowed hs

theorem State.Canonical.readLs {s : State} {r : LsRead} (hs : s.Canonical G K) : (s.readLs r).Canonical G K := by
  unfold State.readLs
  dsimp only
  split
  · exact hs
  · split
    · exact .slip (.post hs)
    · next eq' =>
        split
        · exact .accessDone (.countLs (.grant ((Option.ite_none_left_eq_some.mp eq').2) hs))
        · split
          · exact .arrive (.updStrand (.accessDone (.countLs (.grant ((Option.ite_none_left_eq_some.mp eq').2) hs))))
          · exact .post (.updStrand (.countLs (.grant ((Option.ite_none_left_eq_some.mp eq').2) hs)))

theorem State.Canonical.memErr {s : State} {c : CoreId} {st : StrandId} {store : Fin 9} {addr pos : Nat} (hs : s.Canonical G K) :
    (s.memErr c st store addr pos).Canonical G K :=
  .trap (.errorRecord hs)

theorem State.Canonical.farData {s : State} {c : CoreId} {w : Wait} {dev : Option Nat} {cells : List (Nat × Nat)} (hs : s.Canonical G K) :
    (s.farData c w dev cells).1.Canonical G K := by
  unfold State.farData
  dsimp only
  split
  · split
    · exact .errorRecord hs
    · exact .countCorrected hs
  · split
    · split
      · split
        · exact .errorRecord hs
        · exact hs
      · exact hs
      · exact hs
    · split
      · exact hs
      · split
        · split <;> exact .draw (.draw hs)
        · exact .draw hs

theorem State.Canonical.readFar {s : State} {c : CoreId} {st : StrandId} {ord seq : Nat} {dev : Option Nat} {cells : List (Nat × Nat)}
    {sext : Nat} {vas : List Nat} (hs : s.Canonical G K) :
    (s.readFar c st ord seq dev cells sext vas).Canonical G K := by
  unfold State.readFar
  split
  · dsimp only
    split
    · exact hs
    · split
      · exact .post hs
      · split
        · next eq'''' =>
            refine .post (.of_pair eq'''' ?_)
            split
            · exact .serve (.tear hs)
            · exact .tear hs
        · next eq'''' =>
            split
            · next eq''''' =>
                refine .trap (.of_pair eq''''' (.farData (.of_pair eq'''' ?_)))
                split
                · exact .serve (.tear hs)
                · exact .tear hs
            · next eq''''' =>
                split
                · split
                  · refine .endWait (.post (.updStrand (.accessDone (.of_pair eq''''' (.farData (.of_pair eq'''' ?_))))))
                    split <;> exact .serve (.tear hs)
                  · refine .sometime (.updStrand (.of_pair eq''''' (.farData (.of_pair eq'''' ?_))))
                    split <;> exact .serve (.tear hs)
                · split
                  · refine .endWait (.post (.updStrand (.accessDone (.of_pair eq''''' (.farData (.of_pair eq'''' ?_))))))
                    split
                    · exact .serve (.tear hs)
                    · exact .tear hs
                  · refine .sometime (.updStrand (.of_pair eq''''' (.farData (.of_pair eq'''' ?_))))
                    split
                    · exact .serve (.tear hs)
                    · exact .tear hs
  · exact hs

theorem State.Canonical.judgeWait {s : State} {c : CoreId} {st : StrandId} {ord : Nat} {u : MemUnit} {pa : Nat} (hs : s.Canonical G K) :
    (s.judgeWait c st ord u pa).Canonical G K := by
  unfold State.judgeWait
  dsimp only
  split
  · exact hs
  · exact .ite hs (.ite (.later hs) (.updStrand (.link hs)))

theorem State.Canonical.readRemote {s : State} {c : CoreId} {st : StrandId} {ord poll : Nat} (hs : s.Canonical G K) :
    (s.readRemote c st ord poll).Canonical G K :=
  .ite (.arrive (.dueIn (.same hs))) (.ite (.sometime (.same hs)) (.same hs))

theorem State.Canonical.readUnit {s : State} {c : CoreId} {st : StrandId} {ord seq : Nat} {u : MemUnit} {pa poll : Nat} {d : XReg} {prio : Nat}
    (hs : s.Canonical G K) :
    (s.readUnit c st ord seq u pa poll d prio).Canonical G K := by
  unfold State.readUnit
  dsimp only
  split
  · next eq =>
      split
      · refine .slip (.later (.of_pair eq ?_))
        split
        · split
          · next eq => exact .grant ((Option.ite_none_left_eq_some.mp eq).2) hs
          · exact hs
        · split
          · next eq => exact .grant ((Option.ite_none_left_eq_some.mp eq).2) hs
          · exact hs
      · refine .post (.of_pair eq ?_)
        split
        · split
          · next eq => exact .grant ((Option.ite_none_left_eq_some.mp eq).2) hs
          · exact hs
        · split
          · exact hs
          · exact .serve hs
  · next eq =>
      split
      · refine .arrive ?_
        split
        · refine .accessDone (.of_pair eq ?_)
          split
          · split
            · next eq => exact .grant ((Option.ite_none_left_eq_some.mp eq).2) hs
            · exact hs
          · split
            · next eq => exact .grant ((Option.ite_none_left_eq_some.mp eq).2) hs
            · exact hs
        · refine .dueIn (.accessDone (.of_pair eq ?_))
          split
          · split
            · next eq => exact .grant ((Option.ite_none_left_eq_some.mp eq).2) hs
            · exact hs
          · split
            · exact hs
            · exact .serve hs
      · split
        · split
          · refine .judgeWait (.accessDone (.of_pair eq ?_))
            split
            · split
              · next eq => exact .grant ((Option.ite_none_left_eq_some.mp eq).2) hs
              · exact hs
            · split
              · exact hs
              · exact .serve hs
          · refine .post (.accessDone (.of_pair eq ?_))
            split
            · split
              · next eq => exact .grant ((Option.ite_none_left_eq_some.mp eq).2) hs
              · exact hs
            · split
              · exact hs
              · exact .serve hs
        · split
          · refine .judgeWait (.accessDone (.of_pair eq ?_))
            split
            · split
              · next eq => exact .grant ((Option.ite_none_left_eq_some.mp eq).2) hs
              · exact hs
            · split
              · exact hs
              · exact .serve hs
          · refine .post (.accessDone (.of_pair eq ?_))
            split
            · split
              · next eq => exact .grant ((Option.ite_none_left_eq_some.mp eq).2) hs
              · exact hs
            · split
              · exact hs
              · exact .serve hs

theorem State.Canonical.readObject {s : State} {c : CoreId} {st : StrandId} {ord seq : Nat} {u : MemUnit} {pa poll : Nat} {d : XReg} {prio : Nat}
    (hs : s.Canonical G K) :
    (s.readObject c st ord seq u pa poll d prio).Canonical G K := by
  unfold State.readObject
  split
  · dsimp only
    split
    · split
      · exact .readUnit (.updStrand (.accessDone hs))
      · split
        · exact .ite (.trap (.accessDone hs)) (.readRemote (.accessDone hs))
        · exact .readRemote (.accessDone hs)
      · exact .readRemote (.accessDone hs)
    · exact .readRemote (.accessDone hs)
  · exact .readUnit hs

theorem State.Canonical.release {s : State} {c : CoreId} {st : StrandId} {ord : Nat} {v : Word} (hs : s.Canonical G K) :
    (s.release c st ord v).Canonical G K := by
  unfold State.release
  dsimp only
  split
  · exact hs
  · exact .ite hs (.post (.updStrand (.endWait hs)))

theorem State.Canonical.sendAs {s : State} {u : Turn} {unit : MemUnit} {addr va : Nat} {op : UnitOp} {lat prio : Nat} {needs : List Need}
    (hs : s.Canonical G K) :
    (s.sendAs u unit addr va op lat prio needs).Canonical G K :=
  .dispatch (.access hs)

theorem State.Canonical.sendAccess {s : State} {u : Turn} {unit : MemUnit} {addr va : Nat} {op : UnitOp} {lat : Nat} {needs : List Need}
    (hs : s.Canonical G K) :
    (s.sendAccess u unit addr va op lat needs).Canonical G K :=
  .sendAs hs

theorem State.Canonical.sendRead {s : State} {u : Turn} {target : CoreId} {bytes : List (Nat × Nat)} {sext lat cls : Nat} {pops : List
    (Fin 8 × Token)} (hs : s.Canonical G K) :
    (s.sendRead u target bytes sext lat cls pops).Canonical G K :=
  .dispatch (.access hs)

theorem State.Canonical.sendTo {s : State} {u : Turn} {unit : MemUnit} {seq lat : Nat} {storing : Bool} {w : Work} (hs : s.Canonical G K) :
    (s.sendTo u unit seq lat storing w).Canonical G K := by
  unfold State.sendTo
  split <;> exact .dispatch hs

/-! ### Scalar accesses -/

theorem State.Canonical.ordFence {s : State} {u : Turn} {form : FenceForm} {sc : Option Scope} (hs : s.Canonical G K) :
    (s.ordFence u form sc).Canonical G K := by
  unfold State.ordFence
  split
  · exact .fence hs
  · exact hs

theorem State.Canonical.lsLoadEffect {d : XReg} {f : IntFmt} {sc : Option Scope} {target : CoreId} {a rd wr : Nat} {u : Turn} {s : State}
    (hs : s.Canonical G K) :
    (lsLoadEffect d f sc target a rd wr u s).Canonical G K :=
  .ordFence (.resultLater (.sendRead hs))

theorem State.Canonical.farLoadEffect {d : XReg} {f : IntFmt} {sc : Option Scope} {dev : Option Nat} {operand pa : Nat} {u : Turn} {s : State}
    (hs : s.Canonical G K) :
    (farLoadEffect d f sc dev operand pa u s).Canonical G K :=
  .ordFence (.sendTo (.ite (.resultLater (.access (.waitFor hs))) (.touch (.resultLater (.access (.waitFor hs))))))

theorem State.Canonical.farStoreEffect {sc : Option Scope} {unit : MemUnit} {operand pa : Nat} {bytes : List Byte} {u : Turn} {s : State}
    (hs : s.Canonical G K) :
    (farStoreEffect sc unit operand pa bytes u s).Canonical G K :=
  .sendAccess (.ordFence (.ite (.touch hs) hs))

/-! ### Objects and atomics -/

theorem State.Canonical.objWaitEffect {sp : ObjSpace} {d : XReg} {ad cls cond : Nat} {arg : Word} {limit : Option Nat} {acq : Bool}
    {pl : MemUnit × Nat} {u : Turn} {s : State} (hs : s.Canonical G K) :
    (objWaitEffect sp d ad cls cond arg limit acq pl u s).Canonical G K :=
  .sendTo (.access (.ite (.touch (.updStrand (.waitFor hs))) (.updStrand (.waitFor hs))))

theorem State.Canonical.objPollEffect {sp : ObjSpace} {d : XReg} {ad poll : Nat} {ord : Option Scope} {pl : MemUnit × Nat} {u : Turn} {s : State}
    (hs : s.Canonical G K) :
    (objPollEffect sp d ad poll ord pl u s).Canonical G K :=
  .ordFence (.sendTo (.resultLater (.access (.ite (.touch hs) hs))))

theorem State.Canonical.lsAtomicEffect {d : XReg} {o : AtomSpec} {t : CoreId} {ad lat wr : Nat} {v cmp : Word} {u : Turn} {s : State}
    (hs : s.Canonical G K) :
    (lsAtomicEffect d o t ad lat wr v cmp u s).Canonical G K :=
  .ordFence (.sendAccess (.ite (.ordFence hs) (.fly (.ordFence hs))))

theorem State.Canonical.farAtomicEffect {d : XReg} {o : AtomSpec} {unit : MemUnit} {operand pa : Nat} {v cmp : Word} {u : Turn} {s : State}
    (hs : s.Canonical G K) :
    (farAtomicEffect d o unit operand pa v cmp u s).Canonical G K :=
  .ordFence (.sendAccess (.ordFence (.ite (.ite (.touch hs) hs) (.waitFor (.ite (.touch hs) hs)))))

/-! ### The copy unit -/

theorem State.Canonical.copyPage {s : State} {c : CoreId} {va : Nat} {a : Acc} (hs : s.Canonical G K) : (s.copyPage c va a).1.Canonical G K := by
  unfold State.copyPage
  split
  · dsimp only
    split
    · exact .touch hs
    · split
      · next eq => exact .of_pair eq (.shadowed (.touch hs))
      · next eq => exact .of_pair eq (.shadowed (.touch hs))
      · next eq => exact .of_pair eq (.shadowed (.touch hs))
  · exact .endBinding hs
  · exact .touch hs
  · exact hs

theorem State.Canonical.drawBytes {s : State} {len : Nat} (hs : s.Canonical G K) : (s.drawBytes len).2.Canonical G K := .same hs

theorem State.Canonical.barrierPlace {s : State} {c : CoreId} {b : ObjSpace × Nat} (hs : s.Canonical G K) : (s.barrierPlace c b).1.Canonical G K := by
  unfold State.barrierPlace
  split
  · exact hs
  · exact hs
  · split
    · exact .touch hs
    · exact .touch hs
    · exact hs
  · dsimp only
    split
    · split <;> exact hs
    · split
      · exact .endBinding hs
      · exact .draw hs

theorem State.Canonical.aimBarrier {s : State} {p : Copy} {b : Option (ObjSpace × Nat)} (hs : s.Canonical G K) :
    (s.aimBarrier p b).1.Canonical G K := by
  unfold State.aimBarrier
  split
  · exact hs
  · split <;> next eq => exact .of_pair eq (.barrierPlace hs)

theorem State.Canonical.countCopy {s : State} {p : Copy} {n : Nat} {err : Bool} (hs : s.Canonical G K) : (s.countCopy p n err).Canonical G K := by
  unfold State.countCopy
  split
  · exact .countAt hs
  · exact hs

theorem State.Canonical.announce {s : State} {c : CoreId} {bs : List ((ObjSpace × Nat) × Nat)} (hs : s.Canonical G K) :
    (s.announce c bs).1.Canonical G K := by
  unfold State.announce
  refine .foldl_fst (fun _ _ hp => ?_) hs
  split
  · next eq => exact .addPending (.of_pair eq (.barrierPlace hp))
  · next eq => exact .of_pair eq (.barrierPlace hp)
  · next eq => exact .of_pair eq (.barrierPlace hp)

theorem State.Canonical.updCopy {s : State} {c : CoreId} {id : Nat} {f : Copy → Copy} (hs : s.Canonical G K) : (s.updCopy c id f).Canonical G K :=
  .updCore (fun _ hk => .same hk) hs

theorem State.Canonical.startChan {s : State} {t : CoreId} {ch : Fin 8} (hs : s.Canonical G K) : (s.startChan t ch).Canonical G K := by
  unfold State.startChan
  dsimp only
  split
  · exact hs
  · split
    · exact hs
    · split
      · exact .updCore (fun _ hk => .same hk) hs
      · exact hs

theorem State.Canonical.joinChan {s : State} {c : CoreId} {id : Nat} (hs : s.Canonical G K) : (s.joinChan c id).Canonical G K := by
  unfold State.joinChan
  split
  · exact hs
  · split
    · exact hs
    · exact .startChan (.updCore (fun _ hk => .same hk) hs)

theorem State.Canonical.moveWp {s : State} {p : Copy} {done : Nat} (hs : s.Canonical G K) : (s.moveWp p done).Canonical G K := by
  unfold State.moveWp
  split
  · exact hs
  · exact .post hs

theorem State.Canonical.finishCopy {s : State} {p : Copy} (hs : s.Canonical G K) : (s.finishCopy p).Canonical G K := .post hs

theorem State.Canonical.endCopy {s : State} {p : Copy} (hs : s.Canonical G K) : (s.endCopy p).Canonical G K := by
  unfold State.endCopy
  dsimp only
  split
  · exact .ite (.updCore (fun _ hk => .same hk) hs) (.capture (.updCore (fun _ hk => .same hk) hs))
  · exact .startChan (.updCore (fun _ hk => .same hk) (.ite (.updCore (fun _ hk => .same hk) hs) (.capture (.updCore (fun _ hk => .same hk) hs))))

theorem State.Canonical.takeSlots {s : State} {p : Copy} {t : Nat} (hs : s.Canonical G K) : (s.takeSlots p t).Canonical G K :=
  .post (.updCopy (.updCore (fun _ hk => .same hk) hs))

theorem State.Canonical.replanPair {s : State} {c : CoreId} {dst : Fin 4} {t : Nat} (hs : s.Canonical G K) : (s.replanPair c dst t).Canonical G K :=
  .updCore (fun _ hk => .same hk) (.foldl_fst (fun _ _ ha => .same (.updCopy ha)) hs)

theorem State.Canonical.delayGroups {s : State} {id j : Nat} (hs : s.Canonical G K) : (s.delayGroups id j).Canonical G K := .same hs

theorem State.Canonical.loseGroup {s : State} {p : Copy} {j : Nat} {side : XferSide} (hs : s.Canonical G K) : (s.loseGroup p j side).Canonical G K :=
  .laterOn (.delayGroups hs)

theorem State.Canonical.failGroup {s : State} {p : Copy} {j line : Nat} (hs : s.Canonical G K) : (s.failGroup p j line).Canonical G K := by
  unfold State.failGroup
  dsimp only
  split
  · exact .finishCopy (.ite (.trap (.freeze (.errorRecord (.updCopy hs)))) (.freeze (.errorRecord (.updCopy hs))))
  · exact .ite (.trap (.freeze (.errorRecord (.updCopy hs)))) (.freeze (.errorRecord (.updCopy hs)))

theorem Core.Canonical.fillWb {k : Core} {half : Bool} {a : Nat} {bs : List Byte} (hk : k.Canonical) : (k.fillWb half a bs).Canonical := by
  obtain ⟨ls, wb0, wb1, rest⟩ := Core.canonical_iff.mp hk
  cases half
  · exact Core.canonical_iff.mpr ⟨ls, Mem.wf_write wb0 _ _, wb1, rest⟩
  · exact Core.canonical_iff.mpr ⟨ls, wb0, Mem.wf_write wb1 _ _, rest⟩

theorem State.Canonical.readGroup {s : State} {p : Copy} {j : Nat} (hs : s.Canonical G K) : (s.readGroup p j).Canonical G K := by
  unfold State.readGroup
  split
  · extract_lets a n clk granted
    have hgranted (t : State) (eq : granted = some t) : t.Canonical G K := by
      rcases ite_eq_iff.mp eq with ⟨-, eq⟩ | ⟨-, eq⟩
      · exact Option.some.inj eq ▸ .claim hs
      · exact .grant eq hs
    clear_value granted
    split
    · exact .loseGroup hs
    · next t =>
      have ht := hgranted t rfl
      split
      · exact .failGroup ht
      · dsimp only
        split
        · split
          · exact .post (.updCopy (.countLs ht))
          · exact .post (.updCopy (.post (.updCopy (.countLs ht))))
        · split
          · exact .laterOn (.updCopy (.countLs ht))
          · exact .laterOn (.laterOn (.updCopy (.countLs ht)))

theorem State.Canonical.writeGroup {s : State} {p : Copy} {j : Nat} (hs : s.Canonical G K) : (s.writeGroup p j).Canonical G K := by
  unfold State.writeGroup
  dsimp only
  split
  · split
    · exact hs
    · split
      · split
        · exact .finishCopy (.moveWp (.updCopy (.updCore (fun _ hk => .fillWb hk) hs)))
        · exact .moveWp (.updCopy (.updCore (fun _ hk => .fillWb hk) hs))
      · split
        · split
          · exact .finishCopy (.moveWp (.updCopy (.storeAt (.claim hs))))
          · exact .moveWp (.updCopy (.storeAt (.claim hs)))
        · split
          · exact .loseGroup hs
          · split
            · exact .loseGroup hs
            · next eq''''' =>
                split
                · exact .finishCopy (.moveWp (.updCopy (.storeAt (.grant eq''''' hs))))
                · exact .moveWp (.updCopy (.storeAt (.grant eq''''' hs)))
  · split
    · exact hs
    · split
      · split
        · exact .finishCopy (.moveWp (.updCopy (.updCore (fun _ hk => .fillWb hk) hs)))
        · exact .moveWp (.updCopy (.updCore (fun _ hk => .fillWb hk) hs))
      · split
        · split
          · exact .finishCopy (.moveWp (.updCopy (.storeAt (.claim hs))))
          · exact .moveWp (.updCopy (.storeAt (.claim hs)))
        · split
          · exact .loseGroup hs
          · split
            · exact .loseGroup hs
            · next eq''''' =>
                split
                · exact .finishCopy (.moveWp (.updCopy (.storeAt (.grant eq''''' hs))))
                · exact .moveWp (.updCopy (.storeAt (.grant eq''''' hs)))

theorem State.Canonical.openGroups {s : State} {p : Copy} (hs : s.Canonical G K) : (s.openGroups p).Canonical G K := by
  unfold State.openGroups
  dsimp only
  split
  · exact .ite (.replanPair (.post hs)) (.ite (.replanPair (.post (.updCopy hs))) (.readGroup hs))
  · exact .ite (.post (.updCopy hs)) (.readGroup hs)

theorem State.Canonical.stopCopy {s : State} {p : Copy} {fault : Option (Word × Word)} (hs : s.Canonical G K) : (s.stopCopy p fault).Canonical G K :=
  .freeze (.updCopy hs)

theorem State.Canonical.useFolio {s : State} {obj ver num : Nat} (hs : s.Canonical G K) : (s.useFolio obj ver num).Canonical G K := .same hs

theorem State.Canonical.wantFolio {s : State} {p : Copy} {obj num : Nat} (hs : s.Canonical G K) : (s.wantFolio p obj num).Canonical G K :=
  .ite hs (.post (.same hs))

theorem State.Canonical.wantFolios {s : State} {p : Copy} (hs : s.Canonical G K) : (s.wantFolios p).Canonical G K := by
  unfold State.wantFolios
  split
  · exact .foldl (fun _ _ ha => .wantFolio ha) hs
  · exact .foldl (fun _ _ ha => .wantFolio ha) hs
  · exact .foldl (fun _ _ ha => .wantFolio ha) hs
  · exact hs

theorem State.Canonical.copyWords {s : State} {c : CoreId} {a : Acc} {ofs : Nat} {ps : List (Nat × Nat)} (hs : s.Canonical G K) :
    (s.copyWords c a ofs ps).1.Canonical G K := by
  induction ps generalizing s ofs with
  | nil => exact hs
  | cons p rest ih =>
    unfold State.copyWords
    split
    · next t eq => exact .of_pair eq (.copyPage hs)
    · next t f eq => exact .of_pair eq (.copyPage hs)
    · next t pa eq =>
      have rest := ih (ofs := ofs + p.2) (.of_pair eq (.copyPage hs))
      split
      · next t' ws eq' => exact .of_pair eq' rest
      · exact rest

theorem State.Canonical.windowWords {s : State} {dev ofs va n : Nat} {a : Acc} (hs : s.Canonical G K) :
    (s.windowWords dev ofs va n a).1.Canonical G K := by
  unfold State.windowWords
  split
  · dsimp only
    split <;> exact hs
  · split
    · exact hs
    · exact .same hs

theorem State.Canonical.sourceWords {s : State} {p : Copy} {ofs : Nat} {ps : List (Nat × Nat)} (hs : s.Canonical G K) :
    (s.sourceWords p ofs ps).1.Canonical G K := by
  induction ps generalizing s p ofs with
  | nil => exact hs
  | cons q rest ih =>
    unfold State.sourceWords
    extract_lets base
    split
    next t p' at' eq =>
    have sampled : t.Canonical G K := by
      split at eq
      · cases eq
        exact hs
      · split at eq
        all_goals
          next eq' =>
            cases eq
            exact .of_pair eq' (.copyPage hs)
    split
    · exact sampled
    · split
      · next eq => exact of_pair eq (ih sampled)
      · exact ih sampled

theorem State.Canonical.locateSource {s : State} {p : Copy} {lo n : Nat} (hs : s.Canonical G K) : (s.locateSource p lo n).1.Canonical G K := by
  unfold State.locateSource
  split
  · exact .sourceWords hs
  · exact .sourceWords hs
  · exact .sourceWords hs
  · exact .sourceWords hs
  · exact .windowWords hs
  · exact .windowWords hs
  all_goals exact hs

theorem State.Canonical.readHbm {s : State} {p : Copy} {as : List Nat} {bytes : List (Nat × List Byte)} (hs : s.Canonical G K) :
    (s.readHbm p as bytes).1.Canonical G K := by
  unfold State.readHbm
  split
  · next eq => exact .of_pair eq (.serve hs)
  · next eq =>
      split
      · exact .errorRecord (.of_pair eq (.serve hs))
      · exact .countCorrected (.of_pair eq (.serve hs))

theorem State.Canonical.readWords {s : State} {p : Copy} {ws : List (Nat × Nat × Nat)} (hs : s.Canonical G K) :
    (s.readWords p ws).1.Canonical G K := by
  unfold State.readWords
  dsimp only
  split
  · exact .readHbm hs
  · exact .readHbm hs
  · exact .readHbm hs
  · exact .readHbm hs
  · split
    · exact .readHbm hs
    · exact .drawBytes hs
  · split
    · exact .readHbm hs
    · exact .drawBytes hs
  · split
    · exact .same hs
    · split
      · exact .foldl (fun _ _ ha => .useFolio ha) (.readHbm hs)
      · exact .foldl (fun _ _ ha => .wantFolio ha) hs
  · split
    · exact .same hs
    · split
      · exact .foldl (fun _ _ ha => .useFolio ha) (.readHbm hs)
      · exact .foldl (fun _ _ ha => .wantFolio ha) hs
  · split
    · exact .same hs
    · split
      · exact .foldl (fun _ _ ha => .useFolio ha) (.readHbm hs)
      · exact .foldl (fun _ _ ha => .wantFolio ha) hs
  · split
    · exact hs
    · next eq''''''''' =>
        split
        · exact .errorRecord (.grant eq''''''''' hs)
        · exact .countLs (.grant eq''''''''' hs)

theorem State.Canonical.locateDest {s : State} {p : Copy} {lo n : Nat} (hs : s.Canonical G K) : (s.locateDest p lo n).1.Canonical G K := by
  unfold State.locateDest
  split
  · exact .copyWords hs
  · exact .copyWords hs
  · exact .copyWords hs
  · exact .copyWords hs
  · dsimp only
    split
    · exact .windowWords hs
    · exact .endBinding hs
  · dsimp only
    split
    · exact .windowWords hs
    · exact .endBinding hs
  · exact hs
  · exact hs
  · split <;> exact hs

theorem State.Canonical.writeHbm {s : State} {ws : List ((Nat × Nat × Nat) × List Byte)} (hs : s.Canonical G K) :
    (s.writeHbm ws).1.Canonical G K := by
  unfold State.writeHbm
  split
  · next eq => exact .of_pair eq (.serve hs)
  · next eq => exact .foldl (fun _ _ hp => .storeAt hp) (.of_pair eq (.serve hs))

theorem State.Canonical.writeWords {s : State} {p : Copy} {ws : List ((Nat × Nat × Nat) × List Byte)} (hs : s.Canonical G K) :
    (s.writeWords p ws).1.Canonical G K := by
  unfold State.writeWords
  split
  · exact .foldl (fun _ _ hp => .updCore (fun _ hk => .fillWb hk) hp) hs
  · exact .foldl (fun _ _ hp => .updCore (fun _ hk => .fillWb hk) hp) hs
  · exact .writeHbm hs
  · exact .writeHbm hs
  · exact .writeHbm hs
  · exact .writeHbm hs
  · split
    · exact .writeHbm hs
    · exact hs
  · split
    · exact .writeHbm hs
    · exact hs
  · split
    · exact hs
    · split
      · exact hs
      · split
        · exact hs
        · next eq'''''''''' =>
            dsimp only
            split
            · split
              · exact .moveWp (.foldl (fun _ _ hp => .storeAt hp) (.grant eq'''''''''' hs))
              · exact .foldl (fun _ _ hp => .storeAt hp) (.grant eq'''''''''' hs)
            · exact .foldl (fun _ _ hp => .storeAt hp) (.grant eq'''''''''' hs)

theorem State.Canonical.postFormed {s : State} {p : Copy} (hs : s.Canonical G K) : (s.postFormed p).Canonical G K :=
  .ite (.finishCopy (.same hs)) (.post (.updCopy (.same hs)))

theorem State.Canonical.formColl {s : State} {p : Copy} (hs : s.Canonical G K) : (s.formColl p).Canonical G K := by
  unfold State.formColl
  split
  · exact hs
  · extract_lets cs es count abroad gone
    refine .ite hs (.ite hs ?_)
    split
    next i t eq =>
    have ht := of_pair' eq (.draw hs)
    extract_lets err out choice counted
    have hout : out.2.2.Canonical G K := by
      dsimp only [out]
      split
      · exact ht
      · split
        · exact ht
        · exact .drawBytes ht
    have hcounted : counted.Canonical G K := .same hout
    refine .foldl (fun _ e h => ?_) hcounted
    exact .postFormed (.updCopy h)

theorem State.Canonical.nextChunk {s : State} {p : Copy} (hs : s.Canonical G K) : (s.nextChunk p).Canonical G K := by
  unfold State.nextChunk
  split
  · exact .ite (.formColl hs) (.finishCopy hs)
  · exact .ite (.updCopy (.same hs)) (.sometime (.updCopy (.same hs)))

theorem State.Canonical.chunkRead {s : State} {p : Copy} {j : Nat} (hs : s.Canonical G K) : (s.chunkRead p j).Canonical G K :=
  .ite (.nextChunk (.updCopy (.countCopy hs))) (.sometime (.updCopy (.countCopy hs)))

theorem State.Canonical.openChunk {s : State} {p : Copy} {b : Option (ObjSpace × Nat)} (hs : s.Canonical G K) :
    (s.openChunk p b).1.Canonical G K := by
  unfold State.openChunk
  split
  · exact hs
  · split
    · next eq => exact .aimBarrier (.of_pair eq (.announce hs))
    · next eq => exact .updCopy (.of_pair eq (.announce hs))

theorem State.Canonical.noteLeft {s : State} {p : Copy} (hs : s.Canonical G K) : (s.noteLeft p).Canonical G K := by
  unfold State.noteLeft
  split
  · exact .ite (.updCore (fun _ hk => .same hk) hs) hs
  · exact hs

theorem State.Canonical.chunkDone {s : State} {p : Copy} {j : Nat} (hs : s.Canonical G K) : (s.chunkDone p j).Canonical G K :=
  .nextChunk (.countCopy (.updCopy hs))

theorem State.Canonical.announceCopy {s : State} {p : Copy} {nd : Nat} (hs : s.Canonical G K) : (s.announceCopy p nd).Canonical G K := by
  unfold State.announceCopy
  split
  next eq => exact .ite (.of_pair eq (.announce hs)) (.updCopy (.of_pair eq (.announce hs)))

theorem State.Canonical.acceptCopy {s : State} {u : Turn} {p : Copy} (hs : s.Canonical G K) : (s.acceptCopy u p).Canonical G K := by
  unfold State.acceptCopy
  dsimp only
  split
  · exact .pushNow hs
  · split
    · exact .takeSlots (.laterOn (.announceCopy (.updCore (fun _ hk => .same hk) (.pushNow hs))))
    · split
      · exact .laterOn (.updCopy (.laterOn (.announceCopy (.updCore (fun _ hk => .same hk) (.pushNow hs)))))
      · exact .nextChunk (.wantFolios (.updCopy (.laterOn (.announceCopy (.updCore (fun _ hk => .same hk) (.pushNow hs))))))

/-! ### Collectives -/

theorem State.Canonical.acceptColl {s : State} {u : Turn} {p : Copy} {o : Coll} {nd : Nat} (hs : s.Canonical G K) :
    (s.acceptColl u p o nd).Canonical G K := by
  unfold State.acceptColl
  refine .nextChunk ?_
  split
  · exact .announceCopy (.updCore (fun _ hk => .same hk) (.pushNow hs))
  · exact .laterOn (.announceCopy (.updCore (fun _ hk => .same hk) (.pushNow hs)))

theorem State.Canonical.queueAccession {s : State} {bid part asid root id : Nat} {repl : Bool} {src n rec : Nat} (hs : s.Canonical G K) :
    (s.queueAccession bid part asid root id repl src n rec).Canonical G K :=
  .sometime (.same hs)

theorem State.Canonical.pruneVersions {s : State} (hs : s.Canonical G K) : s.pruneVersions.Canonical G K := .same hs

/-! ### The archive -/

theorem State.Canonical.shrinkRoom {s : State} {cap fuel : Nat} (hs : s.Canonical G K) : (s.shrinkRoom cap fuel).Canonical G K := by
  induction fuel generalizing s with
  | zero => exact hs
  | succ fuel ih =>
    unfold State.shrinkRoom
    split
    · exact hs
    · split
      · exact ih (.same hs)
      · exact hs

theorem State.Canonical.countFill {s : State} {v : Nat} (hs : s.Canonical G K) : (s.countFill v).Canonical G K := .same hs

theorem State.Canonical.accEnd {s : State} {x : Accession} {status : Nat} (hs : s.Canonical G K) : (s.accEnd x status).Canonical G K :=
  .sometime (.same hs)

theorem State.Canonical.accProgram {s : State} {x : Accession} (hs : s.Canonical G K) : (s.accProgram x).Canonical G K := by
  unfold State.accProgram
  dsimp only
  split
  · split
    · exact .accEnd (.same (.draw (.pruneVersions hs)))
    · exact .sometime (.same (.draw (.pruneVersions hs)))
  · split
    · exact .sometime (.same (.draw (.pruneVersions hs)))
    · exact .accEnd (.same (.draw (.pruneVersions hs)))

theorem State.Canonical.accStep {s : State} {num : Nat} (hs : s.Canonical G K) : (s.accStep num).Canonical G K := by
  unfold State.accStep
  split
  · exact hs
  · dsimp only
    split
    · exact .accEnd hs
    · split
      · exact .accProgram hs
      · split
        · split
          · exact .accEnd hs
          · exact .sometime (.same hs)
        · split
          · next eq => exact .post (.of_pair eq (.serve hs))
          · next eq'''' =>
              split
              · exact .accEnd (.errorRecord (.of_pair eq'''' (.serve hs)))
              · exact .sometime (.same (.of_pair eq'''' (.serve hs)))

theorem State.Canonical.noteStep {s : State} {i : Fin 64} (hs : s.Canonical G K) : (s.noteStep i).Canonical G K := .same hs

theorem State.Canonical.foldLife {s : State} (hs : s.Canonical G K) : s.foldLife.Canonical G K := by
  unfold State.foldLife
  extract_lets t
  have ht : t.Canonical G K := .foldl (fun _ _ h => .noteStep h) hs
  clear_value t
  exact .same ht

/-! ### Flue FIFOs -/

theorem Core.Canonical.setEntries {k : Core} {down : Bool} {es : List (Nat × VecData)} (hk : k.Canonical) : (k.setEntries down es).Canonical :=
  .ite (.same hk) (.same hk)

theorem State.Canonical.pruneFifo {s : State} {c : CoreId} {down : Bool} {d : Nat} (hs : s.Canonical G K) : (s.pruneFifo c down d).Canonical G K := by
  unfold State.pruneFifo
  split
  · exact hs
  · exact .updCore (fun _ hk => .ite (.same hk) (.same hk)) (.updCore (fun _ hk => .ite (.same hk) (.same hk)) hs)

theorem State.Canonical.fluePutEffect {dir : Bool} {data : VecData} {u : Turn} {s : State} (hs : s.Canonical G K) :
    (fluePutEffect dir data u s).Canonical G K := by
  unfold Machine.fluePutEffect
  refine .pushNow (.updCore (fun _ hk => .ite (.same hk) (.same hk)) ?_)
  split
  · exact .updCore (fun _ hk => .setEntries hk) (.pruneFifo hs)
  · exact .pruneFifo hs

theorem State.Canonical.flueGetEffect {d : VReg} {dir : Bool} {data : VecData} {u : Turn} {s : State} (hs : s.Canonical G K) :
    (flueGetEffect d dir data u s).Canonical G K :=
  .pushNow (.fly (.updCore (fun _ hk => .ite (.same (.setEntries hk)) (.same (.setEntries hk))) hs))

/-! ### Vector arithmetic -/

theorem State.Canonical.elemsEffect {d : VReg} {w : Nat} {js : List Nat} {rm : Rm} {lat : Nat} {op : Nat → Nat → Nat × Flg} {u : Turn} {s : State}
    (hs : s.Canonical G K) :
    (elemsEffect d w js rm lat op u s).Canonical G K :=
  .result hs

/-! ### Vector accesses -/

theorem State.Canonical.vldEffect {d : VReg} {q : Desc} {m : MaskData} {e0 : Nat} {u : Turn} {s : State} (hs : s.Canonical G K) :
    (vldEffect d q m e0 u s).Canonical G K := by
  unfold Machine.vldEffect
  dsimp only
  split
  · exact .ite (.resultRead hs) (.resultLater (.sendRead hs))
  · exact .sendTo (.foldl (fun _ _ ha => .touch ha) (.resultLater (.access (.waitFor hs))))

theorem State.Canonical.sendPages {s : State} {u : Turn} {ps : List (Nat × Nat × List (Nat × Byte × Byte))} (hs : s.Canonical G K) :
    (s.sendPages u ps).Canonical G K := by
  induction ps generalizing s with
  | nil => exact hs
  | cons p rest ih => exact ih (.sendAs (.touch hs))

theorem State.Canonical.vstEffect {space : Nat} {bs : List (Nat × Byte × Byte)} {u : Turn} {s : State} (hs : s.Canonical G K) :
    (vstEffect space bs u s).Canonical G K :=
  .ite (.sendAs hs) (.sendPages hs)

theorem Core.Canonical.setCell {k : Core} {row col : Nat} {v : Word32} (hk : k.Canonical) : (k.setCell row col v).Canonical := by
  obtain ⟨ls, wb0, wb1, acc, rest⟩ := Core.canonical_iff.mp hk
  exact Core.canonical_iff.mpr ⟨ls, wb0, wb1, Mem.wf_write acc _ _, rest⟩

theorem State.Canonical.judgeAcc {s : State} {c : CoreId} {ws : List Nat} (hs : s.Canonical G K) : (s.judgeAcc c ws).1.Canonical G K :=
  .countPlaces hs

theorem Core.Canonical.healCells {k : Core} {as : List Nat} (hk : k.Canonical) : (k.healCells as).Canonical := .ite hk (.heal hk)

theorem State.Canonical.readCells {s : State} {c : CoreId} {st : StrandId} {ord row col : Nat} {wide : Bool} (hs : s.Canonical G K) :
    (s.readCells c st ord row col wide).Canonical G K :=
  .arrive (.countPlaces hs)

theorem State.Canonical.writeCells {s : State} {c : CoreId} {row col : Nat} {wide : Bool} {data : VecData} {mask : MaskData} (hs : s.Canonical G K) :
    (s.writeCells c row col wide data mask).Canonical G K :=
  .updCore (fun _ hk => .healCells (.foldl (fun _ _ ha => .ite (.setCell (.setCell ha)) (.setCell ha)) hk)) hs

theorem State.Canonical.vacrEffect {d : VReg} {row col : Nat} {fmt : Fmt} {m : MaskData} {u : Turn} {s : State} (hs : s.Canonical G K) :
    (vacrEffect d row col fmt m u s).Canonical G K :=
  .resultLater (.later hs)

theorem State.Canonical.vacwEffect {row col : Nat} {wide : Bool} {v : VecData} {m : MaskData} {u : Turn} {s : State} (hs : s.Canonical G K) :
    (vacwEffect row col wide v m u s).Canonical G K :=
  .ite (.later (.later hs)) (.later hs)

/-! ### The range engine -/

theorem State.Canonical.updHob {s : State} {c : CoreId} {hq : Fin 4} {f : Hob → Hob} (hs : s.Canonical G K) : (s.updHob c hq f).Canonical G K :=
  .updCore (fun _ hk => .same hk) hs

theorem State.Canonical.updCmd {s : State} {c : CoreId} {hq : Fin 4} {id : Nat} {f : HobCmd → HobCmd} (hs : s.Canonical G K) :
    (s.updCmd c hq id f).Canonical G K :=
  .updHob hs

theorem Core.Canonical.clearB {k : Core} {hq : Fin 4} {r : Rect} (hk : k.Canonical) : (k.clearB hq r).Canonical := .same hk

theorem Core.Canonical.loadImage {k : Core} {hq : Fin 4} {r : Rect} {f : Fmt} {wz csm : Nat} {img : Array Byte} (hk : k.Canonical) :
    (k.loadImage hq r f wz csm img).Canonical :=
  .same hk

theorem State.Canonical.postRow {s : State} {c : CoreId} {hq : Fin 4} {m : HobCmd} {seg row at' : Nat} (hs : s.Canonical G K) :
    (s.postRow c hq m seg row at').Canonical G K :=
  .post (.ite (.post hs) hs)

theorem State.Canonical.startCmd {s : State} {c : CoreId} {hq : Fin 4} {m : HobCmd} (hs : s.Canonical G K) : (s.startCmd c hq m).Canonical G K := by
  unfold State.startCmd
  dsimp only
  split
  · exact .post (.post (.post (.updCmd (.updHob hs))))
  · refine .post ?_
    split
    · exact .post (.foldl (fun _ _ ha => .postRow ha) (.post (.updCmd (.updHob hs))))
    · exact .foldl (fun _ _ ha => .postRow ha) (.post (.updCmd (.updHob hs)))
  · exact .foldl (fun _ _ ha => .post ha) (.post (.updCmd (.updHob hs)))
  · exact .post (.post (.updCmd (.updHob hs)))
  · exact .post (.draw (.updCmd (.updHob hs)))

theorem State.Canonical.planHob {s : State} {c : CoreId} {hq : Fin 4} {fuel : Nat} (hs : s.Canonical G K) : (s.planHob c hq fuel).Canonical G K := by
  induction fuel generalizing s with
  | zero => exact hs
  | succ fuel ih =>
    unfold State.planHob
    dsimp only
    split
    · exact hs
    · split
      · exact hs
      · exact .ite hs (ih (.startCmd hs))

theorem State.Canonical.accept {s : State} {u : Turn} {hq : Fin 4} {m : HobCmd} (hs : s.Canonical G K) : (s.accept u hq m).Canonical G K :=
  .pushNow (.planHob (.updHob hs))

theorem State.Canonical.endCmd {s : State} {c : CoreId} {hq : Fin 4} {id : Nat} (hs : s.Canonical G K) : (s.endCmd c hq id).Canonical G K := by
  unfold State.endCmd
  split
  · exact hs
  · exact .ite hs (.updHob hs)

theorem State.Canonical.failCmd {s : State} {c : CoreId} {hq : Fin 4} {m : HobCmd} {row : Nat} {info : TrapInfo} (hs : s.Canonical G K) :
    (s.failCmd c hq m row info).Canonical G K := by
  unfold State.failCmd
  dsimp only
  split
  · exact .trap (.freeze (.endCmd (.updHob (.same (.updCmd hs)))))
  · exact .freeze (.endCmd (.updHob (.same (.updCmd hs))))

theorem State.Canonical.streamRead {s : State} {t : CoreId} {d : Desc} {as : List Nat} (hs : s.Canonical G K) :
    (s.streamRead t d as).1.Canonical G K := by
  unfold State.streamRead
  dsimp only
  split
  · exact hs
  · next eq =>
      split
      · split
        · exact .updCore (fun _ hk => .same hk) (.grant eq hs)
        · split
          · exact .updCore (fun _ hk => .same hk) (.grant eq hs)
          · split
            · exact .updCore (fun _ hk => .same hk) (.grant eq hs)
            · exact .countLs (.updCore (fun _ hk => .same hk) (.grant eq hs))
      · split
        · exact .updCore (fun _ hk => .same hk) (.grant eq hs)
        · split
          · exact .updCore (fun _ hk => .same hk) (.grant eq hs)
          · split
            · exact .updCore (fun _ hk => .same hk) (.grant eq hs)
            · exact .countLs (.updCore (fun _ hk => .same hk) (.grant eq hs))

theorem State.Canonical.missCmd {s : State} {c : CoreId} {hq : Fin 4} {m : HobCmd} {row : Nat} {e : Option Nat × Nat} (hs : s.Canonical G K) :
    (s.missCmd c hq m row e).Canonical G K := by
  unfold State.missCmd
  split
  · exact .failCmd (.errorRecord hs)
  · exact .failCmd hs

theorem State.Canonical.scaleRow {s : State} {c : CoreId} {hq : Fin 4} {id row : Nat} (hs : s.Canonical G K) :
    (s.scaleRow c hq id row).Canonical G K := by
  unfold State.scaleRow
  split
  · exact hs
  · split
    · exact hs
    · dsimp only
      split
      · next eq => exact .missCmd (.of_pair eq (.streamRead hs))
      · next eq => exact .updCmd (.of_pair eq (.streamRead hs))

theorem State.Canonical.rowRow {s : State} {c : CoreId} {hq : Fin 4} {id seg row : Nat} (hs : s.Canonical G K) :
    (s.rowRow c hq id seg row).Canonical G K := by
  unfold State.rowRow
  split
  · exact hs
  · split
    · exact hs
    · dsimp only
      split
      · next eq => exact .missCmd (.of_pair eq (.streamRead hs))
      · next eq'' =>
          split
          · exact .updCmd (.of_pair eq'' (.streamRead hs))
          · exact .postRow (.updCmd (.of_pair eq'' (.streamRead hs)))

theorem State.Canonical.loadCycle {s : State} {c : CoreId} {hq : Fin 4} {id j : Nat} (hs : s.Canonical G K) :
    (s.loadCycle c hq id j).Canonical G K := by
  unfold State.loadCycle
  split
  · exact hs
  · split
    · split
      · exact hs
      · dsimp only
        split
        · exact .failCmd (.foldl (fun _ _ hp => .updCore (fun _ hk => .clearB hk) hp) hs)
        · exact .failCmd (.errorRecord (.foldl (fun _ _ hp => .updCore (fun _ hk => .clearB hk) hp) hs))
        · split
          · exact .updCmd (.foldl (fun _ _ hp => .countPlaces hp) hs)
          · exact .laterOn (.updCmd (.foldl (fun _ _ hp => .countPlaces hp) hs))
    · exact hs

theorem State.Canonical.loadEnd {s : State} {c : CoreId} {hq : Fin 4} {id : Nat} (hs : s.Canonical G K) : (s.loadEnd c hq id).Canonical G K := by
  unfold State.loadEnd
  split
  · exact hs
  · refine .endCmd (.updCmd ?_)
    split
    · exact .ite hs (.foldl (fun _ _ hp => .updCore (fun _ hk => .loadImage hk) hp) hs)
    · exact hs

theorem State.Canonical.readAcc {s : State} {c : CoreId} {hq : Fin 4} {m : HobCmd} {row : Nat} {at' : List (CoreId × Nat)} (hs : s.Canonical G K) :
    (s.readAcc c hq m row at').1.Canonical G K := by
  unfold State.readAcc
  split
  next eq =>
    have judged := of_pair eq (foldl_fst (fun p e (h : p.1.Canonical G K) => show (p.1.judgeAcc e.1 _).1.Canonical G K from judgeAcc h) hs)
    split
    · dsimp only
      exact .failCmd (.errorRecord judged)
    · exact judged

theorem State.Canonical.topOf {s : State} {c : CoreId} {hq : Fin 4} {id row : Nat} (hs : s.Canonical G K) : (s.topOf c hq id row).Canonical G K := by
  unfold State.topOf
  split
  · exact hs
  · split
    · exact hs
    · dsimp only
      split
      · next eq => exact .of_pair eq (.readAcc hs)
      · next eq => exact .ite (.updCmd (.of_pair eq (.readAcc hs))) (.laterOn (.updCmd (.of_pair eq (.readAcc hs))))

theorem State.Canonical.leaveRow {s : State} {c : CoreId} {hq : Fin 4} {id row : Nat} (hs : s.Canonical G K) :
    (s.leaveRow c hq id row).Canonical G K := by
  unfold State.leaveRow
  split
  · exact hs
  · split
    · exact hs
    · dsimp only
      split
      · next eq => exact .of_pair eq (.readAcc hs)
      · next eq'' =>
          split
          · exact .laterOn (.updHob (.of_pair eq'' (.readAcc hs)))
          · exact .laterOn (.laterOn (.updHob (.of_pair eq'' (.readAcc hs))))

theorem Core.Canonical.putRow {k : Core} {acc col : Nat} {ws : List Word32} (hk : k.Canonical) : (k.putRow acc col ws).Canonical :=
  .healCells (.foldl (fun _ _ hp => .setCell hp) hk)

theorem State.Canonical.drainCells {s : State} {c : CoreId} {hq : Fin 4} {id row : Nat} (hs : s.Canonical G K) :
    (s.drainCells c hq id row).Canonical G K := by
  unfold State.drainCells
  split
  · exact hs
  · dsimp only
    split
    · exact hs
    · split
      · next eq => exact .of_pair eq (.readAcc hs)
      · next eq'' =>
          split
          · split <;> exact .laterOn (.updCmd (.of_pair eq'' (.readAcc hs)))
          · refine .laterOn ?_
            split <;> exact .laterOn (.updCmd (.of_pair eq'' (.readAcc hs)))

theorem State.Canonical.drainScale {s : State} {c : CoreId} {hq : Fin 4} {m : HobCmd} {row : Nat} (hs : s.Canonical G K) :
    (s.drainScale c hq m row).Canonical G K := by
  unfold State.drainScale
  dsimp only
  split
  · exact hs
  · split
    · exact .laterOn hs
    · next eq' =>
        split
        · exact .failCmd (.errorRecord (.grant eq' hs))
        · exact .laterOn (.updCmd (.countLs (.grant eq' hs)))

theorem State.Canonical.readScale {s : State} {c : CoreId} {hq : Fin 4} {id row : Nat} (hs : s.Canonical G K) :
    (s.readScale c hq id row).Canonical G K := by
  unfold State.readScale
  split
  · exact hs
  · split
    · exact .drainScale hs
    · exact .scaleRow hs

theorem State.Canonical.zeroGroup {s : State} {c : CoreId} {hq : Fin 4} {id g : Nat} (hs : s.Canonical G K) :
    (s.zeroGroup c hq id g).Canonical G K := by
  unfold State.zeroGroup
  split
  · exact hs
  · dsimp only
    split
    · exact .endCmd (.updCmd (.foldl (fun _ _ ha => .updCore (fun _ hk => .foldl (fun _ _ ha' => .putRow ha') hk) ha) hs))
    · exact .laterOn (.endCmd (.updCmd (.foldl (fun _ _ ha => .updCore (fun _ hk => .foldl (fun _ _ ha' => .putRow ha') hk) ha) hs)))

theorem State.Canonical.setBands {s : State} {c : CoreId} {bps : BitVec 8} (hs : s.Canonical G K) : (s.setBands c bps).Canonical G K :=
  .foldl (fun _ _ ha => .updCore (fun _ hk => .same hk) (.updCore (fun _ hk => .same hk) ha)) (.updCore (fun _ hk => .same hk) hs)

theorem Core.Canonical.resetB {k : Core} (hk : k.Canonical) : k.resetB.Canonical := .same hk

theorem State.Canonical.reshape {s : State} {c : CoreId} {cut : BitVec 3} {bps : BitVec 8} (hs : s.Canonical G K) :
    (s.reshape c cut bps).Canonical G K :=
  .updCore (fun _ hk => .same (.resetB hk)) (.setBands hs)

theorem State.Canonical.rechain {s : State} {c : CoreId} {h : Option Chain} (hs : s.Canonical G K) : (s.rechain c h).Canonical G K :=
  .updCore (fun _ hk => .same (.resetB hk)) hs

theorem State.Canonical.askChain {s : State} {u : Turn} {r : Bool × CoreId × Nat × Nat × BitVec 8 × BitVec 3} (hs : s.Canonical G K) :
    (s.askChain u r).Canonical G K :=
  .laterOn (.waitFor (.updCore (fun _ hk => .same hk) hs))

theorem State.Canonical.hcutEffect {cut : BitVec 3} {bps : BitVec 8} {u : Turn} {s : State} (hs : s.Canonical G K) :
    (hcutEffect cut bps u s).Canonical G K := by
  unfold Machine.hcutEffect
  split
  · exact .pushNow (.reshape hs)
  · exact .askChain hs

theorem State.Canonical.hchainEffect {head : BitVec 8} {t w : Nat} {u : Turn} {s : State} (hs : s.Canonical G K) :
    (hchainEffect head t w u s).Canonical G K :=
  .askChain hs

theorem State.Canonical.judgeChain {s : State} {c : CoreId} (hs : s.Canonical G K) : (s.judgeChain c).Canonical G K := by
  unfold State.judgeChain
  dsimp only
  split
  · exact hs
  · split
    · refine .foldl (fun _ _ ha => .endWait (.updCore (fun _ hk => .same hk) ?_)) hs
      split
      · exact .reshape ha
      · exact .rechain ha
      · exact ha
    · exact .trap (.updCore (fun _ hk => .same hk) hs)

/-! ### The near-memory engines -/

theorem State.Canonical.updGroup {s : State} {sk : Fin 384} {f : Group → Group} (hs : s.Canonical G K) : (s.updGroup sk f).Canonical G K :=
  .updStoker hs

theorem State.Canonical.setErr {s : State} {sem status : Nat} (hs : s.Canonical G K) : (s.setErr sem status).Canonical G K :=
  .ite hs (.retestRecords (.storeAt hs))

theorem State.Canonical.startNext {s : State} {sk : Fin 384} (hs : s.Canonical G K) : (s.startNext sk).Canonical G K := .ite (.sometime hs) hs

theorem State.Canonical.endGroup {s : State} {sk : Fin 384} {ref : GroupRef} {status cmdix : Nat} {flags : Flg} {ce : Nat} {sem : Option Nat}
    (hs : s.Canonical G K) :
    (s.endGroup sk ref status cmdix flags ce sem).Canonical G K := by
  unfold State.endGroup
  refine .startNext ?_
  split
  · exact .ite (.storeAt (.capture (.updStoker hs))) (.setErr (.storeAt (.capture (.updStoker hs))))
  · exact .storeAt (.capture (.updStoker hs))

theorem State.Canonical.endRunning {s : State} {sk : Fin 384} {g : Group} {status : Nat} (hs : s.Canonical G K) :
    (s.endRunning sk g status).Canonical G K :=
  .endGroup hs

theorem State.Canonical.stokerRead {s : State} {sk : Fin 384} {bid : Nat} {as : List Nat} (hs : s.Canonical G K) :
    (s.stokerRead sk bid as).1.Canonical G K := by
  unfold State.stokerRead
  dsimp only
  split
  · exact .errorRecord (.updStoker (.countCorrected hs))
  · exact .updStoker (.countCorrected hs)

theorem State.Canonical.judgeGroup {s : State} {sk : Fin 384} {ref : GroupRef} (hs : s.Canonical G K) : (s.judgeGroup sk ref).1.Canonical G K := by
  unfold State.judgeGroup
  extract_lets asid w
  split
  · next eq => exact .of_pair eq (.stokerRead hs)
  · next eq =>
    have read := of_pair eq (.stokerRead hs)
    dsimp only
    split
    · exact read
    · split
      · exact read
      · split
        · exact read
        · split
          · exact read
          · split
            · next eq => exact .of_pair eq (.stokerRead read)
            · next eq' =>
              have again := of_pair eq' (.stokerRead read)
              split
              · exact again
              · exact again

theorem State.Canonical.nextCommand {s : State} {sk : Fin 384} {g : Group} (hs : s.Canonical G K) : (s.nextCommand sk g).Canonical G K :=
  .ite (.endGroup hs) (.ite (.updStoker hs) (.sometime (.updStoker hs)))

theorem State.Canonical.groupRead {s : State} {g : Group} {as : List Nat} (hs : s.Canonical G K) : (s.groupRead g as).1.Canonical G K := .same hs

theorem State.Canonical.engineRead {s : State} {sk : Fin 384} {g : Group} {as : List Nat} (hs : s.Canonical G K) :
    (s.engineRead sk g as).1.Canonical G K := by
  unfold State.engineRead
  dsimp only
  split
  · exact .errorRecord (.updStoker (.countCorrected hs))
  · exact .groupRead (.updStoker (.countCorrected hs))

theorem State.Canonical.finishCommand {s : State} {sk : Fin 384} {g : Group} {again : State → State} {ws : List (Nat × Byte × Byte)} {fl : Flg}
    (hagain : ∀ s, s.Canonical G K → (again s).Canonical G K) (hs : s.Canonical G K) : (s.finishCommand sk g again ws fl).Canonical G K := by
  unfold State.finishCommand
  split
  · next eq => exact hagain _ (.updStoker (.of_pair eq (.serveEngine hs)))
  · next eq =>
      split
      · next eq' => exact .endRunning (.of_pair eq' (.engineRead (.of_pair eq (.serveEngine hs))))
      · next eq' =>
          dsimp only
          split
          · exact .endRunning (.of_pair eq' (.engineRead (.of_pair eq (.serveEngine hs))))
          · exact .nextCommand (.of_pair eq' (.engineRead (.of_pair eq (.serveEngine hs))))

theorem State.Canonical.runCommand {s : State} {sk : Fin 384} {cmd : BitVec 512} {reads : Pages → List Nat} {f : Pages → List Byte → List
    (Nat × Byte × Byte) × Flg} (hs : s.Canonical G K) :
    (s.runCommand sk cmd reads f).Canonical G K := by
  unfold State.runCommand
  split
  · exact hs
  · dsimp only
    split
    · next eq => exact .post (.of_pair eq (.serveEngine (.pick hs)))
    · next eq' =>
        split
        · next eq'' => exact .endRunning (.of_pair eq'' (.engineRead (.of_pair eq' (.serveEngine (.pick hs)))))
        · next eq'' =>
            split
            · exact .sometime (.updStoker (.of_pair eq'' (.engineRead (.of_pair eq' (.serveEngine (.pick hs))))))
            · exact .finishCommand (fun _ hs' => .post hs') (.of_pair eq'' (.engineRead (.of_pair eq' (.serveEngine (.pick hs)))))

theorem State.Canonical.boundary {s : State} {sk : Fin 384} {f : State → Group → State}
    (hf : ∀ s g, s.Canonical G K → (f s g).Canonical G K) (hs : s.Canonical G K) : (s.boundary sk f).Canonical G K := by
  unfold State.boundary
  split
  · exact hs
  · exact .ite (.endRunning hs) (hf _ _ hs)

theorem State.Canonical.dropCommands {s : State} {sk : Fin 384} (hs : s.Canonical G K) : (s.dropCommands sk).Canonical G K := .same hs

theorem State.Canonical.nlaunchEffect {q : Fin 4} {hdr slot : Nat} {u : Turn} {s : State} (hs : s.Canonical G K) :
    (nlaunchEffect q hdr slot u s).Canonical G K :=
  .ite (.sometime (.waitFor (.accept (.touch hs)))) (.accept (.touch hs))

theorem State.Canonical.abortGroups {s : State} {sk : Fin 384} {bid : Nat} {all : Bool} (hs : s.Canonical G K) :
    (s.abortGroups sk bid all).1.Canonical G K := by
  unfold State.abortGroups
  dsimp only
  split
  · split
    · exact .ite (.updStoker hs) hs
    · split
      · exact .endRunning (.dropCommands (.ite (.updStoker hs) hs))
      · exact .updGroup (.ite (.updStoker hs) hs)
  · exact .ite (.updStoker hs) hs

/-! ### System instructions -/

theorem State.Canonical.finishDsync {s : State} {c : CoreId} {st : StrandId} {l : Nat} (hs : s.Canonical G K) :
    (s.finishDsync c st l).Canonical G K := by
  unfold State.finishDsync
  dsimp only
  split
  · exact hs
  · exact .ite hs (.endWait (.updCore (fun _ hk => .writeReg hk) hs))

theorem State.Canonical.closeStep {s : State} {c : CoreId} {st : StrandId} {l : Nat} (hs : s.Canonical G K) : (s.closeStep c st l).Canonical G K := by
  unfold State.closeStep
  dsimp only
  split
  · exact .laterOn (.same hs)
  · exact .ite (.laterOn (.same hs)) (.foldl (fun _ _ hp => .post (.draw hp)) (.same hs))

theorem State.Canonical.dsyncEffect {d : XReg} {l : Nat} {u : Turn} {s : State} (hs : s.Canonical G K) : (dsyncEffect d l u s).Canonical G K := by
  unfold Machine.dsyncEffect
  dsimp only
  split
  · exact .ite (.later (.waitFor hs)) (.waitFor hs)
  · exact .ite (.closeStep (.updStrand (.same (.waitFor hs)))) (.updStrand (.same (.waitFor hs)))

theorem State.Canonical.writeSys {s : State} {u : Turn} {n : Nat} {v : Word} (hs : s.Canonical G K) : (s.writeSys u n v).Canonical G K := by
  unfold State.writeSys
  dsimp only
  split
  · exact .updStrand hs
  · exact .later hs
  · exact .later hs
  · exact .later hs
  · exact .updStrand hs
  · exact .updStrand hs
  · exact .updStrand hs
  · exact hs

theorem State.Canonical.unitEnd {s : State} {c : CoreId} {st : StrandId} {ord : Nat} {v : Option Word} (hs : s.Canonical G K) :
    (s.unitEnd c st ord v).Canonical G K := by
  unfold State.unitEnd
  dsimp only
  split
  · exact hs
  · split
    · exact hs
    · refine .endWait ?_
      split
      · exact .updCore (fun _ hk => .writeReg hk) hs
      · exact hs

theorem State.Canonical.stepMigration {s : State} {m : Migration} (hs : s.Canonical G K) : (s.stepMigration m).Canonical G K := by
  unfold State.stepMigration
  dsimp only
  split
  · exact .ownInval (.change hs (fun h => Mem.wf_setWord (Mem.wf_write h _ _) _ _))
  · exact .toQuarantine (.same hs)

theorem State.Canonical.clearShadow {s : State} {bid : Nat} {h : Shadow} (hs : s.Canonical G K) : (s.clearShadow bid h).Canonical G K :=
  .ite hs (.change hs (fun h => Mem.wf_setWord h _ _))

theorem State.Canonical.finishSwap {s : State} {b : Binding} (hs : s.Canonical G K) : (s.finishSwap b).Canonical G K := by
  unfold State.finishSwap
  extract_lets swapped xlate counted
  have hswapped : swapped.Canonical G K :=
    .foldl (fun _ _ h => .tlbRemoveAll (.clearShadow (.change h fun h => Mem.wf_setWord h _ _))) hs
  clear_value swapped
  have hcounted : counted.Canonical G K := .same hswapped
  exact .updBinding (.foldl (fun _ _ h => .toQuarantine h) hcounted)

theorem State.Canonical.afterInval {s : State} {id : Nat} (hs : s.Canonical G K) : (s.afterInval id).Canonical G K := by
  unfold State.afterInval
  extract_lets filled asked swapped
  have hfilled : filled.Canonical G K := .foldl (fun _ _ h => .foldl (fun _ _ h => .ite (.post (.draw h)) h) h) hs
  clear_value filled
  have hasked : asked.Canonical G K := .same hfilled
  have hswapped : swapped.Canonical G K := by
    dsimp only [swapped]
    split
    · exact .finishSwap hasked
    · exact hasked
  clear_value swapped
  exact .foldl (fun _ _ h => .toQuarantine h) (.same hswapped)

theorem State.Canonical.startEngine {s : State} {t : CoreId} {area : Nat} {load : Bool} (hs : s.Canonical G K) :
    (s.startEngine t area load).Canonical G K :=
  .updCore (fun _ hk => .same hk) (.same hs)

theorem State.Canonical.evpostEffect {code : BitVec 16} {v : Word} {u : Turn} {s : State} (hs : s.Canonical G K) :
    (evpostEffect code v u s).Canonical G K :=
  .ite (.pushNow (.event (.same hs))) (.sometime (.waitFor (.same hs)))

/-! ### Events of a core -/

theorem State.Canonical.perform {s : State} {c : CoreId} {st : StrandId} {r : Result} (hs : s.Canonical G K) : (s.perform c st r).Canonical G K := by
  unfold State.perform
  split
  · dsimp only
    split
    · exact .memErr (.updCore (fun _ hk => .updFifo (.updFifo hk)) hs)
    · exact .updCore (fun _ hk => .updFifo (.updFifo hk)) hs
  · exact .pushFor (.updCore (fun _ hk => .setStrand (.writeReg (.foldl_fst (fun _ _ ha => .same ha) hk))) hs)

theorem State.Canonical.land {s : State} {c : CoreId} {st : StrandId} {r : Result} (hs : s.Canonical G K) : (s.land c st r).Canonical G K :=
  .updStrand (.updCore (fun _ hk => .foldr (fun _ _ hk' => .updFifo hk') hk) hs)

theorem State.Canonical.discardShadows {s : State} {b : Binding} (hs : s.Canonical G K) : (s.discardShadows b).Canonical G K :=
  .updBinding (.foldl (fun _ _ ha => .ownInval (.same (.clearShadow ha))) hs)

theorem State.Canonical.swapShadows {s : State} {b : Binding} (hs : s.Canonical G K) : (s.swapShadows b).Canonical G K :=
  .ite (.finishSwap hs) (.updBinding (.foldl (fun _ _ ha => .ownInval ha) hs))

theorem State.Canonical.freeCore {s : State} {c : CoreId} (hs : s.Canonical G K) : (s.freeCore c).Canonical G K := .updCore (fun _ hk => .same hk) hs

theorem Core.Canonical.clearFlue {k : Core} (hk : k.Canonical) : k.clearFlue.Canonical := .same hk

/-! ### The Librarian -/

theorem State.Canonical.deliverReport {s t : State} {r : Report} (eq : s.deliverReport r = some t) (hs : s.Canonical G K) : t.Canonical G K := by
  unfold State.deliverReport at eq
  split at eq
  · next rec sem _ _ =>
    obtain rfl := Option.some.inj eq
    have written : (match rec with
        | none => s
        | some p => ((s.storeAt .gm (p + 16) (leBytes 8 r.relHc)).storeAt .gm (p + 24) (leBytes 8 r.endHc)).storeAt .gm p
            (leBytes 8 (r.bid % 65536 * 2 ^ 48 + r.tries % 256 * 2 ^ 40 + 2 ^ 8 + r.status))).Canonical G K := by
      split
      · exact hs
      · exact .storeAt (.storeAt (.storeAt hs))
    split
    · exact written
    · exact .retestRecords (.storeAt written)
  · exact absurd eq nofun

theorem State.Canonical.report {s : State} {asid : Nat} {l : Launch} {bid tries relHc status : Nat} (hs : s.Canonical G K) :
    (s.report asid l bid tries relHc status).Canonical G K := by
  unfold State.report
  dsimp only
  cases eq : s.deliverReport _ with
  | none => exact .same hs
  | some t => exact .deliverReport eq hs

theorem State.Canonical.flushReports {s : State} (hs : s.Canonical G K) : s.flushReports.Canonical G K := by
  unfold State.flushReports
  refine .foldl (fun _ _ ha => ?_) hs
  split
  · next eq => exact .same (.deliverReport eq ha)
  · exact ha

theorem State.Canonical.endRecord {s : State} {r : QRec} {status : Nat} (hs : s.Canonical G K) : (s.endRecord r status).Canonical G K :=
  .report (.same hs)

theorem State.Canonical.acceptRecord {s : State} {q i : Nat} (hs : s.Canonical G K) : (s.acceptRecord q i).Canonical G K := by
  have judged (t : State) (r : QRec) (p p' : Prop) [Decidable p] [Decidable p'] (ht : t.Canonical G K) :
      (if p then t.endRecord r 3 else if p' then t.endRecord r 4 else t).Canonical G K := .ite (.endRecord ht) (.ite (.endRecord ht) ht)
  unfold State.acceptRecord
  split
  · exact hs
  · refine judged _ _ _ _ ?_
    split
    · exact .storeAt (.same hs)
    · exact .same hs

theorem State.Canonical.launchSignal {s : State} {imm : Word32} (hs : s.Canonical G K) : (s.launchSignal imm).Canonical G K := by
  unfold State.launchSignal
  dsimp only
  split
  · exact .event hs
  · split
    · exact hs
    · split
      · exact .event hs
      · exact .ite (.event hs) (.sometime (.foldl (fun _ _ ha => .acceptRecord ha) (.same hs)))

theorem State.Canonical.writeSlot {s : State} {c : CoreId} {ws : Vector Word 8} (hs : s.Canonical G K) : (s.writeSlot c ws).Canonical G K := by
  unfold State.writeSlot
  dsimp only
  split
  · exact .event hs
  · split
    · exact .event hs
    · exact .ite (.updCore (fun _ hk => .same hk) hs) (.post (.updCore (fun _ hk => .same hk) (.draw hs)))

theorem State.Canonical.writeStokerSlot {s : State} {k : Fin 384} {v : Word} (hs : s.Canonical G K) : (s.writeStokerSlot k v).Canonical G K :=
  .ite (.event hs) (.ite (.event hs) (.updStoker hs))

theorem State.Canonical.place {s : State} {r : QRec} {cs : List CoreId} {sks : List (Fin 384)} {rel bid base : Nat} (hs : s.Canonical G K) :
    (s.place r cs sks rel bid base).Canonical G K :=
  .foldl (fun _ _ hp => .writeStokerSlot hp) (.foldl (fun _ _ hp => .writeSlot (.updCore (fun _ hk => .same hk) (.same hp))) (.same hs))

theorem State.Canonical.placeAll {s t : State} {rel base : Nat}
    {rs : List (QRec × Nat)} (eq : s.placeAll rel base rs = some t) (hs : s.Canonical G K) :
    t.Canonical G K := by
  induction rs generalizing s base with
  | nil => exact Option.some.inj eq ▸ hs
  | cons r rest ih =>
    unfold State.placeAll at eq
    split at eq
    · exact ih eq (.place hs)
    · exact absurd eq nofun

theorem State.Canonical.tryPlace {s t : State} {r : QRec} (eq : s.tryPlace r = some t) (hs : s.Canonical G K) : t.Canonical G K := by
  unfold State.tryPlace at eq
  dsimp only at eq
  obtain ⟨-, eq⟩ := Option.ite_none_left_eq_some.mp eq
  obtain ⟨-, eq⟩ := Option.ite_none_left_eq_some.mp eq
  obtain ⟨-, eq⟩ := Option.ite_none_left_eq_some.mp eq
  exact .placeAll (Option.filter_eq_some_iff.mp eq).1 hs

theorem State.Canonical.placeFirst {s t : State} {held : List Nat} {rs : List QRec} (eq : s.placeFirst held rs = some t) (hs : s.Canonical G K) :
    t.Canonical G K := by
  induction rs generalizing held with
  | nil => exact absurd eq nofun
  | cons r rest ih =>
    unfold State.placeFirst at eq
    split at eq
    · exact ih eq
    · split at eq
      · next u placed => exact Option.some.inj eq ▸ .tryPlace placed hs
      · exact ih eq

theorem State.Canonical.standFirst {s : State} (hs : s.Canonical G K) : s.standFirst.Canonical G K := .same hs

/-! ### Pre-emption, save and load -/

theorem State.Canonical.resumeCopy {s : State} {p : Copy} (hs : s.Canonical G K) : (s.resumeCopy p).Canonical G K := .ite hs (.sometime (.updCopy hs))

theorem State.Canonical.resumeHobs {s : State} {c : CoreId} (hs : s.Canonical G K) : (s.resumeHobs c).Canonical G K :=
  .foldl (fun _ _ ha => .ite (.planHob (.updHob ha)) ha) hs

theorem State.Canonical.resumeStoker {s : State} {sk : Fin 384} (hs : s.Canonical G K) : (s.resumeStoker sk).Canonical G K := by
  unfold State.resumeStoker
  dsimp only
  split
  · exact hs
  · split
    · exact .nextCommand (.updStoker hs)
    · exact .ite (.nextCommand (.updStoker hs)) (.updStoker hs)
    · exact .startNext (.updStoker hs)

theorem State.Canonical.resumeBinding {s : State} {b : Binding} (hs : s.Canonical G K) : (s.resumeBinding b).Canonical G K :=
  .foldl (fun _ _ ha => .resumeStoker ha) (.foldl (fun _ _ ha => .ite ha (.resumeHobs (.foldl (fun _ _ ha' => .resumeCopy ha') ha))) (.updBinding hs))

theorem State.Canonical.faultEvents {s : State} {b : Binding} (hs : s.Canonical G K) : (s.faultEvents b).Canonical G K :=
  .foldl (fun _ _ ha => .event ha) hs

theorem State.Canonical.abortStoker {s : State} {bid : Nat} {sk : Fin 384} (hs : s.Canonical G K) : (s.abortStoker bid sk).Canonical G K := by
  unfold State.abortStoker
  split
  · exact .ite (.endRunning (.dropCommands hs)) hs
  · exact hs

theorem State.Canonical.saveStoker {s : State} {sk : Fin 384} (hs : s.Canonical G K) : (s.saveStoker sk).Canonical G K :=
  .updStoker (.dropCommands (.same hs))

theorem State.Canonical.freeStoker {s : State} {bid : Nat} {sk : Fin 384} (hs : s.Canonical G K) : (s.freeStoker bid sk).Canonical G K := by
  unfold State.freeStoker
  refine .updStoker (.foldl (fun _ _ ha => .endGroup ha) ?_)
  split
  · exact .ite (.endRunning (.dropCommands hs)) hs
  · exact hs

theorem Core.Canonical.move {f : CoreId → CoreId} {k : Core} (hk : k.Canonical) : (Core.move f k).Canonical := .same hk

theorem State.Canonical.putBytes {s : State} {asid : Nat} {ps : List (Nat × Nat)} {bs : List Byte} (hs : s.Canonical G K) :
    (s.putBytes asid ps bs).1.Canonical G K := by
  induction ps generalizing s bs with
  | nil => exact hs
  | cons p rest ih =>
    unfold State.putBytes
    split
    · exact ih (.storeAt hs)
    · exact hs

theorem State.Canonical.putAt {s : State} {asid va : Nat} {bs : List Byte} (hs : s.Canonical G K) : (s.putAt asid va bs).1.Canonical G K :=
  .putBytes hs

theorem State.Canonical.outcome {s : State} {c : CoreId} {code size : Nat} (hs : s.Canonical G K) : (s.outcome c code size).Canonical G K :=
  .updCore (fun _ hk => .same hk) (.same hs)

theorem Core.Canonical.settle {k : Core} {dt : Nat} (hk : k.Canonical) : (k.settle dt).Canonical := .same hk

theorem State.Canonical.settleCal {s : State} {c : CoreId} {bid dt : Nat} (hs : s.Canonical G K) : (s.settleCal c bid dt).Canonical G K := .same hs

theorem State.Canonical.saveCore {s : State} {c : CoreId} {b : Binding} {va : Nat} (hs : s.Canonical G K) : (s.saveCore c b va).Canonical G K := by
  unfold State.saveCore
  extract_lets rounded k asid free recs reclen drawn body digest total
  have hrounded : rounded.Canonical G K := .updCore (fun k hk => .setStrand (.roundFlights hk)) hs
  have hdrawn : drawn.Canonical G K := .same hrounded
  clear_value drawn
  split
  · exact .outcome hdrawn
  · extract_lets limit
    split
    · next eq => exact .outcome (.of_pair eq (.putAt hdrawn))
    · next eq =>
      have first := of_pair eq (.putAt hdrawn)
      split
      · next eq => exact .outcome (.of_pair eq (.putAt first))
      · next eq =>
        have second := of_pair eq (.putAt first)
        refine .ite (.outcome second) ?_
        split
        · next eq => exact .outcome (.of_pair eq (.putAt second))
        · next eq =>
          have third := of_pair eq (.putAt second)
          split
          · next eq => exact .outcome (.of_pair eq (.putAt third))
          · next eq =>
            have fourth := of_pair eq (.putAt third)
            extract_lets img e2 kept freed
            have hkept : kept.Canonical G K := .same fourth
            have hfreed : freed.Canonical G K := .freeCore (.settleCal hkept)
            exact .outcome (.updCore (fun _ hk => .same hk) hfreed)

/-- The memories of a core that a save area holds. -/
def Core.area (k : Core) : List Mem := [k.ls, k.wb0, k.wb1, k.acc, k.code]

theorem Core.area_fromArea {k : Core} {bs : List Byte} : ∀ m ∈ (k.fromArea bs).area, m.wf = true := by
  simp [Core.area, Core.fromArea, Mem.wf_write Mem.wf_nil]
theorem Core.area_freeRegs {k : Core} {n : Nat} : (k.freeRegs n).area = k.area := rfl

/-- A load keeps the handler store of the core it loads. -/
theorem Core.Canonical.under {k new : Core} (hn : ∀ m ∈ new.area, m.wf = true) (hk : k.Canonical) : (k.under new).Canonical := by
  obtain ⟨-, -, -, -, -, handler⟩ := Core.canonical_iff.mp hk
  have mems : (k.under new).mems = new.area ++ [k.handler] := rfl
  rw [Core.Canonical, mems]
  simpa [or_imp, forall_and, handler] using hn

theorem Core.Canonical.freeRegs {k : Core} {n : Nat} (hk : k.Canonical) : (k.freeRegs n).Canonical := .same hk

theorem State.Canonical.loadCore {s : State} {c : CoreId} {va : Nat} (hs : s.Canonical G K) : (s.loadCore c va).Canonical G K := by
  have resumed {k new : Core} {task : Option (Nat × Nat)} (hn : ∀ m ∈ new.area, m.wf = true) (hk : k.Canonical) :
      ({ k.under new with task := task, prepared := true } : Core).Canonical := .same (.under hn hk)
  unfold State.loadCore
  dsimp only
  split
  · exact .outcome hs
  · refine .ite (.outcome hs) ?_
    split
    · exact .outcome hs
    · refine .ite (.outcome hs) ?_
      split
      · exact .outcome (.updBinding (.updCore (fun k hk => resumed Core.area_fromArea hk) hs))
      · refine .outcome (.updCore (fun k hk => .under ?_ hk) (.same hs))
        rw [Core.area_freeRegs]
        exact Core.area_fromArea

theorem State.Canonical.resolveStokers {s : State} {b : Binding} (hs : s.Canonical G K) : (s.resolveStokers b).1.Canonical G K := by
  unfold State.resolveStokers
  refine .foldl_fst (fun _ _ hp => ?_) hs
  split
  · next eq =>
      dsimp only
      split
      · exact .of_pair' eq (.draw hp)
      · exact .updStoker (.freeStoker (.of_pair' eq (.draw hp)))

theorem State.Canonical.renameCores {s : State} {b : Binding} (hs : s.Canonical G K) : (s.renameCores b).Canonical G K := by
  unfold State.renameCores
  extract_lets f moved cal arrivals lib t mv
  have renamed {k : Core} {d} (hk : k.Canonical) : ({ k.move f with dom := k.dom.set 0 d } : Core).Canonical := .same (.move (f := f) hk)
  have hmoved : moved.Canonical G K := .foldl (fun _ _ h => .updCore (fun _ hk => renamed hk) h) hs
  clear_value moved
  have ht : t.Canonical G K := .same hmoved
  exact .updBinding (.updBinding (.resolveStokers (.same ht)))

/-! ### Dispatch -/

theorem Core.Canonical.preparedCore {s : State} {b : Binding} {c : CoreId} {image data : List Byte} (hk : (s.core c).Canonical) :
    (s.preparedCore b c image data).Canonical := by
  obtain ⟨-, -, -, -, -, handler⟩ := Core.canonical_iff.mp hk
  exact Core.canonical_iff.mpr ⟨Mem.wf_write rfl _ _, rfl, rfl, rfl, Mem.wf_write rfl _ _, handler⟩

theorem Core.Canonical.start {k : Core} (hk : k.Canonical) : k.start.Canonical := .same hk

theorem State.Canonical.dropTask {s : State} {bid : Nat} {c : CoreId} {all : Bool} (hs : s.Canonical G K) : (s.dropTask bid c all).Canonical G K := by
  unfold State.dropTask
  extract_lets flue copied cleared freed
  have hcopied : copied.Canonical G K := .ite (.foldl (fun _ _ h => .endCopy h) hs) hs
  have hcleared : cleared.Canonical G K := .updCore (fun _ hk => .same (.ite (.clearFlue hk) hk)) hcopied
  have hfreed : freed.Canonical G K := .ite (.freeCore hcleared) hcleared
  exact .same hfreed

theorem State.Canonical.removeBinding {s : State} {b : Binding} (hs : s.Canonical G K) : (s.removeBinding b).Canonical G K :=
  .same (.foldl (fun _ _ ha => .freeStoker ha) (.foldl (fun _ _ ha => .ite (.dropTask ha) (.ite (.updCore (fun _ hk => .clearFlue hk) ha) ha)) hs))

theorem State.Canonical.dropQueue {s : State} {q : Fin 64} (hs : s.Canonical G K) : (s.dropQueue q).Canonical G K :=
  .same (.foldl (fun _ _ ha => .endRecord ha) hs)

theorem State.Canonical.answer {s : State} {m : MgmtMsg} {status result : Nat} (hs : s.Canonical G K) : (s.answer m status result).Canonical G K :=
  .ite (.same hs) (.same hs)

theorem State.Canonical.command {s : State} {op : Nat} {masks : List Word} {act : MgmtMsg → State → State × Nat × Nat}
    (hact : ∀ m s, s.Canonical G K → (act m s).1.Canonical G K) (hs : s.Canonical G K) : (s.command op masks act).Canonical G K := by
  unfold State.command
  dsimp only
  split
  · exact hs
  · exact .ite (.same hs) (.ite (.answer (.same hs)) (.ite (.answer (hact _ _ (.same hs))) (.answer (.same hs))))

/-! ### The host -/

theorem State.Canonical.setQp {s : State} {qp : Fin 256} {q : Option QPair} (hs : s.Canonical G K) : (s.setQp qp q).Canonical G K :=
  .ite hs (.same hs)

theorem State.Canonical.reply {s : State} {r : Reply} (hs : s.Canonical G K) : (s.reply r).Canonical G K := .same hs

theorem State.Canonical.nakAccess {s : State} {qp : Fin 256} (hs : s.Canonical G K) : (s.nakAccess qp).Canonical G K := .reply (.same hs)

theorem State.Canonical.hostWrite {s : State} {qp : Fin 256} {rkey : Word32} {va : Nat} {bs : List Byte} (hs : s.Canonical G K) :
    (s.hostWrite qp rkey va bs).1.Canonical G K := by
  unfold State.hostWrite
  split
  · exact hs
  · split
    · exact .nakAccess hs
    · split
      · exact .same hs
      · split
        · exact .nakAccess hs
        · exact .event (.nakAccess hs)
        · exact .foldl_fst (fun _ _ hp => .storeAt hp) hs

theorem State.Canonical.hostRead {s : State} {as : List Nat} (hs : s.Canonical G K) : (s.hostRead as).1.Canonical G K := by
  unfold State.hostRead
  split
  · exact .countCorrected hs
  · exact .same (.errorRecord hs)

theorem State.Canonical.ownStripe {s : State} {asid pa : Nat} (hs : s.Canonical G K) : (s.ownStripe asid pa).Canonical G K := by
  unfold State.ownStripe
  split
  · exact .same hs
  · exact hs

theorem State.Canonical.mapLeaf {s : State} {asid va bits : Nat} {e : Word} (hs : s.Canonical G K) : (s.mapLeaf asid va bits e).Canonical G K := by
  unfold State.mapLeaf
  split
  · exact .ite hs (.change hs (fun h => Mem.wf_setWord h _ _))
  · exact hs

theorem State.Canonical.mapPage {s : State} {asid va bits : Nat} {e : Word} (hs : s.Canonical G K) : (s.mapPage asid va bits e).Canonical G K :=
  .ite hs (.ownStripe (.mapLeaf hs))

theorem State.Canonical.poolPage {s : State} {part : Fin 4} {pa bits : Nat} (hs : s.Canonical G K) : (s.poolPage part pa bits).Canonical G K :=
  .ite hs (.same hs)

theorem State.Canonical.mapCompute {s : State} {asid va : Nat} {chan : Fin 384} {w : Bool} (hs : s.Canonical G K) :
    (s.mapCompute asid va chan w).Canonical G K := by
  unfold State.mapCompute
  split
  · exact hs
  · split
    · exact .mapLeaf hs
    · exact hs

theorem State.Canonical.freePage {s : State} {asid va : Nat} (hs : s.Canonical G K) : (s.freePage asid va).Canonical G K := by
  unfold State.freePage
  split
  · exact hs
  · exact .ite hs (.ownInval (.toQuarantine (.change hs (fun h => Mem.wf_setWord h _ _))))

/-! ### Links -/

theorem State.Canonical.tryRemote {s : State} {addr : Nat} {op : RemoteOp} (hs : s.Canonical G K) : (s.tryRemote addr op).1.Canonical G K := by
  unfold State.tryRemote
  split
  · next eq =>
      dsimp only
      split
      · split
        · exact .ite (.event (.errorRecord (.of_pair' eq (.draw hs)))) (.errorRecord (.of_pair' eq (.draw hs)))
        · split
          · next eq''' => exact .of_pair eq''' (.serve (.of_pair' eq (.draw hs)))
          · next eq''' =>
              split
              · exact .operate (.of_pair eq''' (.serve (.of_pair' eq (.draw hs))))
              · exact .of_pair eq''' (.serve (.of_pair' eq (.draw hs)))
      · exact .ite (.event (.of_pair' eq (.draw hs))) (.of_pair' eq (.draw hs))

theorem State.Canonical.queueRemote {s : State} {dev addr : Nat} {op : RemoteOp} (hs : s.Canonical G K) : (s.queueRemote dev addr op).Canonical G K :=
  .ite (.post (.same hs)) (.same hs)

theorem State.Canonical.retryRemotes {s : State} (hs : s.Canonical G K) : s.retryRemotes.Canonical G K := by
  unfold State.retryRemotes
  refine .foldl (fun _ _ hp => ?_) (.same hs)
  split
  · exact .queueRemote hp
  · split
    · next eq => exact .of_pair eq (.tryRemote hp)
    · next eq => exact .queueRemote (.of_pair eq (.tryRemote hp))

/-! ### Power and sensors -/

theorem State.Canonical.updIsland {s : State} {i : Fin 64} {f : Island → Island} (hs : s.Canonical G K) : (s.updIsland i f).Canonical G K := .same hs

theorem State.Canonical.startHop {s : State} {i : Fin 64} {target : Nat} (hs : s.Canonical G K) : (s.startHop i target).Canonical G K := .updIsland hs

theorem State.Canonical.setFstep {s : State} {i : Fin 64} {fstep : Nat} (hs : s.Canonical G K) : (s.setFstep i fstep).Canonical G K :=
  .ite hs (.updIsland hs)

theorem State.Canonical.capChanged {s : State} {old : Nat} (hs : s.Canonical G K) : (s.capChanged old).Canonical G K := .ite hs (.post (.same hs))

theorem State.Canonical.enforceCap {s : State} {lower : Bool} (hs : s.Canonical G K) : (s.enforceCap lower).Canonical G K := by
  unfold State.enforceCap
  dsimp only
  refine .foldl (fun s i hs => .ite (.setFstep hs) hs) (.changeCores hs fun c all => ?_)
  show Core.Canonical (Vector.ofFn _)[c.val]
  rw [Vector.getElem_ofFn]
  exact .ite (.same (all c)) (all c)

theorem State.Canonical.updSensor {s : State} {n : Fin 320} {f : Sensor → Sensor} (hs : s.Canonical G K) : (s.updSensor n f).Canonical G K := .same hs

/-! ### Boot -/

theorem State.Canonical.powerUp {s : State} : s.powerUp.Canonical G K := .same .reset

theorem Core.Canonical.booted {lines : List (Nat × List Word32)} : Core.Canonical { handler := handlerStore lines } := by
  have handler : (handlerStore lines).wf = true := by
    unfold handlerStore
    refine List.foldlRecOn lines _ (motive := fun m : Mem => m.wf = true) rfl fun m hm l _ => Mem.wf_write hm _ _
  exact Core.canonical_iff.mpr ⟨rfl, rfl, rfl, rfl, rfl, handler⟩

theorem State.Canonical.restart {s : State} {img : Option FwImage} : (s.restart img).Canonical G K := by
  unfold State.restart
  dsimp only
  split
  · refine .changeCores (.powerUp (s := s)) fun c _ => ?_
    show Core.Canonical (Vector.replicate 256 _)[c.val]
    rw [Vector.getElem_replicate]
    exact .booted
  · exact .same (.powerUp (s := s))

/-! ### Control instructions -/

theorem State.Canonical.callEffect {d : XReg} {tgt : BitVec 15} {u : Turn} {s : State} (hs : s.Canonical G K) :
    (callEffect d tgt u s).Canonical G K :=
  .pushNow (.goto (.fly (.updStrand hs)))

theorem State.Canonical.retEffect {pos : Nat} {u : Turn} {s : State} (hs : s.Canonical G K) : (retEffect pos u s).Canonical G K := by
  unfold Machine.retEffect
  refine .pushNow (.goto ?_)
  split
  · exact .capture hs
  · exact hs

theorem State.Canonical.loopEffect {cnt : Word} {tgt : BitVec 15} {u : Turn} {s : State} (hs : s.Canonical G K) :
    (loopEffect cnt tgt u s).Canonical G K :=
  .pushNow (.ite (.goto hs) (.goto (.updStrand hs)))

theorem State.Canonical.markNow {s : State} {c : CoreId} {st : StrandId} {tag : BitVec 4} (hs : s.Canonical G K) :
    (s.markNow c st tag).Canonical G K :=
  .later (.ite (.updStrand (.addHold (.updStrand hs))) (.addHold (.updStrand hs)))

theorem State.Canonical.endTfence {s : State} {c : CoreId} {st : StrandId} (hs : s.Canonical G K) : (s.endTfence c st).Canonical G K :=
  .ite (.endWait hs) (.updStrand hs)

theorem State.Canonical.dtwaitEffect {d : XReg} {target : BitVec 48} {u : Turn} {s : State} (hs : s.Canonical G K) :
    (dtwaitEffect d target u s).Canonical G K :=
  .ite (.laterOn (.waitFor hs)) (.ite (.later (.fly (.updStrand hs))) (.fly (.updStrand hs)))

theorem State.Canonical.endDtwait {s : State} {c : CoreId} {st : StrandId} {ord : Nat} (hs : s.Canonical G K) :
    (s.endDtwait c st ord).Canonical G K := by
  unfold State.endDtwait
  split
  · exact .ite hs (.endWait (.fly hs))
  · exact hs

/-! ### Turns and ticks -/

theorem State.Canonical.begin {s : State} {c : CoreId} {st : StrandId} {rest : List (CoreId × StrandId)} (hs : s.Canonical G K) :
    (s.begin c st rest).Canonical G K :=
  .same hs

theorem State.Canonical.takeInterrupt {s : State} {c : CoreId} {st : StrandId} {src : Bool} {payload : Word} (hs : s.Canonical G K) :
    (s.takeInterrupt c st src payload).Canonical G K :=
  .updStrand (.trap hs)

theorem State.Canonical.illegalWord {s : State} {c : CoreId} {st : StrandId} {w : Word32} {kind : Nat} (hs : s.Canonical G K) :
    (s.illegalWord c st w kind).Canonical G K :=
  .ite hs (.trap hs)

theorem State.Canonical.imageTrap {s : State} {c : CoreId} {st : StrandId} {f : Nat × Nat} (hs : s.Canonical G K) :
    (s.imageTrap c st f).Canonical G K :=
  .trap hs

theorem State.Canonical.judgeSources {s t : State} {c : CoreId} {st : StrandId} {i : Instr} {h : Hdr} (hs : s.Canonical G K) (ht : t.Canonical G K) :
    (s.judgeSources t c st i h).Canonical G K := by
  unfold State.judgeSources
  dsimp only
  split
  · exact ht
  · split
    · exact .countPlaces ht
    · split
      · exact .result (.issued (.same hs))
      · exact .updStrand (.same ht)

theorem State.Canonical.codeError {s t : State} {c : CoreId} {st : StrandId} (eq : s.codeError c st = some t) (hs : s.Canonical G K) :
    t.Canonical G K := by
  unfold State.codeError at eq
  obtain ⟨-, eq⟩ := Option.ite_none_left_eq_some.mp eq
  exact Option.some.inj eq ▸ .trap (.errorRecord (.same hs))

theorem State.Canonical.earlyImage {s : State} {c : CoreId} {st : StrandId} (hs : s.Canonical G K) : (s.earlyImage c st).Canonical G K := by
  unfold State.earlyImage
  dsimp only
  split
  · split
    · exact hs
    · split
      · exact .imageTrap hs
      · exact hs
  · exact hs

theorem State.Canonical.beginHolds {s : State} (hs : s.Canonical G K) : s.beginHolds.Canonical G K :=
  .foldl (fun _ _ ha => .ite (.sometime (.updIsland (.foldl (fun _ _ ha' => .capture ha') ha))) ha) hs

theorem Core.Canonical.noteWide {k : Core} {hc : Nat} {dt : Nat} (hk : k.Canonical) : (k.noteWide hc dt).Canonical := .ite (.same hk) hk

theorem Core.Canonical.noteLeaves {old : State} {c : CoreId} {k : Core} {hc : Nat} {run : Bool} {dt : Nat} (hk : k.Canonical) :
    (old.noteLeaves c k hc run dt).Canonical := .same hk

theorem Core.Canonical.advanceCore {s old : State} {c : CoreId} (hk : (old.core c).Canonical) : (s.advanceCore old c).Canonical := by
  unfold State.advanceCore
  extract_lets k k1
  have hk1 : k1.Canonical := .ite hk (.same hk)
  clear_value k1
  split
  · exact hk1
  · next k2 _ _ _ _ =>
    have hk2 : k2.Canonical := .same hk1
    split
    · exact .same hk2
    · exact .ite (.noteLeaves (.same hk2)) (.same hk2)

theorem State.Canonical.tick {s : State} (hs : s.Canonical G K) : s.tick.Canonical G K := by
  have wide : (({ s.beginHolds with cores := Vector.ofFn fun i => match s.beginHolds.bindingOf i with
      | some b => if (s.beginHolds.core i).ticked then (s.beginHolds.core i).noteWide s.beginHolds.hc b.dt else s.beginHolds.core i
      | none => s.beginHolds.core i } : State)).Canonical G K := by
    refine .changeCores (.beginHolds hs) fun c all => ?_
    show Core.Canonical (Vector.ofFn _)[c.val]
    rw [Vector.getElem_ofFn]
    split
    · exact .ite (.noteWide (all c)) (all c)
    · exact all c
  unfold State.tick
  dsimp only
  refine .changeCores wide fun c all => ?_
  show Core.Canonical (Vector.ofFn _)[c.val]
  rw [Vector.getElem_ofFn]
  exact .advanceCore (all c)

end Sys2Proof.Machine

/-! What each instruction and each event leaves canonical (log entry 3). -/

namespace Sys2Proof.Machine

-- many short proofs: one after the other they need no thread each
set_option Elab.async false

variable {G K : Prop}

/-! ### Channels -/

theorem State.Keeps.execRefreshManagement {s : State} (hs : s.Canonical G K) : State.Keeps G K (execRefreshManagement s) := by
  unfold Machine.execRefreshManagement
  refine .next ?_
  split
  · exact hs
  · exact .updStoker (.same hs)

theorem State.Keeps.execTenureEnd {s : State} (hs : s.Canonical G K) : State.Keeps G K (execTenureEnd s) := by
  unfold Machine.execTenureEnd
  refine .next ?_
  split
  · exact hs
  · exact .updStoker hs

/-! ### Issue -/

theorem State.Keeps.issue {h : Hdr} {r : Req} {act : Turn → State → State} {s : State}
    (hact : ∀ u s, s.Canonical G K → (act u s).Canonical G K) (hs : s.Canonical G K) : State.Keeps G K (issue h r act s) := by
  unfold Machine.issue
  split
  · trivial
  · exact .attempt hact hs

/-! ### Scalar accesses -/

theorem State.Keeps.lsLoad {h : Hdr} {d : XReg} {f : IntFmt} {sc : Option Scope} {target : CoreId} {a rd wr : Nat} {fault : Option TrapInfo}
    {s : State} (hs : s.Canonical G K) :
    State.Keeps G K (lsLoad h d f sc target a rd wr fault s) :=
  .issue (fun _ _ hs' => .lsLoadEffect hs') hs

theorem State.Keeps.lsStore {h : Hdr} {b : XReg} {f : IntFmt} {sc : Option Scope} {target : CoreId} {a lat : Nat} {fault : Option TrapInfo}
    {s : State} (hs : s.Canonical G K) :
    State.Keeps G K (lsStore h b f sc target a lat fault s) :=
  .issue (fun _ _ hs' => .sendAccess (.ordFence hs')) hs

theorem State.Keeps.farLoad {h : Hdr} {d : XReg} {f : IntFmt} {sc : Option Scope} {dev : Option Nat} {operand pa : Nat} {fault : Option TrapInfo}
    {s : State} (hs : s.Canonical G K) :
    State.Keeps G K (farLoad h d f sc dev operand pa fault s) :=
  .issue (fun _ _ hs' => .farLoadEffect hs') hs

theorem State.Keeps.farStore {h : Hdr} {b : XReg} {f : IntFmt} {sc : Option Scope} {unit : MemUnit} {operand pa : Nat} {fault : Option TrapInfo}
    {s : State} (hs : s.Canonical G K) :
    State.Keeps G K (farStore h b f sc unit operand pa fault s) :=
  .issue (fun _ _ hs' => .farStoreEffect hs') hs

/-! ### Objects and atomics -/

theorem State.Keeps.objUpdate {h : Hdr} {sp : ObjSpace} {a : XReg} {size : Nat} {ord : Option Scope} {op : UnitOp} {writes : Bool} {s : State}
    (hs : s.Canonical G K) :
    State.Keeps G K (objUpdate h sp a size ord op writes s) := by
  unfold Machine.objUpdate
  refine .issue (fun _ _ hs' => .sendAccess ?_) hs
  split
  · exact .fly (.ite (.touch hs') hs')
  · exact .ite (.touch hs') hs'

theorem State.Keeps.objWait {h : Hdr} {sp : ObjSpace} {d a : XReg} {size cls cond : Nat} {arg : Word} {limit : Option Nat} {acq : Bool}
    {s : State} (hs : s.Canonical G K) :
    State.Keeps G K (objWait h sp d a size cls cond arg limit acq s) :=
  .issue (fun _ _ hs' => .objWaitEffect hs') hs

theorem State.Keeps.objPoll {h : Hdr} {sp : ObjSpace} {d a : XReg} {size poll : Nat} {ord : Option Scope} {s : State} (hs : s.Canonical G K) :
    State.Keeps G K (objPoll h sp d a size poll ord s) :=
  .issue (fun _ _ hs' => .objPollEffect hs') hs

theorem State.Keeps.execBwaittExpiry {s : State} (hs : s.Canonical G K) : State.Keeps G K (execBwaittExpiry s) := by
  unfold Machine.execBwaittExpiry
  refine .next ?_
  split
  · exact hs
  · split
    · exact hs
    · exact .release (.accessDone (.ite (.requeue hs) hs))

theorem State.Keeps.lsAtomic {h : Hdr} {d : XReg} {o : AtomSpec} {t : CoreId} {ad lat wr : Nat} {v cmp : Word} {fault : Option TrapInfo}
    {s : State} (hs : s.Canonical G K) :
    State.Keeps G K (lsAtomic h d o t ad lat wr v cmp fault s) :=
  .issue (fun _ _ hs' => .lsAtomicEffect hs') hs

theorem State.Keeps.farAtomic {h : Hdr} {d : XReg} {o : AtomSpec} {unit : MemUnit} {operand pa : Nat} {v cmp : Word} {fault : Option TrapInfo}
    {s : State} (hs : s.Canonical G K) :
    State.Keeps G K (farAtomic h d o unit operand pa v cmp fault s) :=
  .issue (fun _ _ hs' => .farAtomicEffect hs') hs

/-! ### The copy unit -/

theorem State.Keeps.execCopyGroupTransfer {id j : Nat} {side : XferSide} {s : State} (hs : s.Canonical G K) :
    State.Keeps G K (execCopyGroupTransfer id j side s) := by
  unfold Machine.execCopyGroupTransfer
  refine .next ?_
  split
  · exact hs
  · split
    · exact .ite (.openGroups hs) (.readGroup hs)
    · exact .writeGroup hs

theorem State.Keeps.execFlueBeatPerform {id j : Nat} {s : State} (hs : s.Canonical G K) : State.Keeps G K (execFlueBeatPerform id j s) := by
  unfold Machine.execFlueBeatPerform
  refine .next ?_
  split
  · exact hs
  · exact .writeGroup hs

theorem State.Keeps.execCopyChunkRead {id j : Nat} {s : State} (hs : s.Canonical G K) : State.Keeps G K (execCopyChunkRead id j s) := by
  unfold Machine.execCopyChunkRead
  refine .next ?_
  split
  · exact hs
  · dsimp only
    split
    · exact hs
    · split
      · exact .post hs
      · split
        · next eq => exact .stopCopy (.of_pair eq (.openChunk (.noteLeft hs)))
        · next eq''' =>
            split
            · next eq'''' =>
                refine .post (.updCopy (.of_pair eq'''' ?_))
                split
                · exact .of_pair eq''' (.openChunk (.noteLeft hs))
                · exact .locateSource (.of_pair eq''' (.openChunk (.noteLeft hs)))
            · next eq'''' =>
                refine .stopCopy (.of_pair eq'''' ?_)
                split
                · exact .of_pair eq''' (.openChunk (.noteLeft hs))
                · exact .locateSource (.of_pair eq''' (.openChunk (.noteLeft hs)))
            · next eq'''' =>
                refine .chunkRead (.of_pair eq'''' ?_)
                split
                · exact .of_pair eq''' (.openChunk (.noteLeft hs))
                · exact .locateSource (.of_pair eq''' (.openChunk (.noteLeft hs)))
            · next eq''''' =>
                split
                · next eq'''''' =>
                    refine .post (.updCopy (.of_pair eq'''''' (.readWords (.pick (.of_pair eq''''' ?_)))))
                    split
                    · exact .of_pair eq''' (.openChunk (.noteLeft hs))
                    · exact .locateSource (.of_pair eq''' (.openChunk (.noteLeft hs)))
                · next eq'''''' =>
                    refine .stopCopy (.of_pair eq'''''' (.readWords (.pick (.of_pair eq''''' ?_))))
                    split
                    · exact .of_pair eq''' (.openChunk (.noteLeft hs))
                    · exact .locateSource (.of_pair eq''' (.openChunk (.noteLeft hs)))
                · next eq'''''' =>
                    split
                    · refine .chunkRead (.of_pair eq'''''' (.readWords (.pick (.of_pair eq''''' ?_))))
                      split
                      · exact .of_pair eq''' (.openChunk (.noteLeft hs))
                      · exact .locateSource (.of_pair eq''' (.openChunk (.noteLeft hs)))
                    · refine .sometime (.updCopy (.of_pair eq'''''' (.readWords (.pick (.of_pair eq''''' ?_)))))
                      split
                      · exact .of_pair eq''' (.openChunk (.noteLeft hs))
                      · exact .locateSource (.of_pair eq''' (.openChunk (.noteLeft hs)))

theorem State.Keeps.execCopyChunkPerform {id j : Nat} {s : State} (hs : s.Canonical G K) : State.Keeps G K (execCopyChunkPerform id j s) := by
  unfold Machine.execCopyChunkPerform
  refine .next ?_
  split
  · exact hs
  · next p _ =>
    dsimp only
    refine .ite hs (.ite (.post hs) (.ite (.stopCopy (.endBinding hs)) ?_))
    split
    · next eq => exact .stopCopy (.of_pair eq (.openChunk hs))
    · next t q eq =>
      have ht := State.Canonical.of_pair eq (.openChunk hs)
      refine .ite (.ite (.chunkDone ht) (.post ht)) ?_
      generalize hq : (if q.words.isSome = true then q else _ : Copy) = q'
      have located : (match q'.words with
          | some ws => (t, Located.words ws)
          | none => t.locateDest q' (q.chunkBytes j).1 (q.chunkBytes j).2.1.length).1.Canonical G K := by
        split
        · exact ht
        · exact .locateDest ht
      split
      · next eq => exact .post (.of_pair eq located)
      · next eq => exact .stopCopy (.of_pair eq located)
      · next eq => exact .chunkDone (.of_pair eq located)
      · next eq =>
        have hu := State.Canonical.of_pair eq located
        generalize hsel : (if q'.lsDest.isSome = true then _ else _ : (List (Nat × Nat × Nat) × List (Nat × Nat × Nat)) × State) = sel
        have hsel : sel.2.Canonical G K := by
          rw [← hsel]
          split
          · exact .draw hu
          · exact .pick hu
        split
        · exact .stopCopy (.errorRecord hsel)
        · split
          · next eq => exact .post (.updCopy (.of_pair eq (.writeWords hsel)))
          · next eq =>
            have written := State.Canonical.of_pair eq (.writeWords hsel)
            exact .ite (.chunkDone (.raise written)) (.sometime (.updCopy (.raise written)))

theorem State.Keeps.copyOp {h : Hdr} {k : CopyKind} {d a b : XReg} {o : CopySpec} {s : State} (hs : s.Canonical G K) :
    State.Keeps G K (copyOp h k d a b o s) :=
  .issue (fun _ _ hs' => .acceptCopy hs') hs

/-! ### Collectives -/

theorem State.Keeps.collOp {h : Hdr} {k : CopyKind} {d a b : XReg} {fmt : Fmt} {rm : Rm} {sat : Bool} {o : CollSpec} {s : State}
    (hs : s.Canonical G K) :
    State.Keeps G K (collOp h k d a b fmt rm sat o s) :=
  .issue (fun _ _ hs' => .acceptColl hs') hs

/-! ### The archive -/

theorem State.Keeps.execFillComplete {obj ver folio : Nat} {bad : Bool} {s : State} (hs : s.Canonical G K) :
    State.Keeps G K (execFillComplete obj ver folio bad s) := by
  unfold Machine.execFillComplete
  refine .next ?_
  split
  · exact hs
  · dsimp only
    split
    · exact .same (.errorRecord hs)
    · split
      · next eq => exact .post (.of_pair eq (.serve hs))
      · next eq'' =>
          split
          · exact .capture (.countFill (.same (.of_pair eq'' (.serve hs))))
          · exact .countFill (.same (.of_pair eq'' (.serve hs)))

theorem State.Keeps.execRrsizeApply {s : State} (hs : s.Canonical G K) : State.Keeps G K (execRrsizeApply s) := by
  unfold Machine.execRrsizeApply
  refine .next ?_
  split
  · exact .ite (.shrinkRoom (.same hs)) hs
  · exact hs

theorem State.Keeps.execAccessionStart {s : State} (hs : s.Canonical G K) : State.Keeps G K (execAccessionStart s) := by
  unfold Machine.execAccessionStart
  refine .next ?_
  dsimp only
  split
  · exact .pruneVersions hs
  · split <;> exact .sometime (.same (.draw (.pruneVersions hs)))

theorem State.Keeps.execAccessionComplete {s : State} (hs : s.Canonical G K) : State.Keeps G K (execAccessionComplete s) := by
  unfold Machine.execAccessionComplete
  refine .next ?_
  dsimp only
  split
  · exact .draw hs
  · split
    · exact .sometime (.storeAt (.storeAt (.storeAt (.pruneVersions (.same (.draw hs))))))
    · exact .sometime (.draw hs)

/-! ### Vector arithmetic -/

theorem State.Keeps.vElems {h : Hdr} {d : VReg} {w : Nat} {js : List Nat} {rm : Rm} {lat : Nat} {op : Nat → Nat → Nat × Flg} {s : State}
    (hs : s.Canonical G K) :
    State.Keeps G K (vElems h d w js rm lat op s) :=
  .issue (fun _ _ hs' => .elemsEffect hs') hs

theorem State.Keeps.vMap {h : Hdr} {d : VReg} {k : KReg} {f : Fmt} {rm : Rm} {lat : Nat} {op : Nat → Nat → Nat × Flg} {s : State}
    (hs : s.Canonical G K) :
    State.Keeps G K (vMap h d k f rm lat op s) :=
  .vElems hs

theorem State.Keeps.vBin {h : Hdr} {d a b : VReg} {k : KReg} {f : Fmt} {rm : Rm} {sat : Bool} {lat : Nat} {fl : Num → Num → Num}
    {int : Int → Int → Int} {s : State} (hs : s.Canonical G K) :
    State.Keeps G K (vBin h d a b k f rm sat lat fl int s) :=
  .vMap hs

theorem State.Keeps.vFused {h : Hdr} {d a b c : VReg} {k : KReg} {f : Fmt} {rm : Rm} {sat : Bool} {negP negC : Bool} {s : State}
    (hs : s.Canonical G K) :
    State.Keeps G K (vFused h d a b c k f rm sat negP negC s) :=
  .vMap hs

theorem State.Keeps.vBounded {op : BoundedOp} {h : Hdr} {d a : VReg} {k : KReg} {f : Fmt} {rm : Rm} {s : State} (hs : s.Canonical G K) :
    State.Keeps G K (vBounded op h d a k f rm s) :=
  .vMap hs

/-! ### The range engine -/

theorem State.Keeps.execAccumulatorRowWrite {c : CoreId} {hq : Fin 4} {id row : Nat} {s : State} (hs : s.Canonical G K) :
    State.Keeps G K (execAccumulatorRowWrite c hq id row s) := by
  unfold Machine.execAccumulatorRowWrite
  refine .next ?_
  split
  · exact hs
  · exact .raise (.endCmd (.updCmd (.updHob (.foldl (fun _ _ ha => .updCore (fun _ hk => .putRow hk) ha) hs))))

theorem State.Keeps.execDrainRowWrite {c : CoreId} {hq : Fin 4} {id row : Nat} {s : State} (hs : s.Canonical G K) :
    State.Keeps G K (execDrainRowWrite c hq id row s) := by
  unfold Machine.execDrainRowWrite
  refine .next ?_
  split
  · exact hs
  · dsimp only
    split
    · exact hs
    · split
      · exact .laterOn hs
      · next eq => exact .raise (.endCmd (.updCmd (.storeAt (.grant eq hs))))

theorem State.Keeps.execReshapeComplete {s : State} (hs : s.Canonical G K) : State.Keeps G K (execReshapeComplete s) := by
  unfold Machine.execReshapeComplete
  refine .next ?_
  split
  · exact .updCore (fun _ hk => .same hk) hs
  · exact hs

theorem State.Keeps.execChainReady {s : State} (hs : s.Canonical G K) : State.Keeps G K (execChainReady s) := by
  unfold Machine.execChainReady
  refine .next ?_
  split
  · exact .updCore (fun _ hk => .same hk) hs
  · exact hs

/-! ### Vector conversions -/

theorem State.Keeps.vConv {h : Hdr} {d a : VReg} {k : KReg} {sf df : Fmt} {rm : Rm} {part lat : Nat} {op : Nat → Nat → Nat → Nat × Flg}
    {s : State} (hs : s.Canonical G K) :
    State.Keeps G K (vConv h d a k sf df rm part lat op s) :=
  .vElems hs

theorem State.Keeps.vScaled {h : Hdr} {d a b : VReg} {k : KReg} {sfmt dfmt : Fmt} {rm : Rm} {sat : Bool} {sb : BitVec 4} {sf : Bool}
    {part : BitVec 4} {s : State} (hs : s.Canonical G K) :
    State.Keeps G K (vScaled h d a b k sfmt dfmt rm sat sb sf part s) := by
  unfold Machine.vScaled
  exact .vConv hs

theorem State.Keeps.vRed {h : Hdr} {d : VReg} {df : Fmt} {rm : Rm} {op : Nat → Nat × Flg} {s : State} (hs : s.Canonical G K) :
    State.Keeps G K (vRed h d df rm op s) :=
  .vElems hs

/-! ### The near-memory engines -/

theorem State.Keeps.execGroupStart {sk : Fin 384} {s : State} (hs : s.Canonical G K) : State.Keeps G K (execGroupStart sk s) := by
  unfold Machine.execGroupStart
  refine .next ?_
  dsimp only
  split
  · exact hs
  · split
    · exact hs
    · split
      · next eq => exact .post (.of_pair eq (.serve hs))
      · next eq'' =>
          split
          · next eq''' => split <;> exact .endGroup (.of_pair eq''' (.judgeGroup (.updStoker (.of_pair eq'' (.serve hs)))))
          · next eq''' =>
              split
              · exact .endGroup (.of_pair eq''' (.judgeGroup (.updStoker (.of_pair eq'' (.serve hs)))))
              · exact .nextCommand (.of_pair eq''' (.judgeGroup (.updStoker (.of_pair eq'' (.serve hs)))))

theorem State.Keeps.execSemwait {sk : Fin 384} {cmd : BitVec 512} {s : State} (hs : s.Canonical G K) : State.Keeps G K (execSemwait sk cmd s) := by
  unfold Machine.execSemwait
  refine .next (.boundary (fun s g hs => ?_) hs)
  extract_lets p g again test
  have hagain (s : State) (g : Group) (hs : s.Canonical G K) : (again s g).Canonical G K := .post (.updStoker hs)
  have htest (s : State) (g : Group) (hs : s.Canonical G K) : (test s g).Canonical G K :=
    .ite (.endRunning hs) (.ite (.nextCommand hs) (hagain _ _ hs))
  refine .ite (htest _ _ hs) ?_
  split
  · next eq => exact hagain _ _ (.of_pair eq (.serve hs))
  · next eq =>
    have served := State.Canonical.of_pair eq (.serve hs)
    split
    · next eq => exact .endRunning (.of_pair eq (.stokerRead served))
    · next eq => exact htest _ _ (.of_pair eq (.stokerRead served))

theorem State.Keeps.execSemwaitTimeout {s : State} (hs : s.Canonical G K) : State.Keeps G K (execSemwaitTimeout s) := by
  unfold Machine.execSemwaitTimeout
  refine .next ?_
  split
  · exact hs
  · split
    · dsimp only
      split
      · exact .endRunning (.dropCommands hs)
      · exact .ite (.nextCommand (.dropCommands hs)) (.endRunning (.dropCommands hs))
    · exact hs

theorem State.Keeps.execSempost {sk : Fin 384} {cmd : BitVec 512} {s : State} (hs : s.Canonical G K) : State.Keeps G K (execSempost sk cmd s) := by
  unfold Machine.execSempost
  refine .next (.boundary (fun s g hs => ?_) hs)
  extract_lets p
  split
  · next eq => exact .post (.of_pair eq (.serve hs))
  · next eq =>
    have served := State.Canonical.of_pair eq (.serve hs)
    split
    · next eq => exact .endRunning (.of_pair eq (.stokerRead served))
    · next eq => exact .nextCommand (.retestRecords (.storeAt (.of_pair eq (.stokerRead served))))

theorem State.Keeps.execAbort {sk : Fin 384} {s : State} (hs : s.Canonical G K) : State.Keeps G K (execAbort sk s) := by
  unfold Machine.execAbort
  refine .next ?_
  split
  · exact .endRunning hs
  · exact hs

theorem State.Keeps.execNlaunchDelivery {c : CoreId} {hq : Fin 4} {id : Nat} {s : State} (hs : s.Canonical G K) :
    State.Keeps G K (execNlaunchDelivery c hq id s) := by
  unfold Machine.execNlaunchDelivery
  refine .next ?_
  split
  · exact hs
  · dsimp only
    split
    · split
      · exact .laterOn hs
      · exact .ite (.laterOn hs) (.planHob (.updHob (.ite (.startNext (.updStoker hs)) (.updStoker hs))))
    · exact hs

theorem State.Keeps.execNstat {h : Hdr} {d a : XReg} {sel : NstatSel} {s : State} (hs : s.Canonical G K) :
    State.Keeps G K (execNstat h d a sel s) := by
  unfold Machine.execNstat
  refine .issue (fun _ _ hs' => ?_) hs
  split
  · exact .resultRead hs'
  · exact .sometime (.waitFor hs')
  · exact .sometime (.waitFor hs')

/-! ### System instructions -/

theorem State.Keeps.sysUpdate {h : Hdr} {d : XReg} {n : Nat} {new old : Word} {s : State} (hs : s.Canonical G K) :
    State.Keeps G K (sysUpdate h d n new old s) :=
  .issue (fun _ _ hs' => .resultRead (.writeSys hs')) hs

theorem State.Keeps.execTlbinvComplete {s : State} (hs : s.Canonical G K) : State.Keeps G K (execTlbinvComplete s) := by
  unfold Machine.execTlbinvComplete
  refine .next ?_
  split
  · exact hs
  · dsimp only
    split
    · exact .unitEnd (.same hs)
    · split
      · exact .stepMigration (.same hs)
      · exact .afterInval (.same hs)

theorem State.Keeps.ctxOp {h : Hdr} {d a b : XReg} {load : Bool} {s : State} (hs : s.Canonical G K) : State.Keeps G K (ctxOp h d a b load s) :=
  .issue (fun _ _ hs' => .resultRead (.ite (.startEngine hs') hs')) hs

/-! ### Events of a core -/

theorem State.Keeps.execLatchReinject {c : CoreId} {st : StrandId} {r : Result} {s : State} (hs : s.Canonical G K) :
    State.Keeps G K (execLatchReinject c st r s) := by
  unfold Machine.execLatchReinject
  refine .next ?_
  split
  · exact .perform (.land hs)
  · exact hs

theorem State.Keeps.execStallTrap {c : CoreId} {st : StrandId} {s : State} (hs : s.Canonical G K) : State.Keeps G K (execStallTrap c st s) := by
  unfold Machine.execStallTrap
  refine .next ?_
  dsimp only
  split
  · exact .stallWait hs
  · split
    · exact .stallBlocked hs
    · exact hs

theorem State.Keeps.execShadowPageFill {bid va : Nat} {s : State} (hs : s.Canonical G K) : State.Keeps G K (execShadowPageFill bid va s) := by
  unfold Machine.execShadowPageFill
  refine .next ?_
  split
  · exact hs
  · split
    · exact hs
    · split
      · exact .fillShadow hs
      · exact .ite hs (.copyShadow hs)

theorem State.Keeps.execCommitGroupSwap {s : State} (hs : s.Canonical G K) : State.Keeps G K (execCommitGroupSwap s) := by
  unfold Machine.execCommitGroupSwap
  refine .next ?_
  split
  · exact hs
  · exact .ite (.swapShadows hs) (.updBinding (.discardShadows hs))

theorem State.Keeps.execTaskRetire {s : State} (hs : s.Canonical G K) : State.Keeps G K (execTaskRetire s) := by
  unfold Machine.execTaskRetire
  refine .next ?_
  split
  · exact hs
  · dsimp only
    split
    · split
      · split
        · exact .sometime (.freeCore (.foldl (fun _ _ ha => .updCore (fun _ hk => .clearFlue hk) ha) (.updCore (fun _ hk => .same hk)
          (.updBinding hs))))
        · exact .foldl (fun _ _ ha => .updCore (fun _ hk => .clearFlue hk) ha) (.updCore (fun _ hk => .same hk) (.updBinding hs))
      · split
        · exact .sometime (.freeCore (.updCore (fun _ hk => .same hk) (.updBinding hs)))
        · exact .updCore (fun _ hk => .same hk) (.updBinding hs)
    · split
      · exact .sometime (.freeCore (.updCore (fun _ hk => .same hk) (.updBinding hs)))
      · exact .updCore (fun _ hk => .same hk) (.updBinding hs)

/-! ### The Librarian -/

theorem State.Keeps.execPlacement {s : State} (hs : s.Canonical G K) : State.Keeps G K (execPlacement s) := by
  unfold Machine.execPlacement
  extract_lets first r t drawn
  have hfirst : first.Canonical G K := .standFirst hs
  have ht : t.Canonical G K := by
    dsimp only [t]
    cases eq : r with
    | none => exact hfirst
    | some u => exact .placeFirst (Option.ite_none_left_eq_some.mp eq).2 hfirst
  have hdrawn : drawn.Canonical G K := .same ht
  exact .next (.ite (.post hdrawn) hdrawn)

/-! ### Pre-emption, save and load -/

theorem State.Keeps.execFreezeHorizon {s : State} (hs : s.Canonical G K) : State.Keeps G K (execFreezeHorizon s) := by
  unfold Machine.execFreezeHorizon
  refine .next ?_
  split
  · exact hs
  · exact .updBinding hs

theorem State.Keeps.execBindingResume {bid : Nat} {s : State} (hs : s.Canonical G K) : State.Keeps G K (execBindingResume bid s) := by
  unfold Machine.execBindingResume
  refine .next ?_
  split
  · exact hs
  · exact .ite (.resumeBinding hs) hs

theorem State.Keeps.execBindingFault {bid : Nat} {s : State} (hs : s.Canonical G K) : State.Keeps G K (execBindingFault bid s) := by
  unfold Machine.execBindingFault
  refine .next ?_
  split
  · exact hs
  · exact .ite hs (.endBinding (.faultEvents hs))

theorem State.Keeps.execPreemptRequest {bid : Nat} {s : State} (hs : s.Canonical G K) : State.Keeps G K (execPreemptRequest bid s) := by
  unfold Machine.execPreemptRequest
  refine .next ?_
  split
  · exact hs
  · split
    · exact hs
    · exact .foldl (fun _ _ ha => .ite (.abortStoker (.updStoker (.same ha))) (.updStoker (.same ha))) (.updBinding hs)

theorem State.Keeps.execPreemptDrainLimit {s : State} (hs : s.Canonical G K) : State.Keeps G K (execPreemptDrainLimit s) := by
  unfold Machine.execPreemptDrainLimit
  refine .next ?_
  split
  · exact hs
  · exact .foldl (fun _ _ ha => .updCore (fun _ hk => .same hk) ha) (.same hs)

theorem State.Keeps.execPreemptComplete {s : State} (hs : s.Canonical G K) : State.Keeps G K (execPreemptComplete s) := by
  unfold Machine.execPreemptComplete
  refine .next ?_
  split
  · exact hs
  · refine .foldl (fun _ _ ha => .saveStoker ha) (.foldl (fun _ _ ha => ?_) (.updBinding hs))
    split
    · exact ha
    · refine .foldl (fun _ _ ha' => ?_) ha
      split
      · split
        · exact .abandon ha'
        · exact .abandon ha'
        · exact ha'
      · exact ha'

theorem State.Keeps.execSaveEnd {s : State} (hs : s.Canonical G K) : State.Keeps G K (execSaveEnd s) := by
  unfold Machine.execSaveEnd
  refine .next ?_
  split
  · exact hs
  · split
    · exact .ite (.saveCore hs) (.outcome hs)
    · exact .outcome hs

theorem State.Keeps.execLoadEnd {s : State} (hs : s.Canonical G K) : State.Keeps G K (execLoadEnd s) := by
  unfold Machine.execLoadEnd
  refine .next ?_
  split
  · exact hs
  · split
    · exact .ite (.outcome hs) (.loadCore hs)
    · exact hs

/-! ### Dispatch -/

theorem State.Keeps.execDispatchPrepare {s : State} (hs : s.Canonical G K) : State.Keeps G K (execDispatchPrepare s) := by
  unfold Machine.execDispatchPrepare
  refine .next ?_
  dsimp only
  split
  · exact .ite (.post hs) hs
  · split
    · exact .setBands (.setCore (fun a => .preparedCore (a _)) (.ite (.post hs) hs))
    · exact .endBinding (.ite (.post hs) hs)

theorem State.Keeps.execBindingRelease {s : State} (hs : s.Canonical G K) : State.Keeps G K (execBindingRelease s) := by
  unfold Machine.execBindingRelease
  refine .next ?_
  split
  · exact hs
  · split
    · dsimp only
      split
      · exact .resumeBinding (.renameCores hs)
      · exact .renameCores hs
    · exact .same (.foldl (fun _ _ ha => .updCore (fun _ hk => .start hk) ha) (.updBinding (.ite (.event hs) hs)))

theorem State.Keeps.execCompletionReport {s : State} (hs : s.Canonical G K) : State.Keeps G K (execCompletionReport s) := by
  unfold Machine.execCompletionReport
  refine .next ?_
  split
  · exact hs
  · refine .sometime ?_
    split
    · exact .same (.removeBinding (.ite (.discardShadows hs) hs))
    · exact .report (.removeBinding (.ite (.discardShadows hs) hs))

theorem State.Keeps.execCoreGate {s : State} (hs : s.Canonical G K) : State.Keeps G K (execCoreGate s) := by
  unfold Machine.execCoreGate
  refine .next ?_
  split
  · exact hs
  · exact .updCore (fun _ hk => .same hk) hs

theorem State.Keeps.execIdleCoreTimeout {s : State} (hs : s.Canonical G K) : State.Keeps G K (execIdleCoreTimeout s) := by
  unfold Machine.execIdleCoreTimeout
  refine .next ?_
  split
  · exact hs
  · exact .updCore (fun _ hk => .same hk) hs

theorem State.Keeps.execPartitionInstall {s : State} (hs : s.Canonical G K) : State.Keeps G K (execPartitionInstall s) := by
  unfold Machine.execPartitionInstall
  refine .next ?_
  split
  · exact hs
  · refine .ite hs ?_
    extract_lets old gone keep lib installed dropped never ended
    have hinstalled : installed.Canonical G K := by
      refine .changeCores hs fun c all => ?_
      show Core.Canonical (Vector.ofFn _)[c.val]
      rw [Vector.getElem_ofFn]
      exact .same (all c)
    clear_value installed
    have hdropped : dropped.Canonical G K := .foldl (fun _ _ h => by
      split
      · exact .ite (.dropQueue h) h
      · exact h) hinstalled
    have hended : ended.Canonical G K := .foldl (fun _ _ h => .endRecord h) hdropped
    exact .sometime hended

theorem State.Keeps.execCreateq {s : State} (hs : s.Canonical G K) : State.Keeps G K (execCreateq s) := by
  unfold Machine.execCreateq
  refine .next (.command (fun _ _ hs' => ?_) hs)
  dsimp only
  split
  · exact hs'
  · split
    · exact hs'
    · exact .same hs'

theorem State.Keeps.execDeleteq {s : State} (hs : s.Canonical G K) : State.Keeps G K (execDeleteq s) := by
  unfold Machine.execDeleteq
  refine .next (.command (fun _ _ hs' => ?_) hs)
  dsimp only
  split
  · exact hs'
  · exact .dropQueue hs'

theorem State.Keeps.execPartition {s : State} (hs : s.Canonical G K) : State.Keeps G K (execPartition s) := by
  unfold Machine.execPartition
  refine .next (.command (fun _ _ hs' => ?_) hs)
  dsimp only
  split
  · exact hs'
  · split
    · exact hs'
    · exact .same hs'

theorem State.Keeps.execCancel {s : State} (hs : s.Canonical G K) : State.Keeps G K (execCancel s) := by
  unfold Machine.execCancel
  refine .next (.command (fun _ _ hs' => ?_) hs)
  dsimp only
  split
  · exact hs'
  · split
    · exact .endBinding hs'
    · exact .foldl (fun _ _ ha => .endBinding ha) (.foldl (fun _ _ ha => .endRecord ha) hs')

theorem State.Keeps.execAccession {s : State} (hs : s.Canonical G K) : State.Keeps G K (execAccession s) := by
  unfold Machine.execAccession
  refine .next (.command (fun _ _ hs' => ?_) hs)
  dsimp only
  split
  · exact hs'
  · split
    · exact hs'
    · exact .queueAccession hs'

theorem State.Keeps.execRegmr {s : State} (hs : s.Canonical G K) : State.Keeps G K (execRegmr s) := by
  unfold Machine.execRegmr
  refine .next (.command (fun _ _ hs' => ?_) hs)
  dsimp only
  split
  · exact hs'
  · exact .same hs'

/-! ### The host -/

theorem State.Keeps.execRdmaWriteWithImmediate {qp : Fin 256} {rkey : Word32} {va : Nat} {bytes : List Byte} {imm : Word32} {s : State}
    (hs : s.Canonical G K) :
    State.Keeps G K (execRdmaWriteWithImmediate qp rkey va bytes imm s) := by
  unfold Machine.execRdmaWriteWithImmediate
  refine .next ?_
  dsimp only
  split
  · next eq => exact .ite (.launchSignal (.of_pair eq (.hostWrite hs))) (.of_pair eq (.hostWrite hs))
  · next eq => exact .of_pair eq (.hostWrite hs)

theorem State.Keeps.execRdmaRead {qp : Fin 256} {rkey : Word32} {va n : Nat} {s : State} (hs : s.Canonical G K) :
    State.Keeps G K (execRdmaRead qp rkey va n s) := by
  unfold Machine.execRdmaRead
  refine .next ?_
  split
  · exact hs
  · split
    · exact .nakAccess hs
    · split
      · exact .reply hs
      · split
        · refine .reply ?_
          split
          · exact .countCorrected hs
          · exact .same (.errorRecord hs)
        · exact .nakAccess hs

theorem State.Keeps.execReceiveBufferPosted {part : Fin 4} {s : State} (hs : s.Canonical G K) : State.Keeps G K (execReceiveBufferPosted part s) := by
  unfold Machine.execReceiveBufferPosted
  refine .next ?_
  split <;> exact .same hs

theorem State.Keeps.execQuarantineRelease {s : State} (hs : s.Canonical G K) : State.Keeps G K (execQuarantineRelease s) := by
  unfold Machine.execQuarantineRelease
  refine .next ?_
  split
  · exact hs
  · exact .same hs

theorem State.Keeps.execMigration {asid va dst : Nat} {s : State} (hs : s.Canonical G K) : State.Keeps G K (execMigration asid va dst s) := by
  unfold Machine.execMigration
  refine .next ?_
  split
  · exact hs
  · exact .ite hs (.ownInval (.ownStripe (.change hs (fun h => Mem.wf_setWord h _ _))))

/-! ### Links -/

theorem State.Keeps.execRemoteAccess {dev : Nat} {addr : Nat} {op : RemoteOp} {_rel : Bool} {s : State} (hs : s.Canonical G K) :
    State.Keeps G K (execRemoteAccess dev addr op _rel s) := by
  unfold Machine.execRemoteAccess
  refine .next ?_
  split
  · exact hs
  · split
    · exact .queueRemote hs
    · split
      · next eq => exact .of_pair eq (.tryRemote hs)
      · next eq => exact .queueRemote (.of_pair eq (.tryRemote hs))

/-! ### Power and sensors -/

theorem State.Keeps.execHopComplete {s : State} (hs : s.Canonical G K) : State.Keeps G K (execHopComplete s) := by
  unfold Machine.execHopComplete
  refine .next ?_
  split
  · exact hs
  · exact .updIsland (.noteStep hs)

theorem State.Keeps.execHopRetry {s : State} (hs : s.Canonical G K) : State.Keeps G K (execHopRetry s) := by
  unfold Machine.execHopRetry
  refine .next ?_
  split
  · exact hs
  · exact .updIsland hs

theorem State.Keeps.execAdviseTrip {s : State} (hs : s.Canonical G K) : State.Keeps G K (execAdviseTrip s) := by
  unfold Machine.execAdviseTrip
  refine .next ?_
  split
  · exact hs
  · extract_lets noted
    have hnoted : noted.Canonical G K := .updSensor hs
    clear_value noted
    exact .event (.same hnoted)

theorem State.Keeps.execThrottleTrip {s : State} (hs : s.Canonical G K) : State.Keeps G K (execThrottleTrip s) := by
  unfold Machine.execThrottleTrip
  refine .next ?_
  split
  · exact hs
  · exact .updIsland (.updSensor hs)

theorem State.Keeps.execThrottleStep {s : State} (hs : s.Canonical G K) : State.Keeps G K (execThrottleStep s) := by
  unfold Machine.execThrottleStep
  refine .next ?_
  split
  · exact hs
  · exact .ite (.updIsland (.ite (.startHop hs) hs)) (.ite (.updIsland (.startHop hs)) (.updIsland hs))

theorem State.Keeps.execTripEnd {s : State} (hs : s.Canonical G K) : State.Keeps G K (execTripEnd s) := by
  unfold Machine.execTripEnd
  refine .next ?_
  split
  · exact hs
  · exact .ite (.updSensor hs) (.updIsland (.updSensor hs))

theorem State.Keeps.execShutdownTrip {s : State} (hs : s.Canonical G K) : State.Keeps G K (execShutdownTrip s) := by
  unfold Machine.execShutdownTrip
  refine .next ?_
  split
  · exact hs
  · extract_lets shut
    have hshut : shut.Canonical G K := .updSensor hs
    clear_value shut
    split
    next eq => exact .post (.same (.of_pair' eq (.draw hshut)))

theorem State.Keeps.execLibrarianRegisterWrite {r : LibReg} {v : Word} {s : State} (hs : s.Canonical G K) :
    State.Keeps G K (execLibrarianRegisterWrite r v s) := by
  unfold Machine.execLibrarianRegisterWrite
  refine .next ?_
  split
  · exact .updCore (fun _ hk => .same hk) hs
  · exact .updCore (fun _ hk => .same hk) hs
  · exact .updIsland hs
  · exact .same hs
  · exact .setFstep hs
  · exact .updSensor hs
  · exact .writeSlot hs
  · exact .writeStokerSlot hs
  · exact .mapPage hs
  · exact .mapCompute hs
  · exact .poolPage hs
  · exact .freePage hs
  · exact .setQp hs
  · exact .setQp hs
  · exact .same hs
  · exact .ite hs (.startEngine hs)

/-! ### Boot -/

theorem State.Keeps.execOrderlyShutdown {s : State} (hs : s.Canonical G K) : State.Keeps G K (execOrderlyShutdown s) := by
  have hf : s.foldLife.Canonical G K := .foldLife hs
  unfold Machine.execOrderlyShutdown
  generalize s.foldLife = t at hf
  exact .next (.same hf)

theorem State.Keeps.execInstall {s : State} (hs : s.Canonical G K) : State.Keeps G K (execInstall s) := by
  unfold Machine.execInstall
  refine .next ?_
  split
  · exact hs
  · dsimp only
    split
    · exact .restart
    · exact .answer (.same hs)

theorem State.Keeps.execRecover {s : State} (hs : s.Canonical G K) : State.Keeps G K (execRecover s) := by
  unfold Machine.execRecover
  refine .next ?_
  split
  · exact hs
  · exact .ite (.same hs) (.ite (.answer (.same hs)) (.ite (.answer (.same hs)) .restart))

/-! ### Control instructions -/

theorem State.Keeps.branch {h : Hdr} {taken : Bool} {pos : Nat} {s : State} (hs : s.Canonical G K) : State.Keeps G K (branch h taken pos s) :=
  .issue (fun _ _ hs' => .pushNow (.ite (.goto hs') hs')) hs

/-! ### Integer instructions -/

theorem State.Keeps.intOp {h : Hdr} {lat : Nat} {d : XReg} {v : Word} {s : State} (hs : s.Canonical G K) : State.Keeps G K (intOp h lat d v s) :=
  .issue (fun _ _ hs' => .xres hs') hs

theorem State.Keeps.divOp {h : Hdr} {d : XReg} {v : Word} {zero : Bool} {s : State} (hs : s.Canonical G K) : State.Keeps G K (divOp h d v zero s) :=
  .issue (fun _ _ hs' => .result hs') hs

/-! ### Streams -/

theorem State.Keeps.qOp {h : Hdr} {d : QReg} {data mask : BitVec 256} {s : State} (hs : s.Canonical G K) : State.Keeps G K (qOp h d data mask s) :=
  .issue (fun _ _ hs' => .resultRead hs') hs

/-! ### Vector moves -/

theorem State.Keeps.vMove {h : Hdr} {d : VReg} {w lat : Nat} {es : List (Nat × Nat)} {s : State} (hs : s.Canonical G K) :
    State.Keeps G K (vMove h d w lat es s) :=
  .issue (fun _ _ hs' => .result hs') hs

theorem State.Keeps.vMoveMap {h : Hdr} {d : VReg} {k : KReg} {f : Fmt} {lat : Nat} {op : Nat → Nat} {s : State} (hs : s.Canonical G K) :
    State.Keeps G K (vMoveMap h d k f lat op s) :=
  .vMove hs

theorem State.Keeps.vWhole {h : Hdr} {d : VReg} {v : VecData} {s : State} (hs : s.Canonical G K) : State.Keeps G K (vWhole h d v s) :=
  .issue (fun _ _ hs' => .result hs') hs

/-! ### All instructions and events -/

/-- Every instruction and every event keeps the canonical form. -/
theorem State.Keeps.exec {i : Instr} {s : State} (hs : s.Canonical G K) : State.Keeps G K (exec i s) := by
  unfold Machine.exec
  cases i with
  | charbWrite => exact .next (.ite hs (.updStoker hs))
  | budgetPeriod => exact .next (.sometime (.same hs))
  | refresh => exact .next (.updStoker (.same (.same hs)))
  | refreshManagement => exact .execRefreshManagement hs
  | tenureEnd => exact .execTenureEnd hs
  | lds | ldp => exact .lsLoad hs
  | sts | stp => exact .lsStore hs
  | ldg | ldx => exact .farLoad hs
  | stg | stx => exact .farStore hs
  | binit | barr | wset | wwake | npost => exact .objUpdate hs
  | bwait | bwaitt | wwait | wqwait | nwait => exact .objWait hs
  | bpoll | wpoll => exact .objPoll hs
  | waitRelease => exact .next (.release hs)
  | bwaittExpiry => exact .execBwaittExpiry hs
  | storePerform => exact .next (.performAccess hs)
  | aml | amp => exact .lsAtomic hs
  | amg | amx => exact .farAtomic hs
  | copyGroupTransfer => exact .execCopyGroupTransfer hs
  | flueBeatPerform => exact .execFlueBeatPerform hs
  | flueDegrade => exact .next (.ite (.foldl (fun _ _ ha => .updCore (fun _ hk => .same hk) ha) (.same hs)) (.same hs))
  | copyChunkRead => exact .execCopyChunkRead hs
  | copyChunkPerform => exact .execCopyChunkPerform hs
  | cpLl | cpLp | cpPl | cpLf | cpLw | cpLg | cpGl | cpGg | cpLx | cpXl | cpGx | cpXg | cpAl | cpAg | cpAw | cpGw => exact .copyOp hs
  | lred | lbcast | lgath => exact .collOp hs
  | acc => exact .issue (fun _ _ hs' => .resultRead (.ite (.queueAccession hs') hs')) hs
  | accq | nabort => exact .issue (fun _ _ hs' => .sometime (.waitFor hs')) hs
  | readingRoomFill => exact .next (.ite (.post (.shrinkRoom hs)) (.post (.same (.same (.shrinkRoom hs)))))
  | fillComplete => exact .execFillComplete hs
  | rrsizeWrite => exact .next (.ite (.same hs) hs)
  | rrsizeApply => exact .execRrsizeApply hs
  | accessionStart => exact .execAccessionStart hs
  | accessionComplete => exact .execAccessionComplete hs
  | wearDay => exact .next (.foldLife (.same hs))
  | fluePut => exact .issue (fun _ _ hs' => .fluePutEffect hs') hs
  | flueGet => exact .issue (fun _ _ hs' => .flueGetEffect hs') hs
  | flueFree | srd | qget | qchk => exact .issue (fun _ _ hs' => .resultRead hs') hs
  | vadd | vsub | vmul => exact .vBin hs
  | vfma | vfms | vfnma => exact .vFused hs
  | vmin | vmax | vclamp | vabs | vneg | vround | vclass | vdiv | vsqrt | vrcp => exact .vMap hs
  | vrsq | vexp | vexp2 | vlog | vlog2 | vsin | vcos | vtanh => exact .vBounded hs
  | vld => exact .issue (fun _ _ hs' => .vldEffect hs') hs
  | vst => exact .issue (fun _ _ hs' => .vstEffect hs') hs
  | vacr => exact .issue (fun _ _ hs' => .vacrEffect hs') hs
  | vacw => exact .issue (fun _ _ hs' => .vacwEffect hs') hs
  | mloadbStart | mmaStart | mzeroStart | mdrainStart => exact .next (.updCmd hs)
  | accumulatorRowWrite => exact .execAccumulatorRowWrite hs
  | drainRowWrite => exact .execDrainRowWrite hs
  | mloadb | mma | mdrain | mzero => exact .issue (fun _ _ hs' => .accept hs') hs
  | wswap => exact .issue (fun _ _ hs' => .pushNow (.laterOn hs')) hs
  | hcut => exact .issue (fun _ _ hs' => .hcutEffect hs') hs
  | hchain => exact .issue (fun _ _ hs' => .hchainEffect hs') hs
  | reshapeComplete => exact .execReshapeComplete hs
  | chainReady => exact .execChainReady hs
  | vcvt => exact .vConv hs
  | vqnt | vdqnt => exact .vScaled hs
  | vredadd | vredmax | vredmin => exact .vRed hs
  | groupStart => exact .execGroupStart hs
  | gemv | reduce | map | ncopy => exact .next (.runCommand hs)
  | nmFence => exact .next (.boundary (fun _ _ hg => .nextCommand hg) hs)
  | semwait => exact .execSemwait hs
  | semwaitTimeout => exact .execSemwaitTimeout hs
  | sempost => exact .execSempost hs
  | commit => exact .next (.boundary (fun _ _ hg => .ite (.endRunning hg) (.nextCommand (.foldl (fun _ _ ha => .storeAt ha) (.updStoker hg)))) hs)
  | abort => exact .execAbort hs
  | nlaunch => exact .issue (fun _ _ hs' => .nlaunchEffect hs') hs
  | nlaunchDelivery => exact .execNlaunchDelivery hs
  | nstat => exact .execNstat hs
  | dsync => exact .issue (fun _ _ hs' => .dsyncEffect hs') hs
  | dsyncComplete => exact .next (.ite (.post hs) (.foldl (fun _ _ ha => .finishDsync (.updStrand ha)) (.same hs)))
  | swr => exact .issue (fun _ _ hs' => .pushNow (.writeSys hs')) hs
  | sset | sclr => exact .sysUpdate hs
  | srseedWrite | earlyrdWrite | coreGateRequest | capcfgWrite => exact .next (.updCore (fun _ hk => .same hk) hs)
  | fcsrWrite => exact .next (.updStrand hs)
  | tlbinv => exact .issue (fun _ _ hs' => .startInval (.waitFor hs')) hs
  | tlbinvComplete => exact .execTlbinvComplete hs
  | ctxsave | ctxload => exact .ctxOp hs
  | idle => exact .issue (fun _ _ hs' => .waitFor (.pushNow hs')) hs
  | evpost => exact .issue (fun _ _ hs' => .evpostEffect hs') hs
  | resultWrite => exact .next (.perform (.land hs))
  | latchReinject => exact .execLatchReinject hs
  | stallTrap => exact .execStallTrap hs
  | interrupt => exact .next (.interruptTo hs)
  | shadowPageFill => exact .execShadowPageFill hs
  | commitGroupSwap => exact .execCommitGroupSwap hs
  | taskRetire => exact .execTaskRetire hs
  | eligibilityTest => exact .next (.post (.same (.foldl (fun _ _ hp => .endRecord hp) (.flushReports hs))))
  | placement => exact .execPlacement hs
  | freezeHorizon => exact .execFreezeHorizon hs
  | bindingResume => exact .execBindingResume hs
  | bindingFault => exact .execBindingFault hs
  | preemptRequest => exact .execPreemptRequest hs
  | preemptDrainLimit => exact .execPreemptDrainLimit hs
  | preemptComplete => exact .execPreemptComplete hs
  | saveEnd => exact .execSaveEnd hs
  | loadEnd => exact .execLoadEnd hs
  | dispatchPrepare => exact .execDispatchPrepare hs
  | bindingRelease => exact .execBindingRelease hs
  | completionReport => exact .execCompletionReport hs
  | coreGate => exact .execCoreGate hs
  | idleCoreTimeout => exact .execIdleCoreTimeout hs
  | partitionInstall => exact .execPartitionInstall hs
  | createq => exact .execCreateq hs
  | deleteq => exact .execDeleteq hs
  | partition => exact .execPartition hs
  | cancel => exact .execCancel hs
  | accession => exact .execAccession hs
  | acccancel => exact .next (.command (fun _ _ hs' => .same hs') hs)
  | regmr => exact .execRegmr hs
  | rdmaWrite => exact .next (.hostWrite hs)
  | rdmaWriteWithImmediate => exact .execRdmaWriteWithImmediate hs
  | rdmaRead => exact .execRdmaRead hs
  | invalidRequest => exact .next (.ite (.reply hs) hs)
  | portDown | laneFault | patrolScrub | powerLoss | attestationRequest => exact .next (.same hs)
  | receiveBufferPosted => exact .execReceiveBufferPosted hs
  | quarantineRelease => exact .execQuarantineRelease hs
  | migration => exact .execMigration hs
  | domainFormation => exact .next (.ite hs (.same (.same hs)))
  | hcCorrection => exact .next (.ite hs (.same hs))
  | deviceRemoval => exact .next (.ite hs (.foldl (fun _ _ ha => .loseAccess ha) (.same hs)))
  | remoteAccess => exact .execRemoteAccess hs
  | hop => exact .next (.setFstep hs)
  | hopComplete => exact .execHopComplete hs
  | hopRetry => exact .execHopRetry hs
  | supplyDroop => exact .next (.ite (.updIsland hs) (.ite (.post (.updIsland (.updIsland hs))) (.updIsland (.updIsland hs))))
  | droopEnd | reserveHoldEnd => exact .next (.updIsland hs)
  | powerLease => exact .next (.ite hs (.capChanged (.same hs)))
  | leaseExpiry => exact .next (.ite (.capChanged (.same hs)) hs)
  | temperatureSample => exact .next (.foldl (fun _ _ ha => .same ha) (.foldl (fun _ _ ha => .capture ha) (.same hs)))
  | adviseTrip => exact .execAdviseTrip hs
  | throttleTrip => exact .execThrottleTrip hs
  | throttleStep => exact .execThrottleStep hs
  | tripEnd => exact .execTripEnd hs
  | shutdownTrip => exact .execShutdownTrip hs
  | librarianRegisterWrite => exact .execLibrarianRegisterWrite hs
  | coldReset => exact .next .restart
  | orderlyShutdown => exact .execOrderlyShutdown hs
  | install => exact .execInstall hs
  | recover => exact .execRecover hs
  | nop | take => exact .issue (fun _ _ hs' => .noEffect hs') hs
  | wait | trap => exact .issue (fun _ _ hs' => .pushNow (.updStrand hs')) hs
  | j | jr | beq | bne | blt | bge | bltu | bgeu | bbit => exact .branch hs
  | call => exact .issue (fun _ _ hs' => .callEffect hs') hs
  | ret => exact .issue (fun _ _ hs' => .retEffect hs') hs
  | loop => exact .issue (fun _ _ hs' => .loopEffect hs') hs
  | lexit => exact .issue (fun _ _ hs' => .pushNow (.goto (.updStrand hs'))) hs
  | retire => exact .issue (fun _ _ hs' => .updStrand (.dropInterrupt hs')) hs
  | eret => exact .issue (fun _ _ hs' => .returnFrom (.pushNow hs')) hs
  | give => exact .issue (fun _ _ hs' => .later hs') hs
  | mark => exact .issue (fun _ _ hs' => .pushNow (.markNow hs')) hs
  | fence => exact .issue (fun _ _ hs' => .fence hs') hs
  | tfence => exact .issue (fun _ _ hs' => .waitFor hs') hs
  | dtwait => exact .issue (fun _ _ hs' => .dtwaitEffect hs') hs
  | add | sub | and | or | xor | sll | srl | sra | addi | andi | ori | xori | slli | srli | srai | li | lih | slt | sltu | slti | min
    | max | minu | maxu | mul | mulh | mulhu | popc => exact .intOp hs
  | div | divu | rem | remu => exact .divOp hs
  | qset | qmov | qadv | qwp => exact .qOp hs
  | qld => exact .issue (fun _ _ hs' => .resultLater (.sendRead hs')) hs
  | qst => exact .issue (fun _ _ hs' => .sendAccess hs') hs
  | vcmp | kop | kmov => exact .issue (fun _ _ hs' => .result hs') hs
  | vsel => exact .vMove hs
  | vmov | vlop3 | vsll | vsrl | vsra | vperm | vslide | vbcast | vsplat => exact .vMoveMap hs
  | vpopc | vext => exact .issue (fun _ _ hs' => .xres hs') hs
  | vfsl | vfsr | vrot => exact .vWhole hs

end Sys2Proof.Machine

/-! Turns, ticks and steps keep the canonical form (log entry 3). -/

namespace Sys2Proof.Machine

variable {G K : Prop}

/-- What instructions and events mean keeps the canonical form. -/
def KeepsMeaning (G K : Prop) (ex : Instr → State → Host.Outcome State Fault Refusal) : Prop :=
  ∀ i s, s.Canonical G K → State.Keeps G K (ex i s)

namespace State.Keeps

variable {ex : Instr → State → Host.Outcome State Fault Refusal} {s : State} (hex : KeepsMeaning G K ex)
include hex

theorem runWork (hs : s.Canonical G K) (w : Work) : State.Keeps G K (s.runWork ex w) := by
  unfold State.runWork
  cases w with
  | ev i => exact hex i s hs
  | flight c st o =>
    dsimp only
    split
    · exact hex _ _ hs
    · exact .next hs
  | lsRead r => exact .next (.readLs hs)
  | push c st p n => exact .next (.push hs)
  | objRead => exact .next (.readObject hs)
  | objJudge => exact .next (.judgeWait hs)
  | farRead => exact .next (.readFar hs)
  | unitDone => exact .next (.unitEnd hs)
  | holds => exact .next (.judgeHolds hs)
  | rowRead => exact .next (.rowRow hs)
  | scaleRead => exact .next (.readScale hs)
  | topRead => exact .next (.topOf hs)
  | rowLeave => exact .next (.leaveRow hs)
  | drainRead => exact .next (.drainCells hs)
  | zeroRows => exact .next (.zeroGroup hs)
  | loadRead => exact .next (.loadCycle hs)
  | loadDone => exact .next (.loadEnd hs)
  | accq => exact .next (.unitEnd hs)
  | evpost c st o code v =>
    refine .next ?_
    split
    · exact .ite (.unitEnd (.event hs)) hs
    · exact hs
  | nstat => exact .next (.unitEnd hs)
  | notify => exact .next (.event hs)
  | cellsRead => exact .next (.readCells hs)
  | cellsWrite => exact .next (.writeCells hs)
  | wswap => exact .next (.updCore (fun _ hk => .same hk) hs)
  | chainJudge => exact .next (.judgeChain hs)
  | copyAccept => exact .next (.joinChan hs)
  | wpMove => exact .next (.updCore (fun _ hk => .same hk) hs)
  | copyEnd c i =>
    refine .next ?_
    split
    · exact .endCopy hs
    · exact hs
  | nabort c st o slot all =>
    refine .next ?_
    split
    · refine .ite hs ?_
      split
      · exact .unitEnd (.abortGroups hs)
      · exact .unitEnd hs
    · exact hs
  | accStep => exact .next (.accStep hs)
  | remotes => exact .next (.retryRemotes hs)
  | advise => exact .next (.same hs)
  | enforceCap => exact .next (.enforceCap hs)
  | dtEnd => exact .next (.endDtwait hs)
  | queued => exact .next (.judgeQueued hs)

theorem fetchTurn {c : CoreId} {st : StrandId} (hs : s.Canonical G K) : State.Keeps G K (s.fetchTurn ex c st) := by
  unfold State.fetchTurn
  extract_lets t store
  split
  · exact .next (.imageTrap hs)
  · split
    · next u eq => exact .next (.codeError eq hs)
    · next counted _ _ _ _ =>
      have hcounted : counted.Canonical G K := .ite hs (.countPlaces hs)
      split
      · next i _ _ =>
        have ran := hex i counted hcounted
        split
        · next u eq =>
          rw [eq] at ran
          exact .next (.judgeSources hcounted ran)
        · exact ran
      · exact .next (.illegalWord hcounted)

theorem waitTurn {c : CoreId} {st : StrandId} {w : Wait} (hs : s.Canonical G K) : State.Keeps G K (s.waitTurn ex c st w) := by
  unfold State.waitTurn
  split
  · refine .next ?_
    split
    · exact .ite (.enterNested hs) hs
    · exact hs
  · exact .next (.earlyImage hs)
  · exact .next hs
  · exact .ite (hex _ _ hs) (.next hs)

theorem plainTurn {c : CoreId} {st : StrandId} (hs : s.Canonical G K) : State.Keeps G K (s.plainTurn ex c st) := by
  unfold State.plainTurn
  split
  · exact .waitTurn hex hs
  · exact .ite (.next (.earlyImage hs)) (.fetchTurn hex hs)

theorem strandTurn {c : CoreId} {st : StrandId} (hs : s.Canonical G K) : State.Keeps G K (s.strandTurn ex c st) := by
  unfold State.strandTurn
  refine .ite (.next hs) ?_
  extract_lets t
  split
  · exact .next (.perform (.land hs))
  · split
    · exact .next (.trap hs)
    · split
      · have turn := State.Keeps.plainTurn hex (c := c) (st := st) hs
        split
        · next u eq =>
          rw [eq] at turn
          exact .next (.ite turn (.takeInterrupt hs))
        · exact .next (.takeInterrupt hs)
      · exact .plainTurn hex hs

theorem takeInput {i : Input} {rest : List Input} (hs : s.Canonical G K) : State.Keeps G K (s.takeInput ex i rest) := by
  unfold State.takeInput
  extract_lets t
  have ht : t.Canonical G K := .same hs
  clear_value t
  split
  · exact hex _ _ (.same ht)
  · exact .ite (hex _ _ ht) (.next ht)

theorem beforeCancel {o : Host.Outcome State Fault Refusal} (hs : s.Canonical G K) (eq : s.beforeCancel ex = some o) : State.Keeps G K o := by
  unfold State.beforeCancel at eq
  split at eq
  · exact Option.some.inj eq ▸ .runWork hex (.same hs) _
  · obtain ⟨-, eq⟩ := Option.ite_none_right_eq_some.mp eq
    exact Option.some.inj eq ▸ hex _ _ hs

theorem stepWith (hs : s.Canonical G K) : State.Keeps G K (s.stepWith ex) := by
  unfold State.stepWith
  split
  · next i rest _ =>
    cases eq : (if i.ev = .cancel ∧ s.power = true then s.beforeCancel ex else none) with
    | none => exact .takeInput hex hs
    | some o => exact .beforeCancel hex hs (Option.ite_none_right_eq_some.mp eq).2
  · refine .ite trivial ?_
    split
    · exact hex _ _ hs
    · split
      · exact .runWork hex (.same hs) _
      · split
        · exact .strandTurn hex (.same hs)
        · split
          · exact .next (.endTfence hs)
          · split
            · exact hex _ _ hs
            · exact .next (.tick hs)

end State.Keeps

/-- Whichever of the two memories is known to be canonical stays so. -/
theorem State.Canonical.step {s t : State} (hs : s.Canonical G K) (eq : step s = .next t) : t.Canonical G K := by
  have keeps : State.Keeps G K (Machine.step s) := .stepWith (fun _ _ h => .exec h) hs
  rw [eq] at keeps
  exact keeps

/-- Settles O10: HBM and the cores' memories, each from its own hypothesis. -/
theorem stepKeepsMemoryCanonical : Obligations.StepKeepsMemoryCanonical := by
  unfold Obligations.StepKeepsMemoryCanonical
  refine ⟨fun s t hs eq => ?_, fun s t hs eq => ?_⟩
  · have ht := State.Canonical.step (G := True) (K := False) ⟨fun _ => hs, False.elim⟩ eq
    exact ht.1 trivial
  · have ht := State.Canonical.step (G := False) (K := True) ⟨False.elim, fun _ c => Core.canonical_iff.mpr (hs c)⟩ eq
    exact fun c => Core.canonical_iff.mp (ht.2 trivial c)

end Sys2Proof.Machine
